-- ==== Sys2Proof/Word.lean ====
section
/-! DEFINITION. The word types of the QK7 and their plainest arithmetic (spec/00_scope.md R4, spec/02_notation.md R41). -/

namespace Sys2Proof

/-- One byte. -/
abbrev Byte := BitVec 8
/-- The value of a 32-bit register (R54). -/
abbrev Word := BitVec 32
/-- A 64-bit value: an address, an instruction word, a register pair. -/
abbrev DWord := BitVec 64

/-- Low half of a 64-bit value: the even register of a pair (R4). -/
def lo32 (x : DWord) : Word := x.setWidth 32
/-- High half of a 64-bit value: the odd register of a pair (R4). -/
def hi32 (x : DWord) : Word := (x >>> 32).setWidth 32
/-- The pair whose even register is `l` and whose odd register is `h` (R4). -/
def pair (l h : Word) : DWord := h ++ l

end Sys2Proof
end

