-- ==== Sys2Proof/Config.lean ====
section
/-! DEFINITION. The values the manual leaves open and never states: opaque constants, so that no proof can know one
(log entries 8 and 9). Each is applied to a counter of State, or to the operands it depends on. -/

namespace Sys2Proof.Config

/-- A byte the manual does not state (SORT scratch, a broken ring, an aborted collective, a destroyed key). -/
opaque freeByte : Nat → Byte

/-- A 32-bit value the manual does not state. -/
opaque freeWord : Nat → Word

/-- A truth value the manual does not state (erratum QE-01 at the end of TLTRY's interval, R424). -/
opaque freeBool : Nat → Bool

/-- How far a refilled line's version stamp lies above every stamp given before, less one (R197). -/
opaque freeRise : Nat → Nat

/-- The set of a slice's cache, and of an L1, that a line falls into, and how many lines a slice's set holds: not architectural
(R197, R225; log entry 104). -/
opaque sliceSet : Nat → Nat
opaque sliceWays : Nat → Nat
opaque l1Set : Nat → Nat

/-- SHA-512 of the verified firmware image and of the fuse state (R422), as 512-bit numbers. -/
opaque firmwareMeasure : Nat
opaque fuseMeasure : Nat

/-- The ECDSA P-521 signature (r, s) that die 0's identity key gives to the 200 bytes of a report (R422). -/
opaque attestSign : List Byte → Nat × Nat

end Sys2Proof.Config
end

