-- ==== Sys2Proof/Syntax.lean ====
section
/-! DEFINITION. The syntax of the QK7: operand names, modifiers, the instructions of the Xeric set and the whole steps of
the machine that spec/opcode_table.json lists beside them. -/

namespace Sys2Proof

/-- The read-only specials of R55. -/
inductive Special
  | zero | one | lid | qid | gid | tid | bid | helper | phase | clk | fst
deriving DecidableEq, Repr

/-- An operand name (R54). `bad` keeps a reserved code, which raises ILLOPND only when its instruction issues. -/
inductive Name
  | g (n : Nat)
  | q (n : Nat)
  | w (n : Nat)
  | k (n : Nat)
  | c (n : Nat)
  | sp (x : Special)
  | bad (code : Nat)
deriving DecidableEq, Repr

/-- The guard of an instruction: always (PG = 127), or a predicate, inverted when `neg` (R51). -/
inductive Guard
  | always
  | pred (n : Nat) (neg : Bool)
deriving DecidableEq, Repr

/-- The fields that every instruction word has beside its operands (R51): DIST, SETF (0 for none), NWB and the guard. -/
structure Common where
  dist : Nat
  setf : Nat
  nwb : Bool
  guard : Guard
deriving DecidableEq, Repr

/-- A scope of the ordering machine (R188). -/
inductive Scope
  | core | die | pkg | dom | sys
deriving DecidableEq, Repr

/-- Wrapping or saturating integer results (R112). -/
inductive Sat
  | wrap | ssat | nsat
deriving DecidableEq, Repr

/-- Signedness. -/
inductive Sgn
  | s | n
deriving DecidableEq, Repr

/-- The four integer types of IDIV, IMIN, ICMP (R112). -/
inductive ITy
  | s32 | n32 | s64 | n64
deriving DecidableEq, Repr

/-- The types of INEG and IABS (R112). -/
inductive NegTy
  | s32 | s32sat | s64 | s64sat
deriving DecidableEq, Repr

/-- The conditions of ICMP (R113). -/
inductive ICond
  | eq | ne | lt | le | gt | ge | tst
deriving DecidableEq, Repr

/-- The conditions of FCMP and DCMP (R154). -/
inductive FCond
  | eq | ne | lt | le | gt | ge | un
deriving DecidableEq, Repr

/-- The rounding modes (R141). -/
inductive Rnd
  | rn | rz | rp | rm | rx
deriving DecidableEq, Repr

/-- The floating-point formats (R133, R137, R138). -/
inductive Fmt
  | f32 | f64 | f16 | bf16 | e4m3 | e5m2 | e3m2 | e2m3 | e2m1
deriving DecidableEq, Repr

/-- The types of CVT (R154). -/
inductive CvtTy
  | fl (f : Fmt)
  | int (t : ITy)
deriving DecidableEq, Repr

/-- The forms of FCLS (R160). -/
inductive ClsForm
  | f32 | f64 | fst
deriving DecidableEq, Repr

/-- The modes of VOTE (R173). -/
inductive Vote
  | ballot | any | all | uni
deriving DecidableEq, Repr

/-- The operations of GSCAN and GRED (R178). -/
inductive RedOp
  | add | minS | maxS | minN | maxN | and | or | xor
deriving DecidableEq, Repr

/-- The access types of LD and ST (R200). -/
inductive MemTy
  | n8 | s8 | n16 | s16 | b32 | b64 | b128
deriving DecidableEq, Repr

/-- The operations of ATOM (R200). -/
inductive AtomOp
  | add | minS | maxS | minN | maxN | and | or | xor | exch
deriving DecidableEq, Repr

/-- The ordering modifier of an atomic (R200). -/
inductive Ord
  | none | acq | rel | ar
deriving DecidableEq, Repr

/-- The view formats of a subscription (R212). -/
inductive View
  | exact | bf16 | f16 | e4m3 | e5m2 | e2m1
deriving DecidableEq, Repr

/-- The element type of a subscribed region (R211). -/
inductive EType
  | f32 | bf16
deriving DecidableEq, Repr

/-- What TLWAIT and TLTRY wait on (R91): a team timeline, or a memory word at a scope. -/
inductive TlSel
  | team (n : Nat)
  | mem (sc : Scope) (addr : Name)
deriving DecidableEq, Repr

/-- The source of an MMA's A rows (R300). -/
inductive MmaSrc
  | lane (af : Fmt)
  | hdl (h : Nat)
  | unf (h : Nat)
  | port
deriving DecidableEq, Repr

/-- The form of TBLLD (R317). -/
inductive TblForm
  | slot (n : Nat)
  | bias (tile : Nat)
deriving DecidableEq, Repr

/-- The operation of OLU (R339). -/
inductive OluOp
  | f | s | t | pf | pi
deriving DecidableEq, Repr

/-- The forms of TRET (R379). -/
inductive TretForm
  | plain | skip | kill
deriving DecidableEq, Repr

/-- The operations of TLBINV (R394). -/
inductive TlbOp
  | map | unmap | evict | clrad | query
deriving DecidableEq, Repr

/-- Who owns a phase buffer and a snapshot (R187, R191): a core, or an engine context of a team. -/
inductive Agent
  | core (n : Nat)
  | ctx (team e : Nat)
deriving DecidableEq, Repr

/-- A line as cores and contexts name it: translation context and virtual line address (R211, R369). -/
structure Line where
  ctx : Nat
  addr : Nat
deriving DecidableEq, Repr

/-- A barrier instance (R98): of a gang, of a team, of a band of a launch. -/
inductive Bar
  | gang (team g : Nat)
  | team (team : Nat)
  | band (launch b : Nat)
deriving DecidableEq, Repr

/-- The protected structures of R385, each with the place of the error. -/
inductive Struct
  | regs (team : Nat)
  | cleanLine (line : Line)
  | buffer (a : Agent) (line : Line)
  | piece (phys : Nat)
  | directory (line : Nat) (groups : Option (List Nat))
  | matrix (core : Nat)
  | link (team : Nat)
deriving DecidableEq, Repr

/-- What one member device contributes to a collective (R287). -/
structure Member where
  device : Nat
  kind : Nat
  dtype : Nat
  count : Nat
  root : Nat
  net : Bool
  elems : List Word
deriving DecidableEq, Repr

/-- What a request of a peer device asks for (R405). -/
inductive PeerOp
  | load (n : Nat)
  | fetch (n : Nat)
  | store (bytes : List Byte)
  | atom (op : AtomOp) (wide : Bool) (v : DWord)
  | acas (wide : Bool) (cmp new : DWord)
  | cell
deriving DecidableEq, Repr

/-- The instructions (rows NOP to HALT of spec/opcode_table.json) and the whole steps of the machine (rows CLAUSE_ISSUE
to IEEE_1588_EVENT_MESSAGE). An instruction's first argument holds the fields of R51; a step's arguments name the agent,
line, register or outside input it acts on. -/
inductive Instr
  -- control (04 R90)
  | nop (c : Common)
  | bra (c : Common) (off : Int)
  | brx (c : Common) (a : Name)
  | call (c : Common) (d : Name) (off : Int)
  | callx (c : Common) (d a : Name)
  | ret (c : Common) (a : Name)
  | exit (c : Common)
  | yld (c : Common) (d : Nat)
  | hinty (c : Common)
  | barg (c : Common) (sc : Scope)
  | bart (c : Common) (sc : Scope)
  | barb (c : Common) (sc : Scope)
  | regrp (c : Common)
  | sphase (c : Common) (a : Name)
  | acqx (c : Common) (n : Nat)
  | relx (c : Common) (n : Nat)
  | acqxt (c : Common) (n pd : Nat)
  | tlwait (c : Common) (v : Name) (sel : TlSel)
  | tltry (c : Common) (v : Name) (sel : TlSel) (pd : Nat)
  | tlsig (c : Common) (sc : Scope) (e : Nat)
  -- integer (05 R112)
  | mov (c : Common) (d a : Name) (w64 : Bool)
  | movImm (c : Common) (d : Name) (imm : Int)
  | movk (c : Common) (d : Name) (k : Nat) (hi z : Bool)
  | iadd (c : Common) (d a b : Name) (t : Sat)
  | iaddImm (c : Common) (d a : Name) (imm : Int)
  | isub (c : Common) (d a b : Name) (t : Sat)
  | isubImm (c : Common) (d a : Name) (imm : Int)
  | imul (c : Common) (d a b : Name) (t : Sat)
  | imulImm (c : Common) (d a : Name) (imm : Int)
  | imulh (c : Common) (d a b : Name) (t : Sgn)
  | imad (c : Common) (d a b x : Name) (t : Sat)
  | imadw (c : Common) (d a b x : Name) (t : Sgn)
  | iadd64 (c : Common) (d a b : Name) (t : Sat)
  | isub64 (c : Common) (d a b : Name) (t : Sat)
  | idiv (c : Common) (d a b : Name) (t : ITy)
  | irem (c : Common) (d a b : Name) (t : ITy)
  | ineg (c : Common) (d a : Name) (t : NegTy)
  | iabs (c : Common) (d a : Name) (t : NegTy)
  | imin (c : Common) (d a b : Name) (t : ITy)
  | iminImm (c : Common) (d a : Name) (imm : Int)
  | imax (c : Common) (d a b : Name) (t : ITy)
  | imaxImm (c : Common) (d a : Name) (imm : Int)
  | logt (c : Common) (d a b : Name) (tbl : Nat)
  | shl (c : Common) (d a n : Name) (w64 : Bool)
  | shlImm (c : Common) (d a : Name) (imm : Nat)
  | shr (c : Common) (d a n : Name) (w64 : Bool)
  | shrImm (c : Common) (d a : Name) (imm : Nat)
  | sar (c : Common) (d a n : Name) (w64 : Bool)
  | sarImm (c : Common) (d a : Name) (imm : Nat)
  | rot (c : Common) (d a n : Name) (w64 : Bool)
  | rotImm (c : Common) (d a : Name) (imm : Nat)
  | funl (c : Common) (d lo hi n : Name) (left : Bool)
  | bfx (c : Common) (d a f : Name) (t : Sgn)
  | bfi (c : Common) (d ins base f : Name)
  | popc (c : Common) (d a : Name) (w64 : Bool)
  | clz (c : Common) (d a : Name) (w64 : Bool)
  | ctz (c : Common) (d a : Name) (w64 : Bool)
  | brev (c : Common) (d a : Name) (w64 : Bool)
  | lea (c : Common) (d base idx off : Name) (scale : Nat) (t : Sgn)
  | icmp (c : Common) (pd : Nat) (a b : Name) (cond : ICond) (t : ITy)
  | sel (c : Common) (d a b : Name) (ps : Nat) (inv w64 : Bool)
  | plog (c : Common) (pd pa pb tbl : Nat)
  | prd (c : Common) (d : Name) (bank : Nat)
  | pwr (c : Common) (a m : Name) (bank : Nat)
  -- floating point (06 R153)
  | fadd (c : Common) (d a b : Name) (r : Rnd)
  | fsub (c : Common) (d a b : Name) (r : Rnd)
  | fmul (c : Common) (d a b : Name) (r : Rnd)
  | ffma (c : Common) (d a b x : Name) (r : Rnd)
  | fmin (c : Common) (d a b : Name)
  | fmax (c : Common) (d a b : Name)
  | fcmp (c : Common) (pd : Nat) (a b : Name) (cond : FCond)
  | dcmp (c : Common) (pd : Nat) (a b : Name) (cond : FCond)
  | fdiv (c : Common) (d a b : Name) (r : Rnd)
  | fsqrt (c : Common) (d a : Name) (r : Rnd)
  | frcp (c : Common) (d a : Name)
  | frsq (c : Common) (d a : Name)
  | fexp2 (c : Common) (d a : Name)
  | flog2 (c : Common) (d a : Name)
  | fsin (c : Common) (d a : Name)
  | fcos (c : Common) (d a : Name)
  | frnd (c : Common) (d a : Name) (r : Rnd)
  | fcls (c : Common) (d a : Name) (form : ClsForm)
  | fscl (c : Common) (d a n : Name) (r : Rnd)
  | dadd (c : Common) (d a b : Name) (r : Rnd) (sub : Bool)
  | dmul (c : Common) (d a b : Name) (r : Rnd)
  | dfma (c : Common) (d a b x : Name) (r : Rnd)
  | ddiv (c : Common) (d a b : Name) (r : Rnd)
  | dsqrt (c : Common) (d a : Name) (r : Rnd)
  | badd2 (c : Common) (d a b : Name) (rz sat : Bool)
  | bfma2 (c : Common) (d a b x : Name) (rz sat : Bool)
  | hfma2 (c : Common) (d a b x : Name) (rz sat : Bool)
  | cvt (c : Common) (d a rb : Name) (dt st : CvtTy) (r : Rnd) (sat : Bool)
  | pack (c : Common) (d a j : Name) (f : Fmt)
  | unpk (c : Common) (d a j : Name) (f : Fmt)
  | act (c : Common) (d x : Name) (slot : Nat)
  | actd (c : Common) (d x g : Name) (slot : Nat)
  | xrng (c : Common) (d ctr key : Name)
  | xrngf (c : Common) (d a : Name)
  -- exchange (07 R173)
  | qswp (c : Common) (d v m f : Name) (pv : Nat)
  | qbc (c : Common) (d v j f : Name) (pv : Nat)
  | qdx (c : Common) (d v f : Name) (pv : Nat)
  | qdy (c : Common) (d v f : Name) (pv : Nat)
  | perm (c : Common) (d v x f : Name) (pv : Nat)
  | shup (c : Common) (d v n f : Name) (pv : Nat)
  | shdn (c : Common) (d v n f : Name) (pv : Nat)
  | shxr (c : Common) (d v n f : Name) (pv : Nat)
  | vote (c : Common) (d v : Name) (m : Vote)
  | mtch (c : Common) (d v : Name) (w64 : Bool)
  | gscan (c : Common) (d v seed : Name) (op : RedOp)
  | gred (c : Common) (d v : Name) (op : RedOp)
  | rdix (c : Common) (d base idx f : Name) (pv : Nat)
  | wrix (c : Common) (base v idx : Name) (pv : Nat)
  -- memory (08 R199) and subscriptions (09 R229)
  | ld (c : Common) (d base : Name) (off : Int) (t : MemTy) (a64 : Bool)
  | ldp (c : Common) (d base : Name) (off : Int) (t : MemTy)
  | st (c : Common) (base v : Name) (off : Int) (t : MemTy) (a64 : Bool)
  | stp (c : Common) (base v : Name) (off : Int) (t : MemTy)
  | atom (c : Common) (d base v : Name) (op : AtomOp) (w64 : Bool) (o : Ord) (sc : Scope) (a64 : Bool)
  | acas (c : Common) (d base v : Name) (w64 : Bool) (o : Ord) (sc : Scope) (a64 : Bool)
  | xsum (c : Common) (base v : Name) (bf16 : Bool) (o : Ord) (sc : Scope) (a64 : Bool)
  | xrd (c : Common) (d base : Name) (pair clr : Bool) (o : Ord) (sc : Scope) (a64 : Bool)
  | xclr (c : Common) (base : Name) (sc : Scope) (a64 : Bool)
  | ldv (c : Common) (d base : Name) (off : Int) (a64 : Bool)
  | cms (c : Common) (d base : Name) (pd : Nat) (sc : Scope) (a64 : Bool)
  | fence (c : Common) (sc : Scope)
  | rel (c : Common) (sc : Scope)
  | acq (c : Common) (sc : Scope)
  | sbsc (c : Common) (d base quad : Name) (f : View) (inv : Bool) (t : EType) (a64 : Bool)
  | unsb (c : Common) (d base : Name) (a64 : Bool)
  | sld (c : Common) (d base : Name) (off : Int) (a64 : Bool)
  | supg (c : Common) (d base : Name) (f : View) (a64 : Bool)
  | schg (c : Common) (d base : Name) (a64 : Bool)
  -- streams (10 R255)
  | sbind (c : Common) (port addr : Name)
  | sfree (c : Common) (port : Name)
  | spos (c : Common) (d a : Name) (set : Bool)
  | sdrain (c : Common) (port : Name) (close : Bool)
  | qring (c : Common) (d base quad : Name) (a64 : Bool)
  | qrfree (c : Common) (d base : Name) (a64 : Bool)
  -- copies (11 R280)
  | hdef (c : Common) (d addr : Name) (h e : Nat) (sc : Scope) (a64 : Bool)
  | hqry (c : Common) (d : Name) (h sel : Nat)
  | copy (c : Common) (d addr : Name) (hd hs e : Nat) (sc : Scope) (a64 : Bool)
  | cfill (c : Common) (d addr : Name) (h e : Nat) (sc : Scope) (a64 : Bool)
  | coll (c : Common) (d addr : Name) (e : Nat) (sc : Scope) (a64 : Bool)
  | tlrd (c : Common) (d : Name) (e : Nat) (iss : Bool)
  -- matrix (12 R307)
  | wld (c : Common) (d box : Name) (h e : Nat) (sc : Scope)
  | wswp (c : Common) (d : Name) (e : Nat)
  | mma (c : Common) (d a : Name) (src : MmaSrc) (tile e : Nat) (sc : Scope)
  | mzero (c : Common) (d : Name) (tile e : Nat)
  | mrd (c : Common) (d col : Name) (tile e : Nat) (act : Option Nat) (f : Fmt) (sat : Bool)
  | mwr (c : Common) (d v col : Name) (tile e : Nat) (rs : Bool)
  | mst (c : Common) (d org : Name) (h tile e : Nat) (sc : Scope) (act : Option Nat) (sat : Bool)
  | tblld (c : Common) (d addr : Name) (form : TblForm) (e : Nat) (sc : Scope) (a64 : Bool)
  | mstat (c : Common) (d : Name) (sel : Nat)
  -- physics (13 R339)
  | sort (c : Common) (d addr : Name) (e : Nat) (sc : Scope) (a64 : Bool)
  | bvhq (c : Common) (d q addr : Name) (ray : Bool) (e : Nat) (sc : Scope) (a64 : Bool)
  | qlu (c : Common) (d a : Name) (pd : Option Nat) (w64 : Bool)
  | qlus (c : Common) (d f b : Name) (w64 : Bool)
  | qlut (c : Common) (d f b : Name) (w64 : Bool)
  | qpiv (c : Common) (d v log : Name) (inv w64 : Bool)
  | olu (c : Common) (d a b : Name) (pd : Option Nat) (op : OluOp) (w64 : Bool)
  -- launches (14 R364)
  | lnch (c : Common) (d addr : Name) (a64 : Bool)
  | lrec (c : Common) (d addr quad : Name) (a64 : Bool)
  | lstat (c : Common) (d : Name) (sel : Nat)
  | lease (c : Common) (d quad : Name)
  -- system (15 R389)
  | trap (c : Common) (code : Nat)
  | tret (c : Common) (form : TretForm)
  | csave (c : Common) (d a : Name)
  | crest (c : Common) (d a : Name)
  | tlbinv (c : Common) (d quad : Name) (op : TlbOp)
  | replay (c : Common) (d ctx : Name)
  | rdsr (c : Common) (d : Name) (sr : Nat)
  | wrsr (c : Common) (v : Name) (sr : Nat)
  | evnt (c : Common) (code payload : Name) (int : Bool)
  | halt (c : Common)
  -- whole steps of the machine: issue, flags, waits (04)
  | clauseIssue (core bay : Nat)
  | operationComplete (team gang op lane : Nat)
  | demotionEnd (team gang lane : Nat)
  | watchdog (team gang lane : Nat)
  | barrierComplete (b : Bar)
  | regroup (team : Nat)
  | acqxGrant (core bay : Nat)
  | tlwaitReread (team gang lane : Nat)
  | tltryIntervalEnd (team gang lane : Nat)
  | preemptDecide (team : Nat)
  | teamSave (team : Nat)
  | teamResume (team core : Nat)
  | gangRetire (team gang : Nat)
  | teamRetire (team : Nat)
  | teamEnd (team : Nat)
  | trapEntry (team gang lane : Nat)
  | parkGang (team gang : Nat)
  | parkedGangResume (team gang : Nat)
  -- the ordering machine (08 R189)
  | store (team gang lane idx : Nat)
  | fill (a : Agent) (line : Line)
  | evict (a : Agent) (line : Line)
  | load (team gang lane idx : Nat)
  | drain (a : Agent) (line : Line)
  | ackArrive (a : Agent) (id : Nat)
  | relStep (team gang lane idx : Nat)
  | acqStep (team gang lane idx : Nat)
  | atomic (team gang lane idx : Nat)
  -- subscriptions (09 R222)
  | register (msg : Nat)
  | apply (core msg : Nat)
  | leave (msg : Nat)
  | sldBind (team gang lane idx : Nat)
  | peersld (team gang lane idx peer : Nat)
  | l1EvictRegistered (core : Nat) (line : Line)
  | sliceDropLine (phys : Nat)
  | directoryError (phys : Nat) (groups : Option (List Nat))
  -- streams (10 R250)
  | bind (team gang port : Nat)
  | prefetch (team gang lane port : Nat)
  | pop (team gang lane idx : Nat)
  | claim (team gang lane port : Nat)
  | reserve (team gang lane port : Nat)
  | rpush (team gang lane idx : Nat)
  | commit (ring : Line)
  -- engines and the matrix array (11, 12)
  | engineCommandBegin (team e : Nat)
  | engineCommandComplete (team e : Nat)
  | contextPark (team e : Nat)
  | collMatch (team e : Nat) (others : List Member)
  | collAbort (team e : Nat)
  | arrayRowPass (core : Nat)
  -- launches (14)
  | chainRecordAccept (chain : Nat)
  | pendingLaunchAccept (team : Nat)
  | launchMakeResident (launch : Nat) (refused : Bool)
  | teamAdmit (launch : Nat)
  | parentSwapOut (team : Nat)
  | parentSwapIn (team core : Nat)
  | bandComplete (launch band : Nat)
  | launchComplete (launch : Nat)
  | timeSlotStart (entry : Nat)
  | eventEntryWrite (die : Nat)
  | faultRecordWrite (die : Nat)
  | msiSend
  -- outside (16, 17)
  | hostWindowAccess (hpa : Nat) (data : Option (List Byte)) (n : Nat)
  | peerRequest (ctx : Nat) (die off : Nat) (op : PeerOp)
  | peerTimeout (team gang lane idx : Nat) (merged : Bool)
  | flitCrcFail (port : Nat) (retrain : Bool)
  | datagramReceive (mac ip udp : Nat) (addr : Nat) (data : List Byte) (good : Bool)
  | datagramAck (seq : Nat) (refusal : Option Nat)
  | datagramResend (seq : Nat)
  | hbmRecalBurst (die ch : Nat)
  | rowRemap (die ch row : Nat)
  | remapTableReload (die ch : Nat) (copyBad : Bool)
  | uncorrectableError (s : Struct)
  | dieLoss (die : Nat)
  | powerCapExcess (point : Nat)
  | thermalLimit (point temp : Nat)
  | reset
  | bootVerify (die : Nat) (verdict : Nat)
  | partitionWrite (v : DWord)
  | partitionApply
  | chainEnable (chain : Nat) (v : DWord)
  | chainTailWrite (chain : Nat) (v : DWord)
  | chainErrClear (chain : Nat) (v : DWord)
  | timedEntryEnable (entry : Nat) (v : DWord)
  | ovrWrite (entry : Nat) (v : DWord)
  | killLaunch (v : DWord)
  | killContext (v : DWord)
  | killEntry (v : DWord)
  | debugResume (v : DWord)
  | degradeWrite (v : DWord)
  | deviceNumberWrite (v : DWord)
  | keyInstall (v : DWord)
  | keyDestroy (v : DWord)
  | clockStep (v : DWord)
  | rtiWrite (die : Nat) (v : DWord)
  | pcapWrite (v : DWord)
  | perfReqWrite (v : DWord)
  | eventQueueConfig (die : Nat) (lcap : Bool) (v : DWord)
  | eventQueueHeadWrite (die : Nat) (v : DWord)
  | faultRingConfig (die : Nat) (lcap : Bool) (v : DWord)
  | faultRingHeadWrite (die : Nat) (v : DWord)
  | attestRequest (v : DWord)
  | attestReportWrite
  | registerWrite (off : Nat) (v : DWord)
  | correctedError (die ch row : Nat)
  | thermalLimitEnd
  | powerCapWithin (point : Nat)
  | keyOperationDone
  | ieee1588EventMessage (port : Nat) (egress : Bool)
deriving DecidableEq, Repr

end Sys2Proof
end

