-- ==== Sys2Proof/Machine/Codec.lean ====
section
/-! DEFINITION. The code tables of the instruction word (R51 to R54 and the entry tables): each table lists its meanings
in the order of their codes, so that a code is a position in the table. -/

namespace Sys2Proof.Machine

/-- The code of `x` in a table: its position. -/
def codeOf {α : Type} [DecidableEq α] (l : List α) (x : α) : Nat := l.idxOf x

/-- Bits `h` down to `l` of a number (R41). -/
def fld (x h l : Nat) : Nat := x / 2 ^ l % 2 ^ (h + 1 - l)

/-- SignExt of an n-bit field, as an integer (R41). -/
def sext (n x : Nat) : Int := if x < 2 ^ (n - 1) then (x : Int) else (x : Int) - (2 ^ n : Nat)

/-- The n-bit field of an integer. -/
def unsext (n : Nat) (v : Int) : Nat := (v % (2 ^ n : Nat)).toNat

/-- The read-only specials, codes 416 to 426 (R54). -/
def specials : List Special := [.zero, .one, .lid, .qid, .gid, .tid, .bid, .helper, .phase, .clk, .fst]

/-- The 9-bit name code of an operand name (R54). -/
def nameCode : Name → Nat
  | .g n => n
  | .q n => 320 + n
  | .w n => 335 + n
  | .k n => 344 + n
  | .c n => 352 + n
  | .sp x => 416 + codeOf specials x
  | .bad n => n

/-- The operand name of a code (R54); 427 to 511 are reserved and stay `bad` until the instruction issues. -/
def nameOf (n : Nat) : Name :=
  if n < 320 then .g n
  else if n < 336 then .q (n - 320)
  else if n < 344 then .w (n - 335)
  else if n < 352 then .k (n - 344)
  else if n < 416 then .c (n - 352)
  else match specials[n - 416]? with
    | some x => .sp x
    | none => .bad n

/-- Scopes of the memory, copy, matrix and physics fields (R199, R200, R281, R308, R339). -/
def scopes : List Scope := [.pkg, .core, .die, .dom, .sys]
/-- Scopes of BARG, BART and TLSIG (R90). -/
def barScopes : List Scope := [.core, .die, .pkg]
/-- Scopes of BARB (R90). -/
def bandScopes : List Scope := [.die, .pkg]
/-- Scopes of TLWAIT's memory form, SEL 8 to 12 (R91). -/
def tlScopes : List Scope := [.core, .die, .pkg, .dom, .sys]
/-- One-bit fields: 0 false, 1 true. -/
def bools : List Bool := [false, true]
/-- Result kinds of IADD and its kin (R112). -/
def sats : List Sat := [.wrap, .ssat, .nsat]
/-- Signedness with .s32 first (IMULH, IMADW). -/
def sgnsS : List Sgn := [.s, .n]
/-- Signedness with .n32 first (BFX, LEA). -/
def sgnsN : List Sgn := [.n, .s]
/-- Types of IDIV, IMIN, ICMP (R112, R113). -/
def itys : List ITy := [.s32, .n32, .s64, .n64]
/-- Types of INEG and IABS (R112). -/
def negTys : List NegTy := [.s32, .s32sat, .s64, .s64sat]
/-- Conditions of ICMP (R113). -/
def iconds : List ICond := [.eq, .ne, .lt, .le, .gt, .ge, .tst]
/-- Conditions of FCMP and DCMP (R154). -/
def fconds : List FCond := [.eq, .ne, .lt, .le, .gt, .ge, .un]
/-- Directed rounding modes in MOD (R153). -/
def rnds4 : List Rnd := [.rn, .rz, .rp, .rm]
/-- Rounding modes of CVT (R154). -/
def rnds5 : List Rnd := [.rn, .rz, .rp, .rm, .rx]
/-- Forms of FCLS (R153). -/
def clsForms : List ClsForm := [.f32, .f64, .fst]
/-- Type codes of CVT (R154). -/
def cvtTys : List CvtTy :=
  [.fl .f32, .fl .f64, .fl .f16, .fl .bf16, .fl .e4m3, .fl .e5m2, .fl .e3m2, .fl .e2m3, .fl .e2m1, .int .s32, .int .n32,
   .int .s64, .int .n64]
/-- Formats of PACK and UNPK (R153). -/
def packFmts : List Fmt := [.f16, .bf16, .e4m3, .e5m2, .e3m2, .e2m3, .e2m1]
/-- Formats of MMA.lane's A (R308). -/
def laneFmts : List Fmt := [.bf16, .e4m3, .e5m2, .e3m2, .e2m3, .e2m1]
/-- Output formats of MRD (R308). -/
def readFmts : List Fmt := [.f32, .bf16, .f16, .e4m3, .e5m2, .e3m2, .e2m3, .e2m1]
/-- Modes of VOTE (R173). -/
def votes : List Vote := [.ballot, .any, .all, .uni]
/-- Operations of GSCAN and GRED (R178). -/
def redOps : List RedOp := [.add, .minS, .maxS, .minN, .maxN, .and, .or, .xor]
/-- Access types (R200). -/
def memTys : List MemTy := [.n8, .s8, .n16, .s16, .b32, .b64, .b128]
/-- Operations of ATOM (R200). -/
def atomOps : List AtomOp := [.add, .minS, .maxS, .minN, .maxN, .and, .or, .xor, .exch]
/-- Ordering modifiers (R200). -/
def ords : List Ord := [.none, .acq, .rel, .ar]
/-- View formats (R212). -/
def views : List View := [.exact, .bf16, .f16, .e4m3, .e5m2, .e2m1]
/-- Element types of a region (R229). -/
def etypes : List EType := [.f32, .bf16]
/-- Operations of OLU (R339). -/
def oluOps : List OluOp := [.f, .s, .t, .pf, .pi]
/-- Forms of TRET (R389). -/
def tretForms : List TretForm := [.plain, .skip, .kill]
/-- Operations of TLBINV (R389). -/
def tlbOps : List TlbOp := [.map, .unmap, .evict, .clrad, .query]
/-- LEA's scales (R112). -/
def scales : List Nat := [1, 2, 4, 8]
/-- The last system register (R378). -/
def lastSr : Nat := 13
/-- The system registers that WRSR may write: EPCL, EPCH, ESLOT (R378). -/
def writableSrs : List Nat := [2, 3, 4]

/-- The fields of an instruction word (R51); `low` is bits 20:0. -/
structure Raw where
  opc : Nat
  dist : Nat
  setf : Nat
  nwb : Nat
  pn : Nat
  pg : Nat
  dst : Nat
  sa : Nat
  low : Nat
deriving DecidableEq, Repr

/-- Every field within its width. -/
abbrev Raw.wf (r : Raw) : Prop :=
  r.opc < 512 ∧ r.dist < 8 ∧ r.setf < 16 ∧ r.nwb < 2 ∧ r.pn < 2 ∧ r.pg < 128 ∧ r.dst < 512 ∧ r.sa < 512 ∧ r.low < 2097152

/-- The word that holds the fields (R51). -/
def Raw.word (r : Raw) : Nat :=
  r.low + 2097152 * (r.sa + 512 * (r.dst + 512 * (r.pg + 128 * (r.pn + 2 * (r.nwb + 2 * (r.setf + 16 * (r.dist +
    8 * r.opc)))))))

/-- The fields of a word (R51). -/
def Raw.ofWord (w : Nat) : Raw :=
  { opc := fld w 63 55, dist := fld w 54 52, setf := fld w 51 48, nwb := fld w 47 47, pn := fld w 46 46,
    pg := fld w 45 39, dst := fld w 38 30, sa := fld w 29 21, low := fld w 20 0 }

/-- What an instruction does with its destination field, as far as SETF and NWB are concerned (R51, R75). -/
inductive ResKind
  /-- no register result: NWB = 1 and SETF ≠ 0 raise ILLINSN -/
  | none
  /-- a fixed-latency register result -/
  | fixed
  /-- a fixed-latency register result of an instruction that reads its destination or may not use the window alone -/
  | keep
  /-- flag-tracked: SETF is legal, NWB = 1 is not -/
  | tracked
deriving DecidableEq, Repr

/-- The guard field and its inversion (R51). -/
def guardOf (pn pg : Nat) : Option Guard :=
  if pg = 127 then (if pn = 0 then some .always else Option.none)
  else if pg < 96 then some (.pred pg (pn = 1))
  else Option.none

def guardPn : Guard → Nat
  | .always => 0
  | .pred _ neg => if neg then 1 else 0

def guardPg : Guard → Nat
  | .always => 127
  | .pred n _ => n

/-- Are SETF and NWB legal for an instruction of this kind (R51)? -/
def resOk (k : ResKind) (setf : Nat) (nwb : Bool) (dst : Nat) : Bool :=
  match k with
  | .none => setf == 0 && !nwb
  | .fixed => setf == 0 && (!nwb || dst == 0)
  | .keep => setf == 0 && !nwb
  | .tracked => decide (setf ≤ 12) && !nwb

/-- The common fields, unless R51 makes them ILLINSN. -/
def commonOf (k : ResKind) (r : Raw) : Option Common :=
  match guardOf r.pn r.pg with
  | Option.none => Option.none
  | some g =>
    if resOk k r.setf (r.nwb == 1) r.dst then some { dist := r.dist, setf := r.setf, nwb := r.nwb == 1, guard := g }
    else Option.none

/-- A decoded instruction, if the checks hold (ILLINSN otherwise). -/
def onlyIf {α : Type} (b : Bool) (x : α) : Option α := if b then some x else Option.none

end Sys2Proof.Machine
end

