-- ==== Sys2Proof/WellFormed.lean ====
section
/-! DEFINITION. Well-formed syntax: the operands and fields that an encoding can carry (R51 to R61), and the agents that
the machine has (R19). -/

namespace Sys2Proof

open Sys2Proof.Machine

/-- A name with a 9-bit code of its own (R54). -/
def Name.ok : Name → Bool
  | .g n => decide (n < 320)
  | .q n => decide (n < 16)
  | .w n => decide (1 ≤ n) && decide (n ≤ 8)
  | .k n => decide (n < 8)
  | .c n => decide (n < 64)
  | .sp _ => true
  | .bad n => decide (427 ≤ n) && decide (n < 512)

def Guard.ok : Guard → Bool
  | .always => true
  | .pred n _ => decide (n < 96)

/-- The common fields of an instruction of kind `k` whose DST field is `dst` (R51). -/
def Common.ok (c : Common) (k : ResKind) (dst : Nat) : Bool :=
  decide (c.dist < 8) && c.guard.ok && resOk k c.setf c.nwb dst

/-- A source predicate field: 0 to 95, or 127 for true (R111). -/
def predSrc (n : Nat) : Bool := decide (n < 96) || n == 127

/-- A predicate destination that may be absent (R339). -/
def predDstOk : Option Nat → Bool
  | some n => decide (n < 96)
  | none => true

def actOk : Option Nat → Bool
  | some n => decide (n < 8)
  | none => true

/-- An integer that an n-bit signed field holds. -/
def sfits (n : Nat) (v : Int) : Bool := decide (-(2 ^ (n - 1) : Nat) ≤ v) && decide (v < (2 ^ (n - 1) : Nat))

/-- ST and STP have no signed types (R200). -/
def storeTy (t : MemTy) : Bool := t != .s8 && t != .s16

/-- The combinations of CVT that do not raise ILLINSN (R164). -/
def cvtOk (rb : Name) (dt st : CvtTy) (r : Rnd) (sat : Bool) : Bool :=
  let isInt : CvtTy → Bool := fun t => match t with
    | .int _ => true
    | .fl _ => false
  !(isInt dt && isInt st) && !(sat && isInt dt) &&
    (if r = .rx then st == .fl .f32 && !isInt dt && dt != .fl .f32 && dt != .fl .f64 else nameCode rb == 0)

def TlSel.ok : TlSel → Bool
  | .team n => decide (n < 8)
  | .mem _ a => a.ok

def MmaSrc.ok : MmaSrc → Bool
  | .lane f => laneFmts.contains f
  | .hdl h | .unf h => decide (h < 64)
  | .port => true

def TblForm.ok : TblForm → Bool
  | .slot n => decide (n < 8)
  | .bias t => decide (t < 4)

/-- The kind of an instruction's result (R51, R75); none for a whole step of the machine. -/
def Instr.insnKind : Instr → Option ResKind
  | .movk _ _ _ _ z => some (if z then .fixed else .keep)
  | .mov _ _ _ _ | .iadd _ _ _ _ _ | .isub _ _ _ _ _ | .imul _ _ _ _ _ | .imulh _ _ _ _ _ | .imad _ _ _ _ _ _
  | .imadw _ _ _ _ _ _ | .iadd64 _ _ _ _ _ | .isub64 _ _ _ _ _ | .ineg _ _ _ _ | .iabs _ _ _ _ | .imin _ _ _ _ _
  | .imax _ _ _ _ _ | .shl _ _ _ _ _ | .shr _ _ _ _ _ | .sar _ _ _ _ _ | .rot _ _ _ _ _ | .funl _ _ _ _ _ _
  | .bfx _ _ _ _ _ | .bfi _ _ _ _ _ | .popc _ _ _ _ | .clz _ _ _ _ | .ctz _ _ _ _ | .brev _ _ _ _
  | .lea _ _ _ _ _ _ _ | .sel _ _ _ _ _ _ _ | .prd _ _ _ | .movImm _ _ _ | .iaddImm _ _ _ _ | .isubImm _ _ _ _
  | .imulImm _ _ _ _ | .iminImm _ _ _ _ | .imaxImm _ _ _ _ | .shlImm _ _ _ _ | .shrImm _ _ _ _ | .sarImm _ _ _ _
  | .rotImm _ _ _ _ | .fadd _ _ _ _ _ | .fsub _ _ _ _ _ | .fmul _ _ _ _ _ | .ffma _ _ _ _ _ _ | .fmin _ _ _ _
  | .fmax _ _ _ _ | .frnd _ _ _ _ | .fcls _ _ _ _ | .fscl _ _ _ _ _ | .dadd _ _ _ _ _ _ | .dmul _ _ _ _ _
  | .dfma _ _ _ _ _ _ | .badd2 _ _ _ _ _ _ | .bfma2 _ _ _ _ _ _ _ | .hfma2 _ _ _ _ _ _ _ | .cvt _ _ _ _ _ _ _ _
  | .unpk _ _ _ _ _ | .act _ _ _ _ | .actd _ _ _ _ _ | .xrngf _ _ _ | .qswp _ _ _ _ _ _ | .qbc _ _ _ _ _ _
  | .qdx _ _ _ _ _ | .qdy _ _ _ _ _ | .perm _ _ _ _ _ _ | .shup _ _ _ _ _ _ | .shdn _ _ _ _ _ _ | .shxr _ _ _ _ _ _
  | .vote _ _ _ _ | .mtch _ _ _ _ | .gscan _ _ _ _ _ | .gred _ _ _ _ | .rdix _ _ _ _ _ _ => some .fixed
  | .idiv _ _ _ _ _ | .irem _ _ _ _ _ | .fdiv _ _ _ _ _ | .fsqrt _ _ _ _ | .frcp _ _ _ | .frsq _ _ _ | .fexp2 _ _ _
  | .flog2 _ _ _ | .fsin _ _ _ | .fcos _ _ _ | .ddiv _ _ _ _ _ | .dsqrt _ _ _ _ | .ld _ _ _ _ _ _ | .st _ _ _ _ _ _
  | .ldp _ _ _ _ _ | .stp _ _ _ _ _ | .atom _ _ _ _ _ _ _ _ _ | .acas _ _ _ _ _ _ _ _ | .xsum _ _ _ _ _ _ _
  | .xrd _ _ _ _ _ _ _ _ | .xclr _ _ _ _ | .ldv _ _ _ _ _ | .cms _ _ _ _ _ _ | .fence _ _ | .rel _ _ | .acq _ _
  | .sbsc _ _ _ _ _ _ _ _ | .unsb _ _ _ _ | .sld _ _ _ _ _ | .supg _ _ _ _ _ | .schg _ _ _ _ | .sdrain _ _ _
  | .qring _ _ _ _ _ | .qrfree _ _ _ _ | .hdef _ _ _ _ _ _ _ | .hqry _ _ _ _ | .copy _ _ _ _ _ _ _ _
  | .cfill _ _ _ _ _ _ _ | .coll _ _ _ _ _ _ | .tlrd _ _ _ _ | .wld _ _ _ _ _ _ | .wswp _ _ _ | .mma _ _ _ _ _ _ _
  | .mzero _ _ _ _ | .mrd _ _ _ _ _ _ _ _ | .mwr _ _ _ _ _ _ _ | .mst _ _ _ _ _ _ _ _ _ | .tblld _ _ _ _ _ _ _
  | .mstat _ _ _ | .sort _ _ _ _ _ _ | .bvhq _ _ _ _ _ _ _ _ | .lnch _ _ _ _ | .lrec _ _ _ _ _ | .lstat _ _ _
  | .lease _ _ _ | .csave _ _ _ | .crest _ _ _ | .tlbinv _ _ _ _ | .replay _ _ _ | .evnt _ _ _ _ => some .tracked
  | .logt _ _ _ _ _ | .pack _ _ _ _ _ | .xrng _ _ _ _ | .spos _ _ _ _ | .qlu _ _ _ _ _ | .qlus _ _ _ _ _
  | .qlut _ _ _ _ _ | .qpiv _ _ _ _ _ _ | .olu _ _ _ _ _ _ _ | .rdsr _ _ _ => some .keep
  | .nop _ | .bra _ _ | .brx _ _ | .call _ _ _ | .callx _ _ _ | .ret _ _ | .exit _ | .yld _ _ | .hinty _ | .barg _ _
  | .bart _ _ | .barb _ _ | .regrp _ | .sphase _ _ | .acqx _ _ | .acqxt _ _ _ | .relx _ _ | .tlwait _ _ _
  | .tltry _ _ _ _ | .tlsig _ _ _ | .icmp _ _ _ _ _ _ | .plog _ _ _ _ _ | .pwr _ _ _ _ | .fcmp _ _ _ _ _
  | .dcmp _ _ _ _ _ | .wrix _ _ _ _ _ | .sbind _ _ _ | .sfree _ _ | .trap _ _ | .tret _ _ | .wrsr _ _ _ | .halt _ => some .none
  | _ => Option.none

/-- A barrier of a machine that has at most 16 gangs in a team. -/
def Bar.ok : Bar → Bool
  | .gang _ g => decide (g < 16)
  | .team _ => true
  | .band _ b => decide (b < 32)

def Agent.ok : Agent → Bool
  | .core n => decide (n < 256)
  | .ctx _ e => decide (e < 8)

/-- Well-formed: an instruction whose encoding carries every operand, or a step of an agent the machine has. -/
def Instr.wf : Instr → Bool
  | .nop c => c.ok .none 0
  | .bra c off => c.ok .none 0 && sfits 21 off
  | .brx c a => c.ok .none 0 && a.ok
  | .call c d off => c.ok .none (nameCode d) && d.ok && sfits 21 off
  | .callx c d a => c.ok .none (nameCode d) && d.ok && a.ok
  | .ret c a => c.ok .none 0 && a.ok
  | .exit c => c.ok .none 0
  | .yld c d => c.ok .none 0 && decide (d < 9)
  | .hinty c => c.ok .none 0
  | .barg c sc => c.ok .none 0 && barScopes.contains sc
  | .bart c sc => c.ok .none 0 && barScopes.contains sc
  | .barb c sc => c.ok .none 0 && bandScopes.contains sc
  | .regrp c => c.ok .none 0
  | .sphase c a => c.ok .none 0 && a.ok
  | .acqx c n => c.ok .none 0 && decide (n < 5)
  | .acqxt c n pd => c.ok .none 0 && decide (n < 5) && decide (pd < 96)
  | .relx c n => c.ok .none 0 && decide (n < 5)
  | .tlwait c v ts => c.ok .none 0 && v.ok && ts.ok
  | .tltry c v ts pd => c.ok .none 0 && v.ok && ts.ok && decide (pd < 96)
  | .tlsig c sc e => c.ok .none 0 && barScopes.contains sc && decide (e < 8)
  | .mov c d a _ => c.ok .fixed (nameCode d) && d.ok && a.ok
  | .movk c d k _ z => c.ok (if z then .fixed else .keep) (nameCode d) && d.ok && decide (k < 65536)
  | .iadd c d a b _ => c.ok .fixed (nameCode d) && d.ok && a.ok && b.ok
  | .isub c d a b _ => c.ok .fixed (nameCode d) && d.ok && a.ok && b.ok
  | .imul c d a b _ => c.ok .fixed (nameCode d) && d.ok && a.ok && b.ok
  | .imulh c d a b _ => c.ok .fixed (nameCode d) && d.ok && a.ok && b.ok
  | .imad c d a b x _ => c.ok .fixed (nameCode d) && d.ok && a.ok && b.ok && x.ok
  | .imadw c d a b x _ => c.ok .fixed (nameCode d) && d.ok && a.ok && b.ok && x.ok
  | .iadd64 c d a b _ => c.ok .fixed (nameCode d) && d.ok && a.ok && b.ok
  | .isub64 c d a b _ => c.ok .fixed (nameCode d) && d.ok && a.ok && b.ok
  | .idiv c d a b _ => c.ok .tracked (nameCode d) && d.ok && a.ok && b.ok
  | .irem c d a b _ => c.ok .tracked (nameCode d) && d.ok && a.ok && b.ok
  | .ineg c d a _ => c.ok .fixed (nameCode d) && d.ok && a.ok
  | .iabs c d a _ => c.ok .fixed (nameCode d) && d.ok && a.ok
  | .imin c d a b _ => c.ok .fixed (nameCode d) && d.ok && a.ok && b.ok
  | .imax c d a b _ => c.ok .fixed (nameCode d) && d.ok && a.ok && b.ok
  | .logt c d a b tbl => c.ok .keep (nameCode d) && d.ok && a.ok && b.ok && decide (tbl < 256)
  | .shl c d a n _ => c.ok .fixed (nameCode d) && d.ok && a.ok && n.ok
  | .shr c d a n _ => c.ok .fixed (nameCode d) && d.ok && a.ok && n.ok
  | .sar c d a n _ => c.ok .fixed (nameCode d) && d.ok && a.ok && n.ok
  | .rot c d a n _ => c.ok .fixed (nameCode d) && d.ok && a.ok && n.ok
  | .funl c d lo hi n _ => c.ok .fixed (nameCode d) && d.ok && lo.ok && hi.ok && n.ok
  | .bfx c d a f _ => c.ok .fixed (nameCode d) && d.ok && a.ok && f.ok
  | .bfi c d ins base f => c.ok .fixed (nameCode d) && d.ok && ins.ok && base.ok && f.ok
  | .popc c d a _ => c.ok .fixed (nameCode d) && d.ok && a.ok
  | .clz c d a _ => c.ok .fixed (nameCode d) && d.ok && a.ok
  | .ctz c d a _ => c.ok .fixed (nameCode d) && d.ok && a.ok
  | .brev c d a _ => c.ok .fixed (nameCode d) && d.ok && a.ok
  | .lea c d base idx off scale _ => c.ok .fixed (nameCode d) && d.ok && base.ok && idx.ok && off.ok &&
      scales.contains scale
  | .icmp c pd a b _ _ => c.ok .none pd && decide (pd < 96) && a.ok && b.ok
  | .sel c d a b ps _ _ => c.ok .fixed (nameCode d) && d.ok && a.ok && b.ok && predSrc ps
  | .plog c pd pa pb tbl => c.ok .none pd && decide (pd < 96) && predSrc pa && predSrc pb && decide (tbl < 256)
  | .prd c d bank => c.ok .fixed (nameCode d) && d.ok && decide (bank < 3)
  | .pwr c a m bank => c.ok .none 0 && a.ok && m.ok && decide (bank < 3)
  | .movImm c d imm => c.ok .fixed (nameCode d) && d.ok && sfits 21 imm
  | .iaddImm c d a imm => c.ok .fixed (nameCode d) && d.ok && a.ok && sfits 21 imm
  | .isubImm c d a imm => c.ok .fixed (nameCode d) && d.ok && a.ok && sfits 21 imm
  | .imulImm c d a imm => c.ok .fixed (nameCode d) && d.ok && a.ok && sfits 21 imm
  | .iminImm c d a imm => c.ok .fixed (nameCode d) && d.ok && a.ok && sfits 21 imm
  | .imaxImm c d a imm => c.ok .fixed (nameCode d) && d.ok && a.ok && sfits 21 imm
  | .shlImm c d a imm => c.ok .fixed (nameCode d) && d.ok && a.ok && decide (imm < 2097152)
  | .shrImm c d a imm => c.ok .fixed (nameCode d) && d.ok && a.ok && decide (imm < 2097152)
  | .sarImm c d a imm => c.ok .fixed (nameCode d) && d.ok && a.ok && decide (imm < 2097152)
  | .rotImm c d a imm => c.ok .fixed (nameCode d) && d.ok && a.ok && decide (imm < 2097152)
  | .fadd c d a b rd => c.ok .fixed (nameCode d) && d.ok && a.ok && b.ok && rnds4.contains rd
  | .fsub c d a b rd => c.ok .fixed (nameCode d) && d.ok && a.ok && b.ok && rnds4.contains rd
  | .fmul c d a b rd => c.ok .fixed (nameCode d) && d.ok && a.ok && b.ok && rnds4.contains rd
  | .ffma c d a b x rd => c.ok .fixed (nameCode d) && d.ok && a.ok && b.ok && x.ok && rnds4.contains rd
  | .fmin c d a b => c.ok .fixed (nameCode d) && d.ok && a.ok && b.ok
  | .fmax c d a b => c.ok .fixed (nameCode d) && d.ok && a.ok && b.ok
  | .fcmp c pd a b _ => c.ok .none pd && decide (pd < 96) && a.ok && b.ok
  | .fdiv c d a b rd => c.ok .tracked (nameCode d) && d.ok && a.ok && b.ok && rnds4.contains rd
  | .fsqrt c d a rd => c.ok .tracked (nameCode d) && d.ok && a.ok && rnds4.contains rd
  | .frcp c d a => c.ok .tracked (nameCode d) && d.ok && a.ok
  | .frsq c d a => c.ok .tracked (nameCode d) && d.ok && a.ok
  | .fexp2 c d a => c.ok .tracked (nameCode d) && d.ok && a.ok
  | .flog2 c d a => c.ok .tracked (nameCode d) && d.ok && a.ok
  | .fsin c d a => c.ok .tracked (nameCode d) && d.ok && a.ok
  | .fcos c d a => c.ok .tracked (nameCode d) && d.ok && a.ok
  | .frnd c d a rd => c.ok .fixed (nameCode d) && d.ok && a.ok && rnds4.contains rd
  | .fcls c d a _ => c.ok .fixed (nameCode d) && d.ok && a.ok
  | .fscl c d a n rd => c.ok .fixed (nameCode d) && d.ok && a.ok && n.ok && rnds4.contains rd
  | .dadd c d a b rd _ => c.ok .fixed (nameCode d) && d.ok && a.ok && b.ok && rnds4.contains rd
  | .dmul c d a b rd => c.ok .fixed (nameCode d) && d.ok && a.ok && b.ok && rnds4.contains rd
  | .dfma c d a b x rd => c.ok .fixed (nameCode d) && d.ok && a.ok && b.ok && x.ok && rnds4.contains rd
  | .ddiv c d a b rd => c.ok .tracked (nameCode d) && d.ok && a.ok && b.ok && rnds4.contains rd
  | .dsqrt c d a rd => c.ok .tracked (nameCode d) && d.ok && a.ok && rnds4.contains rd
  | .dcmp c pd a b _ => c.ok .none pd && decide (pd < 96) && a.ok && b.ok
  | .badd2 c d a b _ _ => c.ok .fixed (nameCode d) && d.ok && a.ok && b.ok
  | .bfma2 c d a b x _ _ => c.ok .fixed (nameCode d) && d.ok && a.ok && b.ok && x.ok
  | .hfma2 c d a b x _ _ => c.ok .fixed (nameCode d) && d.ok && a.ok && b.ok && x.ok
  | .cvt c d a rb dt sty rd sat => c.ok .fixed (nameCode d) && d.ok && a.ok && rb.ok && cvtOk rb dt sty rd sat
  | .pack c d a j f => c.ok .keep (nameCode d) && d.ok && a.ok && j.ok && packFmts.contains f
  | .unpk c d a j f => c.ok .fixed (nameCode d) && d.ok && a.ok && j.ok && packFmts.contains f
  | .act c d x slot => c.ok .fixed (nameCode d) && d.ok && x.ok && decide (slot < 8)
  | .actd c d x g slot => c.ok .fixed (nameCode d) && d.ok && x.ok && g.ok && decide (slot < 8)
  | .xrng c d ctr key => c.ok .keep (nameCode d) && d.ok && ctr.ok && key.ok
  | .xrngf c d a => c.ok .fixed (nameCode d) && d.ok && a.ok
  | .qswp c d v m f pv => c.ok .fixed (nameCode d) && d.ok && v.ok && m.ok && f.ok && decide (pv < 8)
  | .qbc c d v j f pv => c.ok .fixed (nameCode d) && d.ok && v.ok && j.ok && f.ok && decide (pv < 8)
  | .qdx c d v f pv => c.ok .fixed (nameCode d) && d.ok && v.ok && f.ok && decide (pv < 8)
  | .qdy c d v f pv => c.ok .fixed (nameCode d) && d.ok && v.ok && f.ok && decide (pv < 8)
  | .perm c d v x f pv => c.ok .fixed (nameCode d) && d.ok && v.ok && x.ok && f.ok && decide (pv < 8)
  | .shup c d v n f pv => c.ok .fixed (nameCode d) && d.ok && v.ok && n.ok && f.ok && decide (pv < 8)
  | .shdn c d v n f pv => c.ok .fixed (nameCode d) && d.ok && v.ok && n.ok && f.ok && decide (pv < 8)
  | .shxr c d v n f pv => c.ok .fixed (nameCode d) && d.ok && v.ok && n.ok && f.ok && decide (pv < 8)
  | .vote c d v _ => c.ok .fixed (nameCode d) && d.ok && v.ok
  | .mtch c d v _ => c.ok .fixed (nameCode d) && d.ok && v.ok
  | .gscan c d v seed _ => c.ok .fixed (nameCode d) && d.ok && v.ok && seed.ok
  | .gred c d v _ => c.ok .fixed (nameCode d) && d.ok && v.ok
  | .rdix c d base idx f pv => c.ok .fixed (nameCode d) && d.ok && base.ok && idx.ok && f.ok && decide (pv < 8)
  | .wrix c base v idx pv => c.ok .none (nameCode base) && base.ok && v.ok && idx.ok && decide (pv < 8)
  | .ld c d base off _ _ => c.ok .tracked (nameCode d) && d.ok && base.ok && sfits 7 off
  | .st c base v off t _ => c.ok .tracked 0 && base.ok && v.ok && sfits 7 off && storeTy t
  | .ldp c d base off _ => c.ok .tracked (nameCode d) && d.ok && base.ok && sfits 7 off
  | .stp c base v off t => c.ok .tracked 0 && base.ok && v.ok && sfits 7 off && storeTy t
  | .atom c d base v _ _ _ _ _ => c.ok .tracked (nameCode d) && d.ok && base.ok && v.ok
  | .acas c d base v _ _ _ _ => c.ok .tracked (nameCode d) && d.ok && base.ok && v.ok
  | .xsum c base v _ _ _ _ => c.ok .tracked 0 && base.ok && v.ok
  | .xrd c d base _ _ _ _ _ => c.ok .tracked (nameCode d) && d.ok && base.ok
  | .xclr c base _ _ => c.ok .tracked 0 && base.ok
  | .ldv c d base off _ => c.ok .tracked (nameCode d) && d.ok && base.ok && sfits 7 off
  | .cms c d base pd _ _ => c.ok .tracked (nameCode d) && d.ok && base.ok && decide (pd < 96)
  | .fence c _ => c.ok .tracked 0
  | .rel c _ => c.ok .tracked 0
  | .acq c _ => c.ok .tracked 0
  | .sbsc c d base quad _ _ _ _ => c.ok .tracked (nameCode d) && d.ok && base.ok && quad.ok
  | .unsb c d base _ => c.ok .tracked (nameCode d) && d.ok && base.ok
  | .sld c d base off _ => c.ok .tracked (nameCode d) && d.ok && base.ok && sfits 7 off
  | .supg c d base _ _ => c.ok .tracked (nameCode d) && d.ok && base.ok
  | .schg c d base _ => c.ok .tracked (nameCode d) && d.ok && base.ok
  | .sbind c port addr => c.ok .none (nameCode port) && port.ok && addr.ok
  | .sfree c port => c.ok .none (nameCode port) && port.ok
  | .spos c d a _ => c.ok .keep (nameCode d) && d.ok && a.ok
  | .sdrain c port _ => c.ok .tracked 0 && port.ok
  | .qring c d base quad _ => c.ok .tracked (nameCode d) && d.ok && base.ok && quad.ok
  | .qrfree c d base _ => c.ok .tracked (nameCode d) && d.ok && base.ok
  | .hdef c d addr h e _ _ => c.ok .tracked (nameCode d) && d.ok && addr.ok && decide (h < 64) && decide (e < 8)
  | .hqry c d h s => c.ok .tracked (nameCode d) && d.ok && decide (h < 64) && decide (s < 8)
  | .copy c d addr hd hs e _ _ => c.ok .tracked (nameCode d) && d.ok && addr.ok && decide (hd < 64) &&
      decide (e < 8) && decide (hs < 64)
  | .cfill c d addr h e _ _ => c.ok .tracked (nameCode d) && d.ok && addr.ok && decide (h < 64) && decide (e < 8)
  | .coll c d addr e _ _ => c.ok .tracked (nameCode d) && d.ok && addr.ok && decide (e < 8)
  | .tlrd c d e _ => c.ok .tracked (nameCode d) && d.ok && decide (e < 8)
  | .wld c d box h e _ => c.ok .tracked (nameCode d) && d.ok && box.ok && decide (h < 64) && decide (e < 8)
  | .wswp c d e => c.ok .tracked (nameCode d) && d.ok && decide (e < 8)
  | .mma c d a src tile e _ => c.ok .tracked (nameCode d) && d.ok && a.ok && src.ok && decide (tile < 4) &&
      decide (e < 8)
  | .mzero c d tile e => c.ok .tracked (nameCode d) && d.ok && decide (e < 8) && decide (tile < 4)
  | .mrd c d col tile e av f _ => c.ok .tracked (nameCode d) && d.ok && col.ok && decide (tile < 4) &&
      decide (e < 8) && actOk av && readFmts.contains f
  | .mwr c d v col tile e rs => c.ok .tracked (nameCode d) && d.ok && v.ok && col.ok && decide (tile < 4) &&
      decide (e < 8) && (!rs || nameCode col == 0)
  | .mst c d org h tile e _ av _ => c.ok .tracked (nameCode d) && d.ok && org.ok && decide (h < 64) &&
      decide (tile < 4) && decide (e < 8) && actOk av
  | .tblld c d addr form e _ _ => c.ok .tracked (nameCode d) && d.ok && addr.ok && form.ok && decide (e < 8)
  | .mstat c d s => c.ok .tracked (nameCode d) && d.ok && decide (s < 3)
  | .sort c d addr e _ _ => c.ok .tracked (nameCode d) && d.ok && addr.ok && decide (e < 8)
  | .bvhq c d q addr _ e _ _ => c.ok .tracked (nameCode d) && d.ok && q.ok && addr.ok && decide (e < 8)
  | .qlu c d a pd _ => c.ok .keep (nameCode d) && d.ok && a.ok && predDstOk pd
  | .qlus c d f b _ => c.ok .keep (nameCode d) && d.ok && f.ok && b.ok
  | .qlut c d f b _ => c.ok .keep (nameCode d) && d.ok && f.ok && b.ok
  | .qpiv c d v log _ _ => c.ok .keep (nameCode d) && d.ok && v.ok && log.ok
  | .olu c d a b pd op _ => c.ok .keep (nameCode d) && d.ok && a.ok && b.ok && predDstOk pd &&
      (if op = .f then nameCode b == 0 else pd == none)
  | .lnch c d addr _ => c.ok .tracked (nameCode d) && d.ok && addr.ok
  | .lrec c d addr quad _ => c.ok .tracked (nameCode d) && d.ok && addr.ok && quad.ok
  | .lstat c d s => c.ok .tracked (nameCode d) && d.ok && decide (s < 5)
  | .lease c d quad => c.ok .tracked (nameCode d) && d.ok && quad.ok
  | .trap c code => c.ok .none 0 && decide (code < 1024)
  | .tret c _ => c.ok .none 0
  | .csave c d a => c.ok .tracked (nameCode d) && d.ok && a.ok
  | .crest c d a => c.ok .tracked (nameCode d) && d.ok && a.ok
  | .tlbinv c d quad _ => c.ok .tracked (nameCode d) && d.ok && quad.ok
  | .replay c d ctx => c.ok .tracked (nameCode d) && d.ok && ctx.ok
  | .rdsr c d sr => c.ok .keep (nameCode d) && d.ok && decide (sr < 14)
  | .wrsr c v sr => c.ok .none 0 && v.ok && decide (sr < 14) && writableSrs.contains sr
  | .evnt c code payload _ => c.ok .tracked 0 && code.ok && payload.ok
  | .halt c => c.ok .none 0
  | .clauseIssue core bay | .acqxGrant core bay => decide (core < 256) && decide (bay < 4)
  | .operationComplete _ gang _ lane => decide (gang < 16) && decide (lane < 512)
  | .demotionEnd _ gang lane | .watchdog _ gang lane | .tlwaitReread _ gang lane | .tltryIntervalEnd _ gang lane
  | .trapEntry _ gang lane => decide (gang < 16) && decide (lane < 32)
  | .barrierComplete b => b.ok
  | .regroup _ | .preemptDecide _ | .teamSave _ | .teamRetire _ | .teamEnd _ | .pendingLaunchAccept _
  | .parentSwapOut _ | .launchMakeResident _ _ | .teamAdmit _ | .launchComplete _ | .register _ | .leave _
  | .sliceDropLine _ | .directoryError _ _ | .commit _ | .msiSend => true
  | .teamResume _ core | .parentSwapIn _ core | .apply core _ | .l1EvictRegistered core _ | .arrayRowPass core =>
    decide (core < 256)
  | .gangRetire _ gang | .parkGang _ gang | .parkedGangResume _ gang => decide (gang < 16)
  | .store _ gang lane _ | .load _ gang lane _ | .relStep _ gang lane _ | .acqStep _ gang lane _
  | .atomic _ gang lane _ | .sldBind _ gang lane _ | .pop _ gang lane _ | .rpush _ gang lane _
  | .peerTimeout _ gang lane _ _ => decide (gang < 33) && decide (lane < 64)
  | .peersld _ gang lane _ peer => decide (gang < 16) && decide (lane < 32) && decide (peer < 256)
  | .fill a _ | .evict a _ | .drain a _ | .ackArrive a _ => a.ok
  | .bind _ gang port => decide (gang < 16) && decide (port < 16)
  | .prefetch _ gang lane port | .claim _ gang lane port | .reserve _ gang lane port =>
    decide (gang < 16) && decide (lane < 32) && decide (port < 16)
  | .engineCommandBegin _ e | .engineCommandComplete _ e | .contextPark _ e | .collMatch _ e _ | .collAbort _ e =>
    decide (e < 8)
  | .chainRecordAccept k => decide (k < 16)
  | .bandComplete _ b => decide (b < 32)
  | .timeSlotStart j => decide (j < 64)
  | .eventEntryWrite die | .faultRecordWrite die | .dieLoss die | .bootVerify die _ | .rtiWrite die _
  | .eventQueueConfig die _ _ | .eventQueueHeadWrite die _ | .faultRingConfig die _ _ | .faultRingHeadWrite die _ =>
    decide (die < 2)
  | .hostWindowAccess _ _ _ | .peerRequest _ _ _ _ | .datagramReceive _ _ _ _ _ _ | .datagramAck _ _
  | .datagramResend _ | .uncorrectableError _ | .reset | .partitionWrite _ | .partitionApply => true
  | .flitCrcFail port _ => decide (port < 18)
  | .hbmRecalBurst die ch | .rowRemap die ch _ | .remapTableReload die ch _ | .correctedError die ch _ =>
    decide (die < 2) && decide (ch < 192)
  | .powerCapExcess point | .powerCapWithin point | .thermalLimit point _ => decide (point < 4)
  | .chainEnable k _ | .chainTailWrite k _ | .chainErrClear k _ => decide (k < 16)
  | .timedEntryEnable j _ | .ovrWrite j _ => decide (j < 64)
  | .killLaunch _ | .killContext _ | .killEntry _ | .debugResume _ | .degradeWrite _ | .deviceNumberWrite _
  | .keyInstall _ | .keyDestroy _ | .clockStep _ | .pcapWrite _ | .perfReqWrite _ | .attestRequest _
  | .attestReportWrite | .registerWrite _ _ | .thermalLimitEnd | .keyOperationDone => true
  | .ieee1588EventMessage port _ => decide (port < 2)

end Sys2Proof
end

