-- ==== Sys2Proof/Decode.lean ====
section
/-! DEFINITION. Decoding the 64-bit words of the Xeric set, total on any word, and after it the encoder, both written from
the encoding tables of spec chapters 03 to 15. A word that no instruction has is ILLINSN (R51, R52, R60); a byte string
shorter than a word is named `short`. -/

namespace Sys2Proof

open Sys2Proof.Machine

/-- The operand of TLWAIT and TLTRY that bits 20:7 select (R91). -/
def tlSelOf (low : Nat) : Option TlSel :=
  if fld low 7 7 ≠ 0 then none
  else if fld low 11 8 < 8 then onlyIf (fld low 20 12 == 0) (.team (fld low 11 8))
  else tlScopes[fld low 11 8 - 8]?.map fun sc => .mem sc (nameOf (fld low 20 12))

def tlSelCode : TlSel → Nat
  | .team n => n * 256
  | .mem sc a => nameCode a * 4096 + (8 + codeOf tlScopes sc) * 256

/-- The source of an MMA from its SRC, H and AF fields (R308). -/
def mmaSrcOf (src h af : Nat) : Option MmaSrc :=
  if src = 0 then laneFmts[af]?.bind fun f => onlyIf (h == 0) (.lane f)
  else if src = 1 then onlyIf (af == 0) (.hdl h)
  else if src = 2 then onlyIf (af == 0) (.unf h)
  else onlyIf (h == 0 && af == 0) .port

def mmaSrcCode : MmaSrc → Nat
  | .lane f => codeOf laneFmts f * 4
  | .hdl h => h * 32768 + 128
  | .unf h => h * 32768 + 256
  | .port => 384

/-- The activation of MRD and MST: AE selects slot SLOT (R308). -/
def actOf (ae slot : Nat) : Option Nat := if ae = 1 then some slot else none

def actSlot : Option Nat → Nat
  | some n => n
  | none => 0

def actBit : Option Nat → Nat
  | some _ => 1
  | none => 0

/-- The form of TBLLD from KIND and bits 7:5 (R308). -/
def tblFormOf (kind low : Nat) : Option TblForm :=
  if kind = 0 then some (.slot low) else onlyIf (decide (low < 4)) (.bias low)

def tblFormCode : TblForm → Nat
  | .slot n => n
  | .bias t => 8 + t

/-- A predicate destination that may be absent: 0 to 95, or 127 for none (R339). -/
def predDstOf (n : Nat) : Option (Option Nat) :=
  if n < 96 then some (some n) else if n = 127 then some none else none

def predDstCode : Option Nat → Nat
  | some n => n
  | none => 127

/-- OLU's bits 20:12 by operation: a predicate for .f, else the name of b or of the log (R339). -/
def oluArgOf (op : OluOp) (n : Nat) : Option (Name × Option Nat) :=
  if op = .f then (predDstOf n).map fun pd => (.g 0, pd) else some (nameOf n, none)

/-- Control instructions (R90, R91). -/
def decodeCtl (r : Raw) : Option Instr :=
  match r.opc with
  | 0x001 => (commonOf .none r).bind fun c => onlyIf (r.dst == 0 && r.sa == 0 && r.low == 0) (.nop c)
  | 0x002 => (commonOf .none r).bind fun c => onlyIf (r.dst == 0 && r.sa == 0) (.bra c (sext 21 r.low))
  | 0x003 => (commonOf .none r).bind fun c => onlyIf (r.dst == 0 && r.low == 0) (.brx c (nameOf r.sa))
  | 0x004 => (commonOf .none r).bind fun c => onlyIf (r.sa == 0) (.call c (nameOf r.dst) (sext 21 r.low))
  | 0x005 => (commonOf .none r).bind fun c => onlyIf (r.low == 0) (.callx c (nameOf r.dst) (nameOf r.sa))
  | 0x006 => (commonOf .none r).bind fun c => onlyIf (r.dst == 0 && r.low == 0) (.ret c (nameOf r.sa))
  | 0x007 => (commonOf .none r).bind fun c => onlyIf (r.dst == 0 && r.sa == 0 && r.low == 0) (.exit c)
  | 0x008 => (commonOf .none r).bind fun c => onlyIf (r.dst == 0 && r.sa == 0 && decide (r.low < 9)) (.yld c r.low)
  | 0x009 => (commonOf .none r).bind fun c => onlyIf (r.dst == 0 && r.sa == 0 && r.low == 0) (.hinty c)
  | 0x00A => (commonOf .none r).bind fun c => barScopes[fld r.low 2 0]?.bind fun sc =>
      onlyIf (r.dst == 0 && r.sa == 0 && fld r.low 20 3 == 0) (.barg c sc)
  | 0x00B => (commonOf .none r).bind fun c => barScopes[fld r.low 2 0]?.bind fun sc =>
      onlyIf (r.dst == 0 && r.sa == 0 && fld r.low 20 3 == 0) (.bart c sc)
  | 0x00C => (commonOf .none r).bind fun c => bandScopes[fld r.low 2 0]?.bind fun sc =>
      onlyIf (r.dst == 0 && r.sa == 0 && fld r.low 20 3 == 0) (.barb c sc)
  | 0x00D => (commonOf .none r).bind fun c => onlyIf (r.dst == 0 && r.sa == 0 && r.low == 0) (.regrp c)
  | 0x00E => (commonOf .none r).bind fun c => onlyIf (r.dst == 0 && r.low == 0) (.sphase c (nameOf r.sa))
  | 0x00F => (commonOf .none r).bind fun c => onlyIf (r.dst == 0 && r.sa == 0 && decide (r.low < 5)) (.acqx c r.low)
  | 0x010 => (commonOf .none r).bind fun c =>
      onlyIf (r.dst == 0 && r.sa == 0 && fld r.low 20 10 == 0 && decide (fld r.low 9 7 < 5) &&
      decide (fld r.low 6 0 < 96)) (.acqxt c (fld r.low 9 7) (fld r.low 6 0))
  | 0x011 => (commonOf .none r).bind fun c => onlyIf (r.dst == 0 && r.sa == 0 && decide (r.low < 5)) (.relx c r.low)
  | 0x012 => (commonOf .none r).bind fun c => (tlSelOf r.low).bind fun ts =>
      onlyIf (r.dst == 0 && fld r.low 6 0 == 0) (.tlwait c (nameOf r.sa) ts)
  | 0x013 => (commonOf .none r).bind fun c => (tlSelOf r.low).bind fun ts =>
      onlyIf (r.dst == 0 && decide (fld r.low 6 0 < 96)) (.tltry c (nameOf r.sa) ts (fld r.low 6 0))
  | 0x014 => (commonOf .none r).bind fun c => barScopes[fld r.low 5 3]?.bind fun sc =>
      onlyIf (r.dst == 0 && r.sa == 0 && fld r.low 20 6 == 0) (.tlsig c sc (fld r.low 2 0))
  | _ => none

/-- Integer instructions (R112, R113). -/
def decodeInt (r : Raw) : Option Instr :=
  match r.opc with
  | 0x040 => (commonOf .fixed r).bind fun c => bools[fld r.low 2 0]?.bind fun w64 => onlyIf (fld r.low 20 3 == 0)
      (.mov c (nameOf r.dst) (nameOf r.sa) w64)
  | 0x041 => (commonOf (if fld r.low 3 3 == 1 then .fixed else .keep) r).bind fun c =>
      bools[fld r.low 4 4]?.bind fun hi => bools[fld r.low 3 3]?.bind fun z =>
      onlyIf (r.sa == 0 && fld r.low 2 0 == 0) (.movk c (nameOf r.dst) (fld r.low 20 5) hi z)
  | 0x042 => (commonOf .fixed r).bind fun c => sats[fld r.low 2 0]?.bind fun t => onlyIf (fld r.low 11 3 == 0)
      (.iadd c (nameOf r.dst) (nameOf r.sa) (nameOf (fld r.low 20 12)) t)
  | 0x043 => (commonOf .fixed r).bind fun c => sats[fld r.low 2 0]?.bind fun t => onlyIf (fld r.low 11 3 == 0)
      (.isub c (nameOf r.dst) (nameOf r.sa) (nameOf (fld r.low 20 12)) t)
  | 0x044 => (commonOf .fixed r).bind fun c => sats[fld r.low 2 0]?.bind fun t => onlyIf (fld r.low 11 3 == 0)
      (.imul c (nameOf r.dst) (nameOf r.sa) (nameOf (fld r.low 20 12)) t)
  | 0x045 => (commonOf .fixed r).bind fun c => sgnsS[fld r.low 2 0]?.bind fun t => onlyIf (fld r.low 11 3 == 0)
      (.imulh c (nameOf r.dst) (nameOf r.sa) (nameOf (fld r.low 20 12)) t)
  | 0x046 => (commonOf .fixed r).bind fun c => sats[fld r.low 2 0]?.bind fun t => some
      (.imad c (nameOf r.dst) (nameOf r.sa) (nameOf (fld r.low 20 12)) (nameOf (fld r.low 11 3)) t)
  | 0x047 => (commonOf .fixed r).bind fun c => sgnsS[fld r.low 2 0]?.bind fun t => some
      (.imadw c (nameOf r.dst) (nameOf r.sa) (nameOf (fld r.low 20 12)) (nameOf (fld r.low 11 3)) t)
  | 0x048 => (commonOf .fixed r).bind fun c => sats[fld r.low 2 0]?.bind fun t => onlyIf (fld r.low 11 3 == 0)
      (.iadd64 c (nameOf r.dst) (nameOf r.sa) (nameOf (fld r.low 20 12)) t)
  | 0x049 => (commonOf .fixed r).bind fun c => sats[fld r.low 2 0]?.bind fun t => onlyIf (fld r.low 11 3 == 0)
      (.isub64 c (nameOf r.dst) (nameOf r.sa) (nameOf (fld r.low 20 12)) t)
  | 0x04A => (commonOf .tracked r).bind fun c => itys[fld r.low 2 0]?.bind fun t => onlyIf (fld r.low 11 3 == 0)
      (.idiv c (nameOf r.dst) (nameOf r.sa) (nameOf (fld r.low 20 12)) t)
  | 0x04B => (commonOf .tracked r).bind fun c => itys[fld r.low 2 0]?.bind fun t => onlyIf (fld r.low 11 3 == 0)
      (.irem c (nameOf r.dst) (nameOf r.sa) (nameOf (fld r.low 20 12)) t)
  | 0x04C => (commonOf .fixed r).bind fun c => negTys[fld r.low 2 0]?.bind fun t => onlyIf (fld r.low 20 3 == 0)
      (.ineg c (nameOf r.dst) (nameOf r.sa) t)
  | 0x04D => (commonOf .fixed r).bind fun c => negTys[fld r.low 2 0]?.bind fun t => onlyIf (fld r.low 20 3 == 0)
      (.iabs c (nameOf r.dst) (nameOf r.sa) t)
  | 0x04E => (commonOf .fixed r).bind fun c => itys[fld r.low 2 0]?.bind fun t => onlyIf (fld r.low 11 3 == 0)
      (.imin c (nameOf r.dst) (nameOf r.sa) (nameOf (fld r.low 20 12)) t)
  | 0x04F => (commonOf .fixed r).bind fun c => itys[fld r.low 2 0]?.bind fun t => onlyIf (fld r.low 11 3 == 0)
      (.imax c (nameOf r.dst) (nameOf r.sa) (nameOf (fld r.low 20 12)) t)
  | 0x050 => (commonOf .keep r).bind fun c => onlyIf (fld r.low 3 0 == 0)
      (.logt c (nameOf r.dst) (nameOf r.sa) (nameOf (fld r.low 20 12)) (fld r.low 11 4))
  | 0x051 => (commonOf .fixed r).bind fun c => bools[fld r.low 2 0]?.bind fun w64 => onlyIf (fld r.low 11 3 == 0)
      (.shl c (nameOf r.dst) (nameOf r.sa) (nameOf (fld r.low 20 12)) w64)
  | 0x052 => (commonOf .fixed r).bind fun c => bools[fld r.low 2 0]?.bind fun w64 => onlyIf (fld r.low 11 3 == 0)
      (.shr c (nameOf r.dst) (nameOf r.sa) (nameOf (fld r.low 20 12)) w64)
  | 0x053 => (commonOf .fixed r).bind fun c => bools[fld r.low 2 0]?.bind fun w64 => onlyIf (fld r.low 11 3 == 0)
      (.sar c (nameOf r.dst) (nameOf r.sa) (nameOf (fld r.low 20 12)) w64)
  | 0x054 => (commonOf .fixed r).bind fun c => bools[fld r.low 2 0]?.bind fun w64 => onlyIf (fld r.low 11 3 == 0)
      (.rot c (nameOf r.dst) (nameOf r.sa) (nameOf (fld r.low 20 12)) w64)
  | 0x055 => (commonOf .fixed r).bind fun c => bools[fld r.low 2 0]?.bind fun left => some
      (.funl c (nameOf r.dst) (nameOf r.sa) (nameOf (fld r.low 20 12)) (nameOf (fld r.low 11 3)) left)
  | 0x056 => (commonOf .fixed r).bind fun c => sgnsN[fld r.low 2 0]?.bind fun t => onlyIf (fld r.low 11 3 == 0)
      (.bfx c (nameOf r.dst) (nameOf r.sa) (nameOf (fld r.low 20 12)) t)
  | 0x057 => (commonOf .fixed r).bind fun c => onlyIf (fld r.low 2 0 == 0)
      (.bfi c (nameOf r.dst) (nameOf r.sa) (nameOf (fld r.low 20 12)) (nameOf (fld r.low 11 3)))
  | 0x058 => (commonOf .fixed r).bind fun c => bools[fld r.low 2 0]?.bind fun w64 => onlyIf (fld r.low 20 3 == 0)
      (.popc c (nameOf r.dst) (nameOf r.sa) w64)
  | 0x059 => (commonOf .fixed r).bind fun c => bools[fld r.low 2 0]?.bind fun w64 => onlyIf (fld r.low 20 3 == 0)
      (.clz c (nameOf r.dst) (nameOf r.sa) w64)
  | 0x05A => (commonOf .fixed r).bind fun c => bools[fld r.low 2 0]?.bind fun w64 => onlyIf (fld r.low 20 3 == 0)
      (.ctz c (nameOf r.dst) (nameOf r.sa) w64)
  | 0x05B => (commonOf .fixed r).bind fun c => bools[fld r.low 2 0]?.bind fun w64 => onlyIf (fld r.low 20 3 == 0)
      (.brev c (nameOf r.dst) (nameOf r.sa) w64)
  | 0x05C => (commonOf .fixed r).bind fun c => sgnsN[fld r.low 2 2]?.bind fun t =>
      scales[fld r.low 1 0]?.bind fun scale => some
      (.lea c (nameOf r.dst) (nameOf r.sa) (nameOf (fld r.low 20 12)) (nameOf (fld r.low 11 3)) scale t)
  | 0x05D => (commonOf .none r).bind fun c => iconds[fld r.low 11 9]?.bind fun cond =>
      itys[fld r.low 8 6]?.bind fun t => onlyIf (decide (r.dst < 96) && fld r.low 5 0 == 0)
      (.icmp c r.dst (nameOf r.sa) (nameOf (fld r.low 20 12)) cond t)
  | 0x05E => (commonOf .fixed r).bind fun c => bools[fld r.low 2 2]?.bind fun inv =>
      bools[fld r.low 0 0]?.bind fun w64 => onlyIf (predSrc (fld r.low 11 3) && fld r.low 1 1 == 0)
      (.sel c (nameOf r.dst) (nameOf r.sa) (nameOf (fld r.low 20 12)) (fld r.low 11 3) inv w64)
  | 0x05F => (commonOf .none r).bind fun c =>
      onlyIf (decide (r.dst < 96) && predSrc r.sa && predSrc (fld r.low 20 14) && fld r.low 5 0 == 0)
      (.plog c r.dst r.sa (fld r.low 20 14) (fld r.low 13 6))
  | 0x060 => (commonOf .fixed r).bind fun c =>
      onlyIf (r.sa == 0 && fld r.low 20 3 == 0 && decide (fld r.low 2 0 < 3)) (.prd c (nameOf r.dst) (fld r.low 2 0))
  | 0x061 => (commonOf .none r).bind fun c =>
      onlyIf (r.dst == 0 && fld r.low 11 3 == 0 && decide (fld r.low 2 0 < 3))
      (.pwr c (nameOf r.sa) (nameOf (fld r.low 20 12)) (fld r.low 2 0))
  | 0x080 => (commonOf .fixed r).bind fun c => onlyIf (r.sa == 0) (.movImm c (nameOf r.dst) (sext 21 r.low))
  | 0x082 => (commonOf .fixed r).bind fun c => some (.iaddImm c (nameOf r.dst) (nameOf r.sa) (sext 21 r.low))
  | 0x083 => (commonOf .fixed r).bind fun c => some (.isubImm c (nameOf r.dst) (nameOf r.sa) (sext 21 r.low))
  | 0x084 => (commonOf .fixed r).bind fun c => some (.imulImm c (nameOf r.dst) (nameOf r.sa) (sext 21 r.low))
  | 0x08E => (commonOf .fixed r).bind fun c => some (.iminImm c (nameOf r.dst) (nameOf r.sa) (sext 21 r.low))
  | 0x08F => (commonOf .fixed r).bind fun c => some (.imaxImm c (nameOf r.dst) (nameOf r.sa) (sext 21 r.low))
  | 0x091 => (commonOf .fixed r).bind fun c => some (.shlImm c (nameOf r.dst) (nameOf r.sa) r.low)
  | 0x092 => (commonOf .fixed r).bind fun c => some (.shrImm c (nameOf r.dst) (nameOf r.sa) r.low)
  | 0x093 => (commonOf .fixed r).bind fun c => some (.sarImm c (nameOf r.dst) (nameOf r.sa) r.low)
  | 0x094 => (commonOf .fixed r).bind fun c => some (.rotImm c (nameOf r.dst) (nameOf r.sa) r.low)
  | _ => none

/-- Floating-point instructions (R153, R154). -/
def decodeFlt (r : Raw) : Option Instr :=
  match r.opc with
  | 0x0C0 => (commonOf .fixed r).bind fun c => rnds4[fld r.low 2 0]?.bind fun rd => onlyIf (fld r.low 11 3 == 0)
      (.fadd c (nameOf r.dst) (nameOf r.sa) (nameOf (fld r.low 20 12)) rd)
  | 0x0C1 => (commonOf .fixed r).bind fun c => rnds4[fld r.low 2 0]?.bind fun rd => onlyIf (fld r.low 11 3 == 0)
      (.fsub c (nameOf r.dst) (nameOf r.sa) (nameOf (fld r.low 20 12)) rd)
  | 0x0C2 => (commonOf .fixed r).bind fun c => rnds4[fld r.low 2 0]?.bind fun rd => onlyIf (fld r.low 11 3 == 0)
      (.fmul c (nameOf r.dst) (nameOf r.sa) (nameOf (fld r.low 20 12)) rd)
  | 0x0C3 => (commonOf .fixed r).bind fun c => rnds4[fld r.low 2 0]?.bind fun rd => some
      (.ffma c (nameOf r.dst) (nameOf r.sa) (nameOf (fld r.low 20 12)) (nameOf (fld r.low 11 3)) rd)
  | 0x0C4 => (commonOf .fixed r).bind fun c => onlyIf (fld r.low 11 3 == 0 && fld r.low 2 0 == 0)
      (.fmin c (nameOf r.dst) (nameOf r.sa) (nameOf (fld r.low 20 12)))
  | 0x0C5 => (commonOf .fixed r).bind fun c => onlyIf (fld r.low 11 3 == 0 && fld r.low 2 0 == 0)
      (.fmax c (nameOf r.dst) (nameOf r.sa) (nameOf (fld r.low 20 12)))
  | 0x0C6 => (commonOf .none r).bind fun c => fconds[fld r.low 11 9]?.bind fun cond =>
      onlyIf (decide (r.dst < 96) && fld r.low 8 0 == 0) (.fcmp c r.dst (nameOf r.sa) (nameOf (fld r.low 20 12)) cond)
  | 0x0C7 => (commonOf .tracked r).bind fun c => rnds4[fld r.low 2 0]?.bind fun rd => onlyIf (fld r.low 11 3 == 0)
      (.fdiv c (nameOf r.dst) (nameOf r.sa) (nameOf (fld r.low 20 12)) rd)
  | 0x0C8 => (commonOf .tracked r).bind fun c => rnds4[fld r.low 2 0]?.bind fun rd => onlyIf (fld r.low 20 3 == 0)
      (.fsqrt c (nameOf r.dst) (nameOf r.sa) rd)
  | 0x0C9 => (commonOf .tracked r).bind fun c => onlyIf (fld r.low 20 3 == 0 && fld r.low 2 0 == 0)
      (.frcp c (nameOf r.dst) (nameOf r.sa))
  | 0x0CA => (commonOf .tracked r).bind fun c => onlyIf (fld r.low 20 3 == 0 && fld r.low 2 0 == 0)
      (.frsq c (nameOf r.dst) (nameOf r.sa))
  | 0x0CB => (commonOf .tracked r).bind fun c => onlyIf (fld r.low 20 3 == 0 && fld r.low 2 0 == 0)
      (.fexp2 c (nameOf r.dst) (nameOf r.sa))
  | 0x0CC => (commonOf .tracked r).bind fun c => onlyIf (fld r.low 20 3 == 0 && fld r.low 2 0 == 0)
      (.flog2 c (nameOf r.dst) (nameOf r.sa))
  | 0x0CD => (commonOf .tracked r).bind fun c => onlyIf (fld r.low 20 3 == 0 && fld r.low 2 0 == 0)
      (.fsin c (nameOf r.dst) (nameOf r.sa))
  | 0x0CE => (commonOf .tracked r).bind fun c => onlyIf (fld r.low 20 3 == 0 && fld r.low 2 0 == 0)
      (.fcos c (nameOf r.dst) (nameOf r.sa))
  | 0x0CF => (commonOf .fixed r).bind fun c => rnds4[fld r.low 2 0]?.bind fun rd => onlyIf (fld r.low 20 3 == 0)
      (.frnd c (nameOf r.dst) (nameOf r.sa) rd)
  | 0x0D0 => (commonOf .fixed r).bind fun c => clsForms[fld r.low 2 0]?.bind fun form =>
      onlyIf (fld r.low 20 3 == 0) (.fcls c (nameOf r.dst) (nameOf r.sa) form)
  | 0x0D1 => (commonOf .fixed r).bind fun c => rnds4[fld r.low 2 0]?.bind fun rd => onlyIf (fld r.low 11 3 == 0)
      (.fscl c (nameOf r.dst) (nameOf r.sa) (nameOf (fld r.low 20 12)) rd)
  | 0x0D2 => (commonOf .fixed r).bind fun c => bools[fld r.low 2 2]?.bind fun sub =>
      rnds4[fld r.low 1 0]?.bind fun rd => onlyIf (fld r.low 11 3 == 0)
      (.dadd c (nameOf r.dst) (nameOf r.sa) (nameOf (fld r.low 20 12)) rd sub)
  | 0x0D3 => (commonOf .fixed r).bind fun c => rnds4[fld r.low 2 0]?.bind fun rd => onlyIf (fld r.low 11 3 == 0)
      (.dmul c (nameOf r.dst) (nameOf r.sa) (nameOf (fld r.low 20 12)) rd)
  | 0x0D4 => (commonOf .fixed r).bind fun c => rnds4[fld r.low 2 0]?.bind fun rd => some
      (.dfma c (nameOf r.dst) (nameOf r.sa) (nameOf (fld r.low 20 12)) (nameOf (fld r.low 11 3)) rd)
  | 0x0D5 => (commonOf .tracked r).bind fun c => rnds4[fld r.low 2 0]?.bind fun rd => onlyIf (fld r.low 11 3 == 0)
      (.ddiv c (nameOf r.dst) (nameOf r.sa) (nameOf (fld r.low 20 12)) rd)
  | 0x0D6 => (commonOf .tracked r).bind fun c => rnds4[fld r.low 2 0]?.bind fun rd => onlyIf (fld r.low 20 3 == 0)
      (.dsqrt c (nameOf r.dst) (nameOf r.sa) rd)
  | 0x0D7 => (commonOf .none r).bind fun c => fconds[fld r.low 11 9]?.bind fun cond =>
      onlyIf (decide (r.dst < 96) && fld r.low 8 0 == 0) (.dcmp c r.dst (nameOf r.sa) (nameOf (fld r.low 20 12)) cond)
  | 0x0D8 => (commonOf .fixed r).bind fun c => bools[fld r.low 1 1]?.bind fun sat =>
      bools[fld r.low 0 0]?.bind fun rz => onlyIf (fld r.low 11 2 == 0)
      (.badd2 c (nameOf r.dst) (nameOf r.sa) (nameOf (fld r.low 20 12)) rz sat)
  | 0x0D9 => (commonOf .fixed r).bind fun c => bools[fld r.low 1 1]?.bind fun sat =>
      bools[fld r.low 0 0]?.bind fun rz => onlyIf (fld r.low 2 2 == 0)
      (.bfma2 c (nameOf r.dst) (nameOf r.sa) (nameOf (fld r.low 20 12)) (nameOf (fld r.low 11 3)) rz sat)
  | 0x0DA => (commonOf .fixed r).bind fun c => bools[fld r.low 1 1]?.bind fun sat =>
      bools[fld r.low 0 0]?.bind fun rz => onlyIf (fld r.low 2 2 == 0)
      (.hfma2 c (nameOf r.dst) (nameOf r.sa) (nameOf (fld r.low 20 12)) (nameOf (fld r.low 11 3)) rz sat)
  | 0x0DB => (commonOf .fixed r).bind fun c => cvtTys[fld r.low 11 8]?.bind fun dt =>
      cvtTys[fld r.low 7 4]?.bind fun sty => rnds5[fld r.low 3 1]?.bind fun rd =>
      bools[fld r.low 0 0]?.bind fun sat => onlyIf (cvtOk (nameOf (fld r.low 20 12)) dt sty rd sat)
      (.cvt c (nameOf r.dst) (nameOf r.sa) (nameOf (fld r.low 20 12)) dt sty rd sat)
  | 0x0DC => (commonOf .keep r).bind fun c => packFmts[fld r.low 2 0]?.bind fun f => onlyIf (fld r.low 11 3 == 0)
      (.pack c (nameOf r.dst) (nameOf r.sa) (nameOf (fld r.low 20 12)) f)
  | 0x0DD => (commonOf .fixed r).bind fun c => packFmts[fld r.low 2 0]?.bind fun f => onlyIf (fld r.low 11 3 == 0)
      (.unpk c (nameOf r.dst) (nameOf r.sa) (nameOf (fld r.low 20 12)) f)
  | 0x0DE => (commonOf .fixed r).bind fun c => onlyIf (fld r.low 20 3 == 0)
      (.act c (nameOf r.dst) (nameOf r.sa) (fld r.low 2 0))
  | 0x0DF => (commonOf .fixed r).bind fun c => onlyIf (fld r.low 11 3 == 0)
      (.actd c (nameOf r.dst) (nameOf r.sa) (nameOf (fld r.low 20 12)) (fld r.low 2 0))
  | 0x0E0 => (commonOf .keep r).bind fun c => onlyIf (fld r.low 11 0 == 0)
      (.xrng c (nameOf r.dst) (nameOf r.sa) (nameOf (fld r.low 20 12)))
  | 0x0E1 => (commonOf .fixed r).bind fun c => onlyIf (fld r.low 20 3 == 0 && fld r.low 2 0 == 0)
      (.xrngf c (nameOf r.dst) (nameOf r.sa))
  | _ => none

/-- Exchange instructions (R171, R173). -/
def decodeXch (r : Raw) : Option Instr :=
  match r.opc with
  | 0x140 => (commonOf .fixed r).bind fun c => some
      (.qswp c (nameOf r.dst) (nameOf r.sa) (nameOf (fld r.low 20 12)) (nameOf (fld r.low 11 3)) (fld r.low 2 0))
  | 0x141 => (commonOf .fixed r).bind fun c => some
      (.qbc c (nameOf r.dst) (nameOf r.sa) (nameOf (fld r.low 20 12)) (nameOf (fld r.low 11 3)) (fld r.low 2 0))
  | 0x142 => (commonOf .fixed r).bind fun c => onlyIf (fld r.low 20 12 == 0)
      (.qdx c (nameOf r.dst) (nameOf r.sa) (nameOf (fld r.low 11 3)) (fld r.low 2 0))
  | 0x143 => (commonOf .fixed r).bind fun c => onlyIf (fld r.low 20 12 == 0)
      (.qdy c (nameOf r.dst) (nameOf r.sa) (nameOf (fld r.low 11 3)) (fld r.low 2 0))
  | 0x144 => (commonOf .fixed r).bind fun c => some
      (.perm c (nameOf r.dst) (nameOf r.sa) (nameOf (fld r.low 20 12)) (nameOf (fld r.low 11 3)) (fld r.low 2 0))
  | 0x145 => (commonOf .fixed r).bind fun c => some
      (.shup c (nameOf r.dst) (nameOf r.sa) (nameOf (fld r.low 20 12)) (nameOf (fld r.low 11 3)) (fld r.low 2 0))
  | 0x146 => (commonOf .fixed r).bind fun c => some
      (.shdn c (nameOf r.dst) (nameOf r.sa) (nameOf (fld r.low 20 12)) (nameOf (fld r.low 11 3)) (fld r.low 2 0))
  | 0x147 => (commonOf .fixed r).bind fun c => some
      (.shxr c (nameOf r.dst) (nameOf r.sa) (nameOf (fld r.low 20 12)) (nameOf (fld r.low 11 3)) (fld r.low 2 0))
  | 0x148 => (commonOf .fixed r).bind fun c => votes[fld r.low 2 0]?.bind fun m => onlyIf (fld r.low 20 3 == 0)
      (.vote c (nameOf r.dst) (nameOf r.sa) m)
  | 0x149 => (commonOf .fixed r).bind fun c => bools[fld r.low 2 0]?.bind fun w64 => onlyIf (fld r.low 20 3 == 0)
      (.mtch c (nameOf r.dst) (nameOf r.sa) w64)
  | 0x14A => (commonOf .fixed r).bind fun c => redOps[fld r.low 2 0]?.bind fun op => onlyIf (fld r.low 11 3 == 0)
      (.gscan c (nameOf r.dst) (nameOf r.sa) (nameOf (fld r.low 20 12)) op)
  | 0x14B => (commonOf .fixed r).bind fun c => redOps[fld r.low 2 0]?.bind fun op => onlyIf (fld r.low 20 3 == 0)
      (.gred c (nameOf r.dst) (nameOf r.sa) op)
  | 0x14C => (commonOf .fixed r).bind fun c => some
      (.rdix c (nameOf r.dst) (nameOf r.sa) (nameOf (fld r.low 20 12)) (nameOf (fld r.low 11 3)) (fld r.low 2 0))
  | 0x14D => (commonOf .none r).bind fun c => onlyIf (fld r.low 11 3 == 0)
      (.wrix c (nameOf r.dst) (nameOf r.sa) (nameOf (fld r.low 20 12)) (fld r.low 2 0))
  | _ => none

/-- Memory and subscription instructions (R199, R200, R229). -/
def decodeMem (r : Raw) : Option Instr :=
  match r.opc with
  | 0x160 => (commonOf .tracked r).bind fun c => memTys[fld r.low 4 2]?.bind fun t =>
      bools[fld r.low 1 1]?.bind fun a64 => onlyIf (fld r.low 20 12 == 0 && fld r.low 0 0 == 0)
      (.ld c (nameOf r.dst) (nameOf r.sa) (sext 7 (fld r.low 11 5)) t a64)
  | 0x161 => (commonOf .tracked r).bind fun c => memTys[fld r.low 4 2]?.bind fun t =>
      bools[fld r.low 1 1]?.bind fun a64 => onlyIf (r.dst == 0 && fld r.low 0 0 == 0 && storeTy t)
      (.st c (nameOf r.sa) (nameOf (fld r.low 20 12)) (sext 7 (fld r.low 11 5)) t a64)
  | 0x162 => (commonOf .tracked r).bind fun c => memTys[fld r.low 4 2]?.bind fun t =>
      onlyIf (fld r.low 20 12 == 0 && fld r.low 1 1 == 0 && fld r.low 0 0 == 0)
      (.ldp c (nameOf r.dst) (nameOf r.sa) (sext 7 (fld r.low 11 5)) t)
  | 0x163 => (commonOf .tracked r).bind fun c => memTys[fld r.low 4 2]?.bind fun t =>
      onlyIf (r.dst == 0 && fld r.low 1 1 == 0 && fld r.low 0 0 == 0 && storeTy t)
      (.stp c (nameOf r.sa) (nameOf (fld r.low 20 12)) (sext 7 (fld r.low 11 5)) t)
  | 0x164 => (commonOf .tracked r).bind fun c => atomOps[fld r.low 11 8]?.bind fun op =>
      bools[fld r.low 7 7]?.bind fun w64 => ords[fld r.low 6 5]?.bind fun o => scopes[fld r.low 4 2]?.bind fun sc =>
      bools[fld r.low 1 1]?.bind fun a64 => onlyIf (fld r.low 0 0 == 0)
      (.atom c (nameOf r.dst) (nameOf r.sa) (nameOf (fld r.low 20 12)) op w64 o sc a64)
  | 0x165 => (commonOf .tracked r).bind fun c => bools[fld r.low 7 7]?.bind fun w64 =>
      ords[fld r.low 6 5]?.bind fun o => scopes[fld r.low 4 2]?.bind fun sc => bools[fld r.low 1 1]?.bind fun a64 =>
      onlyIf (fld r.low 11 8 == 0 && fld r.low 0 0 == 0)
      (.acas c (nameOf r.dst) (nameOf r.sa) (nameOf (fld r.low 20 12)) w64 o sc a64)
  | 0x166 => (commonOf .tracked r).bind fun c => bools[fld r.low 8 8]?.bind fun bf16 =>
      ords[fld r.low 6 5]?.bind fun o => scopes[fld r.low 4 2]?.bind fun sc => bools[fld r.low 1 1]?.bind fun a64 =>
      onlyIf (r.dst == 0 && fld r.low 11 9 == 0 && fld r.low 7 7 == 0 && fld r.low 0 0 == 0)
      (.xsum c (nameOf r.sa) (nameOf (fld r.low 20 12)) bf16 o sc a64)
  | 0x167 => (commonOf .tracked r).bind fun c => bools[fld r.low 9 9]?.bind fun clr =>
      bools[fld r.low 8 8]?.bind fun pair => ords[fld r.low 6 5]?.bind fun o => scopes[fld r.low 4 2]?.bind fun sc =>
      bools[fld r.low 1 1]?.bind fun a64 =>
      onlyIf (fld r.low 20 10 == 0 && fld r.low 7 7 == 0 && fld r.low 0 0 == 0)
      (.xrd c (nameOf r.dst) (nameOf r.sa) pair clr o sc a64)
  | 0x168 => (commonOf .tracked r).bind fun c => scopes[fld r.low 4 2]?.bind fun sc =>
      bools[fld r.low 1 1]?.bind fun a64 => onlyIf (r.dst == 0 && fld r.low 20 5 == 0 && fld r.low 0 0 == 0)
      (.xclr c (nameOf r.sa) sc a64)
  | 0x169 => (commonOf .tracked r).bind fun c => bools[fld r.low 1 1]?.bind fun a64 =>
      onlyIf (fld r.low 20 12 == 0 && fld r.low 4 2 == 4 && fld r.low 0 0 == 0)
      (.ldv c (nameOf r.dst) (nameOf r.sa) (sext 7 (fld r.low 11 5)) a64)
  | 0x16A => (commonOf .tracked r).bind fun c => scopes[fld r.low 4 2]?.bind fun sc =>
      bools[fld r.low 1 1]?.bind fun a64 =>
      onlyIf (decide (fld r.low 20 14 < 96) && fld r.low 13 5 == 0 && fld r.low 0 0 == 0)
      (.cms c (nameOf r.dst) (nameOf r.sa) (fld r.low 20 14) sc a64)
  | 0x16B => (commonOf .tracked r).bind fun c => scopes[fld r.low 2 0]?.bind fun sc =>
      onlyIf (r.dst == 0 && r.sa == 0 && fld r.low 20 3 == 0) (.fence c sc)
  | 0x16C => (commonOf .tracked r).bind fun c => scopes[fld r.low 2 0]?.bind fun sc =>
      onlyIf (r.dst == 0 && r.sa == 0 && fld r.low 20 3 == 0) (.rel c sc)
  | 0x16D => (commonOf .tracked r).bind fun c => scopes[fld r.low 2 0]?.bind fun sc =>
      onlyIf (r.dst == 0 && r.sa == 0 && fld r.low 20 3 == 0) (.acq c sc)
  | 0x16E => (commonOf .tracked r).bind fun c => views[fld r.low 11 9]?.bind fun f =>
      bools[fld r.low 8 8]?.bind fun inv => etypes[fld r.low 7 7]?.bind fun t =>
      bools[fld r.low 1 1]?.bind fun a64 => onlyIf (fld r.low 6 2 == 0 && fld r.low 0 0 == 0)
      (.sbsc c (nameOf r.dst) (nameOf r.sa) (nameOf (fld r.low 20 12)) f inv t a64)
  | 0x16F => (commonOf .tracked r).bind fun c => bools[fld r.low 1 1]?.bind fun a64 =>
      onlyIf (fld r.low 20 2 == 0 && fld r.low 0 0 == 0) (.unsb c (nameOf r.dst) (nameOf r.sa) a64)
  | 0x170 => (commonOf .tracked r).bind fun c => bools[fld r.low 1 1]?.bind fun a64 =>
      onlyIf (fld r.low 20 12 == 0 && fld r.low 4 2 == 0 && fld r.low 0 0 == 0)
      (.sld c (nameOf r.dst) (nameOf r.sa) (sext 7 (fld r.low 11 5)) a64)
  | 0x171 => (commonOf .tracked r).bind fun c => views[fld r.low 11 9]?.bind fun f =>
      bools[fld r.low 1 1]?.bind fun a64 =>
      onlyIf (fld r.low 20 12 == 0 && fld r.low 8 2 == 0 && fld r.low 0 0 == 0)
      (.supg c (nameOf r.dst) (nameOf r.sa) f a64)
  | 0x172 => (commonOf .tracked r).bind fun c => bools[fld r.low 1 1]?.bind fun a64 =>
      onlyIf (fld r.low 20 2 == 0 && fld r.low 0 0 == 0) (.schg c (nameOf r.dst) (nameOf r.sa) a64)
  | _ => none

/-- Stream instructions (R255). -/
def decodeStr (r : Raw) : Option Instr :=
  match r.opc with
  | 0x1A0 => (commonOf .none r).bind fun c => onlyIf (r.low == 0) (.sbind c (nameOf r.dst) (nameOf r.sa))
  | 0x1A1 => (commonOf .none r).bind fun c => onlyIf (r.sa == 0 && r.low == 0) (.sfree c (nameOf r.dst))
  | 0x1A2 => (commonOf .keep r).bind fun c => bools[fld r.low 2 0]?.bind fun set => onlyIf (fld r.low 20 3 == 0)
      (.spos c (nameOf r.dst) (nameOf r.sa) set)
  | 0x1A3 => (commonOf .tracked r).bind fun c => bools[fld r.low 2 0]?.bind fun close =>
      onlyIf (r.dst == 0 && fld r.low 20 3 == 0) (.sdrain c (nameOf r.sa) close)
  | 0x1A4 => (commonOf .tracked r).bind fun c => bools[fld r.low 2 0]?.bind fun a64 => onlyIf (fld r.low 11 3 == 0)
      (.qring c (nameOf r.dst) (nameOf r.sa) (nameOf (fld r.low 20 12)) a64)
  | 0x1A5 => (commonOf .tracked r).bind fun c => bools[fld r.low 2 0]?.bind fun a64 => onlyIf (fld r.low 20 3 == 0)
      (.qrfree c (nameOf r.dst) (nameOf r.sa) a64)
  | _ => none

/-- Copy instructions (R280, R281). -/
def decodeCpy (r : Raw) : Option Instr :=
  match r.opc with
  | 0x1B0 => (commonOf .tracked r).bind fun c => scopes[fld r.low 11 9]?.bind fun sc =>
      bools[fld r.low 1 1]?.bind fun a64 => onlyIf (fld r.low 8 2 == 0 && fld r.low 0 0 == 0)
      (.hdef c (nameOf r.dst) (nameOf r.sa) (fld r.low 20 15) (fld r.low 14 12) sc a64)
  | 0x1B1 => (commonOf .tracked r).bind fun c => onlyIf (r.sa == 0 && fld r.low 11 0 == 0)
      (.hqry c (nameOf r.dst) (fld r.low 20 15) (fld r.low 14 12))
  | 0x1B2 => (commonOf .tracked r).bind fun c => scopes[fld r.low 11 9]?.bind fun sc =>
      bools[fld r.low 1 1]?.bind fun a64 => onlyIf (fld r.low 2 2 == 0 && fld r.low 0 0 == 0)
      (.copy c (nameOf r.dst) (nameOf r.sa) (fld r.low 20 15) (fld r.low 8 3) (fld r.low 14 12) sc a64)
  | 0x1B3 => (commonOf .tracked r).bind fun c => scopes[fld r.low 11 9]?.bind fun sc =>
      bools[fld r.low 1 1]?.bind fun a64 => onlyIf (fld r.low 8 2 == 0 && fld r.low 0 0 == 0)
      (.cfill c (nameOf r.dst) (nameOf r.sa) (fld r.low 20 15) (fld r.low 14 12) sc a64)
  | 0x1B4 => (commonOf .tracked r).bind fun c => scopes[fld r.low 11 9]?.bind fun sc =>
      bools[fld r.low 1 1]?.bind fun a64 =>
      onlyIf (fld r.low 20 15 == 0 && fld r.low 8 2 == 0 && fld r.low 0 0 == 0)
      (.coll c (nameOf r.dst) (nameOf r.sa) (fld r.low 14 12) sc a64)
  | 0x1B5 => (commonOf .tracked r).bind fun c => bools[fld r.low 11 11]?.bind fun iss =>
      onlyIf (r.sa == 0 && fld r.low 20 15 == 0 && fld r.low 10 0 == 0) (.tlrd c (nameOf r.dst) (fld r.low 14 12) iss)
  | _ => none

/-- Matrix instructions (R307, R308). -/
def decodeMtx (r : Raw) : Option Instr :=
  match r.opc with
  | 0x1C0 => (commonOf .tracked r).bind fun c => scopes[fld r.low 11 9]?.bind fun sc => onlyIf (fld r.low 8 0 == 0)
      (.wld c (nameOf r.dst) (nameOf r.sa) (fld r.low 20 15) (fld r.low 14 12) sc)
  | 0x1C1 => (commonOf .tracked r).bind fun c => onlyIf (r.sa == 0 && fld r.low 20 15 == 0 && fld r.low 11 0 == 0)
      (.wswp c (nameOf r.dst) (fld r.low 14 12))
  | 0x1C2 => (commonOf .tracked r).bind fun c =>
      (mmaSrcOf (fld r.low 8 7) (fld r.low 20 15) (fld r.low 4 2)).bind fun src =>
      scopes[fld r.low 11 9]?.bind fun sc => onlyIf (fld r.low 1 0 == 0)
      (.mma c (nameOf r.dst) (nameOf r.sa) src (fld r.low 6 5) (fld r.low 14 12) sc)
  | 0x1C3 => (commonOf .tracked r).bind fun c =>
      onlyIf (r.sa == 0 && fld r.low 20 15 == 0 && fld r.low 11 7 == 0 && fld r.low 4 0 == 0)
      (.mzero c (nameOf r.dst) (fld r.low 6 5) (fld r.low 14 12))
  | 0x1C4 => (commonOf .tracked r).bind fun c => readFmts[fld r.low 4 2]?.bind fun f =>
      bools[fld r.low 7 7]?.bind fun sat => onlyIf (fld r.low 20 15 == 0 && fld r.low 1 0 == 0)
      (.mrd c (nameOf r.dst) (nameOf r.sa) (fld r.low 6 5) (fld r.low 14 12) (actOf (fld r.low 8 8) (fld r.low 11 9))
      f sat)
  | 0x1C5 => (commonOf .tracked r).bind fun c => bools[fld r.low 8 8]?.bind fun rs =>
      onlyIf (fld r.low 7 7 == 0 && fld r.low 4 0 == 0 && (!rs || fld r.low 20 12 == 0))
      (.mwr c (nameOf r.dst) (nameOf r.sa) (nameOf (fld r.low 20 12)) (fld r.low 6 5) (fld r.low 11 9) rs)
  | 0x1C6 => (commonOf .tracked r).bind fun c => scopes[fld r.low 11 9]?.bind fun sc =>
      bools[fld r.low 4 4]?.bind fun sat => onlyIf (fld r.low 1 0 == 0)
      (.mst c (nameOf r.dst) (nameOf r.sa) (fld r.low 20 15) (fld r.low 3 2) (fld r.low 14 12) sc (actOf (fld r.low 5
      5) (fld r.low 8 6)) sat)
  | 0x1C7 => (commonOf .tracked r).bind fun c => (tblFormOf (fld r.low 8 8) (fld r.low 7 5)).bind fun form =>
      scopes[fld r.low 11 9]?.bind fun sc => bools[fld r.low 1 1]?.bind fun a64 =>
      onlyIf (fld r.low 20 15 == 0 && fld r.low 4 2 == 0 && fld r.low 0 0 == 0)
      (.tblld c (nameOf r.dst) (nameOf r.sa) form (fld r.low 14 12) sc a64)
  | 0x1C8 => (commonOf .tracked r).bind fun c =>
      onlyIf (r.sa == 0 && fld r.low 20 12 == 0 && decide (fld r.low 11 9 < 3) && fld r.low 8 0 == 0)
      (.mstat c (nameOf r.dst) (fld r.low 11 9))
  | _ => none

/-- Physics instructions (R339). -/
def decodePhy (r : Raw) : Option Instr :=
  match r.opc with
  | 0x1D8 => (commonOf .tracked r).bind fun c => scopes[fld r.low 11 9]?.bind fun sc =>
      bools[fld r.low 1 1]?.bind fun a64 =>
      onlyIf (fld r.low 20 15 == 0 && fld r.low 8 2 == 0 && fld r.low 0 0 == 0)
      (.sort c (nameOf r.dst) (nameOf r.sa) (fld r.low 14 12) sc a64)
  | 0x1D9 => (commonOf .tracked r).bind fun c => scopes[fld r.low 11 9]?.bind fun sc =>
      bools[fld r.low 5 5]?.bind fun ray => bools[fld r.low 1 1]?.bind fun a64 =>
      onlyIf (fld r.low 4 2 == 0 && fld r.low 0 0 == 0)
      (.bvhq c (nameOf r.dst) (nameOf r.sa) (nameOf (fld r.low 20 12)) ray (fld r.low 8 6) sc a64)
  | 0x1DA => (commonOf .keep r).bind fun c => (predDstOf (fld r.low 20 12)).bind fun pd =>
      bools[fld r.low 8 8]?.bind fun w64 => onlyIf (fld r.low 11 9 == 0 && fld r.low 7 0 == 0)
      (.qlu c (nameOf r.dst) (nameOf r.sa) pd w64)
  | 0x1DB => (commonOf .keep r).bind fun c => bools[fld r.low 8 8]?.bind fun w64 =>
      onlyIf (fld r.low 11 9 == 0 && fld r.low 7 0 == 0)
      (.qlus c (nameOf r.dst) (nameOf r.sa) (nameOf (fld r.low 20 12)) w64)
  | 0x1DC => (commonOf .keep r).bind fun c => bools[fld r.low 8 8]?.bind fun w64 =>
      onlyIf (fld r.low 11 9 == 0 && fld r.low 7 0 == 0)
      (.qlut c (nameOf r.dst) (nameOf r.sa) (nameOf (fld r.low 20 12)) w64)
  | 0x1DD => (commonOf .keep r).bind fun c => bools[fld r.low 9 9]?.bind fun inv =>
      bools[fld r.low 8 8]?.bind fun w64 => onlyIf (fld r.low 11 10 == 0 && fld r.low 7 0 == 0)
      (.qpiv c (nameOf r.dst) (nameOf r.sa) (nameOf (fld r.low 20 12)) inv w64)
  | 0x1DE => (commonOf .keep r).bind fun c => oluOps[fld r.low 11 9]?.bind fun op =>
      (oluArgOf op (fld r.low 20 12)).bind fun bp => bools[fld r.low 8 8]?.bind fun w64 =>
      onlyIf (fld r.low 7 0 == 0) (.olu c (nameOf r.dst) (nameOf r.sa) bp.1 bp.2 op w64)
  | _ => none

/-- Launch instructions (R364). -/
def decodeLch (r : Raw) : Option Instr :=
  match r.opc with
  | 0x1E8 => (commonOf .tracked r).bind fun c => bools[fld r.low 1 1]?.bind fun a64 =>
      onlyIf (fld r.low 20 2 == 0 && fld r.low 0 0 == 0) (.lnch c (nameOf r.dst) (nameOf r.sa) a64)
  | 0x1E9 => (commonOf .tracked r).bind fun c => bools[fld r.low 1 1]?.bind fun a64 =>
      onlyIf (fld r.low 11 2 == 0 && fld r.low 0 0 == 0)
      (.lrec c (nameOf r.dst) (nameOf r.sa) (nameOf (fld r.low 20 12)) a64)
  | 0x1EA => (commonOf .tracked r).bind fun c =>
      onlyIf (r.sa == 0 && fld r.low 20 12 == 0 && decide (fld r.low 11 9 < 5) && fld r.low 8 0 == 0)
      (.lstat c (nameOf r.dst) (fld r.low 11 9))
  | 0x1EB => (commonOf .tracked r).bind fun c => onlyIf (r.low == 0) (.lease c (nameOf r.dst) (nameOf r.sa))
  | _ => none

/-- System instructions (R389). -/
def decodeSys (r : Raw) : Option Instr :=
  match r.opc with
  | 0x1F0 => (commonOf .none r).bind fun c => onlyIf (r.dst == 0 && r.sa == 0 && decide (r.low < 1024))
      (.trap c r.low)
  | 0x1F1 => (commonOf .none r).bind fun c => tretForms[fld r.low 2 0]?.bind fun form =>
      onlyIf (r.dst == 0 && r.sa == 0 && fld r.low 20 3 == 0) (.tret c form)
  | 0x1F2 => (commonOf .tracked r).bind fun c => onlyIf (r.low == 0) (.csave c (nameOf r.dst) (nameOf r.sa))
  | 0x1F3 => (commonOf .tracked r).bind fun c => onlyIf (r.low == 0) (.crest c (nameOf r.dst) (nameOf r.sa))
  | 0x1F4 => (commonOf .tracked r).bind fun c => tlbOps[fld r.low 2 0]?.bind fun op => onlyIf (fld r.low 20 3 == 0)
      (.tlbinv c (nameOf r.dst) (nameOf r.sa) op)
  | 0x1F5 => (commonOf .tracked r).bind fun c => onlyIf (r.low == 0) (.replay c (nameOf r.dst) (nameOf r.sa))
  | 0x1F6 => (commonOf .keep r).bind fun c => onlyIf (r.sa == 0 && decide (r.low < 14)) (.rdsr c (nameOf r.dst) r.low)
  | 0x1F7 => (commonOf .none r).bind fun c =>
      onlyIf (r.dst == 0 && decide (r.low < 14) && writableSrs.contains r.low) (.wrsr c (nameOf r.sa) r.low)
  | 0x1F8 => (commonOf .tracked r).bind fun c => bools[fld r.low 2 0]?.bind fun int =>
      onlyIf (r.dst == 0 && fld r.low 11 3 == 0) (.evnt c (nameOf r.sa) (nameOf (fld r.low 20 12)) int)
  | 0x1F9 => (commonOf .none r).bind fun c => onlyIf (r.dst == 0 && r.sa == 0 && r.low == 0) (.halt c)
  | _ => none

/-- The instruction with these fields; `none` is ILLINSN (R60). -/
def decodeRaw (r : Raw) : Option Instr :=
  if r.opc < 0x040 then decodeCtl r
  else if r.opc < 0x0C0 then decodeInt r
  else if r.opc < 0x140 then decodeFlt r
  else if r.opc < 0x160 then decodeXch r
  else if r.opc < 0x1A0 then decodeMem r
  else if r.opc < 0x1B0 then decodeStr r
  else if r.opc < 0x1C0 then decodeCpy r
  else if r.opc < 0x1D8 then decodeMtx r
  else if r.opc < 0x1E8 then decodePhy r
  else if r.opc < 0x1F0 then decodeLch r
  else decodeSys r

/-- The instruction of a 64-bit word; `none` is ILLINSN. -/
def decodeWord (w : DWord) : Option Instr := decodeRaw (Raw.ofWord w.toNat)

/-- Why bytes are no instruction. -/
inductive Reject
  /-- fewer than 8 bytes -/
  | short
  /-- a word that raises ILLINSN -/
  | illinsn
deriving DecidableEq, Repr

/-- The number whose little-endian bytes these are (R4). -/
def ofBytes : List Byte → Nat
  | [] => 0
  | b :: t => b.toNat + 256 * ofBytes t

/-- The `n` little-endian bytes of a number (R4). -/
def toBytes : Nat → Nat → List Byte
  | 0, _ => []
  | n + 1, v => BitVec.ofNat 8 v :: toBytes n (v / 256)

/-- Decode the instruction word at the head of a byte string: the instruction and the bytes after it. -/
def decode (bs : List Byte) : Except Reject (Instr × List Byte) :=
  if bs.length < 8 then .error .short
  else match decodeWord (BitVec.ofNat 64 (ofBytes (bs.take 8))) with
    | some i => .ok (i, bs.drop 8)
    | none => .error .illinsn

/-- Is `i` an instruction, and not one of the machine's whole steps? -/
def isInsn (i : Instr) : Bool := i.insnKind.isSome

/-- The word of one instruction from its fields (R51). -/
def put (opc : Nat) (c : Common) (dst sa low : Nat) : DWord :=
  BitVec.ofNat 64 (Raw.word { opc := opc, dist := c.dist, setf := c.setf, nwb := if c.nwb then 1 else 0,
                              pn := guardPn c.guard, pg := guardPg c.guard, dst := dst, sa := sa, low := low })

/-- The word of a well-formed instruction (R51 to R54 and the entry tables); a whole step of the machine has no word. -/
def encode : Instr → DWord
  | .nop c => put 0x001 c 0 0 0
  | .bra c off => put 0x002 c 0 0 (unsext 21 off)
  | .brx c a => put 0x003 c 0 (nameCode a) 0
  | .call c d off => put 0x004 c (nameCode d) 0 (unsext 21 off)
  | .callx c d a => put 0x005 c (nameCode d) (nameCode a) 0
  | .ret c a => put 0x006 c 0 (nameCode a) 0
  | .exit c => put 0x007 c 0 0 0
  | .yld c d => put 0x008 c 0 0 (d)
  | .hinty c => put 0x009 c 0 0 0
  | .barg c sc => put 0x00A c 0 0 (codeOf barScopes sc)
  | .bart c sc => put 0x00B c 0 0 (codeOf barScopes sc)
  | .barb c sc => put 0x00C c 0 0 (codeOf bandScopes sc)
  | .regrp c => put 0x00D c 0 0 0
  | .sphase c a => put 0x00E c 0 (nameCode a) 0
  | .acqx c n => put 0x00F c 0 0 (n)
  | .acqxt c n pd => put 0x010 c 0 0 (n * 128 + pd)
  | .relx c n => put 0x011 c 0 0 (n)
  | .tlwait c v ts => put 0x012 c 0 (nameCode v) (tlSelCode ts)
  | .tltry c v ts pd => put 0x013 c 0 (nameCode v) (tlSelCode ts + pd)
  | .tlsig c sc e => put 0x014 c 0 0 (codeOf barScopes sc * 8 + e)
  | .mov c d a w64 => put 0x040 c (nameCode d) (nameCode a) (codeOf bools w64)
  | .movk c d k hi z => put 0x041 c (nameCode d) 0 (k * 32 + codeOf bools hi * 16 + codeOf bools z * 8)
  | .iadd c d a b t => put 0x042 c (nameCode d) (nameCode a) (nameCode b * 4096 + codeOf sats t)
  | .isub c d a b t => put 0x043 c (nameCode d) (nameCode a) (nameCode b * 4096 + codeOf sats t)
  | .imul c d a b t => put 0x044 c (nameCode d) (nameCode a) (nameCode b * 4096 + codeOf sats t)
  | .imulh c d a b t => put 0x045 c (nameCode d) (nameCode a) (nameCode b * 4096 + codeOf sgnsS t)
  | .imad c d a b x t => put 0x046 c (nameCode d) (nameCode a) (nameCode b * 4096 + nameCode x * 8 + codeOf sats t)
  | .imadw c d a b x t => put 0x047 c (nameCode d) (nameCode a) (nameCode b * 4096 + nameCode x * 8 + codeOf sgnsS t)
  | .iadd64 c d a b t => put 0x048 c (nameCode d) (nameCode a) (nameCode b * 4096 + codeOf sats t)
  | .isub64 c d a b t => put 0x049 c (nameCode d) (nameCode a) (nameCode b * 4096 + codeOf sats t)
  | .idiv c d a b t => put 0x04A c (nameCode d) (nameCode a) (nameCode b * 4096 + codeOf itys t)
  | .irem c d a b t => put 0x04B c (nameCode d) (nameCode a) (nameCode b * 4096 + codeOf itys t)
  | .ineg c d a t => put 0x04C c (nameCode d) (nameCode a) (codeOf negTys t)
  | .iabs c d a t => put 0x04D c (nameCode d) (nameCode a) (codeOf negTys t)
  | .imin c d a b t => put 0x04E c (nameCode d) (nameCode a) (nameCode b * 4096 + codeOf itys t)
  | .imax c d a b t => put 0x04F c (nameCode d) (nameCode a) (nameCode b * 4096 + codeOf itys t)
  | .logt c d a b tbl => put 0x050 c (nameCode d) (nameCode a) (nameCode b * 4096 + tbl * 16)
  | .shl c d a n w64 => put 0x051 c (nameCode d) (nameCode a) (nameCode n * 4096 + codeOf bools w64)
  | .shr c d a n w64 => put 0x052 c (nameCode d) (nameCode a) (nameCode n * 4096 + codeOf bools w64)
  | .sar c d a n w64 => put 0x053 c (nameCode d) (nameCode a) (nameCode n * 4096 + codeOf bools w64)
  | .rot c d a n w64 => put 0x054 c (nameCode d) (nameCode a) (nameCode n * 4096 + codeOf bools w64)
  | .funl c d lo hi n left => put 0x055 c (nameCode d) (nameCode lo) (nameCode hi * 4096 + nameCode n * 8 +
      codeOf bools left)
  | .bfx c d a f t => put 0x056 c (nameCode d) (nameCode a) (nameCode f * 4096 + codeOf sgnsN t)
  | .bfi c d ins base f => put 0x057 c (nameCode d) (nameCode ins) (nameCode base * 4096 + nameCode f * 8)
  | .popc c d a w64 => put 0x058 c (nameCode d) (nameCode a) (codeOf bools w64)
  | .clz c d a w64 => put 0x059 c (nameCode d) (nameCode a) (codeOf bools w64)
  | .ctz c d a w64 => put 0x05A c (nameCode d) (nameCode a) (codeOf bools w64)
  | .brev c d a w64 => put 0x05B c (nameCode d) (nameCode a) (codeOf bools w64)
  | .lea c d base idx off scale t => put 0x05C c (nameCode d) (nameCode base) (nameCode idx * 4096 +
      nameCode off * 8 + codeOf sgnsN t * 4 + codeOf scales scale)
  | .icmp c pd a b cond t => put 0x05D c pd (nameCode a) (nameCode b * 4096 + codeOf iconds cond * 512 +
      codeOf itys t * 64)
  | .sel c d a b ps inv w64 => put 0x05E c (nameCode d) (nameCode a) (nameCode b * 4096 + ps * 8 +
      codeOf bools inv * 4 + codeOf bools w64)
  | .plog c pd pa pb tbl => put 0x05F c pd pa (pb * 16384 + tbl * 64)
  | .prd c d bank => put 0x060 c (nameCode d) 0 (bank)
  | .pwr c a m bank => put 0x061 c 0 (nameCode a) (nameCode m * 4096 + bank)
  | .movImm c d imm => put 0x080 c (nameCode d) 0 (unsext 21 imm)
  | .iaddImm c d a imm => put 0x082 c (nameCode d) (nameCode a) (unsext 21 imm)
  | .isubImm c d a imm => put 0x083 c (nameCode d) (nameCode a) (unsext 21 imm)
  | .imulImm c d a imm => put 0x084 c (nameCode d) (nameCode a) (unsext 21 imm)
  | .iminImm c d a imm => put 0x08E c (nameCode d) (nameCode a) (unsext 21 imm)
  | .imaxImm c d a imm => put 0x08F c (nameCode d) (nameCode a) (unsext 21 imm)
  | .shlImm c d a imm => put 0x091 c (nameCode d) (nameCode a) (imm)
  | .shrImm c d a imm => put 0x092 c (nameCode d) (nameCode a) (imm)
  | .sarImm c d a imm => put 0x093 c (nameCode d) (nameCode a) (imm)
  | .rotImm c d a imm => put 0x094 c (nameCode d) (nameCode a) (imm)
  | .fadd c d a b rd => put 0x0C0 c (nameCode d) (nameCode a) (nameCode b * 4096 + codeOf rnds4 rd)
  | .fsub c d a b rd => put 0x0C1 c (nameCode d) (nameCode a) (nameCode b * 4096 + codeOf rnds4 rd)
  | .fmul c d a b rd => put 0x0C2 c (nameCode d) (nameCode a) (nameCode b * 4096 + codeOf rnds4 rd)
  | .ffma c d a b x rd => put 0x0C3 c (nameCode d) (nameCode a) (nameCode b * 4096 + nameCode x * 8 + codeOf rnds4 rd)
  | .fmin c d a b => put 0x0C4 c (nameCode d) (nameCode a) (nameCode b * 4096)
  | .fmax c d a b => put 0x0C5 c (nameCode d) (nameCode a) (nameCode b * 4096)
  | .fcmp c pd a b cond => put 0x0C6 c pd (nameCode a) (nameCode b * 4096 + codeOf fconds cond * 512)
  | .fdiv c d a b rd => put 0x0C7 c (nameCode d) (nameCode a) (nameCode b * 4096 + codeOf rnds4 rd)
  | .fsqrt c d a rd => put 0x0C8 c (nameCode d) (nameCode a) (codeOf rnds4 rd)
  | .frcp c d a => put 0x0C9 c (nameCode d) (nameCode a) 0
  | .frsq c d a => put 0x0CA c (nameCode d) (nameCode a) 0
  | .fexp2 c d a => put 0x0CB c (nameCode d) (nameCode a) 0
  | .flog2 c d a => put 0x0CC c (nameCode d) (nameCode a) 0
  | .fsin c d a => put 0x0CD c (nameCode d) (nameCode a) 0
  | .fcos c d a => put 0x0CE c (nameCode d) (nameCode a) 0
  | .frnd c d a rd => put 0x0CF c (nameCode d) (nameCode a) (codeOf rnds4 rd)
  | .fcls c d a form => put 0x0D0 c (nameCode d) (nameCode a) (codeOf clsForms form)
  | .fscl c d a n rd => put 0x0D1 c (nameCode d) (nameCode a) (nameCode n * 4096 + codeOf rnds4 rd)
  | .dadd c d a b rd sub => put 0x0D2 c (nameCode d) (nameCode a) (nameCode b * 4096 + codeOf bools sub * 4 +
      codeOf rnds4 rd)
  | .dmul c d a b rd => put 0x0D3 c (nameCode d) (nameCode a) (nameCode b * 4096 + codeOf rnds4 rd)
  | .dfma c d a b x rd => put 0x0D4 c (nameCode d) (nameCode a) (nameCode b * 4096 + nameCode x * 8 + codeOf rnds4 rd)
  | .ddiv c d a b rd => put 0x0D5 c (nameCode d) (nameCode a) (nameCode b * 4096 + codeOf rnds4 rd)
  | .dsqrt c d a rd => put 0x0D6 c (nameCode d) (nameCode a) (codeOf rnds4 rd)
  | .dcmp c pd a b cond => put 0x0D7 c pd (nameCode a) (nameCode b * 4096 + codeOf fconds cond * 512)
  | .badd2 c d a b rz sat => put 0x0D8 c (nameCode d) (nameCode a) (nameCode b * 4096 + codeOf bools sat * 2 +
      codeOf bools rz)
  | .bfma2 c d a b x rz sat => put 0x0D9 c (nameCode d) (nameCode a) (nameCode b * 4096 + nameCode x * 8 +
      codeOf bools sat * 2 + codeOf bools rz)
  | .hfma2 c d a b x rz sat => put 0x0DA c (nameCode d) (nameCode a) (nameCode b * 4096 + nameCode x * 8 +
      codeOf bools sat * 2 + codeOf bools rz)
  | .cvt c d a rb dt sty rd sat => put 0x0DB c (nameCode d) (nameCode a) (nameCode rb * 4096 +
      codeOf cvtTys dt * 256 + codeOf cvtTys sty * 16 + codeOf rnds5 rd * 2 + codeOf bools sat)
  | .pack c d a j f => put 0x0DC c (nameCode d) (nameCode a) (nameCode j * 4096 + codeOf packFmts f)
  | .unpk c d a j f => put 0x0DD c (nameCode d) (nameCode a) (nameCode j * 4096 + codeOf packFmts f)
  | .act c d x slot => put 0x0DE c (nameCode d) (nameCode x) (slot)
  | .actd c d x g slot => put 0x0DF c (nameCode d) (nameCode x) (nameCode g * 4096 + slot)
  | .xrng c d ctr key => put 0x0E0 c (nameCode d) (nameCode ctr) (nameCode key * 4096)
  | .xrngf c d a => put 0x0E1 c (nameCode d) (nameCode a) 0
  | .qswp c d v m f pv => put 0x140 c (nameCode d) (nameCode v) (nameCode m * 4096 + nameCode f * 8 + pv)
  | .qbc c d v j f pv => put 0x141 c (nameCode d) (nameCode v) (nameCode j * 4096 + nameCode f * 8 + pv)
  | .qdx c d v f pv => put 0x142 c (nameCode d) (nameCode v) (nameCode f * 8 + pv)
  | .qdy c d v f pv => put 0x143 c (nameCode d) (nameCode v) (nameCode f * 8 + pv)
  | .perm c d v x f pv => put 0x144 c (nameCode d) (nameCode v) (nameCode x * 4096 + nameCode f * 8 + pv)
  | .shup c d v n f pv => put 0x145 c (nameCode d) (nameCode v) (nameCode n * 4096 + nameCode f * 8 + pv)
  | .shdn c d v n f pv => put 0x146 c (nameCode d) (nameCode v) (nameCode n * 4096 + nameCode f * 8 + pv)
  | .shxr c d v n f pv => put 0x147 c (nameCode d) (nameCode v) (nameCode n * 4096 + nameCode f * 8 + pv)
  | .vote c d v m => put 0x148 c (nameCode d) (nameCode v) (codeOf votes m)
  | .mtch c d v w64 => put 0x149 c (nameCode d) (nameCode v) (codeOf bools w64)
  | .gscan c d v seed op => put 0x14A c (nameCode d) (nameCode v) (nameCode seed * 4096 + codeOf redOps op)
  | .gred c d v op => put 0x14B c (nameCode d) (nameCode v) (codeOf redOps op)
  | .rdix c d base idx f pv => put 0x14C c (nameCode d) (nameCode base) (nameCode idx * 4096 + nameCode f * 8 + pv)
  | .wrix c base v idx pv => put 0x14D c (nameCode base) (nameCode v) (nameCode idx * 4096 + pv)
  | .ld c d base off t a64 => put 0x160 c (nameCode d) (nameCode base) (unsext 7 off * 32 + codeOf memTys t * 4 +
      codeOf bools a64 * 2)
  | .st c base v off t a64 => put 0x161 c 0 (nameCode base) (nameCode v * 4096 + unsext 7 off * 32 +
      codeOf memTys t * 4 + codeOf bools a64 * 2)
  | .ldp c d base off t => put 0x162 c (nameCode d) (nameCode base) (unsext 7 off * 32 + codeOf memTys t * 4)
  | .stp c base v off t => put 0x163 c 0 (nameCode base) (nameCode v * 4096 + unsext 7 off * 32 + codeOf memTys t * 4)
  | .atom c d base v op w64 o sc a64 => put 0x164 c (nameCode d) (nameCode base) (nameCode v * 4096 +
      codeOf atomOps op * 256 + codeOf bools w64 * 128 + codeOf ords o * 32 + codeOf scopes sc * 4 +
      codeOf bools a64 * 2)
  | .acas c d base v w64 o sc a64 => put 0x165 c (nameCode d) (nameCode base) (nameCode v * 4096 +
      codeOf bools w64 * 128 + codeOf ords o * 32 + codeOf scopes sc * 4 + codeOf bools a64 * 2)
  | .xsum c base v bf16 o sc a64 => put 0x166 c 0 (nameCode base) (nameCode v * 4096 + codeOf bools bf16 * 256 +
      codeOf ords o * 32 + codeOf scopes sc * 4 + codeOf bools a64 * 2)
  | .xrd c d base pair clr o sc a64 => put 0x167 c (nameCode d) (nameCode base) (codeOf bools clr * 512 +
      codeOf bools pair * 256 + codeOf ords o * 32 + codeOf scopes sc * 4 + codeOf bools a64 * 2)
  | .xclr c base sc a64 => put 0x168 c 0 (nameCode base) (codeOf scopes sc * 4 + codeOf bools a64 * 2)
  | .ldv c d base off a64 => put 0x169 c (nameCode d) (nameCode base) (unsext 7 off * 32 + 4 * 4 +
      codeOf bools a64 * 2)
  | .cms c d base pd sc a64 => put 0x16A c (nameCode d) (nameCode base) (pd * 16384 + codeOf scopes sc * 4 +
      codeOf bools a64 * 2)
  | .fence c sc => put 0x16B c 0 0 (codeOf scopes sc)
  | .rel c sc => put 0x16C c 0 0 (codeOf scopes sc)
  | .acq c sc => put 0x16D c 0 0 (codeOf scopes sc)
  | .sbsc c d base quad f inv t a64 => put 0x16E c (nameCode d) (nameCode base) (nameCode quad * 4096 +
      codeOf views f * 512 + codeOf bools inv * 256 + codeOf etypes t * 128 + codeOf bools a64 * 2)
  | .unsb c d base a64 => put 0x16F c (nameCode d) (nameCode base) (codeOf bools a64 * 2)
  | .sld c d base off a64 => put 0x170 c (nameCode d) (nameCode base) (unsext 7 off * 32 + codeOf bools a64 * 2)
  | .supg c d base f a64 => put 0x171 c (nameCode d) (nameCode base) (codeOf views f * 512 + codeOf bools a64 * 2)
  | .schg c d base a64 => put 0x172 c (nameCode d) (nameCode base) (codeOf bools a64 * 2)
  | .sbind c port addr => put 0x1A0 c (nameCode port) (nameCode addr) 0
  | .sfree c port => put 0x1A1 c (nameCode port) 0 0
  | .spos c d a set => put 0x1A2 c (nameCode d) (nameCode a) (codeOf bools set)
  | .sdrain c port close => put 0x1A3 c 0 (nameCode port) (codeOf bools close)
  | .qring c d base quad a64 => put 0x1A4 c (nameCode d) (nameCode base) (nameCode quad * 4096 + codeOf bools a64)
  | .qrfree c d base a64 => put 0x1A5 c (nameCode d) (nameCode base) (codeOf bools a64)
  | .hdef c d addr h e sc a64 => put 0x1B0 c (nameCode d) (nameCode addr) (h * 32768 + e * 4096 +
      codeOf scopes sc * 512 + codeOf bools a64 * 2)
  | .hqry c d h s => put 0x1B1 c (nameCode d) 0 (h * 32768 + s * 4096)
  | .copy c d addr hd hs e sc a64 => put 0x1B2 c (nameCode d) (nameCode addr) (hd * 32768 + e * 4096 +
      codeOf scopes sc * 512 + hs * 8 + codeOf bools a64 * 2)
  | .cfill c d addr h e sc a64 => put 0x1B3 c (nameCode d) (nameCode addr) (h * 32768 + e * 4096 +
      codeOf scopes sc * 512 + codeOf bools a64 * 2)
  | .coll c d addr e sc a64 => put 0x1B4 c (nameCode d) (nameCode addr) (e * 4096 + codeOf scopes sc * 512 +
      codeOf bools a64 * 2)
  | .tlrd c d e iss => put 0x1B5 c (nameCode d) 0 (e * 4096 + codeOf bools iss * 2048)
  | .wld c d box h e sc => put 0x1C0 c (nameCode d) (nameCode box) (h * 32768 + e * 4096 + codeOf scopes sc * 512)
  | .wswp c d e => put 0x1C1 c (nameCode d) 0 (e * 4096)
  | .mma c d a src tile e sc => put 0x1C2 c (nameCode d) (nameCode a) (mmaSrcCode src + e * 4096 +
      codeOf scopes sc * 512 + tile * 32)
  | .mzero c d tile e => put 0x1C3 c (nameCode d) 0 (e * 4096 + tile * 32)
  | .mrd c d col tile e av f sat => put 0x1C4 c (nameCode d) (nameCode col) (e * 4096 + actSlot av * 512 +
      actBit av * 256 + codeOf bools sat * 128 + tile * 32 + codeOf readFmts f * 4)
  | .mwr c d v col tile e rs => put 0x1C5 c (nameCode d) (nameCode v) (nameCode col * 4096 + e * 512 +
      codeOf bools rs * 256 + tile * 32)
  | .mst c d org h tile e sc av sat => put 0x1C6 c (nameCode d) (nameCode org) (h * 32768 + e * 4096 +
      codeOf scopes sc * 512 + actSlot av * 64 + actBit av * 32 + codeOf bools sat * 16 + tile * 4)
  | .tblld c d addr form e sc a64 => put 0x1C7 c (nameCode d) (nameCode addr) (e * 4096 + codeOf scopes sc * 512 +
      tblFormCode form * 32 + codeOf bools a64 * 2)
  | .mstat c d s => put 0x1C8 c (nameCode d) 0 (s * 512)
  | .sort c d addr e sc a64 => put 0x1D8 c (nameCode d) (nameCode addr) (e * 4096 + codeOf scopes sc * 512 +
      codeOf bools a64 * 2)
  | .bvhq c d q addr ray e sc a64 => put 0x1D9 c (nameCode d) (nameCode q) (nameCode addr * 4096 +
      codeOf scopes sc * 512 + e * 64 + codeOf bools ray * 32 + codeOf bools a64 * 2)
  | .qlu c d a pd w64 => put 0x1DA c (nameCode d) (nameCode a) (predDstCode pd * 4096 + codeOf bools w64 * 256)
  | .qlus c d f b w64 => put 0x1DB c (nameCode d) (nameCode f) (nameCode b * 4096 + codeOf bools w64 * 256)
  | .qlut c d f b w64 => put 0x1DC c (nameCode d) (nameCode f) (nameCode b * 4096 + codeOf bools w64 * 256)
  | .qpiv c d v log inv w64 => put 0x1DD c (nameCode d) (nameCode v) (nameCode log * 4096 + codeOf bools inv * 512 +
      codeOf bools w64 * 256)
  | .olu c d a b pd op w64 => put 0x1DE c (nameCode d) (nameCode a) ((if op = .f then predDstCode pd else nameCode b)
      * 4096 + codeOf oluOps op * 512 + codeOf bools w64 * 256)
  | .lnch c d addr a64 => put 0x1E8 c (nameCode d) (nameCode addr) (codeOf bools a64 * 2)
  | .lrec c d addr quad a64 => put 0x1E9 c (nameCode d) (nameCode addr) (nameCode quad * 4096 + codeOf bools a64 * 2)
  | .lstat c d s => put 0x1EA c (nameCode d) 0 (s * 512)
  | .lease c d quad => put 0x1EB c (nameCode d) (nameCode quad) 0
  | .trap c code => put 0x1F0 c 0 0 (code)
  | .tret c form => put 0x1F1 c 0 0 (codeOf tretForms form)
  | .csave c d a => put 0x1F2 c (nameCode d) (nameCode a) 0
  | .crest c d a => put 0x1F3 c (nameCode d) (nameCode a) 0
  | .tlbinv c d quad op => put 0x1F4 c (nameCode d) (nameCode quad) (codeOf tlbOps op)
  | .replay c d ctx => put 0x1F5 c (nameCode d) (nameCode ctx) 0
  | .rdsr c d sr => put 0x1F6 c (nameCode d) 0 (sr)
  | .wrsr c v sr => put 0x1F7 c 0 (nameCode v) (sr)
  | .evnt c code payload int => put 0x1F8 c 0 (nameCode code) (nameCode payload * 4096 + codeOf bools int)
  | .halt c => put 0x1F9 c 0 0 0
  | _ => 0

/-- The host's reading of a table row's word: its bytes, in the order the machine stores them, given to the decoder. -/
def decodeTableWord (nbits w : Nat) : Option Instr :=
  match decode (toBytes 8 (w % 2 ^ nbits)) with
  | .ok (i, _) => some i
  | .error _ => none

end Sys2Proof
end

