-- ==== Sys2Proof/Machine/Map.lean ====
section
/-! DEFINITION. Sparse tables: a list of (key, value) pairs in one canonical form, strictly rising keys and no entry
equal to the table's default. Memory, register files, version stamps and readiness tables are such tables. -/

namespace Sys2Proof.Machine

variable {α : Type}

/-- The value at key `k`: the first entry of that key, else the default. -/
def tget (d : α) : List (Nat × α) → Nat → α
  | [], _ => d
  | (j, v) :: t, k => if j = k then v else tget d t k

/-- Insert an entry before the first larger key. -/
def tins (k : Nat) (v : α) : List (Nat × α) → List (Nat × α)
  | [] => [(k, v)]
  | (j, w) :: t => if k < j then (k, v) :: (j, w) :: t else (j, w) :: tins k v t

/-- Drop every entry of key `k`. -/
def tdel (k : Nat) (m : List (Nat × α)) : List (Nat × α) := m.filter (fun e => e.1 != k)

/-- Store `v` at key `k`; storing the default removes the entry, so equal tables are equal lists. -/
def tput [DecidableEq α] (d : α) (m : List (Nat × α)) (k : Nat) (v : α) : List (Nat × α) :=
  if v = d then tdel k m else tins k v (tdel k m)

/-- The canonical form: keys strictly rising and no entry equal to the default. -/
def twf [DecidableEq α] (d : α) (m : List (Nat × α)) : Bool :=
  m.all (fun e => decide (e.2 ≠ d)) && decide (m.Pairwise (fun a b => a.1 < b.1))

/-- Replace the elements of a list that satisfy `p`. -/
def modWhere (p : α → Bool) (f : α → α) (l : List α) : List α := l.map (fun x => if p x then f x else x)

end Sys2Proof.Machine
end

