-- ==== Sys2Proof/Machine/Num.lean ====
section
/-! DEFINITION. Exact numbers, the floating-point formats to the bit and rounding (spec/06_numbers.md R133 to R146). -/

namespace Sys2Proof.Machine

/-- The fst bits of R135. -/
abbrev Flags := BitVec 6

def fIV : Flags := 1
def fDZ : Flags := 2
def fOF : Flags := 4
def fUF : Flags := 8
def fIX : Flags := 16
def fDN : Flags := 32

/-- An exact value: (−1)^neg × m × 2^e, a little more in magnitude when `st`; or an infinity; or a NaN, which sets IV
when `iv` (a signalling operand or an invalid operation, R136). -/
inductive Num
  | nan (iv : Bool)
  | inf (neg : Bool)
  | fin (neg : Bool) (m : Nat) (e : Int) (st : Bool)
deriving DecidableEq, Repr

/-- Width of a format in bits (R133, R137, R138). -/
def fmtBits : Fmt → Nat
  | .f64 => 64 | .f32 => 32 | .f16 => 16 | .bf16 => 16 | .e4m3 => 8 | .e5m2 => 8 | .e3m2 => 6 | .e2m3 => 6 | .e2m1 => 4

/-- Mantissa bits M (R138). -/
def fmtM : Fmt → Nat
  | .f64 => 52 | .f32 => 23 | .f16 => 10 | .bf16 => 7 | .e4m3 => 3 | .e5m2 => 2 | .e3m2 => 2 | .e2m3 => 3 | .e2m1 => 1

/-- Exponent bias (R138). -/
def fmtBias : Fmt → Int
  | .f64 => 1023 | .f32 => 127 | .f16 => 15 | .bf16 => 127 | .e4m3 => 7 | .e5m2 => 15 | .e3m2 => 3 | .e2m3 => 1 | .e2m1 => 1

/-- Does the format have infinities (R138)? -/
def fmtInf : Fmt → Bool
  | .f64 | .f32 | .f16 | .bf16 | .e5m2 => true
  | _ => false

/-- Magnitude bits of the largest finite value (R138). -/
def fmtMax (f : Fmt) : Nat :=
  let top := 2 ^ (fmtBits f - 1)
  if fmtInf f then top - 2 ^ fmtM f - 1 else if f = .e4m3 then 0x7E else top - 1

/-- The canonical NaN of the format (R134), or +0 where it has none (R142). -/
def fmtNan : Fmt → Nat
  | .f64 => 0x7FF8000000000000 | .f32 => 0x7FC00000 | .f16 => 0x7E00 | .bf16 => 0x7FC0 | .e4m3 => 0x7F | .e5m2 => 0x7E
  | _ => 0

/-- Does the format have a NaN (R142)? -/
def fmtHasNan : Fmt → Bool
  | .e3m2 | .e2m3 | .e2m1 => false
  | _ => true

/-- Least exponent of a unit in the last place: 1 − bias − M (R138). -/
def fmtUlpMin (f : Fmt) : Int := 1 - fmtBias f - (fmtM f : Int)

/-- Dec of R146: the exact value of a bit pattern; bits above the format's width are ignored. -/
def dec (f : Fmt) (x : Nat) : Num :=
  let mag := x % 2 ^ (fmtBits f - 1)
  let neg := x / 2 ^ (fmtBits f - 1) % 2 = 1
  let ef := mag / 2 ^ fmtM f
  let mf := mag % 2 ^ fmtM f
  if fmtMax f < mag then
    if fmtInf f ∧ mf = 0 then .inf neg
    else .nan (decide (fmtInf f ∧ mf < 2 ^ (fmtM f - 1)))
  else if ef = 0 then .fin neg mf (fmtUlpMin f) false
  else .fin neg (mf + 2 ^ fmtM f) (fmtUlpMin f + (ef : Int) - 1) false

/-- DN of R136: the pattern is a subnormal number. -/
def subFlag (f : Fmt) (x : Nat) : Flags :=
  let mag := x % 2 ^ (fmtBits f - 1)
  if mag ≠ 0 ∧ mag < 2 ^ fmtM f then fDN else 0

/-- Put a sign on a magnitude pattern. -/
def withSign (f : Fmt) (neg : Bool) (mag : Nat) : Nat := if neg then mag + 2 ^ (fmtBits f - 1) else mag

/-- Bring `m × 2^e` to the multiple of `2^(e+sh)` that the mode selects; also say whether that is inexact
(R141; R143 for .rx). -/
def quant (mode : Rnd) (rb : Nat) (neg : Bool) (m : Nat) (st : Bool) (sh : Int) : Nat × Bool :=
  if mode = .rx then
    let n := if sh ≤ 32 then m <<< (32 - sh).toNat else m >>> (sh - 32).toNat
    let q := (n + rb % 2 ^ 32) / 2 ^ 32
    (q, st || (if 0 ≤ sh then decide (m ≠ q <<< sh.toNat) else decide (m <<< (-sh).toNat ≠ q)))
  else
    let (q, low, half) := if sh ≤ 0 then (m <<< (-sh).toNat, 0, 1)
      else (m >>> sh.toNat, m % 2 ^ sh.toNat, 2 ^ (sh.toNat - 1))
    let inexact := low ≠ 0 || st
    let up := match mode with
      | .rn => low > half || (low = half && (st || q % 2 = 1))
      | .rp => inexact && !neg
      | .rm => inexact && neg
      | _ => false
    (if up then q + 1 else q, inexact)

/-- Round of R146 for a finite value: the pattern and its flags OF, UF, IX (R136, R141). -/
def roundFin (f : Fmt) (mode : Rnd) (rb : Nat) (sat : Bool) (neg : Bool) (m : Nat) (e : Int) (st : Bool) : Nat × Flags :=
  if m = 0 ∧ st = false then (withSign f neg 0, 0) else
  let E : Int := (Nat.log2 m : Int) + e
  let uU := E - (fmtM f : Int)
  let u := max uU (fmtUlpMin f)
  let (n, inex) := quant mode rb neg m st (u - e)
  let mag := (u - fmtUlpMin f).toNat * 2 ^ fmtM f + n
  if fmtMax f < mag then
    let toInf := fmtInf f && !sat && (match mode with
      | .rn | .rx => true | .rz => false | .rp => !neg | .rm => neg)
    (withSign f neg (if toInf then fmtMax f + 1 else fmtMax f), fOF ||| fIX)
  else
    let nU := (quant mode rb neg m st (uU - e)).1
    let tiny := E < 1 - fmtBias f && !(E = -fmtBias f && nU = 2 ^ (fmtM f + 1))
    (withSign f neg mag, (if inex then fIX else 0) ||| (if tiny && inex then fUF else 0))

/-- Round of R146: any exact value to a format, with the specials of R141 and R142. -/
def roundTo (f : Fmt) (mode : Rnd) (rb : Nat) (sat : Bool) : Num → Nat × Flags
  | .nan iv => (fmtNan f, if iv || !fmtHasNan f then fIV else 0)
  | .inf neg => if fmtInf f && !sat then (withSign f neg (fmtMax f + 1), 0) else (withSign f neg (fmtMax f), fOF)
  | .fin neg m e st => roundFin f mode rb sat neg m e st

/-- RoundRNE of R146. -/
def rne (f : Fmt) (v : Num) : Nat × Flags := roundTo f .rn 0 false v

/-- Enc(·, fmt, true) of R146. -/
def encSat (f : Fmt) (v : Num) : Nat := (roundTo f .rn 0 true v).1

/-- The signed integer of a sign and a magnitude. -/
def sgn (neg : Bool) (m : Nat) : Int := if neg then -(m : Int) else m

/-- An exact value from a signed integer multiple of 2^e; a zero gets the sign given. -/
def ofInt (i : Int) (e : Int) (zneg : Bool) : Num :=
  if i = 0 then .fin zneg 0 0 false else .fin (decide (i < 0)) i.natAbs e false

def Num.isNan : Num → Bool | .nan _ => true | _ => false
def Num.isZero : Num → Bool | .fin _ 0 _ _ => true | _ => false
def Num.negOf : Num → Bool | .nan _ => false | .inf n => n | .fin n _ _ _ => n

/-- The value with its sign turned. -/
def Num.neg : Num → Num
  | .nan iv => .nan iv
  | .inf n => .inf !n
  | .fin n m e st => .fin (!n) m e st

/-- Magnitude. -/
def Num.abs : Num → Num
  | .nan iv => .nan iv
  | .inf _ => .inf false
  | .fin _ m e st => .fin false m e st

/-- An exact product; 0 × ∞ is an invalid operation (R136). -/
def mulNum : Num → Num → Num
  | .nan i, .nan j => .nan (i || j)
  | .nan i, .inf _ | .nan i, .fin _ _ _ _ | .inf _, .nan i | .fin _ _ _ _, .nan i => .nan i
  | .inf a, .inf b => .inf (a != b)
  | .inf a, .fin b m _ _ | .fin a m _ _, .inf b => if m = 0 then .nan true else .inf (a != b)
  | .fin a m e s, .fin b n e' t => .fin (a != b) (m * n) (e + e') (s || t)

/-- The exact sum of finite terms as an integer over a common power of two. -/
def sumFin (ts : List Num) : Int × Int :=
  let e0 := ts.foldl (fun a t => match t with | .fin _ (_ + 1) e _ => min a e | _ => a) 100000
  (ts.foldl (fun a t => match t with | .fin n m@(_ + 1) e _ => a + sgn n (m <<< (e - e0).toNat) | _ => a) 0, e0)

/-- The exact sum of the terms of an addition or fused multiply-add, with the zero and special rules of R133, R136 and
R295; `rm` tells the mode .rm. -/
def sumNum (rm : Bool) (ts : List Num) : Num :=
  if ts.any Num.isNan then .nan (ts.any (· == .nan true))
  else if ts.any (· == .inf false) && ts.any (· == .inf true) then .nan true
  else if ts.any (· == .inf false) then .inf false
  else if ts.any (· == .inf true) then .inf true
  else
    let (i, e) := sumFin ts
    let zneg := if ts.all (fun t => t.isZero && t.negOf) then true
      else if ts.all (fun t => t.isZero && !t.negOf) then false else rm
    ofInt i e zneg

/-- Exact comparison of two values that are not NaN; zeros are equal. -/
def cmpNum (a b : Num) : Ordering :=
  match a, b with
  | .inf x, .inf y => if x = y then .eq else if x then .lt else .gt
  | .inf x, _ => if x then .lt else .gt
  | _, .inf y => if y then .gt else .lt
  | a, b => compare (sumFin [a, b.neg]).1 0

/-- A quotient of finite magnitudes with at least `g` quotient bits, the rest held in the sticky bit. -/
def quotFin (neg : Bool) (m : Nat) (e : Int) (n : Nat) (e' : Int) : Num :=
  let k := 130 + Nat.log2 n - Nat.log2 m
  let q := (m <<< k) / n
  .fin neg q (e - e' - (k : Int)) (decide ((m <<< k) % n ≠ 0))

/-- Exact quotient and the flag DZ (R136, R147). -/
def divNum (a b : Num) : Num × Flags :=
  match a, b with
  | .nan i, .nan j => (.nan (i || j), 0)
  | .nan i, _ | _, .nan i => (.nan i, 0)
  | .inf _, .inf _ => (.nan true, 0)
  | .inf x, .fin y _ _ _ => (.inf (x != y), 0)
  | .fin x _ _ _, .inf y => (.fin (x != y) 0 0 false, 0)
  | .fin x m e _, .fin y n e' _ =>
    if n = 0 then (if m = 0 then (.nan true, 0) else (.inf (x != y), fDZ))
    else if m = 0 then (.fin (x != y) 0 0 false, 0)
    else (quotFin (x != y) m e n e', 0)

/-- Integer square root by bits: the largest r with r² ≤ n that agrees with `r` above bit `i`. -/
def isqrtAux (n : Nat) : Nat → Nat → Nat
  | 0, r => r
  | i + 1, r => let r' := r + 2 ^ i; isqrtAux n i (if r' * r' ≤ n then r' else r)

/-- ⌊√n⌋. -/
def isqrt (n : Nat) : Nat := isqrtAux n (Nat.log2 n / 2 + 1) 0

/-- A finite positive value brought to an even exponent. -/
def evenExp (m : Nat) (e : Int) : Nat × Int := if e % 2 = 0 then (m, e) else (2 * m, e - 1)

/-- Square root (R147). -/
def sqrtNum : Num → Num
  | .nan i => .nan i
  | .inf n => if n then .nan true else .inf false
  | .fin n m e _ =>
    if m = 0 then .fin n 0 0 false else if n then .nan true else
    let (m, e) := evenExp m e
    let r := isqrt (m <<< 260)
    .fin false r (e / 2 - 130) (decide (r * r ≠ m <<< 260))

/-- Reciprocal square root and DZ (R147). -/
def rsqNum : Num → Num × Flags
  | .nan i => (.nan i, 0)
  | .inf n => (if n then .nan true else .fin false 0 0 false, 0)
  | .fin n m e _ =>
    if m = 0 then (.inf n, fDZ) else if n then (.nan true, 0) else
    let (m, e) := evenExp m e
    let k := 130 + Nat.log2 m
    let r := isqrt (2 ^ (2 * k) / m)
    (.fin false r (-(e / 2) - (k : Int)) (decide (r * r * m ≠ 2 ^ (2 * k))), 0)

/-- A finite value rounded to an integer in a mode, and whether that is inexact (R159, R164). -/
def roundInt (mode : Rnd) (neg : Bool) (m : Nat) (e : Int) : Int × Bool :=
  let (q, i) := quant mode 0 neg m false (-e)
  (sgn neg q, i)

end Sys2Proof.Machine
end

