-- ==== Sys2Proof/Machine/State.lean ====
section
/-! DEFINITION. The state of one QK7 package as plain data, and the state after reset. -/

namespace Sys2Proof.Machine

/-- A sparse table (Machine/Map.lean). -/
abbrev Tab (α : Type) := List (Nat × α)

/-- The fault classes of R374. -/
inductive Cause
  | illinsn | illclause | illopnd | illregrp | misalignpc | timing | flagovf | priv | align | addr | prot | residency
  | watchdog | poison | homelost | killed | swtrap
deriving DecidableEq, Repr

/-- What a trap report and a fault record hold about one fault (R376, R378). -/
structure FaultInfo where
  cause : Cause
  /-- 0 instruction, 1 deferred access, 2 port, 3 engine command, 4 team-level (R376) -/
  kind : Nat
  gang : Nat
  lane : Nat
  slot : Nat
  pc : DWord
  addr : DWord
  insn : DWord
  port : Option Nat
  ectx : Nat
  spos : Word
  lid : Nat
  qid : Nat
  gid : Nat
  cmdno : DWord
  /-- EINFO of R378 -/
  einfo : Word
  /-- TMEM as it stood when the fault was met, for one that is raised later (R369) -/
  tmem : Option Bool := none
deriving DecidableEq, Repr

/-- A destination: its name and how many consecutive registers it takes. -/
structure Dst where
  name : Name
  words : Nat
deriving DecidableEq, Repr

/-- The memory operations of a lane queue (R187). -/
inductive MemKind
  | load (addr : DWord) (t : MemTy) (dst : Dst)
  | laneLoad (off : Nat) (t : MemTy) (dst : Dst)
  | store (addr : DWord) (bytes : List Byte) (port : Option Nat)
  | laneStore (off : Nat) (bytes : List Byte)
  | atom (addr : DWord) (op : AtomOp) (w64 : Bool) (b : DWord) (dst : Dst)
  | acas (addr : DWord) (w64 : Bool) (cmp new : DWord) (dst : Dst)
  | xsum (addr : DWord) (v : Word)
  | xrd (addr : DWord) (pair clr : Bool) (dst : Dst)
  | xclr (addr : DWord)
  | ldv (addr : DWord) (dst : Dst)
  | cms (addr : DWord) (pd : Nat) (dst : Dst)
  | rel (sc : Scope)
  | acq (sc : Scope)
  /-- the implicit release of command `no` of context `e` (R191) -/
  | cmdRel (sc : Scope) (e no : Nat)
  | sbsc (addr : DWord) (f : View) (inv : Bool) (t : EType) (len rsv : Word) (caddr : DWord) (started : Bool) (dst : Dst)
  | unsb (addr : DWord) (started : Bool) (dst : Dst)
  /-- SLD of an element of `size` bytes; `asked` names the Register that this SLD waits for (R233) -/
  | sld (addr : DWord) (size : Nat) (asked : Option Nat) (dst : Dst)
  | supg (addr : DWord) (f : View) (started : Bool) (dst : Dst)
  | schg (addr : DWord) (dst : Dst)
  /-- BIND of the binding numbered `seq`, whose descriptor stands at `addr` -/
  | bind (port : Nat) (addr : DWord) (seq : Nat)
  | pop (port : Nat)
  | rpush (ring : DWord) (slot : Nat) (bytes : List Byte)
  /-- SDRAIN of a port with its descriptor: `close` sets CLOSED afterwards (R260) -/
  | sdrain (port desc : Nat) (close : Bool)
  | qring (addr : DWord) (data : DWord) (cap fmt : Word) (dst : Dst)
  | qrfree (addr : DWord) (dst : Dst)
  /-- the implicit release of an LNCH (R365) -/
  | lnchRel
  /-- the read of a launch record by LNCH or LREC (R365, R366) -/
  | lnch (addr : DWord)
deriving DecidableEq, Repr

/-- One entry of a lane queue. `op` names the tracked operation; the lane's part of it ends with the entry marked `last`. -/
structure LaneOp where
  op : Nat
  kind : MemKind
  last : Bool
  /-- acknowledgements a REL has caused and still awaits -/
  acks : List Nat
  /-- the address whose page is not resident, for which the operation waits for REPLAY (R375) -/
  parked : Option Nat
  /-- the cycle from which its step may be taken: a push waits for its instruction's latency (R243) -/
  ready : Nat := 0
  /-- the word of the instruction that placed it (R376) -/
  insn : DWord := 0
deriving DecidableEq, Repr

/-- The launch record of a lane of LNCH or LREC: not read yet, refused for its Q1 (R366), or as it was read. -/
inductive LaneRec
  | wait | bad | got (raw : Nat)
deriving DecidableEq, Repr

/-- The work of an operation that completes as a whole, in its gang's OPERATION_COMPLETE step. -/
inductive OpKind
  /-- the lanes' queues hold the work -/
  | mem
  /-- results computed at issue, written at completion (R120, R158, R283, R289, R318, R367), by lane identity; `slots`
  holds the ring slots of a result that is pushed (R243) -/
  | value (dst : Dst) (res : Tab (List Word × Flags)) (slots : List (Nat × DWord × Nat))
  /-- engine commands placed and not completed (R266) -/
  | cmds
  /-- by lane identity, the records that the lanes' queues have read (R365, R366) -/
  | lnch (dst : Dst) (recs : Tab LaneRec)
  | lrec (dst : Dst) (recs : Tab LaneRec)
  | lease (dst : Dst) (args : Tab (List Word))
  /-- CSAVE; `stored` once the image stands in the buffer and only the release is outstanding -/
  | csave (dst : Dst) (addr : DWord) (stored : Bool)
  | crest (dst : Dst) (addr : DWord)
  | tlbinv (dst : Dst) (op : TlbOp) (q : List Word)
  /-- REPLAY: how many parts it retried, and the team and gang of those that have not come to an end, once it has begun -/
  | replay (dst : Dst) (ctx : Nat) (begun : Option Nat)
  /-- EVNT: the entries that wait to be written -/
  | evnt (entries : List Nat)
deriving DecidableEq, Repr

/-- A flag-tracked operation of a gang that has not completed (R73). -/
structure Tracked where
  id : Nat
  /-- the flag it counts, 0 for none -/
  flag : Nat
  kind : OpKind
  /-- identities (32·gid + lid) of the lanes whose parts are outstanding -/
  lanes : List Nat
  /-- the other active lanes of an operation that acts once per gang: they share its fst bits (R57, R136) -/
  also : List Nat
  /-- its instruction word (R376) -/
  insn : DWord := 0
  /-- the ring slot, by lane identity, of a status that is pushed when a system operation ends (R243) -/
  slots : List (Nat × DWord × Nat) := []
deriving DecidableEq, Repr

/-- What a blocked lane waits for (R68), with the operands of its wait. -/
inductive Wait
  | barg (sc : Scope) | bart (sc : Scope) | barb (sc : Scope) | regrp
  | acqx (n : Nat)
  | tlTeam (e : Nat) (v : DWord)
  | tlMem (addr v : DWord) (sc : Scope)
  | tryTeam (e : Nat) (v : DWord) (pd deadline : Nat)
  | tryMem (addr v : DWord) (sc : Scope) (pd deadline : Nat)
deriving DecidableEq, Repr

/-- The state of a lane position (R65, R68). `back` of a stopped lane is the wait it stopped in, if any. -/
inductive LaneSt
  | absent | running | blocked (w : Wait) | trapped | stopped (back : Option Wait) | exited
deriving DecidableEq, Repr

/-- One prefetched element, or the fault held for it (R245, R253). -/
structure Pre where
  port : Nat
  pos : Nat
  val : Word
  fault : Option Cause
  /-- the addresses it was fetched from -/
  addrs : List DWord
deriving DecidableEq, Repr

/-- A claimed ring element of a lane: the port, its place in the gang's delivery order (R247), and the value with the address
of a poisoned one; none past the end of a closed ring (R248). -/
structure Claim where
  port : Nat
  ord : Nat
  val : Option (Word × Option DWord)
deriving DecidableEq, Repr

/-- One lane (R19, R65 to R69, R82, R384). -/
structure Lane where
  st : LaneSt
  pc : DWord
  lid : Nat
  qid : Nat
  gid : Nat
  helper : Bool
  /-- operations numbered below this were issued before the lane exited: they write nothing in it, though a REGROUP revives it
  (R82, R88) -/
  since : Nat
  regs : Tab Word
  preds : BitVec 96
  fst : Flags
  lastIssue : Nat
  demotedUntil : Nat
  wdog : Nat
  deadline : Nat
  /-- stream positions by port -/
  pos : Tab Word
  pre : List Pre
  /-- claimed ring elements -/
  claims : List Claim
  /-- reserved ring slots by port -/
  slots : List (Nat × DWord × Nat)
  /-- the word that a wait on memory read last (R103, R361), and the word of the instruction that waits (R376) -/
  seen : Option DWord
  waitInsn : DWord
  /-- ports for which the lane's next clause has its claim or reservation; false: the ring was not live -/
  granted : List (Nat × Bool)
  /-- ring slots the lane has filled, by port, for SDRAIN -/
  filled : List (Nat × DWord × Nat)
  queue : List LaneOp
  /-- cycle from which fst is readable (R136) -/
  fready : Nat
  epc : DWord
  eslot : Nat
  /-- the lane is in a handler (R377), also while it waits there -/
  handler : Bool
  /-- the slot at which the lane resumes its clause after TRET or a park (R375, R379); 0 is the clause's start -/
  resume : Nat
  /-- the window that stands again at that slot, w1 to w8 -/
  win : List (Option DWord)
  /-- by class of home, the era of the lane's last acquire of code homed there (R47) -/
  code : Tab Nat
  /-- pushes of fixed-latency results that have not happened yet: the port, and the cycle from which SPOS counts them (R243) -/
  late : List (Nat × Nat)
  /-- window shadow w1 to w8 (R377) -/
  shadow : List (Option DWord)
  deferred : Option FaultInfo
deriving DecidableEq, Repr

/-- The states of a stream port's binding (R236). -/
inductive PortSt
  | unbound | pending | bound | failed
deriving DecidableEq, Repr

/-- A stream port's binding: the descriptor as copied (R237, a 512-bit record) and a held bind fault (R238). -/
structure Port where
  st : PortSt
  daddr : DWord
  /-- the number of the binding, which its BIND carries (R250) -/
  seq : Nat
  desc : Nat
  fault : Option Cause
  faddr : DWord
deriving DecidableEq, Repr

/-- The phase tag of a quad position (R80) with the cycle from which `phase` reads it, and the tags before it, newest first,
each with the cycle from which it shows (R100). -/
structure Phase where
  tag : BitVec 8
  from_ : Nat
  olds : List (BitVec 8 × Nat)
deriving DecidableEq, Repr

/-- A gang (R19). -/
structure Gang where
  lanes : List Lane
  /-- phase tag of each quad position (R80) -/
  phase : List Phase
  cregs : Tab Word
  /-- cycles from which pending results are readable (R77), at 64·k + lane: g register n has k = n, predicate n 1000 + n, c
  register n 2000 + n, system register n 3000 + n; the last two stand at lane 0 -/
  ready : Tab Nat
  flags : Tab Nat
  chunks : Nat
  ports : List Port
  retired : Bool
  admitted : Nat
  ops : List Tracked
  /-- 0 resident, 1 issuing no further clause, 2 saved and off its bay (R375) -/
  parked : Nat
  /-- lines on which the gang waits in its context's park list; true for its own buffered stores, false for a fetch -/
  parts : List (Line × Bool)
  ecause : Word
  einfo : Word
  eaddr : DWord
  einsn : DWord
  elane : Word
  espos : Word
deriving DecidableEq, Repr

/-- A tile handle (R269): state 0 empty, 2 defined, 3 bad; the record last read by an HDEF (512 bits). It is pending while
an HDEF of it stands in a context. -/
structure Handle where
  st : Nat
  raw : Nat
deriving DecidableEq, Repr

/-- One byte pending in a buffer, with the team and lane identity that stored it (R386) and the port it was pushed
through, if any (R260). In a context's buffer `lane` is the lane that a fault of the command names, and `cmd` the command. -/
structure BufByte where
  off : Nat
  val : Byte
  team : Nat
  lane : Nat
  port : Option Nat
  cmd : Nat := 0
  /-- the era in which a core stored it, and what it replaced in the buffer, newest first, each with its era (R47) -/
  era : Nat := 0
  olds : List (Byte × Nat) := []
  /-- the word of the instruction that stored it (R376) -/
  insn : DWord := 0
deriving DecidableEq, Repr

/-- A byte of a home as a write has changed it, for lanes that have not acquired since (R47): the byte before and after, the era
in which it changed, and where a core's buffer drained, the core and what it had stored there, newest first. -/
structure CodeWrite where
  key : Nat
  old : Byte
  val : Byte
  era : Nat
  core : Option Nat
  hist : List (Byte × Nat)
deriving DecidableEq, Repr

/-- A phase buffer, a snapshot and the drains not yet acknowledged (R187). -/
structure LocalMem where
  buf : List (Line × List BufByte)
  snap : List (Line × List Byte)
  /-- pieces (offset 0 or 64) of copies that were poisoned when the copy was taken (R386) -/
  bad : List (Line × Nat)
  acks : List (Nat × Line)
deriving DecidableEq, Repr

/-- What an engine command does (R263). -/
inductive CmdKind
  | hdef (h : Nat) (addr : DWord)
  | copy (hd hs : Nat) (addr : DWord)
  | cfill (h : Nat) (addr : DWord)
  | coll (addr : DWord)
  | tlsig
  | wld (h bank : Nat) (box : List Word)
  | wswp (old : Nat)
  /-- KI, tag, the rows' owners, and their lane or port elements as codes of the format -/
  | mma (src : MmaSrc) (tile bank ki : Nat) (arg : List Word) (fmt : Option Fmt) (rows : Tab (List Nat))
  | mzero (tile : Nat)
  | mrd (tile : Nat) (act : Option Nat) (f : Fmt) (sat : Bool) (rows : Tab (Nat × Nat))
  | mwr (tile : Nat) (rs : Bool) (rows : Tab (Nat × List Word))
  | mst (h tile : Nat) (org : List Word) (act : Option Nat) (sat : Bool)
  | tblld (form : TblForm) (addr : DWord)
  | sort (addr : DWord)
  | bvhq (addr : DWord) (ray : Bool) (q : List Word)
deriving DecidableEq, Repr

/-- How far a command is (R263). -/
inductive CmdSt
  | queued
  /-- begun, its work done but for rows, pushes or replies still out -/
  | running (status : Nat)
  /-- a collective that waits for its other members -/
  | waiting
  /-- its completing REL awaits acknowledgements -/
  | releasing (status : Nat) (acks : List Nat)
deriving DecidableEq, Repr

/-- An engine command in a context. -/
structure Cmd where
  no : Nat
  kind : CmdKind
  sc : Scope
  gang : Nat
  /-- the tracked operation it belongs to -/
  op : Nat
  dst : Option Dst
  /-- identities of the lanes that receive the status; empty with a c destination -/
  lanes : List Nat
  /-- identity of the lane that a fault of the command names -/
  who : Nat
  st : CmdSt
  /-- results that lanes receive at completion (MRD) -/
  res : Tab (List Word)
  /-- rows not yet through the array, with the codes of A (R298) -/
  rows : List (Nat × List Nat)
  /-- ring elements not yet pushed (BVHQ), the ring's header key, the slot reserved for the next element, and the slots
  filled (R329) -/
  outbox : List Word
  ring : Nat
  slot : Option Nat
  pushed : List Nat
  /-- the record of a collective, or of an HDEF, as it was read (R286, R269) -/
  rcd : Nat
  /-- when it began, in the order of all that begin (R287); 0 until then -/
  begun : Nat
  /-- the handles as it found them when it began, but for those that were pending (R269) -/
  handles : List (Nat × Handle) := []
  /-- the register quadruple that it reads when it begins (R302) -/
  late : Option Name
  fault : Option FaultInfo
  parked : Bool
  /-- the Registers whose answers a WLD awaits or has received (R228) -/
  asked : List Nat := []
  /-- its instruction word (R376) -/
  insn : DWord := 0
deriving DecidableEq, Repr

/-- An engine context (R263, R191). -/
structure Ctx where
  issued : DWord
  tl : DWord
  /-- the scope that each command named, in the order of their numbers (R103) -/
  scopes : List Scope
  queue : List Cmd
  mem : LocalMem
deriving DecidableEq, Repr

/-- Where a team is. -/
inductive Place
  | core (n : Nat)
  /-- saved by pre-emption, or swapped out of a join (R86, R361) -/
  | away (swapped : Bool)
deriving DecidableEq, Repr

/-- A declared or leased range (R341, R368): first byte, length in 64 KiB units, mode. -/
structure Range where
  base : DWord
  len : Nat
  mode : Nat
deriving DecidableEq, Repr

/-- Which chain a launch belongs to (R349). -/
inductive ChainId
  | host (k : Nat) | team (uid : Nat) | timed (j : Nat)
deriving DecidableEq, Repr

/-- A launch that has been accepted and has not completed (R350 to R357). -/
structure Launch where
  id : Nat
  /-- the launch record as copied, a 1,024-bit number (R341) -/
  raw : Nat
  chain : ChainId
  no : Nat
  ctx : Nat
  depth : Nat
  die : Nat
  order : Nat
  resident : Bool
  nores : Bool
  admitted : Nat
  retired : Nat
  faulted : Nat
  fcode : Nat
  fteam : Nat
  bandsDone : Nat
  /-- bands whose last team has left and whose BANDS add is due -/
  bandsDue : List Nat
  crecBad : Bool
  /-- killed (R363, R420), and by the kill register the lowest tid of the teams that the kill ends -/
  killed : Bool
  killTid : Option Nat
  /-- the enabling of the chain that `no` is counted from (R345) -/
  epoch : Nat
  /-- since when its next team has found no core that could admit it (R436) -/
  noPlace : Option Nat := none
deriving DecidableEq, Repr

/-- A subscription region (R211). -/
structure Region where
  team : Nat
  line : Line
  len : Nat
  f : View
  inv : Bool
  t : EType
  caddr : DWord
  count : DWord
deriving DecidableEq, Repr

/-- One line of a core's subscription table (R222). -/
structure SubLine where
  line : Line
  registered : Bool
  /-- the last Register sent for it, while its answer is awaited -/
  asked : Option Nat
  /-- the view: element codes in format `f`, its effective format -/
  view : List Nat
  f : View
  /-- its effective mode: invalidate, or update -/
  inv : Bool
  /-- the next stamp expected, once a message has been applied -/
  next : Option Nat
  /-- the Register that the home has refused; `view` then holds the Data that came with it (R233) -/
  refused : Option Nat
  /-- the Register that met a condition at the home (R231, R233) -/
  fault : Option (Nat × Cause)
deriving DecidableEq, Repr

/-- A saved array state, or the state of a core's array (R290). -/
structure Bank where
  /-- weight (k, n) at 128·k + n, as a code of the latched format (.cb4 decoded to BF16) -/
  w : Tab Nat
  /-- 0 none, then as MSTAT SEL 0 (R318) -/
  latched : Nat
  kl : Nat
  loaded : Bool
  bsc : List Word
  /-- KC of the WLD most recently issued into the bank (R301) -/
  ki : Nat
deriving DecidableEq, Repr

structure Tile where
  /-- element (m, n) at 128·m + n -/
  acc : Tab Word
  rs : List Word
  cs : List Word
  cb : List Word
deriving DecidableEq, Repr

structure Array where
  banks : List Bank
  cur : Nat
  tiles : List Tile
deriving DecidableEq, Repr

/-- A team (R19). -/
structure Team where
  uid : Nat
  launch : Nat
  tid : Nat
  ctx : Nat
  depth : Nat
  prio : Nat
  place : Place
  /-- package core number of its first admission gives its band (R354) -/
  band : Nat
  homeDie : Nat
  lastCore : Nat
  perGang : Nat
  laneCount : Nat
  ext : Nat
  wantsArray : Bool
  /-- PRIV of the context's entry, read at admission (R369, R380) -/
  priv : Bool
  pb : DWord
  ps : Nat
  admitted : Nat
  gangs : List Gang
  ectx : List Ctx
  handles : List Handle
  pend : List Nat
  leases : List Range
  /-- dirty per-lane memory bytes held in L1, by virtual address (R186) -/
  l1 : Tab (Option Byte)
  savedRegions : List Region
  savedArray : Option Array
  preempting : Bool
  /-- it is being swapped out of a join (R361), with what the words its lanes wait on held then -/
  swapping : Bool
  watch : List (DWord × DWord)
  ending : Option FaultInfo
  killPending : Bool
  /-- home codes the team stored or subscribed to (R388) -/
  homes : List Nat
  /-- the cycle of its admission to the core it stands on, and until when it is not swapped out again (R436) -/
  resumedAt : Nat
  holdOff : Nat := 0
  /-- addresses of handle records whose read waits for residency (R343) -/
  preload : List (Nat × DWord)
deriving DecidableEq, Repr

/-- What one instruction of a clause left in its window slot (R58, R59). -/
structure WinSlot where
  /-- a fixed-latency register result was produced -/
  has : Bool
  /-- it is a 64-bit result -/
  wide : Bool
  /-- value of each lane position -/
  vals : Tab DWord
  ready : Nat
deriving DecidableEq, Repr

/-- A clause that a bay is issuing: its latched words and the issue group (R43 to R47, R70). -/
structure Issue where
  team : Nat
  gang : Nat
  /-- lane positions of the issue group, increasing -/
  group : List Nat
  pc : DWord
  cls : Nat
  ni : Nat
  words : List DWord
  lits : List Word
  slot : Nat
  window : List WinSlot
  /-- bindings as they stood when the clause began (R257) -/
  ports : List Port
  /-- bindings that SBINDs of the clause make for the clauses after it, with their numbers (R257) -/
  rebind : List (Nat × DWord × Nat)
  /-- the performance point at which the clause issued (R423) -/
  point : Nat := 0
deriving DecidableEq, Repr

/-- A bay: the clause in issue, the first cycle in which the next instruction may issue, and one above the cycle in which one
issued last (R303). -/
structure Bay where
  issue : Option Issue
  next : Nat
  done : Nat := 0
deriving DecidableEq, Repr

/-- A core. -/
structure Core where
  mem : LocalMem
  regions : List Region
  sub : List SubLine
  bays : List Bay
  arr : Array
  /-- uid of the team that holds the array -/
  holder : Option Nat
  /-- array commands issued and not completed, in array order: team, context, number -/
  order : List (Nat × Nat × Nat)
  /-- activation-table slots: 2,080 words each, empty while never loaded (R148) -/
  tables : List (List Word)
deriving DecidableEq, Repr

/-- A registered sharer of a line (R214). -/
structure Sharer where
  core : Nat
  f : View
  inv : Bool
deriving DecidableEq, Repr

/-- A directory entry (R214, R221). -/
structure DirEntry where
  line : Line
  t : EType
  seq : Nat
  coarse : Bool
  sharers : List Sharer
  /-- coarse form: group and the highest format asked for in it -/
  groups : List (Nat × View)
deriving DecidableEq, Repr

/-- The messages about subscribed lines (R217). -/
inductive MsgKind
  | register | data (registers : Bool) | update | invalidation | leave
deriving DecidableEq, Repr

structure Msg where
  id : Nat
  kind : MsgKind
  core : Nat
  line : Line
  stamp : Nat
  f : View
  elems : List Nat
  /-- the drain or atomic that waits for its Acknowledge -/
  cause : Nat
  /-- the Register that a Data answers; in an Update or Invalidation 1 if it comes from a coarse entry (R215) -/
  re : Nat
  inv : Bool
  t : EType
deriving DecidableEq, Repr

/-- A ring in host memory for events or fault records (R421, R444): its registers, the internal buffer and what waits. -/
structure HostRing where
  base : DWord
  lcap : Nat
  head : DWord
  tail : DWord
  /-- entries, or records with 2^512 × the band of the team above them -/
  buffer : List (Nat × Nat)
  waiting : List (Nat × Nat)
deriving DecidableEq, Repr

structure Die where
  ranges : List (Nat × Range)
  events : HostRing
  faults : HostRing
  /-- the chain whose next record needs more range entries than are free (R348) -/
  stalled : Option ChainId
  /-- one above the command chain that the engine served last (R346) -/
  turn : Nat
  rti : Nat
  halted : Bool
  failed : Bool
  /-- the pending-launch pool: team, context, record, and its place in the order of all launches (R359) -/
  pool : List (Nat × Nat × Nat × Nat)
  failedCh : List Nat
  rowErrs : Tab Nat
  remapped : List Nat
deriving DecidableEq, Repr

structure Chain where
  base : DWord
  lcap : Nat
  die : Nat
  en : Bool
  err : Bool
  tail : Word
  head : Word
  tladdr : DWord
  ctx : Nat
  /-- HEAD when EN was set, and how often EN has been set -/
  start : Word
  epoch : Nat
  /-- records taken since then; launches of the chain completed or refused, by number, and the timeline (R347) -/
  count : Nat
  done : List Nat
  tl : DWord
  /-- slots that a store has gone into since TAIL passed them and before HEAD has (R346) -/
  hit : List Nat
deriving DecidableEq, Repr

structure Timed where
  recAddr : DWord
  period : Nat
  phase : Nat
  en : Bool
  mode : Bool
  ovr : Nat
  starts : DWord
  ctx : Nat
  prev : Option Nat
  /-- when the launch started last completed (R363) -/
  prevEnd : Option Nat
  /-- the launch that it started last (R420) -/
  started : Option Nat := none
  /-- slots below these times are not started: those up to the last one started, and those that have been judged or that a forward
  step of the clock has passed over (R411) -/
  lastSlot : Nat
  floor : Nat
  /-- a submission is due as soon as it can be made (R363), for the slot below `due`, and whether the engine could not take it when
  it was due -/
  resubmit : Bool
  due : Nat := 0
  stalled : Bool
deriving DecidableEq, Repr

/-- A datagram sent and not acknowledged (R408). -/
structure Datagram where
  seq : Nat
  team : Nat
  e : Nat
  endpoint : Nat
  addr : DWord
  data : List Byte
  tries : Nat
  sentAt : Nat
deriving DecidableEq, Repr

/-- One mapping of the frame table (R373): the frames of home `home` from `frame` on, mapped at `va` of a context. -/
structure Frame where
  ctx : Nat
  va : Nat
  home : Nat
  frame : Nat
  size : Nat
  w : Bool
deriving DecidableEq, Repr

/-- An MSI waiting for its event entry (R402). -/
structure Msi where
  vec : Nat
  die : Nat
  entry : Nat
  /-- the messages that the reported write caused, which the completing release awaits -/
  cause : Nat
deriving DecidableEq, Repr

/-- The management registers that hold plain values (R418 to R423). -/
structure Mgmt where
  bootst : Nat
  bootFail : Nat
  bootOk : List Bool
  perfReq : Nat
  perfCur : Nat
  capPoint : Nat
  thermPoint : Nat
  pcap : Nat
  throt : Bool
  capped : Bool
  temp : Nat
  partition : Nat
  partPending : Option Nat
  /-- launches accepted before this point in the order of all launches do not wait for the pending setting (R15) -/
  partSince : Nat
  degrade : Nat
  degraded : Bool
  needDegrade : Bool
  devNum : Nat
  devValid : Bool
  dsize : Nat
  keyCtl : Nat
  keyOp : Nat
  keyBusy : Bool
  keyStatus : Nat
  keyData : List DWord
  keys : List Nat
  dbgEn : Bool
  ctxTable : DWord
  pagerBase : DWord
  pagerSize : DWord
  pagerUsed : Nat
  hwBase : DWord
  hwCtx : Nat
  hwDev : DWord
  killReg : DWord
  killBusy : Bool
  killStatus : Nat
  killWait : List Nat
  freq : Int
  lock : Bool
  nonce : List DWord
  attBusy : Bool
  attAddr : DWord
  vectors : Tab (DWord × DWord)
  endpoints : Tab Nat
deriving DecidableEq, Repr

/-- The save area of a team (R381): each piece's offset, its bytes and their value. No mapping names an area, so its address
is seen nowhere (log entry 28). -/
structure Save where
  team : Nat
  pieces : List (Nat × Nat × Nat)
deriving DecidableEq, Repr

/-- A claim or a reservation that has reached a ring's home and is not granted yet (R247): the ring's header, its kind, and
the team, the gang (16 + e for context e) and the first lane position of the group that made it, with the port. -/
structure RingReq where
  key : Nat
  pop : Bool
  team : Nat
  gang : Nat
  lane : Nat
  port : Nat
deriving DecidableEq, Repr

/-- Which step the machine takes next: the next instruction of a bay, a step of the table, or the passing of cycles. -/
inductive Move
  | slot (core bay : Nat)
  | event (i : Instr)
  | tick (n : Nat)
deriving DecidableEq, Repr

/-- One package. The first three fields are the model's own (log entries 1, 2 and 8); the rest is the machine the
manual describes. -/
structure State where
  /-- the steps taken next, of those the manual leaves in any order (R189): log entry 1 -/
  agenda : List Move
  /-- counter of free values and of fresh identities: log entry 8 -/
  fresh : Nat
  /-- the bay whose instruction this step issues: log entry 2 -/
  focus : Option (Nat × Nat)
  cycle : Nat
  /-- device clock in units of 1/(24·10⁹) ns (R410, R423) -/
  clock : Nat
  /-- bytes by physical key: home code × 2^50 + offset in the home -/
  mem : Tab Byte
  /-- version stamp of each line, by physical line number (R197) -/
  stamps : Tab Nat
  /-- for each partition change, the bytes of Pewter on a die that it wrote as one write to each line (R15, R197) -/
  zeroed : List Nat
  /-- lines that the slices hold, with the slice of each (R13, R182), and stamps forgotten at a drop (R197) -/
  sliceLines : List Nat
  sliceOfLine : Tab Nat
  forgotten : List Nat
  /-- the slices' TLBs: the slice and the leaf that it translates by (R16) -/
  tlb : List (Nat × Nat)
  /-- how many acquires lanes have made, and the writes that some lane's fetches may not see yet, newest first (R47) -/
  era : Nat
  codeLog : List CodeWrite
  /-- poisoned 64-byte pieces (R386) -/
  poison : List Nat
  /-- context id + 1 of the key of a 64-byte HBM piece (R403) -/
  pieceKey : Tab Nat
  /-- HBM lines written since they last went to HBM, with one above the writing line's context; and the 128 bytes that HBM
  itself holds of a line, where they are not those of `mem` (R403, R404) -/
  dirty : Tab Nat
  older : Tab (List Byte)
  /-- memory-side cache: lines of set `die·262144 + s`, most recently used first (R415); selector and misses by context -/
  msc : Tab (List (Nat × Nat))
  mscSel : Tab Nat
  mscMiss : Tab Nat
  /-- reserved ring slots whose element has not merged at home: ring header's key, slot (R247) -/
  slotsOut : List (Nat × Nat)
  /-- requests that wait at rings, in arrival order (R247) -/
  ringReqs : List RingReq
  /-- the header that QRING wrote last, by the header's key, and the rings that a plain store has gone into since (R246) -/
  rings : Tab Nat
  broken : List Nat
  /-- one above the place in line of the context that each shared engine served last (R18) -/
  turns : Tab Nat
  dir : List DirEntry
  msgs : List Msg
  cores : List Core
  teams : List Team
  dies : List Die
  launches : List Launch
  chains : List Chain
  timed : List Timed
  mgmt : Mgmt
  msiWait : List Msi
  msiSent : List (DWord × Word)
  hostData : List Byte
  /-- host stores whose completion awaits the acknowledgements of the messages they caused (R400) -/
  hostWait : List Nat
  peerReply : List Byte
  datagrams : List Datagram
  dgSeq : Nat
  ptp : List (Nat × Bool × Nat)
  /-- residency events posted, by context and page (R375, R402) -/
  parkPosted : List (Nat × Nat)
  /-- the frame table (R373) -/
  frames : List Frame
  /-- Link ports (0 to 17) that have left the pool (R385, R406) -/
  lostPorts : List Nat
  /-- cores with an uncorrectable error in the matrix array that no command has met yet (R385) -/
  badArrays : List Nat
  /-- lanes that wait in TLTRY's memory form, by team and position 32·gang + lane, with the cycle in which a write gave the
  word its value (R104) -/
  held : List (Nat × Nat × Nat)
  /-- the save areas (R381) -/
  saves : List Save
deriving DecidableEq, Repr

/-- No step of this machine stops it: every condition the manual names has a fate inside the machine (R374). -/
inductive Fault
deriving DecidableEq, Repr

/-- Why a step has no meaning. -/
inductive Refusal
  /-- Raised by an arm of exec whose instruction is not modelled yet; safe: nothing is claimed of it. -/
  | notModelled (mnemonic : String)
deriving DecidableEq, Repr

/-- The outcome of one step. -/
abbrev Out := Host.Outcome State Fault Refusal

/-- An empty buffer and snapshot (R187). -/
def LocalMem.empty : LocalMem := { buf := [], snap := [], bad := [], acks := [] }

/-- A lane position that holds no lane (R65). -/
def Lane.absent : Lane :=
  { st := .absent, pc := 0, lid := 0, qid := 0, gid := 0, helper := false, since := 0, regs := [], preds := 0, fst := 0, lastIssue := 0,
    demotedUntil := 0, wdog := 0, deadline := 8, pos := [], pre := [], claims := [], slots := [], seen := none, waitInsn := 0, granted := [],
    filled := [], queue := [], fready := 0, epc := 0, eslot := 0, handler := false, resume := 0, win := [], code := [], late := [], shadow := [], deferred := none }

def Phase.zero : Phase := { tag := 0, from_ := 0, olds := [] }

def Port.unbound : Port := { st := .unbound, daddr := 0, seq := 0, desc := 0, fault := none, faddr := 0 }

/-- A gang with no lane, as it stands before admission (R343). -/
def Gang.empty : Gang :=
  { lanes := List.replicate 32 Lane.absent, phase := List.replicate 8 Phase.zero, cregs := [], ready := [],
    flags := [], chunks := 0,
    ports := List.replicate 16 Port.unbound, retired := false, admitted := 0, ops := [], parked := 0, parts := [], ecause := 0,
    einfo := 0, eaddr := 0, einsn := 0, elane := 0, espos := 0 }

def Handle.empty : Handle := { st := 0, raw := 0 }

def Ctx.empty : Ctx := { issued := 0, tl := 0, scopes := [], queue := [], mem := LocalMem.empty }

/-- FP32 1.0. -/
def f32One : Word := 0x3F800000

/-- The array as a team's first grant finds it (R291). -/
def Array.granted : Array :=
  { banks := List.replicate 2 { w := [], latched := 0, kl := 0, loaded := false, bsc := List.replicate 128 f32One, ki := 0 },
    cur := 0,
    tiles := List.replicate 4 { acc := [], rs := List.replicate 128 f32One, cs := List.replicate 128 f32One,
                                cb := List.replicate 128 0 } }

def Bay.idle : Bay := { issue := none, next := 0 }

/-- A core after reset: every buffer, snapshot and table empty (R187, R148). -/
def Core.reset : Core :=
  { mem := LocalMem.empty, regions := [], sub := [], bays := List.replicate 4 Bay.idle, arr := Array.granted,
    holder := none, order := [], tables := List.replicate 8 [] }

def HostRing.reset : HostRing := { base := 0, lcap := 0, head := 0, tail := 0, buffer := [], waiting := [] }

/-- A die after reset (R348, R421, R444, R413). -/
def Die.reset : Die :=
  { ranges := [], events := HostRing.reset, faults := HostRing.reset, stalled := none, turn := 0, rti := 256, halted := false, failed := false,
    pool := [], failedCh := [], rowErrs := [], remapped := [] }

/-- A command chain after reset (R345). -/
def Chain.reset : Chain :=
  { base := 0, lcap := 0, die := 0, en := false, err := false, tail := 0, head := 0, tladdr := 0, ctx := 0, start := 0,
    epoch := 0, count := 0, done := [], tl := 0, hit := [] }

/-- A time-triggered entry after reset (R362). -/
def Timed.reset : Timed :=
  { recAddr := 0, period := 0, phase := 0, en := false, mode := false, ovr := 0, starts := 0, ctx := 0, prev := none, prevEnd := none,
    lastSlot := 0, floor := 0, resubmit := false, stalled := false }

/-- The management registers after reset (R418 to R423; log entry 7 for those without a reset value). -/
def Mgmt.reset : Mgmt :=
  { bootst := 0, bootFail := 0, bootOk := [false, false], perfReq := 0, perfCur := 0, capPoint := 0, thermPoint := 0,
    pcap := 2800, throt := false, capped := false, temp := 0, partition := 2, partPending := none, partSince := 0, degrade := 0,
    degraded := false, needDegrade := false, devNum := 0, devValid := false, dsize := 0, keyCtl := 0, keyOp := 0,
    keyBusy := false, keyStatus := 0, keyData := List.replicate 8 0, keys := [], dbgEn := false, ctxTable := 0,
    pagerBase := 0, pagerSize := 0, pagerUsed := 0, hwBase := 0, hwCtx := 0, hwDev := 0, killReg := 0, killBusy := false,
    killStatus := 0, killWait := [], freq := 0, lock := false, nonce := List.replicate 8 0, attBusy := false, attAddr := 0,
    vectors := [], endpoints := [] }

/-- The package right after reset (R417): nothing resident, no launch, no key, every register at its reset value, the
boot ROMs not yet done. -/
def State.reset : State :=
  { agenda := [], fresh := 1, focus := none, cycle := 0, clock := 0, mem := [], stamps := [], zeroed := [], sliceLines := [], sliceOfLine := [], tlb := [],
    forgotten := [], era := 0, codeLog := [], poison := [], pieceKey := [], dirty := [], older := [], msc := [], mscSel := [], mscMiss := [], slotsOut := [], ringReqs := [], rings := [], broken := [], turns := [], dir := [], msgs := [],
    cores := List.replicate 256 Core.reset, teams := [], dies := List.replicate 2 Die.reset, launches := [],
    chains := List.replicate 16 Chain.reset, timed := List.replicate 64 Timed.reset, mgmt := Mgmt.reset, msiWait := [],
    msiSent := [], hostData := [], hostWait := [], peerReply := [], datagrams := [], dgSeq := 0, ptp := [], parkPosted := [], frames := [], lostPorts := [], badArrays := [], held := [], saves := [] }

/-- What a byte of memory that nothing has written reads as (log entry 3). -/
def memDefault : Byte := 0

/-- The canonical form of memory: addresses strictly rising, no byte equal to what an unlisted address reads as. -/
abbrev Memory.wf (m : Tab Byte) : Bool := twf memDefault m

end Sys2Proof.Machine
end

