-- ==== Sys2Proof/Machine/Clause.lean ====
section
/-! DEFINITION. Clauses: the header word (R43, R44), the class of each mnemonic (R48), the slots where it may stand (R49)
and the checks made at fetch (R62, stages 1 and 2). -/

namespace Sys2Proof.Machine

/-- Where a mnemonic may stand (R48). -/
inductive Standing
  | any | transfer | trap | sysLast | vec | mem | asy | sys
deriving DecidableEq, Repr

/-- The class of each mnemonic (R48); none for a whole step of the machine. -/
def standing : Instr → Option Standing
  | .nop _ => some .any
  | .bra _ _ | .brx _ _ | .call _ _ _ | .callx _ _ _ | .ret _ _ | .exit _ | .yld _ _ | .barg _ _ | .bart _ _
  | .barb _ _ | .regrp _ | .acqx _ _ | .tlwait _ _ _ | .tltry _ _ _ _ => some .transfer
  | .trap _ _ => some .trap
  | .tret _ _ | .halt _ => some .sysLast
  | .ld _ _ _ _ _ _ | .st _ _ _ _ _ _ | .ldp _ _ _ _ _ | .stp _ _ _ _ _ | .atom _ _ _ _ _ _ _ _ _
  | .acas _ _ _ _ _ _ _ _ | .xsum _ _ _ _ _ _ _ | .xrd _ _ _ _ _ _ _ _ | .xclr _ _ _ _ | .ldv _ _ _ _ _
  | .cms _ _ _ _ _ _ | .fence _ _ | .rel _ _ | .acq _ _ | .sbsc _ _ _ _ _ _ _ _ | .unsb _ _ _ _ | .sld _ _ _ _ _
  | .supg _ _ _ _ _ | .schg _ _ _ _ | .sdrain _ _ _ | .qring _ _ _ _ _ | .qrfree _ _ _ _ => some .mem
  | .hdef _ _ _ _ _ _ _ | .hqry _ _ _ _ | .copy _ _ _ _ _ _ _ _ | .cfill _ _ _ _ _ _ _ | .coll _ _ _ _ _ _
  | .tlrd _ _ _ _ | .wld _ _ _ _ _ _ | .wswp _ _ _ | .mma _ _ _ _ _ _ _ | .mzero _ _ _ _ | .mrd _ _ _ _ _ _ _ _
  | .mwr _ _ _ _ _ _ _ | .mst _ _ _ _ _ _ _ _ _ | .tblld _ _ _ _ _ _ _ | .mstat _ _ _ | .sort _ _ _ _ _ _
  | .bvhq _ _ _ _ _ _ _ _ | .qlu _ _ _ _ _ | .qlus _ _ _ _ _ | .qlut _ _ _ _ _ | .qpiv _ _ _ _ _ _
  | .olu _ _ _ _ _ _ _ | .lnch _ _ _ _ | .lrec _ _ _ _ _ | .lstat _ _ _ | .lease _ _ _ => some .asy
  | .csave _ _ _ | .crest _ _ _ | .tlbinv _ _ _ _ | .replay _ _ _ | .rdsr _ _ _ | .wrsr _ _ _ | .evnt _ _ _ _ => some .sys
  | .hinty _ | .sphase _ _ | .acqxt _ _ _ | .relx _ _ | .tlsig _ _ _ | .mov _ _ _ _ | .movk _ _ _ _ _
  | .iadd _ _ _ _ _ | .isub _ _ _ _ _ | .imul _ _ _ _ _ | .imulh _ _ _ _ _ | .imad _ _ _ _ _ _
  | .imadw _ _ _ _ _ _ | .iadd64 _ _ _ _ _ | .isub64 _ _ _ _ _ | .idiv _ _ _ _ _ | .irem _ _ _ _ _
  | .ineg _ _ _ _ | .iabs _ _ _ _ | .imin _ _ _ _ _ | .imax _ _ _ _ _ | .logt _ _ _ _ _ | .shl _ _ _ _ _
  | .shr _ _ _ _ _ | .sar _ _ _ _ _ | .rot _ _ _ _ _ | .funl _ _ _ _ _ _ | .bfx _ _ _ _ _ | .bfi _ _ _ _ _
  | .popc _ _ _ _ | .clz _ _ _ _ | .ctz _ _ _ _ | .brev _ _ _ _ | .lea _ _ _ _ _ _ _ | .icmp _ _ _ _ _ _
  | .sel _ _ _ _ _ _ _ | .plog _ _ _ _ _ | .prd _ _ _ | .pwr _ _ _ _ | .movImm _ _ _ | .iaddImm _ _ _ _
  | .isubImm _ _ _ _ | .imulImm _ _ _ _ | .iminImm _ _ _ _ | .imaxImm _ _ _ _ | .shlImm _ _ _ _
  | .shrImm _ _ _ _ | .sarImm _ _ _ _ | .rotImm _ _ _ _ | .fadd _ _ _ _ _ | .fsub _ _ _ _ _ | .fmul _ _ _ _ _
  | .ffma _ _ _ _ _ _ | .fmin _ _ _ _ | .fmax _ _ _ _ | .fcmp _ _ _ _ _ | .fdiv _ _ _ _ _ | .fsqrt _ _ _ _
  | .frcp _ _ _ | .frsq _ _ _ | .fexp2 _ _ _ | .flog2 _ _ _ | .fsin _ _ _ | .fcos _ _ _ | .frnd _ _ _ _
  | .fcls _ _ _ _ | .fscl _ _ _ _ _ | .dadd _ _ _ _ _ _ | .dmul _ _ _ _ _ | .dfma _ _ _ _ _ _ | .ddiv _ _ _ _ _
  | .dsqrt _ _ _ _ | .dcmp _ _ _ _ _ | .badd2 _ _ _ _ _ _ | .bfma2 _ _ _ _ _ _ _ | .hfma2 _ _ _ _ _ _ _
  | .cvt _ _ _ _ _ _ _ _ | .pack _ _ _ _ _ | .unpk _ _ _ _ _ | .act _ _ _ _ | .actd _ _ _ _ _ | .xrng _ _ _ _
  | .xrngf _ _ _ | .qswp _ _ _ _ _ _ | .qbc _ _ _ _ _ _ | .qdx _ _ _ _ _ | .qdy _ _ _ _ _ | .perm _ _ _ _ _ _
  | .shup _ _ _ _ _ _ | .shdn _ _ _ _ _ _ | .shxr _ _ _ _ _ _ | .vote _ _ _ _ | .mtch _ _ _ _ | .gscan _ _ _ _ _
  | .gred _ _ _ _ | .rdix _ _ _ _ _ _ | .wrix _ _ _ _ _ | .sbind _ _ _ | .sfree _ _ | .spos _ _ _ _ => some .vec
  | _ => none

/-- A clause header's fields (R44); bit n − 1 of `wait` names flag n. -/
structure Header where
  cls : Nat
  ni : Nat
  nl : Nat
  wait : Nat
  wany : Bool
  rsv : Nat
deriving DecidableEq, Repr

/-- The fields of a header word (R44). -/
def headerOf (w : DWord) : Header :=
  { cls := fld w.toNat 63 61, ni := fld w.toNat 60 57, nl := fld w.toNat 56 55, wait := fld w.toNat 54 43,
    wany := fld w.toNat 42 42 == 1, rsv := fld w.toNat 41 0 }

/-- The bytes that a clause takes (R43). -/
def Header.size (h : Header) : Nat := 8 * (2 + h.ni + h.nl)

/-- Stage 1 of R62: the header's fields (R44), then PRIV (R50). -/
def headerCheck (h : Header) (privileged : Bool) : Option Cause :=
  if h.cls > 3 || h.rsv != 0 || (h.wany && h.wait == 0) then some .illclause
  else if h.cls == 3 && !privileged then some .priv
  else none

/-- May this mnemonic stand in slot `s` of a clause of class `cls` whose last slot is `ni` (R48, R49)? -/
def standsOk (st : Standing) (cls s ni : Nat) : Bool :=
  match st with
  | .any => true
  | .transfer | .trap => s == ni
  | .sysLast => s == ni && cls == 3
  | .vec => cls == 0
  | .mem => cls == 1
  | .asy => cls == 2
  | .sys => cls == 3

/-- Stage 2 of R62 for one slot. -/
def slotCheck (cls ni s : Nat) (w : DWord) : Option Cause :=
  match decodeWord w with
  | none => some .illinsn
  | some i =>
    match standing i with
    | none => some .illinsn
    | some st => if standsOk st cls s ni then none else some .illclause

/-- Stage 2 of R62: the first slot that fails, and why. -/
def wordsCheck (cls ni : Nat) : Nat → List DWord → Option (Nat × Cause)
  | _, [] => none
  | s, w :: t =>
    match slotCheck cls ni s w with
    | some c => some (s, c)
    | none => wordsCheck cls ni (s + 1) t

/-- The k registers of literal words (R33). -/
def literals : List DWord → List Word
  | [] => []
  | w :: t => lo32 w :: hi32 w :: literals t

/-- Does this instruction end the clause in lanes that execute it (R48, R49)? -/
def isTransfer (i : Instr) : Bool := standing i == some .transfer

end Sys2Proof.Machine
end

