-- ==== Sys2Proof/Machine/Home.lean ====
section
/-! DEFINITION. Homes: addresses (R181, R182), translation (R369 to R373), leases (R352), poison (R386), version stamps
(R197), the memory-side cache (R415, R416), and a write that reaches its home with its notifications (R189, R216). -/

namespace Sys2Proof.Machine

/-- The index of a free value: the counter's value and a place within the step (log entry 8). -/
def freeIdx (fresh k : Nat) : Nat := fresh * 2 ^ 64 + k

/-- The home code of a virtual address (R181). -/
def homeOf (a : Nat) : Nat := fld a 61 50
/-- The offset within the home (R181). -/
def offOf (a : Nat) : Nat := a % 2 ^ 50
/-- The physical key of a byte: home code and offset in the home. -/
def pkey (home off : Nat) : Nat := home * 2 ^ 50 + off
/-- The address of the line that holds a byte. -/
def lineAddr (a : Nat) : Nat := a - a % 128

/-- The line of an address in a context; Pewter is not translated, so its lines belong to no context (R211, R369). -/
def lineOf (ctx a : Nat) : Line :=
  { ctx := if homeOf a = 2 ∨ homeOf a = 3 then 0 else ctx, addr := lineAddr a }

/-- The line of an address as subscriptions tell lines apart: by context and virtual address, in Pewter too (R211). -/
def viewLine (ctx a : Nat) : Line := { ctx := ctx, addr := lineAddr a }

/-- Bytes of memory by physical key. -/
def rdByte (s : State) (k : Nat) : Byte := tget memDefault s.mem k
def rdBytes (s : State) (k n : Nat) : List Byte := (List.range n).map (fun i => rdByte s (k + i))
def rdNat (s : State) (k n : Nat) : Nat := ofBytes (rdBytes s k n)

/-- Put bytes into a memory from a key on. -/
def putBytes (m : Tab Byte) : Nat → List Byte → Tab Byte
  | _, [] => m
  | k, b :: t => putBytes (tput memDefault m k b) (k + 1) t

/-- Bytes of Pewter on each die (R14). -/
def pewterSize (s : State) : Nat := s.mgmt.partition * 2 ^ 25

/-- Is a peer home code one that this device may reach (R181, R405)? -/
def peerOk (s : State) (h : Nat) : Bool :=
  s.mgmt.devValid && (h - 0x800) / 2 != s.mgmt.devNum && decide ((h - 0x800) / 2 < s.mgmt.dsize)

/-- Is the home of this package's die `h mod 2`? -/
def pkgHome (h : Nat) : Bool := decide (h < 4)

/-- What R181 detects when an instruction issues: ADDR, and PROT for a home code, a Pewter offset or a peer number. -/
def issueFault (s : State) (a : Nat) : Option Cause :=
  if a / 2 ^ 62 ≠ 0 then some .addr
  else
    let h := homeOf a
    if h = 0 ∨ h = 1 ∨ h = 4 then none
    else if h = 2 ∨ h = 3 then (if offOf a < pewterSize s then none else some .prot)
    else if 0x800 ≤ h ∧ h < 0xC00 then (if peerOk s h then none else some .prot)
    else some .prot

/-- Does a scope of an agent on die `d` contain a home (R188)? -/
def inScope (d : Nat) (sc : Scope) (h : Nat) : Bool :=
  match sc with
  | .core => false
  | .die => h == d || h == 2 + d
  | .pkg => decide (h < 4)
  | .dom => decide (h < 4) || (decide (0x800 ≤ h) && decide (h < 0xC00))
  | .sys => decide (h < 5) || (decide (0x800 ≤ h) && decide (h < 0xC00))

/-- Near homes of an agent on die `d`: Pewter of either die and its own die's HBM (R188). -/
def nearHome (d h : Nat) : Bool := h == 2 || h == 3 || h == d

/-- The home slice of an offset (R182). -/
def sliceOf (off : Nat) : Nat :=
  fld off 16 11 ^^^ fld off 22 17 ^^^ fld off 28 23 ^^^ fld off 34 29 ^^^ fld off 40 35 ^^^ fld off 46 41 ^^^ fld off 49 47

/-- The entry of a context in the context table (R369), a 512-bit number; the table lies in die 0's HBM (log entry 10). -/
def ctxEntry (s : State) (ctx : Nat) : Nat := rdNat s (s.mgmt.ctxTable.toNat % 2 ^ 50 + 64 * ctx) 64
def ctxRoot (s : State) (ctx home : Nat) : Nat :=
  let e := ctxEntry s ctx
  if home = 0 then fld e 63 0 else if home = 1 then fld e 127 64 else fld e 191 128
def ctxTvec (s : State) (ctx : Nat) : DWord := BitVec.ofNat 64 (fld (ctxEntry s ctx) 255 192)
def ctxValid (s : State) (ctx : Nat) : Bool := fld (ctxEntry s ctx) 256 256 == 1
def ctxPriv (s : State) (ctx : Nat) : Bool := fld (ctxEntry s ctx) 257 257 == 1
def ctxPager (s : State) (ctx : Nat) : Bool := fld (ctxEntry s ctx) 258 258 == 1
def ctxTmem (s : State) (ctx : Nat) : Bool := fld (ctxEntry s ctx) 259 259 == 1
def ctxMsc (s : State) (ctx : Nat) : Nat := fld (ctxEntry s ctx) 261 260

/-- Channel of an HBM key's frame address (R412). -/
def channelOf (off : Nat) : Nat := off / 65536 % 192

/-- The set of the memory-side cache that a line of HBM falls into (R415). -/
def mscIndex (k : Nat) : Nat := homeOf k * 262144 + k / 128 % 262144

/-- Does a slice or the memory-side cache hold a line of HBM, in plaintext (R403)? -/
def cached (s : State) (k : Nat) : Bool :=
  s.sliceLines.contains (k / 128) || (tget [] s.msc (mscIndex k)).any (fun w => w.2 == k / 128)

/-- Is a piece of HBM under a key that is gone (R404)? -/
def keyless (s : State) (k : Nat) : Bool :=
  let t := tget 0 s.pieceKey (k / 64)
  decide (homeOf k < 2) && t != 0 && !s.mgmt.keys.contains (t - 1) && !cached s k

/-- Does a byte read as poison (R386): its piece is poisoned, its channel has failed (R414), or its key is gone (R404)? -/
def poisoned (s : State) (k : Nat) : Bool :=
  let h := homeOf k
  s.poison.contains (k / 64) || keyless s k ||
  (decide (h < 2) && ((s.dies[h]?).map (fun d => d.failedCh.contains (channelOf (offOf k)))).getD false)

def channelFailed (s : State) (k : Nat) : Bool :=
  decide (homeOf k < 2) && ((s.dies[homeOf k]?).map (fun d => d.failedCh.contains (channelOf (offOf k)))).getD false

/-- A page-table leaf: where the entry stands, the entry, and the page it maps (R370, R371). -/
structure Leaf where
  key : Nat
  entry : Nat
  psize : Nat
deriving DecidableEq, Repr

def Leaf.frame (l : Leaf) : Nat := fld l.entry 51 16 * 65536
def Leaf.w (l : Leaf) : Bool := fld l.entry 2 2 == 1
def Leaf.x (l : Leaf) : Bool := fld l.entry 3 3 == 1
def Leaf.p (l : Leaf) : Bool := fld l.entry 6 6 == 1

/-- The levels of a table: the offset bits each one indexes (R370). -/
def walkLevels : List (Nat × Nat) := [(49, 36), (35, 30), (29, 21), (20, 16)]

/-- Bytes of an HBM home (R7) and of the host's address space as an entry can name it (R371). -/
def hbmSize : Nat := 6 * 2 ^ 36

/-- Walk from a table down the levels: the leaf, or ADDR where R372 says so; an entry that reads as poison, as every entry in a
failed channel does (R386, R414), ends the walk with POISON. -/
def walk (s : State) (home off : Nat) : List (Nat × Nat) → Nat → Except Cause Leaf
  | [], _ => .error .addr
  | (h, l) :: rest, table =>
    let key := table + 8 * fld off h l
    let e := rdNat s key 8
    if poisoned s key then .error .poison
    else if fld e 0 0 = 0 ∨ fld e 7 7 ≠ 0 ∨ fld e 63 52 ≠ 0 then .error .addr
    else if fld e 1 1 = 1 then
      let leaf : Leaf := { key := key, entry := e, psize := 2 ^ l }
      if fld e 15 8 ≠ 0 ∨ (home < 2 ∧ hbmSize < leaf.frame + leaf.psize) then .error .addr else .ok leaf
    else if rest.isEmpty then .error .addr
    else walk s home off rest (fld e 51 8 * 256)

/-- The walk to an address of a translated home. -/
def walkTo (s : State) (ctx a : Nat) : Except Cause Leaf := walk s (homeOf a) (offOf a) walkLevels (ctxRoot s ctx (homeOf a))

/-- The leaf that maps an address of a translated home. -/
def leafOf (s : State) (ctx a : Nat) : Option Leaf := (walkTo s ctx a).toOption

/-- The kinds of access that R372 tells apart. -/
inductive Access
  | read | write | fetch
deriving DecidableEq, Repr

/-- The home slice of an address, among those of the package (R182). -/
def sliceAt (a : Nat) : Nat := homeOf a % 2 * 64 + sliceOf (offOf a)

/-- Where an access goes: the physical key, the leaf it used, if any, and its home slice. -/
structure Loc where
  key : Nat
  leaf : Option Leaf
  slice : Nat := 0
deriving DecidableEq, Repr

/-- Translation and permission at the home (R372), after the checks of R181; `leased` says that a lease of the team holds
the page (R352). A home of a failed die takes HOMELOST (R388), and a peer with no path left POISON (R385). -/
def locate (s : State) (ctx a : Nat) (acc : Access) (leased : Bool) : Except Cause Loc :=
  match issueFault s a with
  | some c => .error c
  | none =>
    let h := homeOf a
    if h < 4 ∧ (s.dies[h % 2]?.map (·.failed)).getD false then .error .homelost
    else if 0x800 ≤ h ∧ (List.range 18).all (fun p => s.lostPorts.contains p) then .error .poison
    else if h = 2 ∨ h = 3 ∨ 0x800 ≤ h then .ok { key := a, leaf := none }
    else
      match walkTo s ctx a with
      | .error c => .error c
      | .ok l =>
        if (acc = .write ∧ !l.w) ∨ (acc = .fetch ∧ !l.x) then .error .prot
        else if !l.p ∧ !leased then .error .residency
        else .ok { key := pkey h (l.frame + offOf a % l.psize), leaf := some l, slice := sliceAt a }

/-- The walker sets A on the first access that completes and D on the first write (R372). A page whose leaf stands in a failed
channel is not found (R414). -/
def markLeaf (s : State) (loc : Loc) (write : Bool) : State :=
  match loc.leaf with
  | none => s
  | some l =>
    let b := rdByte s l.key ||| (if write then 0x30 else 0x10)
    { s with mem := tput memDefault s.mem l.key b }

/-- Does a range hold the page of an address (R342, R351)? -/
def Range.holds (r : Range) (a : Nat) : Bool :=
  r.mode != 0 && decide (r.base.toNat ≤ a) && decide (a < r.base.toNat + r.len * 65536)

/-- Record fields, as numbers (R341). -/
def recDim (r i : Nat) : Nat := fld r (79 + 16 * i) (64 + 16 * i)
def recTeams (r : Nat) : Nat := recDim r 0 * recDim r 1 * recDim r 2
def recG (r : Nat) : Nat := fld r 115 112 + 1
def recL (r : Nat) : Nat := fld r 124 116 + 1
def recPS (r : Nat) : Nat := 4 * fld r 162 144
def recCrec (r : Nat) : Nat := fld r 895 832
def recRange (r j : Nat) : Range :=
  { base := BitVec.ofNat 64 (fld r (511 + 96 * j) (448 + 96 * j)), len := fld r (541 + 96 * j) (512 + 96 * j),
    mode := fld r (543 + 96 * j) (542 + 96 * j) }

def findLaunch (s : State) (id : Nat) : Option Launch := s.launches.find? (fun l => l.id == id)
def findTeam (s : State) (uid : Nat) : Option Team := s.teams.find? (fun t => t.uid == uid)

/-- Is an address under a lease of the team: its launch's declared ranges and per-lane memory, and its extra leases
(R351, R352, R368)? Only while the launch is resident do its leases hold. -/
def leased (s : State) (uid a : Nat) : Bool :=
  match findTeam s uid with
  | none => false
  | some t =>
    t.leases.any (fun r => r.holds a) ||
    (match findLaunch s t.launch with
     | none => false
     | some l =>
       l.resident && ((List.range 4).any (fun j => (recRange l.raw j).holds a) ||
         (let n := recTeams l.raw * recG l.raw * 32 * recPS l.raw
          let pbl := fld l.raw 255 192
          decide (0 < n) && decide (pbl / 65536 ≤ a / 65536) && decide (a / 65536 ≤ (pbl + n - 1) / 65536))))

/-- One miss in a sample set moves the context's selector (R416). -/
def mscSample (s : State) (ctx set : Nat) : State :=
  let v := tget 0 s.mscSel ctx
  let v' := if set % 4096 = 0 then min 1023 (v + 1) else if set % 4096 = 2048 then v - 1 else v
  { s with mscSel := tput 0 s.mscSel ctx v', mscMiss := tput 0 s.mscMiss ctx (tget 0 s.mscMiss ctx + 1) }

/-- A dirty line of HBM is written back: encrypted and tagged under the writing context's key (R403), or untagged while it has
none (R404). -/
def writeBackLine (s : State) (line : Nat) : State :=
  let k := 128 * line
  match tget 0 s.dirty line with
  | 0 => s
  | c + 1 =>
    let tag := fun (t : Tab Nat) (p : Nat) => if s.mgmt.keys.contains c then tput 0 t p (c + 1) else t
    { s with dirty := tput 0 s.dirty line 0, older := tput [] s.older line [],
             pieceKey := tag (tag s.pieceKey (k / 64)) (k / 64 + 1) }

/-- A line of HBM that no slice and no memory-side cache holds any more: what was written since goes to HBM; a line that was not
written reads as HBM holds it. -/
def settleLine (s : State) (line : Nat) : State :=
  if cached s (128 * line) then s
  else if tget 0 s.dirty line ≠ 0 then writeBackLine s line
  else match tget [] s.older line with
    | [] => s
    | bs => { s with mem := putBytes s.mem (128 * line) bs, older := tput [] s.older line [] }

/-- An access of a line of HBM below its slice: the memory-side cache's tags (R415, R416). The selector starts at 0
(erratum QE-03). The line that gives way leaves for HBM. -/
def mscAccess (s : State) (ctx k : Nat) : State :=
  let lineNo := k / 128
  let set := lineNo % 262144
  let idx := mscIndex k
  let ways := tget [] s.msc idx
  if ways.any (fun w => w.2 == lineNo) then
    { s with msc := tput [] s.msc idx (ways.filter (fun w => w.2 == lineNo) ++ ways.filter (fun w => w.2 != lineNo)) }
  else
    let s := mscSample s ctx set
    let pin := ctxMsc s ctx
    let mru := if set % 4096 = 0 then true else if set % 4096 = 2048 then false
      else if pin = 1 then true else if pin = 2 then false else decide (tget 0 s.mscSel ctx < 512)
    let kept := ways.take 15
    let new := if mru then (ctx, lineNo) :: kept
      else kept.take (kept.length - 1) ++ [(ctx, lineNo)] ++ kept.drop (kept.length - 1)
    (ways.drop 15).foldl (fun s w => settleLine s w.2) { s with msc := tput [] s.msc idx new }

/-- The writes to every Pewter line of a die that partition changes have made, counted for the line of a key (R15, R197). -/
def zeroings (s : State) (k : Nat) : Nat :=
  if homeOf k = 2 ∨ homeOf k = 3 then (s.zeroed.filter (fun n => decide (offOf k < n))).length else 0

/-- The stamp of a line (R197). -/
def stampOf (s : State) (k : Nat) : Nat := (tget 0 s.stamps (k / 128) + zeroings s k) % 2 ^ 32

/-- The lines that a slice's cache holds (R13, R14): what Pewter leaves of 3 MiB. -/
def sliceCap (s : State) : Nat := (6 - s.mgmt.partition) * 4096

/-- The directory entries whose line has its home at a physical line (R211). -/
def entriesAt (s : State) (phys : Nat) : List DirEntry :=
  s.dir.filter (fun d => match locate s d.line.ctx d.line.addr .read true with
    | .ok loc => loc.key / 128 == phys
    | .error _ => false)

/-- The lines that a slice holds. -/
def linesOf (s : State) (slice : Nat) : List Nat := s.sliceLines.filter (fun n => tget 0 s.sliceOfLine n == slice)

/-- A line leaves its slice with its stamp (R197); what was written since goes to the memory-side cache below (R403, R415). -/
def leaveSlice (s : State) (phys : Nat) : State :=
  let s := { s with sliceLines := s.sliceLines.filter (fun x => x != phys), forgotten := phys :: s.forgotten }
  match tget 0 s.dirty phys with
  | 0 => settleLine s phys
  | c + 1 => mscAccess s c (phys * 128)

/-- A full slice makes room: a line without sharers leaves, whichever (log entry 104). -/
def makeRoom (s : State) (slice : Nat) : State :=
  let ls := linesOf s slice
  if ls.length < sliceCap s then s
  else
    let can := ls.filter (fun n => (entriesAt s n).isEmpty)
    match can[(Config.freeWord (freeIdx s.fresh 0)).toNat % can.length]? with
    | some n => leaveSlice s n
    | none => s

/-- Bring a line of HBM into its slice, whose TLB translates it (R16): a line that was dropped takes a stamp above every stamp
given before (R197). A slice whose lines all have sharers keeps none more. -/
def fillSlice (s : State) (ctx : Nat) (loc : Loc) : State :=
  let line := loc.key / 128
  if homeOf loc.key < 2 ∧ !s.sliceLines.contains line then
    let s := makeRoom (mscAccess s ctx loc.key) loc.slice
    let tlb := match loc.leaf with
      | some l => if s.tlb.contains (loc.slice, l.key) then s.tlb else (loc.slice, l.key) :: s.tlb
      | none => s.tlb
    let keep := decide ((linesOf s loc.slice).length < sliceCap s)
    let seen := s.forgotten.contains line
    let left := s.forgotten.filter (fun x => x != line)
    { s with tlb := tlb, sliceLines := if keep then line :: s.sliceLines else s.sliceLines,
             sliceOfLine := tput 0 s.sliceOfLine line loc.slice, forgotten := if keep then left else line :: left,
             fresh := s.fresh + 1,
             stamps := if seen then tput 0 s.stamps line ((stampOf s loc.key + 1 + Config.freeRise s.fresh) % 2 ^ 32) else s.stamps }
  else s

/-- An access brings a line into its slice. A line with a piece under a key that is gone gives poison, and stays where it is
(R404). -/
def touchLine (s : State) (ctx : Nat) (loc : Loc) : State :=
  let base := lineAddr loc.key
  if keyless s base ∨ keyless s (base + 64) then s else fillSlice s ctx loc

/-- A line of HBM is written in its slice: pieces whose key is gone are poisoned there, and HBM keeps the older bytes until the
line goes back to it (R403, R404). -/
def dirtyLine (s : State) (ctx : Nat) (loc : Loc) : State :=
  let base := lineAddr loc.key
  if 2 ≤ homeOf base then s
  else
    let gone := ([0, 64].filter (fun o => keyless s (base + o))).map (fun o => (base + o) / 64)
    let s := fillSlice { s with poison := gone.filter (fun p => !s.poison.contains p) ++ s.poison } ctx { loc with key := base }
    let line := base / 128
    { s with dirty := tput 0 s.dirty line (ctx + 1)
             older := if (tget [] s.older line).isEmpty then tput [] s.older line (rdBytes s base 128) else s.older }

/-- A line's stamp rises by one (R197). -/
def bumpStamp (s : State) (k : Nat) : State :=
  { s with stamps := tput 0 s.stamps (k / 128) ((tget 0 s.stamps (k / 128) + 1) % 2 ^ 32) }

/-- A write covering all 64 bytes of a piece ends its poison (R386). -/
def settlePieces (s : State) (base : Nat) (offs : List Nat) : State :=
  [0, 64].foldl (fun s o =>
    if (List.range 64).all (fun i => offs.contains (o + i))
      then { s with poison := s.poison.filter (fun p => p != (base + o) / 64) } else s) s

/-- Bytes of an element (R211). -/
def etypeBytes : EType → Nat
  | .f32 => 4 | .bf16 => 2
def etypeFmt : EType → Fmt
  | .f32 => .f32 | .bf16 => .bf16

/-- The format of a view; `.vexact` of FP32 or BF16 elements keeps their bits (R213). -/
def viewFmt (t : EType) : View → Fmt
  | .exact => etypeFmt t
  | .bf16 => .bf16 | .f16 => .f16 | .e4m3 => .e4m3 | .e5m2 => .e5m2 | .e2m1 => .e2m1

/-- Ranks of R212. -/
def viewRank : View → Nat
  | .exact => 5 | .f16 => 4 | .bf16 => 3 | .e4m3 => 2 | .e5m2 => 1 | .e2m1 => 0

/-- V(x, F) of R213. -/
def viewOf (t : EType) (f : View) (x : Nat) : Nat :=
  if f = .exact then x else encSat (viewFmt t f) (dec (etypeFmt t) x)

/-- The elements of a line from its 128 bytes. -/
def lineElems (t : EType) (bs : List Byte) : List Nat :=
  (List.range (128 / etypeBytes t)).map (fun i => ofBytes ((bs.drop (i * etypeBytes t)).take (etypeBytes t)))

/-- Core group, of the package, of a core (R9). -/
def groupOf (core : Nat) : Nat := core / 8

/-- The effective format and mode of a sharer (R215). -/
def DirEntry.effective (d : DirEntry) (x : Sharer) : View × Bool :=
  if d.coarse then (((d.groups.find? (fun g => g.1 == groupOf x.core)).map (·.2)).getD x.f, false) else (x.f, x.inv)

def findDir (s : State) (l : Line) : Option DirEntry := s.dir.find? (fun d => d.line == l)

/-- The directory entries that a write to a line concerns: its own, and for Pewter, which no context translates, those of every
context (R211). -/
def entriesOf (s : State) (l : Line) : List DirEntry :=
  s.dir.filter (fun d => d.line.addr == l.addr && (homeOf l.addr == 2 || homeOf l.addr == 3 || d.line.ctx == l.ctx))

/-- Replace or add a line's directory entry. -/
def setDir (s : State) (d : DirEntry) : State :=
  { s with dir := d :: s.dir.filter (fun e => e.line != d.line) }

/-- A message about line `d.line` to a core: the line's sequence stamp rises by one and numbers it (R221). `re` is the Register
that a Data answers, in other messages 1 if the entry is coarse, and `inv` the effective mode that a Data gives. -/
def sendMsg (s : State) (d : DirEntry) (core : Nat) (k : MsgKind) (f : View) (elems : List Nat) (cause : Nat) (re : Nat := 0)
    (inv : Bool := false) : State × DirEntry :=
  let n := (d.seq + 1) % 256
  let m : Msg := { id := s.fresh, kind := k, core := core, line := d.line, stamp := n, f := f, elems := elems,
                   cause := cause, re := re, inv := inv, t := d.t }
  ({ s with fresh := s.fresh + 1, msgs := s.msgs ++ [m] }, { d with seq := n })

/-- A Register or a Leave from a core to a line's home (R217); the answer's second part is its id. -/
def sendReq (s : State) (k : MsgKind) (core : Nat) (l : Line) (f : View) (inv : Bool) (t : EType) : State × Nat :=
  let m : Msg := { id := s.fresh, kind := k, core := core, line := l, stamp := 0, f := f, elems := [], cause := 0, re := 0, inv := inv,
                   t := t }
  ({ s with fresh := s.fresh + 1, msgs := s.msgs ++ [m] }, s.fresh)

/-- The cores that the coarse form names: every core of every marked group (R215, R225). -/
def groupCores (g : Nat) : List Nat := (List.range 8).map (fun i => g * 8 + i)

/-- An entry as a message or a Leave has left it: with no sharer the home keeps nothing of the line (R214). -/
def keepDir (s : State) (d : DirEntry) : State :=
  if !d.coarse ∧ d.sharers.isEmpty then { s with dir := s.dir.filter (fun e => e.line != d.line) } else setDir s d

/-- NOTIFY (R216, R222): the messages that a change of a line from `old` to `new` sends. `forced` lists the elements that
count as changed for every sharer. Each message carries `cause`, whose ACK or completion waits for it. -/
def notify (s : State) (d : DirEntry) (old new : List Byte) (forced : Nat → Bool) (cause : Nat) : State :=
  let o := lineElems d.t old
  let n := lineElems d.t new
  let changed := fun f => (List.range o.length).any (fun i =>
    forced i || viewOf d.t f (o.getD i 0) != viewOf d.t f (n.getD i 0))
  let targets : List (Nat × View × Bool) :=
    if d.coarse then d.groups.flatMap (fun g => (groupCores g.1).map (fun c => (c, g.2, false)))
    else d.sharers.map (fun x => (x.core, x.f, x.inv))
  let re := if d.coarse then 1 else 0
  let r := targets.foldl (fun (a : State × DirEntry) x =>
    if changed x.2.1 then
      if x.2.2 then
        let r := sendMsg a.1 a.2 x.1 .invalidation x.2.1 [] cause re
        (r.1, { r.2 with sharers := r.2.sharers.filter (fun y => y.core != x.1) })
      else sendMsg a.1 a.2 x.1 .update x.2.1 (n.map (viewOf d.t x.2.1)) cause re
    else a) (s, d)
  keepDir r.1 r.2

def coreOf (s : State) (n : Nat) : Core := s.cores.getD n Core.reset
def LocalMem.entry (m : LocalMem) (l : Line) : List BufByte := ((m.buf.find? (fun e => e.1 == l)).map (·.2)).getD []
def LocalMem.buffered (m : LocalMem) (l : Line) (off : Nat) : Option Byte :=
  ((m.entry l).find? (fun b => b.off == off)).map (·.val)

/-- Does the word that a lane waits on in TLTRY's memory form hold its value, as a load of its core binds it (R104)? The answer
names the word's line at its home. -/
def wordHolds (s : State) (t : Team) (l : Lane) : Option Nat :=
  match l.st, t.place with
  | .blocked (.tryMem a v _ _ _), .core n => (match locate s t.ctx a.toNat .read (leased s t.uid a.toNat) with
    | .ok loc =>
      let own := fun i => ((coreOf s n).mem.buffered (lineOf t.ctx a.toNat) (a.toNat % 128 + i)).getD (rdByte s (loc.key + i))
      if v.toNat ≤ ofBytes ((List.range 8).map own) then some (lineAddr loc.key) else none
    | .error _ => none)
  | _, _ => none

/-- The lanes among some whose TLTRY has just come to hold: the cycle is kept, for the end of the interval (R104). -/
def noteLanes (s : State) (now : Nat) (p : Team → Nat → Option Nat → Bool) : State :=
  { s with held := s.held ++ s.teams.flatMap (fun t =>
      (List.range t.gangs.length).flatMap (fun g => (List.range 32).filterMap (fun i =>
        match (t.gangs[g]?).bind (fun x => x.lanes[i]?) with
        | some l => if (wordHolds s t l).isSome ∧ p t g (wordHolds s t l) ∧ !s.held.any (fun h => h.1 == t.uid && h.2.1 == 32 * g + i)
            then some (t.uid, 32 * g + i, now) else none
        | none => none))) }

/-- A write to a line may satisfy the lanes that wait on its words. -/
def noteHeld (s : State) (base : Nat) : State := noteLanes s s.cycle (fun _ _ b => b == some base)

/-- The slots of a chain that TAIL has passed and HEAD has not (R346). -/
def Chain.open_ (c : Chain) : List Nat :=
  if c.en then (List.range (min (2 ^ c.lcap) (c.tail - c.head).toNat)).map (fun j => ((c.head - c.start).toNat + j) % 2 ^ c.lcap)
  else []

/-- A store into an open slot of a command chain makes that record unpredictable (R346). -/
def noteSlots (s : State) (base : Nat) : State :=
  { s with chains := s.chains.map (fun c => { c with hit := c.hit ++ c.open_.filter (fun n => !c.hit.contains n &&
      (match locate s c.ctx ((c.base.toNat + 128 * n) % 2 ^ 64) .read false with
       | .ok loc => lineAddr loc.key == base
       | .error _ => false)) }) }

/-- The class of a home, as an acquire at a scope covers it or not (R188): the two dies' HBM and Pewter, the host, the peers. -/
def codeClass (h : Nat) : Nat := min h 5
/-- A home of each class. -/
def codeHomes : List Nat := [0, 1, 2, 3, 4, 0x800]

/-- A write of code is kept for the lanes whose fetches may not see it yet (R47): of pages that a lane may fetch from, while lanes
live. `core` and `hist` tell what a core's buffer held. -/
def noteCode (s : State) (loc : Loc) (bytes : List (Nat × Byte)) (core : Option Nat) (hist : List (Nat × List (Byte × Nat))) : State :=
  if s.teams.isEmpty ∨ loc.leaf.any (fun l => !l.x) then s
  else
    let base := lineAddr loc.key
    let note := fun (b : Nat × Byte) =>
      ({ key := base + b.1, old := rdByte s (base + b.1), val := b.2, era := s.era, core := core,
         hist := ((hist.find? (fun h => h.1 == b.1)).map (·.2)).getD [] } : CodeWrite)
    { s with codeLog := bytes.map note ++ s.codeLog }

/-- A write of masked bytes that reaches its home (R189): they merge, the line's stamp rises by one, poison settles, and the
sharers whose view changed are told. `integer` marks the atomics of R216; `core` and `hist` tell of a core's drain what its buffer
held (R47). -/
def homeWrite (s : State) (ctx : Nat) (l : Line) (loc : Loc) (bytes : List (Nat × Byte)) (integer : Bool) (cause : Nat)
    (core : Option Nat := none) (hist : List (Nat × List (Byte × Nat)) := []) : State :=
  let base := lineAddr loc.key
  let s := dirtyLine (markLeaf (noteCode s loc bytes core hist) loc true) ctx loc
  let old := rdBytes s base 128
  let s := if channelFailed s base then s
    else { s with mem := bytes.foldl (fun m b => tput memDefault m (base + b.1) b.2) s.mem }
  let s := noteSlots (noteHeld (settlePieces (bumpStamp s base) base (bytes.map (·.1))) base) base
  let new := rdBytes s base 128
  let covered := fun i => bytes.any (fun b => b.1 == i)
  let forced := fun (d : Nat) (i : Nat) =>
    if integer then (old.drop (i * d)).take d != (new.drop (i * d)).take d
    else (List.range d).any (fun j => covered (i * d + j)) && !(List.range d).all (fun j => covered (i * d + j))
  (entriesOf s l).foldl (fun s d => notify s d old new (forced (etypeBytes d.t)) cause) s

end Sys2Proof.Machine
end

