-- ==== Sys2Proof/Machine/Ops.lean ====
section
/-! DEFINITION. The named operations over teams, gangs, lanes, buffers and snapshots; taking a trap and returning from it
(R377 to R379); the ways a team ends or a gang parks (R374, R375). -/

namespace Sys2Proof.Machine

-- Finding and replacing parts of the state

/-- Update a team. -/
def modTeam (s : State) (uid : Nat) (f : Team → Team) : State :=
  { s with teams := modWhere (fun t => t.uid == uid) f s.teams }

/-- Update gang `g` of a team. -/
def modGang (s : State) (uid g : Nat) (f : Gang → Gang) : State :=
  modTeam s uid (fun t => { t with gangs := t.gangs.modify g f })

/-- Update the lane at position `i` of gang `g` of a team. -/
def modLane (s : State) (uid g i : Nat) (f : Lane → Lane) : State :=
  modGang s uid g (fun x => { x with lanes := x.lanes.modify i f })

def Team.gang (t : Team) (g : Nat) : Gang := t.gangs.getD g Gang.empty
def Gang.lane (g : Gang) (i : Nat) : Lane := g.lanes.getD i Lane.absent
def Team.ctxOf (t : Team) (e : Nat) : Ctx := t.ectx.getD e Ctx.empty

def findGang (s : State) (uid g : Nat) : Option Gang := (findTeam s uid).bind (fun t => t.gangs[g]?)
def findLane (s : State) (uid g i : Nat) : Option Lane := (findGang s uid g).bind (fun x => x.lanes[i]?)

def modCore (s : State) (n : Nat) (f : Core → Core) : State := { s with cores := s.cores.modify n f }
def bayOf (s : State) (core bay : Nat) : Bay := (coreOf s core).bays.getD bay Bay.idle
def modBay (s : State) (core bay : Nat) (f : Bay → Bay) : State :=
  modCore s core (fun c => { c with bays := c.bays.modify bay f })
def dieOf (s : State) (d : Nat) : Die := s.dies.getD d Die.reset
def modDie (s : State) (d : Nat) (f : Die → Die) : State := { s with dies := s.dies.modify d f }

/-- The die of a core (R9). -/
def coreDie (core : Nat) : Nat := core / 128
/-- The core group number in the package, which `bid` reads for a band (R55, R354). -/
def coreGroup (core : Nat) : Nat := core / 8

/-- The core a team stands on. -/
def Team.core (t : Team) : Option Nat := match t.place with
  | .core n => some n
  | .away _ => none
/-- Its core, or the last one it stood on. -/
def Team.coreN (t : Team) : Nat := t.core.getD t.lastCore
def Team.die (t : Team) : Nat := coreDie t.coreN

/-- The identity of a lane within its team (R19). -/
def Lane.ident (l : Lane) : Nat := 32 * l.gid + l.lid

/-- Where a lane of a given identity stands now: gang and position. -/
def Team.whereIs (t : Team) (ident : Nat) : Option (Nat × Nat) :=
  (List.range t.gangs.length).findSome? (fun g =>
    ((t.gang g).lanes.findIdx? (fun l => l.ident == ident && l.st != .absent)).map (fun i => (g, i)))

def Lane.live (l : Lane) : Bool := l.st != .absent && l.st != .exited

/-- Lane positions that hold a lane that has not exited. -/
def Gang.liveAt (g : Gang) : List Nat := (List.range 32).filter (fun i => (g.lane i).live)

-- Registers and predicates

def Lane.reg (l : Lane) (n : Nat) : Word := tget 0 l.regs n
def Lane.setReg (l : Lane) (n : Nat) (v : Word) : Lane := { l with regs := tput 0 l.regs n v }
/-- Write consecutive registers (R4). -/
def Lane.setRegs (l : Lane) (n : Nat) : List Word → Lane
  | [] => l
  | v :: t => (l.setReg n v).setRegs (n + 1) t
def Gang.creg (g : Gang) (n : Nat) : Word := tget 0 g.cregs n
def Gang.setCregs (g : Gang) (n : Nat) : List Word → Gang
  | [] => g
  | v :: t => { g with cregs := tput 0 g.cregs n v }.setCregs (n + 1) t
def Lane.pred (l : Lane) (n : Nat) : Bool := if n = 127 then true else l.preds.getLsbD n
def Lane.setPred (l : Lane) (n : Nat) (b : Bool) : Lane :=
  { l with preds := if b then l.preds ||| BitVec.ofNat 96 (2 ^ n) else l.preds &&& ~~~(BitVec.ofNat 96 (2 ^ n)) }
def Gang.flag (g : Gang) (n : Nat) : Nat := tget 0 g.flags n
/-- A flag counts up or down (R73); flag 0 is no flag. -/
def Gang.addFlag (g : Gang) (n : Nat) : Gang := if n = 0 then g else { g with flags := tput 0 g.flags n (g.flag n + 1) }
def Gang.subFlag (g : Gang) (n : Nat) : Gang := if n = 0 then g else { g with flags := tput 0 g.flags n (g.flag n - 1) }

/-- The tag that `phase` reads in a cycle (R100). -/
def Phase.shown (p : Phase) (t : Nat) : BitVec 8 :=
  if p.from_ ≤ t then p.tag else ((p.olds.find? (fun x => decide (x.2 ≤ t))).map (·.1)).getD 0
/-- Of a quad's earlier tags, newest first, those that a cycle from `t` on can still read. -/
def Phase.kept (t : Nat) : List (BitVec 8 × Nat) → List (BitVec 8 × Nat)
  | [] => []
  | x :: r => x :: (if x.2 ≤ t then [] else Phase.kept t r)
/-- SPHASE gives a new tag in cycle `t`, visible two cycles later (R100). -/
def Phase.give (p : Phase) (tag : BitVec 8) (t : Nat) : Phase :=
  { tag := tag, from_ := t + 2, olds := Phase.kept t ((p.tag, p.from_) :: p.olds) }

/-- Readiness keys of R77. -/
def keyG (n : Nat) : Nat := n
def keyP (n : Nat) : Nat := 1000 + n
def keyC (n : Nat) : Nat := 2000 + n
/-- Of a system register that WRSR writes (R378). -/
def keyS (n : Nat) : Nat := 3000 + n
/-- The cycle from which what any lane has pending under a key is readable. -/
def Gang.readyAt (g : Gang) (k : Nat) : Nat := ((g.ready.filter (fun e => e.1 / 64 == k)).map (·.2)).foldl max 0
/-- Results pending until cycle `t`, each by its key and lane: a lane's later write of a register replaces its own earlier one, and
no other lane's (R77). -/
def Gang.setReady (g : Gang) (ks : List (Nat × Nat)) (t : Nat) : Gang :=
  { g with ready := ks.foldl (fun r k => tput 0 r (64 * k.1 + k.2) t) g.ready }

/-- Keys with the lanes that write under them; what belongs to the gang stands at lane 0. -/
def inLanes (ks lanes : List Nat) : List (Nat × Nat) :=
  ks.flatMap (fun k => if k < 2000 then lanes.map (fun i => (k, i)) else [(k, 0)])

/-- The keys of a destination's registers. -/
def Dst.keys (d : Dst) : List Nat := match d.name with
  | .g n => (List.range d.words).map (fun i => keyG (n + i))
  | .c n => (List.range d.words).map (fun i => keyC (n + i))
  | _ => []

-- Time

/-- Clock units of one cycle at a performance point (R423), in 1/(24·10⁹) ns with the rate adjustment of R410. -/
def cycleUnits (s : State) (point : Nat) : Nat :=
  let u := match point with
    | 0 => 12 | 1 => 15 | 2 => 20 | _ => 30
  (u * ((10 ^ 9 : Int) + s.mgmt.freq)).toNat

/-- The point that the clock runs at: a change takes effect at a clause boundary, so that the first clause in issue keeps the point
at which it issued (R423; log entry 114). -/
def clockPoint (s : State) : Nat :=
  (s.cores.findSome? (fun c => c.bays.findSome? (fun b => b.issue.map (·.point)))).getD s.mgmt.perfCur

/-- Let cycles pass at a point (R5, R410). -/
def passAt (s : State) (point n : Nat) : State := { s with cycle := s.cycle + n, clock := s.clock + n * cycleUnits s point }

/-- Let cycles pass. -/
def passCycles (s : State) (n : Nat) : State := passAt s (clockPoint s) n

/-- Move the clock on to a cycle. -/
def passTo (s : State) (t : Nat) : State := passCycles s (t - s.cycle)

/-- The device clock in ns: the TIME register (R410). -/
def timeOf (s : State) : Nat := s.clock / (24 * 10 ^ 9) % 2 ^ 64

-- Agents: buffers and snapshots (R187, R191)

def agentMem (s : State) : Agent → LocalMem
  | .core n => (coreOf s n).mem
  | .ctx u e => ((findTeam s u).map (fun t => (t.ctxOf e).mem)).getD LocalMem.empty

def modAgent (s : State) (a : Agent) (f : LocalMem → LocalMem) : State :=
  match a with
  | .core n => modCore s n (fun c => { c with mem := f c.mem })
  | .ctx u e => modTeam s u (fun t => { t with ectx := t.ectx.modify e (fun c => { c with mem := f c.mem }) })

/-- The die that an agent's scopes are taken from (R188). -/
def agentDie (s : State) : Agent → Nat
  | .core n => coreDie n
  | .ctx u _ => ((findTeam s u).map Team.die).getD 0

def LocalMem.copy (m : LocalMem) (l : Line) : Option (List Byte) := (m.snap.find? (fun e => e.1 == l)).map (·.2)

/-- What stood in a line's entry before a byte that is stored now, newest first (R47). -/
def LocalMem.past (m : LocalMem) (l : Line) (off : Nat) : List (Byte × Nat) :=
  match (m.entry l).find? (fun b => b.off == off) with
  | some b => (b.val, b.era) :: b.olds
  | none => []

/-- Newer bytes replace older ones in the line's entry (R189, STORE). -/
def LocalMem.merge (m : LocalMem) (l : Line) (new : List BufByte) : LocalMem :=
  let kept := (m.entry l).filter (fun b => !new.any (fun n => n.off == b.off))
  { m with buf := (l, kept ++ new.map (fun n => { n with olds := m.past l n.off })) :: m.buf.filter (fun e => e.1 != l) }

def LocalMem.dropEntry (m : LocalMem) (l : Line) : LocalMem := { m with buf := m.buf.filter (fun e => e.1 != l) }
def LocalMem.dropCopy (m : LocalMem) (l : Line) : LocalMem :=
  { m with snap := m.snap.filter (fun e => e.1 != l), bad := m.bad.filter (fun e => e.1 != l) }
def LocalMem.setCopy (m : LocalMem) (l : Line) (bs : List Byte) (bad : List Nat) : LocalMem :=
  { m with snap := (l, bs) :: m.snap.filter (fun e => e.1 != l),
           bad := bad.map (fun o => (l, o)) ++ m.bad.filter (fun e => e.1 != l) }
/-- ACQ S: every snapshot line homed in S is dropped (R189). -/
def LocalMem.acquire (m : LocalMem) (d : Nat) (sc : Scope) : LocalMem :=
  { m with snap := m.snap.filter (fun e => !inScope d sc (homeOf e.1.addr)),
           bad := m.bad.filter (fun e => !inScope d sc (homeOf e.1.addr)) }

/-- The bytes of an access, split by line: (line, offset in the line, bytes). -/
def splitLines (ctx a : Nat) (bs : List Byte) : List (Line × Nat × List Byte) :=
  let n := 128 - a % 128
  if bs.length ≤ n then [(lineOf ctx a, a % 128, bs)]
  else [(lineOf ctx a, a % 128, bs.take n), (lineOf ctx (a + n), 0, bs.drop n)]

/-- STORE of bytes at an address into an agent's buffer (R189). -/
def storeBytes (s : State) (ag : Agent) (ctx a : Nat) (bs : List Byte) (team lane : Nat) (port : Option Nat) (cmd : Nat := 0)
    (insn : DWord := 0) : State :=
  (splitLines ctx a bs).foldl (fun s p =>
    modAgent s ag (fun m => m.merge p.1 ((List.range p.2.2.length).map (fun i =>
      { off := p.2.1 + i, val := p.2.2.getD i 0, team := team, lane := lane, port := port, cmd := cmd,
        era := s.era, insn := insn })))) s

/-- Is a line subscribed at a core (R211)? The line is named as `viewLine` names it. -/
def subscribed (s : State) (core : Nat) (l : Line) : Bool :=
  (coreOf s core).regions.any (fun r =>
    r.line.ctx == l.ctx && decide (r.line.addr ≤ l.addr) && decide (l.addr < r.line.addr + r.len))

def agentSubscribed (s : State) (a : Agent) (l : Line) : Bool :=
  match a with
  | .core n => subscribed s n l
  | .ctx _ _ => false

-- Events and fault records (R397, R421, R444)

/-- A 16-byte event entry as a number (R397). -/
def eventEntry (kind band code data : Nat) (addr : Nat) : Nat :=
  kind % 16 + 2 ^ 8 * (band % 256) + 2 ^ 16 * (code % 65536) + 2 ^ 32 * (data % 2 ^ 32) + 2 ^ 64 * (addr % 2 ^ 64)

/-- Hand an entry to a die's event queue (R421), where it waits for EVENT_ENTRY_WRITE; the answer's second part names it. -/
def postEvent (s : State) (d : Nat) (e : Nat) : State × Nat :=
  ({ modDie s d (fun x => { x with events := { x.events with waiting := x.events.waiting ++ [(s.fresh, e)] } })
       with fresh := s.fresh + 1 }, s.fresh)

/-- Has an entry not been written yet: does it wait, or stand in the internal buffer (R421)? -/
def HostRing.holds (r : HostRing) (entry : Nat) : Bool := r.buffer.any (fun w => w.1 == entry) || r.waiting.any (fun w => w.1 == entry)

/-- An event entry of KIND 6 that names an address or a channel (R397). -/
def errorEvent (s : State) (d addr : Nat) : State := (postEvent s d (eventEntry 6 0 0 0 addr)).1

/-- Codes of R356 and R374. -/
def causeCode : Cause → Nat
  | .illinsn => 1 | .illclause => 2 | .illopnd => 3 | .illregrp => 4 | .misalignpc => 5 | .timing => 6 | .flagovf => 7
  | .priv => 8 | .align => 9 | .addr => 10 | .prot => 11 | .residency => 12 | .watchdog => 13 | .poison => 14
  | .homelost => 15 | .killed => 16 | .swtrap => 17

/-- The KIND of a fault: the team-level classes are 4 wherever they are met (R376). -/
def faultKind (i : FaultInfo) : Nat :=
  match i.cause with
  | .watchdog | .homelost | .killed => 4
  | _ => i.kind

/-- A 64-byte fault record as a number (R376). -/
def faultRecord (t : Team) (i : FaultInfo) : Nat :=
  causeCode i.cause + 2 ^ 8 * faultKind i + 2 ^ 16 * i.gang + 2 ^ 20 * i.lane + 2 ^ 25 * i.slot + 2 ^ 32 * t.tid +
  2 ^ 64 * i.pc.toNat + 2 ^ 128 * i.addr.toNat + 2 ^ 192 * i.insn.toNat + 2 ^ 256 * i.port.getD 0 + 2 ^ 260 * i.ectx +
  2 ^ 264 * i.spos.toNat + 2 ^ 296 * i.lid + 2 ^ 301 * i.qid + 2 ^ 304 * i.gid + 2 ^ 320 * i.cmdno.toNat + 2 ^ 384 * t.ctx +
  2 ^ 392 * t.coreN

/-- What a fault says when nothing more is known of it. -/
def FaultInfo.plain (c : Cause) : FaultInfo :=
  { cause := c, kind := 4, gang := 0, lane := 0, slot := 0, pc := 0, addr := 0, insn := 0, port := none, ectx := 0, spos := 0,
    lid := 0, qid := 0, gid := 0, cmdno := 0, einfo := 0 }

/-- The team ends with a fault (R374): the first one stands, and TEAM_END carries it out. -/
def endTeam (s : State) (uid : Nat) (i : FaultInfo) : State :=
  modTeam s uid (fun t => if t.ending.isSome then t else { t with ending := some i })

/-- A fault of a lane, with its place in the machine. -/
def laneFault (t : Team) (g i : Nat) (c : Cause) (kind : Nat) (addr : Nat) : FaultInfo :=
  let l := (t.gang g).lane i
  { FaultInfo.plain c with
    kind := kind, gang := g, lane := i, pc := l.pc, addr := BitVec.ofNat 64 addr, lid := l.lid, qid := l.qid, gid := l.gid }

/-- A fault that is raised when a lane issues its next clause (R374): the first one that it holds stands for those that come
before that clause. TMEM is read now (R369). A lane that has exited issues none, and the team ends (log entry 105). -/
def holdFault (s : State) (uid g i : Nat) (info : FaultInfo) : State :=
  match findLane s uid g i with
  | none => endTeam s uid info
  | some l =>
    if l.live then modLane s uid g i (fun l => { l with deferred := l.deferred.orElse (fun _ =>
        some { info with tmem := (findTeam s uid).map (fun t => ctxTmem s t.ctx) }) })
    else endTeam s uid info

/-- A part of a lane's operation that faulted at its home (R374): ADDR and PROT are deferred to the lane's next clause; the
classes that end the team end it; `acc` is 0 load, 1 store, 2 atomic, 3 fetch (R378, EINFO), and `insn` the instruction's word (R376). -/
def deferFault (s : State) (uid g i : Nat) (c : Cause) (addr acc : Nat) (insn : DWord) : State :=
  match findTeam s uid with
  | none => s
  | some t =>
    let info := { laneFault t g i c 1 addr with einfo := BitVec.ofNat 32 (acc + 4), insn := insn }
    if c = .poison ∨ c = .homelost then endTeam s uid info else holdFault s uid g i info

/-- The fault of an engine command (R267, R376, R378): it names the command, and the lane that placed it; `acc` is the access
that met the condition, as in EINFO. -/
def commandFault (t : Team) (e no who gang : Nat) (c : Cause) (addr acc : Nat) : FaultInfo :=
  let base := match t.whereIs who with
    | some (g, i) => laneFault t g i c 3 addr
    | none => { FaultInfo.plain c with addr := BitVec.ofNat 64 addr, gang := gang }
  { base with kind := 3, ectx := e, cmdno := BitVec.ofNat 64 no, einfo := BitVec.ofNat 32 (acc + 4),
              insn := (((t.ctxOf e).queue.find? (fun k => k.no == no)).map (·.insn)).getD 0 }

/-- Its fate (R267, R374): ADDR, PROT and ALIGN wait for the lane's next clause, every other class ends the team. -/
def commandFate (s : State) (t : Team) (who : Nat) (f : FaultInfo) : State :=
  match t.whereIs who with
  | some (g, i) =>
    if f.cause = .addr ∨ f.cause = .prot ∨ f.cause = .align then holdFault s t.uid g i f else endTeam s t.uid f
  | none => endTeam s t.uid f

/-- The virtual address of the page that holds an address: of its leaf's size (R370, R371), and 64 KiB where there is none. -/
def pageBase (s : State) (ctx a : Nat) : Nat :=
  let n := ((leafOf s ctx a).map (·.psize)).getD 65536
  a / n * n

/-- One residency event is posted for each page that a team waits on (R375, R397, R402). -/
def postPage (s : State) (t : Team) (a : Nat) : State :=
  let b := pageBase s t.ctx a
  let page := (t.ctx, b / 65536)
  if s.parkPosted.contains page then s
  else (postEvent { s with parkPosted := page :: s.parkPosted } t.die (eventEntry 7 t.band t.ctx t.tid b)).1

/-- A gang that waits on a page that is not resident issues no further clause (R375). -/
def parkGangOn (s : State) (uid g : Nat) (a : Nat) : State :=
  match findTeam s uid with
  | none => s
  | some t => postPage (modGang s uid g (fun x => { x with parked := max 1 x.parked })) t a

-- Traps (R377 to R379)

def Lane.trapped (l : Lane) : Bool := l.handler
/-- A wait ends: the lane runs on, in its handler if it is in one (R68). -/
def Lane.wake (l : Lane) : Lane := { l with st := if l.handler then .trapped else .running }

/-- Does a gang have lanes in a handler (R377)? -/
def Gang.inHandler (g : Gang) : Bool := g.lanes.any Lane.trapped

/-- Privileged mode (R380): in a handler, or by the context, as it stood at the team's admission (R369). -/
def privileged (t : Team) (g i : Nat) : Bool := ((t.gang g).lane i).trapped || t.priv

/-- Is a handler installed that takes this cause (R46, R374)? `tmem` is TMEM as a fault that is raised late has met it (R369). -/
def handlerFor (s : State) (ctx : Nat) (c : Cause) (tmem : Option Bool := none) : Option DWord :=
  let v := ctxTvec s ctx
  if v = 0 ∨ v.toNat % 8 ≠ 0 then none
  else if (c = .addr ∨ c = .prot) ∧ !tmem.getD (ctxTmem s ctx) then none
  else some v

/-- The causes that trap; every other class ends the team (R374). -/
def traps : Cause → Bool
  | .residency | .watchdog | .poison | .homelost | .killed => false
  | _ => true

/-- The window at a slot for one lane, w1 being the youngest (R58, R377). The upper half of a 32-bit result is a free value
(log entry 11). -/
def windowOf (fresh : Nat) (iss : Issue) (slot i : Nat) : List (Option DWord) :=
  (List.range 8).map (fun j =>
    if slot ≤ j then none
    else (iss.window[slot - 1 - j]?).bind (fun w =>
      let x := tget 0 w.vals i
      if w.has then some (if w.wide then x else pair (lo32 x) (Config.freeWord (freeIdx fresh (16 * i + j)))) else none))

/-- Taking a trap: each entering lane keeps its return clause, slot and window; the gang's system registers say what
happened; the lanes go to the handler in privileged mode with their watchdog count at zero (R377, R378). -/
def enterHandler (s : State) (uid g : Nat) (lanes : List Nat) (tvec : DWord) (info : FaultInfo) (epc : DWord) (eslot : Nat)
    (shadow : Nat → List (Option DWord)) : State :=
  modGang s uid g (fun x =>
    { x with
      lanes := (List.range x.lanes.length).map (fun i =>
        let l := x.lane i
        if lanes.contains i then
          { l with st := .trapped, handler := true, pc := tvec, resume := 0, epc := epc, eslot := eslot, shadow := shadow i,
                   wdog := 0 }
        else l)
      ecause := BitVec.ofNat 32 (causeCode info.cause)
      einfo := info.einfo
      eaddr := info.addr
      einsn := info.insn
      elane := BitVec.ofNat 32 (info.lane + 32 * info.port.getD 0 + (if info.port.isSome then 512 else 0))
      espos := info.spos })

/-- A fault of one gang meets its fate (R374, R377): the handler, if one is installed and no lane of the group is in it
already; otherwise the end of the team. -/
def takeTrap (s : State) (uid g : Nat) (lanes : List Nat) (info : FaultInfo) (epc : DWord) (eslot : Nat)
    (shadow : Nat → List (Option DWord)) : State :=
  match findTeam s uid with
  | none => s
  | some t =>
    if !traps info.cause ∨ lanes.any (fun i => ((t.gang g).lane i).trapped) then endTeam s uid info
    else match handlerFor s t.ctx info.cause info.tmem with
      | none => endTeam s uid info
      | some v => enterHandler s uid g lanes v info epc eslot shadow

/-- Where TRET resumes a lane (R379): at its saved clause and slot, or at the slot after it, where w1 names the slot that was
skipped. A slot past the clause's last one stands for the next clause, which CLAUSE_ISSUE resolves. -/
def leaveHandler (l : Lane) (skip : Bool) : Lane :=
  { l with st := .running, handler := false, pc := l.epc, resume := if skip then l.eslot + 1 else l.eslot,
           win := if skip then none :: l.shadow.take (min 7 l.eslot) else l.shadow.take l.eslot, wdog := 0 }

-- Lane states at a YLD point (R84, R85)

/-- A lane reaches a YLD point: its watchdog count is reset, and it stops there if its team is being pre-empted or
killed (R84, R85, R420). A lane in a handler stops for a kill alone, and leaves the handler, so that the gang's other lanes come to
their YLD points. -/
def Lane.yldPoint (l : Lane) (stop : Bool) (kill : Bool := false) : Lane :=
  match l.st with
  | .running => { l with wdog := 0, st := if stop then .stopped none else .running }
  | .blocked w =>
    if kill then { l with wdog := 0, st := .stopped (some w), handler := false }
    else { l with wdog := 0, st := if stop && !l.handler then .stopped (some w) else .blocked w }
  | .trapped => if kill then { l with wdog := 0, st := .stopped none, handler := false } else { l with wdog := 0 }
  | _ => { l with wdog := 0 }

/-- A kill reaches a team: the lanes that wait stand at a YLD point (R84, R420). -/
def Team.kill (t : Team) : Team :=
  { t with killPending := true, gangs := t.gangs.map (fun g => { g with lanes := g.lanes.map (fun l => match l.st with
      | .blocked _ => { l.yldPoint true true with wdog := l.wdog }
      | _ => l) }) }

/-- Must the team's lanes stop at their YLD points? -/
def Team.stopping (t : Team) : Bool := t.preempting || t.killPending

-- Tracked operations (R73)

/-- The gang whose operation list holds an operation: it stays with its gang when its lanes' quads move (R82). -/
def opGang (t : Team) (op : Nat) : Option Nat :=
  (List.range t.gangs.length).find? (fun g => (t.gang g).ops.any (fun o => o.id == op))

/-- That gang's number, `g` if no gang holds the operation. -/
def opHome (s : State) (uid g op : Nat) : Nat := ((findTeam s uid).bind (fun t => opGang t op)).getD g

/-- An operation's part of one lane is done; the flag falls when every lane's part is (R73). -/
def finishPart (s : State) (uid g op ident : Nat) : State :=
  modGang s uid (opHome s uid g op) (fun x =>
    match x.ops.find? (fun o => o.id == op) with
    | none => x
    | some o =>
      let rest := o.lanes.filter (fun j => j != ident)
      if rest.isEmpty then { x with ops := x.ops.filter (fun p => p.id != op) }.subFlag o.flag
      else { x with ops := modWhere (fun p => p.id == op) (fun p => { p with lanes := rest }) x.ops })

/-- Does a lane take the results of operation `op`: it has not exited since the operation was issued (R88)? -/
def Lane.takes (l : Lane) (op : Nat) : Bool := l.live && decide (l.since ≤ op)

/-- Write the result of flag-tracked operation `op` into a lane (R74), or into the c registers of its gang. A lane that has
exited takes nothing (R88). A register that the lane itself wrote meanwhile ends with this result (log entry 93). -/
def writeResult (s : State) (uid g i op : Nat) (d : Dst) (vs : List Word) : State :=
  match d.name with
  | .g n => modLane s uid g i (fun l => if l.takes op then l.setRegs n vs else l)
  | .c n => modGang s uid g (fun x => x.setCregs n vs)
  | _ => s

end Sys2Proof.Machine
end

