-- ==== Sys2Proof/Machine/Access.lean ====
section
/-! DEFINITION. Reading through the view of a core or of an engine context: its buffer, its snapshot and the homes (R189,
R191), for loads, stream ports, instruction fetch and commands. -/

namespace Sys2Proof.Machine

/-- Translate for a team. -/
def locateFor (s : State) (t : Team) (a : Nat) (acc : Access) : Except Cause Loc := locate s t.ctx a acc (leased s t.uid a)

/-- The poisoned pieces of a line, by offset. -/
def badPieces (s : State) (base : Nat) : List Nat := [0, 64].filter (fun o => poisoned s (base + o))

/-- FILL (R189): the snapshot of an agent receives the home's current value. -/
def fillLine (s : State) (a : Agent) (l : Line) (loc : Loc) (mark : Bool) : State :=
  let base := lineAddr loc.key
  let s := touchLine (if mark then markLeaf s loc false else s) l.ctx loc
  modAgent s a (fun m => m.setCopy l (rdBytes s base 128) (badPieces s base))

/-- One byte as LOAD binds it (R189, R224), with whether it is poisoned: from the buffer, else from the snapshot, or from the
home for a line that is subscribed in context `ctx`. None while the line is in neither. -/
def viewByte (s : State) (a : Agent) (ctx : Nat) (l : Line) (base off : Nat) : Option (Byte × Bool) :=
  let m := agentMem s a
  match m.buffered l off with
  | some b => some (b, false)
  | none =>
    if agentSubscribed s a { l with ctx := ctx } then some (rdByte s (base + off), poisoned s (base + off))
    else match m.copy l with
      | some bs => some (bs.getD off 0, m.bad.contains (l, off / 64 * 64))
      | none => none

/-- All of a run of bytes within one line, or none. -/
def viewBytes (s : State) (a : Agent) (ctx : Nat) (l : Line) (base off : Nat) : Nat → Option (List (Byte × Bool))
  | 0 => some []
  | n + 1 =>
    match viewByte s a ctx l base off, viewBytes s a ctx l base (off + 1) n with
    | some b, some t => some (b :: t)
    | _, _ => none

/-- Bytes read as LOADs, with a FILL of each line first if needed (R189): the state after the FILLs, and the bytes or the
condition met at an address. `acc` is the access that the pages must permit, and `mark` says whether A is set. -/
def fetchBytes (s : State) (t : Team) (ag : Agent) (a : Nat) (acc : Access) (mark : Bool) :
    Nat → State × Except (Cause × Nat) (List (Byte × Bool))
  | 0 => (s, .ok [])
  | n + 1 =>
    let r := fetchBytes s t ag a acc mark n
    match r.2 with
    | .error c => (r.1, .error c)
    | .ok bs =>
      let b := (BitVec.ofNat 64 (a + n)).toNat
      match locateFor r.1 t b acc with
      | .error c => (r.1, .error (c, b))
      | .ok loc =>
        let l := lineOf t.ctx b
        let s0 := if mark then markLeaf r.1 loc false else r.1
        let s := if agentSubscribed s0 ag (viewLine t.ctx b) ∨ ((agentMem s0 ag).copy l).isSome then s0 else fillLine s0 ag l loc false
        (s, .ok (bs ++ [(viewByte s ag t.ctx l (lineAddr loc.key) (b % 128)).getD (0, false)]))

end Sys2Proof.Machine
end

