-- ==== Sys2Proof/Machine/Flags.lean ====
section
/-! DEFINITION. The computations that feed fst (R136) and the integer result rules (R108). -/

namespace Sys2Proof.Machine

/-- S(x, W) and N(x, W) for 32 and 64 bits are BitVec.toInt and BitVec.toNat; Wrap(v, W) of R108. -/
def wrap32 (v : Int) : Word := BitVec.ofInt 32 v
def wrap64 (v : Int) : DWord := BitVec.ofInt 64 v

/-- SatS(v, W) of R108. -/
def satS (w : Nat) (v : Int) : BitVec w := BitVec.ofInt w (max (-(2 ^ (w - 1) : Nat)) (min ((2 ^ (w - 1) : Nat) - 1) v))
/-- SatN(v, W) of R108. -/
def satN (w : Nat) (v : Int) : BitVec w := BitVec.ofInt w (max 0 (min ((2 ^ w : Nat) - 1) v))

/-- DN of every operand read as a number (R136). -/
def dnOf (f : Fmt) (xs : List Nat) : Flags := xs.foldl (fun a x => a ||| subFlag f x) 0

/-- IV of signalling NaN operands (R134, R136). -/
def ivOf (f : Fmt) (xs : List Nat) : Flags := if xs.any (fun x => dec f x == .nan true) then fIV else 0

/-- A rounded result with the operand flags added (R136). -/
def withOperands (f : Fmt) (xs : List Nat) (r : Nat × Flags) : Nat × Flags := (r.1, r.2 ||| dnOf f xs ||| ivOf f xs)

end Sys2Proof.Machine
end

