-- ==== Sys2Proof/Machine/Operands.lean ====
section
/-! DEFINITION. Operands: legal names (R54 to R58), the checks of stage 3 (R62), readiness (R77), reading and writing,
stream-port pops and pushes (R239 to R244), and the two shapes that most instructions share: a fixed-latency instruction,
and a flag-tracked one whose result is written at completion. -/

namespace Sys2Proof.Machine

/-- A source operand: its name and how many registers it takes. -/
structure Opnd where
  name : Name
  words : Nat
  /-- a block of registers that is no 64- or 128-bit operand: its first register is any one (R56, R326) -/
  loose : Bool := false
deriving DecidableEq, Repr

/-- The instruction in issue: its bay, its team and gang, the latched clause, its issue cycle (R38) and its active lanes. -/
structure View where
  core : Nat
  bay : Nat
  team : Team
  g : Nat
  gang : Gang
  iss : Issue
  t : Nat
  active : List Nat

/-- Guard(L) of R40. -/
def guardHolds (g : Guard) (l : Lane) : Bool :=
  match g with
  | .always => true
  | .pred n neg => l.pred n != neg

/-- The cycle in which a bay's next instruction issues, if it is issuing a clause (R38). -/
def Bay.due (b : Bay) : Option Nat := b.issue.map (fun x => b.next + fld ((x.words[x.slot]?).getD 0).toNat 54 52)

/-- Does no other bay of the core issue an instruction before cycle `t` of bay `bay`: in an earlier cycle, or in the same one
with a lower number (R303)? -/
def issuesNext (c : Core) (bay t : Nat) : Bool :=
  (List.range 4).all (fun j => j == bay || match ((c.bays[j]?).bind Bay.due) with
    | none => true
    | some x => decide (t < x) || (x == t && decide (bay < j)))

/-- The view of the instruction in issue, from the bay in focus (log entry 2). The bays of a core issue in the order of their
cycles. -/
def issueView (s : State) (c : Common) : Option View :=
  match s.focus with
  | none => none
  | some (core, bay) =>
    match (bayOf s core bay).issue with
    | none => none
    | some iss =>
      if !issuesNext (coreOf s core) bay ((bayOf s core bay).next + c.dist) then none else
      match findTeam s iss.team with
      | none => none
      | some t =>
        let g := t.gang iss.gang
        some { core := core, bay := bay, team := t, g := iss.gang, gang := g, iss := iss,
               t := (bayOf s core bay).next + c.dist,
               active := iss.group.filter (fun i => guardHolds c.guard (g.lane i)) }

/-- The instruction's word. -/
def View.word (v : View) : DWord := (v.iss.words[v.iss.slot]?).getD 0

/-- The active lanes that are not helper lanes (R66). -/
def View.acting (v : View) : List Nat := v.active.filter (fun i => !(v.gang.lane i).helper)

-- Stream descriptors (R237)

def Port.mode (p : Port) : Nat := fld p.desc 2 0
def Port.fmt (p : Port) : Nat := fld p.desc 7 3
def Port.sat (p : Port) : Bool := fld p.desc 8 8 == 1
def Port.scope (p : Port) : Scope := (scopes[fld p.desc 11 9]?).getD .pkg
def Port.eosp (p : Port) : Nat := fld p.desc 22 16
def Port.fillVal (p : Port) : Word := BitVec.ofNat 32 (fld p.desc 63 32)
def Port.base (p : Port) : Nat := fld p.desc 127 64
def Port.cnt (p : Port) (j : Nat) : Nat := fld p.desc (191 + 64 * j) (160 + 64 * j) + 1
def Port.str (p : Port) (j : Nat) : Int := sext 32 (fld p.desc (223 + 64 * j) (192 + 64 * j))
def Port.total (p : Port) : Nat := p.cnt 0 * p.cnt 1 * p.cnt 2 * p.cnt 3
def Port.isRead (p : Port) : Bool := p.mode == 0 || p.mode == 2 || p.mode == 3
def Port.isRing (p : Port) : Bool := p.mode == 3 || p.mode == 4

/-- The float format of an element code (R239), none for an integer code. -/
def elemFmt : Nat → Option Fmt
  | 5 => some .f16 | 6 => some .bf16 | 7 => some .e4m3 | 8 => some .e5m2 | 9 => some .e3m2 | 10 => some .e2m3
  | 11 => some .e2m1 | _ => none

/-- Bytes of an element; a half byte counts as 0 (R239). -/
def elemBytes : Nat → Nat
  | 0 => 4 | 1 | 2 => 1 | 3 | 4 | 5 | 6 => 2 | 11 => 0 | _ => 1

/-- What a pop delivers for the stored bits (R239). -/
def popConv (fmt x : Nat) : Word :=
  match elemFmt fmt with
  | some f => BitVec.ofNat 32 (rne .f32 (dec f x)).1
  | none => match fmt with
    | 0 => BitVec.ofNat 32 x
    | 1 => BitVec.ofNat 32 (x % 256)
    | 2 => BitVec.ofInt 32 (sext 8 (x % 256))
    | 3 => BitVec.ofNat 32 (x % 65536)
    | _ => BitVec.ofInt 32 (sext 16 (x % 65536))

/-- What a push stores, and the fst bits of its rounding (R239). -/
def pushConv (fmt : Nat) (sat : Bool) (v : Word) : List Byte × Flags :=
  match elemFmt fmt with
  | some f =>
    let r := withOperands .f32 [v.toNat] (roundTo f .rn 0 sat (dec .f32 v.toNat))
    (toBytes (elemBytes fmt) r.1, r.2)
  | none => (toBytes (elemBytes fmt) v.toNat, 0)

/-- The element index of a position, wrapped to 64 bits (R240). -/
def Port.index (p : Port) (ident pos : Nat) : Nat :=
  let d0 := pos % p.cnt 0
  let d1 := pos / p.cnt 0 % p.cnt 1
  let d2 := pos / (p.cnt 0 * p.cnt 1) % p.cnt 2
  let d3 := pos / (p.cnt 0 * p.cnt 1 * p.cnt 2)
  (BitVec.ofInt 64 (ident * sext 32 (fld p.desc 159 128) + d0 * p.str 0 + d1 * p.str 1 + d2 * p.str 2 + d3 * p.str 3)).toNat

/-- The address of an element of an array at `base`, and whether it is the high nibble (R240, R241). -/
def elemAddr (base fmt e : Nat) : Nat × Bool :=
  if fmt = 11 then
    -- ⌊e/2⌋ of the signed index
    let i : Int := sext 64 e
    ((BitVec.ofInt 64 ((base : Int) + Int.fdiv i 2)).toNat, decide (Int.fmod i 2 = 1))
  else ((BitVec.ofNat 64 (base + e * elemBytes fmt)).toNat, false)

/-- The lane's original team lane, which a stream follows (R240). -/
def streamIdent (t : Team) (l : Lane) : Nat := 4 * t.perGang * l.gid + l.lid

/-- The address a .pwrite push of a lane stores to (R243). -/
def pwriteAddr (t : Team) (p : Port) (l : Lane) (pos : Nat) : Nat := (elemAddr p.base p.fmt (p.index (streamIdent t l) pos)).1

-- Names (R54 to R58)

/-- The alignment of an operand's register number (R56). -/
def alignOf (w : Nat) : Nat := if w = 2 then 2 else if 4 ≤ w then 4 else 1

def Opnd.align (o : Opnd) : Nat := if o.loose then 1 else alignOf o.words

/-- Are these registers acquired (R56)? -/
def Gang.acquired (g : Gang) (n w : Nat) : Bool := decide (n + w ≤ 64 * (1 + g.chunks))

/-- Is the name legal as a source of this width (R54, R56, R58, R107, R33)? -/
def srcOk (v : View) (allowQ : Bool) (o : Opnd) : Bool :=
  match o.name with
  | .g n => n % o.align == 0 && v.gang.acquired n o.words
  | .q _ => allowQ && o.words == 1
  | .w n => decide (n ≤ v.iss.slot) && decide (o.words ≤ 2) &&
      ((v.iss.window[v.iss.slot - n]?).map (·.has)).getD false
  | .k n => n % o.align == 0 && decide (n + o.words ≤ v.iss.lits.length)
  | .c n => n % o.align == 0 && decide (n + o.words ≤ 64)
  | .sp _ => o.words == 1
  | .bad _ => false

/-- Is the name legal as a destination of this width (R54, R56)? -/
def dstOk (v : View) (allowQ : Bool) (d : Dst) : Bool :=
  match d.name with
  | .g n => n % alignOf d.words == 0 && v.gang.acquired n d.words
  | .q _ => allowQ && d.words == 1
  | .c n => n % alignOf d.words == 0 && decide (n + d.words ≤ 64)
  | _ => false

/-- Uniform over the gang: c and k registers and the uniform specials (R55, R57). -/
def uniform : Name → Bool
  | .c _ | .k _ => true
  | .sp x => x == .zero || x == .one || x == .tid || x == .bid || x == .clk
  | _ => false

def isC : Name → Bool
  | .c _ => true
  | _ => false

/-- What an instruction names, for the checks of stage 3 that all instructions share. -/
structure Front where
  srcs : List Opnd := []
  dst : Option Dst := none
  /-- the destination is read as well (R115, R123, R165) -/
  readsDst : Bool := false
  /-- predicates read, by number (R111) -/
  psrc : List Nat := []
  /-- never executes once per gang, so that a c destination is illegal (R109, R160) -/
  perLane : Bool := false
  /-- the entry allows a c destination with sources that are not uniform (R57) -/
  cOk : Bool := false
  /-- ports may be named (R199, R244), and as the destination -/
  allowQ : Bool := true
  dstQ : Bool := true
  /-- how many elements each lane pops from a ring port that it names (R301) -/
  pops : Nat := 1
  /-- the fst of each lane is read -/
  readsFst : Bool := false
  /-- system registers read (R378), by number -/
  srs : List Nat := []

/-- Does the instruction execute once per gang (R57)? -/
def Front.once (f : Front) (nwb : Bool) : Bool :=
  match f.dst with
  | none => false
  | some d => !nwb && !f.perLane && isC d.name && (f.cOk || f.srcs.all (fun o => uniform o.name))

/-- The fault of naming a port (R238, R244, R248): its cause and address, if the naming is illegal. `src` says in which
direction the instruction names it. -/
def portFault (v : View) (p : Nat) (src : Bool) : Option (Cause × DWord) :=
  let b := v.iss.ports.getD p Port.unbound
  match b.st with
  | .unbound => some (.illopnd, 0)
  | .pending => some (.illopnd, 0)
  | .failed => some ((b.fault.getD .illopnd), b.faddr)
  | .bound =>
    if b.isRead != src then some (.illopnd, 0)
    else if b.isRing && v.iss.group.any (fun i => (v.gang.lane i).granted.any (fun q => q.1 == p && !q.2)) then
      some (.illopnd, 0)
    else none

/-- A fault at this instruction (R62): KIND 0, the clause, slot and word of the instruction, the lowest lane of the group. -/
def View.fault (v : View) (c : Cause) : FaultInfo :=
  let i := v.iss.group.headD 0
  { laneFault v.team v.g i c 0 0 with
    pc := v.iss.pc, slot := v.iss.slot, insn := v.word }

/-- A port's fault at this instruction: KIND 2 with the port and the position (R238, R253). -/
def View.portFaultInfo (v : View) (p : Nat) (c : Cause) (addr : DWord) (lane : Nat) (pos : Word) : FaultInfo :=
  let l := v.gang.lane lane
  { v.fault c with kind := 2, port := some p, addr := addr, lane := lane, lid := l.lid, qid := l.qid, gid := l.gid, spos := pos }

/-- The ports that an instruction names as sources, and as its destination. -/
def Front.srcPorts (f : Front) : List Nat :=
  (f.srcs.filterMap (fun o => match o.name with | .q n => some n | _ => none)).dedup
def Front.dstPort (f : Front) : Option Nat :=
  match f.dst with
  | some d => (match d.name with | .q n => some n | _ => none)
  | none => none

/-- Operand names (R54 to R58), the c destination rule (R57) and the port rules (R244): the first part of stage 3. -/
def nameFault (v : View) (c : Common) (f : Front) : Option FaultInfo :=
  let dOk := match f.dst with
    | none => true
    | some d => c.nwb || (dstOk v (f.allowQ && f.dstQ && !f.readsDst) d && !(isC d.name && f.perLane) &&
        (!isC d.name || (f.cOk && f.srcPorts.isEmpty) || f.srcs.all (fun o => uniform o.name)))
  if !(f.srcs.all (srcOk v f.allowQ) && dOk) then some (v.fault .illopnd)
  else
    let bad := (f.srcPorts.map (fun p => (p, true))) ++ (match f.dstPort with | some p => [(p, false)] | none => [])
    bad.findSome? (fun p => (portFault v p.1 p.2).map (fun x => v.portFaultInfo p.1 x.1 x.2 (v.iss.group.headD 0) 0))

/-- Readiness keys that a source reads (R77). -/
def srcKeys (o : Opnd) : List Nat :=
  match o.name with
  | .g n => (List.range o.words).map (fun i => keyG (n + i))
  | .c n => (List.range o.words).map (fun i => keyC (n + i))
  | _ => []

/-- Is a window source read before its result is readable (R77)? -/
def windowLate (v : View) (o : Opnd) : Bool :=
  match o.name with
  | .w n => ((v.iss.window[v.iss.slot - n]?).map (fun w => decide (v.t < w.ready))).getD false
  | _ => false

def isFst : Name → Bool
  | .sp x => x == .fst
  | _ => false

/-- TIMING (R77): a register, predicate, window slot or fst read before its pending result is readable. -/
def timingLate (v : View) (c : Common) (f : Front) : Bool :=
  let gp := match c.guard with
    | .always => []
    | .pred n _ => [n]
  let keys := f.srcs.flatMap srcKeys ++ (gp ++ f.psrc).filterMap (fun p => if p < 96 then some (keyP p) else none) ++
    (if f.readsDst then (f.dst.map Dst.keys).getD [] else []) ++ f.srs.map keyS
  keys.any (fun k => decide (v.t < v.gang.readyAt k)) || f.srcs.any (windowLate v) ||
    ((f.readsFst || f.srcs.any (fun o => isFst o.name)) &&
      v.iss.group.any (fun i => decide (v.t < (v.gang.lane i).fready)))

/-- Fetch `n` stored bytes, or a nibble when `n` is 0, as a LOAD would: the bits, or the condition met (R239, R250). -/
def fetchStored (s : State) (t : Team) (core : Nat) (x : Nat × Bool) (n : Nat) : State × Except (Cause × Nat) Nat :=
  let r := fetchBytes s t (.core core) x.1 .read false (max 1 n)
  match r.2 with
  | .error c => (r.1, .error c)
  | .ok bs =>
    let v := ofBytes (bs.map (·.1))
    if bs.any (·.2) then (r.1, .error (.poison, x.1))
    else (r.1, .ok (if n = 0 then (if x.2 then v / 16 else v % 16) else v))

/-- The element that a position delivers, fetched with its index where there is one (R240, R241): its value or the
condition met, and the addresses it came from. -/
def fetchElem (s : State) (t : Team) (core : Nat) (l : Lane) (b : Port) (pos : Nat) :
    State × Except (Cause × Nat) Word × List DWord :=
  let deliver := fun (s : State) (x : Nat × Bool) (as : List DWord) =>
    let r := fetchStored s t core x (elemBytes b.fmt)
    (r.1, r.2.map (popConv b.fmt), as ++ [BitVec.ofNat 64 x.1])
  let e := b.index (streamIdent t l) pos
  if b.mode = 2 then
    let i := elemAddr b.base 0 e
    let r := fetchStored s t core i 4
    match r.2 with
    | .error c => (r.1, .error c, [BitVec.ofNat 64 i.1])
    | .ok x =>
      let v := if fld b.desc 12 12 = 1 then unsext 64 (sext 32 x) else x
      deliver r.1 (elemAddr (fld b.desc 479 416) b.fmt v) [BitVec.ofNat 64 i.1]
  else deliver s (elemAddr b.base b.fmt e) []

/-- PREFETCH of one element of a lane (R250): the value, or the fault held for it (R253). -/
def prefetchLane (s : State) (t : Team) (core g i p pos : Nat) (b : Port) : State :=
  let r := fetchElem s t core ((t.gang g).lane i) b pos
  let e : Pre := match r.2.1 with
    | .ok x => { port := p, pos := pos, val := x, fault := none, addrs := r.2.2 }
    | .error c => { port := p, pos := pos, val := 0, fault := some c.1, addrs := r.2.2 ++ [BitVec.ofNat 64 c.2] }
  modLane r.1 t.uid g i (fun l => { l with pre := e :: l.pre })

def Lane.hasPre (l : Lane) (p pos : Nat) : Bool := l.pre.any (fun e => e.port == p && e.pos == pos)

/-- An element that a lane pops although no PREFETCH stands for it, after an SPOS.set in the same clause, is prefetched
now (R250, R259). -/
def ensurePre (s : State) (v : View) (ports : List Nat) : State :=
  ports.foldl (fun s p =>
    let b := v.iss.ports.getD p Port.unbound
    if b.isRing then s
    else v.active.foldl (fun s i =>
      let l := (findLane s v.iss.team v.g i).getD Lane.absent
      let pos := (tget 0 l.pos p).toNat
      if b.total ≤ pos ∨ l.hasPre p pos then s else prefetchLane s v.team v.core v.g i p pos b) s) s

/-- The held fault of an element that an active lane pops (R253): the lowest lane's, at the element's own stream position. -/
def popFault (s : State) (v : View) (f : Front) : Option FaultInfo :=
  let s := ensurePre s v f.srcPorts
  v.active.findSome? (fun i =>
    f.srcPorts.findSome? (fun p =>
      let b := v.iss.ports.getD p Port.unbound
      let l := (findLane s v.iss.team v.g i).getD Lane.absent
      let pos := tget 0 l.pos p
      if b.isRing then
        if l.helper then none
        else (((l.claims.filter (fun c => c.port == p)).take f.pops).mapIdx (fun j c => (j, c))).findSome? (fun x =>
          (x.2.val.bind (·.2)).map (fun a => v.portFaultInfo p .poison a i (pos + BitVec.ofNat 32 x.1)))
      else (l.pre.find? (fun e => e.port == p && e.pos == pos.toNat)).bind (fun e =>
        e.fault.map (fun c => v.portFaultInfo p c (e.addrs.getLastD 0) i pos))))

/-- ADDR, and PROT of R181, of a .pwrite push by an active non-helper lane (R253), judged at the lane's position at issue, also while an
earlier flag-tracked push to the port is still out (log entry 122). -/
def pushFault (s : State) (v : View) (f : Front) : Option FaultInfo :=
  match f.dstPort with
  | none => none
  | some p =>
    let b := v.iss.ports.getD p Port.unbound
    if b.mode ≠ 1 then none else
    v.acting.findSome? (fun i =>
      let l := v.gang.lane i
      let pos := tget 0 l.pos p
      if b.total ≤ pos.toNat then none
      else
        let a := pwriteAddr v.team b l pos.toNat
        (issueFault s a).map (fun c => { v.portFaultInfo p c (BitVec.ofNat 64 a) i pos with einfo := 1 }))

-- Reading

/-- A value, a predicate change and the fst bits that one lane's execution gives. -/
structure LaneOut where
  regs : List Word := []
  preds : List (Nat × Bool) := []
  fst : Flags := 0
  clr : Flags := 0
  /-- the instruction writes fst in this lane (R136) -/
  setsFst : Bool := false
  /-- an indirect register write (R180) -/
  ind : Option (Nat × Word) := none

/-- The operand values of one lane: the words of each source in order, the destination's old words, and the lane. -/
structure LaneIn where
  vals : List (List Word)
  old : List Word
  lane : Lane

/-- The 32-bit value of source `i`. -/
def LaneIn.w (x : LaneIn) (i : Nat) : Word := (x.vals.getD i []).getD 0 0
/-- The 64-bit value of source `i` (R4). -/
def LaneIn.d (x : LaneIn) (i : Nat) : DWord := pair ((x.vals.getD i []).getD 0 0) ((x.vals.getD i []).getD 1 0)

/-- The specials of R55 in a lane. -/
def special (v : View) (i : Nat) : Special → Word
  | .zero => 0
  | .one => 1
  | .lid => BitVec.ofNat 32 (v.gang.lane i).lid
  | .qid => BitVec.ofNat 32 (v.gang.lane i).qid
  | .gid => BitVec.ofNat 32 (v.gang.lane i).gid
  | .tid => BitVec.ofNat 32 v.team.tid
  | .bid => BitVec.ofNat 32 v.team.band
  | .helper => if (v.gang.lane i).helper then 1 else 0
  | .phase => match v.gang.phase[i / 4]? with
    | some p => (p.shown v.t).setWidth 32
    | none => 0
  | .clk => BitVec.ofNat 32 v.t
  | .fst => (v.gang.lane i).fst.setWidth 32

/-- Src(L, x) of R40, for a port from the values popped by this instruction. The upper half of a 32-bit window result
named where 64 bits are expected is not stated: a free value (log entry 11). -/
def srcWords (fresh : Nat) (v : View) (pops : List ((Nat × Nat) × Word)) (i : Nat) (o : Opnd) : List Word :=
  match o.name with
  | .g n => (List.range o.words).map (fun j => (v.gang.lane i).reg (n + j))
  | .q n => [((pops.find? (fun p => p.1 == (n, i))).map (·.2)).getD 0]
  | .w n => match v.iss.window[v.iss.slot - n]? with
    | none => [0]
    | some w =>
      let x := tget 0 w.vals i
      if o.words = 1 then [lo32 x] else [lo32 x, if w.wide then hi32 x else Config.freeWord (freeIdx fresh (16 * i + n))]
  | .k n => (List.range o.words).map (fun j => v.iss.lits.getD (n + j) 0)
  | .c n => (List.range o.words).map (fun j => v.gang.creg (n + j))
  | .sp x => [special v i x]
  | .bad _ => [0]

/-- The words that the destination holds in a lane (R59). A stream port holds no value: such a slot reads 0 in a lane whose
guard was false (log entry 94). -/
def oldWords (v : View) (i : Nat) (d : Dst) : List Word :=
  match d.name with
  | .g n => (List.range d.words).map (fun j => (v.gang.lane i).reg (n + j))
  | .c n => (List.range d.words).map (fun j => v.gang.creg (n + j))
  | _ => []

/-- The lane's place after one pop: the value and the lane (R242). The marker in the queue is its POP (R250). -/
def popLane (b : Port) (p : Nat) (l : Lane) : Word × Lane :=
  let pos := tget 0 l.pos p
  let mark : LaneOp := { op := 0, kind := .pop p, last := true, acks := [], parked := none }
  let eos := fun (l : Lane) (e : Bool) => if b.eosp < 96 then l.setPred b.eosp e else l
  if b.isRing then
    if l.helper then (b.fillVal, l)
    else match (l.claims.find? (fun c => c.port == p)).map (·.val) with
      | some (some x) =>
        (x.1, eos { l with claims := l.claims.eraseP (fun c => c.port == p), pos := tput 0 l.pos p (pos + 1),
                           queue := l.queue ++ [mark] } false)
      | some none => (b.fillVal, eos { l with claims := l.claims.eraseP (fun c => c.port == p) } true)
      | none => (b.fillVal, eos l true)
  else if b.total ≤ pos.toNat then (b.fillVal, eos l true)
  else
    let x := ((l.pre.find? (fun e => e.port == p && e.pos == pos.toNat)).map (·.val)).getD 0
    (x, eos { l with pre := l.pre.filter (fun e => !(e.port == p && e.pos == pos.toNat)),
                     pos := tput 0 l.pos p (pos + 1), queue := l.queue ++ [mark] } false)

/-- Every pop of an instruction: once per active lane and port, whatever the number of operands (R242). -/
def popAll (s : State) (v : View) (ports : List Nat) : State × List ((Nat × Nat) × Word) :=
  ports.foldl (fun a p =>
    let b := v.iss.ports.getD p Port.unbound
    let r := v.active.foldl (fun (a : State × List ((Nat × Nat) × Word)) i =>
      match findLane a.1 v.iss.team v.g i with
      | none => a
      | some l =>
        let x := popLane b p l
        (modLane a.1 v.iss.team v.g i (fun _ => x.2), a.2 ++ [((p, i), x.1)])) a
    if b.eosp < 96 ∧ !v.active.isEmpty then
      (modGang r.1 v.iss.team v.g (fun g => g.setReady (inLanes [keyP b.eosp] v.active) (v.t + 2)), r.2) else r) (ensurePre s v ports, [])

/-- The position that SPOS reads in a cycle: pushes of results that are not there yet do not count (R243, R259). -/
def Lane.posAt (l : Lane) (p t : Nat) : Word :=
  tget 0 l.pos p - BitVec.ofNat 32 (l.late.filter (fun x => x.1 == p && decide (t < x.2))).length

/-- A push of a value by a lane (R243): the lane afterwards, with the fst bits of the conversion. The element is stored, and the
position rises, from cycle `ready` on; `insn` is the instruction's word. -/
def pushLane (t : Team) (b : Port) (p : Nat) (v : Word) (ready : Nat) (insn : DWord) (slot : Option (DWord × Nat)) (l : Lane) : Lane :=
  let pos := tget 0 l.pos p
  let eos := fun (l : Lane) (e : Bool) => if b.eosp < 96 then l.setPred b.eosp e else l
  let conv := pushConv b.fmt b.sat v
  if l.helper then l
  else if b.mode = 1 then
    if b.total ≤ pos.toNat then eos l true
    else
      let op : LaneOp := { op := 0, kind := .store (BitVec.ofNat 64 (pwriteAddr t b l pos.toNat)) conv.1 (some p), last := true,
                           acks := [], parked := none, ready := ready, insn := insn }
      eos { l with pos := tput 0 l.pos p (pos + 1), late := (p, ready) :: l.late.take 15, queue := l.queue ++ [op], fst := l.fst ||| conv.2 } false
  else match slot with
    | none => l
    | some (ring, k) =>
      let op : LaneOp := { op := 0, kind := .rpush ring k conv.1, last := true, acks := [], parked := none, ready := ready,
                           insn := insn }
      eos { l with pos := tput 0 l.pos p (pos + 1), late := (p, ready) :: l.late.take 15, queue := l.queue ++ [op], filled := l.filled ++ [(p, ring, k)],
                   fst := l.fst ||| conv.2 } false

/-- Push with the next slot reserved for the lane, if the port is a ring. -/
def pushNext (t : Team) (b : Port) (p : Nat) (v : Word) (ready : Nat) (insn : DWord) (l : Lane) : Lane :=
  let slot := (l.slots.find? (fun x => x.1 == p)).map (·.2)
  pushLane t b p v ready insn slot { l with slots := if b.mode = 4 ∧ !l.helper then l.slots.eraseP (fun x => x.1 == p) else l.slots }

/-- Write reserved slots with FILL, converted as a push of FILL would be (R249). -/
def fillOps (ports : List Port) (slots : List (Nat × DWord × Nat)) : List LaneOp :=
  slots.map (fun x =>
    let b := ports.getD x.1 Port.unbound
    { op := 0, kind := .rpush x.2.1 x.2.2 (pushConv b.fmt b.sat b.fillVal).1, last := true, acks := [], parked := none })

/-- Reserved slots that a clause leaves unused are written at once with FILL (R249). -/
def fillSlots (ports : List Port) (l : Lane) : Lane :=
  { l with slots := [], granted := [], queue := l.queue ++ fillOps ports l.slots }

/-- What a lane keeps of a port is dropped when the port is freed or bound anew (R254); slots reserved are written. -/
def freeLanePort (ports : List Port) (p : Nat) (l : Lane) : Lane :=
  { l with pos := tput 0 l.pos p 0, late := l.late.filter (fun e => e.1 != p), pre := l.pre.filter (fun e => e.port != p), claims := l.claims.filter (fun e => e.port != p),
           granted := l.granted.filter (fun e => e.1 != p), filled := l.filled.filter (fun e => e.1 != p),
           slots := l.slots.filter (fun e => e.1 != p),
           queue := l.queue ++ fillOps ports (l.slots.filter (fun e => e.1 == p)) }

/-- The clause's SBINDs replace their bindings: each port is pending until its BIND (R257). -/
def Gang.bindPorts (g : Gang) (l : List (Nat × DWord × Nat)) : Gang :=
  l.foldl (fun g x =>
    { g with ports := g.ports.set x.1 { Port.unbound with st := .pending, daddr := x.2.1, seq := x.2.2 },
             lanes := g.lanes.map (freeLanePort g.ports x.1) }) g

/-- The bay's clause ends, and its SBINDs come into force. -/
def endIssue (s : State) (v : View) (next : Nat) : State :=
  let l := ((bayOf s v.core v.bay).issue.map (·.rebind)).getD []
  modBay (modGang s v.iss.team v.g (fun g => g.bindPorts l)) v.core v.bay (fun _ => { issue := none, next := next, done := v.t + 1 })

-- The end of a slot

/-- Window entry of an instruction without a register result (R58). -/
def WinSlot.none : WinSlot := { has := false, wide := false, vals := [], ready := 0 }

/-- The cycles up to the instruction's pass, at the point at which its clause issued (R423). -/
def View.passed (v : View) (s : State) : State := passAt s v.iss.point (v.t - s.cycle)

/-- The cycle from which every fixed-latency result that the group's lanes have pending is readable: in the window, in registers and
predicates, in fst (R377). -/
def View.settled (v : View) : Nat :=
  let lanes := v.iss.group.map (fun i => (v.gang.lane i).fready)
  let regs := (v.gang.ready.filter (fun e => decide (2000 ≤ e.1 / 64) || v.iss.group.contains (e.1 % 64))).map (·.2)
  ((v.iss.window.map (·.ready)) ++ lanes ++ regs).foldl max v.t

/-- The instruction has issued: the next one may issue in the next cycle, or one later at half rate (R38, R76). After the
last slot the clause ends: its lanes stand at the next clause, their last issue is this cycle, and what the clause left
of its ports is settled (R43, R70, R249). -/
def afterSlot (s : State) (v : View) (half : Bool) (w : WinSlot) : State :=
  let s := v.passed { s with fresh := s.fresh + 1 }
  let next := v.t + (if half then 2 else 1)
  if v.iss.slot < v.iss.ni then
    modBay s v.core v.bay (fun b =>
      { issue := b.issue.map (fun i => { i with slot := i.slot + 1, window := i.window ++ [w] }), next := next, done := v.t + 1 })
  else
    let size := 8 * (2 + v.iss.ni + (v.iss.lits.length / 2))
    endIssue (modGang s v.iss.team v.g (fun g =>
      { g with lanes := (List.range g.lanes.length).map (fun i =>
          let l := g.lane i
          if v.iss.group.contains i then
            fillSlots v.iss.ports { l with pc := v.iss.pc + BitVec.ofNat 64 size, lastIssue := v.t, resume := 0 }
          else l) })) v next

/-- The instruction traps: earlier slots stand, the clause stops, and the lanes of the group meet the fault's fate (R62,
R249, R377). Trap entry waits for the clause's pending results. -/
def trapSlot (s : State) (v : View) (info : FaultInfo) : State :=
  let free := s.fresh
  let s := v.passed { s with fresh := s.fresh + 1 }
  let s := endIssue (modGang s v.iss.team v.g (fun g =>
    { g with lanes := (List.range g.lanes.length).map (fun i =>
        if v.iss.group.contains i then fillSlots v.iss.ports { g.lane i with lastIssue := v.t } else g.lane i) })) v (v.settled + 1)
  takeTrap s v.iss.team v.g v.iss.group info v.iss.pc v.iss.slot (windowOf free v.iss v.iss.slot)

/-- A port whose descriptor or ring header met a page that is not resident binds again once the gang is resumed. -/
def Gang.retryBind (g : Gang) (p i : Nat) : Gang :=
  let b := g.ports.getD p Port.unbound
  if b.st = .failed ∧ b.fault = some .residency then
    { g with ports := g.ports.set p { b with st := .pending, fault := none },
             lanes := g.lanes.modify i (fun l => { l with
               queue := l.queue ++ [{ op := 0, kind := .bind p b.daddr b.seq, last := true, acks := [], parked := some b.faddr.toNat }] }) }
  else g

/-- A pop meets a page that is not resident: the gang parks, and its lanes come back to this slot (R253, R375). -/
def parkSlot (s : State) (v : View) (info : FaultInfo) : State :=
  let free := s.fresh
  let s := endIssue { s with fresh := s.fresh + 1 } v (v.t + 1)
  let s := modGang s v.iss.team v.g (fun g =>
    let g := { g with
      parts := g.parts ++ [(lineOf v.team.ctx info.addr.toNat, false)]
      lanes := (List.range g.lanes.length).map (fun i =>
        let l := g.lane i
        if v.iss.group.contains i then
          let l := fillSlots v.iss.ports { l with lastIssue := v.t, resume := v.iss.slot, win := windowOf free v.iss v.iss.slot i }
          match info.port with
          | some p => { l with pre := l.pre.filter (fun e => !(e.port == p && e.fault.isSome)) }
          | Option.none => l
        else l) }
    match info.port with
    | some p => g.retryBind p (v.iss.group.headD 0)
    | Option.none => g)
  parkGangOn s v.iss.team v.g info.addr.toNat

/-- A fault of stage 3 meets its fate: RESIDENCY parks the gang, every other class is taken as a trap (R62, R375). -/
def failSlot (s : State) (v : View) (info : FaultInfo) : Out :=
  .next (if info.cause = .residency then parkSlot s v info else trapSlot s v info)

/-- Stage 3 of R62 up to the effect, and the effect `k` when every check passes: operand names, the instruction's own
checks, TIMING, FLAGOVF, then the faults that ports hold (R253). -/
def issueChecks (s : State) (c : Common) (f : Front) (own : View → Option FaultInfo) (k : View → Out) : Out :=
  match issueView s c with
  | none => .next s
  | some v =>
    match nameFault v c f with
    | some i => failSlot s v i
    | none =>
      match own v with
      | some i => failSlot s v i
      | none =>
        if timingLate v c f then .next (trapSlot s v (v.fault .timing))
        else if c.setf ≠ 0 ∧ 63 ≤ v.gang.flag c.setf then .next (trapSlot s v (v.fault .flagovf))
        else match popFault s v f with
          | some i => failSlot s v i
          | none =>
            match pushFault s v f with
            | some i => .next (trapSlot s v i)
            | none => k v

/-- A latched word that is no instruction (R62): the clause's fetch has refused it before, so this never follows a
CLAUSE_ISSUE. -/
def undecoded (s : State) : State :=
  match issueView s { dist := 0, setf := 0, nwb := false, guard := .always } with
  | none => s
  | some v => trapSlot s v (v.fault .illinsn)

-- Fixed-latency instructions

/-- A fixed-latency instruction: what it names, its latency (R76), whether it issues at half rate, its own checks and what
it computes in one lane from the operand values of every lane of the group. -/
structure Alu where
  front : Front
  lat : Nat
  half : Bool := false
  /-- the window holds the first register of the result alone (R333) -/
  firstOnly : Bool := false
  own : View → Option FaultInfo := fun _ => none
  run : View → (Nat → LaneIn) → Nat → LaneOut

/-- Apply what one lane's execution gives (R40, R63): registers unless the result goes to the window alone or to a port,
predicates, fst. A validity predicate overwrites the EOSP of a port that the instruction popped, and a push's EOSP overwrites
it (log entry 99). -/
def applyLane (v : View) (c : Common) (d : Option Dst) (lat : Nat) (o : LaneOut) (l : Lane) : Lane :=
  let l := o.preds.foldl (fun l p => l.setPred p.1 p.2) l
  let l := match o.ind with
    | none => l
    | some p => l.setReg p.1 p.2
  let l := if o.setsFst then { l with fst := (l.fst &&& ~~~o.clr) ||| o.fst, fready := max l.fready (v.t + lat) } else l
  match d with
  | none => l
  | some d =>
    if c.nwb then l
    else match d.name with
      | .g n => l.setRegs n o.regs
      | .q p =>
        let l := pushNext v.team (v.iss.ports.getD p Port.unbound) p (o.regs.headD 0) (v.t + lat) v.word l
        if (elemFmt (v.iss.ports.getD p Port.unbound).fmt).isSome then { l with fready := max l.fready (v.t + lat) } else l
      | _ => l

/-- The window value of a list of result words; of a 128-bit result its first two words (log entry 95). -/
def winVal (first : Bool) (ws : List Word) : DWord := pair (ws.getD 0 0) (if first then 0 else ws.getD 1 0)

/-- The predicate that a push to a port writes (R243). -/
def eospKeys (v : View) (d : Dst) : List Nat :=
  match d.name with
  | .q p =>
    let e := (v.iss.ports.getD p Port.unbound).eosp
    if e < 96 ∧ !v.acting.isEmpty then [keyP e] else []
  | _ => []

/-- A fixed-latency instruction takes effect (R40, R57, R59, R63, R76). With no active lane it leaves no destination pending
(log entry 97). -/
def aluEffect (s : State) (c : Common) (a : Alu) (v : View) : State :=
  let r := popAll s v a.front.srcPorts
  let inp := fun i => ({ vals := a.front.srcs.map (srcWords s.fresh v r.2 i),
                         old := (a.front.dst.map (oldWords v i)).getD [], lane := v.gang.lane i } : LaneIn)
  let out := a.run v inp
  let once := a.front.once c.nwb
  let onceOut := out (v.active.headD (v.iss.group.headD 0))
  let s := modGang r.1 v.iss.team v.g (fun g =>
    let g := { g with lanes := (List.range g.lanes.length).map (fun i =>
      if v.active.contains i then
        applyLane v c a.front.dst a.lat (if once then { onceOut with regs := [] } else out i) (g.lane i)
      else g.lane i) }
    if v.active.isEmpty then g
    else
      let g := g.setReady (v.active.flatMap (fun i => (out i).preds.map (fun p => (keyP p.1, i)))) (v.t + a.lat)
      let g := g.setReady (v.active.filterMap (fun i => (out i).ind.map (fun p => (keyG p.1, i)))) (v.t + a.lat)
      match a.front.dst with
      | none => g
      | some d =>
        if c.nwb then g
        else
          let g := if once then (match d.name with | .c n => g.setCregs n onceOut.regs | _ => g) else g
          g.setReady (inLanes (d.keys ++ eospKeys v d) v.active) (v.t + a.lat))
  let w : WinSlot := match a.front.dst with
    | none => WinSlot.none
    | some d =>
      { has := true, wide := decide (1 < d.words) && !a.firstOnly, ready := v.t + a.lat,
        vals := v.iss.group.foldl (fun m i =>
          let x := if once ∧ !v.active.isEmpty then winVal a.firstOnly onceOut.regs
            else if v.active.contains i then winVal a.firstOnly (out i).regs
            else if c.nwb then 0 else winVal a.firstOnly (oldWords v i d)
          tput 0 m i x) [] }
  afterSlot s v a.half w

/-- A fixed-latency instruction (R40, R62). -/
def execAlu (c : Common) (a : Alu) (s : State) : Out :=
  issueChecks s c a.front a.own (fun v => .next (aluEffect s c a v))

-- Flag-tracked instructions

/-- Has an operation nothing to do (R64)? EVNT waits for its entries alone. -/
def idleOp (k : OpKind) (lanes : List Nat) : Bool :=
  lanes.isEmpty && (match k with
    | .evnt (_ :: _) => false
    | _ => true)

/-- Add a tracked operation to the gang and count its flag up (R64, R73). One with no lane completes in the following cycle,
before any other instruction of the gang issues or samples a flag: its flag counts up and down at once (R64). -/
def startOp (s : State) (v : View) (setf : Nat) (k : OpKind) (lanes also : List Nat) (slots : List (Nat × DWord × Nat) := []) : State :=
  if idleOp k lanes then { s with fresh := s.fresh + 1 }
  else modGang { s with fresh := s.fresh + 1 } v.iss.team v.g (fun g => Gang.addFlag
    { g with ops := g.ops ++ [{ id := s.fresh, flag := setf, kind := k, lanes := lanes, also := also, insn := v.word, slots := slots }] } setf)

/-- The ring slots of lanes for a result pushed to a port at completion, by lane identity: they leave with the operation (R243). -/
def takenSlots (v : View) (lanes : List Nat) : Option Nat → List (Nat × DWord × Nat)
  | some p => lanes.filterMap (fun i => ((v.gang.lane i).slots.find? (fun x => x.1 == p)).map (fun x =>
      ((v.gang.lane i).ident, x.2.1, x.2.2)))
  | none => []

/-- The lanes without them. -/
def takeSlots (s : State) (v : View) (lanes : List Nat) : Option Nat → State
  | some p => lanes.foldl (fun s i => modLane s v.iss.team v.g i (fun l =>
      { l with slots := l.slots.eraseP (fun x => x.1 == p) })) s
  | none => s

/-- A flag-tracked instruction whose results are computed at issue and written at completion (R73, R120, R158). Lanes are
named by identity, since quads may move before then. -/
def execValue (c : Common) (f : Front) (half : Bool) (own : View → Option FaultInfo)
    (run : View → (Nat → LaneIn) → Nat → LaneOut) (s : State) : Out :=
  issueChecks s c f own (fun v =>
    let r := popAll s v f.srcPorts
    let inp := fun i => ({ vals := f.srcs.map (srcWords s.fresh v r.2 i), old := (f.dst.map (oldWords v i)).getD [],
                           lane := v.gang.lane i } : LaneIn)
    let lanes := v.active
    -- once per gang: one result, with its fst bits in every active lane (R57, R136)
    let first := v.active.headD 0
    let res := lanes.foldl (fun m i =>
      let o := run v inp (if f.once c.nwb then first else i)
      tput ([], 0) m (v.gang.lane i).ident (if f.once c.nwb ∧ i ≠ first then [] else o.regs, o.fst)) []
    let d := f.dst.getD { name := .g 0, words := 1 }
    let s := startOp (takeSlots r.1 v lanes f.dstPort) v c.setf (.value d res (takenSlots v lanes f.dstPort)) (lanes.map (fun i => (v.gang.lane i).ident)) []
    .next (afterSlot s v half WinSlot.none))

/-- A 32-bit source. -/
def o1 (n : Name) : Opnd := { name := n, words := 1 }
/-- A 64-bit source. -/
def o2 (n : Name) : Opnd := { name := n, words := 2 }
/-- A source of 32 or 64 bits. -/
def oW (w64 : Bool) (n : Name) : Opnd := if w64 then o2 n else o1 n
def d1 (n : Name) : Option Dst := some { name := n, words := 1 }
def d2 (n : Name) : Option Dst := some { name := n, words := 2 }
def dW (w64 : Bool) (n : Name) : Option Dst := if w64 then d2 n else d1 n

/-- One 32-bit result. -/
def LaneOut.word (x : Word) : LaneOut := { regs := [x] }
/-- One 64-bit result in a pair (R4). -/
def LaneOut.dword (x : DWord) : LaneOut := { regs := [lo32 x, hi32 x] }
/-- One predicate result. -/
def LaneOut.pred (p : Nat) (b : Bool) : LaneOut := { preds := [(p, b)] }

/-- A lane-by-lane instruction: each lane computes from its own operands. -/
def perLane (f : LaneIn → LaneOut) : View → (Nat → LaneIn) → Nat → LaneOut := fun _ inp i => f (inp i)

end Sys2Proof.Machine
end

