-- ==== Sys2Proof/Machine/Waits.lean ====
section
/-! DEFINITION. What control instructions and the machine's steps share: acquiring at a core, the chunks of a bay (R79),
placing an engine command (R191, R263), and the parts of waits (R98, R103). -/

namespace Sys2Proof.Machine

/-- Append operations to a lane's queue. -/
def Lane.push (l : Lane) (ops : List LaneOp) : Lane := { l with queue := l.queue ++ ops }

/-- An operation that no flag counts. -/
def LaneOp.plain (k : MemKind) : LaneOp := { op := 0, kind := k, last := true, acks := [], parked := none }

/-- Have a lane's earlier operations all taken their steps, as its acquire needs (R190)? -/
def Lane.caughtUp (l : Lane) : Bool := l.queue.isEmpty

/-- The effect of ACQ S on prefetched elements: those fetched from a home in S go (R250). -/
def Lane.dropPre (d : Nat) (sc : Scope) (l : Lane) : Lane :=
  { l with pre := l.pre.filter (fun e => !e.addrs.any (fun a => inScope d sc (homeOf a.toNat))) }

/-- ACQ S at a core (R189, R250): its snapshot lines and its lanes' prefetched elements from homes in S go. A lane of a clause
in issue that then pops such an element has it prefetched anew at the pop (log entry 32). -/
def acquireCore (s : State) (core : Nat) (sc : Scope) : State :=
  let d := coreDie core
  let s := modCore s core (fun c => { c with mem := c.mem.acquire d sc })
  { s with teams := s.teams.map (fun t =>
      if t.core = some core then
        { t with gangs := (List.range t.gangs.length).map (fun g =>
            let x := t.gang g
            { x with lanes := x.lanes.map (Lane.dropPre d sc) }) }
      else t) }

-- What a lane's fetches see (R47)

/-- The lane acquires code of the homes in a scope, as of an era. -/
def Lane.acquireCode (era d : Nat) (sc : Scope) (l : Lane) : Lane :=
  { l with code := (codeHomes.filter (inScope d sc)).foldl (fun m h => tput 0 m (codeClass h) era) l.code }
/-- The fetches of a lane that is admitted see what stands then. -/
def Lane.bornCode (era : Nat) (l : Lane) : Lane :=
  { l with code := codeHomes.foldl (fun m h => tput 0 m (codeClass h) era) l.code }

/-- A write that every live lane's fetches see is kept no longer. -/
def dropCode (s : State) : State :=
  let lanes := s.teams.flatMap (fun t => t.gangs.flatMap (fun g => g.lanes.filter Lane.live))
  { s with codeLog := s.codeLog.filter (fun w => lanes.any (fun l => decide (tget 0 l.code (codeClass (homeOf w.key)) ≤ w.era))) }

/-- A lane acquires: its later fetches see the stores made before, at homes in the scope (R47). -/
def acquireLane (s : State) (core uid g i : Nat) (sc : Scope) : State :=
  dropCode (modLane { s with era := s.era + 1 } uid g i (Lane.acquireCode (s.era + 1) (coreDie core) sc))

/-- So do all the lanes of some gangs of a team, as they stand on a core again. -/
def acquireGangs (s : State) (core uid : Nat) (gs : List Nat) : State :=
  dropCode (gs.foldl (fun s' g => modGang s' uid g (fun x =>
    { x with lanes := x.lanes.map (Lane.acquireCode (s.era + 1) (coreDie core) .pkg) })) { s with era := s.era + 1 })

/-- A lane acquires at its core (R189, R250, R47). -/
def acquireAt (s : State) (core uid g i : Nat) (sc : Scope) : State := acquireLane (acquireCore s core sc) core uid g i sc

/-- The acquire of TLWAIT's team form: at the scope that each command numbered `v` or less named (R103). -/
def acquireCtx (s : State) (core uid g i e : Nat) (v : DWord) : State :=
  match findTeam s uid with
  | none => s
  | some t => ((t.ctxOf e).scopes.take v.toNat).dedup.foldl (fun s sc => acquireAt s core uid g i sc) s

-- Chunks (R78, R79)

/-- The gangs resident in a bay: team, gang number, gang (R11). A retired gang, and one saved by a park, is not resident. -/
def bayGangs (s : State) (core bay : Nat) : List (Nat × Nat × Gang) :=
  s.teams.flatMap (fun t =>
    if t.core = some core then
      (List.range t.gangs.length).filterMap (fun g =>
        if g % 4 = bay ∧ !(t.gang g).retired ∧ (t.gang g).parked < 2 then some (t.uid, g, t.gang g) else none)
    else [])

/-- The chunks that a bay's pool has free (R10). -/
def freeChunks (s : State) (core bay : Nat) : Nat := 48 - ((bayGangs s core bay).map (fun x => x.2.2.chunks)).sum

/-- The chunk count that a lane waits for. -/
def Lane.acqxWant (l : Lane) : Option Nat :=
  match l.st with
  | .blocked (.acqx n) => some n
  | _ => none

/-- The request of a gang that waits in ACQX: the smallest that its lanes make. -/
def Gang.acqxWant (g : Gang) : Option Nat :=
  (g.lanes.filterMap Lane.acqxWant).foldl (fun a n => some (match a with | none => n | some m => min m n)) none

/-- The gangs that wait for chunks in a bay. -/
def acqxWaiters (s : State) (core bay : Nat) : List (Nat × Nat × Gang) :=
  (bayGangs s core bay).filter (fun x => x.2.2.acqxWant.isSome)

/-- A newly acquired chunk reads as zero; a released one loses its contents (R78). -/
def Lane.clearRegs (l : Lane) (lo hi : Nat) : Lane := { l with regs := l.regs.filter (fun e => e.1 < lo || hi ≤ e.1) }

/-- The gang holds `n` chunks from now on; the chunks that change hands are cleared. -/
def Gang.setChunks (g : Gang) (n : Nat) : Gang :=
  let lo := 64 * (1 + min n g.chunks)
  let hi := 64 * (1 + max n g.chunks)
  { g with chunks := n, lanes := g.lanes.map (fun l => l.clearRegs lo hi) }

/-- Lanes whose ACQX the gang's chunks now satisfy continue. -/
def Gang.wakeAcqx (g : Gang) : Gang :=
  { g with lanes := g.lanes.map (fun l => match l.acqxWant with
      | some n => if n ≤ g.chunks then l.wake else l
      | none => l) }

/-- Does a bay grant a gang `n` chunks now: it fits, and no older gang of the bay waits (R79)? Age is the admission cycle to
the bay. -/
def chunksFit (s : State) (core bay uid g n : Nat) : Bool :=
  match findGang s uid g with
  | none => false
  | some x =>
    decide (n ≤ x.chunks + freeChunks s core bay) &&
      (acqxWaiters s core bay).all (fun w => (w.1 == uid && w.2.1 == g) || decide (x.admitted ≤ w.2.2.admitted))

-- Engine commands (R191, R263)

/-- Place a command in a context: it takes the next number, and each lane of `rel` performs an implicit release at its scope
in its queue (R191). -/
def placeCmd (s : State) (uid g e : Nat) (k : CmdKind) (sc : Scope) (op : Nat) (dst : Option Dst) (who : Nat) (status rel : List Nat)
    (late : Option Name := none) (insn : DWord := 0) : State :=
  match findTeam s uid with
  | none => s
  | some t =>
    let no := (t.ctxOf e).issued.toNat + 1
    let cmd : Cmd :=
      { no := no, kind := k, sc := sc, gang := g, op := op, dst := dst, lanes := status, who := who, st := .queued, res := [], rows := [],
        outbox := [], ring := 0, slot := none, pushed := [], rcd := 0, begun := 0, late := late, fault := none, parked := false, insn := insn }
    let s := modTeam s uid (fun t => { t with ectx := t.ectx.modify e (fun c =>
      { c with issued := c.issued + 1, scopes := c.scopes ++ [sc], queue := c.queue ++ [cmd] }) })
    rel.foldl (fun s i => modLane s uid g i (fun l =>
      l.push [{ op := op, kind := .cmdRel sc e no, last := false, acks := [], parked := none }])) s

/-- Change the command at the head of a context. -/
def modHead (s : State) (uid e : Nat) (f : Cmd → Cmd) : State :=
  modTeam s uid (fun t => { t with ectx := t.ectx.modify e (fun c => { c with queue := c.queue.modify 0 f }) })

/-- The command at the head of a context. -/
def headCmd (t : Team) (e : Nat) : Option Cmd := (t.ctxOf e).queue.head?

-- Ends of clauses

/-- Change every active lane. -/
def modActive (s : State) (v : View) (f : Nat → Lane → Lane) : State :=
  v.active.foldl (fun s i => modLane s v.iss.team v.g i (f i)) s

/-- The instruction ends, and its active lanes then change (R49). -/
def endWith (s : State) (v : View) (f : Nat → Lane → Lane) : State := modActive (afterSlot s v false WinSlot.none) v f

/-- Names that a 64-bit target, value or address operand may take (R92). -/
def targetName : Name → Bool
  | .g _ | .c _ | .k _ => true
  | _ => false

/-- ILLOPND unless every name is of those kinds. -/
def namesOwn (ns : List Name) (v : View) : Option FaultInfo :=
  if ns.all targetName then none else some (v.fault .illopnd)

/-- The value of a source in a lane, for instructions that pop nothing. -/
def View.src (v : View) (fresh i : Nat) (o : Opnd) : List Word := srcWords fresh v [] i o
def View.src1 (v : View) (fresh i : Nat) (n : Name) : Word := (v.src fresh i (o1 n)).headD 0
def View.src2 (v : View) (fresh i : Nat) (n : Name) : DWord :=
  let ws := v.src fresh i (o2 n)
  pair (ws.getD 0 0) (ws.getD 1 0)

/-- The first active lane that meets a condition takes a trap at this instruction. -/
def View.firstFault (v : View) (f : Nat → Option (Cause × Nat)) : Option FaultInfo :=
  v.active.findSome? (fun i => (f i).map (fun c =>
    let l := v.gang.lane i
    { v.fault c.1 with addr := BitVec.ofNat 64 c.2, lane := i, lid := l.lid, qid := l.qid, gid := l.gid }))

end Sys2Proof.Machine
end

