-- ==== Sys2Proof/Machine/Mem.lean ====
section
/-! DEFINITION. How memory instructions issue (spec/08_memory.md R181 to R210): addresses, the checks of R181 and R183, and
the operations they place in their lanes' queues. What those operations do is in Machine/Order.lean. -/

namespace Sys2Proof.Machine

/-- Bytes of an access type (R200). -/
def tyBytes : MemTy → Nat
  | .n8 | .s8 => 1
  | .n16 | .s16 => 2
  | .b32 => 4
  | .b64 => 8
  | .b128 => 16

/-- Registers that an access type takes. -/
def tyWords : MemTy → Nat
  | .b64 => 2
  | .b128 => 4
  | _ => 1

/-- The result of a load from its bytes (R202). -/
def loadWords (t : MemTy) (bs : List Byte) : List Word :=
  let x := ofBytes bs
  match t with
  | .s8 => [BitVec.ofInt 32 (sext 8 x)]
  | .s16 => [BitVec.ofInt 32 (sext 16 x)]
  | .b64 | .b128 => (List.range (tyWords t)).map (fun i => BitVec.ofNat 32 (x / 2 ^ (32 * i)))
  | _ => [BitVec.ofNat 32 x]

/-- The bytes of registers, low register first (R4). -/
def wordsBytes (ws : List Word) : List Byte := ws.flatMap (fun w => toBytes 4 w.toNat)

/-- The sources that form an address (R201): a 64-bit base, or a 32-bit one with c62 and c63. -/
def addrSrcs (base : Name) (a64 : Bool) : List Opnd := if a64 then [o2 base] else [o1 base, o2 (.c 62)]

/-- A lane's address (R201). -/
def View.addr (v : View) (fresh i : Nat) (base : Name) (a64 : Bool) (off : Int) : Nat :=
  if a64 then (v.src2 fresh i base + BitVec.ofInt 64 off).toNat
  else (v.src2 fresh i (.c 62) + (v.src1 fresh i base).setWidth 64 + BitVec.ofInt 64 off).toNat

/-- The base of .a64 is named as R92 allows. -/
def baseOwn (base : Name) (a64 : Bool) (v : View) : Option FaultInfo := if a64 then namesOwn [base] v else none

/-- Homes that an instruction's entry serves (R181). -/
inductive Serves
  | all | noHost | package
deriving DecidableEq, Repr

/-- The address faults that are detected at issue: ADDR, PROT of R181, and PROT for a home that the entry does not serve. -/
def servedFault (s : State) (k : Serves) (a : Nat) : Option Cause :=
  match issueFault s a with
  | some c => some c
  | none =>
    match k with
    | .all => none
    | .noHost => if homeOf a = 4 then some .prot else none
    | .package => if homeOf a < 4 then none else some .prot

/-- A trap on an access: EINFO holds its kind, 0 load, 1 store, 2 atomic, 3 fetch (R378). -/
def accessFault (f : Option FaultInfo) (acc : Nat) : Option FaultInfo := f.map (fun i => { i with einfo := BitVec.ofNat 32 acc })

/-- R183, then R181, over the lanes that make an access. -/
def addrFaults (v : View) (lanes : List Nat) (addr : Nat → Nat) (align : Nat) (bad : Nat → Option Cause) (acc : Nat) :
    Option FaultInfo :=
  let at_ := fun (i : Nat) (c : Cause) => some { v.fault c with
    addr := BitVec.ofNat 64 (addr i), lane := i, lid := (v.gang.lane i).lid, qid := (v.gang.lane i).qid,
    gid := (v.gang.lane i).gid }
  accessFault ((lanes.findSome? (fun i => if addr i % align ≠ 0 then at_ i .align else none)).orElse (fun _ =>
    lanes.findSome? (fun i => (bad (addr i)).bind (at_ i)))) acc

/-- R181, then R183, for the entries that list their checks in that order (R42). -/
def addrFaultsFirst (v : View) (lanes : List Nat) (addr : Nat → Nat) (align : Nat) (bad : Nat → Option Cause) (acc : Nat) :
    Option FaultInfo :=
  (addrFaults v lanes addr 1 bad acc).orElse (fun _ => addrFaults v lanes addr align (fun _ => none) acc)

/-- The lanes that act: one of them where the instruction executes once per gang (R57). -/
def View.actors (v : View) (f : Front) (helpers : Bool) : List Nat :=
  let ls := if helpers then v.active else v.acting
  if f.once false then ls.take 1 else ls

/-- A memory operation: its queue entries in each acting lane, the last of them ending the lane's part (R73, R187). -/
def queueOp (s : State) (v : View) (setf : Nat) (lanes also : List Nat) (ops : Nat → List MemKind) : State :=
  let s1 := startOp s v setf .mem (lanes.map (fun i => (v.gang.lane i).ident)) (also.map (fun i => (v.gang.lane i).ident))
  lanes.foldl (fun s2 i => modLane s2 v.iss.team v.g i (fun l =>
    let ks := ops i
    l.push ((List.range ks.length).map (fun j =>
      { op := s.fresh, kind := ks.getD j (.rel .core), last := j + 1 == ks.length, acks := [], parked := none,
        insn := v.word })))) s1

/-- The shape of a memory instruction: names and TIMING, then ALIGN and the address, then its operations are queued. -/
structure MemShape where
  front : Front
  own : View → Option FaultInfo := fun _ => none
  /-- helper lanes act as well -/
  helpers : Bool := false
  /-- the entry lists ADDR and PROT before ALIGN -/
  addrFirst : Bool := false
  addr : View → Nat → Nat
  align : Nat
  bad : View → Nat → Option Cause
  acc : Nat
  ops : View → Nat → List MemKind

def execMem (c : Common) (m : MemShape) (s : State) : Out :=
  let f := { m.front with allowQ := false }
  issueChecks s c f m.own (fun v =>
    let lanes := v.actors f m.helpers
    match (if m.addrFirst then addrFaultsFirst else addrFaults) v lanes (m.addr v) m.align (m.bad v) m.acc with
    | some i => .next (trapSlot s v i)
    | none =>
      let also := if f.once false then v.active.filter (fun i => !lanes.contains i) else []
      .next (afterSlot (queueOp s v c.setf lanes also (m.ops v)) v false WinSlot.none))

def dst0 : Dst := { name := .bad 511, words := 0 }

/-- R202. -/
def execLd (c : Common) (d base : Name) (off : Int) (t : MemTy) (a64 : Bool) (s : State) : Out :=
  let ds : Dst := { name := d, words := tyWords t }
  execMem c
    { front := { srcs := addrSrcs base a64, dst := some ds }, own := baseOwn base a64, helpers := true,
      addr := fun v i => v.addr s.fresh i base a64 (off * tyBytes t), align := tyBytes t,
      bad := fun _ => servedFault s .all, acc := 0,
      ops := fun v i => [.load (BitVec.ofNat 64 (v.addr s.fresh i base a64 (off * tyBytes t))) t ds] } s

/-- A lane's offset in its per-lane memory (R201), exactly. -/
def View.laneOff (v : View) (fresh i : Nat) (base : Name) (off : Int) : Int := (v.src1 fresh i base).toNat + off

/-- ALIGN and PROT of per-lane memory (R185, R201), over the lanes that make an access. -/
def laneFaults (v : View) (lanes : List Nat) (off : Nat → Int) (n acc : Nat) : Option FaultInfo :=
  let at_ := fun (i : Nat) (c : Cause) => some { v.fault c with
    lane := i, lid := (v.gang.lane i).lid, qid := (v.gang.lane i).qid, gid := (v.gang.lane i).gid }
  accessFault ((lanes.findSome? (fun i => if off i % n ≠ 0 then at_ i .align else none)).orElse (fun _ =>
    lanes.findSome? (fun i => if off i < 0 ∨ (v.team.ps : Int) < off i + n then at_ i .prot else none))) acc

/-- R202, R185. -/
def execLdp (c : Common) (d base : Name) (off : Int) (t : MemTy) (s : State) : Out :=
  let ds : Dst := { name := d, words := tyWords t }
  let f : Front := { srcs := [o1 base], dst := some ds, allowQ := false }
  issueChecks s c f (fun _ => none) (fun v =>
    let lanes := v.actors f true
    let o := fun i => v.laneOff s.fresh i base (off * tyBytes t)
    match laneFaults v lanes o (tyBytes t) 0 with
    | some i => .next (trapSlot s v i)
    | none => .next (afterSlot (queueOp s v c.setf lanes [] (fun i => [.laneLoad (o i).toNat t ds])) v false WinSlot.none))

/-- R203. -/
def execSt (c : Common) (base val : Name) (off : Int) (t : MemTy) (a64 : Bool) (s : State) : Out :=
  let vo : Opnd := { name := val, words := tyWords t }
  execMem c
    { front := { srcs := vo :: addrSrcs base a64 }, own := baseOwn base a64,
      addr := fun v i => v.addr s.fresh i base a64 (off * tyBytes t), align := tyBytes t,
      bad := fun _ => servedFault s .all, acc := 1,
      ops := fun v i => [.store (BitVec.ofNat 64 (v.addr s.fresh i base a64 (off * tyBytes t)))
        ((wordsBytes (v.src s.fresh i vo)).take (tyBytes t)) none] } s

/-- R203, R185. -/
def execStp (c : Common) (base val : Name) (off : Int) (t : MemTy) (s : State) : Out :=
  let vo : Opnd := { name := val, words := tyWords t }
  let f : Front := { srcs := [vo, o1 base], allowQ := false }
  issueChecks s c f (fun _ => none) (fun v =>
    let lanes := v.actors f false
    let o := fun i => v.laneOff s.fresh i base (off * tyBytes t)
    match laneFaults v lanes o (tyBytes t) 1 with
    | some i => .next (trapSlot s v i)
    | none => .next (afterSlot (queueOp s v c.setf lanes [] (fun i =>
        [.laneStore (o i).toNat ((wordsBytes (v.src s.fresh i vo)).take (tyBytes t))])) v false WinSlot.none))

/-- The queue entries of an atomic with its ordering modifier (R204). -/
def ordered (o : Ord) (sc : Scope) (k : MemKind) : List MemKind :=
  (if o = .rel ∨ o = .ar then [.rel sc] else []) ++ [k] ++ (if o = .acq ∨ o = .ar then [.acq sc] else [])

/-- The shape of the atomic-field instructions: an address without offset. -/
def atomShape (s : State) (base : Name) (a64 : Bool) (srcs : List Opnd) (d : Option Dst) (align : Nat) (k : Serves)
    (ops : View → Nat → List MemKind) : MemShape :=
  { front := { srcs := srcs ++ addrSrcs base a64, dst := d }, own := baseOwn base a64,
    addr := fun v i => v.addr s.fresh i base a64 0, align := align, bad := fun _ => servedFault s k, acc := 2, ops := ops }

/-- R204. -/
def execAtom (c : Common) (d base val : Name) (op : AtomOp) (w64 : Bool) (o : Ord) (sc : Scope) (a64 : Bool) (s : State) :
    Out :=
  let ds : Dst := { name := d, words := if w64 then 2 else 1 }
  execMem c (atomShape s base a64 [oW w64 val] (some ds) (if w64 then 8 else 4) .noHost (fun v i =>
    ordered o sc (.atom (BitVec.ofNat 64 (v.addr s.fresh i base a64 0)) op w64
      (if w64 then v.src2 s.fresh i val else (v.src1 s.fresh i val).setWidth 64) ds))) s

/-- R205. -/
def execAcas (c : Common) (d base val : Name) (w64 : Bool) (o : Ord) (sc : Scope) (a64 : Bool) (s : State) : Out :=
  let ds : Dst := { name := d, words := if w64 then 2 else 1 }
  let vo : Opnd := { name := val, words := if w64 then 4 else 2 }
  execMem c (atomShape s base a64 [vo] (some ds) (if w64 then 8 else 4) .noHost (fun v i =>
    let ws := v.src s.fresh i vo
    let cmp := if w64 then pair (ws.getD 0 0) (ws.getD 1 0) else (ws.getD 0 0).setWidth 64
    let new := if w64 then pair (ws.getD 2 0) (ws.getD 3 0) else (ws.getD 1 0).setWidth 64
    ordered o sc (.acas (BitVec.ofNat 64 (v.addr s.fresh i base a64 0)) w64 cmp new ds))) s

/-- R206; a BF16 value is widened (R137). -/
def execXsum (c : Common) (base val : Name) (bf16 : Bool) (o : Ord) (sc : Scope) (a64 : Bool) (s : State) : Out :=
  execMem c (atomShape s base a64 [o1 val] none 64 .package (fun v i =>
    let x := v.src1 s.fresh i val
    ordered o sc (.xsum (BitVec.ofNat 64 (v.addr s.fresh i base a64 0)) (if bf16 then x <<< 16 else x)))) s

/-- R207. -/
def execXrd (c : Common) (d base : Name) (pair clr : Bool) (o : Ord) (sc : Scope) (a64 : Bool) (s : State) : Out :=
  let ds : Dst := { name := d, words := if pair then 2 else 1 }
  execMem c (atomShape s base a64 [] (some ds) 64 .package (fun v i =>
    ordered o sc (.xrd (BitVec.ofNat 64 (v.addr s.fresh i base a64 0)) pair clr ds))) s

/-- R207. Its scope has no modifier to act for: XCLR orders nothing. -/
def execXclr (c : Common) (base : Name) (_sc : Scope) (a64 : Bool) (s : State) : Out :=
  execMem c (atomShape s base a64 [] none 64 .package (fun v i =>
    [.xclr (BitVec.ofNat 64 (v.addr s.fresh i base a64 0))])) s

/-- R208: helper lanes read as well. -/
def execLdv (c : Common) (d base : Name) (off : Int) (a64 : Bool) (s : State) : Out :=
  let ds : Dst := { name := d, words := 2 }
  execMem c
    { front := { srcs := addrSrcs base a64, dst := some ds }, own := baseOwn base a64, helpers := true,
      addr := fun v i => v.addr s.fresh i base a64 (off * 4), align := 4, bad := fun _ => servedFault s .package, acc := 0,
      ops := fun v i => [.ldv (BitVec.ofNat 64 (v.addr s.fresh i base a64 (off * 4))) ds] } s

/-- R209. -/
def execCms (c : Common) (d base : Name) (pd : Nat) (sc : Scope) (a64 : Bool) (s : State) : Out :=
  let ds : Dst := { name := d, words := 1 }
  execMem c (atomShape s base a64 [] (some ds) 128 .package (fun v i =>
    [.rel sc, .cms (BitVec.ofNat 64 (v.addr s.fresh i base a64 0)) pd ds])) s

/-- FENCE, REL and ACQ: each active lane, helper lanes included, places its steps (R192, R210). -/
def execOrder (c : Common) (ks : List MemKind) (s : State) : Out :=
  issueChecks s c {} (fun _ => none) (fun v =>
    .next (afterSlot (queueOp s v c.setf v.active [] (fun _ => ks)) v false WinSlot.none))

/-- R210. -/
def execFence (c : Common) (sc : Scope) (s : State) : Out := execOrder c [.rel sc, .acq sc] s
/-- R210. -/
def execRel (c : Common) (sc : Scope) (s : State) : Out := execOrder c [.rel sc] s
/-- R210. -/
def execAcq (c : Common) (sc : Scope) (s : State) : Out := execOrder c [.acq sc] s

end Sys2Proof.Machine
end

