-- ==== Sys2Proof/Machine/Order.lean ====
section
/-! DEFINITION. The steps of the ordering machine (spec/08_memory.md R187 to R198): STORE, FILL, EVICT, LOAD, DRAIN, the
arrival of an acknowledgement, REL, ACQ and ATOMIC. A step that is not enabled leaves the state as it is. -/

namespace Sys2Proof.Machine

-- Lane queues (R190)

/-- The bytes that a queue entry touches in the shared address space. -/
def MemKind.range : MemKind → Option (Nat × Nat)
  | .load a t _ => some (a.toNat, tyBytes t)
  | .store a bs _ => some (a.toNat, bs.length)
  | .sld a n _ _ => some (a.toNat, n)
  | .bind _ a _ => some (a.toNat, 64)
  | .lnch a => some (a.toNat, 128)
  | _ => none

/-- Do two entries touch a common byte? -/
def overlap (x y : MemKind) : Bool :=
  match x.range, y.range with
  | some (a, n), some (b, m) => decide (a < b + m) && decide (b < a + n)
  | _, _ => false

/-- A load from a far home of an agent on die `d` (R188). -/
def farLoad (d : Nat) : MemKind → Bool
  | .load a _ _ => !nearHome d (homeOf a.toNat)
  | _ => false

/-- The operations before which every earlier load must have bound: REL, ACQ, FENCE and the atomics (R190). -/
def bindsAll : MemKind → Bool
  | .rel _ | .acq _ | .cmdRel _ _ _ | .lnchRel | .sdrain _ _ _ | .atom _ _ _ _ _ | .acas _ _ _ _ _ | .xsum _ _
  | .xrd _ _ _ _ | .xclr _ | .ldv _ _ | .cms _ _ _ | .qring _ _ _ _ _ | .qrfree _ _ => true
  | _ => false

/-- May the entry at `idx` take its step now (R190)? A part that waits for residency holds later ones back like any other, so
that what follows a REPLAY could have come about without the park (R387). -/
def takeable (d : Nat) (q : List LaneOp) (idx : Nat) : Bool :=
  match q[idx]? with
  | none => false
  | some e => e.parked.isNone && (q.take idx).all (fun j => farLoad d j.kind && !bindsAll e.kind && !overlap j.kind e.kind)

/-- What a step on a lane's queue works with. -/
structure Part where
  uid : Nat
  g : Nat
  i : Nat
  idx : Nat
  core : Nat
  team : Team
  lane : Lane
  op : LaneOp

/-- The entry at `idx` of a lane's queue, if its team stands on a core and the entry may take its step. -/
def partOf (s : State) (uid g i idx : Nat) : Option Part :=
  match findTeam s uid with
  | none => none
  | some t =>
    match t.core with
    | none => none
    | some core =>
      let l := (t.gang g).lane i
      match l.queue[idx]? with
      | none => none
      | some e =>
        if takeable (coreDie core) l.queue idx ∧ e.ready ≤ s.cycle then
          some { uid := uid, g := g, i := i, idx := idx, core := core, team := t, lane := l, op := e }
        else none

def Part.agent (p : Part) : Agent := .core p.core
def Part.die (p : Part) : Nat := coreDie p.core
def Part.ctx (p : Part) : Nat := p.team.ctx

/-- The entry leaves the queue; the lane's part of the operation is done if it was the last (R73). -/
def donePart (s : State) (p : Part) : State :=
  let s := modLane s p.uid p.g p.i (fun l => { l with queue := l.queue.eraseIdx p.idx })
  if p.op.last ∧ p.op.op ≠ 0 then finishPart s p.uid p.g p.op.op p.lane.ident else s

/-- Change the entry in place. -/
def setPart (s : State) (p : Part) (f : LaneOp → LaneOp) : State :=
  modLane s p.uid p.g p.i (fun l => { l with queue := l.queue.modify p.idx f })

/-- The lane's part of an operation faults: it writes nothing, its remaining entries go, and its flag counts it down
(R374). -/
def dropPart (s : State) (p : Part) : State :=
  if p.op.op = 0 then modLane s p.uid p.g p.i (fun l => { l with queue := l.queue.eraseIdx p.idx })
  else finishPart (modLane s p.uid p.g p.i (fun l => { l with queue := l.queue.filter (fun e => e.op != p.op.op) }))
    p.uid p.g p.op.op p.lane.ident

/-- A part meets a condition at its home (R374, R375): `acc` is 0 load, 1 store, 2 atomic. -/
def partFault (s : State) (p : Part) (c : Cause) (addr acc : Nat) : State :=
  if c = .residency then
    let s := setPart s p (fun e => { e with parked := some addr })
    parkGangOn (modGang s p.uid p.g (fun x => { x with parts := x.parts ++ [(lineOf p.ctx addr, false)] })) p.uid p.g addr
  else deferFault (dropPart s p) p.uid p.g p.i c addr acc p.op.insn

/-- A part consumes a poisoned byte (R386). -/
def partPoison (s : State) (p : Part) (addr : Nat) (kind : Nat) : State :=
  endTeam s p.uid { laneFault p.team p.g p.i .poison kind addr with insn := p.op.insn }

-- Homes

/-- Do the teams behind an agent hold a lease of a line's page (R352)? -/
def agentLeased (s : State) (a : Agent) (l : Line) : Bool :=
  match a with
  | .core n => s.teams.any (fun t => t.core == some n && t.ctx == l.ctx && leased s t.uid l.addr)
  | .ctx u _ => leased s u l.addr

/-- R189. -/
def execFill (a : Agent) (line : Line) (s : State) : Out :=
  if (agentSubscribed s a line ∧ homeOf line.addr ≠ 2 ∧ homeOf line.addr ≠ 3) ∨ ((agentMem s a).copy line).isSome then .next s
  else match locate s line.ctx line.addr .read (agentLeased s a line) with
    | .error _ => .next s
    | .ok loc => .next (fillLine s a line loc true)

/-- R189. -/
def execEvict (a : Agent) (line : Line) (s : State) : Out := .next (modAgent s a (fun m => m.dropCopy line))

/-- Per-lane memory (R185): the virtual address of byte `o` of a lane. -/
def laneAddr (t : Team) (l : Lane) (o : Nat) : Nat :=
  (t.pb + BitVec.ofNat 64 (l.gid * 32 * t.ps + o / 4 * 128 + l.lid * 4 + o % 4)).toNat

/-- A byte of per-lane memory: from L1 if a store of the team stands there, else from its home (R186) as the home stands now: L1 holds
no older clean copy of a private line (log entry 117). -/
def laneByte (s : State) (t : Team) (a : Nat) : Except Cause (Byte × Bool) :=
  match tget none t.l1 a with
  | some b => .ok (b, false)
  | none =>
    match locateFor s t a .read with
    | .error c => .error c
    | .ok loc => .ok (rdByte s loc.key, poisoned s loc.key)

/-- The bytes of a run of per-lane memory. -/
def laneBytes (s : State) (t : Team) (l : Lane) (o : Nat) : Nat → Except (Cause × Nat) (List (Byte × Bool))
  | 0 => .ok []
  | n + 1 =>
    match laneByte s t (laneAddr t l o) with
    | .error c => .error (c, laneAddr t l o)
    | .ok b =>
      match laneBytes s t l (o + 1) n with
      | .error c => .error c
      | .ok r => .ok (b :: r)

/-- LD's part of a lane (R189, R202). -/
def loadPart (s : State) (p : Part) (addr : Nat) (t : MemTy) (d : Dst) : State :=
  match locateFor s p.team addr .read with
  | .error c => partFault s p c addr 0
  | .ok loc =>
    match viewBytes s p.agent p.ctx (lineOf p.ctx addr) (lineAddr loc.key) (addr % 128) (tyBytes t) with
    | none => s
    | some bs =>
      if bs.any (·.2) then partPoison s p addr 0
      else donePart (writeResult (markLeaf s loc false) p.uid p.g p.i p.op.op d (loadWords t (bs.map (·.1)))) p

/-- The pages of an access are marked (R372): A, and D for a write. -/
def markAt (s : State) (t : Team) (as : List Nat) (acc : Access) : State :=
  as.foldl (fun s a => match locateFor s t a acc with
    | .ok loc => markLeaf s loc (acc == .write)
    | .error _ => s) s

/-- LDP's part of a lane (R185, R186). -/
def laneLoadPart (s : State) (p : Part) (o : Nat) (t : MemTy) (d : Dst) : State :=
  match laneBytes s p.team p.lane o (tyBytes t) with
  | .error c => partFault s p c.1 c.2 0
  | .ok bs =>
    if bs.any (·.2) then partPoison s p (laneAddr p.team p.lane o) 0
    else donePart (writeResult (markAt s p.team [laneAddr p.team p.lane o] .read) p.uid p.g p.i p.op.op d
      (loadWords t (bs.map (·.1)))) p

/-- The record that a lane of LNCH or LREC has read. -/
def OpKind.note (ident : Nat) (x : LaneRec) : OpKind → OpKind
  | .lnch d recs => .lnch d (tput .wait recs ident x)
  | .lrec d recs => .lrec d (tput .wait recs ident x)
  | k => k

/-- The read of a launch record by a lane of LNCH or LREC (R365, R366); what the record brings comes in the lane's turn, with
OPERATION_COMPLETE. -/
def recordPart (s : State) (p : Part) (addr : Nat) : State :=
  match locateFor s p.team addr .read with
  | .error c => partFault s p c addr 0
  | .ok loc =>
    match viewBytes s p.agent p.ctx (lineOf p.ctx addr) (lineAddr loc.key) (addr % 128) 128 with
    | none => s
    | some bs =>
      if bs.any (·.2) then partPoison s p addr 0
      else donePart (modGang (markLeaf s loc false) p.uid (opHome s p.uid p.g p.op.op) (fun x => { x with
        ops := modWhere (fun o => o.id == p.op.op) (fun o => { o with
          kind := o.kind.note p.lane.ident (.got (ofBytes (bs.map (·.1)))) }) x.ops })) p

/-- R189. -/
def execLoad (team gang lane idx : Nat) (s : State) : Out :=
  match partOf s team gang lane idx with
  | none => .next s
  | some p =>
    match p.op.kind with
    | .load a t d => .next (loadPart s p a.toNat t d)
    | .laneLoad o t d => .next (laneLoadPart s p o t d)
    | .lnch a => .next (recordPart s p a.toNat)
    | _ => .next s

/-- A home that the team has stored to (R388). -/
def noteHome (s : State) (uid h : Nat) : State :=
  modTeam s uid (fun t => if t.homes.contains h then t else { t with homes := h :: t.homes })

/-- STP's part of a lane: the bytes stand in L1 (R186), and reach their home at pre-emption alone: the model's L1 evicts no dirty
line before (log entry 100). -/
def laneStorePart (s : State) (p : Part) (o : Nat) (bs : List Byte) : State :=
  let as := (List.range bs.length).map (fun k => laneAddr p.team p.lane (o + k))
  match as.findSome? (fun a => match locateFor s p.team a .write with
    | .error c => some (c, a)
    | .ok _ => none) with
  | some (c, a) => partFault s p c a 1
  | none =>
    let s := modTeam (markAt s p.team (as.take 1) .write) p.uid (fun t =>
      { t with l1 := (as.zip bs).foldl (fun m x => tput none m x.1 (some x.2)) t.l1 })
    donePart (noteHome s p.uid (homeOf (as.headD 0))) p

/-- R189, R203. -/
def execStore (team gang lane idx : Nat) (s : State) : Out :=
  match partOf s team gang lane idx with
  | none => .next s
  | some p =>
    match p.op.kind with
    | .store a bs port =>
      .next (donePart (noteHome (storeBytes s p.agent p.ctx a.toNat bs p.uid p.lane.ident port 0 p.op.insn) p.uid (homeOf a.toNat)) p)
    | .laneStore o bs => .next (laneStorePart s p o bs)
    | _ => .next s

-- Rings (R246)

/-- A ring header as a number: 128 bytes at its key. Of a live ring that a plain store has gone into, the counters are free
values and the data area, the slot count and the format stay as QRING gave them (R246). -/
def ringOf (s : State) (key : Nat) : Nat :=
  let r := rdNat s key 128
  if s.broken.contains key then
    let free := fun (j : Nat) => 2 ^ (32 * j) * (Config.freeWord (freeIdx s.fresh j)).toNat
    ((List.range 6).map free).foldl (· + ·) 0 + 2 ^ 192 * fld (tget 0 s.rings key) 292 192 + 2 ^ 293 * fld r 294 293
  else r
def ringTail (r : Nat) : Nat := fld r 63 0
def ringCtail (r : Nat) : Nat := fld r 127 64
def ringHead (r : Nat) : Nat := fld r 191 128
def ringData (r : Nat) : Nat := fld r 255 192
def ringCap (r : Nat) : Nat := fld r 287 256
def ringFmt (r : Nat) : Nat := fld r 292 288
def ringClosed (r : Nat) : Bool := fld r 293 293 == 1
def ringLive (r : Nat) : Bool := fld r 294 294 == 1

/-- The address of slot `k` (R246). A header that no QRING wrote may name no slot count: one slot is assumed. -/
def ringSlot (r k : Nat) : Nat := ringData r + k % max 1 (ringCap r) * elemBytes (ringFmt r)

/-- The reserved slots whose element has merged, once pushed bytes of a line reach home (R247). -/
def settleSlots (s : State) (base : Nat) (offs : List Nat) : State :=
  { s with slotsOut := s.slotsOut.filter (fun x =>
      let r := ringOf s x.1
      let a := ringSlot r x.2
      !(lineAddr a == base && (List.range (elemBytes (ringFmt r))).all (fun i => offs.contains (a % 128 + i)))) }

/-- A plain store reaches a line: a live ring whose header or data area the line belongs to is no longer predictable
(R246). -/
def spoilRings (s : State) (base : Nat) : State :=
  { s with broken := s.broken ++ (s.rings.filter (fun e =>
      !s.broken.contains e.1 && fld (rdNat s e.1 128) 294 294 == 1 &&
      (e.1 == base || (decide (fld e.2 255 192 ≤ base) &&
        decide (base < fld e.2 255 192 + fld e.2 287 256 * elemBytes (fld e.2 292 288)))))).map (·.1) }

/-- While rings are unpredictable, what they show changes from step to step. -/
def aged (s : State) : State := if s.broken.isEmpty then s else { s with fresh := s.fresh + 1 }

-- DRAIN

/-- An engine context waits on a page that is not resident (R267, R375). -/
def parkCtx (s : State) (uid e a : Nat) : State :=
  match findTeam s uid with
  | none => s
  | some t =>
    postPage (modTeam s uid (fun t => { t with ectx := t.ectx.modify e (fun c =>
      { c with queue := c.queue.modify 0 (fun k => { k with parked := true, asked := [] }) }) })) t a

/-- The lowest of a lane's bytes in a line: the address that a fault of its part names (R376). -/
def firstByte (l : Line) (bs : List BufByte) (x : Nat × Nat × Nat) : Nat :=
  l.addr + (bs.filterMap (fun b => if (b.team, b.lane, b.cmd) = x then some b.off else none)).foldl min 127

/-- The word of the instruction that stored that byte. -/
def firstInsn (l : Line) (bs : List BufByte) (x : Nat × Nat × Nat) : DWord :=
  ((bs.find? (fun b => (b.team, b.lane, b.cmd) == x && l.addr + b.off == firstByte l bs x)).map (·.insn)).getD 0

/-- The lanes or commands behind some buffered bytes meet a condition at the home (R267, R374, R375). -/
def drainFault (s : State) (a : Agent) (l : Line) (c : Cause) (bs : List BufByte) : State :=
  (bs.map (fun b => (b.team, b.lane, b.cmd))).dedup.foldl (fun s x =>
    match findTeam s x.1 with
    | none => s
    | some t =>
      match a with
      | .ctx _ e => if c = .residency then parkCtx s x.1 e l.addr
        else commandFate s t x.2.1 (commandFault t e x.2.2 x.2.1 (x.2.1 / 32) c (firstByte l bs x) 1)
      | .core _ =>
        match t.whereIs x.2.1 with
        | none => s
        | some (g, i) =>
          if c = .residency then
            parkGangOn (modGang s x.1 g (fun y => if y.parts.contains (l, true) then y else { y with parts := y.parts ++ [(l, true)] }))
              x.1 g l.addr
          else deferFault s x.1 g i c (firstByte l bs x) 1 (firstInsn l bs x)) s

/-- The core that an agent is. -/
def agentCoreOf : Agent → Option Nat
  | .core n => some n
  | .ctx _ _ => none

/-- A buffered byte's place in its line and what has stood there, newest first, each with its era (R47). -/
def BufByte.history (b : BufByte) : Nat × List (Byte × Nat) := (b.off, (b.val, b.era) :: b.olds)

/-- The part of a buffer entry whose page accepts the write goes to its home; the rest faults or stays (R189, R374). -/
def drainLine (s : State) (a : Agent) (l : Line) : State :=
  let bytes := (agentMem s a).entry l
  if bytes.isEmpty then s
  else
    let out := fun (b : BufByte) => locate s l.ctx l.addr .write (leased s b.team l.addr)
    let good := bytes.filter (fun b => match out b with | .ok _ => true | .error _ => false)
    let wait := bytes.filter (fun b => match out b with | .error .residency => true | _ => false)
    let bad := bytes.filterMap (fun b => match out b with
      | .error c => if c = .residency then none else some (c, b)
      | .ok _ => none)
    let s1 := modAgent s a (fun m =>
      { m with buf := (if wait.isEmpty then [] else [(l, wait)]) ++ m.buf.filter (fun e => e.1 != l) })
    let s2 := match good with
      | [] => s1
      | b :: _ =>
        match out b with
        | .error _ => s1
        | .ok loc =>
          let id := s1.fresh
          let s1 := if good.all (fun x => x.port == some 16) then s1 else spoilRings s1 (lineAddr loc.key)
          let offs := good.map (fun x => (x.off, x.val))
          let s1 := homeWrite { s1 with fresh := s1.fresh + 1 } l.ctx l loc offs false id (agentCoreOf a) (good.map BufByte.history)
          let s1 := settleSlots s1 (lineAddr loc.key) ((good.filter (fun x => x.port.isSome)).map (·.off))
          modAgent s1 a (fun m =>
            let m := match m.copy l with
              | none => m
              | some bs => { m with snap := modWhere (fun e => e.1 == l) (fun e =>
                  (e.1, offs.foldl (fun (b : List Byte) (x : Nat × Byte) => b.set x.1 x.2) bs)) m.snap }
            { m with acks := (id, l) :: m.acks })
    let s3 := ((bad.map (·.1)).dedup).foldl (fun s c =>
      drainFault s a l c ((bad.filter (fun x => x.1 == c)).map (·.2))) s2
    if wait.isEmpty then s3 else drainFault s3 a l .residency wait

/-- R189. -/
def execDrain (a : Agent) (line : Line) (s : State) : Out := .next (drainLine s a line)

/-- The acknowledgement of a drain returns once every message that it caused is acknowledged (R189, R222). -/
def execAckArrive (a : Agent) (id : Nat) (s : State) : Out :=
  if s.msgs.any (fun m => m.cause == id) then .next s
  else .next (modAgent s a (fun m => { m with acks := m.acks.filter (fun x => x.1 != id) }))

-- REL and ACQ

/-- Drain every buffer entry of an agent whose home is in the scope, or that a test picks. -/
def drainAll (s : State) (a : Agent) (pick : Line → List BufByte → Bool) : State :=
  (((agentMem s a).buf.filter (fun e => pick e.1 e.2)).map (·.1)).foldl (fun s l => drainLine s a l) s

/-- One advance of a release: none once it is complete, else the acknowledgements it still awaits (R189, R222). -/
def relAdvance (s : State) (a : Agent) (pick : Line → List BufByte → Bool) (inS : Line → Bool) (acks : List Nat) :
    State × Option (List Nat) :=
  if acks.isEmpty then
    let s1 := drainAll s a pick
    let m := agentMem s1 a
    if m.buf.any (fun e => pick e.1 e.2) then (s1, some [])
    else
      let out := (m.acks.filter (fun x => inS x.2)).map (·.1)
      (s1, if out.isEmpty then none else some out)
  else
    let m := agentMem s a
    (s, if acks.any (fun i => m.acks.any (fun x => x.1 == i)) then some acks else none)

/-- A release at a scope. -/
def relScope (s : State) (a : Agent) (sc : Scope) (acks : List Nat) : State × Option (List Nat) :=
  let d := agentDie s a
  relAdvance s a (fun l _ => inScope d sc (homeOf l.addr)) (fun l => inScope d sc (homeOf l.addr)) acks

/-- Set CLOSED at a ring's home, indivisibly (R260). -/
def closeRing (s : State) (uid ctx ring : Nat) : State :=
  noteHome (homeWrite s ctx (lineOf ctx ring) { key := ring, leaf := none } [(36, rdByte s (ring + 36) ||| 0x20)] false s.fresh)
    uid (homeOf ring)

/-- SDRAIN's part of a lane (R260): its own pushes first, then REL at the descriptor's scope; the last lane closes. -/
def sdrainPart (s : State) (p : Part) (port desc : Nat) (close : Bool) : State :=
  let b : Port := { Port.unbound with desc := desc }
  let mine := p.lane.filled.filter (fun x => x.1 == port)
  let r := ringOf s b.base
  if b.mode = 4 ∧ mine.any (fun x => decide (ringCtail r ≤ x.2.2)) then s
  else
    let d := p.die
    let own := fun (bs : List BufByte) => b.mode == 1 && !p.lane.helper &&
      bs.any (fun x => x.team == p.uid && x.lane == p.lane.ident && x.port == some port)
    let inS := fun (l : Line) => inScope d b.scope (homeOf l.addr)
    let x := relAdvance s p.agent (fun l bs => inS l || own bs)
      (fun l => inS l || (b.mode == 1 && !p.lane.helper)) p.op.acks
    match x.2 with
    | some acks => setPart x.1 p (fun e => { e with acks := acks })
    | none =>
      let lastLane := ((p.team.gang (opHome s p.uid p.g p.op.op)).ops.find? (fun o => o.id == p.op.op)).any (fun o =>
        o.lanes.length ≤ 1)
      let s1 := modLane x.1 p.uid p.g p.i (fun l => { l with filled := l.filled.filter (fun y => y.1 != port) })
      donePart (if close ∧ lastLane then closeRing s1 p.uid p.ctx b.base else s1) p

/-- R189, R210; also the implicit releases of R191 and SDRAIN. -/
def execRelStep (team gang lane idx : Nat) (s : State) : Out :=
  match partOf s team gang lane idx with
  | none => .next s
  | some p =>
    let go := fun (sc : Scope) =>
      let x := relScope s p.agent sc p.op.acks
      match x.2 with
      | some acks => setPart x.1 p (fun e => { e with acks := acks })
      | none => donePart x.1 p
    match p.op.kind with
    | .rel sc => .next (go sc)
    | .cmdRel sc _ _ => .next (go sc)
    | .lnchRel => .next (go .pkg)
    | .sdrain port desc close => .next (sdrainPart s p port desc close)
    | _ => .next s

/-- R189, R210, R250. -/
def execAcqStep (team gang lane idx : Nat) (s : State) : Out :=
  match partOf s team gang lane idx with
  | none => .next s
  | some p =>
    match p.op.kind with
    | .acq sc => .next (donePart (acquireAt s p.core p.uid p.g p.i sc) p)
    | _ => .next s

-- Atomics

/-- The operations of ATOM on 32- or 64-bit values (R204). -/
def atomRes (op : AtomOp) (w64 : Bool) (old b : DWord) : DWord :=
  let s := fun (x : DWord) => if w64 then x.toInt else (lo32 x).toInt
  match op with
  | .add => old + b
  | .minS => if s old ≤ s b then old else b
  | .maxS => if s old ≤ s b then b else old
  | .minN => if old.toNat ≤ b.toNat then old else b
  | .maxN => if old.toNat ≤ b.toNat then b else old
  | .and => old &&& b
  | .or => old ||| b
  | .xor => old ^^^ b
  | .exch => b

/-- Bits of an exact-sum cell (R194). -/
def cellVal (c : Nat) : Int := sext 480 (fld c 479 0)
def cellFlag (c i : Nat) : Bool := fld c i i == 1
def setCellFlag (c i : Nat) : Nat := if cellFlag c i then c else c + 2 ^ i

/-- XSUM (R195, R206): add an FP32 value exactly. -/
def cellAdd (c : Nat) (x : Word) : Nat :=
  match dec .f32 x.toNat with
  | .nan _ => setCellFlag c 482
  | .inf neg => setCellFlag c (if neg then 481 else 480)
  | .fin neg m e _ =>
    let v := cellVal c + sgn neg (m * 2 ^ (e + 160).toNat)
    let c' := c / 2 ^ 480 * 2 ^ 480 + unsext 480 v
    if v < -(2 ^ 479 : Nat) ∨ (2 ^ 479 : Nat) ≤ v then setCellFlag c' 483 else c'

/-- Add the sum and the flags of another cell, as the collective engine does (R195, R287). -/
def cellMerge (c d : Nat) : Nat :=
  let v := cellVal c + cellVal d
  let c' := c / 2 ^ 480 * 2 ^ 480 + unsext 480 v
  let c' := if v < -(2 ^ 479 : Nat) ∨ (2 ^ 479 : Nat) ≤ v then setCellFlag c' 483 else c'
  [480, 481, 482, 483].foldl (fun c i => if cellFlag d i then setCellFlag c i else c) c'

/-- XRD (R196): hi, lo, the flags of hi and the flags of lo. -/
def cellRead (c : Nat) : Nat × Nat × Flags × Flags :=
  if cellFlag c 482 || (cellFlag c 480 && cellFlag c 481) || cellFlag c 483 then (fmtNan .f32, 0, fIV, 0)
  else if cellFlag c 480 then (0x7F800000, 0, 0, 0)
  else if cellFlag c 481 then (0xFF800000, 0, 0, 0)
  else
    let S := ofInt (cellVal c) (-160) false
    let hi := rne .f32 S
    match dec .f32 hi.1 with
    | .fin n m e st =>
      let lo := rne .f32 (sumNum false [S, (Num.fin n m e st).neg])
      (hi.1, lo.1, hi.2, lo.2)
    | _ => (hi.1, 0, hi.2, 0)

/-- What an atomic writes, and what it delivers. -/
structure AtomOut where
  write : Option (List Byte) := none
  res : List Word := []
  fst : Flags := 0

/-- The result of an atomic on the bytes at its address (R204 to R208); `stamp` is the line's. -/
def atomOut (k : MemKind) (bs : List Byte) (stamp : Nat) : AtomOut :=
  let x := BitVec.ofNat 64 (ofBytes bs)
  let ws := fun (w64 : Bool) => if w64 then [lo32 x, hi32 x] else [lo32 x]
  match k with
  | .atom _ op w64 b _ => { write := some (toBytes bs.length (atomRes op w64 x b).toNat), res := ws w64 }
  | .acas _ w64 cmp new _ => { write := if x = cmp then some (toBytes bs.length new.toNat) else none, res := ws w64 }
  | .xsum _ v => { write := some (toBytes 64 (cellAdd (ofBytes bs) v)) }
  | .xrd _ pair clr _ =>
    let r := cellRead (ofBytes bs)
    { write := if clr then some (List.replicate 64 0) else none,
      res := if pair then [BitVec.ofNat 32 r.1, BitVec.ofNat 32 r.2.1] else [BitVec.ofNat 32 r.1],
      fst := if pair then r.2.2.1 ||| r.2.2.2 else r.2.2.1 }
  | .xclr _ => { write := some (List.replicate 64 0) }
  | .ldv _ _ => { res := [lo32 x, BitVec.ofNat 32 stamp] }
  | _ => {}

/-- The address, size, destination and access of a plain atomic: R372 wants W for each but LDV, which R189 names beside the
atomics. -/
def atomArgs : MemKind → Option (DWord × Nat × Option Dst × Access)
  | .atom a _ w64 _ d => some (a, if w64 then 8 else 4, some d, .write)
  | .acas a w64 _ _ d => some (a, if w64 then 8 else 4, some d, .write)
  | .xsum a _ => some (a, 64, none, .write)
  | .xrd a _ _ d => some (a, 64, some d, .write)
  | .xclr a => some (a, 64, none, .write)
  | .ldv a d => some (a, 4, some d, .read)
  | _ => none

/-- The lanes that share an operation which acts once for its gang (R57). -/
def opAlso (s : State) (uid g op : Nat) : List Nat :=
  (((findGang s uid (opHome s uid g op)).bind (fun x => x.ops.find? (fun o => o.id == op))).map (·.also)).getD []

/-- OR fst bits into a lane and the lanes that share its operation (R136, R207). -/
def orFst (s : State) (uid g op i : Nat) (f : Flags) : State :=
  let also := opAlso s uid g op
  modGang s uid g (fun x =>
    { x with lanes := (List.range x.lanes.length).map (fun j =>
        let l := x.lane j
        if (j = i ∨ also.contains l.ident) ∧ l.takes op then { l with fst := l.fst ||| f } else l) })

/-- The atomic has acted; its part ends once the messages of its writes are acknowledged (R222). -/
def endAtom (s : State) (p : Part) (id : Nat) : State :=
  if s.msgs.any (fun m => m.cause == id) then setPart s p (fun e => { e with acks := [id] }) else donePart s p

/-- The core's buffer entry of a line drains and its copy goes, before an atomic acts (R189). -/
def clearLine (s : State) (a : Agent) (l : Line) : State := modAgent (drainLine s a l) a (fun m => m.dropCopy l)

/-- ATOM, ACAS, XSUM, XRD, XCLR and LDV at their home. -/
def atomPart (s : State) (p : Part) (a : Nat) (n : Nat) (d : Option Dst) (acc : Access) : State :=
  match locateFor s p.team a acc with
  | .error c => partFault s p c a 2
  | .ok loc =>
    let l := lineOf p.ctx a
    let s := clearLine s p.agent l
    if ((agentMem s p.agent).entry l) ≠ [] then s
    else
      let s := touchLine (markLeaf s loc (atomOut p.op.kind (rdBytes s loc.key n) 0).write.isSome) p.ctx loc
      if (List.range n).any (fun i => poisoned s (loc.key + i)) then partPoison s p a 0
      else
        let o := atomOut p.op.kind (rdBytes s loc.key n) (stampOf s loc.key)
        let id := s.fresh
        let s := { s with fresh := s.fresh + 1 }
        let s := match o.write with
          | none => s
          | some bs => noteHome (homeWrite (spoilRings s (lineAddr loc.key)) p.ctx l loc ((List.range bs.length).map (fun i =>
              (loc.key % 128 + i, bs.getD i 0))) true id) p.uid (homeOf a)
        let s := match d with
          | none => s
          | some d => writeResult s p.uid p.g p.i p.op.op d o.res
        endAtom (if o.fst = 0 then s else orFst s p.uid p.g p.op.op p.i o.fst) p id

-- CMS (R198, R209)

/-- Read `n` bytes, whole lines, from an address through a lane's view, with FILLs where needed (R209): the bytes, or the condition
met. -/
def readView (s : State) (p : Part) (a n : Nat) : Except (Cause × Nat) (List Byte) :=
  (List.range (n / 128)).foldl (fun r k =>
    match r with
    | .error c => .error c
    | .ok bs =>
      let b := a + 128 * k
      match locateFor s p.team b .read with
      | .error c => .error (c, b)
      | .ok loc =>
        let l := lineOf p.ctx b
        let new := (List.range 128).map (fun i => (viewByte s p.agent p.ctx l loc.key i).getD
          (rdByte s (loc.key + i), poisoned s (loc.key + i)))
        if new.any (·.2) then .error (.poison, b) else .ok (bs ++ new.map (·.1))) (.ok [])

/-- The lines of a descriptor's DATA that CMS reads: those of its N lines (R198). -/
def cmsLines (desc : Nat) : Nat :=
  let n := fld desc 2 0
  if 4 < n then 0 else n

/-- The status of a descriptor before its stamps are compared (R209): 0 when nothing is wrong; and its N line addresses. -/
def cmsStatus (desc : Nat) : Nat × List Nat :=
  let n := fld desc 2 0
  if n = 0 ∨ 4 < n then (3, [])
  else
    let as := (List.range n).map (fun j => fld desc (128 + 128 * j + 63) (128 + 128 * j))
    if as.any (fun a => a % 128 ≠ 0) ∨ !as.dedup.length = n then (3, as)
    else if (as.map (fun a => (homeOf a % 2, sliceOf (offOf a)))).dedup.length ≠ 1 then (2, as)
    else (0, as)

/-- Set a predicate in a lane and the lanes that share its operation (R209, log entry 37). -/
def opPred (s : State) (uid g op i n : Nat) (b : Bool) : State :=
  let also := opAlso s uid g op
  modGang s uid g (fun x =>
    { x with lanes := (List.range x.lanes.length).map (fun j =>
        let l := x.lane j
        if (j = i ∨ (also.contains l.ident ∧ !l.helper)) ∧ l.takes op then l.setPred n b else l) })

/-- CMS ends with a status: DST and the predicate are written, and the copies of its lines are dropped (R209). -/
def cmsEnd (s : State) (p : Part) (pd : Nat) (d : Dst) (as : List Nat) (st : Nat) (id : Nat) : State :=
  let s := as.foldl (fun s a => modAgent s p.agent (fun m => m.dropCopy (lineOf p.ctx a))) s
  let s := writeResult s p.uid p.g p.i p.op.op d [BitVec.ofNat 32 st]
  endAtom (opPred s p.uid p.g p.op.op p.i pd (st == 0)) p id

/-- CMS's part of a lane, after its release (R209). -/
def cmsPart (s : State) (p : Part) (a pd : Nat) (d : Dst) : State :=
  match (readView s p a 128).bind (fun hs =>
    (readView s p (a + 128) (128 * cmsLines (ofBytes hs))).map (fun ds => hs ++ ds)) with
  | .error (c, b) => if c = .poison then partPoison s p b 0 else partFault s p c b 0
  | .ok bs =>
    let desc := ofBytes bs
    let s := markAt s p.team ((List.range (bs.length / 128)).map (fun k => a + 128 * k)) .read
    let id := s.fresh
    let s := { s with fresh := s.fresh + 1 }
    let st := cmsStatus desc
    match st.2.findSome? (fun x => (servedFault s .package x).map (fun c => (c, x))) with
    | some (c, x) => partFault s p c x 2
    | none =>
      if st.1 ≠ 0 then cmsEnd s p pd d st.2 st.1 id
      else
        let locs := st.2.map (fun x => (x, locateFor s p.team x .write))
        match locs.findSome? (fun x => match x.2 with
          | .error c => some (c, x.1)
          | .ok _ => none) with
        | some (c, x) => partFault s p c x 2
        | none =>
          let s := st.2.foldl (fun s x => clearLine s p.agent (lineOf p.ctx x)) s
          let keys := locs.filterMap (fun x => match x.2 with
            | .ok l => some (x.1, l)
            | .error _ => none)
          let s := keys.foldl (fun s x => touchLine s p.ctx x.2) s
          let same := (List.range keys.length).all (fun j =>
            match keys[j]? with
            | some x => stampOf s x.2.key == fld desc (128 + 128 * j + 95) (128 + 128 * j + 64)
            | none => true)
          if !same then cmsEnd s p pd d st.2 1 id
          else
            let s := (List.range keys.length).foldl (fun s j =>
              match keys[j]? with
              | some x => noteHome (homeWrite (spoilRings s x.2.key) p.ctx (lineOf p.ctx x.1) x.2 ((List.range 128).map (fun i =>
                  (i, bs.getD (128 + 128 * j + i) 0))) false id) p.uid (homeOf x.1)
              | none => s) s
            cmsEnd s p pd d st.2 0 id

-- QRING and QRFREE (R261, R262)

/-- The new header of a ring. -/
def ringHeader (data : DWord) (cap fmt : Word) : Nat :=
  2 ^ 192 * data.toNat + 2 ^ 256 * cap.toNat + 2 ^ 288 * (fmt.toNat % 32) + 2 ^ 294

/-- R261's check of the operands: BADDESC. -/
def ringBad (s : State) (a : Nat) (data : DWord) (cap fmt : Word) : Bool :=
  let h := homeOf a
  let n := cap.toNat
  !(h == 2 || h == 3) || data.toNat / 2 ^ 62 != 0 || homeOf data.toNat != h || !(n == 2 ^ Nat.log2 n) || decide (n < 512) ||
  decide (2 ^ 20 < n) || decide (11 ≤ fmt.toNat) || data.toNat % 128 != 0 ||
  decide (pewterSize s < offOf data.toNat + n * elemBytes fmt.toNat)

/-- QRING (`new` some) and QRFREE (`new` none) on a header line. -/
def ringPart (s : State) (p : Part) (a : Nat) (d : Dst) (new : Option (DWord × Word × Word)) : State :=
  let l := lineOf p.ctx a
  let id := s.fresh
  let s := { s with fresh := s.fresh + 1 }
  let stop := fun (s : State) (st : Nat) => endAtom (writeResult s p.uid p.g p.i p.op.op d [BitVec.ofNat 32 st]) p id
  match new with
  | some (data, cap, fmt) =>
    if ringBad s a data cap fmt then stop s 2
    else
      match locateFor s p.team a .write with
      | .error c => partFault s p c a 2
      | .ok loc =>
        let s := clearLine s p.agent l
        if (List.range 128).any (fun i => poisoned s (loc.key + i)) then partPoison s p a 0
        else if ringLive (ringOf s loc.key) then stop s 1
        else
          let h := ringHeader data cap fmt
          let s := noteHome (homeWrite s p.ctx l loc ((toBytes 128 h).mapIdx (fun i b => (i, b))) false id) p.uid (homeOf a)
          stop { s with rings := tput 0 s.rings loc.key h, broken := s.broken.filter (fun k => k != loc.key) } 0
  | none =>
    let at_ : Except Cause Loc := match servedFault s .noHost a with
      | some c => .error c
      | none => locateFor s p.team a .write
    match at_ with
    | .error c => partFault s p c a 2
    | .ok loc =>
      let s := clearLine s p.agent l
      if (List.range 128).any (fun i => poisoned s (loc.key + i)) then partPoison s p a 0
      else if !ringLive (ringOf s loc.key) then stop s 3
      else stop (noteHome (homeWrite s p.ctx l loc [(36, rdByte s (loc.key + 36) &&& 0xBF)] false id) p.uid (homeOf a)) 0

/-- R189: an atomic at the head of a lane's queue acts at its home; when its messages are acknowledged its part ends. -/
def execAtomic (team gang lane idx : Nat) (s : State) : Out :=
  match partOf s team gang lane idx with
  | none => .next s
  | some p =>
    match p.op.acks with
    | id :: _ => .next (if bindsAll p.op.kind ∧ !s.msgs.any (fun m => m.cause == id) then
        (match p.op.kind with
          | .rel _ | .acq _ | .cmdRel _ _ _ | .lnchRel | .sdrain _ _ _ => s
          | _ => donePart s p) else s)
    | [] =>
      match p.op.kind with
      | .cms a pd d => .next (cmsPart s p a.toNat pd d)
      | .qring a data cap fmt d => .next (ringPart s p a.toNat d (some (data, cap, fmt)))
      | .qrfree a d => .next (ringPart s p a.toNat d none)
      | k =>
        match atomArgs k with
        | some (a, n, d, acc) => .next (atomPart s p a.toNat n d acc)
        | none => .next s

end Sys2Proof.Machine
end

