-- ==== Sys2Proof/Machine/Eng.lean ====
section
/-! DEFINITION. What engine commands share (spec/11_copies.md R263 to R274): reading and writing through a context, tile
handles and their elements, and how a command instruction places its commands. -/

namespace Sys2Proof.Machine

-- Memory work of a command: the state, and a value or the condition met with its address

abbrev MemR (α : Type) := State × Except (Cause × Nat) α

/-- Where a condition was met: the address, with 2^64 above it for a store (R378, EINFO). -/
def metStore (a : Nat) : Nat := a % 2 ^ 64 + 2 ^ 64
def metAddr (a : Nat) : Nat := a % 2 ^ 64
def metAcc (a : Nat) : Nat := a / 2 ^ 64

def mpure {α : Type} (s : State) (x : α) : MemR α := (s, .ok x)
def mbind {α β : Type} (r : MemR α) (f : State → α → MemR β) : MemR β :=
  match r.2 with
  | .ok x => f r.1 x
  | .error c => (r.1, .error c)

/-- Do one piece of work after another, up to the first condition met. -/
def mfold {α β : Type} (f : State → β → α → MemR β) : List α → State → β → MemR β
  | [], s, b => mpure s b
  | x :: t, s, b => mbind (f s b x) (fun s b => mfold f t s b)

/-- Read bytes through a context (R191, R278). -/
def readCtx (s : State) (t : Team) (e a n : Nat) : MemR (List Byte) :=
  mbind (fetchBytes s t (.ctx t.uid e) a .read true n) (fun s bs =>
    match bs.findIdx? (·.2) with
    | some i => (s, .error (.poison, a + i))
    | none => mpure s (bs.map (·.1)))

def readNat (s : State) (t : Team) (e a n : Nat) : MemR Nat := mbind (readCtx s t e a n) (fun s bs => mpure s (ofBytes bs))

/-- Write bytes into a context's buffer, if their homes accept the write (R267, R278). -/
def writeCtx (s : State) (t : Team) (e a : Nat) (bs : List Byte) : MemR Unit :=
  match (splitLines t.ctx a bs).findSome? (fun p =>
    let x := p.1.addr + p.2.1
    match locateFor s t x .write with
    | .error c => some (c, metStore x)
    | .ok _ => none) with
  | some c => (s, .error c)
  | none =>
    let s := noteHome s t.uid (homeOf a)
    let k := headCmd t e
    mpure (storeBytes s (.ctx t.uid e) t.ctx a bs t.uid ((k.map (·.who)).getD 0) none ((k.map (·.no)).getD 0)) ()

-- Tile handles (R269 to R274): a record is a 512-bit number

def hBase (r : Nat) : Nat := fld r 63 0
/-- Stored extent of dimension `j`. -/
def hExt (r j : Nat) : Nat := fld r (95 + 32 * j) (64 + 32 * j)
/-- Signed stride of dimension `j` ≥ 1, in elements. -/
def hStr (r j : Nat) : Int := sext 48 (fld r (191 + 48 * j) (144 + 48 * j))
def hFmt (r : Nat) : Nat := fld r 339 336
def hLayout (r : Nat) : Nat := fld r 341 340
def hScale (r : Nat) : Nat := fld r 343 342
def hSub (r : Nat) : Bool := fld r 344 344 == 1
def hTrv (r : Nat) : Bool := fld r 345 345 == 1
/-- INT4 group size. -/
def hGroup (r : Nat) : Nat := 32 * 2 ^ fld r 347 346
def hSptr (r : Nat) : Nat := fld r 415 352
def hAux (r : Nat) : Nat := fld r 479 416

/-- The float format of a handle code (R271). -/
def hFloat : Nat → Option Fmt
  | 0 => some .f32 | 1 => some .bf16 | 2 => some .f16 | 3 => some .e4m3 | 4 => some .e5m2 | 5 => some .e3m2 | 6 => some .e2m3
  | 7 => some .e2m1 | _ => none

/-- Bytes of an element; 0 stands for half a byte (R271). -/
def hBytes : Nat → Nat
  | 0 | 12 => 4
  | 1 | 2 | 11 => 2
  | 7 | 8 | 9 => 0
  | _ => 1

/-- Is the format one of .b8, .b16, .b32? -/
def hRaw (f : Nat) : Bool := decide (10 ≤ f)

/-- Does HDEF find the record bad (R272)? -/
def hBad (r : Nat) : Bool :=
  let f := hFmt r
  let b := 8 * 2 ^ hLayout r
  let half := f == 7 || f == 8 || f == 9
  fld r 351 348 != 0 || fld r 511 480 != 0 || decide (13 ≤ f) || fld r 347 346 == 3 ||
  (List.range 4).any (fun j => hExt r j == 0) ||
  (if hLayout r = 0 then (if half then false else hBase r % hBytes f != 0) else hBase r % 128 != 0) ||
  (hLayout r != 0 && (hExt r 0 % b != 0 || hExt r 1 % b != 0 || hStr r 1 % (b * b : Nat) != 0)) ||
  (hScale r != 0 && (f == 8 || f == 9 || hRaw f)) ||
  (if f = 8 then hAux r == 0 || hAux r % 32 != 0 else f != 9 && hAux r != 0) ||
  (f == 9 && (hAux r == 0 || hSptr r == 0 || hExt r 0 % hGroup r != 0)) ||
  (hSub r && decide (1 < f))

/-- Extent of dimension `j` of the view (R273). -/
def hView (r j : Nat) : Nat := if hTrv r ∧ j < 2 then hExt r (1 - j) else hExt r j

/-- The stored element behind a view element (R273). -/
def hStored (r : Nat) (j : List Nat) : List Nat := if hTrv r then [j.getD 1 0, j.getD 0 0, j.getD 2 0, j.getD 3 0] else j

/-- Element offset of a stored element (R273). -/
def hOffset (r : Nat) (i : List Nat) : Int :=
  let i0 := i.getD 0 0
  let i1 := i.getD 1 0
  let rest : Int := (i.getD 2 0) * hStr r 2 + (i.getD 3 0) * hStr r 3
  if hLayout r = 0 then i0 + i1 * hStr r 1 + rest
  else
    let b := 8 * 2 ^ hLayout r
    ((i0 % b + b * (i1 % b) + b * b * (i0 / b) : Nat) : Int) + hStr r 1 * (i1 / b : Nat) + rest

/-- Address of a view element, and whether it is a high nibble (R273). -/
def hAddr (r : Nat) (j : List Nat) : Nat × Bool :=
  let e : Int := sext 64 (BitVec.ofInt 64 (hOffset r (hStored r j))).toNat
  let n := hBytes (hFmt r)
  if n = 0 then ((BitVec.ofInt 64 ((hBase r : Int) + Int.fdiv e 2)).toNat, decide (Int.fmod e 2 = 1))
  else ((BitVec.ofInt 64 ((hBase r : Int) + e * n)).toNat, false)

/-- The stored bits of a view element. -/
def readCode (s : State) (t : Team) (e r : Nat) (j : List Nat) : MemR Nat :=
  let x := hAddr r j
  let n := hBytes (hFmt r)
  mbind (readNat s t e x.1 (max 1 n)) (fun s v => mpure s (if n ≠ 0 then v else if x.2 then v / 16 else v % 16))

/-- The bits that a stored element of a handle's format holds: bits 7:6 of a 6-bit format are written as zero (R138). -/
def elemCode (r v : Nat) : Nat := if hFmt r = 5 ∨ hFmt r = 6 then v % 64 else v

/-- Store bits into a view element; a half-byte element keeps the other half of its byte. -/
def writeCode (s : State) (t : Team) (e r : Nat) (j : List Nat) (v : Nat) : MemR Unit :=
  let x := hAddr r j
  let n := hBytes (hFmt r)
  if n ≠ 0 then writeCtx s t e x.1 (toBytes n (elemCode r v))
  else mbind (readNat s t e x.1 1) (fun s old =>
    writeCtx s t e x.1 [BitVec.ofNat 8 (if x.2 then old % 16 + 16 * (v % 16) else old / 16 * 16 + v % 16)])

/-- The 16 BF16 entries of a codebook (R144, R274). -/
def readBook (s : State) (t : Team) (e r : Nat) : MemR (List Nat) :=
  mbind (readCtx s t e (hAux r) 32) (fun s bs => mpure s ((List.range 16).map (fun i => ofBytes ((bs.drop (2 * i)).take 2))))

/-- The BF16 value of an INT4 code (R145). -/
def int4Value (q z scale : Nat) : Nat := (rne .bf16 (mulNum (ofInt ((q : Int) - (z : Int)) 0 false) (dec .bf16 scale))).1

/-- A view element as a code of a float format, .cb4 and .i4 decoded to BF16 (R144, R145, R274); a raw format gives its bits
as FP32. -/
def readElem (s : State) (t : Team) (e r : Nat) (j : List Nat) : MemR (Fmt × Nat) :=
  mbind (readCode s t e r j) (fun s v =>
    match hFloat (hFmt r) with
    | some f => mpure s (f, v)
    | none =>
      if hFmt r = 8 then mbind (readBook s t e r) (fun s b => mpure s (.bf16, b.getD v 0))
      else if hFmt r = 9 then
        let i := hStored r j
        let k := i.getD 0 0 / hGroup r +
          hExt r 0 / hGroup r * (i.getD 1 0 + hExt r 1 * (i.getD 2 0 + hExt r 2 * i.getD 3 0))
        mbind (readNat s t e ((hSptr r + 2 * k) % 2 ^ 64) 2) (fun s sc =>
          mbind (readNat s t e ((hAux r + k / 2) % 2 ^ 64) 1) (fun s z =>
            mpure s (.bf16, int4Value v (if k % 2 = 1 then z / 16 else z % 16) sc)))
      else mpure s (.f32, v))

/-- How far a codebook entry lies from a value (R144): none for an entry that is never chosen; `inf` for infinitely far. -/
inductive Dist
  | never | inf | at_ (d : Num)
deriving DecidableEq, Repr

def bookDist (v : Num) (entry : Nat) : Dist :=
  match dec .bf16 entry, v with
  | .nan _, _ => .never
  | .inf n, .inf m => if n = m then .at_ (.fin false 0 0 false) else .inf
  | .inf _, _ => .inf
  | .fin _ _ _ _, .inf _ => .inf
  | x, v => .at_ (sumNum false [v, x.neg]).abs

/-- Is the first distance strictly smaller? -/
def Dist.lt : Dist → Dist → Bool
  | .never, _ => false
  | _, .never => true
  | .inf, _ => false
  | .at_ _, .inf => true
  | .at_ a, .at_ b => cmpNum a b == .lt

/-- The first of the best entries by an order. -/
def firstBest (lt : Nat → Nat → Bool) : List Nat → Nat
  | [] => 0
  | i :: t => t.foldl (fun b j => if lt j b then j else b) i

/-- The index that encodes a value in a codebook (R144). -/
def bookIndex (book : List Nat) (v : Num) : Nat :=
  let d := fun i => bookDist v (book.getD i 0)
  let idx := (List.range 16).filter (fun i => d i != .never)
  match v with
  | .nan _ => 0
  | .inf neg =>
    if idx.any (fun i => d i != .inf) then firstBest (fun i j => (d i).lt (d j)) idx
    else
      -- no infinity of this sign: the greatest or least entry
      let x := fun i => dec .bf16 (book.getD i 0)
      firstBest (fun i j => cmpNum (x i) (x j) == (if neg then .lt else .gt)) idx
  | .fin _ _ _ _ => firstBest (fun i j => (d i).lt (d j)) idx

/-- Store a value into a view element of a float format or .cb4 (R277). -/
def writeElem (s : State) (t : Team) (e r : Nat) (j : List Nat) (v : Num) : MemR Unit :=
  match hFloat (hFmt r) with
  | some f => writeCode s t e r j (roundTo f .rn 0 false v).1
  | none => mbind (readBook s t e r) (fun s b => writeCode s t e r j (bookIndex b v))

-- Handles of a team

def Team.handle (t : Team) (h : Nat) : Handle := t.handles.getD h Handle.empty

def isHdef (h : Nat) (k : Cmd) : Bool :=
  match k.kind with
  | .hdef h' _ => h' == h
  | _ => false

/-- Is an HDEF of the handle outstanding (R269)? -/
def Team.handlePending (t : Team) (h : Nat) : Bool := t.ectx.any (fun c => c.queue.any (isHdef h))

/-- The handles that a command reads when it begins. -/
def CmdKind.handles : CmdKind → List Nat
  | .copy hd hs _ => [hd, hs]
  | .cfill h _ | .wld h _ _ | .mst h _ _ _ _ => [h]
  | .mma (.hdl h) _ _ _ _ _ _ | .mma (.unf h) _ _ _ _ _ _ => [h]
  | _ => []

/-- Is an HDEF of a handle pending for the head of context `e` (R269)? One that stands behind it in its own context cannot complete
before it, and is not waited for (log entry 15). -/
def Team.pendingFor (t : Team) (e h : Nat) : Bool :=
  (List.range t.ectx.length).any (fun e' => e' != e && (t.ctxOf e').queue.any (isHdef h))

/-- Has a command found a handle when it began? It keeps what it found to its end (R269). -/
def Cmd.found (k : Cmd) (h : Nat) : Bool := k.handles.any (fun x => x.1 == h)

/-- Does the head of context `e` wait for a pending HDEF of a handle that it names (R269)? -/
def waitsHandle (t : Team) (e : Nat) (k : Cmd) : Bool := k.kind.handles.any (fun h => !k.found h && t.pendingFor e h)

/-- The handles that a command which begins now finds, and keeps (R269). -/
def Team.foundAt (t : Team) (e : Nat) : List (Nat × Handle) :=
  (List.range t.handles.length).filterMap (fun h => if t.pendingFor e h then none else some (h, t.handle h))

/-- The team as a command that has begun sees its handles. -/
def Team.asFound (t : Team) (k : Cmd) : Team := { t with handles := k.handles.foldl (fun hs x => hs.set x.1 x.2) t.handles }

/-- A command begins: it takes its place in the order of all that begin, and keeps the handles that it finds. -/
def Cmd.begin_ (t : Team) (e now : Nat) (k : Cmd) : Cmd :=
  if k.begun = 0 then { k with begun := now, handles := t.foundAt e } else k

/-- The record of a defined handle. -/
def Team.record (t : Team) (h : Nat) : Option Nat := if (t.handle h).st = 2 then some (t.handle h).raw else none

-- Placing commands (R263 to R266, R309)

/-- A command instruction: names, addresses, and the command of each acting lane; `group` places one for the issue group
(R309). -/
structure CmdShape where
  front : Front
  own : View → Option FaultInfo := fun _ => none
  /-- the address that ALIGN, ADDR and PROT are judged by, with its alignment -/
  addr : Option ((View → Nat → Nat) × Nat) := none
  e : Nat
  sc : Scope
  group : Bool := false
  kind : View → Nat → CmdKind
  /-- a change of the core's array at issue (R298, R301), and whether the command stands in array order (R303) -/
  onArray : View → Core → Core := fun _ c => c
  array : Bool := false
  /-- a change of each acting lane at issue (the pops of MMA.port), and the predicates that it leaves pending (R242) -/
  onLane : View → Nat → Lane → Lane := fun _ _ l => l
  preds : View → List Nat := fun _ => []
  /-- the registers that the command reads when it begins (R302) -/
  late : Option Name := none

/-- The commands of an instruction enter their context; with no lane that is active and no helper it places nothing
(R265). -/
def placeCmds (s : State) (c : Common) (v : View) (m : CmdShape) (once : Bool) : State :=
  let lanes := if once || m.group then v.acting.take 1 else v.acting
  let uid := v.iss.team
  let op := s.fresh
  let from_ := (v.team.ctxOf m.e).issued.toNat
  let s1 := startOp s v c.setf .cmds ((List.range lanes.length).map (fun j => from_ + 1 + j)) []
  if lanes.isEmpty then s1
  else
    let cdst := m.front.dst.any (fun d => isC d.name)
    let s2 := lanes.foldl (fun s i =>
      let status := if cdst then [] else if m.group then v.acting.map (fun j => (v.gang.lane j).ident)
        else [(v.gang.lane i).ident]
      placeCmd s uid v.g m.e (m.kind v i) m.sc op m.front.dst (v.gang.lane i).ident status
        (if once || m.group then v.active else [i]) m.late v.word) s1
    -- helper lanes release as well, though no command waits for them (R191)
    let s3 := if once || m.group then s2
      else (v.active.filter (fun i => (v.gang.lane i).helper)).foldl (fun s i =>
        modLane s uid v.g i (fun l => l.push [LaneOp.plain (.rel m.sc)])) s2
    let s4 := v.acting.foldl (fun s i => modLane s uid v.g i (m.onLane v i)) s3
    let s4 := modGang s4 uid v.g (fun g => g.setReady (inLanes ((m.preds v).map keyP) v.active) (v.t + 2))
    modCore s4 v.core (fun k =>
      let k := m.onArray v k
      if m.array then { k with order := k.order ++ (List.range lanes.length).map (fun j => (uid, m.e, from_ + 1 + j)) } else k)

/-- A command instruction (R263, R265, R309). -/
def execCmd (c : Common) (m : CmdShape) (s : State) : Out :=
  issueChecks s c m.front m.own (fun v =>
    let once := m.front.once false
    let lanes := if once || m.group then v.acting.take 1 else v.acting
    match m.addr.bind (fun a => addrFaults v lanes (a.1 v) a.2 (servedFault s .all) 0) with
    | some i => .next (trapSlot s v i)
    | none => .next (afterSlot (placeCmds s c v m once) v false WinSlot.none))

/-- What a command's work comes to: a status (R266), or the condition that stopped it (R267). -/
inductive CmdOut
  | done (status : Nat)
  | stop (c : Cause) (addr : Nat)
  /-- it waits: for other members (R287), or for lines to be registered (R228) -/
  | wait
deriving DecidableEq, Repr

/-- Turn memory work that yields a status into a command's outcome. -/
def cmdOut (r : MemR Nat) : State × CmdOut :=
  match r.2 with
  | .ok st => (r.1, .done st)
  | .error c => (r.1, .stop c.1 c.2)

end Sys2Proof.Machine
end

