-- ==== Sys2Proof/Machine/Cpy.lean ====
section
/-! DEFINITION. Handle definitions, copies, fills and collectives (spec/11_copies.md R275 to R289): the six instructions and
what their commands do. The steps that begin and complete commands are in Machine/Cmd.lean. -/

namespace Sys2Proof.Machine

-- Instructions

/-- A command of this chapter at an address in memory. -/
def addrCmd (s : State) (d base : Name) (a64 : Bool) (align e : Nat) (sc : Scope) (k : DWord → CmdKind) : CmdShape :=
  { front := { srcs := addrSrcs base a64, dst := d1 d, allowQ := false }, own := baseOwn base a64,
    addr := some (fun v i => v.addr s.fresh i base a64 0, align), e := e, sc := sc,
    kind := fun v i => k (BitVec.ofNat 64 (v.addr s.fresh i base a64 0)) }

/-- R282. -/
def execHdef (c : Common) (d addr : Name) (h e : Nat) (sc : Scope) (a64 : Bool) (s : State) : Out :=
  execCmd c (addrCmd s d addr a64 64 e sc (fun a => .hdef h a)) s

/-- R284. -/
def execCopy (c : Common) (d addr : Name) (hd hs e : Nat) (sc : Scope) (a64 : Bool) (s : State) : Out :=
  execCmd c (addrCmd s d addr a64 64 e sc (fun a => .copy hd hs a)) s

/-- R285. -/
def execCfill (c : Common) (d addr : Name) (h e : Nat) (sc : Scope) (a64 : Bool) (s : State) : Out :=
  execCmd c (addrCmd s d addr a64 64 e sc (fun a => .cfill h a)) s

/-- R286. -/
def execColl (c : Common) (d addr : Name) (e : Nat) (sc : Scope) (a64 : Bool) (s : State) : Out :=
  execCmd c (addrCmd s d addr a64 128 e sc (fun a => .coll a)) s

/-- What HQRY reads of a handle (R283). -/
def hqryValue (t : Team) (h sel : Nat) : Word :=
  let r := (t.handle h).raw
  BitVec.ofNat 32 (match sel with
    | 0 => if t.handlePending h then 1 else (t.handle h).st
    | 1 => fld r 351 336
    | 2 => fld r 31 0
    | 3 => fld r 63 32
    | n => hView r (n - 4))

/-- R283. -/
def execHqry (c : Common) (d : Name) (h sel : Nat) (s : State) : Out :=
  execValue c { dst := d1 d, allowQ := false } false (fun _ => none) (fun v _ _ => .word (hqryValue v.team h sel)) s

/-- The pair of TLRD is an even g or c register (R280). -/
def execTlrd (c : Common) (d : Name) (e : Nat) (iss : Bool) (s : State) : Out :=
  execValue c { dst := d2 d, allowQ := false } false (fun _ => none) (fun v _ _ =>
    .dword (if iss then (v.team.ctxOf e).issued else (v.team.ctxOf e).tl)) s

-- HDEF

/-- A handle takes a record (R269, R272): defined, or bad. -/
def setHandle (t : Team) (h r : Nat) : Team :=
  { t with handles := t.handles.set h { st := if hBad r then 3 else 2, raw := r } }

/-- What HDEF leaves when it completes (R269, R282): the record that it read, or a bad handle if it ended with a FAULT, which keeps
the fields that HQRY reads (log entry 27). -/
def endHdef (t : Team) (h : Nat) (k : Cmd) : Team :=
  if k.fault.isSome then { t with handles := t.handles.modify h (fun x => { x with st := 3 }) } else setHandle t h k.rcd

-- Boxes (R275, R276): a record is a 512-bit number

def boxSrc (b : Nat) : List Nat := (List.range 4).map (fun j => fld b (31 + 32 * j) (32 * j))
def boxDst (b : Nat) : List Nat := (List.range 4).map (fun j => fld b (159 + 32 * j) (128 + 32 * j))
def boxExt (b : Nat) : List Nat := (List.range 4).map (fun j => fld b (287 + 32 * j) (256 + 32 * j))
def boxFill (b : Nat) : Nat := fld b 415 384
def boxEndp (b : Nat) : Nat := fld b 447 416

/-- The elements of a box, dimension 0 fastest. -/
def boxElems (x : List Nat) : List (List Nat) :=
  (List.range (x.getD 3 0)).flatMap (fun a3 => (List.range (x.getD 2 0)).flatMap (fun a2 =>
    (List.range (x.getD 1 0)).flatMap (fun a1 => (List.range (x.getD 0 0)).map (fun a0 => [a0, a1, a2, a3]))))

def addIdx (x y : List Nat) : List Nat := (List.range 4).map (fun j => x.getD j 0 + y.getD j 0)

/-- Does a box at an origin lie within the view (R276)? -/
def boxFits (r : Nat) (org x : List Nat) : Bool := (List.range 4).all (fun j => decide (org.getD j 0 + x.getD j 0 ≤ hView r j))

/-- The lowest and highest byte of a box of a handle (R276). -/
def boxRange (r : Nat) (org : List Nat) (es : List (List Nat)) : Nat × Nat :=
  let as := es.map (fun a => (hAddr r (addIdx org a)).1)
  (as.foldl min (as.headD 0), as.foldl max 0 + max 1 (hBytes (hFmt r)) - 1)

def rangesMeet (a b : Nat × Nat) : Bool := decide (a.1 ≤ b.2) && decide (b.1 ≤ a.2)

/-- Can COPY convert between the formats (R277)? -/
def copyOk (src dst : Nat) : Bool := src == dst || (dst != 9 && !hRaw src && !hRaw dst)

/-- The element of a box, moved (R277). -/
def moveElem (s : State) (t : Team) (e rs rd : Nat) (js jd : List Nat) : MemR Unit :=
  if hFmt rs = hFmt rd then mbind (readCode s t e rs js) (fun s v => writeCode s t e rd jd v)
  else mbind (readElem s t e rs js) (fun s x => writeElem s t e rd jd (dec x.1 x.2))

/-- The bytes that a remote copy writes, element by element, at the addresses of the remote handle (R279). The
other half of a byte whose half-byte elements the box does not both cover is a free value (log entry 16). -/
def remoteBytes (s : State) (t : Team) (e rs rd : Nat) (b : Nat) : MemR (List (Nat × List Byte)) :=
  mfold (fun s (acc : List (Nat × List Byte)) a =>
    let js := addIdx (boxSrc b) a
    let x := hAddr rd (addIdx (boxDst b) a)
    let n := hBytes (hFmt rd)
    let put := fun (s : State) (v : Nat) =>
      if n ≠ 0 then mpure s (acc ++ [(x.1, toBytes n (elemCode rd v))])
      else
        let old := (((acc.find? (fun y => y.1 == x.1)).map (·.2)).getD [Config.freeByte (freeIdx s.fresh x.1)]).headD 0
        let w := if x.2 then old.toNat % 16 + 16 * (v % 16) else old.toNat / 16 * 16 + v % 16
        mpure s (acc.filter (fun y => y.1 != x.1) ++ [(x.1, [BitVec.ofNat 8 w])])
    if hFmt rs = hFmt rd then mbind (readCode s t e rs js) put
    else mbind (readElem s t e rs js) (fun s y => match hFloat (hFmt rd) with
      | some f => put s (roundTo f .rn 0 false (dec y.1 y.2)).1
      | none => mbind (readBook s t e rd) (fun s bk => put s (bookIndex bk (dec y.1 y.2)))))
    (boxElems (boxExt b)) s []

/-- Send a datagram of a command to an endpoint (R408). -/
def sendDatagram (s : State) (t : Team) (e endp a : Nat) (data : List Byte) : State :=
  { s with dgSeq := (s.dgSeq + 1) % 2 ^ 32,
           datagrams := s.datagrams ++ [{ seq := s.dgSeq, team := t.uid, e := e, endpoint := endp, addr := BitVec.ofNat 64 a, data := data,
                                          tries := 0, sentAt := timeOf s }] }

/-- Send the bytes of a remote copy as datagrams of at most one element each (R406, R408). -/
def sendRemote (s : State) (t : Team) (e endp : Nat) (xs : List (Nat × List Byte)) : State :=
  xs.foldl (fun s x => sendDatagram s t e endp x.1 x.2) s

/-- Is an entry of the endpoint table valid (R409)? -/
def endpointValid (s : State) (n : Nat) : Bool := decide (n < 4096) && fld (tget 0 s.mgmt.endpoints n) 48 48 == 1

/-- An endpoint that COPY may name: 1 to 4,095, with a valid entry (R409). -/
def endpointOk (s : State) (n : Nat) : Bool := decide (0 < n) && endpointValid s n

/-- The work of COPY (R276, R277, R279, R284). The bytes of a remote destination lie in another device, and meet no source byte (log
entry 111). -/
def runCopy (s : State) (t : Team) (e hd hs a : Nat) : MemR Nat :=
  mbind (readNat s t e a 64) (fun s b =>
    match t.record hs, t.record hd with
    | some rs, some rd =>
      let x := boxExt b
      if fld b 511 448 ≠ 0 then mpure s 2
      else if !copyOk (hFmt rs) (hFmt rd) then mpure s 4
      else if x.any (· == 0) then mpure s 1
      else if !(boxFits rs (boxSrc b) x && boxFits rd (boxDst b) x) then mpure s 3
      else
        let es := boxElems x
        let far := boxEndp b ≠ 0
        if !far && rangesMeet (boxRange rs (boxSrc b) es) (boxRange rd (boxDst b) es) then mpure s 5
        else if far && !endpointOk s (boxEndp b) then (s, .error (.poison, metStore (hAddr rd (boxDst b)).1))
        else if far then
          -- the remote address must lie in a package home of that device (R279)
          match es.find? (fun y => let z := (hAddr rd (addIdx (boxDst b) y)).1; 4 ≤ homeOf z || decide (2 ^ 62 ≤ z)) with
          | some y => (s, .error (.prot, metStore (hAddr rd (addIdx (boxDst b) y)).1))
          | none => mbind (remoteBytes s t e rs rd b) (fun s xs => mpure (sendRemote s t e (boxEndp b) xs) 0)
        else mbind (mfold (fun s _ y => moveElem s t e rs rd (addIdx (boxSrc b) y) (addIdx (boxDst b) y)) es s ())
          (fun s _ => mpure s 0)
    | _, _ => mpure s 2)

/-- The work of CFILL (R276, R277, R285): a raw and an FP32 destination take FILLV's bits. A nonzero ENDP is taken for a reserved bit
(log entry 112). -/
def runCfill (s : State) (t : Team) (e h a : Nat) : MemR Nat :=
  mbind (readNat s t e a 64) (fun s b =>
    match t.record h with
    | none => mpure s 2
    | some r =>
      let x := boxExt b
      if fld b 511 416 ≠ 0 then mpure s 2
      else if hFmt r = 9 then mpure s 4
      else if x.any (· == 0) then mpure s 1
      else if !boxFits r (boxDst b) x then mpure s 3
      else
        mbind (mfold (fun s _ y =>
          let j := addIdx (boxDst b) y
          if hRaw (hFmt r) ∨ hFmt r = 0 then writeCode s t e r j (boxFill b) else writeElem s t e r j (dec .f32 (boxFill b)))
          (boxElems x) s ()) (fun s _ => mpure s 0))

-- Collectives (R286 to R288): a record is a 1,024-bit number

def collMembers (r : Nat) : Nat := fld r 511 0
def collSrc (r : Nat) : Nat := fld r 575 512
def collDst (r : Nat) : Nat := fld r 639 576
def collCount (r : Nat) : Nat := fld r 671 640
def collKind (r : Nat) : Nat := fld r 675 672
def collDtype (r : Nat) : Nat := fld r 679 676
def collRoot (r : Nat) : Nat := fld r 688 680
def collNet (r : Nat) : Bool := fld r 703 703 == 1
def collTag (r : Nat) : Nat := fld r 735 704
def collCtl (r : Nat) : Nat := fld r 831 768

/-- The devices or endpoints of a collective, in rank order. -/
def collList (r : Nat) : List Nat := (List.range 512).filter (fun n => fld r n n == 1)

/-- This device's number among the members (R286). -/
def collSelf (s : State) (r : Nat) : Nat := if collNet r then 0 else s.mgmt.devNum

def collSize (r : Nat) : Nat := if collDtype r = 1 then 2 else 4

/-- Elements that this member's DST receives (R287). -/
def collOut (r : Nat) : Nat :=
  match collKind r with
  | 1 => collCount r / (collList r).length
  | 2 => collCount r * (collList r).length
  | _ => collCount r

/-- The member set, root or kind is invalid (R286, R287). -/
def collBadGrp (s : State) (r : Nat) : Bool :=
  let self := collSelf s r
  fld r 702 689 != 0 || fld r 767 736 != 0 || fld r 1023 832 != 0 || decide (4 ≤ collKind r) ||
  decide (2 ^ 30 < collCount r) || !(collList r).contains self ||
  (if collKind r = 3 then !(collList r).contains (collRoot r) else collRoot r != 0) ||
  (!collNet r && (!s.mgmt.devValid || (collList r).any (fun n => decide (s.mgmt.dsize ≤ n)))) ||
  (collKind r == 1 && collCount r % (collList r).length != 0)

/-- Does this member's SRC hold elements that it sends? -/
def collHasSrc (s : State) (r : Nat) : Bool := collKind r != 3 || collRoot r == collSelf s r

/-- A range of bytes must lie in package homes and be aligned (R287). -/
def collRange (a n size : Nat) : Option CmdOut :=
  if a % size ≠ 0 then some (.stop .align a)
  else if 2 ^ 62 ≤ a ∨ 4 ≤ homeOf a ∨ 4 ≤ homeOf (a + n - 1) then some (.stop .prot a)
  else none

/-- An endpoint among the members, entry 0 included, that has no valid entry ends the command as an unreachable one does (R409). -/
def collUnreachable (s : State) (r : Nat) : Bool := collNet r && (collList r).any (fun n => !endpointValid s n)

/-- The checks of COLL before it waits for its members (R286, R287, R409): a status, none where it waits. -/
def collCheck (s : State) (r : Nat) : Option CmdOut :=
  if collBadGrp s r then some (.done 7)
  else if 3 ≤ collDtype r ∨ (collDtype r = 2 ∧ collKind r < 2) then some (.done 4)
  else if collCount r = 0 then some (.done 1)
  else if collUnreachable s r then some (.stop .poison (collDst r))
  else none

/-- The checks of a matching set on this member's bytes (R287): its homes and alignment, then the overlap. -/
def collPlaces (r : Nat) : Option CmdOut :=
  let size := collSize r
  let n := collCount r * size
  let m := collOut r * size
  let src := collSrc r
  let dst := collDst r
  match (collRange src n size).orElse (fun _ => collRange dst m size) with
  | some o => some o
  | none =>
    if rangesMeet (src, src + n - 1) (dst, dst + m - 1) ∧ !(src = dst ∧ (collKind r = 0 ∨ collKind r = 3)) then some (.done 5)
    else none

/-- The code of an element as the FP32 value that a cell adds. -/
def collWide (dt : Nat) (x : Word) : Word := if dt = 1 then x <<< 16 else x

/-- The sum of one element over the members, delivered in its type (R287). -/
def collSum (dt : Nat) (xs : List Word) : Nat :=
  let hi := (cellRead (xs.foldl (fun c x => cellMerge c (cellAdd 0 (collWide dt x))) 0)).1
  if dt = 1 then (rne .bf16 (dec .f32 hi)).1 else hi

/-- What this member's DST receives from the elements that each member holds, in rank order (R287). -/
def collResult (r self : Nat) (data : List (Nat × List Word)) : List Nat :=
  let n := collCount r
  let col := fun (i : Nat) => data.map (fun x => x.2.getD i 0)
  let rank := ((collList r).filter (fun d => decide (d < self))).length
  match collKind r with
  | 0 => (List.range n).map (fun i => collSum (collDtype r) (col i))
  | 1 => (List.range (collOut r)).map (fun i => collSum (collDtype r) (col (rank * collOut r + i)))
  | 2 => data.flatMap (fun x => (List.range n).map (fun i => (x.2.getD i 0).toNat))
  | _ => ((data.find? (fun x => x.1 == collRoot r)).map (fun x => (List.range n).map (fun i => (x.2.getD i 0).toNat))).getD []

/-- A collective over Ethernet tells each other member that it has begun, in a datagram that must be acknowledged (R408); what the
datagrams of a collective hold is not stated (log entry 113). -/
def collTell (s : State) (t : Team) (e r : Nat) : State :=
  if collNet r then ((collList r).filter (· != 0)).foldl (fun s n => sendDatagram s t e n (collDst r) (toBytes 4 (collTag r))) s else s

/-- Read the elements of SRC. -/
def collRead (s : State) (t : Team) (e r : Nat) : MemR (List Word) :=
  let size := collSize r
  mfold (fun s (acc : List Word) i => mbind (readNat s t e (collSrc r + i * size) size) (fun s v =>
    mpure s (acc ++ [BitVec.ofNat 32 v]))) (List.range (collCount r)) s []

/-- Write elements to DST. -/
def collWrite (s : State) (t : Team) (e r : Nat) (xs : List Nat) : MemR Unit :=
  let size := collSize r
  mfold (fun s _ i => writeCtx s t e (collDst r + i * size) (toBytes size (xs.getD i 0))) (List.range xs.length) s ()

/-- Do the members' records agree (R287)? -/
def collAgrees (r : Nat) (x : Member) : Bool :=
  x.kind == collKind r && x.dtype == collDtype r && x.count == collCount r && x.root == collRoot r && x.net == collNet r

/-- The exchange of a matched collective at this member (R287): `others` are the other members. -/
def runExchange (s : State) (t : Team) (e r : Nat) (others : List Member) : MemR Nat :=
  let self := collSelf s r
  if !others.all (collAgrees r) then mpure s 8
  else match collPlaces r with
  | some (.done st) => mpure s st
  | some (.stop c a) => (s, .error (c, a))
  | _ =>
    mbind (if collHasSrc s r then collRead s t e r else mpure s []) (fun s mine =>
      let data := (collList r).map (fun d => (d, if d = self then mine
        else ((others.find? (fun x => x.device == d)).map (·.elems)).getD []))
      mbind (collWrite s t e r (collResult r self data)) (fun s _ => mpure s 0))

/-- The bytes of DST that an aborted collective leaves are free values (R288). -/
def abortColl (s : State) (t : Team) (e r : Nat) : State :=
  (List.range (collOut r * collSize r)).foldl (fun s i =>
    { (writeCtx s t e (collDst r + i) [Config.freeByte (freeIdx s.fresh 0)]).1 with fresh := s.fresh + 1 }) s

end Sys2Proof.Machine
end

