-- ==== Sys2Proof/Machine/Trans.lean ====
section
/-! DEFINITION. The correctly rounded functions 2^a, log₂ a, sin a and cos a of spec/06_numbers.md R147, evaluated in fixed
point with far more bits than a single rounding to FP32 can need, then rounded once. -/

namespace Sys2Proof.Machine

/-- Fraction bits of the fixed-point evaluations. -/
def fxBits : Nat := 512

/-- ⌊π × 2^512⌋. -/
def fxPi : Nat := 0x3243F6A8885A308D313198A2E03707344A4093822299F31D0082EFA98EC4E6C89452821E638D01377BE5466CF34E90C6CC0AC29B7C97C50DD3F84D5B5B5470917

/-- ⌊ln 2 × 2^512⌋. -/
def fxLn2 : Nat := 0xB17217F7D1CF79ABC9E3B39803F2F6AF40F343267298B62D8A0D175B8BAAFA2BE7B876206DEBAC98559552FB4AFA1B10ED2EAE35C138214427573B291169B825

/-- Σ of the series of e^x from term `t` on, where `t` is term number `k` − 1; `x` and the terms are scaled by 2^512. -/
def fxExp (x : Nat) : Nat → Nat → Nat → Nat
  | 0, _, _ => 0
  | n + 1, k, t => t + fxExp x n (k + 1) (t * x / 2 ^ fxBits / k)

/-- Σ of the alternating series with ratio −x²/(k(k+1)): sine from t = x, k = 2; cosine from t = 1, k = 1. -/
def fxTrig (x2 : Nat) : Nat → Nat → Int → Int
  | 0, _, _ => 0
  | n + 1, k, t => t + fxTrig x2 n (k + 2) (-(t * (x2 : Int) / (2 ^ fxBits : Nat) / ((k * (k + 1) : Nat) : Int)))

/-- Σ z^(2i+1)/(2i+1): the series of artanh z. -/
def fxAtanh (z2 : Nat) : Nat → Nat → Nat → Nat
  | 0, _, _ => 0
  | n + 1, k, t => t / k + fxAtanh z2 n (k + 2) (t * z2 / 2 ^ fxBits)

/-- A finite value scaled by 2^512, toward minus infinity. -/
def toFx (neg : Bool) (m : Nat) (e : Int) : Int :=
  let s := e + (fxBits : Int)
  if 0 ≤ s then sgn neg (m <<< s.toNat) else Int.fdiv (sgn neg m) (2 ^ (-s).toNat : Nat)

/-- A fixed-point result that is known to be inexact. -/
def ofFx (i : Int) (e : Int) : Num := .fin (decide (i < 0)) i.natAbs (e - (fxBits : Int)) true

/-- 2^a (R147). -/
def exp2Num : Num → Num
  | .nan i => .nan i
  | .inf n => if n then .fin false 0 0 false else .inf false
  | .fin neg m e _ =>
    if m = 0 then .fin false 1 0 false else
    -- beyond ±1,024 the result overflows or is tiny whatever the fraction
    if 11 ≤ (Nat.log2 m : Int) + e then (if neg then .fin false 1 (-1024) true else .fin false 1 1024 true) else
    let x := toFx neg m e
    let i := Int.fdiv x (2 ^ fxBits : Nat)
    let f := (Int.fmod x (2 ^ fxBits : Nat)).toNat
    if f = 0 then .fin false 1 i false
    else ofFx (fxExp (f * fxLn2 / 2 ^ fxBits) 110 1 (2 ^ fxBits)) i

/-- log₂ a and DZ (R147). -/
def log2Num : Num → Num × Flags
  | .nan i => (.nan i, 0)
  | .inf n => (if n then .nan true else .inf false, 0)
  | .fin neg m e _ =>
    if m = 0 then (.inf true, fDZ) else if neg then (.nan true, 0) else
    let l := Nat.log2 m
    let E : Int := (l : Int) + e
    if m = 2 ^ l then (ofInt E 0 false, 0) else
    let z := ((m - 2 ^ l) <<< fxBits) / (m + 2 ^ l)
    let ln := 2 * fxAtanh (z * z / 2 ^ fxBits) 170 1 z
    (ofFx (E * (2 ^ fxBits : Nat) + ((ln <<< fxBits) / fxLn2 : Nat)) 0, 0)

/-- Quadrant and remainder of |a| by π/2, in fixed point (R147: reduction as if by the real number π). -/
def reduce (m : Nat) (e : Int) : Nat × Nat :=
  let x := (toFx false m e).toNat
  let k := 2 * x / fxPi
  (k, x - k * fxPi / 2)

/-- The sine (`q = 0`) or cosine (`q = 1`) of a positive finite value. -/
def trigFin (q : Nat) (m : Nat) (e : Int) : Num :=
  let (k, r) := reduce m e
  let x2 := r * r / 2 ^ fxBits
  let v := if (k + q) % 2 = 0 then fxTrig x2 60 2 r else fxTrig x2 60 1 (2 ^ fxBits : Nat)
  ofFx (if (k + q) / 2 % 2 = 0 then v else -v) 0

/-- sin a (R147). -/
def sinNum : Num → Num
  | .nan i => .nan i
  | .inf _ => .nan true
  | .fin neg m e _ => if m = 0 then .fin neg 0 0 false else
    let v := trigFin 0 m e
    if neg then v.neg else v

/-- cos a (R147). -/
def cosNum : Num → Num
  | .nan i => .nan i
  | .inf _ => .nan true
  | .fin _ m e _ => if m = 0 then .fin false 1 0 false else trigFin 1 m e

end Sys2Proof.Machine
end

