-- ==== Sys2Proof/Machine/Flt.lean ====
section
/-! DEFINITION. Floating-point instructions, activation tables and the random streams (spec/06_numbers.md R133 to R168). -/

namespace Sys2Proof.Machine

-- Shapes

/-- The exact value of source `i` in FP32 or FP64. -/
def LaneIn.bits (x : LaneIn) (f : Fmt) (i : Nat) : Nat := if f = .f64 then (x.d i).toNat else (x.w i).toNat
def LaneIn.num (x : LaneIn) (f : Fmt) (i : Nat) : Num := dec f (x.bits f i)

/-- A result in FP32 or FP64 with its fst bits. -/
def fltOut (f : Fmt) (r : Nat × Flags) : LaneOut :=
  { regs := if f = .f64 then [lo32 (BitVec.ofNat 64 r.1), hi32 (BitVec.ofNat 64 r.1)] else [BitVec.ofNat 32 r.1],
    fst := r.2, setsFst := true }

/-- Round an exact value of `n` operands to the format they are in (R133, R136). -/
def fltRes (f : Fmt) (mode : Rnd) (n : Nat) (g : LaneIn → Num × Flags) (x : LaneIn) : LaneOut :=
  let v := g x
  let r := withOperands f ((List.range n).map (x.bits f)) (roundTo f mode 0 false v.1)
  fltOut f (r.1, r.2 ||| v.2)

/-- The sources of an FP32 or FP64 instruction. -/
def fltSrcs (f : Fmt) (ns : List Name) : List Opnd := ns.map (oW (f == .f64))

/-- A fixed-latency FP32 instruction (latency 4), or FP64 (latency 8, half rate) (R76). -/
def fltAlu (f : Fmt) (ns : List Name) (d : Name) (mode : Rnd) (g : LaneIn → Num × Flags) : Alu :=
  { front := { srcs := fltSrcs f ns, dst := dW (f == .f64) d }, lat := if f = .f64 then 8 else 4, half := f == .f64,
    run := perLane (fltRes f mode ns.length g) }

/-- A flag-tracked FP32 or FP64 function (R158, R162). -/
def fltValue (c : Common) (f : Fmt) (ns : List Name) (d : Name) (mode : Rnd) (g : LaneIn → Num × Flags) (s : State) : Out :=
  execValue c { srcs := fltSrcs f ns, dst := dW (f == .f64) d } (f == .f64) (fun _ => none)
    (perLane (fltRes f mode ns.length g)) s

def addG (f : Fmt) (r : Rnd) (sub : Bool) (x : LaneIn) : Num × Flags :=
  (sumNum (r == .rm) [x.num f 0, if sub then (x.num f 1).neg else x.num f 1], 0)
def mulG (f : Fmt) (x : LaneIn) : Num × Flags := (mulNum (x.num f 0) (x.num f 1), 0)
def fmaG (f : Fmt) (r : Rnd) (x : LaneIn) : Num × Flags :=
  (sumNum (r == .rm) [mulNum (x.num f 0) (x.num f 1), x.num f 2], 0)

-- FP32 arithmetic

/-- R155. -/
def execFadd (c : Common) (d a b : Name) (r : Rnd) (s : State) : Out := execAlu c (fltAlu .f32 [a, b] d r (addG .f32 r false)) s
/-- R155. -/
def execFsub (c : Common) (d a b : Name) (r : Rnd) (s : State) : Out := execAlu c (fltAlu .f32 [a, b] d r (addG .f32 r true)) s
/-- R155. -/
def execFmul (c : Common) (d a b : Name) (r : Rnd) (s : State) : Out := execAlu c (fltAlu .f32 [a, b] d r (mulG .f32)) s
/-- R155. -/
def execFfma (c : Common) (d a b x : Name) (r : Rnd) (s : State) : Out :=
  execAlu c (fltAlu .f32 [a, b, x] d r (fmaG .f32 r)) s

/-- FMIN and FMAX (R156): −0 below +0; one NaN gives the other operand. -/
def fminmax (gt : Bool) (x : LaneIn) : LaneOut :=
  let a := (x.w 0).toNat
  let b := (x.w 1).toNat
  let u := x.num .f32 0
  let v := x.num .f32 1
  let below := match cmpNum u v with
    | .lt => true
    | .gt => false
    | .eq => u.negOf || !v.negOf
  let r := if u.isNan && v.isNan then fmtNan .f32
    else if u.isNan then b else if v.isNan then a
    else if below != gt then a else b
  fltOut .f32 (withOperands .f32 [a, b] (r, 0))

/-- R156. -/
def execFmin (c : Common) (d a b : Name) (s : State) : Out :=
  execAlu c { front := { srcs := [o1 a, o1 b], dst := d1 d }, lat := 4, run := perLane (fminmax false) } s
/-- R156. -/
def execFmax (c : Common) (d a b : Name) (s : State) : Out :=
  execAlu c { front := { srcs := [o1 a, o1 b], dst := d1 d }, lat := 4, run := perLane (fminmax true) } s

/-- a cond b and whether an ordered compare met a NaN (R157). -/
def fcmpRes (cond : FCond) (a b : Num) : Bool × Flags :=
  if a.isNan || b.isNan then
    match cond with
    | .un | .ne => (true, 0)
    | .eq => (false, 0)
    | _ => (false, fIV)
  else
    let o := cmpNum a b
    (match cond with
      | .eq => o == .eq
      | .ne => o != .eq
      | .lt => o == .lt
      | .le => o != .gt
      | .gt => o == .gt
      | .ge => o != .lt
      | .un => false, 0)

/-- FCMP and DCMP (R157). -/
def fcmpAlu (f : Fmt) (pd : Nat) (a b : Name) (cond : FCond) : Alu :=
  { front := { srcs := fltSrcs f [a, b] }, lat := if f = .f64 then 8 else 4, half := f == .f64, run := perLane (fun x =>
      let r := fcmpRes cond (x.num f 0) (x.num f 1)
      { preds := [(pd, r.1)], setsFst := true,
        fst := (withOperands f [x.bits f 0, x.bits f 1] (0, r.2)).2 }) }

/-- R157. -/
def execFcmp (c : Common) (pd : Nat) (a b : Name) (cond : FCond) (s : State) : Out := execAlu c (fcmpAlu .f32 pd a b cond) s
/-- R157. -/
def execDcmp (c : Common) (pd : Nat) (a b : Name) (cond : FCond) (s : State) : Out := execAlu c (fcmpAlu .f64 pd a b cond) s

-- Correctly rounded functions (R147, R158)

/-- 1.0 as an exact value. -/
def oneNum : Num := .fin false 1 0 false

/-- R158. -/
def execFdiv (c : Common) (d a b : Name) (r : Rnd) (s : State) : Out :=
  fltValue c .f32 [a, b] d r (fun x => divNum (x.num .f32 0) (x.num .f32 1)) s
/-- R158. -/
def execFsqrt (c : Common) (d a : Name) (r : Rnd) (s : State) : Out :=
  fltValue c .f32 [a] d r (fun x => (sqrtNum (x.num .f32 0), 0)) s
/-- R158. -/
def execFrcp (c : Common) (d a : Name) (s : State) : Out :=
  fltValue c .f32 [a] d .rn (fun x => divNum oneNum (x.num .f32 0)) s
/-- R158. -/
def execFrsq (c : Common) (d a : Name) (s : State) : Out := fltValue c .f32 [a] d .rn (fun x => rsqNum (x.num .f32 0)) s
/-- R158. -/
def execFexp2 (c : Common) (d a : Name) (s : State) : Out :=
  fltValue c .f32 [a] d .rn (fun x => (exp2Num (x.num .f32 0), 0)) s
/-- R158. -/
def execFlog2 (c : Common) (d a : Name) (s : State) : Out := fltValue c .f32 [a] d .rn (fun x => log2Num (x.num .f32 0)) s
/-- R158. -/
def execFsin (c : Common) (d a : Name) (s : State) : Out :=
  fltValue c .f32 [a] d .rn (fun x => (sinNum (x.num .f32 0), 0)) s
/-- R158. -/
def execFcos (c : Common) (d a : Name) (s : State) : Out :=
  fltValue c .f32 [a] d .rn (fun x => (cosNum (x.num .f32 0), 0)) s

-- Rounding to an integer, classes, scaling

/-- FRND (R159): an integral value; the sign of a zero is a's; never IX. -/
def frndRes (mode : Rnd) (a : Nat) : Nat × Flags :=
  let v := match dec .f32 a with
    | .fin neg m e _ => ofInt (roundInt mode neg m e).1 0 neg
    | v => v
  withOperands .f32 [a] (rne .f32 v)

/-- R159. -/
def execFrnd (c : Common) (d a : Name) (r : Rnd) (s : State) : Out :=
  execAlu c { front := { srcs := [o1 a], dst := d1 d }, lat := 4,
              run := perLane (fun x => fltOut .f32 (frndRes r (x.w 0).toNat)) } s

/-- The class bit of a value (R160). -/
def classBit (f : Fmt) (x : Nat) : Nat :=
  match dec f x with
  | .nan sig => if sig then 9 else 8
  | .inf neg => if neg then 0 else 7
  | .fin neg m _ _ =>
    if m = 0 then (if neg then 3 else 4)
    else if subFlag f x ≠ 0 then (if neg then 2 else 5)
    else if neg then 1 else 6

/-- R160. -/
def execFcls (c : Common) (d a : Name) (form : ClsForm) (s : State) : Out :=
  match form with
  | .f32 => execAlu c { front := { srcs := [o1 a], dst := d1 d }, lat := 4,
                        run := perLane (fun x => .word (BitVec.ofNat 32 (2 ^ classBit .f32 (x.w 0).toNat))) } s
  | .f64 => execAlu c { front := { srcs := [o2 a], dst := d1 d }, lat := 4,
                        run := perLane (fun x => .word (BitVec.ofNat 32 (2 ^ classBit .f64 (x.d 0).toNat))) } s
  | .fst => execAlu c { front := { srcs := [o1 a], dst := d1 d, perLane := true, readsFst := true }, lat := 4,
                        run := perLane (fun x =>
                          { regs := [x.lane.fst.setWidth 32], clr := (x.w 0).setWidth 6, setsFst := true }) } s

/-- a × 2^n (R161). Beyond a thousand binades either way the rounded result no longer changes. -/
def scaleNum (v : Num) (n : Int) : Num :=
  match v with
  | .fin neg m e st => .fin neg m (e + max (-1000) (min 1000 n)) st
  | v => v

/-- R161. -/
def execFscl (c : Common) (d a n : Name) (r : Rnd) (s : State) : Out :=
  execAlu c { front := { srcs := [o1 a, o1 n], dst := d1 d }, lat := 4, run := perLane (fun x =>
    fltOut .f32 (withOperands .f32 [(x.w 0).toNat] (roundTo .f32 r 0 false (scaleNum (x.num .f32 0) (x.w 1).toInt)))) } s

-- FP64

/-- R162. -/
def execDadd (c : Common) (d a b : Name) (r : Rnd) (sub : Bool) (s : State) : Out :=
  execAlu c (fltAlu .f64 [a, b] d r (addG .f64 r sub)) s
/-- R162. -/
def execDmul (c : Common) (d a b : Name) (r : Rnd) (s : State) : Out := execAlu c (fltAlu .f64 [a, b] d r (mulG .f64)) s
/-- R162. -/
def execDfma (c : Common) (d a b x : Name) (r : Rnd) (s : State) : Out :=
  execAlu c (fltAlu .f64 [a, b, x] d r (fmaG .f64 r)) s
/-- R162. -/
def execDdiv (c : Common) (d a b : Name) (r : Rnd) (s : State) : Out :=
  fltValue c .f64 [a, b] d r (fun x => divNum (x.num .f64 0) (x.num .f64 1)) s
/-- R162. -/
def execDsqrt (c : Common) (d a : Name) (r : Rnd) (s : State) : Out :=
  fltValue c .f64 [a] d r (fun x => (sqrtNum (x.num .f64 0), 0)) s

-- Two 16-bit elements (R163)

/-- Element `k` of a register. -/
def half16 (x : Word) (k : Nat) : Nat := fld x.toNat (16 * k + 15) (16 * k)

/-- One element of BADD2, BFMA2 or HFMA2: a + b, or a × b + c, rounded once. -/
def elem16 (f : Fmt) (mode : Rnd) (sat : Bool) (xs : List Nat) : Nat × Flags :=
  let v := match xs.map (dec f) with
    | [a, b, c] => sumNum false [mulNum a b, c]
    | l => sumNum false l
  withOperands f xs (roundTo f mode 0 sat v)

def pair16Alu (f : Fmt) (ns : List Name) (d : Name) (rz sat : Bool) : Alu :=
  { front := { srcs := ns.map o1, dst := d1 d }, lat := 4, run := perLane (fun x =>
      let r := fun k => elem16 f (if rz then .rz else .rn) sat ((List.range ns.length).map (fun i => half16 (x.w i) k))
      fltOut .f32 ((r 0).1 + 65536 * (r 1).1, (r 0).2 ||| (r 1).2)) }

/-- R163. -/
def execBadd2 (c : Common) (d a b : Name) (rz sat : Bool) (s : State) : Out := execAlu c (pair16Alu .bf16 [a, b] d rz sat) s
/-- R163. -/
def execBfma2 (c : Common) (d a b x : Name) (rz sat : Bool) (s : State) : Out :=
  execAlu c (pair16Alu .bf16 [a, b, x] d rz sat) s
/-- R163. -/
def execHfma2 (c : Common) (d a b x : Name) (rz sat : Bool) (s : State) : Out :=
  execAlu c (pair16Alu .f16 [a, b, x] d rz sat) s

-- Conversions

def cvt64 : CvtTy → Bool
  | .fl .f64 | .int .s64 | .int .n64 => true
  | _ => false

/-- The exact value of a source of a type, and the fst bits of reading it (R136, R164). -/
def cvtSrc (t : CvtTy) (x : DWord) : Num × Flags :=
  match t with
  | .fl f => (dec f x.toNat, dnOf f [x.toNat])
  | .int .s32 => (ofInt (lo32 x).toInt 0 false, 0)
  | .int .n32 => (ofInt (lo32 x).toNat 0 false, 0)
  | .int .s64 => (ofInt x.toInt 0 false, 0)
  | .int .n64 => (ofInt x.toNat 0 false, 0)

/-- The range of an integer type. -/
def intRange : ITy → Int × Int
  | .s32 => (-(2 ^ 31), 2 ^ 31 - 1)
  | .n32 => (0, 2 ^ 32 - 1)
  | .s64 => (-(2 ^ 63), 2 ^ 63 - 1)
  | .n64 => (0, 2 ^ 64 - 1)

/-- A value converted to an integer type (R164); a finite value outside the range sets IX as well as IV (R136). -/
def toIntRes (t : ITy) (mode : Rnd) (v : Num) : Int × Flags :=
  let (lo, hi) := intRange t
  match v with
  | .nan _ => (0, fIV)
  | .inf neg => (if neg then lo else hi, fIV)
  | .fin neg m e _ =>
    let (n, inexact) := roundInt mode neg m e
    if n < lo then (lo, fIV ||| fIX) else if hi < n then (hi, fIV ||| fIX) else (n, if inexact then fIX else 0)

/-- CVT's result as a bit pattern (R164). -/
def cvtRes (dt st : CvtTy) (r : Rnd) (sat : Bool) (x : DWord) (rb : Word) : DWord × Flags :=
  let v := cvtSrc st x
  match dt with
  | .int t => let q := toIntRes t r v.1; (BitVec.ofInt 64 q.1, q.2 ||| v.2)
  | .fl f => let q := roundTo f r rb.toNat sat v.1; (BitVec.ofNat 64 q.1, q.2 ||| v.2)

/-- R164. -/
def execCvt (c : Common) (d a rb : Name) (dt st : CvtTy) (r : Rnd) (sat : Bool) (s : State) : Out :=
  execAlu c
    { front := { srcs := oW (cvt64 st) a :: (if r = .rx then [o1 rb] else []), dst := dW (cvt64 dt) d }, lat := 4,
      half := dt == .fl .f64 || st == .fl .f64,
      run := perLane (fun x =>
        let q := cvtRes dt st r sat (if cvt64 st then x.d 0 else (x.w 0).setWidth 64) (x.w 1)
        { regs := if cvt64 dt then [lo32 q.1, hi32 q.1] else [lo32 q.1], fst := q.2, setsFst := true }) } s

/-- Field width of a packed format (R165). -/
def packW : Fmt → Nat
  | .f16 | .bf16 => 16
  | .e2m1 => 4
  | _ => 8

/-- R165. -/
def execPack (c : Common) (d a j : Name) (f : Fmt) (s : State) : Out :=
  execAlu c { front := { srcs := [o1 a, o1 j], dst := d1 d, readsDst := true }, lat := 4, run := perLane (fun x =>
    let w := packW f
    let k := (x.w 1).toNat % (32 / w)
    let old := (x.old.getD 0 0).toNat
    let r := withOperands .f32 [(x.w 0).toNat] (rne f (x.num .f32 0))
    fltOut .f32 (old / 2 ^ (w * (k + 1)) * 2 ^ (w * (k + 1)) + r.1 * 2 ^ (w * k) + old % 2 ^ (w * k), r.2)) } s

/-- R165. -/
def execUnpk (c : Common) (d a j : Name) (f : Fmt) (s : State) : Out :=
  execAlu c { front := { srcs := [o1 a, o1 j], dst := d1 d }, lat := 4, run := perLane (fun x =>
    let w := packW f
    let k := (x.w 1).toNat % (32 / w)
    .word (BitVec.ofNat 32 (rne .f32 (dec f ((x.w 0).toNat / 2 ^ (w * k) % 2 ^ w))).1)) } s

-- Activation tables

/-- A word of a slot's image: 0 the function, 1 the derivative (R148). A slot never loaded holds zeros. -/
def tableWord (t : List Word) (img i : Nat) : Nat := (t.getD (1040 * img + i) 0).toNat

/-- RoundRNE(f32, ·) as an exact value, with its IV bit. -/
def stepRne (v : Num) : Num × Flags :=
  let r := rne .f32 v
  (dec .f32 r.1, r.2 &&& fIV)

/-- Evaluation of an image at x (R149): the FP32 result and the bits IV and OF. Where a step gives a NaN for t, the manual
states no result: the free value (log entry 13). A result y that is a knot itself (SL or SR = 0) is the knot read as a number: a
signalling NaN knot gives the canonical NaN and no IV (log entry 116). -/
def actEval (t : List Word) (img : Nat) (free : Word) (x : Nat) : Nat × Flags :=
  let f := fun i => dec .f32 (tableWord t img i)
  let knot := fun i => f (8 + i)
  match dec .f32 x with
  | .nan sig => (fmtNan .f32, if sig then fIV else 0)
  | v =>
    let d := stepRne (sumNum false [v, (f 0).neg])
    let q := stepRne (mulNum d.1 (f 2))
    let fl := d.2 ||| q.2
    -- one end of the table: the knot, or a line of the slope from `b`
    let line := fun (b : Num × Flags) (slope knotV : Num) =>
      if slope.isZero then ((rne .f32 knotV).1, fl ||| b.2)
      else
        let y := rne .f32 (sumNum false [mulNum b.1 slope, knotV])
        (y.1, fl ||| b.2 ||| (y.2 &&& (fIV ||| fOF)))
    match q.1 with
    | .nan _ => (free.toNat, fl)
    | tv =>
      if cmpNum tv (.fin false 0 0 false) = .lt then line d (f 3) (knot 0)
      else if cmpNum tv (.fin false 1024 0 false) ≠ .lt then
        line (stepRne (sumNum false [v, (f 1).neg])) (f 4) (knot 1024)
      else
        let i := match tv with
          | .fin _ m e _ => (roundInt .rz false m e).1.toNat
          | _ => 0
        let fr := sumNum false [tv, .fin true i 0 false]
        let dl := stepRne (sumNum false [knot (i + 1), (knot i).neg])
        let y := rne .f32 (sumNum false [mulNum fr dl.1, knot i])
        (y.1, fl ||| dl.2 ||| (y.2 &&& (fIV ||| fOF)))

/-- The words of a core's table slot (R150). -/
def tableOf (s : State) (core slot : Nat) : List Word := (coreOf s core).tables.getD slot []

/-- ACT in one lane (R166). -/
def actOut (t : List Word) (free : Word) (x : Word) : LaneOut := fltOut .f32 (actEval t 0 free x.toNat)

/-- ACTD in one lane (R166): the evaluation's own bits are IV and OF; the product's are those of R136. -/
def actdOut (t : List Word) (free : Word) (x g : Word) : LaneOut :=
  let dv := actEval t 1 free x.toNat
  let r := withOperands .f32 [g.toNat] (rne .f32 (mulNum (dec .f32 dv.1) (dec .f32 g.toNat)))
  fltOut .f32 (r.1, r.2 ||| dv.2)

/-- R166. -/
def execAct (c : Common) (d x : Name) (slot : Nat) (s : State) : Out :=
  execAlu c { front := { srcs := [o1 x], dst := d1 d }, lat := 8,
              run := fun v inp i => actOut (tableOf s v.core slot) (Config.freeWord (freeIdx s.fresh i)) ((inp i).w 0) } s

/-- R166. -/
def execActd (c : Common) (d x g : Name) (slot : Nat) (s : State) : Out :=
  execAlu c { front := { srcs := [o1 x, o1 g], dst := d1 d }, lat := 8,
              run := fun v inp i => actdOut (tableOf s v.core slot) (Config.freeWord (freeIdx s.fresh i)) ((inp i).w 0)
                ((inp i).w 1) } s

-- XCG4

/-- Ten rounds of R151 on (x0, x1, x2, x3): the rounds j, j + 1, …. -/
def xcgRounds (k0 k1 : Word) : Nat → Nat → Word × Word × Word × Word → Word × Word × Word × Word
  | 0, _, x => x
  | n + 1, j, (x0, x1, x2, x3) =>
    let a := k0 + BitVec.ofNat 32 j * 0x5A3C96E1
    let b := k1 + BitVec.ofNat 32 j * 0xC78D2B4F
    let y0 := x0 + x3 + a
    let y1 := rotL32 (x1 ^^^ y0) 8
    let y2 := x2 + y1 + b
    let y3 := rotL32 (x3 ^^^ y2) 20
    xcgRounds k0 k1 n (j + 1) (y0, y3, y2, y1)
where
  rotL32 (x : Word) (n : Nat) : Word := x.rotateLeft n

/-- R151. -/
def xcg4 (ctr : Word × Word × Word × Word) (k0 k1 : Word) : List Word :=
  let r := xcgRounds k0 k1 10 1 ctr
  [r.1, r.2.1, r.2.2.1, r.2.2.2]

/-- R167. -/
def execXrng (c : Common) (d ctr key : Name) (s : State) : Out :=
  execAlu c { front := { srcs := [{ name := ctr, words := 4 }, o2 key], dst := some { name := d, words := 4 } }, lat := 8,
              run := perLane (fun x =>
                let q := x.vals.getD 0 []
                let k := x.vals.getD 1 []
                { regs := xcg4 (q.getD 0 0, q.getD 1 0, q.getD 2 0, q.getD 3 0) (k.getD 0 0) (k.getD 1 0) }) } s

/-- R168. -/
def execXrngf (c : Common) (d a : Name) (s : State) : Out :=
  execAlu c { front := { srcs := [o1 a], dst := d1 d }, lat := 4, run := perLane (fun x =>
    .word (BitVec.ofNat 32 (rne .f32 (.fin false ((x.w 0).toNat / 256) (-24) false)).1)) } s

end Sys2Proof.Machine
end

