-- ==== Sys2Proof/Machine/Sub.lean ====
section
/-! DEFINITION. Precision subscriptions (spec/09_subscriptions.md R211 to R235): the five instructions and the steps
REGISTER, APPLY, LEAVE, SLD, PEERSLD, the eviction of a registered line, and the loss of a directory entry. -/

namespace Sys2Proof.Machine

-- Tables

/-- The lines of a region. -/
def Region.lines (r : Region) : List Line := (List.range (r.len / 128)).map (fun i => { r.line with addr := r.line.addr + 128 * i })
def Region.holds (r : Region) (l : Line) : Bool :=
  r.line.ctx == l.ctx && decide (r.line.addr ≤ l.addr) && decide (l.addr < r.line.addr + r.len)

/-- The region of a team that holds a line (R211). -/
def teamRegion (s : State) (core uid : Nat) (l : Line) : Option Region :=
  (coreOf s core).regions.find? (fun r => r.team == uid && r.holds l)

def subLine (s : State) (core : Nat) (l : Line) : Option SubLine := (coreOf s core).sub.find? (fun x => x.line == l)
def modSub (s : State) (core : Nat) (l : Line) (f : SubLine → SubLine) : State :=
  modCore s core (fun c => { c with sub := modWhere (fun x => x.line == l) f c.sub })

/-- Ask the home to register a line (R217): the answer's second part is the Register. -/
def askLine (s : State) (core : Nat) (r : Region) (l : Line) : State × Nat :=
  let x := sendReq s .register core l r.f r.inv r.t
  (modSub x.1 core l (fun y => { y with asked := some x.2, refused := none, fault := none }), x.2)

/-- The snapshot copies of a region's lines go: none is kept of a subscribed line (R187, R224). -/
def Region.dropCopies (r : Region) (m : LocalMem) : LocalMem :=
  r.lines.foldl (fun m l => m.dropCopy (lineOf l.ctx l.addr)) m

/-- Create a region with its lines, none registered. -/
def addRegion (s : State) (core : Nat) (r : Region) : State :=
  modCore s core (fun c =>
    { c with regions := c.regions ++ [r], mem := r.dropCopies c.mem,
             sub := c.sub ++ r.lines.map (fun l => { line := l, registered := false, asked := none, view := [], f := r.f,
                                                     inv := r.inv, next := none, refused := none, fault := none }) })

/-- End a region (R232): Leave goes for every line that is registered or whose Register is in flight. The answer's second
part names the Leave messages. -/
def endRegion (s : State) (core : Nat) (r : Region) : State × List Nat :=
  let x := ((coreOf s core).sub.filter (fun x => r.holds x.line && (x.registered || x.asked.isSome))).foldl
    (fun (a : State × List Nat) x =>
      let y := sendReq a.1 .leave core x.line x.f false r.t
      (y.1, a.2 ++ [y.2])) (s, [])
  (modCore x.1 core (fun c => { c with regions := c.regions.filter (fun y => !(y.team == r.team && y.line == r.line)),
                                       mem := r.dropCopies c.mem, sub := c.sub.filter (fun y => !r.holds y.line) }), x.2)

/-- A region the same in every field but its count. -/
def Region.same (a b : Region) : Bool := { a with count := 0 } == { b with count := 0 }

/-- Has a core room for a region, with no overlap (R211): the status, 0 when nothing is wrong. -/
def regionRoom (s : State) (core : Nat) (r : Region) : Nat :=
  let c := coreOf s core
  if 64 ≤ c.regions.length ∨ 1024 < c.sub.length + r.len / 128 then 1
  else if r.lines.any (fun l => c.regions.any (fun x => x.holds l)) then 2
  else 0

/-- R231's checks in order: the fields of R230, then, but for a region that the team owns already, the limits of R211 and
overlap. The status is 0 when nothing is wrong. -/
def sbscStatus (s : State) (core : Nat) (r : Region) (rsv : Word) : Nat :=
  let h := homeOf r.line.addr
  let ca := r.caddr.toNat
  if rsv ≠ 0 ∨ r.len = 0 ∨ r.len % 128 ≠ 0 ∨ 65536 < r.len ∨ homeOf (r.line.addr + r.len - 1) ≠ h ∨
      (ca ≠ 0 ∧ (ca % 8 ≠ 0 ∨ 4 ≤ homeOf ca ∨ ca / 2 ^ 62 ≠ 0)) then 4
  else if (coreOf s core).regions.any (fun x => x.same r) then 0
  else regionRoom s core r

/-- Is an entry an SBSC at an address whose registrations are under way? -/
def settingUp (a : Nat) : MemKind → Bool
  | .sbsc b _ _ _ _ _ _ started _ => started && decide (b.toNat = a)
  | _ => false

/-- Is a region of a team being set up by an SBSC (R231)? -/
def Region.starting (r : Region) (t : Team) : Bool :=
  t.gangs.any (fun g => g.lanes.any (fun l => l.queue.any (fun e => settingUp r.line.addr e.kind)))

/-- The same request of another lane of the operation (R231). -/
def sameSbsc : MemKind → MemKind → Bool
  | .sbsc a f i t len rs ca _ _, .sbsc a' f' i' t' len' rs' ca' _ _ =>
    a == a' && f == f' && i == i' && t == t' && len == len' && rs == rs' && ca == ca'
  | _, _ => false

/-- The entry of lane `i` that asks for the region that `p` asks for: its place in the queue. -/
def sbscPeer (t : Team) (p : Part) (i : Nat) : Option Nat :=
  ((t.gang p.g).lane i).queue.findIdx? (fun e => e.op == p.op.op && sameSbsc e.kind p.op.kind)

/-- The parts of SBSC's lanes that ask for one region, which act once (R231); none until each may take its step. -/
def sbscPeers (s : State) (p : Part) : Option (List Part) :=
  let at_ := (List.range 32).filterMap (fun i => (sbscPeer p.team p i).map (fun k => (i, k)))
  let ps := at_.filterMap (fun x => partOf s p.uid p.g x.1 x.2)
  if ps.length = at_.length then some ps else none

/-- SBSC's part of the lanes that ask for one region (R231), taken by the lowest of them. Where another lane's UNSB has ended the region
in the meantime, it finds no line that is still awaited and answers DONE (log entry 119). -/
def sbscPart (s : State) (p : Part) (ps : List Part) (r : Region) (rsv : Word) (started : Bool) (d : Dst) : State :=
  let stop := fun (s : State) (st : Nat) =>
    ps.foldl (fun s q => donePart (writeResult s q.uid q.g q.i q.op.op d [BitVec.ofNat 32 st]) q) s
  let start := fun (b : Bool) (s : State) => setPart s p (fun e =>
    match e.kind with
    | .sbsc a f i t len rs ca _ d => { e with kind := .sbsc a f i t len rs ca b d }
    | _ => e)
  if !started then
    match sbscStatus s p.core r rsv with
    | 0 =>
      if (coreOf s p.core).regions.any (fun x => x.same r) then (if r.starting p.team then s else stop s 0)
      else
        let s := addRegion (noteHome s p.uid (homeOf r.line.addr)) p.core r
        start true (r.lines.foldl (fun s l => (askLine s p.core r l).1) s)
    | st => stop s st
  else
    let lines := (coreOf s p.core).sub.filter (fun x => r.holds x.line)
    if lines.any (·.asked.isSome) then s
    else match lines.findSome? (fun x => x.fault.map (fun c => (c.2, x.line.addr))) with
      | some (c, a) =>
        let s := start false (endRegion s p.core r).1
        if c = .poison then partPoison s p a 0 else ps.foldl (fun s q => partFault s q c a 0) s
      | none => if lines.any (·.refused.isSome) then stop (endRegion s p.core r).1 3 else stop s 0

/-- UNSB's part of a lane (R232): it ends once every Leave is at its home. -/
def unsbPart (s : State) (p : Part) (a : Nat) (d : Dst) : State :=
  match p.op.acks with
  | _ :: _ => if p.op.acks.any (fun i => s.msgs.any (fun m => m.id == i)) then s else donePart s p
  | [] =>
    match teamRegion s p.core p.uid (viewLine p.ctx a) with
    | none => donePart (writeResult s p.uid p.g p.i p.op.op d [5]) p
    | some r =>
      let x := endRegion s p.core r
      let s := writeResult x.1 p.uid p.g p.i p.op.op d [0]
      if x.2.isEmpty then donePart s p else setPart s p (fun e => { e with acks := x.2 })

/-- The FP32 value that an SLD delivers for a view element (R213, R233). -/
def sldValue (t : EType) (f : Sys2Proof.View) (x : Nat) : Word :=
  match f, t with
  | .exact, .f32 => BitVec.ofNat 32 x
  | .exact, .bf16 => BitVec.ofNat 32 (x * 65536)
  | f, t => BitVec.ofNat 32 (rne .f32 (dec (viewFmt t f) x)).1

/-- The SLD waits for a Register. -/
def sldAsks (s : State) (p : Part) (n : Option Nat) : State :=
  setPart s p (fun e => match e.kind with
    | .sld a k _ d => { e with kind := .sld a k n d }
    | _ => e)

/-- An SLD miss: the SLD waits for the line's Register, sent now unless one is under way (R222, R233). -/
def sldMiss (s : State) (p : Part) (r : Region) (x : SubLine) : State :=
  match x.asked with
  | some n => sldAsks s p (some n)
  | none => let y := askLine s p.core r x.line; sldAsks y.1 p (some y.2)

/-- SLD's part of a lane (R222, R233). `asked` is the Register that this SLD waits for: what the home answered to another one is
not this SLD's. While the region's SBSC is under way an unregistered line waits for it. -/
def sldPart (s : State) (p : Part) (a : Nat) (asked : Option Nat) (d : Dst) : State :=
  let l := viewLine p.ctx a
  match teamRegion s p.core p.uid l, subLine s p.core l with
  | some r, some x =>
    let give := donePart (writeResult s p.uid p.g p.i p.op.op d [sldValue r.t x.f (x.view.getD (a % 128 / etypeBytes r.t) 0)]) p
    if x.registered then give
    else if r.starting p.team then s
    else if asked = none then sldMiss s p r x
    else if x.asked = asked then s
    else if x.refused = asked then give
    else match x.fault with
      | some (n, c) =>
        if asked ≠ some n then sldMiss s p r x
        else if c = .poison then partPoison s p a 0
        else partFault (sldAsks s p none) p c a 0
      | none => sldMiss s p r x
  | _, _ => if a % 4 = 0 then loadPart s p a .b32 d else deferFault (dropPart s p) p.uid p.g p.i .align a 0 p.op.insn

/-- SUPG's part of a lane (R234). -/
def supgPart (s : State) (p : Part) (a : Nat) (f : Sys2Proof.View) (started : Bool) (d : Dst) : State :=
  let stop := fun (s : State) (st : Nat) => donePart (writeResult s p.uid p.g p.i p.op.op d [BitVec.ofNat 32 st]) p
  match teamRegion s p.core p.uid (viewLine p.ctx a) with
  | none => stop s 5
  | some r =>
    let mine := (coreOf s p.core).sub.filter (fun x => r.holds x.line)
    if started then (if mine.any (·.asked.isSome) then s else stop s 0)
    else if r.starting p.team then s
    else if viewRank f ≤ viewRank r.f then stop s 0
    else
      let r' := { r with f := f }
      let s := modCore s p.core (fun c => { c with regions := modWhere (fun y => y == r) (fun _ => r') c.regions })
      let s := (mine.filter (fun x => x.asked.isSome || (x.registered && decide (viewRank x.f < viewRank f)))).foldl
        (fun s x => (askLine s p.core r' x.line).1) s
      setPart s p (fun e => match e.kind with
        | .supg a f _ d => { e with kind := .supg a f true d }
        | _ => e)

/-- SCHG's part of a lane (R235). -/
def schgPart (s : State) (p : Part) (a : Nat) (d : Dst) : State :=
  let v := match teamRegion s p.core p.uid (viewLine p.ctx a) with
    | some r => r.count
    | none => 0xFFFFFFFFFFFFFFFF
  donePart (writeResult s p.uid p.g p.i p.op.op d [lo32 v, hi32 v]) p

/-- An operation of this chapter at the head of a lane's queue takes its step (R222, R231 to R235). -/
def execSldBind (team gang lane idx : Nat) (s : State) : Out :=
  match partOf s team gang lane idx with
  | none => .next s
  | some p =>
    match p.op.kind with
    | .sbsc a f inv t len rsv caddr started d =>
      let r : Region := { team := p.uid, line := viewLine p.ctx a.toNat, len := len.toNat, f := f, inv := inv, t := t,
                          caddr := caddr, count := 0 }
      .next (match sbscPeers s p with
        | none => s
        | some ps => if (ps.head?.map (·.i)) = some p.i then sbscPart s p ps r rsv started d else s)
    | .unsb a _ d => .next (unsbPart s p a.toNat d)
    | .sld a _ asked d => .next (sldPart s p a.toNat asked d)
    | .supg a f started d => .next (supgPart s p a.toNat f started d)
    | .schg a d => .next (schgPart s p a.toNat d)
    | _ => .next s

-- Instructions

/-- R231. -/
def execSbsc (c : Common) (d base quad : Name) (f : Sys2Proof.View) (inv : Bool) (t : EType) (a64 : Bool) (s : State) : Out :=
  let ds : Dst := { name := d, words := 1 }
  let qo : Opnd := { name := quad, words := 4 }
  execMem c { front := { srcs := qo :: addrSrcs base a64, dst := some ds }, own := baseOwn base a64, addrFirst := true,
              addr := fun v i => v.addr s.fresh i base a64 0, align := 128, bad := fun _ => servedFault s .package, acc := 0,
              ops := fun v i =>
                let q := v.src s.fresh i qo
                [.sbsc (BitVec.ofNat 64 (v.addr s.fresh i base a64 0)) f inv t (q.getD 0 0) (q.getD 1 0)
                  (pair (q.getD 2 0) (q.getD 3 0)) false ds] } s

/-- The shape of UNSB, SUPG and SCHG, which make no access at their address. -/
def tableShape (s : State) (d base : Name) (words : Nat) (a64 helpers : Bool) (k : DWord → Dst → MemKind) : MemShape :=
  let ds : Dst := { name := d, words := words }
  { front := { srcs := addrSrcs base a64, dst := some ds }, own := baseOwn base a64, helpers := helpers,
    addr := fun v i => v.addr s.fresh i base a64 0, align := 1, bad := fun _ _ => none, acc := 0,
    ops := fun v i => [k (BitVec.ofNat 64 (v.addr s.fresh i base a64 0)) ds] }

/-- R232. -/
def execUnsb (c : Common) (d base : Name) (a64 : Bool) (s : State) : Out :=
  execMem c (tableShape s d base 1 a64 false (fun a ds => .unsb a false ds)) s

/-- R234. -/
def execSupg (c : Common) (d base : Name) (f : Sys2Proof.View) (a64 : Bool) (s : State) : Out :=
  execMem c (tableShape s d base 1 a64 false (fun a ds => .supg a f false ds)) s

/-- R235: helper lanes perform it too. -/
def execSchg (c : Common) (d base : Name) (a64 : Bool) (s : State) : Out :=
  execMem c (tableShape s d base 2 a64 true (fun a ds => .schg a ds)) s

/-- R233: in a region, ALIGN is judged by the element size; elsewhere SLD is LD.b32. The region is looked for at issue, and again at the
queued part's step: a region of an SBSC that still stands in the lane's queue is not seen at issue (log entry 118). -/
def execSld (c : Common) (d base : Name) (off : Int) (a64 : Bool) (s : State) : Out :=
  let ds : Dst := { name := d, words := 1 }
  let f : Front := { srcs := addrSrcs base a64, dst := some ds, allowQ := false }
  issueChecks s c f (baseOwn base a64) (fun v =>
    let lanes := v.actors f true
    let addr := fun i => v.addr s.fresh i base a64 (off * 2)
    let reg := fun i => teamRegion s v.core v.team.uid (viewLine v.team.ctx (addr i))
    let size := fun i => match reg i with
      | some r => etypeBytes r.t
      | none => 4
    match (addrFaults v (lanes.filter (fun i => addr i % size i ≠ 0)) addr 4 (fun _ => some .align) 0).orElse (fun _ =>
        addrFaults v lanes addr 1 (servedFault s .all) 0) with
    | some i => .next (trapSlot s v i)
    | none => .next (afterSlot (queueOp s v c.setf lanes [] (fun i =>
        let a := BitVec.ofNat 64 (addr i)
        [if (reg i).isSome then .sld a (size i) none ds else .load a .b32 ds])) v false WinSlot.none))

-- The directory (R214, R215)

/-- Raise a group's format in a coarse entry (R215): the entry and whether the group's format rose. -/
def raiseGroup (d : DirEntry) (g : Nat) (f : Sys2Proof.View) : DirEntry × Bool :=
  match d.groups.find? (fun x => x.1 == g) with
  | none => ({ d with groups := d.groups ++ [(g, f)] }, true)
  | some x =>
    if viewRank x.2 < viewRank f then ({ d with groups := modWhere (fun y => y.1 == g) (fun _ => (g, f)) d.groups }, true)
    else (d, false)

/-- A message to each of some cores. -/
def sendAll (s : State) (d : DirEntry) (cores : List Nat) (k : MsgKind) (f : Sys2Proof.View) (elems : List Nat) : State × DirEntry :=
  cores.foldl (fun a c => sendMsg a.1 a.2 c k f elems 0 (if d.coarse then 1 else 0)) (s, d)

/-- The home lists a core, and answers with Data at its effective format; cores whose effective format or mode changes get
an update (R214, R215). -/
def registerAt (s : State) (d : DirEntry) (m : Msg) (elems : Sys2Proof.View → List Nat) : State :=
  let x : Sharer := { core := m.core, f := m.f, inv := m.inv }
  let others := d.sharers.filter (fun y => y.core != m.core)
  if !d.coarse ∧ others.length < 4 then
    let d := { d with sharers := others ++ [x] }
    let r := sendMsg s d m.core (.data true) m.f (elems m.f) 0 m.id m.inv
    setDir r.1 r.2
  else
    let g := groupOf m.core
    -- a fifth registration turns the line coarse: each sharer's group is marked with the highest format asked for in it
    let base := if d.coarse then d else others.foldl (fun e y => (raiseGroup e (groupOf y.core) y.f).1)
      { d with coarse := true, sharers := [] }
    let rose := raiseGroup base g m.f
    let d' := rose.1
    let fmtOf := fun c => ((d'.groups.find? (fun y => y.1 == groupOf c)).map (·.2)).getD m.f
    let affected := if d.coarse then (if rose.2 then (groupCores g).filter (fun c => c != m.core) else [])
      else (others.filter (fun y => fmtOf y.core != y.f || y.inv)).map (·.core)
    let r := affected.foldl (fun a c => sendMsg a.1 a.2 c .update (fmtOf c) (elems (fmtOf c)) 0 1) (s, d')
    let r := sendMsg r.1 r.2 m.core (.data true) (fmtOf m.core) (elems (fmtOf m.core)) 0 m.id
    setDir r.1 r.2

/-- Requests of one core about one line reach the home in the order sent (R221, R232). -/
def firstReq (s : State) (m : Msg) : Bool :=
  (s.msgs.find? (fun x => (x.kind == .register || x.kind == .leave) && x.core == m.core && x.line == m.line)).map (·.id) ==
    some m.id

/-- Take a message out. -/
def dropMsg (s : State) (id : Nat) : State := { s with msgs := s.msgs.filter (fun x => x.id != id) }

/-- R222: a Register at its line's home. -/
def execRegister (msg : Nat) (s : State) : Out :=
  match s.msgs.find? (fun m => m.id == msg && m.kind == .register) with
  | none => .next s
  | some m =>
    if !firstReq s m then .next s
    else
      let s := dropMsg s msg
      let lease := match (coreOf s m.core).regions.find? (fun r => r.holds m.line) with
        | some r => leased s r.team m.line.addr
        | none => false
      let met := fun (s : State) (c : Cause) => modSub s m.core m.line (fun x =>
        if x.asked = some m.id then { x with asked := none, fault := some (m.id, c) } else x)
      match locate s m.line.ctx m.line.addr .read lease with
      | .error c => .next (met s c)
      | .ok loc =>
        let s := touchLine (markLeaf s loc false) m.line.ctx loc
        if badPieces s (lineAddr loc.key) ≠ [] then .next (met s .poison)
        else
          let bs := rdBytes s (lineAddr loc.key) 128
          let elems := fun t f => (lineElems t bs).map (viewOf t f)
          let new : DirEntry := { line := m.line, t := m.t, seq := 0, coarse := false, sharers := [], groups := [] }
          let d := (findDir s m.line).getD new
          if d.t ≠ m.t then
            let r := sendMsg s d m.core (.data false) m.f (elems m.t m.f) 0 m.id
            .next (setDir r.1 r.2)
          else .next (registerAt s d m (elems m.t))

/-- The change counter of a region rises; its counter word is written at its home as an atomic (R218, R219). Its own line's sharers
compare the write by view: it is no atomic that an instruction names (R216; log entry 101). -/
def bumpCounter (s : State) (core : Nat) (r : Region) : State :=
  let n := r.count + 1
  let s := modCore s core (fun c => { c with regions := modWhere (fun x => x == r) (fun x => { x with count := n }) c.regions })
  let a := r.caddr.toNat
  if a = 0 then s
  else
    let err := errorEvent s (coreDie core) a
    match findTeam s r.team with
    | none => s
    | some t =>
      match servedFault s .package a with
      | some _ => err
      | none =>
        match locateFor s t a .write with
        | .error _ => err
        | .ok loc =>
          if (List.range 8).any (fun i => poisoned s (loc.key + i)) then err
          else
            let l := lineOf t.ctx a
            let s := clearLine s (.core core) l
            noteHome (homeWrite s t.ctx l loc ((toBytes 8 n.toNat).mapIdx (fun i b => (loc.key % 128 + i, b))) false 0) t.uid (homeOf a)

/-- Bring a message to its core's table (R218). A Data answers the line's last Register or is discarded (R232); a core that
holds no registration discards what a coarse entry sends it (R215), and counts every other Update and Invalidation. -/
def applyMsg (s : State) (m : Msg) : State :=
  match (coreOf s m.core).regions.find? (fun r => r.holds m.line), subLine s m.core m.line with
  | some r, some x =>
    let nx := some ((m.stamp + 1) % 256)
    let set := fun (f : SubLine → SubLine) => modSub s m.core m.line (fun y => { f y with next := nx })
    match m.kind with
    | .data reg =>
      if x.asked ≠ some m.re then s
      else set (fun y => { y with view := m.elems, f := m.f, inv := m.inv, registered := reg, asked := none,
                                  refused := if reg then none else some m.re })
    | .update =>
      if x.registered then bumpCounter (set (fun y => { y with view := m.elems, f := m.f, inv := false })) m.core r
      else if m.re = 1 then s else bumpCounter (set id) m.core r
    | .invalidation =>
      if x.registered then bumpCounter (set (fun y => { y with view := [], registered := false })) m.core r
      else if m.re = 1 then s else bumpCounter (set id) m.core r
    | _ => s
  | _, _ => s

/-- A message from a home to a core. -/
def Msg.toCore (m : Msg) : Bool := m.kind != .register && m.kind != .leave

/-- R222: the earliest message about a line that is bound for a core is applied and acknowledged. Of the messages about one line
the first 64 are on their way; the home holds the others until acknowledgements return (R221). A host store completes with the
last acknowledgement of what it caused (R400). -/
def execApply (core msg : Nat) (s : State) : Out :=
  match s.msgs.find? (fun m => m.id == msg && m.core == core) with
  | none => .next s
  | some m =>
    let out := (s.msgs.filter (fun x => x.toCore && x.line == m.line)).take 64
    if ((out.filter (fun x => x.core == core)).head?.map (·.id)) ≠ some msg then .next s
    else
      let s := applyMsg (dropMsg s msg) m
      .next { s with hostWait := s.hostWait.filter (fun c => s.msgs.any (fun x => x.cause == c)) }

/-- R222: a Leave at its line's home. -/
def execLeave (msg : Nat) (s : State) : Out :=
  match s.msgs.find? (fun m => m.id == msg && m.kind == .leave) with
  | none => .next s
  | some m =>
    if !firstReq s m then .next s
    else
      let s := dropMsg s msg
      match findDir s m.line with
      | none => .next s
      | some d =>
        if d.coarse then .next s
        else
          let d := { d with sharers := d.sharers.filter (fun x => x.core != m.core) }
          if d.sharers.isEmpty then .next { s with dir := s.dir.filter (fun e => e.line != m.line) } else .next (setDir s d)

/-- R224: an SLD is served from a peer core's view, under its conditions; the Register proceeds. While the core's table has recorded no
stamp for the line, the condition on the stamps is taken as met (log entry 120). -/
def execPeersld (team gang lane idx peer : Nat) (s : State) : Out :=
  match partOf s team gang lane idx with
  | none => .next s
  | some p =>
    match p.op.kind with
    | .sld a _ _ d =>
      let l := viewLine p.ctx a.toNat
      match teamRegion s p.core p.uid l, subLine s p.core l, subLine s peer l,
        (coreOf s peer).regions.find? (fun r => r.holds l) with
      | some r, some x, some y, some r' =>
        let fresh : Bool := match x.next, y.next with
          | some n, some m => decide ((m + 256 - n) % 256 < 128)
          | none, _ => true
          | _, none => false
        if groupOf peer = groupOf p.core ∧ peer ≠ p.core ∧ !x.registered ∧ y.registered ∧ y.f = r.f ∧ r'.t = r.t ∧ fresh then
          let s := if x.asked.isSome then s else (askLine s p.core r l).1
          .next (donePart (writeResult s p.uid p.g p.i p.op.op d
            [sldValue r.t y.f (y.view.getD (a.toNat % 128 / etypeBytes r.t) 0)]) p)
        else .next s
      | _, _, _, _ => .next s
    | _ => .next s

/-- R225: L1 evicts a registered line, when no unsubscribed line of its set can go (log entry 104). A Register of the line that is
under way comes before the Leave at the home, and its Data registers nothing here. -/
def execL1EvictRegistered (core : Nat) (line : Line) (s : State) : Out :=
  let same := fun (l : Line) => Config.l1Set (l.addr / 128) == Config.l1Set (line.addr / 128)
  match subLine s core line, (coreOf s core).regions.find? (fun r => r.holds line) with
  | some x, some r =>
    if x.registered ∧ !(coreOf s core).mem.snap.any (fun e => same e.1) then
      .next (modSub (sendReq s .leave core line x.f false r.t).1 core line (fun y =>
        { y with registered := false, asked := none, view := [] }))
    else .next s
  | _, _ => .next s

/-- Invalidations to the cores that an entry names, and the entry is forgotten (R225). -/
def forgetEntry (s : State) (d : DirEntry) (cores : List Nat) : State :=
  let r := sendAll s d cores .invalidation .exact []
  { r.1 with dir := r.1.dir.filter (fun e => e.line != d.line) }

def DirEntry.cores (d : DirEntry) : List Nat :=
  if d.coarse then d.groups.flatMap (fun g => groupCores g.1) else d.sharers.map (·.core)

/-- May a slice drop a line with sharers: its set is full, and holds no line without sharers (R225; log entry 104)? -/
def mustDrop (s : State) (phys : Nat) : Bool :=
  let set := (linesOf s (tget 0 s.sliceOfLine phys)).filter (fun x => Config.sliceSet x == Config.sliceSet phys)
  decide (Config.sliceWays s.mgmt.partition ≤ set.length) && set.all (fun x => !(entriesAt s x).isEmpty)

/-- R197, R225: a slice drops a line of HBM, with its stamp and its sharers; a line written since goes to the memory-side
cache below (R403, R415). Pewter lines are never dropped. -/
def execSliceDropLine (phys : Nat) (s : State) : Out :=
  if 2 ≤ homeOf (phys * 128) ∨ !s.sliceLines.contains phys ∨ (!(entriesAt s phys).isEmpty ∧ !mustDrop s phys) then .next s
  else
    let s := (entriesAt s phys).foldl (fun s d => forgetEntry s d d.cores) s
    .next (leaveSlice s phys)

/-- R225: an uncorrectable error in a directory entry. `groups` are those that the damaged entry could have named; none if
that cannot be told. -/
def directoryLost (s : State) (phys : Nat) (groups : Option (List Nat)) : State :=
  let gs := groups.getD (List.range 32)
  (entriesAt s phys).foldl (fun s d => forgetEntry s d (gs.flatMap groupCores)) s

/-- R225. -/
def execDirectoryError (phys : Nat) (groups : Option (List Nat)) (s : State) : Out := .next (directoryLost s phys groups)

end Sys2Proof.Machine
end

