-- ==== Sys2Proof/Machine/Mtx.lean ====
section
/-! DEFINITION. The matrix array (spec/12_matrix.md R290 to R318): its nine instructions, what their commands do, and the
passing of rows. -/

namespace Sys2Proof.Machine

-- The array of the core in issue

/-- The core whose instruction this step issues (log entry 2). -/
def focusCore (s : State) : Core := coreOf s ((s.focus.map (·.1)).getD 0)

/-- KI of an MMA that issues now (R301). -/
def focusKi (s : State) : Nat :=
  let a := (focusCore s).arr
  (a.banks[a.cur]?.map (·.ki)).getD 0

/-- ILLOPND for a team that does not hold the array (R292). -/
def claimOwn (s : State) (v : View) : Option FaultInfo :=
  if (coreOf s v.core).holder = some v.iss.team then none else some (v.fault .illopnd)

/-- The row that a lane of gang `g` owns (R299). -/
def ownRow (g i : Nat) : Nat := 32 * (g % 4) + i

def emptyBank : Bank := { w := [], latched := 0, kl := 0, loaded := false, bsc := List.replicate 128 f32One, ki := 0 }
def emptyTile : Tile :=
  { acc := [], rs := List.replicate 128 f32One, cs := List.replicate 128 f32One, cb := List.replicate 128 0 }
def Array.bank (a : Array) (b : Nat) : Bank := a.banks.getD b emptyBank
def Array.tile (a : Array) (t : Nat) : Tile := a.tiles.getD t emptyTile
def Array.modBank (a : Array) (b : Nat) (f : Bank → Bank) : Array := { a with banks := a.banks.modify b f }
def Array.modTile (a : Array) (t : Nat) (f : Tile → Tile) : Array := { a with tiles := a.tiles.modify t f }
def modArr (s : State) (core : Nat) (f : Array → Array) : State := modCore s core (fun c => { c with arr := f c.arr })

-- Instructions

/-- R310: the bank that is not current, its K count noted at issue. -/
def execWld (c : Common) (d box : Name) (h e : Nat) (sc : Scope) (s : State) : Out :=
  let qo : Opnd := { name := box, words := 4 }
  let bank := 1 - (focusCore s).arr.cur
  let words := fun (v : View) => v.src s.fresh (v.acting.headD 0) qo
  execCmd c
    { front := { srcs := [qo], dst := d1 d, allowQ := false },
      own := fun v => (namesOwn [box] v).orElse (fun _ => claimOwn s v), e := e, sc := sc, group := true, array := true,
      kind := fun v _ => .wld h bank (words v),
      onArray := fun v k => { k with arr := k.arr.modBank bank (fun b => { b with ki := ((words v).getD 2 0).toNat }) } } s

/-- R311. -/
def execWswp (c : Common) (d : Name) (e : Nat) (s : State) : Out :=
  execCmd c
    { front := { dst := d1 d, allowQ := false }, own := claimOwn s, e := e, sc := .core, group := true, array := true,
      kind := fun _ _ => .wswp (focusCore s).arr.cur,
      onArray := fun _ k => { k with arr := { k.arr with cur := 1 - k.arr.cur } } } s

/-- Bits of an element of A in a register (R300). -/
def laneW : Fmt → Nat
  | .bf16 => 16
  | .e2m1 => 4
  | _ => 8

/-- Registers that MMA.lane reads (R301). -/
def laneRegs (f : Fmt) (ki : Nat) : Nat := (ki * laneW f + 31) / 32

/-- The A elements of a lane's registers (R300, R165). -/
def laneRow (f : Fmt) (ki : Nat) (l : Lane) (sa : Nat) : List Nat :=
  let w := laneW f
  (List.range ki).map (fun k => (l.reg (sa + k * w / 32)).toNat / 2 ^ (k % (32 / w) * w) % 2 ^ w)

/-- Pop several elements of a ring port (R242, R301). -/
def popMany (b : Port) (p : Nat) : Nat → Lane → List Word × Lane
  | 0, l => ([], l)
  | n + 1, l =>
    let x := popLane b p l
    let r := popMany b p n x.2
    (x.1 :: r.1, r.2)

/-- A formats (R293). -/
def aFormat : Fmt → Bool
  | .bf16 | .e4m3 | .e5m2 | .e3m2 | .e2m3 | .e2m1 => true
  | _ => false

/-- The names and checks of an MMA's A source (R300, R301, R307). -/
def mmaFront (s : State) (d a : Name) : MmaSrc → Front
  | .lane f =>
    let n := match a with
      | .g r => r
      | _ => 0
    { srcs := (match a with
        | .g _ => (List.range (laneRegs f (focusKi s))).map (fun j => o1 (.g (n + j)))
        | x => [o1 x]),
      dst := d1 d, perLane := true, allowQ := false }
  | .hdl _ => { srcs := [o2 a], dst := d1 d, allowQ := false }
  | .unf _ => { srcs := [{ name := a, words := 4 }], dst := d1 d, allowQ := false }
  | .port => { srcs := [o1 a], dst := d1 d, dstQ := false, pops := focusKi s }

/-- The own checks of MMA: the kind of its A name, a port in another mode than .rpop (R244), and the claim (R292). -/
def mmaOwn (s : State) (a : Name) (src : MmaSrc) (v : View) : Option FaultInfo :=
  match src with
  | .lane _ => match a with
    | .g _ => claimOwn s v
    | _ => some (v.fault .illopnd)
  | .hdl _ => claimOwn s v
  | .unf _ => (namesOwn [a] v).orElse (fun _ => claimOwn s v)
  | .port => match a with
    | .q p =>
      let b := v.iss.ports.getD p Port.unbound
      if b.mode ≠ 3 then some (v.portFaultInfo p .illopnd 0 (v.iss.group.headD 0) 0) else claimOwn s v
    | _ => some (v.fault .illopnd)

/-- The A elements that a lane pops (R300): ring elements enter exactly, FILL rounded with saturation. -/
def portRow (b : Port) (p ki : Nat) (f : Fmt) (l : Lane) : List Nat :=
  let cs := l.claims.filter (fun c => c.port == p)
  (List.range ki).map (fun j => match (cs[j]?).bind (·.val) with
    | some x => (roundTo f .rn 0 false (dec .f32 x.1.toNat)).1
    | none => encSat f (dec .f32 b.fillVal.toNat))

/-- The rows of an MMA at issue: the codes of .lane and .port rows; rows of .hdl and .unf are formed when it begins. -/
def mmaRows (s : State) (a : Name) (src : MmaSrc) (v : View) : List (Nat × List Nat) :=
  v.acting.map (fun i =>
    (ownRow v.g i, match src, a with
      | .lane f, .g r => laneRow f (focusKi s) (v.gang.lane i) r
      | .port, .q p =>
        let b := v.iss.ports.getD p Port.unbound
        match elemFmt b.fmt with
        | some f => portRow b p (focusKi s) f (v.gang.lane i)
        | none => []
      | _, _ => []))

/-- R312. -/
def execMma (c : Common) (d a : Name) (src : MmaSrc) (tile e : Nat) (sc : Scope) (s : State) : Out :=
  let ki := focusKi s
  let bank := (focusCore s).arr.cur
  let port := fun (v : View) (p : Nat) => v.iss.ports.getD p Port.unbound
  let words := fun (v : View) => match src with
    | .hdl _ => v.src s.fresh (v.acting.headD 0) (o2 a)
    | .unf _ => v.src s.fresh (v.acting.headD 0) { name := a, words := 4 }
    | _ => []
  let fmt := fun (v : View) => match src, a with
    | .lane f, _ => some f
    | .port, .q p => (elemFmt (port v p).fmt).filter aFormat
    | _, _ => none
  -- the unfolding quadruple is read when the command begins (R302)
  let late := match src, a with
    | .unf _, .g n => some (.g n)
    | .unf _, .c n => some (.c n)
    | _, _ => none
  execCmd c
    { front := mmaFront s d a src, own := mmaOwn s a src, e := e, sc := sc, group := true, array := true,
      kind := fun v _ => .mma src tile bank ki (words v) (fmt v) (mmaRows s a src v),
      late := late,
      onLane := fun v _ l => match src, a with
        | .port, .q p => (popMany (port v p) p ki l).2
        | _, _ => l,
      preds := fun v => match src, a with
        | .port, .q p => if (port v p).eosp < 96 ∧ ki ≠ 0 then [(port v p).eosp] else []
        | _, _ => [] } s

/-- R313. -/
def execMzero (c : Common) (d : Name) (tile e : Nat) (s : State) : Out :=
  execCmd c
    { front := { dst := d1 d, allowQ := false }, own := claimOwn s, e := e, sc := .core, group := true, array := true,
      kind := fun _ _ => .mzero tile } s

/-- The first of four columns that a column source names (R314). -/
def columnOf (x : Word) : Nat := 4 * (x.toNat / 4 % 32)

/-- Registers of an MRD result (R314). -/
def readWords : Fmt → Nat
  | .f32 => 4
  | .bf16 | .f16 => 2
  | _ => 1

/-- R314. -/
def execMrd (c : Common) (d col : Name) (tile e : Nat) (act : Option Nat) (f : Fmt) (sat : Bool) (s : State) : Out :=
  execCmd c
    { front := { srcs := [o1 col], dst := some { name := d, words := readWords f }, perLane := true, allowQ := false },
      own := claimOwn s, e := e, sc := .core, group := true, array := true,
      kind := fun v _ => .mrd tile act f sat (v.acting.map (fun i =>
        (ownRow v.g i, (v.gang.lane i).ident, columnOf (v.src1 s.fresh i col)))) } s

/-- MWR's values are an aligned g quadruple (R307). -/
def mwrOwn (s : State) (val : Name) (rs : Bool) (v : View) : Option FaultInfo :=
  match val, rs with
  | .g _, _ => claimOwn s v
  | _, true => claimOwn s v
  | _, false => some (v.fault .illopnd)

/-- R315. -/
def execMwr (c : Common) (d val col : Name) (tile e : Nat) (rs : Bool) (s : State) : Out :=
  let vo : Opnd := { name := val, words := if rs then 1 else 4 }
  execCmd c
    { front := { srcs := if rs then [vo] else [vo, o1 col], dst := d1 d, allowQ := false }, own := mwrOwn s val rs, e := e,
      sc := .core, group := true, array := true,
      kind := fun v _ => .mwr tile rs (v.acting.map (fun i =>
        (ownRow v.g i, if rs then 0 else columnOf (v.src1 s.fresh i col), v.src s.fresh i vo))) } s

/-- R316. -/
def execMst (c : Common) (d org : Name) (h tile e : Nat) (sc : Scope) (act : Option Nat) (sat : Bool) (s : State) : Out :=
  execCmd c
    { front := { srcs := [o2 org], dst := d1 d, allowQ := false }, own := claimOwn s, e := e, sc := sc, group := true,
      array := true, kind := fun v _ => .mst h tile (v.src s.fresh (v.acting.headD 0) (o2 org)) act sat } s

/-- R317: only the .bias form needs the claim and stands in array order. -/
def execTblld (c : Common) (d addr : Name) (form : TblForm) (e : Nat) (sc : Scope) (a64 : Bool) (s : State) : Out :=
  let bias := match form with
    | .bias _ => true
    | .slot _ => false
  execCmd c
    { front := { srcs := addrSrcs addr a64, dst := d1 d, allowQ := false },
      own := fun v => (baseOwn addr a64 v).orElse (fun _ => if bias then claimOwn s v else none),
      addr := some (fun v i => v.addr s.fresh i addr a64 0, 64), e := e, sc := sc, group := true, array := bias,
      kind := fun v i => .tblld form (BitVec.ofNat 64 (v.addr s.fresh i addr a64 0)) } s

/-- What MSTAT reads (R318). -/
def mstatValue (c : Core) (uid sel : Nat) : Word :=
  if c.holder ≠ some uid then 0
  else
    let b0 := c.arr.bank 0
    let b1 := c.arr.bank 1
    let bit := fun (b : Bool) (n : Nat) => if b then 2 ^ n else 0
    BitVec.ofNat 32 (match sel with
      | 0 => b0.latched + bit b0.loaded 3 + b1.latched * 16 + bit b1.loaded 7 + c.arr.cur * 256 + 512 +
        bit (c.order.any (fun x => x.1 == uid)) 10
      | 1 => b0.kl
      | _ => b1.kl)

/-- R318. -/
def execMstat (c : Common) (d : Name) (sel : Nat) (s : State) : Out :=
  execValue c { dst := d1 d, allowQ := false } false (fun _ => none) (fun v _ _ =>
    .word (mstatValue (coreOf s v.core) v.iss.team sel)) s

-- WLD (R296, R297)

/-- The latched code of a handle format as B, 0 for one that is not allowed (R293, R318). -/
def latchCode : Nat → Nat
  | 1 | 9 => 1
  | 3 => 2 | 4 => 3 | 5 => 4 | 6 => 5 | 7 => 6
  | 8 => 7
  | _ => 0

/-- The format of the weights that a code latches. -/
def latchFmt : Nat → Fmt
  | 2 => .e4m3 | 3 => .e5m2 | 4 => .e3m2 | 5 => .e2m3 | 6 => .e2m1
  | _ => .bf16

/-- g of a latched code, and of an A format (R293). -/
def latchG : Nat → Nat
  | 1 => 1
  | 2 | 3 | 7 => 2
  | _ => 4
def aG : Fmt → Nat
  | .bf16 => 1
  | .e4m3 | .e5m2 => 2
  | _ => 4

/-- The scale of row or column `i` of a view, 1.0 beyond the extent, or none where SCALE has no such form (R296, R300). -/
def readScale (s : State) (t : Team) (e r i : Nat) : MemR Word :=
  match hScale r with
  | 1 => mbind (readNat s t e (hSptr r) 4) (fun s v => mpure s (BitVec.ofNat 32 v))
  | 2 => if i < hView r 1 then mbind (readNat s t e ((hSptr r + 4 * i) % 2 ^ 64) 4) (fun s v => mpure s (BitVec.ofNat 32 v))
      else mpure s f32One
  | _ => mpure s f32One

/-- The requested format of the team's region that holds a line (R228), as a latched code; 0 for none or one that gives
BADFMT. -/
def subLatch (s : State) (core uid : Nat) (l : Line) : Nat :=
  match teamRegion s core uid l with
  | none => 0
  | some r => match r.f with
    | .bf16 => 1 | .e4m3 => 2 | .e5m2 => 3 | .e2m1 => 6 | .exact | .f16 => 0

/-- The view format of a latched code. -/
def latchView : Nat → Sys2Proof.View
  | 2 => .e4m3 | 3 => .e5m2 | 6 => .e2m1
  | _ => .bf16

/-- Has the home answered one of a command's Registers with Data that does not register (R228, R233)? -/
def SubLine.answered (x : SubLine) (asked : List Nat) : Bool := x.refused.any (fun n => asked.contains n)

/-- One weight through subscriptions (R228): from the core's view, whose elements are then the handle's, or from its home and
converted there. `asked` are the command's Registers. -/
def subWeight (s : State) (t : Team) (core r latch : Nat) (asked : List Nat) (j : List Nat) : Except (Cause × Nat) Nat :=
  let a := (hAddr r j).1
  let l := viewLine t.ctx a
  let et : EType := if hFmt r = 0 then .f32 else .bf16
  let f := latchView latch
  let home := match locateFor s t a .read with
    | .error c => Except.error (c, a)
    | .ok loc =>
      if (List.range (etypeBytes et)).any (fun i => poisoned s (loc.key + i)) then .error (.poison, a)
      else .ok (viewOf et f (rdNat s loc.key (etypeBytes et)))
  match teamRegion s core t.uid l, subLine s core l with
  | some y, some x =>
    if (x.registered || x.answered asked) && x.f == f && y.t == et then .ok (x.view.getD (a % 128 / etypeBytes et) 0) else home
  | _, _ => home

/-- Lines of a tile that stand in a region of the team with the latched format and are not registered (R228). -/
def subMissing (s : State) (t : Team) (core latch : Nat) (asked : List Nat) (ls : List Line) : List (Region × SubLine) :=
  ls.filterMap (fun l => match teamRegion s core t.uid l, subLine s core l with
    | some r, some x => if r.f = latchView latch ∧ !x.registered ∧ !x.answered asked then some (r, x) else none
    | _, _ => none)

/-- A missing line registers as an SLD miss does (R228): the Registers that the command then awaits. -/
def subAsk (core : Nat) (a : State × List Nat) (m : Region × SubLine) : State × List Nat :=
  match m.2.asked with
  | some n => if a.2.contains n then a else (a.1, n :: a.2)
  | none => let y := askLine a.1 core m.1 m.2.line; (y.1, y.2 :: a.2)

/-- The bank as a WLD leaves it when a check or a fault stops it (R297). -/
def clearBank (s : State) (core bank : Nat) : State :=
  modArr s core (fun a => a.modBank bank (fun b => { b with loaded := false, kl := 0 }))

/-- The work of WLD; `asked` are the Registers that it has sent, and the answer's last part those that it awaits (R228). -/
def runWld (s : State) (t : Team) (e core h bank : Nat) (asked : List Nat) (box : List Word) : State × CmdOut × List Nat :=
  let korg := (box.getD 0 0).toNat
  let norg := (box.getD 1 0).toNat
  let kc := (box.getD 2 0).toNat
  let stop := fun (st : Nat) => (clearBank s core bank, CmdOut.done st, ([] : List Nat))
  match t.record h with
  | none => stop 2
  | some r =>
    let latch := if hSub r then subLatch s core t.uid (viewLine t.ctx (hAddr r [korg, norg, 0, 0]).1) else latchCode (hFmt r)
    if latch = 0 ∨ hScale r = 3 then stop 4
    else if hView r 0 ≤ korg ∨ hView r 1 ≤ norg ∨ 256 * latchG latch < kc ∨ box.getD 3 0 ≠ 0 then stop 3
    else
      let ks := (List.range kc).filter (fun k => decide (korg + k < hView r 0))
      let ns := (List.range 128).filter (fun n => decide (norg + n < hView r 1))
      let at_ := fun (k n : Nat) => [korg + k, norg + n, 0, 0]
      let lines := if hSub r then (ks.flatMap (fun k => ns.map (fun n => viewLine t.ctx (hAddr r (at_ k n)).1))).dedup else []
      let miss := subMissing s t core latch asked lines
      -- a line's registration has met a condition: the command stops at it
      match miss.findSome? (fun m => m.2.fault.bind (fun c => if asked.contains c.1 then some (m.2.line, c.2) else none)) with
      | some (l, c) => (clearBank s core bank, .stop c l.addr, [])
      | none =>
        if !miss.isEmpty then
          let r := miss.foldl (subAsk core) (s, asked)
          (r.1, .wait, r.2)
        else
          let weight := fun (s : State) (k n : Nat) =>
            if hSub r then (s, subWeight s t core r latch asked (at_ k n))
            else mbind (readElem s t e r (at_ k n)) (fun s x => mpure s (x.2 % 2 ^ fmtBits (latchFmt latch)))
          let x := mfold (fun s (w : Tab Nat) k =>
            mfold (fun s w n => mbind (weight s k n) (fun s v => mpure s (tput 0 w (128 * k + n) v))) ns s w) ks s []
          let y := mbind x (fun s w =>
            mfold (fun s (b : Tab Nat × List Word) n => mbind (readScale s t e r (norg + n)) (fun s v =>
              mpure s (b.1, b.2 ++ [v]))) (List.range 128) s (w, []))
          match y.2 with
          | .error c => (clearBank y.1 core bank, .stop c.1 c.2, [])
          | .ok b =>
            (modArr y.1 core (fun a => a.modBank bank (fun k =>
              { k with w := b.1, latched := latch, kl := kc, loaded := true, bsc := b.2 })), .done (if kc = 0 then 1 else 0), [])

-- MMA (R295, R300 to R302, R312)

/-- Sum of R295 over the elements of one row and one column. -/
def sumSteps (fa fb : Fmt) (g : Nat) : Nat → Word → List (Nat × Nat) → Word
  | 0, acc, _ => acc
  | fuel + 1, acc, ps =>
    match ps with
    | [] => acc
    | _ =>
      let terms := (ps.take g).map (fun p => mulNum (dec fa p.1) (dec fb p.2))
      sumSteps fa fb g fuel (BitVec.ofNat 32 (rne .f32 (sumNum false (dec .f32 acc.toNat :: terms))).1) (ps.drop g)

/-- One accumulator element after a row (R295). -/
def sumElem (fa : Fmt) (b : Bank) (acc : Word) (row : List Nat) (n : Nat) : Word :=
  let g := min (aG fa) (latchG b.latched)
  let ps := (List.range b.kl).map (fun k => (row.getD k 0, tget 0 b.w (128 * k + n)))
  sumSteps fa (latchFmt b.latched) g (b.kl + 1) acc ps

/-- The A element `k` of row `m` of an unfolded image (R302): its view place, or none for +0. -/
def unfoldAt (r : Nat) (q : Nat) (m k : Nat) : Option (List Nat) :=
  let c := hView r 0
  let kw := fld q 59 56 + 1
  let kh := fld q 63 60
  let tw := fld q 55 48
  let ox := fld q 15 0 + m % tw
  let oy := fld q 31 16 + m / tw
  let sx := k / c % kw
  let ty := k / (c * kw)
  let x : Int := ox * (fld q 67 64 + 1) + sx - fld q 75 72
  let y : Int := oy * (fld q 71 68 + 1) + ty - fld q 79 76
  let img := fld q 47 32
  if ty ≤ kh ∧ 0 ≤ x ∧ x < hView r 1 ∧ 0 ≤ y ∧ y < hView r 2 ∧ img < hView r 3 then some [k % c, x.toNat, y.toNat, img]
  else none

/-- Fetch the rows of .hdl and .unf, with their row scales (R300, R302). -/
def fetchRows (s : State) (t : Team) (e r ki : Nat) (unf : Bool) (arg : List Word) (rows : List Nat) :
    MemR (List (Nat × List Nat × Word)) :=
  let q := (List.range arg.length).foldl (fun a i => a + 2 ^ (32 * i) * (arg.getD i 0).toNat) 0
  let korg := (arg.getD 0 0).toNat
  let morg := (arg.getD 1 0).toNat
  let at_ := fun (m k : Nat) =>
    if unf then unfoldAt r q m k
    else if korg + k < hView r 0 ∧ morg + m < hView r 1 then some [korg + k, morg + m, 0, 0] else none
  mfold (fun s (acc : List (Nat × List Nat × Word)) m =>
    mbind (mfold (fun s (cs : List Nat) k => match at_ m k with
      | none => mpure s (cs ++ [0])
      | some j => mbind (readCode s t e r j) (fun s v => mpure s (cs ++ [v]))) (List.range ki) s []) (fun s cs =>
      mbind (readScale s t e r (morg + m)) (fun s sc => mpure s (acc ++ [(m, cs, sc)])))) rows s []

/-- MMA begins (R312): the checks, the fetch of its rows, RS and CS; the answer's last parts are the A format and the rows
that then pass through the array. -/
def runMma (s : State) (t : Team) (e core : Nat) (src : MmaSrc) (tile bank ki : Nat) (arg : List Word) (fmt : Option Fmt)
    (rows : List (Nat × List Nat)) : State × CmdOut × Option Fmt × List (Nat × List Nat) :=
  let h := match src with
    | .hdl h | .unf h => some h
    | _ => none
  let unf := match src with
    | .unf _ => true
    | _ => false
  let stop := fun (st : Nat) => (s, CmdOut.done st, none, [])
  let go := fun (s : State) (f : Fmt) (rs : List (Nat × List Nat × Word)) =>
    let b := (coreOf s core).arr.bank bank
    (modArr s core (fun a => a.modTile tile (fun x =>
      { x with cs := b.bsc, rs := rs.foldl (fun l r => l.set r.1 r.2.2) x.rs })),
     CmdOut.done 0, some f, rs.map (fun r => (r.1, r.2.1)))
  let empty := ki = 0 ∨ ((coreOf s core).arr.bank bank).kl ≠ ki
  match h with
  | none =>
    match fmt with
    | none => stop 4
    | some f => if empty then stop 1 else go s f (rows.map (fun r => (r.1, r.2, f32One)))
  | some h =>
    match t.record h with
    | none => stop 2
    | some r =>
      match (hFloat (hFmt r)).filter aFormat with
      | none => stop 4
      | some f =>
        let q2 := (arg.getD 2 0).toNat
        let tw := (arg.getD 1 0).toNat / 2 ^ 16 % 256
        if hScale r = 3 ∨ (unf ∧ 2 ≤ hScale r) then stop 4
        else if (if unf then tw = 0 ∨ 128 < tw ∨ q2 / 2 ^ 16 ≠ 0 ∨ arg.getD 3 0 ≠ 0
            else hView r 0 ≤ (arg.getD 0 0).toNat ∨ hView r 1 ≤ (arg.getD 1 0).toNat) then stop 3
        else if empty then stop 1
        else
          let x := fetchRows s t e r ki unf arg (rows.map (·.1))
          match x.2 with
          | .error c => (x.1, .stop c.1 c.2, none, [])
          | .ok rs => go x.1 f rs

/-- A row passes the array: its 128 accumulators take their sums (R295, R298). -/
def passRow (a : Array) (tile bank : Nat) (f : Fmt) (row : Nat × List Nat) : Array :=
  let b := a.bank bank
  a.modTile tile (fun x => { x with acc := (List.range 128).foldl (fun acc n =>
    tput 0 acc (128 * row.1 + n) (sumElem f b (tget 0 acc (128 * row.1 + n)) row.2 n)) x.acc })

-- The epilogue (R306)

/-- One accumulator element through the epilogue, up to its output format. -/
def epilogue (s : State) (core : Nat) (x : Tile) (act : Option Nat) (m n : Nat) : Num :=
  let mul := rne .f32 (mulNum (dec .f32 (tget 0 x.acc (128 * m + n)).toNat) (dec .f32 (x.rs.getD m f32One).toNat))
  let u := (rne .f32 (sumNum false [mulNum (dec .f32 mul.1) (dec .f32 (x.cs.getD n f32One).toNat),
    dec .f32 (x.cb.getD n 0).toNat])).1
  dec .f32 (match act with
    | some slot => (actEval (tableOf s core slot) 0 (Config.freeWord (freeIdx s.fresh (128 * m + n))) u).1
    | none => u)

/-- The words of an MRD result from its four elements (R314). -/
def packRead (f : Fmt) (xs : List Nat) : List Word :=
  let w := fmtBits f
  let field := if f = .f32 then 32 else if w = 16 then 16 else if f = .e2m1 then 4 else 8
  let all := (List.range xs.length).foldl (fun a j => a + 2 ^ (field * j) * xs.getD j 0) 0
  (List.range (readWords f)).map (fun i => BitVec.ofNat 32 (all / 2 ^ (32 * i)))

/-- MRD: the words of each lane, by identity (R314). -/
def runMrd (s : State) (core tile : Nat) (act : Option Nat) (f : Fmt) (sat : Bool) (rows : Tab (Nat × Nat)) : Tab (List Word) :=
  let x := (coreOf s core).arr.tile tile
  rows.map (fun r => (r.2.1, packRead f ((List.range 4).map (fun j =>
    (roundTo f .rn 0 sat (epilogue s core x act r.1 (r.2.2 + j))).1))))

/-- MWR (R315). -/
def runMwr (a : Array) (tile : Nat) (rs : Bool) (rows : Tab (Nat × List Word)) : Array :=
  a.modTile tile (fun x => rows.foldl (fun x r =>
    if rs then { x with rs := x.rs.set r.1 (r.2.2.headD 0) }
    else { x with acc := (List.range 4).foldl (fun acc j => tput 0 acc (128 * r.1 + r.2.1 + j) (r.2.2.getD j 0)) x.acc }) x)

/-- MZERO (R313). -/
def runMzero (a : Array) (tile : Nat) : Array :=
  a.modTile tile (fun x => { emptyTile with cb := x.cb })

/-- MST (R316). -/
def runMst (s : State) (t : Team) (e core h tile : Nat) (org : List Word) (act : Option Nat) (sat : Bool) : MemR Nat :=
  let norg := (org.getD 0 0).toNat
  let morg := (org.getD 1 0).toNat
  match t.record h with
  | none => mpure s 2
  | some r =>
    match hFloat (hFmt r) with
    | none => mpure s 4
    | some f =>
      if hView r 0 ≤ norg ∨ hView r 1 ≤ morg then mpure s 3
      else
        let x := (coreOf s core).arr.tile tile
        let s0 := s
        let ms := (List.range 128).filter (fun m => decide (morg + m < hView r 1))
        let ns := (List.range 128).filter (fun n => decide (norg + n < hView r 0))
        mbind (mfold (fun s _ m => mfold (fun s _ n =>
          writeCode s t e r [norg + n, morg + m, 0, 0] (roundTo f .rn 0 sat (epilogue s0 core x act m n)).1) ns s ()) ms s ())
          (fun s _ => mpure s 0)

/-- The words of a table slot, or of 128 biases, as TBLLD reads them (R317). -/
def readTable (s : State) (t : Team) (e a n : Nat) : MemR (List Word) :=
  mbind (readCtx s t e a (4 * n)) (fun s bs =>
    mpure s ((List.range n).map (fun i => BitVec.ofNat 32 (ofBytes ((bs.drop (4 * i)).take 4)))))

end Sys2Proof.Machine
end

