-- ==== Sys2Proof/Machine/Phy.lean ====
section
/-! DEFINITION. The physics instructions (spec/13_physics.md R319 to R340): what SORT and BVHQ commands do, and Invar, the
block solver. -/

namespace Sys2Proof.Machine

-- SORT (R320 to R323): a record is a 512-bit number

/-- R320. -/
def execSort (c : Common) (d addr : Name) (e : Nat) (sc : Scope) (a64 : Bool) (s : State) : Out :=
  execCmd c (addrCmd s d addr a64 64 e sc (fun a => .sort a)) s

def sortKs (r : Nat) : Nat := fld r 5 0
def sortKd (r : Nat) : Nat := fld r 11 6
def sortPs (r : Nat) : Nat := fld r 17 12
def sortPd (r : Nat) : Nat := fld r 23 18
def sortPay (r : Nat) : Bool := fld r 24 24 == 1
/-- Bits of a key. -/
def sortW (r : Nat) : Nat := if fld r 25 25 = 1 then 32 else 64
def sortKt (r : Nat) : Nat := fld r 27 26
def sortDesc (r : Nat) : Bool := fld r 28 28 == 1
def sortLod (r : Nat) : Nat := fld r 34 32
def sortNd (r : Nat) : Nat := fld r 39 36
def sortCount (r : Nat) : Nat := fld r 95 64
def sortScr (r : Nat) : Nat := fld r 191 128

/-- The handles that a sort record names. -/
def sortHandles (r : Nat) : List Nat := [sortKs r, sortKd r] ++ (if sortPay r then [sortPs r, sortPd r] else [])

/-- Bytes of the scratch area (R320). -/
def sortScratch (r : Nat) : Nat := sortCount r * (sortW r / 8 + if sortPay r then 4 else 0)

/-- The digit value D of a key (R322). -/
def sortDigit (r k : Nat) : Nat :=
  let w := sortW r
  let top := k / 2 ^ (w - 1) % 2 = 1
  let flip := if top then k - 2 ^ (w - 1) else k + 2 ^ (w - 1)
  let t := match sortKt r with
    | 0 => k
    | 1 => flip
    | _ => if top then 2 ^ w - 1 - k else flip
  let d := fld t (8 * (sortLod r + sortNd r) - 1) (8 * sortLod r)
  if sortDesc r then 2 ^ (8 * sortNd r) - 1 - d else d

/-- Insert an index before the first whose digit value is not smaller. -/
def sortInsert (d : Nat → Nat) (i : Nat) : List Nat → List Nat
  | [] => [i]
  | j :: t => if d i ≤ d j then i :: j :: t else j :: sortInsert d i t

/-- The indices by ascending digit value; equal ones keep their order (R322). -/
def sortOrder (d : Nat → Nat) (n : Nat) : List Nat := (List.range n).foldr (sortInsert d) []

/-- The byte range of the first `n` elements of dimension 0. -/
def rowRange (r n : Nat) : Nat × Nat := boxRange r [0, 0, 0, 0] ((List.range n).map (fun i => [i, 0, 0, 0]))

/-- OVERLAP of R321: the destinations and the scratch area against one another and against the sources. -/
def sortOverlap (r : Nat) (rec : Nat → Nat) : Bool :=
  let n := sortCount r
  let kn := n * (sortW r / 32)
  let kd := rowRange (rec (sortKd r)) kn
  let ks := rowRange (rec (sortKs r)) kn
  let scr := (sortScr r, sortScr r + sortScratch r - 1)
  let keys := rangesMeet kd scr || rangesMeet ks scr || (sortKs r != sortKd r && rangesMeet ks kd)
  if sortPay r then
    let pd := rowRange (rec (sortPd r)) n
    let ps := rowRange (rec (sortPs r)) n
    keys || rangesMeet pd scr || rangesMeet ps scr || rangesMeet kd pd || rangesMeet ks pd || rangesMeet ps kd ||
      (sortPs r != sortPd r && rangesMeet ps pd)
  else keys

/-- The checks of R321 on a record whose handles are defined: a status, none where the sort goes on. -/
def sortCheck (r : Nat) (rec : Nat → Nat) : Option Nat :=
  let n := sortCount r
  if (sortHandles r).any (fun h => hFmt (rec h) != 12) || fld r 31 29 != 0 || fld r 35 35 != 0 || fld r 63 40 != 0 ||
      fld r 127 96 != 0 || fld r 511 192 != 0 || sortKt r == 3 || sortNd r == 0 || decide (8 < sortNd r) ||
      decide (sortW r / 8 < sortLod r + sortNd r) || decide (2 ^ 24 < n) || sortScr r % 128 != 0 then some 4
  else if n = 0 then some 1
  else if [sortKs r, sortKd r].any (fun h => decide (hView (rec h) 0 < n * (sortW r / 32))) ||
      (sortPay r && [sortPs r, sortPd r].any (fun h => decide (hView (rec h) 0 < n))) then some 3
  else if sortOverlap r rec then some 5
  else none

/-- Read one key, as a number of W bits (R320). -/
def readKey (s : State) (t : Team) (e r h i : Nat) : MemR Nat :=
  if sortW r = 32 then readCode s t e h [i, 0, 0, 0]
  else mbind (readCode s t e h [2 * i, 0, 0, 0]) (fun s lo =>
    mbind (readCode s t e h [2 * i + 1, 0, 0, 0]) (fun s hi => mpure s (lo + 2 ^ 32 * hi)))

def writeKey (s : State) (t : Team) (e r h i v : Nat) : MemR Unit :=
  if sortW r = 32 then writeCode s t e h [i, 0, 0, 0] v
  else mbind (writeCode s t e h [2 * i, 0, 0, 0] (v % 2 ^ 32)) (fun s _ =>
    writeCode s t e h [2 * i + 1, 0, 0, 0] (v / 2 ^ 32))

/-- Bytes that hold no stated value: free ones (R323). -/
def freeBytes (s : State) (t : Team) (e a n : Nat) : MemR Unit :=
  mfold (fun s _ i => writeCtx { s with fresh := s.fresh + 1 } t e (a + i) [Config.freeByte (freeIdx s.fresh 0)]) (List.range n) s ()

/-- Read every key and payload, then write the destinations; the scratch area is left with free bytes (R322, R323). -/
def sortData (s : State) (t : Team) (e r : Nat) (rec : Nat → Nat) : MemR Nat :=
  let n := sortCount r
  let ks := mfold (fun s (acc : List Nat) i => mbind (readKey s t e r (rec (sortKs r)) i) (fun s k => mpure s (acc ++ [k])))
    (List.range n) s []
  mbind ks (fun s keys =>
    let ps := mfold (fun s (acc : List Nat) i =>
      mbind (readCode s t e (rec (sortPs r)) [i, 0, 0, 0]) (fun s p => mpure s (acc ++ [p])))
      (if sortPay r then List.range n else []) s []
    mbind ps (fun s pays =>
      let order := sortOrder (fun i => sortDigit r (keys.getD i 0)) n
      mbind (freeBytes s t e (sortScr r) (sortScratch r)) (fun s _ =>
        mbind (mfold (fun s _ j =>
          let i := order.getD j 0
          mbind (writeKey s t e r (rec (sortKd r)) j (keys.getD i 0)) (fun s _ =>
            if sortPay r then writeCode s t e (rec (sortPd r)) [j, 0, 0, 0] (pays.getD i 0) else mpure s ()))
          (List.range n) s ()) (fun s _ => mpure s 0))))

/-- After FAULT the destinations and the scratch area hold free bytes, where they can be written (R323). -/
def sortSpoil (s : State) (t : Team) (e r : Nat) (rec : Nat → Nat) : State :=
  let n := sortCount r
  let spoil := fun (s : State) (h m : Nat) => (List.range m).foldl (fun s i =>
    (freeBytes s t e (hAddr h [i, 0, 0, 0]).1 4).1) s
  let s := spoil s (rec (sortKd r)) (n * (sortW r / 32))
  let s := if sortPay r then spoil s (rec (sortPd r)) n else s
  (List.range (sortScratch r)).foldl (fun s i => (freeBytes s t e (sortScr r + i) 1).1) s

/-- The work of SORT (R321 to R323). -/
def runSort (s : State) (t : Team) (k : Cmd) (e a : Nat) : State × CmdOut :=
  let x := readNat s t e a 64
  match x.2 with
  | .error c => (x.1, .stop c.1 c.2)
  | .ok r =>
    let hs := sortHandles r
    -- the handles are named by the record, so the wait of R269 is met here
    if hs.any (fun h => !k.found h && t.pendingFor e h) then (s, .wait)
    else if hs.any (fun h => (t.record h).isNone) then (x.1, .done 2)
    else
      let rec_ := fun h => (t.record h).getD 0
      match sortCheck r rec_ with
      | some st => (x.1, .done st)
      | none =>
        if 4 ≤ homeOf (sortScr r) ∨ 2 ^ 62 ≤ sortScr r then (sortSpoil x.1 t e r rec_, .stop .prot (sortScr r))
        else
          let y := sortData x.1 t e r rec_
          match y.2 with
          | .ok st => (y.1, .done st)
          | .error c => (if c.1 = .residency then y.1 else sortSpoil y.1 t e r rec_, .stop c.1 c.2)

-- BVHQ (R324 to R331)

/-- R326, R330: one command for each lane, with the query as the lane holds it now. -/
def execBvhq (c : Common) (d q addr : Name) (ray : Bool) (e : Nat) (sc : Scope) (a64 : Bool) (s : State) : Out :=
  let qo : Opnd := { name := q, words := if ray then 8 else 6, loose := true }
  execCmd c
    { front := { srcs := qo :: addrSrcs addr a64, dst := d1 d, allowQ := false }, own := baseOwn addr a64,
      addr := some (fun v i => v.addr s.fresh i addr a64 0, 32), e := e, sc := sc,
      kind := fun v i => .bvhq (BitVec.ofNat 64 (v.addr s.fresh i addr a64 0)) ray (v.src s.fresh i qo) } s

def numW (x : Word) : Num := dec .f32 x.toNat
/-- x ≤ y, false where one is a NaN. -/
def leNum (a b : Num) : Bool := !a.isNan && !b.isNan && cmpNum a b != .gt

/-- The box of child `j` of a node (R324): minima, then maxima. -/
def childBox (node j : Nat) : List Num := (List.range 6).map (fun i => dec .f32 (fld node (192 * j + 32 * i + 31) (192 * j + 32 * i)))
def childRef (node j : Nat) : Nat := fld node (768 + 32 * j + 31) (768 + 32 * j)

def numAt (l : List Num) (i : Nat) : Num := l.getD i (.fin false 0 0 false)

/-- The box test (R327). -/
def boxTest (q b : List Num) : Bool :=
  [0, 1, 2].all (fun i => leNum (numAt q i) (numAt b (3 + i)) && leNum (numAt b i) (numAt q (3 + i)))

/-- One plane distance of the ray test: exact difference and quotient, one rounding (R327). -/
def rayDist (b o d : Num) : Num := dec .f32 (rne .f32 (divNum (sumNum false [b, o.neg]) d).1).1

def minNum (a b : Num) : Num := if cmpNum a b == .gt then b else a
def maxNum (a b : Num) : Num := if cmpNum a b == .lt then b else a

/-- One axis of the ray test: the narrowed interval, or a miss (R327). -/
def rayAxis (q b : List Num) (iv : Option (Num × Num)) (i : Nat) : Option (Num × Num) :=
  match iv with
  | none => none
  | some (lo, hi) =>
    let o := numAt q i
    let d := numAt q (3 + i)
    if d.isZero then (if leNum (numAt b i) o && leNum o (numAt b (3 + i)) then some (lo, hi) else none)
    else
      let t1 := rayDist (numAt b i) o d
      let t2 := rayDist (numAt b (3 + i)) o d
      if t1.isNan || t2.isNan then none else some (maxNum lo (minNum t1 t2), minNum hi (maxNum t1 t2))

/-- The ray test (R327). -/
def rayTest (q b : List Num) : Bool :=
  if q.any Num.isNan || b.any Num.isNan then false
  else match [0, 1, 2].foldl (rayAxis q b) (some (numAt q 6, numAt q 7)) with
    | none => false
    | some (lo, hi) => leNum lo hi

/-- How a traversal stands: it goes on, it has aborted, or it has met a condition. -/
inductive Visit
  | on | abort | stop (c : Cause) (addr : Nat)
deriving DecidableEq, Repr

/-- Visit of R328, with the levels that remain below depth 31: the state, the hits so far and how it stands. -/
def visitNode (t : Team) (e tree : Nat) (ray : Bool) (q : List Num) : Nat → Nat → State × List Word × Visit →
    State × List Word × Visit
  | left, n, x =>
    let a := (tree + 128 * n) % 2 ^ 64
    let r := readNat x.1 t e a 128
    match r.2 with
    | .error c => (r.1, x.2.1, .stop c.1 c.2)
    | .ok node =>
      if fld node 1023 936 ≠ 0 then (r.1, x.2.1, .abort)
      else
        [0, 1, 2, 3].foldl (fun (y : State × List Word × Visit) j =>
          match y.2.2 with
          | .on =>
            let ref := childRef node j
            if ref = 0xFFFFFFFF then y
            else if !(if ray then rayTest q (childBox node j) else boxTest q (childBox node j)) then y
            else if 2 ^ 31 ≤ ref then (y.1, y.2.1 ++ [BitVec.ofNat 32 (ref % 2 ^ 31)], .on)
            else match left with
              | 0 => (y.1, y.2.1, .abort)
              | left' + 1 => visitNode t e tree ray q left' ref y
          | _ => y) (r.1, x.2.1, .on)

def bvhEnd : Word := 0xFFFFFFFF
def bvhAbort : Word := 0xFFFFFFFE

/-- The ring header of a traversal, read at its home as an ATOMIC of the context (R329): its key, a status, or the condition
met. A ring stands in a Pewter home (R246). -/
def bvhRing (s : State) (t : Team) (e a : Nat) : State × Except CmdOut Nat :=
  match locateFor s t a .read with
  | .error c => (s, .error (.stop c a))
  | .ok loc =>
    if homeOf a ≠ 2 ∧ homeOf a ≠ 3 then (s, .error (.done 4))
    else if a % 128 ≠ 0 then (s, .error (.stop .align a))
    else
      let s := clearLine s (.ctx t.uid e) (lineOf t.ctx a)
      if (List.range 128).any (fun i => poisoned s (loc.key + i)) then (s, .error (.stop .poison a))
      else if !ringLive (ringOf s loc.key) ∨ ringFmt (ringOf s loc.key) ≠ 0 then (s, .error (.done 4))
      else (s, .ok loc.key)

/-- The work of BVHQ (R326 to R331): the elements to push and the ring's key come last. -/
def runBvhq (s : State) (t : Team) (e a : Nat) (ray : Bool) (q : List Word) : State × CmdOut × List Word × Nat :=
  let x := readNat s t e a 32
  match x.2 with
  | .error c => (x.1, .stop c.1 c.2, [], 0)
  | .ok r =>
    let y := bvhRing x.1 t e (fld r 127 64)
    match y.2 with
    | .error o => (y.1, o, [], 0)
    | .ok key =>
      if fld r 63 0 % 128 ≠ 0 then (y.1, .stop .align (fld r 63 0), [bvhAbort], key)
      else
        let z := visitNode t e (fld r 63 0) ray (q.map numW) 31 (fld r 158 128) (y.1, [], .on)
        match z.2.2 with
        | .on => (z.1, .done 0, z.2.1 ++ [bvhEnd], key)
        | .abort => (z.1, .done 4, z.2.1 ++ [bvhAbort], key)
        | .stop c b => (z.1, .stop c b, z.2.1 ++ [bvhAbort], key)

-- Invar (R332 to R338)

/-- Bits of an element, and the registers that it takes. -/
def elemFormat (w64 : Bool) : Fmt := if w64 then .f64 else .f32
def elemRegs (w64 : Bool) : Nat := if w64 then 2 else 1

/-- Elements from the registers that hold them (R332). -/
def elemsOf (w64 : Bool) (n : Nat) (ws : List Word) : List Nat :=
  (List.range n).map (fun j => if w64 then (pair (ws.getD (2 * j) 0) (ws.getD (2 * j + 1) 0)).toNat else (ws.getD j 0).toNat)

/-- The registers of elements. -/
def elemsWords (w64 : Bool) (xs : List Nat) : List Word :=
  xs.flatMap (fun x => if w64 then [BitVec.ofNat 32 x, BitVec.ofNat 32 (x / 2 ^ 32)] else [BitVec.ofNat 32 x])

/-- A rounding to the block's format, with the flags of its operands (R335, R338). -/
def blockRnd (f : Fmt) (ops : List Nat) (v : Num) (fl : Flags) : Nat × Flags := withOperands f ops ((rne f v).1, (rne f v).2 ||| fl)

/-- a / b, rounded once. -/
def blockDiv (f : Fmt) (a b : Nat) : Nat × Flags :=
  let r := divNum (dec f a) (dec f b)
  blockRnd f [a, b] r.1 r.2

/-- a − b × c, rounded once. -/
def blockSub (f : Fmt) (a b c : Nat) : Nat × Flags :=
  blockRnd f [a, b, c] (sumNum false [dec f a, (mulNum (dec f b) (dec f c)).neg]) 0

/-- A matrix as its rows. -/
def matAt (m : List (List Nat)) (i j : Nat) : Nat := (m.getD i []).getD j 0
def matSet (m : List (List Nat)) (i j v : Nat) : List (List Nat) := m.modify i (fun r => r.set j v)
def swapAt {α : Type} [Inhabited α] (l : List α) (i j : Nat) : List α := (l.set i (l.getD j default)).set j (l.getD i default)

/-- Is the first magnitude larger? A NaN ranks largest (R335). -/
def magGt (a b : Num) : Bool := if a.isNan then !b.isNan else if b.isNan then false else cmpNum a.abs b.abs == .gt

/-- The largest magnitude of some values, a NaN if there is one. -/
def magMax (xs : List Num) : Num := xs.foldl (fun a x => if magGt x a then x.abs else a) (.fin false 0 0 false)

/-- What the factorization carries: the rows, the exchanges, the near-singular bits and the flags of the roundings. -/
structure Factor where
  a : List (List Nat)
  p : List Nat
  ns : List Bool
  fl : Flags

/-- One step of R335. `mk` is M[k], taken before any step; `free` stands for an NS bit that is not stated: where M[k] is a NaN
and the pivot is not. `qe02` is erratum QE-02's value for the pivot. -/
def factorStep (f : Fmt) (n k : Nat) (mk : Num) (free : Bool) (qe02 : Nat → Bool) (x : Factor) : Factor :=
  let col := fun i => dec f (matAt x.a i k)
  let p := (List.range n).foldl (fun b i => if k < i ∧ magGt (col i) (col b) then i else b) k
  let a := swapAt x.a k p
  let piv := dec f (matAt a k k)
  let ns := piv.isZero || (!piv.isNan &&
    (if mk.isNan then free else cmpNum piv.abs (mulNum (.fin false 1 (-8) false) mk) == .lt))
  let ns := ns && qe02 (matAt a k k)
  let r := (List.range n).foldl (fun (y : List (List Nat) × Flags) i =>
    if i ≤ k then y
    else if piv.isZero then (matSet y.1 i k 0, y.2)
    else
      let l := blockDiv f (matAt y.1 i k) (matAt y.1 k k)
      (List.range n).foldl (fun (y : List (List Nat) × Flags) j =>
        if j ≤ k then y
        else
          let u := blockSub f (matAt y.1 i j) l.1 (matAt y.1 k j)
          (matSet y.1 i j u.1, y.2 ||| u.2)) (matSet y.1 i k l.1, y.2 ||| l.2)) (a, x.fl)
  { a := r.1, p := x.p ++ [p], ns := x.ns ++ [ns], fl := r.2 }

/-- R335. -/
def factor (f : Fmt) (n : Nat) (free : Nat → Bool) (qe02 : Nat → Bool) (rows : List (List Nat)) : Factor :=
  (List.range n).foldl (fun x k =>
    factorStep f n k (magMax ((List.range n).map (fun i => dec f (matAt rows i k)))) (free k) qe02 x)
    { a := rows, p := [], ns := [], fl := 0 }

/-- EXP of R334, as a 12-bit field. -/
def pivotExp (f : Fmt) (n : Nat) (a : List (List Nat)) : Nat :=
  let ps := (List.range n).filterMap (fun k => match dec f (matAt a k k) with
    | .fin _ m e _ => some (Num.fin false m e false)
    | _ => none)
  match ps with
  | [] => 0x7FF
  | p :: t => match t.foldl minNum p with
    | .fin _ 0 _ _ => 0x800
    | .fin _ m e _ => (((Nat.log2 m : Int) + e) % 4096).toNat
    | _ => 0x7FF

def bitsOf (l : List Bool) : Nat := (List.range l.length).foldl (fun a i => if l.getD i false then a + 2 ^ i else a) 0

/-- The log words of R334: one of a quad, two of an octet. -/
def logWords (w64 : Bool) (n : Nat) (x : Factor) : List Word :=
  let f := elemFormat w64
  let b := if n = 4 then 2 else 3
  let p := (List.range n).foldl (fun a k => a + 2 ^ (b * k) * x.p.getD k 0) 0
  let d := if w64 then 1 else 0
  if n = 4 then [BitVec.ofNat 32 (p + 2 ^ 8 * bitsOf x.ns + 2 ^ 12 * d + 2 ^ 16 * pivotExp f n x.a)]
  else [BitVec.ofNat 32 (p + 2 ^ 24 * bitsOf x.ns), BitVec.ofNat 32 (pivotExp f n x.a + 2 ^ 12 * d)]

/-- The row exchanges in a log word. -/
def logPivots (n : Nat) (w : Word) : List Nat :=
  let b := if n = 4 then 2 else 3
  (List.range n).map (fun k => w.toNat / 2 ^ (b * k) % 2 ^ b)

/-- Exchange as logged: k upward (applies P), or downward (undoes it) (R336, R337). -/
def exchange {α : Type} [Inhabited α] (down : Bool) (ps : List Nat) (l : List α) : List α :=
  let ks := List.range ps.length
  (if down then ks.reverse else ks).foldl (fun l k => swapAt l k (ps.getD k 0)) l

/-- Subtract a × x[k] from element i. -/
def elimAt (f : Fmt) (a : Nat) (k i : Nat) (y : List Nat × Flags) : List Nat × Flags :=
  let r := blockSub f (y.1.getD i 0) a (y.1.getD k 0)
  (y.1.set i r.1, y.2 ||| r.2)

/-- Divide element k by a diagonal element; a zero one gives +0. -/
def divAt (f : Fmt) (u k : Nat) (y : List Nat × Flags) : List Nat × Flags :=
  if (dec f u).isZero then (y.1.set k 0, y.2)
  else
    let r := blockDiv f (y.1.getD k 0) u
    (y.1.set k r.1, y.2 ||| r.2)

/-- The solve of R336, plain or transposed. -/
def solveBlock (f : Fmt) (n : Nat) (transposed : Bool) (a : List (List Nat)) (ps b : List Nat) : List Nat × Flags :=
  let up := List.range n
  if transposed then
    let y := up.foldl (fun y k =>
      (up.filter (fun i => decide (k < i))).foldl (fun y i => elimAt f (matAt a k i) k i y) (divAt f (matAt a k k) k y)) (b, 0)
    let y := up.reverse.foldl (fun y k =>
      (up.filter (fun i => decide (i < k))).foldl (fun y i => elimAt f (matAt a k i) k i y) y) y
    (exchange true ps y.1, y.2)
  else
    let y := up.foldl (fun y k =>
      (up.filter (fun i => decide (k < i))).foldl (fun y i => elimAt f (matAt a i k) k i y) y) (exchange false ps b, 0)
    up.reverse.foldl (fun y k =>
      (up.filter (fun i => decide (i < k))).foldl (fun y i => elimAt f (matAt a i k) k i y) (divAt f (matAt a k k) k y)) y

/-- Names of Invar operands (R333): no c, q, w or k. -/
def invarOwn (ns : List Name) (v : View) : Option FaultInfo :=
  if ns.any (fun n => match n with
    | .c _ | .q _ | .w _ | .k _ => true
    | _ => false) then some (v.fault .illopnd) else none

/-- An Invar instruction on blocks of `n` lanes (R333): `run` gives what each lane of a block receives from the operands of
all of them. In a block that is not wholly active no lane writes anything. -/
def invarAlu (n lat : Nat) (srcs : List Opnd) (d : Dst)
    (run : List LaneIn → Nat → LaneOut) : Alu :=
  { front := { srcs := srcs, dst := some d, perLane := true, allowQ := false }, lat := lat, firstOnly := true,
    own := invarOwn (d.name :: srcs.map (·.name)),
    run := fun v inp i =>
      let ps := (List.range n).map (fun j => i / n * n + j)
      if ps.all (fun p => v.active.contains p) then run (ps.map inp) (i % n) else { regs := (inp i).old } }

/-- A factorization (R335): SA holds the row, and DST receives it with the log. -/
def factorAlu (s : State) (n lat : Nat) (d a : Name) (pd : Option Nat) (w64 : Bool) : Alu :=
  let f := elemFormat w64
  let logs := if n = 4 then 1 else 2
  invarAlu n lat [{ name := a, words := n * elemRegs w64 }] { name := d, words := n * elemRegs w64 + logs } (fun xs i =>
    let rows := xs.map (fun x => elemsOf w64 n (x.vals.getD 0 []))
    -- erratum QE-02 (R335, R424): OLU on .f64 blocks leaves NS clear for a subnormal pivot
    let qe := fun (p : Nat) => !(n == 8 && w64 && subFlag f p != 0)
    let x := factor f n (fun k => Config.freeBool (freeIdx s.fresh (16 * (xs.map (fun x => x.lane.ident)).headD 0 + k))) qe rows
    { regs := elemsWords w64 (x.a.getD i []) ++ logWords w64 n x,
      preds := match pd with
        | some p => [(p, bitsOf x.ns != 0)]
        | none => [],
      fst := x.fl, setsFst := true })

/-- A solve (R336). -/
def solveAlu (n lat : Nat) (transposed : Bool) (d fb b : Name) (w64 : Bool) : Alu :=
  let f := elemFormat w64
  let m := n * elemRegs w64
  invarAlu n lat [{ name := fb, words := m + (if n = 4 then 1 else 2) }, oW w64 b] { name := d, words := elemRegs w64 } (fun xs i =>
    let rows := xs.map (fun x => elemsOf w64 n (x.vals.getD 0 []))
    let ps := logPivots n (((xs.map (fun x => x.vals.getD 0 [])).headD []).getD m 0)
    let x := solveBlock f n transposed rows ps (xs.map (fun x => (elemsOf w64 1 (x.vals.getD 1 [])).headD 0))
    { regs := elemsWords w64 [x.1.getD i 0], fst := x.2, setsFst := true })

/-- A permutation by the logged exchanges (R337). -/
def pivotAlu (n lat : Nat) (inv : Bool) (d val log : Name) (w64 : Bool) : Alu :=
  invarAlu n lat [oW w64 val, o1 log] { name := d, words := elemRegs w64 } (fun xs i =>
    let ps := logPivots n (((xs.map (fun x => x.vals.getD 1 [])).headD []).getD 0 0)
    { regs := (exchange inv ps (xs.map (fun x => x.vals.getD 0 []))).getD i [] })

/-- Latencies of R76. -/
def quadLat (w64 : Bool) : Nat := if w64 then 48 else 24
def octetLat (w64 : Bool) : Nat := if w64 then 192 else 96

/-- R335. -/
def execQlu (c : Common) (d a : Name) (pd : Option Nat) (w64 : Bool) (s : State) : Out :=
  execAlu c (factorAlu s 4 (quadLat w64) d a pd w64) s
/-- R336. -/
def execQlus (c : Common) (d f b : Name) (w64 : Bool) (s : State) : Out :=
  execAlu c (solveAlu 4 (quadLat w64) false d f b w64) s
/-- R336. -/
def execQlut (c : Common) (d f b : Name) (w64 : Bool) (s : State) : Out :=
  execAlu c (solveAlu 4 (quadLat w64) true d f b w64) s
/-- R337. -/
def execQpiv (c : Common) (d v log : Name) (inv w64 : Bool) (s : State) : Out :=
  execAlu c (pivotAlu 4 6 inv d v log w64) s
/-- R335 to R337: `b` is unused by .f, whose SB is a predicate. -/
def execOlu (c : Common) (d a b : Name) (pd : Option Nat) (op : OluOp) (w64 : Bool) (s : State) : Out :=
  let lat := octetLat w64
  execAlu c (match op with
    | .f => factorAlu s 8 lat d a pd w64
    | .s => solveAlu 8 lat false d a b w64
    | .t => solveAlu 8 lat true d a b w64
    | .pf => pivotAlu 8 lat false d a b w64
    | .pi => pivotAlu 8 lat true d a b w64) s

end Sys2Proof.Machine
end

