-- ==== Sys2Proof/Machine/Group.lean ====
section
/-! DEFINITION. PC groups (R69), the fetch of a clause (R43 to R50, R62), what a clause names of stream ports and engine
contexts (R245, R247, R264), readiness, and CLAUSE_ISSUE (R70). -/

namespace Sys2Proof.Machine

/-- The destination and the source names of the instructions that may name ports (R244): the classes INT, FLT and XCH, and those of SYS
whose operand is 32 bits wide. -/
def vecNames : Instr → Option Name × List Name
  | .mov _ d a _ | .iaddImm _ d a _ | .isubImm _ d a _ | .imulImm _ d a _ | .ineg _ d a _ | .iabs _ d a _
  | .iminImm _ d a _ | .imaxImm _ d a _ | .shlImm _ d a _ | .shrImm _ d a _ | .sarImm _ d a _ | .rotImm _ d a _
  | .popc _ d a _ | .clz _ d a _ | .ctz _ d a _ | .brev _ d a _ | .fsqrt _ d a _ | .frcp _ d a | .frsq _ d a
  | .fexp2 _ d a | .flog2 _ d a | .fsin _ d a | .fcos _ d a | .frnd _ d a _ | .fcls _ d a _ | .dsqrt _ d a _
  | .xrngf _ d a => (some d, [a])
  | .movImm _ d _ | .movk _ d _ _ _ | .prd _ d _ => (some d, [])
  | .iadd _ d a b _ | .isub _ d a b _ | .imul _ d a b _ | .imulh _ d a b _ | .iadd64 _ d a b _ | .isub64 _ d a b _
  | .idiv _ d a b _ | .irem _ d a b _ | .imin _ d a b _ | .imax _ d a b _ | .logt _ d a b _ | .sel _ d a b _ _ _
  | .fadd _ d a b _ | .fsub _ d a b _ | .fmul _ d a b _ | .fmin _ d a b | .fmax _ d a b | .fdiv _ d a b _
  | .dadd _ d a b _ _ | .dmul _ d a b _ | .ddiv _ d a b _ | .badd2 _ d a b _ _ => (some d, [a, b])
  | .imad _ d a b x _ | .imadw _ d a b x _ | .ffma _ d a b x _ | .dfma _ d a b x _ | .bfma2 _ d a b x _ _
  | .hfma2 _ d a b x _ _ => (some d, [a, b, x])
  | .shl _ d a n _ | .shr _ d a n _ | .sar _ d a n _ | .rot _ d a n _ | .fscl _ d a n _ => (some d, [a, n])
  | .funl _ d lo hi n _ => (some d, [lo, hi, n])
  | .bfx _ d a f _ => (some d, [a, f])
  | .bfi _ d ins base f => (some d, [ins, base, f])
  | .lea _ d base idx off _ _ => (some d, [base, idx, off])
  | .icmp _ _ a b _ _ | .fcmp _ _ a b _ | .dcmp _ _ a b _ => (none, [a, b])
  | .plog _ _ _ _ _ => (none, [])
  | .pwr _ a m _ => (none, [a, m])
  | .cvt _ d a rb _ _ _ _ => (some d, [a, rb])
  | .pack _ d a j _ | .unpk _ d a j _ => (some d, [a, j])
  | .act _ d x _ => (some d, [x])
  | .actd _ d x g _ => (some d, [x, g])
  | .xrng _ d ctr key => (some d, [ctr, key])
  | .qswp _ d v m f _ => (some d, [v, m, f])
  | .qbc _ d v j f _ => (some d, [v, j, f])
  | .qdx _ d v f _ | .qdy _ d v f _ => (some d, [v, f])
  | .perm _ d v x f _ => (some d, [v, x, f])
  | .shup _ d v n f _ | .shdn _ d v n f _ | .shxr _ d v n f _ => (some d, [v, n, f])
  | .vote _ d v _ | .mtch _ d v _ | .gred _ d v _ => (some d, [v])
  | .gscan _ d v seed _ => (some d, [v, seed])
  | .rdix _ d base idx f _ => (some d, [base, idx, f])
  | .wrix _ base v idx _ => (none, [base, v, idx])
  | .rdsr _ d _ | .csave _ d _ | .crest _ d _ | .tlbinv _ d _ _ => (some d, [])
  | .replay _ d x => (some d, [x])
  | .wrsr _ a _ | .evnt _ a _ _ => (none, [a])
  | _ => (none, [])

/-- The predicates that an instruction may write (R247). -/
def predWrites : Instr → List Nat
  | .icmp _ pd _ _ _ _ | .plog _ pd _ _ _ | .fcmp _ pd _ _ _ | .dcmp _ pd _ _ _ | .acqxt _ _ pd | .tltry _ _ _ pd
  | .cms _ _ _ pd _ _ => [pd]
  | .qswp _ _ _ _ _ pv | .qbc _ _ _ _ _ pv | .qdx _ _ _ _ pv | .qdy _ _ _ _ pv | .perm _ _ _ _ _ pv
  | .shup _ _ _ _ _ pv | .shdn _ _ _ _ _ pv | .shxr _ _ _ _ _ pv | .rdix _ _ _ _ _ pv | .wrix _ _ _ _ pv =>
    if pv = 0 then [] else [pv]
  | .qlu _ _ _ pd _ | .olu _ _ _ _ pd _ _ => pd.toList
  | .pwr _ _ _ bank => (List.range 32).map (fun i => 32 * bank + i)
  | _ => []

/-- Guard and spacing of an instruction word (R51). -/
def wordGuard (w : DWord) : Guard := (guardOf (fld w.toNat 46 46) (fld w.toNat 45 39)).getD .always
def wordDist (w : DWord) : Nat := fld w.toNat 54 52

-- Clauses

structure Clause where
  hdr : Header
  words : List DWord
  lits : List Word
deriving DecidableEq, Repr

/-- What the fetch of a clause finds: a condition of the fetch itself, a failed check of stage 1 or 2 (R62) with its slot and
word, or the clause. A header that was read before the condition stands with it. -/
inductive Fetched
  | fault (c : Cause) (addr : Nat) (hdr : Option Header)
  | bad (c : Cause) (slot : Nat) (w : DWord) (hdr : Option Header)
  | ok (k : Clause)
deriving DecidableEq, Repr

/-- What fetches on a core see of a write to code, with the era of their last acquire of its home: the byte written, if it came
before; of the core's own stores the last one that came before. -/
def CodeWrite.seen (core m : Nat) (w : CodeWrite) : Option Byte :=
  if w.core = some core then (w.hist.find? (fun h => decide (h.2 < m))).map (·.1)
  else if w.era < m then some w.val else none

/-- A code byte of a home, without the writes that came after the era of the lane's last acquire (R47). -/
def codeAt (s : State) (core m key : Nat) : Byte :=
  let ws := s.codeLog.filter (fun w => w.key == key)
  match ws.findSome? (CodeWrite.seen core m) with
  | some b => b
  | none => ((ws.getLast?).map (·.old)).getD (rdByte s key)

/-- One code byte with whether it is poisoned: the core's own buffered store, else the home's byte, as they stood at the last
acquire of the fetching lanes, which `m` gives by home. Every byte of a clause is taken as of that one acquire, so that a clause is
never half old and half new (R47, log entry 39). -/
def codeByte (s : State) (t : Team) (core a : Nat) (m : Nat → Nat) : Except (Cause × Nat) (Byte × Bool) :=
  match locateFor s t a .fetch with
  | .error c => .error (c, a)
  | .ok loc =>
    let own := (((agentMem s (.core core)).entry (lineOf t.ctx a)).find? (fun b => b.off == a % 128)).bind (fun b =>
      (b.history.2.find? (fun h => decide (h.2 < m (homeOf a)))).map (·.1))
    match own with
    | some b => .ok (b, false)
    | none => .ok (codeAt s core (m (homeOf a)) loc.key, poisoned s loc.key)

/-- A run of code bytes, or the first condition met. -/
def codeRun (s : State) (t : Team) (core a : Nat) (m : Nat → Nat) : Nat → Except (Cause × Nat) (List (Byte × Bool))
  | 0 => .ok []
  | n + 1 =>
    match codeRun s t core a m n with
    | .error c => .error c
    | .ok bs => (codeByte s t core (BitVec.ofNat 64 (a + n)).toNat m).map (fun b => bs ++ [b])

/-- Code bytes as an instruction fetch reads them (R47). -/
def codeBytes (s : State) (t : Team) (core a n : Nat) (m : Nat → Nat) : Except (Cause × Nat) (List Byte) :=
  if a / 2 ^ 62 ≠ 0 then .error (.addr, a)
  else match codeRun s t core a m n with
    | .error c => .error c
    | .ok bs => if bs.any (·.2) then .error (.poison, a) else .ok (bs.map (·.1))

/-- Words of 8 bytes. -/
def codeWords (n : Nat) (bs : List Byte) : List DWord :=
  (List.range n).map (fun i => BitVec.ofNat 64 (ofBytes ((bs.drop (8 * i)).take 8)))

/-- The era of the last acquire that a lane of a group made of the code of a home (R47). -/
def Gang.codeMark (g : Gang) (grp : List Nat) (h : Nat) : Nat :=
  (grp.map (fun i => tget 0 (g.lane i).code (codeClass h))).foldl max 0

/-- Fetch and check the clause at an address (R43 to R50, R62), for lanes that acquired code last as `m` says. -/
def fetchClause (s : State) (t : Team) (core : Nat) (pc : DWord) (priv : Bool) (m : Nat → Nat) : Fetched :=
  match codeBytes s t core pc.toNat 8 m with
  | .error c => .fault c.1 c.2 none
  | .ok hb =>
    let h := headerOf ((codeWords 1 hb).headD 0)
    match headerCheck h priv with
    | some c => .bad c 0 0 none
    | none =>
      match codeBytes s t core (pc.toNat + 8) (h.size - 8) m with
      | .error c => .fault c.1 c.2 (some h)
      | .ok bs =>
        let ws := codeWords (1 + h.ni + h.nl) bs
        let is := ws.take (1 + h.ni)
        match wordsCheck h.cls h.ni 0 is with
        | some x => .bad x.2 x.1 (is.getD x.1 0) (some h)
        | none => .ok { hdr := h, words := is, lits := literals (ws.drop (1 + h.ni)) }

-- PC groups (R69)

/-- The lanes of a gang that may issue: those in a handler while there are any (R377), else the running ones. -/
def Gang.issuable (g : Gang) (l : Lane) : Bool := if g.inHandler then l.st == .trapped else l.st == .running

/-- The PC group of the lane at position `i`: the lanes at the same clause, and at the same slot of it where a clause is
resumed. -/
def Gang.pcGroup (g : Gang) (i : Nat) : List Nat :=
  let l := g.lane i
  if g.issuable l then
    (List.range 32).filter (fun j => let m := g.lane j; g.issuable m && m.pc == l.pc && m.resume == l.resume)
  else []

/-- The PC groups of a gang, by their first lanes. -/
def Gang.pcGroups (g : Gang) : List (List Nat) :=
  (List.range 32).filterMap (fun i => let x := g.pcGroup i; if x.head? = some i then some x else none)

/-- Is a write of a predicate pending: a fixed-latency result, a CMS that has not acted (R209), or the EOSP of a push that is still
out (R243, R247)? -/
def Gang.predPending (g : Gang) (now n : Nat) : Bool :=
  decide (now < g.readyAt (keyP n)) || g.lanes.any (fun l => l.queue.any (fun q => match q.kind with
    | .cms _ pd _ => pd == n
    | _ => false)) ||
  g.ops.any (fun o => match o.kind with
    | .value { name := .q p, .. } _ _ | .csave { name := .q p, .. } _ _ | .crest { name := .q p, .. } _
    | .tlbinv { name := .q p, .. } _ _ | .replay { name := .q p, .. } _ _ => (g.ports.getD p Port.unbound).eosp == n
    | _ => false)

/-- The lanes counted for an instruction of a clause before it issues (R247): those whose guard holds, or all of them while
a write of the guard is pending. -/
def countedLanes (g : Gang) (now : Nat) (grp written : List Nat) (c : Guard) : List Nat :=
  match c with
  | .always => grp
  | .pred n _ => if written.contains n || g.predPending now n then grp
      else grp.filter (fun i => guardHolds c (g.lane i))

/-- One naming of a port by the instruction of a slot: popped or pushed, and the lanes counted, one entry for each element. -/
structure Naming where
  slot : Nat
  port : Nat
  pop : Bool
  lanes : List Nat
deriving DecidableEq, Repr

/-- A word of a named register group, as a lane holds it now. -/
def peekWord (g : Gang) (lits : List Word) (i : Nat) (n : Name) (j : Nat) : Word :=
  match n with
  | .g r => (g.lane i).reg (r + j)
  | .c r => g.creg (r + j)
  | .k r => lits.getD (r + j) 0
  | _ => 0

/-- What the walk over a clause's slots carries: predicates with a pending write, the current bank and the K counts of both
(R301), and the namings found. -/
structure Walk where
  slot : Nat
  written : List Nat
  cur : Nat
  ki : List Nat
  out : List Naming
deriving DecidableEq, Repr

def portOf : Name → Option Nat
  | .q n => some n
  | _ => none

/-- One instruction of the walk. -/
def walkSlot (g : Gang) (lits : List Word) (now : Nat) (grp : List Nat) (w : Walk) (word : DWord) : Walk :=
  match decodeWord word with
  | none => { w with slot := w.slot + 1 }
  | some i =>
    let act := countedLanes g now grp w.written (wordGuard word)
    let own := act.filter (fun j => !(g.lane j).helper)
    let ns := vecNames i
    let srcs := (ns.2.filterMap portOf).dedup
    let new : List Naming := match i with
      | .mma _ _ (.q p) .port _ _ _ =>
        [{ slot := w.slot, port := p, pop := true, lanes := own.flatMap (fun j => List.replicate (w.ki.getD w.cur 0) j) }]
      | _ => srcs.map (fun p => { slot := w.slot, port := p, pop := true, lanes := act }) ++
          ((ns.1.bind portOf).toList.map (fun p => { slot := w.slot, port := p, pop := false, lanes := act }))
    let eos := new.filterMap (fun x =>
      let e := (g.ports.getD x.port Port.unbound).eosp
      if e < 96 then some e else none)
    let w := { w with slot := w.slot + 1, written := predWrites i ++ eos ++ w.written, out := w.out ++ new }
    match i with
    | .wld _ _ box _ _ _ => match own with
      | [] => w
      | j :: _ => { w with ki := w.ki.set (1 - w.cur) (peekWord g lits j box 2).toNat }
    | .wswp _ _ _ => if own.isEmpty then w else { w with cur := 1 - w.cur }
    | _ => w

/-- The namings of a clause from slot `from_` on (R245, R247). -/
def namings (c : Core) (g : Gang) (k : Clause) (from_ now : Nat) (grp : List Nat) : List Naming :=
  ((k.words.drop from_).foldl (walkSlot g k.lits now grp)
    { slot := from_, written := [], cur := c.arr.cur, ki := c.arr.banks.map (·.ki), out := [] }).out

/-- The elements or slots of one ring port that a group still has to be granted, one lane each with the place of its element
in the clause, in the order of R247: increasing slots, and lane positions within a slot. Helper lanes take none. The claim is
of k × n elements also where lanes hold elements left over from an earlier clause, which their pops then receive first (R245,
R249). -/
def ringPlan (g : Gang) (ns : List Naming) (p : Nat) (pop : Bool) : List (Nat × Nat) :=
  (ns.filter (fun n => n.port == p && n.pop == pop)).flatMap (fun n =>
    (n.lanes.mapIdx (fun k i => (i, 2 ^ 24 * n.slot + k))).filter (fun x =>
      let l := g.lane x.1
      !l.helper && !l.granted.any (fun y => y.1 == p)))

/-- The ring behind a port: its header's key, if it is live (R246, R248). -/
def portRing (s : State) (t : Team) (b : Port) : Option Nat :=
  if homeOf b.base = 2 ∨ homeOf b.base = 3 then
    match locateFor s t b.base .write with
    | .ok loc => if ringLive (ringOf s loc.key) then some loc.key else none
    | .error _ => none
  else none

/-- Can a ring grant `n` elements or slots now (R247, R248)? -/
def ringGrants (s : State) (key n : Nat) (pop : Bool) : Bool :=
  let r := ringOf s key
  if pop then decide (ringHead r + n ≤ ringCtail r) || ringClosed r
  else decide (ringTail r + n ≤ ringCap r + ringHead r)

/-- Does a request that waits at a ring still have its group: its team and the port's binding are there, its lane is still the
group's first, and it has not been served? -/
def RingReq.stands (s : State) (r : RingReq) : Bool :=
  match findTeam s r.team with
  | none => false
  | some t =>
    t.core.isSome && t.ending.isNone &&
    (if 16 ≤ r.gang then ((t.ctxOf (r.gang - 16)).queue.head?).any (fun k => !k.outbox.isEmpty && k.slot.isNone && k.ring == r.key)
     else
      let g := t.gang r.gang
      let b := g.ports.getD r.port Port.unbound
      g.parked == 0 && b.st == .bound && (g.pcGroup r.lane).head? == some r.lane && portRing s t b == some r.key &&
        !(g.lane r.lane).granted.any (fun y => y.1 == r.port))

/-- Does an earlier request of the same kind hold a request back (R247)? -/
def heldBack (s : State) (r : RingReq) : Bool :=
  (s.ringReqs.takeWhile (fun q => q != r)).any (fun q => q.key == r.key && q.pop == r.pop && q.stands s)

/-- The request's own entry in the ring's line: it is added when it arrives, and goes when it is granted (R247). -/
def joinLine (s : State) (r : RingReq) : State :=
  if s.ringReqs.contains r then s else { s with ringReqs := s.ringReqs.filter (fun q => q.stands s) ++ [r] }
def leaveLine (s : State) (r : RingReq) : State := { s with ringReqs := s.ringReqs.filter (fun q => q != r) }

-- Readiness (R69, R245)

/-- Why a group cannot issue now: `full` where the wait is a YLD point (R84), else a plain wait. -/
inductive Ready
  | yes | full | no
deriving DecidableEq, Repr

def Ready.and : Ready → Ready → Ready
  | .no, _ | _, .no => .no
  | .full, _ | _, .full => .full
  | .yes, .yes => .yes

/-- Is every element that a lane may pop prefetched, or its end within them, with no acquire pending that drops it
(R245, R251)? -/
def lanePrefetched (d : Nat) (b : Port) (p n : Nat) (l : Lane) : Bool :=
  let pos := (tget 0 l.pos p).toNat
  (List.range n).all (fun j =>
    decide (b.total ≤ pos + j) ||
      (match l.pre.find? (fun e => e.port == p && e.pos == pos + j) with
       | none => false
       | some e => !l.queue.any (fun q => match q.kind with
         | .acq sc => e.addrs.any (fun a => inScope d sc (homeOf a.toNat))
         | _ => false)))

/-- Can a port serve the group (R245)? -/
def portReady (s : State) (t : Team) (core gi : Nat) (g : Gang) (ns : List Naming) (grp : List Nat) (p : Nat) : Ready :=
  let b := g.ports.getD p Port.unbound
  match b.st with
  | .unbound | .failed => .yes
  | .pending => .no
  | .bound =>
    if b.isRing then
      let pop := b.mode == 3
      let plan := ringPlan g ns p pop
      if plan.isEmpty then .yes
      else match portRing s t b with
        | none => .no
        | some key =>
          if ringGrants s key plan.length pop ∧ !heldBack s { key := key, pop := pop, team := t.uid, gang := gi, lane := grp.headD 0, port := p }
          then .no else .full
    else if b.isRead then
      if grp.all (fun i => lanePrefetched (coreDie core) b p (ns.filter (fun n => n.port == p)).length (g.lane i)) then .yes
      else .no
    else .yes

/-- The context in which an instruction places commands, with whether it places one for the group (R263, R309), and its
name fields. -/
def cmdOf : Instr → Option (Nat × Bool × Name × List Name)
  | .tlsig _ _ e => some (e, true, .g 0, [])
  | .hdef _ d a _ e _ a64 | .cfill _ d a _ e _ a64 | .coll _ d a e _ a64 | .sort _ d a e _ a64 =>
    some (e, false, d, if a64 then [a] else [a, .c 62])
  | .copy _ d a _ _ e _ a64 => some (e, false, d, if a64 then [a] else [a, .c 62])
  | .bvhq _ d q a _ e _ a64 => some (e, false, d, q :: (if a64 then [a] else [a, .c 62]))
  | .wld _ d a _ e _ | .mma _ d a _ _ e _ | .mrd _ d a _ e _ _ _ => some (e, true, d, [a])
  | .wswp _ d e | .mzero _ d _ e | .mwr _ d _ _ _ e _ | .mst _ d _ _ _ e _ _ _ | .tblld _ d _ _ e _ _ => some (e, true, d, [])
  | _ => none

/-- How many commands an instruction places for the lanes counted. -/
def cmdCount (one : Bool) (d : Name) (ss : List Name) (own : Nat) : Nat :=
  if own = 0 then 0 else if one || (isC d && ss.all uniform) then 1 else own

/-- Has every context room for the clause's commands (R264)? -/
def ctxReady (t : Team) (g : Gang) (k : Clause) (from_ now : Nat) (grp : List Nat) : Ready :=
  let x := (k.words.drop from_).foldl (fun (a : List Nat × Tab Nat) w =>
    match decodeWord w with
    | none => a
    | some i =>
      let own := (countedLanes g now grp a.1 (wordGuard w)).filter (fun j => !(g.lane j).helper)
      let m := match cmdOf i with
        | none => a.2
        | some (e, one, d, ss) => tput 0 a.2 e (tget 0 a.2 e + cmdCount one d ss own.length)
      (predWrites i ++ a.1, m)) ([], [])
  if x.2.all (fun e => decide (((t.ctxOf e.1).queue.filter (fun c => c.st == .queued && c.begun == 0)).length + e.2 ≤ 4096)) then .yes
  else .full

/-- Ports that SPOS and SDRAIN of a clause name: they wait for a pending binding. -/
def waitsPort (w : DWord) : Option Nat :=
  match decodeWord w with
  | some (.spos _ d a set) => portOf (if set then d else a)
  | some (.sdrain _ p _) => portOf p
  | _ => none

/-- The port that an SPOS.set names. -/
def setsPort (w : DWord) : Option Nat :=
  match decodeWord w with
  | some (.spos _ d _ true) => portOf d
  | _ => none

/-- Is an acquire of a lane that drops prefetched elements still to come (R250)? -/
def Lane.acquiring (l : Lane) : Bool := l.queue.any (fun q => match q.kind with
  | .acq sc => sc != .core
  | _ => false)

/-- The WAIT condition (R45). -/
def waitHolds (g : Gang) (h : Header) : Bool :=
  let zero := fun n => g.flag (n + 1) == 0
  let named := (List.range 12).filter (fun n => h.wait / 2 ^ n % 2 == 1)
  named.isEmpty || (if h.wany then named.any zero else named.all zero)

/-- Is a group ready to issue its clause (R69)? A clause that cannot be fetched or that fails its checks issues, and traps or
parks; where its header could be read, once WAIT holds (R45). -/
def groupReady (s : State) (t : Team) (core gi : Nat) (g : Gang) (f : Fetched) (from_ now : Nat) (grp : List Nat) : Ready :=
  match f with
  | .fault _ _ none | .bad _ _ _ none => .yes
  | .fault _ _ (some h) | .bad _ _ _ (some h) => if waitHolds g h then .yes else .no
  | .ok k =>
    if !waitHolds g k.hdr then .no
    else
      let ns := namings (coreOf s core) g k from_ now grp
      let ports := (ns.map (·.port)).dedup
      let pend := (k.words.drop from_).filterMap waitsPort
      -- what an SPOS.set of the clause lets a later slot pop is bound after the lane's acquires (R251)
      let moved := (k.words.drop from_).filterMap setsPort
      if pend.any (fun p => (g.ports.getD p Port.unbound).st == .pending) ∨
          (ns.any (fun n => n.pop && moved.contains n.port) ∧ grp.any (fun i => (g.lane i).acquiring)) then .no
      else (ports.foldl (fun (r : Ready) p => r.and (portReady s t core gi g ns grp p)) Ready.yes).and (ctxReady t g k from_ now grp)

-- CLAUSE_ISSUE

/-- A candidate of the bay arbiter. -/
structure Cand where
  team : Team
  g : Nat
  gang : Gang
  grp : List Nat
  fetched : Fetched
  ready : Ready

/-- A slot past the last of its clause: the lanes stand at the next clause (R379). -/
def pastEnd (f : Fetched) (from_ : Nat) : Option DWord :=
  match f with
  | .ok k => if k.hdr.ni < from_ then some (BitVec.ofNat 64 k.hdr.size) else none
  | _ => none

/-- May a team's gangs issue at all? -/
def Team.issues (t : Team) : Bool := t.ending.isNone && t.preload.isEmpty

/-- The groups of a bay, each with its clause fetched and its readiness (R69, R70). -/
def candidates (s : State) (core bay now : Nat) : List Cand :=
  (bayGangs s core bay).flatMap (fun x =>
    match findTeam s x.1 with
    | none => []
    | some t =>
      let g := x.2.2
      if !t.issues ∨ g.parked ≠ 0 then []
      else g.pcGroups.map (fun grp =>
        let i := grp.headD 0
        let l := g.lane i
        let f := fetchClause s t core l.pc (privileged t x.2.1 i) (g.codeMark grp)
        let r : Ready := if (pastEnd f l.resume).isSome then .yes else groupReady s t core x.2.1 g f l.resume now grp
        { team := t, g := x.2.1, gang := g, grp := grp, fetched := f, ready := r }))

/-- The keys of R70: priority, demotion, age, gang slot, lane position; the first in this order is chosen. Gang slots follow
the order of teams on the core, then gang numbers. -/
def Cand.before (now : Nat) (a b : Cand) : Bool :=
  let dem := fun (c : Cand) => c.grp.all (fun i => decide (now < (c.gang.lane i).demotedUntil))
  let age := fun (c : Cand) => (c.grp.map (fun i => (c.gang.lane i).lastIssue)).foldl min ((c.gang.lane (c.grp.headD 0)).lastIssue)
  if a.team.prio ≠ b.team.prio then decide (b.team.prio < a.team.prio)
  else if dem a != dem b then !dem a
  else decide (age a < age b)

/-- The group that the arbiter chooses. -/
def choose (now : Nat) : List Cand → Option Cand
  | [] => none
  | c :: t =>
    match choose now t with
    | none => if c.ready = .yes then some c else none
    | some d => if c.ready = .yes ∧ !d.before now c then some c else some d

/-- The trap of the deferred faults at the group's clause (R374): one trap serves them all and names the lowest faulting lane
(R376). What the clause was granted of its rings is settled as at any stop (R249). -/
def deferredTrap (s : State) (uid g : Nat) (grp : List Nat) (x : Gang) : State :=
  match grp.find? (fun i => (x.lane i).deferred.isSome) with
  | none => s
  | some i =>
    match (x.lane i).deferred with
    | none => s
    | some info =>
      let pc := (x.lane i).pc
      let s := modGang s uid g (fun y => { y with lanes := (List.range y.lanes.length).map (fun j =>
        if grp.contains j then fillSlots y.ports { y.lane j with deferred := none } else y.lane j) })
      takeTrap s uid g grp { info with pc := pc, slot := 0 } pc 0 (fun _ => [])

/-- A lane whose watchdog count would pass its deadline (R84). -/
def Lane.overdue (l : Lane) : Bool := decide (2 ^ (l.deadline + 8) < l.wdog + 1)

/-- WATCHDOG ends the team (R84, R374). -/
def watchdogEnd (s : State) (t : Team) (g i : Nat) : State := endTeam s t.uid (laneFault t g i .watchdog 4 0)

/-- The window that a resumed clause finds (R379). -/
def restoredWindow (g : Gang) (grp : List Nat) (from_ : Nat) : List WinSlot :=
  (List.range from_).map (fun n =>
    let at_ := fun i => ((g.lane i).win[from_ - 1 - n]?).getD none
    { has := grp.any (fun i => (at_ i).isSome), wide := true, ready := 0,
      vals := grp.foldl (fun m i => tput 0 m i ((at_ i).getD 0)) [] })

/-- The fetch of a clause's bytes marks their pages as accessed (R372) and brings their lines into the slices. -/
def markCode (s : State) (t : Team) (pc n : Nat) : State :=
  ((List.range n).map (fun i => (pc + i) / 128 * 128)).dedup.foldl (fun s a =>
    match locateFor s t a .fetch with
    | .ok loc => touchLine (markLeaf s loc false) t.ctx loc
    | .error _ => s) s

/-- A window as it stands at slot `upto`, from the one that stood at slot `from_`: wN names the same slot (R379). -/
def windowAt (from_ upto : Nat) (w : List (Option DWord)) : List (Option DWord) :=
  (List.replicate (upto - from_) none ++ w.drop (from_ - upto)).take 8

/-- The chosen group's clause: latched, or its trap or park at fetch (R62, R374, R375). -/
def issueClause (s : State) (core bay now : Nat) (c : Cand) : State :=
  let s := markCode s c.team ((c.gang.lane (c.grp.headD 0)).pc).toNat (match c.fetched with
    | .fault _ _ _ => 0
    | .ok k => k.hdr.size
    | .bad _ _ _ h => (h.map Header.size).getD 8)
  let uid := c.team.uid
  let i := c.grp.headD 0
  let l := c.gang.lane i
  let info := fun (cs : Cause) (slot : Nat) (w : DWord) (a : Nat) =>
    { laneFault c.team c.g i cs 0 a with slot := slot, insn := w }
  match c.fetched with
  | .fault .residency a _ =>
    parkGangOn (modGang s uid c.g (fun g => { g with parts := g.parts ++ [(lineOf c.team.ctx a, false)] })) uid c.g a
  | .fault cs a _ =>
    takeTrap s uid c.g c.grp { info cs 0 0 a with einfo := 3 } l.pc 0 (fun j => windowAt l.resume 0 (c.gang.lane j).win)
  | .bad cs slot w _ =>
    takeTrap s uid c.g c.grp (info cs slot w 0) l.pc slot (fun j => windowAt l.resume slot (c.gang.lane j).win)
  | .ok k =>
    let iss : Issue :=
      { team := uid, gang := c.g, group := c.grp, pc := l.pc, cls := k.hdr.cls, ni := k.hdr.ni, words := k.words,
        lits := k.lits, slot := l.resume, window := restoredWindow c.gang c.grp l.resume, ports := c.gang.ports,
        rebind := [], point := s.mgmt.perfCur }
    let s := modGang s uid c.g (fun g => { g with lanes := (List.range g.lanes.length).map (fun j =>
      let m := g.lane j
      if c.grp.contains j then { m with wdog := m.wdog + 1 } else m) })
    modBay s core bay (fun b => { b with issue := some iss, next := now })

/-- The cycle in which a bay with no clause in issue may issue one: not the present one, if a bay of a higher number has issued in it
already (R303). -/
def issueCycle (s : State) (core bay : Nat) : Nat :=
  let now := max s.cycle (bayOf s core bay).next
  if now = s.cycle ∧ (List.range 4).any (fun j => decide (bay < j) && (bayOf s core j).done == now + 1) then now + 1 else now

/-- R70: the bay chooses one ready group and issues its clause; the clause's slots then issue one by one. Groups that wait
on a ring or a full context meet a YLD point (R84). -/
def execClauseIssue (core bay : Nat) (s : State) : Out :=
  let b := bayOf s core bay
  if b.issue.isSome ∨ (dieOf s (coreDie core)).halted ∨ 4 ≤ bay ∨ s.cores.length ≤ core then .next s
  else
    let now := issueCycle s core bay
    let cs := candidates s core bay now
    let s1 := cs.foldl (fun s c =>
      if c.ready = .full then
        c.grp.foldl (fun s i => modLane s c.team.uid c.g i (fun l => l.yldPoint c.team.stopping c.team.killPending)) s
      else s) s
    match choose now cs with
    | none => .next s1
    | some c =>
      let l := c.gang.lane (c.grp.headD 0)
      let s2 := passTo s1 now
      match pastEnd c.fetched l.resume with
      | some size => .next (c.grp.foldl (fun s i => modLane s c.team.uid c.g i (fun m =>
          { m with pc := l.pc + size, resume := 0 })) s2)
      | none =>
        if c.grp.any (fun i => (c.gang.lane i).deferred.isSome) then .next (deferredTrap s2 c.team.uid c.g c.grp c.gang)
        else match c.grp.find? (fun i => (c.gang.lane i).overdue) with
          | some i => .next (watchdogEnd s2 c.team c.g i)
          | none => .next (issueClause s2 core bay now c)

end Sys2Proof.Machine
end

