-- ==== Sys2Proof/Machine/Str.lean ====
section
/-! DEFINITION. Stream ports and rings (spec/10_streams.md R236 to R262): the six instructions and the steps BIND, PREFETCH,
POP, CLAIM, RESERVE, RPUSH and COMMIT. -/

namespace Sys2Proof.Machine

/-- The port that an operand names. -/
def portNum (n : Name) : Nat := (portOf n).getD 0

/-- ILLOPND unless the operand names a port (R255). -/
def portOwn (n : Name) (v : View) : Option FaultInfo := if (portOf n).isSome then none else some (v.fault .illopnd)

/-- The fault of naming an unbound, pending or failed port (R238, R244, R259). -/
def boundOwn (n : Name) (v : View) : Option FaultInfo :=
  match portOf n with
  | none => some (v.fault .illopnd)
  | some p =>
    let b := v.iss.ports.getD p Port.unbound
    match b.st with
    | .bound => none
    | .unbound | .pending => some (v.portFaultInfo p .illopnd 0 (v.iss.group.headD 0) 0)
    | .failed => some (v.portFaultInfo p (b.fault.getD .illopnd) b.faddr (v.iss.group.headD 0) 0)

/-- Names of a 64-bit descriptor address (R255). -/
def descOwn (port addr : Name) (v : View) : Option FaultInfo :=
  match addr with
  | .c _ | .k _ => portOwn port v
  | _ => some (v.fault .illopnd)

/-- R257: once per gang; the binding comes into force after the clause, and BIND stands in the lowest active lane's queue. -/
def execSbind (c : Common) (port addr : Name) (s : State) : Out :=
  issueChecks s c { srcs := [o2 addr] } (descOwn port addr) (fun v =>
    let lanes := v.active.take 1
    let a := fun i => (v.src2 s.fresh i addr).toNat
    match addrFaults v lanes a 64 (servedFault s .all) 0 with
    | some i => .next (trapSlot s v i)
    | none =>
      let p := portNum port
      let s1 := lanes.foldl (fun s i =>
        let d := BitVec.ofNat 64 (a i)
        modBay (modLane s v.iss.team v.g i (fun l => l.push [LaneOp.plain (.bind p d s.fresh)])) v.core v.bay (fun b =>
          { b with issue := b.issue.map (fun x => { x with rebind := x.rebind.filter (fun y => y.1 != p) ++
            [(p, d, s.fresh)] }) })) s
      .next (afterSlot s1 v false WinSlot.none))

/-- R258: once per gang, at once. -/
def execSfree (c : Common) (port : Name) (s : State) : Out :=
  issueChecks s c {} (portOwn port) (fun v =>
    let p := portNum port
    let s1 := if v.active.isEmpty then s
      else
        modBay (modGang s v.iss.team v.g (fun g =>
          { g with ports := g.ports.set p Port.unbound, lanes := g.lanes.map (freeLanePort v.iss.ports p) })) v.core v.bay
          (fun b => { b with issue := b.issue.map (fun x =>
            { x with ports := x.ports.set p Port.unbound, rebind := x.rebind.filter (fun y => y.1 != p) }) })
    .next (afterSlot s1 v false WinSlot.none))

/-- The destination of SPOS is a g register (R255). -/
def sposOwn (d a : Name) (v : View) : Option FaultInfo :=
  match d with
  | .g _ => boundOwn a v
  | _ => some (v.fault .illopnd)

/-- R259: `set` is SPOS.set, which names the port as DST and the value as SA. -/
def execSpos (c : Common) (d a : Name) (set : Bool) (s : State) : Out :=
  if set then
    issueChecks s c { srcs := [o1 a], allowQ := false } (boundOwn d) (fun v =>
      let p := portNum d
      let b := v.iss.ports.getD p Port.unbound
      .next (afterSlot (modActive s v (fun i l =>
        let x := v.src1 s.fresh i a
        let l := { l with late := l.late.filter (fun x => x.1 != p) }
        if b.isRing then { l with pos := tput 0 l.pos p x }
        else { l with pos := tput 0 l.pos p (BitVec.ofNat 32 (min x.toNat b.total)),
                      pre := l.pre.filter (fun e => e.port != p) })) v false WinSlot.none))
  else
    execAlu c { front := { dst := d1 d, perLane := true, allowQ := false }, lat := 2, own := sposOwn d a,
                run := fun v inp i => .word ((inp i).lane.posAt (portNum a) v.t) } s

/-- SDRAIN of a read port, and SDRAIN.close of a .pwrite port, are ILLOPND (R260). -/
def sdrainOwn (port : Name) (close : Bool) (v : View) : Option FaultInfo :=
  (boundOwn port v).orElse (fun _ =>
    let p := portNum port
    let b := v.iss.ports.getD p Port.unbound
    if b.isRead ∨ (close ∧ b.mode = 1) then some (v.portFaultInfo p .illopnd 0 (v.iss.group.headD 0) 0) else none)

/-- R260: every active lane, helper lanes included, drains its pushes and releases. -/
def execSdrain (c : Common) (port : Name) (close : Bool) (s : State) : Out :=
  issueChecks s c {} (sdrainOwn port close) (fun v =>
    let p := portNum port
    let b := v.iss.ports.getD p Port.unbound
    .next (afterSlot (queueOp s v c.setf v.active [] (fun _ => [.sdrain p b.desc close])) v false WinSlot.none))

/-- R261: DATA, CAP and FMT from an aligned quadruple. -/
def execQring (c : Common) (d base quad : Name) (a64 : Bool) (s : State) : Out :=
  let ds : Dst := { name := d, words := 1 }
  let qo : Opnd := { name := quad, words := 4 }
  execMem c
    { front := { srcs := qo :: addrSrcs base a64, dst := some ds },
      own := fun v => (namesOwn [quad] v).orElse (fun _ => baseOwn base a64 v), addrFirst := true,
      addr := fun v i => v.addr s.fresh i base a64 0, align := 128, bad := fun _ => servedFault s .all, acc := 2,
      ops := fun v i =>
        let q := v.src s.fresh i qo
        [.qring (BitVec.ofNat 64 (v.addr s.fresh i base a64 0)) (pair (q.getD 0 0) (q.getD 1 0)) (q.getD 2 0) (q.getD 3 0)
          ds] } s

/-- R262. ADDR and PROT come before ALIGN, as for QRING: the entry lists no order, and log entry 33 takes this one. -/
def execQrfree (c : Common) (d base : Name) (a64 : Bool) (s : State) : Out :=
  let ds : Dst := { name := d, words := 1 }
  execMem c
    { front := { srcs := addrSrcs base a64, dst := some ds }, own := baseOwn base a64, addrFirst := true,
      addr := fun v i => v.addr s.fresh i base a64 0, align := 128, bad := fun _ => servedFault s .all, acc := 2,
      ops := fun v i => [.qrfree (BitVec.ofNat 64 (v.addr s.fresh i base a64 0)) ds] } s

-- BIND (R238, R250)

/-- Does a field of the descriptor hold a value that R237 marks bad, or break a rule of R238 that needs no header? -/
def descBad (b : Port) : Bool :=
  let d := b.desc
  let ring := b.mode == 3 || b.mode == 4
  let size := elemBytes b.fmt
  decide (4 < b.mode) || decide (11 < b.fmt) || decide (4 < fld d 11 9) || fld d 15 13 != 0 || fld d 31 23 != 0 ||
  fld d 511 480 != 0 || decide (96 ≤ b.eosp ∧ b.eosp ≤ 126) || (b.mode != 2 && (fld d 12 12 != 0 || fld d 479 416 != 0)) ||
  (b.fmt == 11 && (b.mode == 1 || b.mode == 4)) || decide (2 ^ 32 - 1 < b.total) ||
  (decide (b.mode ≤ 1) && b.base % max 1 size != 0) || (b.mode == 2 && fld d 479 416 % max 1 size != 0) ||
  (ring && (fld d 159 128 != 0 || fld d 415 160 != 0 || b.base % 128 != 0))

/-- The condition met in reading a ring's header (R238, R386). -/
def headerFault (s : State) (t : Team) (b : Port) : Option Cause :=
  match locateFor s t b.base .read with
  | .error c => some c
  | .ok loc => if (List.range 64).any (fun i => poisoned s (loc.key + i)) then some .poison else none

/-- The descriptor has arrived: the port is bound or failed (R238). A condition met in reading a ring's header is held. -/
def bindPort (s : State) (t : Team) (b : Port) (desc : Nat) : Port :=
  let x := { b with desc := desc }
  let fail := { x with st := .failed, fault := none }
  if descBad x then fail
  else if x.mode = 3 ∨ x.mode = 4 then
    match headerFault s t x with
    | some c => { fail with fault := some c, faddr := BitVec.ofNat 64 x.base }
    | none =>
      match portRing s t x with
      | some key => if ringFmt (ringOf s key) = x.fmt then { x with st := .bound } else fail
      | none => fail
  else { x with st := .bound }

/-- The number of the binding that a queue entry is the BIND of, if it is one of this port. -/
def bindSeq (port : Nat) (e : LaneOp) : Option Nat :=
  match e.kind with
  | .bind p _ n => if p = port then some n else none
  | _ => none

/-- Where a gang's BIND of a port stands: lane position, place in its queue and the number of the binding. -/
def bindAt (d : Nat) (g : Gang) (port : Nat) : Option (Nat × Nat × Nat) :=
  (List.range 32).findSome? (fun i =>
    let q := (g.lane i).queue
    (q.findIdx? (fun e => (bindSeq port e).isSome)).bind (fun k =>
      if takeable d q k then ((q[k]?).bind (bindSeq port)).map (fun n => (i, k, n)) else none))

/-- R250: the descriptor binds as a LOAD of 64 bytes, at the head of the lane's queue. -/
def execBind (team gang port : Nat) (s : State) : Out :=
  match findTeam s team with
  | none => .next s
  | some t =>
    match t.core with
    | none => .next s
    | some core =>
      let g := t.gang gang
      match bindAt (coreDie core) g port with
      | none => .next s
      | some (i, k, seq) =>
        let b := g.ports.getD port Port.unbound
        let done := fun (s : State) => modLane s team gang i (fun l => { l with queue := l.queue.eraseIdx k })
        let put := fun (s : State) (b : Port) => modGang s team gang (fun x => { x with ports := x.ports.set port b })
        -- the binding of a clause in issue comes into force at its end
        let waits := (coreOf s core).bays.any (fun y => match y.issue with
          | some z => z.team == team && z.gang == gang && z.rebind.any (fun r => r.1 == port && r.2.2 == seq)
          | none => false)
        -- the BIND of a binding that has been replaced binds nothing
        if waits then .next s
        else if b.st ≠ .pending ∨ b.seq ≠ seq then .next (done s)
        else
          let r := fetchBytes s t (.core core) b.daddr.toNat .read true 64
          match r.2 with
          | .error c => .next (put (done r.1) { b with st := .failed, fault := some c.1, faddr := BitVec.ofNat 64 c.2 })
          | .ok bs =>
            if bs.any (·.2) then .next (put (done r.1) { b with st := .failed, fault := some .poison, faddr := b.daddr })
            else .next (put (done r.1) (bindPort r.1 t b (ofBytes (bs.map (·.1)))))

-- PREFETCH and POP

/-- R250: an element at or beyond the lane's position that is not prefetched, within the 16 that the buffer holds (R245); the
order is the device's own, a free choice (log entry 8). -/
def execPrefetch (team gang lane port : Nat) (s : State) : Out :=
  match findTeam s team with
  | none => .next s
  | some t =>
    match t.core with
    | none => .next s
    | some core =>
      let g := t.gang gang
      let l := g.lane lane
      let b := g.ports.getD port Port.unbound
      if b.st ≠ .bound ∨ !b.isRead ∨ b.isRing ∨ !l.live ∨ 16 ≤ (l.pre.filter (fun e => e.port == port)).length then .next s
      else
        let pos := (tget 0 l.pos port).toNat
        match (List.range 16).filter (fun j => decide (pos + j < b.total) && !l.hasPre port (pos + j)) with
        | [] => .next s
        | [j] => .next (prefetchLane s t core gang lane port (pos + j) b)
        | j :: js => .next (prefetchLane { s with fresh := s.fresh + 1 } t core gang lane port
            (pos + (j :: js).getD (Config.freeRise s.fresh % (js.length + 1)) j) b)

/-- R250: the pop leaves the lane's queue; its element was handed over when the instruction issued. -/
def execPop (team gang lane idx : Nat) (s : State) : Out :=
  match partOf s team gang lane idx with
  | none => .next s
  | some p =>
    match p.op.kind with
    | .pop _ => .next (donePart s p)
    | _ => .next s

-- CLAIM and RESERVE (R247, R248)

/-- A field of a ring header of 8 bytes at byte `o` rises. -/
def ringAdd (s : State) (key o n : Nat) : State :=
  homeWrite s 0 (lineOf 0 key) { key := key, leaf := none }
    ((toBytes 8 (rdNat s (key + o) 8 + n)).mapIdx (fun i b => (o + i, b))) false s.fresh

/-- The outcome of a request for a group's lanes: each lane knows that its next clause is served, or that the ring was not
live. -/
def grantLanes (s : State) (uid g p : Nat) (lanes : List Nat) (ok : Bool) : State :=
  lanes.foldl (fun s i => modLane s uid g i (fun l => { l with granted := l.granted ++ [(p, ok)] })) s

/-- The claimed elements in ring order, with poison; those of a ring that a plain store has gone into are free values
(R246). -/
def claimElems (s : State) (key from_ n : Nat) : List (Word × Option DWord) :=
  let r := ringOf s key
  let size := elemBytes (ringFmt r)
  (List.range n).map (fun j =>
    let a := ringSlot r (from_ + j)
    (popConv (ringFmt r) (if s.broken.contains key then (Config.freeWord (freeIdx s.fresh (8 + j))).toNat else rdNat s a size),
      if (List.range size).any (fun i => poisoned s (a + i)) then some (BitVec.ofNat 64 a) else none))

/-- Deal elements to the lanes of a plan; lanes past the last element get none (R248). `epoch` places the clause after those
that its lanes issued before. -/
def dealClaims (s : State) (uid g p epoch : Nat) : List (Nat × Nat) → List (Word × Option DWord) → State
  | [], _ => s
  | (i, o) :: t, es =>
    dealClaims (modLane s uid g i (fun l =>
      { l with claims := l.claims ++ [{ port := p, ord := 2 ^ 32 * epoch + o, val := es.head? }] })) uid g p epoch t es.tail

/-- Deal slots to the lanes of a plan. -/
def dealSlots (s : State) (uid g p ring : Nat) : List (Nat × Nat) → Nat → State
  | [], _ => s
  | (i, _) :: t, k =>
    dealSlots (modLane { s with slotsOut := s.slotsOut ++ [(ring, k)] } uid g i (fun l =>
      { l with slots := l.slots ++ [(p, BitVec.ofNat 64 ring, k)] })) uid g p ring t (k + 1)

/-- The request of the PC group of a lane for one port, at the home of the ring's header. -/
def ringRequest (s : State) (team gang lane port : Nat) (pop : Bool) : State :=
  match findTeam s team with
  | none => s
  | some t =>
    match t.core with
    | none => s
    | some core =>
      let g := t.gang gang
      let grp := g.pcGroup lane
      let l := g.lane lane
      let b := g.ports.getD port Port.unbound
      let issuing := (coreOf s core).bays.any (fun y => match y.issue with
        | some z => z.team == team && z.gang == gang
        | none => false)
      if grp.isEmpty ∨ issuing ∨ b.st ≠ .bound ∨ b.mode ≠ (if pop then 3 else 4) ∨ !t.issues ∨ g.parked ≠ 0 then s
      else match fetchClause s t core l.pc (privileged t gang lane) (g.codeMark grp) with
        | .ok k =>
          let plan := ringPlan g (namings (coreOf s core) g k l.resume s.cycle grp) port pop
          let lanes := (plan.map (·.1)).dedup
          if plan.isEmpty then s
          else match portRing s t b with
            | none => grantLanes s team gang port lanes false
            | some key =>
              let me : RingReq := { key := key, pop := pop, team := team, gang := gang, lane := grp.headD lane, port := port }
              if heldBack s me ∨ !ringGrants s key plan.length pop then joinLine s me
              else
                let r := ringOf s key
                let s := leaveLine s me
                if pop then
                  let n := min plan.length (ringCtail r - ringHead r)
                  let es := claimElems s key (ringHead r) n
                  dealClaims (grantLanes (ringAdd s key 16 n) team gang port lanes true) team gang port
                    ((grp.map (fun i => (g.lane i).lastIssue)).foldl max 0) plan es
                else
                  dealSlots (grantLanes (ringAdd (noteHome s team (homeOf b.base)) key 0 plan.length) team gang port
                    lanes true) team gang port key plan (ringTail r)
        | _ => s

-- Pushes of a traversal (R329): gang number 16 + e stands for context e

/-- A command reserves the next slot of its ring. On a ring that is not live any more the reservation fails (R248): the traversal
pushes nothing more, and its status is BADFMT as for a ring that was not live when it began (log entry 115). -/
def cmdReserve (s : State) (team e : Nat) : State :=
  match (findTeam s team).bind (fun t => headCmd t e) with
  | none => s
  | some k =>
    let r := ringOf s k.ring
    let me : RingReq := { key := k.ring, pop := false, team := team, gang := 16 + e, lane := 0, port := 0 }
    if k.outbox.isEmpty ∨ k.slot.isSome then s
    else if !ringLive r then
      modHead (leaveLine s me) team e (fun c => { c with outbox := [], st := if c.st = .running 0 then .running 4 else c.st })
    else if heldBack s me ∨ !ringGrants s k.ring 1 false then joinLine s me
    else
      let s := leaveLine s me
      let s1 := ringAdd { s with slotsOut := s.slotsOut ++ [(k.ring, ringTail r)] } k.ring 0 1
      modHead (noteHome s1 team (homeOf k.ring)) team e (fun c => { c with slot := some (ringTail r) })

/-- The element goes into the context's buffer at its slot. -/
def cmdPush (s : State) (team e : Nat) : State :=
  match findTeam s team with
  | none => s
  | some t =>
    match headCmd t e with
    | none => s
    | some k =>
      match k.slot, k.outbox with
      | some n, x :: rest =>
        let s := storeBytes s (.ctx team e) t.ctx (ringSlot (ringOf s k.ring) n) (toBytes 4 x.toNat) team 0 (some 16)
        modHead s team e (fun c => { c with slot := none, outbox := rest, pushed := c.pushed ++ [n] })
      | _, _ => s

/-- R247. -/
def execClaim (team gang lane port : Nat) (s : State) : Out := .next (aged (ringRequest s team gang lane port true))
/-- R247; R329 for a traversal in context gang − 16. -/
def execReserve (team gang lane port : Nat) (s : State) : Out :=
  .next (aged (if 16 ≤ gang then cmdReserve s team (gang - 16) else ringRequest s team gang lane port false))

/-- R250: the pushed element goes into the core's buffer at its slot; R329 for a traversal in context gang − 16. Port 16
marks a ring push. -/
def execRpush (team gang lane idx : Nat) (s : State) : Out :=
  if 16 ≤ gang then .next (cmdPush s team (gang - 16))
  else match partOf s team gang lane idx with
  | none => .next s
  | some p =>
    match p.op.kind with
    | .rpush ring k bs =>
      .next (donePart (storeBytes s p.agent p.ctx (ringSlot (ringOf s ring.toNat) k) bs p.uid p.lane.ident (some 16)) p)
    | _ => .next s

/-- R247: once every byte of slot CTAIL has merged at home, CTAIL rises by one. -/
def execCommit (ring : Line) (s : State) : Out :=
  let key := ring.addr
  let r := ringOf s key
  if (homeOf key = 2 ∨ homeOf key = 3) ∧ key % 128 = 0 ∧ ringCtail r < ringTail r ∧ !s.slotsOut.contains (key, ringCtail r)
  then .next (aged (ringAdd s key 8 1))
  else .next s

end Sys2Proof.Machine
end

