-- ==== Sys2Proof/Machine/Image.lean ====
section
/-! DEFINITION. The gang image of spec/15_faults.md R383 and R384, written by CSAVE and read by CREST. -/

namespace Sys2Proof.Machine

/-- Fields at bit offsets, as one number. -/
def fieldsNat (l : List (Nat × Nat)) : Nat := l.foldl (fun a x => a + 2 ^ x.1 * x.2) 0

/-- The positions that satisfy a test, as a mask. -/
def laneMask (g : Gang) (p : Lane → Bool) : Nat := ((List.range 32).filter (fun i => p (g.lane i))).foldl (fun a i => a + 2 ^ i) 0

def Lane.present (l : Lane) : Bool := l.st != .absent

/-- The gang's claimed elements: value, port, lane position, in delivery order. -/
def claimList (g : Gang) : List (Nat × Nat × Nat) :=
  ((((List.range 32).flatMap (fun i => (g.lane i).claims.filterMap (fun c =>
    c.val.map (fun x => (c.ord, x.1.toNat, c.port, i))))).foldl (fun m c => tins c.1 c.2 m) []).map (·.2)).take 512

/-- PSTATE (R383). -/
def portCode (p : Port) : Nat := match p.st with
  | .bound => 1
  | .failed => 2
  | _ => 0

/-- The header of the image. -/
def imageHeader (slot : Nat) (g : Gang) : Nat :=
  fieldsNat ([(0, 1), (8, g.chunks), (16, slot), (20, ((List.range 8).filter (fun q => (g.lane (4 * q)).present)).length),
    (32, laneMask g Lane.present), (64, laneMask g (fun l => l.st == .exited)), (96, laneMask g (fun l => l.present && l.helper)),
    (224, (claimList g).length)] ++
    (List.range 8).map (fun k => (128 + 8 * k, ((g.phase[k]?).map (fun p => p.tag.toNat)).getD 0)) ++
    (List.range 16).map (fun j => (192 + 2 * j, portCode (g.ports.getD j Port.unbound))) ++
    (List.range 64).map (fun i => (256 + 32 * i, (g.creg i).toNat)) ++
    (List.range 12).map (fun n => (2304 + 6 * n, g.flag (n + 1))))

/-- The wait that a lane stands in. -/
def Lane.waits (l : Lane) : Option Wait := match l.st with
  | .blocked w => some w
  | .stopped b => b
  | _ => none

/-- Codes of a memory form's scope (R91). -/
def selScopes : List Scope := [.core, .die, .pkg, .dom, .sys]

/-- WAITK, WSEL, WVAL and WADDR of a wait (R384). -/
def waitFields : Wait → Nat × Nat × Nat × Nat
  | .barg sc => (1, codeOf scopes sc, 0, 0)
  | .bart sc => (2, codeOf scopes sc, 0, 0)
  | .barb sc => (3, codeOf scopes sc, 0, 0)
  | .regrp => (4, 0, 0, 0)
  | .acqx n => (5, n, 0, 0)
  | .tlTeam e v => (6, e, v.toNat, 0)
  | .tlMem a v sc => (6, 8 + codeOf selScopes sc, v.toNat, a.toNat)
  | .tryTeam e v _ _ => (7, e, v.toNat, 0)
  | .tryMem a v sc _ _ => (7, 8 + codeOf selScopes sc, v.toNat, a.toNat)

/-- A lane block (R384). -/
def laneBlock (l : Lane) : Nat :=
  if !l.present then 0
  else
    let w := if l.handler then (0, 0, 0, 0) else (l.waits.map waitFields).getD (0, 0, 0, 0)
    let st := if l.st = .exited then 3 else if l.handler then 2 else if l.waits.isSome then 1 else 0
    fieldsNat ([(0, (if l.handler then l.epc else l.pc).toNat), (64, if l.handler then l.eslot % 16 else 0), (68, st),
      (72, w.1), (76, l.deadline % 16), (80, l.lid % 32), (85, l.qid % 8), (88, l.gid % 16), (96, l.wdog % 2 ^ 32),
      (128, l.preds.toNat), (224, l.fst.toNat), (232, w.2.1 % 256), (256, w.2.2.1), (320, w.2.2.2)] ++
      (List.range 16).map (fun j => (512 + 32 * j, (tget 0 l.pos j).toNat)) ++
      (if l.handler then (List.range 8).map (fun j => (1024 + 64 * j, (((l.shadow[j]?).getD none).getD 0).toNat)) else []))

/-- Registers lo to lo + 63 of the 32 lane positions. -/
def blockBytes (g : Gang) (lo : Nat) : List Byte :=
  (List.range 64).flatMap (fun r => (List.range 32).flatMap (fun i => toBytes 4 ((g.lane i).reg (lo + r)).toNat))

/-- The image of a gang (R383). -/
def gangImage (slot : Nat) (g : Gang) : List Byte :=
  let cs := claimList g
  toBytes 1024 (imageHeader slot g) ++
  (List.range 16).flatMap (fun j =>
    let p := g.ports.getD j Port.unbound
    toBytes 64 (if portCode p = 0 then 0 else p.desc)) ++
  (List.range 32).flatMap (fun i => toBytes 256 (laneBlock (g.lane i))) ++
  (List.range 512).flatMap (fun k => toBytes 8 (match cs[k]? with
    | some c => fieldsNat [(0, c.1), (32, c.2.1), (36, c.2.2)]
    | none => 0)) ++
  (List.range (1 + g.chunks)).flatMap (fun j => blockBytes g (64 * j))

/-- Bytes of an image with `h` chunks. -/
def imageSize (h : Nat) : Nat := 22528 + 8192 * h

-- Reading one

/-- A number of `n` bytes at an offset of an image. -/
def imgNat (bs : List Byte) (o n : Nat) : Nat := ofBytes ((bs.drop o).take n)

def imgLane (bs : List Byte) (i : Nat) : Nat := imgNat bs (2048 + 256 * i) 256

/-- Are a lane block's reserved fields zero and its state a known one? -/
def laneBlockOk (b : Nat) : Bool :=
  fld b 71 71 == 0 && fld b 95 92 == 0 && fld b 231 230 == 0 && fld b 255 240 == 0 && fld b 511 384 == 0 &&
  fld b 2047 1536 == 0 && decide (fld b 70 68 < 4)

/-- BADIMG of R393. -/
def imageBad (g : Gang) (bs : List Byte) : Bool :=
  let h := imgNat bs 0 1024
  fld h 7 0 != 1 || decide (g.chunks < fld h 10 8) || fld h 63 32 != laneMask g Lane.present || fld h 15 11 != 0 ||
  fld h 31 24 != 0 || fld h 255 234 != 0 || fld h 8191 2376 != 0 ||
  (List.range 32).any (fun i => !laneBlockOk (imgLane bs i)) ||
  (List.range 512).any (fun k => fld (imgNat bs (10240 + 8 * k) 8) 63 41 != 0)

/-- The wait that a lane block names, if any. TLTRY's predicate is not in the image: it is `pd`. -/
def blockWait (b pd deadline : Nat) : Option Wait :=
  let sel := fld b 239 232
  let v := BitVec.ofNat 64 (fld b 319 256)
  let a := BitVec.ofNat 64 (fld b 383 320)
  let sc := (scopes[sel]?).getD .pkg
  let msc := (selScopes[sel - 8]?).getD .pkg
  match fld b 75 72 with
  | 1 => some (.barg sc)
  | 2 => some (.bart sc)
  | 3 => some (.barb sc)
  | 4 => some .regrp
  | 5 => some (.acqx sel)
  | 6 => some (if sel < 8 then .tlTeam sel v else .tlMem a v msc)
  | 7 => some (if sel < 8 then .tryTeam sel v pd deadline else .tryMem a v msc pd deadline)
  | _ => none

/-- Registers of a lane position in an image, up to the last block that it holds. -/
def imgRegs (bs : List Byte) (h i : Nat) (old : Tab Word) : Tab Word :=
  (List.range (64 * (1 + h))).foldl (fun m r =>
    let o := if r < 64 then 14336 else 22528 + 8192 * (r / 64 - 1)
    tput 0 m r (BitVec.ofNat 32 (imgNat bs (o + 4 * (32 * (r % 64) + i)) 4))) old

/-- A lane as its block restores it (R393). -/
def restoreLane (bs : List Byte) (claims : List (Nat × Nat × Nat × Nat)) (tvec : DWord) (pd now i : Nat) (l : Lane) : Lane :=
  if !l.present then l
  else
    let h := imgNat bs 0 1024
    let b := imgLane bs i
    let win := (List.range 8).map (fun j => some (BitVec.ofNat 64 (fld b (1024 + 64 * j + 63) (1024 + 64 * j))))
    let mine := claims.filter (fun c => c.2.2.2 == i)
    let pc := BitVec.ofNat 64 (fld b 63 0)
    let slot := fld b 67 64
    let st := fld b 70 68
    let l := { l with
      lid := fld b 84 80, qid := fld b 87 85, gid := fld b 91 88, deadline := fld b 79 76, wdog := fld b 127 96,
      preds := BitVec.ofNat 96 (fld b 223 128), fst := BitVec.ofNat 6 (fld b 229 224), helper := fld h (96 + i) (96 + i) == 1,
      pos := (List.range 16).foldl (fun m j => tput 0 m j (BitVec.ofNat 32 (fld b (512 + 32 * j + 31) (512 + 32 * j)))) [],
      pre := [],
      claims := mine.map (fun (c : Nat × Nat × Nat × Nat) => { port := c.2.2.1, ord := c.1, val := some (BitVec.ofNat 32 c.2.1, none) }),
      granted := [],
      regs := imgRegs bs (fld h 10 8) i l.regs }
    if fld h (64 + i) (64 + i) = 1 ∨ st = 3 then { l with st := .exited, handler := false }
    else if st = 2 then
      { l with st := .trapped, handler := true, pc := if l.handler then l.pc else tvec,
               resume := if l.handler then l.resume else 0, epc := pc, eslot := slot, shadow := win }
    else
      { l with st := if st = 1 then ((blockWait b pd (now + 2048)).map LaneSt.blocked).getD .running else .running,
               handler := false, pc := pc, resume := slot, win := win }

/-- The gang as an image restores it; its ports bind again from the descriptors (R393). Flags and chunks stay. -/
def restoreGang (s : State) (t : Team) (g : Gang) (bs : List Byte) : Gang :=
  let h := imgNat bs 0 1024
  let claims := (List.range (min 512 (fld h 233 224))).map (fun k =>
    let e := imgNat bs (10240 + 8 * k) 8
    (k, fld e 31 0, fld e 35 32, fld e 40 36))
  { g with
    lanes := (List.range g.lanes.length).map (fun i =>
      restoreLane bs claims (ctxTvec s t.ctx) ((Config.freeWord (freeIdx s.fresh i)).toNat % 96) s.cycle i (g.lane i)),
    phase := (List.range 8).map (fun k =>
      let tag := BitVec.ofNat 8 (fld h (135 + 8 * k) (128 + 8 * k))
      { tag := tag, from_ := 0, olds := [] }),
    cregs := (List.range 64).foldl (fun m i => tput 0 m i (BitVec.ofNat 32 (fld h (287 + 32 * i) (256 + 32 * i)))) [],
    ports := (List.range 16).map (fun j =>
      if fld h (193 + 2 * j) (192 + 2 * j) = 0 then Port.unbound
      else bindPort s t Port.unbound (imgNat bs (1024 + 64 * j) 64)) }

end Sys2Proof.Machine
end

