-- ==== Sys2Proof/Machine/Save.lean ====
section
/-! DEFINITION. The save area of a team (spec/15_faults.md R381, R382): what pre-emption, parking and parent swap-out write
there, as pieces of it at their offsets. -/

namespace Sys2Proof.Machine

/-- The team header (R382). -/
def saveHeader (s : State) (t : Team) : Nat :=
  fieldsNat ([(0, 1), (8, (t.gangs.length - 1) % 16), (12, t.ext % 8), (15, if t.savedArray.isSome then 1 else 0), (16, t.prio % 4),
    (18, t.depth % 16), (24, t.ctx % 256), (32, t.tid % 2 ^ 32), (192, t.savedRegions.length), (199, t.leases.length),
    (203, t.pend.length), (224, t.pb.toNat), (288, t.ps % 2 ^ 32),
    (320, ((findLaunch s t.launch).map (fun l => recCrec l.raw)).getD 0)] ++
    (List.range 64).map (fun k => (64 + 2 * k, (hqryValue t k 0).toNat)))

/-- The timelines with their issued counts. -/
def saveTimelines (t : Team) : Nat :=
  fieldsNat ((List.range t.ectx.length).flatMap (fun j =>
    let c := t.ectx.getD j Ctx.empty
    [(128 * j, c.tl.toNat), (128 * j + 64, c.issued.toNat)]))

/-- The handles' records. -/
def saveHandles (t : Team) : Nat := fieldsNat ((List.range 64).map (fun k => (512 * k, (t.handle k).raw)))

/-- A subscription region. -/
def saveRegion (r : Region) : Nat :=
  fieldsNat [(0, r.line.addr), (64, r.len), (96, codeOf views r.f), (99, if r.inv then 1 else 0), (100, codeOf etypes r.t),
    (128, r.caddr.toNat), (192, r.count.toNat)]

/-- An extra lease, as R368 has its fields. -/
def saveLease (x : Range) : Nat := fieldsNat [(0, x.base.toNat), (64, x.len), (96, x.mode)]

/-- 128 FP32 values. -/
def saveWords (ws : List Word) : Nat := ofBytes (ws.flatMap (fun w => toBytes 4 w.toNat))

/-- Bits of a weight of a latched code (R318), as a bank's area holds it. -/
def saveBits (latched : Nat) : Nat := if latched = 1 ∨ latched = 7 then 16 else if latched = 6 then 4 else 8

/-- The array's pieces. -/
def saveArray (a : Array) : List (Nat × Nat × Nat) :=
  let bank := fun (b : Nat) => a.banks.getD b { w := [], latched := 0, kl := 0, loaded := false, bsc := [], ki := 0 }
  let tile := fun (i : Nat) => a.tiles.getD i { acc := [], rs := [], cs := [], cb := [] }
  (List.range 4).map (fun i => (16384 + 65536 * i, 65536, (tile i).acc.foldl (fun n x => n + x.2.toNat * 2 ^ (32 * x.1)) 0)) ++
  (List.range 2).map (fun b => (278528 + 131072 * b, 131072,
    (bank b).w.foldl (fun n x => n + x.2 * 2 ^ (saveBits (bank b).latched * x.1)) 0)) ++
  (List.range 2).map (fun b => (540672 + 512 * b, 512, saveWords (bank b).bsc)) ++
  (List.range 4).map (fun i => (541696 + 1536 * i, 1536, saveWords ((tile i).rs ++ (tile i).cs ++ (tile i).cb))) ++
  [(547840, 64, fieldsNat [(0, a.cur), (8, (bank 0).kl), (40, (bank 1).kl), (72, (bank 0).latched), (75, (bank 1).latched),
    (78, if (bank 0).loaded then 1 else 0), (79, if (bank 1).loaded then 1 else 0)])]

/-- The image of a gang. -/
def saveGang (t : Team) (j : Nat) : Nat × Nat × Nat :=
  (548864 + j * imageSize t.ext, imageSize (t.gang j).chunks, ofBytes (gangImage j (t.gang j)))

/-- What stands in the area of a team that is away, but for its gangs and its array. -/
def saveTeam (s : State) (t : Team) : List (Nat × Nat × Nat) :=
  [(0, 256, saveHeader s t), (256, 128, saveTimelines t), (4096, 4096, saveHandles t),
   (8192, 4096, fieldsNat (t.savedRegions.mapIdx (fun i r => (512 * i, saveRegion r)))),
   (12288, 256, fieldsNat (t.leases.mapIdx (fun i x => (256 * i, saveLease x)))),
   (12544, 512, fieldsNat (t.pend.mapIdx (fun i r => (1024 * i, r))))]

/-- Pieces go into a team's area; each takes the place of the one at its offset. -/
def writeSave (s : State) (uid : Nat) (ps : List (Nat × Nat × Nat)) : State :=
  let old := ((s.saves.find? (fun x => x.team == uid)).map (·.pieces)).getD []
  { s with saves := { team := uid, pieces := ps ++ old.filter (fun p => !ps.any (fun q => q.1 == p.1)) } ::
             s.saves.filter (fun x => x.team != uid) }

/-- The bytes of a team's area at an offset, as far as they have been written. -/
def readSave (s : State) (uid off n : Nat) : Option Nat :=
  ((s.saves.find? (fun x => x.team == uid)).bind (fun x =>
    x.pieces.find? (fun p => decide (p.1 ≤ off) && decide (off + n ≤ p.1 + p.2.1)))).map
    (fun p => p.2.2 / 2 ^ (8 * (off - p.1)) % 2 ^ (8 * n))

/-- The whole of a team goes into its area (R86, R381). -/
def saveAll (s : State) (uid : Nat) : State :=
  match findTeam s uid with
  | none => s
  | some t => writeSave s uid (saveTeam s t ++ ((t.savedArray.map saveArray).getD []) ++ (List.range t.gangs.length).map (saveGang t))

/-- A gang that leaves its bay goes into its team's area (R375). -/
def saveOne (s : State) (uid g : Nat) : State :=
  match findTeam s uid with
  | none => s
  | some t => writeSave s uid [saveGang t g]

/-- What still changes while a team or a gang is away changes in the area (R375, R381): timelines and handles, and the
destinations and flags of parts that REPLAY completes. -/
def keepSave (s : State) (uid : Nat) : State :=
  match findTeam s uid with
  | none => s
  | some t =>
    let gs := (List.range t.gangs.length).filter (fun j => t.core.isNone || (t.gang j).parked == 2)
    if t.core.isSome ∧ gs.isEmpty then s
    else writeSave s uid ((if t.core.isNone then saveTeam s t else []) ++ gs.map (saveGang t))

end Sys2Proof.Machine
end

