-- ==== Sys2Proof/Machine/Cmd.lean ====
section
/-! DEFINITION. The steps that begin, park and complete engine commands (spec/11_copies.md R263 to R268), match and abort
collectives (R287, R288), and pass rows through the matrix array (spec/12_matrix.md R298 to R305). -/

namespace Sys2Proof.Machine

/-- Is the implicit release of a command still outstanding in a lane (R191)? -/
def releasing (t : Team) (e no : Nat) : Bool :=
  t.gangs.any (fun g => g.lanes.any (fun l => l.queue.any (fun q => match q.kind with
    | .cmdRel _ e' no' => e' == e && no' == no
    | _ => false)))

/-- The commands that stand in array order (R303). -/
def onArray : CmdKind → Bool
  | .wld _ _ _ | .wswp _ | .mma _ _ _ _ _ _ _ | .mzero _ | .mrd _ _ _ _ _ | .mwr _ _ _ | .mst _ _ _ _ _
  | .tblld (.bias _) _ => true
  | _ => false

/-- The shared engine of a command (R18, R319, R286): the sort or traversal unit of its core group, the collective engine of
its die, or the copy engine of its core. -/
def engineOf (t : Team) : CmdKind → Option Nat
  | .sort _ => some (coreGroup t.coreN)
  | .bvhq _ _ _ => some (32 + coreGroup t.coreN)
  | .coll _ => some (64 + t.die)
  | .hdef _ _ | .copy _ _ _ | .cfill _ _ => some (128 + t.coreN)
  | _ => none

/-- The place of a context in the line of its engine: by core, then context, then admission to the core (R18). -/
def servePlace (t : Team) (e : Nat) : Nat :=
  ((8 * t.coreN + e) * 2 ^ 64 + max t.admitted t.resumedAt) * 2 ^ 64 + t.uid

/-- The accumulator tile of an array command. -/
def CmdKind.tile : CmdKind → Option Nat
  | .mma _ t _ _ _ _ _ | .mzero t | .mrd t _ _ _ _ | .mwr t _ _ | .mst _ t _ _ _ | .tblld (.bias t) _ => some t
  | _ => none

/-- Has a command done its work on the array: it has begun, and its rows have passed (R298)? -/
def Cmd.passed (k : Cmd) : Bool := k.st != .queued && k.rows.isEmpty

/-- The array commands of a core that come before one in array order and have not completed (R303). Those of a team that is ending
that have not begun are discarded (R305). -/
def orderBefore (s : State) (core uid e no : Nat) : List Cmd :=
  ((coreOf s core).order.takeWhile (· != (uid, e, no))).filterMap (fun x =>
    (findTeam s x.1).bind (fun t => (t.ctxOf x.2.1).queue.find? (fun k => k.no == x.2.2 && (t.ending.isNone || k.begun != 0))))

/-- Does an array command wait for an earlier one `j`: for its work on the same tile (R303); a row for the WLDs into its bank, and
a WLD for the rows tagged with its bank and the earlier WLDs into it (R298, R310)? -/
def arrayWaits (k j : Cmd) : Bool :=
  (k.kind.tile.isSome && k.kind.tile == j.kind.tile && !j.passed) ||
  (match k.kind, j.kind with
    | .mma _ _ b _ _ _ _, .wld _ b' _ => b == b'
    | .wld _ b _, .mma _ _ b' _ _ _ _ | .wld _ b _, .wld _ b' _ => b == b' && !j.passed
    | _, _ => false)

/-- Has the head of a context all that it needs to begin, or to go on, but its turn (R263, R268, R269, R298, R303, R305)? -/
def headReady (s : State) (t : Team) (e : Nat) (k : Cmd) : Bool :=
  k.st == .queued && !k.parked && !(dieOf s t.die).halted && !releasing t e k.no && !waitsHandle t e k &&
  (t.ending.isNone || k.begun != 0) &&
  (!onArray k.kind || (match t.core with
    | none => false
    | some n => (coreOf s n).holder == some t.uid && !(orderBefore s n t.uid e k.no).any (arrayWaits k)))

/-- The places of the contexts whose heads wait for an engine. -/
def engineLine (s : State) (g : Nat) : List Nat :=
  s.teams.flatMap (fun t => (List.range t.ectx.length).filterMap (fun e =>
    match headCmd t e with
    | some k => if engineOf t k.kind = some g ∧ headReady s t e k then some (servePlace t e) else none
    | none => none))

/-- Is it a context's turn at its engine: the first in line after the one served last, and after the last the first again
(R18)? -/
def engineTurn (s : State) (t : Team) (e : Nat) (k : Cmd) : Bool :=
  match engineOf t k.kind with
  | none => true
  | some g =>
    let last := tget 0 s.turns g
    let me := servePlace t e
    (engineLine s g).all (fun x => if last ≤ me then decide (x < last) || decide (me ≤ x) else decide (x < last) && decide (me ≤ x))

/-- The engine of a command has served its context. -/
def engineServed (s : State) (t : Team) (e : Nat) (k : Cmd) : State :=
  match engineOf t k.kind with
  | none => s
  | some g => { s with turns := tput 0 s.turns g (servePlace t e + 1) }

/-- May the head of a context begin (R18, R263)? -/
def mayBegin (s : State) (t : Team) (e : Nat) (k : Cmd) : Bool := headReady s t e k && engineTurn s t e k

/-- What a command's work leaves: the state, the outcome, and the changes of the command itself. -/
structure Work where
  s : State
  out : CmdOut
  upd : Cmd → Cmd := id

/-- The words of the quadruple that a command reads when it begins (R302): free values if its lane is there no more. -/
def lateWords (s : State) (t : Team) (k : Cmd) : Option (List Word) :=
  match k.late with
  | some (.g n) => some ((List.range 4).map (fun j => match t.whereIs k.who with
      | some (g, i) => ((t.gang g).lane i).reg (n + j)
      | none => Config.freeWord (freeIdx s.fresh j)))
  | some (.c n) => some ((List.range 4).map (fun j => (t.gang k.gang).creg (n + j)))
  | _ => none

/-- The work of a command whose state is `s` after its acquire. -/
def cmdWork (s : State) (t : Team) (e : Nat) (k : Cmd) : Work :=
  let core := t.coreN
  let of := fun (r : MemR Nat) => ({ s := (cmdOut r).1, out := (cmdOut r).2 } : Work)
  let arr := fun (f : Array → Array) => ({ s := modArr s core f, out := .done 0 } : Work)
  match k.kind with
  | .hdef _ a =>
    let r := readNat s t e a.toNat 64
    (match r.2 with
    | .error c => { s := r.1, out := .stop c.1 c.2 }
    | .ok x => { s := r.1, out := .done (if hBad x then 2 else 0), upd := fun c => { c with rcd := x } })
  | .copy hd hs a => of (runCopy s t e hd hs a.toNat)
  | .cfill h a => of (runCfill s t e h a.toNat)
  | .coll a =>
    let r := readNat s t e a.toNat 128
    (match r.2 with
    | .error c => { s := r.1, out := .stop c.1 c.2 }
    | .ok x => match collCheck r.1 x with
      | some o => { s := r.1, out := o }
      | none => { s := collTell r.1 t e x, out := .wait, upd := fun c => { c with rcd := x, st := .waiting } })
  | .tlsig => { s := s, out := .done 0 }
  | .wld h bank box =>
    let r := runWld s t e core h bank k.asked box
    { s := r.1, out := r.2.1, upd := fun c => { c with asked := r.2.2 } }
  | .wswp _ => { s := s, out := .done 0 }
  | .mma src tile bank ki arg fmt rows =>
    let r := runMma s t e core src tile bank ki ((lateWords s t k).getD arg) fmt rows
    { s := r.1, out := r.2.1,
      upd := fun c => { c with rows := r.2.2.2, kind := .mma src tile bank ki arg r.2.2.1 rows } }
  | .mzero tile => arr (fun a => runMzero a tile)
  | .mrd tile act f sat rows => { s := s, out := .done 0, upd := fun c => { c with res := runMrd s core tile act f sat rows } }
  | .mwr tile rs rows => arr (fun a => runMwr a tile rs rows)
  | .mst h tile org act sat => of (runMst s t e core h tile org act sat)
  | .tblld form a =>
    let n := match form with
      | .slot _ => 2080
      | .bias _ => 128
    let r := readTable s t e a.toNat n
    (match r.2 with
    | .error c => { s := r.1, out := .stop c.1 c.2 }
    | .ok ws => match form with
      | .slot _ => { s := r.1, out := .done 0, upd := fun c => { c with res := [(0, ws)] } }
      | .bias tile => { s := modArr r.1 core (fun b => b.modTile tile (fun x => { x with cb := ws })), out := .done 0 })
  | .sort a => let r := runSort s t k e a.toNat; { s := r.1, out := r.2 }
  | .bvhq a ray q =>
    let r := runBvhq s t e a.toNat ray q
    { s := r.1, out := r.2.1, upd := fun c => { c with outbox := r.2.2.1, ring := r.2.2.2 } }

/-- The fault that a command's record names (R267, R376, R378). -/
def cmdFault (t : Team) (e : Nat) (k : Cmd) (c : Cause) (met : Nat) : FaultInfo :=
  commandFault t e k.no k.who k.gang c (metAddr met) (metAcc met)

/-- The commands that read the banks or the accumulators, and so meet an error in them (R385). -/
def readsArray : CmdKind → Bool
  | .mma _ _ _ _ _ _ _ | .mrd _ _ _ _ _ | .mst _ _ _ _ _ => true
  | _ => false

/-- The command's acquire (R191) and its work. -/
def beginWork (s : State) (t : Team) (e : Nat) (k : Cmd) : Work :=
  if readsArray k.kind ∧ s.badArrays.contains t.coreN then
    { s := { s with badArrays := s.badArrays.filter (fun c => c != t.coreN) }, out := .stop .poison 0 }
  else cmdWork (modAgent s (.ctx t.uid e) (fun m => m.acquire t.die k.sc)) (t.asFound k) e k

/-- R263, R266, R267: the head of a context begins, and does its work. One that meets a page that is not resident stays as it was:
CONTEXT_PARK parks its context. -/
def execEngineCommandBegin (team e : Nat) (s : State) : Out :=
  match findTeam s team with
  | none => .next s
  | some t =>
    match headCmd t e with
    | none => .next s
    | some k =>
      if !mayBegin s t e k then .next s
      else
        let k := k.begin_ t e s.fresh
        let w := beginWork s t e k
        let w := { w with upd := fun c => w.upd (c.begin_ t e s.fresh)
                          s := engineServed { w.s with fresh := w.s.fresh + 1 } t e k }
        match w.out with
        | .done st => .next (modHead w.s team e (fun c => { w.upd c with st := .running st }))
        | .wait => .next (modHead w.s team e w.upd)
        | .stop c a =>
          if c = .residency then .next s
          else .next (modHead w.s team e (fun c' => { w.upd c' with st := .running 6, fault := some (cmdFault t e k c a) }))

/-- R267, R375: the head of a context waits on a page that is not resident. It has begun (R268), and keeps the handles that it has
found (R269). -/
def execContextPark (team e : Nat) (s : State) : Out :=
  match findTeam s team with
  | none => .next s
  | some t =>
    match headCmd t e with
    | none => .next s
    | some k =>
      if !mayBegin s t e k then .next s
      else match (beginWork s t e (k.begin_ t e s.fresh)).out with
        | .stop .residency a =>
          .next (parkCtx (modHead { s with fresh := s.fresh + 1 } team e (Cmd.begin_ t e s.fresh)) team e (metAddr a))
        | _ => .next s

-- Collectives

/-- The other members that a collective waits for, and the elements that each contributes (R287). -/
def collOthers (s : State) (r : Nat) (others : List Member) : Bool :=
  others.map (·.device) == (collList r).filter (fun d => d != collSelf s r) &&
  others.all (fun x => x.elems.length == (if x.kind == 3 && x.root != x.device then 0 else x.count))

/-- The exchange of a collective of the head of a context. -/
def collStep (s : State) (team e : Nat) (f : Team → Cmd → State × CmdOut) : Out :=
  match findTeam s team with
  | none => .next s
  | some t =>
    match headCmd t e with
    | none => .next s
    | some k =>
      if k.st ≠ .waiting ∨ k.parked then .next s
      else
        let r := f t k
        match r.2 with
        | .done st => .next (modHead r.1 team e (fun c => { c with st := .running st }))
        | .wait => .next s
        | .stop c a =>
          if c = .residency then .next (parkCtx s team e (metAddr a))
          else .next (modHead r.1 team e (fun c' => { c' with st := .running 6, fault := some (cmdFault t e k c a) }))

/-- Is a collective the first to have begun here of those with its TAG and MEMBERS that wait (R287)? -/
def collFirst (s : State) (k : Cmd) : Bool :=
  s.teams.all (fun t => t.ectx.all (fun c => match c.queue.head? with
    | some x => !(x.st == .waiting && collTag x.rcd == collTag k.rcd && collMembers x.rcd == collMembers k.rcd) ||
        decide (k.begun ≤ x.begun)
    | none => true))

/-- R287: every other member has begun its matching COLL; `others` says what they hold. The collectives of one TAG and MEMBERS
match in the order in which they began. -/
def execCollMatch (team e : Nat) (others : List Member) (s : State) : Out :=
  collStep s team e (fun t k =>
    if collFirst s k ∧ collOthers s k.rcd others then cmdOut (runExchange s t e k.rcd others) else (s, .wait))

/-- R288: another member's team has ended. -/
def execCollAbort (team e : Nat) (s : State) : Out :=
  collStep s team e (fun t k => (abortColl s t e k.rcd, .done 9))

-- Rows

/-- A command of the array that has rows to feed: team, context, tile, bank, format and next row. -/
def feeds (s : State) (x : Nat × Nat × Nat) : Option (Nat × Nat × Nat × Nat × Fmt × (Nat × List Nat)) :=
  match (findTeam s x.1).bind (fun t => headCmd t x.2.1) with
  | none => none
  | some k =>
    if k.no ≠ x.2.2 then none
    else match k.kind, k.rows with
      | .mma _ tile bank _ _ (some f) _, row :: _ => some (x.1, x.2.1, tile, bank, f, row)
      | _, _ => none

/-- R298, R303: the first command in array order that has rows feeds its next one. Two that feed at once update different tiles. -/
def execArrayRowPass (core : Nat) (s : State) : Out :=
  match (coreOf s core).order.findSome? (feeds s) with
  | none => .next s
  | some (uid, e, tile, bank, f, row) =>
    .next (modHead (modArr s core (fun a => passRow a tile bank f row)) uid e (fun c => { c with rows := c.rows.drop 1 }))

-- Completion

/-- Have the rows before a WSWP that are tagged with the bank it leaves all passed (R298)? -/
def swapOut (s : State) (uid e : Nat) (k : Cmd) : Bool :=
  match k.kind, (findTeam s uid).bind Team.core with
  | .wswp old, some core => (orderBefore s core uid e k.no).all (fun j => match j.kind with
      | .mma _ _ b _ _ _ _ => b != old || j.passed
      | _ => true)
  | _, _ => true

/-- Have a command's rows, pushes and datagrams all gone through (R279, R298, R329)? -/
def workOut (s : State) (uid e : Nat) (k : Cmd) : Bool :=
  swapOut s uid e k &&
  k.rows.isEmpty && k.outbox.isEmpty && !s.datagrams.any (fun d => d.team == uid && d.e == e) &&
  k.pushed.all (fun n => decide (n < ringCtail (ringOf s k.ring)))

/-- The completion word of a collective that has run (R288). -/
def ctlWord (k : Cmd) (st : Nat) : Option Nat :=
  match k.kind with
  | .coll _ => if st = 0 ∧ collCtl k.rcd ≠ 0 then some (collCtl k.rcd) else none
  | _ => none

/-- One is added at CTL as an ATOMIC of the context (R288, R401); its acknowledgement is awaited like a drain's. -/
def ctlAdd (s : State) (t : Team) (e a : Nat) : Except Cause (State × Nat) :=
  if a % 8 ≠ 0 then .error .align
  else if servedFault s .noHost a = some .prot then .error .prot
  else match locateFor s t a .write with
    | .error c => .error c
    | .ok loc =>
      let ag := Agent.ctx t.uid e
      let l := lineOf t.ctx a
      let s := touchLine (markLeaf (clearLine s ag l) loc true) t.ctx loc
      if (List.range 8).any (fun i => poisoned s (loc.key + i)) then .error .poison
      else
        let id := s.fresh
        let s := homeWrite { s with fresh := s.fresh + 1 } t.ctx l loc
          ((toBytes 8 (rdNat s loc.key 8 + 1)).mapIdx (fun i b => (loc.key % 128 + i, b))) false id
        .ok (noteHome (modAgent s ag (fun m => { m with acks := (id, l) :: m.acks })) t.uid (homeOf a), id)

/-- The cycle since which the condition of a lane's TLTRY has held, as far as it has been noted (R104). -/
def heldSince (s : State) (uid g i : Nat) : Option Nat :=
  (s.held.find? (fun h => h.1 == uid && h.2.1 == 32 * g + i)).map (·.2.2)
def dropHeld (s : State) (uid g i : Nat) : State :=
  { s with held := s.held.filter (fun h => !(h.1 == uid && h.2.1 == 32 * g + i)) }

/-- What a TLTRY with deadline `d` answers when its condition has held since cycle `h` (R104): within the interval true, after it
false, and in the interval's last cycle either (erratum QE-01). -/
def tryAnswer (s : State) (h d : Nat) : Bool :=
  decide (h < d) || (h == d && Config.freeBool (freeIdx s.fresh 0))

/-- A lane's TLTRY ends with an answer; it acquires before it continues if the answer is true. -/
def endTry (s : State) (uid g i pd : Nat) (b : Bool) (acq : State → State) : State :=
  let s := dropHeld (modLane { s with fresh := s.fresh + 1 } uid g i (fun l => l.wake.setPred pd b)) uid g i
  if b then acq s else s

/-- A lane whose wait on a timeline is met acquires and continues (R103, R104), once its earlier loads have bound (R190). A
gang that is saved waits for its resumption. -/
def wakeLane (s : State) (t : Team) (core g i : Nat) : State :=
  let l := (t.gang g).lane i
  let met := fun (e : Nat) (v : DWord) => decide (v.toNat ≤ (t.ctxOf e).tl.toNat)
  if (t.gang g).parked = 2 then s
  else match l.st with
  | .blocked (.tlTeam e v) =>
    if met e v ∧ l.caughtUp then acquireCtx (modLane s t.uid g i Lane.wake) core t.uid g i e v else s
  | .blocked (.tryTeam e v pd d) =>
    if !met e v then s
    else
      let h := (heldSince s t.uid g i).getD s.cycle
      if !l.caughtUp then
        (if (heldSince s t.uid g i).isSome then s else { s with held := s.held ++ [(t.uid, 32 * g + i, h)] })
      else endTry s t.uid g i pd (tryAnswer s h d) (fun s => acquireCtx s core t.uid g i e v)
  | _ => s

/-- Lanes that wait on a timeline look at it (R103). -/
def wakeTimeline (s : State) (uid : Nat) : State :=
  match findTeam s uid with
  | none => s
  | some t =>
    match t.core with
    | none => s
    | some core => (List.range t.gangs.length).foldl (fun s g => ((t.gang g).liveAt).foldl (fun s i => wakeLane s t core g i) s) s

/-- A command's status, or what MRD read, reaches its destination (R266, R309, R314). -/
def writeStatus (s : State) (t : Team) (k : Cmd) (st : Nat) : State :=
  match k.dst with
  | none => s
  | some d =>
    if isC d.name then writeResult s t.uid k.gang 0 k.op { d with words := 1 } [BitVec.ofNat 32 st]
    else k.lanes.foldl (fun s id => match t.whereIs id with
      | none => s
      | some (g, i) => writeResult s t.uid g i k.op d (match k.kind with
        | .mrd _ _ _ _ _ => tget [] k.res id
        | _ => [BitVec.ofNat 32 st])) s

/-- The command leaves its context, and its timeline advances (R263, R266). -/
def retireCmd (s : State) (t : Team) (e : Nat) (k : Cmd) (st : Nat) : State :=
  let core := t.coreN
  let s := writeStatus s t k st
  let s := match k.kind, k.res with
    | .tblld (.slot n) _, (_, ws) :: _ => modCore s core (fun c => { c with tables := c.tables.set n ws })
    | .hdef h _, _ => modTeam s t.uid (fun t => endHdef t h k)
    | _, _ => s
  let s := match opGang t k.op with
    | none => s
    | some g => finishPart s t.uid g k.op k.no
  let s := modTeam s t.uid (fun t => { t with ectx := t.ectx.modify e (fun c =>
    { c with queue := c.queue.drop 1, tl := c.tl + 1 }) })
  let s := if onArray k.kind then
      modCore s core (fun c => { c with order := c.order.filter (fun x => x != (t.uid, e, k.no)) })
    else s
  let s := wakeTimeline (keepSave s t.uid) t.uid
  match k.fault with
  | none => s
  | some f => commandFate s t k.who f

/-- R266: the release at the command's scope, then the completion; while acknowledgements are out the command waits. -/
def completeCmd (s : State) (t : Team) (e : Nat) (k : Cmd) (st : Nat) (acks : List Nat) : State :=
  let r := relScope s (.ctx t.uid e) k.sc acks
  match r.2 with
  | some acks => modHead r.1 t.uid e (fun c => { c with st := .releasing st acks })
  | none =>
    match ctlWord k st with
    | none => retireCmd r.1 t e k st
    | some a =>
      match ctlAdd r.1 t e a with
      | .error .residency => parkCtx r.1 t.uid e a
      | .error c =>
        modHead r.1 t.uid e (fun x => { x with st := .releasing 6 [], fault := some (commandFault t e k.no k.who k.gang c a 2) })
      | .ok y => modHead y.1 t.uid e (fun x => { x with rcd := 0, st := .releasing st [y.2] })

/-- R263, R266. -/
def execEngineCommandComplete (team e : Nat) (s : State) : Out :=
  match findTeam s team with
  | none => .next s
  | some t =>
    match headCmd t e with
    | none => .next s
    | some k =>
      if k.parked then .next s
      else match k.st with
        | .running st => if workOut s team e k then .next (completeCmd s t e k st []) else .next s
        | .releasing st acks => .next (completeCmd s t e k st acks)
        | _ => .next s

end Sys2Proof.Machine
end

