-- ==== Sys2Proof/Machine/Ctl.lean ====
section
/-! DEFINITION. The control instructions (spec/04_control.md R90 to R105). -/

namespace Sys2Proof.Machine

/-- R93. -/
def execNop (c : Common) (s : State) : Out := execAlu c { front := {}, lat := 0, run := fun _ _ _ => {} } s

-- Transfers (R94)

/-- MISALIGNPC of a transfer, named by the lowest lane whose target is not a multiple of 8 (R46, R376). -/
def misaligned (v : View) (tgt : Nat → DWord) : Option FaultInfo :=
  (v.active.find? (fun i => decide ((tgt i).toNat % 8 ≠ 0))).map (fun i =>
    let l := v.gang.lane i
    { v.fault .misalignpc with lane := i, lid := l.lid, qid := l.qid, gid := l.gid })

/-- The lanes go to their targets, after MISALIGNPC (R62, R92). -/
def transferTo (s : State) (v : View) (tgt : Nat → DWord) : Out :=
  match misaligned v tgt with
  | some i => .next (trapSlot s v i)
  | none => .next (endWith s v (fun i l => { l with pc := tgt i }))

/-- The address of the following clause. -/
def View.nextPc (v : View) : DWord := v.iss.pc + BitVec.ofNat 64 (8 * (2 + v.iss.ni + v.iss.lits.length / 2))

/-- The C21 target (R53). -/
def View.c21 (v : View) (off : Int) : DWord := v.iss.pc + BitVec.ofInt 64 (8 * off)

/-- Write a link in the active lanes and transfer (R94). The targets are read before the links are written (log entry 14). -/
def linkTo (s : State) (v : View) (d : Name) (tgt : Nat → DWord) : Out :=
  match misaligned v tgt with
  | some i => .next (trapSlot s v i)
  | none =>
    match d with
    | .g n =>
      let s := endWith s v (fun i l => { l.setRegs n [lo32 v.nextPc, hi32 v.nextPc] with pc := tgt i })
      .next (if v.active.isEmpty then s
        else modGang s v.iss.team v.g (fun g => g.setReady (inLanes [keyG n, keyG (n + 1)] v.active) (v.t + 2)))
    | _ => .next s

/-- The link names an even g register (R92). -/
def linkOwn (d : Name) (v : View) : Option FaultInfo :=
  match d with
  | .g _ => none
  | _ => some (v.fault .illopnd)

/-- R94. -/
def execBra (c : Common) (off : Int) (s : State) : Out :=
  issueChecks s c {} (fun _ => none) (fun v => transferTo s v (fun _ => v.c21 off))

/-- R94. -/
def execBrx (c : Common) (a : Name) (s : State) : Out :=
  issueChecks s c { srcs := [o2 a] } (namesOwn [a]) (fun v => transferTo s v (fun i => v.src2 s.fresh i a))

/-- R94. -/
def execCall (c : Common) (d : Name) (off : Int) (s : State) : Out :=
  issueChecks s c { dst := d2 d } (linkOwn d) (fun v => linkTo s v d (fun _ => v.c21 off))

/-- R94. -/
def execCallx (c : Common) (d a : Name) (s : State) : Out :=
  issueChecks s c { srcs := [o2 a], dst := d2 d } (fun v => (linkOwn d v).orElse (fun _ => namesOwn [a] v))
    (fun v => linkTo s v d (fun i => v.src2 s.fresh i a))

/-- R94: RET has exactly the effect of BRX. -/
def execRet (c : Common) (a : Name) (s : State) : Out :=
  issueChecks s c { srcs := [o2 a] } (namesOwn [a]) (fun v => transferTo s v (fun i => v.src2 s.fresh i a))

/-- An exited lane: it is in no handler any more, its port positions, prefetched and claimed elements are lost (R254), and
operations issued before (those numbered below `now`) write nothing in it (R88). -/
def exitLane (now : Nat) (l : Lane) : Lane :=
  { l with st := .exited, handler := false, since := now, pos := [], pre := [], claims := [] }

/-- R95. A lane that still holds a deferred fault issues no further clause, and the team ends with it (R374; log entry 105). -/
def execExit (c : Common) (s : State) : Out :=
  issueChecks s c {} (fun _ => none) (fun v =>
    let s1 := endWith s v (fun _ l => exitLane s.fresh l)
    .next (match v.active.findSome? (fun i => (v.gang.lane i).deferred) with
      | some f => endTeam s1 v.iss.team f
      | none => s1))

/-- R96: a YLD point, which also sets the deadline exponent. -/
def execYld (c : Common) (d : Nat) (s : State) : Out :=
  issueChecks s c {} (fun _ => none) (fun v =>
    .next (endWith s v (fun _ l => { l.yldPoint v.team.stopping v.team.killPending with deadline := d })))

/-- R97. -/
def execHinty (c : Common) (s : State) : Out :=
  issueChecks s c {} (fun _ => none) (fun v => .next (endWith s v (fun _ l => { l with demotedUntil := v.t + 64 })))

-- Barriers (R98)

/-- A lane arrives: it releases at the scope, then waits; entering a wait is a YLD point (R84). -/
def arrive (w : Wait) (sc : Scope) (t : Team) (l : Lane) : Lane :=
  { l.push [LaneOp.plain (.rel sc)] with st := .blocked w }.yldPoint t.stopping t.killPending

/-- R98. -/
def execBarg (c : Common) (sc : Scope) (s : State) : Out :=
  issueChecks s c {} (fun _ => none) (fun v => .next (endWith s v (fun _ => arrive (.barg sc) sc v.team)))

/-- R98. -/
def execBart (c : Common) (sc : Scope) (s : State) : Out :=
  issueChecks s c {} (fun _ => none) (fun v => .next (endWith s v (fun _ => arrive (.bart sc) sc v.team)))

/-- R98. -/
def execBarb (c : Common) (sc : Scope) (s : State) : Out :=
  issueChecks s c {} (fun _ => none) (fun v => .next (endWith s v (fun _ => arrive (.barb sc) sc v.team)))

/-- R99; ILLREGRP of R83. -/
def execRegrp (c : Common) (s : State) : Out :=
  issueChecks s c {} (fun v => if v.gang.chunks ≠ 0 then some (v.fault .illregrp) else none)
    (fun v => .next (endWith s v (fun _ => arrive .regrp .core v.team)))

/-- R100: the lowest active lane of each quad gives its tag, visible to `phase` two cycles later. -/
def execSphase (c : Common) (a : Name) (s : State) : Out :=
  issueChecks s c { srcs := [o1 a], allowQ := false } (fun _ => none) (fun v =>
    let s1 := modGang s v.iss.team v.g (fun g =>
      { g with phase := (List.range g.phase.length).map (fun q =>
          let p := g.phase.getD q Phase.zero
          match v.active.find? (fun i => i / 4 == q) with
          | some i => p.give ((v.src1 s.fresh i a).setWidth 8) v.t
          | none => p) })
    .next (afterSlot s1 v false WinSlot.none))

-- Register blocks (R101, R102)

/-- ILLREGRP: a lane of the gang waits at REGRP (R83). -/
def regrpWaits (g : Gang) : Bool :=
  g.lanes.any (fun l => match l.st with
    | .blocked .regrp => true
    | .stopped (some .regrp) => true
    | _ => false)

/-- The checks of ACQX and ACQXT: more than E chunks is ILLINSN (R78), then ILLREGRP (R83). The spec gives no order of the two; that
ILLINSN comes first is log entry 33. -/
def acqxOwn (n : Nat) (v : View) : Option FaultInfo :=
  if v.team.ext < n then some (v.fault .illinsn)
  else if regrpWaits v.gang then some (v.fault .illregrp)
  else none

/-- R101. -/
def execAcqx (c : Common) (n : Nat) (s : State) : Out :=
  issueChecks s c {} (acqxOwn n) (fun v =>
    if v.active.isEmpty ∨ n ≤ v.gang.chunks then .next (afterSlot s v false WinSlot.none)
    else if chunksFit s v.core v.bay v.iss.team v.g n then
      .next (afterSlot (modGang s v.iss.team v.g (fun g => g.setChunks n)) v false WinSlot.none)
    else .next (endWith s v (fun _ l => { l with st := .blocked (.acqx n) }.yldPoint v.team.stopping v.team.killPending)))

/-- R101. -/
def execRelx (c : Common) (n : Nat) (s : State) : Out :=
  issueChecks s c {} (fun _ => none) (fun v =>
    let s1 := if v.active.isEmpty ∨ v.gang.chunks ≤ n then s else modGang s v.iss.team v.g (fun g => g.setChunks n)
    .next (afterSlot s1 v false WinSlot.none))

/-- R102: the grant does not depend on the guard. -/
def execAcqxt (c : Common) (n pd : Nat) (s : State) : Out :=
  issueChecks s c {} (acqxOwn n) (fun v =>
    let held := decide (n ≤ v.gang.chunks)
    let fits := !held && chunksFit s v.core v.bay v.iss.team v.g n
    let s1 := if fits then modGang s v.iss.team v.g (fun g => g.setChunks n) else s
    let s2 := endWith s1 v (fun _ l => l.setPred pd (held || fits))
    .next (if v.active.isEmpty then s2 else modGang s2 v.iss.team v.g (fun g => g.setReady (inLanes [keyP pd] v.active) (v.t + 2))))

-- Waits on timelines and memory (R103, R104)

/-- The sources of TLWAIT and TLTRY. -/
def waitSrcs (val : Name) : TlSel → List Name
  | .team _ => [val]
  | .mem _ a => [val, a]

/-- Legal names of the value and the address (R92). -/
def waitOwn (val : Name) (w : TlSel) (v : View) : Option FaultInfo := namesOwn (waitSrcs val w) v

/-- ALIGN, then ADDR and PROT of R181, for the memory form, as for a load (R103). -/
def waitFault (s : State) (w : TlSel) (v : View) : Option FaultInfo :=
  match w with
  | .team _ => none
  | .mem _ a => addrFaults v v.active (fun i => (v.src2 s.fresh i a).toNat) 8 (servedFault s .all) 0

/-- A lane's wait: `tr` is TLTRY's predicate, with the end of its interval. -/
def waitOf (w : TlSel) (x a : DWord) (tr : Option (Nat × Nat)) : Wait :=
  match w, tr with
  | .team e, none => .tlTeam e x
  | .mem sc _, none => .tlMem a x sc
  | .team e, some (pd, t) => .tryTeam e x pd t
  | .mem sc _, some (pd, t) => .tryMem a x sc pd t

/-- TLWAIT and TLTRY: a team-form lane whose timeline has reached its value, and whose earlier operations have taken their steps (R190), acquires
and continues; every other lane waits, and a memory form is evaluated by its first TLWAIT_REREAD. -/
def execTl (c : Common) (val : Name) (w : TlSel) (pd : Option Nat) (s : State) : Out :=
  issueChecks s c { srcs := (waitSrcs val w).map o2 } (waitOwn val w) (fun v =>
    match waitFault s w v with
    | some i => .next (trapSlot s v i)
    | none =>
    let met := fun i => match w with
      | .team e => decide ((v.src2 s.fresh i val).toNat ≤ (v.team.ctxOf e).tl.toNat)
      | .mem _ _ => false
    let now := fun i => met i && (v.gang.lane i).caughtUp
    let a := fun i => match w with
      | .team _ => 0
      | .mem _ n => v.src2 s.fresh i n
    let s1 := { s with held := s.held.filter (fun h =>
      !(h.1 == v.iss.team && h.2.1 / 32 == v.g && v.active.contains (h.2.1 % 32))) ++
      (v.active.filter (fun i => met i && !now i)).map (fun i => (v.iss.team, 32 * v.g + i, v.t)) }
    let s1 := endWith s1 v (fun i l =>
      if now i then (match pd with | some p => l.setPred p true | none => l)
      else { l with st := .blocked (waitOf w (v.src2 s.fresh i val) (a i) (pd.map (fun p => (p, v.t + 2048)))),
                    seen := none, waitInsn := v.word }.yldPoint v.team.stopping v.team.killPending)
    .next (match w with
      | .team e => (v.active.filter now).foldl (fun s2 i => acquireCtx s2 v.core v.iss.team v.g i e (v.src2 s.fresh i val)) s1
      -- a word that holds its value already has held it since the issue (R104)
      | .mem _ _ => noteLanes s1 v.t (fun t g _ => t.uid == v.iss.team && g == v.g)))

/-- R103. -/
def execTlwait (c : Common) (val : Name) (w : TlSel) (s : State) : Out := execTl c val w none s

/-- R104. -/
def execTltry (c : Common) (val : Name) (w : TlSel) (pd : Nat) (s : State) : Out := execTl c val w (some pd) s

/-- R105: one signal command, unless only helper lanes are active. -/
def execTlsig (c : Common) (sc : Scope) (e : Nat) (s : State) : Out :=
  issueChecks s c {} (fun _ => none) (fun v =>
    let s1 := if v.acting.isEmpty then s else placeCmd s v.iss.team v.g e .tlsig sc 0 none (v.gang.lane (v.acting.headD 0)).ident []
      v.active (insn := v.word)
    .next (afterSlot s1 v false WinSlot.none))

end Sys2Proof.Machine
end

