-- ==== Sys2Proof/Machine/Lch.lean ====
section
/-! DEFINITION. Launch records, completion records and chains (spec/14_launch.md R341 to R363), and the four launch
instructions (R364 to R368). -/

namespace Sys2Proof.Machine

-- Records: a launch record is a 1,024-bit number

def recEntry (r : Nat) : Nat := fld r 63 0
def recQ (r : Nat) : Nat := (recL r + 3) / 4
def recP (r : Nat) : Nat := (recQ r + recG r - 1) / recG r
def recArray (r : Nat) : Bool := fld r 125 125 == 1
def recPrio (r : Nat) : Nat := fld r 127 126
def recExt (r : Nat) : Nat := fld r 130 128
def recHn (r : Nat) : Nat := fld r 138 132
def recPbl (r : Nat) : Nat := fld r 255 192
def recHtab (r : Nat) : Nat := fld r 319 256
def recParam (r : Nat) : DWord := BitVec.ofNat 64 (fld r 383 320)
def recAff (r : Nat) : Nat := fld r 447 384
def recBit (r n : Nat) : Bool := fld r n n == 1
def recIvec (r : Nat) : Nat := fld r 919 904

/-- The ranges in use. -/
def recRanges (r : Nat) : List Range := ((List.range 4).map (recRange r)).filter (fun x => x.mode != 0)

/-- Is a range invalid (R342)? -/
def rangeBad (x : Range) : Bool :=
  let a := x.base.toNat
  x.len == 0 || decide (2 ^ 62 ≤ a) || decide (4 < homeOf a) || decide (2 ^ 50 < offOf a + x.len * 65536)

/-- Is an address usable as a completion record's (R341)? -/
def crecUsable (a : Nat) : Bool := a != 0 && a % 32 == 0 && decide (a < 2 ^ 62) && decide (homeOf a < 4)

/-- R342: the code that refuses a record. -/
def recCheck (r : Nat) : Option Nat :=
  let dims := [recDim r 0, recDim r 1, recDim r 2]
  let pbl := recPbl r
  if fld r 131 131 != 0 || fld r 143 139 != 0 || fld r 191 163 != 0 || fld r 903 902 != 0 || fld r 1023 920 != 0 ||
      recEntry r % 8 != 0 || decide (2 ^ 62 ≤ recEntry r) || dims.any (· == 0) || decide (2 ^ 24 < recTeams r) ||
      decide (32 * recG r < recL r) || decide (4 < recExt r) || decide (64 < recHn r) || decide (4 * 262144 < recPS r) ||
      (recPS r != 0 && (pbl % 128 != 0 || decide (2 ^ 62 ≤ pbl) || decide (1 < homeOf pbl))) ||
      (recCrec r != 0 && !crecUsable (recCrec r)) || (recRanges r).any rangeBad then some 3
  else if recQ r ≤ (recG r - 1) * recP r then some 4
  else none

/-- R342 with the context's VALID bit (R369). -/
def recRefused (s : State) (ctx r : Nat) : Option Nat := if !ctxValid s ctx then some 3 else recCheck r

-- The completion record (R355, R357)

/-- What the engine reads at a home, as a LOAD at package scope (R346). -/
def engineRead (s : State) (ctx a n : Nat) : State × Except Cause Nat :=
  match locate s ctx a .read false with
  | .error c => (s, .error c)
  | .ok loc =>
    if (List.range n).any (fun i => poisoned s (loc.key + i)) then (s, .error .poison)
    else
      let s := touchLine (markLeaf s loc false) ctx loc
      (s, .ok (rdNat s loc.key n))

/-- An ATOMIC of the engine on `n` bytes at an address: `f` gives the bytes that it writes, by offset from the address. The
messages that it causes carry the counter's value. Host memory takes PROT (R401), and sharers compare views (R216). -/
def engineAtomic (s : State) (ctx a n : Nat) (f : Nat → List (Nat × Byte)) : Except Cause State :=
  if homeOf a = 4 then .error .prot
  else match locate s ctx a .write false with
    | .error c => .error c
    | .ok loc =>
      if (List.range n).any (fun i => poisoned s (loc.key + i)) then .error .poison
      else
        let x := touchLine (markLeaf { s with fresh := s.fresh + 1 } loc true) ctx loc
        .ok (homeWrite x ctx (lineOf ctx a) loc
          ((f (rdNat x loc.key n)).map (fun b => (loc.key % 128 + b.1, b.2))) false s.fresh)

/-- Bytes at an offset. -/
def bytesAt (o n v : Nat) : List (Nat × Byte) := (toBytes n v).mapIdx (fun i b => (o + i, b))

def modLaunch (s : State) (id : Nat) (f : Launch → Launch) : State :=
  { s with launches := modWhere (fun l => l.id == id) f s.launches }

/-- A write to a launch's completion record; after a condition the engine keeps the counts inside itself (R357). -/
def crecWrite (s : State) (id : Nat) (f : Nat → List (Nat × Byte)) : State :=
  match findLaunch s id with
  | none => s
  | some l =>
    let a := recCrec l.raw
    if a = 0 ∨ l.crecBad then { s with fresh := s.fresh + 1 }
    else match engineAtomic s l.ctx a 32 f with
      | .ok s => s
      | .error _ => errorEvent (modLaunch { s with fresh := s.fresh + 1 } id (fun l => { l with crecBad := true })) l.die a

/-- The completion record of a refused launch (R342, R360), where CREC is usable. -/
def crecRefuse (s : State) (d ctx r code : Nat) : State :=
  let a := recCrec r
  if !crecUsable a then s
  else match engineAtomic s ctx a 32 (fun _ => bytesAt 0 32 (1 + 2 ^ 176 * code)) with
    | .ok s => s
    | .error _ => errorEvent s d a

/-- A completion level raises its event and its interrupt (R357, R402), which waits for the messages that the update `cause` has
sent. -/
def raiseLevel (s : State) (l : Launch) (kind bit band code data cause : Nat) : State :=
  let p := if recBit l.raw bit then postEvent s l.die (eventEntry kind band code data (recCrec l.raw)) else (s, 0)
  if recBit l.raw (bit + 1) then
    { p.1 with msiWait := p.1.msiWait ++ [{ vec := recIvec l.raw, die := l.die, entry := p.2, cause := cause }] }
  else p.1

-- Chain timelines (R347)

/-- Raise a timeline over completed launches. -/
def raiseTl (done : List Nat) : Nat → Nat → Nat
  | 0, n => n
  | k + 1, n => if done.contains (n + 1) then raiseTl done k (n + 1) else n

/-- Launch `no` of a host chain, taken while it was enabled for the `epoch`th time, has completed or was refused. -/
def chainDone (s : State) (k no epoch : Nat) : State :=
  let c := s.chains.getD k Chain.reset
  if c.epoch ≠ epoch then s
  else
    let done := no :: c.done
    let tl := raiseTl done done.length c.tl.toNat
    let s := { s with chains := s.chains.set k { c with done := done, tl := BitVec.ofNat 64 tl } }
    if tl = c.tl.toNat ∨ c.tladdr = 0 then s
    else match engineAtomic s c.ctx c.tladdr.toNat 8 (fun _ => bytesAt 0 8 tl) with
      | .ok s => s
      | .error _ => errorEvent s c.die c.tladdr.toNat

-- Acceptance (R348, R350)

/-- Does this device accept launches (R417)? -/
def running (s : State) : Bool := s.mgmt.bootst == 2 || s.mgmt.bootst == 4

def freeRanges (d : Die) : Nat := 256 - d.ranges.length

/-- The address of the slot that holds a chain's next record (R345). -/
def nextSlot (c : Chain) : Nat := (c.base.toNat + 128 * ((c.head - c.start).toNat % 2 ^ c.lcap)) % 2 ^ 64

/-- Has a chain of a die a record that waits, in a slot whose page is resident (R346)? -/
def chainWaits (s : State) (d k : Nat) : Bool :=
  let c := s.chains.getD k Chain.reset
  c.en && !c.err && c.die == d && c.tail != c.head &&
  (match (engineRead s c.ctx (nextSlot c) 128).2 with
   | .error .residency => false
   | _ => true)

/-- Is it a chain's turn: the first of those that wait, in chain order, after the one served last (R346)? -/
def chainTurn (s : State) (d k : Nat) : Bool :=
  let last := (dieOf s d).turn
  (List.range s.chains.length).all (fun j => !chainWaits s d j ||
    (if last ≤ k then decide (j < last) || decide (k ≤ j) else decide (j < last) && decide (k ≤ j)))

/-- May a die's engine take a record of a chain now: it runs, no other chain's record waits for range entries (R348), and of
the command chains it is this one's turn (R346)? It goes on taking records while a partition change waits, and the admission of
their teams is held instead (R15, log entry 102: the model's choice). -/
def engineTakes (s : State) (d : Nat) (c : ChainId) : Bool :=
  let turn := match c with
    | .host k => chainTurn s d k
    | _ => true
  running s && !(dieOf s d).halted && !(dieOf s d).failed &&
  (match (dieOf s d).stalled with
   | none => turn
   | some x => x == c || (turn && (match x with
      | .host k => !(s.chains.getD k Chain.reset).en
      | .team u => (findTeam s u).isNone
      | .timed j => !(s.timed.getD j Timed.reset).en)))

/-- Does a record fit the range table of a die? -/
def rangesFit (s : State) (d r : Nat) : Bool := decide ((recRanges r).length ≤ freeRanges (dieOf s d))

/-- No engine waits any more for entries for a chain's record (R348): the chain has been disabled, or its team has come back on
another die. -/
def dropStall (s : State) (c : ChainId) : State :=
  { s with dies := s.dies.map (fun d => { d with stalled := if d.stalled = some c then none else d.stalled }) }

/-- The engine of a die waits no more for entries for a chain's record (R348): it has been accepted, or refused. -/
def endStall (s : State) (d : Nat) (c : ChainId) : State :=
  modDie s d (fun x => { x with stalled := if x.stalled = some c then none else x.stalled })

/-- Take a record into the launch engine: range entries, and the completion record. The record has passed its checks and its
entries are free. -/
def acceptRaw (s : State) (d ctx depth r no : Nat) (c : ChainId) (epoch : Nat) : State :=
  let id := s.fresh
  let l : Launch :=
    { id := id, raw := r, chain := c, no := no, ctx := ctx, depth := depth, die := d, order := id, resident := false,
      nores := false, admitted := 0, retired := 0, faulted := 0, fcode := 0, fteam := 0, bandsDone := 0, bandsDue := [],
      crecBad := false, killed := false, killTid := none, epoch := epoch }
  let s := modDie { s with fresh := s.fresh + 1, launches := s.launches ++ [l] } d (fun x =>
    { x with ranges := x.ranges ++ (recRanges r).map (fun y => (id, y)), stalled := none })
  crecWrite s id (fun _ => bytesAt 0 32 (2 ^ 64 * recTeams r))

/-- The number of the slot that holds a chain's next record. -/
def Chain.slot (c : Chain) : Nat := (c.head - c.start).toNat % 2 ^ c.lcap

/-- Has a store gone into the slot of a chain's next record since TAIL passed it (R346)? -/
def slotHit (c : Chain) : Bool := c.hit.contains c.slot

/-- The engine has taken or refused a chain's next record: HEAD rises, and stores into the slot are awaited no more. -/
def Chain.took (c : Chain) : Chain := { c with head := c.head + 1, count := c.count + 1, hit := c.hit.filter (· != c.slot) }

/-- The contents of a record whose slot was stored to too early are not predictable (R346): 1,024 free bits. -/
def freeRecord (fresh : Nat) : Nat :=
  ((List.range 32).map (fun j => 2 ^ (32 * j) * (Config.freeWord (freeIdx fresh j)).toNat)).foldl (· + ·) 0

/-- R346, R350: the next record of a chain. -/
def execChainRecordAccept (chain : Nat) (s : State) : Out :=
  match s.chains[chain]? with
  | none => .next s
  | some c =>
    let me := ChainId.host chain
    let set := fun (s : State) (c : Chain) =>
      modDie (endStall { s with chains := s.chains.set chain c } c.die me) c.die (fun d => { d with turn := chain + 1 })
    let ahead := (c.tail - c.head).toNat
    if !c.en ∨ c.err ∨ ahead = 0 ∨ !engineTakes s c.die me then .next s
    else if 2 ^ c.lcap < ahead then .next (set s { c with err := true })
    else
      let k := c.count + 1
      let slot := nextSlot c
      let x := engineRead s c.ctx slot 128
      let x := if slotHit c then ({ x.1 with fresh := x.1.fresh + 1 }, x.2.map (fun _ => freeRecord x.1.fresh)) else x
      let refuse := fun (s : State) => chainDone (set s c.took) chain k c.epoch
      match x.2 with
      | .error .residency => .next s
      | .error _ => .next (errorEvent (refuse x.1) c.die slot)
      | .ok r =>
        match recRefused x.1 c.ctx r with
        | some code => .next (refuse (crecRefuse x.1 c.die c.ctx r code))
        | none =>
          if !rangesFit s c.die r then .next (modDie s c.die (fun d => { d with stalled := some me }))
          else .next (set (acceptRaw x.1 c.die c.ctx 0 r k me c.epoch) c.took)

/-- The records of a team that wait in the pools, in the order of their launches: a team that has come back on the other die may
have some in both (R86, R359). -/
def poolOf (s : State) (uid : Nat) : List (Nat × Nat × Nat × Nat) :=
  let mine := s.dies.flatMap (fun d => d.pool.filter (fun x => x.1 == uid))
  mine.foldl (fun acc x => acc.filter (fun y => decide (y.2.2.2 < x.2.2.2)) ++ [x] ++ acc.filter (fun y => decide (x.2.2.2 < y.2.2.2))) []

/-- Take records out of the pools. -/
def dropPool (s : State) (p : Nat × Nat × Nat × Nat → Bool) : State :=
  { s with dies := s.dies.map (fun d => { d with pool := d.pool.filter (fun x => !p x) }) }

/-- The next record of a team leaves its queue, which is refilled from the pools in the team's order (R359). -/
def dropPend (s : State) (t : Team) : State :=
  let s := endStall s t.die (.team t.uid)
  match poolOf s t.uid with
  | [] => modTeam s t.uid (fun t => { t with pend := t.pend.drop 1 })
  | x :: _ => modTeam (dropPool s (· == x)) t.uid (fun t => { t with pend := t.pend.drop 1 ++ [x.2.2.1] })

/-- A team's launches that are not yet accepted are discarded (R360). -/
def discardLaunches (s : State) (d : Nat) (t : Team) : State :=
  let s := (t.pend ++ (poolOf s t.uid).map (fun x => x.2.2.1)).foldl (fun s r => crecRefuse s d t.ctx r 5) s
  modTeam (dropPool s (fun x => x.1 == t.uid)) t.uid (fun t => { t with pend := [] })

/-- R350, R359; of a team that is killed none is accepted (R360). -/
def execPendingLaunchAccept (team : Nat) (s : State) : Out :=
  match findTeam s team with
  | none => .next s
  | some t =>
    match t.pend with
    | [] => .next s
    | r :: _ =>
      let me := ChainId.team team
      if !engineTakes s t.die me ∨ t.ending.isSome ∨ t.killPending then .next s
      else match recRefused s t.ctx r with
        | some code => .next (dropPend (crecRefuse s t.die t.ctx r code) t)
        | none =>
          if !rangesFit s t.die r then .next (modDie s t.die (fun d => { d with stalled := some me }))
          else .next (dropPend (acceptRaw s t.die t.ctx (t.depth + 1) r 0 me 0) t)

-- Dependences and residency (R349, R351)

/-- Do two ranges intersect, at least one of them writing? -/
def rangesConflict (x y : Range) : Bool :=
  decide (x.base.toNat < y.base.toNat + y.len * 65536) && decide (y.base.toNat < x.base.toNat + x.len * 65536) &&
  (x.mode / 2 == 1 || y.mode / 2 == 1)

/-- Does a launch wait for an earlier one of its chain (R349)? -/
def dependsOn (a b : Launch) : Bool :=
  a.chain == b.chain && decide (b.order < a.order) &&
  (recRanges a.raw).any (fun x => (recRanges b.raw).any (rangesConflict x))

/-- Is a page in memory: Pewter, or mapped and resident? -/
def pageIn (s : State) (ctx a : Nat) : Bool :=
  homeOf a == 2 || homeOf a == 3 || (match leafOf s ctx a with
    | some l => l.p
    | none => false)

/-- The pages of a range of bytes. -/
def pagesOf (a n : Nat) : List Nat :=
  if n = 0 then [] else (List.range ((a + n - 1) / 65536 - a / 65536 + 1)).map (fun i => (a / 65536 + i) * 65536)

/-- The pages of a declared range. -/
def rangePages (x : Range) : List Nat := pagesOf x.base.toNat (x.len * 65536)

/-- The pages that a launch asks of the pager: those of its declared ranges and of its private area (R351). -/
def launchPages (l : Launch) : List Nat :=
  (recRanges l.raw).flatMap rangePages ++ pagesOf (recPbl l.raw) (recTeams l.raw * recG l.raw * 32 * recPS l.raw)

/-- Are they all in memory? -/
def launchIn (s : State) (l : Launch) : Bool := (launchPages l).all (pageIn s l.ctx)

/-- Does it ask for a page at all? Pewter pages need nothing (R351). -/
def asksPager (l : Launch) : Bool := (launchPages l).any (fun a => homeOf a != 2 && homeOf a != 3)

/-- R351: the launch's dependences are met and the pager has made its pages resident, or has refused one of them. -/
def execLaunchMakeResident (launch : Nat) (refused : Bool) (s : State) : Out :=
  match findLaunch s launch with
  | none => .next s
  | some l =>
    if l.resident ∨ l.nores ∨ l.killed ∨ !running s ∨ (dieOf s l.die).halted ∨ s.launches.any (dependsOn l) then .next s
    else if refused ∧ asksPager l then .next (modLaunch s launch (fun l => { l with nores := true }))
    else if launchIn s l then .next (modLaunch s launch (fun l => { l with resident := true }))
    else .next s

-- Completion (R357)

/-- A team's end at the team level: `code` 0 for a team that retired. Of the teams that the kill register ends the record names the
lowest as the first (R420). -/
def countEnd (s : State) (id band tid0 code : Nat) : State :=
  match findLaunch s id with
  | none => s
  | some l =>
    let tid := if code = 16 then l.killTid.getD tid0 else tid0
    let cause := s.fresh
    let s := crecWrite s l.id (fun old =>
      if code = 0 then bytesAt 12 4 (fld old 127 96 + 1)
      else bytesAt 16 4 (fld old 159 128 + 1) ++
        (if fld old 159 128 = 0 then bytesAt 20 2 code ++ bytesAt 24 4 tid else []))
    let s := modLaunch s l.id (fun l =>
      if code = 0 then { l with retired := l.retired + 1 }
      else { l with faulted := l.faulted + 1, fcode := if l.faulted = 0 then code else l.fcode,
                    fteam := if l.faulted = 0 then tid else l.fteam })
    raiseLevel s l 1 896 band code tid0 cause

/-- The same of a team that has been admitted. -/
def countTeam (s : State) (t : Team) (code : Nat) : State := countEnd s t.launch t.band t.tid code

/-- R357: the last team of a band has left it, and no team of the launch waits for admission. -/
def execBandComplete (launch band : Nat) (s : State) : Out :=
  match findLaunch s launch with
  | none => .next s
  | some l =>
    let waiting := !l.nores && !l.killed && decide (l.admitted < recTeams l.raw)
    if !l.bandsDue.contains band ∨ waiting ∨ s.teams.any (fun t => t.launch == launch && t.band == band) then .next s
    else
      let cause := s.fresh
      let s := crecWrite s launch (fun old => bytesAt 28 4 (fld old 255 224 + 1))
      let s := modLaunch s launch (fun l =>
        { l with bandsDue := l.bandsDue.filter (· != band), bandsDone := l.bandsDone + 1 })
      .next (raiseLevel s l 2 898 band 0 0 cause)

/-- R357: every team has retired or faulted, or the launch runs none. -/
def execLaunchComplete (launch : Nat) (s : State) : Out :=
  match findLaunch s launch with
  | none => .next s
  | some l =>
    if !l.bandsDue.isEmpty ∨ !(l.nores || l.retired + l.faulted == recTeams l.raw) then .next s
    else
      let s := modDie s l.die (fun d => { d with ranges := d.ranges.filter (fun x => x.1 != launch) })
      let stat := if l.nores then 6 else 0
      let cause := s.fresh
      let s := crecWrite s launch (fun _ => bytesAt 0 8 1 ++ bytesAt 22 1 stat)
      let s := raiseLevel s l 3 900 0 l.fcode 0 cause
      let s := { s with launches := s.launches.filter (fun x => x.id != launch) }
      .next (match l.chain with
        | .host k => chainDone s k l.no l.epoch
        | .timed j => { s with timed := s.timed.modify j (fun e =>
            if e.prev = some launch then { e with prevEnd := some (timeOf s) } else e) }
        | .team _ => s)

-- Killing (R363, R420)

/-- A launch is killed: its teams end at their next YLD points, or at once while they are away; those not admitted count as
killed. `reg` says that the kill register does it, whose record names the lowest tid (R420). -/
def killLaunch (reg : Bool) (s : State) (id : Nat) : State :=
  match findLaunch s id with
  | none => s
  | some l =>
    if l.killed then s
    else
      let mine := s.teams.filter (fun t => t.launch == id)
      let rest := if l.nores then 0 else recTeams l.raw - l.admitted
      let low := (mine.map (·.tid)).foldl min (if rest = 0 then recTeams l.raw else l.admitted)
      let s := modLaunch s id (fun l => { l with killed := true, killTid := if reg then some low else none })
      let s := { s with teams := s.teams.map (fun t => if t.launch = id then t.kill else t) }
      -- a team never admitted stands in no band
      let s := (List.range rest).foldl (fun s j => countEnd s id 0 (l.admitted + j) 16) s
      modLaunch s id (fun l => { l with admitted := if l.nores then l.admitted else recTeams l.raw })

-- The time-triggered table (R362, R363)

/-- The entry after a record that was refused: it started no launch. -/
def Timed.refusedSlot (e : Timed) : Timed := { e with resubmit := false, stalled := false, prev := none, prevEnd := none }

/-- Submit a fresh copy of an entry's record: accepted, refused, or still to be submitted for want of range entries or of a
resident page (log entry 109). `due` stands one above the slot that it starts. -/
def submitTimed (s : State) (j : Nat) (e : Timed) (due : Nat) : State :=
  let set := fun (s : State) (e : Timed) => { s with timed := s.timed.set j e }
  let me := ChainId.timed j
  let wait := set s { e with resubmit := true, stalled := true, due := due }
  if !engineTakes s 0 me then wait
  else
    let x := engineRead s e.ctx e.recAddr.toNat 128
    match x.2 with
    | .error .residency => wait
    | .error _ => errorEvent (endStall (set x.1 e.refusedSlot) 0 me) 0 e.recAddr.toNat
    | .ok r =>
      match recRefused x.1 e.ctx r with
      | some code => endStall (set (crecRefuse x.1 0 e.ctx r code) e.refusedSlot) 0 me
      | none =>
        if !rangesFit s 0 r then modDie wait 0 (fun d => { d with stalled := some me })
        else set (acceptRaw x.1 0 e.ctx 0 r 0 me 0)
          { e with
            resubmit := false, stalled := false, prev := some x.1.fresh, started := some x.1.fresh, prevEnd := none,
            starts := e.starts + 1, lastSlot := due }

/-- Had the launch that an entry started last completed by a time, or was there none? A submission that could not be made when it
was due stands for a launch that had not (log entry 109). -/
def prevDone (s : State) (e : Timed) (at_ : Nat) : Bool :=
  !e.stalled && (match e.prev with
    | none => true
    | some id => (findLaunch s id).isNone && decide (e.prevEnd.getD 0 ≤ at_))

/-- The first slot of an entry that may be judged: at a time of its period, after the last one started, those judged before and those
that a step of the clock passed over (R362, R411). -/
def Timed.nextSlot (e : Timed) : Nat :=
  let lo := max e.lastSlot e.floor
  if lo ≤ e.phase then e.phase else e.phase + (lo - e.phase + e.period - 1) / e.period * e.period

/-- A slot at which the previous launch is late (R363): it is skipped, or in MODE 1 the launch ends and the new one is due. -/
def lateSlot (s : State) (j : Nat) (e : Timed) (slot : Nat) : State :=
  let late := { e with ovr := min 0xFFFFFFFF (e.ovr + 1) }
  let s1 := { s with timed := s.timed.set j { late with resubmit := e.mode || e.resubmit, due := if e.mode then slot + 1 else e.due } }
  match e.prev with
  | some id => if e.mode then killLaunch false s1 id else s1
  | none => s1

/-- R363, R411: the slots whose time has come are judged one by one, in the order of their times. A submission that is due is made
once the late launch has completed, before any slot after that completion is judged. -/
def execTimeSlotStart (entry : Nat) (s : State) : Out :=
  match s.timed[entry]? with
  | none => .next s
  | some e =>
    if !e.en ∨ !running s ∨ e.period = 0 then .next s
    else
      let slot := e.nextSlot
      let now := timeOf s
      let judged := { e with floor := slot + 1 }
      if e.resubmit then
        if slot ≤ now ∧ !prevDone s e slot then .next (lateSlot s entry judged slot)
        else if e.prev.all (fun id => (findLaunch s id).isNone) then .next (submitTimed s entry e e.due)
        else .next s
      else if now < slot then .next s
      else if prevDone s e slot then .next (submitTimed s entry judged (slot + 1))
      else .next (lateSlot s entry judged slot)

-- Instructions (R364 to R368)

/-- The names of a quadruple: a g or c register, or a k register (R364). -/
def quadOwn (q : Name) (v : View) : Option FaultInfo := namesOwn [q] v

/-- A launch instruction: its acting lanes queue what comes first, and OPERATION_COMPLETE does the rest for each of them. -/
def execLaunchOp (c : Common) (f : Front) (own : View → Option FaultInfo) (addr : Option (View → Nat → Nat)) (first : View → Nat → List MemKind)
    (k : View → List Nat → OpKind) (s : State) : Out :=
  issueChecks s c f own (fun v =>
    let lanes := v.actors f false
    match addr.bind (fun a => addrFaults v lanes (a v) 128 (servedFault s .all) 0) with
    | some i => .next (trapSlot s v i)
    | none =>
      let s1 := startOp s v c.setf (k v lanes) (lanes.map (fun i => (v.gang.lane i).ident)) []
      .next (afterSlot (lanes.foldl (fun s2 i => modLane s2 v.iss.team v.g i (fun l =>
        l.push ((first v i).map (fun m =>
          { op := s.fresh, kind := m, last := false, acks := [], parked := none, insn := v.word })))) s1)
        v false WinSlot.none))

/-- Values by lane identity. -/
def byIdent {α : Type} [DecidableEq α] (d : α) (v : View) (lanes : List Nat) (f : Nat → α) : Tab α :=
  lanes.foldl (fun m i => tput d m (v.gang.lane i).ident (f i)) []

/-- R365. -/
def execLnch (c : Common) (d addr : Name) (a64 : Bool) (s : State) : Out :=
  let ds : Dst := { name := d, words := 1 }
  execLaunchOp c { srcs := addrSrcs addr a64, dst := some ds, allowQ := false } (baseOwn addr a64)
    (some (fun v i => v.addr s.fresh i addr a64 0))
    (fun v i => [.lnchRel, .lnch (BitVec.ofNat 64 (v.addr s.fresh i addr a64 0))]) (fun _ _ => .lnch ds []) s

/-- R366: the 14 bytes are stored as ST does, the record is read, and the completion record's zeros are stored. -/
def execLrec (c : Common) (d addr quad : Name) (a64 : Bool) (s : State) : Out :=
  let ds : Dst := { name := d, words := 1 }
  let qo : Opnd := { name := quad, words := 4 }
  let at_ := fun (v : View) i => v.addr s.fresh i addr a64 0
  let word := fun (v : View) i j => ((v.src s.fresh i qo).getD j 0).toNat
  let crec := fun (v : View) i => word v i 2 + 2 ^ 32 * word v i 3
  execLaunchOp c { srcs := qo :: addrSrcs addr a64, dst := some ds, allowQ := false }
    (fun v => (baseOwn addr a64 v).orElse (fun _ => quadOwn quad v)) (some at_)
    (fun v i =>
      if 2 ^ 16 ≤ word v i 1 then []
      else [.store (BitVec.ofNat 64 (at_ v i + 8)) (toBytes 6 (word v i 0 + 2 ^ 32 * word v i 1)) none,
            .store (BitVec.ofNat 64 (at_ v i + 104)) (toBytes 8 (crec v i)) none, .lnch (BitVec.ofNat 64 (at_ v i))] ++
           (if crecUsable (crec v i) then [.store (BitVec.ofNat 64 (crec v i)) (List.replicate 32 0) none] else []))
    (fun v lanes => .lrec ds (byIdent .wait v lanes (fun i => if 2 ^ 16 ≤ word v i 1 then .bad else .wait))) s

/-- What LSTAT reads (R367). -/
def lstatValue (s : State) (t : Team) (sel : Nat) : Word :=
  BitVec.ofNat 32 (match sel with
    | 0 => t.depth
    | 1 => t.pend.length
    | 2 => (poolOf s t.uid).length
    | 3 => freeRanges (dieOf s t.die)
    | _ => t.leases.length)

/-- R367. -/
def execLstat (c : Common) (d : Name) (sel : Nat) (s : State) : Out :=
  execValue c { dst := d1 d, allowQ := false } false (fun _ => none) (fun v _ _ => .word (lstatValue s v.team sel)) s

/-- R368. -/
def execLease (c : Common) (d quad : Name) (s : State) : Out :=
  let ds : Dst := { name := d, words := 1 }
  let qo : Opnd := { name := quad, words := 4 }
  execLaunchOp c { srcs := [qo], dst := some ds, allowQ := false } (quadOwn quad) none (fun _ _ => [])
    (fun v lanes => .lease ds (byIdent [] v lanes (fun i => v.src s.fresh i qo))) s

-- Their completion, for one lane

/-- A part of a whole operation ends with the words of its lane's destination. -/
def endLanePart (s : State) (uid g i op : Nat) (d : Dst) (ws : List Word) : State :=
  match findLane s uid g i with
  | none => s
  | some l => finishPart (writeResult s uid g i op d ws) uid g op l.ident

/-- A part meets a condition: the gang parks, or the lane's part ends with nothing written (R374, R375). -/
def failLanePart (s : State) (t : Team) (g i op : Nat) (c : Cause) (a acc : Nat) : State :=
  if c = .residency then
    parkGangOn (modGang s t.uid g (fun x => if x.parts.contains (lineOf t.ctx a, false) then x
      else { x with parts := x.parts ++ [(lineOf t.ctx a, false)] })) t.uid g a
  else
    let insn := (((t.gang (opHome s t.uid g op)).ops.find? (fun o => o.id == op)).map (·.insn)).getD 0
    if c = .poison then endTeam s t.uid { laneFault t g i .poison 0 a with insn := insn }
    else deferFault (finishPart s t.uid g op ((t.gang g).lane i).ident) t.uid g i c a acc insn

/-- LNCH of one lane, once its record has been read (R365, R359). -/
def lnchPart (s : State) (t : Team) (g i op : Nat) (d : Dst) (r : Nat) : State :=
  let done := fun (s : State) (st : Nat) => endLanePart s t.uid g i op d [BitVec.ofNat 32 st]
  if t.depth = 8 then done s 1
  else match recRefused s t.ctx r with
    | some code => done (crecRefuse s t.die t.ctx r code) code
    | none =>
      if t.pend.length < 4 ∧ (poolOf s t.uid).isEmpty then done (modTeam s t.uid (fun t => { t with pend := t.pend ++ [r] })) 0
      else if (((dieOf s t.die).pool).filter (fun y => y.2.1 == t.ctx)).length < 4096 then
        done (modDie { s with fresh := s.fresh + 1 } t.die (fun y => { y with pool := y.pool ++ [(t.uid, t.ctx, r, s.fresh)] })) 0
      else done s 2

/-- LREC of one lane, once its record has been read, or has been refused for Q1 (R366). -/
def lrecPart (s : State) (t : Team) (g i op : Nat) (d : Dst) (r : Option Nat) : State :=
  endLanePart s t.uid g i op d [BitVec.ofNat 32 (match r with
    | none => 3
    | some r => (recCheck r).getD 0)]

/-- The range of a LEASE quadruple (R368). -/
def leaseRange (q : List Word) : Range :=
  { base := pair (q.getD 0 0) (q.getD 1 0), len := (q.getD 2 0).toNat, mode := (q.getD 3 0).toNat % 4 }

/-- LEASE of one lane; `refused` says that the pager refuses an absent page (R368). -/
def leasePart (s : State) (t : Team) (g i op : Nat) (d : Dst) (q : List Word) (refused : Bool) : State :=
  let done := fun (s : State) (st : Nat) => endLanePart s t.uid g i op d [BitVec.ofNat 32 st]
  let r := leaseRange q
  if rangeBad r ∨ r.mode = 0 ∨ 4 ≤ (q.getD 3 0).toNat then done s 3
  else if 8 ≤ t.leases.length then done s 2
  else if (rangePages r).all (pageIn s t.ctx) then done (modTeam s t.uid (fun t => { t with leases := t.leases ++ [r] })) 0
  else if refused then done s 6
  else s

end Sys2Proof.Machine
end

