-- ==== Sys2Proof/Machine/Sys.lean ====
section
/-! DEFINITION. The system instructions (spec/15_faults.md R389 to R398): traps, gang images, the pager's instructions,
system registers, events and HALT. -/

namespace Sys2Proof.Machine

-- TRAP and TRET

/-- The fault of an instruction, named by its lowest active lane. -/
def View.faultAt (v : View) (c : Cause) : FaultInfo :=
  let i := v.active.headD (v.iss.group.headD 0)
  let l := v.gang.lane i
  { v.fault c with lane := i, lid := l.lid, qid := l.qid, gid := l.gid }

/-- R390. The entry waits for the clause's fixed-latency results (R377). -/
def execTrap (c : Common) (code : Nat) (s : State) : Out :=
  issueChecks s c {} (fun _ => none) (fun v =>
    if v.active.isEmpty then .next (afterSlot s v false WinSlot.none)
    else
      let s1 := afterSlot s v false WinSlot.none
      let s2 := modBay s1 v.core v.bay (fun b => { b with next := max b.next (v.settled + 1) })
      .next (takeTrap s2 v.iss.team v.g v.active { v.faultAt .swtrap with einfo := BitVec.ofNat 32 code } v.nextPc 0
        (windowOf s.fresh v.iss v.iss.slot)))

/-- The class of a code of R374. -/
def causeOf (n : Nat) : Cause :=
  match n with
  | 1 => .illinsn | 2 => .illclause | 3 => .illopnd | 4 => .illregrp | 5 => .misalignpc | 6 => .timing | 7 => .flagovf
  | 8 => .priv | 9 => .align | 10 => .addr | 11 => .prot | 12 => .residency | 13 => .watchdog | 14 => .poison
  | 15 => .homelost | 17 => .swtrap | _ => .killed

/-- R379, R391. A form that returns reads EPC and ESLOT (log entry 106). A return address that is not a multiple of 8 raises
nothing (log entry 96). -/
def execTret (c : Common) (form : TretForm) (s : State) : Out :=
  issueChecks s c { srs := if form = .kill then [] else [2, 3, 4] } (fun _ => none) (fun v =>
    match form with
    | .kill =>
      let s1 := afterSlot s v false WinSlot.none
      .next (if v.active.isEmpty then s1
        else
          let inside := v.active.any (fun i => (v.gang.lane i).handler)
          endTeam s1 v.iss.team (v.faultAt (if inside then causeOf v.gang.ecause.toNat else .killed)))
    | f => .next (endWith s v (fun _ l => if l.handler then leaveHandler l (f == .skip) else l)))

-- Images

/-- Bytes stored line by line from a line's address on (R189). -/
def storeRun (s : State) (ag : Agent) (ctx a : Nat) (bs : List Byte) (team lane : Nat) : State :=
  (List.range ((bs.length + 127) / 128)).foldl (fun s k =>
    storeBytes s ag ctx (a + 128 * k) ((bs.drop (128 * k)).take 128) team lane none) s

/-- Bytes read line by line through a core's view. -/
def fetchRun (s : State) (t : Team) (core a lines : Nat) : MemR (List Byte) :=
  mfold (fun s bs k =>
    let r := fetchBytes s t (.core core) (a + 128 * k) .read true 128
    match r.2 with
    | .error c => (r.1, .error c)
    | .ok x => if x.any (·.2) then (r.1, .error (.poison, a + 128 * k)) else (r.1, .ok (bs ++ x.map (·.1))))
    (List.range lines) s []

/-- A system operation that acts once, by its lowest acting lane: its address is checked as for a load or a store. Every active lane pops
the ports that it names (R242); the acting lane's ring slot leaves with the operation, for the status (R243). `k` is given what
a lane reads of a source. -/
def execOnce (c : Common) (f : Front) (own : View → Option FaultInfo) (addr : Option (View → Nat → Nat)) (acc : Nat)
    (k : (Nat → Opnd → List Word) → Nat → OpKind) (s : State) : Out :=
  issueChecks s c f own (fun v =>
    let lanes := v.acting.take 1
    match addr.bind (fun a => addrFaults v lanes (a v) 128 (servedFault s .all) acc) with
    | some i => .next (trapSlot s v i)
    | none =>
      let r := popAll s v f.srcPorts
      .next (afterSlot (startOp (takeSlots r.1 v lanes f.dstPort) v c.setf (k (srcWords s.fresh v r.2) (v.acting.headD 0))
        (lanes.map (fun i => (v.gang.lane i).ident)) [] (takenSlots v lanes f.dstPort)) v false WinSlot.none))

/-- The 64 bits of a pair. -/
def pairOf (ws : List Word) : DWord := pair (ws.getD 0 0) (ws.getD 1 0)

/-- R392. -/
def execCsave (c : Common) (d a : Name) (s : State) : Out :=
  execOnce c { srcs := [o2 a], dst := d1 d } (namesOwn [a]) (some (fun v i => (v.src2 s.fresh i a).toNat)) 1
    (fun x i => .csave { name := d, words := 1 } (pairOf (x i (o2 a))) false) s

/-- R393. -/
def execCrest (c : Common) (d a : Name) (s : State) : Out :=
  execOnce c { srcs := [o2 a], dst := d1 d } (namesOwn [a]) (some (fun v i => (v.src2 s.fresh i a).toNat)) 0
    (fun x i => .crest { name := d, words := 1 } (pairOf (x i (o2 a)))) s

/-- One lane's value of an operation whose results were computed at issue: it goes to its register, or is pushed (R73, R243);
its fst bits are accumulated (R136). A lane that has exited has no position any more (R254), but the ring slot that it reserved
takes its element (R88). A push takes the port's binding as it stands at completion (log entry 121). -/
def writeValue (s : State) (t : Team) (g op : Nat) (d : Dst) (slots : List (Nat × DWord × Nat)) (ident : Nat)
    (r : List Word × Flags) (insn : DWord) : State :=
  match t.whereIs ident with
  | none => (match d.name with
      | .c _ => if r.1.isEmpty then s else writeResult s t.uid g 0 op d r.1
      | _ => s)
  | some (h, i) =>
    let s := if r.2 = 0 then s else modLane s t.uid h i (fun l => if l.takes op then { l with fst := l.fst ||| r.2 } else l)
    if r.1.isEmpty then s
    else match d.name with
      | .c _ => writeResult s t.uid g i op d r.1
      | .q p =>
        let b := (t.gang h).ports.getD p Port.unbound
        modLane s t.uid h i (fun l =>
          if l.takes op ∨ b.mode = 4 then pushLane t b p (r.1.headD 0) 0 insn ((slots.find? (fun x => x.1 == ident)).map (·.2)) l else l)
      | _ => writeResult s t.uid h i op d r.1

/-- The instruction's own tracked operation ends, with its result at lane position `i` of gang `h`, or in the c registers of
the gang that issued it. -/
def endOnce (s : State) (uid h i op : Nat) (d : Dst) (x : Word) : State :=
  let g := opHome s uid h op
  match findTeam s uid with
  | none => s
  | some t =>
    match (t.gang g).ops.find? (fun o => o.id == op) with
    | none => s
    | some o => modGang (writeValue s t g op d o.slots ((t.gang h).lane i).ident ([x], 0) o.insn) uid g (fun y =>
        { y with ops := y.ops.filter (fun p => p.id != op) }.subFlag o.flag)

/-- CSAVE of a gang (R392): once every other flag is zero and no port is being bound, the image is stored; the operation
ends with the release that then stands in the queue of the acting lane, position `i` of gang `h`. -/
def csaveStep (s : State) (t : Team) (core g h i : Nat) (o : Tracked) (d : Dst) (a : DWord) (stored : Bool) : State :=
  let x := t.gang g
  let l := (t.gang h).lane i
  if stored then
    (if l.queue.any (fun q => q.op == o.id) then s else endOnce s t.uid h i o.id d 0)
  else if (List.range 12).any (fun n => n + 1 != o.flag && x.flag (n + 1) != 0) || x.ports.any (fun p => p.st == .pending) then s
  else
    let s := storeRun s (.core core) t.ctx a.toNat (gangImage g x) t.uid l.ident
    let s := noteHome s t.uid (homeOf a.toNat)
    let s := modGang s t.uid g (fun x => { x with
      ops := modWhere (fun p => p.id == o.id) (fun p => { p with kind := .csave d a true }) x.ops })
    modLane s t.uid h i (fun l => l.push [{ op := o.id, kind := .rel .pkg, last := false, acks := [], parked := none }])

/-- CREST of a gang that issues no clause (R393). -/
def crestStep (s : State) (t : Team) (core g h i : Nat) (o : Tracked) (d : Dst) (a : DWord) : State :=
  let issuing := (coreOf s core).bays.any (fun b => match b.issue with
    | some x => x.team == t.uid && x.gang == g
    | none => false)
  if issuing then s
  else
    let s := acquireCore s core .pkg
    let head := fetchRun s t core a.toNat 112
    match head.2 with
    | .error c => failLanePart head.1 t h i o.id c.1 c.2 0
    | .ok bs =>
      if imageBad (t.gang g) bs then endOnce head.1 t.uid h i o.id d 1
      else
        let r := fetchRun head.1 t core a.toNat (imageSize (fld (imgNat bs 0 1024) 10 8) / 128)
        match r.2 with
        | .error c => failLanePart r.1 t h i o.id c.1 c.2 0
        | .ok bs =>
          let s := { r.1 with fresh := r.1.fresh + 1 }
          endOnce (modGang { s with era := s.era + 1 } t.uid g (fun x =>
          let y := restoreGang r.1 t x bs
          { y with lanes := y.lanes.map (Lane.bornCode (s.era + 1)) })) t.uid h i o.id d 0

-- TLBINV (R394)

/-- The fields of the quadruple. -/
structure TlbReq where
  va : Nat
  ctx : Nat
  size : Nat
  w : Bool
  x : Bool
  p : Bool
  rsv : Nat
  frame : Nat
deriving DecidableEq, Repr

def tlbReq (q : List Word) : TlbReq :=
  let f := (q.getD 2 0).toNat
  { va := (q.getD 0 0).toNat + 2 ^ 32 * (q.getD 1 0).toNat, ctx := fld f 7 0, size := fld f 9 8, w := fld f 10 10 == 1,
    x := fld f 11 11 == 1, p := fld f 12 12 == 1, rsv := fld f 31 13, frame := (q.getD 3 0).toNat * 65536 }

/-- Bytes of a page. -/
def pageBytes (size : Nat) : Nat := ([2 ^ 16, 2 ^ 21, 2 ^ 30, 2 ^ 36] : List Nat).getD size 0

/-- A malformed quadruple; the frame counts for .map alone. -/
def tlbBad (op : TlbOp) (r : TlbReq) : Bool :=
  let h := homeOf r.va
  r.rsv != 0 || decide (2 ^ 62 ≤ r.va) || !(h == 0 || h == 1 || h == 4) || r.va % pageBytes r.size != 0 ||
  (op == .map && (r.frame % pageBytes r.size != 0 || (decide (h < 2) && decide (hbmSize < r.frame + pageBytes r.size))))

/-- Has a table no valid leaf below it? -/
def tableEmpty (s : State) : List (Nat × Nat) → Nat → Bool
  | [], _ => true
  | (h, l) :: rest, table => (List.range (2 ^ (h + 1 - l))).all (fun i =>
      let e := rdNat s (table + 8 * i) 8
      fld e 0 0 == 0 || (fld e 1 1 == 0 && tableEmpty s rest (fld e 51 8 * 256)))

/-- Bytes of a table are written; those in a failed channel are discarded (R414). -/
def writeTable (s : State) (key : Nat) (bs : List Byte) : State :=
  if (List.range (bs.length / 65536 + 2)).any (fun j => channelFailed s (key + 65536 * j)) then
    { s with mem := (bs.mapIdx (fun i b => (key + i, b))).foldl (fun m x => if channelFailed s x.1 then m else tput memDefault m x.1 x.2) s.mem }
  else { s with mem := putBytes s.mem key bs }

/-- Tables are taken from the top of the pager region downward, zeroed: the state and the table's address, none when the
region is used up. -/
def allocTable (s : State) (bytes : Nat) : Option (State × Nat) :=
  let base := s.mgmt.pagerBase.toNat
  let free := s.mgmt.pagerSize.toNat - s.mgmt.pagerUsed
  let a := (base + free) / bytes * bytes - bytes
  if free < bytes ∨ a < base then none
  else
    let s := writeTable s a (List.replicate bytes 0)
    some ({ s with mgmt := { s.mgmt with pagerUsed := base + s.mgmt.pagerSize.toNat - a } }, a)

/-- Write an entry of a table. -/
def writeEntry (s : State) (key v : Nat) : State := writeTable s key (toBytes 8 v)

/-- Write a leaf of `.map` at the level of its size, with the tables above it: the state, or the status. -/
def mapAt (off size leaf : Nat) : List (Nat × Nat) → Nat → State → Except Nat State
  | [], _, _ => .error 3
  | (h, l) :: rest, table, s =>
    let key := table + 8 * fld off h l
    let e := rdNat s key 8
    if size = 2 ^ l then
      if fld e 0 0 = 1 ∧ (if fld e 1 1 = 1 then fld e 6 6 == 1 else !tableEmpty s rest (fld e 51 8 * 256)) then .error 3
      else .ok (writeEntry s key leaf)
    else if fld e 0 0 = 1 then
      (if fld e 1 1 = 1 then .error 3 else mapAt off size leaf rest (fld e 51 8 * 256) s)
    else match rest with
      | [] => .error 3
      | (h', l') :: _ =>
        match allocTable s (8 * 2 ^ (h' + 1 - l')) with
        | none => .error 4
        | some x => mapAt off size leaf rest x.2 (writeEntry x.1 key (1 + x.2))

/-- Two spans of bytes meet. -/
def spansMeet (a n b m : Nat) : Bool := decide (a < b + m) && decide (b < a + n)

/-- R373: would a mapping share a frame that one of the two may write, or name the pager region? -/
def aliases (s : State) (r : TlbReq) : Bool :=
  let h := homeOf r.va
  let n := pageBytes r.size
  (h == 0 && spansMeet r.frame n s.mgmt.pagerBase.toNat s.mgmt.pagerSize.toNat) ||
  s.frames.any (fun f => f.home == h && !(f.ctx == r.ctx && f.va == r.va) && spansMeet f.frame f.size r.frame n && (f.w || r.w))

/-- Is a page under a lease (R351, R352, R368)? -/
def pageLeased (s : State) (ctx va n : Nat) : Bool :=
  let meets := fun (x : Range) => x.mode != 0 && spansMeet x.base.toNat (x.len * 65536) va n
  s.launches.any (fun l => l.ctx == ctx && l.resident && ((recRanges l.raw).any meets ||
    (let m := recTeams l.raw * recG l.raw * 32 * recPS l.raw
     decide (0 < m) && spansMeet (recPbl l.raw / 65536 * 65536) ((recPbl l.raw + m - 1) / 65536 * 65536 + 65536 - recPbl l.raw / 65536 * 65536) va n))) ||
  s.teams.any (fun t => t.ctx == ctx && t.leases.any meets)

/-- Every agent that holds a buffer. -/
def allAgents (s : State) : List Agent :=
  (List.range s.cores.length).map Agent.core ++
  s.teams.flatMap (fun t => (List.range t.ectx.length).map (fun e => Agent.ctx t.uid e))

/-- Is a line in a page of a context? -/
def inPage (ctx va n : Nat) (l : Line) : Bool := l.ctx == ctx && decide (va ≤ l.addr) && decide (l.addr < va + n)

/-- The buffered bytes of a page go to their homes. -/
def drainPage (s : State) (ctx va n : Nat) : State :=
  (allAgents s).foldl (fun s a => drainAll s a (fun l _ => inPage ctx va n l)) s

/-- Snapshot and prefetched copies of a page are dropped. -/
def dropPage (s : State) (ctx va n : Nat) : State :=
  let s := (allAgents s).foldl (fun s a => modAgent s a (fun m =>
    { m with snap := m.snap.filter (fun e => !inPage ctx va n e.1), bad := m.bad.filter (fun e => !inPage ctx va n e.1) })) s
  { s with teams := s.teams.map (fun t =>
      if t.ctx = ctx then
        { t with gangs := t.gangs.map (fun g => { g with lanes := g.lanes.map (fun l =>
            { l with pre := l.pre.filter (fun e => !e.addrs.any (fun a => decide (va ≤ a.toNat) && decide (a.toNat < va + n))) }) }) }
      else t) }

/-- Every dirty line of a page's frames in the slices and the memory-side caches is written to HBM (R394). -/
def flushPage (s : State) (va frame n : Nat) : State :=
  let base := pkey (homeOf va) frame
  if homeOf va < 2 then
    (s.dirty.filter (fun e => decide (base ≤ 128 * e.1) && decide (128 * e.1 < base + n))).foldl (fun s e => writeBackLine s e.1) s
  else s

/-- The slices' TLBs keep no translation by a leaf any more (R394). -/
def dropTlb (s : State) (key : Nat) : State := { s with tlb := s.tlb.filter (fun e => e.2 != key) }

/-- The effect and the status of TLBINV. ALIAS is found before a table on the way answers BADREQ or FULL, and NOTMAPPED before
LEASED (log entry 74). -/
def runTlb (s : State) (op : TlbOp) (q : List Word) : State × Nat :=
  let r := tlbReq q
  let n := pageBytes r.size
  if tlbBad op r then (s, 3)
  else
    let leaf := leafOf s r.ctx r.va
    match op with
    | .map =>
      if leaf.any (fun l => l.psize != n || l.p) then (s, 3)
      else if aliases s r then (s, 1)
      else
        let e := 3 + (if r.w then 4 else 0) + (if r.x then 8 else 0) + (if r.p then 64 else 0) + r.frame
        match mapAt (offOf r.va) n e walkLevels (ctxRoot s r.ctx (homeOf r.va)) s with
        | .error st => (s, st)
        | .ok s =>
          let s := leaf.elim s (fun l => dropTlb s l.key)
          let mine : Frame := { ctx := r.ctx, va := r.va, home := homeOf r.va, frame := r.frame, size := n, w := r.w }
          ({ s with frames := mine :: s.frames.filter (fun f => !(f.ctx == r.ctx && f.va == r.va)) }, 0)
    | op =>
      match leaf with
      | none => (s, 5)
      | some l =>
        if l.psize ≠ n then (s, 3)
        else match op with
          | .unmap =>
            if pageLeased s r.ctx r.va n then (s, 2)
            else
              let s := drainPage s r.ctx r.va n
              let s := writeEntry s l.key (rdNat s l.key 8 / 2 * 2)
              let s := dropPage (drainPage s r.ctx r.va n) r.ctx r.va n
              let s := (s.dir.filter (fun d => inPage r.ctx r.va n d.line)).foldl (fun s d => forgetEntry s d d.cores) s
              let s := dropTlb (flushPage s r.va l.frame n) l.key
              ({ s with frames := s.frames.filter (fun f => !(f.ctx == r.ctx && f.va == r.va)) }, 0)
          | .evict =>
            if pageLeased s r.ctx r.va n then (s, 2)
            else
              let s := drainPage s r.ctx r.va n
              let e := rdNat s l.key 8
              (dropTlb (flushPage (dropPage (writeEntry s l.key (e - 64 * fld e 6 6)) r.ctx r.va n) r.va l.frame n) l.key, 0)
          | .clrad =>
            let e := rdNat s l.key 8
            (dropTlb (writeEntry s l.key (e - 16 * fld e 5 4)) l.key, 0)
          | _ => (s, 256 * fld l.entry 4 4 + 512 * fld l.entry 5 5 + 1024 * fld l.entry 6 6 + 2048 * fld l.entry 2 2)

/-- PRIV unless the context is the pager's (R380). -/
def pagerOwn (s : State) (v : View) : Option FaultInfo := if ctxPager s v.team.ctx then none else some (v.fault .priv)

/-- R394. -/
def execTlbinv (c : Common) (d quad : Name) (op : TlbOp) (s : State) : Out :=
  let qo : Opnd := { name := quad, words := 4 }
  execOnce c { srcs := [qo], dst := d1 d } (fun v => (quadOwn quad v).orElse (fun _ => pagerOwn s v)) none 0
    (fun x i => .tlbinv { name := d, words := 1 } op (x i qo)) s

-- REPLAY (R375, R395)

/-- R395. -/
def execReplay (c : Common) (d ctx : Name) (s : State) : Out :=
  execOnce c { srcs := [o1 ctx], dst := d1 d } (pagerOwn s) none 0
    (fun x i => .replay { name := d, words := 1 } (((x i (o1 ctx)).getD 0 0).toNat % 256) none) s

/-- Would an access to an address still wait for residency? -/
def stillAbsent (s : State) (t : Team) (a : Nat) : Bool := locateFor s t a .read == .error .residency

/-- The parked parts of one gang are retried: those whose pages are resident take their steps again, and buffered stores
drain. A fault that a prefetch met meanwhile on an absent page is held no longer (R253). -/
def replayGang (s : State) (t : Team) (g : Nat) : State :=
  let x := t.gang g
  let s := modGang s t.uid g (fun x =>
    { x with parts := x.parts.filter (fun p => !p.2 && stillAbsent s t p.1.addr)
             lanes := x.lanes.map (fun l => { l with
               pre := l.pre.filter (fun e => e.fault != some .residency)
               queue := l.queue.map (fun q => { q with parked := q.parked.filter (stillAbsent s t) }) }) })
  match t.core with
  | none => { s with teams := modWhere (fun y => y.uid == t.uid) (fun y =>
      { y with gangs := y.gangs.modify g (fun z => { z with parts := z.parts ++ x.parts.filter (·.2) }) }) s.teams }
  | some core => (x.parts.filter (·.2)).foldl (fun s p => drainLine s (.core core) p.1) s

/-- The handle records that a team still waits for (R343). -/
def replayPreload (s : State) (t : Team) : State :=
  t.preload.foldl (fun s p =>
    let x := engineRead s t.ctx p.2.toNat 64
    match x.2 with
    | .error .residency => s
    | .error _ => errorEvent (modTeam x.1 t.uid (fun t => { t with preload := t.preload.filter (fun y => y.1 != p.1),
                                                                    handles := t.handles.set p.1 { st := 3, raw := 0 } })) t.die p.2.toNat
    | .ok r => modTeam x.1 t.uid (fun t => { t with preload := t.preload.filter (fun y => y.1 != p.1),
                                                    handles := t.handles.set p.1 { st := if hBad r then 3 else 2, raw := r } })) s

/-- REPLAY retries the parts of a context, and its parked engine contexts go on: the state and the number of parts. -/
def replayAll (s : State) (ctx : Nat) : State × Nat :=
  let ts := s.teams.filter (fun t => t.ctx == ctx)
  let n := (ts.map (fun t => t.preload.length + (t.gangs.map (fun g => g.parts.length)).sum)).sum
  let s := ts.foldl (fun s t =>
    let s := (List.range t.gangs.length).foldl (fun s g => replayGang s t g) s
    let s := replayPreload s t
    modTeam s t.uid (fun t => { t with ectx := t.ectx.map (fun c => { c with queue := c.queue.map (fun k => { k with parked := false }) }) })) s
  ({ s with parkPosted := s.parkPosted.filter (fun p => !(p.1 == ctx && pageIn s ctx (p.2 * 65536))) }, n)

/-- Has every retried part of a context come to its end, or parked again? What stands in a queue behind a part that has parked again
waits with it. -/
def replayDone (s : State) (ctx : Nat) : Bool :=
  s.teams.all (fun t => t.ctx != ctx || t.gangs.all (fun g =>
    g.parked == 0 || g.lanes.all (fun l => (List.range l.queue.length).all (fun k => !takeable (coreDie t.coreN) l.queue k))))

-- RDSR and WRSR (R378, R396)

/-- What a system register reads in a lane. -/
def srValue (v : View) (sr : Nat) (l : Lane) : Word :=
  match sr with
  | 0 => v.gang.ecause
  | 1 => v.gang.einfo
  | 2 => lo32 l.epc
  | 3 => hi32 l.epc
  | 4 => BitVec.ofNat 32 l.eslot
  | 5 => lo32 v.gang.eaddr
  | 6 => hi32 v.gang.eaddr
  | 7 => lo32 v.gang.einsn
  | 8 => hi32 v.gang.einsn
  | 9 => v.gang.elane
  | 10 => v.gang.espos
  | 11 => BitVec.ofNat 32 (laneMask v.gang Lane.trapped)
  | 12 => BitVec.ofNat 32 v.team.ctx
  | _ => BitVec.ofNat 32 (coreDie v.core + 2 * v.core + 512 * v.bay)

/-- R396. -/
def execRdsr (c : Common) (d : Name) (sr : Nat) (s : State) : Out :=
  execAlu c { front := { dst := d1 d, srs := [sr] }, lat := 2,
              run := fun v inp i => .word (srValue v sr (inp i).lane) } s

/-- What WRSR writes: EPCL, EPCH or ESLOT. -/
def writeSr (sr : Nat) (x : Word) (l : Lane) : Lane :=
  match sr with
  | 2 => { l with epc := pair x (hi32 l.epc) }
  | 3 => { l with epc := pair (lo32 l.epc) x }
  | 4 => { l with eslot := x.toNat % 16 }
  | _ => l

/-- R396, with latency 2 (log entry 34); a lane that is in no handler is not written (R378). ESLOT keeps 4 bits (log entry 18). -/
def execWrsr (c : Common) (val : Name) (sr : Nat) (s : State) : Out :=
  let f : Front := { srcs := [o1 val] }
  issueChecks s c f (fun _ => none) (fun v =>
    let r := popAll s v f.srcPorts
    let s1 := modActive r.1 v (fun i l => if l.handler then writeSr sr ((srcWords s.fresh v r.2 i (o1 val)).headD 0) l else l)
    let s1 := if v.active.any (fun i => (v.gang.lane i).handler) then
        modGang s1 v.iss.team v.g (fun g => g.setReady [(keyS sr, 0)] (v.t + 2))
      else s1
    .next (afterSlot s1 v false WinSlot.none))

-- EVNT and HALT

/-- R397: each acting lane appends an entry; with .int, an MSI follows it. -/
def execEvnt (c : Common) (code payload : Name) (int : Bool) (s : State) : Out :=
  let f : Front := { srcs := [o1 code, o2 payload] }
  issueChecks s c f (fun _ => none) (fun v =>
    let d := coreDie v.core
    let r := popAll s v f.srcPorts
    let x := v.acting.foldl (fun (a : State × List Nat) i =>
      let w := ((srcWords s.fresh v r.2 i (o1 code)).headD 0).toNat
      let p := postEvent a.1 d (eventEntry 4 v.team.band w v.team.tid (v.src2 s.fresh i payload).toNat)
      let s1 := if int then { p.1 with msiWait := p.1.msiWait ++ [{ vec := w / 65536, die := d, entry := p.2, cause := 0 }] } else p.1
      (s1, a.2 ++ [p.2])) (r.1, [])
    .next (afterSlot (startOp x.1 v c.setf (.evnt x.2) [] []) v false WinSlot.none))

/-- R398. -/
def execHalt (c : Common) (s : State) : Out :=
  issueChecks s c {} (fun _ => none) (fun v =>
    let s1 := if s.mgmt.dbgEn ∧ !v.acting.isEmpty then modDie s (coreDie v.core) (fun d => { d with halted := true }) else s
    .next (afterSlot s1 v false WinSlot.none))

end Sys2Proof.Machine
end

