-- ==== Sys2Proof/Machine/Gng.lean ====
section
/-! DEFINITION. The steps of gangs and lanes (spec/04_control.md R73 to R104, spec/15_faults.md R374 to R377): operations
that complete, demotions, the watchdog, barriers, REGROUP, grants of chunks, waits on memory, deferred traps, parks and
retirement of gangs. A step that is not enabled leaves the state as it is. -/

namespace Sys2Proof.Machine

-- Tracked operations (R73)

/-- An operation leaves its gang, and its flag counts down. -/
def endOp (s : State) (uid g op : Nat) : State :=
  modGang s uid g (fun y => match y.ops.find? (fun o => o.id == op) with
    | none => y
    | some o => { y with ops := y.ops.filter (fun p => p.id != op) }.subFlag o.flag)

/-- The acting lanes of one LNCH place their records as one step, in increasing lane position, once each has been read (R365, R435);
also those of a lane that has exited (R88). -/
def placeRecords (s : State) (t : Team) (o : Tracked) (d : Dst) (rs : Tab LaneRec) : State :=
  if o.lanes.all (fun id => tget .wait rs id != .wait) then
    o.lanes.foldl (fun s id => match findTeam s t.uid, tget .wait rs id with
      | some t, .got r => (match t.whereIs id with
        | some (h, i) => lnchPart s t h i o.id d r
        | none => s)
      | _, _ => s) s
  else s

/-- The next lane's part of an operation that completes lane by lane, in increasing lane position: LREC and LEASE (R366, R368).
It also completes in a lane that has exited (R88). `refused` is the pager's refusal of a LEASE. -/
def lanePart (s : State) (t : Team) (o : Tracked) (refused : Bool) : State :=
  match o.lanes.head? with
  | none => s
  | some id =>
    match t.whereIs id with
    | none => s
    | some (h, i) =>
      match o.kind with
      | .lrec d rs => (match tget .wait rs id with
          | .got r => lrecPart s t h i o.id d (some r)
          | .bad => lrecPart s t h i o.id d none
          | .wait => s)
      | .lease d qs => leasePart s t h i o.id d (tget [] qs id) refused
      | _ => s

/-- What completes an operation as a whole, in its gang on a core. The work of one that acts once by a lane is done whether or
not that lane has exited (R88). Lane 32 and above stands for the pager's refusal of a LEASE (R368). -/
def completeOp (s : State) (t : Team) (core g : Nat) (o : Tracked) (lane : Nat) : State :=
  let at_ := fun (f : Nat → Nat → State) => match o.lanes.head?.bind t.whereIs with
    | some (h, i) => f h i
    | none => endOp s t.uid g o.id
  match o.kind with
  | .mem | .cmds => if o.lanes.isEmpty then endOp s t.uid g o.id else s
  | .value d res slots => endOp (res.foldl (fun s x => writeValue s t g o.id d slots x.1 x.2 o.insn) s) t.uid g o.id
  | .lnch d rs => if o.lanes.isEmpty then endOp s t.uid g o.id else placeRecords s t o d rs
  | .lrec _ _ | .lease _ _ => if o.lanes.isEmpty then endOp s t.uid g o.id else lanePart s t o (decide (32 ≤ lane))
  | .csave d a stored => at_ (fun h i => csaveStep s t core g h i o d a stored)
  | .crest d a => at_ (fun h i => crestStep s t core g h i o d a)
  | .tlbinv d op q => at_ (fun h i => let r := runTlb s op q; endOnce r.1 t.uid h i o.id d (BitVec.ofNat 32 r.2))
  | .replay d ctx none => at_ (fun _ _ =>
      let r := replayAll s ctx
      modGang r.1 t.uid g (fun x =>
        let f := fun (p : Tracked) => if p.id = o.id then { p with kind := .replay d ctx (some r.2) } else p
        { x with ops := x.ops.map f }))
  | .replay d ctx (some n) => at_ (fun h i =>
      if replayDone s ctx then
        endOnce ((s.teams.filter (fun x => x.ctx == ctx)).foldl (fun s x => keepSave s x.uid) s) t.uid h i o.id d (BitVec.ofNat 32 n)
      else s)
  | .evnt es => if s.dies.any (fun x => es.any x.events.holds) then s else endOp s t.uid g o.id

/-- R73. -/
def execOperationComplete (team gang op lane : Nat) (s : State) : Out :=
  match findTeam s team with
  | none => .next s
  | some t =>
    match t.core, (t.gang gang).ops.find? (fun o => o.id == op) with
    | some core, some o => .next (completeOp s t core gang o lane)
    | _, _ => .next s

-- Demotion

/-- R97. -/
def execDemotionEnd (team gang lane : Nat) (s : State) : Out :=
  .next (modLane s team gang lane (fun l => if l.demotedUntil ≤ s.cycle then { l with demotedUntil := 0 } else l))

-- Barriers (R98)

/-- Does a lane that waits await one of its releases? A release at core scope drains nothing (R188), and no barrier waits for it
(R442; log entry 110); REGRP does (R81). -/
def awaits (w : Wait) : MemKind → Bool
  | .rel sc => sc != .core || w == .regrp
  | _ => false

/-- Has a lane arrived at a barrier of a kind, its release done? -/
def Lane.arrived (l : Lane) (k : Wait → Option Scope) : Option Scope :=
  match l.st with
  | .blocked w => if l.queue.any (fun q => awaits w q.kind) then none else k w
  | _ => none

def isBarg : Wait → Option Scope | .barg sc => some sc | _ => none
def isBart : Wait → Option Scope | .bart sc => some sc | _ => none
def isBarb : Wait → Option Scope | .barb sc => some sc | _ => none

/-- The gangs of a barrier, by team and number, and the wait it names. -/
def barGangs (s : State) : Bar → List (Team × Nat) × (Wait → Option Scope)
  | .gang u g => (((findTeam s u).toList.map (fun t => (t, g))), isBarg)
  | .team u => ((findTeam s u).toList.flatMap (fun t => (List.range t.gangs.length).map (fun g => (t, g))), isBart)
  | .band l b => ((s.teams.filter (fun t => t.launch == l && t.band == b)).flatMap (fun t =>
      (List.range t.gangs.length).map (fun g => (t, g))), isBarb)

/-- A participant acquires at the scope that it named, and continues. -/
def passBarrier (sc : Scope) (l : Lane) : Lane := (l.push [LaneOp.plain (.acq sc)]).wake

/-- R98: every participant has arrived. -/
def execBarrierComplete (b : Bar) (s : State) : Out :=
  let x := barGangs s b
  let all := x.1.flatMap (fun y => ((y.1.gang y.2).liveAt).map (fun i => (y.1.uid, y.2, i, ((y.1.gang y.2).lane i).arrived x.2)))
  if all.isEmpty ∨ all.any (fun y => y.2.2.2.isNone) then .next s
  else .next (all.foldl (fun s y => modLane s y.1 y.2.1 y.2.2.1 (passBarrier (y.2.2.2.getD .core))) s)

-- REGROUP (R81, R82)

def isRegrp : Wait → Option Scope | .regrp => some .core | _ => none

/-- A quad with its tag. -/
structure Quad where
  lanes : List Lane
  phase : Phase

/-- The quads of a gang that hold lanes. -/
def Gang.quads (g : Gang) : List Quad :=
  (List.range 8).filterMap (fun k =>
    let ls := (List.range 4).map (fun i => g.lane (4 * k + i))
    if ls.all (fun l => l.st == .absent) then none
    else some { lanes := ls, phase := g.phase.getD k Phase.zero })

/-- The quad's original index (R81). -/
def Quad.index (q : Quad) : Nat := let l := q.lanes.headD Lane.absent; l.gid * 8 + l.qid

/-- Each exited lane of a surviving quad becomes a helper lane at the clause of its quad's first arrived lane; the arrived
lanes acquire and continue. -/
def Quad.regrouped (q : Quad) : Quad :=
  let first := (q.lanes.find? Lane.live).getD Lane.absent
  { q with lanes := q.lanes.map (fun l =>
      let l := if l.st = .exited then { l with st := .running, helper := true, wdog := 0, pc := first.pc, resume := 0 }
        else passBarrier .core l
      { l with pre := [] }) }

/-- Insert in order of tag, then of original index. -/
def Quad.insert (q : Quad) : List Quad → List Quad
  | [] => [q]
  | x :: t =>
    if (q.phase.tag.toNat, q.index) = (x.phase.tag.toNat, x.index) ∨ q.phase.tag.toNat < x.phase.tag.toNat ∨
      (q.phase.tag = x.phase.tag ∧ q.index < x.index) then q :: x :: t
    else x :: q.insert t

/-- A gang receives quads at positions 0 upward; one that receives none retires. -/
def Gang.deal (g : Gang) (qs : List Quad) : Gang :=
  let ls := qs.flatMap (·.lanes)
  let g := { g with lanes := ls ++ List.replicate (32 - ls.length) Lane.absent,
                    phase := qs.map (·.phase) ++ List.replicate (8 - qs.length) Phase.zero }
  if qs.isEmpty then { g with retired := true, chunks := 0 } else g

/-- Deal quads to the gangs that have not retired, in order. -/
def dealGangs (p : Nat) : List Gang → List Quad → List Gang
  | [], _ => []
  | g :: t, qs =>
    if g.retired then g :: dealGangs p t qs
    else g.deal (qs.take p) :: dealGangs p t (qs.drop p)

/-- Has a lane nothing outstanding: no entry in its queue and no part of an operation? -/
def Team.laneDone (t : Team) (l : Lane) : Bool :=
  l.queue.isEmpty && t.gangs.all (fun g => g.ops.all (fun o => !o.lanes.contains l.ident))

/-- R81: every lane has arrived, every flag is zero and every fixed-latency result is readable. The lanes of quads that are
dropped must have nothing outstanding: their stores drain and their releases happen first (R88, R105). -/
def execRegroup (team : Nat) (s : State) : Out :=
  match findTeam s team with
  | none => .next s
  | some t =>
    let live := t.gangs.flatMap (fun g => g.lanes.filter Lane.live)
    let dropped := (t.gangs.flatMap Gang.quads).filter (fun q => !q.lanes.any Lane.live)
    if live.isEmpty ∨ live.any (fun l => (l.arrived isRegrp).isNone) ∨ t.core.isNone ∨ t.ending.isSome ∨
        t.gangs.any (fun g => (List.range 12).any (fun n => g.flag (n + 1) != 0) || g.ready.any (fun r => decide (s.cycle < r.2)) ||
          (g.parked != 0 && !g.retired)) ∨
        dropped.any (fun q => q.lanes.any (fun l => !t.laneDone l)) then
      .next s
    else
      let qs := ((t.gangs.flatMap Gang.quads).filter (fun q => q.lanes.any Lane.live)).map Quad.regrouped
      let sorted := qs.foldr Quad.insert []
      .next (modTeam s team (fun t => { t with gangs := dealGangs t.perGang t.gangs sorted }))

-- Chunks (R79)

/-- The waiting gang that a bay serves next: the oldest. -/
def oldestWaiter : List (Nat × Nat × Gang) → Option (Nat × Nat × Gang)
  | [] => none
  | x :: t => match oldestWaiter t with
    | none => some x
    | some y => if y.2.2.admitted < x.2.2.admitted then some y else some x

/-- R79. -/
def execAcqxGrant (core bay : Nat) (s : State) : Out :=
  match oldestWaiter (acqxWaiters s core bay) with
  | none => .next s
  | some (uid, g, x) =>
    let n := x.acqxWant.getD 0
    if n ≤ x.chunks then .next (modGang s uid g Gang.wakeAcqx)
    else if n ≤ x.chunks + freeChunks s core bay then .next (modGang s uid g (fun y => (y.setChunks n).wakeAcqx))
    else .next s

-- Waits on memory (R103, R104)

/-- The address, value, scope and TLTRY predicate and deadline of a memory form. -/
def memWait : LaneSt → Option (DWord × DWord × Scope × Option (Nat × Nat))
  | .blocked (.tlMem a v sc) => some (a, v, sc, none)
  | .blocked (.tryMem a v sc pd t) => some (a, v, sc, some (pd, t))
  | _ => none

/-- The word of a waiting lane, read as a load that finds the home's current value. -/
def readWord (s : State) (t : Team) (core : Nat) (a : DWord) : State × Except (Cause × Nat) Nat :=
  let ag := Agent.core core
  let s := modAgent s ag (fun m => m.dropCopy (lineOf t.ctx a.toNat))
  let r := fetchBytes s t ag a.toNat .read true 8
  match r.2 with
  | .error c => (r.1, .error c)
  | .ok bs => if bs.any (·.2) then (r.1, .error (.poison, a.toNat)) else (r.1, .ok (ofBytes (bs.map (·.1))))

/-- A waiting lane's read meets a condition: the gang parks, or the lane goes on to the trap at its next clause. -/
def waitFailed (s : State) (t : Team) (g i : Nat) (c : Cause) (a : Nat) : State :=
  if c = .residency then
    parkGangOn (modGang s t.uid g (fun x => if x.parts.contains (lineOf t.ctx a, false) then x
      else { x with parts := x.parts ++ [(lineOf t.ctx a, false)] })) t.uid g a
  else if c = .poison then endTeam s t.uid { laneFault t g i .poison 0 a with insn := ((t.gang g).lane i).waitInsn }
  else deferFault (dropHeld (modLane s t.uid g i Lane.wake) t.uid g i) t.uid g i c a 0 ((t.gang g).lane i).waitInsn

/-- The condition holds: the lane acquires at its scope and continues, its predicate true. -/
def waitMet (s : State) (uid core g i : Nat) (sc : Scope) (pd : Option Nat) : State :=
  acquireAt (modLane s uid g i (fun l => match pd with
    | none => l.wake
    | some p => l.wake.setPred p true)) core uid g i sc

/-- The lane reads its word anew: the value it found is kept (R361). -/
def noteSeen (s : State) (uid g i x : Nat) : State := modLane s uid g i (fun l => { l with seen := some (BitVec.ofNat 64 x) })

/-- R103: a lane that waits looks again. A memory form reads its word once the lane's earlier operations are done; a TLTRY whose
interval has ended is answered by TLTRY_INTERVAL_END (R104). -/
def execTlwaitReread (team gang lane : Nat) (s : State) : Out :=
  match findTeam s team with
  | none => .next s
  | some t =>
    let l := (t.gang gang).lane lane
    match t.core, memWait l.st with
    | some core, some (a, v, sc, tr) =>
      if !l.queue.isEmpty ∨ (t.gang gang).parked ≠ 0 ∨ tr.any (fun x => decide (x.2 ≤ s.cycle)) then .next s
      else
        let r := readWord s t core a
        match r.2 with
        | .error c => .next (waitFailed r.1 t gang lane c.1 c.2)
        | .ok x =>
          let s := noteSeen r.1 team gang lane x
          .next (if v.toNat ≤ x then dropHeld (waitMet s team core gang lane sc (tr.map (·.1))) team gang lane else s)
    | some core, none => .next (wakeLane s t core gang lane)
    | _, _ => .next s

/-- R104: the interval has ended. A condition that came true within it answers true; one that came true in its last cycle may be
answered either way (erratum QE-01); an acquire waits for the lane's earlier operations (R190). -/
def execTltryIntervalEnd (team gang lane : Nat) (s : State) : Out :=
  match findTeam s team with
  | none => .next s
  | some t =>
    let l := (t.gang gang).lane lane
    match t.core with
    | none => .next s
    | some core =>
      if (t.gang gang).parked ≠ 0 then .next s
      else match l.st with
      | .blocked (.tryTeam e v pd d) =>
        if s.cycle < d then .next s
        else
          let b := (heldSince s team gang lane).any (fun h => tryAnswer s h d)
          if b ∧ !l.caughtUp then .next s
          else .next (endTry s team gang lane pd b (fun s => acquireCtx s core team gang lane e v))
      | .blocked (.tryMem a v sc pd d) =>
        if s.cycle < d then .next s
        else match heldSince s team gang lane with
          | some h =>
            let b := tryAnswer s h d
            if b ∧ !l.caughtUp then .next s
            else .next (endTry s team gang lane pd b (fun s => acquireAt s core team gang lane sc))
          | none =>
            let r := readWord s t core a
            match r.2 with
            | .error c => .next (waitFailed r.1 t gang lane c.1 c.2)
            | .ok x =>
              let b := decide (v.toNat ≤ x)
              if b ∧ !l.caughtUp then .next s
              else .next (endTry r.1 team gang lane pd b (fun s => acquireAt s core team gang lane sc))
      | _ => .next s

-- Deferred traps, parks, retirement

/-- Is a gang's clause in issue? -/
def gangIssuing (s : State) (core uid g : Nat) : Bool :=
  (coreOf s core).bays.any (fun b => match b.issue with
    | some x => x.team == uid && x.gang == g
    | none => false)

/-- The bay of a gang chooses its next group, if that is the lane's group and the lane has something due there. -/
def dueIssue (team gang lane : Nat) (due : Lane → Bool) (s : State) : Out :=
  match (findTeam s team).bind Team.core with
  | none => .next s
  | some core =>
    match choose (issueCycle s core (gang % 4)) (candidates s core (gang % 4) (issueCycle s core (gang % 4))) with
    | none => .next s
    | some c =>
      if c.team.uid = team ∧ c.g = gang ∧ c.grp.contains lane ∧ due (c.gang.lane lane) then execClauseIssue core (gang % 4) s
      else .next s

/-- R374, R377: the trap of a deferred fault comes when the lane issues its next clause: the bay of its gang chooses the lane's
group, whose WAIT holds then. -/
def execTrapEntry (team gang lane : Nat) (s : State) : Out := dueIssue team gang lane (fun l => l.deferred.isSome) s

/-- R84: the bay chooses the group of a lane whose count would pass its deadline, which ends the team. -/
def execWatchdog (team gang lane : Nat) (s : State) : Out := dueIssue team gang lane Lane.overdue s

/-- Has everything of a gang completed but its parked parts, and what waits behind them in their lanes' queues (R375)? -/
def Gang.onlyParked (d : Nat) (g : Gang) : Bool :=
  g.lanes.all (fun l => (List.range l.queue.length).all (fun k => !takeable d l.queue k)) &&
  g.ops.all (fun o => match o.kind with
    | .mem | .lnch _ _ | .lrec _ _ | .lease _ _ | .crest _ _ => true
    | _ => false)

/-- R375: the image is saved; the gang's bay slot and blocks are free. -/
def execParkGang (team gang : Nat) (s : State) : Out :=
  match findTeam s team with
  | none => .next s
  | some t =>
    match t.core with
    | none => .next s
    | some core =>
      let g := t.gang gang
      if g.parked ≠ 1 ∨ g.parts.isEmpty ∨ gangIssuing s core team gang ∨ !g.onlyParked (coreDie core) then .next s
      else .next (saveOne (modGang s team gang (fun x => { x with parked := 2 })) team gang)

/-- A wait that is evaluated again: a TLTRY starts a fresh interval (R87). -/
def Wait.again (now : Nat) : Wait → Wait
  | .tryTeam e v pd _ => .tryTeam e v pd (now + 2048)
  | .tryMem a v sc pd _ => .tryMem a v sc pd (now + 2048)
  | w => w

/-- A lane continues after its gang or team was away (R87). -/
def Lane.resumed (now : Nat) (l : Lane) : Lane :=
  match l.st with
  | .blocked w => { l with st := .blocked (w.again now) }
  | .stopped (some w) => { l with st := .blocked (w.again now) }
  | .stopped none => { l with st := .running }
  | _ => l

/-- Can a bay hold some more gangs with their chunks (R10, R11)? -/
def bayFits (s : State) (core bay gangs chunks : Nat) : Bool :=
  decide ((bayGangs s core bay).length + gangs ≤ 16) && decide (chunks ≤ freeChunks s core bay)

/-- R375: every part has completed; a gang that left its bay is admitted to it again, and acquires as a resumed team does. -/
def execParkedGangResume (team gang : Nat) (s : State) : Out :=
  match findTeam s team with
  | none => .next s
  | some t =>
    match t.core with
    | none => .next s
    | some core =>
      let g := t.gang gang
      let out := g.lanes.any (fun l => !l.queue.isEmpty) || g.ops.any (fun o => match o.kind with
        | .lnch _ _ | .lrec _ _ | .lease _ _ | .crest _ _ => true
        | _ => false)
      if g.parked = 0 ∨ !g.parts.isEmpty ∨ out then .next s
      else if g.parked = 1 then .next (modGang s team gang (fun x => { x with parked := 0 }))
      else if !bayFits s core (gang % 4) 1 g.chunks then .next s
      else
        let s := modGang s team gang (fun x =>
          { x with parked := 0, admitted := s.cycle, lanes := x.lanes.map (Lane.resumed s.cycle) })
        let s := { s with held := s.held.filter (fun h => !(h.1 == team && h.2.1 / 32 == gang)) }
        .next (wakeTimeline (noteLanes (acquireGangs (acquireCore s core .pkg) core team [gang]) s.cycle (fun t g _ => t.uid == team && g == gang)) team)

/-- R88: the last lane has exited and the flags are zero; blocks are freed, and dirty per-lane memory is dropped (R186). -/
def execGangRetire (team gang : Nat) (s : State) : Out :=
  match findTeam s team with
  | none => .next s
  | some t =>
    let g := t.gang gang
    if g.retired ∨ t.gangs.length ≤ gang ∨ !g.liveAt.isEmpty ∨ (List.range 12).any (fun n => g.flag (n + 1) != 0) ∨ t.core.isNone then .next s
    else
      let mine := (g.lanes.filter Lane.present).map Lane.ident
      let own := fun (a : Nat) =>
        let o := (BitVec.ofNat 64 a - t.pb).toNat
        mine.contains (32 * (o / (32 * t.ps)) + o % 128 / 4)
      .next (modTeam s team (fun t => { t with
        l1 := t.l1.filter (fun e => !own e.1),
        gangs := t.gangs.modify gang (fun x => { x with retired := true, chunks := 0, parked := 0 }) }))

end Sys2Proof.Machine
end

