-- ==== Sys2Proof/Machine/Tms.lean ====
section
/-! DEFINITION. The steps of whole teams (spec/04_control.md R85 to R89, spec/14_launch.md R343, R353, R361,
spec/15_faults.md R374): admission, pre-emption, swapping, retirement and the end by a fault. A step that is not enabled
leaves the state as it is. -/

namespace Sys2Proof.Machine

-- Room (R10, R11, R291)

/-- The gangs that a team brings to a bay, and their chunks. -/
def bayNeed (gangs : List Gang) (bay : Nat) : Nat × Nat :=
  let mine := (List.range gangs.length).filter (fun g =>
    g % 4 == bay && (match gangs[g]? with
      | some x => !x.retired && decide (x.parked < 2)
      | none => false))
  (mine.length, (mine.map (fun g => ((gangs[g]?).map (·.chunks)).getD 0)).sum)

/-- Does a core have room for a team's gangs, and its array if the team wants one? -/
def coreFits (s : State) (core : Nat) (gangs : List Gang) (arr : Bool) : Bool :=
  decide (core < s.cores.length) && !(dieOf s (coreDie core)).failed && !(arr && (coreOf s core).holder.isSome) &&
  (List.range 4).all (fun b => let n := bayNeed gangs b; bayFits s core b n.1 n.2)

/-- Does the package admit teams now (R388, R417)? -/
def admitting (s : State) : Bool := running s && !s.mgmt.needDegrade

/-- Does a core take teams now (R398)? -/
def admits (s : State) (core : Nat) : Bool := admitting s && !(dieOf s (coreDie core)).halted

/-- Must a launch wait: for a new partition setting, if it was accepted after the setting was written or no team is left (R15; log
entry 102), or for an operation on its context's key (R404)? -/
def Launch.held (s : State) (l : Launch) : Bool :=
  (s.mgmt.partPending.isSome && (s.teams.isEmpty || decide (s.mgmt.partSince ≤ l.order))) ||
  (s.mgmt.keyBusy && s.mgmt.keyCtl == l.ctx)

-- Admission (R343, R353)

/-- A lane position as its gang starts (R65, R66). -/
def startLane (entry now p l quads g i : Nat) : Lane :=
  let k := g * p + i / 4
  if k < min quads ((g + 1) * p) then
    { Lane.absent with st := .running, pc := BitVec.ofNat 64 entry, lid := i, qid := i / 4, gid := g,
                       helper := decide (l ≤ 4 * p * g + i), lastIssue := now }
  else Lane.absent

/-- A gang as it starts. -/
def startGang (r now g : Nat) : Gang :=
  { Gang.empty with
    lanes := (List.range 32).map (startLane (recEntry r) now (recP r) (recL r) (recQ r) g)
    cregs := tput 0 (tput 0 [] 0 (lo32 (recParam r))) 1 (hi32 (recParam r)), admitted := now }

/-- Team `tid` of a launch as it starts on a core. -/
def startTeam (l : Launch) (priv : Bool) (uid tid core now : Nat) : Team :=
  let r := l.raw
  { uid := uid, launch := l.id, tid := tid, ctx := l.ctx, depth := l.depth, prio := recPrio r, place := .core core,
    band := coreGroup core, homeDie := coreDie core, lastCore := core, perGang := recP r, laneCount := recL r, ext := recExt r,
    wantsArray := recArray r, priv := priv, pb := BitVec.ofNat 64 (recPbl r + tid * recG r * 32 * recPS r), ps := recPS r, admitted := now,
    gangs := (List.range (recG r)).map (startGang r now), ectx := List.replicate 8 Ctx.empty,
    handles := List.replicate 64 Handle.empty, pend := [], leases := [], l1 := [], savedRegions := [], savedArray := none,
    preempting := false, swapping := false, watch := [], ending := none, killPending := false, homes := [], resumedAt := now,
    preload := (List.range (recHn r)).map (fun i => (i, BitVec.ofNat 64 (recHtab r + 64 * i))) }

/-- The lanes resident on a core. -/
def residentLanes (s : State) (core : Nat) : Nat :=
  ((List.range 4).map (fun b => ((bayGangs s core b).map (fun x => x.2.2.liveAt.length)).sum)).sum

/-- Free lane slots of a core group of the package. -/
def groupFree (s : State) (g : Nat) : Nat := ((groupCores g).map (fun c => 2048 - residentLanes s c)).sum

/-- The element of a list with the greatest value, the first of equals. -/
def firstMax (f : Nat → Nat) : List Nat → Option Nat
  | [] => none
  | x :: t => match firstMax f t with
    | none => some x
    | some y => if f x < f y then some y else some x

/-- Does the TLB of an address's slice still hold its page's translation (R16, R353)? A TLB gives entries up as it likes (log
entry 103). -/
def tlbHolds (s : State) (a : Nat) (x : Leaf) : Bool :=
  s.tlb.contains (sliceAt a, x.key) && Config.freeBool (freeIdx s.fresh 0)

/-- The first candidate group of a launch (R353); an affinity address of 0 is none (R341). -/
def affGroup (s : State) (l : Launch) : Nat :=
  let a := recAff l.raw
  let free := (firstMax (groupFree s) ((List.range 16).map (fun i => l.die * 16 + i))).getD (l.die * 16)
  if a ≠ 0 ∧ a < 2 ^ 62 ∧ homeOf a < 2 then
    match leafOf s l.ctx a with
    | some x => if tlbHolds s a x then homeOf a * 16 + channelOf (x.frame + offOf a % x.psize) / 12 else free
    | none => free
  else free

/-- Groups of a die in order of distance from one. -/
def groupsBy (die g : Nat) : List Nat :=
  (List.range 16).flatMap (fun d =>
    ((List.range 16).filter (fun i => (g - i) + (i - g) == d)).map (fun i => die * 16 + i))

/-- The core that takes a launch's next team (R353). -/
def placeFor (s : State) (l : Launch) : Option Nat :=
  let gangs := (List.range (recG l.raw)).map (startGang l.raw s.cycle)
  let g := affGroup s l
  (groupsBy (g / 16) (g % 16) ++ groupsBy (1 - g / 16) (g % 16)).findSome? (fun grp =>
    firstMax (fun c => 8192 - residentLanes s c)
      ((groupCores grp).filter (fun c => coreFits s c gangs (recArray l.raw) && admits s c)))

/-- Has a launch a team that could be admitted now, but for a place? -/
def Launch.waits (s : State) (l : Launch) : Bool :=
  l.resident && !l.killed && !l.nores && decide (l.admitted < recTeams l.raw) && !l.held s

/-- Is a launch served before another of its die: higher priority, then earlier acceptance (R353)? -/
def servedBefore (a b : Launch) : Bool :=
  decide (recPrio b.raw < recPrio a.raw) || (recPrio a.raw == recPrio b.raw && decide (a.order < b.order))

/-- The fetches of a team's lanes see what stands at their admission (R47). -/
def bornLanes (s : State) (uid : Nat) : State :=
  modTeam { s with era := s.era + 1 } uid (fun t =>
    { t with gangs := t.gangs.map (fun g => { g with lanes := g.lanes.map (Lane.bornCode (s.era + 1)) }) })

/-- R343, R353: the launch's next team is admitted, if no launch of the die that could be served comes before it. Where it finds no
core, the dispatcher notes since when (R436). -/
def execTeamAdmit (launch : Nat) (s : State) : Out :=
  match findLaunch s launch with
  | none => .next s
  | some l =>
    match placeFor s l with
    | none => .next (if l.waits s then modLaunch s launch (fun l => { l with noPlace := some (l.noPlace.getD s.clock) }) else s)
    | some core =>
      let s := modLaunch s launch (fun l => { l with noPlace := none })
      if !l.waits s ∨ (dieOf s l.die).halted ∨
          s.launches.any (fun x => x.die == l.die && x.waits s && servedBefore x l && (placeFor s x).isSome) then .next s
      else
        let t := startTeam l (ctxPriv s l.ctx) s.fresh l.admitted core s.cycle
        let s := { s with fresh := s.fresh + 1, teams := s.teams ++ [t] }
        let s := modLaunch s launch (fun l => { l with admitted := l.admitted + 1, bandsDue := (t.band :: l.bandsDue).dedup })
        let s := if t.wantsArray then modCore s core (fun c => { c with holder := some t.uid, arr := Array.granted, order := [] }) else s
        -- handle records; those that wait for residency stay in `preload` (R343)
        let s := replayPreload s t
        let s := ((findTeam s t.uid).map (fun y => y.preload)).getD [] |>.foldl (fun s p => postPage s t p.2.toNat) s
        .next (bornLanes (acquireCore s core .pkg) t.uid)

-- Pre-emption (R85 to R87)

/-- Does a launch that passes a test wait for nothing but a place (R353, R361)? -/
def wantsPlace (s : State) (p : Launch → Bool) : Bool :=
  admitting s && s.launches.any (fun l => p l && l.waits s && !(dieOf s l.die).halted && (placeFor s l).isNone)

/-- Blocked lanes stop where they wait; running ones stop at their next YLD points (R85). -/
def stopBlocked (t : Team) : Team :=
  { t with gangs := t.gangs.map (fun g => { g with lanes := g.lanes.map (fun l => match l.st with
      | .blocked w => if l.handler then l else { l with st := .stopped (some w) }
      | _ => l) }) }

/-- R85: for a launch of higher priority (R353). -/
def execPreemptDecide (team : Nat) (s : State) : Out :=
  match findTeam s team with
  | none => .next s
  | some t =>
    if t.core.isNone ∨ t.preempting ∨ t.ending.isSome ∨ !wantsPlace s (fun l => decide (t.prio < recPrio l.raw)) then .next s
    else .next (modTeam s team (fun t => stopBlocked { t with preempting := true }))

/-- The team's non-exited lanes have all stopped and nothing of its gangs is outstanding (R86). -/
def Team.stopped (t : Team) : Bool :=
  t.gangs.all (fun g => g.parked == 0 && (List.range 12).all (fun n => g.flag (n + 1) == 0) &&
    g.lanes.all (fun l => l.queue.isEmpty && (!l.live || (match l.st with
      | .stopped _ => true
      | _ => false))))

/-- A team's dirty per-lane memory goes to its home (R186), one write for each line (R197); what meets a condition stays. -/
def writeBack (s : State) (t : Team) : State :=
  ((t.l1.map (fun e => lineAddr e.1)).dedup).foldl (fun s a =>
    let mine := t.l1.filter (fun e => lineAddr e.1 == a)
    match locateFor s t a .write with
    | .ok loc =>
      let s := homeWrite { s with fresh := s.fresh + 1 } t.ctx (lineOf t.ctx a) loc
        (mine.filterMap (fun e => e.2.map (fun b => (e.1 % 128, b)))) false s.fresh
      modTeam s t.uid (fun t => { t with l1 := t.l1.filter (fun e => lineAddr e.1 != a) })
    | .error _ => s) s

/-- A release at package scope of a team's core (R86, R89): the state, and whether it is complete. -/
def teamRelease (s : State) (core : Nat) : State × Bool :=
  let r := relScope s (.core core) .pkg []
  (r.1, r.2.isNone)

/-- A team's contexts drain all that its commands wrote, which stands whatever becomes of the team (R268): the state, and whether
that is complete. -/
def ctxRelease (s : State) (t : Team) : State × Bool :=
  ((List.range t.ectx.length).map (Agent.ctx t.uid)).foldl (fun a ag =>
    let r := relScope a.1 ag .sys []
    (r.1, a.2 && r.2.isNone)) (s, true)

/-- The regions of a team on a core. -/
def teamRegions (s : State) (core uid : Nat) : List Region := (coreOf s core).regions.filter (fun r => r.team == uid)

/-- R86, R226, R305, R381: the release, then the save. The team's state goes into its save area, and stands in its Team record
while it is away; its regions leave and its array claim ends. -/
def execTeamSave (team : Nat) (s : State) : Out :=
  match findTeam s team with
  | none => .next s
  | some t =>
    match t.core with
    | none => .next s
    | some core =>
      if !t.preempting ∨ t.ending.isSome ∨ !t.stopped ∨ (coreOf s core).order.any (fun x => x.1 == team) then .next s
      else
        let s := writeBack s t
        let r := teamRelease s core
        if !r.2 then .next r.1
        else
          let rs := teamRegions r.1 core team
          let s := rs.foldl (fun s x => (endRegion s core x).1) r.1
          let holds : Bool := (coreOf s core).holder == some team
          let arr := (coreOf s core).arr
          let s := if holds then modCore s core (fun c => { c with holder := none }) else s
          .next (saveAll (modTeam s team (fun t =>
            { t with place := .away t.swapping, lastCore := core, preempting := false, savedRegions := rs,
                     savedArray := if holds then some arr else t.savedArray,
                     gangs := t.gangs.map (fun g => { g with lanes := g.lanes.map (fun l => { l with pre := [] }) }) })) team)

/-- 20 µs in units of the device clock (R436). -/
def twenty : Nat := 20000 * (24 * 10 ^ 9)

/-- A saved team stands on a core again (R86, R87, R226, R291). -/
def resumeOn (s : State) (t : Team) (core : Nat) : State :=
  let s := modTeam (dropStall s (.team t.uid)) t.uid (fun t =>
    { t with place := .core core, lastCore := core, swapping := false, watch := [], savedRegions := [], savedArray := none,
             resumedAt := s.cycle, holdOff := s.clock + twenty,
             gangs := t.gangs.map (fun g => { g with admitted := s.cycle, lanes := g.lanes.map (Lane.resumed s.cycle) }) })
  let s := match t.savedArray with
    | some a => modCore s core (fun c => { c with arr := a, holder := some t.uid, order := [] })
    | none => s
  let s := acquireGangs (acquireCore { s with held := s.held.filter (fun h => h.1 != t.uid) } core .pkg) core t.uid
    (List.range t.gangs.length)
  let s := noteLanes s s.cycle (fun x _ _ => x.uid == t.uid)
  let s := t.savedRegions.foldl (fun s r =>
    let s := addRegion s core r
    let s := r.lines.foldl (fun s l => (askLine s core r l).1) s
    bumpCounter s core r) s
  wakeTimeline s t.uid

/-- Has a core room for saved regions, one after another (R211)? -/
def regionsFit (s : State) (core : Nat) : List Region → Bool
  | [] => true
  | r :: rest => regionRoom s core r == 0 && regionsFit (addRegion s core r) core rest

/-- May a team that is away stand on a core? Its regions must fit there as well (log entry 107). -/
def mayResume (s : State) (t : Team) (core : Nat) : Bool :=
  t.ending.isNone && !t.killPending && admits s core && coreFits s core t.gangs t.savedArray.isSome &&
  regionsFit s core t.savedRegions

/-- R86, R87. -/
def execTeamResume (team core : Nat) (s : State) : Out :=
  match findTeam s team with
  | none => .next s
  | some t => if t.place = .away false ∧ mayResume s t core then .next (resumeOn s t core) else .next s

/-- The address that a lane waiting in a join reads. -/
def Lane.joins (l : Lane) : Option DWord := (memWait l.st).map (·.1)

/-- What stands at an address now. -/
def wordAt (s : State) (t : Team) (a : DWord) : Option DWord :=
  match locateFor s t a.toNat .read with
  | .ok loc => some (BitVec.ofNat 64 (rdNat s loc.key 8))
  | .error _ => none

/-- May a team be swapped out: on its core every lane waits in a join, and it is not within 20 µs of a resumption (R361, R436)? -/
def Team.swappable (s : State) (t : Team) : Bool :=
  let live := t.gangs.flatMap (fun g => g.lanes.filter Lane.live)
  t.core.isSome && !t.preempting && t.ending.isNone && !live.isEmpty &&
  live.all (fun l => !l.handler && l.joins.isSome && l.seen.isSome) && decide (t.holdOff ≤ s.clock)

/-- R361, R436: a team whose every lane waits in a join makes room for a team of a ready launch of its die that has found no core for
20 µs: of several such teams the one resident longest. What each lane read last of its word is kept, so that no change is missed. -/
def execParentSwapOut (team : Nat) (s : State) : Out :=
  match findTeam s team with
  | none => .next s
  | some t =>
    if !t.swappable s ∨ s.teams.any (fun u => u.die == t.die && u.swappable s && decide (u.resumedAt < t.resumedAt)) ∨
        !wantsPlace s (fun l => l.die == t.die && l.noPlace.any (fun c => decide (c + twenty ≤ s.clock))) then .next s
    else
      let live := t.gangs.flatMap (fun g => g.lanes.filter Lane.live)
      let watch := live.filterMap (fun l => l.joins.bind (fun a => l.seen.map (fun x => (a, x))))
      .next (modTeam s team (fun t => stopBlocked { t with preempting := true, swapping := true, watch := watch }))

/-- R361: a word that one of its lanes waits on is another than the lane read last, and there is room. -/
def execParentSwapIn (team core : Nat) (s : State) : Out :=
  match findTeam s team with
  | none => .next s
  | some t =>
    if t.place = .away true ∧ t.watch.any (fun x => (wordAt s t x.1).any (· != x.2)) ∧ mayResume s t core then
      .next (resumeOn s t core)
    else .next s

-- Retirement (R89)

/-- What a team holds on its core is given up: regions, array, clauses in issue. -/
def freeCore (s : State) (uid core : Nat) : State :=
  let s := (teamRegions s core uid).foldl (fun s x => (endRegion s core x).1) s
  modCore s core (fun c =>
    { c with holder := if c.holder = some uid then none else c.holder
             order := c.order.filter (fun x => x.1 != uid)
             bays := c.bays.map (fun b => match b.issue with
               | some x => if x.team = uid then { b with issue := none } else b
               | none => b) })

/-- The team is no more. -/
def dropTeam (s : State) (uid : Nat) : State :=
  { s with teams := s.teams.filter (fun t => t.uid != uid)
           saves := s.saves.filter (fun x => x.team != uid)
           held := s.held.filter (fun h => h.1 != uid)
           mgmt := let left := s.mgmt.killWait.filter (fun u => u != uid)
                   { s.mgmt with killWait := left, killBusy := s.mgmt.killBusy && !left.isEmpty } }

/-- Has the team an LNCH that has not ended (R89)? -/
def Team.launching (t : Team) : Bool :=
  t.gangs.any (fun g => g.ops.any (fun o => match o.kind with
    | .lnch _ _ => true
    | _ => false))

/-- R89: the gangs have retired, the commands have completed and every launch is accepted; the release, the Leaves of its regions,
which come home first (R226, R232, R433), then the end. -/
def execTeamRetire (team : Nat) (s : State) : Out :=
  match findTeam s team with
  | none => .next s
  | some t =>
    match t.core with
    | none => .next s
    | some core =>
      if t.ending.isSome ∨ t.gangs.any (fun g => !g.retired || g.lanes.any (fun l => !l.queue.isEmpty)) ∨
          t.ectx.any (fun c => !c.queue.isEmpty) ∨ !t.pend.isEmpty ∨ !(poolOf s team).isEmpty ∨ t.launching then .next s
      else
        let r := teamRelease s core
        let x := ctxRelease r.1 t
        let left := (teamRegions x.1 core team).foldl (fun s y => (endRegion s core y).1) x.1
        if !r.2 ∨ !x.2 then .next x.1
        else if left.msgs.any (fun m => m.kind == .leave && m.core == core) then .next left
        else .next (dropTeam (freeCore (countTeam left t 0) team core) team)

-- The end by a fault (R374, R268, R360, R386)

/-- Has a killed team come to where it ends (R420): away, or every lane stopped, blocked or parked? -/
def Team.killable (t : Team) : Bool :=
  t.killPending && (t.core.isNone || t.gangs.all (fun g => g.parked == 2 || g.lanes.all (fun l => !l.live || (match l.st with
    | .stopped _ | .blocked _ => true
    | _ => false))))

/-- Begun commands complete first (R268): one that is parked after its REPLAY, a collective by COLL_MATCH or COLL_ABORT (R288). -/
def Team.begun (t : Team) : Bool :=
  t.ectx.any (fun c => match c.queue.head? with
    | some k => k.st != .queued || k.begun != 0
    | none => false)

/-- The bytes that a team's lanes have not drained are discarded (R386). -/
def discardBytes (s : State) (uid core : Nat) : State :=
  modAgent s (.core core) (fun m =>
    let kept := m.buf.map (fun (e : Line × List BufByte) => (e.1, e.2.filter (fun b => b.team != uid)))
    { m with buf := kept.filter (fun e => !e.2.isEmpty) })

/-- The code of a fault in a completion record and an event (R374). -/
def fateCode (c : Cause) : Nat := if c = .swtrap then 1 else causeCode c

/-- The end of a team: discards, its launches not accepted, its record, its count. -/
def finishEnd (s : State) (t : Team) (f : FaultInfo) : State :=
  -- a failed die writes no records (R388)
  let d := if (dieOf s t.die).failed then 1 - t.die else t.die
  let s := discardLaunches s d t
  let s := modDie s d (fun x =>
    { x with faults := { x.faults with waiting := x.faults.waiting ++ [(s.fresh, faultRecord t f + 2 ^ 512 * t.band)] } })
  let s := { s with fresh := s.fresh + 1 }
  let s := match t.core with
    | none => s
    | some core => freeCore (discardBytes s t.uid core) t.uid core
  dropTeam (countTeam s t (fateCode f.cause)) t.uid

/-- R374: a fault, or a kill that has reached the team's YLD points, ends it once its begun commands have completed and their
writes have drained (R268). -/
def execTeamEnd (team : Nat) (s : State) : Out :=
  match findTeam s team with
  | none => .next s
  | some t =>
    match t.ending with
    | some f =>
      if t.begun then .next s
      else
        let r := ctxRelease s t
        .next (if r.2 then finishEnd r.1 t f else r.1)
    | none =>
      if t.killable then .next (endTeam s team (FaultInfo.plain .killed)) else .next s

end Sys2Proof.Machine
end

