-- ==== Sys2Proof/Machine/Evq.lean ====
section
/-! DEFINITION. Event queues, fault-record rings and interrupts (spec/16_outside.md R402, spec/17_bringup.md R421, R444). -/

namespace Sys2Proof.Machine

/-- Is a ring configured (R421, R444)? -/
def HostRing.configured (r : HostRing) : Bool := r.base != 0 && decide (4 ≤ r.lcap)
/-- Is it full? -/
def HostRing.full (r : HostRing) : Bool := (r.tail - r.head).toNat == 2 ^ r.lcap
/-- The host address of the item at TAIL. -/
def HostRing.place (r : HostRing) (size : Nat) : Nat := r.base.toNat + size * (r.tail.toNat % 2 ^ r.lcap)

/-- The item that is written next, and the ring without it: the internal buffer's oldest, else the first that waits. -/
def HostRing.takeItem (r : HostRing) : Option (Nat × HostRing) :=
  match r.buffer, r.waiting with
  | (_, x) :: b, _ => some (x, { r with buffer := b })
  | [], (_, x) :: w => some (x, { r with waiting := w })
  | [], [] => none

/-- While the ring is not configured, what waits moves into the internal buffer of 64. -/
def HostRing.holdItem (r : HostRing) : HostRing :=
  match r.waiting with
  | x :: w => if r.buffer.length < 64 then { r with buffer := r.buffer ++ [x], waiting := w } else r
  | [] => r

/-- An item goes to host memory at TAIL (R421, R444): the state, the ring and the item with its address; none when nothing is
written. -/
def ringWrite (s : State) (r : HostRing) (size : Nat) : Option (State × HostRing × Nat × Nat) :=
  if !r.configured || r.full then none
  else match r.takeItem with
    | none => none
    | some (x, r') =>
      let a := r.place size
      some ({ s with mem := putBytes s.mem (pkey 4 (a % 2 ^ 50)) (toBytes size (x % 2 ^ (8 * size))) }, { r' with tail := r'.tail + 1 }, x, a)

/-- R421. -/
def execEventEntryWrite (die : Nat) (s : State) : Out :=
  let r := (dieOf s die).events
  match ringWrite s r 16 with
  | some (s, r, _, _) => .next (modDie s die (fun d => { d with events := r }))
  | none => .next (if r.configured then s else modDie s die (fun d => { d with events := r.holdItem }))

/-- R444: the record is written, and its event entry then names its address (R374, R397). -/
def execFaultRecordWrite (die : Nat) (s : State) : Out :=
  let r := (dieOf s die).faults
  match ringWrite s r 64 with
  | some (s, r, x, a) =>
    let code := if fld x 7 0 = 17 then 1 else fld x 7 0
    .next (postEvent (modDie s die (fun d => { d with faults := r })) die
      (eventEntry 5 (x / 2 ^ 512) code (fld x 63 32) a)).1
  | none => .next (if r.configured then s else modDie s die (fun d => { d with faults := r.holdItem }))

/-- The first interrupt whose entry has been written, while the messages that the reported write caused are all acknowledged, as its
release requires (R402, R222). -/
def nextMsi (s : State) : Option Msi :=
  s.msiWait.find? (fun m =>
    let q := (dieOf s m.die).events
    !q.holds m.entry && !(m.cause != 0 && s.msgs.any (fun x => x.cause == m.cause)))

/-- R402: a vector that is masked or beyond the table sends nothing. -/
def execMsiSend (s : State) : Out :=
  match nextMsi s with
  | none => .next s
  | some m =>
    let v := tget (0, 0) s.mgmt.vectors m.vec
    let s1 := { s with msiWait := s.msiWait.erase m }
    .next (if m.vec < 2048 ∧ v.2.getLsbD 32 = false then { s1 with msiSent := s1.msiSent ++ [(v.1, lo32 v.2)] } else s1)

end Sys2Proof.Machine
end

