-- ==== Sys2Proof/Machine/Ext.lean ====
section
/-! DEFINITION. What arrives from outside, and what hardware does on its own (spec/16_outside.md R400 to R414,
spec/15_faults.md R385 to R388, spec/17_bringup.md R423): the host window, peers, datagrams, HBM, errors and power. -/

namespace Sys2Proof.Machine

-- Accesses from outside

/-- Every byte of an access from outside at its home, or the first condition met. -/
def outsideLocs (s : State) (ctx a n : Nat) (acc : Access) : Except Cause (List Loc) :=
  (List.range n).foldl (fun r i => match r with
    | .error c => .error c
    | .ok ls => match locate s ctx (a + i) acc false with
      | .error c => .error c
      | .ok l => .ok (ls ++ [l])) (.ok [])

/-- A read from outside binds from the homes. -/
def outsideRead (s : State) (ctx a n : Nat) (acc : Access := .read) : Except Cause (State × List Byte) :=
  match outsideLocs s ctx a n acc with
  | .error c => .error c
  | .ok ls =>
    if ls.any (fun l => poisoned s l.key) then .error .poison
    else .ok (ls.foldl (fun s l => touchLine (markLeaf s l false) ctx l) s, ls.map (fun l => rdByte s l.key))

/-- A write from outside drains to its homes at once, line by line. It completes once the messages that it caused are acknowledged
(R189, R222): they are noted. -/
def outsideWrite (s : State) (ctx a : Nat) (bs : List Byte) : Except Cause State :=
  match outsideLocs s ctx a bs.length .write with
  | .error c => .error c
  | .ok ls =>
    let xs := ls.zip bs
    let lines := (xs.map (fun x => x.1.key / 128)).dedup
    .ok (lines.foldl (fun s k =>
      let mine := xs.filter (fun x => x.1.key / 128 == k)
      match mine with
      | [] => s
      | x :: _ =>
        let off := (xs.idxOf x)
        let id := s.fresh
        let s := spoilRings (touchLine (markLeaf s x.1 true) ctx x.1) (128 * k)
        let s := homeWrite { s with fresh := s.fresh + 1 } ctx (lineOf ctx (a + off)) x.1
          (mine.map (fun y => (y.1.key % 128, y.2))) false id
        if s.msgs.any (fun m => m.cause == id) then { s with hostWait := s.hostWait ++ [id] } else s) s)

/-- R400: a host access through the 64 GiB window; one that faults reads all ones, writes nothing and reports itself. -/
def execHostWindowAccess (hpa : Nat) (data : Option (List Byte)) (n : Nat) (s : State) : Out :=
  let base := s.mgmt.hwBase.toNat
  if !running s ∨ hpa < base ∨ base + 2 ^ 36 < hpa + n then .next s
  else
    let a := (s.mgmt.hwDev + BitVec.ofNat 64 (hpa - base)).toNat
    match data with
    | none => match outsideRead s s.mgmt.hwCtx a n with
      | .ok r => .next { r.1 with hostData := r.2 }
      | .error _ => .next { errorEvent s 0 a with hostData := List.replicate n 0xFF }
    | some bs => match outsideWrite s s.mgmt.hwCtx a bs with
      | .ok s => .next s
      | .error _ => .next (errorEvent s 0 a)

/-- A reply to a device outside: a code of R374, 0 for none, then data. -/
def reply (s : State) (code : Nat) (bs : List Byte) : State := { s with peerReply := toBytes 1 code ++ bs }

/-- An atomic of a peer at its home (R204, R205, R405): the bytes before it are the answer. -/
def peerAtomic (s : State) (ctx a n : Nat) (k : MemKind) : State :=
  let refuse := fun (c : Cause) => reply s (causeCode c) []
  if a % n ≠ 0 then refuse .align
  else match locate s ctx a .write false with
    | .error c => refuse c
    | .ok loc =>
      if (List.range n).any (fun i => poisoned s (loc.key + i)) then refuse .poison
      else
        let old := rdBytes s loc.key n
        let w := (atomOut k old 0).write
        let s := touchLine (markLeaf s loc w.isSome) ctx loc
        reply (match w with
          | none => s
          | some new => homeWrite { s with fresh := s.fresh + 1 } ctx (lineOf ctx a) loc
              (new.mapIdx (fun i b => (loc.key % 128 + i, b))) true s.fresh) 0 old

/-- R405: a request from a peer, for HBM home `die` of this device; exact-sum cells are not served. -/
def execPeerRequest (ctx : Nat) (die off : Nat) (op : PeerOp) (s : State) : Out :=
  let a := die * 2 ^ 50 + off
  let refuse := fun (c : Cause) => Host.Outcome.next (reply s (causeCode c) [])
  if !s.mgmt.devValid ∨ 2 ≤ die ∨ 2 ^ 50 ≤ off then refuse .prot
  else match op with
    | .cell => refuse .prot
    | .load n => (match outsideRead s ctx a n with
      | .error c => refuse c
      | .ok r => .next (reply r.1 0 r.2))
    | .fetch n => (match outsideRead s ctx a n .fetch with
      | .error c => refuse c
      | .ok r => .next (reply r.1 0 r.2))
    | .store bs => (match outsideWrite s ctx a bs with
      | .error c => refuse c
      | .ok s => .next (reply s 0 []))
    | .atom op w64 v => .next (peerAtomic s ctx a (if w64 then 8 else 4) (.atom (BitVec.ofNat 64 a) op w64 v { name := .g 0, words := 1 }))
    | .acas w64 cmp new =>
      .next (peerAtomic s ctx a (if w64 then 8 else 4) (.acas (BitVec.ofNat 64 a) w64 cmp new { name := .g 0, words := 1 }))

-- Requests to a peer that get no answer (R407)

/-- Is an address at a peer? -/
def atPeer (a : Nat) : Bool := decide (0x800 ≤ homeOf a)

/-- The address of a queue entry that is a single access. -/
def MemKind.addr? : MemKind → Option Nat
  | .load a _ _ | .store a _ _ | .atom a _ _ _ _ | .acas a _ _ _ _ | .bind _ a _ | .lnch a => some a.toNat
  | _ => none

/-- A queue entry's request. What it would have merged may have merged. -/
def entryTimeout (s : State) (p : Part) (merged : Bool) : State :=
  match p.op.kind.addr? with
  | none => s
  | some a =>
    if !atPeer a then s
    else
      let loc : Loc := { key := a, leaf := none }
      let put := fun (bs : List Byte) => homeWrite s p.ctx (lineOf p.ctx a) loc (bs.mapIdx (fun i b => (a % 128 + i, b))) true 0
      let s1 := match p.op.kind with
        | .store _ bs _ => if merged then put bs else s
        | .atom _ _ w64 _ _ | .acas _ w64 _ _ _ =>
          (match (atomOut p.op.kind (rdBytes s a (if w64 then 8 else 4)) 0).write with
            | some bs => if merged then put bs else s
            | none => s)
        | _ => s
      partPoison s1 p a 1

/-- The bytes that a lane's instruction reads of an image (R393), or a team's admission of the record of handle `j` (R343). An
unanswered record leaves its handle bad and reports itself, as a poisoned one does. -/
def imageTimeout (s : State) (t : Team) (g i : Nat) : State :=
  match (t.gang g).ops.findSome? (fun o => match o.kind with
    | .crest _ a => if atPeer a.toNat then some (a.toNat, o.insn) else none
    | _ => none) with
  | some a => endTeam s t.uid { laneFault t g i .poison 1 a.1 with insn := a.2 }
  | none => s

def recordTimeout (s : State) (t : Team) (j : Nat) : State :=
  match findLaunch s t.launch with
  | none => s
  | some l =>
    let a := recHtab l.raw + 64 * j
    let started := t.gangs.any (fun g => g.lanes.any (fun x => x.live && x.pc != BitVec.ofNat 64 (recEntry l.raw)))
    if recHn l.raw ≤ j ∨ !atPeer a ∨ started then s
    else errorEvent (modTeam s t.uid (fun t => { t with handles := t.handles.modify j (fun x => { x with st := 3 }) })) t.die a

/-- The fetch of a lane's clause (`idx` 0), its read of a word that it waits on (1), the prefetch of port `idx` − 2, which holds
the fault (R253), the image that its gang's CREST reads (18), or the record of handle `idx` − 19. -/
def laneTimeout (s : State) (t : Team) (core g i idx : Nat) : State :=
  let l := (t.gang g).lane i
  if !l.live then s
  else if idx < 2 then
    match (if idx = 0 then some l.pc.toNat else (memWait l.st).map (·.1.toNat)) with
    | some a => if atPeer a then endTeam s t.uid { laneFault t g i .poison 0 a with insn := if idx = 0 then 0 else l.waitInsn } else s
    | none => s
  else if idx = 18 then imageTimeout s t g i
  else if 18 < idx then recordTimeout s t (idx - 19)
  else
    let p := idx - 2
    let b := (t.gang g).ports.getD p Port.unbound
    let pos := (tget 0 l.pos p).toNat
    let as := (fetchElem s t core l b pos).2.2
    if b.st ≠ .bound ∨ !b.isRead ∨ b.isRing ∨ l.hasPre p pos ∨ b.total ≤ pos ∨ !as.any (fun a => atPeer a.toNat) then s
    else modLane s t.uid g i (fun l => { l with pre := { port := p, pos := pos, val := 0, fault := some .poison, addrs := as } :: l.pre })

/-- The machine as a command finds it while no peer answers (R385, R407). -/
def unlinked (s : State) : State := { s with lostPorts := List.range 18 }

/-- A request of the command at the head of a context, the first that its work makes to a peer or its completion word's: the command
ends with FAULT, and what the peer would have merged may have merged. -/
def cmdTimeout (s : State) (t : Team) (e : Nat) (merged : Bool) : State :=
  match headCmd t e with
  | none => s
  | some k =>
    let stop := fun (s : State) (st : CmdSt) (a : Nat) =>
      modHead { s with fresh := s.fresh + 1 } t.uid e (fun c => { c with st := st, fault := some (cmdFault t e k .poison a) })
    match k.st with
    | .queued =>
      if !mayBegin s t e k then s
      else
        let k := k.begin_ t e s.fresh
        let w := beginWork (unlinked s) t e k
        (match w.out with
        | .stop .poison a => if atPeer (metAddr a) then
            stop { (if merged then (beginWork s t e k).s else w.s) with lostPorts := s.lostPorts } (.running 6) a else s
        | _ => s)
    | .releasing st [] => (match ctlWord k st with
        | some a => if atPeer a then
            stop (if merged then (match ctlAdd s t e a with
              | .ok y => y.1
              | .error _ => s) else s) (.releasing 6 []) (metStore a) else s
        | none => s)
    | _ => s

/-- The drain of an entry of a buffer. -/
def drainTimeout (s : State) (a : Agent) (idx : Nat) (merged : Bool) : State :=
  match (agentMem s a).buf[idx]? with
  | none => s
  | some e =>
    if !atPeer e.1.addr then s
    else
      let s1 := if merged then drainLine s a e.1 else s
      drainFault (modAgent s1 a (fun m => { m with buf := m.buf.filter (fun x => x.1 != e.1) })) a e.1 .poison e.2

/-- R407: a request to a peer has had no answer for 1 ms: the requesting team consumes poison. Of a gang, `lane` below 32 names a
queue and `idx` its entry, and 32 + i what lane position i awaits otherwise; gang 16 + e is the command of context e, 24 + e an entry of
that context's buffer, and 32 one of the core's. -/
def execPeerTimeout (team gang lane idx : Nat) (merged : Bool) (s : State) : Out :=
  if gang < 16 ∧ lane < 32 then
    match partOf s team gang lane idx with
    | none => .next s
    | some p => .next (entryTimeout s p merged)
  else match findTeam s team with
    | none => .next s
    | some t =>
      if gang < 16 then .next (match t.core with
        | some core => laneTimeout s t core gang (lane - 32) idx
        | none => s)
      else if gang < 24 then .next (cmdTimeout s t (gang - 16) merged)
      else if gang < 32 then .next (drainTimeout s (.ctx team (gang - 24)) idx merged)
      else .next (match t.core with
        | some core => drainTimeout s (.core core) idx merged
        | none => s)

/-- R406: the replay is invisible; a port that fails for good leaves the pool (R385). -/
def execFlitCrcFail (port : Nat) (retrain : Bool) (s : State) : Out :=
  .next (if retrain ∨ s.lostPorts.contains port then s else { s with lostPorts := port :: s.lostPorts })

-- Datagrams (R408, R409)

/-- The IP address of an endpoint: of an IPv4 entry, bits 95:64 alone (R409). -/
def endpointIp (x : Nat) : Nat := if fld x 49 49 = 1 then fld x 191 64 else fld x 95 64

/-- The valid endpoint of a sender. -/
def senderOf (s : State) (mac ip udp : Nat) : Option Nat :=
  (s.mgmt.endpoints.find? (fun e => e.1 != 0 && fld e.2 48 48 == 1 && fld e.2 47 0 == mac && endpointIp e.2 == ip && fld e.2 207 192 == udp)).map
    (fun e => fld e.2 215 208)

/-- R409: a datagram that fails a check, or has no valid endpoint, is dropped without a reply. -/
def execDatagramReceive (mac ip udp : Nat) (addr : Nat) (data : List Byte) (good : Bool) (s : State) : Out :=
  match senderOf s mac ip udp with
  | none => .next { s with peerReply := [] }
  | some ctx =>
    if !good then .next { s with peerReply := [] }
    else match outsideWrite s ctx addr data with
      | .error c => .next (reply s (causeCode c) [])
      | .ok s => .next (reply s 0 [])

/-- The command behind a datagram ends with FAULT, and its team takes the fate of a class (R408, R409). -/
def datagramFault (s : State) (d : Datagram) (c : Cause) : State :=
  let s := { s with datagrams := s.datagrams.filter (fun x => !(x.team == d.team && x.e == d.e)) }
  match findTeam s d.team with
  | none => s
  | some t => modHead s d.team d.e (fun k => { k with st := .running 6, fault := some (cmdFault t d.e k c (metStore d.addr.toNat)) })

/-- R408, R409. -/
def execDatagramAck (seq : Nat) (refusal : Option Nat) (s : State) : Out :=
  match s.datagrams.find? (fun d => d.seq == seq) with
  | none => .next s
  | some d => match refusal with
    | none => .next { s with datagrams := s.datagrams.filter (fun x => x.seq != seq) }
    | some code => .next (datagramFault s d (causeOf code))

/-- R408: resent after 20 µs, 64 times at most. -/
def execDatagramResend (seq : Nat) (s : State) : Out :=
  match s.datagrams.find? (fun d => d.seq == seq) with
  | none => .next s
  | some d =>
    if timeOf s < d.sentAt + 20000 then .next s
    else if 64 ≤ d.tries then .next (datagramFault s d .poison)
    else
      let again := fun (x : Datagram) => { x with tries := x.tries + 1, sentAt := timeOf s }
      .next { s with datagrams := modWhere (fun x => x.seq == seq) again s.datagrams }

-- HBM (R413, R414)

/-- R413, R387: a burst changes only timing. -/
def execHbmRecalBurst (_die _ch : Nat) (s : State) : Out := .next s

/-- The number of a row of a channel. -/
def rowKey (ch row : Nat) : Nat := row * 192 + ch

/-- R385, R414: a corrected error of a row counts. -/
def execCorrectedError (die ch row : Nat) (s : State) : Out :=
  .next (modDie s die (fun d => { d with rowErrs := tput 0 d.rowErrs (rowKey ch row) (tget 0 d.rowErrs (rowKey ch row) + 1) }))

/-- R414: a row with 16 corrected errors moves to a spare row; its data go with it. -/
def execRowRemap (die ch row : Nat) (s : State) : Out :=
  let k := rowKey ch row
  .next (modDie s die (fun d =>
    if tget 0 d.rowErrs k < 16 then d else { d with rowErrs := tput 0 d.rowErrs k 0, remapped := k :: d.remapped }))

/-- R414: the table is loaded from its copy; with the copy bad too, the channel fails. -/
def execRemapTableReload (die ch : Nat) (copyBad : Bool) (s : State) : Out :=
  .next (if !copyBad ∨ (dieOf s die).failedCh.contains ch then s
    else errorEvent (modDie s die (fun d => { d with failedCh := ch :: d.failedCh })) die ch)

-- Errors (R385, R388)

/-- POISON in a team at the team level. -/
def teamPoison (s : State) (uid : Nat) : State := endTeam s uid (FaultInfo.plain .poison)

/-- Clean copies of a line are fetched again from its home (R385): what a slice or a cache below it holds clean is what the home
holds, and a snapshot copy becomes so; one that cannot be fetched goes. -/
def refetch (s : State) (l : Line) : State :=
  (allAgents s).foldl (fun s a =>
    if ((agentMem s a).copy l).isNone then s
    else
      let s := modAgent s a (fun m => m.dropCopy l)
      match locate s l.ctx l.addr .read false with
      | .error _ => s
      | .ok loc => fillLine s a l loc true) s

/-- R385. -/
def execUncorrectableError (x : Struct) (s : State) : Out :=
  .next (match x with
    | .regs t => teamPoison s t
    | .cleanLine l => refetch s l
    | .buffer a l =>
      let s := ((agentMem s a).entry l).foldl (fun s b => teamPoison s b.team) s
      (match a with
        | .ctx u _ => if (agentMem s a).entry l = [] then s else teamPoison s u
        | .core _ => s)
    | .piece p => { s with poison := if s.poison.contains p then s.poison else p :: s.poison }
    | .directory l gs => directoryLost s l gs
    | .matrix c => { s with badArrays := if s.badArrays.contains c then s.badArrays else c :: s.badArrays }
    | .link t => teamPoison s t)

/-- Is a line's home on a die? -/
def onDie (die : Nat) (l : Line) : Bool := decide (homeOf l.addr < 4) && homeOf l.addr % 2 == die

/-- R388. -/
def execDieLoss (die : Nat) (s : State) : Out :=
  if 2 ≤ die ∨ (dieOf s die).failed then .next s
  else
    let ends := s.teams.filter (fun t => t.homes.any (fun h => h < 4 && h % 2 == die) || (t.core.any (fun c => coreDie c == die)))
    let s := modDie s die (fun d => { d with failed := true })
    let s := (allAgents s).foldl (fun s a => modAgent s a (fun m =>
      { m with buf := m.buf.filter (fun e => !onDie die e.1), acks := m.acks.filter (fun x => !onDie die x.2) })) s
    let s := { s with
      cores := s.cores.map (fun c => { c with regions := c.regions.filter (fun r => !onDie die r.line),
                                              sub := c.sub.filter (fun x => !onDie die x.line) }),
      dir := s.dir.filter (fun d => !onDie die d.line),
      msgs := s.msgs.filter (fun m => !onDie die m.line && coreDie m.core != die),
      mgmt := { s.mgmt with needDegrade := true } }
    .next (ends.foldl (fun s t => endTeam s t.uid (FaultInfo.plain .homelost)) s)

-- Power (R423)

/-- CUR is the slowest of REQ, the cap's point and the thermal point; THERM says what holds it above REQ. -/
def setPoint (m : Mgmt) : Mgmt :=
  { m with perfCur := max m.perfReq (max m.capPoint m.thermPoint), throt := decide (m.perfReq < m.thermPoint),
           capped := decide (m.perfReq < m.capPoint) }

/-- R423: the draw exceeds CAP; the cap requires a slower point. -/
def execPowerCapExcess (point : Nat) (s : State) : Out :=
  .next (if s.mgmt.perfCur < point ∧ point < 4 then { s with mgmt := setPoint { s.mgmt with capPoint := point } } else s)

/-- R423: the draw at a faster point stays within CAP. -/
def execPowerCapWithin (point : Nat) (s : State) : Out :=
  .next (if point < s.mgmt.capPoint then { s with mgmt := setPoint { s.mgmt with capPoint := point } } else s)

/-- R423: a junction exceeds 105 °C. -/
def execThermalLimit (point temp : Nat) (s : State) : Out :=
  .next (if 105 < temp ∧ temp < 256 ∧ point < 4 then
    { s with mgmt := setPoint { s.mgmt with thermPoint := max s.mgmt.thermPoint point, temp := temp } } else s)

/-- R423. -/
def execThermalLimitEnd (s : State) : Out :=
  .next { s with mgmt := setPoint { s.mgmt with thermPoint := 0, temp := min s.mgmt.temp 105 } }

-- Time stamps (R410)

/-- R410. -/
def execIeee1588EventMessage (port : Nat) (egress : Bool) (s : State) : Out :=
  .next { s with ptp := s.ptp ++ [(port, egress, timeOf s)] }

end Sys2Proof.Machine
end

