-- ==== Sys2Proof/Machine/Int.lean ====
section
/-! DEFINITION. Integer, address and predicate instructions (spec/05_integer.md R106 to R132). -/

namespace Sys2Proof.Machine

-- Computations

/-- An exact result brought to 32 bits (R116): `es` from signed operands, `en` from unsigned ones. -/
def intRes (t : Sat) (es en : Int) : Word :=
  match t with
  | .wrap => wrap32 en
  | .ssat => satS 32 es
  | .nsat => satN 32 en

/-- The same for 64 bits (R119). -/
def intRes64 (t : Sat) (es en : Int) : DWord :=
  match t with
  | .wrap => wrap64 en
  | .ssat => satS 64 es
  | .nsat => satN 64 en

/-- A signed or unsigned reading (R108). -/
def rdInt {w : Nat} (t : Sgn) (x : BitVec w) : Int :=
  match t with
  | .s => x.toInt
  | .n => x.toNat

/-- Quotient and remainder of W-bit integers (R120). -/
def divRem (w : Nat) (sg : Bool) (a b : BitVec w) : BitVec w × BitVec w :=
  if b = 0 then (BitVec.allOnes w, a)
  else if sg ∧ a = BitVec.ofInt w (-(2 ^ (w - 1) : Nat)) ∧ b = BitVec.allOnes w then (a, 0)
  else
    let x : Int := if sg then a.toInt else a.toNat
    let y : Int := if sg then b.toInt else b.toNat
    let q := Int.tdiv x y
    (BitVec.ofInt w q, BitVec.ofInt w (x - q * y))

/-- −a or |a| of R121. -/
def negRes (w : Nat) (sat : Bool) (v : Int) : BitVec w := if sat then satS w v else BitVec.ofInt w v

/-- Is the type 64 bits wide? -/
def ity64 : ITy → Bool
  | .s64 | .n64 => true
  | _ => false
def itySg : ITy → Bool
  | .s32 | .s64 => true
  | _ => false
def neg64 : NegTy → Bool
  | .s64 | .s64sat => true
  | _ => false
def negSat : NegTy → Bool
  | .s32sat | .s64sat => true
  | _ => false

/-- The integer that a value of a type is (R112). -/
def tyVal (t : ITy) (x : LaneIn) (i : Nat) : Int :=
  match t with
  | .s32 => (x.w i).toInt
  | .n32 => (x.w i).toNat
  | .s64 => (x.d i).toInt
  | .n64 => (x.d i).toNat

/-- A result of 32 or 64 bits. -/
def outW (w64 : Bool) (v : DWord) : LaneOut := if w64 then .dword v else .word (lo32 v)

/-- Rotate left (R124). -/
def rotl {w : Nat} (a : BitVec w) (n : Nat) : BitVec w := a.rotateLeft (n % w)

/-- SHL, SHR, SAR and ROT on W bits with any count (R124). -/
inductive ShiftOp
  | shl | shr | sar | rot
deriving DecidableEq, Repr

def shiftRes {w : Nat} (o : ShiftOp) (a : BitVec w) (n : Nat) : BitVec w :=
  match o with
  | .shl => if w ≤ n then 0 else a <<< n
  | .shr => if w ≤ n then 0 else a >>> n
  | .sar => a.sshiftRight (min n w)
  | .rot => rotl a n

/-- BFX (R126). -/
def bfxRes (t : Sgn) (a f : Word) : Word :=
  let pos := fld f.toNat 7 0
  let len := fld f.toNat 15 8
  if 32 ≤ pos ∨ len = 0 then 0
  else
    let e := min len (32 - pos)
    let v := fld a.toNat (pos + e - 1) pos
    match t with
    | .n => BitVec.ofNat 32 v
    | .s => BitVec.ofInt 32 (sext e v)

/-- BFI (R126). -/
def bfiRes (ins base f : Word) : Word :=
  let pos := fld f.toNat 7 0
  let len := fld f.toNat 15 8
  if 32 ≤ pos ∨ len = 0 then base
  else
    let e := min len (32 - pos)
    let m : Word := BitVec.ofNat 32 ((2 ^ e - 1) * 2 ^ pos)
    (base &&& ~~~m) ||| ((ins <<< pos) &&& m)

/-- The number of one bits below bit `n`. -/
def popCount (x : Nat) : Nat → Nat
  | 0 => 0
  | n + 1 => popCount x n + (if x.testBit n then 1 else 0)

/-- Zero bits above the highest one bit of a W-bit value (R127). -/
def clzRes (w x : Nat) : Nat := if x = 0 then w else w - 1 - Nat.log2 x

/-- Zero bits below the lowest one bit, counted from bit `k` on. -/
def ctzFrom (x : Nat) : Nat → Nat → Nat
  | 0, k => k
  | n + 1, k => if x.testBit k then k else ctzFrom x n (k + 1)

def ctzRes (w x : Nat) : Nat := ctzFrom x w 0

/-- Bit i moves to bit W − 1 − i (R127). -/
def brevRes (w x : Nat) : Nat := (List.range w).foldl (fun a i => if x.testBit i then a + 2 ^ (w - 1 - i) else a) 0

/-- A bit of a truth table (R123, R131). -/
def tblBit (tbl : Nat) (a b d : Bool) : Bool :=
  tbl.testBit ((if a then 4 else 0) + (if b then 2 else 0) + (if d then 1 else 0))

/-- LOGT bit by bit (R123). -/
def logtRes (tbl : Nat) (a b d : Word) : Word :=
  BitVec.ofNat 32 ((List.range 32).foldl (fun v i =>
    if tblBit tbl (a.getLsbD i) (b.getLsbD i) (d.getLsbD i) then v + 2 ^ i else v) 0)

/-- a cond b (R129). -/
def icmpRes (k : ICond) (a b : Int) (x y : DWord) : Bool :=
  match k with
  | .eq => decide (a = b)
  | .ne => decide (a ≠ b)
  | .lt => decide (a < b)
  | .le => decide (a ≤ b)
  | .gt => decide (b < a)
  | .ge => decide (b ≤ a)
  | .tst => x &&& y != 0

/-- The bits of a value of 32 or 64 bits, the upper ones zero. -/
def rawVal (w64 : Bool) (x : LaneIn) (i : Nat) : DWord := if w64 then x.d i else (x.w i).setWidth 64

/-- A 32-bit immediate. -/
def imm32 (i : Int) : Word := BitVec.ofInt 32 i

/-- The register file part of a fixed-latency instruction of this chapter: latency 2 (R106). -/
def intAlu (srcs : List Opnd) (d : Option Dst) (f : LaneIn → LaneOut) : Alu :=
  { front := { srcs := srcs, dst := d }, lat := 2, run := perLane f }

-- Moves

/-- R114. -/
def execMov (c : Common) (d a : Name) (w64 : Bool) (s : State) : Out :=
  execAlu c (intAlu [oW w64 a] (dW w64 d) (fun x => { regs := x.vals.getD 0 [] })) s

/-- R114, immediate form. -/
def execMovImm (c : Common) (d : Name) (imm : Int) (s : State) : Out :=
  execAlu c (intAlu [] (d1 d) (fun _ => .word (imm32 imm))) s

/-- R115. -/
def execMovk (c : Common) (d : Name) (k : Nat) (hi z : Bool) (s : State) : Out :=
  execAlu c { front := { dst := d1 d, readsDst := !z }, lat := 2, run := perLane (fun x =>
    let old : Nat := if z then 0 else (x.old.getD 0 0).toNat
    .word (BitVec.ofNat 32 (if hi then k * 65536 + old % 65536 else old / 65536 * 65536 + k))) } s

-- Arithmetic

/-- R116. -/
def execIadd (c : Common) (d a b : Name) (t : Sat) (s : State) : Out :=
  execAlu c (intAlu [o1 a, o1 b] (d1 d) (fun x =>
    .word (intRes t ((x.w 0).toInt + (x.w 1).toInt) ((x.w 0).toNat + (x.w 1).toNat)))) s

/-- R116, immediate form. -/
def execIaddImm (c : Common) (d a : Name) (imm : Int) (s : State) : Out :=
  execAlu c (intAlu [o1 a] (d1 d) (fun x => .word (x.w 0 + imm32 imm))) s

/-- R116. -/
def execIsub (c : Common) (d a b : Name) (t : Sat) (s : State) : Out :=
  execAlu c (intAlu [o1 a, o1 b] (d1 d) (fun x =>
    .word (intRes t ((x.w 0).toInt - (x.w 1).toInt) (((x.w 0).toNat : Int) - (x.w 1).toNat)))) s

/-- R116, immediate form. -/
def execIsubImm (c : Common) (d a : Name) (imm : Int) (s : State) : Out :=
  execAlu c (intAlu [o1 a] (d1 d) (fun x => .word (x.w 0 - imm32 imm))) s

/-- R116. -/
def execImul (c : Common) (d a b : Name) (t : Sat) (s : State) : Out :=
  execAlu c (intAlu [o1 a, o1 b] (d1 d) (fun x =>
    .word (intRes t ((x.w 0).toInt * (x.w 1).toInt) ((x.w 0).toNat * (x.w 1).toNat)))) s

/-- R116, immediate form. -/
def execImulImm (c : Common) (d a : Name) (imm : Int) (s : State) : Out :=
  execAlu c (intAlu [o1 a] (d1 d) (fun x => .word (x.w 0 * imm32 imm))) s

/-- R117. -/
def execImulh (c : Common) (d a b : Name) (t : Sgn) (s : State) : Out :=
  execAlu c (intAlu [o1 a, o1 b] (d1 d) (fun x => .word (hi32 (wrap64 (rdInt t (x.w 0) * rdInt t (x.w 1)))))) s

/-- R118. -/
def execImad (c : Common) (d a b x : Name) (t : Sat) (s : State) : Out :=
  execAlu c (intAlu [o1 a, o1 b, o1 x] (d1 d) (fun v =>
    .word (intRes t ((v.w 0).toInt * (v.w 1).toInt + (v.w 2).toInt)
      ((v.w 0).toNat * (v.w 1).toNat + (v.w 2).toNat)))) s

/-- R118. -/
def execImadw (c : Common) (d a b x : Name) (t : Sgn) (s : State) : Out :=
  execAlu c (intAlu [o1 a, o1 b, o2 x] (d2 d) (fun v =>
    .dword (wrap64 (rdInt t (v.w 0) * rdInt t (v.w 1) + (v.d 2).toNat)))) s

/-- R119. -/
def execIadd64 (c : Common) (d a b : Name) (t : Sat) (s : State) : Out :=
  execAlu c (intAlu [o2 a, o2 b] (d2 d) (fun x =>
    .dword (intRes64 t ((x.d 0).toInt + (x.d 1).toInt) ((x.d 0).toNat + (x.d 1).toNat)))) s

/-- R119. -/
def execIsub64 (c : Common) (d a b : Name) (t : Sat) (s : State) : Out :=
  execAlu c (intAlu [o2 a, o2 b] (d2 d) (fun x =>
    .dword (intRes64 t ((x.d 0).toInt - (x.d 1).toInt) (((x.d 0).toNat : Int) - (x.d 1).toNat)))) s

/-- IDIV and IREM share their division (R120). -/
def divOut (t : ITy) (rem : Bool) (x : LaneIn) : LaneOut :=
  if ity64 t then
    let r := divRem 64 (itySg t) (x.d 0) (x.d 1)
    .dword (if rem then r.2 else r.1)
  else
    let r := divRem 32 (itySg t) (x.w 0) (x.w 1)
    .word (if rem then r.2 else r.1)

/-- R120. -/
def execIdiv (c : Common) (d a b : Name) (t : ITy) (s : State) : Out :=
  execValue c { srcs := [oW (ity64 t) a, oW (ity64 t) b], dst := dW (ity64 t) d } false (fun _ => none) (perLane (divOut t false)) s

/-- R120. -/
def execIrem (c : Common) (d a b : Name) (t : ITy) (s : State) : Out :=
  execValue c { srcs := [oW (ity64 t) a, oW (ity64 t) b], dst := dW (ity64 t) d } false (fun _ => none) (perLane (divOut t true)) s

/-- R121. -/
def execIneg (c : Common) (d a : Name) (t : NegTy) (s : State) : Out :=
  execAlu c (intAlu [oW (neg64 t) a] (dW (neg64 t) d) (fun x =>
    if neg64 t then .dword (negRes 64 (negSat t) (-(x.d 0).toInt)) else .word (negRes 32 (negSat t) (-(x.w 0).toInt)))) s

/-- R121. -/
def execIabs (c : Common) (d a : Name) (t : NegTy) (s : State) : Out :=
  execAlu c (intAlu [oW (neg64 t) a] (dW (neg64 t) d) (fun x =>
    if neg64 t then .dword (negRes 64 (negSat t) (x.d 0).toInt.natAbs) else .word (negRes 32 (negSat t) (x.w 0).toInt.natAbs))) s

/-- R122: `gt` picks the larger. -/
def minMax (t : ITy) (gt : Bool) (x : LaneIn) : LaneOut :=
  let first := if gt then decide (tyVal t x 1 ≤ tyVal t x 0) else decide (tyVal t x 0 ≤ tyVal t x 1)
  outW (ity64 t) (rawVal (ity64 t) x (if first then 0 else 1))

/-- R122. -/
def execImin (c : Common) (d a b : Name) (t : ITy) (s : State) : Out :=
  execAlu c (intAlu [oW (ity64 t) a, oW (ity64 t) b] (dW (ity64 t) d) (minMax t false)) s

/-- R122, immediate form (.s32). -/
def execIminImm (c : Common) (d a : Name) (imm : Int) (s : State) : Out :=
  execAlu c (intAlu [o1 a] (d1 d) (fun x => .word (if (x.w 0).toInt ≤ (imm32 imm).toInt then x.w 0 else imm32 imm))) s

/-- R122. -/
def execImax (c : Common) (d a b : Name) (t : ITy) (s : State) : Out :=
  execAlu c (intAlu [oW (ity64 t) a, oW (ity64 t) b] (dW (ity64 t) d) (minMax t true)) s

/-- R122, immediate form (.s32). -/
def execImaxImm (c : Common) (d a : Name) (imm : Int) (s : State) : Out :=
  execAlu c (intAlu [o1 a] (d1 d) (fun x => .word (if (imm32 imm).toInt ≤ (x.w 0).toInt then x.w 0 else imm32 imm))) s

-- Bit operations

/-- R123. -/
def execLogt (c : Common) (d a b : Name) (tbl : Nat) (s : State) : Out :=
  execAlu c { front := { srcs := [o1 a, o1 b], dst := d1 d, readsDst := true }, lat := 2, run := perLane (fun x =>
    .word (logtRes tbl (x.w 0) (x.w 1) (x.old.getD 0 0))) } s

/-- The shape of a shift by a register count (R124). -/
def shiftAlu (o : ShiftOp) (d a n : Name) (w64 : Bool) : Alu :=
  intAlu [oW w64 a, o1 n] (dW w64 d) (fun x =>
    if w64 then .dword (shiftRes o (x.d 0) (x.w 1).toNat) else .word (shiftRes o (x.w 0) (x.w 1).toNat))

/-- The shape of a shift by an immediate count (R124). -/
def shiftImmAlu (o : ShiftOp) (d a : Name) (imm : Nat) : Alu :=
  intAlu [o1 a] (d1 d) (fun x => .word (shiftRes o (x.w 0) imm))

/-- R124. -/
def execShl (c : Common) (d a n : Name) (w64 : Bool) (s : State) : Out := execAlu c (shiftAlu .shl d a n w64) s
/-- R124, immediate form. -/
def execShlImm (c : Common) (d a : Name) (imm : Nat) (s : State) : Out := execAlu c (shiftImmAlu .shl d a imm) s
/-- R124. -/
def execShr (c : Common) (d a n : Name) (w64 : Bool) (s : State) : Out := execAlu c (shiftAlu .shr d a n w64) s
/-- R124, immediate form. -/
def execShrImm (c : Common) (d a : Name) (imm : Nat) (s : State) : Out := execAlu c (shiftImmAlu .shr d a imm) s
/-- R124. -/
def execSar (c : Common) (d a n : Name) (w64 : Bool) (s : State) : Out := execAlu c (shiftAlu .sar d a n w64) s
/-- R124, immediate form. -/
def execSarImm (c : Common) (d a : Name) (imm : Nat) (s : State) : Out := execAlu c (shiftImmAlu .sar d a imm) s
/-- R124. -/
def execRot (c : Common) (d a n : Name) (w64 : Bool) (s : State) : Out := execAlu c (shiftAlu .rot d a n w64) s
/-- R124, immediate form. -/
def execRotImm (c : Common) (d a : Name) (imm : Nat) (s : State) : Out := execAlu c (shiftImmAlu .rot d a imm) s

/-- R125. -/
def execFunl (c : Common) (d lo hi n : Name) (left : Bool) (s : State) : Out :=
  execAlu c (intAlu [o1 lo, o1 hi, o1 n] (d1 d) (fun x =>
    let v := pair (x.w 0) (x.w 1)
    let n := min (x.w 2).toNat 32
    .word (if left then hi32 (v <<< n) else lo32 (v >>> n)))) s

/-- R126. -/
def execBfx (c : Common) (d a f : Name) (t : Sgn) (s : State) : Out :=
  execAlu c (intAlu [o1 a, o1 f] (d1 d) (fun x => .word (bfxRes t (x.w 0) (x.w 1)))) s

/-- R126. -/
def execBfi (c : Common) (d ins base f : Name) (s : State) : Out :=
  execAlu c (intAlu [o1 ins, o1 base, o1 f] (d1 d) (fun x => .word (bfiRes (x.w 0) (x.w 1) (x.w 2)))) s

/-- Width in bits of a .b32 or .b64 operand. -/
def widthOf (w64 : Bool) : Nat := if w64 then 64 else 32

/-- R127. -/
def execPopc (c : Common) (d a : Name) (w64 : Bool) (s : State) : Out :=
  execAlu c (intAlu [oW w64 a] (d1 d) (fun x => .word (BitVec.ofNat 32 (popCount (rawVal w64 x 0).toNat 64)))) s

/-- R127. -/
def execClz (c : Common) (d a : Name) (w64 : Bool) (s : State) : Out :=
  execAlu c (intAlu [oW w64 a] (d1 d) (fun x => .word (BitVec.ofNat 32 (clzRes (widthOf w64) (rawVal w64 x 0).toNat)))) s

/-- R127. -/
def execCtz (c : Common) (d a : Name) (w64 : Bool) (s : State) : Out :=
  execAlu c (intAlu [oW w64 a] (d1 d) (fun x => .word (BitVec.ofNat 32 (ctzRes (widthOf w64) (rawVal w64 x 0).toNat)))) s

/-- R127. -/
def execBrev (c : Common) (d a : Name) (w64 : Bool) (s : State) : Out :=
  execAlu c (intAlu [oW w64 a] (dW w64 d) (fun x =>
    outW w64 (BitVec.ofNat 64 (brevRes (widthOf w64) (rawVal w64 x 0).toNat)))) s

-- Addresses

/-- R128. -/
def execLea (c : Common) (d base idx off : Name) (scale : Nat) (t : Sgn) (s : State) : Out :=
  execAlu c (intAlu [o2 base, o1 idx, o1 off] (d2 d) (fun x =>
    .dword (wrap64 ((x.d 0).toNat + rdInt t (x.w 1) * scale + (x.w 2).toInt)))) s

-- Compares and predicates

/-- R129. -/
def execIcmp (c : Common) (pd : Nat) (a b : Name) (cond : ICond) (t : ITy) (s : State) : Out :=
  execAlu c (intAlu [oW (ity64 t) a, oW (ity64 t) b] none (fun x =>
    .pred pd (icmpRes cond (tyVal t x 0) (tyVal t x 1) (rawVal (ity64 t) x 0) (rawVal (ity64 t) x 1)))) s

/-- R130. -/
def execSel (c : Common) (d a b : Name) (ps : Nat) (inv w64 : Bool) (s : State) : Out :=
  execAlu c { front := { srcs := [oW w64 a, oW w64 b], dst := dW w64 d, psrc := [ps], perLane := true }, lat := 2,
              run := perLane (fun x => { regs := x.vals.getD (if x.lane.pred ps != inv then 0 else 1) [] }) } s

/-- R131. -/
def execPlog (c : Common) (pd pa pb tbl : Nat) (s : State) : Out :=
  execAlu c { front := { psrc := [pa, pb, pd] }, lat := 2, run := perLane (fun x =>
    .pred pd (tblBit tbl (x.lane.pred pa) (x.lane.pred pb) (x.lane.pred pd))) } s

/-- The predicates of a bank (R132). -/
def bankPreds (bank : Nat) : List Nat := (List.range 32).map (fun i => 32 * bank + i)

/-- R132. -/
def execPrd (c : Common) (d : Name) (bank : Nat) (s : State) : Out :=
  execAlu c { front := { dst := d1 d, psrc := bankPreds bank, perLane := true }, lat := 2, run := perLane (fun x =>
    .word ((x.lane.preds >>> (32 * bank)).setWidth 32)) } s

/-- R132. -/
def execPwr (c : Common) (a m : Name) (bank : Nat) (s : State) : Out :=
  execAlu c (intAlu [o1 a, o1 m] none (fun x =>
    { preds := (List.range 32).filterMap (fun i =>
        if (x.w 1).getLsbD i then some (32 * bank + i, (x.w 0).getLsbD i) else none) })) s

end Sys2Proof.Machine
end

