-- ==== Sys2Proof/Machine/Mgt.lean ====
section
/-! DEFINITION. Reset, boot and the management space (spec/17_bringup.md R417 to R423, with the registers of spec/14_launch.md,
spec/15_faults.md and spec/16_outside.md). Until the firmware runs every write is ignored (R417). -/

namespace Sys2Proof.Machine

/-- A write that the management space takes once the firmware runs (R417, R418). -/
def whenRunning (s : State) (f : State → State) : Out := .next (if running s then f s else s)

def setMgmt (s : State) (f : Mgmt → Mgmt) : State := { s with mgmt := f s.mgmt }

-- Reset and boot (R417)

/-- Every register takes its reset state. The stored bytes, their poison and their key tags stay, and so do the model's own
two fields (log entries 1 and 8). -/
def execReset (s : State) : Out :=
  .next { State.reset with mem := s.mem, poison := s.poison, pieceKey := s.pieceKey, agenda := s.agenda, fresh := s.fresh }

/-- A boot ROM gives its verdict: 0 passes, 1 to 4 are BOOTST.FAIL (R419). -/
def execBootVerify (die : Nat) (verdict : Nat) (s : State) : Out :=
  if s.mgmt.bootst = 2 ∨ s.mgmt.bootst = 3 ∨ s.mgmt.bootst = 4 ∨ 2 ≤ die ∨ 5 ≤ verdict then .next s
  else if verdict ≠ 0 then .next (setMgmt s (fun m => { m with bootst := 3, bootFail := verdict }))
  else .next (setMgmt s (fun m =>
    let ok := m.bootOk.set die true
    { m with bootOk := ok, bootst := if ok.all id then 2 else 1 }))

-- The partition (R14, R15)

/-- A write of the setting: held until no team is resident; the launches accepted from its first write on wait (log entry 102). -/
def writePartition (v : DWord) (s : State) : State :=
  let n := fld v.toNat 2 0
  if 4 < n then s
  else setMgmt s (fun m => { m with partPending := some n, partSince := if m.partPending.isSome then m.partSince else s.fresh })

def execPartitionWrite (v : DWord) (s : State) : Out := whenRunning s (writePartition v)

/-- R15: with no team left, on a core or away, every dirty line is written back, all Pewter is zeroed, as one write to each line,
and the split changes. -/
def execPartitionApply (s : State) : Out :=
  match s.mgmt.partPending with
  | none => .next s
  | some n =>
    if !s.teams.isEmpty then .next s
    else
      let pewter := fun (k : Nat) => homeOf k == 2 || homeOf k == 3
      let s := s.dirty.foldl (fun s e => writeBackLine s e.1) s
      .next { s with mem := s.mem.filter (fun e => !pewter e.1)
                     poison := s.poison.filter (fun p => !pewter (64 * p))
                     zeroed := max s.mgmt.partition n * 2 ^ 25 :: s.zeroed
                     slotsOut := []
                     rings := []
                     broken := []
                     mgmt := { s.mgmt with partition := n, partPending := none } }

-- Command chains (R345, R346)

def modChain (s : State) (k : Nat) (f : Chain → Chain) : State := { s with chains := s.chains.modify k f }

/-- A write of the word that holds LCAP, DIE, EN, ERR and TAIL. -/
def chainWord (valid : Bool) (v : Nat) (c : Chain) : Chain :=
  let en := fld v 6 6 == 1
  let c := { c with tail := BitVec.ofNat 32 (fld v 63 32), err := c.err && fld v 7 7 == 0 }
  if c.en then { c with en := en }
  else
    let c := { c with lcap := fld v 4 0, die := fld v 5 5 }
    if en ∧ valid ∧ c.lcap ≤ 16 then
      { c with en := true, head := c.tail, start := c.tail, epoch := c.epoch + 1, count := 0, done := [], tl := 0, hit := [] }
    else c

/-- An engine that waits for entries for the chain's record waits no longer once the chain is disabled (R348). -/
def writeChain (k : Nat) (v : DWord) (s : State) : State :=
  let s := modChain s k (chainWord s.mgmt.devValid v.toNat)
  if (s.chains.getD k Chain.reset).en then s else dropStall s (.host k)

/-- R345. -/
def execChainEnable (chain : Nat) (v : DWord) (s : State) : Out := whenRunning s (writeChain chain v)
/-- R346: the same word holds TAIL. -/
def execChainTailWrite (chain : Nat) (v : DWord) (s : State) : Out := whenRunning s (writeChain chain v)
/-- R345: the same word holds ERR. -/
def execChainErrClear (chain : Nat) (v : DWord) (s : State) : Out := whenRunning s (writeChain chain v)

-- The time-triggered table (R362, R411)

def modTimed (s : State) (j : Nat) (f : Timed → Timed) : State := { s with timed := s.timed.modify j f }

/-- A write of the word that holds EN, MODE and OVR. Slots before the enabling are not started. -/
def timedWord (now v : Nat) (e : Timed) : Timed :=
  let en := fld v 0 0 == 1 && (e.en || (decide (10000 ≤ e.period) && decide (e.phase < e.period)))
  let e := if en ∧ !e.en then { e with floor := now, resubmit := false, stalled := false } else e
  { e with en := en, mode := fld v 1 1 == 1, ovr := fld v 63 32 }

def writeTimed (j : Nat) (v : DWord) (s : State) : State :=
  let s := modTimed s j (timedWord (timeOf s) v.toNat)
  if (s.timed.getD j Timed.reset).en then s else dropStall s (.timed j)

/-- R362. -/
def execTimedEntryEnable (entry : Nat) (v : DWord) (s : State) : Out := whenRunning s (writeTimed entry v)
/-- R362: the same word holds OVR. -/
def execOvrWrite (entry : Nat) (v : DWord) (s : State) : Out := whenRunning s (writeTimed entry v)

-- The kill register and debug (R420)

/-- The launches and the status of a kill. -/
def killTargets (s : State) (v : Nat) : List Nat × Nat :=
  match fld v 1 0 with
  | 1 =>
    let k := fld v 5 2
    let no := fld v 63 32
    let c := s.chains.getD k Chain.reset
    (match s.launches.find? (fun l => l.chain == .host k && l.no % 2 ^ 32 == no && l.epoch == c.epoch) with
      | some l => ([l.id], 0)
      | none => ([], if (1 ≤ no ∧ no ≤ c.count) ∨ 2 ^ 32 ≤ c.count then 2 else 1))
  | 2 =>
    let ids := (s.launches.filter (fun l => l.ctx == fld v 13 6)).map (·.id)
    (ids, if ids.isEmpty && !s.teams.any (fun t => t.ctx == fld v 13 6) then 1 else 0)
  | 3 =>
    (match (s.timed.getD (fld v 19 14) Timed.reset).started with
      | none => ([], 1)
      | some id => if (findLaunch s id).isSome then ([id], 0) else ([], 2))
  | _ => ([], 0)

/-- A write of the kill register with an OP: the affected teams end at their YLD points, and BUSY stands until they have
ended. OP 2 discards at once the launches of the context that are not yet accepted. -/
def writeKill (v : DWord) (s : State) : State :=
  let keep := setMgmt s (fun m => { m with killReg := BitVec.ofNat 64 (v.toNat / 4 % 2 ^ 18 * 4 + v.toNat / 2 ^ 32 * 2 ^ 32) })
  if s.mgmt.killBusy ∨ fld v.toNat 1 0 = 0 then keep
  else
    let x := killTargets s v.toNat
    let s1 := x.1.foldl (killLaunch true) keep
    let ctx := fld v.toNat 1 0 == 2
    let s1 := if ctx then
        let mine := s1.teams.filter (fun t => t.ctx == fld v.toNat 13 6)
        let s1 := mine.foldl (fun s t => discardLaunches s t.die t) s1
        { s1 with teams := s1.teams.map (fun t => if t.ctx = fld v.toNat 13 6 then t.kill else t) }
      else s1
    let wait := (s1.teams.filter (fun t => x.1.contains t.launch || (ctx && t.ctx == fld v.toNat 13 6))).map (·.uid)
    setMgmt s1 (fun m => { m with killStatus := x.2, killWait := wait, killBusy := !wait.isEmpty })

/-- R420, OP 1. -/
def execKillLaunch (v : DWord) (s : State) : Out :=
  if fld v.toNat 1 0 = 1 then whenRunning s (writeKill v) else .next s
/-- R420, OP 2. -/
def execKillContext (v : DWord) (s : State) : Out :=
  if fld v.toNat 1 0 = 2 then whenRunning s (writeKill v) else .next s
/-- R420, OP 3. -/
def execKillEntry (v : DWord) (s : State) : Out :=
  if fld v.toNat 1 0 = 3 then whenRunning s (writeKill v) else .next s

/-- A write of the debug-control register: EN, and the dies that resume. -/
def writeDebug (v : DWord) (s : State) : State :=
  let s := setMgmt s (fun m => { m with dbgEn := v.getLsbD 0 })
  { s with dies := s.dies.mapIdx (fun d x => if v.getLsbD (1 + d) then { x with halted := false } else x) }

/-- R420. -/
def execDebugResume (v : DWord) (s : State) : Out := whenRunning s (writeDebug v)

/-- R388: after the loss of a die, 1 goes on in one-die mode. -/
def writeDegrade (v : DWord) (s : State) : State :=
  setMgmt s (fun m =>
    let m := { m with degrade := fld v.toNat 0 0 }
    if m.needDegrade ∧ v.getLsbD 0 then { m with degraded := true, needDegrade := false, bootst := 4 } else m)

/-- R388. -/
def execDegradeWrite (v : DWord) (s : State) : Out := whenRunning s (writeDegrade v)

-- Identity in the domain and keys (R404, R405)

/-- R405. -/
def writeDevice (v : DWord) (s : State) : State :=
  if s.chains.any (·.en) ∨ s.teams.any (fun t => t.core.isSome) then s
  else
    let n := fld v.toNat 8 0
    let d := fld v.toNat 19 10
    setMgmt s (fun m => { m with devNum := n, dsize := d, devValid := v.getLsbD 9 && decide (1 ≤ d ∧ d ≤ 512 ∧ n < d) })

def execDeviceNumberWrite (v : DWord) (s : State) : Out := whenRunning s (writeDevice v)

/-- A write of the key-control register: an operation starts unless one is in progress, or it is refused. -/
def writeKeyCtl (v : DWord) (s : State) : State :=
  if s.mgmt.keyBusy then s
  else
    let ctx := fld v.toNat 7 0
    let op := fld v.toNat 9 8
    let s := setMgmt s (fun m => { m with keyCtl := ctx })
    if op = 0 ∨ op = 3 then s
    else if s.teams.any (fun t => t.ctx == ctx) then setMgmt s (fun m => { m with keyStatus := 1 })
    else if op = 2 ∧ !s.mgmt.keys.contains ctx then setMgmt s (fun m => { m with keyStatus := 2 })
    else setMgmt s (fun m => { m with keyBusy := true, keyOp := op })

/-- R404, OP 1. -/
def execKeyInstall (v : DWord) (s : State) : Out :=
  if fld v.toNat 9 8 = 1 then whenRunning s (writeKeyCtl v) else .next s
/-- R404, OP 2. -/
def execKeyDestroy (v : DWord) (s : State) : Out :=
  if fld v.toNat 9 8 = 2 then whenRunning s (writeKeyCtl v) else .next s

/-- Bytes encrypted under an earlier key of a context are not stated any more once its key is another: free values, as HBM holds
them. What a slice or the memory-side cache holds of their lines is plaintext, and stays (R403). -/
def scramble (s : State) (ctx : Nat) : State :=
  (s.pieceKey.filter (fun e => e.2 == ctx + 1)).foldl (fun s e =>
    let line := e.1 / 2
    let new := (List.range 64).map (fun i => Config.freeByte (freeIdx s.fresh i))
    let s1 := { s with fresh := s.fresh + 1 }
    if cached s (128 * line) then
      let held := match tget [] s.older line with
        | [] => rdBytes s (128 * line) 128
        | bs => bs
      { s1 with older := tput [] s.older line (if e.1 % 2 = 0 then new ++ held.drop 64 else held.take 64 ++ new) }
    else { s1 with mem := putBytes s.mem (64 * e.1) new }) s

/-- A line leaves the memory-side cache without write-back (R404): it reads as HBM holds it, unless its slice holds it too. -/
def dropMscLine (s : State) (line : Nat) : State :=
  if s.sliceLines.contains line then s
  else
    let s1 := { s with dirty := tput 0 s.dirty line 0, older := tput [] s.older line [] }
    match tget [] s.older line with
    | [] => s1
    | bs => { s1 with mem := putBytes s.mem (128 * line) bs }

/-- R404: destroying drops the context's lines of the memory-side cache, and the key; installing replaces the key. -/
def execKeyOperationDone (s : State) : Out :=
  if !s.mgmt.keyBusy then .next s
  else
    let ctx := s.mgmt.keyCtl
    let others := s.mgmt.keys.filter (fun c => c != ctx)
    if s.mgmt.keyOp = 1 then
      .next (setMgmt (scramble s ctx) (fun m => { m with keys := ctx :: others, keyBusy := false, keyStatus := 0 }))
    else
      let gone := s.msc.flatMap (fun e => (e.2.filter (fun w => w.1 == ctx)).map (·.2))
      let s := { s with msc := s.msc.foldl (fun (t : Tab (List (Nat × Nat))) e => tput [] t e.1 (e.2.filter (fun w => w.1 != ctx))) s.msc }
      .next (setMgmt (gone.foldl dropMscLine s) (fun m => { m with keys := others, keyBusy := false, keyStatus := 0 }))

-- The clock (R410, R411)

/-- A write of the clock-adjust register: STEP acts at once, FREQ and LOCK are kept. A slot that lies before the time stepped back to
is not started any more; a later one is judged anew (R411). -/
def writeClock (v : DWord) (s : State) : State :=
  let unit : Int := (24 * 10 ^ 9 : Nat)
  let step := sext 32 (fld v.toNat 31 0)
  let freq := sext 21 (fld v.toNat 52 32)
  let s := { s with clock := (((s.clock : Int) + step * unit) % (2 ^ 64 * unit)).toNat }
  let s := if step = 0 then s
    else { s with timed := s.timed.map (fun e => { e with floor := (if 0 < step then max else min) e.floor (timeOf s) }) }
  setMgmt s (fun m => { m with lock := v.getLsbD 53, freq := if -1000000 ≤ freq ∧ freq ≤ 1000000 then freq else m.freq })

/-- R410. -/
def execClockStep (v : DWord) (s : State) : Out := whenRunning s (writeClock v)

-- Small registers

/-- R413. -/
def writeRti (die : Nat) (v : DWord) (s : State) : State :=
  let n := fld v.toNat 12 0
  if 16 ≤ n ∧ n ≤ 4096 then modDie s die (fun d => { d with rti := n }) else s

/-- R413. -/
def execRtiWrite (die : Nat) (v : DWord) (s : State) : Out := whenRunning s (writeRti die v)

/-- R419. -/
def writePcap (v : DWord) (s : State) : State :=
  let n := fld v.toNat 11 0
  if 500 ≤ n ∧ n ≤ 2800 then setMgmt s (fun m => { m with pcap := n }) else s

/-- R419. -/
def execPcapWrite (v : DWord) (s : State) : Out := whenRunning s (writePcap v)

/-- R423. -/
def writePerf (v : DWord) (s : State) : State := setMgmt s (fun m => setPoint { m with perfReq := fld v.toNat 1 0 })

/-- R423. -/
def execPerfReqWrite (v : DWord) (s : State) : Out := whenRunning s (writePerf v)

-- Rings in host memory (R421, R444)

/-- A write of BASE or LCAP, while the ring is empty. -/
def ringConfig (lcap : Bool) (v : DWord) (r : HostRing) : HostRing :=
  if r.tail ≠ r.head then r
  else if lcap then (if 4 ≤ v.toNat ∧ v.toNat ≤ 16 then { r with lcap := v.toNat } else r)
  else { r with base := BitVec.ofNat 64 (v.toNat / 4096 * 4096) }

/-- R421. -/
def execEventQueueConfig (die : Nat) (lcap : Bool) (v : DWord) (s : State) : Out :=
  whenRunning s (fun s => modDie s die (fun d => { d with events := ringConfig lcap v d.events }))
/-- R421. -/
def execEventQueueHeadWrite (die : Nat) (v : DWord) (s : State) : Out :=
  whenRunning s (fun s => modDie s die (fun d => { d with events := { d.events with head := v } }))
/-- R444. -/
def execFaultRingConfig (die : Nat) (lcap : Bool) (v : DWord) (s : State) : Out :=
  whenRunning s (fun s => modDie s die (fun d => { d with faults := ringConfig lcap v d.faults }))
/-- R444. -/
def execFaultRingHeadWrite (die : Nat) (v : DWord) (s : State) : Out :=
  whenRunning s (fun s => modDie s die (fun d => { d with faults := { d.faults with head := v } }))

-- Attestation (R422)

/-- A write of REQ. -/
def writeAttest (v : DWord) (s : State) : State :=
  if s.mgmt.attBusy then s else setMgmt s (fun m => { m with attBusy := v.getLsbD 0 })

/-- R422. -/
def execAttestRequest (v : DWord) (s : State) : Out := whenRunning s (writeAttest v)

/-- The first 200 bytes of a report. -/
def attestBody (m : Mgmt) : List Byte :=
  toBytes 4 1 ++ toBytes 4 0xB0 ++ m.nonce.flatMap (fun w => toBytes 8 w.toNat) ++ toBytes 64 (Config.firmwareMeasure % 2 ^ 512) ++
  toBytes 64 (Config.fuseMeasure % 2 ^ 512)

/-- R422. -/
def execAttestReportWrite (s : State) : Out :=
  if !s.mgmt.attBusy then .next s
  else
    let b := attestBody s.mgmt
    let sig := Config.attestSign b
    .next (setMgmt { s with mem := putBytes s.mem (pkey 4 (s.mgmt.attAddr.toNat % 2 ^ 50)) (b ++ toBytes 66 sig.1 ++ toBytes 66 sig.2) }
      (fun m => { m with attBusy := false }))

-- Every other register (R418)

/-- A 64-bit word of a larger number. -/
def setWord (x i v : Nat) : Nat := x - fld x (64 * i + 63) (64 * i) * 2 ^ (64 * i) + v * 2 ^ (64 * i)

/-- A word of an endpoint's entry, its reserved bits zero (R409). -/
def endpointWord (i v : Nat) : Nat :=
  match i with
  | 0 => v % 2 ^ 50
  | 3 => v % 2 ^ 24
  | _ => v

/-- A register that stores its fields; `none` for an offset that no such register stands at. -/
def plainRegister (off : Nat) (v : DWord) (s : State) : Option State :=
  let n := v.toNat
  let m := fun (f : Mgmt → Mgmt) => some (setMgmt s f)
  if off % 8 ≠ 0 then none
  else if off = 0x40 then (if fld n 9 8 = 0 ∨ fld n 9 8 = 3 then some (writeKeyCtl v s) else none)
  else if off = 0xE0 then (if fld n 1 0 = 0 then some (writeKill v s) else none)
  else if 0x48 ≤ off ∧ off ≤ 0x80 then m (fun x => { x with keyData := x.keyData.set ((off - 0x48) / 8) v })
  else if off = 0xB0 then m (fun x => { x with ctxTable := v })
  else if off = 0xB8 then m (fun x => { x with pagerBase := v })
  else if off = 0xC0 then m (fun x => { x with pagerSize := v })
  else if off = 0xC8 then m (fun x => { x with hwBase := v })
  else if off = 0xD0 then m (fun x => { x with hwCtx := n % 256 })
  else if off = 0xD8 then m (fun x => { x with hwDev := v })
  else if 0x200 ≤ off ∧ off < 0x240 then m (fun x => if x.attBusy then x else { x with nonce := x.nonce.set ((off - 0x200) / 8) v })
  else if off = 0x248 then m (fun x => if x.attBusy then x else { x with attAddr := v })
  else if 0x1000 ≤ off ∧ off < 0x1200 then
    (let k := (off - 0x1000) / 32
     match off % 32 with
     | 0 => some (modChain s k (fun c => if c.en then c else { c with base := BitVec.ofNat 64 (n / 128 * 128) }))
     | 24 => some (modChain s k (fun c => if c.en then c else { c with tladdr := v }))
     | _ => none)
  else if 0x1200 ≤ off ∧ off < 0x1280 then some (modChain s ((off - 0x1200) / 8) (fun c => { c with ctx := n % 256 }))
  else if 0x1400 ≤ off ∧ off < 0x1C00 then
    (let j := (off - 0x1400) / 32
     match off % 32 with
     | 0 => some (modTimed s j (fun e => if e.en then e else { e with recAddr := v }))
     | 8 => some (modTimed s j (fun e => if e.en then e else { e with period := n % 2 ^ 32, phase := n / 2 ^ 32 }))
     | _ => none)
  else if 0x1C00 ≤ off ∧ off < 0x1E00 then some (modTimed s ((off - 0x1C00) / 8) (fun e => { e with ctx := n % 256 }))
  else if 0x2000 ≤ off ∧ off < 0xA000 then
    (let k := (off - 0x2000) / 16
     m (fun x =>
       let y := tget (0, 0) x.vectors k
       { x with vectors := tput (0, 0) x.vectors k (if off % 16 = 0 then (v, y.2) else (y.1, BitVec.ofNat 64 (n % 2 ^ 33))) }))
  else if 0x10000 ≤ off ∧ off < 0x30000 then
    (let e := (off - 0x10000) / 32
     let i := off % 32 / 8
     m (fun x => { x with endpoints := tput 0 x.endpoints e (setWord (tget 0 x.endpoints e) i (endpointWord i n)) }))
  else none

/-- Fields of a register at their lowest bits. -/
def regWord (l : List (Nat × Nat)) : DWord := BitVec.ofNat 64 (l.foldl (fun a x => a + 2 ^ x.1 * x.2) 0)

/-- A register of a ring in host memory. -/
def ringWord (r : HostRing) (i : Nat) : DWord :=
  match i with
  | 0 => r.base
  | 1 => BitVec.ofNat 64 r.lcap
  | 2 => r.head
  | _ => r.tail

/-- A word of a chain's block (R345). -/
def chainReg (c : Chain) (i : Nat) : DWord :=
  match i with
  | 0 => c.base
  | 1 => regWord [(0, c.lcap), (5, c.die), (6, if c.en then 1 else 0), (7, if c.err then 1 else 0), (32, c.tail.toNat)]
  | 2 => regWord [(0, c.head.toNat)]
  | _ => c.tladdr

/-- A word of a time-triggered entry's block (R362). -/
def timedReg (e : Timed) (i : Nat) : DWord :=
  match i with
  | 0 => e.recAddr
  | 1 => regWord [(0, e.period), (32, e.phase)]
  | 2 => regWord [(0, if e.en then 1 else 0), (1, if e.mode then 1 else 0), (32, e.ovr)]
  | _ => e.starts

/-- What a read of a management register gives, its reserved bits and write-only fields zero (R6, R418); no step of the machine
reads one, and no state changes. An offset that the table does not list reads as zero. The partition register reads as the
setting in effect (log entry 108). Until the firmware runs all but ID and BOOTST read as zero (R417). -/
def readRegister (off : Nat) (s : State) : DWord :=
  let m := s.mgmt
  let b := fun (x : Bool) => if x then 1 else 0
  if off % 8 ≠ 0 then 0
  else if off = 0 then regWord [(0, 0x7D1E), (16, 0x0E07), (32, 0xB0)]
  else if off = 0x08 then regWord [(0, m.bootst), (8, m.bootFail)]
  else if !running s then 0
  else if off = 0x10 then regWord [(0, m.perfReq), (2, m.perfCur)]
  else if off = 0x18 then regWord [(0, m.pcap)]
  else if off = 0x20 then regWord [(0, b m.throt), (1, b m.capped), (16, m.temp % 256)]
  else if off = 0x28 then regWord [(0, m.partition)]
  else if off = 0x30 then regWord [(0, m.degrade)]
  else if off = 0x38 then regWord [(0, m.devNum), (9, b m.devValid), (10, m.dsize)]
  else if off = 0x40 then regWord [(0, m.keyCtl), (10, b m.keyBusy), (11, m.keyStatus)]
  else if off = 0x88 then regWord [(0, timeOf s)]
  else if off = 0x90 then regWord [(32, (BitVec.ofInt 21 m.freq).toNat), (53, b m.lock)]
  else if off = 0x98 then regWord [(0, (dieOf s 0).rti)]
  else if off = 0xA0 then regWord [(0, (dieOf s 1).rti)]
  else if off = 0xA8 then regWord [(0, b m.dbgEn), (3, b (dieOf s 0).halted), (4, b (dieOf s 1).halted)]
  else if off = 0xB0 then m.ctxTable
  else if off = 0xB8 then m.pagerBase
  else if off = 0xC0 then m.pagerSize
  else if off = 0xC8 then m.hwBase
  else if off = 0xD0 then regWord [(0, m.hwCtx)]
  else if off = 0xD8 then m.hwDev
  else if off = 0xE0 then regWord [(2, fld m.killReg.toNat 19 2), (20, b m.killBusy), (21, m.killStatus), (32, fld m.killReg.toNat 63 32)]
  else if 0x100 ≤ off ∧ off < 0x140 then ringWord (dieOf s ((off - 0x100) / 32)).events (off % 32 / 8)
  else if 0x140 ≤ off ∧ off < 0x180 then ringWord (dieOf s ((off - 0x140) / 32)).faults (off % 32 / 8)
  else if 0x200 ≤ off ∧ off < 0x240 then m.nonce.getD ((off - 0x200) / 8) 0
  else if off = 0x240 then regWord [(1, b m.attBusy)]
  else if off = 0x248 then m.attAddr
  else if 0x1000 ≤ off ∧ off < 0x1200 then chainReg (s.chains.getD ((off - 0x1000) / 32) Chain.reset) (off % 32 / 8)
  else if 0x1200 ≤ off ∧ off < 0x1280 then regWord [(0, (s.chains.getD ((off - 0x1200) / 8) Chain.reset).ctx)]
  else if 0x1400 ≤ off ∧ off < 0x1C00 then timedReg (s.timed.getD ((off - 0x1400) / 32) Timed.reset) (off % 32 / 8)
  else if 0x1C00 ≤ off ∧ off < 0x1E00 then regWord [(0, (s.timed.getD ((off - 0x1C00) / 8) Timed.reset).ctx)]
  else if 0x2000 ≤ off ∧ off < 0xA000 then
    (let y := tget (0, 0) m.vectors ((off - 0x2000) / 16)
     if off % 16 = 0 then y.1 else y.2)
  else if 0x10000 ≤ off ∧ off < 0x30000 then
    BitVec.ofNat 64 (fld (tget 0 m.endpoints ((off - 0x10000) / 32)) (64 * (off % 32 / 8) + 63) (64 * (off % 32 / 8)))
  else 0

/-- R418: a register with no behaviour of its own stores its fields; elsewhere a write is ignored. -/
def execRegisterWrite (off : Nat) (v : DWord) (s : State) : Out :=
  whenRunning s (fun s => (plainRegister off v s).getD s)

end Sys2Proof.Machine
end

