-- ==== Sys2Proof/Machine/Xch.lean ====
section
/-! DEFINITION. Quad and cross-lane instructions (spec/07_exchange.md R169 to R180). -/

namespace Sys2Proof.Machine

/-- ValidSource of R170: a lane of the issue group whose guard is true, and no helper unless the instruction is a quad
one. -/
def validSource (v : View) (quad : Bool) (p : Nat) : Bool :=
  v.active.contains p && (quad || !(v.gang.lane p).helper)

/-- The validity predicate of MOD (R171). -/
def pvOut (pv : Nat) (ok : Bool) : List (Nat × Bool) := if pv = 0 then [] else [(pv, ok)]

/-- A lane read (R171, R176): source 0 is the value, source 1 the operand x, source 2 the fill. -/
def laneRead (quad : Bool) (pos : Nat → Nat → Option Nat) (pv : Nat) (v : View) (inp : Nat → LaneIn) (i : Nat) : LaneOut :=
  match (pos i ((inp i).w 1).toNat).filter (validSource v quad) with
  | some p => { regs := [(inp p).w 0], preds := pvOut pv true }
  | none => { regs := [(inp i).w 2], preds := pvOut pv false }

/-- A position within 0 to 31. -/
def inGang (p : Nat) : Option Nat := if p < 32 then some p else none

/-- An exchange instruction: latency 6 (R76). A c destination is illegal on the lane reads (R175). -/
def xchAlu (srcs : List Opnd) (d : Option Dst) (run : View → (Nat → LaneIn) → Nat → LaneOut) : Alu :=
  { front := { srcs := srcs, dst := d, perLane := true }, lat := 6, run := run }

/-- R176. -/
def execQswp (c : Common) (d v m f : Name) (pv : Nat) (s : State) : Out :=
  execAlu c (xchAlu [o1 v, o1 m, o1 f] (d1 d)
    (laneRead true (fun i x => some (i / 4 * 4 + ((i % 4) ^^^ (x % 4)))) pv)) s
/-- R176. -/
def execQbc (c : Common) (d v j f : Name) (pv : Nat) (s : State) : Out :=
  execAlu c (xchAlu [o1 v, o1 j, o1 f] (d1 d) (laneRead true (fun i x => some (i / 4 * 4 + x % 4)) pv)) s

/-- QDX (`bit` 1) and QDY (`bit` 2) (R177): source 0 is the value, source 1 the fill. -/
def quadDiff (bit : Nat) (pv : Nat) (v : View) (inp : Nat → LaneIn) (i : Nat) : LaneOut :=
  let lo := if i / bit % 2 = 1 then i - bit else i
  let hi := lo + bit
  if validSource v true lo && validSource v true hi then
    let a := ((inp hi).w 0).toNat
    let b := ((inp lo).w 0).toNat
    let r := withOperands .f32 [a, b] (rne .f32 (sumNum false [dec .f32 a, (dec .f32 b).neg]))
    { regs := [BitVec.ofNat 32 r.1], preds := pvOut pv true, fst := r.2, setsFst := true }
  else { regs := [(inp i).w 1], preds := pvOut pv false }

/-- R177. -/
def execQdx (c : Common) (d v f : Name) (pv : Nat) (s : State) : Out :=
  execAlu c (xchAlu [o1 v, o1 f] (d1 d) (quadDiff 1 pv)) s
/-- R177. -/
def execQdy (c : Common) (d v f : Name) (pv : Nat) (s : State) : Out :=
  execAlu c (xchAlu [o1 v, o1 f] (d1 d) (quadDiff 2 pv)) s
/-- R176. -/
def execPerm (c : Common) (d v x f : Name) (pv : Nat) (s : State) : Out :=
  execAlu c (xchAlu [o1 v, o1 x, o1 f] (d1 d) (laneRead false (fun _ x => inGang x) pv)) s
/-- R176. -/
def execShup (c : Common) (d v n f : Name) (pv : Nat) (s : State) : Out :=
  execAlu c (xchAlu [o1 v, o1 n, o1 f] (d1 d) (laneRead false (fun i x => if i < x then none else some (i - x)) pv)) s
/-- R176. -/
def execShdn (c : Common) (d v n f : Name) (pv : Nat) (s : State) : Out :=
  execAlu c (xchAlu [o1 v, o1 n, o1 f] (d1 d) (laneRead false (fun i x => inGang (i + x)) pv)) s
/-- R176. -/
def execShxr (c : Common) (d v n f : Name) (pv : Nat) (s : State) : Out :=
  execAlu c (xchAlu [o1 v, o1 n, o1 f] (d1 d) (laneRead false (fun i x => if x < 32 then some (i ^^^ x) else none) pv)) s

-- Reductions

/-- The lane set V of R178. -/
def View.contrib (v : View) : List Nat := v.active.filter (fun i => !(v.gang.lane i).helper)

/-- Operations and identities of R178. -/
def redId : RedOp → Word
  | .add | .maxN | .or | .xor => 0
  | .minS => 0x7FFFFFFF
  | .maxS => 0x80000000
  | .minN | .and => 0xFFFFFFFF

def redOp (o : RedOp) (a b : Word) : Word :=
  match o with
  | .add => a + b
  | .minS => if a.toInt ≤ b.toInt then a else b
  | .maxS => if a.toInt ≤ b.toInt then b else a
  | .minN => if a.toNat ≤ b.toNat then a else b
  | .maxN => if a.toNat ≤ b.toNat then b else a
  | .and => a &&& b
  | .or => a ||| b
  | .xor => a ^^^ b

/-- A mask of positions. -/
def maskOf (ps : List Nat) : Word := BitVec.ofNat 32 (ps.foldl (fun a p => a + 2 ^ p) 0)

/-- VOTE (R179). -/
def voteRes (m : Vote) (v : View) (inp : Nat → LaneIn) : Word :=
  let vs := v.contrib
  let ones := vs.filter (fun p => (inp p).w 0 != 0)
  match m with
  | .ballot => maskOf ones
  | .any => if ones.isEmpty then 0 else 1
  | .all => if ones.length = vs.length then 1 else 0
  | .uni => if vs.all (fun p => (inp p).w 0 == (inp (vs.headD 0)).w 0) then 1 else 0

/-- VOTE and GRED write one value, and may write a c register (R175). -/
def redAlu (srcs : List Opnd) (d : Name) (run : View → (Nat → LaneIn) → Nat → LaneOut) : Alu :=
  { front := { srcs := srcs, dst := d1 d, cOk := true }, lat := 6, run := run }

/-- R179. -/
def execVote (c : Common) (d v : Name) (m : Vote) (s : State) : Out :=
  execAlu c (redAlu [o1 v] d (fun w inp _ => .word (voteRes m w inp))) s
/-- R179. -/
def execMtch (c : Common) (d v : Name) (w64 : Bool) (s : State) : Out :=
  execAlu c (xchAlu [oW w64 v] (dW w64 d) (fun w inp i =>
    let mask := maskOf (w.contrib.filter (fun p => (inp p).vals == (inp i).vals))
    { regs := if w64 then [mask, 0] else [mask] })) s
/-- R179. -/
def execGscan (c : Common) (d v seed : Name) (op : RedOp) (s : State) : Out :=
  execAlu c (xchAlu [o1 v, o1 seed] (d1 d) (fun w inp i =>
    .word ((w.contrib.filter (fun p => decide (p < i))).foldl (fun a p => redOp op a ((inp p).w 0)) ((inp i).w 1)))) s
/-- R179. -/
def execGred (c : Common) (d v : Name) (op : RedOp) (s : State) : Out :=
  execAlu c (redAlu [o1 v] d (fun w inp _ =>
    .word (w.contrib.foldl (fun a p => redOp op a ((inp p).w 0)) (redId op)))) s

-- Indirect register access (R180)

/-- The target of RDIX and WRIX, if it may be touched. -/
def ixTarget (v : View) (base idx : Nat) : Option Nat :=
  let n := base + idx
  if n < 320 ∧ v.gang.acquired n 1 then some n else none

def baseReg : Name → Option Nat
  | .g n => some n
  | _ => none

/-- The base must name a g register, acquired or not (log entry 98); the target is checked for readiness as a named register is, in
every lane of the group whatever its guard (R77, R180). `idx` is the place of the index among the sources; a lane that pops nothing,
or an element with a held fault, has no index from a port. -/
def ixOwn (s : State) (f : Front) (base : Name) (idx : Nat) (v : View) : Option FaultInfo :=
  match baseReg base with
  | none => some (v.fault .illopnd)
  | some b =>
    match f.srcs[idx]? with
    | none => none
    | some o =>
      let own : Front := { srcs := [o] }
      let pops := (popAll s v own.srcPorts).2
      let late := (match o.name with | .q _ => v.active | _ => v.iss.group).any (fun i =>
        match ixTarget v b ((srcWords s.fresh v pops i o).headD 0).toNat with
        | some n => decide (v.t < v.gang.readyAt (keyG n))
        | none => false)
      if (popFault s v own).isNone ∧ late then some (v.fault .timing) else none

/-- R180. -/
def execRdix (c : Common) (d base idx f : Name) (pv : Nat) (s : State) : Out :=
  let a := xchAlu [o1 idx, o1 f] (d1 d) (fun v inp i =>
    match ixTarget v ((baseReg base).getD 0) ((inp i).w 0).toNat with
    | some n => { regs := [(inp i).lane.reg n], preds := pvOut pv true }
    | none => { regs := [(inp i).w 1], preds := pvOut pv false })
  execAlu c { a with own := ixOwn s a.front base 0 } s

/-- R180. -/
def execWrix (c : Common) (base v idx : Name) (pv : Nat) (s : State) : Out :=
  let a := xchAlu [o1 v, o1 idx] none (fun w inp i =>
    match ixTarget w ((baseReg base).getD 0) ((inp i).w 1).toNat with
    | some n => { ind := some (n, (inp i).w 0), preds := pvOut pv true }
    | none => { preds := pvOut pv false })
  execAlu c { a with own := fun w => if (baseReg base).isNone then some (w.fault .illopnd) else none } s

end Sys2Proof.Machine
end

