-- ==== Sys2Proof/Machine/Dispatch.lean ====
section
/-! DEFINITION. One arm for each constructor of Instr: a direct call of its meaning. -/

namespace Sys2Proof.Machine

/-- The meaning of an instruction or of a whole step of the machine. -/
def exec (i : Instr) (s : State) : Host.Outcome State Fault Refusal :=
  match i with
  -- control (04 R90)
  | .nop c => Sys2Proof.Machine.execNop c s
  | .bra c off => Sys2Proof.Machine.execBra c off s
  | .brx c a => Sys2Proof.Machine.execBrx c a s
  | .call c d off => Sys2Proof.Machine.execCall c d off s
  | .callx c d a => Sys2Proof.Machine.execCallx c d a s
  | .ret c a => Sys2Proof.Machine.execRet c a s
  | .exit c => Sys2Proof.Machine.execExit c s
  | .yld c d => Sys2Proof.Machine.execYld c d s
  | .hinty c => Sys2Proof.Machine.execHinty c s
  | .barg c sc => Sys2Proof.Machine.execBarg c sc s
  | .bart c sc => Sys2Proof.Machine.execBart c sc s
  | .barb c sc => Sys2Proof.Machine.execBarb c sc s
  | .regrp c => Sys2Proof.Machine.execRegrp c s
  | .sphase c a => Sys2Proof.Machine.execSphase c a s
  | .acqx c n => Sys2Proof.Machine.execAcqx c n s
  | .relx c n => Sys2Proof.Machine.execRelx c n s
  | .acqxt c n pd => Sys2Proof.Machine.execAcqxt c n pd s
  | .tlwait c v sel => Sys2Proof.Machine.execTlwait c v sel s
  | .tltry c v sel pd => Sys2Proof.Machine.execTltry c v sel pd s
  | .tlsig c sc e => Sys2Proof.Machine.execTlsig c sc e s
  -- integer (05 R112)
  | .mov c d a w64 => Sys2Proof.Machine.execMov c d a w64 s
  | .movImm c d imm => Sys2Proof.Machine.execMovImm c d imm s
  | .movk c d k hi z => Sys2Proof.Machine.execMovk c d k hi z s
  | .iadd c d a b t => Sys2Proof.Machine.execIadd c d a b t s
  | .iaddImm c d a imm => Sys2Proof.Machine.execIaddImm c d a imm s
  | .isub c d a b t => Sys2Proof.Machine.execIsub c d a b t s
  | .isubImm c d a imm => Sys2Proof.Machine.execIsubImm c d a imm s
  | .imul c d a b t => Sys2Proof.Machine.execImul c d a b t s
  | .imulImm c d a imm => Sys2Proof.Machine.execImulImm c d a imm s
  | .imulh c d a b t => Sys2Proof.Machine.execImulh c d a b t s
  | .imad c d a b x t => Sys2Proof.Machine.execImad c d a b x t s
  | .imadw c d a b x t => Sys2Proof.Machine.execImadw c d a b x t s
  | .iadd64 c d a b t => Sys2Proof.Machine.execIadd64 c d a b t s
  | .isub64 c d a b t => Sys2Proof.Machine.execIsub64 c d a b t s
  | .idiv c d a b t => Sys2Proof.Machine.execIdiv c d a b t s
  | .irem c d a b t => Sys2Proof.Machine.execIrem c d a b t s
  | .ineg c d a t => Sys2Proof.Machine.execIneg c d a t s
  | .iabs c d a t => Sys2Proof.Machine.execIabs c d a t s
  | .imin c d a b t => Sys2Proof.Machine.execImin c d a b t s
  | .iminImm c d a imm => Sys2Proof.Machine.execIminImm c d a imm s
  | .imax c d a b t => Sys2Proof.Machine.execImax c d a b t s
  | .imaxImm c d a imm => Sys2Proof.Machine.execImaxImm c d a imm s
  | .logt c d a b tbl => Sys2Proof.Machine.execLogt c d a b tbl s
  | .shl c d a n w64 => Sys2Proof.Machine.execShl c d a n w64 s
  | .shlImm c d a imm => Sys2Proof.Machine.execShlImm c d a imm s
  | .shr c d a n w64 => Sys2Proof.Machine.execShr c d a n w64 s
  | .shrImm c d a imm => Sys2Proof.Machine.execShrImm c d a imm s
  | .sar c d a n w64 => Sys2Proof.Machine.execSar c d a n w64 s
  | .sarImm c d a imm => Sys2Proof.Machine.execSarImm c d a imm s
  | .rot c d a n w64 => Sys2Proof.Machine.execRot c d a n w64 s
  | .rotImm c d a imm => Sys2Proof.Machine.execRotImm c d a imm s
  | .funl c d lo hi n left => Sys2Proof.Machine.execFunl c d lo hi n left s
  | .bfx c d a f t => Sys2Proof.Machine.execBfx c d a f t s
  | .bfi c d ins base f => Sys2Proof.Machine.execBfi c d ins base f s
  | .popc c d a w64 => Sys2Proof.Machine.execPopc c d a w64 s
  | .clz c d a w64 => Sys2Proof.Machine.execClz c d a w64 s
  | .ctz c d a w64 => Sys2Proof.Machine.execCtz c d a w64 s
  | .brev c d a w64 => Sys2Proof.Machine.execBrev c d a w64 s
  | .lea c d base idx off scale t => Sys2Proof.Machine.execLea c d base idx off scale t s
  | .icmp c pd a b cond t => Sys2Proof.Machine.execIcmp c pd a b cond t s
  | .sel c d a b ps inv w64 => Sys2Proof.Machine.execSel c d a b ps inv w64 s
  | .plog c pd pa pb tbl => Sys2Proof.Machine.execPlog c pd pa pb tbl s
  | .prd c d bank => Sys2Proof.Machine.execPrd c d bank s
  | .pwr c a m bank => Sys2Proof.Machine.execPwr c a m bank s
  -- floating point (06 R153)
  | .fadd c d a b r => Sys2Proof.Machine.execFadd c d a b r s
  | .fsub c d a b r => Sys2Proof.Machine.execFsub c d a b r s
  | .fmul c d a b r => Sys2Proof.Machine.execFmul c d a b r s
  | .ffma c d a b x r => Sys2Proof.Machine.execFfma c d a b x r s
  | .fmin c d a b => Sys2Proof.Machine.execFmin c d a b s
  | .fmax c d a b => Sys2Proof.Machine.execFmax c d a b s
  | .fcmp c pd a b cond => Sys2Proof.Machine.execFcmp c pd a b cond s
  | .dcmp c pd a b cond => Sys2Proof.Machine.execDcmp c pd a b cond s
  | .fdiv c d a b r => Sys2Proof.Machine.execFdiv c d a b r s
  | .fsqrt c d a r => Sys2Proof.Machine.execFsqrt c d a r s
  | .frcp c d a => Sys2Proof.Machine.execFrcp c d a s
  | .frsq c d a => Sys2Proof.Machine.execFrsq c d a s
  | .fexp2 c d a => Sys2Proof.Machine.execFexp2 c d a s
  | .flog2 c d a => Sys2Proof.Machine.execFlog2 c d a s
  | .fsin c d a => Sys2Proof.Machine.execFsin c d a s
  | .fcos c d a => Sys2Proof.Machine.execFcos c d a s
  | .frnd c d a r => Sys2Proof.Machine.execFrnd c d a r s
  | .fcls c d a form => Sys2Proof.Machine.execFcls c d a form s
  | .fscl c d a n r => Sys2Proof.Machine.execFscl c d a n r s
  | .dadd c d a b r sub => Sys2Proof.Machine.execDadd c d a b r sub s
  | .dmul c d a b r => Sys2Proof.Machine.execDmul c d a b r s
  | .dfma c d a b x r => Sys2Proof.Machine.execDfma c d a b x r s
  | .ddiv c d a b r => Sys2Proof.Machine.execDdiv c d a b r s
  | .dsqrt c d a r => Sys2Proof.Machine.execDsqrt c d a r s
  | .badd2 c d a b rz sat => Sys2Proof.Machine.execBadd2 c d a b rz sat s
  | .bfma2 c d a b x rz sat => Sys2Proof.Machine.execBfma2 c d a b x rz sat s
  | .hfma2 c d a b x rz sat => Sys2Proof.Machine.execHfma2 c d a b x rz sat s
  | .cvt c d a rb dt st r sat => Sys2Proof.Machine.execCvt c d a rb dt st r sat s
  | .pack c d a j f => Sys2Proof.Machine.execPack c d a j f s
  | .unpk c d a j f => Sys2Proof.Machine.execUnpk c d a j f s
  | .act c d x slot => Sys2Proof.Machine.execAct c d x slot s
  | .actd c d x g slot => Sys2Proof.Machine.execActd c d x g slot s
  | .xrng c d ctr key => Sys2Proof.Machine.execXrng c d ctr key s
  | .xrngf c d a => Sys2Proof.Machine.execXrngf c d a s
  -- exchange (07 R173)
  | .qswp c d v m f pv => Sys2Proof.Machine.execQswp c d v m f pv s
  | .qbc c d v j f pv => Sys2Proof.Machine.execQbc c d v j f pv s
  | .qdx c d v f pv => Sys2Proof.Machine.execQdx c d v f pv s
  | .qdy c d v f pv => Sys2Proof.Machine.execQdy c d v f pv s
  | .perm c d v x f pv => Sys2Proof.Machine.execPerm c d v x f pv s
  | .shup c d v n f pv => Sys2Proof.Machine.execShup c d v n f pv s
  | .shdn c d v n f pv => Sys2Proof.Machine.execShdn c d v n f pv s
  | .shxr c d v n f pv => Sys2Proof.Machine.execShxr c d v n f pv s
  | .vote c d v m => Sys2Proof.Machine.execVote c d v m s
  | .mtch c d v w64 => Sys2Proof.Machine.execMtch c d v w64 s
  | .gscan c d v seed op => Sys2Proof.Machine.execGscan c d v seed op s
  | .gred c d v op => Sys2Proof.Machine.execGred c d v op s
  | .rdix c d base idx f pv => Sys2Proof.Machine.execRdix c d base idx f pv s
  | .wrix c base v idx pv => Sys2Proof.Machine.execWrix c base v idx pv s
  -- memory (08 R199) and subscriptions (09 R229)
  | .ld c d base off t a64 => Sys2Proof.Machine.execLd c d base off t a64 s
  | .ldp c d base off t => Sys2Proof.Machine.execLdp c d base off t s
  | .st c base v off t a64 => Sys2Proof.Machine.execSt c base v off t a64 s
  | .stp c base v off t => Sys2Proof.Machine.execStp c base v off t s
  | .atom c d base v op w64 o sc a64 => Sys2Proof.Machine.execAtom c d base v op w64 o sc a64 s
  | .acas c d base v w64 o sc a64 => Sys2Proof.Machine.execAcas c d base v w64 o sc a64 s
  | .xsum c base v bf16 o sc a64 => Sys2Proof.Machine.execXsum c base v bf16 o sc a64 s
  | .xrd c d base pair clr o sc a64 => Sys2Proof.Machine.execXrd c d base pair clr o sc a64 s
  | .xclr c base sc a64 => Sys2Proof.Machine.execXclr c base sc a64 s
  | .ldv c d base off a64 => Sys2Proof.Machine.execLdv c d base off a64 s
  | .cms c d base pd sc a64 => Sys2Proof.Machine.execCms c d base pd sc a64 s
  | .fence c sc => Sys2Proof.Machine.execFence c sc s
  | .rel c sc => Sys2Proof.Machine.execRel c sc s
  | .acq c sc => Sys2Proof.Machine.execAcq c sc s
  | .sbsc c d base quad f inv t a64 => Sys2Proof.Machine.execSbsc c d base quad f inv t a64 s
  | .unsb c d base a64 => Sys2Proof.Machine.execUnsb c d base a64 s
  | .sld c d base off a64 => Sys2Proof.Machine.execSld c d base off a64 s
  | .supg c d base f a64 => Sys2Proof.Machine.execSupg c d base f a64 s
  | .schg c d base a64 => Sys2Proof.Machine.execSchg c d base a64 s
  -- streams (10 R255)
  | .sbind c port addr => Sys2Proof.Machine.execSbind c port addr s
  | .sfree c port => Sys2Proof.Machine.execSfree c port s
  | .spos c d a set => Sys2Proof.Machine.execSpos c d a set s
  | .sdrain c port close => Sys2Proof.Machine.execSdrain c port close s
  | .qring c d base quad a64 => Sys2Proof.Machine.execQring c d base quad a64 s
  | .qrfree c d base a64 => Sys2Proof.Machine.execQrfree c d base a64 s
  -- copies (11 R280)
  | .hdef c d addr h e sc a64 => Sys2Proof.Machine.execHdef c d addr h e sc a64 s
  | .hqry c d h sel => Sys2Proof.Machine.execHqry c d h sel s
  | .copy c d addr hd hs e sc a64 => Sys2Proof.Machine.execCopy c d addr hd hs e sc a64 s
  | .cfill c d addr h e sc a64 => Sys2Proof.Machine.execCfill c d addr h e sc a64 s
  | .coll c d addr e sc a64 => Sys2Proof.Machine.execColl c d addr e sc a64 s
  | .tlrd c d e iss => Sys2Proof.Machine.execTlrd c d e iss s
  -- matrix (12 R307)
  | .wld c d box h e sc => Sys2Proof.Machine.execWld c d box h e sc s
  | .wswp c d e => Sys2Proof.Machine.execWswp c d e s
  | .mma c d a src tile e sc => Sys2Proof.Machine.execMma c d a src tile e sc s
  | .mzero c d tile e => Sys2Proof.Machine.execMzero c d tile e s
  | .mrd c d col tile e act f sat => Sys2Proof.Machine.execMrd c d col tile e act f sat s
  | .mwr c d v col tile e rs => Sys2Proof.Machine.execMwr c d v col tile e rs s
  | .mst c d org h tile e sc act sat => Sys2Proof.Machine.execMst c d org h tile e sc act sat s
  | .tblld c d addr form e sc a64 => Sys2Proof.Machine.execTblld c d addr form e sc a64 s
  | .mstat c d sel => Sys2Proof.Machine.execMstat c d sel s
  -- physics (13 R339)
  | .sort c d addr e sc a64 => Sys2Proof.Machine.execSort c d addr e sc a64 s
  | .bvhq c d q addr ray e sc a64 => Sys2Proof.Machine.execBvhq c d q addr ray e sc a64 s
  | .qlu c d a pd w64 => Sys2Proof.Machine.execQlu c d a pd w64 s
  | .qlus c d f b w64 => Sys2Proof.Machine.execQlus c d f b w64 s
  | .qlut c d f b w64 => Sys2Proof.Machine.execQlut c d f b w64 s
  | .qpiv c d v log inv w64 => Sys2Proof.Machine.execQpiv c d v log inv w64 s
  | .olu c d a b pd op w64 => Sys2Proof.Machine.execOlu c d a b pd op w64 s
  -- launches (14 R364)
  | .lnch c d addr a64 => Sys2Proof.Machine.execLnch c d addr a64 s
  | .lrec c d addr quad a64 => Sys2Proof.Machine.execLrec c d addr quad a64 s
  | .lstat c d sel => Sys2Proof.Machine.execLstat c d sel s
  | .lease c d quad => Sys2Proof.Machine.execLease c d quad s
  -- system (15 R389)
  | .trap c code => Sys2Proof.Machine.execTrap c code s
  | .tret c form => Sys2Proof.Machine.execTret c form s
  | .csave c d a => Sys2Proof.Machine.execCsave c d a s
  | .crest c d a => Sys2Proof.Machine.execCrest c d a s
  | .tlbinv c d quad op => Sys2Proof.Machine.execTlbinv c d quad op s
  | .replay c d ctx => Sys2Proof.Machine.execReplay c d ctx s
  | .rdsr c d sr => Sys2Proof.Machine.execRdsr c d sr s
  | .wrsr c v sr => Sys2Proof.Machine.execWrsr c v sr s
  | .evnt c code payload int => Sys2Proof.Machine.execEvnt c code payload int s
  | .halt c => Sys2Proof.Machine.execHalt c s
  -- whole steps of the machine: issue, flags, waits (04)
  | .clauseIssue core bay => Sys2Proof.Machine.execClauseIssue core bay s
  | .operationComplete team gang op lane => Sys2Proof.Machine.execOperationComplete team gang op lane s
  | .demotionEnd team gang lane => Sys2Proof.Machine.execDemotionEnd team gang lane s
  | .watchdog team gang lane => Sys2Proof.Machine.execWatchdog team gang lane s
  | .barrierComplete b => Sys2Proof.Machine.execBarrierComplete b s
  | .regroup team => Sys2Proof.Machine.execRegroup team s
  | .acqxGrant core bay => Sys2Proof.Machine.execAcqxGrant core bay s
  | .tlwaitReread team gang lane => Sys2Proof.Machine.execTlwaitReread team gang lane s
  | .tltryIntervalEnd team gang lane => Sys2Proof.Machine.execTltryIntervalEnd team gang lane s
  | .preemptDecide team => Sys2Proof.Machine.execPreemptDecide team s
  | .teamSave team => Sys2Proof.Machine.execTeamSave team s
  | .teamResume team core => Sys2Proof.Machine.execTeamResume team core s
  | .gangRetire team gang => Sys2Proof.Machine.execGangRetire team gang s
  | .teamRetire team => Sys2Proof.Machine.execTeamRetire team s
  | .teamEnd team => Sys2Proof.Machine.execTeamEnd team s
  | .trapEntry team gang lane => Sys2Proof.Machine.execTrapEntry team gang lane s
  | .parkGang team gang => Sys2Proof.Machine.execParkGang team gang s
  | .parkedGangResume team gang => Sys2Proof.Machine.execParkedGangResume team gang s
  -- the ordering machine (08 R189)
  | .store team gang lane idx => Sys2Proof.Machine.execStore team gang lane idx s
  | .fill a line => Sys2Proof.Machine.execFill a line s
  | .evict a line => Sys2Proof.Machine.execEvict a line s
  | .load team gang lane idx => Sys2Proof.Machine.execLoad team gang lane idx s
  | .drain a line => Sys2Proof.Machine.execDrain a line s
  | .ackArrive a id => Sys2Proof.Machine.execAckArrive a id s
  | .relStep team gang lane idx => Sys2Proof.Machine.execRelStep team gang lane idx s
  | .acqStep team gang lane idx => Sys2Proof.Machine.execAcqStep team gang lane idx s
  | .atomic team gang lane idx => Sys2Proof.Machine.execAtomic team gang lane idx s
  -- subscriptions (09 R222)
  | .register msg => Sys2Proof.Machine.execRegister msg s
  | .apply core msg => Sys2Proof.Machine.execApply core msg s
  | .leave msg => Sys2Proof.Machine.execLeave msg s
  | .sldBind team gang lane idx => Sys2Proof.Machine.execSldBind team gang lane idx s
  | .peersld team gang lane idx peer => Sys2Proof.Machine.execPeersld team gang lane idx peer s
  | .l1EvictRegistered core line => Sys2Proof.Machine.execL1EvictRegistered core line s
  | .sliceDropLine phys => Sys2Proof.Machine.execSliceDropLine phys s
  | .directoryError phys groups => Sys2Proof.Machine.execDirectoryError phys groups s
  -- streams (10 R250)
  | .bind team gang port => Sys2Proof.Machine.execBind team gang port s
  | .prefetch team gang lane port => Sys2Proof.Machine.execPrefetch team gang lane port s
  | .pop team gang lane idx => Sys2Proof.Machine.execPop team gang lane idx s
  | .claim team gang lane port => Sys2Proof.Machine.execClaim team gang lane port s
  | .reserve team gang lane port => Sys2Proof.Machine.execReserve team gang lane port s
  | .rpush team gang lane idx => Sys2Proof.Machine.execRpush team gang lane idx s
  | .commit ring => Sys2Proof.Machine.execCommit ring s
  -- engines and the matrix array (11, 12)
  | .engineCommandBegin team e => Sys2Proof.Machine.execEngineCommandBegin team e s
  | .engineCommandComplete team e => Sys2Proof.Machine.execEngineCommandComplete team e s
  | .contextPark team e => Sys2Proof.Machine.execContextPark team e s
  | .collMatch team e others => Sys2Proof.Machine.execCollMatch team e others s
  | .collAbort team e => Sys2Proof.Machine.execCollAbort team e s
  | .arrayRowPass core => Sys2Proof.Machine.execArrayRowPass core s
  -- launches (14)
  | .chainRecordAccept chain => Sys2Proof.Machine.execChainRecordAccept chain s
  | .pendingLaunchAccept team => Sys2Proof.Machine.execPendingLaunchAccept team s
  | .launchMakeResident launch refused => Sys2Proof.Machine.execLaunchMakeResident launch refused s
  | .teamAdmit launch => Sys2Proof.Machine.execTeamAdmit launch s
  | .parentSwapOut team => Sys2Proof.Machine.execParentSwapOut team s
  | .parentSwapIn team core => Sys2Proof.Machine.execParentSwapIn team core s
  | .bandComplete launch band => Sys2Proof.Machine.execBandComplete launch band s
  | .launchComplete launch => Sys2Proof.Machine.execLaunchComplete launch s
  | .timeSlotStart entry => Sys2Proof.Machine.execTimeSlotStart entry s
  | .eventEntryWrite die => Sys2Proof.Machine.execEventEntryWrite die s
  | .faultRecordWrite die => Sys2Proof.Machine.execFaultRecordWrite die s
  | .msiSend => Sys2Proof.Machine.execMsiSend s
  -- outside (16, 17)
  | .hostWindowAccess hpa data n => Sys2Proof.Machine.execHostWindowAccess hpa data n s
  | .peerRequest ctx die off op => Sys2Proof.Machine.execPeerRequest ctx die off op s
  | .peerTimeout team gang lane idx merged => Sys2Proof.Machine.execPeerTimeout team gang lane idx merged s
  | .flitCrcFail port retrain => Sys2Proof.Machine.execFlitCrcFail port retrain s
  | .datagramReceive mac ip udp addr data good => Sys2Proof.Machine.execDatagramReceive mac ip udp addr data good s
  | .datagramAck seq refusal => Sys2Proof.Machine.execDatagramAck seq refusal s
  | .datagramResend seq => Sys2Proof.Machine.execDatagramResend seq s
  | .hbmRecalBurst die ch => Sys2Proof.Machine.execHbmRecalBurst die ch s
  | .rowRemap die ch row => Sys2Proof.Machine.execRowRemap die ch row s
  | .remapTableReload die ch copyBad => Sys2Proof.Machine.execRemapTableReload die ch copyBad s
  | .uncorrectableError z => Sys2Proof.Machine.execUncorrectableError z s
  | .dieLoss die => Sys2Proof.Machine.execDieLoss die s
  | .powerCapExcess point => Sys2Proof.Machine.execPowerCapExcess point s
  | .thermalLimit point temp => Sys2Proof.Machine.execThermalLimit point temp s
  | .reset => Sys2Proof.Machine.execReset s
  | .bootVerify die verdict => Sys2Proof.Machine.execBootVerify die verdict s
  | .partitionWrite v => Sys2Proof.Machine.execPartitionWrite v s
  | .partitionApply => Sys2Proof.Machine.execPartitionApply s
  | .chainEnable chain v => Sys2Proof.Machine.execChainEnable chain v s
  | .chainTailWrite chain v => Sys2Proof.Machine.execChainTailWrite chain v s
  | .chainErrClear chain v => Sys2Proof.Machine.execChainErrClear chain v s
  | .timedEntryEnable entry v => Sys2Proof.Machine.execTimedEntryEnable entry v s
  | .ovrWrite entry v => Sys2Proof.Machine.execOvrWrite entry v s
  | .killLaunch v => Sys2Proof.Machine.execKillLaunch v s
  | .killContext v => Sys2Proof.Machine.execKillContext v s
  | .killEntry v => Sys2Proof.Machine.execKillEntry v s
  | .debugResume v => Sys2Proof.Machine.execDebugResume v s
  | .degradeWrite v => Sys2Proof.Machine.execDegradeWrite v s
  | .deviceNumberWrite v => Sys2Proof.Machine.execDeviceNumberWrite v s
  | .keyInstall v => Sys2Proof.Machine.execKeyInstall v s
  | .keyDestroy v => Sys2Proof.Machine.execKeyDestroy v s
  | .clockStep v => Sys2Proof.Machine.execClockStep v s
  | .rtiWrite die v => Sys2Proof.Machine.execRtiWrite die v s
  | .pcapWrite v => Sys2Proof.Machine.execPcapWrite v s
  | .perfReqWrite v => Sys2Proof.Machine.execPerfReqWrite v s
  | .eventQueueConfig die lcap v => Sys2Proof.Machine.execEventQueueConfig die lcap v s
  | .eventQueueHeadWrite die v => Sys2Proof.Machine.execEventQueueHeadWrite die v s
  | .faultRingConfig die lcap v => Sys2Proof.Machine.execFaultRingConfig die lcap v s
  | .faultRingHeadWrite die v => Sys2Proof.Machine.execFaultRingHeadWrite die v s
  | .attestRequest v => Sys2Proof.Machine.execAttestRequest v s
  | .attestReportWrite => Sys2Proof.Machine.execAttestReportWrite s
  | .registerWrite off v => Sys2Proof.Machine.execRegisterWrite off v s
  | .correctedError die ch row => Sys2Proof.Machine.execCorrectedError die ch row s
  | .thermalLimitEnd => Sys2Proof.Machine.execThermalLimitEnd s
  | .powerCapWithin point => Sys2Proof.Machine.execPowerCapWithin point s
  | .keyOperationDone => Sys2Proof.Machine.execKeyOperationDone s
  | .ieee1588EventMessage port egress => Sys2Proof.Machine.execIeee1588EventMessage port egress s

end Sys2Proof.Machine
end

