-- ==== Sys2Proof/Machine/Fetch.lean ====
section
/-! DEFINITION. The word that a bay issues next, and the placing of an instruction where the next step takes one (log entry
12). -/

namespace Sys2Proof.Machine

/-- The word in the slot that a bay issues next. -/
def slotWord (s : State) (core bay : Nat) : Option DWord :=
  match (bayOf s core bay).issue with
  | none => none
  | some i => i.words[i.slot]?

/-- The class that an instruction word stands in (R48); 0 where it may stand in any. -/
def classFor (w : DWord) : Nat :=
  match (decodeWord w).bind standing with
  | some .mem => 1
  | some .asy => 2
  | some .sys | some .sysLast => 3
  | _ => 0

/-- The header of a clause of class `cls` with one instruction (R44). -/
def placedHeader (cls : Nat) : DWord := BitVec.ofNat 64 (cls * 2 ^ 61)

/-- The address at which a placed clause stands: the first line of die 0's Pewter (R181). -/
def placedPc : DWord := 0x0008000000000000

/-- A quad of running lanes in position 0 and no other lane, at the placed clause (R65). -/
def placedGang : Gang :=
  { Gang.empty with
    lanes := (List.range 4).map (fun i => { Lane.absent with st := .running, pc := placedPc, lid := i }) ++
      List.replicate 28 Lane.absent }

/-- A team of one gang of one quad on core 0. -/
def placedTeam (priv : Bool) : Team :=
  { uid := 0, launch := 0, tid := 0, ctx := 0, depth := 1, prio := 0, place := .core 0, band := 0, homeDie := 0, lastCore := 0,
    perGang := 1, laneCount := 4, ext := 1, wantsArray := false, priv := priv, pb := 0, ps := 0, admitted := 0, gangs := [placedGang],
    ectx := List.replicate 8 Ctx.empty, handles := List.replicate 64 Handle.empty, pend := [], leases := [], l1 := [],
    savedRegions := [], savedArray := none, preempting := false, swapping := false, watch := [], ending := none, killPending := false, homes := [],
    resumedAt := 0, preload := [] }

/-- An instruction word stored in a clause of its own, latched by bay 0 of core 0, which issues it next. -/
def placeWord (s : State) (w : DWord) : State :=
  let cls := classFor w
  let h := placedHeader cls
  let key := placedPc.toNat
  let iss : Issue :=
    { team := 0, gang := 0, group := [0, 1, 2, 3], pc := placedPc, cls := cls, ni := 0, words := [w], lits := [], slot := 0,
      window := [], ports := List.replicate 16 Port.unbound, rebind := [], point := s.mgmt.perfCur }
  { s with
    mem :=
      let m := putBytes s.mem key (toBytes 8 h.toNat ++ toBytes 8 w.toNat)
      -- a SYS clause is fetched in privileged mode: the context entry's VALID, PRIV and PAGER (R369)
      if cls = 3 then tput memDefault m (s.mgmt.ctxTable.toNat % 2 ^ 50 + 32) 0x07 else m
    teams := placedTeam (cls == 3) :: s.teams.filter (fun t => t.uid != 0)
    agenda := [.slot 0 0]
    cores := s.cores.modify 0 (fun c => { c with bays := c.bays.modify 0 (fun b => { b with issue := some iss }) }) }

end Sys2Proof.Machine
end

