-- ==== Sys2Proof/Machine/Sched.lean ====
section
/-! DEFINITION. Which steps the machine takes when the agenda names none: one round of every step that may be enabled, then a
cycle (log entry 1). -/

namespace Sys2Proof.Machine

/-- The steps of one queue entry; a load is preceded by the fills that it may need, and a store is followed by its
drain. -/
def entrySteps (ctx core team g i idx : Nat) : MemKind → List Instr
  | .load a t _ => [.fill (.core core) (lineOf ctx a.toNat), .fill (.core core) (lineOf ctx (a.toNat + tyBytes t - 1)), .load team g i idx]
  | .laneLoad _ _ _ => [.load team g i idx]
  | .store a bs _ =>
    [.store team g i idx, .drain (.core core) (lineOf ctx a.toNat), .drain (.core core) (lineOf ctx (a.toNat + bs.length - 1))]
  | .laneStore _ _ => [.store team g i idx]
  | .rel _ | .cmdRel _ _ _ | .lnchRel | .sdrain _ _ _ => [.relStep team g i idx]
  | .acq _ => [.acqStep team g i idx]
  | .atom _ _ _ _ _ | .acas _ _ _ _ _ | .xsum _ _ | .xrd _ _ _ _ | .xclr _ | .ldv _ _ | .cms _ _ _ | .qring _ _ _ _ _
  | .qrfree _ _ => [.atomic team g i idx]
  | .lnch a => [.fill (.core core) (lineOf ctx a.toNat), .fill (.core core) (lineOf ctx (a.toNat + 127)), .load team g i idx]
  | .sld a n _ _ =>
    [.fill (.core core) (lineOf ctx a.toNat), .fill (.core core) (lineOf ctx (a.toNat + n - 1)), .sldBind team g i idx]
  | .sbsc _ _ _ _ _ _ _ _ _ | .unsb _ _ _ | .supg _ _ _ _ | .schg _ _ => [.sldBind team g i idx]
  | .bind p _ _ => [.bind team g p]
  | .pop _ => [.pop team g i idx]
  | .rpush _ _ _ => [.rpush team g i idx]

/-- The drains and evictions of one agent: its buffered stores reach home, and no copy is kept. -/
def agentSteps (a : Agent) (m : LocalMem) : List Instr :=
  m.buf.map (fun e => Instr.drain a e.1) ++ m.snap.map (fun e => Instr.evict a e.1)

/-- The steps of one lane: the first entry of its queue that does not wait for residency, its ports, its wait and what it meets at its next clause. -/
def laneSteps (s : State) (t : Team) (core g i : Nat) : List Instr :=
  let x := t.gang g
  let l := x.lane i
  let u := t.uid
  (match l.queue.findIdx? (fun e => e.parked.isNone) with
    | none => []
    | some k => (l.queue[k]?).toList.flatMap (fun e => entrySteps t.ctx core u g i k e.kind)) ++
  (if !l.live then []
   else
    (List.range 16).flatMap (fun p =>
      let b := x.ports.getD p Port.unbound
      if b.st ≠ .bound then [] else if b.mode = 3 then [.claim u g i p] else if b.mode = 4 then [.reserve u g i p]
      else if b.isRead then [.prefetch u g i p] else []) ++
    (match l.st with
      | .blocked (.tlMem _ _ _) => [.tlwaitReread u g i]
      | .blocked (.tryMem _ _ _ _ _) => [.tlwaitReread u g i, .tltryIntervalEnd u g i]
      | .blocked (.tlTeam _ _) => [.tlwaitReread u g i]
      | .blocked (.tryTeam _ _ _ _) => [.tlwaitReread u g i, .tltryIntervalEnd u g i]
      | _ => []) ++
    (if l.deferred.isSome then [.trapEntry u g i] else []) ++
    (if l.demotedUntil ≠ 0 ∧ l.demotedUntil ≤ s.cycle then [.demotionEnd u g i] else []))

/-- The steps of one gang. -/
def gangSteps (s : State) (t : Team) (core g : Nat) : List Instr :=
  let x := t.gang g
  (List.range 32).flatMap (laneSteps s t core g) ++
  x.ops.flatMap (fun o => match o.kind with
    | .lnch _ _ | .lrec _ _ | .lease _ _ => (List.range 32).map (fun i => Instr.operationComplete t.uid g o.id i)
    | .mem | .cmds => if o.lanes.isEmpty then [.operationComplete t.uid g o.id 0] else []
    | _ => [.operationComplete t.uid g o.id 0]) ++
  (if x.lanes.any (fun l => match l.st with | .blocked (.barg _) => true | _ => false) then [.barrierComplete (.gang t.uid g)] else []) ++
  (if x.parked = 0 then [] else [.parkGang t.uid g, .parkedGangResume t.uid g]) ++
  (if x.retired ∨ !x.liveAt.isEmpty then [] else [.gangRetire t.uid g])

/-- The steps of one team. -/
def teamSteps (s : State) (t : Team) : List Instr :=
  let u := t.uid
  let blocked := fun (k : Wait → Option Scope) => t.gangs.any (fun g => g.lanes.any (fun l => match l.st with
    | .blocked w => (k w).isSome
    | _ => false))
  (match t.core with
    | some core =>
      (List.range t.gangs.length).flatMap (gangSteps s t core) ++
      (if blocked isBart then [.barrierComplete (.team u)] else []) ++
      (if blocked isBarb then [.barrierComplete (.band t.launch t.band)] else []) ++
      (if blocked isRegrp then [.regroup u] else []) ++
      [.preemptDecide u, .parentSwapOut u, .teamSave u, .teamRetire u]
    | none => (List.range s.cores.length).flatMap (fun c => [.teamResume u c, .parentSwapIn u c])) ++
  (List.range t.ectx.length).flatMap (fun e =>
    let c := t.ectx.getD e Ctx.empty
    agentSteps (.ctx u e) c.mem ++ c.mem.acks.map (fun x => Instr.ackArrive (.ctx u e) x.1) ++
    (match c.queue with
      | [] => []
      | k :: _ =>
        (if k.outbox.isEmpty then [] else if k.slot.isNone then [.reserve u (16 + e) 0 0] else [.rpush u (16 + e) 0 0]) ++
        (if t.ending.isSome ∧ k.st = .waiting then [.collAbort u e] else []) ++
        [.engineCommandBegin u e, .contextPark u e, .engineCommandComplete u e])) ++
  (if t.pend.isEmpty then [] else [.pendingLaunchAccept u]) ++
  (if t.ending.isSome ∨ t.killPending then [.teamEnd u] else [])

/-- The steps of one core. -/
def coreSteps (s : State) (core : Nat) : List Instr :=
  let c := coreOf s core
  agentSteps (.core core) c.mem ++ c.mem.acks.map (fun x => Instr.ackArrive (.core core) x.1) ++
  (if c.order.isEmpty then [] else [.arrayRowPass core]) ++
  (List.range 4).flatMap (fun b =>
    if (bayGangs s core b).isEmpty then []
    else (if (acqxWaiters s core b).isEmpty then [] else [.acqxGrant core b]) ++ [.clauseIssue core b])

/-- The steps of the launch engines, the messages, the rings and the queues of host memory. -/
def deviceSteps (s : State) : List Instr :=
  s.msgs.map (fun m => match m.kind with
    | .register => Instr.register m.id
    | .leave => .leave m.id
    | _ => .apply m.core m.id) ++
  ((s.slotsOut.map (·.1)).dedup ++ s.teams.flatMap (fun t => t.gangs.flatMap (fun g => g.ports.filterMap (fun b =>
    if b.st = .bound ∧ b.mode = 4 then some b.base else none)))).dedup.map (fun k => Instr.commit (lineOf 0 k)) ++
  (List.range s.chains.length).filterMap (fun k =>
    if (s.chains.getD k Chain.reset).en then some (.chainRecordAccept k) else none) ++
  s.launches.flatMap (fun l => [.launchMakeResident l.id false, .teamAdmit l.id] ++ l.bandsDue.map (Instr.bandComplete l.id) ++
    [.launchComplete l.id]) ++
  (List.range s.timed.length).filterMap (fun j => if (s.timed.getD j Timed.reset).en then some (.timeSlotStart j) else none) ++
  (List.range 2).flatMap (fun d =>
    let x := dieOf s d
    (if x.faults.buffer.isEmpty ∧ x.faults.waiting.isEmpty then [] else [.faultRecordWrite d]) ++
    (if x.events.buffer.isEmpty ∧ x.events.waiting.isEmpty then [] else [.eventEntryWrite d])) ++
  (if s.msiWait.isEmpty then [] else [.msiSend]) ++
  s.datagrams.map (fun d => Instr.datagramResend d.seq) ++
  (if s.mgmt.keyBusy then [.keyOperationDone] else []) ++
  (if s.mgmt.attBusy then [.attestReportWrite] else []) ++
  (if s.mgmt.partPending.isSome then [.partitionApply] else [])

/-- The bays that are issuing a clause. -/
def issuingBays (s : State) : List (Nat × Nat) :=
  (List.range s.cores.length).flatMap (fun c =>
    (List.range 4).filterMap (fun b => if (bayOf s c b).issue.isSome then some (c, b) else none))

/-- One round: the next instruction of every bay in issue, every step that may be enabled, and one cycle. -/
def round (s : State) : List Move :=
  (issuingBays s).map (fun x => Move.slot x.1 x.2) ++
  (s.teams.flatMap (teamSteps s) ++ deviceSteps s ++ (List.range s.cores.length).flatMap (coreSteps s)).map Move.event ++ [.tick 1]

/-- The move that comes next, and the agenda after it. -/
def nextMove (s : State) : Move × List Move :=
  match s.agenda with
  | m :: rest => (m, rest)
  | [] => ((round s).headD (.tick 1), (round s).tail)

end Sys2Proof.Machine
end

