-- ==== Sys2Proof/Machine/Step.lean ====
section
/-! DEFINITION. One step of the machine. -/

namespace Sys2Proof.Machine

/-- Do one move: the next instruction of a bay, a step of the table, or the passing of cycles. A bay with no clause in
issue does nothing. -/
def doMove (m : Move) (s : State) : Host.Outcome State Fault Refusal :=
  match m with
  | .tick n => .next (passCycles s n)
  | .event i => exec i { s with focus := none }
  | .slot core bay =>
    match slotWord s core bay with
    | none => .next s
    | some w =>
      match decodeWord w with
      | none => .next (undecoded { s with focus := some (core, bay) })
      | some i => exec i { s with focus := some (core, bay) }

/-- One step: the move that the agenda names, or the default one (log entry 1). -/
def step (s : State) : Host.Outcome State Fault Refusal :=
  doMove (nextMove s).1 { s with agenda := (nextMove s).2 }

/-- The state with an instruction word placed where the next step takes one (log entry 12). -/
def State.withFetchWord (s : State) (nbits w : Nat) : State := placeWord s (BitVec.ofNat 64 (w % 2 ^ nbits))

end Sys2Proof.Machine
end

