-- ==== Sys2Proof/Safety.lean ====
section
/-! DEFINITION. The terms in which the statements speak: what every step keeps, the gang and the lanes of an instruction in issue,
when an instruction passes its checks (R62), and what an instruction of each shape leaves behind. -/

namespace Sys2Proof.Machine

/-- A package as the manual lays it out: 256 cores of 4 bays, 2 dies, 16 chains, 64 timed entries (R9, R345, R362). -/
def Shape (s : State) : Prop :=
  s.cores.length = 256 ∧ s.dies.length = 2 ∧ s.chains.length = 16 ∧ s.timed.length = 64

/-- What every step keeps: memory in its canonical form. -/
def Inv (s : State) : Prop := Memory.wf s.mem = true

/-- A line that its slice or the memory-side cache holds unwritten reads as HBM holds it: no key operation has changed it below
(R403, R404). What such a line holds comes back when it leaves the caches, whatever step that happens in. -/
def Settled (s : State) : Prop := ∀ n, tget 0 s.dirty n = 0 → tget [] s.older n = []

-- The instruction in issue

/-- The gang of an instruction in issue, as a state holds it. -/
def gangOf (s : State) (v : View) : Gang := (findGang s v.iss.team v.iss.gang).getD Gang.empty
/-- One of its lanes. -/
def laneOf (s : State) (v : View) (i : Nat) : Lane := (gangOf s v).lane i

/-- The gang stands in its team with its 32 lane positions, among them every lane of the issue group, once. -/
def Stands (s : State) (v : View) : Prop :=
  (∃ x, findGang s v.iss.team v.iss.gang = some x ∧ x.lanes.length = 32) ∧ (∀ i ∈ v.iss.group, i < 32) ∧ v.iss.group.Nodup

/-- The instruction in issue passes every check of stage 3 (R62): its names and ports are legal (R54 to R58, R244), nothing it
reads is still pending (R77), its flag has room (R73), and no port holds a fault for it (R253). `own` are the checks of its
own entry. -/
structure Passes (s : State) (c : Common) (f : Front) (own : View → Option FaultInfo) (v : View) : Prop where
  view : issueView s c = some v
  stands : Stands s v
  names : nameFault v c f = none
  own : own v = none
  timely : timingLate v c f = false
  room : c.setf = 0 ∨ v.gang.flag c.setf < 63
  pops : popFault s v f = none
  push : pushFault s v f = none

/-- The checks of an entry that has none of its own. -/
def noOwn : View → Option FaultInfo := fun _ => none

/-- The operand values of a lane (R40). -/
def operands (s : State) (v : View) (f : Front) (i : Nat) : LaneIn :=
  { vals := f.srcs.map (srcWords s.fresh v (popAll s v f.srcPorts).2 i), old := (f.dst.map (oldWords v i)).getD [],
    lane := v.gang.lane i }

/-- The state after the instruction's pops: the state itself where it names no port as a source (R242). -/
def popped (s : State) (v : View) (f : Front) : State := (popAll s v f.srcPorts).1

-- What a fixed-latency instruction leaves behind

/-- The registers that a g destination names hold the result; an indirect write reaches its own (R40, R59, R180). -/
def newReg (c : Common) (d : Option Dst) (o : LaneOut) (n : Nat) (old : Word) : Word :=
  let old := match o.ind with
    | some (m, x) => if m = n then x else old
    | none => old
  match d with
  | some { name := .g b, words := w } => if c.nwb = false ∧ b ≤ n ∧ n < b + w then o.regs.getD (n - b) 0 else old
  | _ => old

/-- A predicate after an instruction. -/
def newPred (o : LaneOut) (n : Nat) (old : Bool) : Bool := o.preds.foldl (fun b p => if p.1 = n then p.2 else b) old

/-- A c register after an instruction whose results are `regs`. -/
def newCreg (d : Option Dst) (regs : List Word) (n : Nat) (old : Word) : Word :=
  match d with
  | some { name := .c b, words := w } => if b ≤ n ∧ n < b + w then regs.getD (n - b) 0 else old
  | _ => old

/-- The system registers of a lane and of a gang (R378). -/
def Lane.sys (l : Lane) : DWord × Nat × Bool := (l.epc, l.eslot, l.handler)
def Gang.sys (g : Gang) : Word × Word × DWord × DWord × Word × Word := (g.ecause, g.einfo, g.eaddr, g.einsn, g.elane, g.espos)

/-- The next slot stands in issue, or the clause has ended (R70). -/
def Advanced (t : State) (v : View) : Prop :=
  if v.iss.slot < v.iss.ni then
    ∃ x, (bayOf t v.core v.bay).issue = some x ∧ x.slot = v.iss.slot + 1 ∧ x.words = v.iss.words ∧ x.group = v.iss.group ∧
      x.pc = v.iss.pc
  else (bayOf t v.core v.bay).issue = none

/-- After the last slot, the lanes of the issue group stand at the following clause (R43, R70). -/
def Follows (t : State) (v : View) : Prop := v.iss.slot < v.iss.ni ∨ ∀ i ∈ v.iss.group, (laneOf t v i).pc = v.nextPc

/-- What lies outside the gang in issue is as it was: other teams and gangs, memory, launches, chains, dies and the management
registers. -/
structure Elsewhere (p t : State) (v : View) : Prop where
  mem : t.mem = p.mem
  teams : ∀ u, u ≠ v.iss.team → findTeam t u = findTeam p u
  gangs : ∀ g, g ≠ v.iss.gang → findGang t v.iss.team g = findGang p v.iss.team g
  launches : t.launches = p.launches
  chains : t.chains = p.chains
  dies : t.dies = p.dies
  mgmt : t.mgmt = p.mgmt

/-- The state `t` holds the results `o` of a fixed-latency instruction, lane by lane, and everything else as the pops left it.
Executed once per gang (R57), the outcome of the lowest active lane stands for all. -/
structure Wrote (s t : State) (v : View) (c : Common) (f : Front) (o : Nat → LaneOut) : Prop where
  regs : ∀ i ∈ v.active, ∀ n, (laneOf t v i).reg n =
    newReg c f.dst (if f.once c.nwb then { o (v.active.headD (v.iss.group.headD 0)) with regs := [] } else o i) n
      ((laneOf (popped s v f) v i).reg n)
  preds : f.dstPort = none → ∀ i ∈ v.active, ∀ n < 96, (laneOf t v i).pred n =
    newPred (o (if f.once c.nwb then v.active.headD (v.iss.group.headD 0) else i)) n ((laneOf (popped s v f) v i).pred n)
  fst : f.dstPort = none → ∀ i ∈ v.active, (laneOf t v i).fst =
    (let x := o (if f.once c.nwb then v.active.headD (v.iss.group.headD 0) else i)
     let old := (laneOf (popped s v f) v i).fst
     if x.setsFst then (old &&& ~~~x.clr) ||| x.fst else old)
  others : ∀ i < 32, i ∉ v.active → (laneOf t v i).regs = (laneOf (popped s v f) v i).regs ∧
    (laneOf t v i).preds = (laneOf (popped s v f) v i).preds ∧ (laneOf t v i).fst = (laneOf (popped s v f) v i).fst
  cregs : ∀ n, (gangOf t v).creg n =
    (let old := (gangOf (popped s v f) v).creg n
     if f.once c.nwb = true ∧ v.active ≠ [] then newCreg f.dst (o (v.active.headD (v.iss.group.headD 0))).regs n old else old)
  flags : (gangOf t v).flags = (gangOf (popped s v f) v).flags
  sys : (gangOf t v).sys = (gangOf (popped s v f) v).sys ∧ ∀ i < 32, (laneOf t v i).sys = (laneOf (popped s v f) v i).sys
  advanced : Advanced t v
  follows : Follows t v
  elsewhere : Elsewhere (popped s v f) t v

/-- An instruction completes with the outcomes `o` of its lanes, computed from their operand values, whenever it passes its
checks. -/
def Computes (s : State) (c : Common) (v : View) (i : Instr) (f : Front) (own : View → Option FaultInfo)
    (o : View → (Nat → LaneIn) → Nat → LaneOut) : Prop :=
  Passes s c f own v → ∃ t, exec i s = .next t ∧ Wrote s t v c f (o v (operands s v f))

/-- Names of one kind: the sources of an instruction that names no predicate and does not read its destination. -/
def names (srcs : List Opnd) (d : Option Dst) : Front := { srcs := srcs, dst := d }

/-- An exact integer brought to W bits: modulo 2^W, clamped to the signed range, clamped to the unsigned one (R108). `es` is formed
from operands read as signed, `en` from operands read as unsigned. -/
def narrowed (w : Nat) (t : Sat) (es en : Int) : BitVec w :=
  match t with
  | .wrap => BitVec.ofInt w (en % (2 ^ w : Nat))
  | .ssat => if es < -(2 ^ (w - 1) : Nat) then BitVec.ofInt w (-(2 ^ (w - 1) : Nat))
      else if (2 ^ (w - 1) : Nat) - 1 < es then BitVec.ofInt w ((2 ^ (w - 1) : Nat) - 1) else BitVec.ofInt w es
  | .nsat => if en < 0 then 0 else if (2 ^ w : Nat) - 1 < en then BitVec.allOnes w else BitVec.ofInt w en

/-- The outcome of a floating-point instruction: the exact value `v`, formed from the operands `xs`, rounded once to the format, with
the bits of R136. -/
def rounded (f : Fmt) (r : Rnd) (xs : List Nat) (v : Num × Flags) : LaneOut :=
  let q := withOperands f xs (roundTo f r 0 false v.1)
  fltOut f (q.1, q.2 ||| v.2)

/-- The integer `n` is the value x / d rounded in a mode (R141, R159, R164): downward, upward, toward zero, or to the nearest, an even
one of two equally near. The random mode .rx rounds to no integer type. -/
def Rounds (mode : Rnd) (x : Int) (d : Nat) (n : Int) : Prop :=
  match mode with
  | .rm => n * d ≤ x ∧ x < (n + 1) * d
  | .rp => (n - 1) * d < x ∧ x ≤ n * d
  | .rz => if 0 ≤ x then n * d ≤ x ∧ x < (n + 1) * d else (n - 1) * d < x ∧ x ≤ n * d
  | .rn => 2 * |x - n * d| ≤ d ∧ (2 * |x - n * d| = d → n % 2 = 0)
  | .rx => False

/-- A table image at FP32 x (R149): `w` are its words. The bits are IV of each step and of the result, and OF of the result. Where a
step gives a NaN for t, the free value of log entry 13; a knot delivered as it stands sets no IV (log entry 116). -/
def Evaluates (w : Nat → Nat) (free : Word) (x : Nat) (y : Nat × Flags) : Prop :=
  let f := fun i => dec .f32 (w i)
  let v := dec .f32 x
  let iv := fun (r : Nat × Flags) => r.2 &&& fIV
  let d := rne .f32 (sumNum false [v, (f 0).neg])
  let t := rne .f32 (mulNum (dec .f32 d.1) (f 2))
  let d2 := rne .f32 (sumNum false [v, (f 1).neg])
  let line := fun (b : Nat × Flags) (slope knot : Num) =>
    if slope.isZero then ((rne .f32 knot).1, iv d ||| iv t ||| iv b)
    else
      let r := rne .f32 (sumNum false [mulNum (dec .f32 b.1) slope, knot])
      (r.1, iv d ||| iv t ||| iv b ||| (r.2 &&& (fIV ||| fOF)))
  if v.isNan then y = (0x7FC00000, if v = .nan true then fIV else 0)
  else if (dec .f32 t.1).isNan then y = (free.toNat, iv d ||| iv t)
  else if cmpNum (dec .f32 t.1) (.fin false 0 0 false) = .lt then y = line d (f 3) (f 8)
  else if cmpNum (dec .f32 t.1) (.fin false 1024 0 false) ≠ .lt then y = line d2 (f 4) (f 1032)
  else ∃ i < 1024, cmpNum (.fin false i 0 false) (dec .f32 t.1) ≠ .gt ∧ cmpNum (dec .f32 t.1) (.fin false (i + 1) 0 false) = .lt ∧
    let dl := rne .f32 (sumNum false [f (9 + i), (f (8 + i)).neg])
    let r := rne .f32 (sumNum false [mulNum (sumNum false [dec .f32 t.1, .fin true i 0 false]) (dec .f32 dl.1), f (8 + i)])
    y = (r.1, iv d ||| iv t ||| iv dl ||| (r.2 &&& (fIV ||| fOF)))

/-- One round of XCG4 under a 64-bit key (R151). -/
def xcgRound (k0 k1 : Word) (j : Nat) (x : Word × Word × Word × Word) : Word × Word × Word × Word :=
  let y0 := x.1 + x.2.2.2 + (k0 + BitVec.ofNat 32 j * 0x5A3C96E1)
  let y1 := (x.2.1 ^^^ y0).rotateLeft 8
  let y2 := x.2.2.1 + y1 + (k1 + BitVec.ofNat 32 j * 0xC78D2B4F)
  let y3 := (x.2.2.2 ^^^ y2).rotateLeft 20
  (y0, y3, y2, y1)

/-- Step k of R335 on n rows: the pivot of column k, its exchange, its near-singular bit, and the rows below it. `inp` are the rows
before any step. `free` is the NS bit that is not stated (log entry 73), `qe` erratum QE-02's. -/
def Factors (f : Fmt) (n k : Nat) (free : Bool) (qe : Nat → Bool) (inp : List (List Nat)) (x y : Factor) : Prop :=
  let c := fun i => dec f (matAt x.a i k)
  ∃ p, k ≤ p ∧ p < n ∧ (∀ i < n, k ≤ i → magGt (c i) (c p) = false) ∧ (∀ i < p, k ≤ i → magGt (c p) (c i) = true) ∧
    y.p = x.p ++ [p] ∧
    let b := fun i j => matAt x.a (if i = k then p else if i = p then k else i) j
    let piv := dec f (b k k)
    (∃ m < n, (∀ i < n, magGt (dec f (matAt inp i k)) (dec f (matAt inp m k)) = false) ∧
      y.ns = x.ns ++ [qe (b k k) && (piv.isZero || (!piv.isNan &&
        (if (dec f (matAt inp m k)).isNan then free
         else cmpNum piv.abs (mulNum (.fin false 1 (-8) false) (dec f (matAt inp m k)).abs) == .lt)))]) ∧
    (∀ i < n, ∀ j < n, matAt y.a i j =
      if i ≤ k ∨ j < k then b i j
      else if piv.isZero then (if j = k then 0 else b i j)
      else
        let l := (rne f (divNum (dec f (b i k)) piv).1).1
        if j = k then l
        else (rne f (sumNum false [dec f (b i j), (mulNum (dec f l) (dec f (b k j))).neg])).1) ∧
    ∀ u, y.fl.getLsbD u = (x.fl.getLsbD u || (!piv.isZero && decide (∃ i < n, k < i ∧
      let l := blockDiv f (b i k) (b k k)
      (l.2.getLsbD u = true ∨ ∃ j < n, k < j ∧ (blockSub f (b i j) l.1 (b k j)).2.getLsbD u = true))))

/-- Forward and backward substitution of R336 on the factor rows `a`: `b` is the right side before step k of the forward pass, `e` after
step k of the backward pass, and `x` the results. -/
def Substitutes (f : Fmt) (n : Nat) (a : List (List Nat)) (b0 x : Nat → Nat) : Prop :=
  let sub := fun u v w => (rne f (sumNum false [dec f u, (mulNum (dec f v) (dec f w)).neg])).1
  let quo := fun u v => if (dec f v).isZero then 0 else (rne f (divNum (dec f u) (dec f v)).1).1
  ∃ b e : Nat → Nat → Nat, (∀ i < n, b 0 i = b0 i) ∧
    (∀ k < n, ∀ i < n, b (k + 1) i = if k < i then sub (b k i) (matAt a i k) (b k k) else b k i) ∧
    (∀ i < n, e n i = b n i) ∧ (∀ k < n, x k = quo (e (k + 1) k) (matAt a k k)) ∧
    ∀ k < n, ∀ i < n, e k i = if i < k then sub (e (k + 1) i) (matAt a i k) (x k) else e (k + 1) i

/-- The transposed solve of R336, up to its exchanges. -/
def SubstitutesT (f : Fmt) (n : Nat) (a : List (List Nat)) (b0 x : Nat → Nat) : Prop :=
  let sub := fun u v w => (rne f (sumNum false [dec f u, (mulNum (dec f v) (dec f w)).neg])).1
  let quo := fun u v => if (dec f v).isZero then 0 else (rne f (divNum (dec f u) (dec f v)).1).1
  ∃ (b e : Nat → Nat → Nat) (z : Nat → Nat), (∀ i < n, b 0 i = b0 i) ∧
    (∀ k < n, z k = quo (b k k) (matAt a k k)) ∧
    (∀ k < n, ∀ i < n, b (k + 1) i = if k < i then sub (b k i) (matAt a k i) (z k) else b k i) ∧
    (∀ i < n, e n i = z i) ∧ (∀ i < n, x i = e 0 i) ∧
    ∀ k < n, ∀ i < n, e k i = if i < k then sub (e (k + 1) i) (matAt a k i) (e (k + 1) k) else e (k + 1) i

/-- What an atomic of each kind does with the number `old` that its bytes hold, in a line with the stamp `stamp` (R204 to R208): the number
that it writes, if any, the words that it delivers, and its bits for fst. -/
inductive Acts (old stamp : Nat) : MemKind → Option Nat → List Word → Flags → Prop
  | atom a op w64 x d : Acts old stamp (.atom a op w64 x d) (some (atomRes op w64 (BitVec.ofNat 64 old) x).toNat)
      (if w64 then [BitVec.ofNat 32 old, BitVec.ofNat 32 (old / 2 ^ 32)] else [BitVec.ofNat 32 old]) 0
  | acas a w64 cmp new d : Acts old stamp (.acas a w64 cmp new d) (if old = cmp.toNat then some new.toNat else none)
      (if w64 then [BitVec.ofNat 32 old, BitVec.ofNat 32 (old / 2 ^ 32)] else [BitVec.ofNat 32 old]) 0
  | xsum a v : Acts old stamp (.xsum a v) (some (cellAdd old v)) [] 0
  | xrd a clr d : Acts old stamp (.xrd a false clr d) (if clr then some 0 else none) [BitVec.ofNat 32 (cellRead old).1]
      (cellRead old).2.2.1
  | xrdPair a clr d : Acts old stamp (.xrd a true clr d) (if clr then some 0 else none)
      [BitVec.ofNat 32 (cellRead old).1, BitVec.ofNat 32 (cellRead old).2.1] ((cellRead old).2.2.1 ||| (cellRead old).2.2.2)
  | xclr a : Acts old stamp (.xclr a) (some 0) [] 0
  | ldv a d : Acts old stamp (.ldv a d) none [BitVec.ofNat 32 old, BitVec.ofNat 32 stamp] 0

-- What the other shapes leave behind

/-- Registers, predicates, fst, c registers, chunks and system registers of the gang in issue are as in `p`, and so is all that
lies outside it. -/
structure Kept (p t : State) (v : View) : Prop where
  regs : ∀ i < 32, (laneOf t v i).regs = (laneOf p v i).regs
  preds : ∀ i < 32, (laneOf t v i).preds = (laneOf p v i).preds
  fst : ∀ i < 32, (laneOf t v i).fst = (laneOf p v i).fst
  sys : (gangOf t v).sys = (gangOf p v).sys ∧ ∀ i < 32, (laneOf t v i).sys = (laneOf p v i).sys
  cregs : (gangOf t v).cregs = (gangOf p v).cregs
  elsewhere : Elsewhere p t v

/-- A flag-tracked operation has begun: it stands among the gang's operations, and its flag has counted up (R64, R73). One with
nothing to do has ended already (R64). -/
structure Began (p t : State) (v : View) (c : Common) (k : OpKind) (lanes : List Nat) : Prop where
  op : ∃ id also slots, (gangOf t v).ops = (gangOf p v).ops ++
    (if idleOp k lanes then [] else [{ id := id, flag := c.setf, kind := k, lanes := lanes, also := also, insn := v.word, slots := slots }])
  flag : c.setf ≠ 0 → (gangOf t v).flag c.setf = (gangOf p v).flag c.setf + (if idleOp k lanes then 0 else 1)
  others : ∀ n, n ≠ c.setf → (gangOf t v).flag n = (gangOf p v).flag n
  advanced : Advanced t v
  follows : Follows t v

/-- A flag-tracked computation (R73, R120, R158): the results wait for completion, each under its lane's identity, and nothing is
written yet. -/
def Tracks (s t : State) (v : View) (c : Common) (f : Front) (o : Nat → LaneOut) : Prop :=
  Kept (popped s v f) t v ∧ ∃ d res slots,
    Began (popped s v f) t v c (.value d res slots) (v.active.map (fun i => (v.gang.lane i).ident)) ∧
    (∀ x, f.dst = some x → d = x) ∧
    ((v.active.map (fun i => (v.gang.lane i).ident)).Nodup → ∀ i ∈ v.active,
      tget ([], 0) res (v.gang.lane i).ident =
        (let k := if f.once c.nwb then v.active.headD 0 else i
         (if f.once c.nwb = true ∧ i ≠ k then [] else (o k).regs, (o k).fst)))

/-- A flag-tracked computation completes its issue with the outcomes `o` of its lanes. -/
def ComputesLater (s : State) (c : Common) (v : View) (i : Instr) (f : Front) (o : View → (Nat → LaneIn) → Nat → LaneOut) : Prop :=
  Passes s c f noOwn v → ∃ t, exec i s = .next t ∧ Tracks s t v c f (o v (operands s v f))

/-- The queue entries of one lane for an operation of an instruction word. -/
def opEntries (id : Nat) (w : DWord) (ks : List MemKind) : List LaneOp :=
  (List.range ks.length).map (fun j =>
    { op := id, kind := ks.getD j (.rel .core), last := j + 1 == ks.length, acks := [], parked := none, insn := w })

/-- An operation of the ordering machine stands in its lanes' queues (R64, R187): the entries `ks`, behind what stood there. At the
end of a clause the port slots that it left unused follow (R249). An operation of no lane has ended already (R64). -/
structure Queued (s t : State) (v : View) (c : Common) (lanes : List Nat) (ks : Nat → List MemKind) : Prop where
  kept : Kept s t v
  began : ∃ id also, (gangOf t v).ops = (gangOf s v).ops ++ (if lanes = [] then [] else
      [{ id := id, flag := c.setf, kind := .mem, lanes := lanes.map (fun i => (v.gang.lane i).ident), also := also, insn := v.word }]) ∧
    ∀ i < 32, ∃ rest, (v.iss.slot < v.iss.ni → rest = []) ∧
      (laneOf t v i).queue = (laneOf s v i).queue ++ (if i ∈ lanes then opEntries id v.word (ks i) else []) ++ rest
  flag : ∀ n, (gangOf t v).flag n = (gangOf s v).flag n + (if n = c.setf ∧ n ≠ 0 ∧ lanes ≠ [] then 1 else 0)
  advanced : Advanced t v
  follows : Follows t v

/-- Every lane that makes an access names an aligned address (R183) that its instruction serves (R181). -/
def Reaches (s : State) (lanes : List Nat) (addr : Nat → Nat) (align : Nat) (k : Serves) : Prop :=
  ∀ i ∈ lanes, addr i % align = 0 ∧ servedFault s k (addr i) = none

/-- A memory instruction that passes its checks, and whose addresses are good, places its operation in its lanes' queues. -/
def Queues (s : State) (c : Common) (v : View) (i : Instr) (f : Front) (own : View → Option FaultInfo) (lanes : List Nat)
    (good : Prop) (ks : Nat → List MemKind) : Prop :=
  Passes s c { f with allowQ := false } own v → good → ∃ t, exec i s = .next t ∧ Queued s t v c lanes ks

/-- The instruction ends, and each active lane, as the end of its slot leaves it, is changed by `f` (R49, R70). -/
structure Ended (s t : State) (v : View) (f : Nat → Lane → Lane) : Prop where
  active : ∀ i ∈ v.active, ∃ l, laneOf t v i = f i l ∧ l.regs = (laneOf s v i).regs ∧ l.preds = (laneOf s v i).preds ∧
    l.fst = (laneOf s v i).fst ∧ l.sys = (laneOf s v i).sys ∧ l.st = (laneOf s v i).st ∧
    (v.iss.slot < v.iss.ni ∨ l.pc = v.nextPc)
  others : ∀ i < 32, i ∉ v.active → (laneOf t v i).regs = (laneOf s v i).regs ∧ (laneOf t v i).preds = (laneOf s v i).preds ∧
    (laneOf t v i).fst = (laneOf s v i).fst ∧ (laneOf t v i).sys = (laneOf s v i).sys ∧ (laneOf t v i).st = (laneOf s v i).st
  cregs : (gangOf t v).cregs = (gangOf s v).cregs
  flags : (gangOf t v).flags = (gangOf s v).flags
  chunks : (gangOf t v).chunks = (gangOf s v).chunks
  sys : (gangOf t v).sys = (gangOf s v).sys
  advanced : Advanced t v
  elsewhere : Elsewhere s t v

/-- An instruction that passes its checks ends with its active lanes changed by `f`. -/
def EndsWith (s : State) (c : Common) (v : View) (i : Instr) (fr : Front) (own : View → Option FaultInfo) (f : Nat → Lane → Lane) :
    Prop := Passes s c fr own v → ∃ t, exec i s = .next t ∧ Ended s t v f

/-- An operation that completes as a whole has begun, and nothing else changed but the queues of its lanes (R64, R73): the accesses
`ks` stand there, none of which ends the operation, before the port slots that the clause left unused (R249). -/
def Holds (s : State) (c : Common) (v : View) (i : Instr) (f : Front) (own : View → Option FaultInfo) (good : Prop) (k : OpKind)
    (lanes : List Nat) (ks : Nat → List MemKind := fun _ => []) : Prop :=
  Passes s c { f with allowQ := false } own v → good →
    ∃ t, exec i s = .next t ∧ Kept s t v ∧ Began s t v c k (lanes.map (fun j => (v.gang.lane j).ident)) ∧
      ∃ id, ∀ j < 32, ∃ rest, (v.iss.slot < v.iss.ni → rest = []) ∧ (laneOf t v j).queue = (laneOf s v j).queue ++
        (if j ∈ lanes then (ks j).map (fun m => { op := id, kind := m, last := false, acks := [], parked := none, insn := v.word }) else []) ++ rest

/-- A system operation that acts once, by one lane, has begun (R392 to R395), after the pops of the ports that it names (R242); nothing
else changed but the queues, where the port slots that the clause left unused follow (R249). -/
def HoldsOnce (s : State) (c : Common) (v : View) (i : Instr) (f : Front) (own : View → Option FaultInfo) (good : Prop)
    (k : (Nat → LaneIn) → OpKind) : Prop :=
  Passes s c f own v → good →
    ∃ t, exec i s = .next t ∧ Kept (popped s v f) t v ∧
      Began (popped s v f) t v c (k (operands s v f)) ((v.acting.take 1).map (fun j => (v.gang.lane j).ident)) ∧
      ∀ j < 32, ∃ rest, (v.iss.slot < v.iss.ni → rest = []) ∧ (laneOf t v j).queue = (laneOf (popped s v f) v j).queue ++ rest

/-- A lane of a team that begins to wait meets a YLD point: it stops there where the team is being stopped, in a handler only for a kill,
which takes it out of the handler (R84, R85, R420). -/
def waiting (t : Team) (w : Wait) (l : Lane) : Lane :=
  { l with st := if t.killPending || (t.stopping && !l.handler) then .stopped (some w) else .blocked w,
           handler := l.handler && !t.killPending, wdog := 0 }

/-- Where the head of a context does its work when it begins: its acquire has dropped the copies of its scope (R191). -/
def workState (s : State) (t : Team) (e : Nat) (k : Cmd) : State := modAgent s (.ctx t.uid e) (fun m => m.acquire t.die k.sc)

/-- All that reading through a context may leave in the buffers and in memory: no byte is stored, and the A bits of page-table entries
may have been set (R372). -/
def OnlyRead (s s' : State) : Prop :=
  (∀ a l o, (agentMem s' a).buffered l o = (agentMem s a).buffered l o) ∧
  ∀ k, rdByte s' k = rdByte s k ∨ rdByte s' k = rdByte s k ||| 0x10

/-- The chain of sums of R295: `g` products of A and B elements enter at a time, and each sum with what was there before is rounded
once. -/
def Sums (fa fb : Fmt) (g : Nat) (ps : List (Nat × Nat)) (acc out : Word) : Prop :=
  ∃ y : Nat → Word, y 0 = acc ∧ out = y ((ps.length + g - 1) / g) ∧ ∀ i < (ps.length + g - 1) / g,
    (y (i + 1)).toNat = (rne .f32 (sumNum false (dec .f32 (y i).toNat ::
      ((ps.drop (i * g)).take g).map (fun p => mulNum (dec fa p.1) (dec fb p.2))))).1

/-- An accumulator through the epilogue of R306, up to the activation: a product with RS and an fma with CS and CB, each rounded once. -/
def scaled (x : Tile) (m n : Nat) : Nat :=
  let num := fun (w : Word) => dec .f32 w.toNat
  let r := rne .f32 (mulNum (num (tget 0 x.acc (128 * m + n))) (num (x.rs.getD m f32One)))
  (rne .f32 (sumNum false [mulNum (dec .f32 r.1) (num (x.cs.getD n f32One)), num (x.cb.getD n 0)])).1

/-- An engine context of the team in issue. -/
def ctxAt (s : State) (v : View) (e : Nat) : Ctx := ((findTeam s v.iss.team).map (fun t => t.ctxOf e)).getD Ctx.empty

/-- Commands stand at the end of a context's queue, numbered on from those issued before (R263); registers, memory and all that
lies outside the team are as before. -/
structure Placed (s t : State) (v : View) (c : Common) (e : Nat) (sc : Scope) (kinds : List CmdKind) : Prop where
  queue : ∃ cs : List Cmd, (ctxAt t v e).queue = (ctxAt s v e).queue ++ cs ∧ cs.map (·.kind) = kinds ∧
    cs.map (·.no) = (List.range kinds.length).map (fun j => (ctxAt s v e).issued.toNat + 1 + j) ∧
    ∀ x ∈ cs, x.sc = sc ∧ x.st = .queued ∧ x.gang = v.g
  issued : (ctxAt t v e).issued = (ctxAt s v e).issued + BitVec.ofNat 64 kinds.length
  contexts : ∀ k, k ≠ e → ctxAt t v k = ctxAt s v k
  regs : ∀ i < 32, (laneOf t v i).regs = (laneOf s v i).regs
  fst : ∀ i < 32, (laneOf t v i).fst = (laneOf s v i).fst
  cregs : (gangOf t v).cregs = (gangOf s v).cregs
  flag : ∀ n, (gangOf t v).flag n = (gangOf s v).flag n + (if n = c.setf ∧ n ≠ 0 ∧ kinds ≠ [] then 1 else 0)
  mem : t.mem = s.mem
  teams : ∀ u, u ≠ v.iss.team → findTeam t u = findTeam s u
  launches : t.launches = s.launches
  dies : t.dies = s.dies
  mgmt : t.mgmt = s.mgmt
  advanced : Advanced t v
  follows : Follows t v

/-- A command instruction that passes its checks, and whose addresses are good, places its commands in context `e`. -/
def Places (s : State) (c : Common) (v : View) (i : Instr) (f : Front) (own : View → Option FaultInfo) (good : Prop) (e : Nat)
    (sc : Scope) (kinds : List CmdKind) : Prop :=
  Passes s c f own v → e < v.team.ectx.length → (ctxAt s v e).issued.toNat + kinds.length < 2 ^ 64 → good →
    ∃ t, exec i s = .next t ∧ Placed s t v c e sc kinds

/-- A command of the matrix array that passes its checks stands in its context, and in array order (R303) where some lane acts;
the array itself is changed by `arr` at issue (R298, R301). -/
def PlacesOnArray (s : State) (c : Common) (v : View) (i : Instr) (f : Front) (own : View → Option FaultInfo) (e : Nat) (sc : Scope)
    (kind : CmdKind) (arr : Array → Array) : Prop :=
  Passes s c f own v → e < v.team.ectx.length → (ctxAt s v e).issued.toNat + 1 < 2 ^ 64 →
    ∃ t, exec i s = .next t ∧ Placed s t v c e sc (if v.acting = [] then [] else [kind]) ∧
      (v.acting ≠ [] → (coreOf t v.core).order = (coreOf s v.core).order ++ [(v.iss.team, e, (ctxAt s v e).issued.toNat + 1)] ∧
        (coreOf t v.core).arr = arr (coreOf s v.core).arr)

/-- The instruction has trapped (R62, R374, R377): every lane of its issue group, whatever its guard, stands in the handler at `tv` with
the clause and the slot saved; the gang holds the fault; the clause issues no more. Registers, predicates, fst, c registers and
flags stand, and so does all that lies outside. -/
structure Trapped (s t : State) (v : View) (info : FaultInfo) (tv : DWord) : Prop where
  entered : ∀ i ∈ v.iss.group, (laneOf t v i).st = .trapped ∧ (laneOf t v i).handler = true ∧ (laneOf t v i).pc = tv ∧
    (laneOf t v i).epc = v.iss.pc ∧ (laneOf t v i).eslot = v.iss.slot ∧ (laneOf t v i).wdog = 0
  cause : (gangOf t v).ecause = BitVec.ofNat 32 (causeCode info.cause) ∧ (gangOf t v).einfo = info.einfo ∧
    (gangOf t v).eaddr = info.addr ∧ (gangOf t v).einsn = info.insn
  results : ∀ i < 32, (laneOf t v i).regs = (laneOf s v i).regs ∧ (laneOf t v i).preds = (laneOf s v i).preds ∧
    (laneOf t v i).fst = (laneOf s v i).fst
  others : ∀ i < 32, i ∉ v.iss.group → (laneOf t v i).sys = (laneOf s v i).sys ∧ (laneOf t v i).st = (laneOf s v i).st ∧
    (laneOf t v i).pc = (laneOf s v i).pc
  gang : (gangOf t v).cregs = (gangOf s v).cregs ∧ (gangOf t v).flags = (gangOf s v).flags ∧
    (gangOf t v).chunks = (gangOf s v).chunks
  stopped : (bayOf t v.core v.bay).issue = none
  elsewhere : Elsewhere s t v

/-- The handler of the team in issue for a class of fault stands at `tv`, and no lane of the issue group is in a handler already. -/
def Handles (s : State) (v : View) (cause : Cause) (tv : DWord) (tmem : Option Bool := none) : Prop :=
  traps cause = true ∧ (∀ i ∈ v.iss.group, (laneOf s v i).trapped = false) ∧ handlerFor s v.team.ctx cause tmem = some tv

/-- No handler takes the fault: none is installed for its class, or a lane of the issue group is in one already (R377). -/
def Unhandled (s : State) (v : View) (cause : Cause) (tmem : Option Bool := none) : Prop :=
  cause ≠ .residency ∧ ((∃ i ∈ v.iss.group, (laneOf s v i).trapped = true) ∨ handlerFor s v.team.ctx cause tmem = none)

end Sys2Proof.Machine
end

