-- ==== Sys2Proof/Certificates/Slice0/Obligations.lean ====
section
/-! DEFINITION. The statements for the provers: what reset leaves, how a step runs an instruction, decoding, what each instruction and
each step of the machine does and leaves alone, and what every step keeps. `Computes`, `ComputesLater`, `Queues` and `EndsWith`
of Safety.lean conclude that exec answers a next state whenever the instruction passes the checks of R62, and say what that
state holds and keeps. -/

open Sys2Proof Sys2Proof.Machine

-- Integer instructions (05)

/-- R114 to R119: moves and arithmetic. -/
def Obligations.IntegerArithmeticComputes : Prop := ∀ s c v,
  (∀ d a w64, Computes s c v (.mov c d a w64) (names [oW w64 a] (dW w64 d)) noOwn (fun _ x i => { regs := (x i).vals.getD 0 [] })) ∧
  (∀ d imm, Computes s c v (.movImm c d imm) (names [] (d1 d)) noOwn (fun _ _ _ => .word (BitVec.ofInt 32 imm))) ∧
  (∀ d k hi z, k < 65536 → Computes s c v (.movk c d k hi z) { dst := d1 d, readsDst := !z } noOwn (fun _ x i =>
    let old : Word := if z then 0 else (x i).old.getD 0 0
    .word (if hi then BitVec.ofNat 16 k ++ old.extractLsb' 0 16 else old.extractLsb' 16 16 ++ BitVec.ofNat 16 k))) ∧
  (∀ d a b t, Computes s c v (.iadd c d a b t) (names [o1 a, o1 b] (d1 d)) noOwn (fun _ x i =>
    .word (narrowed 32 t (((x i).w 0).toInt + ((x i).w 1).toInt) (((x i).w 0).toNat + ((x i).w 1).toNat)))) ∧
  (∀ d a imm, Computes s c v (.iaddImm c d a imm) (names [o1 a] (d1 d)) noOwn (fun _ x i =>
    .word ((x i).w 0 + BitVec.ofInt 32 imm))) ∧
  (∀ d a b t, Computes s c v (.isub c d a b t) (names [o1 a, o1 b] (d1 d)) noOwn (fun _ x i =>
    .word (narrowed 32 t (((x i).w 0).toInt - ((x i).w 1).toInt) ((((x i).w 0).toNat : Int) - ((x i).w 1).toNat)))) ∧
  (∀ d a imm, Computes s c v (.isubImm c d a imm) (names [o1 a] (d1 d)) noOwn (fun _ x i =>
    .word ((x i).w 0 - BitVec.ofInt 32 imm))) ∧
  (∀ d a b t, Computes s c v (.imul c d a b t) (names [o1 a, o1 b] (d1 d)) noOwn (fun _ x i =>
    .word (narrowed 32 t (((x i).w 0).toInt * ((x i).w 1).toInt) (((x i).w 0).toNat * ((x i).w 1).toNat)))) ∧
  (∀ d a imm, Computes s c v (.imulImm c d a imm) (names [o1 a] (d1 d)) noOwn (fun _ x i =>
    .word ((x i).w 0 * BitVec.ofInt 32 imm))) ∧
  (∀ d a b t, Computes s c v (.imulh c d a b t) (names [o1 a, o1 b] (d1 d)) noOwn (fun _ x i =>
    .word ((match t with
      | .s => BitVec.ofInt 64 (((x i).w 0).toInt * ((x i).w 1).toInt)
      | .n => BitVec.ofNat 64 (((x i).w 0).toNat * ((x i).w 1).toNat)).extractLsb' 32 32))) ∧
  (∀ d a b e t, Computes s c v (.imad c d a b e t) (names [o1 a, o1 b, o1 e] (d1 d)) noOwn (fun _ x i =>
    .word (narrowed 32 t (((x i).w 0).toInt * ((x i).w 1).toInt + ((x i).w 2).toInt)
      (((x i).w 0).toNat * ((x i).w 1).toNat + ((x i).w 2).toNat)))) ∧
  (∀ d a b e t, Computes s c v (.imadw c d a b e t) (names [o1 a, o1 b, o2 e] (d2 d)) noOwn (fun _ x i =>
    .dword (match t with
      | .s => ((x i).w 0).signExtend 64 * ((x i).w 1).signExtend 64 + (x i).d 2
      | .n => ((x i).w 0).setWidth 64 * ((x i).w 1).setWidth 64 + (x i).d 2))) ∧
  (∀ d a b t, Computes s c v (.iadd64 c d a b t) (names [o2 a, o2 b] (d2 d)) noOwn (fun _ x i =>
    .dword (narrowed 64 t (((x i).d 0).toInt + ((x i).d 1).toInt) (((x i).d 0).toNat + ((x i).d 1).toNat)))) ∧
  (∀ d a b t, Computes s c v (.isub64 c d a b t) (names [o2 a, o2 b] (d2 d)) noOwn (fun _ x i =>
    .dword (narrowed 64 t (((x i).d 0).toInt - ((x i).d 1).toInt) ((((x i).d 0).toNat : Int) - ((x i).d 1).toNat))))

/-- R120: quotient and remainder, written when the flag shows them complete. -/
def Obligations.DivisionComputesLater : Prop := ∀ s c v d a b t,
  ComputesLater s c v (.idiv c d a b t) (names [oW (ity64 t) a, oW (ity64 t) b] (dW (ity64 t) d)) (fun _ x i =>
    match t with
    | .s32 => .word (if (x i).w 1 = 0 then BitVec.allOnes 32 else ((x i).w 0).sdiv ((x i).w 1))
    | .n32 => .word (if (x i).w 1 = 0 then BitVec.allOnes 32 else (x i).w 0 / (x i).w 1)
    | .s64 => .dword (if (x i).d 1 = 0 then BitVec.allOnes 64 else ((x i).d 0).sdiv ((x i).d 1))
    | .n64 => .dword (if (x i).d 1 = 0 then BitVec.allOnes 64 else (x i).d 0 / (x i).d 1)) ∧
  ComputesLater s c v (.irem c d a b t) (names [oW (ity64 t) a, oW (ity64 t) b] (dW (ity64 t) d)) (fun _ x i =>
    match t with
    | .s32 => .word (if (x i).w 1 = 0 then (x i).w 0 else ((x i).w 0).srem ((x i).w 1))
    | .n32 => .word (if (x i).w 1 = 0 then (x i).w 0 else (x i).w 0 % (x i).w 1)
    | .s64 => .dword (if (x i).d 1 = 0 then (x i).d 0 else ((x i).d 0).srem ((x i).d 1))
    | .n64 => .dword (if (x i).d 1 = 0 then (x i).d 0 else (x i).d 0 % (x i).d 1))

/-- R121, R122: signs and order. -/
def Obligations.SignAndOrderCompute : Prop := ∀ s c v,
  (∀ d a t, Computes s c v (.ineg c d a t) (names [oW (neg64 t) a] (dW (neg64 t) d)) noOwn (fun _ x i =>
    match t with
    | .s32 => .word (-(x i).w 0)
    | .s32sat => .word (if (x i).w 0 = 0x80000000 then 0x7FFFFFFF else -(x i).w 0)
    | .s64 => .dword (-(x i).d 0)
    | .s64sat => .dword (if (x i).d 0 = 0x8000000000000000 then 0x7FFFFFFFFFFFFFFF else -(x i).d 0))) ∧
  (∀ d a t, Computes s c v (.iabs c d a t) (names [oW (neg64 t) a] (dW (neg64 t) d)) noOwn (fun _ x i =>
    match t with
    | .s32 => .word ((x i).w 0).abs
    | .s32sat => .word (if (x i).w 0 = 0x80000000 then 0x7FFFFFFF else ((x i).w 0).abs)
    | .s64 => .dword ((x i).d 0).abs
    | .s64sat => .dword (if (x i).d 0 = 0x8000000000000000 then 0x7FFFFFFFFFFFFFFF else ((x i).d 0).abs))) ∧
  (∀ d a b t, Computes s c v (.imin c d a b t) (names [oW (ity64 t) a, oW (ity64 t) b] (dW (ity64 t) d)) noOwn (fun _ x i =>
    match t with
    | .s32 => .word (if ((x i).w 0).sle ((x i).w 1) then (x i).w 0 else (x i).w 1)
    | .n32 => .word (if (x i).w 0 ≤ (x i).w 1 then (x i).w 0 else (x i).w 1)
    | .s64 => .dword (if ((x i).d 0).sle ((x i).d 1) then (x i).d 0 else (x i).d 1)
    | .n64 => .dword (if (x i).d 0 ≤ (x i).d 1 then (x i).d 0 else (x i).d 1))) ∧
  (∀ d a imm, Computes s c v (.iminImm c d a imm) (names [o1 a] (d1 d)) noOwn (fun _ x i =>
    .word (if ((x i).w 0).sle (BitVec.ofInt 32 imm) then (x i).w 0 else BitVec.ofInt 32 imm))) ∧
  (∀ d a b t, Computes s c v (.imax c d a b t) (names [oW (ity64 t) a, oW (ity64 t) b] (dW (ity64 t) d)) noOwn (fun _ x i =>
    match t with
    | .s32 => .word (if ((x i).w 0).sle ((x i).w 1) then (x i).w 1 else (x i).w 0)
    | .n32 => .word (if (x i).w 0 ≤ (x i).w 1 then (x i).w 1 else (x i).w 0)
    | .s64 => .dword (if ((x i).d 0).sle ((x i).d 1) then (x i).d 1 else (x i).d 0)
    | .n64 => .dword (if (x i).d 0 ≤ (x i).d 1 then (x i).d 1 else (x i).d 0))) ∧
  (∀ d a imm, Computes s c v (.imaxImm c d a imm) (names [o1 a] (d1 d)) noOwn (fun _ x i =>
    .word (if ((x i).w 0).sle (BitVec.ofInt 32 imm) then BitVec.ofInt 32 imm else (x i).w 0)))

/-- R123, R126, R127: truth tables, fields, counts and bit reversal. -/
def Obligations.BitFieldsCompute : Prop := ∀ s c v,
  (∀ d a b tbl, Computes s c v (.logt c d a b tbl) { srcs := [o1 a, o1 b], dst := d1 d, readsDst := true } noOwn (fun _ x i =>
    .word (BitVec.ofFnLE (fun (j : Fin 32) => tbl.testBit
      (4 * (((x i).w 0).getLsbD j).toNat + 2 * (((x i).w 1).getLsbD j).toNat + (((x i).old.getD 0 0).getLsbD j).toNat))))) ∧
  (∀ d a f t, Computes s c v (.bfx c d a f t) (names [o1 a, o1 f] (d1 d)) noOwn (fun _ x i =>
    let pos := (((x i).w 1).extractLsb' 0 8).toNat
    let len := (((x i).w 1).extractLsb' 8 8).toNat
    .word (if 32 ≤ pos ∨ len = 0 then 0
      else match t with
        | .n => (((x i).w 0 >>> pos).setWidth (min len (32 - pos))).setWidth 32
        | .s => (((x i).w 0 >>> pos).setWidth (min len (32 - pos))).signExtend 32))) ∧
  (∀ d ins base f, Computes s c v (.bfi c d ins base f) (names [o1 ins, o1 base, o1 f] (d1 d)) noOwn (fun _ x i =>
    let pos := (((x i).w 2).extractLsb' 0 8).toNat
    let len := (((x i).w 2).extractLsb' 8 8).toNat
    let m : Word := ((BitVec.allOnes (min len (32 - pos))).setWidth 32) <<< pos
    .word (if 32 ≤ pos ∨ len = 0 then (x i).w 1 else ((x i).w 1 &&& ~~~m) ||| (((x i).w 0 <<< pos) &&& m)))) ∧
  (∀ d a w64, Computes s c v (.popc c d a w64) (names [oW w64 a] (d1 d)) noOwn (fun _ x i =>
    .word (BitVec.ofNat 32 (if w64 then (List.range 64).countP (fun j => ((x i).d 0).getLsbD j)
      else (List.range 32).countP (fun j => ((x i).w 0).getLsbD j))))) ∧
  (∀ d a w64, Computes s c v (.clz c d a w64) (names [oW w64 a] (d1 d)) noOwn (fun _ x i =>
    .word (if w64 then ((x i).d 0).clz.setWidth 32 else ((x i).w 0).clz))) ∧
  (∀ d a w64, Computes s c v (.ctz c d a w64) (names [oW w64 a] (d1 d)) noOwn (fun _ x i =>
    .word (if w64 then ((x i).d 0).ctz.setWidth 32 else ((x i).w 0).ctz))) ∧
  (∀ d a w64, Computes s c v (.brev c d a w64) (names [oW w64 a] (dW w64 d)) noOwn (fun _ x i =>
    if w64 then .dword ((x i).d 0).reverse else .word ((x i).w 0).reverse))

/-- R124, R125: shifts, rotations and funnel shifts by any count. -/
def Obligations.ShiftsCompute : Prop := ∀ s c v,
  (∀ d a n w64, Computes s c v (.shl c d a n w64) (names [oW w64 a, o1 n] (dW w64 d)) noOwn (fun _ x i =>
    if w64 then .dword ((x i).d 0 <<< ((x i).w 1).toNat) else .word ((x i).w 0 <<< ((x i).w 1).toNat))) ∧
  (∀ d a n, Computes s c v (.shlImm c d a n) (names [o1 a] (d1 d)) noOwn (fun _ x i => .word ((x i).w 0 <<< n))) ∧
  (∀ d a n w64, Computes s c v (.shr c d a n w64) (names [oW w64 a, o1 n] (dW w64 d)) noOwn (fun _ x i =>
    if w64 then .dword ((x i).d 0 >>> ((x i).w 1).toNat) else .word ((x i).w 0 >>> ((x i).w 1).toNat))) ∧
  (∀ d a n, Computes s c v (.shrImm c d a n) (names [o1 a] (d1 d)) noOwn (fun _ x i => .word ((x i).w 0 >>> n))) ∧
  (∀ d a n w64, Computes s c v (.sar c d a n w64) (names [oW w64 a, o1 n] (dW w64 d)) noOwn (fun _ x i =>
    if w64 then .dword (((x i).d 0).sshiftRight ((x i).w 1).toNat) else .word (((x i).w 0).sshiftRight ((x i).w 1).toNat))) ∧
  (∀ d a n, Computes s c v (.sarImm c d a n) (names [o1 a] (d1 d)) noOwn (fun _ x i => .word (((x i).w 0).sshiftRight n))) ∧
  (∀ d a n w64, Computes s c v (.rot c d a n w64) (names [oW w64 a, o1 n] (dW w64 d)) noOwn (fun _ x i =>
    if w64 then .dword (((x i).d 0).rotateLeft ((x i).w 1).toNat) else .word (((x i).w 0).rotateLeft ((x i).w 1).toNat))) ∧
  (∀ d a n, Computes s c v (.rotImm c d a n) (names [o1 a] (d1 d)) noOwn (fun _ x i => .word (((x i).w 0).rotateLeft n))) ∧
  (∀ d lo hi n left, Computes s c v (.funl c d lo hi n left) (names [o1 lo, o1 hi, o1 n] (d1 d)) noOwn (fun _ x i =>
    let y : DWord := (x i).w 1 ++ (x i).w 0
    let k := min ((x i).w 2).toNat 32
    .word (if left then (y <<< k).extractLsb' 32 32 else (y >>> k).extractLsb' 0 32)))

/-- R128: an address is the base plus a scaled index plus an offset, modulo 2^64. -/
def Obligations.LeaFormsAddress : Prop := ∀ s c v d base idx off scale t,
  Computes s c v (.lea c d base idx off scale t) (names [o2 base, o1 idx, o1 off] (d2 d)) noOwn (fun _ x i =>
    .dword ((x i).d 0 + (match t with
      | .s => ((x i).w 1).signExtend 64
      | .n => ((x i).w 1).setWidth 64) * BitVec.ofNat 64 scale + ((x i).w 2).signExtend 64))

/-- R129 to R132: compares and predicates. -/
def Obligations.PredicatesCompute : Prop := ∀ s c v,
  (∀ pd a b k t, Computes s c v (.icmp c pd a b k t) (names [oW (ity64 t) a, oW (ity64 t) b] none) noOwn (fun _ x i =>
    let p : Int := match t with
      | .s32 => ((x i).w 0).toInt | .n32 => ((x i).w 0).toNat | .s64 => ((x i).d 0).toInt | .n64 => ((x i).d 0).toNat
    let q : Int := match t with
      | .s32 => ((x i).w 1).toInt | .n32 => ((x i).w 1).toNat | .s64 => ((x i).d 1).toInt | .n64 => ((x i).d 1).toNat
    .pred pd (match k with
      | .eq => decide (p = q)
      | .ne => decide (p ≠ q)
      | .lt => decide (p < q)
      | .le => decide (p ≤ q)
      | .gt => decide (p > q)
      | .ge => decide (p ≥ q)
      | .tst => if ity64 t then decide ((x i).d 0 &&& (x i).d 1 ≠ 0) else decide ((x i).w 0 &&& (x i).w 1 ≠ 0)))) ∧
  (∀ d a b ps inv w64, Computes s c v (.sel c d a b ps inv w64)
    { srcs := [oW w64 a, oW w64 b], dst := dW w64 d, psrc := [ps], perLane := true } noOwn (fun _ x i =>
    { regs := (x i).vals.getD (if (x i).lane.pred ps = inv then 1 else 0) [] })) ∧
  (∀ pd pa pb tbl, Computes s c v (.plog c pd pa pb tbl) { psrc := [pa, pb, pd] } noOwn (fun _ x i =>
    .pred pd (tbl.testBit (4 * ((x i).lane.pred pa).toNat + 2 * ((x i).lane.pred pb).toNat + ((x i).lane.pred pd).toNat)))) ∧
  (∀ d bank, bank < 3 → Computes s c v (.prd c d bank) { dst := d1 d, psrc := bankPreds bank, perLane := true } noOwn (fun _ x i =>
    .word (BitVec.ofFnLE (fun (j : Fin 32) => (x i).lane.pred (32 * bank + j))))) ∧
  (∀ a m bank, Computes s c v (.pwr c a m bank) (names [o1 a, o1 m] none) noOwn (fun _ x i =>
    { preds := ((List.range 32).filter (fun j => ((x i).w 1).getLsbD j)).map (fun j => (32 * bank + j, ((x i).w 0).getLsbD j)) }))

-- Floating point (06)

/-- R155, R156, R159 to R161: FP32 arithmetic on exact values, rounded once. -/
def Obligations.Fp32Computes : Prop := ∀ s c v,
  (∀ d a b r, Computes s c v (.fadd c d a b r) (names [o1 a, o1 b] (d1 d)) noOwn (fun _ x i =>
    rounded .f32 r [((x i).w 0).toNat, ((x i).w 1).toNat] (sumNum (r == .rm) [dec .f32 ((x i).w 0).toNat, dec .f32 ((x i).w 1).toNat], 0))) ∧
  (∀ d a b r, Computes s c v (.fsub c d a b r) (names [o1 a, o1 b] (d1 d)) noOwn (fun _ x i =>
    rounded .f32 r [((x i).w 0).toNat, ((x i).w 1).toNat]
      (sumNum (r == .rm) [dec .f32 ((x i).w 0).toNat, (dec .f32 ((x i).w 1).toNat).neg], 0))) ∧
  (∀ d a b r, Computes s c v (.fmul c d a b r) (names [o1 a, o1 b] (d1 d)) noOwn (fun _ x i =>
    rounded .f32 r [((x i).w 0).toNat, ((x i).w 1).toNat] (mulNum (dec .f32 ((x i).w 0).toNat) (dec .f32 ((x i).w 1).toNat), 0))) ∧
  (∀ d a b e r, Computes s c v (.ffma c d a b e r) (names [o1 a, o1 b, o1 e] (d1 d)) noOwn (fun _ x i =>
    rounded .f32 r [((x i).w 0).toNat, ((x i).w 1).toNat, ((x i).w 2).toNat]
      (sumNum (r == .rm) [mulNum (dec .f32 ((x i).w 0).toNat) (dec .f32 ((x i).w 1).toNat), dec .f32 ((x i).w 2).toNat], 0))) ∧
  (∀ d a b, Computes s c v (.fmin c d a b) (names [o1 a, o1 b] (d1 d)) noOwn (fun _ x i =>
    let p := dec .f32 ((x i).w 0).toNat
    let q := dec .f32 ((x i).w 1).toNat
    fltOut .f32 (withOperands .f32 [((x i).w 0).toNat, ((x i).w 1).toNat]
      (if p.isNan then (if q.isNan then 0x7FC00000 else ((x i).w 1).toNat) else if q.isNan then ((x i).w 0).toNat
       else if cmpNum p q = .lt ∨ (cmpNum p q = .eq ∧ (p.negOf ∨ ¬ q.negOf)) then ((x i).w 0).toNat else ((x i).w 1).toNat, 0)))) ∧
  (∀ d a b, Computes s c v (.fmax c d a b) (names [o1 a, o1 b] (d1 d)) noOwn (fun _ x i =>
    let p := dec .f32 ((x i).w 0).toNat
    let q := dec .f32 ((x i).w 1).toNat
    fltOut .f32 (withOperands .f32 [((x i).w 0).toNat, ((x i).w 1).toNat]
      (if p.isNan then (if q.isNan then 0x7FC00000 else ((x i).w 1).toNat) else if q.isNan then ((x i).w 0).toNat
       else if cmpNum p q = .lt ∨ (cmpNum p q = .eq ∧ (p.negOf ∨ ¬ q.negOf)) then ((x i).w 1).toNat else ((x i).w 0).toNat, 0)))) ∧
  (∀ d a r, Computes s c v (.frnd c d a r) (names [o1 a] (d1 d)) noOwn (fun _ x i =>
    fltOut .f32 (withOperands .f32 [((x i).w 0).toNat] (rne .f32 (match dec .f32 ((x i).w 0).toNat with
      | .fin neg m e _ => ofInt (roundInt r neg m e).1 0 neg
      | n => n))))) ∧
  (∀ d a, Computes s c v (.fcls c d a .f32) (names [o1 a] (d1 d)) noOwn (fun _ x i =>
    .word (BitVec.ofNat 32 (2 ^ classBit .f32 ((x i).w 0).toNat)))) ∧
  (∀ d a, Computes s c v (.fcls c d a .f64) (names [o2 a] (d1 d)) noOwn (fun _ x i =>
    .word (BitVec.ofNat 32 (2 ^ classBit .f64 ((x i).d 0).toNat)))) ∧
  (∀ d a, Computes s c v (.fcls c d a .fst) { srcs := [o1 a], dst := d1 d, perLane := true, readsFst := true } noOwn (fun _ x i =>
    { regs := [(x i).lane.fst.setWidth 32], clr := ((x i).w 0).setWidth 6, setsFst := true })) ∧
  (∀ d a n r, Computes s c v (.fscl c d a n r) (names [o1 a, o1 n] (d1 d)) noOwn (fun _ x i =>
    fltOut .f32 (withOperands .f32 [((x i).w 0).toNat]
      (roundTo .f32 r 0 false (scaleNum (dec .f32 ((x i).w 0).toNat) ((x i).w 1).toInt)))))

/-- R157: the ordered and unordered compares, with IV for a signalling NaN, and for any NaN under .lt, .le, .gt and .ge. -/
def Obligations.FloatComparesCompute : Prop := ∀ s c v,
  (∀ pd a b k, Computes s c v (.fcmp c pd a b k) (names [o1 a, o1 b] none) noOwn (fun _ x i =>
    let p := dec .f32 ((x i).w 0).toNat
    let q := dec .f32 ((x i).w 1).toNat
    let un := p.isNan || q.isNan
    { preds := [(pd, match k with
        | .un => un
        | .ne => un || cmpNum p q != .eq
        | .eq => !un && cmpNum p q == .eq
        | .lt => !un && cmpNum p q == .lt
        | .le => !un && cmpNum p q != .gt
        | .gt => !un && cmpNum p q == .gt
        | .ge => !un && cmpNum p q != .lt)],
      setsFst := true,
      fst := (if un ∧ (k = .lt ∨ k = .le ∨ k = .gt ∨ k = .ge) then fIV else 0) |||
        dnOf .f32 [((x i).w 0).toNat, ((x i).w 1).toNat] ||| ivOf .f32 [((x i).w 0).toNat, ((x i).w 1).toNat] })) ∧
  (∀ pd a b k, Computes s c v (.dcmp c pd a b k) (names [o2 a, o2 b] none) noOwn (fun _ x i =>
    let p := dec .f64 ((x i).d 0).toNat
    let q := dec .f64 ((x i).d 1).toNat
    let un := p.isNan || q.isNan
    { preds := [(pd, match k with
        | .un => un
        | .ne => un || cmpNum p q != .eq
        | .eq => !un && cmpNum p q == .eq
        | .lt => !un && cmpNum p q == .lt
        | .le => !un && cmpNum p q != .gt
        | .gt => !un && cmpNum p q == .gt
        | .ge => !un && cmpNum p q != .lt)],
      setsFst := true,
      fst := (if un ∧ (k = .lt ∨ k = .le ∨ k = .gt ∨ k = .ge) then fIV else 0) |||
        dnOf .f64 [((x i).d 0).toNat, ((x i).d 1).toNat] ||| ivOf .f64 [((x i).d 0).toNat, ((x i).d 1).toNat] }))

/-- R162, R163: FP64 arithmetic on pairs, and two 16-bit elements per register. -/
def Obligations.DoubleAndHalvesCompute : Prop := ∀ s c v,
  (∀ d a b r sub, Computes s c v (.dadd c d a b r sub) (names [o2 a, o2 b] (d2 d)) noOwn (fun _ x i =>
    rounded .f64 r [((x i).d 0).toNat, ((x i).d 1).toNat] (sumNum (r == .rm) [dec .f64 ((x i).d 0).toNat,
      if sub then (dec .f64 ((x i).d 1).toNat).neg else dec .f64 ((x i).d 1).toNat], 0))) ∧
  (∀ d a b r, Computes s c v (.dmul c d a b r) (names [o2 a, o2 b] (d2 d)) noOwn (fun _ x i =>
    rounded .f64 r [((x i).d 0).toNat, ((x i).d 1).toNat] (mulNum (dec .f64 ((x i).d 0).toNat) (dec .f64 ((x i).d 1).toNat), 0))) ∧
  (∀ d a b e r, Computes s c v (.dfma c d a b e r) (names [o2 a, o2 b, o2 e] (d2 d)) noOwn (fun _ x i =>
    rounded .f64 r [((x i).d 0).toNat, ((x i).d 1).toNat, ((x i).d 2).toNat]
      (sumNum (r == .rm) [mulNum (dec .f64 ((x i).d 0).toNat) (dec .f64 ((x i).d 1).toNat), dec .f64 ((x i).d 2).toNat], 0))) ∧
  (∀ d a b rz sat, Computes s c v (.badd2 c d a b rz sat) (names [o1 a, o1 b] (d1 d)) noOwn (fun _ x i =>
    let r := fun k => elem16 .bf16 (if rz then .rz else .rn) sat [half16 ((x i).w 0) k, half16 ((x i).w 1) k]
    fltOut .f32 ((r 0).1 + 65536 * (r 1).1, (r 0).2 ||| (r 1).2))) ∧
  (∀ d a b e rz sat, Computes s c v (.bfma2 c d a b e rz sat) (names [o1 a, o1 b, o1 e] (d1 d)) noOwn (fun _ x i =>
    let r := fun k => elem16 .bf16 (if rz then .rz else .rn) sat [half16 ((x i).w 0) k, half16 ((x i).w 1) k, half16 ((x i).w 2) k]
    fltOut .f32 ((r 0).1 + 65536 * (r 1).1, (r 0).2 ||| (r 1).2))) ∧
  (∀ d a b e rz sat, Computes s c v (.hfma2 c d a b e rz sat) (names [o1 a, o1 b, o1 e] (d1 d)) noOwn (fun _ x i =>
    let r := fun k => elem16 .f16 (if rz then .rz else .rn) sat [half16 ((x i).w 0) k, half16 ((x i).w 1) k, half16 ((x i).w 2) k]
    fltOut .f32 ((r 0).1 + 65536 * (r 1).1, (r 0).2 ||| (r 1).2)))

/-- R158, R162: the flag-tracked functions; their results and fst bits wait for completion. -/
def Obligations.FloatFunctionsComputeLater : Prop := ∀ s c v,
  (∀ d a b r, ComputesLater s c v (.fdiv c d a b r) (names [o1 a, o1 b] (d1 d)) (fun _ x i =>
    rounded .f32 r [((x i).w 0).toNat, ((x i).w 1).toNat] (divNum (dec .f32 ((x i).w 0).toNat) (dec .f32 ((x i).w 1).toNat)))) ∧
  (∀ d a r, ComputesLater s c v (.fsqrt c d a r) (names [o1 a] (d1 d)) (fun _ x i =>
    rounded .f32 r [((x i).w 0).toNat] (sqrtNum (dec .f32 ((x i).w 0).toNat), 0))) ∧
  (∀ d a, ComputesLater s c v (.frcp c d a) (names [o1 a] (d1 d)) (fun _ x i =>
    rounded .f32 .rn [((x i).w 0).toNat] (divNum (.fin false 1 0 false) (dec .f32 ((x i).w 0).toNat)))) ∧
  (∀ d a, ComputesLater s c v (.frsq c d a) (names [o1 a] (d1 d)) (fun _ x i =>
    rounded .f32 .rn [((x i).w 0).toNat] (rsqNum (dec .f32 ((x i).w 0).toNat)))) ∧
  (∀ d a, ComputesLater s c v (.fexp2 c d a) (names [o1 a] (d1 d)) (fun _ x i =>
    rounded .f32 .rn [((x i).w 0).toNat] (exp2Num (dec .f32 ((x i).w 0).toNat), 0))) ∧
  (∀ d a, ComputesLater s c v (.flog2 c d a) (names [o1 a] (d1 d)) (fun _ x i =>
    rounded .f32 .rn [((x i).w 0).toNat] (log2Num (dec .f32 ((x i).w 0).toNat)))) ∧
  (∀ d a, ComputesLater s c v (.fsin c d a) (names [o1 a] (d1 d)) (fun _ x i =>
    rounded .f32 .rn [((x i).w 0).toNat] (sinNum (dec .f32 ((x i).w 0).toNat), 0))) ∧
  (∀ d a, ComputesLater s c v (.fcos c d a) (names [o1 a] (d1 d)) (fun _ x i =>
    rounded .f32 .rn [((x i).w 0).toNat] (cosNum (dec .f32 ((x i).w 0).toNat), 0))) ∧
  (∀ d a b r, ComputesLater s c v (.ddiv c d a b r) (names [o2 a, o2 b] (d2 d)) (fun _ x i =>
    rounded .f64 r [((x i).d 0).toNat, ((x i).d 1).toNat] (divNum (dec .f64 ((x i).d 0).toNat) (dec .f64 ((x i).d 1).toNat)))) ∧
  (∀ d a r, ComputesLater s c v (.dsqrt c d a r) (names [o2 a] (d2 d)) (fun _ x i =>
    rounded .f64 r [((x i).d 0).toNat] (sqrtNum (dec .f64 ((x i).d 0).toNat), 0)))

/-- R164, R165: conversions and packed fields, and what a conversion gives: to an integer type, a NaN gives 0, a value outside the
range its nearest end, both with IV, and any other the integer of the rounding mode; to a float type, the exact value rounded once. -/
def Obligations.ConversionsCompute : Prop := (∀ f st mode sat x rb,
    let w := fun (t : ITy) => cvtRes (.int t) (.fl f) mode sat x rb
    let dn := dnOf f [x.toNat]
    let src : Sys2Proof.Machine.Num × Flags := match st with
      | .fl g => (dec g x.toNat, dnOf g [x.toNat])
      | .int .s32 => (ofInt (x.extractLsb' 0 32).toInt 0 false, 0)
      | .int .n32 => (ofInt (x.extractLsb' 0 32).toNat 0 false, 0)
      | .int .s64 => (ofInt x.toInt 0 false, 0)
      | .int .n64 => (ofInt x.toNat 0 false, 0)
    (∀ t lo hi, (t, lo, hi) ∈ ([(.s32, -(2 ^ 31), 2 ^ 31 - 1), (.n32, 0, 2 ^ 32 - 1), (.s64, -(2 ^ 63), 2 ^ 63 - 1),
        (.n64, 0, 2 ^ 64 - 1)] : List (ITy × Int × Int)) → mode ≠ .rx →
      match dec f x.toNat with
      | .nan _ => w t = (0, fIV ||| dn)
      | .inf neg => w t = (BitVec.ofInt 64 (if neg then lo else hi), fIV ||| dn)
      | .fin neg m e _ => ∃ n, Rounds mode (sgn neg (m * 2 ^ e.toNat)) (2 ^ (-e).toNat) n ∧
          w t = (BitVec.ofInt 64 (max lo (min hi n)),
            (if n < lo ∨ hi < n then fIV ||| fIX else if n * 2 ^ (-e).toNat = sgn neg (m * 2 ^ e.toNat) then 0 else fIX) ||| dn)) ∧
    (∀ g, cvtRes (.fl g) st mode sat x rb =
      (let r := roundTo g mode rb.toNat sat src.1
       (BitVec.ofNat 64 r.1, r.2 ||| src.2)))) ∧ ∀ s c v,
  (∀ d a rb dt st r sat, Computes s c v (.cvt c d a rb dt st r sat)
    (names (oW (cvt64 st) a :: (if r = .rx then [o1 rb] else [])) (dW (cvt64 dt) d)) noOwn (fun _ x i =>
      let q := cvtRes dt st r sat (if cvt64 st then (x i).d 0 else ((x i).w 0).setWidth 64) ((x i).w 1)
      { regs := if cvt64 dt then [lo32 q.1, hi32 q.1] else [lo32 q.1], fst := q.2, setsFst := true })) ∧
  (∀ d a j f, Computes s c v (.pack c d a j f) { srcs := [o1 a, o1 j], dst := d1 d, readsDst := true } noOwn (fun _ x i =>
    let w := packW f
    let k := ((x i).w 1).toNat % (32 / w)
    let old := ((x i).old.getD 0 0).toNat
    let r := withOperands .f32 [((x i).w 0).toNat] (rne f (dec .f32 ((x i).w 0).toNat))
    fltOut .f32 (old / 2 ^ (w * (k + 1)) * 2 ^ (w * (k + 1)) + r.1 * 2 ^ (w * k) + old % 2 ^ (w * k), r.2))) ∧
  (∀ d a j f, Computes s c v (.unpk c d a j f) (names [o1 a, o1 j] (d1 d)) noOwn (fun _ x i =>
    .word (BitVec.ofNat 32 (rne .f32 (dec f (((x i).w 0 >>> (packW f * (((x i).w 1).toNat % (32 / packW f)))).toNat % 2 ^ packW f))).1)))

/-- R149, R151, R166 to R168: activation tables and the random streams; what a table's image gives, with the manual's example; and the
ten rounds of XCG4, which send no two counters under a key to the same outputs. Where a step of R149 gives a NaN for t, ACT and ACTD
deliver the free value of log entry 13, and a knot delivered as it stands sets no IV (log entry 116): these are the model's choices. -/
def Obligations.TablesAndStreamsCompute : Prop :=
  (∀ (t : List Word) img free x, Evaluates (fun i => (t.getD (1040 * img + i) 0).toNat) free x (actEval t img free x)) ∧
  (∀ (t : List Word) free, t.getD 0 0 = 0xC0800000 → t.getD 2 0 = 0x43000000 → t.getD 558 0 = 0x3DB48000 → t.getD 559 0 = 0x3DBE2000 →
    actEval t 0 free 0x3E99999A = (0x3DB859A9, 0)) ∧
  (∀ ctr k0 k1, let x := (List.range 10).foldl (fun x j => xcgRound k0 k1 (j + 1) x) ctr
    xcg4 ctr k0 k1 = [x.1, x.2.1, x.2.2.1, x.2.2.2]) ∧
  (∀ p q k0 k1, xcg4 p k0 k1 = xcg4 q k0 k1 → p = q) ∧ ∀ s c v,
  (∀ d x slot, Computes s c v (.act c d x slot) (names [o1 x] (d1 d)) noOwn (fun u y i =>
    fltOut .f32 (actEval (tableOf s u.core slot) 0 (Config.freeWord (freeIdx s.fresh i)) ((y i).w 0).toNat))) ∧
  (∀ d x g slot, Computes s c v (.actd c d x g slot) (names [o1 x, o1 g] (d1 d)) noOwn (fun u y i =>
    let dv := actEval (tableOf s u.core slot) 1 (Config.freeWord (freeIdx s.fresh i)) ((y i).w 0).toNat
    let r := withOperands .f32 [((y i).w 1).toNat] (rne .f32 (mulNum (dec .f32 dv.1) (dec .f32 ((y i).w 1).toNat)))
    fltOut .f32 (r.1, r.2 ||| dv.2))) ∧
  (∀ d ctr key, Computes s c v (.xrng c d ctr key)
    (names [{ name := ctr, words := 4 }, o2 key] (some { name := d, words := 4 })) noOwn (fun _ x i =>
      let q := (x i).vals.getD 0 []
      let k := (x i).vals.getD 1 []
      { regs := xcg4 (q.getD 0 0, q.getD 1 0, q.getD 2 0, q.getD 3 0) (k.getD 0 0) (k.getD 1 0) })) ∧
  (∀ d a, Computes s c v (.xrngf c d a) (names [o1 a] (d1 d)) noOwn (fun _ x i =>
    .word (BitVec.ofNat 32 (rne .f32 (.fin false ((x i).w 0 >>> 8).toNat (-24) false)).1)))

-- Exchange (07)

/-- R176, R177: lane reads within a quad or a gang, with their fill and validity predicate (R170, R171), and quad differences. -/
def Obligations.LaneReadsCompute : Prop := ∀ s c v,
  (∀ d a m f pv, Computes s c v (.qswp c d a m f pv) { srcs := [o1 a, o1 m, o1 f], dst := d1 d, perLane := true } noOwn (fun u x i =>
    let p := i / 4 * 4 + ((i % 4) ^^^ (((x i).w 1).toNat % 4))
    if validSource u true p then { regs := [(x p).w 0], preds := pvOut pv true }
    else { regs := [(x i).w 2], preds := pvOut pv false })) ∧
  (∀ d a j f pv, Computes s c v (.qbc c d a j f pv) { srcs := [o1 a, o1 j, o1 f], dst := d1 d, perLane := true } noOwn (fun u x i =>
    let p := i / 4 * 4 + ((x i).w 1).toNat % 4
    if validSource u true p then { regs := [(x p).w 0], preds := pvOut pv true }
    else { regs := [(x i).w 2], preds := pvOut pv false })) ∧
  (∀ d a f pv, Computes s c v (.qdx c d a f pv) { srcs := [o1 a, o1 f], dst := d1 d, perLane := true } noOwn (quadDiff 1 pv)) ∧
  (∀ d a f pv, Computes s c v (.qdy c d a f pv) { srcs := [o1 a, o1 f], dst := d1 d, perLane := true } noOwn (quadDiff 2 pv)) ∧
  (∀ d a e f pv, Computes s c v (.perm c d a e f pv) { srcs := [o1 a, o1 e, o1 f], dst := d1 d, perLane := true } noOwn (fun u x i =>
    let p := ((x i).w 1).toNat
    if p < 32 ∧ validSource u false p then { regs := [(x p).w 0], preds := pvOut pv true }
    else { regs := [(x i).w 2], preds := pvOut pv false })) ∧
  (∀ d a n f pv, Computes s c v (.shup c d a n f pv) { srcs := [o1 a, o1 n, o1 f], dst := d1 d, perLane := true } noOwn (fun u x i =>
    let k := ((x i).w 1).toNat
    if k ≤ i ∧ validSource u false (i - k) then { regs := [(x (i - k)).w 0], preds := pvOut pv true }
    else { regs := [(x i).w 2], preds := pvOut pv false })) ∧
  (∀ d a n f pv, Computes s c v (.shdn c d a n f pv) { srcs := [o1 a, o1 n, o1 f], dst := d1 d, perLane := true } noOwn (fun u x i =>
    let p := i + ((x i).w 1).toNat
    if p < 32 ∧ validSource u false p then { regs := [(x p).w 0], preds := pvOut pv true }
    else { regs := [(x i).w 2], preds := pvOut pv false })) ∧
  (∀ d a n f pv, Computes s c v (.shxr c d a n f pv) { srcs := [o1 a, o1 n, o1 f], dst := d1 d, perLane := true } noOwn (fun u x i =>
    let k := ((x i).w 1).toNat
    if k < 32 ∧ validSource u false (i ^^^ k) then { regs := [(x (i ^^^ k)).w 0], preds := pvOut pv true }
    else { regs := [(x i).w 2], preds := pvOut pv false }))

/-- R178 to R180: votes, matches, scans, reductions, and indirect registers. -/
def Obligations.ReductionsCompute : Prop := ∀ s c v,
  (∀ d a m, Computes s c v (.vote c d a m) { srcs := [o1 a], dst := d1 d, cOk := true } noOwn (fun u x _ =>
    let vs := u.contrib
    .word (match m with
      | .ballot => maskOf (vs.filter (fun p => (x p).w 0 != 0))
      | .any => if vs.any (fun p => (x p).w 0 != 0) then 1 else 0
      | .all => if vs.all (fun p => (x p).w 0 != 0) then 1 else 0
      | .uni => if vs.all (fun p => vs.all (fun q => (x p).w 0 == (x q).w 0)) then 1 else 0))) ∧
  (∀ d a w64, Computes s c v (.mtch c d a w64) { srcs := [oW w64 a], dst := dW w64 d, perLane := true } noOwn (fun u x i =>
    let mask := maskOf (u.contrib.filter (fun p => (x p).vals == (x i).vals))
    { regs := if w64 then [mask, 0] else [mask] })) ∧
  (∀ d a seed op, Computes s c v (.gscan c d a seed op) { srcs := [o1 a, o1 seed], dst := d1 d, perLane := true } noOwn (fun u x i =>
    .word ((u.contrib.filter (fun p => decide (p < i))).foldl (fun y p => redOp op y ((x p).w 0)) ((x i).w 1)))) ∧
  (∀ d a op, Computes s c v (.gred c d a op) { srcs := [o1 a], dst := d1 d, cOk := true } noOwn (fun u x _ =>
    .word (u.contrib.foldl (fun y p => redOp op y ((x p).w 0)) (redId op)))) ∧
  (∀ d n idx f pv, Computes s c v (.rdix c d (.g n) idx f pv) { srcs := [o1 idx, o1 f], dst := d1 d, perLane := true }
    (ixOwn s { srcs := [o1 idx, o1 f], dst := d1 d, perLane := true } (.g n) 0) (fun u x i =>
      let r := n + ((x i).w 0).toNat
      if r < 320 ∧ r < 64 * (1 + u.gang.chunks) then { regs := [(x i).lane.reg r], preds := pvOut pv true }
      else { regs := [(x i).w 1], preds := pvOut pv false })) ∧
  (∀ n a idx pv, Computes s c v (.wrix c (.g n) a idx pv) { srcs := [o1 a, o1 idx], perLane := true } noOwn (fun u x i =>
    let r := n + ((x i).w 1).toNat
    if r < 320 ∧ r < 64 * (1 + u.gang.chunks) then { ind := some (r, (x i).w 0), preds := pvOut pv true }
    else { preds := pvOut pv false }))

-- Control (04)

/-- R93 to R97: a NOP changes nothing, transfers move the active lanes alone, EXIT ends them, YLD and HINTY mark them. The targets of
CALLX are read before the link is written (log entry 14). An EXIT with a deferred fault pending ends the team (log entry 105). -/
def Obligations.TransfersMoveActiveLanes : Prop := ∀ s c v,
  Computes s c v (.nop c) (names [] none) noOwn (fun _ _ _ => {}) ∧
  (∀ off, (v.iss.pc + BitVec.ofInt 64 (8 * off)).toNat % 8 = 0 → EndsWith s c v (.bra c off) (names [] none) noOwn
    (fun _ l => { l with pc := v.iss.pc + BitVec.ofInt 64 (8 * off) })) ∧
  (∀ a, (∀ i ∈ v.active, (v.src2 s.fresh i a).toNat % 8 = 0) → EndsWith s c v (.brx c a) (names [o2 a] none) (namesOwn [a])
    (fun i l => { l with pc := v.src2 s.fresh i a })) ∧
  (∀ a, (∀ i ∈ v.active, (v.src2 s.fresh i a).toNat % 8 = 0) → EndsWith s c v (.ret c a) (names [o2 a] none) (namesOwn [a])
    (fun i l => { l with pc := v.src2 s.fresh i a })) ∧
  (∀ n off, (v.iss.pc + BitVec.ofInt 64 (8 * off)).toNat % 8 = 0 → EndsWith s c v (.call c (.g n) off) (names [] (d2 (.g n)))
    noOwn (fun _ l => { l.setRegs n [lo32 v.nextPc, hi32 v.nextPc] with pc := v.iss.pc + BitVec.ofInt 64 (8 * off) })) ∧
  (∀ n a, (∀ i ∈ v.active, (v.src2 s.fresh i a).toNat % 8 = 0) → EndsWith s c v (.callx c (.g n) a) (names [o2 a] (d2 (.g n)))
    (namesOwn [a]) (fun i l => { l.setRegs n [lo32 v.nextPc, hi32 v.nextPc] with pc := v.src2 s.fresh i a })) ∧
  ((∀ i ∈ v.active, (v.gang.lane i).deferred = none) → EndsWith s c v (.exit c) (names [] none) noOwn (fun _ l =>
    { l with st := .exited, handler := false, since := s.fresh, pos := [], pre := [], claims := [] })) ∧
  (∀ f, Passes s c {} noOwn v → v.active.findSome? (fun i => (v.gang.lane i).deferred) = some f → v.team.ending = none →
    ∃ t u, exec (.exit c) s = .next t ∧ findTeam t v.iss.team = some u ∧ u.ending = some f ∧ t.mem = s.mem) ∧
  (∀ d, v.team.stopping = false → EndsWith s c v (.yld c d) (names [] none) noOwn (fun _ l => { l with wdog := 0, deadline := d })) ∧
  EndsWith s c v (.hinty c) (names [] none) noOwn (fun _ l => { l with demotedUntil := v.t + 64 })

/-- R83, R84, R98, R99: a lane arrives at a barrier or at REGRP with a release at its scope in its queue, blocks, and has met a
YLD point; in a team that is being stopped it stops there instead, in a handler only for a kill. -/
def Obligations.ArrivalsBlock : Prop := ∀ s c v,
  let arrives := fun w sc (_ : Nat) (l : Lane) => { waiting v.team w l with queue := l.queue ++ [LaneOp.plain (.rel sc)] }
  (∀ sc, EndsWith s c v (.barg c sc) (names [] none) noOwn (arrives (.barg sc) sc)) ∧
  (∀ sc, EndsWith s c v (.bart c sc) (names [] none) noOwn (arrives (.bart sc) sc)) ∧
  (∀ sc, EndsWith s c v (.barb c sc) (names [] none) noOwn (arrives (.barb sc) sc)) ∧
  (v.gang.chunks = 0 → EndsWith s c v (.regrp c) (names [] none) noOwn (arrives .regrp .core)) ∧
  (∀ d, EndsWith s c v (.yld c d) (names [] none) noOwn (fun _ l => match l.st with
    | .running => { l with wdog := 0, deadline := d, st := if v.team.stopping then .stopped none else .running }
    | .trapped => { l with wdog := 0, deadline := d, st := if v.team.killPending then .stopped none else .trapped,
                           handler := l.handler && !v.team.killPending }
    | .blocked w => { waiting v.team w l with deadline := d }
    | _ => { l with wdog := 0, deadline := d }))

/-- R78, R80, R100 to R102: phase tags, and the blocks of registers that a gang acquires and releases. In the two cycles before a new tag
shows, `phase` reads what it would have read without it (log entry 35), and ACQXT may acquire with no active lane (log entry 90): these
are the model's readings. -/
def Obligations.PhasesAndChunks : Prop := ∀ s c v,
  (∀ a, Passes s c { srcs := [o1 a], allowQ := false } noOwn v → v.gang.phase.length = 8 →
    ∃ t, exec (.sphase c a) s = .next t ∧ Kept s t v ∧ Advanced t v ∧ Follows t v ∧
      ∀ q < 8, ∀ u, v.t ≤ u → ((gangOf t v).phase.getD q Phase.zero).shown u =
        match v.active.find? (fun i => i / 4 == q) with
        | some i => if v.t + 2 ≤ u then (v.src1 s.fresh i a).setWidth 8 else (v.gang.phase.getD q Phase.zero).shown u
        | none => (v.gang.phase.getD q Phase.zero).shown u) ∧
  (∀ n, Passes s c {} (acqxOwn n) v → n ≤ v.gang.chunks ∨ v.active = [] →
    ∃ t, exec (.acqx c n) s = .next t ∧ Kept s t v ∧ Advanced t v ∧ Follows t v ∧ (gangOf t v).chunks = v.gang.chunks) ∧
  (∀ n, Passes s c {} (acqxOwn n) v → v.gang.chunks < n → v.active ≠ [] → chunksFit s v.core v.bay v.iss.team v.g n = true →
    ∃ t, exec (.acqx c n) s = .next t ∧ Advanced t v ∧ Follows t v ∧ Elsewhere s t v ∧ (gangOf t v).chunks = n ∧
      ∀ i < 32, (laneOf t v i).preds = (laneOf s v i).preds ∧ ∀ r, (laneOf t v i).reg r =
        if 64 * (1 + v.gang.chunks) ≤ r ∧ r < 64 * (1 + n) then 0 else (laneOf s v i).reg r) ∧
  (∀ n, v.gang.chunks < n → chunksFit s v.core v.bay v.iss.team v.g n = false →
    EndsWith s c v (.acqx c n) {} (acqxOwn n) (fun _ l => waiting v.team (.acqx n) l)) ∧
  (∀ n, Passes s c {} noOwn v → n < v.gang.chunks → v.active ≠ [] →
    ∃ t, exec (.relx c n) s = .next t ∧ Advanced t v ∧ Follows t v ∧ Elsewhere s t v ∧ (gangOf t v).chunks = n ∧
      ∀ i < 32, (laneOf t v i).preds = (laneOf s v i).preds ∧ ∀ r, r < 64 * (1 + n) → (laneOf t v i).reg r = (laneOf s v i).reg r) ∧
  (∀ n, Passes s c {} noOwn v → v.gang.chunks ≤ n →
    ∃ t, exec (.relx c n) s = .next t ∧ Kept s t v ∧ Advanced t v ∧ Follows t v ∧ (gangOf t v).chunks = v.gang.chunks) ∧
  (∀ n pd, pd < 96 → Passes s c {} (acqxOwn n) v →
    ∃ t, exec (.acqxt c n pd) s = .next t ∧ Advanced t v ∧ Elsewhere s t v ∧
      (gangOf t v).chunks = (if v.gang.chunks < n ∧ chunksFit s v.core v.bay v.iss.team v.g n then n else v.gang.chunks) ∧
      (∀ i ∈ v.active, (laneOf t v i).pred pd =
        (decide (n ≤ v.gang.chunks) || chunksFit s v.core v.bay v.iss.team v.g n)) ∧
      (∀ i < 32, ∀ m < 96, m ≠ pd → (laneOf t v i).pred m = (laneOf s v i).pred m) ∧
      ∀ i < 32, ∀ r < 64 * (1 + v.gang.chunks), (laneOf t v i).reg r = (laneOf s v i).reg r)

/-- R91, R103, R104, R190: each active lane is judged by its own value: one whose timeline has reached it, and whose earlier operations
have all taken their steps, goes on; every other waits, and meets a YLD point. A memory form always waits for its first read. TLTRY's
predicate is true in the lanes that go on. -/
def Obligations.TimelineWaits : Prop := ∀ s c v,
  let goes := fun e a i => i ∈ v.active ∧ (v.src2 s.fresh i a).toNat ≤ (v.team.ctxOf e).tl.toNat ∧ (v.gang.lane i).queue = []
  let waits := fun (w : Wait) (l : Lane) => { waiting v.team w l with seen := none, waitInsn := v.word }
  (∀ a e, Passes s c (names [o2 a] none) (namesOwn [a]) v →
    ∃ t, exec (.tlwait c a (.team e)) s = .next t ∧ Advanced t v ∧ (gangOf t v).flags = (gangOf s v).flags ∧
      ∀ i < 32, (laneOf t v i).regs = (laneOf s v i).regs ∧ (laneOf t v i).preds = (laneOf s v i).preds ∧
        let l := if i ∈ v.active ∧ ¬ goes e a i then waits (.tlTeam e (v.src2 s.fresh i a)) (laneOf s v i) else laneOf s v i
        (laneOf t v i).st = l.st ∧ (laneOf t v i).seen = l.seen ∧ (laneOf t v i).handler = l.handler ∧
          (laneOf t v i).waitInsn = l.waitInsn) ∧
  (∀ a b sc, Reaches s v.active (fun i => (v.src2 s.fresh i b).toNat) 8 .all →
    EndsWith s c v (.tlwait c a (.mem sc b)) (names [o2 a, o2 b] none) (namesOwn [a, b])
      (fun i l => waits (.tlMem (v.src2 s.fresh i b) (v.src2 s.fresh i a) sc) l)) ∧
  (∀ a e pd, pd < 96 → Passes s c (names [o2 a] none) (namesOwn [a]) v →
    ∃ t, exec (.tltry c a (.team e) pd) s = .next t ∧ Advanced t v ∧ (gangOf t v).flags = (gangOf s v).flags ∧
      ∀ i < 32, (laneOf t v i).regs = (laneOf s v i).regs ∧
        (∀ n < 96, (laneOf t v i).pred n = if n = pd ∧ goes e a i then true else (laneOf s v i).pred n) ∧
        let l := if i ∈ v.active ∧ ¬ goes e a i then waits (.tryTeam e (v.src2 s.fresh i a) pd (v.t + 2048)) (laneOf s v i)
          else laneOf s v i
        (laneOf t v i).st = l.st ∧ (laneOf t v i).seen = l.seen ∧ (laneOf t v i).handler = l.handler ∧
          (laneOf t v i).waitInsn = l.waitInsn) ∧
  (∀ a b sc pd, Reaches s v.active (fun i => (v.src2 s.fresh i b).toNat) 8 .all →
    EndsWith s c v (.tltry c a (.mem sc b) pd) (names [o2 a, o2 b] none) (namesOwn [a, b])
      (fun i l => waits (.tryMem (v.src2 s.fresh i b) (v.src2 s.fresh i a) sc pd (v.t + 2048)) l))

-- Memory (08)

/-- R73, R181 to R187, R200 to R206: loads, stores and the arithmetic atomics place their operation, with the lane's address and value,
in the queue of each lane that acts; the bytes of memory stay until the operation's own step. Helper lanes load and do nothing
else (R66). -/
def Obligations.AccessesQueue : Prop := ∀ s c v,
  (∀ d base off ty a64, Queues s c v (.ld c d base off ty a64) (names (addrSrcs base a64) (some { name := d, words := tyWords ty }))
    (baseOwn base a64) (v.actors (names (addrSrcs base a64) (some { name := d, words := tyWords ty })) true)
    (Reaches s (v.actors (names (addrSrcs base a64) (some { name := d, words := tyWords ty })) true)
      (fun i => v.addr s.fresh i base a64 (off * tyBytes ty)) (tyBytes ty) .all)
    (fun i => [.load (BitVec.ofNat 64 (v.addr s.fresh i base a64 (off * tyBytes ty))) ty { name := d, words := tyWords ty }])) ∧
  (∀ d base off ty, Queues s c v (.ldp c d base off ty) (names [o1 base] (some { name := d, words := tyWords ty })) noOwn
    (v.actors (names [o1 base] (some { name := d, words := tyWords ty })) true)
    (∀ i ∈ v.actors (names [o1 base] (some { name := d, words := tyWords ty })) true,
      v.laneOff s.fresh i base (off * tyBytes ty) % tyBytes ty = 0 ∧ 0 ≤ v.laneOff s.fresh i base (off * tyBytes ty) ∧
      v.laneOff s.fresh i base (off * tyBytes ty) + tyBytes ty ≤ v.team.ps)
    (fun i => [.laneLoad (v.laneOff s.fresh i base (off * tyBytes ty)).toNat ty { name := d, words := tyWords ty }])) ∧
  (∀ base val off ty a64, Queues s c v (.st c base val off ty a64)
    (names ({ name := val, words := tyWords ty } :: addrSrcs base a64) none) (baseOwn base a64) v.acting
    (Reaches s v.acting (fun i => v.addr s.fresh i base a64 (off * tyBytes ty)) (tyBytes ty) .all)
    (fun i => [.store (BitVec.ofNat 64 (v.addr s.fresh i base a64 (off * tyBytes ty)))
      ((wordsBytes (v.src s.fresh i { name := val, words := tyWords ty })).take (tyBytes ty)) none])) ∧
  (∀ base val off ty, Queues s c v (.stp c base val off ty) (names [{ name := val, words := tyWords ty }, o1 base] none) noOwn v.acting
    (∀ i ∈ v.acting, v.laneOff s.fresh i base (off * tyBytes ty) % tyBytes ty = 0 ∧
      0 ≤ v.laneOff s.fresh i base (off * tyBytes ty) ∧ v.laneOff s.fresh i base (off * tyBytes ty) + tyBytes ty ≤ v.team.ps)
    (fun i => [.laneStore (v.laneOff s.fresh i base (off * tyBytes ty)).toNat
      ((wordsBytes (v.src s.fresh i { name := val, words := tyWords ty })).take (tyBytes ty))])) ∧
  (∀ d base val op w64 o sc a64, Queues s c v (.atom c d base val op w64 o sc a64)
    (names ([oW w64 val] ++ addrSrcs base a64) (some { name := d, words := if w64 then 2 else 1 })) (baseOwn base a64)
    (v.actors (names ([oW w64 val] ++ addrSrcs base a64) (some { name := d, words := if w64 then 2 else 1 })) false)
    (Reaches s (v.actors (names ([oW w64 val] ++ addrSrcs base a64) (some { name := d, words := if w64 then 2 else 1 })) false)
      (fun i => v.addr s.fresh i base a64 0) (if w64 then 8 else 4) .noHost)
    (fun i => ordered o sc (.atom (BitVec.ofNat 64 (v.addr s.fresh i base a64 0)) op w64
      (if w64 then v.src2 s.fresh i val else (v.src1 s.fresh i val).setWidth 64) { name := d, words := if w64 then 2 else 1 }))) ∧
  (∀ d base val w64 o sc a64, Queues s c v (.acas c d base val w64 o sc a64)
    (names ([{ name := val, words := if w64 then 4 else 2 }] ++ addrSrcs base a64) (some { name := d, words := if w64 then 2 else 1 }))
    (baseOwn base a64)
    (v.actors (names ([{ name := val, words := if w64 then 4 else 2 }] ++ addrSrcs base a64)
      (some { name := d, words := if w64 then 2 else 1 })) false)
    (Reaches s (v.actors (names ([{ name := val, words := if w64 then 4 else 2 }] ++ addrSrcs base a64)
      (some { name := d, words := if w64 then 2 else 1 })) false) (fun i => v.addr s.fresh i base a64 0) (if w64 then 8 else 4) .noHost)
    (fun i =>
      let ws := v.src s.fresh i { name := val, words := if w64 then 4 else 2 }
      ordered o sc (.acas (BitVec.ofNat 64 (v.addr s.fresh i base a64 0)) w64
        (if w64 then pair (ws.getD 0 0) (ws.getD 1 0) else (ws.getD 0 0).setWidth 64)
        (if w64 then pair (ws.getD 2 0) (ws.getD 3 0) else (ws.getD 1 0).setWidth 64) { name := d, words := if w64 then 2 else 1 }))) ∧
  (∀ base val bf16 o sc a64, Queues s c v (.xsum c base val bf16 o sc a64) (names ([o1 val] ++ addrSrcs base a64) none)
    (baseOwn base a64) v.acting (Reaches s v.acting (fun i => v.addr s.fresh i base a64 0) 64 .package)
    (fun i => ordered o sc (.xsum (BitVec.ofNat 64 (v.addr s.fresh i base a64 0))
      (if bf16 then v.src1 s.fresh i val <<< 16 else v.src1 s.fresh i val))))

/-- R192, R207 to R210: cells, versioned loads, conditional multi-stores and the ordering instructions place their steps. FENCE is REL
and then ACQ; CMS releases first. -/
def Obligations.CellsAndOrderQueue : Prop := ∀ s c v,
  (∀ d base pr clr o sc a64, Queues s c v (.xrd c d base pr clr o sc a64)
    (names ([] ++ addrSrcs base a64) (some { name := d, words := if pr then 2 else 1 })) (baseOwn base a64)
    (v.actors (names ([] ++ addrSrcs base a64) (some { name := d, words := if pr then 2 else 1 })) false)
    (Reaches s (v.actors (names ([] ++ addrSrcs base a64) (some { name := d, words := if pr then 2 else 1 })) false)
      (fun i => v.addr s.fresh i base a64 0) 64 .package)
    (fun i => ordered o sc (.xrd (BitVec.ofNat 64 (v.addr s.fresh i base a64 0)) pr clr { name := d, words := if pr then 2 else 1 }))) ∧
  (∀ base sc a64, Queues s c v (.xclr c base sc a64) (names ([] ++ addrSrcs base a64) none) (baseOwn base a64) v.acting
    (Reaches s v.acting (fun i => v.addr s.fresh i base a64 0) 64 .package)
    (fun i => [.xclr (BitVec.ofNat 64 (v.addr s.fresh i base a64 0))])) ∧
  (∀ d base off a64, Queues s c v (.ldv c d base off a64) (names (addrSrcs base a64) (d2 d)) (baseOwn base a64)
    (v.actors (names (addrSrcs base a64) (d2 d)) true)
    (Reaches s (v.actors (names (addrSrcs base a64) (d2 d)) true) (fun i => v.addr s.fresh i base a64 (off * 4)) 4 .package)
    (fun i => [.ldv (BitVec.ofNat 64 (v.addr s.fresh i base a64 (off * 4))) { name := d, words := 2 }])) ∧
  (∀ d base pd sc a64, Queues s c v (.cms c d base pd sc a64) (names ([] ++ addrSrcs base a64) (d1 d)) (baseOwn base a64)
    (v.actors (names ([] ++ addrSrcs base a64) (d1 d)) false)
    (Reaches s (v.actors (names ([] ++ addrSrcs base a64) (d1 d)) false) (fun i => v.addr s.fresh i base a64 0) 128 .package)
    (fun i => [.rel sc, .cms (BitVec.ofNat 64 (v.addr s.fresh i base a64 0)) pd { name := d, words := 1 }])) ∧
  (∀ sc, Passes s c {} noOwn v → ∃ t, exec (.fence c sc) s = .next t ∧ Queued s t v c v.active (fun _ => [.rel sc, .acq sc])) ∧
  (∀ sc, Passes s c {} noOwn v → ∃ t, exec (.rel c sc) s = .next t ∧ Queued s t v c v.active (fun _ => [.rel sc])) ∧
  (∀ sc, Passes s c {} noOwn v → ∃ t, exec (.acq c sc) s = .next t ∧ Queued s t v c v.active (fun _ => [.acq sc]))

/-- R229 to R235: the subscription instructions place their operation; SLD outside a region of its team is a load. -/
def Obligations.SubscriptionsQueue : Prop := ∀ s c v,
  (∀ d base quad f inv ty a64, Queues s c v (.sbsc c d base quad f inv ty a64)
    (names ({ name := quad, words := 4 } :: addrSrcs base a64) (d1 d)) (baseOwn base a64)
    (v.actors (names ({ name := quad, words := 4 } :: addrSrcs base a64) (d1 d)) false)
    (Reaches s (v.actors (names ({ name := quad, words := 4 } :: addrSrcs base a64) (d1 d)) false)
      (fun i => v.addr s.fresh i base a64 0) 128 .package)
    (fun i =>
      let q := v.src s.fresh i { name := quad, words := 4 }
      [.sbsc (BitVec.ofNat 64 (v.addr s.fresh i base a64 0)) f inv ty (q.getD 0 0) (q.getD 1 0) (pair (q.getD 2 0) (q.getD 3 0)) false
        { name := d, words := 1 }])) ∧
  (∀ d base a64, Queues s c v (.unsb c d base a64) (names (addrSrcs base a64) (d1 d)) (baseOwn base a64)
    (v.actors (names (addrSrcs base a64) (d1 d)) false) True
    (fun i => [.unsb (BitVec.ofNat 64 (v.addr s.fresh i base a64 0)) false { name := d, words := 1 }])) ∧
  (∀ d base f a64, Queues s c v (.supg c d base f a64) (names (addrSrcs base a64) (d1 d)) (baseOwn base a64)
    (v.actors (names (addrSrcs base a64) (d1 d)) false) True
    (fun i => [.supg (BitVec.ofNat 64 (v.addr s.fresh i base a64 0)) f false { name := d, words := 1 }])) ∧
  (∀ d base a64, Queues s c v (.schg c d base a64) (names (addrSrcs base a64) (d2 d)) (baseOwn base a64)
    (v.actors (names (addrSrcs base a64) (d2 d)) true) True
    (fun i => [.schg (BitVec.ofNat 64 (v.addr s.fresh i base a64 0)) { name := d, words := 2 }])) ∧
  (∀ d base off a64, Queues s c v (.sld c d base off a64) (names (addrSrcs base a64) (d1 d)) (baseOwn base a64)
    (v.actors (names (addrSrcs base a64) (d1 d)) true)
    (∀ i ∈ v.actors (names (addrSrcs base a64) (d1 d)) true,
      v.addr s.fresh i base a64 (off * 2) % (match teamRegion s v.core v.team.uid (viewLine v.team.ctx (v.addr s.fresh i base a64 (off * 2))) with
        | some r => etypeBytes r.t
        | none => 4) = 0 ∧ servedFault s .all (v.addr s.fresh i base a64 (off * 2)) = none)
    (fun i => [match teamRegion s v.core v.team.uid (viewLine v.team.ctx (v.addr s.fresh i base a64 (off * 2))) with
      | some r => .sld (BitVec.ofNat 64 (v.addr s.fresh i base a64 (off * 2))) (etypeBytes r.t) none { name := d, words := 1 }
      | none => .load (BitVec.ofNat 64 (v.addr s.fresh i base a64 (off * 2))) .b32 { name := d, words := 1 }]))

-- Streams (10)

/-- R257 to R262: SBIND makes a port pending for the clauses after its own, SFREE unbinds one at once, SPOS reads a position, without the
pushes whose results are not there yet, and sets one, dropping what a pattern port has prefetched, SDRAIN, QRING and QRFREE place their operations. -/
def Obligations.StreamInstructions : Prop := ∀ s c v,
  (∀ p addr, Passes s c (names [o2 addr] none) (descOwn (.q p) addr) v → v.active ≠ [] → v.gang.ports.length = 16 → p < 16 →
    Reaches s (v.active.take 1) (fun i => (v.src2 s.fresh i addr).toNat) 64 .all →
    ∃ t, exec (.sbind c (.q p) addr) s = .next t ∧ Kept s t v ∧ Advanced t v ∧
      LaneOp.plain (.bind p (v.src2 s.fresh (v.active.headD 0) addr) s.fresh) ∈ (laneOf t v (v.active.headD 0)).queue ∧
      (if v.iss.slot < v.iss.ni then
         ∃ x, (bayOf t v.core v.bay).issue = some x ∧ x.ports = v.iss.ports ∧
           (p, v.src2 s.fresh (v.active.headD 0) addr, s.fresh) ∈ x.rebind
       else (gangOf t v).ports.getD p Port.unbound =
         { Port.unbound with st := .pending, daddr := v.src2 s.fresh (v.active.headD 0) addr, seq := s.fresh })) ∧
  (∀ p, Passes s c {} (portOwn (.q p)) v → v.active ≠ [] → v.gang.ports.length = 16 → p < 16 →
    ∃ t, exec (.sfree c (.q p)) s = .next t ∧ Kept s t v ∧ Advanced t v ∧ (gangOf t v).ports.getD p Port.unbound = Port.unbound ∧
      ∀ i < 32, tget 0 (laneOf t v i).pos p = 0 ∧ ∀ e ∈ (laneOf t v i).pre, e.port ≠ p) ∧
  (∀ n p, Computes s c v (.spos c (.g n) (.q p) false) { dst := d1 (.g n), perLane := true, allowQ := false } (boundOwn (.q p))
    (fun u x i => .word (tget 0 (x i).lane.pos p -
      BitVec.ofNat 32 ((x i).lane.late.filter (fun e => e.1 == p && decide (u.t < e.2))).length))) ∧
  (∀ p a, Passes s c { srcs := [o1 a], allowQ := false } (boundOwn (.q p)) v → (∀ y ∈ v.iss.rebind, y.1 ≠ p) →
    ∃ t, exec (.spos c (.q p) a true) s = .next t ∧ Kept s t v ∧ Advanced t v ∧
      (∀ i ∈ v.active, (∀ e ∈ (laneOf t v i).late, e.1 ≠ p) ∧
        ((v.iss.ports.getD p Port.unbound).isRing = false → ∀ e ∈ (laneOf t v i).pre, e.port ≠ p)) ∧
      ∀ i ∈ v.active, tget 0 (laneOf t v i).pos p =
        if (v.iss.ports.getD p Port.unbound).isRing then v.src1 s.fresh i a
        else BitVec.ofNat 32 (min (v.src1 s.fresh i a).toNat (v.iss.ports.getD p Port.unbound).total)) ∧
  (∀ p close, Passes s c {} (sdrainOwn (.q p) close) v → ∃ t, exec (.sdrain c (.q p) close) s = .next t ∧
    Queued s t v c v.active (fun _ => [.sdrain p (v.iss.ports.getD p Port.unbound).desc close])) ∧
  (∀ d base quad a64, Queues s c v (.qring c d base quad a64) (names ({ name := quad, words := 4 } :: addrSrcs base a64) (d1 d))
    (fun u => (namesOwn [quad] u).orElse (fun _ => baseOwn base a64 u))
    (v.actors (names ({ name := quad, words := 4 } :: addrSrcs base a64) (d1 d)) false)
    (Reaches s (v.actors (names ({ name := quad, words := 4 } :: addrSrcs base a64) (d1 d)) false)
      (fun i => v.addr s.fresh i base a64 0) 128 .all)
    (fun i =>
      let q := v.src s.fresh i { name := quad, words := 4 }
      [.qring (BitVec.ofNat 64 (v.addr s.fresh i base a64 0)) (pair (q.getD 0 0) (q.getD 1 0)) (q.getD 2 0) (q.getD 3 0)
        { name := d, words := 1 }])) ∧
  (∀ d base a64, Queues s c v (.qrfree c d base a64) (names (addrSrcs base a64) (d1 d)) (baseOwn base a64)
    (v.actors (names (addrSrcs base a64) (d1 d)) false)
    (Reaches s (v.actors (names (addrSrcs base a64) (d1 d)) false) (fun i => v.addr s.fresh i base a64 0) 128 .all)
    (fun i => [.qrfree (BitVec.ofNat 64 (v.addr s.fresh i base a64 0)) { name := d, words := 1 }]))

-- Copies and the timelines of engine contexts (11)

/-- R105, R263 to R265, R282 to R286: HDEF, COPY, CFILL and COLL place one command for each lane that acts, TLSIG one for the gang,
with a number of its own, at the end of the context's queue. When one begins (ENGINE_COMMAND_BEGIN, in the statement on engines), HDEF reads
its record and finds it bad as R272 says; COPY and CFILL end with the status of R276 or move their elements as R277 says, which is said
of one element, of the addresses of R273, of the codebook index of R144, and of the bytes that a store leaves; a nonzero ENDP of a CFILL
is BADHDL by log entry 112; COLL ends with its status or waits for its members, and what its exchange writes is as R287 says. -/
def Obligations.CopyCommandsPlaced : Prop := ∀ s c v,
  (∀ d addr h e sc a64,
    let f : Front := { srcs := addrSrcs addr a64, dst := d1 d, allowQ := false }
    Places s c v (.hdef c d addr h e sc a64) f (baseOwn addr a64)
      (Reaches s (v.actors f false) (fun i => v.addr s.fresh i addr a64 0) 64 .all) e sc
      ((v.actors f false).map (fun i => .hdef h (BitVec.ofNat 64 (v.addr s.fresh i addr a64 0))))) ∧
  (∀ d addr hd hs e sc a64,
    let f : Front := { srcs := addrSrcs addr a64, dst := d1 d, allowQ := false }
    Places s c v (.copy c d addr hd hs e sc a64) f (baseOwn addr a64)
      (Reaches s (v.actors f false) (fun i => v.addr s.fresh i addr a64 0) 64 .all) e sc
      ((v.actors f false).map (fun i => .copy hd hs (BitVec.ofNat 64 (v.addr s.fresh i addr a64 0))))) ∧
  (∀ d addr h e sc a64,
    let f : Front := { srcs := addrSrcs addr a64, dst := d1 d, allowQ := false }
    Places s c v (.cfill c d addr h e sc a64) f (baseOwn addr a64)
      (Reaches s (v.actors f false) (fun i => v.addr s.fresh i addr a64 0) 64 .all) e sc
      ((v.actors f false).map (fun i => .cfill h (BitVec.ofNat 64 (v.addr s.fresh i addr a64 0))))) ∧
  (∀ d addr e sc a64,
    let f : Front := { srcs := addrSrcs addr a64, dst := d1 d, allowQ := false }
    Places s c v (.coll c d addr e sc a64) f (baseOwn addr a64)
      (Reaches s (v.actors f false) (fun i => v.addr s.fresh i addr a64 0) 128 .all) e sc
      ((v.actors f false).map (fun i => .coll (BitVec.ofNat 64 (v.addr s.fresh i addr a64 0))))) ∧
  (∀ sc e, c.setf = 0 → Places s c v (.tlsig c sc e) {} noOwn True e sc (if v.acting = [] then [] else [.tlsig])) ∧
  (∀ t e k,
    let S := workState s t e k
    let T := t.asFound k
    let W := beginWork s t e k
    (k.kind = .tlsig → W.s = S ∧ W.out = .done 0) ∧
    (∀ h a x r, k.kind = .hdef h a → readNat S T e a.toNat 64 = (x, .ok r) →
      W.s = x ∧ W.out = .done (if hBad r then 2 else 0) ∧ (W.upd k).rcd = r) ∧
    (∀ hd hs a x b, k.kind = .copy hd hs a → readNat S T e a.toNat 64 = (x, .ok b) →
      (T.record hs = none ∨ T.record hd = none → W.s = x ∧ W.out = .done 2) ∧
      ∀ rs rd, T.record hs = some rs → T.record hd = some rd →
        let src := fun j => fld b (31 + 32 * j) (32 * j)
        let dst := fun j => fld b (159 + 32 * j) (128 + 32 * j)
        let ext := fun j => fld b (287 + 32 * j) (256 + 32 * j)
        let st := if fld b 511 448 ≠ 0 then 2
          else if ¬(hFmt rs = hFmt rd ∨ (hFmt rd ≠ 9 ∧ hFmt rs < 10 ∧ hFmt rd < 10)) then 4
          else if ∃ j : Fin 4, ext j = 0 then 1
          else if ∃ j : Fin 4, hView rs j < src j + ext j ∨ hView rd j < dst j + ext j then 3
          else if rangesMeet (boxRange rs (boxSrc b) (boxElems (boxExt b))) (boxRange rd (boxDst b) (boxElems (boxExt b))) = true then 5
          else 0
        fld b 447 416 = 0 → (st ≠ 0 → W.s = x ∧ W.out = .done st) ∧
          ∀ y, st = 0 → mfold (fun s _ j => moveElem s T e rs rd (addIdx (boxSrc b) j) (addIdx (boxDst b) j)) (boxElems (boxExt b)) x () =
            (y, .ok ()) → W.s = y ∧ W.out = .done 0) ∧
    (∀ h a x b, k.kind = .cfill h a → readNat S T e a.toNat 64 = (x, .ok b) →
      (T.record h = none → W.s = x ∧ W.out = .done 2) ∧
      ∀ r, T.record h = some r →
        let dst := fun j => fld b (159 + 32 * j) (128 + 32 * j)
        let ext := fun j => fld b (287 + 32 * j) (256 + 32 * j)
        let st := if fld b 511 416 ≠ 0 then 2 else if hFmt r = 9 then 4 else if ∃ j : Fin 4, ext j = 0 then 1
          else if ∃ j : Fin 4, hView r j < dst j + ext j then 3 else 0
        (st ≠ 0 → W.s = x ∧ W.out = .done st) ∧
          ∀ y, st = 0 → mfold (fun s _ j => if 10 ≤ hFmt r ∨ hFmt r = 0 then writeCode s T e r (addIdx (boxDst b) j) (fld b 415 384)
              else writeElem s T e r (addIdx (boxDst b) j) (dec .f32 (fld b 415 384))) (boxElems (boxExt b)) x () = (y, .ok ()) →
            W.s = y ∧ W.out = .done 0) ∧
    (∀ a x r, k.kind = .coll a → readNat S T e a.toNat 128 = (x, .ok r) →
      let st := if collBadGrp x r = true then 7 else if 3 ≤ fld r 679 676 ∨ (fld r 679 676 = 2 ∧ fld r 675 672 < 2) then 4
        else if fld r 671 640 = 0 then 1 else 0
      (st ≠ 0 → W.s = x ∧ W.out = .done st) ∧
      (st = 0 → fld r 703 703 = 0 → W.s = x ∧ W.out = .wait ∧ (W.upd k).st = .waiting ∧ (W.upd k).rcd = r))) ∧
  (∀ r, hBad r = true ↔
    let f := hFmt r
    let b := 8 * 2 ^ hLayout r
    fld r 351 348 ≠ 0 ∨ fld r 511 480 ≠ 0 ∨ 13 ≤ f ∨ fld r 347 346 = 3 ∨ (∃ j < 4, hExt r j = 0) ∨
    (hLayout r = 0 ∧ f ≠ 7 ∧ f ≠ 8 ∧ f ≠ 9 ∧ hBase r % hBytes f ≠ 0) ∨ (hLayout r ≠ 0 ∧ hBase r % 128 ≠ 0) ∨
    (hLayout r ≠ 0 ∧ (hExt r 0 % b ≠ 0 ∨ hExt r 1 % b ≠ 0 ∨ hStr r 1 % (b * b : Nat) ≠ 0)) ∨
    (hScale r ≠ 0 ∧ (f = 8 ∨ f = 9 ∨ 10 ≤ f)) ∨ (f ≠ 8 ∧ f ≠ 9 ∧ hAux r ≠ 0) ∨ (f = 8 ∧ (hAux r = 0 ∨ hAux r % 32 ≠ 0)) ∨
    (f = 9 ∧ (hAux r = 0 ∨ hSptr r = 0 ∨ hExt r 0 % (32 * 2 ^ fld r 347 346) ≠ 0)) ∨ (fld r 344 344 = 1 ∧ f ≠ 0 ∧ f ≠ 1)) ∧
  (∀ r (j0 j1 j2 j3 : Nat),
    let i0 := if hTrv r then j1 else j0
    let i1 := if hTrv r then j0 else j1
    let b := 8 * 2 ^ hLayout r
    let o : Int := if hLayout r = 0 then i0 + i1 * hStr r 1 + j2 * hStr r 2 + j3 * hStr r 3
      else (i0 % b : Nat) + b * (i1 % b : Nat) + b * b * (i0 / b : Nat) + hStr r 1 * (i1 / b : Nat) + j2 * hStr r 2 + j3 * hStr r 3
    (hBytes (hFmt r) ≠ 0 → ((hAddr r [j0, j1, j2, j3]).1 : Int) = (hBase r + o * hBytes (hFmt r)) % (2 ^ 64 : Nat)) ∧
    (hBytes (hFmt r) = 0 → -(2 ^ 63 : Nat) ≤ o → o < (2 ^ 63 : Nat) → ((hAddr r [j0, j1, j2, j3]).1 : Int) = (hBase r + o / 2) % (2 ^ 64 : Nat) ∧
      ((hAddr r [j0, j1, j2, j3]).2 = true ↔ o % 2 = 1))) ∧
  (∀ t e rs rd js jd x,
    (∀ n, hFmt rs = hFmt rd → readCode s t e rs js = (x, .ok n) → moveElem s t e rs rd js jd = writeCode x t e rd jd n) ∧
    (∀ f n g, hFmt rs ≠ hFmt rd → readElem s t e rs js = (x, .ok (f, n)) → hFloat (hFmt rd) = some g →
      moveElem s t e rs rd js jd = writeCode x t e rd jd (roundTo g .rn 0 false (dec f n)).1) ∧
    (∀ f n y bk, hFmt rs ≠ hFmt rd → readElem s t e rs js = (x, .ok (f, n)) → hFmt rd = 8 → readBook x t e rd = (y, .ok bk) →
      moveElem s t e rs rd js jd = writeCode y t e rd jd (bookIndex bk (dec f n)))) ∧
  (∀ (bk : List Nat) neg m e st, (∃ j < 16, ∃ a b c d, dec .bf16 (bk.getD j 0) = .fin a b c d) →
    let v := Num.fin neg m e st
    let far := fun j => (sumNum false [v, (dec .bf16 (bk.getD j 0)).neg]).abs
    let i := bookIndex bk v
    i < 16 ∧ ∀ j < 16, (∃ a b c d, dec .bf16 (bk.getD j 0) = .fin a b c d) →
      cmpNum (far j) (far i) ≠ .lt ∧ (j < i → cmpNum (far i) (far j) = .lt)) ∧
  (∀ t u e r j n y, findTeam s t.uid = some u → e < u.ectx.length → hBytes (hFmt r) ≠ 0 → (hAddr r j).1 % 128 + hBytes (hFmt r) ≤ 128 →
    writeCode s t e r j n = (y, .ok ()) → y.mem = s.mem ∧ ∀ i < hBytes (hFmt r),
      (agentMem y (.ctx t.uid e)).buffered (lineOf t.ctx (hAddr r j).1) ((hAddr r j).1 % 128 + i) =
        some (BitVec.ofNat 8 ((if hFmt r = 5 ∨ hFmt r = 6 then n % 64 else n) / 256 ^ i))) ∧
  (∀ t e r others mine x y, others.all (collAgrees r) = true → collPlaces r = none → collHasSrc s r = true → collRead s t e r = (x, .ok mine) →
    let data := (collList r).map (fun d => (d, if d = collSelf s r then mine else ((others.find? (fun z => z.device == d)).map (·.elems)).getD []))
    collWrite x t e r (collResult r (collSelf s r) data) = (y, .ok ()) → runExchange s t e r others = (y, .ok 0)) ∧
  (∀ r self (data : List (Nat × List Word)),
    let n := fld r 671 640
    let col := fun i => data.map (fun x => x.2.getD i 0)
    (fld r 675 672 = 0 → collResult r self data = (List.range n).map (fun i => collSum (fld r 679 676) (col i))) ∧
    (fld r 675 672 = 1 → collResult r self data = (List.range (n / (collList r).length)).map (fun i =>
      collSum (fld r 679 676) (col (((collList r).filter (fun d => decide (d < self))).length * (n / (collList r).length) + i)))) ∧
    (fld r 675 672 = 2 → (∀ x ∈ data, x.2.length = n) → collResult r self data = (data.flatMap (·.2)).map BitVec.toNat)) ∧
  (∀ xs : List Word, xs.length ≤ 512 → (∀ x ∈ xs, ∃ a b c d, dec .f32 x.toNat = .fin a b c d) →
    collSum 0 xs = (rne .f32 (ofInt ((xs.map (fun x => match dec .f32 x.toNat with
      | .fin neg m e _ => sgn neg (m * 2 ^ (e + 160).toNat)
      | _ => 0)).sum) (-160) false)).1)

/-- R283, R318, R367, R280: what HQRY, TLRD, MSTAT and LSTAT read at issue waits for their completion. -/
def Obligations.QueriesReadLater : Prop := ∀ s c v,
  (∀ d h sel, ComputesLater s c v (.hqry c d h sel) { dst := d1 d, allowQ := false } (fun v _ _ =>
    let r := (v.team.handle h).raw
    .word (BitVec.ofNat 32 (match sel with
      | 0 => if v.team.handlePending h then 1 else (v.team.handle h).st
      | 1 => fld r 351 336
      | 2 => fld r 31 0
      | 3 => fld r 63 32
      | n => hView r (n - 4))))) ∧
  (∀ d e iss, ComputesLater s c v (.tlrd c d e iss) { dst := d2 d, allowQ := false } (fun v _ _ =>
    .dword (if iss then (v.team.ctxOf e).issued else (v.team.ctxOf e).tl))) ∧
  (∀ d sel, ComputesLater s c v (.mstat c d sel) { dst := d1 d, allowQ := false } (fun v _ _ =>
    let k := coreOf s v.core
    let bit := fun (b : Bool) (n : Nat) => if b then 2 ^ n else 0
    .word (if k.holder ≠ some v.iss.team then 0
      else BitVec.ofNat 32 (match sel with
        | 0 => (k.arr.bank 0).latched + bit (k.arr.bank 0).loaded 3 + (k.arr.bank 1).latched * 16 + bit (k.arr.bank 1).loaded 7 +
            k.arr.cur * 256 + 512 + bit (k.order.any (fun x => x.1 == v.iss.team)) 10
        | 1 => (k.arr.bank 0).kl
        | _ => (k.arr.bank 1).kl)))) ∧
  (∀ d sel, ComputesLater s c v (.lstat c d sel) { dst := d1 d, allowQ := false } (fun v _ _ =>
    .word (BitVec.ofNat 32 (match sel with
      | 0 => v.team.depth
      | 1 => v.team.pend.length
      | 2 => (poolOf s v.team.uid).length
      | 3 => freeRanges (dieOf s v.team.die)
      | _ => v.team.leases.length))))

-- The matrix array (12)

/-- R292, R298, R301, R303, R310 to R317: an array command of the team that holds the array joins its context and the array's order.
WLD notes the K count of the bank that is not current, WSWP changes banks, and both act on the array at issue. When one begins
(ENGINE_COMMAND_BEGIN), WLD ends with the status of R297 and its bank cleared, or fills its bank with the codes that it reads, zeros beyond
the view and scales of 1.0 beyond it (for a handle with SUB = 0; of R228's loads the statement on subscriptions says what each weight is); MZERO clears
its tile; MRD delivers four elements of each row through the epilogue of R306; MWR writes accumulators or row scales; MST ends with its
status or stores the elements that lie in the view; TBLLD reads a table or the biases; and a row of MMA adds the sums of R295. -/
def Obligations.MatrixCommandsPlaced : Prop := ∀ s c v,
  (∀ d box h e sc,
    let bank := 1 - (coreOf s v.core).arr.cur
    let words := v.src s.fresh (v.acting.headD 0) { name := box, words := 4 }
    PlacesOnArray s c v (.wld c d box h e sc) { srcs := [{ name := box, words := 4 }], dst := d1 d, allowQ := false }
      (fun u => (namesOwn [box] u).orElse (fun _ => claimOwn s u)) e sc (.wld h bank words)
      (fun a => a.modBank bank (fun b => { b with ki := (words.getD 2 0).toNat }))) ∧
  (∀ d e, PlacesOnArray s c v (.wswp c d e) { dst := d1 d, allowQ := false } (claimOwn s) e .core
    (.wswp (coreOf s v.core).arr.cur) (fun a => { a with cur := 1 - a.cur })) ∧
  (∀ d a src tile e sc,
    let bank := (coreOf s v.core).arr.cur
    PlacesOnArray s c v (.mma c d a src tile e sc) (mmaFront s d a src) (mmaOwn s a src) e sc
      (.mma src tile bank ((coreOf s v.core).arr.banks[bank]?.map (·.ki) |>.getD 0)
        (match src with
          | .hdl _ => v.src s.fresh (v.acting.headD 0) (o2 a)
          | .unf _ => v.src s.fresh (v.acting.headD 0) { name := a, words := 4 }
          | _ => [])
        (match src, a with
          | .lane f, _ => some f
          | .port, .q p => (elemFmt (v.iss.ports.getD p Port.unbound).fmt).filter aFormat
          | _, _ => none) (mmaRows s a src v)) id) ∧
  (∀ d tile e, PlacesOnArray s c v (.mzero c d tile e) { dst := d1 d, allowQ := false } (claimOwn s) e .core (.mzero tile) id) ∧
  (∀ d col tile e act f sat, PlacesOnArray s c v (.mrd c d col tile e act f sat)
    { srcs := [o1 col], dst := some { name := d, words := readWords f }, perLane := true, allowQ := false } (claimOwn s) e .core
    (.mrd tile act f sat (v.acting.map (fun i =>
      (32 * (v.g % 4) + i, (v.gang.lane i).ident, 4 * ((v.src1 s.fresh i col).toNat / 4 % 32))))) id) ∧
  (∀ d val col tile e rs, PlacesOnArray s c v (.mwr c d val col tile e rs)
    { srcs := if rs then [{ name := val, words := 1 }] else [{ name := val, words := 4 }, o1 col], dst := d1 d, allowQ := false }
    (mwrOwn s val rs) e .core
    (.mwr tile rs (v.acting.map (fun i => (32 * (v.g % 4) + i, if rs then 0 else 4 * ((v.src1 s.fresh i col).toNat / 4 % 32),
      v.src s.fresh i { name := val, words := if rs then 1 else 4 })))) id) ∧
  (∀ d org h tile e sc act sat, PlacesOnArray s c v (.mst c d org h tile e sc act sat)
    { srcs := [o2 org], dst := d1 d, allowQ := false } (claimOwn s) e sc
    (.mst h tile (v.src s.fresh (v.acting.headD 0) (o2 org)) act sat) id) ∧
  (∀ d addr tile e sc a64, Reaches s (v.acting.take 1) (fun i => v.addr s.fresh i addr a64 0) 64 .all →
    PlacesOnArray s c v (.tblld c d addr (.bias tile) e sc a64) { srcs := addrSrcs addr a64, dst := d1 d, allowQ := false }
      (fun u => (baseOwn addr a64 u).orElse (fun _ => claimOwn s u)) e sc
      (.tblld (.bias tile) (BitVec.ofNat 64 (v.addr s.fresh (v.acting.headD 0) addr a64 0))) id) ∧
  (∀ d addr n e sc a64,
    Places s c v (.tblld c d addr (.slot n) e sc a64) { srcs := addrSrcs addr a64, dst := d1 d, allowQ := false } (baseOwn addr a64)
      (Reaches s (v.acting.take 1) (fun i => v.addr s.fresh i addr a64 0) 64 .all) e sc
      ((v.acting.take 1).map (fun i => .tblld (.slot n) (BitVec.ofNat 64 (v.addr s.fresh i addr a64 0))))) ∧
  (∀ t e k, t.coreN < s.cores.length → s.badArrays.contains t.coreN = false →
    let S := workState s t e k
    let T := t.asFound k
    let W := beginWork s t e k
    let arr := fun (x : State) => (coreOf x t.coreN).arr
    let drained := fun (x : Tile) (act : Option Nat) m n => match act with
      | some slot => (actEval (tableOf S t.coreN slot) 0 (Config.freeWord (freeIdx S.fresh (128 * m + n))) (scaled x m n)).1
      | none => scaled x m n
    (∀ h bank ko no kc z, k.kind = .wld h bank [ko, no, kc, z] → bank < (arr s).banks.length → Settled s →
      let cleared := fun (st : Nat) => W.out = .done st ∧ ((arr W.s).bank bank).loaded = false ∧ ((arr W.s).bank bank).kl = 0
      (T.record h = none → cleared 2) ∧
      ∀ r, T.record h = some r → fld r 344 344 = 0 →
        let latch := match hFmt r with
          | 1 | 9 => 1
          | 3 => 2 | 4 => 3 | 5 => 4 | 6 => 5 | 7 => 6 | 8 => 7
          | _ => 0
        (latch = 0 ∨ hScale r = 3 → cleared 4) ∧
        (latch ≠ 0 → hScale r ≠ 3 → hView r 0 ≤ ko.toNat ∨ hView r 1 ≤ no.toNat ∨ 256 * latchG latch < kc.toNat ∨ z ≠ 0 → cleared 3) ∧
        (latch ≠ 0 → hScale r ≠ 3 → ko.toNat < hView r 0 → no.toNat < hView r 1 → kc.toNat ≤ 256 * latchG latch → z = 0 →
          ∀ st, W.out = .done st → st = (if kc = 0 then 1 else 0) ∧
            let b := (arr W.s).bank bank
            b.latched = latch ∧ b.kl = kc.toNat ∧ b.loaded = true ∧ b.bsc.length = 128 ∧
            (∀ n < 128, hScale r = 0 ∨ (hScale r = 2 ∧ hView r 1 ≤ no.toNat + n) → b.bsc.getD n 0 = f32One) ∧
            ∀ i n, n < 128 →
              (kc.toNat ≤ i ∨ hView r 0 ≤ ko.toNat + i ∨ hView r 1 ≤ no.toNat + n → tget 0 b.w (128 * i + n) = 0) ∧
              (i < kc.toNat → ko.toNat + i < hView r 0 → no.toNat + n < hView r 1 → ∃ y f c, OnlyRead S y ∧
                (readElem y T e r [ko.toNat + i, no.toNat + n, 0, 0]).2 = .ok (f, c) ∧
                tget 0 b.w (128 * i + n) = c % 2 ^ fmtBits (latchFmt latch)))) ∧
    (∀ tile, k.kind = .mzero tile → W.out = .done 0 ∧ W.s.mem = s.mem ∧
      arr W.s = (arr s).modTile tile (fun x => { emptyTile with cb := x.cb })) ∧
    (∀ tile act f sat rows, k.kind = .mrd tile act f sat rows → W.s = S ∧ W.out = .done 0 ∧
      (W.upd k).res = rows.map (fun r =>
        let x := fun j => (roundTo f .rn 0 sat (dec .f32 (drained ((arr S).tile tile) act r.1 (r.2.2 + j)))).1
        (r.2.1, if f = .f32 then [BitVec.ofNat 32 (x 0), BitVec.ofNat 32 (x 1), BitVec.ofNat 32 (x 2), BitVec.ofNat 32 (x 3)]
          else if fmtBits f = 16 then [BitVec.ofNat 32 (x 0 + 2 ^ 16 * x 1), BitVec.ofNat 32 (x 2 + 2 ^ 16 * x 3)]
          else if f = .e2m1 then [BitVec.ofNat 32 (x 0 + 2 ^ 4 * x 1 + 2 ^ 8 * x 2 + 2 ^ 12 * x 3)]
          else [BitVec.ofNat 32 (x 0 + 2 ^ 8 * x 1 + 2 ^ 16 * x 2 + 2 ^ 24 * x 3)]))) ∧
    (∀ tile rs rows, k.kind = .mwr tile rs rows → tile < (arr s).tiles.length → (rows.map (·.1)).Nodup →
      (∀ r ∈ rows, r.1 < 128 ∧ r.2.1 + 4 ≤ 128 ∧ r.1 < ((arr s).tile tile).rs.length) → W.out = .done 0 ∧ W.s.mem = s.mem ∧
      let x := (arr W.s).tile tile
      let old := (arr s).tile tile
      x.cs = old.cs ∧ x.cb = old.cb ∧
      (rs = true → x.acc = old.acc ∧ (∀ r ∈ rows, x.rs.getD r.1 0 = r.2.2.headD 0) ∧
        ∀ m, (∀ r ∈ rows, r.1 ≠ m) → x.rs.getD m 0 = old.rs.getD m 0) ∧
      (rs = false → x.rs = old.rs ∧ (∀ r ∈ rows, ∀ j < 4, tget 0 x.acc (128 * r.1 + r.2.1 + j) = r.2.2.getD j 0) ∧
        ∀ m n, n < 128 → (∀ r ∈ rows, r.1 = m → n < r.2.1 ∨ r.2.1 + 4 ≤ n) → tget 0 x.acc (128 * m + n) = tget 0 old.acc (128 * m + n))) ∧
    (∀ h tile no mo act sat, k.kind = .mst h tile [no, mo] act sat →
      (T.record h = none → W.s = S ∧ W.out = .done 2) ∧
      ∀ r, T.record h = some r → (hFloat (hFmt r) = none → W.s = S ∧ W.out = .done 4) ∧
        ∀ f, hFloat (hFmt r) = some f → (hView r 0 ≤ no.toNat ∨ hView r 1 ≤ mo.toNat → W.s = S ∧ W.out = .done 3) ∧
          ∀ y, no.toNat < hView r 0 → mo.toNat < hView r 1 →
            mfold (fun s _ m => mfold (fun s _ n => writeCode s T e r [no.toNat + n, mo.toNat + m, 0, 0]
                (roundTo f .rn 0 sat (dec .f32 (drained ((arr S).tile tile) act m n))).1)
              ((List.range 128).filter (fun n => decide (no.toNat + n < hView r 0))) s ())
              ((List.range 128).filter (fun m => decide (mo.toNat + m < hView r 1))) S () = (y, .ok ()) → W.s = y ∧ W.out = .done 0) ∧
    (∀ n a x bs, k.kind = .tblld (.slot n) a → readCtx S T e a.toNat 8320 = (x, .ok bs) → W.s = x ∧ W.out = .done 0 ∧
      ∃ ws, (W.upd k).res = [(0, ws)] ∧ ws.length = 2080 ∧ ∀ i < 2080, (ws.getD i 0).toNat = ofBytes ((bs.drop (4 * i)).take 4)) ∧
    (∀ tile a x bs, k.kind = .tblld (.bias tile) a → readCtx S T e a.toNat 512 = (x, .ok bs) → tile < (arr x).tiles.length →
      t.coreN < x.cores.length → W.out = .done 0 ∧ W.s.mem = x.mem ∧ ∀ i < 128, (((arr W.s).tile tile).cb.getD i 0).toNat = ofBytes ((bs.drop (4 * i)).take 4)) ∧
    ∀ (a : Sys2Proof.Machine.Array) tile bank f (row : Nat × List Nat), tile < a.tiles.length →
      let b := a.bank bank
      let x := (passRow a tile bank f row).tile tile
      (∀ n < 128, Sums f (latchFmt b.latched) (min (aG f) (latchG b.latched))
        ((List.range b.kl).map (fun i => (row.2.getD i 0, tget 0 b.w (128 * i + n))))
        (tget 0 (a.tile tile).acc (128 * row.1 + n)) (tget 0 x.acc (128 * row.1 + n))) ∧
      (∀ m n, n < 128 → m ≠ row.1 → tget 0 x.acc (128 * m + n) = tget 0 (a.tile tile).acc (128 * m + n)) ∧
      x.rs = (a.tile tile).rs ∧ x.cs = (a.tile tile).cs ∧ x.cb = (a.tile tile).cb)

-- Physics (13)

/-- R320, R326, R330: SORT and BVHQ place one command for each lane that acts, BVHQ with the lane's query. When one begins
(ENGINE_COMMAND_BEGIN), SORT waits for the handles that its record names, or ends with the status of R321, or sorts as R322 says: the
order is stable by the digit value, and of 32-bit keys without payload the destination takes each key in its place. BVHQ reads its record
and its ring's header, and pushes the hits of the traversal of R328, by the tests of R327, and END or ABORT; each push reserves a slot of
its ring. On a ring that is not live any more the reservation fails and the command is BADFMT, which is the model's choice (log entry
115). -/
def Obligations.PhysicsCommandsPlaced : Prop := ∀ s c v,
  (∀ d addr e sc a64,
    let f : Front := { srcs := addrSrcs addr a64, dst := d1 d, allowQ := false }
    Places s c v (.sort c d addr e sc a64) f (baseOwn addr a64)
      (Reaches s (v.actors f false) (fun i => v.addr s.fresh i addr a64 0) 64 .all) e sc
      ((v.actors f false).map (fun i => .sort (BitVec.ofNat 64 (v.addr s.fresh i addr a64 0))))) ∧
  (∀ d q addr ray e sc a64,
    let qo : Opnd := { name := q, words := if ray then 8 else 6 }
    let f : Front := { srcs := qo :: addrSrcs addr a64, dst := d1 d, allowQ := false }
    Places s c v (.bvhq c d q addr ray e sc a64) f (baseOwn addr a64)
      (Reaches s (v.actors f false) (fun i => v.addr s.fresh i addr a64 0) 32 .all) e sc
      ((v.actors f false).map (fun i => .bvhq (BitVec.ofNat 64 (v.addr s.fresh i addr a64 0)) ray (v.src s.fresh i qo)))) ∧
  (∀ t e k,
    let S := workState s t e k
    let T := t.asFound k
    let W := beginWork s t e k
    (∀ a x r, k.kind = .sort a → readNat S T e a.toNat 64 = (x, .ok r) →
      let hs := [fld r 5 0, fld r 11 6] ++ (if fld r 24 24 = 1 then [fld r 17 12, fld r 23 18] else [])
      let rec_ := fun h => (T.record h).getD 0
      let waits := ∃ h ∈ hs, k.found h = false ∧ T.pendingFor e h = true
      (waits → W.s = S ∧ W.out = .wait) ∧
      (¬ waits → (∃ h ∈ hs, T.record h = none) → W.s = x ∧ W.out = .done 2) ∧
      (¬ waits → (∀ h ∈ hs, T.record h ≠ none) →
        let bad := (∃ h ∈ hs, hFmt (rec_ h) ≠ 12) ∨ fld r 31 29 ≠ 0 ∨ fld r 35 35 ≠ 0 ∨ fld r 63 40 ≠ 0 ∨ fld r 127 96 ≠ 0 ∨ fld r 511 192 ≠ 0 ∨
          fld r 27 26 = 3 ∨ fld r 39 36 = 0 ∨ 8 < fld r 39 36 ∨ (if fld r 25 25 = 1 then 4 else 8) < fld r 34 32 + fld r 39 36 ∨
          2 ^ 24 < fld r 95 64 ∨ fld r 191 128 % 128 ≠ 0
        (bad → W.s = x ∧ W.out = .done 4) ∧ (¬ bad → fld r 95 64 = 0 → W.s = x ∧ W.out = .done 1) ∧
        (∀ st, sortCheck r rec_ = some st → W.s = x ∧ W.out = .done st) ∧
        (sortCheck r rec_ = none → (2 ^ 62 ≤ fld r 191 128 ∨ 4 ≤ homeOf (fld r 191 128)) → W.out = .stop .prot (fld r 191 128)) ∧
        (sortCheck r rec_ = none → fld r 191 128 < 2 ^ 62 → homeOf (fld r 191 128) < 4 → fld r 25 25 = 1 → fld r 24 24 = 0 → Settled s →
          ∀ u, findTeam x t.uid = some u → e < u.ectx.length →
          let at_ := fun i => (hAddr (rec_ (fld r 11 6)) [i, 0, 0, 0]).1
          (∀ i < fld r 95 64, at_ i % 4 = 0) → (∀ i < fld r 95 64, ∀ j < fld r 95 64, at_ i = at_ j → i = j) →
          W.out = .done 0 → ∃ key : Nat → Nat,
            (∀ i < fld r 95 64, ∃ y, OnlyRead S y ∧ (readCode y T e (rec_ (fld r 5 0)) [i, 0, 0, 0]).2 = .ok (key i)) ∧
            ∀ j < fld r 95 64, ∀ o < 4, (agentMem W.s (.ctx t.uid e)).buffered (lineOf t.ctx (at_ j)) (at_ j % 128 + o) =
              some (BitVec.ofNat 8 (key ((sortOrder (fun i => sortDigit r (key i)) (fld r 95 64)).getD j 0) / 256 ^ o))))) ∧
    (∀ a ray q x r y key, k.kind = .bvhq a ray q → readNat S T e a.toNat 32 = (x, .ok r) → bvhRing x T e (fld r 127 64) = (y, .ok key) →
      fld r 63 0 % 128 = 0 →
      let z := visitNode T e (fld r 63 0) ray (q.map numW) 31 (fld r 158 128) (y, [], .on)
      W.s = z.1 ∧ (W.upd k).ring = key ∧
      (z.2.2 = .on → W.out = .done 0 ∧ (W.upd k).outbox = z.2.1 ++ [0xFFFFFFFF]) ∧
      (z.2.2 = .abort → W.out = .done 4 ∧ (W.upd k).outbox = z.2.1 ++ [0xFFFFFFFE]))) ∧
  (∀ (d : Nat → Nat) n, (sortOrder d n).Perm (List.range n) ∧ (sortOrder d n).Pairwise (fun i j => d i < d j ∨ (d i = d j ∧ i < j))) ∧
  (∀ r a b, fld r 34 32 = 0 → fld r 39 36 = (if fld r 25 25 = 1 then 4 else 8) → fld r 28 28 = 0 →
    let w := if fld r 25 25 = 1 then 32 else 64
    a < 2 ^ w → b < 2 ^ w →
    (fld r 27 26 = 0 → (sortDigit r a < sortDigit r b ↔ a < b)) ∧ (fld r 27 26 = 1 → (sortDigit r a < sortDigit r b ↔ sext w a < sext w b)) ∧
    (fld r 27 26 = 2 → (sortDigit r a < sortDigit r b ↔
      if sext w a < 0 then (if sext w b < 0 then b < a else True) else (if sext w b < 0 then False else a < b)))) ∧
  (∀ t e tree ray q left n acc y node, readNat s t e ((tree + 128 * n) % 2 ^ 64) 128 = (y, .ok node) →
    (fld node 1023 936 ≠ 0 → visitNode t e tree ray q left n (s, acc, .on) = (y, acc, .abort)) ∧
    (fld node 1023 936 = 0 → ∃ z : Nat → State × List Word × Visit, z 0 = (y, acc, .on) ∧
      visitNode t e tree ray q left n (s, acc, .on) = z 4 ∧ ∀ j < 4,
        let ref := fld node (768 + 32 * j + 31) (768 + 32 * j)
        z (j + 1) =
          if (z j).2.2 ≠ .on ∨ ref = 0xFFFFFFFF ∨ (if ray then rayTest q (childBox node j) else boxTest q (childBox node j)) = false then z j
          else if 2 ^ 31 ≤ ref then ((z j).1, (z j).2.1 ++ [BitVec.ofNat 32 (ref % 2 ^ 31)], .on)
          else if left = 0 then ((z j).1, (z j).2.1, .abort)
          else visitNode t e tree ray q (left - 1) ref (z j))) ∧
  (∀ q b, (boxTest q b = true ↔ ∀ i < 3, leNum (numAt q i) (numAt b (3 + i)) = true ∧ leNum (numAt b i) (numAt q (3 + i)) = true) ∧
    (rayTest q b = true ↔ (∀ x ∈ q, x.isNan = false) ∧ (∀ x ∈ b, x.isNan = false) ∧ ∃ lo hi : Nat → Sys2Proof.Machine.Num, lo 0 = numAt q 6 ∧ hi 0 = numAt q 7 ∧
      leNum (lo 3) (hi 3) = true ∧ ∀ i < 3,
        let o := numAt q i
        let d := numAt q (3 + i)
        let t := fun x => dec .f32 (rne .f32 (divNum (sumNum false [x, o.neg]) d).1).1
        let t1 := t (numAt b i)
        let t2 := t (numAt b (3 + i))
        if d.isZero = true then leNum (numAt b i) o = true ∧ leNum o (numAt b (3 + i)) = true ∧ lo (i + 1) = lo i ∧ hi (i + 1) = hi i
        else t1.isNan = false ∧ t2.isNan = false ∧ lo (i + 1) = maxNum (lo i) (minNum t1 t2) ∧ hi (i + 1) = minNum (hi i) (maxNum t1 t2))) ∧
  (∀ team e t k lane port, findTeam s team = some t → e < t.ectx.length → headCmd t e = some k → k.outbox ≠ [] → k.slot = none →
    (ringLive (ringOf s k.ring) = false → s.broken = [] → ∃ r u, exec (.reserve team (16 + e) lane port) s = .next r ∧ findTeam r team = some u ∧ r.mem = s.mem ∧
      headCmd u e = some { k with outbox := [], st := if k.st = .running 0 then .running 4 else k.st }) ∧
    (ringLive (ringOf s k.ring) = true → heldBack s { key := k.ring, pop := false, team := team, gang := 16 + e, lane := 0, port := 0 } = false →
      ringGrants s k.ring 1 false = true → k.ring % 128 = 0 → (homeOf k.ring = 2 ∨ homeOf k.ring = 3) → s.broken = [] →
      ringTail (ringOf s k.ring) + 1 < 2 ^ 64 →
      ∃ r u, exec (.reserve team (16 + e) lane port) s = .next r ∧ findTeam r team = some u ∧
        headCmd u e = some { k with slot := some (ringTail (ringOf s k.ring)) } ∧
        ringTail (ringOf r k.ring) = ringTail (ringOf s k.ring) + 1))

/-- R333 to R337: an Invar instruction works on the rows that the lanes of a block hold. A block that is not wholly active keeps its
registers. A factorization writes the row, the log of its exchanges and NS, a solve the solution, a permutation the values in the
order of the log. What each computes is said apart: the steps of R335, the substitutions of R336, the exchanges of R337, of which
one direction undoes the other. Where M[k] is a NaN and the pivot is not, the compare of NS is free: that is the model's choice (log
entry 73). -/
def Obligations.BlockSolverComputes : Prop :=
  (∀ f n free qe (rows : List (List Nat)), rows.length = n → (∀ r ∈ rows, r.length = n) →
    ∃ x : Nat → Factor, x 0 = { a := rows, p := [], ns := [], fl := 0 } ∧ factor f n free qe rows = x n ∧
      ∀ k < n, Factors f n k (free k) qe rows (x k) (x (k + 1))) ∧
  (∀ f n a ps b, b.length = n → ps.length ≤ n →
    Substitutes f n a (fun i => (exchange false ps b).getD i 0) (fun i => (solveBlock f n false a ps b).1.getD i 0) ∧
    ∃ x : List Nat, x.length = n ∧ (solveBlock f n true a ps b).1 = exchange true ps x ∧
      SubstitutesT f n a (fun i => b.getD i 0) (fun i => x.getD i 0)) ∧
  (∀ (ps : List Nat) (l : List (List Word)), ps.length ≤ l.length → (∀ p ∈ ps, p < l.length) →
    (∃ y : Nat → List (List Word), y 0 = l ∧ exchange false ps l = y ps.length ∧
      ∀ k < ps.length, ∀ i < l.length, (y (k + 1)).getD i [] =
        (y k).getD (if i = k then ps.getD k 0 else if i = ps.getD k 0 then k else i) []) ∧
    exchange true ps (exchange false ps l) = l ∧ exchange false ps (exchange true ps l) = l) ∧ ∀ s c v,
  (∀ n (d : Name) (srcs : List Opnd) (words : Nat) (run : List LaneIn → Nat → LaneOut),
    let rows := fun w64 (xs : List LaneIn) => xs.map (fun x => elemsOf w64 n (x.vals.getD 0 []))
    let block := fun (v : Sys2Proof.Machine.View) (x : Nat → LaneIn) i =>
      let ps := (List.range n).map (fun j => i / n * n + j)
      if ps.all (fun p => v.active.contains p) then run (ps.map x) (i % n) else { regs := (x i).old }
    let f : Front := { srcs := srcs, dst := some { name := d, words := words }, perLane := true, allowQ := false }
    let own := invarOwn (d :: srcs.map (·.name))
    (∀ a pd w64, srcs = [{ name := a, words := n * elemRegs w64 }] → words = n * elemRegs w64 + (if n = 4 then 1 else 2) →
      run = (fun xs i =>
        let x := factor (elemFormat w64) n (fun k => Config.freeBool (freeIdx s.fresh (16 * (xs.map (fun x => x.lane.ident)).headD 0 + k)))
          (fun p => !(n == 8 && w64 && subFlag (elemFormat w64) p != 0)) (rows w64 xs)
        { regs := elemsWords w64 (x.a.getD i []) ++ logWords w64 n x,
          preds := match pd with
            | some p => [(p, bitsOf x.ns != 0)]
            | none => [],
          fst := x.fl, setsFst := true }) →
      (n = 4 → Computes s c v (.qlu c d a pd w64) f own block) ∧ (n = 8 → ∀ b, Computes s c v (.olu c d a b pd .f w64) f own block)) ∧
    (∀ a b w64 tr, srcs = [{ name := a, words := n * elemRegs w64 + (if n = 4 then 1 else 2) }, oW w64 b] → words = elemRegs w64 →
      run = (fun xs i =>
        let x := solveBlock (elemFormat w64) n tr (rows w64 xs)
          (logPivots n (((xs.map (fun x => x.vals.getD 0 [])).headD []).getD (n * elemRegs w64) 0))
          (xs.map (fun x => (elemsOf w64 1 (x.vals.getD 1 [])).headD 0))
        { regs := elemsWords w64 [x.1.getD i 0], fst := x.2, setsFst := true }) →
      (n = 4 → tr = false → Computes s c v (.qlus c d a b w64) f own block) ∧
      (n = 4 → tr = true → Computes s c v (.qlut c d a b w64) f own block) ∧
      (n = 8 → ∀ pd, Computes s c v (.olu c d a b pd (if tr then .t else .s) w64) f own block)) ∧
    (∀ a b w64 inv, srcs = [oW w64 a, o1 b] → words = elemRegs w64 →
      run = (fun xs i => { regs := (exchange inv (logPivots n (((xs.map (fun x => x.vals.getD 1 [])).headD []).getD 0 0))
        (xs.map (fun x => x.vals.getD 0 []))).getD i [] }) →
      (n = 4 → Computes s c v (.qpiv c d a b inv w64) f own block) ∧
      (n = 8 → ∀ pd, Computes s c v (.olu c d a b pd (if inv then .pi else .pf) w64) f own block)))

-- Launches (14)

/-- R351, R359, R365, R366, R368: LNCH, LREC and LEASE begin an operation of the lanes that act. LNCH queues a release and the read of the
record; LREC the stores of its three fields, the read, and the zeros of a usable completion record, or nothing where Q1 does not
fit 16 bits; LEASE notes its quadruples. -/
def Obligations.LaunchInstructionsBegin : Prop := ∀ s c v,
  (∀ d addr a64,
    let f : Front := { srcs := addrSrcs addr a64, dst := d1 d, allowQ := false }
    Holds s c v (.lnch c d addr a64) f (baseOwn addr a64)
      (Reaches s (v.actors f false) (fun i => v.addr s.fresh i addr a64 0) 128 .all)
      (.lnch { name := d, words := 1 } []) (v.actors f false)
      (fun i => [.lnchRel, .lnch (BitVec.ofNat 64 (v.addr s.fresh i addr a64 0))])) ∧
  (∀ d addr quad a64,
    let f : Front := { srcs := { name := quad, words := 4 } :: addrSrcs addr a64, dst := d1 d, allowQ := false }
    Holds s c v (.lrec c d addr quad a64) f (fun u => (baseOwn addr a64 u).orElse (fun _ => namesOwn [quad] u))
      (Reaches s (v.actors f false) (fun i => v.addr s.fresh i addr a64 0) 128 .all)
      (.lrec { name := d, words := 1 } (byIdent .wait v (v.actors f false) (fun i =>
        if 2 ^ 16 ≤ ((v.src s.fresh i { name := quad, words := 4 }).getD 1 0).toNat then .bad else .wait)))
      (v.actors f false)
      (fun i =>
        let a := v.addr s.fresh i addr a64 0
        let q := fun j => ((v.src s.fresh i { name := quad, words := 4 }).getD j 0).toNat
        let crec := q 2 + 2 ^ 32 * q 3
        if 2 ^ 16 ≤ q 1 then []
        else [.store (BitVec.ofNat 64 (a + 8)) (toBytes 6 (q 0 + 2 ^ 32 * q 1)) none,
              .store (BitVec.ofNat 64 (a + 104)) (toBytes 8 crec) none, .lnch (BitVec.ofNat 64 a)] ++
             (if crec ≠ 0 ∧ crec % 32 = 0 ∧ crec < 2 ^ 62 ∧ homeOf crec < 4
              then [.store (BitVec.ofNat 64 crec) (List.replicate 32 0) none] else []))) ∧
  (∀ d quad,
    let f : Front := { srcs := [{ name := quad, words := 4 }], dst := d1 d, allowQ := false }
    Holds s c v (.lease c d quad) f (namesOwn [quad]) True
      (.lease { name := d, words := 1 } (byIdent [] v (v.actors f false) (fun i => v.src s.fresh i { name := quad, words := 4 })))
      (v.actors f false))

-- The system (15)

/-- R392 to R395: CSAVE, CREST, TLBINV and REPLAY begin an operation of the lowest lane that acts, REPLAY also with a port as its source.
TLBINV and REPLAY belong to the pager (R380). -/
def Obligations.SystemOperationsBegin : Prop := ∀ s c v,
  (∀ d a, HoldsOnce s c v (.csave c d a) { srcs := [o2 a], dst := d1 d } (namesOwn [a])
    (Reaches s (v.acting.take 1) (fun i => (v.src2 s.fresh i a).toNat) 128 .all)
    (fun x => .csave { name := d, words := 1 } ((x (v.acting.headD 0)).d 0) false)) ∧
  (∀ d a, HoldsOnce s c v (.crest c d a) { srcs := [o2 a], dst := d1 d } (namesOwn [a])
    (Reaches s (v.acting.take 1) (fun i => (v.src2 s.fresh i a).toNat) 128 .all)
    (fun x => .crest { name := d, words := 1 } ((x (v.acting.headD 0)).d 0))) ∧
  (∀ d quad op, HoldsOnce s c v (.tlbinv c d quad op) { srcs := [{ name := quad, words := 4 }], dst := d1 d }
    (fun u => (namesOwn [quad] u).orElse (fun _ => if ctxPager s u.team.ctx then none else some (u.fault .priv))) True
    (fun x => .tlbinv { name := d, words := 1 } op ((x (v.acting.headD 0)).vals.getD 0 []))) ∧
  (∀ d a, HoldsOnce s c v (.replay c d a) { srcs := [o1 a], dst := d1 d }
    (fun u => if ctxPager s u.team.ctx then none else some (u.fault .priv)) True
    (fun x => .replay { name := d, words := 1 } (((x (v.acting.headD 0)).w 0).toNat % 256) none))

/-- R76, R242, R378, R396: RDSR reads a system register of the lane, the gang, the team or the core, also into a port; WRSR, whose source may be
a port, writes EPC or ESLOT of the lanes that
are in a handler, and no others, to be read two cycles later. ESLOT keeps its low 4 bits (log entry 18). -/
def Obligations.SystemRegistersReadAndWritten : Prop := ∀ s c v,
  (∀ d sr, Computes s c v (.rdsr c d sr) { dst := d1 d, srs := [sr] } noOwn (fun v x i =>
    let l := (x i).lane
    .word (match sr with
      | 0 => v.gang.ecause
      | 1 => v.gang.einfo
      | 2 => lo32 l.epc
      | 3 => hi32 l.epc
      | 4 => BitVec.ofNat 32 l.eslot
      | 5 => lo32 v.gang.eaddr
      | 6 => hi32 v.gang.eaddr
      | 7 => lo32 v.gang.einsn
      | 8 => hi32 v.gang.einsn
      | 9 => v.gang.elane
      | 10 => v.gang.espos
      | 11 => BitVec.ofNat 32 (laneMask v.gang Lane.trapped)
      | 12 => BitVec.ofNat 32 v.team.ctx
      | _ => BitVec.ofNat 32 (coreDie v.core + 2 * v.core + 512 * v.bay)))) ∧
  (∀ val sr,
    let f : Front := { srcs := [o1 val] }
    let p := popped s v f
    Passes s c f noOwn v → ∃ t, exec (.wrsr c val sr) s = .next t ∧
    (∀ i < 32, (laneOf t v i).regs = (laneOf p v i).regs ∧ (laneOf t v i).preds = (laneOf p v i).preds ∧
      (laneOf t v i).fst = (laneOf p v i).fst ∧ (laneOf t v i).handler = (laneOf p v i).handler) ∧
    (∀ i < 32, ((laneOf t v i).epc, (laneOf t v i).eslot) =
      (let l := laneOf p v i
      let x := (operands s v f i).w 0
      if i ∈ v.active ∧ l.handler = true then
        (match sr with
        | 2 => (pair x (hi32 l.epc), l.eslot)
        | 3 => (pair (lo32 l.epc) x, l.eslot)
        | 4 => (l.epc, x.toNat % 16)
        | _ => (l.epc, l.eslot))
      else (l.epc, l.eslot))) ∧
    ((∃ i ∈ v.active, (laneOf s v i).handler = true) → v.t + 2 ≤ (gangOf t v).readyAt (keyS sr)) ∧
    (gangOf t v).sys = (gangOf p v).sys ∧ (gangOf t v).cregs = (gangOf p v).cregs ∧ Elsewhere p t v ∧ Advanced t v ∧ Follows t v)

/-- R397, R398: EVNT hands one entry of each lane that acts to the event queue of its die, and an MSI with .int. The entry carries the band
and the tid of the team, which is the model's choice (log entry 40). HALT halts the die of its core if debugging is enabled. -/
def Obligations.EventsAndHalt : Prop := ∀ s c v,
  (∀ code payload int,
    let f : Front := { srcs := [o1 code, o2 payload] }
    let p := popped s v f
    let x := operands s v f
    Passes s c f noOwn v → coreDie v.core < s.dies.length →
    ∃ t, exec (.evnt c code payload int) s = .next t ∧ t.mem = s.mem ∧
      (dieOf t (coreDie v.core)).events.waiting.map (·.2) = (dieOf s (coreDie v.core)).events.waiting.map (·.2) ++
        v.acting.map (fun i => 4 + 2 ^ 8 * (v.team.band % 256) + 2 ^ 16 * (((x i).w 0).toNat % 65536) +
          2 ^ 32 * (v.team.tid % 2 ^ 32) + 2 ^ 64 * ((x i).d 1).toNat) ∧
      t.msiWait.map (·.vec) = s.msiWait.map (·.vec) ++
        (if int then v.acting.map (fun i => ((x i).w 0).toNat / 65536) else []) ∧
      (∀ i < 32, (laneOf t v i).regs = (laneOf p v i).regs ∧ (laneOf t v i).preds = (laneOf p v i).preds ∧
        (laneOf t v i).fst = (laneOf p v i).fst ∧ (laneOf t v i).sys = (laneOf p v i).sys) ∧
      (gangOf t v).cregs = (gangOf p v).cregs ∧
      (∀ n, (gangOf t v).flag n = (gangOf p v).flag n + (if n = c.setf ∧ n ≠ 0 ∧ v.acting ≠ [] then 1 else 0)) ∧
      Advanced t v ∧ Follows t v) ∧
  (Passes s c {} noOwn v → coreDie v.core < s.dies.length → ∃ t, exec (.halt c) s = .next t ∧ t.mem = s.mem ∧
    (∀ d, (dieOf t d).halted = (if d = coreDie v.core ∧ s.mgmt.dbgEn = true ∧ v.acting ≠ [] then true else (dieOf s d).halted)) ∧
    (∀ i < 32, (laneOf t v i).regs = (laneOf s v i).regs ∧ (laneOf t v i).preds = (laneOf s v i).preds ∧
      (laneOf t v i).fst = (laneOf s v i).fst ∧ (laneOf t v i).sys = (laneOf s v i).sys) ∧
    (gangOf t v).cregs = (gangOf s v).cregs ∧ (gangOf t v).flags = (gangOf s v).flags ∧ Advanced t v ∧ Follows t v)

/-- R377 to R379, R390, R391: TRAP enters the handler of its class in every active lane, with the clause after it saved, class 17 and its
code; without a handler, or inside one, the team ends. TRET reads EPC and ESLOT (log entry 106) and leaves the handler, to the saved slot
or the one after it, and TRET.kill ends the team. -/
def Obligations.TrapsAndReturns : Prop := ∀ s c v,
  (∀ code tv, Passes s c {} noOwn v → v.active ≠ [] → (∀ i ∈ v.active, (laneOf s v i).trapped = false) →
    handlerFor s v.team.ctx .swtrap = some tv → ∃ t, exec (.trap c code) s = .next t ∧
      (∀ i ∈ v.active, (laneOf t v i).handler = true ∧ (laneOf t v i).pc = tv ∧ (laneOf t v i).epc = v.nextPc ∧
        (laneOf t v i).eslot = 0 ∧ (laneOf t v i).resume = 0) ∧
      (gangOf t v).ecause = 17 ∧ (gangOf t v).einfo = BitVec.ofNat 32 code ∧
      (∀ i < 32, (laneOf t v i).regs = (laneOf s v i).regs ∧ (laneOf t v i).preds = (laneOf s v i).preds ∧
        (laneOf t v i).fst = (laneOf s v i).fst ∧ (i ∉ v.active → (laneOf t v i).sys = (laneOf s v i).sys)) ∧
      (gangOf t v).cregs = (gangOf s v).cregs ∧ (gangOf t v).flags = (gangOf s v).flags ∧ Elsewhere s t v) ∧
  (∀ code, Passes s c {} noOwn v → v.active ≠ [] → v.team.ending = none →
    (handlerFor s v.team.ctx .swtrap = none ∨ ∃ i ∈ v.active, (laneOf s v i).trapped = true) →
    ∃ t u f, exec (.trap c code) s = .next t ∧ findTeam t v.iss.team = some u ∧ u.ending = some f ∧ f.cause = .swtrap ∧
      f.einfo = BitVec.ofNat 32 code ∧ t.mem = s.mem) ∧
  (∀ code, Passes s c {} noOwn v → v.active = [] → ∃ t, exec (.trap c code) s = .next t ∧ Kept s t v ∧ Advanced t v ∧ Follows t v) ∧
  EndsWith s c v (.tret c .plain) { srs := [2, 3, 4] } noOwn (fun _ l => if l.handler then leaveHandler l false else l) ∧
  EndsWith s c v (.tret c .skip) { srs := [2, 3, 4] } noOwn (fun _ l => if l.handler then leaveHandler l true else l) ∧
  (Passes s c {} noOwn v → v.active ≠ [] → v.team.ending = none → ∃ t u f, exec (.tret c .kill) s = .next t ∧
    findTeam t v.iss.team = some u ∧ u.ending = some f ∧ t.mem = s.mem ∧
    ((∀ i ∈ v.active, (laneOf s v i).handler = false) → f.cause = .killed))

-- The management space (17), reset and power

/-- R6, R15, R388, R404, R405, R410, R413, R418 to R420, R423: once the firmware runs, a write to one of these registers stores the fields that
the register has, within the range it allows, and changes nothing else; a step of the clock also moves the times from which entries start
slots. A read gives reserved bits and write-only fields as zero. That a FREQ out of range leaves FREQ as it was is the model's choice
(log entry 53), as is what a register read gives beside its rules (log entry 85). -/
def Obligations.ManagementWritesStore : Prop := ∀ s v, running s = true →
  exec (.partitionWrite v) s = .next (if fld v.toNat 2 0 ≤ 4 then { s with mgmt := { s.mgmt with
    partPending := some (fld v.toNat 2 0),
    partSince := if s.mgmt.partPending.isSome then s.mgmt.partSince else s.fresh } } else s) ∧
  (∀ d, d < s.dies.length → ∃ t, exec (.rtiWrite d v) s = .next t ∧ t = { s with dies := t.dies } ∧ t.dies.length = s.dies.length ∧
    (dieOf t d).rti = (if 16 ≤ fld v.toNat 12 0 ∧ fld v.toNat 12 0 ≤ 4096 then fld v.toNat 12 0 else (dieOf s d).rti) ∧
    ∀ k, k ≠ d → dieOf t k = dieOf s k) ∧
  exec (.pcapWrite v) s = .next { s with mgmt := { s.mgmt with
    pcap := if 500 ≤ fld v.toNat 11 0 ∧ fld v.toNat 11 0 ≤ 2800 then fld v.toNat 11 0 else s.mgmt.pcap } } ∧
  (∃ t, exec (.perfReqWrite v) s = .next t ∧ t = { s with mgmt := t.mgmt } ∧ t.mgmt.perfReq = fld v.toNat 1 0 ∧
    t.mgmt.perfCur = max (fld v.toNat 1 0) (max s.mgmt.capPoint s.mgmt.thermPoint)) ∧
  (∃ t, exec (.degradeWrite v) s = .next t ∧ t = { s with mgmt := t.mgmt } ∧
    t.mgmt.bootst = (if s.mgmt.needDegrade = true ∧ v.getLsbD 0 = true then 4 else s.mgmt.bootst) ∧
    t.mgmt.needDegrade = (s.mgmt.needDegrade && !v.getLsbD 0)) ∧
  (∃ t, exec (.deviceNumberWrite v) s = .next t ∧
    (if (∃ k ∈ s.chains, k.en = true) ∨ (∃ x ∈ s.teams, x.core ≠ none) then t = s
     else t = { s with mgmt := t.mgmt } ∧ t.mgmt.devNum = fld v.toNat 8 0 ∧ t.mgmt.dsize = fld v.toNat 19 10 ∧
       (t.mgmt.devValid = true ↔ v.getLsbD 9 = true ∧ 1 ≤ fld v.toNat 19 10 ∧ fld v.toNat 19 10 ≤ 512 ∧
         fld v.toNat 8 0 < fld v.toNat 19 10))) ∧
  (∃ t, exec (.debugResume v) s = .next t ∧ t = { s with dies := t.dies, mgmt := { s.mgmt with dbgEn := v.getLsbD 0 } } ∧
    t.dies.length = s.dies.length ∧
    ∀ d < s.dies.length, dieOf t d = { dieOf s d with halted := (dieOf s d).halted && !v.getLsbD (1 + d) }) ∧
  (∃ t, exec (.clockStep v) s = .next t ∧ t = { s with clock := t.clock, timed := t.timed, mgmt := t.mgmt } ∧
    (t.clock : Int) = ((s.clock : Int) + sext 32 (fld v.toNat 31 0) * (24 * 10 ^ 9 : Nat)) % (2 ^ 64 * (24 * 10 ^ 9 : Nat)) ∧
    (let x := sext 21 (fld v.toNat 52 32)
     t.mgmt = { s.mgmt with lock := v.getLsbD 53, freq := if -1000000 ≤ x ∧ x ≤ 1000000 then x else s.mgmt.freq }) ∧
    (let step := sext 32 (fld v.toNat 31 0)
     t.timed = s.timed.map (fun e => { e with floor := if step = 0 then e.floor else if 0 < step then max e.floor (timeOf t) else min e.floor (timeOf t) }))) ∧
  (∃ t, exec (.attestRequest v) s = .next t ∧ t = { s with mgmt := t.mgmt } ∧ t.mgmt.attBusy = (s.mgmt.attBusy || v.getLsbD 0)) ∧
  exec (.registerWrite 0xB0 v) s = .next { s with mgmt := { s.mgmt with ctxTable := v } } ∧
  exec (.registerWrite 0xB8 v) s = .next { s with mgmt := { s.mgmt with pagerBase := v } } ∧
  exec (.registerWrite 0xC8 v) s = .next { s with mgmt := { s.mgmt with hwBase := v } } ∧
  exec (.registerWrite 0xD0 v) s = .next { s with mgmt := { s.mgmt with hwCtx := v.toNat % 256 } } ∧
  (∀ k < 8, exec (.registerWrite (0x48 + 8 * k) v) s = .next { s with mgmt := { s.mgmt with keyData := s.mgmt.keyData.set k v } }) ∧
  (∀ off, off % 8 ≠ 0 → readRegister off s = 0) ∧ (readRegister 0xE0 s).toNat % 4 = 0 ∧ (readRegister 0x240 s).getLsbD 0 = false ∧
  (readRegister 0xD0 s).toNat = s.mgmt.hwCtx % 2 ^ 64 ∧ (∀ k < 8, readRegister (0x48 + 8 * k) s = 0)

/-- R421, R422, R444, R402: what waits for a ring in host memory is held until the ring is configured, and is then written at TAIL, oldest
first; the host's HEAD makes room. A record's event entry follows it. An MSI follows its own entry and the acknowledgements of the messages
that the reported write caused, unless its vector is masked; one that still waits holds no other back. The attestation report goes to its
address. That a write of BASE drops its low 12 bits is the model's choice (log entry 77). -/
def Obligations.HostRingsFill : Prop := ∀ s,
  (∀ d (v : DWord), running s = true → d < s.dies.length → ∃ t, exec (.eventQueueConfig d false v) s = .next t ∧
    t = { s with dies := t.dies } ∧ (dieOf t d).events = (if (dieOf s d).events.tail = (dieOf s d).events.head then
      { (dieOf s d).events with base := BitVec.ofNat 64 (v.toNat / 4096 * 4096) } else (dieOf s d).events)) ∧
  (∀ d (v : DWord), running s = true → d < s.dies.length → ∃ t, exec (.faultRingConfig d true v) s = .next t ∧
    t = { s with dies := t.dies } ∧ (dieOf t d).faults = (if (dieOf s d).faults.tail = (dieOf s d).faults.head ∧ 4 ≤ v.toNat ∧ v.toNat ≤ 16 then
      { (dieOf s d).faults with lcap := v.toNat } else (dieOf s d).faults)) ∧
  (∀ d (v : DWord), running s = true → d < s.dies.length → ∃ t, exec (.eventQueueHeadWrite d v) s = .next t ∧
    t = { s with dies := t.dies } ∧ (dieOf t d).events = { (dieOf s d).events with head := v }) ∧
  (∀ d (v : DWord), running s = true → d < s.dies.length → ∃ t, exec (.faultRingHeadWrite d v) s = .next t ∧
    t = { s with dies := t.dies } ∧ (dieOf t d).faults = { (dieOf s d).faults with head := v }) ∧
  (∀ d k x w, d < s.dies.length → (dieOf s d).events.configured = true → (dieOf s d).events.full = false →
    (dieOf s d).events.buffer = (k, x) :: w → x < 2 ^ 128 →
    ∃ t, exec (.eventEntryWrite d) s = .next t ∧ (dieOf t d).events.tail = (dieOf s d).events.tail + 1 ∧ (dieOf t d).events.buffer = w ∧
      (let a := (dieOf s d).events.base.toNat + 16 * ((dieOf s d).events.tail.toNat % 2 ^ (dieOf s d).events.lcap)
       t.mem = putBytes s.mem (4 * 2 ^ 50 + a % 2 ^ 50) (toBytes 16 x))) ∧
  (∀ d x w, d < s.dies.length → (dieOf s d).faults.configured = true → (dieOf s d).faults.full = false →
    (dieOf s d).faults.buffer = [] → (dieOf s d).faults.waiting = x :: w →
    ∃ t, exec (.faultRecordWrite d) s = .next t ∧ (dieOf t d).faults.tail = (dieOf s d).faults.tail + 1 ∧ (dieOf t d).faults.waiting = w ∧
      (let a := (dieOf s d).faults.base.toNat + 64 * ((dieOf s d).faults.tail.toNat % 2 ^ (dieOf s d).faults.lcap)
       t.mem = putBytes s.mem (4 * 2 ^ 50 + a % 2 ^ 50) (toBytes 64 (x.2 % 2 ^ 512)) ∧
       (dieOf t d).events.waiting = (dieOf s d).events.waiting ++ [(s.fresh, eventEntry 5 (x.2 / 2 ^ 512)
         (if fld x.2 7 0 = 17 then 1 else fld x.2 7 0) (fld x.2 63 32) a)])) ∧
  (∀ a m r, s.msiWait = a ++ m :: r →
    (∀ w ∈ a, (dieOf s w.die).events.holds w.entry = true ∨ (w.cause ≠ 0 ∧ ∃ x ∈ s.msgs, x.cause = w.cause)) →
    (dieOf s m.die).events.holds m.entry = false → (m.cause = 0 ∨ ∀ x ∈ s.msgs, x.cause ≠ m.cause) →
    exec .msiSend s = .next { s with msiWait := a ++ r,
                                     msiSent := if m.vec < 2048 ∧ (tget (0, 0) s.mgmt.vectors m.vec).2.getLsbD 32 = false
                                       then s.msiSent ++ [((tget (0, 0) s.mgmt.vectors m.vec).1, lo32 (tget (0, 0) s.mgmt.vectors m.vec).2)]
                                       else s.msiSent }) ∧
  (s.mgmt.attBusy = true → ∃ t sig, exec .attestReportWrite s = .next t ∧ t.mgmt = { s.mgmt with attBusy := false } ∧ sig.length = 132 ∧
    t.mem = putBytes s.mem (4 * 2 ^ 50 + s.mgmt.attAddr.toNat % 2 ^ 50) (toBytes 4 1 ++ toBytes 4 0xB0 ++
      s.mgmt.nonce.flatMap (fun w => toBytes 8 w.toNat) ++ toBytes 64 (Config.firmwareMeasure % 2 ^ 512) ++
      toBytes 64 (Config.fuseMeasure % 2 ^ 512) ++ sig))

/-- R345, R346, R362, R411: the words of a command chain and of a time-triggered entry. EN 0 to 1 starts a chain at its TAIL, with its
timeline at zero; a write of TAIL adds records, and a 1 at ERR clears it. A chain or an entry that is disabled holds up no engine any more
(R348). An entry whose period is too small is not enabled; that one whose phase is not below its period is not either is the model's choice
(log entry 86). The three names of a chain's word do the same. -/
def Obligations.ChainAndEntryWords : Prop := ∀ s (v : DWord), running s = true →
  (∀ k c, s.chains[k]? = some c → ∃ t d, exec (.chainEnable k v) s = .next t ∧ exec (.chainTailWrite k v) s = .next t ∧
    exec (.chainErrClear k v) s = .next t ∧ t = { s with chains := s.chains.set k d, dies := t.dies } ∧
    t.dies = s.dies.map (fun x => { x with stalled := if d.en = false ∧ x.stalled = some (.host k) then none else x.stalled }) ∧
    d.tail = BitVec.ofNat 32 (fld v.toNat 63 32) ∧ d.err = (c.err && fld v.toNat 7 7 == 0) ∧
    (c.en = true → d.en = (fld v.toNat 6 6 == 1) ∧ d.lcap = c.lcap ∧ d.die = c.die ∧ d.head = c.head ∧ d.tl = c.tl) ∧
    (c.en = false → d.lcap = fld v.toNat 4 0 ∧ d.die = fld v.toNat 5 5 ∧
      d.en = (fld v.toNat 6 6 == 1 && s.mgmt.devValid && decide (fld v.toNat 4 0 ≤ 16)) ∧
      (d.en = true → d.head = d.tail ∧ d.tl = 0 ∧ d.done = [] ∧ d.hit = []))) ∧
  (∀ j e, s.timed[j]? = some e → ∃ t d, exec (.timedEntryEnable j v) s = .next t ∧ exec (.ovrWrite j v) s = .next t ∧
    t = { s with timed := s.timed.set j d, dies := t.dies } ∧
    t.dies = s.dies.map (fun x => { x with stalled := if d.en = false ∧ x.stalled = some (.timed j) then none else x.stalled }) ∧
    d.floor = (if d.en = true ∧ e.en = false then timeOf s else e.floor) ∧ d.ovr = fld v.toNat 63 32 ∧ d.mode = (fld v.toNat 1 1 == 1) ∧
    d.en = (fld v.toNat 0 0 == 1 && (e.en || (decide (10000 ≤ e.period) && decide (e.phase < e.period)))) ∧
    d.period = e.period ∧ d.phase = e.phase ∧ d.recAddr = e.recAddr)

/-- R404, R420: a kill marks the teams of the launch, the context or the time-triggered entry that it names, with status 0, and is busy while
such teams remain; a lane of theirs that waits stands at a YLD point, and stops; a kill of a context discards its launches that are not
accepted. A launch that has completed gives status 2, and one that never was 1. A key operation starts when none is in progress and
no team of its context exists, is refused otherwise, and, done, has installed or destroyed the key. -/
def Obligations.KillsAndKeys : Prop := ∀ s (v : DWord),
  (running s = true → s.mgmt.killBusy = false → fld v.toNat 1 0 = 2 →
    ∃ t, exec (.killContext v) s = .next t ∧
      t.mgmt.killStatus = (if (∃ l ∈ s.launches, l.ctx = fld v.toNat 13 6) ∨ (∃ x ∈ s.teams, x.ctx = fld v.toNat 13 6) then 0 else 1) ∧
      (∀ x ∈ t.teams, x.ctx = fld v.toNat 13 6 → x.killPending = true ∧ x.uid ∈ t.mgmt.killWait ∧ x.pend = [] ∧ poolOf t x.uid = [] ∧
        ∀ g ∈ x.gangs, ∀ l ∈ g.lanes, ∀ w, l.st ≠ .blocked w) ∧
      t.mgmt.killBusy = !t.mgmt.killWait.isEmpty) ∧
  (∀ l, running s = true → s.mgmt.killBusy = false → fld v.toNat 1 0 = 1 →
    s.launches.find? (fun l => l.chain == .host (fld v.toNat 5 2) && l.no % 2 ^ 32 == fld v.toNat 63 32 &&
      l.epoch == (s.chains.getD (fld v.toNat 5 2) Chain.reset).epoch) = some l →
    findLaunch s l.id = some l → l.killed = false →
    ∃ t m, exec (.killLaunch v) s = .next t ∧ findLaunch t l.id = some m ∧ m.killed = true ∧ t.mgmt.killStatus = 0 ∧
      (∀ x ∈ t.teams, x.launch = l.id → x.killPending = true ∧ x.uid ∈ t.mgmt.killWait ∧
        ∀ g ∈ x.gangs, ∀ l ∈ g.lanes, ∀ w, l.st ≠ .blocked w) ∧
      t.mgmt.killBusy = !t.mgmt.killWait.isEmpty) ∧
  (running s = true → s.mgmt.killBusy = false → fld v.toNat 1 0 = 1 →
    (∀ l ∈ s.launches, l.chain ≠ .host (fld v.toNat 5 2)) →
    ∃ t, exec (.killLaunch v) s = .next t ∧ t.teams = s.teams ∧ t.launches = s.launches ∧ t.mem = s.mem ∧ t.mgmt.killBusy = false ∧
      t.mgmt.killStatus = (let c := s.chains.getD (fld v.toNat 5 2) Chain.reset
        if (1 ≤ fld v.toNat 63 32 ∧ fld v.toNat 63 32 ≤ c.count) ∨ 2 ^ 32 ≤ c.count then 2 else 1)) ∧
  (∀ id l, running s = true → s.mgmt.killBusy = false → fld v.toNat 1 0 = 3 →
    (s.timed.getD (fld v.toNat 19 14) Timed.reset).started = some id → findLaunch s id = some l → l.killed = false →
    ∃ t m, exec (.killEntry v) s = .next t ∧ findLaunch t id = some m ∧ m.killed = true ∧ t.mgmt.killStatus = 0 ∧
      (∀ x ∈ t.teams, x.launch = id → x.killPending = true ∧ x.uid ∈ t.mgmt.killWait) ∧
      t.mgmt.killBusy = !t.mgmt.killWait.isEmpty) ∧
  (running s = true → s.mgmt.killBusy = false → fld v.toNat 1 0 = 3 →
    (∀ id, (s.timed.getD (fld v.toNat 19 14) Timed.reset).started = some id → findLaunch s id = none) →
    ∃ t, exec (.killEntry v) s = .next t ∧ t.teams = s.teams ∧ t.launches = s.launches ∧ t.mem = s.mem ∧ t.mgmt.killBusy = false ∧
      t.mgmt.killStatus = if (s.timed.getD (fld v.toNat 19 14) Timed.reset).started = none then 1 else 2) ∧
  (running s = true → s.mgmt.keyBusy = false → fld v.toNat 9 8 = 1 → (∀ x ∈ s.teams, x.ctx ≠ fld v.toNat 7 0) →
    exec (.keyInstall v) s = .next { s with mgmt := { s.mgmt with keyCtl := fld v.toNat 7 0, keyBusy := true, keyOp := 1 } }) ∧
  (running s = true → s.mgmt.keyBusy = false → fld v.toNat 9 8 = 1 → (∃ x ∈ s.teams, x.ctx = fld v.toNat 7 0) →
    exec (.keyInstall v) s = .next { s with mgmt := { s.mgmt with keyCtl := fld v.toNat 7 0, keyStatus := 1 } }) ∧
  (running s = true → s.mgmt.keyBusy = false → fld v.toNat 9 8 = 2 → (∀ x ∈ s.teams, x.ctx ≠ fld v.toNat 7 0) →
    fld v.toNat 7 0 ∈ s.mgmt.keys →
    exec (.keyDestroy v) s = .next { s with mgmt := { s.mgmt with keyCtl := fld v.toNat 7 0, keyBusy := true, keyOp := 2 } }) ∧
  (running s = true → s.mgmt.keyBusy = false → fld v.toNat 9 8 = 2 →
    (∃ x ∈ s.teams, x.ctx = fld v.toNat 7 0) ∨ fld v.toNat 7 0 ∉ s.mgmt.keys →
    exec (.keyDestroy v) s = .next { s with mgmt := { s.mgmt with
      keyCtl := fld v.toNat 7 0, keyStatus := if ∃ x ∈ s.teams, x.ctx = fld v.toNat 7 0 then 1 else 2 } }) ∧
  (s.mgmt.keyBusy = true → ∃ t, exec .keyOperationDone s = .next t ∧ t.mgmt.keyBusy = false ∧ t.mgmt.keyStatus = 0 ∧
    (∀ k, k ≠ s.mgmt.keyCtl → (k ∈ t.mgmt.keys ↔ k ∈ s.mgmt.keys)) ∧ (s.mgmt.keyCtl ∈ t.mgmt.keys ↔ s.mgmt.keyOp = 1) ∧
    t.teams = s.teams ∧ t.pieceKey = s.pieceKey ∧
    (s.mgmt.keyOp = 1 → (∀ e ∈ s.pieceKey, e.2 ≠ s.mgmt.keyCtl + 1) → t.mem = s.mem) ∧
    (s.mgmt.keyOp ≠ 1 → (∀ n, tget [] s.older n = []) → t.mem = s.mem))

/-- R15, R417: reset gives every register its reset value; until both boot ROMs have passed no register takes a write, and every one but ID
and BOOTST reads as zero; a failure stands until reset. A pending split of Pewter is applied once no team is left, and zeroes Pewter. That
reset leaves the stored bytes (log entry 87), and that the clock and the registers without a stated value stand at zero (log entries 6
and 7), are the model's choices. -/
def Obligations.ResetAndBoot : Prop := ∀ s,
  (∃ t, exec .reset s = .next t ∧ t.mem = s.mem ∧ t.mgmt = State.reset.mgmt ∧ t.cores = State.reset.cores ∧ t.teams = [] ∧
    t.dies = State.reset.dies ∧ t.launches = [] ∧ t.chains = State.reset.chains ∧ t.timed = State.reset.timed ∧ t.clock = 0 ∧
    t.cycle = 0) ∧
  (∀ d, d < 2 → s.mgmt.bootOk = [false, false] ∨ s.mgmt.bootOk = [d == 1, d == 0] → s.mgmt.bootst < 2 →
    exec (.bootVerify d 0) s = .next { s with mgmt := { s.mgmt with
      bootOk := if s.mgmt.bootOk = [false, false] then [d == 0, d == 1] else [true, true],
      bootst := if s.mgmt.bootOk = [false, false] then 1 else 2 } }) ∧
  (∀ d n, d < 2 → 1 ≤ n → n ≤ 4 → s.mgmt.bootst < 2 →
    exec (.bootVerify d n) s = .next { s with mgmt := { s.mgmt with bootst := 3, bootFail := n } }) ∧
  (s.mgmt.bootst = 3 → ∀ d n, exec (.bootVerify d n) s = .next s) ∧
  (running s = false → ∀ v k, exec (.partitionWrite v) s = .next s ∧ exec (.chainEnable k v) s = .next s ∧
    exec (.timedEntryEnable k v) s = .next s ∧ exec (.killContext v) s = .next s ∧ exec (.keyInstall v) s = .next s ∧
    exec (.deviceNumberWrite v) s = .next s ∧ exec (.registerWrite k v) s = .next s ∧ exec (.eventQueueHeadWrite k v) s = .next s ∧
    exec (.pcapWrite v) s = .next s ∧ exec (.attestRequest v) s = .next s) ∧
  (running s = false → ∀ off, off ≠ 0 → off ≠ 8 → readRegister off s = 0) ∧
  (∀ n, s.mgmt.partPending = some n → s.teams = [] →
    ∃ t, exec .partitionApply s = .next t ∧ t.mgmt.partition = n ∧ t.mgmt.partPending = none ∧
      ∀ a, tget 0 t.mem a = if homeOf a = 2 ∨ homeOf a = 3 then 0 else tget 0 s.mem a)

-- What comes from outside (16), errors and power

/-- R400, R405 to R409: a host access that faults reads all ones, writes nothing and reports itself; one that does not reads or writes its
bytes; a request that arrives before VALID is refused with PROT, as is one that asks for a cell; a peer's load answers with the bytes, its
store is made; a flit's replay is invisible. A datagram without a valid endpoint, or damaged, is dropped; every other one is written, and
answered; an acknowledged one is done; an old one is resent at most 64 times, and one that is refused, or not answered after that, ends its
command with FAULT. That a fault of the host window is reported at die 0 is the model's choice (log entry 84). -/
def Obligations.OutsideRequestsServed : Prop := ∀ s,
  (∀ hpa n c, running s = true → s.mgmt.hwBase.toNat ≤ hpa → hpa + n ≤ s.mgmt.hwBase.toNat + 2 ^ 36 →
    outsideRead s s.mgmt.hwCtx (s.mgmt.hwDev + BitVec.ofNat 64 (hpa - s.mgmt.hwBase.toNat)).toNat n = .error c →
    ∃ t, exec (.hostWindowAccess hpa none n) s = .next t ∧ t.hostData = List.replicate n 0xFF ∧ t.mem = s.mem ∧
      (0 < s.dies.length → ∃ e, (dieOf t 0).events.waiting = (dieOf s 0).events.waiting ++ [e] ∧ e.2 % 16 = 6)) ∧
  (∀ hpa n r, running s = true → s.mgmt.hwBase.toNat ≤ hpa → hpa + n ≤ s.mgmt.hwBase.toNat + 2 ^ 36 →
    outsideRead s s.mgmt.hwCtx (s.mgmt.hwDev + BitVec.ofNat 64 (hpa - s.mgmt.hwBase.toNat)).toNat n = .ok r →
    ∃ t, exec (.hostWindowAccess hpa none n) s = .next t ∧ t.hostData = r.2 ∧ t.mem = r.1.mem) ∧
  (∀ hpa n bs, running s = true → s.mgmt.hwBase.toNat ≤ hpa → hpa + n ≤ s.mgmt.hwBase.toNat + 2 ^ 36 →
    (∀ u, outsideWrite s s.mgmt.hwCtx (s.mgmt.hwDev + BitVec.ofNat 64 (hpa - s.mgmt.hwBase.toNat)).toNat bs = .ok u →
      exec (.hostWindowAccess hpa (some bs) n) s = .next u) ∧
    ∀ c, outsideWrite s s.mgmt.hwCtx (s.mgmt.hwDev + BitVec.ofNat 64 (hpa - s.mgmt.hwBase.toNat)).toNat bs = .error c →
      ∃ t, exec (.hostWindowAccess hpa (some bs) n) s = .next t ∧ t.mem = s.mem ∧
        (0 < s.dies.length → ∃ e, (dieOf t 0).events.waiting = (dieOf s 0).events.waiting ++ [e] ∧ e.2 % 16 = 6)) ∧
  (∀ ctx d o op, s.mgmt.devValid = false → exec (.peerRequest ctx d o op) s = .next { s with peerReply := [11] }) ∧
  (∀ ctx d o, exec (.peerRequest ctx d o .cell) s = .next { s with peerReply := [11] }) ∧
  (∀ ctx d o n r, s.mgmt.devValid = true → d < 2 → o < 2 ^ 50 → outsideRead s ctx (d * 2 ^ 50 + o) n = .ok r →
    exec (.peerRequest ctx d o (.load n)) s = .next { r.1 with peerReply := 0 :: r.2 }) ∧
  (∀ ctx d o n r, s.mgmt.devValid = true → d < 2 → o < 2 ^ 50 → outsideRead s ctx (d * 2 ^ 50 + o) n .fetch = .ok r →
    exec (.peerRequest ctx d o (.fetch n)) s = .next { r.1 with peerReply := 0 :: r.2 }) ∧
  (∀ ctx d o bs u, s.mgmt.devValid = true → d < 2 → o < 2 ^ 50 → outsideWrite s ctx (d * 2 ^ 50 + o) bs = .ok u →
    exec (.peerRequest ctx d o (.store bs)) s = .next { u with peerReply := [0] }) ∧
  (∀ team gang lane idx p a, gang < 16 → lane < 32 → partOf s team gang lane idx = some p → p.op.kind.addr? = some a → 0x800 ≤ homeOf a →
    exec (.peerTimeout team gang lane idx false) s = .next (partPoison s p a 1)) ∧
  (∀ n, exec (.flitCrcFail n true) s = .next s) ∧
  (∀ n, ∃ t, exec (.flitCrcFail n false) s = .next t ∧ n ∈ t.lostPorts ∧ t = { s with lostPorts := t.lostPorts }) ∧
  (∀ mac ip udp a bs g, senderOf s mac ip udp = none ∨ g = false →
    exec (.datagramReceive mac ip udp a bs g) s = .next { s with peerReply := [] }) ∧
  (∀ mac ip udp a bs ctx loc, senderOf s mac ip udp = some ctx → a % 128 + bs.length ≤ 128 → bs ≠ [] →
    locate s ctx a .write false = .ok loc → channelFailed s (lineAddr loc.key) = false →
    ∃ t, exec (.datagramReceive mac ip udp a bs true) s = .next t ∧ t.peerReply = [0] ∧
      ∀ i < bs.length, rdByte t (loc.key + i) = bs.getD i 0) ∧
  (∀ mac ip udp a bs ctx u, senderOf s mac ip udp = some ctx → outsideWrite s ctx a bs = .ok u →
    exec (.datagramReceive mac ip udp a bs true) s = .next { u with peerReply := [0] }) ∧
  (∀ mac ip udp a bs ctx c, senderOf s mac ip udp = some ctx → outsideWrite s ctx a bs = .error c →
    exec (.datagramReceive mac ip udp a bs true) s = .next { s with peerReply := [BitVec.ofNat 8 (causeCode c)] }) ∧
  (∀ n d, s.datagrams.find? (fun d => d.seq == n) = some d →
    exec (.datagramAck n none) s = .next { s with datagrams := s.datagrams.filter (fun x => x.seq != n) }) ∧
  (∀ n d u x k r, s.datagrams.find? (fun d => d.seq == n) = some d → findTeam s d.team = some x → (x.ctxOf d.e).queue = k :: r →
    (u = .datagramResend n ∧ d.sentAt + 20000 ≤ timeOf s ∧ 64 ≤ d.tries) ∨ (∃ code, u = .datagramAck n (some code)) →
    ∃ t y f, exec u s = .next t ∧ (∀ z ∈ t.datagrams, ¬ (z.team = d.team ∧ z.e = d.e)) ∧ findTeam t d.team = some y ∧
      (y.ctxOf d.e).queue = { k with st := .running 6, fault := some f } :: r ∧
      (∀ code, u = .datagramAck n (some code) → f.cause = causeOf code) ∧ (u = .datagramResend n → f.cause = .poison)) ∧
  (∀ n d, s.datagrams.find? (fun d => d.seq == n) = some d → d.sentAt + 20000 ≤ timeOf s → d.tries < 64 →
    exec (.datagramResend n) s = .next { s with
      datagrams := s.datagrams.map (fun x => if x.seq = n then { x with tries := x.tries + 1, sentAt := timeOf s } else x) })

/-- R385, R387, R388, R410, R413, R414, R423: corrected errors count by row, and a row with 16 of them moves; a poisoned piece reads as
poison from then on; a clean copy that cannot be fetched again goes; teams on a lost die, or with bytes there, end with HOMELOST; CUR is
the slowest of the three points. A burst changes only timing. -/
def Obligations.ErrorsAndPower : Prop := ∀ s,
  (∀ d ch, exec (.hbmRecalBurst d ch) s = .next s) ∧
  (∀ d ch row, d < s.dies.length → ∃ t, exec (.correctedError d ch row) s = .next t ∧
    tget 0 (dieOf t d).rowErrs (rowKey ch row) = tget 0 (dieOf s d).rowErrs (rowKey ch row) + 1 ∧ t = { s with dies := t.dies }) ∧
  (∀ d ch row, d < s.dies.length → ∃ t, exec (.rowRemap d ch row) s = .next t ∧ t = { s with dies := t.dies } ∧
    if 16 ≤ tget 0 (dieOf s d).rowErrs (rowKey ch row)
    then rowKey ch row ∈ (dieOf t d).remapped ∧ tget 0 (dieOf t d).rowErrs (rowKey ch row) = 0 else t.dies = s.dies) ∧
  (∀ d ch, exec (.remapTableReload d ch false) s = .next s) ∧
  (∀ d ch, d < s.dies.length → (dieOf s d).failedCh.contains ch = false → ∃ t, exec (.remapTableReload d ch true) s = .next t ∧
    ch ∈ (dieOf t d).failedCh ∧ t.mem = s.mem) ∧
  (∀ p, ∃ t, exec (.uncorrectableError (.piece p)) s = .next t ∧ t = { s with poison := t.poison } ∧
    ∀ k, k ∈ t.poison ↔ k = p ∨ k ∈ s.poison) ∧
  (∀ l c, locate s l.ctx l.addr .read false = .error c → ∃ t, exec (.uncorrectableError (.cleanLine l)) s = .next t ∧ t.mem = s.mem ∧
    ∀ n < s.cores.length, (agentMem t (.core n)).copy l = none) ∧
  (∀ l, (∀ a, (agentMem s a).copy l = none) → exec (.uncorrectableError (.cleanLine l)) s = .next s) ∧
  (∀ u x, findTeam s u = some x → x.ending = none → ∃ t y f, exec (.uncorrectableError (.regs u)) s = .next t ∧
    findTeam t u = some y ∧ y.ending = some f ∧ f.cause = .poison) ∧
  (∀ d, d < 2 → d < s.dies.length → (dieOf s d).failed = false → ∃ t, exec (.dieLoss d) s = .next t ∧ (dieOf t d).failed = true ∧
    t.mgmt.needDegrade = true ∧ t.mem = s.mem ∧
    ∀ x ∈ t.teams, (x.core.any (fun c => coreDie c == d) = true ∨ x.homes.any (fun h => h < 4 && h % 2 == d) = true) → x.ending ≠ none) ∧
  (∀ p, p < 4 → s.mgmt.perfCur < p → ∃ t, exec (.powerCapExcess p) s = .next t ∧ t = { s with mgmt := t.mgmt } ∧
    t.mgmt.perfCur = max s.mgmt.perfReq (max p s.mgmt.thermPoint) ∧ t.mgmt.capped = decide (s.mgmt.perfReq < p)) ∧
  (∀ p, p < s.mgmt.capPoint → ∃ t, exec (.powerCapWithin p) s = .next t ∧ t = { s with mgmt := t.mgmt } ∧
    t.mgmt.perfCur = max s.mgmt.perfReq (max p s.mgmt.thermPoint)) ∧
  (∀ p c, p < 4 → 105 < c → c < 256 → ∃ t, exec (.thermalLimit p c) s = .next t ∧ t = { s with mgmt := t.mgmt } ∧
    t.mgmt.perfCur = max s.mgmt.perfReq (max s.mgmt.capPoint (max s.mgmt.thermPoint p)) ∧ t.mgmt.temp = c) ∧
  (∃ t, exec .thermalLimitEnd s = .next t ∧ t = { s with mgmt := t.mgmt } ∧
    t.mgmt.perfCur = max s.mgmt.perfReq s.mgmt.capPoint ∧ t.mgmt.throt = false) ∧
  (∀ p e, exec (.ieee1588EventMessage p e) s = .next { s with ptp := s.ptp ++ [(p, e, timeOf s)] })

-- Issue, flags and waits (04)

/-- R62, R70, R303: a bay that issues no clause takes one of its ready groups that no ready group comes before, by priority, demotion and age,
and latches its clause; with no ready group it issues none. A bay whose higher neighbour has issued in the present cycle already issues in
the next one. That the clause runs at the clock point of its issue is the model's choice (log entry 114). -/
def Obligations.ClausesIssueInOrder : Prop :=
  (∀ now cs c, choose now cs = some c → c ∈ cs ∧ c.ready = .yes ∧ ∀ d ∈ cs, d.ready = .yes → d.before now c = false) ∧
  (∀ now cs, choose now cs = none ↔ ∀ c ∈ cs, c.ready ≠ .yes) ∧
  (∀ s core bay c k, bay < 4 → core < s.cores.length → bay < (coreOf s core).bays.length → (bayOf s core bay).issue = none →
    (dieOf s (coreDie core)).halted = false →
    choose (issueCycle s core bay) (candidates s core bay (issueCycle s core bay)) = some c → c.fetched = .ok k → (c.gang.lane (c.grp.headD 0)).resume ≤ k.hdr.ni →
    (∀ i ∈ c.grp, (c.gang.lane i).deferred = none ∧ (c.gang.lane i).overdue = false) →
    ∃ t iss, exec (.clauseIssue core bay) s = .next t ∧ (bayOf t core bay).issue = some iss ∧ iss.team = c.team.uid ∧ iss.gang = c.g ∧
      iss.group = c.grp ∧ iss.pc = (c.gang.lane (c.grp.headD 0)).pc ∧ iss.words = k.words ∧ iss.lits = k.lits ∧
      iss.slot = (c.gang.lane (c.grp.headD 0)).resume ∧ iss.ports = c.gang.ports ∧ iss.point = s.mgmt.perfCur ∧ (bayOf t core bay).next = issueCycle s core bay) ∧
  (∀ s core bay, max s.cycle (bayOf s core bay).next ≤ issueCycle s core bay ∧
    (issueCycle s core bay = s.cycle → ∀ j < 4, bay < j → (bayOf s core j).done ≠ s.cycle + 1) ∧
    ((∀ j < 4, bay < j → (bayOf s core j).done ≠ s.cycle + 1) → issueCycle s core bay = max s.cycle (bayOf s core bay).next))

/-- R73, R84, R88, R97, R365 to R368, R392 to R395, R397: an operation whose parts are done leaves its gang and counts its flag down; the value
of a computation reaches the lane that it belongs to, wherever its quad stands, unless the lane has exited since. LNCH, LREC, LEASE,
CSAVE, CREST, TLBINV, REPLAY and EVNT end with the status and the effect of their entries. A demotion ends with its cycle; a lane past its
deadline ends its team when its bay chooses its group. That a value follows its lane's identity (log entry 60) and that the watchdog waits
for that choice (log entry 78) are the model's readings; the order of TLBINV's checks is log entry 74. -/
def Obligations.OperationsCompleteAndCountsEnd : Prop := ∀ s team,
  (∀ g op t core o x, findTeam s team = some t → t.core = some core → findGang s team g = some x →
    x.ops.find? (fun o => o.id == op) = some o → o.kind = .mem ∨ o.kind = .cmds → o.lanes = [] →
    ∃ r y, exec (.operationComplete team g op 0) s = .next r ∧ findGang r team g = some y ∧
      y.ops = x.ops.filter (fun p => p.id != op) ∧ y.lanes = x.lanes ∧ y.cregs = x.cregs ∧ r.mem = s.mem ∧
      ∀ n, y.flag n = x.flag n - (if n = o.flag ∧ n ≠ 0 then 1 else 0)) ∧
  (∀ g op t core o x b ws fl id h i l, findTeam s team = some t → t.core = some core → findGang s team g = some x →
    x.ops.find? (fun o => o.id == op) = some o → o.kind = .value { name := .g b, words := ws.length } [(id, (ws, fl))] [] → ws ≠ [] →
    t.whereIs id = some (h, i) → findLane s team h i = some l →
    ∃ r m, exec (.operationComplete team g op 0) s = .next r ∧ findLane r team h i = some m ∧ m.preds = l.preds ∧ r.mem = s.mem ∧
      m.fst = (if l.takes o.id = true then l.fst ||| fl else l.fst) ∧
      ∀ n, m.reg n = if l.takes o.id = true ∧ b ≤ n ∧ n < b + ws.length then ws.getD (n - b) 0 else l.reg n) ∧
  (∀ g i l, findLane s team g i = some l → ∃ r, exec (.demotionEnd team g i) s = .next r ∧
    findLane r team g i = some { l with demotedUntil := if l.demotedUntil ≤ s.cycle then 0 else l.demotedUntil } ∧ r.mem = s.mem) ∧
  (∀ g i t core c, findTeam s team = some t → t.core = some core → core < s.cores.length → t.ending = none →
    (bayOf s core (g % 4)).issue = none → (dieOf s (coreDie core)).halted = false →
    choose (issueCycle s core (g % 4)) (candidates s core (g % 4) (issueCycle s core (g % 4))) = some c → c.team.uid = team → c.g = g →
    pastEnd c.fetched (c.gang.lane (c.grp.headD 0)).resume = none → (∀ j ∈ c.grp, (c.gang.lane j).deferred = none) →
    c.grp.find? (fun j => decide (2 ^ ((c.gang.lane j).deadline + 8) < (c.gang.lane j).wdog + 1)) = some i →
    ∃ r u f, exec (.watchdog team g i) s = .next r ∧ findTeam r team = some u ∧ u.ending = some f ∧ f.cause = .watchdog ∧ f.lane = i) ∧
  -- operations that complete as a whole: one of lane `l`, with register `b` for its status
  (∀ g op t core o h i l b,
    let d : Dst := { name := .g b, words := 1 }
    let ends := fun (st : Nat) (u : State) => ∃ y m, findGang u team g = some y ∧ y.ops = (t.gang g).ops.filter (fun p => p.id != op) ∧
      (∀ n, y.flag n = (t.gang g).flag n - (if n = o.flag ∧ n ≠ 0 then 1 else 0)) ∧
      findLane u team h i = some m ∧ m.preds = l.preds ∧
      ∀ n, m.reg n = if l.takes op = true ∧ n = b then BitVec.ofNat 32 st else l.reg n
    let run := exec (.operationComplete team g op 0) s
    findTeam s team = some t → t.core = some core → g < t.gangs.length → (t.gang g).ops.find? (fun o => o.id == op) = some o →
    opGang t op = some g → o.lanes = [l.ident] → t.whereIs l.ident = some (h, i) → findLane s team h i = some l →
    -- LNCH
    (∀ rs, o.kind = .lnch d rs → tget .wait rs l.ident = .wait → run = .next s) ∧
    (∀ rs rec, o.kind = .lnch d rs → tget .wait rs l.ident = .got rec → t.die < s.dies.length →
      let room := t.pend.length < 4 ∧ poolOf s team = []
      let pool := ((dieOf s t.die).pool.filter (fun y => y.2.1 == t.ctx)).length < 4096
      let ok := t.depth ≠ 8 ∧ recRefused s t.ctx rec = none
      ∃ u y n, run = .next u ∧ ends (if t.depth = 8 then 1 else match recRefused s t.ctx rec with
          | some code => code
          | none => if room ∨ pool then 0 else 2) u ∧
        findTeam u team = some y ∧ y.pend = t.pend ++ (if ok ∧ room then [rec] else []) ∧
        (ok → (dieOf u t.die).pool = (dieOf s t.die).pool ++ (if ¬ room ∧ pool then [(team, t.ctx, rec, n)] else [])) ∧ (ok → u.mem = s.mem)) ∧
    -- LREC and LEASE
    (∀ rs, o.kind = .lrec d rs → tget .wait rs l.ident = .wait → run = .next s) ∧
    (∀ rs, o.kind = .lrec d rs → tget .wait rs l.ident = .bad → ∃ u, run = .next u ∧ ends 3 u ∧ u.mem = s.mem) ∧
    (∀ rs rec, o.kind = .lrec d rs → tget .wait rs l.ident = .got rec →
      ∃ u, run = .next u ∧ ends ((recCheck rec).getD 0) u ∧ u.mem = s.mem) ∧
    (∀ qs no, o.kind = .lease d qs →
      let q := tget [] qs l.ident
      let r : Range := { base := pair (q.getD 0 0) (q.getD 1 0), len := (q.getD 2 0).toNat, mode := (q.getD 3 0).toNat % 4 }
      let bad := rangeBad r = true ∨ r.mode = 0 ∨ 4 ≤ (q.getD 3 0).toNat
      let pages := (rangePages r).all (pageIn s t.ctx) = true
      (¬ bad → t.leases.length < 8 → ¬ pages → no < 32 → exec (.operationComplete team g op no) s = .next s) ∧
      (bad ∨ 8 ≤ t.leases.length ∨ pages ∨ 32 ≤ no → ∃ u y, exec (.operationComplete team g op no) s = .next u ∧
        ends (if bad then 3 else if 8 ≤ t.leases.length then 2 else if pages then 0 else 6) u ∧ findTeam u team = some y ∧
        y.leases = t.leases ++ (if ¬ bad ∧ t.leases.length < 8 ∧ pages then [r] else []) ∧ u.mem = s.mem)) ∧
    -- CSAVE and CREST
    (∀ a, o.kind = .csave d a false →
      ((∃ n < 12, n + 1 ≠ o.flag ∧ (t.gang g).flag (n + 1) ≠ 0) ∨ (∃ p ∈ (t.gang g).ports, p.st = .pending) → run = .next s) ∧
      ((∀ n < 12, n + 1 ≠ o.flag → (t.gang g).flag (n + 1) = 0) → (∀ p ∈ (t.gang g).ports, p.st ≠ .pending) →
        ∃ u y m, run = .next u ∧ agentMem u (.core core) = agentMem (storeRun s (.core core) t.ctx a.toNat (gangImage g (t.gang g)) team l.ident) (.core core) ∧
          findGang u team g = some y ∧ (y.ops.find? (fun o => o.id == op)).map (·.kind) = some (.csave d a true) ∧
          findLane u team h i = some m ∧
          m.queue = l.queue ++ [{ op := op, kind := .rel .pkg, last := false, acks := [], parked := none }])) ∧
    (∀ a, o.kind = .csave d a true →
      ((∃ q ∈ l.queue, q.op = op) → run = .next s) ∧
      ((∀ q ∈ l.queue, q.op ≠ op) → ∃ u, run = .next u ∧ ends 0 u ∧ u.mem = s.mem)) ∧
    (∀ a, o.kind = .crest d a → gangIssuing s core team g = true → run = .next s) ∧
    (∀ a bs s1, o.kind = .crest d a → gangIssuing s core team g = false → fetchRun (acquireCore s core .pkg) t core a.toNat 112 = (s1, .ok bs) →
      imageBad (t.gang g) bs = true → ∃ u, run = .next u ∧ ends 1 u ∧ u.mem = s1.mem) ∧
    (∀ a bs s1 cs s2 x, o.kind = .crest d a → gangIssuing s core team g = false →
      fetchRun (acquireCore s core .pkg) t core a.toNat 112 = (s1, .ok bs) → imageBad (t.gang g) bs = false →
      fetchRun s1 t core a.toNat (imageSize (fld (imgNat bs 0 1024) 10 8) / 128) = (s2, .ok cs) → findGang s2 team g = some x →
      ∃ u y, run = .next u ∧ findGang u team g = some y ∧ u.mem = s2.mem ∧
        y.cregs = (restoreGang { s2 with fresh := s2.fresh + 1 } t x cs).cregs ∧
        ∀ j, (y.lane j).preds = ((restoreGang { s2 with fresh := s2.fresh + 1 } t x cs).lane j).preds) ∧
    -- TLBINV, REPLAY and EVNT
    (∀ k q, o.kind = .tlbinv d k q → (runTlb s k q).1.teams = s.teams →
      ∃ u, run = .next u ∧ ends (runTlb s k q).2 u ∧ u.mem = (runTlb s k q).1.mem) ∧
    (∀ ctx, o.kind = .replay d ctx none → ∃ u y, run = .next u ∧ findGang u team g = some y ∧ u.mem = (replayAll s ctx).1.mem ∧
      ((y.ops.find? (fun o => o.id == op)).map (·.kind) = some (.replay d ctx (some ((s.teams.filter (fun t => t.ctx == ctx)).map (fun t =>
        t.preload.length + (t.gangs.map (fun g => g.parts.length)).sum)).sum)))) ∧
    (∀ ctx n, o.kind = .replay d ctx (some n) →
      (replayDone s ctx = false → run = .next s) ∧ (replayDone s ctx = true → ∃ u, run = .next u ∧ ends n u ∧ u.mem = s.mem)) ∧
    (∀ es, o.kind = .evnt es →
      ((∃ x ∈ s.dies, ∃ n ∈ es, x.events.holds n = true) → run = .next s) ∧
      ((∀ x ∈ s.dies, ∀ n ∈ es, x.events.holds n = false) → ∃ u y, run = .next u ∧ findGang u team g = some y ∧ y.lanes = (t.gang g).lanes ∧
        y.ops = (t.gang g).ops.filter (fun p => p.id != op) ∧ u.mem = s.mem ∧
        ∀ n, y.flag n = (t.gang g).flag n - (if n = o.flag ∧ n ≠ 0 then 1 else 0)))) ∧
  -- what TLBINV does to a page, and its status
  (∀ q,
    let r := tlbReq q
    let n := pageBytes r.size
    (∀ k, tlbBad k r = true → runTlb s k q = (s, 3)) ∧
    (∀ k, k ≠ .map → tlbBad k r = false → leafOf s r.ctx r.va = none → runTlb s k q = (s, 5)) ∧
    (∀ k x, k ≠ .map → tlbBad k r = false → leafOf s r.ctx r.va = some x → x.psize ≠ n → runTlb s k q = (s, 3)) ∧
    (tlbBad .map r = false → leafOf s r.ctx r.va = none → aliases s r = true → runTlb s .map q = (s, 1)) ∧
    (∀ k x, k = .unmap ∨ k = .evict → tlbBad k r = false → leafOf s r.ctx r.va = some x → x.psize = n → pageLeased s r.ctx r.va n = true →
      runTlb s k q = (s, 2)) ∧
    (∀ x, tlbBad .query r = false → leafOf s r.ctx r.va = some x → x.psize = n →
      runTlb s .query q = (s, 256 * fld x.entry 4 4 + 512 * fld x.entry 5 5 + 1024 * fld x.entry 6 6 + 2048 * fld x.entry 2 2)) ∧
    (∀ x, tlbBad .clrad r = false → leafOf s r.ctx r.va = some x → x.psize = n → (∀ j < 3, channelFailed s (x.key + 65536 * j) = false) →
      (runTlb s .clrad q).2 = 0 ∧ (∀ e ∈ (runTlb s .clrad q).1.tlb, e.2 ≠ x.key) ∧
      rdNat (runTlb s .clrad q).1 x.key 8 = rdNat s x.key 8 - 16 * fld (rdNat s x.key 8) 5 4) ∧
    (∀ k x, k = .unmap ∨ k = .evict → tlbBad k r = false → leafOf s r.ctx r.va = some x → x.psize = n → pageLeased s r.ctx r.va n = false →
      (runTlb s k q).2 = 0 ∧ (∀ e ∈ (runTlb s k q).1.tlb, e.2 ≠ x.key) ∧
      ∀ a, ∀ e ∈ (agentMem (runTlb s k q).1 a).snap, inPage r.ctx r.va n e.1 = false))

/-- R81, R82, R98, R442: once every participant of a barrier has arrived and released, each acquires at its scope and continues; that no
barrier waits for a release at core scope is log entry 110. Once every lane
of a team waits at REGRP, with its flags at zero, its quads are dealt to its gangs in order of their tags, and none waits any more. -/
def Obligations.BarriersAndRegrouping : Prop := ∀ s,
  (∀ b, (s.teams.map (·.uid)).Nodup → (∃ y ∈ (barGangs s b).1, (y.1.gang y.2).liveAt ≠ []) →
    (∀ y ∈ (barGangs s b).1, ∀ i ∈ (y.1.gang y.2).liveAt, ((y.1.gang y.2).lane i).arrived (barGangs s b).2 ≠ none) →
    ∃ r, exec (.barrierComplete b) s = .next r ∧ r.mem = s.mem ∧
      ∀ y ∈ (barGangs s b).1, ∀ i ∈ (y.1.gang y.2).liveAt, ∃ sc m, ((y.1.gang y.2).lane i).arrived (barGangs s b).2 = some sc ∧
        findLane r y.1.uid y.2 i = some m ∧ m.st = (if ((y.1.gang y.2).lane i).handler then .trapped else .running) ∧
        m.queue = ((y.1.gang y.2).lane i).queue ++ [LaneOp.plain (.acq sc)] ∧ m.regs = ((y.1.gang y.2).lane i).regs ∧
        m.pc = ((y.1.gang y.2).lane i).pc) ∧
  (∀ team t, findTeam s team = some t → t.core ≠ none → t.ending = none → t.perGang ≤ 8 →
    (∀ g ∈ t.gangs, g.retired = true → ∀ l ∈ g.lanes, l.live = false) → (∃ g ∈ t.gangs, ∃ l ∈ g.lanes, l.live = true) →
    (∀ g ∈ t.gangs, g.lanes.length = 32 ∧ ∀ l ∈ g.lanes, l.live = true → l.arrived isRegrp ≠ none) →
    (∀ g ∈ t.gangs, g.parked = 0 ∧ (∀ n < 12, g.flag (n + 1) = 0) ∧ ∀ r ∈ g.ready, r.2 ≤ s.cycle) →
    (∀ g ∈ t.gangs, ∀ l ∈ g.lanes, l.live = false → t.laneDone l = true) →
    ∃ r u, exec (.regroup team) s = .next r ∧ findTeam r team = some u ∧ u.gangs.length = t.gangs.length ∧
      (∀ g ∈ u.gangs, ∀ l ∈ g.lanes, l.st ≠ .blocked .regrp) ∧
      ((u.gangs.filter (fun g => !g.retired)).flatMap Gang.quads).Pairwise (fun a b => a.phase.tag.toNat ≤ b.phase.tag.toNat))

/-- R79, R103, R104: chunks go to the oldest waiting gang once they are free, and its lanes go on; a lane that waits on a word goes on
with an acquire when a re-read finds its value; a TLTRY whose interval ends answers true if its timeline reached the value before the
interval's last cycle, and false if it has not. -/
def Obligations.RequestsAndWaitsGranted : Prop := ∀ s,
  (∀ core bay uid g x n, oldestWaiter (acqxWaiters s core bay) = some (uid, g, x) → findGang s uid g = some x → x.acqxWant = some n →
    x.chunks < n → n ≤ x.chunks + freeChunks s core bay →
    ∃ r y, exec (.acqxGrant core bay) s = .next r ∧ findGang r uid g = some y ∧ y.chunks = n ∧ y.lanes.length = x.lanes.length ∧
      r.mem = s.mem ∧ ∀ i, (y.lane i).st = (if (x.lane i).st = .blocked (.acqx n) then (if (x.lane i).handler then .trapped else .running)
        else (x.lane i).st) ∧ ∀ k < 64 * (1 + x.chunks), (y.lane i).reg k = (x.lane i).reg k) ∧
  (∀ team g i t core l a v sc tr r x, findTeam s team = some t → t.core = some core → findLane s team g i = some l →
    memWait l.st = some (a, v, sc, tr) → l.queue = [] → (t.gang g).parked = 0 → (∀ p, tr = some p → s.cycle < p.2 ∧ p.1 < 96) →
    readWord s t core a = (r, .ok x) →
    ∃ u m, exec (.tlwaitReread team g i) s = .next u ∧ findLane u team g i = some m ∧ m.regs = l.regs ∧ m.queue = [] ∧
      m.seen = some (BitVec.ofNat 64 x) ∧ u.mem = r.mem ∧
      (x < v.toNat → m.st = l.st ∧ m.preds = l.preds) ∧
      (v.toNat ≤ x → m.st = (if l.handler then .trapped else .running) ∧ (∀ p, tr = some p → m.pred p.1 = true) ∧
        ∀ e ∈ (agentMem u (.core core)).snap, inScope (coreDie core) sc (homeOf e.1.addr) = false)) ∧
  (∀ team g i t core e v pd d l, findTeam s team = some t → t.core = some core → findLane s team g i = some l →
    l.st = .blocked (.tryTeam e v pd d) → d ≤ s.cycle → pd < 96 → (t.gang g).parked = 0 → l.queue = [] →
    ∃ r m, exec (.tltryIntervalEnd team g i) s = .next r ∧ findLane r team g i = some m ∧ m.regs = l.regs ∧
      m.st = (if l.handler then .trapped else .running) ∧ r.mem = s.mem ∧
      (heldSince s team g i = none → m.pred pd = false) ∧ (∀ h, heldSince s team g i = some h → h < d → m.pred pd = true))

-- Gangs and teams (04, 15)

/-- R85 to R87, R361, R382, R436: a team that makes room stops its blocked lanes: one that waits in joins only for a ready team without a place for 20 µs, the
longest resident first, and not within 20 µs of its own resumption (R436, log entry 123). Once all have stopped and released it is saved, with a header at
the start of its area, and its core given up; it stands again where its gangs fit, with the lanes that ran running and those that waited
waiting anew. -/
def Obligations.TeamsSavedAndResumed : Prop := ∀ s,
  (∀ team t, findTeam s team = some t → t.core ≠ none → t.preempting = false → t.ending = none →
    wantsPlace s (fun l => decide (t.prio < recPrio l.raw)) = true →
    ∃ r u, exec (.preemptDecide team) s = .next r ∧ findTeam r team = some u ∧ u.preempting = true ∧ r.mem = s.mem ∧
      ∀ g i w, ((t.gang g).lane i).st = .blocked w → ((t.gang g).lane i).handler = false → ((u.gang g).lane i).st = .stopped (some w)) ∧
  (∀ team t core, findTeam s team = some t → t.core = some core → t.preempting = true → t.ending = none → t.stopped = true →
    (∀ x ∈ (coreOf s core).order, x.1 ≠ team) → (teamRelease (writeBack s t) core).2 = true →
    ∃ r u, exec (.teamSave team) s = .next r ∧ findTeam r team = some u ∧ u.place = .away t.swapping ∧ u.preempting = false ∧
      u.lastCore = core ∧ readSave r team 0 1 = some 1 ∧ readSave r team 4 4 = some (t.tid % 2 ^ 32)) ∧
  (∀ team core t, findTeam s team = some t → t.place = .away false → mayResume s t core = true →
    ∃ r u, exec (.teamResume team core) s = .next r ∧ findTeam r team = some u ∧ u.place = .core core ∧
      ∀ g i, ((t.gang g).lane i).st = .stopped none → ((u.gang g).lane i).st = .running) ∧
  (∀ team t, findTeam s team = some t → t.core ≠ none → t.preempting = false → t.ending = none →
    (∃ g ∈ t.gangs, ∃ l ∈ g.lanes, l.live = true) →
    (∀ g ∈ t.gangs, ∀ l ∈ g.lanes, l.live = true → l.handler = false ∧ l.joins ≠ none ∧ l.seen ≠ none) → t.holdOff ≤ s.clock →
    (∀ x ∈ s.teams, x.die = t.die → x.swappable s = true → t.resumedAt ≤ x.resumedAt) →
    wantsPlace s (fun l => l.die == t.die && l.noPlace.any (fun c => decide (c + 20000 * (24 * 10 ^ 9) ≤ s.clock))) = true →
    ∃ r u, exec (.parentSwapOut team) s = .next r ∧ findTeam r team = some u ∧ u.preempting = true ∧ u.swapping = true ∧ r.mem = s.mem) ∧
  (∀ team core t x y, findTeam s team = some t → t.place = .away true → x ∈ t.watch → wordAt s t x.1 = some y → y ≠ x.2 →
    mayResume s t core = true → ∃ r u, exec (.parentSwapIn team core) s = .next r ∧ findTeam r team = some u ∧ u.place = .core core)

/-- R88, R89, R374, R375, R377: an empty gang retires and frees its blocks; a team whose gangs, commands and launches are done retires once the
Leaves of its core have come home (R433), and
one that has to end ends with its fault recorded; a deferred fault traps at its lane's next clause; a gang that waits for a page alone
is parked, and comes back when its parts are done. -/
def Obligations.GangsAndTeamsEnd : Prop := ∀ s,
  (∀ team g x t, findTeam s team = some t → t.core ≠ none → findGang s team g = some x → x.retired = false →
    (∀ l ∈ x.lanes, l.live = false) → (∀ n < 12, x.flag (n + 1) = 0) →
    ∃ r y, exec (.gangRetire team g) s = .next r ∧ findGang r team g = some y ∧ y.retired = true ∧ y.chunks = 0 ∧ r.mem = s.mem) ∧
  (∀ team t core, findTeam s team = some t → t.core = some core → t.ending = none →
    (∀ g ∈ t.gangs, g.retired = true ∧ ∀ l ∈ g.lanes, l.queue = []) → (∀ c ∈ t.ectx, c.queue = []) → t.pend = [] →
    poolOf s team = [] → t.launching = false → (teamRelease s core).2 = true → (ctxRelease (teamRelease s core).1 t).2 = true →
    let x := (ctxRelease (teamRelease s core).1 t).1
    let left := (teamRegions x core team).foldl (fun s y => (endRegion s core y).1) x
    ((∀ m ∈ left.msgs, m.kind = .leave → m.core ≠ core) → ∃ r, exec (.teamRetire team) s = .next r ∧ findTeam r team = none) ∧
    ((∃ m ∈ left.msgs, m.kind = .leave ∧ m.core = core) → exec (.teamRetire team) s = .next left)) ∧
  (∀ team t f, findTeam s team = some t → t.ending = some f → t.begun = false → t.die < s.dies.length → (dieOf s t.die).failed = false →
    (ctxRelease s t).2 = true →
    ∃ r n, exec (.teamEnd team) s = .next r ∧ findTeam r team = none ∧
      (dieOf r t.die).faults.waiting = (dieOf s t.die).faults.waiting ++ [(n, faultRecord t f + 2 ^ 512 * t.band)]) ∧
  (∀ team g i t core c tv f, findTeam s team = some t → t.core = some core → core < s.cores.length →
    (bayOf s core (g % 4)).issue = none → (dieOf s (coreDie core)).halted = false →
    choose (issueCycle s core (g % 4)) (candidates s core (g % 4) (issueCycle s core (g % 4))) = some c →
    c.team.uid = team → c.g = g → findGang s team g = some c.gang → c.gang.lanes.length = 32 →
    pastEnd c.fetched (c.gang.lane (c.grp.headD 0)).resume = none → c.grp.find? (fun j => (c.gang.lane j).deferred.isSome) = some i →
    (c.gang.lane i).deferred = some f → (∀ j ∈ c.grp, (c.gang.lane j).handler = false) → traps f.cause = true →
    handlerFor s t.ctx f.cause f.tmem = some tv →
    ∃ r y, exec (.trapEntry team g i) s = .next r ∧ findGang r team g = some y ∧ y.ecause = BitVec.ofNat 32 (causeCode f.cause) ∧
      y.eaddr = f.addr ∧ r.mem = s.mem ∧ ∀ j ∈ c.grp, (y.lane j).handler = true ∧ (y.lane j).pc = tv ∧
        (y.lane j).epc = (c.gang.lane i).pc ∧ (y.lane j).eslot = 0 ∧ (y.lane j).deferred = none) ∧
  (∀ team g t core x, findTeam s team = some t → t.core = some core → findGang s team g = some x → x.parked = 1 → x.parts ≠ [] →
    gangIssuing s core team g = false → x.onlyParked (coreDie core) = true →
    ∃ r, exec (.parkGang team g) s = .next r ∧ findGang r team g = some { x with parked := 2 } ∧ r.mem = s.mem) ∧
  (∀ team g t core x, findTeam s team = some t → t.core = some core → findGang s team g = some x → x.parked = 2 → x.parts = [] →
    (∀ l ∈ x.lanes, l.queue = []) → (∀ o ∈ x.ops, o.kind = .mem) → bayFits s core (g % 4) 1 x.chunks = true →
    ∃ r y, exec (.parkedGangResume team g) s = .next r ∧ findGang r team g = some y ∧ y.parked = 0 ∧ r.mem = s.mem)

-- The ordering machine (08)

/-- R189: FILL copies the home's line, EVICT drops it; LOAD binds the bytes of the lane's view and writes its register; STORE puts bytes
into the buffer and leaves the homes; the LOAD step of LDP reads each byte from L1 where the team has stored it and else from its home
(the home as it stands now is the model's choice, log entry 117), and the STORE step of STP leaves its bytes in L1 (log entry 100);
DRAIN takes a buffered line to its home; an acknowledgement arrives once every message that it waits for is gone. -/
def Obligations.LoadsStoresAndDrains : Prop := ∀ s,
  (∀ n l loc, n < s.cores.length → agentSubscribed s (.core n) l = false → (agentMem s (.core n)).copy l = none → Settled s →
    locate s l.ctx l.addr .read (agentLeased s (.core n) l) = .ok loc →
    ∃ r, exec (.fill (.core n) l) s = .next r ∧ r.teams = s.teams ∧ r.mem = (markLeaf s loc false).mem ∧
      (agentMem r (.core n)).copy l = some (rdBytes (markLeaf s loc false) (lineAddr loc.key) 128) ∧
      (agentMem r (.core n)).buf = (agentMem s (.core n)).buf) ∧
  (∀ n l, n < s.cores.length → ∃ r, exec (.evict (.core n) l) s = .next r ∧ (agentMem r (.core n)).copy l = none ∧ r.mem = s.mem ∧
    r.teams = s.teams ∧ ∀ k, k ≠ l → (agentMem r (.core n)).copy k = (agentMem s (.core n)).copy k) ∧
  (∀ team g i idx p a ty b w loc bs, partOf s team g i idx = some p → p.op.kind = .load a ty { name := .g b, words := w } →
    p.lane.takes p.op.op = true → locateFor s p.team a.toNat .read = .ok loc →
    viewBytes s (.core p.core) p.team.ctx (lineOf p.team.ctx a.toNat) (lineAddr loc.key) (a.toNat % 128) (tyBytes ty) = some bs →
    (∀ x ∈ bs, x.2 = false) →
    ∃ r m, exec (.load team g i idx) s = .next r ∧ findLane r team g i = some m ∧ m.queue = p.lane.queue.eraseIdx idx ∧
      m.preds = p.lane.preds ∧ r.mem = (markLeaf s loc false).mem ∧
      ∀ n, m.reg n = (let ws := loadWords ty (bs.map (·.1)); if b ≤ n ∧ n < b + ws.length then ws.getD (n - b) 0 else p.lane.reg n)) ∧
  (∀ team g i idx p a bs port, partOf s team g i idx = some p → p.op.kind = .store a bs port → p.core < s.cores.length →
    a.toNat % 128 + bs.length ≤ 128 →
    ∃ r m, exec (.store team g i idx) s = .next r ∧ findLane r team g i = some m ∧ m.queue = p.lane.queue.eraseIdx idx ∧
      m.regs = p.lane.regs ∧ r.mem = s.mem ∧
      ∀ o, (agentMem r (.core p.core)).buffered (lineOf p.team.ctx a.toNat) o =
        if a.toNat % 128 ≤ o ∧ o < a.toNat % 128 + bs.length then bs[o - a.toNat % 128]?
        else (agentMem s (.core p.core)).buffered (lineOf p.team.ctx a.toNat) o) ∧
  (∀ team g i idx p o ty b w val, partOf s team g i idx = some p → p.op.kind = .laneLoad o ty { name := .g b, words := w } →
    p.lane.takes p.op.op = true →
    (let at_ := fun k => (p.team.pb + BitVec.ofNat 64 (p.lane.gid * 32 * p.team.ps + (o + k) / 4 * 128 + p.lane.lid * 4 + (o + k) % 4)).toNat
     (∀ k < tyBytes ty, tget none p.team.l1 (at_ k) = some (val k) ∨ (tget none p.team.l1 (at_ k) = none ∧
       ∃ loc, locateFor s p.team (at_ k) .read = .ok loc ∧ poisoned s loc.key = false ∧ rdByte s loc.key = val k)) →
     ∃ r m, exec (.load team g i idx) s = .next r ∧ findLane r team g i = some m ∧ m.queue = p.lane.queue.eraseIdx idx ∧
       m.preds = p.lane.preds ∧ (∀ loc, locateFor s p.team (at_ 0) .read = .ok loc → r.mem = (markLeaf s loc false).mem) ∧
       ∀ n, m.reg n = (let ws := loadWords ty ((List.range (tyBytes ty)).map val)
         if b ≤ n ∧ n < b + ws.length then ws.getD (n - b) 0 else p.lane.reg n))) ∧
  (∀ team g i idx p o bs, partOf s team g i idx = some p → p.op.kind = .laneStore o bs → bs ≠ [] →
    (let at_ := fun k => (p.team.pb + BitVec.ofNat 64 (p.lane.gid * 32 * p.team.ps + (o + k) / 4 * 128 + p.lane.lid * 4 + (o + k) % 4)).toNat
     (∀ k < bs.length, ∃ loc, locateFor s p.team (at_ k) .write = .ok loc) → bs.length ≤ 16 →
     ∃ r m t, exec (.store team g i idx) s = .next r ∧ findLane r team g i = some m ∧ m.queue = p.lane.queue.eraseIdx idx ∧
       m.regs = p.lane.regs ∧ (∀ loc, locateFor s p.team (at_ 0) .write = .ok loc → r.mem = (markLeaf s loc true).mem) ∧
       findTeam r team = some t ∧ (∀ k < bs.length, tget none t.l1 (at_ k) = bs[k]?) ∧
       ∀ a, (∀ k < bs.length, a ≠ at_ k) → tget none t.l1 a = tget none p.team.l1 a)) ∧
  (∀ n l loc, n < s.cores.length → (agentMem s (.core n)).entry l ≠ [] → (((agentMem s (.core n)).entry l).map (·.off)).Nodup →
    (∀ b ∈ (agentMem s (.core n)).entry l, locate s l.ctx l.addr .write (leased s b.team l.addr) = .ok loc) →
    channelFailed s (lineAddr loc.key) = false → Settled s →
    ∃ r, exec (.drain (.core n) l) s = .next r ∧ (agentMem r (.core n)).entry l = [] ∧
      (∀ b ∈ (agentMem s (.core n)).entry l, rdByte r (lineAddr loc.key + b.off) = b.val) ∧
      ∀ k, (∀ b ∈ (agentMem s (.core n)).entry l, k ≠ lineAddr loc.key + b.off) → rdByte r k = rdByte (markLeaf s loc true) k) ∧
  (∀ n id, n < s.cores.length → (∀ m ∈ s.msgs, m.cause ≠ id) → ∃ r, exec (.ackArrive (.core n) id) s = .next r ∧ r.mem = s.mem ∧
    r.teams = s.teams ∧ (agentMem r (.core n)).acks = (agentMem s (.core n)).acks.filter (fun x => x.1 != id))

/-- R189, R204: a release ends once nothing of its scope is buffered or unacknowledged; an acquire drops the copies of its scope; the
last part of an operation counts its flag down. ATOM, ACAS, XSUM, XRD, XCLR and LDV read their bytes at home and do what R204 to R208 say
of each: what they write, deliver and OR into fst. CMS compares and writes its lines as R198 and R209 say, with the status of each case
and the predicate for 0. -/
def Obligations.OrderAndAtomicsAct : Prop := ∀ s team g i idx p, partOf s team g i idx = some p →
  (∀ sc, p.op.kind = .rel sc → p.op.acks = [] →
    (∀ e ∈ (agentMem s (.core p.core)).buf, inScope (coreDie p.core) sc (homeOf e.1.addr) = false) →
    (∀ x ∈ (agentMem s (.core p.core)).acks, inScope (coreDie p.core) sc (homeOf x.2.addr) = false) →
    ∃ r m, exec (.relStep team g i idx) s = .next r ∧ findLane r team g i = some m ∧ m.queue = p.lane.queue.eraseIdx idx ∧
      m.regs = p.lane.regs ∧ r.mem = s.mem ∧ r.cores = s.cores) ∧
  (∀ sc, p.op.kind = .acq sc → p.core < s.cores.length →
    ∃ r m, exec (.acqStep team g i idx) s = .next r ∧ findLane r team g i = some m ∧ m.queue = p.lane.queue.eraseIdx idx ∧
      m.regs = p.lane.regs ∧ r.mem = s.mem ∧
      (agentMem r (.core p.core)).snap =
        (agentMem s (.core p.core)).snap.filter (fun e => !inScope (coreDie p.core) sc (homeOf e.1.addr)) ∧
      ∀ o, p.op.last = true → p.op.op ≠ 0 → opGang p.team p.op.op = some g →
        (p.team.gang g).ops.find? (fun q => q.id == p.op.op) = some o → o.lanes = [p.lane.ident] → ∃ y, findGang r team g = some y ∧ (∀ q ∈ y.ops, q.id ≠ p.op.op) ∧
          ∀ n, y.flag n = (p.team.gang g).flag n - (if n = o.flag ∧ n ≠ 0 then 1 else 0)) ∧
  (∀ a n (e : Option (Nat × Nat)) acc loc new res fl, atomArgs p.op.kind = some (a, n, e.map (fun x => { name := .g x.1, words := x.2 }), acc) →
    p.op.acks = [] → p.lane.takes p.op.op = true → locateFor s p.team a.toNat acc = .ok loc →
    (agentMem s (.core p.core)).entry (lineOf p.team.ctx a.toNat) = [] → (∀ k < n, poisoned s (loc.key + k) = false) →
    (new ≠ none → channelFailed s (lineAddr loc.key) = false) → entriesOf s (lineOf p.team.ctx a.toNat) = [] →
    (∀ m ∈ s.msgs, m.cause < s.fresh) → Settled s →
    (let q := markLeaf s loc (new.isSome : Bool)
     Acts (rdNat q loc.key n) (stampOf (touchLine q p.team.ctx loc) loc.key) p.op.kind new res fl →
     ∃ r m, exec (.atomic team g i idx) s = .next r ∧ findLane r team g i = some m ∧ m.queue = p.lane.queue.eraseIdx idx ∧
       m.preds = p.lane.preds ∧ m.fst = p.lane.fst ||| fl ∧
       (∀ x, new = some x → ∀ k < n, rdByte r (loc.key + k) = (toBytes n x).getD k 0) ∧
       (∀ k, new = none ∨ k < loc.key ∨ loc.key + n ≤ k → rdByte r k = rdByte q k) ∧
       ∀ j, m.reg j = match e with
         | some (b, _) => if b ≤ j ∧ j < b + res.length then res.getD (j - b) 0 else p.lane.reg j
         | none => p.lane.reg j)) ∧
  (∀ a pd b w hs ds, p.op.kind = .cms a pd { name := .g b, words := w } → p.op.acks = [] → p.lane.takes p.op.op = true → pd < 96 →
    readView s p a.toNat 128 = .ok hs → readView s p (a.toNat + 128) (128 * cmsLines (ofBytes hs)) = .ok ds →
    (∀ m ∈ s.msgs, m.cause < s.fresh) → Settled s →
    (let n := fld (ofBytes hs) 2 0
     let A := fun j => fld (ofBytes (hs ++ ds)) (128 + 128 * j + 63) (128 + 128 * j)
     let S := fun j => fld (ofBytes (hs ++ ds)) (128 + 128 * j + 95) (128 + 128 * j + 64)
     let q := markAt s p.team ((List.range ((hs ++ ds).length / 128)).map (fun k => a.toNat + 128 * k)) .read
     let ends := fun (st : Nat) (mem : State → Prop) => ∃ r m, exec (.atomic team g i idx) s = .next r ∧ findLane r team g i = some m ∧
       m.queue = p.lane.queue.eraseIdx idx ∧ (∀ j, m.reg j = if j = b then BitVec.ofNat 32 st else p.lane.reg j) ∧
       (∀ k < 96, m.pred k = if k = pd then st == 0 else p.lane.pred k) ∧ m.fst = p.lane.fst ∧ mem r
     let same := fun (r : State) => r.mem = q.mem
     let shaped := 1 ≤ n ∧ n ≤ 4 ∧ (∀ j < n, A j % 128 = 0) ∧ ∀ j < n, ∀ k < n, A j = A k → j = k
     let served := ∀ j < n, servedFault q .package (A j) = none
     let one := ∀ j < n, homeOf (A j) % 2 = homeOf (A 0) % 2 ∧ sliceOf (offOf (A j)) = sliceOf (offOf (A 0))
     ((n = 0 ∨ 4 < n ∨ (served ∧ ¬ shaped)) → ends 3 same) ∧ (shaped → served → ¬ one → ends 2 same) ∧
     ∀ loc : Nat → Loc, shaped → served → one → (∀ j < n, locateFor q p.team (A j) .write = .ok (loc j)) →
       (∀ j < n, (agentMem s (.core p.core)).entry (lineOf p.team.ctx (A j)) = []) →
       (∀ j < n, 2 ≤ homeOf (loc j).key ∨ q.sliceLines.contains ((loc j).key / 128) = true) →
       ((∃ j < n, stampOf q (loc j).key ≠ S j) → ends 1 same) ∧
       ((∀ j < n, stampOf q (loc j).key = S j) → (∀ j < n, ∀ k < n, (loc j).key = (loc k).key → j = k) →
         (∀ j < n, channelFailed q (loc j).key = false ∧ entriesOf q (lineOf p.team.ctx (A j)) = []) →
         (∀ j < n, ∀ l, (loc j).leaf = some l → ∀ k < n, l.key / 128 ≠ (loc k).key / 128) →
         ends 0 (fun r => (∀ j < n, stampOf r (loc j).key = (S j + 1) % 2 ^ 32 ∧
             ∀ k < 128, rdByte r ((loc j).key + k) = (hs ++ ds).getD (128 + 128 * j + k) 0) ∧
           ∀ k, (∀ j < n, k / 128 ≠ (loc j).key / 128 ∧ ∀ l, (loc j).leaf = some l → l.key ≠ k) → rdByte r k = rdByte q k))))

/-- R194 to R196, R204, R206, R207: what each atomic computes. The operations of ATOM are exact on both widths; an exact-sum cell adds
every finite value exactly while the sum fits, and reads back as its sum rounded once. -/
def Obligations.AtomicsCompute : Prop :=
  (∀ w64 old b, atomRes .add w64 old b = old + b ∧ atomRes .and w64 old b = old &&& b ∧ atomRes .or w64 old b = old ||| b ∧
    atomRes .xor w64 old b = old ^^^ b ∧ atomRes .exch w64 old b = b ∧
    (atomRes .minN w64 old b).toNat = min old.toNat b.toNat ∧ (atomRes .maxN w64 old b).toNat = max old.toNat b.toNat) ∧
  (∀ old b : DWord, (atomRes .minS true old b).toInt = min old.toInt b.toInt ∧ (atomRes .maxS true old b).toInt = max old.toInt b.toInt ∧
    (lo32 (atomRes .minS false old b)).toInt = min (lo32 old).toInt (lo32 b).toInt ∧
    (lo32 (atomRes .maxS false old b)).toInt = max (lo32 old).toInt (lo32 b).toInt) ∧
  (∀ c x neg m e st, dec .f32 x.toNat = .fin neg m e st →
    -(2 ^ 479 : Nat) ≤ cellVal c + sgn neg (m * 2 ^ (e + 160).toNat) → cellVal c + sgn neg (m * 2 ^ (e + 160).toNat) < (2 ^ 479 : Nat) →
    cellVal (cellAdd c x) = cellVal c + sgn neg (m * 2 ^ (e + 160).toNat) ∧ cellAdd c x / 2 ^ 480 = c / 2 ^ 480) ∧
  (∀ c, c < 2 ^ 480 → (cellRead c).1 = (rne .f32 (ofInt (cellVal c) (-160) false)).1)

-- Subscriptions (09)

/-- R213 to R225, R231 to R235: a Register is answered with the line's view in the format asked for and lists its core; Data and
updates reach the core's table; a Leave strikes the core out; SLD delivers the view's element, its own or a neighbour's; SCHG reads the
count; a weight that WLD loads through a region comes from the core's view, or from its home, converted; a registered line that L1 evicts, when nothing else of its set could go, leaves; a line that its slice drops, or whose entry is lost,
invalidates its sharers. -/
def Obligations.SubscriptionsServed : Prop := ∀ s,
  (∀ msg m loc, s.msgs.find? (fun x => x.id == msg && x.kind == .register) = some m → firstReq s m = true → m.core < s.cores.length →
    (∀ b, locate s m.line.ctx m.line.addr .read b = .ok loc) → badPieces s (lineAddr loc.key) = [] → findDir s m.line = none → Settled s →
    ∃ r d x, exec (.register msg) s = .next r ∧ findDir r m.line = some d ∧ d.coarse = false ∧ d.t = m.t ∧
      d.sharers = [{ core := m.core, f := m.f, inv := m.inv }] ∧ x ∈ r.msgs ∧ x.kind = .data true ∧ x.core = m.core ∧ x.line = m.line ∧
      x.f = m.f ∧ x.elems = (lineElems m.t (rdBytes (markLeaf s loc false) (lineAddr loc.key) 128)).map (viewOf m.t m.f)) ∧
  (∀ core msg m g x, core < s.cores.length → s.msgs.find? (fun y => y.id == msg && y.core == core) = some m →
    (((s.msgs.filter (fun y => y.toCore && y.line == m.line)).take 64).find? (fun y => y.core == core)).map (·.id) = some msg →
    (m.kind = .data true ∧ x.asked = some m.re) ∨ (m.kind = .update ∧ x.registered = true ∧ g.caddr = 0) →
    (coreOf s core).regions.find? (fun y => y.holds m.line) = some g → subLine s core m.line = some x →
    ∃ r y h, exec (.apply core msg) s = .next r ∧ subLine r core m.line = some y ∧ y.view = m.elems ∧ y.f = m.f ∧ y.registered = true ∧
      y.next = some ((m.stamp + 1) % 256) ∧ (coreOf r core).regions.find? (fun y => y.holds m.line) = some h ∧
      h.count = (if m.kind = .update then g.count + 1 else g.count) ∧ r.mem = s.mem) ∧
  (∀ msg m d, s.msgs.find? (fun x => x.id == msg && x.kind == .leave) = some m → firstReq s m = true → findDir s m.line = some d →
    d.coarse = false → ∃ r, exec (.leave msg) s = .next r ∧ r.mem = s.mem ∧
      findDir r m.line = (let l := d.sharers.filter (fun x => x.core != m.core); if l = [] then none else some { d with sharers := l })) ∧
  (∀ team g i idx p a k asked b w z x, partOf s team g i idx = some p → p.op.kind = .sld a k asked { name := .g b, words := w } →
    p.lane.takes p.op.op = true → teamRegion s p.core team (viewLine p.team.ctx a.toNat) = some z →
    subLine s p.core (viewLine p.team.ctx a.toNat) = some x → x.registered = true →
    ∃ r m, exec (.sldBind team g i idx) s = .next r ∧ findLane r team g i = some m ∧ m.queue = p.lane.queue.eraseIdx idx ∧ r.mem = s.mem ∧
      ∀ n, m.reg n = if n = b then sldValue z.t x.f (x.view.getD (a.toNat % 128 / etypeBytes z.t) 0) else p.lane.reg n) ∧
  (∀ team g i idx p a b w, partOf s team g i idx = some p → p.op.kind = .schg a { name := .g b, words := w } →
    p.lane.takes p.op.op = true →
    ∃ r m, exec (.sldBind team g i idx) s = .next r ∧ findLane r team g i = some m ∧ m.queue = p.lane.queue.eraseIdx idx ∧ r.mem = s.mem ∧
      ∀ n, m.reg n = (let v := match teamRegion s p.core team (viewLine p.team.ctx a.toNat) with
          | some z => z.count
          | none => 0xFFFFFFFFFFFFFFFF
        if n = b then lo32 v else if n = b + 1 then hi32 v else p.lane.reg n)) ∧
  (∀ team g i idx peer p a k asked b w z x y z', partOf s team g i idx = some p → p.op.kind = .sld a k asked { name := .g b, words := w } →
    p.lane.takes p.op.op = true → teamRegion s p.core team (viewLine p.team.ctx a.toNat) = some z →
    subLine s p.core (viewLine p.team.ctx a.toNat) = some x → subLine s peer (viewLine p.team.ctx a.toNat) = some y →
    (coreOf s peer).regions.find? (fun r => r.holds (viewLine p.team.ctx a.toNat)) = some z' →
    groupOf peer = groupOf p.core → peer ≠ p.core → x.registered = false → x.next = none → y.registered = true → y.f = z.f → z'.t = z.t →
    ∃ r m, exec (.peersld team g i idx peer) s = .next r ∧ findLane r team g i = some m ∧ m.queue = p.lane.queue.eraseIdx idx ∧ r.mem = s.mem ∧
      ∀ n, m.reg n = if n = b then sldValue z.t y.f (y.view.getD (a.toNat % 128 / etypeBytes z.t) 0) else p.lane.reg n) ∧
  (∀ t core r latch asked j,
    let a := (hAddr r j).1
    let et : EType := if hFmt r = 0 then .f32 else .bf16
    (∀ z x, teamRegion s core t.uid (viewLine t.ctx a) = some z → subLine s core (viewLine t.ctx a) = some x → x.registered = true →
      x.f = latchView latch → z.t = et → subWeight s t core r latch asked j = .ok (x.view.getD (a % 128 / etypeBytes et) 0)) ∧
    (∀ loc, teamRegion s core t.uid (viewLine t.ctx a) = none → locateFor s t a .read = .ok loc →
      (∀ i < etypeBytes et, poisoned s (loc.key + i) = false) →
      subWeight s t core r latch asked j = .ok (viewOf et (latchView latch) (rdNat s loc.key (etypeBytes et))))) ∧
  (∀ core line x z, core < s.cores.length → subLine s core line = some x → (coreOf s core).regions.find? (fun r => r.holds line) = some z →
    x.registered = true → (∀ e ∈ (coreOf s core).mem.snap, Config.l1Set (e.1.addr / 128) ≠ Config.l1Set (line.addr / 128)) →
    ∃ r y m, exec (.l1EvictRegistered core line) s = .next r ∧ subLine r core line = some y ∧ y.registered = false ∧
      y.asked = none ∧ y.view = [] ∧ r.msgs = s.msgs ++ [m] ∧ m.kind = .leave ∧ m.core = core ∧ m.line = line ∧ r.mem = s.mem) ∧
  (∀ phys, homeOf (phys * 128) < 2 → s.sliceLines.contains phys = true → entriesAt s phys = [] ∨ mustDrop s phys = true →
    ∃ r, exec (.sliceDropLine phys) s = .next r ∧ r.sliceLines.contains phys = false ∧ (Settled s → r.mem = s.mem) ∧
      ∀ d ∈ entriesAt s phys, findDir r d.line = none ∧
        ∀ c ∈ d.cores, ∃ m ∈ r.msgs, m.kind = .invalidation ∧ m.core = c ∧ m.line = d.line) ∧
  (∀ phys gs, ∃ r, exec (.directoryError phys gs) s = .next r ∧ r.mem = s.mem ∧ ∀ d ∈ entriesAt s phys, findDir r d.line = none ∧
    ∀ c, (gs = none → c < 256) → (∀ l, gs = some l → c / 8 ∈ l) → ∃ m ∈ r.msgs, m.kind = .invalidation ∧ m.core = c ∧ m.line = d.line)

-- Streams and rings (10)

/-- R238, R245 to R250: BIND reads its descriptor as a LOAD and binds the port; PREFETCH fetches the next element of a lane; a pop leaves
its queue; a claim takes elements from HEAD on, a reservation slots from TAIL on, and their lanes know it; a pushed element stands in the
buffer at its slot; CTAIL rises over a slot that has merged. The ring is one that no plain store has gone into (R246). -/
def Obligations.StreamsServed : Prop := ∀ s,
  (∀ team gang port t core i k seq r bs x, findTeam s team = some t → t.core = some core → findGang s team gang = some x →
    bindAt (coreDie core) x port = some (i, k, seq) → (x.ports.getD port Port.unbound).st = .pending →
    (x.ports.getD port Port.unbound).seq = seq → port < x.ports.length →
    (∀ y ∈ (coreOf s core).bays, ∀ z, y.issue = some z → z.team = team → z.gang = gang → ∀ q ∈ z.rebind, q.1 = port → q.2.2 ≠ seq) →
    fetchBytes s t (.core core) (x.ports.getD port Port.unbound).daddr.toNat .read true 64 = (r, .ok bs) → (∀ b ∈ bs, b.2 = false) →
    ∃ u y, exec (.bind team gang port) s = .next u ∧ findGang u team gang = some y ∧ u.mem = r.mem ∧
      (y.lane i).queue = (x.lane i).queue.eraseIdx k ∧
      y.ports.getD port Port.unbound = bindPort r t (x.ports.getD port Port.unbound) (ofBytes (bs.map (·.1)))) ∧
  (∀ t b desc, descBad { b with desc := desc } = false → fld desc 2 0 < 3 → bindPort s t b desc = { b with desc := desc, st := .bound }) ∧
  (∀ team gang i port t core l j, findTeam s team = some t → t.core = some core → findLane s team gang i = some l → l.live = true →
    (((t.gang gang).ports.getD port Port.unbound).st = .bound) → ((t.gang gang).ports.getD port Port.unbound).isRead = true →
    ((t.gang gang).ports.getD port Port.unbound).isRing = false → (l.pre.filter (fun e => e.port == port)).length < 16 →
    (List.range 16).filter (fun j => decide ((tget 0 l.pos port).toNat + j < ((t.gang gang).ports.getD port Port.unbound).total) &&
      !l.hasPre port ((tget 0 l.pos port).toNat + j)) = [j] →
    ∃ r m e, exec (.prefetch team gang i port) s = .next r ∧ findLane r team gang i = some m ∧ m.pre = e :: l.pre ∧ e.port = port ∧
      e.pos = (tget 0 l.pos port).toNat + j ∧ m.regs = l.regs ∧ m.queue = l.queue ∧ r.mem = s.mem ∧
      ∀ v, (fetchElem s t core l ((t.gang gang).ports.getD port Port.unbound) ((tget 0 l.pos port).toNat + j)).2.1 = .ok v →
        e.val = v ∧ e.fault = none) ∧
  (∀ team g i idx p q, partOf s team g i idx = some p → p.op.kind = .pop q → ∃ r m, exec (.pop team g i idx) s = .next r ∧
    findLane r team g i = some m ∧ m.queue = p.lane.queue.eraseIdx idx ∧ m.regs = p.lane.regs ∧ r.mem = s.mem) ∧
  (∀ pop team gang lane port t core x k key, findTeam s team = some t → t.core = some core → findGang s team gang = some x → gang < 16 →
    x.pcGroup lane ≠ [] → gangIssuing s core team gang = false → (x.ports.getD port Port.unbound).st = .bound →
    (x.ports.getD port Port.unbound).mode = (if pop = true then 3 else 4) → t.issues = true → x.parked = 0 →
    fetchClause s t core (x.lane lane).pc (privileged t gang lane) (x.codeMark (x.pcGroup lane)) = .ok k →
    portRing s t (x.ports.getD port Port.unbound) = some key → key % 128 = 0 → s.broken.contains key = false →
    ringPlan x (namings (coreOf s core) x k (x.lane lane).resume s.cycle (x.pcGroup lane)) port pop ≠ [] →
    ringGrants s key (ringPlan x (namings (coreOf s core) x k (x.lane lane).resume s.cycle (x.pcGroup lane)) port pop).length pop = true →
    heldBack s { key := key, pop := pop, team := team, gang := gang, lane := (x.pcGroup lane).headD lane, port := port } = false →
    (let n := (ringPlan x (namings (coreOf s core) x k (x.lane lane).resume s.cycle (x.pcGroup lane)) port pop).length
     let r := ringOf s key
     ∃ u, exec (if pop then .claim team gang lane port else .reserve team gang lane port) s = .next u ∧
       (pop = true → ringHead r + n < 2 ^ 64 → ringHead (ringOf u key) = ringHead r + min n (ringCtail r - ringHead r) ∧
         ringTail (ringOf u key) = ringTail r) ∧
       (pop = false → ringTail r + n < 2 ^ 64 → ringTail (ringOf u key) = ringTail r + n ∧ ringHead (ringOf u key) = ringHead r) ∧
       ∀ i ∈ ringPlan x (namings (coreOf s core) x k (x.lane lane).resume s.cycle (x.pcGroup lane)) port pop, i.1 < x.lanes.length →
         ∃ m, findLane u team gang i.1 = some m ∧ (port, true) ∈ m.granted)) ∧
  (∀ team g i idx p ring k bs, g < 16 → partOf s team g i idx = some p → p.op.kind = .rpush ring k bs → p.core < s.cores.length →
    ringSlot (ringOf s ring.toNat) k % 128 + bs.length ≤ 128 →
    ∃ r m, exec (.rpush team g i idx) s = .next r ∧ findLane r team g i = some m ∧ m.queue = p.lane.queue.eraseIdx idx ∧ r.mem = s.mem ∧
      ∀ o < bs.length, (agentMem r (.core p.core)).buffered (lineOf p.team.ctx (ringSlot (ringOf s ring.toNat) k))
        (ringSlot (ringOf s ring.toNat) k % 128 + o) = bs[o]?) ∧
  (∀ ring, homeOf ring.addr = 2 ∨ homeOf ring.addr = 3 → ring.addr % 128 = 0 → ringCtail (ringOf s ring.addr) < ringTail (ringOf s ring.addr) →
    s.slotsOut.contains (ring.addr, ringCtail (ringOf s ring.addr)) = false → s.broken.contains ring.addr = false →
    ∃ r, exec (.commit ring) s = .next r ∧ ringCtail (ringOf r ring.addr) = ringCtail (ringOf s ring.addr) + 1 ∧
      ringTail (ringOf r ring.addr) = ringTail (ringOf s ring.addr) ∧ ringHead (ringOf r ring.addr) = ringHead (ringOf s ring.addr))

-- Engine commands (11, 12)

/-- R18, R263 to R269, R287, R288, R298: the head of a context begins once nothing holds it back and it is its turn at a shared engine. It keeps
the handles that it finds, and does the work of its kind, which the statements on copies (HDEF, COPY, CFILL, COLL, TLSIG), on the matrix
array (WLD, MZERO, MRD, MWR, MST, TBLLD) and on physics (SORT, BVHQ) state; WSWP has none. Work that is done gives a status, work that
waits leaves the command waiting, a condition gives FAULT and its record, and an absent page parks the context, with the command begun.
It completes with its status, or with what MRD read, once its stores are acknowledged: its timeline rises, HDEF sets its handle and TBLLD
its table; COLL first adds one at CTL. A collective goes on once its members match, and ends when one has ended; a row passes the array. -/
def Obligations.EnginesServed : Prop := ∀ s,
  (∀ team e t k, findTeam s team = some t → e < t.ectx.length → headCmd t e = some k → mayBegin s t e k = true →
    let b := k.begin_ t e s.fresh
    let w := beginWork s t e b
    (k.begun = 0 → b.begun = s.fresh ∧ ∀ h < t.handles.length, t.pendingFor e h = false →
      b.handles.find? (fun x => x.1 == h) = some (h, t.handle h)) ∧
    (k.begun ≠ 0 → b = k) ∧
    ((∃ old, k.kind = .wswp old) → w.out = .done 0 ∧ w.s.mem = s.mem) ∧
    (readsArray k.kind = true → s.badArrays.contains t.coreN = true → w.out = .stop .poison 0) ∧
    (∀ u0, findTeam w.s team = some u0 → headCmd u0 e = some k → e < u0.ectx.length →
      (∀ st, w.out = .done st → ∃ r u, exec (.engineCommandBegin team e) s = .next r ∧ findTeam r team = some u ∧
        headCmd u e = some { w.upd b with st := .running st } ∧ r.mem = w.s.mem) ∧
      (w.out = .wait → ∃ r u, exec (.engineCommandBegin team e) s = .next r ∧ findTeam r team = some u ∧
        headCmd u e = some (w.upd b) ∧ r.mem = w.s.mem) ∧
      (∀ c a, w.out = .stop c a → c ≠ .residency → ∃ r u, exec (.engineCommandBegin team e) s = .next r ∧ findTeam r team = some u ∧
        headCmd u e = some { w.upd b with st := .running 6, fault := some (cmdFault t e b c a) } ∧ r.mem = w.s.mem)) ∧
    (∀ a, w.out = .stop .residency a → exec (.engineCommandBegin team e) s = .next s ∧
      ∃ r u, exec (.contextPark team e) s = .next r ∧ findTeam r team = some u ∧
        headCmd u e = some { b with parked := true, asked := [] } ∧ r.mem = s.mem)) ∧
  (∀ team e t k, findTeam s team = some t → headCmd t e = some k → engineTurn s t e k = false →
    exec (.engineCommandBegin team e) s = .next s) ∧
  (∀ team e t k st, findTeam s team = some t → e < t.ectx.length → headCmd t e = some k → k.parked = false → k.st = .running st →
    workOut s team e k = true → k.fault = none →
    (∀ x ∈ (t.ctxOf e).mem.buf, inScope t.die k.sc (homeOf x.1.addr) = false) →
    (∀ x ∈ (t.ctxOf e).mem.acks, inScope t.die k.sc (homeOf x.2.addr) = false) →
    (ctlWord k st = none → ∃ r u, exec (.engineCommandComplete team e) s = .next r ∧ findTeam r team = some u ∧
      (u.ctxOf e).tl = (t.ctxOf e).tl + 1 ∧ (u.ctxOf e).queue = (t.ctxOf e).queue.drop 1 ∧ r.mem = s.mem ∧
      (∀ h a, k.kind = .hdef h a → h < t.handles.length → u.handle h = { st := if hBad k.rcd then 3 else 2, raw := k.rcd }) ∧
      (∀ n a ws, k.kind = .tblld (.slot n) a → k.res = [(0, ws)] → t.coreN < s.cores.length → n < (coreOf s t.coreN).tables.length →
        (coreOf r t.coreN).tables.getD n [] = ws) ∧
      ∀ b w id g i l, k.dst = some { name := .g b, words := w } → id ∈ k.lanes → t.whereIs id = some (g, i) → findLane s team g i = some l →
        l.takes k.op = true → ∃ m, findLane r team g i = some m ∧ ∀ n, m.reg n =
          (let ws := match k.kind with
             | .mrd _ _ _ _ _ => tget [] k.res id
             | _ => [BitVec.ofNat 32 st]
           if b ≤ n ∧ n < b + ws.length then ws.getD (n - b) 0 else l.reg n)) ∧
    ∀ a loc, ctlWord k st = some a → a % 8 = 0 → servedFault s .noHost a ≠ some .prot → locateFor s t a .write = .ok loc →
      (agentMem s (.ctx team e)).entry (lineOf t.ctx a) = [] → (∀ i < 8, poisoned s (loc.key + i) = false) →
      channelFailed s (lineAddr loc.key) = false → entriesOf s (lineOf t.ctx a) = [] → Settled s →
      ∃ r u n, exec (.engineCommandComplete team e) s = .next r ∧ findTeam r team = some u ∧
        headCmd u e = some { k with rcd := 0, st := .releasing st [n] } ∧
        rdNat r loc.key 8 = (rdNat (markLeaf s loc true) loc.key 8 + 1) % 2 ^ 64) ∧
  (∀ team e t k others, findTeam s team = some t → e < t.ectx.length → headCmd t e = some k → k.st = .waiting → k.parked = false →
    collFirst s k = true → collOthers s k.rcd others = true →
    (others.all (collAgrees k.rcd) = false → ∃ r u, exec (.collMatch team e others) s = .next r ∧ findTeam r team = some u ∧
      headCmd u e = some { k with st := .running 8 } ∧ r.mem = s.mem) ∧
    ∀ s1 u1, others.all (collAgrees k.rcd) = true → runExchange s t e k.rcd others = (s1, .ok 0) → findTeam s1 team = some u1 →
      headCmd u1 e = some k → e < u1.ectx.length → ∃ r u, exec (.collMatch team e others) s = .next r ∧ findTeam r team = some u ∧
        headCmd u e = some { k with st := .running 0 } ∧ r.mem = s1.mem) ∧
  (∀ team e t k, findTeam s team = some t → e < t.ectx.length → headCmd t e = some k → k.st = .waiting → k.parked = false →
    ∃ r u, exec (.collAbort team e) s = .next r ∧ findTeam r team = some u ∧ headCmd u e = some { k with st := .running 9 } ∧
      (collOut k.rcd = 0 → r.mem = s.mem)) ∧
  (∀ core uid e no pre rest t k src tile bank ki arg f n row rows, core < s.cores.length →
    (coreOf s core).order = pre ++ (uid, e, no) :: rest → (∀ x ∈ pre, feeds s x = none) → findTeam s uid = some t → e < t.ectx.length →
    headCmd t e = some k → k.no = no → k.kind = .mma src tile bank ki arg (some f) n → k.rows = row :: rows →
    ∃ r u, exec (.arrayRowPass core) s = .next r ∧ findTeam r uid = some u ∧ headCmd u e = some { k with rows := rows } ∧
      (coreOf r core).arr = passRow (coreOf s core).arr tile bank f row ∧ r.mem = s.mem)

-- Launches (14)

/-- R343 to R363: a chain's next record, and a team's, is accepted as it reads, or refused, a chain's in its turn (R346); a launch whose dependences are met becomes
resident, or gets NORES; its next team starts with PARAM in c0 and c1 and its lanes at the
entry, and where it finds no core the dispatcher notes since when (the model's choice of where it notes that, log entry 123); a band and a launch that are done are
counted out; a time slot starts its record. -/
def Obligations.LaunchesAdvance : Prop := ∀ s,
  (∀ chain c x r, s.chains[chain]? = some c → c.en = true → c.err = false → (c.tail - c.head).toNat ≠ 0 →
    (c.tail - c.head).toNat ≤ 2 ^ c.lcap → engineTakes s c.die (.host chain) = true → slotHit c = false →
    engineRead s c.ctx (nextSlot c) 128 = (x, .ok r) →
    (recRefused x c.ctx r = none → rangesFit s c.die r = true → ∃ u l, exec (.chainRecordAccept chain) s = .next u ∧ l ∈ u.launches ∧
      l.raw = r ∧ l.chain = .host chain ∧ l.no = c.count + 1 ∧ l.epoch = c.epoch ∧ l.resident = false ∧ l.admitted = 0 ∧
      (u.chains.getD chain Chain.reset).head = c.head + 1 ∧ (recCrec r = 0 → (∀ y ∈ x.launches, y.id ≠ x.fresh) → u.mem = x.mem)) ∧
    (recRefused x c.ctx r ≠ none → ∃ u, exec (.chainRecordAccept chain) s = .next u ∧ u.launches = s.launches ∧
      (u.chains.getD chain Chain.reset).head = c.head + 1)) ∧
  (∀ chain c, s.chains[chain]? = some c → (dieOf s c.die).stalled = none → chainTurn s c.die chain = false →
    exec (.chainRecordAccept chain) s = .next s) ∧
  (∀ team t r rest, findTeam s team = some t → t.pend = r :: rest → engineTakes s t.die (.team team) = true → t.ending = none →
    t.killPending = false →
    recRefused s t.ctx r = none → rangesFit s t.die r = true → ∃ u l, exec (.pendingLaunchAccept team) s = .next u ∧ l ∈ u.launches ∧
      l.raw = r ∧ l.chain = .team team ∧ l.depth = t.depth + 1 ∧ l.resident = false ∧ (recCrec r = 0 → (∀ y ∈ s.launches, y.id ≠ s.fresh) → u.mem = s.mem)) ∧
  (∀ id l refused, findLaunch s id = some l → l.resident = false → l.nores = false → l.killed = false → running s = true →
    (dieOf s l.die).halted = false → s.launches.any (dependsOn l) = false →
    (refused = false → launchIn s l = true → ∃ u, exec (.launchMakeResident id refused) s = .next u ∧
      findLaunch u id = some { l with resident := true } ∧ u.mem = s.mem) ∧
    (refused = true → asksPager l = true → ∃ u, exec (.launchMakeResident id refused) s = .next u ∧
      findLaunch u id = some { l with nores := true } ∧ u.mem = s.mem)) ∧
  (∀ id l core, findLaunch s id = some l → placeFor s l = some core → l.waits s = true → (dieOf s l.die).halted = false →
    (∀ x ∈ s.launches, x.die = l.die → x.waits s = true → servedBefore x l = true → placeFor s x = none) → (∀ t ∈ s.teams, t.uid ≠ s.fresh) →
    ∃ u t, exec (.teamAdmit id) s = .next u ∧ findTeam u s.fresh = some t ∧ t.tid = l.admitted ∧ t.launch = l.id ∧ t.core = some core ∧
      t.gangs.length = recG l.raw ∧ findLaunch u id ≠ none ∧
      ∀ g < recG l.raw, (t.gang g).creg 0 = lo32 (recParam l.raw) ∧ (t.gang g).creg 1 = hi32 (recParam l.raw) ∧
        ∀ i, ((t.gang g).lane i).live = true → ((t.gang g).lane i).st = .running ∧ ((t.gang g).lane i).gid = g ∧
          ((t.gang g).lane i).lid = i ∧ ((t.gang g).lane i).pc = BitVec.ofNat 64 (recEntry l.raw)) ∧
  (∀ id l, findLaunch s id = some l → placeFor s l = none → l.waits s = true → ∃ u, exec (.teamAdmit id) s = .next u ∧
    findLaunch u id = some { l with noPlace := some (l.noPlace.getD s.clock) } ∧ u.teams = s.teams ∧ u.mem = s.mem) ∧
  (∀ id band l, findLaunch s id = some l → l.bandsDue.contains band = true → (l.nores = false → l.killed = false → recTeams l.raw ≤ l.admitted) →
    (∀ t ∈ s.teams, t.launch = id → t.band ≠ band) → ∃ u m, exec (.bandComplete id band) s = .next u ∧ findLaunch u id = some m ∧
      m.bandsDone = l.bandsDone + 1 ∧ m.bandsDue = l.bandsDue.filter (· != band) ∧ (recCrec l.raw = 0 → u.mem = s.mem)) ∧
  (∀ id l, findLaunch s id = some l → l.bandsDue = [] → (l.nores = true ∨ l.retired + l.faulted = recTeams l.raw) → l.die < s.dies.length →
    ∃ u, exec (.launchComplete id) s = .next u ∧ findLaunch u id = none ∧ ∀ x ∈ (dieOf u l.die).ranges, x.1 ≠ id) ∧
  (∀ j e x r, s.timed[j]? = some e → e.en = true → running s = true → e.resubmit = false → e.period ≠ 0 →
    e.nextSlot ≤ timeOf s → prevDone s e e.nextSlot = true →
    engineTakes s 0 (.timed j) = true → engineRead s e.ctx e.recAddr.toNat 128 = (x, .ok r) → recRefused x e.ctx r = none →
    rangesFit s 0 r = true → ∃ u l y, exec (.timeSlotStart j) s = .next u ∧ l ∈ u.launches ∧ l.raw = r ∧ l.chain = .timed j ∧
      u.timed[j]? = some y ∧ y.starts = e.starts + 1 ∧ y.lastSlot = e.nextSlot + 1 ∧ y.ovr = e.ovr)

-- Checks and traps (03, 15)

/-- R62, R183, R374, R377: an instruction whose meaning starts with the checks of stage 3, in their order (names, its own checks, TIMING,
FLAGOVF, and the faults that ports hold), as those of IADD, FADD, FSIN, BRA, YLD, LD, ATOM, HDEF, MZERO and LNCH do with the operands and
checks written here, has no effect but its trap when it fails one of them: every lane of its issue group, whatever its guard, enters the
handler of the fault's class, with the clause and the slot saved. Without a handler, or inside one, the team ends with the fault. Of the
checks that come after, the alignment of LD and of ST is stated here. -/
def Obligations.ChecksTrap : Prop := ∀ s c v tv, issueView s c = some v → Stands s v →
  (∀ i f own k, exec i s = issueChecks s c f own k →
    let fails := fun (info : FaultInfo) =>
      (Handles s v info.cause tv info.tmem → ∃ t, exec i s = .next t ∧ Trapped s t v info tv) ∧
      (Unhandled s v info.cause info.tmem → v.team.ending = none →
        ∃ t u, exec i s = .next t ∧ findTeam t v.iss.team = some u ∧ u.ending = some info ∧ t.mem = s.mem)
    (∀ info, nameFault v c f = some info → fails info) ∧
    (∀ info, nameFault v c f = none → own v = some info → fails info) ∧
    (nameFault v c f = none → own v = none → timingLate v c f = true → fails (v.fault .timing)) ∧
    (nameFault v c f = none → own v = none → timingLate v c f = false → c.setf ≠ 0 → 63 ≤ v.gang.flag c.setf → fails (v.fault .flagovf)) ∧
    (nameFault v c f = none → own v = none → timingLate v c f = false → c.setf = 0 ∨ v.gang.flag c.setf < 63 →
      (∀ info, popFault s v f = some info → fails info) ∧
      (∀ info, popFault s v f = none → pushFault s v f = some info → fails info))) ∧
  (∀ d a b ty, ∃ k, exec (.iadd c d a b ty) s = issueChecks s c (names [o1 a, o1 b] (d1 d)) noOwn k) ∧
  (∀ d a b r, ∃ k, exec (.fadd c d a b r) s = issueChecks s c (names [o1 a, o1 b] (d1 d)) noOwn k) ∧
  (∀ d a, ∃ k, exec (.fsin c d a) s = issueChecks s c (names [o1 a] (d1 d)) noOwn k) ∧
  (∀ d n, ∃ k, exec (.bra c d) s = issueChecks s c {} noOwn k ∧ ∃ k', exec (.yld c n) s = issueChecks s c {} noOwn k') ∧
  (∀ d base off ty a64, ∃ k, exec (.ld c d base off ty a64) s =
    issueChecks s c { names (addrSrcs base a64) (some { name := d, words := tyWords ty }) with allowQ := false } (baseOwn base a64) k) ∧
  (∀ d base val op w64 o sc a64, ∃ k, exec (.atom c d base val op w64 o sc a64) s =
    issueChecks s c { srcs := oW w64 val :: addrSrcs base a64, dst := some { name := d, words := if w64 then 2 else 1 }, allowQ := false }
      (baseOwn base a64) k) ∧
  (∀ d addr h e sc a64, ∃ k, exec (.hdef c d addr h e sc a64) s =
    issueChecks s c { srcs := addrSrcs addr a64, dst := d1 d, allowQ := false } (baseOwn addr a64) k) ∧
  (∀ d tile e, ∃ k, exec (.mzero c d tile e) s = issueChecks s c { dst := d1 d, allowQ := false } (claimOwn s) k) ∧
  (∀ d addr a64, ∃ k, exec (.lnch c d addr a64) s =
    issueChecks s c { srcs := addrSrcs addr a64, dst := some { name := d, words := 1 }, allowQ := false } (baseOwn addr a64) k) ∧
  (∀ d base off ty a64, Passes s c { names (addrSrcs base a64) (some { name := d, words := tyWords ty }) with allowQ := false } (baseOwn base a64) v →
    (∃ i ∈ v.actors (names (addrSrcs base a64) (some { name := d, words := tyWords ty })) true,
      v.addr s.fresh i base a64 (off * tyBytes ty) % tyBytes ty ≠ 0) → Handles s v .align tv →
    ∃ t f, exec (.ld c d base off ty a64) s = .next t ∧ f.cause = .align ∧ f.einfo = 0 ∧ Trapped s t v f tv) ∧
  (∀ base val off ty a64, Passes s c { names ({ name := val, words := tyWords ty } :: addrSrcs base a64) none with allowQ := false }
      (baseOwn base a64) v →
    (∃ i ∈ v.acting, v.addr s.fresh i base a64 (off * tyBytes ty) % tyBytes ty ≠ 0) → Handles s v .align tv →
    ∃ t f, exec (.st c base val off ty a64) s = .next t ∧ f.cause = .align ∧ f.einfo = 1 ∧ Trapped s t v f tv)

-- The step, decoding, reset, and what every step keeps

/-- A step runs the decoded instruction. The move is the first of the agenda, which falls away; a bay's slot runs the word latched there
as exec does with that bay in focus; a step of the table runs with no focus; cycles pass; a bay without a clause does nothing; a
word that is no instruction runs none. An empty agenda stands for the default round of log entry 1, which is the model's own. -/
def Obligations.StepRunsDecoded : Prop := ∀ s,
  (∀ core bay rest w i, s.agenda = .slot core bay :: rest → slotWord s core bay = some w → decodeWord w = some i →
    step s = exec i { s with agenda := rest, focus := some (core, bay) }) ∧
  (∀ core bay rest w, s.agenda = .slot core bay :: rest → slotWord s core bay = some w → decodeWord w = none →
    step s = .next (undecoded { s with agenda := rest, focus := some (core, bay) })) ∧
  (∀ core bay rest, s.agenda = .slot core bay :: rest → slotWord s core bay = none → step s = .next { s with agenda := rest }) ∧
  (∀ i rest, s.agenda = .event i :: rest → step s = exec i { s with agenda := rest, focus := none }) ∧
  (∀ n rest, s.agenda = .tick n :: rest → step s = .next (passCycles { s with agenda := rest } n)) ∧
  (s.agenda = [] → ∃ m rest, m :: rest = Sys2Proof.Machine.round s ∧ step s = step { s with agenda := m :: rest })

/-- Words written out bit by bit from the spec's encodings decode to what they stand for: one for each family, and words that have no
instruction. -/
def Obligations.WrittenWordsDecode : Prop :=
  let c : Common := { dist := 0, setf := 0, nwb := false, guard := .always }
  decodeWord 0x04003F8000000008 = some (.yld c 8) ∧
  decodeWord 0x09803F8001400304 = some (.tltry c (.g 10) (.team 3) 4) ∧
  decodeWord 0x41003F81409FFFFD = some (.iaddImm c (.g 5) (.g 4) (-3)) ∧
  decodeWord 0x60303F80EA159000 = some (.fadd { c with dist := 3 } (.g 3) (.w 1) (.k 1) .rn) ∧
  decodeWord 0xB0013F8080000010 = some (.ld { c with setf := 1 } (.g 2) (.g 0) 0 .b32 false) ∧
  decodeWord 0xD0003FD0AC800000 = some (.sbind c (.q 2) (.c 4)) ∧
  decodeWord 0xD9003FDCAC808002 = some (.copy c (.c 18) (.c 4) 1 0 0 .pkg true) ∧
  decodeWord 0xE1023F8504001214 = some (.mma { c with setf := 2 } (.g 20) (.g 32) (.lane .e2m1) 0 1 .core) ∧
  decodeWord 0xED003F8200005000 = some (.qlu c (.g 8) (.g 0) (some 5) false) ∧
  decodeWord 0xF4023F8280800002 = some (.lnch { c with setf := 2 } (.g 10) (.g 4) true) ∧
  decodeWord 0xFB003F8140000004 = some (.rdsr c (.g 5) 4) ∧
  decodeWord 0 = none ∧ decodeWord 0x0A803F8000000000 = none ∧ decodeWord 0xFFFFFFFFFFFFFFFF = none

/-- What reset leaves, of the values the spec gives: every phase buffer and snapshot empty and every stamp zero (R187), activation slots of
zeros, no fault or handler anywhere for no team is resident, and the chains, entries, rings and management registers at their reset
values. -/
def Obligations.ResetLeaves : Prop :=
  State.reset.cores.length = 256 ∧ State.reset.teams = [] ∧ State.reset.launches = [] ∧ (∀ l, tget 0 State.reset.stamps l = 0) ∧
  (∀ n, n < 256 → (coreOf State.reset n).mem = { buf := [], snap := [], bad := [], acks := [] } ∧
    (coreOf State.reset n).sub = [] ∧ (coreOf State.reset n).holder = none ∧ ∀ b, (bayOf State.reset n b).issue = none) ∧
  (∀ n k x, n < 256 → ((coreOf State.reset n).tables.getD k []).getD x 0 = 0) ∧
  (∀ c ∈ State.reset.chains, c.base = 0 ∧ c.lcap = 0 ∧ c.die = 0 ∧ c.en = false ∧ c.err = false ∧ c.tail = 0 ∧ c.head = 0 ∧ c.tladdr = 0) ∧
  (∀ e ∈ State.reset.timed, e.recAddr = 0 ∧ e.period = 0 ∧ e.phase = 0 ∧ e.en = false ∧ e.mode = false ∧ e.ovr = 0 ∧ e.starts = 0) ∧
  (∀ d ∈ State.reset.dies, d.events.base = 0 ∧ d.events.lcap = 0 ∧ d.faults.base = 0 ∧ d.faults.lcap = 0 ∧ d.halted = false) ∧
  (let m := State.reset.mgmt
   m.bootst = 0 ∧ m.bootFail = 0 ∧ m.perfReq = 0 ∧ m.perfCur = 0 ∧ m.pcap = 2800 ∧ m.throt = false ∧ m.capped = false ∧
   m.killBusy = false ∧ m.killStatus = 0 ∧ m.dbgEn = false ∧ m.devNum = 0 ∧ m.devValid = false ∧ m.dsize = 0 ∧ m.keyOp = 0 ∧
   m.keyBusy = false ∧ m.keyStatus = 0 ∧ m.freq = 0 ∧ m.lock = false)

/-- Memory has its canonical form at reset, and the package its shape. -/
def Obligations.ResetHasForm : Prop := Sys2Proof.Machine.Inv State.reset ∧ Shape State.reset

/-- Encoding and decoding agree: every well-formed instruction, with every operand at every value its encoding admits, is read back from its
word, from its bytes in memory with the bytes after it left over, and as the table's own decoder reads it; so no two well-formed
instructions share a word. -/
def Obligations.DecodeReadsEncode : Prop := ∀ i, isInsn i = true → i.wf = true →
  decodeWord (encode i) = some i ∧
  (∀ rest, decode (toBytes 8 (encode i).toNat ++ rest) = .ok (i, rest)) ∧
  decodeTableWord 64 (encode i).toNat = some i ∧
  (∀ j, isInsn j = true → j.wf = true → encode j = encode i → j = i)

/-- Every step keeps memory in its canonical form: addresses strictly rising, and no byte listed that equals what an unlisted address
reads as (the form is the model's own: log entry 3). -/
def Obligations.StepKeepsMemoryForm : Prop := ∀ s t, Sys2Proof.Machine.Inv s → step s = .next t → Sys2Proof.Machine.Inv t
end

