-- ==== Sys2Proof/Laws/Map.lean ====
section
/-! SUPPORT. Sparse tables: reading what was stored, and the canonical form that every store keeps. -/

namespace Sys2Proof.Machine

variable {α : Type}

theorem tget_tdel_ne (d : α) (m : List (Nat × α)) {j k : Nat} (h : j ≠ k) : tget d (tdel k m) j = tget d m j := by
  induction m with
  | nil => rfl
  | cons e t ih =>
    obtain ⟨a, v⟩ := e
    by_cases ha : a = k
    · subst ha
      have hj : a ≠ j := fun x => h x.symm
      simpa [tdel, tget, hj] using ih
    · have : tdel k ((a, v) :: t) = (a, v) :: tdel k t := by simp [tdel, ha]
      rw [this]; simp [tget, ih]

theorem tget_tdel_same (d : α) (m : List (Nat × α)) (k : Nat) : tget d (tdel k m) k = d := by
  induction m with
  | nil => rfl
  | cons e t ih =>
    obtain ⟨a, v⟩ := e
    by_cases ha : a = k
    · subst ha; simpa [tdel] using ih
    · have : tdel k ((a, v) :: t) = (a, v) :: tdel k t := by simp [tdel, ha]
      rw [this]; simp [tget, ha, ih]

theorem tget_tins_same (d : α) (m : List (Nat × α)) (k : Nat) (v : α) (h : ∀ e ∈ m, e.1 ≠ k) : tget d (tins k v m) k = v := by
  induction m with
  | nil => simp [tins, tget]
  | cons e t ih =>
    obtain ⟨a, w⟩ := e
    have ha : a ≠ k := h (a, w) (by simp)
    by_cases hk : k < a
    · simp [tins, hk, tget]
    · simp [tins, hk, tget, ha, ih (fun x hx => h x (by simp [hx]))]

theorem tget_tins_ne (d : α) (m : List (Nat × α)) {j k : Nat} (v : α) (h : j ≠ k) : tget d (tins k v m) j = tget d m j := by
  have hk : k ≠ j := fun x => h x.symm
  induction m with
  | nil => simp [tins, tget, hk]
  | cons e t ih =>
    obtain ⟨a, w⟩ := e
    by_cases ha : k < a
    · simp [tins, ha, tget, hk]
    · simp [tins, ha, tget, ih]

variable [DecidableEq α]

/-- Reading the key that was stored gives the value stored. -/
@[simp] theorem tget_tput_same (d : α) (m : List (Nat × α)) (k : Nat) (v : α) : tget d (tput d m k v) k = v := by
  unfold tput
  split
  · next h => rw [tget_tdel_same, h]
  · exact tget_tins_same d _ k v (by
      intro e he
      simp [tdel] at he
      exact he.2)

/-- Reading another key gives what it gave before. -/
theorem tget_tput_ne (d : α) (m : List (Nat × α)) {j k : Nat} (v : α) (h : j ≠ k) : tget d (tput d m k v) j = tget d m j := by
  unfold tput
  split
  · exact tget_tdel_ne d m h
  · rw [tget_tins_ne d _ v h, tget_tdel_ne d m h]

theorem tget_tput (d : α) (m : List (Nat × α)) (j k : Nat) (v : α) :
    tget d (tput d m k v) j = if j = k then v else tget d m j := by
  by_cases h : j = k
  · subst h; simp
  · simp [h, tget_tput_ne d m v h]

theorem mem_tins {k : Nat} {v : α} {m : List (Nat × α)} {e : Nat × α} (h : e ∈ tins k v m) : e = (k, v) ∨ e ∈ m := by
  induction m with
  | nil => simpa [tins] using h
  | cons x t ih =>
    obtain ⟨a, w⟩ := x
    by_cases hk : k < a
    · simpa [tins, hk] using h
    · simp only [tins, hk, if_false, List.mem_cons] at h ⊢
      rcases h with h | h
      · exact .inr (.inl h)
      · rcases ih h with h | h
        · exact .inl h
        · exact .inr (.inr h)

theorem tins_pairwise (k : Nat) (v : α) (m : List (Nat × α)) (hk : ∀ e ∈ m, e.1 ≠ k)
    (h : m.Pairwise (fun a b => a.1 < b.1)) : (tins k v m).Pairwise (fun a b => a.1 < b.1) := by
  induction m with
  | nil => simp [tins]
  | cons x t ih =>
    obtain ⟨a, w⟩ := x
    rw [List.pairwise_cons] at h
    by_cases hka : k < a
    · simp only [tins, hka, if_true, List.pairwise_cons, List.mem_cons]
      refine ⟨?_, h.1, h.2⟩
      rintro e (rfl | he)
      · exact hka
      · exact Nat.lt_trans hka (h.1 e he)
    · have hne : a ≠ k := hk (a, w) (by simp)
      simp only [tins, hka, if_false, List.pairwise_cons]
      refine ⟨?_, ih (fun e he => hk e (by simp [he])) h.2⟩
      intro e he
      rcases mem_tins he with rfl | he
      · exact Nat.lt_of_le_of_ne (Nat.le_of_not_lt hka) hne
      · exact h.1 e he

theorem twf_iff (d : α) (m : List (Nat × α)) :
    twf d m = true ↔ (∀ e ∈ m, e.2 ≠ d) ∧ m.Pairwise (fun a b => a.1 < b.1) := by
  simp [twf]

/-- Dropping entries keeps the canonical form. -/
theorem twf_filter (d : α) (m : List (Nat × α)) (p : Nat × α → Bool) (h : twf d m = true) : twf d (m.filter p) = true := by
  rw [twf_iff] at h ⊢
  exact ⟨fun e he => h.1 e (List.mem_filter.mp he).1, h.2.filter p⟩

/-- A store keeps the canonical form. -/
theorem twf_tput (d : α) (m : List (Nat × α)) (k : Nat) (v : α) (h : twf d m = true) : twf d (tput d m k v) = true := by
  unfold tput
  split
  · exact twf_filter d m _ h
  · next hv =>
    have h' := twf_filter d m (fun e => e.1 != k) h
    rw [twf_iff] at h' ⊢
    refine ⟨?_, tins_pairwise k v _ ?_ h'.2⟩
    · intro e he
      rcases mem_tins he with rfl | he
      · exact hv
      · exact h'.1 e he
    · intro e he
      simp [tdel] at he
      exact he.2

/-- So does a run of stores. -/
theorem twf_foldl {β : Type} (d : α) (f : β → Nat × α) (l : List β) (m : List (Nat × α)) (h : twf d m = true) :
    twf d (l.foldl (fun m b => tput d m (f b).1 (f b).2) m) = true := by
  induction l generalizing m with
  | nil => exact h
  | cons b t ih => exact ih _ (twf_tput d m _ _ h)

end Sys2Proof.Machine
end

