-- ==== Sys2Proof/Laws/State.lean ====
section
/-! SUPPORT. What each update of the state leaves alone: one lemma per field per update, true by unfolding. -/

namespace Sys2Proof.Machine

-- modTeam

@[simp] theorem modTeam_agenda (s : State) (uid : Nat) (f : Team → Team) : (modTeam s uid f).agenda = s.agenda := rfl
@[simp] theorem modTeam_fresh (s : State) (uid : Nat) (f : Team → Team) : (modTeam s uid f).fresh = s.fresh := rfl
@[simp] theorem modTeam_focus (s : State) (uid : Nat) (f : Team → Team) : (modTeam s uid f).focus = s.focus := rfl
@[simp] theorem modTeam_cycle (s : State) (uid : Nat) (f : Team → Team) : (modTeam s uid f).cycle = s.cycle := rfl
@[simp] theorem modTeam_clock (s : State) (uid : Nat) (f : Team → Team) : (modTeam s uid f).clock = s.clock := rfl
@[simp] theorem modTeam_mem (s : State) (uid : Nat) (f : Team → Team) : (modTeam s uid f).mem = s.mem := rfl
@[simp] theorem modTeam_stamps (s : State) (uid : Nat) (f : Team → Team) : (modTeam s uid f).stamps = s.stamps := rfl
@[simp] theorem modTeam_zeroed (s : State) (uid : Nat) (f : Team → Team) : (modTeam s uid f).zeroed = s.zeroed := rfl
@[simp] theorem modTeam_sliceLines (s : State) (uid : Nat) (f : Team → Team) : (modTeam s uid f).sliceLines = s.sliceLines := rfl
@[simp] theorem modTeam_sliceOfLine (s : State) (uid : Nat) (f : Team → Team) : (modTeam s uid f).sliceOfLine = s.sliceOfLine := rfl
@[simp] theorem modTeam_forgotten (s : State) (uid : Nat) (f : Team → Team) : (modTeam s uid f).forgotten = s.forgotten := rfl
@[simp] theorem modTeam_tlb (s : State) (uid : Nat) (f : Team → Team) : (modTeam s uid f).tlb = s.tlb := rfl
@[simp] theorem modTeam_era (s : State) (uid : Nat) (f : Team → Team) : (modTeam s uid f).era = s.era := rfl
@[simp] theorem modTeam_codeLog (s : State) (uid : Nat) (f : Team → Team) : (modTeam s uid f).codeLog = s.codeLog := rfl
@[simp] theorem modTeam_poison (s : State) (uid : Nat) (f : Team → Team) : (modTeam s uid f).poison = s.poison := rfl
@[simp] theorem modTeam_pieceKey (s : State) (uid : Nat) (f : Team → Team) : (modTeam s uid f).pieceKey = s.pieceKey := rfl
@[simp] theorem modTeam_dirty (s : State) (uid : Nat) (f : Team → Team) : (modTeam s uid f).dirty = s.dirty := rfl
@[simp] theorem modTeam_older (s : State) (uid : Nat) (f : Team → Team) : (modTeam s uid f).older = s.older := rfl
@[simp] theorem modTeam_msc (s : State) (uid : Nat) (f : Team → Team) : (modTeam s uid f).msc = s.msc := rfl
@[simp] theorem modTeam_mscSel (s : State) (uid : Nat) (f : Team → Team) : (modTeam s uid f).mscSel = s.mscSel := rfl
@[simp] theorem modTeam_mscMiss (s : State) (uid : Nat) (f : Team → Team) : (modTeam s uid f).mscMiss = s.mscMiss := rfl
@[simp] theorem modTeam_slotsOut (s : State) (uid : Nat) (f : Team → Team) : (modTeam s uid f).slotsOut = s.slotsOut := rfl
@[simp] theorem modTeam_ringReqs (s : State) (uid : Nat) (f : Team → Team) : (modTeam s uid f).ringReqs = s.ringReqs := rfl
@[simp] theorem modTeam_rings (s : State) (uid : Nat) (f : Team → Team) : (modTeam s uid f).rings = s.rings := rfl
@[simp] theorem modTeam_broken (s : State) (uid : Nat) (f : Team → Team) : (modTeam s uid f).broken = s.broken := rfl
@[simp] theorem modTeam_turns (s : State) (uid : Nat) (f : Team → Team) : (modTeam s uid f).turns = s.turns := rfl
@[simp] theorem modTeam_dir (s : State) (uid : Nat) (f : Team → Team) : (modTeam s uid f).dir = s.dir := rfl
@[simp] theorem modTeam_msgs (s : State) (uid : Nat) (f : Team → Team) : (modTeam s uid f).msgs = s.msgs := rfl
@[simp] theorem modTeam_cores (s : State) (uid : Nat) (f : Team → Team) : (modTeam s uid f).cores = s.cores := rfl
@[simp] theorem modTeam_dies (s : State) (uid : Nat) (f : Team → Team) : (modTeam s uid f).dies = s.dies := rfl
@[simp] theorem modTeam_launches (s : State) (uid : Nat) (f : Team → Team) : (modTeam s uid f).launches = s.launches := rfl
@[simp] theorem modTeam_chains (s : State) (uid : Nat) (f : Team → Team) : (modTeam s uid f).chains = s.chains := rfl
@[simp] theorem modTeam_timed (s : State) (uid : Nat) (f : Team → Team) : (modTeam s uid f).timed = s.timed := rfl
@[simp] theorem modTeam_mgmt (s : State) (uid : Nat) (f : Team → Team) : (modTeam s uid f).mgmt = s.mgmt := rfl
@[simp] theorem modTeam_msiWait (s : State) (uid : Nat) (f : Team → Team) : (modTeam s uid f).msiWait = s.msiWait := rfl
@[simp] theorem modTeam_msiSent (s : State) (uid : Nat) (f : Team → Team) : (modTeam s uid f).msiSent = s.msiSent := rfl
@[simp] theorem modTeam_hostData (s : State) (uid : Nat) (f : Team → Team) : (modTeam s uid f).hostData = s.hostData := rfl
@[simp] theorem modTeam_hostWait (s : State) (uid : Nat) (f : Team → Team) : (modTeam s uid f).hostWait = s.hostWait := rfl
@[simp] theorem modTeam_peerReply (s : State) (uid : Nat) (f : Team → Team) : (modTeam s uid f).peerReply = s.peerReply := rfl
@[simp] theorem modTeam_datagrams (s : State) (uid : Nat) (f : Team → Team) : (modTeam s uid f).datagrams = s.datagrams := rfl
@[simp] theorem modTeam_dgSeq (s : State) (uid : Nat) (f : Team → Team) : (modTeam s uid f).dgSeq = s.dgSeq := rfl
@[simp] theorem modTeam_ptp (s : State) (uid : Nat) (f : Team → Team) : (modTeam s uid f).ptp = s.ptp := rfl
@[simp] theorem modTeam_parkPosted (s : State) (uid : Nat) (f : Team → Team) : (modTeam s uid f).parkPosted = s.parkPosted := rfl
@[simp] theorem modTeam_frames (s : State) (uid : Nat) (f : Team → Team) : (modTeam s uid f).frames = s.frames := rfl
@[simp] theorem modTeam_lostPorts (s : State) (uid : Nat) (f : Team → Team) : (modTeam s uid f).lostPorts = s.lostPorts := rfl
@[simp] theorem modTeam_badArrays (s : State) (uid : Nat) (f : Team → Team) : (modTeam s uid f).badArrays = s.badArrays := rfl
@[simp] theorem modTeam_held (s : State) (uid : Nat) (f : Team → Team) : (modTeam s uid f).held = s.held := rfl
@[simp] theorem modTeam_saves (s : State) (uid : Nat) (f : Team → Team) : (modTeam s uid f).saves = s.saves := rfl

-- modGang

@[simp] theorem modGang_agenda (s : State) (uid g : Nat) (f : Gang → Gang) : (modGang s uid g f).agenda = s.agenda := rfl
@[simp] theorem modGang_fresh (s : State) (uid g : Nat) (f : Gang → Gang) : (modGang s uid g f).fresh = s.fresh := rfl
@[simp] theorem modGang_focus (s : State) (uid g : Nat) (f : Gang → Gang) : (modGang s uid g f).focus = s.focus := rfl
@[simp] theorem modGang_cycle (s : State) (uid g : Nat) (f : Gang → Gang) : (modGang s uid g f).cycle = s.cycle := rfl
@[simp] theorem modGang_clock (s : State) (uid g : Nat) (f : Gang → Gang) : (modGang s uid g f).clock = s.clock := rfl
@[simp] theorem modGang_mem (s : State) (uid g : Nat) (f : Gang → Gang) : (modGang s uid g f).mem = s.mem := rfl
@[simp] theorem modGang_stamps (s : State) (uid g : Nat) (f : Gang → Gang) : (modGang s uid g f).stamps = s.stamps := rfl
@[simp] theorem modGang_zeroed (s : State) (uid g : Nat) (f : Gang → Gang) : (modGang s uid g f).zeroed = s.zeroed := rfl
@[simp] theorem modGang_sliceLines (s : State) (uid g : Nat) (f : Gang → Gang) : (modGang s uid g f).sliceLines = s.sliceLines := rfl
@[simp] theorem modGang_sliceOfLine (s : State) (uid g : Nat) (f : Gang → Gang) : (modGang s uid g f).sliceOfLine = s.sliceOfLine := rfl
@[simp] theorem modGang_forgotten (s : State) (uid g : Nat) (f : Gang → Gang) : (modGang s uid g f).forgotten = s.forgotten := rfl
@[simp] theorem modGang_tlb (s : State) (uid g : Nat) (f : Gang → Gang) : (modGang s uid g f).tlb = s.tlb := rfl
@[simp] theorem modGang_era (s : State) (uid g : Nat) (f : Gang → Gang) : (modGang s uid g f).era = s.era := rfl
@[simp] theorem modGang_codeLog (s : State) (uid g : Nat) (f : Gang → Gang) : (modGang s uid g f).codeLog = s.codeLog := rfl
@[simp] theorem modGang_poison (s : State) (uid g : Nat) (f : Gang → Gang) : (modGang s uid g f).poison = s.poison := rfl
@[simp] theorem modGang_pieceKey (s : State) (uid g : Nat) (f : Gang → Gang) : (modGang s uid g f).pieceKey = s.pieceKey := rfl
@[simp] theorem modGang_dirty (s : State) (uid g : Nat) (f : Gang → Gang) : (modGang s uid g f).dirty = s.dirty := rfl
@[simp] theorem modGang_older (s : State) (uid g : Nat) (f : Gang → Gang) : (modGang s uid g f).older = s.older := rfl
@[simp] theorem modGang_msc (s : State) (uid g : Nat) (f : Gang → Gang) : (modGang s uid g f).msc = s.msc := rfl
@[simp] theorem modGang_mscSel (s : State) (uid g : Nat) (f : Gang → Gang) : (modGang s uid g f).mscSel = s.mscSel := rfl
@[simp] theorem modGang_mscMiss (s : State) (uid g : Nat) (f : Gang → Gang) : (modGang s uid g f).mscMiss = s.mscMiss := rfl
@[simp] theorem modGang_slotsOut (s : State) (uid g : Nat) (f : Gang → Gang) : (modGang s uid g f).slotsOut = s.slotsOut := rfl
@[simp] theorem modGang_ringReqs (s : State) (uid g : Nat) (f : Gang → Gang) : (modGang s uid g f).ringReqs = s.ringReqs := rfl
@[simp] theorem modGang_rings (s : State) (uid g : Nat) (f : Gang → Gang) : (modGang s uid g f).rings = s.rings := rfl
@[simp] theorem modGang_broken (s : State) (uid g : Nat) (f : Gang → Gang) : (modGang s uid g f).broken = s.broken := rfl
@[simp] theorem modGang_turns (s : State) (uid g : Nat) (f : Gang → Gang) : (modGang s uid g f).turns = s.turns := rfl
@[simp] theorem modGang_dir (s : State) (uid g : Nat) (f : Gang → Gang) : (modGang s uid g f).dir = s.dir := rfl
@[simp] theorem modGang_msgs (s : State) (uid g : Nat) (f : Gang → Gang) : (modGang s uid g f).msgs = s.msgs := rfl
@[simp] theorem modGang_cores (s : State) (uid g : Nat) (f : Gang → Gang) : (modGang s uid g f).cores = s.cores := rfl
@[simp] theorem modGang_dies (s : State) (uid g : Nat) (f : Gang → Gang) : (modGang s uid g f).dies = s.dies := rfl
@[simp] theorem modGang_launches (s : State) (uid g : Nat) (f : Gang → Gang) : (modGang s uid g f).launches = s.launches := rfl
@[simp] theorem modGang_chains (s : State) (uid g : Nat) (f : Gang → Gang) : (modGang s uid g f).chains = s.chains := rfl
@[simp] theorem modGang_timed (s : State) (uid g : Nat) (f : Gang → Gang) : (modGang s uid g f).timed = s.timed := rfl
@[simp] theorem modGang_mgmt (s : State) (uid g : Nat) (f : Gang → Gang) : (modGang s uid g f).mgmt = s.mgmt := rfl
@[simp] theorem modGang_msiWait (s : State) (uid g : Nat) (f : Gang → Gang) : (modGang s uid g f).msiWait = s.msiWait := rfl
@[simp] theorem modGang_msiSent (s : State) (uid g : Nat) (f : Gang → Gang) : (modGang s uid g f).msiSent = s.msiSent := rfl
@[simp] theorem modGang_hostData (s : State) (uid g : Nat) (f : Gang → Gang) : (modGang s uid g f).hostData = s.hostData := rfl
@[simp] theorem modGang_hostWait (s : State) (uid g : Nat) (f : Gang → Gang) : (modGang s uid g f).hostWait = s.hostWait := rfl
@[simp] theorem modGang_peerReply (s : State) (uid g : Nat) (f : Gang → Gang) : (modGang s uid g f).peerReply = s.peerReply := rfl
@[simp] theorem modGang_datagrams (s : State) (uid g : Nat) (f : Gang → Gang) : (modGang s uid g f).datagrams = s.datagrams := rfl
@[simp] theorem modGang_dgSeq (s : State) (uid g : Nat) (f : Gang → Gang) : (modGang s uid g f).dgSeq = s.dgSeq := rfl
@[simp] theorem modGang_ptp (s : State) (uid g : Nat) (f : Gang → Gang) : (modGang s uid g f).ptp = s.ptp := rfl
@[simp] theorem modGang_parkPosted (s : State) (uid g : Nat) (f : Gang → Gang) : (modGang s uid g f).parkPosted = s.parkPosted := rfl
@[simp] theorem modGang_frames (s : State) (uid g : Nat) (f : Gang → Gang) : (modGang s uid g f).frames = s.frames := rfl
@[simp] theorem modGang_lostPorts (s : State) (uid g : Nat) (f : Gang → Gang) : (modGang s uid g f).lostPorts = s.lostPorts := rfl
@[simp] theorem modGang_badArrays (s : State) (uid g : Nat) (f : Gang → Gang) : (modGang s uid g f).badArrays = s.badArrays := rfl
@[simp] theorem modGang_held (s : State) (uid g : Nat) (f : Gang → Gang) : (modGang s uid g f).held = s.held := rfl
@[simp] theorem modGang_saves (s : State) (uid g : Nat) (f : Gang → Gang) : (modGang s uid g f).saves = s.saves := rfl

-- modLane

@[simp] theorem modLane_agenda (s : State) (uid g i : Nat) (f : Lane → Lane) : (modLane s uid g i f).agenda = s.agenda := rfl
@[simp] theorem modLane_fresh (s : State) (uid g i : Nat) (f : Lane → Lane) : (modLane s uid g i f).fresh = s.fresh := rfl
@[simp] theorem modLane_focus (s : State) (uid g i : Nat) (f : Lane → Lane) : (modLane s uid g i f).focus = s.focus := rfl
@[simp] theorem modLane_cycle (s : State) (uid g i : Nat) (f : Lane → Lane) : (modLane s uid g i f).cycle = s.cycle := rfl
@[simp] theorem modLane_clock (s : State) (uid g i : Nat) (f : Lane → Lane) : (modLane s uid g i f).clock = s.clock := rfl
@[simp] theorem modLane_mem (s : State) (uid g i : Nat) (f : Lane → Lane) : (modLane s uid g i f).mem = s.mem := rfl
@[simp] theorem modLane_stamps (s : State) (uid g i : Nat) (f : Lane → Lane) : (modLane s uid g i f).stamps = s.stamps := rfl
@[simp] theorem modLane_zeroed (s : State) (uid g i : Nat) (f : Lane → Lane) : (modLane s uid g i f).zeroed = s.zeroed := rfl
@[simp] theorem modLane_sliceLines (s : State) (uid g i : Nat) (f : Lane → Lane) : (modLane s uid g i f).sliceLines = s.sliceLines := rfl
@[simp] theorem modLane_sliceOfLine (s : State) (uid g i : Nat) (f : Lane → Lane) : (modLane s uid g i f).sliceOfLine = s.sliceOfLine := rfl
@[simp] theorem modLane_forgotten (s : State) (uid g i : Nat) (f : Lane → Lane) : (modLane s uid g i f).forgotten = s.forgotten := rfl
@[simp] theorem modLane_tlb (s : State) (uid g i : Nat) (f : Lane → Lane) : (modLane s uid g i f).tlb = s.tlb := rfl
@[simp] theorem modLane_era (s : State) (uid g i : Nat) (f : Lane → Lane) : (modLane s uid g i f).era = s.era := rfl
@[simp] theorem modLane_codeLog (s : State) (uid g i : Nat) (f : Lane → Lane) : (modLane s uid g i f).codeLog = s.codeLog := rfl
@[simp] theorem modLane_poison (s : State) (uid g i : Nat) (f : Lane → Lane) : (modLane s uid g i f).poison = s.poison := rfl
@[simp] theorem modLane_pieceKey (s : State) (uid g i : Nat) (f : Lane → Lane) : (modLane s uid g i f).pieceKey = s.pieceKey := rfl
@[simp] theorem modLane_dirty (s : State) (uid g i : Nat) (f : Lane → Lane) : (modLane s uid g i f).dirty = s.dirty := rfl
@[simp] theorem modLane_older (s : State) (uid g i : Nat) (f : Lane → Lane) : (modLane s uid g i f).older = s.older := rfl
@[simp] theorem modLane_msc (s : State) (uid g i : Nat) (f : Lane → Lane) : (modLane s uid g i f).msc = s.msc := rfl
@[simp] theorem modLane_mscSel (s : State) (uid g i : Nat) (f : Lane → Lane) : (modLane s uid g i f).mscSel = s.mscSel := rfl
@[simp] theorem modLane_mscMiss (s : State) (uid g i : Nat) (f : Lane → Lane) : (modLane s uid g i f).mscMiss = s.mscMiss := rfl
@[simp] theorem modLane_slotsOut (s : State) (uid g i : Nat) (f : Lane → Lane) : (modLane s uid g i f).slotsOut = s.slotsOut := rfl
@[simp] theorem modLane_ringReqs (s : State) (uid g i : Nat) (f : Lane → Lane) : (modLane s uid g i f).ringReqs = s.ringReqs := rfl
@[simp] theorem modLane_rings (s : State) (uid g i : Nat) (f : Lane → Lane) : (modLane s uid g i f).rings = s.rings := rfl
@[simp] theorem modLane_broken (s : State) (uid g i : Nat) (f : Lane → Lane) : (modLane s uid g i f).broken = s.broken := rfl
@[simp] theorem modLane_turns (s : State) (uid g i : Nat) (f : Lane → Lane) : (modLane s uid g i f).turns = s.turns := rfl
@[simp] theorem modLane_dir (s : State) (uid g i : Nat) (f : Lane → Lane) : (modLane s uid g i f).dir = s.dir := rfl
@[simp] theorem modLane_msgs (s : State) (uid g i : Nat) (f : Lane → Lane) : (modLane s uid g i f).msgs = s.msgs := rfl
@[simp] theorem modLane_cores (s : State) (uid g i : Nat) (f : Lane → Lane) : (modLane s uid g i f).cores = s.cores := rfl
@[simp] theorem modLane_dies (s : State) (uid g i : Nat) (f : Lane → Lane) : (modLane s uid g i f).dies = s.dies := rfl
@[simp] theorem modLane_launches (s : State) (uid g i : Nat) (f : Lane → Lane) : (modLane s uid g i f).launches = s.launches := rfl
@[simp] theorem modLane_chains (s : State) (uid g i : Nat) (f : Lane → Lane) : (modLane s uid g i f).chains = s.chains := rfl
@[simp] theorem modLane_timed (s : State) (uid g i : Nat) (f : Lane → Lane) : (modLane s uid g i f).timed = s.timed := rfl
@[simp] theorem modLane_mgmt (s : State) (uid g i : Nat) (f : Lane → Lane) : (modLane s uid g i f).mgmt = s.mgmt := rfl
@[simp] theorem modLane_msiWait (s : State) (uid g i : Nat) (f : Lane → Lane) : (modLane s uid g i f).msiWait = s.msiWait := rfl
@[simp] theorem modLane_msiSent (s : State) (uid g i : Nat) (f : Lane → Lane) : (modLane s uid g i f).msiSent = s.msiSent := rfl
@[simp] theorem modLane_hostData (s : State) (uid g i : Nat) (f : Lane → Lane) : (modLane s uid g i f).hostData = s.hostData := rfl
@[simp] theorem modLane_hostWait (s : State) (uid g i : Nat) (f : Lane → Lane) : (modLane s uid g i f).hostWait = s.hostWait := rfl
@[simp] theorem modLane_peerReply (s : State) (uid g i : Nat) (f : Lane → Lane) : (modLane s uid g i f).peerReply = s.peerReply := rfl
@[simp] theorem modLane_datagrams (s : State) (uid g i : Nat) (f : Lane → Lane) : (modLane s uid g i f).datagrams = s.datagrams := rfl
@[simp] theorem modLane_dgSeq (s : State) (uid g i : Nat) (f : Lane → Lane) : (modLane s uid g i f).dgSeq = s.dgSeq := rfl
@[simp] theorem modLane_ptp (s : State) (uid g i : Nat) (f : Lane → Lane) : (modLane s uid g i f).ptp = s.ptp := rfl
@[simp] theorem modLane_parkPosted (s : State) (uid g i : Nat) (f : Lane → Lane) : (modLane s uid g i f).parkPosted = s.parkPosted := rfl
@[simp] theorem modLane_frames (s : State) (uid g i : Nat) (f : Lane → Lane) : (modLane s uid g i f).frames = s.frames := rfl
@[simp] theorem modLane_lostPorts (s : State) (uid g i : Nat) (f : Lane → Lane) : (modLane s uid g i f).lostPorts = s.lostPorts := rfl
@[simp] theorem modLane_badArrays (s : State) (uid g i : Nat) (f : Lane → Lane) : (modLane s uid g i f).badArrays = s.badArrays := rfl
@[simp] theorem modLane_held (s : State) (uid g i : Nat) (f : Lane → Lane) : (modLane s uid g i f).held = s.held := rfl
@[simp] theorem modLane_saves (s : State) (uid g i : Nat) (f : Lane → Lane) : (modLane s uid g i f).saves = s.saves := rfl

-- modCore

@[simp] theorem modCore_agenda (s : State) (n : Nat) (f : Core → Core) : (modCore s n f).agenda = s.agenda := rfl
@[simp] theorem modCore_fresh (s : State) (n : Nat) (f : Core → Core) : (modCore s n f).fresh = s.fresh := rfl
@[simp] theorem modCore_focus (s : State) (n : Nat) (f : Core → Core) : (modCore s n f).focus = s.focus := rfl
@[simp] theorem modCore_cycle (s : State) (n : Nat) (f : Core → Core) : (modCore s n f).cycle = s.cycle := rfl
@[simp] theorem modCore_clock (s : State) (n : Nat) (f : Core → Core) : (modCore s n f).clock = s.clock := rfl
@[simp] theorem modCore_mem (s : State) (n : Nat) (f : Core → Core) : (modCore s n f).mem = s.mem := rfl
@[simp] theorem modCore_stamps (s : State) (n : Nat) (f : Core → Core) : (modCore s n f).stamps = s.stamps := rfl
@[simp] theorem modCore_zeroed (s : State) (n : Nat) (f : Core → Core) : (modCore s n f).zeroed = s.zeroed := rfl
@[simp] theorem modCore_sliceLines (s : State) (n : Nat) (f : Core → Core) : (modCore s n f).sliceLines = s.sliceLines := rfl
@[simp] theorem modCore_sliceOfLine (s : State) (n : Nat) (f : Core → Core) : (modCore s n f).sliceOfLine = s.sliceOfLine := rfl
@[simp] theorem modCore_forgotten (s : State) (n : Nat) (f : Core → Core) : (modCore s n f).forgotten = s.forgotten := rfl
@[simp] theorem modCore_tlb (s : State) (n : Nat) (f : Core → Core) : (modCore s n f).tlb = s.tlb := rfl
@[simp] theorem modCore_era (s : State) (n : Nat) (f : Core → Core) : (modCore s n f).era = s.era := rfl
@[simp] theorem modCore_codeLog (s : State) (n : Nat) (f : Core → Core) : (modCore s n f).codeLog = s.codeLog := rfl
@[simp] theorem modCore_poison (s : State) (n : Nat) (f : Core → Core) : (modCore s n f).poison = s.poison := rfl
@[simp] theorem modCore_pieceKey (s : State) (n : Nat) (f : Core → Core) : (modCore s n f).pieceKey = s.pieceKey := rfl
@[simp] theorem modCore_dirty (s : State) (n : Nat) (f : Core → Core) : (modCore s n f).dirty = s.dirty := rfl
@[simp] theorem modCore_older (s : State) (n : Nat) (f : Core → Core) : (modCore s n f).older = s.older := rfl
@[simp] theorem modCore_msc (s : State) (n : Nat) (f : Core → Core) : (modCore s n f).msc = s.msc := rfl
@[simp] theorem modCore_mscSel (s : State) (n : Nat) (f : Core → Core) : (modCore s n f).mscSel = s.mscSel := rfl
@[simp] theorem modCore_mscMiss (s : State) (n : Nat) (f : Core → Core) : (modCore s n f).mscMiss = s.mscMiss := rfl
@[simp] theorem modCore_slotsOut (s : State) (n : Nat) (f : Core → Core) : (modCore s n f).slotsOut = s.slotsOut := rfl
@[simp] theorem modCore_ringReqs (s : State) (n : Nat) (f : Core → Core) : (modCore s n f).ringReqs = s.ringReqs := rfl
@[simp] theorem modCore_rings (s : State) (n : Nat) (f : Core → Core) : (modCore s n f).rings = s.rings := rfl
@[simp] theorem modCore_broken (s : State) (n : Nat) (f : Core → Core) : (modCore s n f).broken = s.broken := rfl
@[simp] theorem modCore_turns (s : State) (n : Nat) (f : Core → Core) : (modCore s n f).turns = s.turns := rfl
@[simp] theorem modCore_dir (s : State) (n : Nat) (f : Core → Core) : (modCore s n f).dir = s.dir := rfl
@[simp] theorem modCore_msgs (s : State) (n : Nat) (f : Core → Core) : (modCore s n f).msgs = s.msgs := rfl
@[simp] theorem modCore_teams (s : State) (n : Nat) (f : Core → Core) : (modCore s n f).teams = s.teams := rfl
@[simp] theorem modCore_dies (s : State) (n : Nat) (f : Core → Core) : (modCore s n f).dies = s.dies := rfl
@[simp] theorem modCore_launches (s : State) (n : Nat) (f : Core → Core) : (modCore s n f).launches = s.launches := rfl
@[simp] theorem modCore_chains (s : State) (n : Nat) (f : Core → Core) : (modCore s n f).chains = s.chains := rfl
@[simp] theorem modCore_timed (s : State) (n : Nat) (f : Core → Core) : (modCore s n f).timed = s.timed := rfl
@[simp] theorem modCore_mgmt (s : State) (n : Nat) (f : Core → Core) : (modCore s n f).mgmt = s.mgmt := rfl
@[simp] theorem modCore_msiWait (s : State) (n : Nat) (f : Core → Core) : (modCore s n f).msiWait = s.msiWait := rfl
@[simp] theorem modCore_msiSent (s : State) (n : Nat) (f : Core → Core) : (modCore s n f).msiSent = s.msiSent := rfl
@[simp] theorem modCore_hostData (s : State) (n : Nat) (f : Core → Core) : (modCore s n f).hostData = s.hostData := rfl
@[simp] theorem modCore_hostWait (s : State) (n : Nat) (f : Core → Core) : (modCore s n f).hostWait = s.hostWait := rfl
@[simp] theorem modCore_peerReply (s : State) (n : Nat) (f : Core → Core) : (modCore s n f).peerReply = s.peerReply := rfl
@[simp] theorem modCore_datagrams (s : State) (n : Nat) (f : Core → Core) : (modCore s n f).datagrams = s.datagrams := rfl
@[simp] theorem modCore_dgSeq (s : State) (n : Nat) (f : Core → Core) : (modCore s n f).dgSeq = s.dgSeq := rfl
@[simp] theorem modCore_ptp (s : State) (n : Nat) (f : Core → Core) : (modCore s n f).ptp = s.ptp := rfl
@[simp] theorem modCore_parkPosted (s : State) (n : Nat) (f : Core → Core) : (modCore s n f).parkPosted = s.parkPosted := rfl
@[simp] theorem modCore_frames (s : State) (n : Nat) (f : Core → Core) : (modCore s n f).frames = s.frames := rfl
@[simp] theorem modCore_lostPorts (s : State) (n : Nat) (f : Core → Core) : (modCore s n f).lostPorts = s.lostPorts := rfl
@[simp] theorem modCore_badArrays (s : State) (n : Nat) (f : Core → Core) : (modCore s n f).badArrays = s.badArrays := rfl
@[simp] theorem modCore_held (s : State) (n : Nat) (f : Core → Core) : (modCore s n f).held = s.held := rfl
@[simp] theorem modCore_saves (s : State) (n : Nat) (f : Core → Core) : (modCore s n f).saves = s.saves := rfl

-- modBay

@[simp] theorem modBay_agenda (s : State) (core bay : Nat) (f : Bay → Bay) : (modBay s core bay f).agenda = s.agenda := rfl
@[simp] theorem modBay_fresh (s : State) (core bay : Nat) (f : Bay → Bay) : (modBay s core bay f).fresh = s.fresh := rfl
@[simp] theorem modBay_focus (s : State) (core bay : Nat) (f : Bay → Bay) : (modBay s core bay f).focus = s.focus := rfl
@[simp] theorem modBay_cycle (s : State) (core bay : Nat) (f : Bay → Bay) : (modBay s core bay f).cycle = s.cycle := rfl
@[simp] theorem modBay_clock (s : State) (core bay : Nat) (f : Bay → Bay) : (modBay s core bay f).clock = s.clock := rfl
@[simp] theorem modBay_mem (s : State) (core bay : Nat) (f : Bay → Bay) : (modBay s core bay f).mem = s.mem := rfl
@[simp] theorem modBay_stamps (s : State) (core bay : Nat) (f : Bay → Bay) : (modBay s core bay f).stamps = s.stamps := rfl
@[simp] theorem modBay_zeroed (s : State) (core bay : Nat) (f : Bay → Bay) : (modBay s core bay f).zeroed = s.zeroed := rfl
@[simp] theorem modBay_sliceLines (s : State) (core bay : Nat) (f : Bay → Bay) : (modBay s core bay f).sliceLines = s.sliceLines := rfl
@[simp] theorem modBay_sliceOfLine (s : State) (core bay : Nat) (f : Bay → Bay) : (modBay s core bay f).sliceOfLine = s.sliceOfLine := rfl
@[simp] theorem modBay_forgotten (s : State) (core bay : Nat) (f : Bay → Bay) : (modBay s core bay f).forgotten = s.forgotten := rfl
@[simp] theorem modBay_tlb (s : State) (core bay : Nat) (f : Bay → Bay) : (modBay s core bay f).tlb = s.tlb := rfl
@[simp] theorem modBay_era (s : State) (core bay : Nat) (f : Bay → Bay) : (modBay s core bay f).era = s.era := rfl
@[simp] theorem modBay_codeLog (s : State) (core bay : Nat) (f : Bay → Bay) : (modBay s core bay f).codeLog = s.codeLog := rfl
@[simp] theorem modBay_poison (s : State) (core bay : Nat) (f : Bay → Bay) : (modBay s core bay f).poison = s.poison := rfl
@[simp] theorem modBay_pieceKey (s : State) (core bay : Nat) (f : Bay → Bay) : (modBay s core bay f).pieceKey = s.pieceKey := rfl
@[simp] theorem modBay_dirty (s : State) (core bay : Nat) (f : Bay → Bay) : (modBay s core bay f).dirty = s.dirty := rfl
@[simp] theorem modBay_older (s : State) (core bay : Nat) (f : Bay → Bay) : (modBay s core bay f).older = s.older := rfl
@[simp] theorem modBay_msc (s : State) (core bay : Nat) (f : Bay → Bay) : (modBay s core bay f).msc = s.msc := rfl
@[simp] theorem modBay_mscSel (s : State) (core bay : Nat) (f : Bay → Bay) : (modBay s core bay f).mscSel = s.mscSel := rfl
@[simp] theorem modBay_mscMiss (s : State) (core bay : Nat) (f : Bay → Bay) : (modBay s core bay f).mscMiss = s.mscMiss := rfl
@[simp] theorem modBay_slotsOut (s : State) (core bay : Nat) (f : Bay → Bay) : (modBay s core bay f).slotsOut = s.slotsOut := rfl
@[simp] theorem modBay_ringReqs (s : State) (core bay : Nat) (f : Bay → Bay) : (modBay s core bay f).ringReqs = s.ringReqs := rfl
@[simp] theorem modBay_rings (s : State) (core bay : Nat) (f : Bay → Bay) : (modBay s core bay f).rings = s.rings := rfl
@[simp] theorem modBay_broken (s : State) (core bay : Nat) (f : Bay → Bay) : (modBay s core bay f).broken = s.broken := rfl
@[simp] theorem modBay_turns (s : State) (core bay : Nat) (f : Bay → Bay) : (modBay s core bay f).turns = s.turns := rfl
@[simp] theorem modBay_dir (s : State) (core bay : Nat) (f : Bay → Bay) : (modBay s core bay f).dir = s.dir := rfl
@[simp] theorem modBay_msgs (s : State) (core bay : Nat) (f : Bay → Bay) : (modBay s core bay f).msgs = s.msgs := rfl
@[simp] theorem modBay_teams (s : State) (core bay : Nat) (f : Bay → Bay) : (modBay s core bay f).teams = s.teams := rfl
@[simp] theorem modBay_dies (s : State) (core bay : Nat) (f : Bay → Bay) : (modBay s core bay f).dies = s.dies := rfl
@[simp] theorem modBay_launches (s : State) (core bay : Nat) (f : Bay → Bay) : (modBay s core bay f).launches = s.launches := rfl
@[simp] theorem modBay_chains (s : State) (core bay : Nat) (f : Bay → Bay) : (modBay s core bay f).chains = s.chains := rfl
@[simp] theorem modBay_timed (s : State) (core bay : Nat) (f : Bay → Bay) : (modBay s core bay f).timed = s.timed := rfl
@[simp] theorem modBay_mgmt (s : State) (core bay : Nat) (f : Bay → Bay) : (modBay s core bay f).mgmt = s.mgmt := rfl
@[simp] theorem modBay_msiWait (s : State) (core bay : Nat) (f : Bay → Bay) : (modBay s core bay f).msiWait = s.msiWait := rfl
@[simp] theorem modBay_msiSent (s : State) (core bay : Nat) (f : Bay → Bay) : (modBay s core bay f).msiSent = s.msiSent := rfl
@[simp] theorem modBay_hostData (s : State) (core bay : Nat) (f : Bay → Bay) : (modBay s core bay f).hostData = s.hostData := rfl
@[simp] theorem modBay_hostWait (s : State) (core bay : Nat) (f : Bay → Bay) : (modBay s core bay f).hostWait = s.hostWait := rfl
@[simp] theorem modBay_peerReply (s : State) (core bay : Nat) (f : Bay → Bay) : (modBay s core bay f).peerReply = s.peerReply := rfl
@[simp] theorem modBay_datagrams (s : State) (core bay : Nat) (f : Bay → Bay) : (modBay s core bay f).datagrams = s.datagrams := rfl
@[simp] theorem modBay_dgSeq (s : State) (core bay : Nat) (f : Bay → Bay) : (modBay s core bay f).dgSeq = s.dgSeq := rfl
@[simp] theorem modBay_ptp (s : State) (core bay : Nat) (f : Bay → Bay) : (modBay s core bay f).ptp = s.ptp := rfl
@[simp] theorem modBay_parkPosted (s : State) (core bay : Nat) (f : Bay → Bay) : (modBay s core bay f).parkPosted = s.parkPosted := rfl
@[simp] theorem modBay_frames (s : State) (core bay : Nat) (f : Bay → Bay) : (modBay s core bay f).frames = s.frames := rfl
@[simp] theorem modBay_lostPorts (s : State) (core bay : Nat) (f : Bay → Bay) : (modBay s core bay f).lostPorts = s.lostPorts := rfl
@[simp] theorem modBay_badArrays (s : State) (core bay : Nat) (f : Bay → Bay) : (modBay s core bay f).badArrays = s.badArrays := rfl
@[simp] theorem modBay_held (s : State) (core bay : Nat) (f : Bay → Bay) : (modBay s core bay f).held = s.held := rfl
@[simp] theorem modBay_saves (s : State) (core bay : Nat) (f : Bay → Bay) : (modBay s core bay f).saves = s.saves := rfl

-- modDie

@[simp] theorem modDie_agenda (s : State) (d : Nat) (f : Die → Die) : (modDie s d f).agenda = s.agenda := rfl
@[simp] theorem modDie_fresh (s : State) (d : Nat) (f : Die → Die) : (modDie s d f).fresh = s.fresh := rfl
@[simp] theorem modDie_focus (s : State) (d : Nat) (f : Die → Die) : (modDie s d f).focus = s.focus := rfl
@[simp] theorem modDie_cycle (s : State) (d : Nat) (f : Die → Die) : (modDie s d f).cycle = s.cycle := rfl
@[simp] theorem modDie_clock (s : State) (d : Nat) (f : Die → Die) : (modDie s d f).clock = s.clock := rfl
@[simp] theorem modDie_mem (s : State) (d : Nat) (f : Die → Die) : (modDie s d f).mem = s.mem := rfl
@[simp] theorem modDie_stamps (s : State) (d : Nat) (f : Die → Die) : (modDie s d f).stamps = s.stamps := rfl
@[simp] theorem modDie_zeroed (s : State) (d : Nat) (f : Die → Die) : (modDie s d f).zeroed = s.zeroed := rfl
@[simp] theorem modDie_sliceLines (s : State) (d : Nat) (f : Die → Die) : (modDie s d f).sliceLines = s.sliceLines := rfl
@[simp] theorem modDie_sliceOfLine (s : State) (d : Nat) (f : Die → Die) : (modDie s d f).sliceOfLine = s.sliceOfLine := rfl
@[simp] theorem modDie_forgotten (s : State) (d : Nat) (f : Die → Die) : (modDie s d f).forgotten = s.forgotten := rfl
@[simp] theorem modDie_tlb (s : State) (d : Nat) (f : Die → Die) : (modDie s d f).tlb = s.tlb := rfl
@[simp] theorem modDie_era (s : State) (d : Nat) (f : Die → Die) : (modDie s d f).era = s.era := rfl
@[simp] theorem modDie_codeLog (s : State) (d : Nat) (f : Die → Die) : (modDie s d f).codeLog = s.codeLog := rfl
@[simp] theorem modDie_poison (s : State) (d : Nat) (f : Die → Die) : (modDie s d f).poison = s.poison := rfl
@[simp] theorem modDie_pieceKey (s : State) (d : Nat) (f : Die → Die) : (modDie s d f).pieceKey = s.pieceKey := rfl
@[simp] theorem modDie_dirty (s : State) (d : Nat) (f : Die → Die) : (modDie s d f).dirty = s.dirty := rfl
@[simp] theorem modDie_older (s : State) (d : Nat) (f : Die → Die) : (modDie s d f).older = s.older := rfl
@[simp] theorem modDie_msc (s : State) (d : Nat) (f : Die → Die) : (modDie s d f).msc = s.msc := rfl
@[simp] theorem modDie_mscSel (s : State) (d : Nat) (f : Die → Die) : (modDie s d f).mscSel = s.mscSel := rfl
@[simp] theorem modDie_mscMiss (s : State) (d : Nat) (f : Die → Die) : (modDie s d f).mscMiss = s.mscMiss := rfl
@[simp] theorem modDie_slotsOut (s : State) (d : Nat) (f : Die → Die) : (modDie s d f).slotsOut = s.slotsOut := rfl
@[simp] theorem modDie_ringReqs (s : State) (d : Nat) (f : Die → Die) : (modDie s d f).ringReqs = s.ringReqs := rfl
@[simp] theorem modDie_rings (s : State) (d : Nat) (f : Die → Die) : (modDie s d f).rings = s.rings := rfl
@[simp] theorem modDie_broken (s : State) (d : Nat) (f : Die → Die) : (modDie s d f).broken = s.broken := rfl
@[simp] theorem modDie_turns (s : State) (d : Nat) (f : Die → Die) : (modDie s d f).turns = s.turns := rfl
@[simp] theorem modDie_dir (s : State) (d : Nat) (f : Die → Die) : (modDie s d f).dir = s.dir := rfl
@[simp] theorem modDie_msgs (s : State) (d : Nat) (f : Die → Die) : (modDie s d f).msgs = s.msgs := rfl
@[simp] theorem modDie_cores (s : State) (d : Nat) (f : Die → Die) : (modDie s d f).cores = s.cores := rfl
@[simp] theorem modDie_teams (s : State) (d : Nat) (f : Die → Die) : (modDie s d f).teams = s.teams := rfl
@[simp] theorem modDie_launches (s : State) (d : Nat) (f : Die → Die) : (modDie s d f).launches = s.launches := rfl
@[simp] theorem modDie_chains (s : State) (d : Nat) (f : Die → Die) : (modDie s d f).chains = s.chains := rfl
@[simp] theorem modDie_timed (s : State) (d : Nat) (f : Die → Die) : (modDie s d f).timed = s.timed := rfl
@[simp] theorem modDie_mgmt (s : State) (d : Nat) (f : Die → Die) : (modDie s d f).mgmt = s.mgmt := rfl
@[simp] theorem modDie_msiWait (s : State) (d : Nat) (f : Die → Die) : (modDie s d f).msiWait = s.msiWait := rfl
@[simp] theorem modDie_msiSent (s : State) (d : Nat) (f : Die → Die) : (modDie s d f).msiSent = s.msiSent := rfl
@[simp] theorem modDie_hostData (s : State) (d : Nat) (f : Die → Die) : (modDie s d f).hostData = s.hostData := rfl
@[simp] theorem modDie_hostWait (s : State) (d : Nat) (f : Die → Die) : (modDie s d f).hostWait = s.hostWait := rfl
@[simp] theorem modDie_peerReply (s : State) (d : Nat) (f : Die → Die) : (modDie s d f).peerReply = s.peerReply := rfl
@[simp] theorem modDie_datagrams (s : State) (d : Nat) (f : Die → Die) : (modDie s d f).datagrams = s.datagrams := rfl
@[simp] theorem modDie_dgSeq (s : State) (d : Nat) (f : Die → Die) : (modDie s d f).dgSeq = s.dgSeq := rfl
@[simp] theorem modDie_ptp (s : State) (d : Nat) (f : Die → Die) : (modDie s d f).ptp = s.ptp := rfl
@[simp] theorem modDie_parkPosted (s : State) (d : Nat) (f : Die → Die) : (modDie s d f).parkPosted = s.parkPosted := rfl
@[simp] theorem modDie_frames (s : State) (d : Nat) (f : Die → Die) : (modDie s d f).frames = s.frames := rfl
@[simp] theorem modDie_lostPorts (s : State) (d : Nat) (f : Die → Die) : (modDie s d f).lostPorts = s.lostPorts := rfl
@[simp] theorem modDie_badArrays (s : State) (d : Nat) (f : Die → Die) : (modDie s d f).badArrays = s.badArrays := rfl
@[simp] theorem modDie_held (s : State) (d : Nat) (f : Die → Die) : (modDie s d f).held = s.held := rfl
@[simp] theorem modDie_saves (s : State) (d : Nat) (f : Die → Die) : (modDie s d f).saves = s.saves := rfl

-- passCycles

@[simp] theorem passCycles_agenda (s : State) (n : Nat) : (passCycles s n).agenda = s.agenda := rfl
@[simp] theorem passCycles_fresh (s : State) (n : Nat) : (passCycles s n).fresh = s.fresh := rfl
@[simp] theorem passCycles_focus (s : State) (n : Nat) : (passCycles s n).focus = s.focus := rfl
@[simp] theorem passCycles_mem (s : State) (n : Nat) : (passCycles s n).mem = s.mem := rfl
@[simp] theorem passCycles_stamps (s : State) (n : Nat) : (passCycles s n).stamps = s.stamps := rfl
@[simp] theorem passCycles_zeroed (s : State) (n : Nat) : (passCycles s n).zeroed = s.zeroed := rfl
@[simp] theorem passCycles_sliceLines (s : State) (n : Nat) : (passCycles s n).sliceLines = s.sliceLines := rfl
@[simp] theorem passCycles_sliceOfLine (s : State) (n : Nat) : (passCycles s n).sliceOfLine = s.sliceOfLine := rfl
@[simp] theorem passCycles_forgotten (s : State) (n : Nat) : (passCycles s n).forgotten = s.forgotten := rfl
@[simp] theorem passCycles_tlb (s : State) (n : Nat) : (passCycles s n).tlb = s.tlb := rfl
@[simp] theorem passCycles_era (s : State) (n : Nat) : (passCycles s n).era = s.era := rfl
@[simp] theorem passCycles_codeLog (s : State) (n : Nat) : (passCycles s n).codeLog = s.codeLog := rfl
@[simp] theorem passCycles_poison (s : State) (n : Nat) : (passCycles s n).poison = s.poison := rfl
@[simp] theorem passCycles_pieceKey (s : State) (n : Nat) : (passCycles s n).pieceKey = s.pieceKey := rfl
@[simp] theorem passCycles_dirty (s : State) (n : Nat) : (passCycles s n).dirty = s.dirty := rfl
@[simp] theorem passCycles_older (s : State) (n : Nat) : (passCycles s n).older = s.older := rfl
@[simp] theorem passCycles_msc (s : State) (n : Nat) : (passCycles s n).msc = s.msc := rfl
@[simp] theorem passCycles_mscSel (s : State) (n : Nat) : (passCycles s n).mscSel = s.mscSel := rfl
@[simp] theorem passCycles_mscMiss (s : State) (n : Nat) : (passCycles s n).mscMiss = s.mscMiss := rfl
@[simp] theorem passCycles_slotsOut (s : State) (n : Nat) : (passCycles s n).slotsOut = s.slotsOut := rfl
@[simp] theorem passCycles_ringReqs (s : State) (n : Nat) : (passCycles s n).ringReqs = s.ringReqs := rfl
@[simp] theorem passCycles_rings (s : State) (n : Nat) : (passCycles s n).rings = s.rings := rfl
@[simp] theorem passCycles_broken (s : State) (n : Nat) : (passCycles s n).broken = s.broken := rfl
@[simp] theorem passCycles_turns (s : State) (n : Nat) : (passCycles s n).turns = s.turns := rfl
@[simp] theorem passCycles_dir (s : State) (n : Nat) : (passCycles s n).dir = s.dir := rfl
@[simp] theorem passCycles_msgs (s : State) (n : Nat) : (passCycles s n).msgs = s.msgs := rfl
@[simp] theorem passCycles_cores (s : State) (n : Nat) : (passCycles s n).cores = s.cores := rfl
@[simp] theorem passCycles_teams (s : State) (n : Nat) : (passCycles s n).teams = s.teams := rfl
@[simp] theorem passCycles_dies (s : State) (n : Nat) : (passCycles s n).dies = s.dies := rfl
@[simp] theorem passCycles_launches (s : State) (n : Nat) : (passCycles s n).launches = s.launches := rfl
@[simp] theorem passCycles_chains (s : State) (n : Nat) : (passCycles s n).chains = s.chains := rfl
@[simp] theorem passCycles_timed (s : State) (n : Nat) : (passCycles s n).timed = s.timed := rfl
@[simp] theorem passCycles_mgmt (s : State) (n : Nat) : (passCycles s n).mgmt = s.mgmt := rfl
@[simp] theorem passCycles_msiWait (s : State) (n : Nat) : (passCycles s n).msiWait = s.msiWait := rfl
@[simp] theorem passCycles_msiSent (s : State) (n : Nat) : (passCycles s n).msiSent = s.msiSent := rfl
@[simp] theorem passCycles_hostData (s : State) (n : Nat) : (passCycles s n).hostData = s.hostData := rfl
@[simp] theorem passCycles_hostWait (s : State) (n : Nat) : (passCycles s n).hostWait = s.hostWait := rfl
@[simp] theorem passCycles_peerReply (s : State) (n : Nat) : (passCycles s n).peerReply = s.peerReply := rfl
@[simp] theorem passCycles_datagrams (s : State) (n : Nat) : (passCycles s n).datagrams = s.datagrams := rfl
@[simp] theorem passCycles_dgSeq (s : State) (n : Nat) : (passCycles s n).dgSeq = s.dgSeq := rfl
@[simp] theorem passCycles_ptp (s : State) (n : Nat) : (passCycles s n).ptp = s.ptp := rfl
@[simp] theorem passCycles_parkPosted (s : State) (n : Nat) : (passCycles s n).parkPosted = s.parkPosted := rfl
@[simp] theorem passCycles_frames (s : State) (n : Nat) : (passCycles s n).frames = s.frames := rfl
@[simp] theorem passCycles_lostPorts (s : State) (n : Nat) : (passCycles s n).lostPorts = s.lostPorts := rfl
@[simp] theorem passCycles_badArrays (s : State) (n : Nat) : (passCycles s n).badArrays = s.badArrays := rfl
@[simp] theorem passCycles_held (s : State) (n : Nat) : (passCycles s n).held = s.held := rfl
@[simp] theorem passCycles_saves (s : State) (n : Nat) : (passCycles s n).saves = s.saves := rfl

-- passAt

@[simp] theorem passAt_agenda (s : State) (point n : Nat) : (passAt s point n).agenda = s.agenda := rfl
@[simp] theorem passAt_fresh (s : State) (point n : Nat) : (passAt s point n).fresh = s.fresh := rfl
@[simp] theorem passAt_focus (s : State) (point n : Nat) : (passAt s point n).focus = s.focus := rfl
@[simp] theorem passAt_mem (s : State) (point n : Nat) : (passAt s point n).mem = s.mem := rfl
@[simp] theorem passAt_stamps (s : State) (point n : Nat) : (passAt s point n).stamps = s.stamps := rfl
@[simp] theorem passAt_zeroed (s : State) (point n : Nat) : (passAt s point n).zeroed = s.zeroed := rfl
@[simp] theorem passAt_sliceLines (s : State) (point n : Nat) : (passAt s point n).sliceLines = s.sliceLines := rfl
@[simp] theorem passAt_sliceOfLine (s : State) (point n : Nat) : (passAt s point n).sliceOfLine = s.sliceOfLine := rfl
@[simp] theorem passAt_forgotten (s : State) (point n : Nat) : (passAt s point n).forgotten = s.forgotten := rfl
@[simp] theorem passAt_tlb (s : State) (point n : Nat) : (passAt s point n).tlb = s.tlb := rfl
@[simp] theorem passAt_era (s : State) (point n : Nat) : (passAt s point n).era = s.era := rfl
@[simp] theorem passAt_codeLog (s : State) (point n : Nat) : (passAt s point n).codeLog = s.codeLog := rfl
@[simp] theorem passAt_poison (s : State) (point n : Nat) : (passAt s point n).poison = s.poison := rfl
@[simp] theorem passAt_pieceKey (s : State) (point n : Nat) : (passAt s point n).pieceKey = s.pieceKey := rfl
@[simp] theorem passAt_dirty (s : State) (point n : Nat) : (passAt s point n).dirty = s.dirty := rfl
@[simp] theorem passAt_older (s : State) (point n : Nat) : (passAt s point n).older = s.older := rfl
@[simp] theorem passAt_msc (s : State) (point n : Nat) : (passAt s point n).msc = s.msc := rfl
@[simp] theorem passAt_mscSel (s : State) (point n : Nat) : (passAt s point n).mscSel = s.mscSel := rfl
@[simp] theorem passAt_mscMiss (s : State) (point n : Nat) : (passAt s point n).mscMiss = s.mscMiss := rfl
@[simp] theorem passAt_slotsOut (s : State) (point n : Nat) : (passAt s point n).slotsOut = s.slotsOut := rfl
@[simp] theorem passAt_ringReqs (s : State) (point n : Nat) : (passAt s point n).ringReqs = s.ringReqs := rfl
@[simp] theorem passAt_rings (s : State) (point n : Nat) : (passAt s point n).rings = s.rings := rfl
@[simp] theorem passAt_broken (s : State) (point n : Nat) : (passAt s point n).broken = s.broken := rfl
@[simp] theorem passAt_turns (s : State) (point n : Nat) : (passAt s point n).turns = s.turns := rfl
@[simp] theorem passAt_dir (s : State) (point n : Nat) : (passAt s point n).dir = s.dir := rfl
@[simp] theorem passAt_msgs (s : State) (point n : Nat) : (passAt s point n).msgs = s.msgs := rfl
@[simp] theorem passAt_cores (s : State) (point n : Nat) : (passAt s point n).cores = s.cores := rfl
@[simp] theorem passAt_teams (s : State) (point n : Nat) : (passAt s point n).teams = s.teams := rfl
@[simp] theorem passAt_dies (s : State) (point n : Nat) : (passAt s point n).dies = s.dies := rfl
@[simp] theorem passAt_launches (s : State) (point n : Nat) : (passAt s point n).launches = s.launches := rfl
@[simp] theorem passAt_chains (s : State) (point n : Nat) : (passAt s point n).chains = s.chains := rfl
@[simp] theorem passAt_timed (s : State) (point n : Nat) : (passAt s point n).timed = s.timed := rfl
@[simp] theorem passAt_mgmt (s : State) (point n : Nat) : (passAt s point n).mgmt = s.mgmt := rfl
@[simp] theorem passAt_msiWait (s : State) (point n : Nat) : (passAt s point n).msiWait = s.msiWait := rfl
@[simp] theorem passAt_msiSent (s : State) (point n : Nat) : (passAt s point n).msiSent = s.msiSent := rfl
@[simp] theorem passAt_hostData (s : State) (point n : Nat) : (passAt s point n).hostData = s.hostData := rfl
@[simp] theorem passAt_hostWait (s : State) (point n : Nat) : (passAt s point n).hostWait = s.hostWait := rfl
@[simp] theorem passAt_peerReply (s : State) (point n : Nat) : (passAt s point n).peerReply = s.peerReply := rfl
@[simp] theorem passAt_datagrams (s : State) (point n : Nat) : (passAt s point n).datagrams = s.datagrams := rfl
@[simp] theorem passAt_dgSeq (s : State) (point n : Nat) : (passAt s point n).dgSeq = s.dgSeq := rfl
@[simp] theorem passAt_ptp (s : State) (point n : Nat) : (passAt s point n).ptp = s.ptp := rfl
@[simp] theorem passAt_parkPosted (s : State) (point n : Nat) : (passAt s point n).parkPosted = s.parkPosted := rfl
@[simp] theorem passAt_frames (s : State) (point n : Nat) : (passAt s point n).frames = s.frames := rfl
@[simp] theorem passAt_lostPorts (s : State) (point n : Nat) : (passAt s point n).lostPorts = s.lostPorts := rfl
@[simp] theorem passAt_badArrays (s : State) (point n : Nat) : (passAt s point n).badArrays = s.badArrays := rfl
@[simp] theorem passAt_held (s : State) (point n : Nat) : (passAt s point n).held = s.held := rfl
@[simp] theorem passAt_saves (s : State) (point n : Nat) : (passAt s point n).saves = s.saves := rfl

-- passTo

@[simp] theorem passTo_agenda (s : State) (t : Nat) : (passTo s t).agenda = s.agenda := rfl
@[simp] theorem passTo_fresh (s : State) (t : Nat) : (passTo s t).fresh = s.fresh := rfl
@[simp] theorem passTo_focus (s : State) (t : Nat) : (passTo s t).focus = s.focus := rfl
@[simp] theorem passTo_mem (s : State) (t : Nat) : (passTo s t).mem = s.mem := rfl
@[simp] theorem passTo_stamps (s : State) (t : Nat) : (passTo s t).stamps = s.stamps := rfl
@[simp] theorem passTo_zeroed (s : State) (t : Nat) : (passTo s t).zeroed = s.zeroed := rfl
@[simp] theorem passTo_sliceLines (s : State) (t : Nat) : (passTo s t).sliceLines = s.sliceLines := rfl
@[simp] theorem passTo_sliceOfLine (s : State) (t : Nat) : (passTo s t).sliceOfLine = s.sliceOfLine := rfl
@[simp] theorem passTo_forgotten (s : State) (t : Nat) : (passTo s t).forgotten = s.forgotten := rfl
@[simp] theorem passTo_tlb (s : State) (t : Nat) : (passTo s t).tlb = s.tlb := rfl
@[simp] theorem passTo_era (s : State) (t : Nat) : (passTo s t).era = s.era := rfl
@[simp] theorem passTo_codeLog (s : State) (t : Nat) : (passTo s t).codeLog = s.codeLog := rfl
@[simp] theorem passTo_poison (s : State) (t : Nat) : (passTo s t).poison = s.poison := rfl
@[simp] theorem passTo_pieceKey (s : State) (t : Nat) : (passTo s t).pieceKey = s.pieceKey := rfl
@[simp] theorem passTo_dirty (s : State) (t : Nat) : (passTo s t).dirty = s.dirty := rfl
@[simp] theorem passTo_older (s : State) (t : Nat) : (passTo s t).older = s.older := rfl
@[simp] theorem passTo_msc (s : State) (t : Nat) : (passTo s t).msc = s.msc := rfl
@[simp] theorem passTo_mscSel (s : State) (t : Nat) : (passTo s t).mscSel = s.mscSel := rfl
@[simp] theorem passTo_mscMiss (s : State) (t : Nat) : (passTo s t).mscMiss = s.mscMiss := rfl
@[simp] theorem passTo_slotsOut (s : State) (t : Nat) : (passTo s t).slotsOut = s.slotsOut := rfl
@[simp] theorem passTo_ringReqs (s : State) (t : Nat) : (passTo s t).ringReqs = s.ringReqs := rfl
@[simp] theorem passTo_rings (s : State) (t : Nat) : (passTo s t).rings = s.rings := rfl
@[simp] theorem passTo_broken (s : State) (t : Nat) : (passTo s t).broken = s.broken := rfl
@[simp] theorem passTo_turns (s : State) (t : Nat) : (passTo s t).turns = s.turns := rfl
@[simp] theorem passTo_dir (s : State) (t : Nat) : (passTo s t).dir = s.dir := rfl
@[simp] theorem passTo_msgs (s : State) (t : Nat) : (passTo s t).msgs = s.msgs := rfl
@[simp] theorem passTo_cores (s : State) (t : Nat) : (passTo s t).cores = s.cores := rfl
@[simp] theorem passTo_teams (s : State) (t : Nat) : (passTo s t).teams = s.teams := rfl
@[simp] theorem passTo_dies (s : State) (t : Nat) : (passTo s t).dies = s.dies := rfl
@[simp] theorem passTo_launches (s : State) (t : Nat) : (passTo s t).launches = s.launches := rfl
@[simp] theorem passTo_chains (s : State) (t : Nat) : (passTo s t).chains = s.chains := rfl
@[simp] theorem passTo_timed (s : State) (t : Nat) : (passTo s t).timed = s.timed := rfl
@[simp] theorem passTo_mgmt (s : State) (t : Nat) : (passTo s t).mgmt = s.mgmt := rfl
@[simp] theorem passTo_msiWait (s : State) (t : Nat) : (passTo s t).msiWait = s.msiWait := rfl
@[simp] theorem passTo_msiSent (s : State) (t : Nat) : (passTo s t).msiSent = s.msiSent := rfl
@[simp] theorem passTo_hostData (s : State) (t : Nat) : (passTo s t).hostData = s.hostData := rfl
@[simp] theorem passTo_hostWait (s : State) (t : Nat) : (passTo s t).hostWait = s.hostWait := rfl
@[simp] theorem passTo_peerReply (s : State) (t : Nat) : (passTo s t).peerReply = s.peerReply := rfl
@[simp] theorem passTo_datagrams (s : State) (t : Nat) : (passTo s t).datagrams = s.datagrams := rfl
@[simp] theorem passTo_dgSeq (s : State) (t : Nat) : (passTo s t).dgSeq = s.dgSeq := rfl
@[simp] theorem passTo_ptp (s : State) (t : Nat) : (passTo s t).ptp = s.ptp := rfl
@[simp] theorem passTo_parkPosted (s : State) (t : Nat) : (passTo s t).parkPosted = s.parkPosted := rfl
@[simp] theorem passTo_frames (s : State) (t : Nat) : (passTo s t).frames = s.frames := rfl
@[simp] theorem passTo_lostPorts (s : State) (t : Nat) : (passTo s t).lostPorts = s.lostPorts := rfl
@[simp] theorem passTo_badArrays (s : State) (t : Nat) : (passTo s t).badArrays = s.badArrays := rfl
@[simp] theorem passTo_held (s : State) (t : Nat) : (passTo s t).held = s.held := rfl
@[simp] theorem passTo_saves (s : State) (t : Nat) : (passTo s t).saves = s.saves := rfl

-- View.passed

@[simp] theorem View.passed_agenda (v : View) (s : State) : (View.passed v s).agenda = s.agenda := rfl
@[simp] theorem View.passed_fresh (v : View) (s : State) : (View.passed v s).fresh = s.fresh := rfl
@[simp] theorem View.passed_focus (v : View) (s : State) : (View.passed v s).focus = s.focus := rfl
@[simp] theorem View.passed_mem (v : View) (s : State) : (View.passed v s).mem = s.mem := rfl
@[simp] theorem View.passed_stamps (v : View) (s : State) : (View.passed v s).stamps = s.stamps := rfl
@[simp] theorem View.passed_zeroed (v : View) (s : State) : (View.passed v s).zeroed = s.zeroed := rfl
@[simp] theorem View.passed_sliceLines (v : View) (s : State) : (View.passed v s).sliceLines = s.sliceLines := rfl
@[simp] theorem View.passed_sliceOfLine (v : View) (s : State) : (View.passed v s).sliceOfLine = s.sliceOfLine := rfl
@[simp] theorem View.passed_forgotten (v : View) (s : State) : (View.passed v s).forgotten = s.forgotten := rfl
@[simp] theorem View.passed_tlb (v : View) (s : State) : (View.passed v s).tlb = s.tlb := rfl
@[simp] theorem View.passed_era (v : View) (s : State) : (View.passed v s).era = s.era := rfl
@[simp] theorem View.passed_codeLog (v : View) (s : State) : (View.passed v s).codeLog = s.codeLog := rfl
@[simp] theorem View.passed_poison (v : View) (s : State) : (View.passed v s).poison = s.poison := rfl
@[simp] theorem View.passed_pieceKey (v : View) (s : State) : (View.passed v s).pieceKey = s.pieceKey := rfl
@[simp] theorem View.passed_dirty (v : View) (s : State) : (View.passed v s).dirty = s.dirty := rfl
@[simp] theorem View.passed_older (v : View) (s : State) : (View.passed v s).older = s.older := rfl
@[simp] theorem View.passed_msc (v : View) (s : State) : (View.passed v s).msc = s.msc := rfl
@[simp] theorem View.passed_mscSel (v : View) (s : State) : (View.passed v s).mscSel = s.mscSel := rfl
@[simp] theorem View.passed_mscMiss (v : View) (s : State) : (View.passed v s).mscMiss = s.mscMiss := rfl
@[simp] theorem View.passed_slotsOut (v : View) (s : State) : (View.passed v s).slotsOut = s.slotsOut := rfl
@[simp] theorem View.passed_ringReqs (v : View) (s : State) : (View.passed v s).ringReqs = s.ringReqs := rfl
@[simp] theorem View.passed_rings (v : View) (s : State) : (View.passed v s).rings = s.rings := rfl
@[simp] theorem View.passed_broken (v : View) (s : State) : (View.passed v s).broken = s.broken := rfl
@[simp] theorem View.passed_turns (v : View) (s : State) : (View.passed v s).turns = s.turns := rfl
@[simp] theorem View.passed_dir (v : View) (s : State) : (View.passed v s).dir = s.dir := rfl
@[simp] theorem View.passed_msgs (v : View) (s : State) : (View.passed v s).msgs = s.msgs := rfl
@[simp] theorem View.passed_cores (v : View) (s : State) : (View.passed v s).cores = s.cores := rfl
@[simp] theorem View.passed_teams (v : View) (s : State) : (View.passed v s).teams = s.teams := rfl
@[simp] theorem View.passed_dies (v : View) (s : State) : (View.passed v s).dies = s.dies := rfl
@[simp] theorem View.passed_launches (v : View) (s : State) : (View.passed v s).launches = s.launches := rfl
@[simp] theorem View.passed_chains (v : View) (s : State) : (View.passed v s).chains = s.chains := rfl
@[simp] theorem View.passed_timed (v : View) (s : State) : (View.passed v s).timed = s.timed := rfl
@[simp] theorem View.passed_mgmt (v : View) (s : State) : (View.passed v s).mgmt = s.mgmt := rfl
@[simp] theorem View.passed_msiWait (v : View) (s : State) : (View.passed v s).msiWait = s.msiWait := rfl
@[simp] theorem View.passed_msiSent (v : View) (s : State) : (View.passed v s).msiSent = s.msiSent := rfl
@[simp] theorem View.passed_hostData (v : View) (s : State) : (View.passed v s).hostData = s.hostData := rfl
@[simp] theorem View.passed_hostWait (v : View) (s : State) : (View.passed v s).hostWait = s.hostWait := rfl
@[simp] theorem View.passed_peerReply (v : View) (s : State) : (View.passed v s).peerReply = s.peerReply := rfl
@[simp] theorem View.passed_datagrams (v : View) (s : State) : (View.passed v s).datagrams = s.datagrams := rfl
@[simp] theorem View.passed_dgSeq (v : View) (s : State) : (View.passed v s).dgSeq = s.dgSeq := rfl
@[simp] theorem View.passed_ptp (v : View) (s : State) : (View.passed v s).ptp = s.ptp := rfl
@[simp] theorem View.passed_parkPosted (v : View) (s : State) : (View.passed v s).parkPosted = s.parkPosted := rfl
@[simp] theorem View.passed_frames (v : View) (s : State) : (View.passed v s).frames = s.frames := rfl
@[simp] theorem View.passed_lostPorts (v : View) (s : State) : (View.passed v s).lostPorts = s.lostPorts := rfl
@[simp] theorem View.passed_badArrays (v : View) (s : State) : (View.passed v s).badArrays = s.badArrays := rfl
@[simp] theorem View.passed_held (v : View) (s : State) : (View.passed v s).held = s.held := rfl
@[simp] theorem View.passed_saves (v : View) (s : State) : (View.passed v s).saves = s.saves := rfl

-- setMgmt

@[simp] theorem setMgmt_agenda (s : State) (f : Mgmt → Mgmt) : (setMgmt s f).agenda = s.agenda := rfl
@[simp] theorem setMgmt_fresh (s : State) (f : Mgmt → Mgmt) : (setMgmt s f).fresh = s.fresh := rfl
@[simp] theorem setMgmt_focus (s : State) (f : Mgmt → Mgmt) : (setMgmt s f).focus = s.focus := rfl
@[simp] theorem setMgmt_cycle (s : State) (f : Mgmt → Mgmt) : (setMgmt s f).cycle = s.cycle := rfl
@[simp] theorem setMgmt_clock (s : State) (f : Mgmt → Mgmt) : (setMgmt s f).clock = s.clock := rfl
@[simp] theorem setMgmt_mem (s : State) (f : Mgmt → Mgmt) : (setMgmt s f).mem = s.mem := rfl
@[simp] theorem setMgmt_stamps (s : State) (f : Mgmt → Mgmt) : (setMgmt s f).stamps = s.stamps := rfl
@[simp] theorem setMgmt_zeroed (s : State) (f : Mgmt → Mgmt) : (setMgmt s f).zeroed = s.zeroed := rfl
@[simp] theorem setMgmt_sliceLines (s : State) (f : Mgmt → Mgmt) : (setMgmt s f).sliceLines = s.sliceLines := rfl
@[simp] theorem setMgmt_sliceOfLine (s : State) (f : Mgmt → Mgmt) : (setMgmt s f).sliceOfLine = s.sliceOfLine := rfl
@[simp] theorem setMgmt_forgotten (s : State) (f : Mgmt → Mgmt) : (setMgmt s f).forgotten = s.forgotten := rfl
@[simp] theorem setMgmt_tlb (s : State) (f : Mgmt → Mgmt) : (setMgmt s f).tlb = s.tlb := rfl
@[simp] theorem setMgmt_era (s : State) (f : Mgmt → Mgmt) : (setMgmt s f).era = s.era := rfl
@[simp] theorem setMgmt_codeLog (s : State) (f : Mgmt → Mgmt) : (setMgmt s f).codeLog = s.codeLog := rfl
@[simp] theorem setMgmt_poison (s : State) (f : Mgmt → Mgmt) : (setMgmt s f).poison = s.poison := rfl
@[simp] theorem setMgmt_pieceKey (s : State) (f : Mgmt → Mgmt) : (setMgmt s f).pieceKey = s.pieceKey := rfl
@[simp] theorem setMgmt_dirty (s : State) (f : Mgmt → Mgmt) : (setMgmt s f).dirty = s.dirty := rfl
@[simp] theorem setMgmt_older (s : State) (f : Mgmt → Mgmt) : (setMgmt s f).older = s.older := rfl
@[simp] theorem setMgmt_msc (s : State) (f : Mgmt → Mgmt) : (setMgmt s f).msc = s.msc := rfl
@[simp] theorem setMgmt_mscSel (s : State) (f : Mgmt → Mgmt) : (setMgmt s f).mscSel = s.mscSel := rfl
@[simp] theorem setMgmt_mscMiss (s : State) (f : Mgmt → Mgmt) : (setMgmt s f).mscMiss = s.mscMiss := rfl
@[simp] theorem setMgmt_slotsOut (s : State) (f : Mgmt → Mgmt) : (setMgmt s f).slotsOut = s.slotsOut := rfl
@[simp] theorem setMgmt_ringReqs (s : State) (f : Mgmt → Mgmt) : (setMgmt s f).ringReqs = s.ringReqs := rfl
@[simp] theorem setMgmt_rings (s : State) (f : Mgmt → Mgmt) : (setMgmt s f).rings = s.rings := rfl
@[simp] theorem setMgmt_broken (s : State) (f : Mgmt → Mgmt) : (setMgmt s f).broken = s.broken := rfl
@[simp] theorem setMgmt_turns (s : State) (f : Mgmt → Mgmt) : (setMgmt s f).turns = s.turns := rfl
@[simp] theorem setMgmt_dir (s : State) (f : Mgmt → Mgmt) : (setMgmt s f).dir = s.dir := rfl
@[simp] theorem setMgmt_msgs (s : State) (f : Mgmt → Mgmt) : (setMgmt s f).msgs = s.msgs := rfl
@[simp] theorem setMgmt_cores (s : State) (f : Mgmt → Mgmt) : (setMgmt s f).cores = s.cores := rfl
@[simp] theorem setMgmt_teams (s : State) (f : Mgmt → Mgmt) : (setMgmt s f).teams = s.teams := rfl
@[simp] theorem setMgmt_dies (s : State) (f : Mgmt → Mgmt) : (setMgmt s f).dies = s.dies := rfl
@[simp] theorem setMgmt_launches (s : State) (f : Mgmt → Mgmt) : (setMgmt s f).launches = s.launches := rfl
@[simp] theorem setMgmt_chains (s : State) (f : Mgmt → Mgmt) : (setMgmt s f).chains = s.chains := rfl
@[simp] theorem setMgmt_timed (s : State) (f : Mgmt → Mgmt) : (setMgmt s f).timed = s.timed := rfl
@[simp] theorem setMgmt_msiWait (s : State) (f : Mgmt → Mgmt) : (setMgmt s f).msiWait = s.msiWait := rfl
@[simp] theorem setMgmt_msiSent (s : State) (f : Mgmt → Mgmt) : (setMgmt s f).msiSent = s.msiSent := rfl
@[simp] theorem setMgmt_hostData (s : State) (f : Mgmt → Mgmt) : (setMgmt s f).hostData = s.hostData := rfl
@[simp] theorem setMgmt_hostWait (s : State) (f : Mgmt → Mgmt) : (setMgmt s f).hostWait = s.hostWait := rfl
@[simp] theorem setMgmt_peerReply (s : State) (f : Mgmt → Mgmt) : (setMgmt s f).peerReply = s.peerReply := rfl
@[simp] theorem setMgmt_datagrams (s : State) (f : Mgmt → Mgmt) : (setMgmt s f).datagrams = s.datagrams := rfl
@[simp] theorem setMgmt_dgSeq (s : State) (f : Mgmt → Mgmt) : (setMgmt s f).dgSeq = s.dgSeq := rfl
@[simp] theorem setMgmt_ptp (s : State) (f : Mgmt → Mgmt) : (setMgmt s f).ptp = s.ptp := rfl
@[simp] theorem setMgmt_parkPosted (s : State) (f : Mgmt → Mgmt) : (setMgmt s f).parkPosted = s.parkPosted := rfl
@[simp] theorem setMgmt_frames (s : State) (f : Mgmt → Mgmt) : (setMgmt s f).frames = s.frames := rfl
@[simp] theorem setMgmt_lostPorts (s : State) (f : Mgmt → Mgmt) : (setMgmt s f).lostPorts = s.lostPorts := rfl
@[simp] theorem setMgmt_badArrays (s : State) (f : Mgmt → Mgmt) : (setMgmt s f).badArrays = s.badArrays := rfl
@[simp] theorem setMgmt_held (s : State) (f : Mgmt → Mgmt) : (setMgmt s f).held = s.held := rfl
@[simp] theorem setMgmt_saves (s : State) (f : Mgmt → Mgmt) : (setMgmt s f).saves = s.saves := rfl

-- modLaunch

@[simp] theorem modLaunch_agenda (s : State) (id : Nat) (f : Launch → Launch) : (modLaunch s id f).agenda = s.agenda := rfl
@[simp] theorem modLaunch_fresh (s : State) (id : Nat) (f : Launch → Launch) : (modLaunch s id f).fresh = s.fresh := rfl
@[simp] theorem modLaunch_focus (s : State) (id : Nat) (f : Launch → Launch) : (modLaunch s id f).focus = s.focus := rfl
@[simp] theorem modLaunch_cycle (s : State) (id : Nat) (f : Launch → Launch) : (modLaunch s id f).cycle = s.cycle := rfl
@[simp] theorem modLaunch_clock (s : State) (id : Nat) (f : Launch → Launch) : (modLaunch s id f).clock = s.clock := rfl
@[simp] theorem modLaunch_mem (s : State) (id : Nat) (f : Launch → Launch) : (modLaunch s id f).mem = s.mem := rfl
@[simp] theorem modLaunch_stamps (s : State) (id : Nat) (f : Launch → Launch) : (modLaunch s id f).stamps = s.stamps := rfl
@[simp] theorem modLaunch_zeroed (s : State) (id : Nat) (f : Launch → Launch) : (modLaunch s id f).zeroed = s.zeroed := rfl
@[simp] theorem modLaunch_sliceLines (s : State) (id : Nat) (f : Launch → Launch) : (modLaunch s id f).sliceLines = s.sliceLines := rfl
@[simp] theorem modLaunch_sliceOfLine (s : State) (id : Nat) (f : Launch → Launch) : (modLaunch s id f).sliceOfLine = s.sliceOfLine := rfl
@[simp] theorem modLaunch_forgotten (s : State) (id : Nat) (f : Launch → Launch) : (modLaunch s id f).forgotten = s.forgotten := rfl
@[simp] theorem modLaunch_tlb (s : State) (id : Nat) (f : Launch → Launch) : (modLaunch s id f).tlb = s.tlb := rfl
@[simp] theorem modLaunch_era (s : State) (id : Nat) (f : Launch → Launch) : (modLaunch s id f).era = s.era := rfl
@[simp] theorem modLaunch_codeLog (s : State) (id : Nat) (f : Launch → Launch) : (modLaunch s id f).codeLog = s.codeLog := rfl
@[simp] theorem modLaunch_poison (s : State) (id : Nat) (f : Launch → Launch) : (modLaunch s id f).poison = s.poison := rfl
@[simp] theorem modLaunch_pieceKey (s : State) (id : Nat) (f : Launch → Launch) : (modLaunch s id f).pieceKey = s.pieceKey := rfl
@[simp] theorem modLaunch_dirty (s : State) (id : Nat) (f : Launch → Launch) : (modLaunch s id f).dirty = s.dirty := rfl
@[simp] theorem modLaunch_older (s : State) (id : Nat) (f : Launch → Launch) : (modLaunch s id f).older = s.older := rfl
@[simp] theorem modLaunch_msc (s : State) (id : Nat) (f : Launch → Launch) : (modLaunch s id f).msc = s.msc := rfl
@[simp] theorem modLaunch_mscSel (s : State) (id : Nat) (f : Launch → Launch) : (modLaunch s id f).mscSel = s.mscSel := rfl
@[simp] theorem modLaunch_mscMiss (s : State) (id : Nat) (f : Launch → Launch) : (modLaunch s id f).mscMiss = s.mscMiss := rfl
@[simp] theorem modLaunch_slotsOut (s : State) (id : Nat) (f : Launch → Launch) : (modLaunch s id f).slotsOut = s.slotsOut := rfl
@[simp] theorem modLaunch_ringReqs (s : State) (id : Nat) (f : Launch → Launch) : (modLaunch s id f).ringReqs = s.ringReqs := rfl
@[simp] theorem modLaunch_rings (s : State) (id : Nat) (f : Launch → Launch) : (modLaunch s id f).rings = s.rings := rfl
@[simp] theorem modLaunch_broken (s : State) (id : Nat) (f : Launch → Launch) : (modLaunch s id f).broken = s.broken := rfl
@[simp] theorem modLaunch_turns (s : State) (id : Nat) (f : Launch → Launch) : (modLaunch s id f).turns = s.turns := rfl
@[simp] theorem modLaunch_dir (s : State) (id : Nat) (f : Launch → Launch) : (modLaunch s id f).dir = s.dir := rfl
@[simp] theorem modLaunch_msgs (s : State) (id : Nat) (f : Launch → Launch) : (modLaunch s id f).msgs = s.msgs := rfl
@[simp] theorem modLaunch_cores (s : State) (id : Nat) (f : Launch → Launch) : (modLaunch s id f).cores = s.cores := rfl
@[simp] theorem modLaunch_teams (s : State) (id : Nat) (f : Launch → Launch) : (modLaunch s id f).teams = s.teams := rfl
@[simp] theorem modLaunch_dies (s : State) (id : Nat) (f : Launch → Launch) : (modLaunch s id f).dies = s.dies := rfl
@[simp] theorem modLaunch_chains (s : State) (id : Nat) (f : Launch → Launch) : (modLaunch s id f).chains = s.chains := rfl
@[simp] theorem modLaunch_timed (s : State) (id : Nat) (f : Launch → Launch) : (modLaunch s id f).timed = s.timed := rfl
@[simp] theorem modLaunch_mgmt (s : State) (id : Nat) (f : Launch → Launch) : (modLaunch s id f).mgmt = s.mgmt := rfl
@[simp] theorem modLaunch_msiWait (s : State) (id : Nat) (f : Launch → Launch) : (modLaunch s id f).msiWait = s.msiWait := rfl
@[simp] theorem modLaunch_msiSent (s : State) (id : Nat) (f : Launch → Launch) : (modLaunch s id f).msiSent = s.msiSent := rfl
@[simp] theorem modLaunch_hostData (s : State) (id : Nat) (f : Launch → Launch) : (modLaunch s id f).hostData = s.hostData := rfl
@[simp] theorem modLaunch_hostWait (s : State) (id : Nat) (f : Launch → Launch) : (modLaunch s id f).hostWait = s.hostWait := rfl
@[simp] theorem modLaunch_peerReply (s : State) (id : Nat) (f : Launch → Launch) : (modLaunch s id f).peerReply = s.peerReply := rfl
@[simp] theorem modLaunch_datagrams (s : State) (id : Nat) (f : Launch → Launch) : (modLaunch s id f).datagrams = s.datagrams := rfl
@[simp] theorem modLaunch_dgSeq (s : State) (id : Nat) (f : Launch → Launch) : (modLaunch s id f).dgSeq = s.dgSeq := rfl
@[simp] theorem modLaunch_ptp (s : State) (id : Nat) (f : Launch → Launch) : (modLaunch s id f).ptp = s.ptp := rfl
@[simp] theorem modLaunch_parkPosted (s : State) (id : Nat) (f : Launch → Launch) : (modLaunch s id f).parkPosted = s.parkPosted := rfl
@[simp] theorem modLaunch_frames (s : State) (id : Nat) (f : Launch → Launch) : (modLaunch s id f).frames = s.frames := rfl
@[simp] theorem modLaunch_lostPorts (s : State) (id : Nat) (f : Launch → Launch) : (modLaunch s id f).lostPorts = s.lostPorts := rfl
@[simp] theorem modLaunch_badArrays (s : State) (id : Nat) (f : Launch → Launch) : (modLaunch s id f).badArrays = s.badArrays := rfl
@[simp] theorem modLaunch_held (s : State) (id : Nat) (f : Launch → Launch) : (modLaunch s id f).held = s.held := rfl
@[simp] theorem modLaunch_saves (s : State) (id : Nat) (f : Launch → Launch) : (modLaunch s id f).saves = s.saves := rfl

-- modChain

@[simp] theorem modChain_agenda (s : State) (k : Nat) (f : Chain → Chain) : (modChain s k f).agenda = s.agenda := rfl
@[simp] theorem modChain_fresh (s : State) (k : Nat) (f : Chain → Chain) : (modChain s k f).fresh = s.fresh := rfl
@[simp] theorem modChain_focus (s : State) (k : Nat) (f : Chain → Chain) : (modChain s k f).focus = s.focus := rfl
@[simp] theorem modChain_cycle (s : State) (k : Nat) (f : Chain → Chain) : (modChain s k f).cycle = s.cycle := rfl
@[simp] theorem modChain_clock (s : State) (k : Nat) (f : Chain → Chain) : (modChain s k f).clock = s.clock := rfl
@[simp] theorem modChain_mem (s : State) (k : Nat) (f : Chain → Chain) : (modChain s k f).mem = s.mem := rfl
@[simp] theorem modChain_stamps (s : State) (k : Nat) (f : Chain → Chain) : (modChain s k f).stamps = s.stamps := rfl
@[simp] theorem modChain_zeroed (s : State) (k : Nat) (f : Chain → Chain) : (modChain s k f).zeroed = s.zeroed := rfl
@[simp] theorem modChain_sliceLines (s : State) (k : Nat) (f : Chain → Chain) : (modChain s k f).sliceLines = s.sliceLines := rfl
@[simp] theorem modChain_sliceOfLine (s : State) (k : Nat) (f : Chain → Chain) : (modChain s k f).sliceOfLine = s.sliceOfLine := rfl
@[simp] theorem modChain_forgotten (s : State) (k : Nat) (f : Chain → Chain) : (modChain s k f).forgotten = s.forgotten := rfl
@[simp] theorem modChain_tlb (s : State) (k : Nat) (f : Chain → Chain) : (modChain s k f).tlb = s.tlb := rfl
@[simp] theorem modChain_era (s : State) (k : Nat) (f : Chain → Chain) : (modChain s k f).era = s.era := rfl
@[simp] theorem modChain_codeLog (s : State) (k : Nat) (f : Chain → Chain) : (modChain s k f).codeLog = s.codeLog := rfl
@[simp] theorem modChain_poison (s : State) (k : Nat) (f : Chain → Chain) : (modChain s k f).poison = s.poison := rfl
@[simp] theorem modChain_pieceKey (s : State) (k : Nat) (f : Chain → Chain) : (modChain s k f).pieceKey = s.pieceKey := rfl
@[simp] theorem modChain_dirty (s : State) (k : Nat) (f : Chain → Chain) : (modChain s k f).dirty = s.dirty := rfl
@[simp] theorem modChain_older (s : State) (k : Nat) (f : Chain → Chain) : (modChain s k f).older = s.older := rfl
@[simp] theorem modChain_msc (s : State) (k : Nat) (f : Chain → Chain) : (modChain s k f).msc = s.msc := rfl
@[simp] theorem modChain_mscSel (s : State) (k : Nat) (f : Chain → Chain) : (modChain s k f).mscSel = s.mscSel := rfl
@[simp] theorem modChain_mscMiss (s : State) (k : Nat) (f : Chain → Chain) : (modChain s k f).mscMiss = s.mscMiss := rfl
@[simp] theorem modChain_slotsOut (s : State) (k : Nat) (f : Chain → Chain) : (modChain s k f).slotsOut = s.slotsOut := rfl
@[simp] theorem modChain_ringReqs (s : State) (k : Nat) (f : Chain → Chain) : (modChain s k f).ringReqs = s.ringReqs := rfl
@[simp] theorem modChain_rings (s : State) (k : Nat) (f : Chain → Chain) : (modChain s k f).rings = s.rings := rfl
@[simp] theorem modChain_broken (s : State) (k : Nat) (f : Chain → Chain) : (modChain s k f).broken = s.broken := rfl
@[simp] theorem modChain_turns (s : State) (k : Nat) (f : Chain → Chain) : (modChain s k f).turns = s.turns := rfl
@[simp] theorem modChain_dir (s : State) (k : Nat) (f : Chain → Chain) : (modChain s k f).dir = s.dir := rfl
@[simp] theorem modChain_msgs (s : State) (k : Nat) (f : Chain → Chain) : (modChain s k f).msgs = s.msgs := rfl
@[simp] theorem modChain_cores (s : State) (k : Nat) (f : Chain → Chain) : (modChain s k f).cores = s.cores := rfl
@[simp] theorem modChain_teams (s : State) (k : Nat) (f : Chain → Chain) : (modChain s k f).teams = s.teams := rfl
@[simp] theorem modChain_dies (s : State) (k : Nat) (f : Chain → Chain) : (modChain s k f).dies = s.dies := rfl
@[simp] theorem modChain_launches (s : State) (k : Nat) (f : Chain → Chain) : (modChain s k f).launches = s.launches := rfl
@[simp] theorem modChain_timed (s : State) (k : Nat) (f : Chain → Chain) : (modChain s k f).timed = s.timed := rfl
@[simp] theorem modChain_mgmt (s : State) (k : Nat) (f : Chain → Chain) : (modChain s k f).mgmt = s.mgmt := rfl
@[simp] theorem modChain_msiWait (s : State) (k : Nat) (f : Chain → Chain) : (modChain s k f).msiWait = s.msiWait := rfl
@[simp] theorem modChain_msiSent (s : State) (k : Nat) (f : Chain → Chain) : (modChain s k f).msiSent = s.msiSent := rfl
@[simp] theorem modChain_hostData (s : State) (k : Nat) (f : Chain → Chain) : (modChain s k f).hostData = s.hostData := rfl
@[simp] theorem modChain_hostWait (s : State) (k : Nat) (f : Chain → Chain) : (modChain s k f).hostWait = s.hostWait := rfl
@[simp] theorem modChain_peerReply (s : State) (k : Nat) (f : Chain → Chain) : (modChain s k f).peerReply = s.peerReply := rfl
@[simp] theorem modChain_datagrams (s : State) (k : Nat) (f : Chain → Chain) : (modChain s k f).datagrams = s.datagrams := rfl
@[simp] theorem modChain_dgSeq (s : State) (k : Nat) (f : Chain → Chain) : (modChain s k f).dgSeq = s.dgSeq := rfl
@[simp] theorem modChain_ptp (s : State) (k : Nat) (f : Chain → Chain) : (modChain s k f).ptp = s.ptp := rfl
@[simp] theorem modChain_parkPosted (s : State) (k : Nat) (f : Chain → Chain) : (modChain s k f).parkPosted = s.parkPosted := rfl
@[simp] theorem modChain_frames (s : State) (k : Nat) (f : Chain → Chain) : (modChain s k f).frames = s.frames := rfl
@[simp] theorem modChain_lostPorts (s : State) (k : Nat) (f : Chain → Chain) : (modChain s k f).lostPorts = s.lostPorts := rfl
@[simp] theorem modChain_badArrays (s : State) (k : Nat) (f : Chain → Chain) : (modChain s k f).badArrays = s.badArrays := rfl
@[simp] theorem modChain_held (s : State) (k : Nat) (f : Chain → Chain) : (modChain s k f).held = s.held := rfl
@[simp] theorem modChain_saves (s : State) (k : Nat) (f : Chain → Chain) : (modChain s k f).saves = s.saves := rfl

-- modTimed

@[simp] theorem modTimed_agenda (s : State) (j : Nat) (f : Timed → Timed) : (modTimed s j f).agenda = s.agenda := rfl
@[simp] theorem modTimed_fresh (s : State) (j : Nat) (f : Timed → Timed) : (modTimed s j f).fresh = s.fresh := rfl
@[simp] theorem modTimed_focus (s : State) (j : Nat) (f : Timed → Timed) : (modTimed s j f).focus = s.focus := rfl
@[simp] theorem modTimed_cycle (s : State) (j : Nat) (f : Timed → Timed) : (modTimed s j f).cycle = s.cycle := rfl
@[simp] theorem modTimed_clock (s : State) (j : Nat) (f : Timed → Timed) : (modTimed s j f).clock = s.clock := rfl
@[simp] theorem modTimed_mem (s : State) (j : Nat) (f : Timed → Timed) : (modTimed s j f).mem = s.mem := rfl
@[simp] theorem modTimed_stamps (s : State) (j : Nat) (f : Timed → Timed) : (modTimed s j f).stamps = s.stamps := rfl
@[simp] theorem modTimed_zeroed (s : State) (j : Nat) (f : Timed → Timed) : (modTimed s j f).zeroed = s.zeroed := rfl
@[simp] theorem modTimed_sliceLines (s : State) (j : Nat) (f : Timed → Timed) : (modTimed s j f).sliceLines = s.sliceLines := rfl
@[simp] theorem modTimed_sliceOfLine (s : State) (j : Nat) (f : Timed → Timed) : (modTimed s j f).sliceOfLine = s.sliceOfLine := rfl
@[simp] theorem modTimed_forgotten (s : State) (j : Nat) (f : Timed → Timed) : (modTimed s j f).forgotten = s.forgotten := rfl
@[simp] theorem modTimed_tlb (s : State) (j : Nat) (f : Timed → Timed) : (modTimed s j f).tlb = s.tlb := rfl
@[simp] theorem modTimed_era (s : State) (j : Nat) (f : Timed → Timed) : (modTimed s j f).era = s.era := rfl
@[simp] theorem modTimed_codeLog (s : State) (j : Nat) (f : Timed → Timed) : (modTimed s j f).codeLog = s.codeLog := rfl
@[simp] theorem modTimed_poison (s : State) (j : Nat) (f : Timed → Timed) : (modTimed s j f).poison = s.poison := rfl
@[simp] theorem modTimed_pieceKey (s : State) (j : Nat) (f : Timed → Timed) : (modTimed s j f).pieceKey = s.pieceKey := rfl
@[simp] theorem modTimed_dirty (s : State) (j : Nat) (f : Timed → Timed) : (modTimed s j f).dirty = s.dirty := rfl
@[simp] theorem modTimed_older (s : State) (j : Nat) (f : Timed → Timed) : (modTimed s j f).older = s.older := rfl
@[simp] theorem modTimed_msc (s : State) (j : Nat) (f : Timed → Timed) : (modTimed s j f).msc = s.msc := rfl
@[simp] theorem modTimed_mscSel (s : State) (j : Nat) (f : Timed → Timed) : (modTimed s j f).mscSel = s.mscSel := rfl
@[simp] theorem modTimed_mscMiss (s : State) (j : Nat) (f : Timed → Timed) : (modTimed s j f).mscMiss = s.mscMiss := rfl
@[simp] theorem modTimed_slotsOut (s : State) (j : Nat) (f : Timed → Timed) : (modTimed s j f).slotsOut = s.slotsOut := rfl
@[simp] theorem modTimed_ringReqs (s : State) (j : Nat) (f : Timed → Timed) : (modTimed s j f).ringReqs = s.ringReqs := rfl
@[simp] theorem modTimed_rings (s : State) (j : Nat) (f : Timed → Timed) : (modTimed s j f).rings = s.rings := rfl
@[simp] theorem modTimed_broken (s : State) (j : Nat) (f : Timed → Timed) : (modTimed s j f).broken = s.broken := rfl
@[simp] theorem modTimed_turns (s : State) (j : Nat) (f : Timed → Timed) : (modTimed s j f).turns = s.turns := rfl
@[simp] theorem modTimed_dir (s : State) (j : Nat) (f : Timed → Timed) : (modTimed s j f).dir = s.dir := rfl
@[simp] theorem modTimed_msgs (s : State) (j : Nat) (f : Timed → Timed) : (modTimed s j f).msgs = s.msgs := rfl
@[simp] theorem modTimed_cores (s : State) (j : Nat) (f : Timed → Timed) : (modTimed s j f).cores = s.cores := rfl
@[simp] theorem modTimed_teams (s : State) (j : Nat) (f : Timed → Timed) : (modTimed s j f).teams = s.teams := rfl
@[simp] theorem modTimed_dies (s : State) (j : Nat) (f : Timed → Timed) : (modTimed s j f).dies = s.dies := rfl
@[simp] theorem modTimed_launches (s : State) (j : Nat) (f : Timed → Timed) : (modTimed s j f).launches = s.launches := rfl
@[simp] theorem modTimed_chains (s : State) (j : Nat) (f : Timed → Timed) : (modTimed s j f).chains = s.chains := rfl
@[simp] theorem modTimed_mgmt (s : State) (j : Nat) (f : Timed → Timed) : (modTimed s j f).mgmt = s.mgmt := rfl
@[simp] theorem modTimed_msiWait (s : State) (j : Nat) (f : Timed → Timed) : (modTimed s j f).msiWait = s.msiWait := rfl
@[simp] theorem modTimed_msiSent (s : State) (j : Nat) (f : Timed → Timed) : (modTimed s j f).msiSent = s.msiSent := rfl
@[simp] theorem modTimed_hostData (s : State) (j : Nat) (f : Timed → Timed) : (modTimed s j f).hostData = s.hostData := rfl
@[simp] theorem modTimed_hostWait (s : State) (j : Nat) (f : Timed → Timed) : (modTimed s j f).hostWait = s.hostWait := rfl
@[simp] theorem modTimed_peerReply (s : State) (j : Nat) (f : Timed → Timed) : (modTimed s j f).peerReply = s.peerReply := rfl
@[simp] theorem modTimed_datagrams (s : State) (j : Nat) (f : Timed → Timed) : (modTimed s j f).datagrams = s.datagrams := rfl
@[simp] theorem modTimed_dgSeq (s : State) (j : Nat) (f : Timed → Timed) : (modTimed s j f).dgSeq = s.dgSeq := rfl
@[simp] theorem modTimed_ptp (s : State) (j : Nat) (f : Timed → Timed) : (modTimed s j f).ptp = s.ptp := rfl
@[simp] theorem modTimed_parkPosted (s : State) (j : Nat) (f : Timed → Timed) : (modTimed s j f).parkPosted = s.parkPosted := rfl
@[simp] theorem modTimed_frames (s : State) (j : Nat) (f : Timed → Timed) : (modTimed s j f).frames = s.frames := rfl
@[simp] theorem modTimed_lostPorts (s : State) (j : Nat) (f : Timed → Timed) : (modTimed s j f).lostPorts = s.lostPorts := rfl
@[simp] theorem modTimed_badArrays (s : State) (j : Nat) (f : Timed → Timed) : (modTimed s j f).badArrays = s.badArrays := rfl
@[simp] theorem modTimed_held (s : State) (j : Nat) (f : Timed → Timed) : (modTimed s j f).held = s.held := rfl
@[simp] theorem modTimed_saves (s : State) (j : Nat) (f : Timed → Timed) : (modTimed s j f).saves = s.saves := rfl

-- setDir

@[simp] theorem setDir_agenda (s : State) (d : DirEntry) : (setDir s d).agenda = s.agenda := rfl
@[simp] theorem setDir_fresh (s : State) (d : DirEntry) : (setDir s d).fresh = s.fresh := rfl
@[simp] theorem setDir_focus (s : State) (d : DirEntry) : (setDir s d).focus = s.focus := rfl
@[simp] theorem setDir_cycle (s : State) (d : DirEntry) : (setDir s d).cycle = s.cycle := rfl
@[simp] theorem setDir_clock (s : State) (d : DirEntry) : (setDir s d).clock = s.clock := rfl
@[simp] theorem setDir_mem (s : State) (d : DirEntry) : (setDir s d).mem = s.mem := rfl
@[simp] theorem setDir_stamps (s : State) (d : DirEntry) : (setDir s d).stamps = s.stamps := rfl
@[simp] theorem setDir_zeroed (s : State) (d : DirEntry) : (setDir s d).zeroed = s.zeroed := rfl
@[simp] theorem setDir_sliceLines (s : State) (d : DirEntry) : (setDir s d).sliceLines = s.sliceLines := rfl
@[simp] theorem setDir_sliceOfLine (s : State) (d : DirEntry) : (setDir s d).sliceOfLine = s.sliceOfLine := rfl
@[simp] theorem setDir_forgotten (s : State) (d : DirEntry) : (setDir s d).forgotten = s.forgotten := rfl
@[simp] theorem setDir_tlb (s : State) (d : DirEntry) : (setDir s d).tlb = s.tlb := rfl
@[simp] theorem setDir_era (s : State) (d : DirEntry) : (setDir s d).era = s.era := rfl
@[simp] theorem setDir_codeLog (s : State) (d : DirEntry) : (setDir s d).codeLog = s.codeLog := rfl
@[simp] theorem setDir_poison (s : State) (d : DirEntry) : (setDir s d).poison = s.poison := rfl
@[simp] theorem setDir_pieceKey (s : State) (d : DirEntry) : (setDir s d).pieceKey = s.pieceKey := rfl
@[simp] theorem setDir_dirty (s : State) (d : DirEntry) : (setDir s d).dirty = s.dirty := rfl
@[simp] theorem setDir_older (s : State) (d : DirEntry) : (setDir s d).older = s.older := rfl
@[simp] theorem setDir_msc (s : State) (d : DirEntry) : (setDir s d).msc = s.msc := rfl
@[simp] theorem setDir_mscSel (s : State) (d : DirEntry) : (setDir s d).mscSel = s.mscSel := rfl
@[simp] theorem setDir_mscMiss (s : State) (d : DirEntry) : (setDir s d).mscMiss = s.mscMiss := rfl
@[simp] theorem setDir_slotsOut (s : State) (d : DirEntry) : (setDir s d).slotsOut = s.slotsOut := rfl
@[simp] theorem setDir_ringReqs (s : State) (d : DirEntry) : (setDir s d).ringReqs = s.ringReqs := rfl
@[simp] theorem setDir_rings (s : State) (d : DirEntry) : (setDir s d).rings = s.rings := rfl
@[simp] theorem setDir_broken (s : State) (d : DirEntry) : (setDir s d).broken = s.broken := rfl
@[simp] theorem setDir_turns (s : State) (d : DirEntry) : (setDir s d).turns = s.turns := rfl
@[simp] theorem setDir_msgs (s : State) (d : DirEntry) : (setDir s d).msgs = s.msgs := rfl
@[simp] theorem setDir_cores (s : State) (d : DirEntry) : (setDir s d).cores = s.cores := rfl
@[simp] theorem setDir_teams (s : State) (d : DirEntry) : (setDir s d).teams = s.teams := rfl
@[simp] theorem setDir_dies (s : State) (d : DirEntry) : (setDir s d).dies = s.dies := rfl
@[simp] theorem setDir_launches (s : State) (d : DirEntry) : (setDir s d).launches = s.launches := rfl
@[simp] theorem setDir_chains (s : State) (d : DirEntry) : (setDir s d).chains = s.chains := rfl
@[simp] theorem setDir_timed (s : State) (d : DirEntry) : (setDir s d).timed = s.timed := rfl
@[simp] theorem setDir_mgmt (s : State) (d : DirEntry) : (setDir s d).mgmt = s.mgmt := rfl
@[simp] theorem setDir_msiWait (s : State) (d : DirEntry) : (setDir s d).msiWait = s.msiWait := rfl
@[simp] theorem setDir_msiSent (s : State) (d : DirEntry) : (setDir s d).msiSent = s.msiSent := rfl
@[simp] theorem setDir_hostData (s : State) (d : DirEntry) : (setDir s d).hostData = s.hostData := rfl
@[simp] theorem setDir_hostWait (s : State) (d : DirEntry) : (setDir s d).hostWait = s.hostWait := rfl
@[simp] theorem setDir_peerReply (s : State) (d : DirEntry) : (setDir s d).peerReply = s.peerReply := rfl
@[simp] theorem setDir_datagrams (s : State) (d : DirEntry) : (setDir s d).datagrams = s.datagrams := rfl
@[simp] theorem setDir_dgSeq (s : State) (d : DirEntry) : (setDir s d).dgSeq = s.dgSeq := rfl
@[simp] theorem setDir_ptp (s : State) (d : DirEntry) : (setDir s d).ptp = s.ptp := rfl
@[simp] theorem setDir_parkPosted (s : State) (d : DirEntry) : (setDir s d).parkPosted = s.parkPosted := rfl
@[simp] theorem setDir_frames (s : State) (d : DirEntry) : (setDir s d).frames = s.frames := rfl
@[simp] theorem setDir_lostPorts (s : State) (d : DirEntry) : (setDir s d).lostPorts = s.lostPorts := rfl
@[simp] theorem setDir_badArrays (s : State) (d : DirEntry) : (setDir s d).badArrays = s.badArrays := rfl
@[simp] theorem setDir_held (s : State) (d : DirEntry) : (setDir s d).held = s.held := rfl
@[simp] theorem setDir_saves (s : State) (d : DirEntry) : (setDir s d).saves = s.saves := rfl

-- bumpStamp

@[simp] theorem bumpStamp_agenda (s : State) (k : Nat) : (bumpStamp s k).agenda = s.agenda := rfl
@[simp] theorem bumpStamp_fresh (s : State) (k : Nat) : (bumpStamp s k).fresh = s.fresh := rfl
@[simp] theorem bumpStamp_focus (s : State) (k : Nat) : (bumpStamp s k).focus = s.focus := rfl
@[simp] theorem bumpStamp_cycle (s : State) (k : Nat) : (bumpStamp s k).cycle = s.cycle := rfl
@[simp] theorem bumpStamp_clock (s : State) (k : Nat) : (bumpStamp s k).clock = s.clock := rfl
@[simp] theorem bumpStamp_mem (s : State) (k : Nat) : (bumpStamp s k).mem = s.mem := rfl
@[simp] theorem bumpStamp_zeroed (s : State) (k : Nat) : (bumpStamp s k).zeroed = s.zeroed := rfl
@[simp] theorem bumpStamp_sliceLines (s : State) (k : Nat) : (bumpStamp s k).sliceLines = s.sliceLines := rfl
@[simp] theorem bumpStamp_sliceOfLine (s : State) (k : Nat) : (bumpStamp s k).sliceOfLine = s.sliceOfLine := rfl
@[simp] theorem bumpStamp_forgotten (s : State) (k : Nat) : (bumpStamp s k).forgotten = s.forgotten := rfl
@[simp] theorem bumpStamp_tlb (s : State) (k : Nat) : (bumpStamp s k).tlb = s.tlb := rfl
@[simp] theorem bumpStamp_era (s : State) (k : Nat) : (bumpStamp s k).era = s.era := rfl
@[simp] theorem bumpStamp_codeLog (s : State) (k : Nat) : (bumpStamp s k).codeLog = s.codeLog := rfl
@[simp] theorem bumpStamp_poison (s : State) (k : Nat) : (bumpStamp s k).poison = s.poison := rfl
@[simp] theorem bumpStamp_pieceKey (s : State) (k : Nat) : (bumpStamp s k).pieceKey = s.pieceKey := rfl
@[simp] theorem bumpStamp_dirty (s : State) (k : Nat) : (bumpStamp s k).dirty = s.dirty := rfl
@[simp] theorem bumpStamp_older (s : State) (k : Nat) : (bumpStamp s k).older = s.older := rfl
@[simp] theorem bumpStamp_msc (s : State) (k : Nat) : (bumpStamp s k).msc = s.msc := rfl
@[simp] theorem bumpStamp_mscSel (s : State) (k : Nat) : (bumpStamp s k).mscSel = s.mscSel := rfl
@[simp] theorem bumpStamp_mscMiss (s : State) (k : Nat) : (bumpStamp s k).mscMiss = s.mscMiss := rfl
@[simp] theorem bumpStamp_slotsOut (s : State) (k : Nat) : (bumpStamp s k).slotsOut = s.slotsOut := rfl
@[simp] theorem bumpStamp_ringReqs (s : State) (k : Nat) : (bumpStamp s k).ringReqs = s.ringReqs := rfl
@[simp] theorem bumpStamp_rings (s : State) (k : Nat) : (bumpStamp s k).rings = s.rings := rfl
@[simp] theorem bumpStamp_broken (s : State) (k : Nat) : (bumpStamp s k).broken = s.broken := rfl
@[simp] theorem bumpStamp_turns (s : State) (k : Nat) : (bumpStamp s k).turns = s.turns := rfl
@[simp] theorem bumpStamp_dir (s : State) (k : Nat) : (bumpStamp s k).dir = s.dir := rfl
@[simp] theorem bumpStamp_msgs (s : State) (k : Nat) : (bumpStamp s k).msgs = s.msgs := rfl
@[simp] theorem bumpStamp_cores (s : State) (k : Nat) : (bumpStamp s k).cores = s.cores := rfl
@[simp] theorem bumpStamp_teams (s : State) (k : Nat) : (bumpStamp s k).teams = s.teams := rfl
@[simp] theorem bumpStamp_dies (s : State) (k : Nat) : (bumpStamp s k).dies = s.dies := rfl
@[simp] theorem bumpStamp_launches (s : State) (k : Nat) : (bumpStamp s k).launches = s.launches := rfl
@[simp] theorem bumpStamp_chains (s : State) (k : Nat) : (bumpStamp s k).chains = s.chains := rfl
@[simp] theorem bumpStamp_timed (s : State) (k : Nat) : (bumpStamp s k).timed = s.timed := rfl
@[simp] theorem bumpStamp_mgmt (s : State) (k : Nat) : (bumpStamp s k).mgmt = s.mgmt := rfl
@[simp] theorem bumpStamp_msiWait (s : State) (k : Nat) : (bumpStamp s k).msiWait = s.msiWait := rfl
@[simp] theorem bumpStamp_msiSent (s : State) (k : Nat) : (bumpStamp s k).msiSent = s.msiSent := rfl
@[simp] theorem bumpStamp_hostData (s : State) (k : Nat) : (bumpStamp s k).hostData = s.hostData := rfl
@[simp] theorem bumpStamp_hostWait (s : State) (k : Nat) : (bumpStamp s k).hostWait = s.hostWait := rfl
@[simp] theorem bumpStamp_peerReply (s : State) (k : Nat) : (bumpStamp s k).peerReply = s.peerReply := rfl
@[simp] theorem bumpStamp_datagrams (s : State) (k : Nat) : (bumpStamp s k).datagrams = s.datagrams := rfl
@[simp] theorem bumpStamp_dgSeq (s : State) (k : Nat) : (bumpStamp s k).dgSeq = s.dgSeq := rfl
@[simp] theorem bumpStamp_ptp (s : State) (k : Nat) : (bumpStamp s k).ptp = s.ptp := rfl
@[simp] theorem bumpStamp_parkPosted (s : State) (k : Nat) : (bumpStamp s k).parkPosted = s.parkPosted := rfl
@[simp] theorem bumpStamp_frames (s : State) (k : Nat) : (bumpStamp s k).frames = s.frames := rfl
@[simp] theorem bumpStamp_lostPorts (s : State) (k : Nat) : (bumpStamp s k).lostPorts = s.lostPorts := rfl
@[simp] theorem bumpStamp_badArrays (s : State) (k : Nat) : (bumpStamp s k).badArrays = s.badArrays := rfl
@[simp] theorem bumpStamp_held (s : State) (k : Nat) : (bumpStamp s k).held = s.held := rfl
@[simp] theorem bumpStamp_saves (s : State) (k : Nat) : (bumpStamp s k).saves = s.saves := rfl

-- Lane.setReg

@[simp] theorem Lane.setReg_st (l : Lane) (n : Nat) (v : Word) : (l.setReg n v).st = l.st := rfl
@[simp] theorem Lane.setReg_pc (l : Lane) (n : Nat) (v : Word) : (l.setReg n v).pc = l.pc := rfl
@[simp] theorem Lane.setReg_lid (l : Lane) (n : Nat) (v : Word) : (l.setReg n v).lid = l.lid := rfl
@[simp] theorem Lane.setReg_qid (l : Lane) (n : Nat) (v : Word) : (l.setReg n v).qid = l.qid := rfl
@[simp] theorem Lane.setReg_gid (l : Lane) (n : Nat) (v : Word) : (l.setReg n v).gid = l.gid := rfl
@[simp] theorem Lane.setReg_helper (l : Lane) (n : Nat) (v : Word) : (l.setReg n v).helper = l.helper := rfl
@[simp] theorem Lane.setReg_since (l : Lane) (n : Nat) (v : Word) : (l.setReg n v).since = l.since := rfl
@[simp] theorem Lane.setReg_preds (l : Lane) (n : Nat) (v : Word) : (l.setReg n v).preds = l.preds := rfl
@[simp] theorem Lane.setReg_fst (l : Lane) (n : Nat) (v : Word) : (l.setReg n v).fst = l.fst := rfl
@[simp] theorem Lane.setReg_lastIssue (l : Lane) (n : Nat) (v : Word) : (l.setReg n v).lastIssue = l.lastIssue := rfl
@[simp] theorem Lane.setReg_demotedUntil (l : Lane) (n : Nat) (v : Word) : (l.setReg n v).demotedUntil = l.demotedUntil := rfl
@[simp] theorem Lane.setReg_wdog (l : Lane) (n : Nat) (v : Word) : (l.setReg n v).wdog = l.wdog := rfl
@[simp] theorem Lane.setReg_deadline (l : Lane) (n : Nat) (v : Word) : (l.setReg n v).deadline = l.deadline := rfl
@[simp] theorem Lane.setReg_pos (l : Lane) (n : Nat) (v : Word) : (l.setReg n v).pos = l.pos := rfl
@[simp] theorem Lane.setReg_pre (l : Lane) (n : Nat) (v : Word) : (l.setReg n v).pre = l.pre := rfl
@[simp] theorem Lane.setReg_claims (l : Lane) (n : Nat) (v : Word) : (l.setReg n v).claims = l.claims := rfl
@[simp] theorem Lane.setReg_slots (l : Lane) (n : Nat) (v : Word) : (l.setReg n v).slots = l.slots := rfl
@[simp] theorem Lane.setReg_seen (l : Lane) (n : Nat) (v : Word) : (l.setReg n v).seen = l.seen := rfl
@[simp] theorem Lane.setReg_waitInsn (l : Lane) (n : Nat) (v : Word) : (l.setReg n v).waitInsn = l.waitInsn := rfl
@[simp] theorem Lane.setReg_granted (l : Lane) (n : Nat) (v : Word) : (l.setReg n v).granted = l.granted := rfl
@[simp] theorem Lane.setReg_filled (l : Lane) (n : Nat) (v : Word) : (l.setReg n v).filled = l.filled := rfl
@[simp] theorem Lane.setReg_queue (l : Lane) (n : Nat) (v : Word) : (l.setReg n v).queue = l.queue := rfl
@[simp] theorem Lane.setReg_fready (l : Lane) (n : Nat) (v : Word) : (l.setReg n v).fready = l.fready := rfl
@[simp] theorem Lane.setReg_epc (l : Lane) (n : Nat) (v : Word) : (l.setReg n v).epc = l.epc := rfl
@[simp] theorem Lane.setReg_eslot (l : Lane) (n : Nat) (v : Word) : (l.setReg n v).eslot = l.eslot := rfl
@[simp] theorem Lane.setReg_handler (l : Lane) (n : Nat) (v : Word) : (l.setReg n v).handler = l.handler := rfl
@[simp] theorem Lane.setReg_resume (l : Lane) (n : Nat) (v : Word) : (l.setReg n v).resume = l.resume := rfl
@[simp] theorem Lane.setReg_win (l : Lane) (n : Nat) (v : Word) : (l.setReg n v).win = l.win := rfl
@[simp] theorem Lane.setReg_code (l : Lane) (n : Nat) (v : Word) : (l.setReg n v).code = l.code := rfl
@[simp] theorem Lane.setReg_late (l : Lane) (n : Nat) (v : Word) : (l.setReg n v).late = l.late := rfl
@[simp] theorem Lane.setReg_shadow (l : Lane) (n : Nat) (v : Word) : (l.setReg n v).shadow = l.shadow := rfl
@[simp] theorem Lane.setReg_deferred (l : Lane) (n : Nat) (v : Word) : (l.setReg n v).deferred = l.deferred := rfl

-- Lane.setPred

@[simp] theorem Lane.setPred_st (l : Lane) (n : Nat) (b : Bool) : (l.setPred n b).st = l.st := rfl
@[simp] theorem Lane.setPred_pc (l : Lane) (n : Nat) (b : Bool) : (l.setPred n b).pc = l.pc := rfl
@[simp] theorem Lane.setPred_lid (l : Lane) (n : Nat) (b : Bool) : (l.setPred n b).lid = l.lid := rfl
@[simp] theorem Lane.setPred_qid (l : Lane) (n : Nat) (b : Bool) : (l.setPred n b).qid = l.qid := rfl
@[simp] theorem Lane.setPred_gid (l : Lane) (n : Nat) (b : Bool) : (l.setPred n b).gid = l.gid := rfl
@[simp] theorem Lane.setPred_helper (l : Lane) (n : Nat) (b : Bool) : (l.setPred n b).helper = l.helper := rfl
@[simp] theorem Lane.setPred_since (l : Lane) (n : Nat) (b : Bool) : (l.setPred n b).since = l.since := rfl
@[simp] theorem Lane.setPred_regs (l : Lane) (n : Nat) (b : Bool) : (l.setPred n b).regs = l.regs := rfl
@[simp] theorem Lane.setPred_fst (l : Lane) (n : Nat) (b : Bool) : (l.setPred n b).fst = l.fst := rfl
@[simp] theorem Lane.setPred_lastIssue (l : Lane) (n : Nat) (b : Bool) : (l.setPred n b).lastIssue = l.lastIssue := rfl
@[simp] theorem Lane.setPred_demotedUntil (l : Lane) (n : Nat) (b : Bool) : (l.setPred n b).demotedUntil = l.demotedUntil := rfl
@[simp] theorem Lane.setPred_wdog (l : Lane) (n : Nat) (b : Bool) : (l.setPred n b).wdog = l.wdog := rfl
@[simp] theorem Lane.setPred_deadline (l : Lane) (n : Nat) (b : Bool) : (l.setPred n b).deadline = l.deadline := rfl
@[simp] theorem Lane.setPred_pos (l : Lane) (n : Nat) (b : Bool) : (l.setPred n b).pos = l.pos := rfl
@[simp] theorem Lane.setPred_pre (l : Lane) (n : Nat) (b : Bool) : (l.setPred n b).pre = l.pre := rfl
@[simp] theorem Lane.setPred_claims (l : Lane) (n : Nat) (b : Bool) : (l.setPred n b).claims = l.claims := rfl
@[simp] theorem Lane.setPred_slots (l : Lane) (n : Nat) (b : Bool) : (l.setPred n b).slots = l.slots := rfl
@[simp] theorem Lane.setPred_seen (l : Lane) (n : Nat) (b : Bool) : (l.setPred n b).seen = l.seen := rfl
@[simp] theorem Lane.setPred_waitInsn (l : Lane) (n : Nat) (b : Bool) : (l.setPred n b).waitInsn = l.waitInsn := rfl
@[simp] theorem Lane.setPred_granted (l : Lane) (n : Nat) (b : Bool) : (l.setPred n b).granted = l.granted := rfl
@[simp] theorem Lane.setPred_filled (l : Lane) (n : Nat) (b : Bool) : (l.setPred n b).filled = l.filled := rfl
@[simp] theorem Lane.setPred_queue (l : Lane) (n : Nat) (b : Bool) : (l.setPred n b).queue = l.queue := rfl
@[simp] theorem Lane.setPred_fready (l : Lane) (n : Nat) (b : Bool) : (l.setPred n b).fready = l.fready := rfl
@[simp] theorem Lane.setPred_epc (l : Lane) (n : Nat) (b : Bool) : (l.setPred n b).epc = l.epc := rfl
@[simp] theorem Lane.setPred_eslot (l : Lane) (n : Nat) (b : Bool) : (l.setPred n b).eslot = l.eslot := rfl
@[simp] theorem Lane.setPred_handler (l : Lane) (n : Nat) (b : Bool) : (l.setPred n b).handler = l.handler := rfl
@[simp] theorem Lane.setPred_resume (l : Lane) (n : Nat) (b : Bool) : (l.setPred n b).resume = l.resume := rfl
@[simp] theorem Lane.setPred_win (l : Lane) (n : Nat) (b : Bool) : (l.setPred n b).win = l.win := rfl
@[simp] theorem Lane.setPred_code (l : Lane) (n : Nat) (b : Bool) : (l.setPred n b).code = l.code := rfl
@[simp] theorem Lane.setPred_late (l : Lane) (n : Nat) (b : Bool) : (l.setPred n b).late = l.late := rfl
@[simp] theorem Lane.setPred_shadow (l : Lane) (n : Nat) (b : Bool) : (l.setPred n b).shadow = l.shadow := rfl
@[simp] theorem Lane.setPred_deferred (l : Lane) (n : Nat) (b : Bool) : (l.setPred n b).deferred = l.deferred := rfl

-- Lane.push

@[simp] theorem Lane.push_st (l : Lane) (ops : List LaneOp) : (l.push ops).st = l.st := rfl
@[simp] theorem Lane.push_pc (l : Lane) (ops : List LaneOp) : (l.push ops).pc = l.pc := rfl
@[simp] theorem Lane.push_lid (l : Lane) (ops : List LaneOp) : (l.push ops).lid = l.lid := rfl
@[simp] theorem Lane.push_qid (l : Lane) (ops : List LaneOp) : (l.push ops).qid = l.qid := rfl
@[simp] theorem Lane.push_gid (l : Lane) (ops : List LaneOp) : (l.push ops).gid = l.gid := rfl
@[simp] theorem Lane.push_helper (l : Lane) (ops : List LaneOp) : (l.push ops).helper = l.helper := rfl
@[simp] theorem Lane.push_since (l : Lane) (ops : List LaneOp) : (l.push ops).since = l.since := rfl
@[simp] theorem Lane.push_regs (l : Lane) (ops : List LaneOp) : (l.push ops).regs = l.regs := rfl
@[simp] theorem Lane.push_preds (l : Lane) (ops : List LaneOp) : (l.push ops).preds = l.preds := rfl
@[simp] theorem Lane.push_fst (l : Lane) (ops : List LaneOp) : (l.push ops).fst = l.fst := rfl
@[simp] theorem Lane.push_lastIssue (l : Lane) (ops : List LaneOp) : (l.push ops).lastIssue = l.lastIssue := rfl
@[simp] theorem Lane.push_demotedUntil (l : Lane) (ops : List LaneOp) : (l.push ops).demotedUntil = l.demotedUntil := rfl
@[simp] theorem Lane.push_wdog (l : Lane) (ops : List LaneOp) : (l.push ops).wdog = l.wdog := rfl
@[simp] theorem Lane.push_deadline (l : Lane) (ops : List LaneOp) : (l.push ops).deadline = l.deadline := rfl
@[simp] theorem Lane.push_pos (l : Lane) (ops : List LaneOp) : (l.push ops).pos = l.pos := rfl
@[simp] theorem Lane.push_pre (l : Lane) (ops : List LaneOp) : (l.push ops).pre = l.pre := rfl
@[simp] theorem Lane.push_claims (l : Lane) (ops : List LaneOp) : (l.push ops).claims = l.claims := rfl
@[simp] theorem Lane.push_slots (l : Lane) (ops : List LaneOp) : (l.push ops).slots = l.slots := rfl
@[simp] theorem Lane.push_seen (l : Lane) (ops : List LaneOp) : (l.push ops).seen = l.seen := rfl
@[simp] theorem Lane.push_waitInsn (l : Lane) (ops : List LaneOp) : (l.push ops).waitInsn = l.waitInsn := rfl
@[simp] theorem Lane.push_granted (l : Lane) (ops : List LaneOp) : (l.push ops).granted = l.granted := rfl
@[simp] theorem Lane.push_filled (l : Lane) (ops : List LaneOp) : (l.push ops).filled = l.filled := rfl
@[simp] theorem Lane.push_fready (l : Lane) (ops : List LaneOp) : (l.push ops).fready = l.fready := rfl
@[simp] theorem Lane.push_epc (l : Lane) (ops : List LaneOp) : (l.push ops).epc = l.epc := rfl
@[simp] theorem Lane.push_eslot (l : Lane) (ops : List LaneOp) : (l.push ops).eslot = l.eslot := rfl
@[simp] theorem Lane.push_handler (l : Lane) (ops : List LaneOp) : (l.push ops).handler = l.handler := rfl
@[simp] theorem Lane.push_resume (l : Lane) (ops : List LaneOp) : (l.push ops).resume = l.resume := rfl
@[simp] theorem Lane.push_win (l : Lane) (ops : List LaneOp) : (l.push ops).win = l.win := rfl
@[simp] theorem Lane.push_code (l : Lane) (ops : List LaneOp) : (l.push ops).code = l.code := rfl
@[simp] theorem Lane.push_late (l : Lane) (ops : List LaneOp) : (l.push ops).late = l.late := rfl
@[simp] theorem Lane.push_shadow (l : Lane) (ops : List LaneOp) : (l.push ops).shadow = l.shadow := rfl
@[simp] theorem Lane.push_deferred (l : Lane) (ops : List LaneOp) : (l.push ops).deferred = l.deferred := rfl

-- Gang.setReady

@[simp] theorem Gang.setReady_lanes (g : Gang) (ks : List (Nat × Nat)) (t : Nat) : (g.setReady ks t).lanes = g.lanes := rfl
@[simp] theorem Gang.setReady_phase (g : Gang) (ks : List (Nat × Nat)) (t : Nat) : (g.setReady ks t).phase = g.phase := rfl
@[simp] theorem Gang.setReady_cregs (g : Gang) (ks : List (Nat × Nat)) (t : Nat) : (g.setReady ks t).cregs = g.cregs := rfl
@[simp] theorem Gang.setReady_flags (g : Gang) (ks : List (Nat × Nat)) (t : Nat) : (g.setReady ks t).flags = g.flags := rfl
@[simp] theorem Gang.setReady_chunks (g : Gang) (ks : List (Nat × Nat)) (t : Nat) : (g.setReady ks t).chunks = g.chunks := rfl
@[simp] theorem Gang.setReady_ports (g : Gang) (ks : List (Nat × Nat)) (t : Nat) : (g.setReady ks t).ports = g.ports := rfl
@[simp] theorem Gang.setReady_retired (g : Gang) (ks : List (Nat × Nat)) (t : Nat) : (g.setReady ks t).retired = g.retired := rfl
@[simp] theorem Gang.setReady_admitted (g : Gang) (ks : List (Nat × Nat)) (t : Nat) : (g.setReady ks t).admitted = g.admitted := rfl
@[simp] theorem Gang.setReady_ops (g : Gang) (ks : List (Nat × Nat)) (t : Nat) : (g.setReady ks t).ops = g.ops := rfl
@[simp] theorem Gang.setReady_parked (g : Gang) (ks : List (Nat × Nat)) (t : Nat) : (g.setReady ks t).parked = g.parked := rfl
@[simp] theorem Gang.setReady_parts (g : Gang) (ks : List (Nat × Nat)) (t : Nat) : (g.setReady ks t).parts = g.parts := rfl
@[simp] theorem Gang.setReady_ecause (g : Gang) (ks : List (Nat × Nat)) (t : Nat) : (g.setReady ks t).ecause = g.ecause := rfl
@[simp] theorem Gang.setReady_einfo (g : Gang) (ks : List (Nat × Nat)) (t : Nat) : (g.setReady ks t).einfo = g.einfo := rfl
@[simp] theorem Gang.setReady_eaddr (g : Gang) (ks : List (Nat × Nat)) (t : Nat) : (g.setReady ks t).eaddr = g.eaddr := rfl
@[simp] theorem Gang.setReady_einsn (g : Gang) (ks : List (Nat × Nat)) (t : Nat) : (g.setReady ks t).einsn = g.einsn := rfl
@[simp] theorem Gang.setReady_elane (g : Gang) (ks : List (Nat × Nat)) (t : Nat) : (g.setReady ks t).elane = g.elane := rfl
@[simp] theorem Gang.setReady_espos (g : Gang) (ks : List (Nat × Nat)) (t : Nat) : (g.setReady ks t).espos = g.espos := rfl

end Sys2Proof.Machine
end

