-- ==== Sys2Proof/Laws/Find.lean ====
section
/-! SUPPORT. Finding a team, a gang, a lane or a bay after an update: at the place updated it is the updated one, elsewhere it is
as before. -/

namespace Sys2Proof.Machine

theorem find_modWhere {α : Type} (p q : α → Bool) (f : α → α) (l : List α) (h : ∀ x, q (f x) = q x) :
    (modWhere p f l).find? q = (l.find? q).map (fun x => if p x then f x else x) := by
  induction l with
  | nil => rfl
  | cons a t ih =>
    simp only [modWhere, List.map_cons, List.find?_cons] at ih ⊢
    have hq : q (if p a then f a else a) = q a := by split <;> simp [h]
    rw [hq]
    cases hqa : q a
    · simpa using ih
    · simp

/-- The team updated. -/
theorem findTeam_modTeam (s : State) (uid : Nat) (f : Team → Team) (hf : ∀ t, (f t).uid = t.uid) :
    findTeam (modTeam s uid f) uid = (findTeam s uid).map f := by
  unfold findTeam modTeam
  rw [find_modWhere _ _ _ _ (fun x => by simp [hf])]
  cases h : s.teams.find? (fun t => t.uid == uid) with
  | none => rfl
  | some t =>
    have : t.uid = uid := by simpa using List.find?_some h
    simp [this]

/-- Another team. -/
theorem findTeam_modTeam_ne (s : State) {uid u : Nat} (f : Team → Team) (hf : ∀ t, (f t).uid = t.uid) (h : u ≠ uid) :
    findTeam (modTeam s uid f) u = findTeam s u := by
  unfold findTeam modTeam
  rw [find_modWhere _ _ _ _ (fun x => by simp [hf])]
  cases hx : s.teams.find? (fun t => t.uid == u) with
  | none => rfl
  | some t =>
    have ht : t.uid = u := by simpa using List.find?_some hx
    simp [ht, h]

theorem findGang_modGang (s : State) (uid g : Nat) (f : Gang → Gang) :
    findGang (modGang s uid g f) uid g = (findGang s uid g).map f := by
  unfold findGang modGang
  rw [findTeam_modTeam _ _ _ (by intro; rfl)]
  cases findTeam s uid with
  | none => rfl
  | some t => simp [List.getElem?_modify]

theorem findGang_modGang_ne (s : State) {uid g u k : Nat} (f : Gang → Gang) (h : u ≠ uid ∨ k ≠ g) :
    findGang (modGang s uid g f) u k = findGang s u k := by
  unfold findGang modGang
  by_cases hu : u = uid
  · subst hu
    have hk : k ≠ g := by simpa using h
    rw [findTeam_modTeam _ _ _ (by intro; rfl)]
    cases findTeam s u with
    | none => rfl
    | some t =>
      have hg : ¬ g = k := fun e => hk e.symm
      simp only [Option.map_some, Option.bind_some, List.getElem?_modify, hg, if_false, id_map']
  · rw [findTeam_modTeam_ne _ _ (by intro; rfl) hu]

theorem findTeam_modGang_ne (s : State) {uid u : Nat} (g : Nat) (f : Gang → Gang) (h : u ≠ uid) :
    findTeam (modGang s uid g f) u = findTeam s u := findTeam_modTeam_ne _ _ (by intro; rfl) h

theorem findLane_modLane (s : State) (uid g i : Nat) (f : Lane → Lane) :
    findLane (modLane s uid g i f) uid g i = (findLane s uid g i).map f := by
  unfold findLane modLane
  rw [findGang_modGang]
  cases findGang s uid g with
  | none => rfl
  | some x => simp [List.getElem?_modify]

theorem findLane_modLane_ne (s : State) {uid g i u k j : Nat} (f : Lane → Lane) (h : u ≠ uid ∨ k ≠ g ∨ j ≠ i) :
    findLane (modLane s uid g i f) u k j = findLane s u k j := by
  unfold findLane modLane
  by_cases hu : u = uid ∧ k = g
  · obtain ⟨rfl, rfl⟩ := hu
    have hj : j ≠ i := by simpa using h
    rw [findGang_modGang]
    cases findGang s u k with
    | none => rfl
    | some x =>
      have hi : ¬ i = j := fun e => hj e.symm
      simp only [Option.map_some, Option.bind_some, List.getElem?_modify, hi, if_false, id_map']
  · rw [findGang_modGang_ne _ _ (by omega)]

@[simp] theorem findTeam_passTo (s : State) (t u : Nat) : findTeam (passTo s t) u = findTeam s u := rfl
@[simp] theorem findTeam_passed (v : View) (s : State) (u : Nat) : findTeam (v.passed s) u = findTeam s u := rfl
@[simp] theorem findTeam_modCore (s : State) (n u : Nat) (f : Core → Core) : findTeam (modCore s n f) u = findTeam s u := rfl
@[simp] theorem findTeam_modBay (s : State) (c b u : Nat) (f : Bay → Bay) : findTeam (modBay s c b f) u = findTeam s u := rfl
@[simp] theorem findGang_passTo (s : State) (t u g : Nat) : findGang (passTo s t) u g = findGang s u g := rfl
@[simp] theorem findGang_passed (v : View) (s : State) (u g : Nat) : findGang (v.passed s) u g = findGang s u g := rfl
@[simp] theorem findGang_modCore (s : State) (n u g : Nat) (f : Core → Core) : findGang (modCore s n f) u g = findGang s u g := rfl
@[simp] theorem findGang_modBay (s : State) (c b u g : Nat) (f : Bay → Bay) : findGang (modBay s c b f) u g = findGang s u g := rfl

theorem coreOf_modCore (s : State) (n : Nat) (f : Core → Core) (h : n < s.cores.length) :
    coreOf (modCore s n f) n = f (coreOf s n) := by
  simp [coreOf, modCore, List.getD_eq_getElem?_getD, h]

theorem coreOf_modCore_ne (s : State) {n m : Nat} (f : Core → Core) (h : m ≠ n) : coreOf (modCore s n f) m = coreOf s m := by
  have hn : ¬ n = m := fun e => h e.symm
  simp only [coreOf, modCore, List.getD_eq_getElem?_getD, List.getElem?_modify, hn, if_false, id_map']

/-- A bay that issues a clause is one of the machine's. -/
theorem bay_exists {s : State} {c b : Nat} {x : Issue} (h : (bayOf s c b).issue = some x) :
    c < s.cores.length ∧ b < (coreOf s c).bays.length := by
  constructor
  · refine Nat.lt_of_not_le (fun hc => ?_)
    have : coreOf s c = Core.reset := by simp [coreOf, List.getD_eq_getElem?_getD, List.getElem?_eq_none hc]
    rw [bayOf, this] at h
    match b with
    | 0 | 1 | 2 | 3 => simp [Core.reset, Bay.idle] at h
    | n + 4 => simp [Core.reset, Bay.idle, List.getD_eq_getElem?_getD] at h
  · refine Nat.lt_of_not_le (fun hb => ?_)
    rw [bayOf, List.getD_eq_getElem?_getD, List.getElem?_eq_none hb] at h
    simp [Bay.idle] at h

theorem bayOf_modBay (s : State) (c b : Nat) (f : Bay → Bay) (hc : c < s.cores.length) (hb : b < (coreOf s c).bays.length) :
    bayOf (modBay s c b f) c b = f (bayOf s c b) := by
  unfold bayOf modBay
  rw [coreOf_modCore _ _ _ hc]
  simp [List.getD_eq_getElem?_getD, hb]

end Sys2Proof.Machine
end

