-- ==== Sys2Proof/Laws/Memory.lean ====
section
/-! SUPPORT. Every operation that writes memory keeps its canonical form; what reading one byte after a write gives; a write at a
home changes nothing of the teams and cores. -/

namespace Sys2Proof.Machine

theorem reset_memory_wf : Memory.wf State.reset.mem = true := rfl

theorem putBytes_wf (m : Tab Byte) (k : Nat) (bs : List Byte) (h : Memory.wf m = true) : Memory.wf (putBytes m k bs) = true := by
  induction bs generalizing m k with
  | nil => exact h
  | cons b t ih => exact ih _ _ (twf_tput _ _ _ _ h)

/-- A byte read after bytes were put from a key on. -/
theorem tget_putBytes (m : Tab Byte) (k j : Nat) (bs : List Byte) :
    tget memDefault (putBytes m k bs) j = if k ≤ j ∧ j < k + bs.length then bs.getD (j - k) 0 else tget memDefault m j := by
  induction bs generalizing m k with
  | nil =>
    have : ¬ (k ≤ j ∧ j < k + ([] : List Byte).length) := fun h => by simp at h; omega
    rw [if_neg this]; rfl
  | cons b t ih =>
    rw [putBytes, ih]
    by_cases h1 : j = k
    · subst h1
      rw [if_neg (by omega), if_pos (by simp), tget_tput_same]; simp
    · by_cases h2 : k + 1 ≤ j ∧ j < k + 1 + t.length
      · rw [if_pos h2, if_pos (by simp; omega)]
        obtain ⟨n, rfl⟩ : ∃ n, j = k + 1 + n := ⟨j - k - 1, by omega⟩
        have e : k + 1 + n - k = n + 1 := by omega
        have e' : k + 1 + n - (k + 1) = n := by omega
        rw [e, e']; rfl
      · rw [if_neg h2, if_neg (by simp; omega), tget_tput_ne _ _ _ h1]

/-- What an access may change besides what it is for: memory, and what the slices, the memory-side cache and HBM keep of lines. -/
def Lines (s t : State) : Prop :=
  ∃ mem st sl so tl cl fo po pk di ol ms se mi fr,
    t = { s with mem := mem, stamps := st, sliceLines := sl, sliceOfLine := so, tlb := tl, codeLog := cl, forgotten := fo, poison := po, pieceKey := pk, dirty := di,
                 older := ol, msc := ms, mscSel := se, mscMiss := mi, fresh := fr } ∧ s.fresh ≤ fr ∧
    (Memory.wf s.mem = true → Memory.wf mem = true) ∧ (Settled s → Settled t)

theorem Lines.refl (s : State) : Lines s s := ⟨_, _, _, _, _, _, _, _, _, _, _, _, _, _, _, rfl, Nat.le_refl _, id, id⟩

theorem Lines.trans {s t u : State} (h : Lines s t) (k : Lines t u) : Lines s u := by
  obtain ⟨_, _, _, _, _, _, _, _, _, _, _, _, _, _, _, rfl, hf, hw, hs⟩ := h
  obtain ⟨_, _, _, _, _, _, _, _, _, _, _, _, _, _, _, rfl, kf, kw, ks⟩ := k
  exact ⟨_, _, _, _, _, _, _, _, _, _, _, _, _, _, _, rfl, Nat.le_trans hf kf, fun h => kw (hw h), fun h => ks (hs h)⟩

theorem Lines.foldl {β : Type} (l : List β) (f : State → β → State) (hf : ∀ s b, Lines s (f s b)) (s : State) : Lines s (l.foldl f s) := by
  induction l generalizing s with
  | nil => exact .refl _
  | cons b t ih => exact (hf s b).trans (ih _)

theorem Lines.wf {s t : State} (h : Lines s t) (hw : Memory.wf s.mem = true) : Memory.wf t.mem = true := by
  obtain ⟨_, _, _, _, _, _, _, _, _, _, _, _, _, _, _, rfl, -, h, -⟩ := h; exact h hw
theorem Lines.settled {s t : State} (h : Lines s t) (hs : Settled s) : Settled t := by
  obtain ⟨_, _, _, _, _, _, _, _, _, _, _, _, _, _, _, rfl, -, -, h⟩ := h; exact h hs
theorem Lines.fresh {s t : State} (h : Lines s t) : s.fresh ≤ t.fresh := by
  obtain ⟨_, _, _, _, _, _, _, _, _, _, _, _, _, _, _, rfl, h, -, -⟩ := h; exact h

/-- Everything that an instruction sees of teams, cores, messages and launches stays. -/
theorem Lines.rest {s t : State} (h : Lines s t) : t.teams = s.teams ∧ t.cores = s.cores ∧ t.dies = s.dies ∧ t.dir = s.dir ∧
    t.msgs = s.msgs ∧ t.launches = s.launches ∧ t.chains = s.chains ∧ t.mgmt = s.mgmt := by
  obtain ⟨_, _, _, _, _, _, _, _, _, _, _, _, _, _, _, rfl, -⟩ := h; exact ⟨rfl, rfl, rfl, rfl, rfl, rfl, rfl, rfl⟩

/-- Bringing lines into slices and out of them, which leaves memory as it is read where every line is settled. -/
def Cached (s t : State) : Prop := Lines s t ∧ (Settled s → t.mem = s.mem)

theorem Cached.refl (s : State) : Cached s s := ⟨.refl _, fun _ => rfl⟩
theorem Cached.trans {s t u : State} (h : Cached s t) (k : Cached t u) : Cached s u :=
  ⟨h.1.trans k.1, fun hs => (k.2 (h.1.settled hs)).trans (h.2 hs)⟩

theorem Cached.foldl {β : Type} (l : List β) (f : State → β → State) (hf : ∀ s b, Cached s (f s b)) (s : State) : Cached s (l.foldl f s) := by
  induction l generalizing s with
  | nil => exact .refl _
  | cons b t ih => exact (hf s b).trans (ih _)

theorem settleLine_cached (s : State) (n : Nat) : Cached s (settleLine s n) := by
  unfold settleLine
  split
  · exact .refl _
  · split
    · unfold writeBackLine
      split
      · exact .refl _
      · refine ⟨⟨_, _, _, _, _, _, _, _, _, _, _, _, _, _, _, rfl, Nat.le_refl _, id, fun h k hk => ?_⟩, fun _ => rfl⟩
        simp only [tget_tput] at hk ⊢
        split
        · rfl
        · next hne => exact h k (by simpa [hne] using hk)
    · next hd =>
      split
      · exact .refl _
      · next bs hne =>
        have hno : ¬ Settled s := fun h => hne (h n (by simpa using hd))
        exact ⟨⟨_, _, _, _, _, _, _, _, _, _, _, _, _, _, _, rfl, Nat.le_refl _, putBytes_wf _ _ _, fun h => absurd h hno⟩, fun h => absurd h hno⟩

theorem mscAccess_cached (s : State) (c k : Nat) : Cached s (mscAccess s c k) := by
  have h1 : ∀ (t : State) m, Cached t { t with msc := m } := fun t m =>
    ⟨⟨_, _, _, _, _, _, _, _, _, _, _, _, _, _, _, rfl, Nat.le_refl _, id, id⟩, fun _ => rfl⟩
  have h2 : ∀ n, Cached s (mscSample s c n) := fun n =>
    ⟨⟨_, _, _, _, _, _, _, _, _, _, _, _, _, _, _, rfl, Nat.le_refl _, id, id⟩, fun _ => rfl⟩
  unfold mscAccess
  dsimp only
  split
  · exact h1 _ _
  · exact (h2 _).trans ((h1 _ _).trans (Cached.foldl _ _ (fun s (w : Nat × Nat) => settleLine_cached s w.2) _))

theorem leaveSlice_cached (s : State) (n : Nat) : Cached s (leaveSlice s n) := by
  have h : ∀ (t : State) x y, Cached t { t with sliceLines := x, forgotten := y } := fun t x y =>
    ⟨⟨_, _, _, _, _, _, _, _, _, _, _, _, _, _, _, rfl, Nat.le_refl _, id, id⟩, fun _ => rfl⟩
  unfold leaveSlice
  dsimp only
  split
  · exact (h s _ _).trans (settleLine_cached _ _)
  · exact (h s _ _).trans (mscAccess_cached _ _ _)

theorem makeRoom_cached (s : State) (n : Nat) : Cached s (makeRoom s n) := by
  unfold makeRoom
  dsimp only
  split
  · exact .refl _
  · split
    · exact leaveSlice_cached _ _
    · exact .refl _

theorem fillSlice_cached (s : State) (c : Nat) (loc : Loc) : Cached s (fillSlice s c loc) := by
  unfold fillSlice
  dsimp only
  split
  · exact ((mscAccess_cached s c loc.key).trans (makeRoom_cached _ loc.slice)).trans
      ⟨⟨_, _, _, _, _, _, _, _, _, _, _, _, _, _, _, rfl, Nat.le_succ _, id, id⟩, fun _ => rfl⟩
  · exact .refl _

theorem touchLine_cached (s : State) (c : Nat) (loc : Loc) : Cached s (touchLine s c loc) := by
  unfold touchLine
  dsimp only
  split
  · exact .refl _
  · exact fillSlice_cached _ _ _

theorem dirtyLine_cached (s : State) (c : Nat) (loc : Loc) : Cached s (dirtyLine s c loc) := by
  unfold dirtyLine
  dsimp only
  split
  · exact .refl _
  · generalize hu : ({ s with poison := _ } : State) = u
    have h0 : Cached s u := by
      subst hu
      exact ⟨⟨_, _, _, _, _, _, _, _, _, _, _, _, _, _, _, rfl, Nat.le_refl _, id, id⟩, fun _ => rfl⟩
    refine h0.trans ((fillSlice_cached u c _).trans ⟨⟨_, _, _, _, _, _, _, _, _, _, _, _, _, _, _, rfl, Nat.le_refl _, id, ?_⟩, fun _ => rfl⟩)
    intro h k hk
    simp only [tget_tput] at hk
    by_cases hkb : k = lineAddr loc.key / 128
    · simp [hkb] at hk
    · simp only [hkb, if_false] at hk
      show tget [] (if _ then _ else _) k = []
      split
      · rw [tget_tput_ne _ _ _ hkb]; exact h k hk
      · exact h k hk

theorem touchLine_mem (s : State) (c : Nat) (loc : Loc) (h : Settled s) : (touchLine s c loc).mem = s.mem :=
  (touchLine_cached s c loc).2 h

/-- Noting a write of code changes the log of such writes, and nothing else. -/
theorem noteCode_cached (s : State) (loc : Loc) (bytes : List (Nat × Byte)) (core : Option Nat) (hist : List (Nat × List (Byte × Nat))) :
    Cached s (noteCode s loc bytes core hist) := by
  unfold noteCode
  split
  · exact .refl _
  · exact ⟨⟨_, _, _, _, _, _, _, _, _, _, _, _, _, _, _, rfl, Nat.le_refl _, id, id⟩, fun _ => rfl⟩

/-- Poison settles, and nothing else changes. -/
theorem settlePieces_shape (s : State) (base : Nat) (offs : List Nat) :
    settlePieces s base offs = { s with poison := (settlePieces s base offs).poison } := by
  unfold settlePieces
  simp only [List.foldl_cons, List.foldl_nil]
  split <;> split <;> rfl

theorem settlePieces_mem (s : State) (base : Nat) (offs : List Nat) : (settlePieces s base offs).mem = s.mem := by
  rw [settlePieces_shape]

/-- NOTIFY sends messages and changes directory entries, and nothing else. -/
def Told (s t : State) : Prop := ∃ d m f, t = { s with dir := d, msgs := m, fresh := f } ∧ s.fresh ≤ f

theorem Told.refl (s : State) : Told s s := ⟨_, _, _, rfl, Nat.le_refl _⟩
theorem Told.trans {s t u : State} (h : Told s t) (k : Told t u) : Told s u := by
  obtain ⟨_, _, _, rfl, hf⟩ := h
  obtain ⟨_, _, _, rfl, kf⟩ := k
  exact ⟨_, _, _, rfl, Nat.le_trans hf kf⟩

theorem sendMsg_told (s : State) (d : DirEntry) (c : Nat) (k : MsgKind) (f : Sys2Proof.View) (es : List Nat) (n re : Nat) (i : Bool) :
    Told s (sendMsg s d c k f es n re i).1 := ⟨_, _, _, rfl, Nat.le_succ _⟩

theorem keepDir_told (s : State) (d : DirEntry) : Told s (keepDir s d) := by
  unfold keepDir setDir
  split <;> exact ⟨_, _, _, rfl, Nat.le_refl _⟩

theorem notify_told (s : State) (d : DirEntry) (old new : List Byte) (forced : Nat → Bool) (cause : Nat) :
    Told s (notify s d old new forced cause) := by
  unfold notify
  dsimp only
  generalize (if d.coarse then _ else _ : List (Nat × Sys2Proof.View × Bool)) = targets
  have h : ∀ (ts : List (Nat × Sys2Proof.View × Bool)) (F : State × DirEntry → (Nat × Sys2Proof.View × Bool) → State × DirEntry),
      (∀ a x, Told a.1 (F a x).1) → ∀ a : State × DirEntry, Told a.1 (ts.foldl F a).1 := by
    intro ts F hF
    induction ts with
    | nil => intro a; exact .refl _
    | cons x t ih => intro a; exact (hF a x).trans (ih _)
  refine Told.trans (h targets _ (fun a x => ?_) (s, d)) (keepDir_told _ _)
  split
  · split <;> exact sendMsg_told _ _ _ _ _ _ _ _ _
  · exact .refl _

theorem notifyAll_told (ds : List DirEntry) (old new : List Byte) (forced : DirEntry → Nat → Bool) (cause : Nat) (s : State) :
    Told s (ds.foldl (fun s d => notify s d old new (forced d) cause) s) := by
  induction ds generalizing s with
  | nil => exact .refl _
  | cons d t ih => exact (notify_told s d old new _ cause).trans (ih _)

theorem markLeaf_wf (s : State) (loc : Loc) (w : Bool) (h : Memory.wf s.mem = true) : Memory.wf (markLeaf s loc w).mem = true := by
  unfold markLeaf
  split
  · exact h
  · exact twf_tput _ _ _ _ h

/-- Marking a leaf changes one byte of memory at most. -/
theorem markLeaf_shape (s : State) (loc : Loc) (w : Bool) : markLeaf s loc w = { s with mem := (markLeaf s loc w).mem } := by
  unfold markLeaf; split <;> rfl

theorem markLeaf_lines (s : State) (loc : Loc) (w : Bool) : Lines s (markLeaf s loc w) := by
  rw [markLeaf_shape]
  exact ⟨_, _, _, _, _, _, _, _, _, _, _, _, _, _, _, rfl, Nat.le_refl _, markLeaf_wf s loc w, id⟩

/-- A clause's fetch marks its pages and brings its lines into the slices. -/
theorem markCode_lines (s : State) (t : Team) (pc n : Nat) : Lines s (markCode s t pc n) := by
  unfold markCode
  refine Lines.foldl _ _ (fun s a => ?_) s
  split
  · exact (markLeaf_lines _ _ _).trans (touchLine_cached _ _ _).1
  · exact .refl _

@[simp] theorem spoilRings_mem (s : State) (k : Nat) : (spoilRings s k).mem = s.mem := rfl
@[simp] theorem spoilRings_teams (s : State) (k : Nat) : (spoilRings s k).teams = s.teams := rfl
@[simp] theorem spoilRings_cores (s : State) (k : Nat) : (spoilRings s k).cores = s.cores := rfl
@[simp] theorem aged_mem (s : State) : (aged s).mem = s.mem := by unfold aged; split <;> rfl
@[simp] theorem aged_teams (s : State) : (aged s).teams = s.teams := by unfold aged; split <;> rfl
@[simp] theorem aged_cores (s : State) : (aged s).cores = s.cores := by unfold aged; split <;> rfl

/-- The byte with a leaf's marks is all that marking writes, whatever else the state holds. -/
theorem markLeaf_mem_congr {s t : State} (h : t.mem = s.mem) (loc : Loc) (w : Bool) : (markLeaf t loc w).mem = (markLeaf s loc w).mem := by
  unfold markLeaf
  split
  · exact h
  · simp only [rdByte, h]

/-- A write that reaches its home: what it changes besides the bytes written and the page's marks, and what it leaves. -/
theorem homeWrite_shape (s : State) (ctx : Nat) (l : Line) (loc : Loc) (bytes : List (Nat × Byte)) (b : Bool) (cause : Nat)
    (core : Option Nat) (hist : List (Nat × List (Byte × Nat))) :
    ((homeWrite s ctx l loc bytes b cause core hist).teams = s.teams ∧ (homeWrite s ctx l loc bytes b cause core hist).cores = s.cores ∧
      (homeWrite s ctx l loc bytes b cause core hist).dies = s.dies ∧
      (homeWrite s ctx l loc bytes b cause core hist).launches = s.launches ∧
      (homeWrite s ctx l loc bytes b cause core hist).mgmt = s.mgmt ∧ s.fresh ≤ (homeWrite s ctx l loc bytes b cause core hist).fresh) ∧
    (Memory.wf s.mem = true → Memory.wf (homeWrite s ctx l loc bytes b cause core hist).mem = true) ∧
    (Settled s → Settled (homeWrite s ctx l loc bytes b cause core hist) ∧ (channelFailed s (lineAddr loc.key) = false →
      (homeWrite s ctx l loc bytes b cause core hist).mem =
        bytes.foldl (fun m b => tput memDefault m (lineAddr loc.key + b.1) b.2) (markLeaf s loc true).mem)) ∧
    (entriesOf s l = [] → (homeWrite s ctx l loc bytes b cause core hist).msgs = s.msgs) := by
  have hn := noteCode_cached s loc bytes core hist
  have h0 : Lines s (dirtyLine (markLeaf (noteCode s loc bytes core hist) loc true) ctx loc) :=
    (hn.1.trans (markLeaf_lines _ loc true)).trans (dirtyLine_cached _ _ _).1
  have hm : Settled s → (dirtyLine (markLeaf (noteCode s loc bytes core hist) loc true) ctx loc).mem = (markLeaf s loc true).mem :=
    fun h => ((dirtyLine_cached _ _ _).2 ((hn.1.trans (markLeaf_lines _ loc true)).settled h)).trans (markLeaf_mem_congr (hn.2 h) _ _)
  unfold homeWrite
  dsimp only
  generalize dirtyLine (markLeaf (noteCode s loc bytes core hist) loc true) ctx loc = v at h0 hm
  generalize hw : (if channelFailed v (lineAddr loc.key) then v
      else { v with mem := bytes.foldl (fun m b => tput memDefault m (lineAddr loc.key + b.1) b.2) v.mem } : State) = w
  have hv : ∃ m, w = { v with mem := m } ∧ (Memory.wf v.mem = true → Memory.wf m = true) ∧
      (channelFailed v (lineAddr loc.key) = false → m = bytes.foldl (fun m b => tput memDefault m (lineAddr loc.key + b.1) b.2) v.mem) := by
    subst hw
    split
    · next h => exact ⟨_, rfl, id, fun h' => by simp [h] at h'⟩
    · exact ⟨_, rfl, twf_foldl memDefault (fun b => (lineAddr loc.key + b.1, b.2)) bytes v.mem, fun _ => rfl⟩
  obtain ⟨m, rfl, hwf, hmem⟩ := hv
  generalize hu : noteSlots _ _ = u
  have hs : ∃ st po he ch, u = { ({ v with mem := m } : State) with stamps := st, poison := po, held := he, chains := ch } := by
    subst hu
    unfold noteSlots noteHeld noteLanes
    rw [settlePieces_shape]
    exact ⟨_, _, _, _, rfl⟩
  clear hu
  generalize hX : List.foldl _ u (entriesOf u l) = X
  have ht : Told u X ∧ (entriesOf u l = [] → X = u) := by
    subst hX
    exact ⟨notifyAll_told (entriesOf u l) _ _ _ cause u, fun h => by rw [h]; rfl⟩
  clear hX hw
  obtain ⟨_, _, _, _, rfl⟩ := hs
  obtain ⟨⟨_, _, _, rfl, hf⟩, hnil⟩ := ht
  obtain ⟨r1, r2, r3, r4, r5, r6, -, r8⟩ := h0.rest
  have hc : channelFailed v (lineAddr loc.key) = channelFailed s (lineAddr loc.key) := by unfold channelFailed; rw [r3]
  refine ⟨⟨r1, r2, r3, r6, r8, Nat.le_trans h0.fresh hf⟩, fun h => hwf (h0.wf h), fun h => ⟨h0.settled h, fun hch => ?_⟩, fun he => ?_⟩
  · rw [← hm h]; exact hmem (hc.trans hch)
  · have hd : entriesOf ({ v with mem := m } : State) l = [] := by unfold entriesOf at he ⊢; rw [r4]; exact he
    rw [hnil hd]; exact r5

theorem homeWrite_wf (s : State) (ctx : Nat) (l : Line) (loc : Loc) (bytes : List (Nat × Byte)) (b : Bool) (cause : Nat)
    (core : Option Nat) (hist : List (Nat × List (Byte × Nat))) (h : Memory.wf s.mem = true) :
    Memory.wf (homeWrite s ctx l loc bytes b cause core hist).mem = true :=
  (homeWrite_shape s ctx l loc bytes b cause core hist).2.1 h

end Sys2Proof.Machine
end

