-- ==== Sys2Proof/Laws/Operands.lean ====
section
/-! SUPPORT. What reading operands and popping ports leaves alone, and what the end of a slot leaves behind. -/

namespace Sys2Proof.Machine

-- Reading memory changes neither teams nor bays

theorem bayOf_congr {s s' : State} (h : s'.cores = s.cores) (c b : Nat) : bayOf s' c b = bayOf s c b := by
  simp [bayOf, coreOf, h]

/-- Changing a core's buffers leaves every bay alone. -/
theorem bayOf_modCore_mem (s : State) (n : Nat) (f : LocalMem → LocalMem) (c b : Nat) :
    bayOf (modCore s n (fun x => { x with mem := f x.mem })) c b = bayOf s c b := by
  unfold bayOf
  by_cases h : c = n
  · subst h
    by_cases hc : c < s.cores.length
    · rw [coreOf_modCore _ _ _ hc]
    · simp [coreOf, modCore, List.getD_eq_getElem?_getD, List.getElem?_eq_none (Nat.le_of_not_lt hc)]
  · rw [coreOf_modCore_ne _ _ h]

/-- What a read through a core's view leaves alone. -/
structure SameTeams (s t : State) : Prop where
  teams : t.teams = s.teams
  bays : ∀ c b, bayOf t c b = bayOf s c b

theorem SameTeams.refl (s : State) : SameTeams s s := ⟨rfl, fun _ _ => rfl⟩
theorem SameTeams.trans {s t u : State} (h : SameTeams s t) (k : SameTeams t u) : SameTeams s u :=
  ⟨k.teams.trans h.teams, fun c b => (k.bays c b).trans (h.bays c b)⟩

theorem modAgent_core_same (s : State) (n : Nat) (f : LocalMem → LocalMem) : SameTeams s (modAgent s (.core n) f) :=
  ⟨rfl, bayOf_modCore_mem s n f⟩

theorem Lines.same {s t : State} (h : Lines s t) : SameTeams s t := ⟨h.rest.1, bayOf_congr h.rest.2.1⟩

theorem markTouch_same (s : State) (loc : Loc) (mark : Bool) (c : Nat) :
    SameTeams s (touchLine (if mark then markLeaf s loc false else s) c loc) := by
  cases mark
  · exact (touchLine_cached s c loc).1.same
  · exact ((markLeaf_lines s loc false).trans (touchLine_cached _ c loc).1).same

theorem fillLine_same (s : State) (n : Nat) (l : Line) (loc : Loc) (mark : Bool) : SameTeams s (fillLine s (.core n) l loc mark) := by
  unfold fillLine
  exact (markTouch_same s loc mark _).trans (modAgent_core_same _ n _)

theorem fetchBytes_same (s : State) (t : Team) (core a : Nat) (acc : Access) (mark : Bool) (n : Nat) :
    SameTeams s (fetchBytes s t (.core core) a acc mark n).1 := by
  induction n with
  | zero => exact .refl s
  | succ n ih =>
    unfold fetchBytes
    dsimp only
    split
    · exact ih
    · split
      · exact ih
      · next loc _ =>
        dsimp only
        refine ih.trans ?_
        generalize (fetchBytes s t (.core core) a acc mark n).1 = u
        have h0 : SameTeams u (if mark then markLeaf u loc false else u) := by
          cases mark
          · exact .refl _
          · exact (markLeaf_lines _ _ _).same
        refine h0.trans ?_
        generalize (if mark then markLeaf u loc false else u) = w
        split
        · exact .refl _
        · exact fillLine_same _ _ _ _ _

theorem fetchStored_same (s : State) (t : Team) (core : Nat) (x : Nat × Bool) (n : Nat) :
    SameTeams s (fetchStored s t core x n).1 := by
  unfold fetchStored
  dsimp only
  split
  · exact fetchBytes_same _ _ _ _ _ _ _
  · split <;> exact fetchBytes_same _ _ _ _ _ _ _

theorem fetchElem_same (s : State) (t : Team) (core : Nat) (l : Lane) (b : Port) (pos : Nat) :
    SameTeams s (fetchElem s t core l b pos).1 := by
  unfold fetchElem
  dsimp only
  split
  · split
    · exact fetchStored_same _ _ _ _ _
    · exact (fetchStored_same _ _ _ _ _).trans (fetchStored_same _ _ _ _ _)
  · exact fetchStored_same _ _ _ _ _

-- Pops change only what lanes keep of their ports, their queues and an EOSP predicate

/-- A lane whose registers, fst and place in the machine are as before. -/
structure SameLane (l k : Lane) : Prop where
  regs : k.regs = l.regs
  fst : k.fst = l.fst
  pc : k.pc = l.pc
  st : k.st = l.st
  helper : k.helper = l.helper
  lid : k.lid = l.lid
  qid : k.qid = l.qid
  gid : k.gid = l.gid
  sys : k.sys = l.sys

theorem SameLane.refl (l : Lane) : SameLane l l := ⟨rfl, rfl, rfl, rfl, rfl, rfl, rfl, rfl, rfl⟩
theorem SameLane.trans {l k m : Lane} (h : SameLane l k) (h' : SameLane k m) : SameLane l m :=
  ⟨h'.regs.trans h.regs, h'.fst.trans h.fst, h'.pc.trans h.pc, h'.st.trans h.st, h'.helper.trans h.helper,
   h'.lid.trans h.lid, h'.qid.trans h.qid, h'.gid.trans h.gid, h'.sys.trans h.sys⟩

/-- A gang whose lanes are such, one for one, and whose own registers and flags are as before. -/
structure SameGang (g k : Gang) : Prop where
  count : k.lanes.length = g.lanes.length
  lanes : ∀ i, SameLane (g.lane i) (k.lane i)
  cregs : k.cregs = g.cregs
  flags : k.flags = g.flags
  chunks : k.chunks = g.chunks
  ports : k.ports = g.ports
  sys : k.sys = g.sys

theorem SameGang.refl (g : Gang) : SameGang g g := ⟨rfl, fun _ => .refl _, rfl, rfl, rfl, rfl, rfl⟩
theorem SameGang.trans {g k m : Gang} (h : SameGang g k) (h' : SameGang k m) : SameGang g m :=
  ⟨h'.count.trans h.count, fun i => (h.lanes i).trans (h'.lanes i), h'.cregs.trans h.cregs, h'.flags.trans h.flags,
   h'.chunks.trans h.chunks, h'.ports.trans h.ports, h'.sys.trans h.sys⟩

/-- Changing one lane within these bounds. -/
theorem SameGang.lane (g : Gang) (i : Nat) (f : Lane → Lane) (hf : ∀ l, g.lanes[i]? = some l → SameLane l (f l)) :
    SameGang g { g with lanes := g.lanes.modify i f } := by
  refine ⟨by simp, fun j => ?_, rfl, rfl, rfl, rfl, rfl⟩
  simp only [Gang.lane, List.getD_eq_getElem?_getD, List.getElem?_modify]
  by_cases h : i = j
  · subst h
    cases hl : g.lanes[i]? with
    | none => simpa using SameLane.refl _
    | some l => simpa using hf l hl
  · simpa [h] using SameLane.refl _

/-- Another state in which one gang changed within these bounds and nothing else did that an instruction reads. -/
structure SamePlace (s t : State) (u g : Nat) : Prop where
  gang : ∀ x, findGang s u g = some x → ∃ y, findGang t u g = some y ∧ SameGang x y
  none : findGang s u g = none → findGang t u g = none
  bays : ∀ c b, bayOf t c b = bayOf s c b

theorem SamePlace.refl (s : State) (u g : Nat) : SamePlace s s u g :=
  ⟨fun x h => ⟨x, h, .refl _⟩, fun h => h, fun _ _ => rfl⟩
theorem SamePlace.trans {s t r : State} {u g : Nat} (h : SamePlace s t u g) (k : SamePlace t r u g) : SamePlace s r u g :=
  ⟨fun x hx => by
    obtain ⟨y, hy, hxy⟩ := h.gang x hx
    obtain ⟨z, hz, hyz⟩ := k.gang y hy
    exact ⟨z, hz, hxy.trans hyz⟩,
   fun hn => k.none (h.none hn), fun c b => (k.bays c b).trans (h.bays c b)⟩

theorem SameTeams.place {s t : State} (h : SameTeams s t) (u g : Nat) : SamePlace s t u g := by
  have e : ∀ a b, findGang t a b = findGang s a b := fun a b => by simp [findGang, findTeam, h.teams]
  exact ⟨fun x hx => ⟨x, by rw [e]; exact hx, .refl _⟩, fun hn => by rw [e]; exact hn, h.bays⟩

theorem modGang_place (s : State) (u g : Nat) (f : Gang → Gang) (hf : ∀ x, findGang s u g = some x → SameGang x (f x)) :
    SamePlace s (modGang s u g f) u g := by
  refine ⟨fun x hx => ⟨f x, ?_, hf x hx⟩, fun hn => ?_, fun _ _ => rfl⟩
  · rw [findGang_modGang, hx]; rfl
  · rw [findGang_modGang, hn]; rfl

theorem modLane_place (s : State) (u g i : Nat) (f : Lane → Lane)
    (hf : ∀ l, findLane s u g i = some l → SameLane l (f l)) : SamePlace s (modLane s u g i f) u g :=
  modGang_place _ _ _ _ (fun x hx => SameGang.lane x i f (fun l hl => hf l (by simp [findLane, hx, hl])))

theorem prefetchLane_place (s : State) (t : Team) (core g i p pos : Nat) (b : Port) :
    SamePlace s (prefetchLane s t core g i p pos b) t.uid g := by
  unfold prefetchLane
  dsimp only
  exact ((fetchElem_same s t core _ b pos).place _ _).trans
    (modLane_place _ _ _ _ _ (fun l _ => ⟨rfl, rfl, rfl, rfl, rfl, rfl, rfl, rfl, rfl⟩))

theorem foldl_place {β : Type} (l : List β) (f : State → β → State) (u g : Nat) (hf : ∀ s b, SamePlace s (f s b) u g) (s : State) :
    SamePlace s (l.foldl f s) u g := by
  induction l generalizing s with
  | nil => exact .refl _ _ _
  | cons b t ih => exact (hf s b).trans (ih _)

theorem foldl_place₁ {β γ : Type} (l : List β) (f : State × γ → β → State × γ) (u g : Nat)
    (hf : ∀ a b, SamePlace a.1 (f a b).1 u g) (a : State × γ) : SamePlace a.1 (l.foldl f a).1 u g := by
  induction l generalizing a with
  | nil => exact .refl _ _ _
  | cons b t ih => exact (hf a b).trans (ih _)

theorem ensurePre_place (s : State) (v : View) (ports : List Nat) (hu : v.team.uid = v.iss.team) :
    SamePlace s (ensurePre s v ports) v.iss.team v.g := by
  unfold ensurePre
  refine foldl_place _ _ _ _ (fun s p => ?_) s
  dsimp only
  split
  · exact .refl _ _ _
  · refine foldl_place _ _ _ _ (fun s i => ?_) s
    split
    · exact .refl _ _ _
    · exact hu ▸ prefetchLane_place _ _ _ _ _ _ _ _

theorem setPred_same (l : Lane) (n : Nat) (b : Bool) : SameLane l (l.setPred n b) :=
  ⟨rfl, rfl, rfl, rfl, rfl, rfl, rfl, rfl, rfl⟩

theorem popLane_same (b : Port) (p : Nat) (l : Lane) : SameLane l (popLane b p l).2 := by
  unfold popLane
  dsimp only
  repeat' split
  all_goals first
    | exact .refl _
    | exact setPred_same _ _ _
    | exact ⟨rfl, rfl, rfl, rfl, rfl, rfl, rfl, rfl, rfl⟩

theorem setReady_same (g : Gang) (ks : List (Nat × Nat)) (t : Nat) : SameGang g (g.setReady ks t) :=
  ⟨rfl, fun _ => .refl _, rfl, rfl, rfl, rfl, rfl⟩

/-- Popping leaves registers, fst, flags, bindings and system registers alone. -/
theorem popAll_place (s : State) (v : View) (ports : List Nat) (hu : v.team.uid = v.iss.team) :
    SamePlace s (popAll s v ports).1 v.iss.team v.g := by
  unfold popAll
  refine (ensurePre_place s v ports hu).trans (foldl_place₁ ports _ _ _ (fun a p => ?_) (ensurePre s v ports, []))
  dsimp only
  have h : SamePlace a.1 (v.active.foldl (fun (a : State × List ((Nat × Nat) × Word)) i =>
      match findLane a.1 v.iss.team v.g i with
      | none => a
      | some l =>
        (modLane a.1 v.iss.team v.g i (fun _ => (popLane (v.iss.ports.getD p Port.unbound) p l).2),
          a.2 ++ [((p, i), (popLane (v.iss.ports.getD p Port.unbound) p l).1)])) a).1 v.iss.team v.g := by
    refine foldl_place₁ v.active _ _ _ (fun a i => ?_) a
    split
    · exact .refl _ _ _
    · next l hl =>
      exact modLane_place _ _ _ _ _ (fun k hk => by
        rw [hl] at hk
        cases hk
        exact popLane_same _ _ _)
  split
  · exact h.trans (modGang_place _ _ _ _ (fun x _ => setReady_same _ _ _))
  · exact h

/-- An instruction that names no port as a source pops nothing. -/
@[simp] theorem popAll_nil (s : State) (v : View) : popAll s v [] = (s, []) := rfl

end Sys2Proof.Machine
end

