-- ==== Sys2Proof/Laws/Slot.lean ====
section
/-! SUPPORT. The end of a slot: what `afterSlot` and `endIssue` leave behind, and what a fixed-latency instruction writes. -/

namespace Sys2Proof.Machine

theorem lane_map (g : Gang) (f : Nat → Lane) (i : Nat) (h : i < g.lanes.length) :
    ({ g with lanes := (List.range g.lanes.length).map f } : Gang).lane i = f i := by
  simp [Gang.lane, List.getD_eq_getElem?_getD, h]

theorem lane_out (g : Gang) (i : Nat) (h : ¬ i < g.lanes.length) : g.lane i = Lane.absent := by
  simp [Gang.lane, List.getD_eq_getElem?_getD, List.getElem?_eq_none (Nat.le_of_not_lt h)]

theorem lane_mapAll (g : Gang) (f : Lane → Lane) (i : Nat) (h : i < g.lanes.length) :
    ({ g with lanes := g.lanes.map f } : Gang).lane i = f (g.lane i) := by
  simp [Gang.lane, List.getD_eq_getElem?_getD, h]

/-- A gang whose lanes keep everything but what they hold of ports and their queues; the gang keeps its registers and flags. -/
structure KeepsGang (g k : Gang) : Prop where
  count : k.lanes.length = g.lanes.length
  lanes : ∀ i, SameLane (g.lane i) (k.lane i)
  preds : ∀ i, (k.lane i).preds = (g.lane i).preds
  cregs : k.cregs = g.cregs
  flags : k.flags = g.flags
  chunks : k.chunks = g.chunks
  sys : k.sys = g.sys

theorem KeepsGang.refl (g : Gang) : KeepsGang g g := ⟨rfl, fun _ => .refl _, fun _ => rfl, rfl, rfl, rfl, rfl⟩
theorem KeepsGang.trans {g k m : Gang} (h : KeepsGang g k) (h' : KeepsGang k m) : KeepsGang g m :=
  ⟨h'.count.trans h.count, fun i => (h.lanes i).trans (h'.lanes i), fun i => (h'.preds i).trans (h.preds i),
   h'.cregs.trans h.cregs, h'.flags.trans h.flags, h'.chunks.trans h.chunks, h'.sys.trans h.sys⟩

theorem freeLanePort_same (ps : List Port) (p : Nat) (l : Lane) : SameLane l (freeLanePort ps p l) :=
  ⟨rfl, rfl, rfl, rfl, rfl, rfl, rfl, rfl, rfl⟩

theorem keeps_map (g : Gang) (P : List Port) (f : Lane → Lane) (hf : ∀ l, SameLane l (f l) ∧ (f l).preds = l.preds) :
    KeepsGang g { g with ports := P, lanes := g.lanes.map f } := by
  have hl : ∀ i, SameLane (g.lane i) (({ g with ports := P, lanes := g.lanes.map f } : Gang).lane i) ∧
      (({ g with ports := P, lanes := g.lanes.map f } : Gang).lane i).preds = (g.lane i).preds := by
    intro i
    by_cases h : i < g.lanes.length
    · have e : ({ g with ports := P, lanes := g.lanes.map f } : Gang).lane i = f (g.lane i) := by
        simp [Gang.lane, List.getD_eq_getElem?_getD, h]
      rw [e]; exact hf _
    · rw [lane_out g i h, lane_out _ i (by simpa using h)]; exact ⟨.refl _, rfl⟩
  exact ⟨by simp, fun i => (hl i).1, fun i => (hl i).2, rfl, rfl, rfl, rfl⟩

theorem bindPorts_keeps (g : Gang) (l : List (Nat × DWord × Nat)) : KeepsGang g (g.bindPorts l) := by
  unfold Gang.bindPorts
  induction l generalizing g with
  | nil => exact .refl g
  | cons x t ih => exact KeepsGang.trans (keeps_map g _ _ (fun l => ⟨freeLanePort_same _ _ _, rfl⟩)) (ih _)

theorem fillSlots_same (ps : List Port) (l : Lane) : SameLane l (fillSlots ps l) :=
  ⟨rfl, rfl, rfl, rfl, rfl, rfl, rfl, rfl, rfl⟩

theorem gangOf_eq {s : State} {v : View} {x : Gang} (h : findGang s v.iss.team v.iss.gang = some x) : gangOf s v = x := by
  simp [gangOf, h]

theorem findGang_some {s : State} {v : View} {x : Gang} (h : findGang s v.iss.team v.iss.gang = some x) :
    findGang s v.iss.team v.iss.gang = some (gangOf s v) := by rw [gangOf_eq h, h]

/-- What the end of a slot leaves behind in the gang in issue: lanes that keep their registers, predicates, fst and system
registers, and stand where `pc` says. -/
structure SlotEnd (s t : State) (v : View) (pc : Nat → DWord) : Prop where
  found : ∃ y, findGang t v.iss.team v.iss.gang = some y ∧ y.lanes.length = (gangOf s v).lanes.length
  regs : ∀ i, (laneOf t v i).regs = (laneOf s v i).regs
  preds : ∀ i, (laneOf t v i).preds = (laneOf s v i).preds
  fst : ∀ i, (laneOf t v i).fst = (laneOf s v i).fst
  sys : ∀ i, (laneOf t v i).sys = (laneOf s v i).sys
  st : ∀ i, (laneOf t v i).st = (laneOf s v i).st
  pc : ∀ i < (gangOf s v).lanes.length, (laneOf t v i).pc = pc i
  cregs : (gangOf t v).cregs = (gangOf s v).cregs
  flags : (gangOf t v).flags = (gangOf s v).flags
  chunks : (gangOf t v).chunks = (gangOf s v).chunks
  gsys : (gangOf t v).sys = (gangOf s v).sys
  elsewhere : Elsewhere s t v

theorem endIssue_end (s : State) (v : View) (next : Nat) {x : Gang} (hx : findGang s v.iss.team v.iss.gang = some x) (hg : v.g = v.iss.gang) :
    SlotEnd s (endIssue s v next) v (fun i => (laneOf s v i).pc) := by
  unfold endIssue
  dsimp only
  generalize ((bayOf s v.core v.bay).issue.map (·.rebind)).getD [] = l
  have hf : findGang (modBay (modGang s v.iss.team v.g (fun g => g.bindPorts l)) v.core v.bay
      (fun _ => { issue := none, next := next, done := v.t + 1 })) v.iss.team v.iss.gang = some (x.bindPorts l) := by
    rw [findGang_modBay, hg, findGang_modGang, hx]; rfl
  have hk := bindPorts_keeps x l
  have e1 := gangOf_eq hx
  have e2 := gangOf_eq hf
  refine ⟨⟨_, hf, by rw [e1]; exact hk.count⟩, fun i => ?_, fun i => ?_, fun i => ?_, fun i => ?_, fun i => ?_, fun i _ => ?_,
    ?_, ?_, ?_, ?_, ?_⟩
  · simp only [laneOf, e1, e2]; exact (hk.lanes i).regs
  · simp only [laneOf, e1, e2]; exact hk.preds i
  · simp only [laneOf, e1, e2]; exact (hk.lanes i).fst
  · simp only [laneOf, e1, e2]; exact (hk.lanes i).sys
  · simp only [laneOf, e1, e2]; exact (hk.lanes i).st
  · simp only [laneOf, e1, e2]; exact (hk.lanes i).pc
  · rw [e1, e2]; exact hk.cregs
  · rw [e1, e2]; exact hk.flags
  · rw [e1, e2]; exact hk.chunks
  · rw [e1, e2]; exact hk.sys
  · refine ⟨rfl, fun u hu => ?_, fun g h => ?_, rfl, rfl, rfl, rfl⟩
    · rw [findTeam_modBay, hg]; exact findTeam_modGang_ne _ _ _ hu
    · rw [findGang_modBay, hg]; exact findGang_modGang_ne _ _ (.inr h)

theorem SlotEnd.trans {s t r : State} {v : View} {pc : Nat → DWord} (h : SlotEnd s t v pc)
    (k : SlotEnd t r v (fun i => (laneOf t v i).pc)) : SlotEnd s r v pc := by
  obtain ⟨y, hy, hlen⟩ := h.found
  obtain ⟨z, hz, hlen'⟩ := k.found
  have e := gangOf_eq hy
  refine ⟨⟨z, hz, by rw [hlen', e, hlen]⟩, fun i => (k.regs i).trans (h.regs i), fun i => (k.preds i).trans (h.preds i),
    fun i => (k.fst i).trans (h.fst i), fun i => (k.sys i).trans (h.sys i), fun i => (k.st i).trans (h.st i), fun i hi => ?_,
    k.cregs.trans h.cregs, k.flags.trans h.flags, k.chunks.trans h.chunks, k.gsys.trans h.gsys, ?_⟩
  · rw [k.pc i (by rw [e, hlen]; exact hi), h.pc i hi]
  · exact ⟨k.elsewhere.mem.trans h.elsewhere.mem, fun u hu => (k.elsewhere.teams u hu).trans (h.elsewhere.teams u hu),
      fun g hg => (k.elsewhere.gangs g hg).trans (h.elsewhere.gangs g hg), k.elsewhere.launches.trans h.elsewhere.launches,
      k.elsewhere.chains.trans h.elsewhere.chains, k.elsewhere.dies.trans h.elsewhere.dies, k.elsewhere.mgmt.trans h.elsewhere.mgmt⟩

/-- Where a lane stands once a slot has ended. -/
def slotPc (s : State) (v : View) (i : Nat) : DWord :=
  if v.iss.slot < v.iss.ni then (laneOf s v i).pc
  else if v.iss.group.contains i then v.nextPc else (laneOf s v i).pc

theorem afterSlot_end (s : State) (v : View) (half : Bool) (w : WinSlot) {x : Gang}
    (hx : findGang s v.iss.team v.iss.gang = some x) (hg : v.g = v.iss.gang) :
    SlotEnd s (afterSlot s v half w) v (slotPc s v) := by
  have e1 := gangOf_eq hx
  unfold afterSlot
  dsimp only
  split
  · next h =>
    refine ⟨⟨x, hx, by rw [e1]⟩, fun _ => rfl, fun _ => rfl, fun _ => rfl, fun _ => rfl, fun _ => rfl, fun i _ => ?_, rfl, rfl,
      rfl, rfl, ⟨rfl, fun _ _ => rfl, fun _ _ => rfl, rfl, rfl, rfl, rfl⟩⟩
    simp only [slotPc, h, if_true]; rfl
  · next h =>
    generalize hF : (fun i =>
          if v.iss.group.contains i then
            fillSlots v.iss.ports { x.lane i with pc := v.iss.pc + BitVec.ofNat 64 (8 * (2 + v.iss.ni + v.iss.lits.length / 2)), lastIssue := v.t, resume := 0 }
          else x.lane i) = F
    have hm : findGang (modGang (v.passed { s with fresh := s.fresh + 1 }) v.iss.team v.g (fun g =>
      { g with lanes := (List.range g.lanes.length).map (fun i =>
          let l := g.lane i
          if v.iss.group.contains i then
            fillSlots v.iss.ports { l with pc := v.iss.pc + BitVec.ofNat 64 (8 * (2 + v.iss.ni + v.iss.lits.length / 2)), lastIssue := v.t, resume := 0 }
          else l) })) v.iss.team v.iss.gang = some { x with lanes := (List.range x.lanes.length).map F } := by
      rw [hg, findGang_modGang, findGang_passed, show findGang { s with fresh := s.fresh + 1 } v.iss.team v.iss.gang = some x from hx,
        ← hF]
      rfl
    refine SlotEnd.trans ?_ (endIssue_end _ v _ hm hg)
    have e2 := gangOf_eq hm
    have hl : ∀ i, ({ x with lanes := (List.range x.lanes.length).map F } : Gang).lane i =
        if i < x.lanes.length then F i else Lane.absent := by
      intro i
      split
      · next hi => exact lane_map x F i hi
      · next hi => exact lane_out _ _ (by simpa using hi)
    have hs : ∀ i, SameLane { x.lane i with pc := 0 } { ({ x with lanes := (List.range x.lanes.length).map F } : Gang).lane i with pc := 0 } ∧
        (({ x with lanes := (List.range x.lanes.length).map F } : Gang).lane i).preds = (x.lane i).preds := by
      intro i
      rw [hl]
      split
      · rw [← hF]; dsimp only
        split
        · exact ⟨⟨rfl, rfl, rfl, rfl, rfl, rfl, rfl, rfl, rfl⟩, rfl⟩
        · exact ⟨.refl _, rfl⟩
      · next hi => rw [lane_out x i hi]; exact ⟨.refl _, rfl⟩
    refine ⟨⟨_, hm, by rw [e1]; simp⟩, fun i => ?_, fun i => ?_, fun i => ?_, fun i => ?_, fun i => ?_, fun i hi => ?_, ?_, ?_, ?_, ?_, ?_⟩
    · simp only [laneOf, e1, e2]; exact (hs i).1.regs
    · simp only [laneOf, e1, e2]; exact (hs i).2
    · simp only [laneOf, e1, e2]; exact (hs i).1.fst
    · simp only [laneOf, e1, e2]; exact (hs i).1.sys
    · simp only [laneOf, e1, e2]; exact (hs i).1.st
    · rw [e1] at hi
      simp only [laneOf, e1, e2, slotPc, h, if_false, hl, hi, if_true]
      rw [← hF]; dsimp only
      split <;> rfl
    · rw [e1, e2]
    · rw [e1, e2]
    · rw [e1, e2]
    · rw [e1, e2]; rfl
    · refine ⟨rfl, fun u hu => ?_, fun g h => ?_, rfl, rfl, rfl, rfl⟩
      · rw [hg]; exact findTeam_modGang_ne _ _ _ hu
      · rw [hg]; exact findGang_modGang_ne _ _ (.inr h)

theorem bayOf_modGang (s : State) (u g c b : Nat) (f : Gang → Gang) : bayOf (modGang s u g f) c b = bayOf s c b := rfl

theorem afterSlot_advanced (s : State) (v : View) (half : Bool) (w : WinSlot) (hb : (bayOf s v.core v.bay).issue = some v.iss) :
    Advanced (afterSlot s v half w) v := by
  obtain ⟨hc, hb'⟩ := bay_exists hb
  unfold afterSlot Advanced
  dsimp only
  split
  · rw [bayOf_modBay (hc := by exact hc) (hb := by exact hb')]
    refine ⟨{ v.iss with slot := v.iss.slot + 1, window := v.iss.window ++ [w] }, ?_, rfl, rfl, rfl, rfl⟩
    show Option.map _ (bayOf s v.core v.bay).issue = _
    rw [hb]; rfl
  · unfold endIssue
    dsimp only
    rw [bayOf_modBay (hc := by exact hc) (hb := by exact hb')]

/-- What the view of an instruction in issue holds of the state. -/
theorem issueView_eq {s : State} {c : Common} {v : View} (h : issueView s c = some v) :
    findTeam s v.iss.team = some v.team ∧ v.gang = v.team.gang v.iss.gang ∧ v.g = v.iss.gang ∧
      (bayOf s v.core v.bay).issue = some v.iss ∧ v.team.uid = v.iss.team ∧ v.t = (bayOf s v.core v.bay).next + c.dist ∧
      v.active = v.iss.group.filter (fun i => guardHolds c.guard (v.gang.lane i)) := by
  unfold issueView at h
  split at h
  · cases h
  · next core bay _ =>
    split at h
    · cases h
    · next iss hi =>
      split at h
      · cases h
      · split at h
        · cases h
        · next t ht =>
          cases h
          have : (t.uid == iss.team) = true := by simpa using List.find?_some ht
          exact ⟨ht, rfl, rfl, hi, by simpa using this, rfl, rfl⟩

theorem view_gang {s : State} {c : Common} {v : View} (h : issueView s c = some v) {x : Gang}
    (hx : findGang s v.iss.team v.iss.gang = some x) : v.gang = x := by
  obtain ⟨ht, hg, -⟩ := issueView_eq h
  rw [hg, Team.gang, List.getD_eq_getElem?_getD]
  simp only [findGang, ht, Option.bind_some] at hx
  rw [hx]; rfl

-- One lane of a fixed-latency instruction

theorem setRegs_reg (l : Lane) (b n : Nat) (ws : List Word) :
    (l.setRegs b ws).reg n = if b ≤ n ∧ n < b + ws.length then ws.getD (n - b) 0 else l.reg n := by
  induction ws generalizing l b with
  | nil =>
    have : ¬ (b ≤ n ∧ n < b + ([] : List Word).length) := fun h => by simp at h; omega
    rw [if_neg this]; rfl
  | cons w t ih =>
    rw [Lane.setRegs, ih]
    have hr : (l.setReg b w).reg n = if n = b then w else l.reg n := by simp [Lane.reg, Lane.setReg, tget_tput]
    rw [hr]
    by_cases h1 : n = b
    · subst h1
      rw [if_neg (by omega), if_pos rfl, if_pos (by simp)]; simp
    · by_cases h2 : b + 1 ≤ n ∧ n < b + 1 + t.length
      · rw [if_pos h2, if_pos (by simp; omega)]
        obtain ⟨k, rfl⟩ : ∃ k, n = b + 1 + k := ⟨n - b - 1, by omega⟩
        have e : b + 1 + k - b = k + 1 := by omega
        have e' : b + 1 + k - (b + 1) = k := by omega
        rw [e, e']; rfl
      · rw [if_neg h2, if_neg h1, if_neg (by simp; omega)]

theorem setRegs_rest (l : Lane) (b : Nat) (ws : List Word) :
    (l.setRegs b ws).preds = l.preds ∧ (l.setRegs b ws).fst = l.fst ∧ (l.setRegs b ws).sys = l.sys ∧ (l.setRegs b ws).pc = l.pc := by
  induction ws generalizing l b with
  | nil => exact ⟨rfl, rfl, rfl, rfl⟩
  | cons w t ih => rw [Lane.setRegs]; exact ih _ _

theorem setPred_pred (l : Lane) (m n : Nat) (b : Bool) (hn : n < 96) : (l.setPred m b).pred n = if m = n then b else l.pred n := by
  have h127 : n ≠ 127 := by omega
  have hb : (BitVec.ofNat 96 (2 ^ m)).getLsbD n = decide (m = n) := by
    rw [BitVec.getLsbD_ofNat, Nat.testBit_two_pow]; simp [hn]
  unfold Lane.pred Lane.setPred
  simp only [h127, if_false]
  cases b
  · show (l.preds &&& ~~~(BitVec.ofNat 96 (2 ^ m))).getLsbD n = _
    rw [BitVec.getLsbD_and, BitVec.getLsbD_not, hb]
    by_cases h : m = n <;> simp [h, hn]
  · show (l.preds ||| BitVec.ofNat 96 (2 ^ m)).getLsbD n = _
    rw [BitVec.getLsbD_or, hb]
    by_cases h : m = n <;> simp [h]

theorem setPreds_pred (ps : List (Nat × Bool)) (l : Lane) (n : Nat) (hn : n < 96) :
    (ps.foldl (fun l p => l.setPred p.1 p.2) l).pred n = ps.foldl (fun b p => if p.1 = n then p.2 else b) (l.pred n) := by
  induction ps generalizing l with
  | nil => rfl
  | cons p t ih => rw [List.foldl_cons, List.foldl_cons, ih, setPred_pred _ _ _ _ hn]

theorem setPreds_rest (ps : List (Nat × Bool)) (l : Lane) :
    (ps.foldl (fun l p => l.setPred p.1 p.2) l).regs = l.regs ∧ (ps.foldl (fun l p => l.setPred p.1 p.2) l).fst = l.fst ∧
    (ps.foldl (fun l p => l.setPred p.1 p.2) l).sys = l.sys := by
  induction ps generalizing l with
  | nil => exact ⟨rfl, rfl, rfl⟩
  | cons p t ih => exact ih _

theorem pushLane_rest (t : Team) (b : Port) (p : Nat) (x : Word) (r : Nat) (w : DWord) (k : Option (DWord × Nat)) (l : Lane) :
    (pushLane t b p x r w k l).regs = l.regs ∧ (pushLane t b p x r w k l).sys = l.sys := by
  unfold pushLane
  dsimp only
  repeat' split
  all_goals exact ⟨rfl, rfl⟩

theorem pushNext_rest (t : Team) (b : Port) (p : Nat) (x : Word) (r : Nat) (w : DWord) (l : Lane) :
    (pushNext t b p x r w l).regs = l.regs ∧ (pushNext t b p x r w l).sys = l.sys := by
  unfold pushNext
  dsimp only
  exact pushLane_rest _ _ _ _ _ _ _ _

/-- A result list fills its destination. -/
def fits (d : Option Dst) (o : LaneOut) : Prop := ∀ x, d = some x → o.regs.length = x.words

theorem applyLane_reg (v : View) (c : Common) (d : Option Dst) (lat : Nat) (o : LaneOut) (l : Lane) (n : Nat)
    (hf : fits d o ∨ ∀ x b, d = some x → x.name ≠ .g b) : (applyLane v c d lat o l).reg n = newReg c d o n (l.reg n) := by
  have h0 : ∀ k : Lane, k.regs = (match o.ind with
      | none => o.preds.foldl (fun (l : Lane) (p : Nat × Bool) => l.setPred p.1 p.2) l
      | some p => (o.preds.foldl (fun (l : Lane) (p : Nat × Bool) => l.setPred p.1 p.2) l).setReg p.1 p.2).regs →
      k.reg n = (match o.ind with | some (m, x) => if m = n then x else l.reg n | none => l.reg n) := by
    intro k hk
    rw [Lane.reg, hk]
    cases o.ind with
    | none => simp only; rw [(setPreds_rest _ _).1]; rfl
    | some p =>
      simp only [Lane.setReg, (setPreds_rest _ _).1, tget_tput]
      by_cases h : n = p.1
      · simp [h]
      · have h' : ¬ p.1 = n := fun e => h e.symm
        simp only [h, h', if_false]; rfl
  unfold applyLane newReg
  dsimp only
  generalize hk : (if o.setsFst then _ else _ : Lane) = k
  have hkr := h0 k (by subst hk; split <;> rfl)
  cases d with
  | none => exact hkr
  | some x =>
    obtain ⟨nm, w⟩ := x
    dsimp only
    cases hn : c.nwb
    · simp only [if_false, Bool.false_eq_true]
      cases nm with
      | g b =>
        have hl : o.regs.length = w := by
          rcases hf with h | h
          · exact h _ rfl
          · exact absurd rfl (h _ b rfl)
        rw [setRegs_reg, hl, hkr]; simp only [true_and]; try rfl
      | q p =>
        dsimp only
        split
        · rw [show ∀ (a : Lane) (z : Nat), ({ a with fready := z } : Lane).reg n = a.reg n from fun _ _ => rfl]
          rw [Lane.reg, (pushNext_rest _ _ _ _ _ _ _).1]; exact hkr
        · rw [Lane.reg, (pushNext_rest _ _ _ _ _ _ _).1]; exact hkr
      | w _ | k _ | c _ | sp _ | bad _ => exact hkr
    · simp only [if_true]
      cases nm <;> exact hkr

end Sys2Proof.Machine
end

