-- ==== Sys2Proof/Laws/Alu.lean ====
section
/-! SUPPORT. What a fixed-latency instruction does once its checks pass (R40, R57, R59, R62, R63): the lemma that every statement
about one cites. -/

namespace Sys2Proof.Machine

theorem setCregs_rest (g : Gang) (b : Nat) (ws : List Word) :
    (g.setCregs b ws).lanes = g.lanes ∧ (g.setCregs b ws).flags = g.flags ∧ (g.setCregs b ws).sys = g.sys := by
  induction ws generalizing g b with
  | nil => exact ⟨rfl, rfl, rfl⟩
  | cons w t ih => rw [Gang.setCregs]; exact ih _ _

theorem setCregs_creg (g : Gang) (b n : Nat) (ws : List Word) :
    (g.setCregs b ws).creg n = if b ≤ n ∧ n < b + ws.length then ws.getD (n - b) 0 else g.creg n := by
  induction ws generalizing g b with
  | nil =>
    have : ¬ (b ≤ n ∧ n < b + ([] : List Word).length) := fun h => by simp at h; omega
    rw [if_neg this]; rfl
  | cons w t ih =>
    rw [Gang.setCregs, ih]
    have hr : ({ g with cregs := tput 0 g.cregs b w } : Gang).creg n = if n = b then w else g.creg n := by
      simp [Gang.creg, tget_tput]
    rw [hr]
    by_cases h1 : n = b
    · subst h1
      rw [if_neg (by omega), if_pos rfl, if_pos (by simp)]; simp
    · by_cases h2 : b + 1 ≤ n ∧ n < b + 1 + t.length
      · rw [if_pos h2, if_pos (by simp; omega)]
        obtain ⟨k, rfl⟩ : ∃ k, n = b + 1 + k := ⟨n - b - 1, by omega⟩
        have e : b + 1 + k - b = k + 1 := by omega
        have e' : b + 1 + k - (b + 1) = k := by omega
        rw [e, e']; rfl
      · rw [if_neg h2, if_neg h1, if_neg (by simp; omega)]

/-- Passing the checks of stage 3, an instruction takes its own effect. -/
theorem issueChecks_pass {s : State} {c : Common} {f : Front} {own : View → Option FaultInfo} {v : View}
    (h : Passes s c f own v) (k : View → Out) : issueChecks s c f own k = k v := by
  unfold issueChecks
  rw [h.view]; dsimp only
  rw [h.names]; dsimp only
  rw [h.own]; dsimp only
  rw [if_neg (by simp [h.timely])]
  rw [if_neg (by rcases h.room with h | h <;> omega)]
  rw [h.pops]; dsimp only
  rw [h.push]

/-- What a passing instruction's gang is, in the state and after its pops. -/
theorem Passes.gang {s : State} {c : Common} {f : Front} {own : View → Option FaultInfo} {v : View} (h : Passes s c f own v) :
    ∃ y, findGang (popped s v f) v.iss.team v.iss.gang = some y ∧ y.lanes.length = 32 ∧ SameGang v.gang y ∧
      (bayOf (popped s v f) v.core v.bay).issue = some v.iss := by
  obtain ⟨⟨x, hx, hl⟩, -⟩ := h.stands
  obtain ⟨-, -, hg, hb, hu, -⟩ := issueView_eq h.view
  have hp := popAll_place s v f.srcPorts hu
  rw [hg] at hp
  obtain ⟨y, hy, hs⟩ := hp.gang x hx
  refine ⟨y, hy, by rw [hs.count, hl], view_gang h.view hx ▸ hs, ?_⟩
  rw [popped, hp.bays, hb]

theorem applyLane_preds (v : View) (c : Common) (d : Option Dst) (lat : Nat) (o : LaneOut) (l : Lane) (n : Nat) (hn : n < 96)
    (hd : ∀ x p, d = some x → x.name ≠ .q p) : (applyLane v c d lat o l).pred n = newPred o n (l.pred n) := by
  have h0 : ∀ k : Lane, k.preds = (o.preds.foldl (fun (l : Lane) (p : Nat × Bool) => l.setPred p.1 p.2) l).preds →
      k.pred n = newPred o n (l.pred n) := by
    intro k hk
    have : k.pred n = (o.preds.foldl (fun (l : Lane) (p : Nat × Bool) => l.setPred p.1 p.2) l).pred n := by
      unfold Lane.pred; rw [hk]
    rw [this, setPreds_pred _ _ _ hn]; rfl
  unfold applyLane
  dsimp only
  generalize hk : (if o.setsFst then _ else _ : Lane) = k
  have hkp : k.preds = (o.preds.foldl (fun (l : Lane) (p : Nat × Bool) => l.setPred p.1 p.2) l).preds := by
    subst hk; split <;> split <;> rfl
  cases d with
  | none => exact h0 k hkp
  | some x =>
    dsimp only
    split
    · exact h0 k hkp
    · split
      · exact h0 _ ((setRegs_rest _ _ _).1.trans hkp)
      · next p hp => exact absurd hp (hd x p rfl)
      · exact h0 k hkp

theorem applyLane_fst (v : View) (c : Common) (d : Option Dst) (lat : Nat) (o : LaneOut) (l : Lane)
    (hd : ∀ x p, d = some x → x.name ≠ .q p) :
    (applyLane v c d lat o l).fst = if o.setsFst then (l.fst &&& ~~~o.clr) ||| o.fst else l.fst := by
  unfold applyLane
  dsimp only
  generalize hk : (if o.setsFst then _ else _ : Lane) = k
  have hkf : k.fst = if o.setsFst then (l.fst &&& ~~~o.clr) ||| o.fst else l.fst := by
    subst hk
    have e := (setPreds_rest o.preds l).2.1
    cases o.setsFst <;> cases o.ind <;> simp only [Bool.false_eq_true, if_false, if_true, Lane.setReg_fst, e]
  cases d with
  | none => exact hkf
  | some x =>
    dsimp only
    split
    · exact hkf
    · split
      · exact (setRegs_rest _ _ _).2.1.trans hkf
      · next p hp => exact absurd hp (hd x p rfl)
      · exact hkf

theorem applyLane_sys (v : View) (c : Common) (d : Option Dst) (lat : Nat) (o : LaneOut) (l : Lane) :
    (applyLane v c d lat o l).sys = l.sys := by
  unfold applyLane
  dsimp only
  generalize hk : (if o.setsFst then _ else _ : Lane) = k
  have hkf : k.sys = l.sys := by
    subst hk
    have e := (setPreds_rest o.preds l).2.2
    cases o.setsFst <;> cases o.ind <;> exact e
  cases d with
  | none => exact hkf
  | some x =>
    dsimp only
    split
    · exact hkf
    · split
      · exact (setRegs_rest _ _ _).2.2.1.trans hkf
      · next p _ =>
        split
        · exact (pushNext_rest _ _ _ _ _ _ _).2.trans hkf
        · exact (pushNext_rest _ _ _ _ _ _ _).2.trans hkf
      · exact hkf

theorem dstPort_none {f : Front} (h : f.dstPort = none) : ∀ x p, f.dst = some x → x.name ≠ .q p := by
  intro x p hx hq
  simp [Front.dstPort, hx, hq] at h

/-- The change that a fixed-latency instruction makes to its gang. -/
def aluGang (c : Common) (a : Alu) (v : View) (out : Nat → LaneOut) (g : Gang) : Gang :=
  let once := a.front.once c.nwb
  let onceOut := out (v.active.headD (v.iss.group.headD 0))
  let g := { g with lanes := (List.range g.lanes.length).map (fun i =>
    if v.active.contains i then
      applyLane v c a.front.dst a.lat (if once then { onceOut with regs := [] } else out i) (g.lane i)
    else g.lane i) }
  if v.active.isEmpty then g
  else
    let g := g.setReady (v.active.flatMap (fun i => (out i).preds.map (fun p => (keyP p.1, i)))) (v.t + a.lat)
    let g := g.setReady (v.active.filterMap (fun i => (out i).ind.map (fun p => (keyG p.1, i)))) (v.t + a.lat)
    match a.front.dst with
    | none => g
    | some d =>
      if c.nwb then g
      else
        let g := if once then (match d.name with | .c n => g.setCregs n onceOut.regs | _ => g) else g
        g.setReady (inLanes (d.keys ++ eospKeys v d) v.active) (v.t + a.lat)

theorem aluGang_lanes (c : Common) (a : Alu) (v : View) (out : Nat → LaneOut) (g : Gang) :
    (aluGang c a v out g).lanes = (List.range g.lanes.length).map (fun i =>
      if v.active.contains i then
        applyLane v c a.front.dst a.lat (if a.front.once c.nwb then
          { out (v.active.headD (v.iss.group.headD 0)) with regs := [] } else out i) (g.lane i)
      else g.lane i) ∧ (aluGang c a v out g).flags = g.flags ∧ (aluGang c a v out g).sys = g.sys := by
  unfold aluGang
  dsimp only
  split
  · exact ⟨rfl, rfl, rfl⟩
  · split
    · exact ⟨rfl, rfl, rfl⟩
    · split
      · exact ⟨rfl, rfl, rfl⟩
      · split
        · split
          · exact ⟨(setCregs_rest _ _ _).1, (setCregs_rest _ _ _).2.1, (setCregs_rest _ _ _).2.2⟩
          · exact ⟨rfl, rfl, rfl⟩
        · exact ⟨rfl, rfl, rfl⟩

theorem once_dst {f : Front} {w : Bool} (h : f.once w = true) : ∃ d, f.dst = some d ∧ isC d.name = true ∧ w = false := by
  unfold Front.once at h
  cases hd : f.dst with
  | none => rw [hd] at h; cases h
  | some d =>
    rw [hd] at h
    simp only [Bool.and_eq_true, Bool.not_eq_true'] at h
    exact ⟨d, rfl, h.1.2, h.1.1.1⟩

theorem aluGang_creg (c : Common) (a : Alu) (v : View) (out : Nat → LaneOut) (g : Gang) (n : Nat)
    (hf : fits a.front.dst (out (v.active.headD (v.iss.group.headD 0)))) :
    (aluGang c a v out g).creg n =
      if a.front.once c.nwb = true ∧ v.active ≠ [] then newCreg a.front.dst (out (v.active.headD (v.iss.group.headD 0))).regs n (g.creg n)
      else g.creg n := by
  by_cases ho : a.front.once c.nwb = true
  · obtain ⟨d, hd, hc, hw⟩ := once_dst ho
    obtain ⟨nm, w⟩ := d
    cases nm with
    | c b =>
      by_cases he : v.active = []
      · simp only [ho, he, ne_eq, not_true_eq_false, and_false, if_false]
        unfold aluGang
        simp only [he, List.isEmpty_nil, if_true]
        rfl
      · have he' : v.active.isEmpty = false := by simpa using he
        simp only [ho, ne_eq, he, not_false_eq_true, and_self, if_true]
        have hl : (out (v.active.headD (v.iss.group.headD 0))).regs.length = w := hf _ hd
        rw [hw] at ho
        unfold aluGang newCreg
        simp only [he', Bool.false_eq_true, if_false, hd, hw, ho, if_true]
        show (Gang.setCregs _ b _).creg n = _
        rw [setCregs_creg, hl]
        rfl
    | _ => simp [isC] at hc
  · rw [if_neg (by simp [ho])]
    have ho' : a.front.once c.nwb = false := by simpa using ho
    unfold aluGang
    simp only [ho', Bool.false_eq_true, if_false]
    split
    · rfl
    · split
      · rfl
      · split <;> rfl

/-- A fixed-latency instruction that passes its checks completes with the outcomes of its lanes. -/
theorem execAlu_wrote {s : State} {c : Common} {a : Alu} {v : View} (h : Passes s c a.front a.own v)
    (hf : ∀ i, fits a.front.dst (a.run v (operands s v a.front) i)) :
    ∃ t, execAlu c a s = .next t ∧ Wrote s t v c a.front (a.run v (operands s v a.front)) := by
  obtain ⟨y, hy, hl, -, hb⟩ := h.gang
  obtain ⟨-, -, hg, -, -, -, ha⟩ := issueView_eq h.view
  have hlt : ∀ i ∈ v.active, i < 32 := by
    intro i hi
    rw [ha] at hi
    exact h.stands.2.1 i (List.mem_filter.mp hi).1
  generalize hout : a.run v (operands s v a.front) = out at hf
  have hex : ∃ w, aluEffect s c a v = afterSlot (modGang (popped s v a.front) v.iss.team v.g (aluGang c a v out)) v a.half w := by
    subst hout
    exact ⟨_, rfl⟩
  obtain ⟨w, hw⟩ := hex
  refine ⟨aluEffect s c a v, by unfold execAlu; rw [issueChecks_pass h], ?_⟩
  rw [hw]
  have hm : findGang (modGang (popped s v a.front) v.iss.team v.g (aluGang c a v out)) v.iss.team v.iss.gang =
      some (aluGang c a v out y) := by
    rw [hg, findGang_modGang, hy]; rfl
  have e := afterSlot_end _ v a.half w hm hg
  have ey := gangOf_eq hy
  have em := gangOf_eq hm
  obtain ⟨hls, hfl, hsy⟩ := aluGang_lanes c a v out y
  have hlane : ∀ i < 32, (aluGang c a v out y).lane i = if v.active.contains i then
        applyLane v c a.front.dst a.lat (if a.front.once c.nwb then
          { out (v.active.headD (v.iss.group.headD 0)) with regs := [] } else out i) (y.lane i)
      else y.lane i := by
    intro i hi
    rw [Gang.lane, hls]
    simp [List.getD_eq_getElem?_getD, hl, hi]
  have hact : ∀ i ∈ v.active, (laneOf (modGang (popped s v a.front) v.iss.team v.g (aluGang c a v out)) v i) =
      applyLane v c a.front.dst a.lat (if a.front.once c.nwb then
          { out (v.active.headD (v.iss.group.headD 0)) with regs := [] } else out i) (laneOf (popped s v a.front) v i) := by
    intro i hi
    rw [laneOf, em, hlane i (hlt i hi), if_pos (by simpa using hi), laneOf, ey]
  have hoth : ∀ i < 32, i ∉ v.active → (laneOf (modGang (popped s v a.front) v.iss.team v.g (aluGang c a v out)) v i) =
      laneOf (popped s v a.front) v i := by
    intro i hi hn
    rw [laneOf, em, hlane i hi, if_neg (by simpa using hn), laneOf, ey]
  refine ⟨?_, ?_, ?_, ?_, ?_, ?_, ⟨?_, ?_⟩, ?_, ?_, ?_⟩
  · intro i hi n
    rw [Lane.reg, e.regs, hact i hi]
    refine applyLane_reg _ _ _ _ _ _ _ ?_
    by_cases ho : a.front.once c.nwb = true
    · refine .inr (fun x b hx hb' => ?_)
      obtain ⟨d, hd, hc, -⟩ := once_dst ho
      rw [hd] at hx
      cases hx
      rw [hb'] at hc; simp [isC] at hc
    · rw [if_neg ho]; exact .inl (hf i)
  · intro hd i hi n hn
    have : (laneOf (afterSlot (modGang (popped s v a.front) v.iss.team v.g (aluGang c a v out)) v a.half w) v i).pred n =
        (laneOf (modGang (popped s v a.front) v.iss.team v.g (aluGang c a v out)) v i).pred n := by
      unfold Lane.pred; rw [e.preds]
    rw [this, hact i hi, applyLane_preds _ _ _ _ _ _ _ hn (dstPort_none hd)]
    split <;> rfl
  · intro hd i hi
    rw [e.fst, hact i hi, applyLane_fst _ _ _ _ _ _ (dstPort_none hd)]
    split <;> rfl
  · intro i hi hn
    rw [e.regs, e.preds, e.fst, hoth i hi hn]
    exact ⟨rfl, rfl, rfl⟩
  · intro n
    rw [Gang.creg, e.cregs, ey, em]
    exact aluGang_creg c a v out y n (hf _)
  · rw [e.flags, ey, em, hfl]
  · rw [e.gsys, ey, em, hsy]
  · intro i hi
    rw [e.sys]
    by_cases hn : i ∈ v.active
    · rw [hact i hn, applyLane_sys]
    · rw [hoth i hi hn]
  · exact afterSlot_advanced _ _ _ _ (by rw [bayOf_modGang]; exact hb)
  · by_cases hs : v.iss.slot < v.iss.ni
    · exact .inl hs
    · refine .inr (fun i hi => ?_)
      have hi32 := h.stands.2.1 i hi
      rw [e.pc i (by rw [em, hls]; simpa [hl] using hi32), slotPc, if_neg hs, if_pos (by simpa using hi)]
  · have k := e.elsewhere
    refine ⟨k.mem, fun u hu => ?_, fun g hgg => ?_, k.launches, k.chains, k.dies, k.mgmt⟩
    · rw [k.teams u hu]; exact findTeam_modGang_ne _ _ _ hu
    · rw [k.gangs g hgg, hg]; exact findGang_modGang_ne _ _ (.inr hgg)

end Sys2Proof.Machine
end

