-- ==== Sys2Proof/Laws/Shapes.lean ====
section
/-! SUPPORT. What the other shapes of instruction do once their checks pass: flag-tracked computations, operations of the ordering
machine, and instructions that end a clause. -/

namespace Sys2Proof.Machine

theorem modActive_lanes (s : State) (v : View) (f : Nat → Lane → Lane) (hg : v.g = v.iss.gang) {x : Gang}
    (hx : findGang s v.iss.team v.iss.gang = some x) (hn : v.active.Nodup) :
    ∃ y, findGang (modActive s v f) v.iss.team v.iss.gang = some y ∧ y.lanes.length = x.lanes.length ∧
      (∀ i < x.lanes.length, y.lane i = if i ∈ v.active then f i (x.lane i) else x.lane i) ∧
      y = { x with lanes := y.lanes } := by
  unfold modActive
  generalize v.active = l at hn
  induction l generalizing s x with
  | nil => exact ⟨x, hx, rfl, by simp, rfl⟩
  | cons a t ih =>
    rw [List.nodup_cons] at hn
    have h1 : findGang (modLane s v.iss.team v.g a (f a)) v.iss.team v.iss.gang = some { x with lanes := x.lanes.modify a (f a) } := by
      rw [modLane, hg, findGang_modGang, hx]; rfl
    obtain ⟨y, hy, hl, hlane, he⟩ := ih _ h1 hn.2
    refine ⟨y, hy, by rw [hl]; simp, fun i hi => ?_, by rw [he]⟩
    rw [hlane i (by simpa using hi)]
    have hm : ({ x with lanes := x.lanes.modify a (f a) } : Gang).lane i = if a = i then f a (x.lane i) else x.lane i := by
      simp only [Gang.lane, List.getD_eq_getElem?_getD, List.getElem?_modify]
      by_cases h : a = i
      · simp [h, hi]
      · simp [h]
    rw [hm]
    by_cases h : a = i
    · subst h
      simp [hn.1]
    · have h' : i ≠ a := fun e => h e.symm
      simp [h, h', List.mem_cons]

theorem modActive_rest (s : State) (v : View) (f : Nat → Lane → Lane) (hg : v.g = v.iss.gang) :
    Elsewhere s (modActive s v f) v ∧ (∀ c b, bayOf (modActive s v f) c b = bayOf s c b) := by
  unfold modActive
  generalize v.active = l
  induction l generalizing s with
  | nil => exact ⟨⟨rfl, fun _ _ => rfl, fun _ _ => rfl, rfl, rfl, rfl, rfl⟩, fun _ _ => rfl⟩
  | cons a t ih =>
    obtain ⟨h, hb⟩ := ih (modLane s v.iss.team v.g a (f a))
    refine ⟨⟨h.mem, fun u hu => ?_, fun g hgg => ?_, h.launches, h.chains, h.dies, h.mgmt⟩, hb⟩
    · rw [List.foldl_cons, h.teams u hu]; exact findTeam_modGang_ne _ _ _ hu
    · rw [List.foldl_cons, h.gangs g hgg, modLane, hg]; exact findGang_modGang_ne _ _ (.inr hgg)

theorem Elsewhere.trans {s t r : State} {v : View} (h : Elsewhere s t v) (k : Elsewhere t r v) : Elsewhere s r v :=
  ⟨k.mem.trans h.mem, fun u hu => (k.teams u hu).trans (h.teams u hu), fun g hg => (k.gangs g hg).trans (h.gangs g hg),
   k.launches.trans h.launches, k.chains.trans h.chains, k.dies.trans h.dies, k.mgmt.trans h.mgmt⟩

theorem active_facts {s : State} {c : Common} {v : View} (h : issueView s c = some v) (hs : Stands s v) :
    v.active.Nodup ∧ ∀ i ∈ v.active, i ∈ v.iss.group ∧ i < 32 := by
  obtain ⟨-, -, -, -, -, -, ha⟩ := issueView_eq h
  rw [ha]
  exact ⟨hs.2.2.filter _, fun i hi => ⟨(List.mem_filter.mp hi).1, hs.2.1 i (List.mem_filter.mp hi).1⟩⟩

/-- Ending a slot and then changing the active lanes. -/
theorem endWith_ended {s : State} {c : Common} {v : View} (h : issueView s c = some v) (hs : Stands s v) (f : Nat → Lane → Lane) :
    Ended s (endWith s v f) v f := by
  obtain ⟨-, -, hg, hb, -⟩ := issueView_eq h
  obtain ⟨hnd, hact⟩ := active_facts h hs
  obtain ⟨⟨x, hx, hl⟩, -⟩ := hs
  have e := afterSlot_end s v false WinSlot.none hx hg
  have ex := gangOf_eq hx
  obtain ⟨y, hy, hyl⟩ := e.found
  rw [ex, hl] at hyl
  have ey := gangOf_eq hy
  obtain ⟨z, hz, hzl, hzlane, hze⟩ := modActive_lanes _ v f hg hy hnd
  have ez := gangOf_eq hz
  obtain ⟨hel, hbay⟩ := modActive_rest (afterSlot s v false WinSlot.none) v f hg
  unfold endWith
  refine ⟨fun i hi => ?_, fun i hi hn => ?_, ?_, ?_, ?_, ?_, ?_, e.elsewhere.trans hel⟩
  · have h32 := (hact i hi).2
    refine ⟨laneOf (afterSlot s v false WinSlot.none) v i, ?_, e.regs i, e.preds i, e.fst i, e.sys i, e.st i, ?_⟩
    · rw [laneOf, ez, hzlane i (by omega), if_pos hi, laneOf, ey]
    · by_cases hsl : v.iss.slot < v.iss.ni
      · exact .inl hsl
      · refine .inr ?_
        rw [e.pc i (by rw [ex, hl]; exact h32), slotPc, if_neg hsl, if_pos (by simpa using (hact i hi).1)]
  · have : laneOf (modActive (afterSlot s v false WinSlot.none) v f) v i = laneOf (afterSlot s v false WinSlot.none) v i := by
      rw [laneOf, ez, hzlane i (by omega), if_neg hn, laneOf, ey]
    rw [this, e.regs, e.preds, e.fst, e.sys, e.st]
    exact ⟨rfl, rfl, rfl, rfl, rfl⟩
  · rw [ez, hze, ← e.cregs, ey]
  · rw [ez, hze, ← e.flags, ey]
  · rw [ez, hze, ← e.chunks, ey]
  · rw [ez, hze, ← e.gsys, ey]; rfl
  · have := afterSlot_advanced s v false WinSlot.none hb
    unfold Advanced at this ⊢
    rw [hbay]; exact this

theorem addFlag_rest (g : Gang) (n : Nat) :
    (g.addFlag n).lanes = g.lanes ∧ (g.addFlag n).cregs = g.cregs ∧ (g.addFlag n).ops = g.ops ∧ (g.addFlag n).chunks = g.chunks ∧
    (g.addFlag n).sys = g.sys ∧ (∀ m, (g.addFlag n).flag m = g.flag m + (if m = n ∧ m ≠ 0 then 1 else 0)) := by
  unfold Gang.addFlag
  split
  · next h =>
    refine ⟨rfl, rfl, rfl, rfl, rfl, fun m => ?_⟩
    rw [if_neg (by omega)]; rfl
  · next h =>
    refine ⟨rfl, rfl, rfl, rfl, rfl, fun m => ?_⟩
    simp only [Gang.flag, tget_tput]
    by_cases hm : m = n
    · subst hm; simp [h]
    · simp [hm]

/-- A gang with an operation begun: one with nothing to do has ended already (R64). -/
def started (g : Gang) (id n : Nat) (k : OpKind) (lanes also : List Nat) (w : DWord) : Gang :=
  if idleOp k lanes then g else Gang.addFlag { g with ops := g.ops ++ [{ id := id, flag := n, kind := k, lanes := lanes, also := also, insn := w }] } n

theorem started_rest (g : Gang) (id n : Nat) (k : OpKind) (lanes also : List Nat) (w : DWord) :
    (started g id n k lanes also w).lanes = g.lanes ∧ (started g id n k lanes also w).cregs = g.cregs ∧
    (started g id n k lanes also w).ops = g.ops ++ (if idleOp k lanes then [] else [{ id := id, flag := n, kind := k, lanes := lanes, also := also, insn := w }]) ∧
    (started g id n k lanes also w).chunks = g.chunks ∧ (started g id n k lanes also w).sys = g.sys ∧
    (∀ m, (started g id n k lanes also w).flag m = g.flag m + (if m = n ∧ m ≠ 0 ∧ idleOp k lanes = false then 1 else 0)) := by
  unfold started
  cases idleOp k lanes
  · obtain ⟨r1, r2, r3, r4, r5, r6⟩ := addFlag_rest { g with ops := g.ops ++ [{ id := id, flag := n, kind := k, lanes := lanes, also := also, insn := w }] } n
    refine ⟨r1, r2, r3, r4, r5, fun m => ?_⟩
    simp only [and_true]; exact r6 m
  · exact ⟨rfl, rfl, by simp, rfl, rfl, fun m => by simp⟩

theorem startOp_gang (s : State) (v : View) (n : Nat) (k : OpKind) (lanes also : List Nat) (hg : v.g = v.iss.gang) {x : Gang}
    (hx : findGang s v.iss.team v.iss.gang = some x) :
    findGang (startOp s v n k lanes also) v.iss.team v.iss.gang = some (started x s.fresh n k lanes also v.word) := by
  unfold startOp started
  split
  · exact hx
  · rw [hg, findGang_modGang, show findGang { s with fresh := s.fresh + 1 } v.iss.team v.iss.gang = some x from hx]
    rfl

theorem startOp_bays (s : State) (v : View) (n : Nat) (k : OpKind) (lanes also : List Nat) (a b : Nat) :
    bayOf (startOp s v n k lanes also) a b = bayOf s a b := by
  unfold startOp; split <;> rfl

theorem startOp_elsewhere (s : State) (v : View) (n : Nat) (k : OpKind) (lanes also : List Nat) (hg : v.g = v.iss.gang) :
    Elsewhere s (startOp s v n k lanes also) v := by
  unfold startOp
  split
  · exact ⟨rfl, fun _ _ => rfl, fun _ _ => rfl, rfl, rfl, rfl, rfl⟩
  refine ⟨rfl, fun u hu => ?_, fun g h => ?_, rfl, rfl, rfl, rfl⟩
  · exact findTeam_modGang_ne _ _ _ hu
  · rw [hg]; exact findGang_modGang_ne _ _ (.inr h)

end Sys2Proof.Machine
end

