-- ==== Sys2Proof/Laws/Queue.lean ====
section
/-! SUPPORT. What a memory instruction and a flag-tracked computation leave behind once their checks pass (R64, R73, R187): the
lemmas that every statement about one cites. -/

namespace Sys2Proof.Machine

/-- The operations of a gang stand, and the queue of each lane has only grown. -/
def Grew (last : Prop) (g k : Gang) : Prop :=
  k.ops = g.ops ∧ ∀ i, ∃ rest, (¬ last → rest = []) ∧ (k.lane i).queue = (g.lane i).queue ++ rest

theorem Grew.refl (last : Prop) (g : Gang) : Grew last g g := ⟨rfl, fun _ => ⟨[], fun _ => rfl, by simp⟩⟩
theorem Grew.trans {last : Prop} {g k m : Gang} (h : Grew last g k) (h' : Grew last k m) : Grew last g m :=
  ⟨h'.1.trans h.1, fun i => by
    obtain ⟨r, hr, e⟩ := h.2 i
    obtain ⟨r', hr', e'⟩ := h'.2 i
    exact ⟨r ++ r', fun hn => by rw [hr hn, hr' hn]; rfl, by rw [e', e, List.append_assoc]⟩⟩

theorem grew_map (g : Gang) (P : List Port) (f : Nat → Lane → Lane) (hf : ∀ i l, ∃ r, (f i l).queue = l.queue ++ r) :
    Grew True g { g with ports := P, lanes := (List.range g.lanes.length).map (fun i => f i (g.lane i)) } := by
  refine ⟨rfl, fun i => ?_⟩
  by_cases h : i < g.lanes.length
  · obtain ⟨r, hr⟩ := hf i (g.lane i)
    refine ⟨r, fun hn => absurd trivial hn, ?_⟩
    rw [← hr]
    simp [Gang.lane, List.getD_eq_getElem?_getD, h]
  · refine ⟨[], fun _ => rfl, ?_⟩
    rw [lane_out g i h, lane_out _ i (by simpa using h)]; rfl

theorem bindPorts_grew (g : Gang) (l : List (Nat × DWord × Nat)) : Grew True g (g.bindPorts l) := by
  unfold Gang.bindPorts
  induction l generalizing g with
  | nil => exact .refl _ g
  | cons x t ih =>
    rw [List.foldl_cons]
    refine Grew.trans ?_ (ih _)
    refine ⟨rfl, fun i => ?_⟩
    by_cases h : i < g.lanes.length
    · refine ⟨fillOps g.ports ((g.lane i).slots.filter (fun e => e.1 == x.1)), fun hn => absurd trivial hn, ?_⟩
      simp only [Gang.lane, List.getD_eq_getElem?_getD, List.getElem?_map]
      rw [List.getElem?_eq_getElem h]
      rfl
    · refine ⟨[], fun _ => rfl, ?_⟩
      rw [lane_out g i h, lane_out _ i (by simpa using h)]; rfl

theorem afterSlot_grew (s : State) (v : View) (half : Bool) (w : WinSlot) {x : Gang}
    (hx : findGang s v.iss.team v.iss.gang = some x) (hg : v.g = v.iss.gang) :
    ∃ y, findGang (afterSlot s v half w) v.iss.team v.iss.gang = some y ∧ Grew (¬ v.iss.slot < v.iss.ni) x y := by
  unfold afterSlot
  dsimp only
  split
  · exact ⟨x, hx, .refl _ _⟩
  · next h =>
    unfold endIssue
    dsimp only
    refine ⟨_, by
      rw [findGang_modBay, hg, findGang_modGang, findGang_modGang, findGang_passed,
        show findGang { s with fresh := s.fresh + 1 } v.iss.team v.iss.gang = some x from hx]
      rfl, ?_⟩
    have e : (¬ v.iss.slot < v.iss.ni) = True := by simp [h]
    rw [e]
    refine Grew.trans (grew_map x x.ports (fun i l => if v.iss.group.contains i then
        fillSlots v.iss.ports { l with pc := v.iss.pc + BitVec.ofNat 64 (8 * (2 + v.iss.ni + v.iss.lits.length / 2)), lastIssue := v.t, resume := 0 }
      else l) (fun i l => ?_)) (bindPorts_grew _ _)
    split
    · exact ⟨_, rfl⟩
    · exact ⟨[], by simp⟩

/-- Changing some lanes of a gang one after the other. -/
theorem modLanes_lanes (s : State) (u g : Nat) (f : Nat → Lane → Lane) (l : List Nat) {x : Gang}
    (hx : findGang s u g = some x) (hn : l.Nodup) :
    ∃ y, findGang (l.foldl (fun s i => modLane s u g i (f i)) s) u g = some y ∧ y.lanes.length = x.lanes.length ∧
      (∀ i < x.lanes.length, y.lane i = if i ∈ l then f i (x.lane i) else x.lane i) ∧ y = { x with lanes := y.lanes } := by
  induction l generalizing s x with
  | nil => exact ⟨x, hx, rfl, by simp, rfl⟩
  | cons a t ih =>
    rw [List.nodup_cons] at hn
    have h1 : findGang (modLane s u g a (f a)) u g = some { x with lanes := x.lanes.modify a (f a) } := by
      rw [modLane, findGang_modGang, hx]; rfl
    obtain ⟨y, hy, hl, hlane, he⟩ := ih _ h1 hn.2
    refine ⟨y, hy, by rw [hl]; simp, fun i hi => ?_, by rw [he]⟩
    rw [hlane i (by simpa using hi)]
    have hm : ({ x with lanes := x.lanes.modify a (f a) } : Gang).lane i = if a = i then f a (x.lane i) else x.lane i := by
      simp only [Gang.lane, List.getD_eq_getElem?_getD, List.getElem?_modify]
      by_cases h : a = i
      · simp [h, hi]
      · simp [h]
    rw [hm]
    by_cases h : a = i
    · subst h
      simp [hn.1]
    · have h' : i ≠ a := fun e => h e.symm
      simp [h, h', List.mem_cons]

theorem modLanes_rest (s : State) (v : View) (f : Nat → Lane → Lane) (hg : v.g = v.iss.gang) (l : List Nat) :
    Elsewhere s (l.foldl (fun s i => modLane s v.iss.team v.g i (f i)) s) v ∧
      (∀ c b, bayOf (l.foldl (fun s i => modLane s v.iss.team v.g i (f i)) s) c b = bayOf s c b) := by
  induction l generalizing s with
  | nil => exact ⟨⟨rfl, fun _ _ => rfl, fun _ _ => rfl, rfl, rfl, rfl, rfl⟩, fun _ _ => rfl⟩
  | cons a t ih =>
    obtain ⟨h, hb⟩ := ih (modLane s v.iss.team v.g a (f a))
    refine ⟨⟨h.mem, fun u hu => ?_, fun g hgg => ?_, h.launches, h.chains, h.dies, h.mgmt⟩, hb⟩
    · rw [List.foldl_cons, h.teams u hu]; exact findTeam_modGang_ne _ _ _ hu
    · rw [List.foldl_cons, h.gangs g hgg, modLane, hg]; exact findGang_modGang_ne _ _ (.inr hgg)

/-- A memory instruction's operation stands in its lanes' queues, and the slot has ended. -/
theorem queueOp_queued {s : State} {c : Common} {v : View} (h : issueView s c = some v) (hs : Stands s v) (lanes also : List Nat)
    (ks : Nat → List MemKind) (hn : lanes.Nodup) :
    Queued s (afterSlot (queueOp s v c.setf lanes also ks) v false WinSlot.none) v c lanes ks := by
  obtain ⟨-, -, hg, hb, -⟩ := issueView_eq h
  obtain ⟨⟨x, hx, hl⟩, hgrp, -⟩ := hs
  have ex := gangOf_eq hx
  have h1 := startOp_gang s v c.setf .mem (lanes.map (fun i => (v.gang.lane i).ident)) (also.map (fun i => (v.gang.lane i).ident)) hg hx
  have hel1 := startOp_elsewhere s v c.setf .mem (lanes.map (fun i => (v.gang.lane i).ident)) (also.map (fun i => (v.gang.lane i).ident)) hg
  have hb1 : ∀ a b, bayOf (startOp s v c.setf .mem (lanes.map (fun i => (v.gang.lane i).ident)) (also.map (fun i => (v.gang.lane i).ident))) a b =
      bayOf s a b := fun _ _ => startOp_bays _ _ _ _ _ _ _ _
  unfold queueOp
  dsimp only
  generalize startOp s v c.setf .mem (lanes.map (fun i => (v.gang.lane i).ident)) (also.map (fun i => (v.gang.lane i).ident)) = s1 at *
  set x1 := started x s.fresh c.setf .mem (lanes.map (fun i => (v.gang.lane i).ident)) (also.map (fun i => (v.gang.lane i).ident)) v.word with hx1
  obtain ⟨r1, r2, r3, r4, r5, r6⟩ := started_rest x s.fresh c.setf .mem (lanes.map (fun i => (v.gang.lane i).ident)) (also.map (fun i => (v.gang.lane i).ident)) v.word
  rw [← hx1] at r1 r2 r3 r4 r5 r6
  obtain ⟨y, hy, yl, ylane, yeq⟩ := modLanes_lanes s1 v.iss.team v.iss.gang (fun i l => l.push (opEntries s.fresh v.word (ks i))) lanes h1 hn
  obtain ⟨hel2, hb2⟩ := modLanes_rest s1 v (fun i l => l.push (opEntries s.fresh v.word (ks i))) hg lanes
  have hfold : (lanes.foldl (fun s2 i => modLane s2 v.iss.team v.g i (fun l => l.push ((List.range (ks i).length).map (fun j =>
      { op := s.fresh, kind := (ks i).getD j (.rel .core), last := j + 1 == (ks i).length, acks := [], parked := none, insn := v.word })))) s1) =
      lanes.foldl (fun s2 i => modLane s2 v.iss.team v.g i (fun l => l.push (opEntries s.fresh v.word (ks i)))) s1 := rfl
  rw [hfold]
  rw [hg] at hel2 hb2 ⊢
  generalize lanes.foldl (fun s2 i => modLane s2 v.iss.team v.iss.gang i (fun l => l.push (opEntries s.fresh v.word (ks i)))) s1 = s2 at *
  have e := afterSlot_end s2 v false WinSlot.none hy hg
  obtain ⟨z, hz, zops, zq⟩ := afterSlot_grew s2 v false WinSlot.none hy hg
  have ey := gangOf_eq hy
  have ez := gangOf_eq hz
  have hx1l : x1.lanes = x.lanes := r1
  have hlane1 : ∀ i, x1.lane i = x.lane i := fun i => by rw [Gang.lane, Gang.lane, hx1l]
  have hylane : ∀ i, i < 32 → laneOf s2 v i = if i ∈ lanes then (x.lane i).push (opEntries s.fresh v.word (ks i)) else x.lane i := by
    intro i hi
    rw [laneOf, ey, ylane i (by rw [hx1l, hl]; exact hi), hlane1]
  have hel : Elsewhere s (afterSlot s2 v false WinSlot.none) v := (hel1.trans hel2).trans e.elsewhere
  refine ⟨⟨fun i hi => ?_, fun i hi => ?_, fun i hi => ?_, ⟨?_, fun i hi => ?_⟩, ?_, hel⟩, ?_, fun n => ?_, ?_, ?_⟩
  · rw [e.regs, hylane i hi, laneOf, ex]; split <;> rfl
  · rw [e.preds, hylane i hi, laneOf, ex]; split <;> rfl
  · rw [e.fst, hylane i hi, laneOf, ex]; split <;> rfl
  · rw [e.gsys, ey, yeq, ex]; exact r5
  · rw [e.sys, hylane i hi, laneOf, ex]; split <;> rfl
  · rw [e.cregs, ey, yeq, ex]; exact r2
  · refine ⟨s.fresh, also.map (fun i => (v.gang.lane i).ident), ?_, fun i hi => ?_⟩
    · rw [ez, zops, yeq, ex]
      refine r3.trans ?_
      cases lanes <;> rfl
    · obtain ⟨rest, hr, hq⟩ := zq i
      refine ⟨rest, fun hlt => hr (by simp [hlt]), ?_⟩
      have : y.lane i = laneOf s2 v i := by rw [laneOf, ey]
      rw [laneOf, ez, hq, this, hylane i hi, laneOf, ex]
      by_cases hm : i ∈ lanes
      · simp [hm, Lane.push]
      · simp [hm]
  · rw [Gang.flag, e.flags, ey, ex]
    have := r6 n
    rw [yeq]
    refine Eq.trans (b := x1.flag n) rfl (this.trans ?_)
    cases lanes <;> simp [idleOp, Gang.flag]
  · exact afterSlot_advanced s2 v false WinSlot.none (by rw [hb2, hb1]; exact hb)
  · by_cases hsl : v.iss.slot < v.iss.ni
    · exact .inl hsl
    · refine .inr (fun i hi => ?_)
      rw [e.pc i (by rw [ey, yl, hx1l, hl]; exact hgrp i hi), slotPc, if_neg hsl, if_pos (by simpa using hi)]

theorem addrFaults_none {v : View} {lanes : List Nat} {addr : Nat → Nat} {align : Nat} {bad : Nat → Option Cause} {acc : Nat}
    (h : ∀ i ∈ lanes, addr i % align = 0 ∧ bad (addr i) = none) : addrFaults v lanes addr align bad acc = none := by
  unfold addrFaults accessFault
  have h1 : ∀ (p : Nat → Option FaultInfo), (∀ i ∈ lanes, p i = none) → lanes.findSome? p = none := by
    intro p hp; exact List.findSome?_eq_none_iff.mpr hp
  simp only [Option.map_eq_none_iff]
  rw [h1 _ (fun i hi => by simp [(h i hi).1]), h1 _ (fun i hi => by simp [(h i hi).2])]
  rfl

theorem addrFaultsFirst_none {v : View} {lanes : List Nat} {addr : Nat → Nat} {align : Nat} {bad : Nat → Option Cause} {acc : Nat}
    (h : ∀ i ∈ lanes, addr i % align = 0 ∧ bad (addr i) = none) : addrFaultsFirst v lanes addr align bad acc = none := by
  unfold addrFaultsFirst
  rw [addrFaults_none (fun i hi => ⟨Nat.mod_one _, (h i hi).2⟩), addrFaults_none (fun i hi => ⟨(h i hi).1, rfl⟩)]
  rfl

theorem actors_nodup {v : View} (h : v.active.Nodup) (f : Front) (b : Bool) : (v.actors f b).Nodup := by
  unfold View.actors View.acting
  dsimp only
  split <;> split <;> first
    | exact (h.filter _).sublist (List.take_sublist _ _)
    | exact h.sublist (List.take_sublist _ _)
    | exact h.filter _
    | exact h

/-- A memory instruction that passes its checks and whose addresses are good places its operation. -/
theorem execMem_queued {s : State} {c : Common} {m : MemShape} {v : View}
    (h : Passes s c { m.front with allowQ := false } m.own v)
    (hok : ∀ i ∈ v.actors { m.front with allowQ := false } m.helpers, m.addr v i % m.align = 0 ∧ m.bad v (m.addr v i) = none) :
    ∃ t, execMem c m s = .next t ∧ Queued s t v c (v.actors { m.front with allowQ := false } m.helpers) (m.ops v) := by
  refine ⟨_, by
    unfold execMem
    dsimp only
    rw [issueChecks_pass h]
    have : (if m.addrFirst then addrFaultsFirst else addrFaults) v (v.actors { m.front with allowQ := false } m.helpers) (m.addr v)
        m.align (m.bad v) m.acc = none := by
      split
      · exact addrFaultsFirst_none hok
      · exact addrFaults_none hok
    rw [this], ?_⟩
  exact queueOp_queued h.view h.stands _ _ _ (actors_nodup (active_facts h.view h.stands).1 _ _)

-- Flag-tracked computations

theorem tget_foldl_tput {β : Type} [DecidableEq β] (d : β) (key : Nat → Nat) (val : Nat → β) (l : List Nat) (m : List (Nat × β)) (hn : (l.map key).Nodup) :
    ∀ i ∈ l, tget d (l.foldl (fun m i => tput d m (key i) (val i)) m) (key i) = val i := by
  have hout : ∀ (l : List Nat) (m : List (Nat × β)) (k : Nat), (∀ j ∈ l, key j ≠ k) →
      tget d (l.foldl (fun m i => tput d m (key i) (val i)) m) k = tget d m k := by
    intro l
    induction l with
    | nil => intro m k _; rfl
    | cons a t ih =>
      intro m k hk
      rw [List.foldl_cons, ih _ _ (fun j hj => hk j (List.mem_cons_of_mem _ hj)),
        tget_tput_ne _ _ _ (fun e => hk a (List.mem_cons_self ..) e.symm)]
  induction l generalizing m with
  | nil => intro i hi; cases hi
  | cons a t ih =>
    intro i hi
    rw [List.map_cons, List.nodup_cons] at hn
    rw [List.foldl_cons]
    rcases List.mem_cons.mp hi with rfl | hi
    · rw [hout t _ _ (fun j hj e => hn.1 (by rw [← e]; exact List.mem_map_of_mem hj)), tget_tput_same]
    · exact ih _ hn.2 i hi

/-- A flag-tracked computation that passes its checks holds its results for completion. -/
theorem execValue_tracks {s : State} {c : Common} {f : Front} {half : Bool} {run : View → (Nat → LaneIn) → Nat → LaneOut} {v : View}
    (h : Passes s c f (fun _ => none) v) :
    ∃ t, execValue c f half (fun _ => none) run s = .next t ∧ Tracks s t v c f (run v (operands s v f)) := by
  obtain ⟨y, hy, hl, -, hb⟩ := h.gang
  obtain ⟨-, -, hg, -⟩ := issueView_eq h.view
  obtain ⟨hnd, hact⟩ := active_facts h.view h.stands
  generalize hres : v.active.foldl (fun m i =>
      let o := run v (operands s v f) (if f.once c.nwb then v.active.headD 0 else i)
      tput ([], 0) m (v.gang.lane i).ident (if f.once c.nwb ∧ i ≠ v.active.headD 0 then [] else o.regs, o.fst)) [] = res
  generalize hsl : takenSlots v v.active f.dstPort = slots
  generalize hs2 : takeSlots (popped s v f) v v.active f.dstPort = s2
  refine ⟨afterSlot (startOp s2 v c.setf (.value (f.dst.getD { name := .g 0, words := 1 }) res slots)
    (v.active.map (fun i => (v.gang.lane i).ident)) []) v half WinSlot.none, by
      unfold execValue
      rw [issueChecks_pass h, ← hres, ← hsl, ← hs2]
      rfl, ?_⟩
  have hmid : ∃ z, findGang s2 v.iss.team v.iss.gang = some z ∧ z.lanes.length = 32 ∧
      (∀ i < 32, ∃ sl, z.lane i = { y.lane i with slots := sl }) ∧ z = { y with lanes := z.lanes } ∧
      Elsewhere (popped s v f) s2 v ∧ (∀ a b, bayOf s2 a b = bayOf (popped s v f) a b) := by
    subst hs2
    cases hd : f.dstPort with
    | none =>
      exact ⟨y, hy, hl, fun i _ => ⟨_, rfl⟩, rfl, ⟨rfl, fun _ _ => rfl, fun _ _ => rfl, rfl, rfl, rfl, rfl⟩, fun _ _ => rfl⟩
    | some p =>
      dsimp only [takeSlots]
      obtain ⟨z, hz, zl, zlane, zeq⟩ := modLanes_lanes (popped s v f) v.iss.team v.iss.gang
        (fun _ l => { l with slots := l.slots.eraseP (fun x => x.1 == p) }) v.active hy hnd
      obtain ⟨hel, hbay⟩ := modLanes_rest (popped s v f) v (fun _ l => { l with slots := l.slots.eraseP (fun x => x.1 == p) }) hg v.active
      rw [hg] at hel hbay ⊢
      refine ⟨z, hz, by rw [zl, hl], fun i hi => ?_, zeq, hel, hbay⟩
      rw [zlane i (by rw [hl]; exact hi)]
      split
      · exact ⟨_, rfl⟩
      · exact ⟨_, rfl⟩
  obtain ⟨z, hz, zl, zlane, zeq, zel, zb⟩ := hmid
  have h1 := startOp_gang s2 v c.setf (.value (f.dst.getD { name := .g 0, words := 1 }) res slots)
    (v.active.map (fun i => (v.gang.lane i).ident)) [] hg hz
  have hel1 := startOp_elsewhere s2 v c.setf (.value (f.dst.getD { name := .g 0, words := 1 }) res slots)
    (v.active.map (fun i => (v.gang.lane i).ident)) [] hg
  have hb1 : ∀ a b, bayOf (startOp s2 v c.setf (.value (f.dst.getD { name := .g 0, words := 1 }) res slots)
    (v.active.map (fun i => (v.gang.lane i).ident)) []) a b = bayOf s2 a b := fun _ _ => startOp_bays _ _ _ _ _ _ _ _
  generalize startOp s2 v c.setf (.value (f.dst.getD { name := .g 0, words := 1 }) res slots)
    (v.active.map (fun i => (v.gang.lane i).ident)) [] = s3 at *
  obtain ⟨r1, r2, r3, r4, r5, r6⟩ := started_rest z s2.fresh c.setf (.value (f.dst.getD { name := .g 0, words := 1 }) res slots) (v.active.map (fun i => (v.gang.lane i).ident)) [] v.word
  generalize started z s2.fresh c.setf (.value (f.dst.getD { name := .g 0, words := 1 }) res slots) (v.active.map (fun i => (v.gang.lane i).ident)) [] v.word = x1 at *
  have e := afterSlot_end s3 v half WinSlot.none h1 hg
  obtain ⟨w, hw, wops, -⟩ := afterSlot_grew s3 v half WinSlot.none h1 hg
  have ew := gangOf_eq hw
  have e1 := gangOf_eq h1
  have ey := gangOf_eq hy
  have hx1l : x1.lanes = z.lanes := r1
  have hlane : ∀ i < 32, ∃ sl, laneOf s3 v i = { laneOf (popped s v f) v i with slots := sl } := by
    intro i hi
    obtain ⟨sl, hsl⟩ := zlane i hi
    refine ⟨sl, ?_⟩
    rw [laneOf, e1, laneOf, ey, ← hsl, Gang.lane, hx1l]; rfl
  refine ⟨⟨fun i hi => ?_, fun i hi => ?_, fun i hi => ?_, ⟨?_, fun i hi => ?_⟩, ?_, (zel.trans hel1).trans e.elsewhere⟩,
    f.dst.getD { name := .g 0, words := 1 }, res, slots, ⟨⟨s2.fresh, [], [], ?_⟩, fun hf => ?_, fun n hn => ?_, ?_, ?_⟩,
    fun x hx => by rw [hx]; rfl, fun hid i hi => ?_⟩
  · obtain ⟨sl, hsl⟩ := hlane i hi; rw [e.regs, hsl]
  · obtain ⟨sl, hsl⟩ := hlane i hi; rw [e.preds, hsl]
  · obtain ⟨sl, hsl⟩ := hlane i hi; rw [e.fst, hsl]
  · rw [e.gsys, e1, ey]; refine r5.trans ?_; rw [zeq]; rfl
  · obtain ⟨sl, hsl⟩ := hlane i hi; rw [e.sys, hsl]; rfl
  · rw [e.cregs, e1, ey, r2, zeq]
  · rw [ew, wops, r3, ey, zeq]
  · rw [Gang.flag, e.flags, e1, ey]
    have := r6 c.setf
    rw [zeq] at this
    refine Eq.trans (b := x1.flag c.setf) rfl (this.trans ?_)
    cases idleOp (.value (f.dst.getD { name := .g 0, words := 1 }) res slots) (v.active.map (fun i => (v.gang.lane i).ident)) <;>
      simp [hf, Gang.flag]
  · rw [Gang.flag, e.flags, e1, ey]
    have := r6 n
    rw [if_neg (by simp [hn]), zeq] at this
    exact this
  · exact afterSlot_advanced s3 v half WinSlot.none (by rw [hb1, zb]; exact hb)
  · by_cases hsl : v.iss.slot < v.iss.ni
    · exact .inl hsl
    · refine .inr (fun i hi => ?_)
      rw [e.pc i (by rw [e1, hx1l, zl]; exact h.stands.2.1 i hi), slotPc, if_neg hsl, if_pos (by simpa using hi)]
  · subst hres
    refine (tget_foldl_tput ([], 0) (fun i => (v.gang.lane i).ident) (fun i =>
      let o := run v (operands s v f) (if f.once c.nwb then v.active.headD 0 else i)
      (if f.once c.nwb ∧ i ≠ v.active.headD 0 then [] else o.regs, o.fst)) v.active [] hid i hi).trans ?_
    cases f.once c.nwb <;> simp

end Sys2Proof.Machine
end

