-- ==== Sys2Proof/Laws/Commands.lean ====
section
/-! SUPPORT. What a command instruction leaves behind once its checks pass (R263 to R265, R309): the lemma that every statement about
one cites. -/

namespace Sys2Proof.Machine

/-- The registers, fst, c registers and flags of the gang in issue stand, and all that lies outside its team. -/
structure Near (s t : State) (v : View) : Prop where
  gang : ∀ x, findGang s v.iss.team v.iss.gang = some x → ∃ y, findGang t v.iss.team v.iss.gang = some y ∧
    y.lanes.length = x.lanes.length ∧ (∀ i, (y.lane i).regs = (x.lane i).regs ∧ (y.lane i).fst = (x.lane i).fst) ∧
    y.cregs = x.cregs ∧ y.flags = x.flags
  mem : t.mem = s.mem
  teams : ∀ u, u ≠ v.iss.team → findTeam t u = findTeam s u
  launches : t.launches = s.launches
  dies : t.dies = s.dies
  mgmt : t.mgmt = s.mgmt
  bays : ∀ c b, bayOf t c b = bayOf s c b

theorem Near.refl (s : State) (v : View) : Near s s v :=
  ⟨fun x hx => ⟨x, hx, rfl, fun _ => ⟨rfl, rfl⟩, rfl, rfl⟩, rfl, fun _ _ => rfl, rfl, rfl, rfl, fun _ _ => rfl⟩

theorem Near.trans {s t r : State} {v : View} (h : Near s t v) (k : Near t r v) : Near s r v := by
  refine ⟨fun x hx => ?_, k.mem.trans h.mem, fun u hu => (k.teams u hu).trans (h.teams u hu), k.launches.trans h.launches,
    k.dies.trans h.dies, k.mgmt.trans h.mgmt, fun c b => (k.bays c b).trans (h.bays c b)⟩
  obtain ⟨y, hy, l, r1, c, f⟩ := h.gang x hx
  obtain ⟨z, hz, l', r', c', f'⟩ := k.gang y hy
  exact ⟨z, hz, l'.trans l, fun i => ⟨(r' i).1.trans (r1 i).1, (r' i).2.trans (r1 i).2⟩, c'.trans c, f'.trans f⟩

theorem near_modLane (s : State) (v : View) (i : Nat) (f : Lane → Lane) (hf : ∀ l, (f l).regs = l.regs ∧ (f l).fst = l.fst) :
    Near s (modLane s v.iss.team v.iss.gang i f) v := by
  refine ⟨fun x hx => ?_, rfl, fun u hu => findTeam_modGang_ne _ _ _ hu, rfl, rfl, rfl, fun _ _ => rfl⟩
  refine ⟨{ x with lanes := x.lanes.modify i f }, by rw [modLane, findGang_modGang, hx]; rfl, by simp, fun j => ?_, rfl, rfl⟩
  simp only [Gang.lane, List.getD_eq_getElem?_getD, List.getElem?_modify]
  cases x.lanes[j]? with
  | none => exact ⟨rfl, rfl⟩
  | some l => by_cases h : i = j <;> simp [h, hf]

theorem near_modGang (s : State) (v : View) (f : Gang → Gang)
    (hf : ∀ g, (f g).lanes.length = g.lanes.length ∧ (∀ i, ((f g).lane i).regs = (g.lane i).regs ∧ ((f g).lane i).fst = (g.lane i).fst) ∧
      (f g).cregs = g.cregs ∧ (f g).flags = g.flags) : Near s (modGang s v.iss.team v.iss.gang f) v :=
  ⟨fun x hx => ⟨f x, by rw [findGang_modGang, hx]; rfl, hf x⟩, rfl, fun _ hu => findTeam_modGang_ne _ _ _ hu, rfl, rfl, rfl,
    fun _ _ => rfl⟩

theorem near_modLanes (s : State) (v : View) (f : Nat → Lane → Lane) (l : List Nat)
    (hf : ∀ i k, (f i k).regs = k.regs ∧ (f i k).fst = k.fst) :
    Near s (l.foldl (fun s i => modLane s v.iss.team v.iss.gang i (f i)) s) v := by
  induction l generalizing s with
  | nil => exact .refl s v
  | cons a t ih => exact (near_modLane s v a (f a) (hf a)).trans (ih _)

theorem near_ctx (s : State) (v : View) (f : List Ctx → List Ctx) :
    Near s (modTeam s v.iss.team (fun t => { t with ectx := f t.ectx })) v := by
  refine ⟨fun x hx => ⟨x, ?_, rfl, fun _ => ⟨rfl, rfl⟩, rfl, rfl⟩, rfl, fun u hu => findTeam_modTeam_ne _ _ (by intro; rfl) hu, rfl, rfl, rfl,
    fun _ _ => rfl⟩
  unfold findGang at hx ⊢
  rw [findTeam_modTeam _ _ _ (by intro; rfl)]
  cases h : findTeam s v.iss.team with
  | none => rw [h] at hx; cases hx
  | some t => rw [h] at hx; exact hx

theorem near_modCore (s : State) (v : View) (n : Nat) (f : Core → Core) (hf : ∀ k, (f k).bays = k.bays) : Near s (modCore s n f) v := by
  refine ⟨fun x hx => ⟨x, hx, rfl, fun _ => ⟨rfl, rfl⟩, rfl, rfl⟩, rfl, fun _ _ => rfl, rfl, rfl, rfl, fun c b => ?_⟩
  unfold bayOf
  by_cases h : c = n
  · subst h
    by_cases hc : c < s.cores.length
    · rw [coreOf_modCore _ _ _ hc, hf]
    · have : modCore s c f = s := by
        unfold modCore
        rw [List.modify_eq_self (by omega)]
      rw [this]
  · rw [coreOf_modCore_ne _ _ h]

-- The contexts of the team in issue

def ectxs (s : State) (v : View) : Option (List Ctx) := (findTeam s v.iss.team).map (·.ectx)

theorem ctxAt_eq (s : State) (v : View) (e : Nat) : ctxAt s v e = ((ectxs s v).map (fun l => l.getD e Ctx.empty)).getD Ctx.empty := by
  unfold ctxAt ectxs
  cases findTeam s v.iss.team <;> rfl

theorem ectxs_modGang (s : State) (v : View) (g : Nat) (f : Gang → Gang) : ectxs (modGang s v.iss.team g f) v = ectxs s v := by
  unfold ectxs modGang
  rw [findTeam_modTeam _ _ _ (by intro; rfl)]
  cases findTeam s v.iss.team <;> rfl

theorem ectxs_startOp (s : State) (v : View) (n : Nat) (k : OpKind) (lanes also : List Nat) :
    ectxs (startOp s v n k lanes also) v = ectxs s v := by
  unfold startOp
  split
  · rfl
  · exact ectxs_modGang _ _ _ _

theorem ectxs_modLanes (s : State) (v : View) (g : Nat) (f : Nat → Lane → Lane) (l : List Nat) :
    ectxs (l.foldl (fun s i => modLane s v.iss.team g i (f i)) s) v = ectxs s v := by
  induction l generalizing s with
  | nil => rfl
  | cons a t ih => rw [List.foldl_cons, ih]; exact ectxs_modGang _ _ _ _

theorem ectxs_afterSlot (s : State) (v : View) (half : Bool) (w : WinSlot) : ectxs (afterSlot s v half w) v = ectxs s v := by
  unfold afterSlot
  dsimp only
  split
  · rfl
  · unfold endIssue
    dsimp only
    refine (ectxs_modGang _ v v.g _).trans ((ectxs_modGang _ v v.g _).trans rfl)

/-- One command placed. -/
theorem placeCmd_placed (s : State) (v : View) (e : Nat) (k : CmdKind) (sc : Scope) (op : Nat) (dst : Option Dst) (who : Nat)
    (status rel : List Nat) (late : Option Name) (w : DWord) {l : List Ctx} (h : ectxs s v = some l) :
    Near s (placeCmd s v.iss.team v.iss.gang e k sc op dst who status rel late w) v ∧ ∃ cmd : Cmd,
      cmd.kind = k ∧ cmd.no = (l.getD e Ctx.empty).issued.toNat + 1 ∧ cmd.sc = sc ∧ cmd.st = .queued ∧ cmd.gang = v.iss.gang ∧
      ectxs (placeCmd s v.iss.team v.iss.gang e k sc op dst who status rel late w) v = some (l.modify e (fun c =>
        { c with issued := c.issued + 1, scopes := c.scopes ++ [sc], queue := c.queue ++ [cmd] })) := by
  cases ht : findTeam s v.iss.team with
  | none => rw [ectxs, ht] at h; cases h
  | some t =>
    have hl : t.ectx = l := by rw [ectxs, ht] at h; simpa using h
    unfold placeCmd
    rw [ht]
    dsimp only
    refine ⟨(near_ctx s v _).trans (near_modLanes _ v _ _ (fun _ _ => ⟨rfl, rfl⟩)), { no := (t.ctxOf e).issued.toNat + 1, kind := k, sc := sc, gang := v.iss.gang, op := op, dst := dst, lanes := status, who := who, st := .queued, res := [], rows := [], outbox := [], ring := 0, slot := none, pushed := [], rcd := 0, begun := 0, late := late, fault := none, parked := false, insn := w }, rfl, ?_, rfl, rfl, rfl, ?_⟩
    · dsimp only [Team.ctxOf]; rw [hl]
    · rw [ectxs_modLanes, ectxs, findTeam_modTeam _ _ _ (by intro; rfl), ht]
      simp only [Option.map_some, hl]

/-- The commands of several lanes placed one after the other. -/
theorem placeCmds_placed (v : View) (e : Nat) (k : Nat → CmdKind) (sc : Scope) (op : Nat) (dst : Option Dst) (who : Nat → Nat)
    (status rel : Nat → List Nat) (late : Option Name) (w : DWord) (lanes : List Nat) (s : State) {l : List Ctx} (h : ectxs s v = some l) (he : e < l.length)
    (hno : (l.getD e Ctx.empty).issued.toNat + lanes.length < 2 ^ 64) :
    Near s (lanes.foldl (fun s i => placeCmd s v.iss.team v.iss.gang e (k i) sc op dst (who i) (status i) (rel i) late w) s) v ∧
    ∃ m, ectxs (lanes.foldl (fun s i => placeCmd s v.iss.team v.iss.gang e (k i) sc op dst (who i) (status i) (rel i) late w) s) v = some m ∧
      m.length = l.length ∧ (∀ j, j ≠ e → m.getD j Ctx.empty = l.getD j Ctx.empty) ∧
      (m.getD e Ctx.empty).issued = (l.getD e Ctx.empty).issued + BitVec.ofNat 64 lanes.length ∧
      ∃ cs : List Cmd, (m.getD e Ctx.empty).queue = (l.getD e Ctx.empty).queue ++ cs ∧ cs.map (·.kind) = lanes.map k ∧
        cs.map (·.no) = (List.range lanes.length).map (fun j => (l.getD e Ctx.empty).issued.toNat + 1 + j) ∧
        ∀ x ∈ cs, x.sc = sc ∧ x.st = .queued ∧ x.gang = v.iss.gang := by
  induction lanes generalizing s l with
  | nil => exact ⟨.refl s v, l, h, rfl, fun _ _ => rfl, by simp, [], by simp, rfl, rfl, by simp⟩
  | cons a t ih =>
    obtain ⟨hn, cmd, c1, c2, c3, c4, c5, hm⟩ := placeCmd_placed s v e (k a) sc op dst (who a) (status a) (rel a) late w h
    have hg : ∀ j, (l.modify e (fun c => { c with issued := c.issued + 1, scopes := c.scopes ++ [sc], queue := c.queue ++ [cmd] })).getD j Ctx.empty =
        if j = e then { l.getD e Ctx.empty with
          issued := (l.getD e Ctx.empty).issued + 1, scopes := (l.getD e Ctx.empty).scopes ++ [sc], queue := (l.getD e Ctx.empty).queue ++ [cmd] }
        else l.getD j Ctx.empty := by
      intro j
      simp only [List.getD_eq_getElem?_getD, List.getElem?_modify]
      by_cases hj : j = e
      · subst hj; simp [he]
      · have : ¬ e = j := fun x => hj x.symm
        simp [hj, this]
    have hge := hg e
    rw [if_pos rfl] at hge
    have hone : ((l.getD e Ctx.empty).issued + 1).toNat = (l.getD e Ctx.empty).issued.toNat + 1 := by
      rw [BitVec.toNat_add]
      simp only [List.length_cons] at hno
      have : (1 : BitVec 64).toNat = 1 := rfl
      rw [this, Nat.mod_eq_of_lt (by omega)]
    obtain ⟨hn', m, hm', hlen, hoth, hiss, cs, q, ks, ns, xs⟩ := ih _ hm (by simpa using he) (by
      rw [hge]; dsimp only; rw [hone]; simp only [List.length_cons] at hno; omega)
    rw [hge] at hiss q ns
    dsimp only at hiss q ns
    refine ⟨hn.trans hn', m, hm', by rw [hlen]; simp, fun j hj => by rw [hoth j hj, hg, if_neg hj], ?_, cmd :: cs, ?_, ?_, ?_, ?_⟩
    · rw [hiss, List.length_cons, BitVec.add_assoc]
      congr 1
      apply BitVec.eq_of_toNat_eq
      simp [BitVec.toNat_add, Nat.add_comm]
    · rw [q, List.append_assoc]; rfl
    · rw [List.map_cons, ks, c1]; rfl
    · rw [List.map_cons, ns, c2, hone, List.length_cons, List.range_succ_eq_map, List.map_cons, List.map_map]
      congr 1
      apply List.map_congr_left
      intro j _
      simp only [Function.comp]; omega
    · intro x hx
      rcases List.mem_cons.mp hx with rfl | hx
      · exact ⟨c3, c4, c5⟩
      · exact xs x hx

theorem modLanes_cores (s : State) (u g : Nat) (f : Nat → Lane → Lane) (l : List Nat) :
    (l.foldl (fun s i => modLane s u g i (f i)) s).cores = s.cores := by
  induction l generalizing s with
  | nil => rfl
  | cons a t ih => rw [List.foldl_cons, ih]; rfl

theorem placeCmd_cores (s : State) (u g e : Nat) (k : CmdKind) (sc : Scope) (op : Nat) (dst : Option Dst) (who : Nat)
    (status rel : List Nat) (late : Option Name) (w : DWord) : (placeCmd s u g e k sc op dst who status rel late w).cores = s.cores := by
  unfold placeCmd
  split
  · rfl
  · dsimp only; rw [modLanes_cores]; rfl

theorem placeCmds_cores (v : View) (e : Nat) (k : Nat → CmdKind) (sc : Scope) (op : Nat) (dst : Option Dst) (who : Nat → Nat)
    (status rel : Nat → List Nat) (late : Option Name) (w : DWord) (lanes : List Nat) (s : State) :
    (lanes.foldl (fun s i => placeCmd s v.iss.team v.iss.gang e (k i) sc op dst (who i) (status i) (rel i) late w) s).cores = s.cores := by
  induction lanes generalizing s with
  | nil => rfl
  | cons a t ih => rw [List.foldl_cons, ih, placeCmd_cores]

/-- What stands once the commands of an instruction are placed, before its slot ends. -/
theorem placeCmds_all {s : State} {c : Common} {v : View} (m : CmdShape) (once : Bool) (hg : v.g = v.iss.gang)
    {l : List Ctx} (hl : ectxs s v = some l) (he : m.e < l.length) (ht : v.team.ectx = l)
    (hlane : ∀ i k, (m.onLane v i k).regs = k.regs ∧ (m.onLane v i k).fst = k.fst) (hcore : ∀ k, (m.onArray v k).bays = k.bays)
    (lanes : List Nat) (hlanes : lanes = if once || m.group then v.acting.take 1 else v.acting) (s1 : State)
    (hs1 : s1 = startOp s v c.setf .cmds ((List.range lanes.length).map (fun j => (l.getD m.e Ctx.empty).issued.toNat + 1 + j)) [])
    (hno : (l.getD m.e Ctx.empty).issued.toNat + lanes.length < 2 ^ 64) :
    Near s1 (placeCmds s c v m once) v ∧
    (lanes ≠ [] → v.core < s.cores.length → coreOf (placeCmds s c v m once) v.core =
      (let k := m.onArray v (coreOf s v.core)
       if m.array then { k with
         order := k.order ++ (List.range lanes.length).map (fun j => (v.iss.team, m.e, (l.getD m.e Ctx.empty).issued.toNat + 1 + j)) }
       else k)) ∧
    ∃ r, ectxs (placeCmds s c v m once) v = some r ∧
      r.length = l.length ∧ (∀ j, j ≠ m.e → r.getD j Ctx.empty = l.getD j Ctx.empty) ∧
      (r.getD m.e Ctx.empty).issued = (l.getD m.e Ctx.empty).issued + BitVec.ofNat 64 lanes.length ∧
      ∃ cs : List Cmd, (r.getD m.e Ctx.empty).queue = (l.getD m.e Ctx.empty).queue ++ cs ∧ cs.map (·.kind) = lanes.map (m.kind v) ∧
        cs.map (·.no) = (List.range lanes.length).map (fun j => (l.getD m.e Ctx.empty).issued.toNat + 1 + j) ∧
        ∀ x ∈ cs, x.sc = m.sc ∧ x.st = .queued ∧ x.gang = v.iss.gang := by
  have hfrom : (v.team.ctxOf m.e).issued.toNat = (l.getD m.e Ctx.empty).issued.toNat := by rw [Team.ctxOf, ht]
  have h1 : ectxs s1 v = some l := by rw [hs1, ectxs_startOp, hl]
  have hc1 : s1.cores = s.cores := by rw [hs1]; unfold startOp; split <;> rfl
  unfold placeCmds
  dsimp only
  rw [hfrom, hg, ← hlanes, ← hs1]
  cases hemp : lanes.isEmpty with
  | true =>
    have hnil : lanes = [] := by simpa using hemp
    rw [if_pos rfl]
    refine ⟨.refl s1 v, fun h => absurd hnil h, l, h1, rfl, fun _ _ => rfl, ?_, [], ?_, ?_, ?_, by simp⟩ <;> simp [hnil]
  | false =>
    rw [if_neg (by simp)]
    set cdst := m.front.dst.any (fun d => isC d.name) with hcdst
    have hp := placeCmds_placed v m.e (m.kind v) m.sc s.fresh m.front.dst (fun i => (v.gang.lane i).ident)
      (fun i => if cdst then [] else if m.group then v.acting.map (fun j => (v.gang.lane j).ident) else [(v.gang.lane i).ident])
      (fun i => if once || m.group then v.active else [i]) m.late v.word lanes s1 h1 he hno
    have hpc := placeCmds_cores v m.e (m.kind v) m.sc s.fresh m.front.dst (fun i => (v.gang.lane i).ident)
      (fun i => if cdst then [] else if m.group then v.acting.map (fun j => (v.gang.lane j).ident) else [(v.gang.lane i).ident])
      (fun i => if once || m.group then v.active else [i]) m.late v.word lanes s1
    generalize lanes.foldl (fun s2 i => placeCmd s2 v.iss.team v.iss.gang m.e (m.kind v i) m.sc s.fresh m.front.dst
      (v.gang.lane i).ident (if cdst then [] else if m.group then v.acting.map (fun j => (v.gang.lane j).ident) else [(v.gang.lane i).ident])
      (if once || m.group then v.active else [i]) m.late v.word) s1 = s2 at *
    obtain ⟨hn, r, hr, hrest⟩ := hp
    generalize hs3 : (if (once || m.group) = true then s2
      else (v.active.filter (fun i => (v.gang.lane i).helper)).foldl (fun s i =>
        modLane s v.iss.team v.iss.gang i (fun l => l.push [LaneOp.plain (.rel m.sc)])) s2) = s3
    have h3 : Near s2 s3 v ∧ ectxs s3 v = ectxs s2 v ∧ s3.cores = s2.cores := by
      subst hs3
      split
      · exact ⟨.refl _ v, rfl, rfl⟩
      · exact ⟨near_modLanes s2 v (fun _ l => l.push [LaneOp.plain (.rel m.sc)]) _ (fun _ _ => ⟨rfl, rfl⟩),
          ectxs_modLanes _ v _ (fun _ l => l.push [LaneOp.plain (.rel m.sc)]) _, modLanes_cores _ _ _ (fun _ l => l.push [LaneOp.plain (.rel m.sc)]) _⟩
    have h4 : Near s3 (v.acting.foldl (fun s i => modLane s v.iss.team v.iss.gang i (m.onLane v i)) s3) v ∧
        ectxs (v.acting.foldl (fun s i => modLane s v.iss.team v.iss.gang i (m.onLane v i)) s3) v = ectxs s3 v ∧
        (v.acting.foldl (fun s i => modLane s v.iss.team v.iss.gang i (m.onLane v i)) s3).cores = s3.cores :=
      ⟨near_modLanes s3 v (m.onLane v) _ hlane, ectxs_modLanes _ v _ (m.onLane v) _, modLanes_cores _ _ _ (m.onLane v) _⟩
    generalize v.acting.foldl (fun s i => modLane s v.iss.team v.iss.gang i (m.onLane v i)) s3 = s4 at *
    have h5 : Near s4 (modGang s4 v.iss.team v.iss.gang (fun g => g.setReady (inLanes ((m.preds v).map keyP) v.active) (v.t + 2))) v :=
      near_modGang _ _ _ (fun g => ⟨rfl, fun _ => ⟨rfl, rfl⟩, rfl, rfl⟩)
    have hc4 : (modGang s4 v.iss.team v.iss.gang (fun g => g.setReady (inLanes ((m.preds v).map keyP) v.active) (v.t + 2))).cores = s.cores :=
      h4.2.2.trans (h3.2.2.trans (hpc.trans hc1))
    have he5 := ectxs_modGang s4 v v.iss.gang (fun g => g.setReady (inLanes ((m.preds v).map keyP) v.active) (v.t + 2))
    generalize modGang s4 v.iss.team v.iss.gang (fun g => g.setReady (inLanes ((m.preds v).map keyP) v.active) (v.t + 2)) = s5 at *
    refine ⟨(((hn.trans h3.1).trans h4.1).trans h5).trans (near_modCore _ v _ _ (fun k => ?_)), fun _ hc => ?_, r, ?_, hrest⟩
    · split <;> exact hcore k
    · rw [coreOf_modCore _ _ _ (by rw [hc4]; exact hc)]
      have : coreOf s5 v.core = coreOf s v.core := by unfold coreOf; rw [hc4]
      rw [this]
    · exact (he5.trans (h4.2.1.trans h3.2.1)).trans hr

/-- The array of a core at the end of a slot. -/
theorem afterSlot_array (s : State) (v : View) (half : Bool) (w : WinSlot) (n : Nat) :
    (coreOf (afterSlot s v half w) n).order = (coreOf s n).order ∧ (coreOf (afterSlot s v half w) n).arr = (coreOf s n).arr := by
  have hb : ∀ (t : State) (f : Bay → Bay), (coreOf (modBay t v.core v.bay f) n).order = (coreOf t n).order ∧
      (coreOf (modBay t v.core v.bay f) n).arr = (coreOf t n).arr := by
    intro t f
    unfold modBay
    by_cases h : n = v.core
    · subst h
      by_cases hc : v.core < t.cores.length
      · rw [coreOf_modCore _ _ _ hc]; exact ⟨rfl, rfl⟩
      · unfold modCore; rw [List.modify_eq_self (by omega)]; exact ⟨rfl, rfl⟩
    · rw [coreOf_modCore_ne _ _ h]; exact ⟨rfl, rfl⟩
  unfold afterSlot
  dsimp only
  split
  · exact hb _ _
  · unfold endIssue; exact hb _ _

/-- A command instruction that passes its checks and whose addresses are good places its commands. -/
theorem execCmd_placed {s : State} {c : Common} {m : CmdShape} {v : View} (h : Passes s c m.front m.own v)
    (hlane : ∀ i k, (m.onLane v i k).regs = k.regs ∧ (m.onLane v i k).fst = k.fst) (hcore : ∀ k, (m.onArray v k).bays = k.bays)
    (he : m.e < v.team.ectx.length) (lanes : List Nat)
    (hlanes : lanes = if m.front.once false || m.group then v.acting.take 1 else v.acting)
    (hno : (ctxAt s v m.e).issued.toNat + lanes.length < 2 ^ 64)
    (hok : ∀ a, m.addr = some a → ∀ i ∈ lanes, a.1 v i % a.2 = 0 ∧ servedFault s .all (a.1 v i) = none) :
    ∃ t, execCmd c m s = .next t ∧ Placed s t v c m.e m.sc (lanes.map (m.kind v)) ∧
      (lanes ≠ [] → (coreOf t v.core).arr = (m.onArray v (coreOf s v.core)).arr ∧ (m.array = true → (coreOf t v.core).order =
        (m.onArray v (coreOf s v.core)).order ++ (List.range lanes.length).map (fun j =>
          (v.iss.team, m.e, (ctxAt s v m.e).issued.toNat + 1 + j)))) := by
  obtain ⟨ht, -, hg, hb, hu, -⟩ := issueView_eq h.view
  have hs := h.stands
  obtain ⟨⟨x, hx, hxl⟩, hgrp, -⟩ := h.stands
  have hl : ectxs s v = some v.team.ectx := by rw [ectxs, ht]; rfl
  have hctx : ∀ j, ctxAt s v j = v.team.ectx.getD j Ctx.empty := fun j => by rw [ctxAt_eq, hl]; rfl
  rw [hctx] at hno ⊢
  obtain ⟨hc, -⟩ := bay_exists hb
  obtain ⟨hn, har, r, hr, -, hoth, hiss, cs, hq, hk, hnn, hcs⟩ := placeCmds_all (c := c) m (m.front.once false) hg hl he rfl hlane hcore
    lanes hlanes _ rfl hno
  have hgang := startOp_gang s v c.setf .cmds ((List.range lanes.length).map (fun j => (v.team.ectx.getD m.e Ctx.empty).issued.toNat + 1 + j)) [] hg hx
  have helse := startOp_elsewhere s v c.setf .cmds ((List.range lanes.length).map (fun j => (v.team.ectx.getD m.e Ctx.empty).issued.toNat + 1 + j)) [] hg
  have hbay : ∀ a b, bayOf (startOp s v c.setf .cmds ((List.range lanes.length).map (fun j => (v.team.ectx.getD m.e Ctx.empty).issued.toNat + 1 + j)) []) a b = bayOf s a b := fun _ _ => startOp_bays _ _ _ _ _ _ _ _
  generalize startOp s v c.setf .cmds ((List.range lanes.length).map (fun j => (v.team.ectx.getD m.e Ctx.empty).issued.toNat + 1 + j)) [] = s1 at *
  obtain ⟨a1, a2, a3, a4, a5, a6⟩ := started_rest x s.fresh c.setf .cmds ((List.range lanes.length).map (fun j => (v.team.ectx.getD m.e Ctx.empty).issued.toNat + 1 + j)) [] v.word
  obtain ⟨y, hy, yl, yr, yc, yf⟩ := hn.gang _ hgang
  have e := afterSlot_end _ v false WinSlot.none hy hg
  have ex := gangOf_eq hx
  have ey := gangOf_eq hy
  have harr := afterSlot_array (placeCmds s c v m (m.front.once false)) v false WinSlot.none v.core
  refine ⟨afterSlot (placeCmds s c v m (m.front.once false)) v false WinSlot.none, ?_, ?_, ?_⟩
  · refine (issueChecks_pass h _).trans ?_
    dsimp only
    cases ha : m.addr with
    | none => rfl
    | some a =>
      rw [Option.bind_some, ← hlanes, addrFaults_none (hok a ha)]
  · have hlane' : ∀ i, (y.lane i).regs = (x.lane i).regs ∧ (y.lane i).fst = (x.lane i).fst := fun i => by
      have := yr i
      rw [Gang.lane, Gang.lane, a1] at this
      exact this
    refine ⟨⟨cs, ?_, hk, ?_, ?_⟩, ?_, fun j hj => ?_, fun i _ => ?_, fun i _ => ?_, ?_, fun n => ?_, ?_, fun u hu => ?_, ?_, ?_, ?_, ?_, ?_⟩
    · rw [ctxAt_eq, ectxs_afterSlot, hr, hctx]; exact hq
    · rw [hnn, hctx, List.length_map]
    · rw [hg]; exact hcs
    · rw [ctxAt_eq, ectxs_afterSlot, hr, hctx, List.length_map]; exact hiss
    · rw [ctxAt_eq, ectxs_afterSlot, hr, hctx]; exact hoth j hj
    · rw [e.regs, laneOf, ey, (hlane' i).1, laneOf, ex]
    · rw [e.fst, laneOf, ey, (hlane' i).2, laneOf, ex]
    · rw [e.cregs, ey, yc, a2, ex]
    · rw [Gang.flag, e.flags, ey, yf, ex]
      refine Eq.trans (a6 n) ?_
      cases lanes <;> simp [idleOp, Gang.flag]
    · rw [e.elsewhere.mem, hn.mem, helse.mem]
    · rw [e.elsewhere.teams u hu, hn.teams u hu, helse.teams u hu]
    · rw [e.elsewhere.launches, hn.launches, helse.launches]
    · rw [e.elsewhere.dies, hn.dies, helse.dies]
    · rw [e.elsewhere.mgmt, hn.mgmt, helse.mgmt]
    · exact afterSlot_advanced _ v false WinSlot.none (by rw [hn.bays, hbay]; exact hb)
    · by_cases hsl : v.iss.slot < v.iss.ni
      · exact .inl hsl
      · refine .inr (fun i hi => ?_)
        rw [e.pc i (by rw [ey, yl, a1, hxl]; exact hgrp i hi), slotPc, if_neg hsl, if_pos (by simpa using hi)]
  · intro hne
    rw [harr.1, harr.2, har hne hc]
    dsimp only
    constructor
    · split <;> rfl
    · intro hm; rw [if_pos hm]

end Sys2Proof.Machine
end

