-- ==== Sys2Proof/Laws/Encoding.lean ====
section
/-! SUPPORT. Packing the fields of an instruction word and reading them back: one lemma per kind of field. -/

namespace Sys2Proof.Machine

/-- The fields that the encoder packs. -/
def fields (opc : Nat) (c : Common) (dst sa low : Nat) : Raw :=
  { opc := opc, dist := c.dist, setf := c.setf, nwb := if c.nwb then 1 else 0, pn := guardPn c.guard, pg := guardPg c.guard, dst := dst,
    sa := sa, low := low }

theorem fields_opc (o : Nat) (c : Common) (d a l : Nat) : (fields o c d a l).opc = o := rfl
theorem fields_dst (o : Nat) (c : Common) (d a l : Nat) : (fields o c d a l).dst = d := rfl
theorem fields_sa (o : Nat) (c : Common) (d a l : Nat) : (fields o c d a l).sa = a := rfl
theorem fields_low (o : Nat) (c : Common) (d a l : Nat) : (fields o c d a l).low = l := rfl

theorem digit {m a b x : Nat} (ha : a < m) (h : x = a + m * b) : x / m = b ∧ x % m = a := by
  subst h
  constructor
  · rw [Nat.add_mul_div_left _ _ (by omega), Nat.div_eq_of_lt ha, Nat.zero_add]
  · rw [Nat.add_mul_mod_self_left, Nat.mod_eq_of_lt ha]

/-- A word gives back the fields packed into it. -/
theorem ofWord_word (r : Raw) (h : r.wf) : Raw.ofWord r.word = r := by
  obtain ⟨opc, dist, setf, nwb, pn, pg, dst, sa, low⟩ := r
  obtain ⟨h1, h2, h3, h4, h5, h6, h7, h8, h9⟩ := h
  simp only at h1 h2 h3 h4 h5 h6 h7 h8 h9
  obtain ⟨w, hw⟩ : ∃ w, w = Raw.word ⟨opc, dist, setf, nwb, pn, pg, dst, sa, low⟩ := ⟨_, rfl⟩
  rw [← hw]
  obtain ⟨d1, m1⟩ := digit h9 hw
  obtain ⟨d2, m2⟩ := digit h8 d1
  obtain ⟨d3, m3⟩ := digit h7 d2
  obtain ⟨d4, m4⟩ := digit h6 d3
  obtain ⟨d5, m5⟩ := digit h5 d4
  obtain ⟨d6, m6⟩ := digit h4 d5
  obtain ⟨d7, m7⟩ := digit h3 d6
  obtain ⟨d8, m8⟩ := digit h2 d7
  simp only [Nat.div_div_eq_div_mul] at d8 m1 m2 m3 m4 m5 m6 m7 m8
  have e1 : opc % 512 = opc := Nat.mod_eq_of_lt h1
  simp only [Raw.ofWord, fld, Raw.mk.injEq]
  refine ⟨?_, m8, m7, m6, m5, m4, m3, m2, by simpa using m1⟩
  have d9 : w / 2 ^ 55 = opc := d8
  rw [d9]; exact e1

theorem word_lt (r : Raw) (h : r.wf) : r.word < 2 ^ 64 := by
  obtain ⟨opc, dist, setf, nwb, pn, pg, dst, sa, low⟩ := r
  obtain ⟨h1, h2, h3, h4, h5, h6, h7, h8, h9⟩ := h
  simp only at h1 h2 h3 h4 h5 h6 h7 h8 h9
  have up : ∀ {m a b n : Nat}, a < m → b < n → a + m * b < m * n := by
    intro m a b n ha hb
    calc a + m * b < m + m * b := by omega
      _ = m * (b + 1) := by rw [Nat.mul_add, Nat.mul_one, Nat.add_comm]
      _ ≤ m * n := Nat.mul_le_mul_left m hb
  exact up h9 (up h8 (up h7 (up h6 (up h5 (up h4 (up h3 (up h2 h1)))))))

theorem resOk_setf {k : ResKind} {n d : Nat} {b : Bool} (h : resOk k n b d = true) : n ≤ 12 := by
  cases k <;> simp [resOk] at h <;> omega

/-- A well-formed instruction's word decodes as its fields do. -/
theorem decodeWord_put {k : ResKind} {c : Common} {dst : Nat} (hc : c.ok k dst = true) {opc d sa low : Nat} (ho : opc < 512)
    (hd : d < 512) (hs : sa < 512) (hl : low < 2097152) : decodeWord (put opc c d sa low) = decodeRaw (fields opc c d sa low) := by
  simp only [Common.ok, Bool.and_eq_true, decide_eq_true_eq] at hc
  obtain ⟨⟨h1, h2⟩, h3⟩ := hc
  have h3 := resOk_setf h3
  have hw : (fields opc c d sa low).wf := by
    refine ⟨ho, h1, ?_, ?_, ?_, ?_, hd, hs, hl⟩
    · show c.setf < 16; omega
    · show (if c.nwb then 1 else 0) < 2; split <;> omega
    · show guardPn c.guard < 2
      unfold guardPn; split
      · omega
      · split <;> omega
    · show guardPg c.guard < 128
      unfold guardPg; split
      · omega
      · next hg => rw [hg] at h2; simp [Guard.ok] at h2; omega
  have e : (put opc c d sa low).toNat = (fields opc c d sa low).word := by
    show (BitVec.ofNat 64 (fields opc c d sa low).word).toNat = _
    rw [BitVec.toNat_ofNat, Nat.mod_eq_of_lt (word_lt _ hw)]
  rw [decodeWord, e, ofWord_word _ hw]

/-- The common fields read back. -/
theorem commonOf_fields {k : ResKind} {c : Common} {dst : Nat} (hc : c.ok k dst = true) (opc sa low : Nat) :
    commonOf k (fields opc c dst sa low) = some c := by
  obtain ⟨dist, setf, nwb, guard⟩ := c
  simp only [Common.ok, Bool.and_eq_true, decide_eq_true_eq] at hc
  obtain ⟨⟨h1, h2⟩, h3⟩ := hc
  have hg : guardOf (guardPn guard) (guardPg guard) = some guard := by
    cases guard with
    | always => rfl
    | pred n neg =>
      simp only [Guard.ok, decide_eq_true_eq] at h2
      have : n ≠ 127 := by omega
      simp only [guardOf, guardPg, guardPn, this, if_false, h2, if_true]
      cases neg <;> simp
  have hn : ((if nwb then 1 else 0 : Nat) == 1) = nwb := by cases nwb <;> rfl
  simp only [commonOf, fields, hg, hn, h3, if_true]

theorem codeOf_specials (x : Special) : codeOf specials x < 11 ∧ specials[codeOf specials x]? = some x := by cases x <;> decide

/-- The code of a well-formed name fits its field, and names it again. -/
theorem nameCode_lt {n : Name} (h : n.ok = true) : nameCode n < 512 := by
  cases n with
  | sp x => have := (codeOf_specials x).1; simp only [nameCode]; omega
  | _ => simp [Name.ok, nameCode] at h ⊢ <;> omega

theorem nameOf_nameCode {n : Name} (h : n.ok = true) : nameOf (nameCode n) = n := by
  cases n with
  | sp x =>
    obtain ⟨h1, h2⟩ := codeOf_specials x
    have e : 416 + codeOf specials x - 416 = codeOf specials x := by omega
    simp only [nameOf, nameCode]
    have n1 : ¬ 416 + codeOf specials x < 320 := by omega
    have n2 : ¬ 416 + codeOf specials x < 336 := by omega
    have n3 : ¬ 416 + codeOf specials x < 344 := by omega
    have n4 : ¬ 416 + codeOf specials x < 352 := by omega
    have n5 : ¬ 416 + codeOf specials x < 416 := by omega
    simp only [n1, n2, n3, n4, n5, if_false, e, h2]
  | g n => simp [Name.ok] at h; simp [nameOf, nameCode, h]
  | q n => simp [Name.ok] at h; interval_cases n <;> rfl
  | w n => simp [Name.ok] at h; obtain ⟨h1, h2⟩ := h; interval_cases n <;> rfl
  | k n => simp [Name.ok] at h; interval_cases n <;> rfl
  | c n => simp [Name.ok] at h; interval_cases n <;> rfl
  | bad n => simp [Name.ok] at h; obtain ⟨h1, h2⟩ := h; interval_cases n <;> rfl

/-- A code of a table is below its length, and the table names the meaning again. -/
theorem codeOf_lt {α : Type} [DecidableEq α] (l : List α) (x : α) (h : x ∈ l) : codeOf l x < l.length := List.idxOf_lt_length_iff.mpr h
theorem codeOf_get {α : Type} [DecidableEq α] (l : List α) (x : α) (h : x ∈ l) : l[codeOf l x]? = some x := List.getElem?_idxOf h

/-- A signed field reads back. -/
theorem sext_unsext {n : Nat} {v : Int} (hn : 0 < n) (h : sfits n v = true) : unsext n v < 2 ^ n ∧ sext n (unsext n v) = v := by
  obtain ⟨m, rfl⟩ : ∃ m, n = m + 1 := ⟨n - 1, by omega⟩
  simp only [sfits, Nat.add_sub_cancel, Bool.and_eq_true, decide_eq_true_eq] at h
  simp only [unsext, sext, Nat.add_sub_cancel]
  have hp : (2 ^ (m + 1) : Nat) = 2 * 2 ^ m := by rw [Nat.pow_succ]; omega
  have hpos : 0 < 2 ^ m := Nat.pow_pos (by omega)
  rw [hp]
  generalize 2 ^ m = P at *
  by_cases hv : 0 ≤ v
  · have e : v % ((2 * P : Nat) : Int) = v := Int.emod_eq_of_lt hv (by omega)
    rw [e]
    refine ⟨by omega, ?_⟩
    rw [if_pos (by omega)]; omega
  · have e : v % ((2 * P : Nat) : Int) = v + ((2 * P : Nat) : Int) := by
      rw [← Int.add_emod_right, Int.emod_eq_of_lt (by omega) (by omega)]
    rw [e]
    refine ⟨by omega, ?_⟩
    rw [if_neg (by omega)]; omega

theorem predSrc_lt {n : Nat} (h : predSrc n = true) : n < 128 := by simp [predSrc] at h; omega
theorem predDst_back {p : Option Nat} (h : predDstOk p = true) : predDstCode p < 128 ∧ predDstOf (predDstCode p) = some p := by
  cases p with
  | none => exact ⟨by decide, rfl⟩
  | some n => simp [predDstOk] at h; simp [predDstCode, predDstOf, h]; omega
theorem act_back {p : Option Nat} (h : actOk p = true) : actSlot p < 8 ∧ actBit p < 2 ∧ actOf (actBit p) (actSlot p) = p := by
  cases p with
  | none => exact ⟨by decide, by decide, rfl⟩
  | some n => simp [actOk] at h; exact ⟨h, by simp [actBit], rfl⟩

end Sys2Proof.Machine
end

