-- ==== Sys2Proof/Laws/Order.lean ====
section
/-! SUPPORT. The ordering machine: what an access at a home changes, what the end of a lane's part leaves, and what a store puts into a
buffer. -/

namespace Sys2Proof.Machine

-- Homes

theorem rdByte_congr {s t : State} (h : t.mem = s.mem) (k : Nat) : rdByte t k = rdByte s k := by simp [rdByte, h]
theorem rdBytes_congr {s t : State} (h : t.mem = s.mem) (k n : Nat) : rdBytes t k n = rdBytes s k n := by simp [rdBytes, rdByte, h]

/-- Marking a leaf again changes nothing. -/
theorem rdByte_markLeaf_twice (s : State) (loc : Loc) (k : Nat) :
    rdByte (markLeaf (markLeaf s loc true) loc true) k = rdByte (markLeaf s loc true) k := by
  unfold markLeaf
  cases loc.leaf with
  | none => rfl
  | some l =>
    simp only [rdByte, tget_tput_same]
    by_cases h : k = l.key
    · subst h
      simp only [tget_tput_same, if_true]
      ext i; simp
    · simp only [tget_tput_ne _ _ _ h]

/-- Reading back bytes stored one by one at distinct keys. -/
theorem rdByte_stores {α : Type} (off : α → Nat) (val : α → Byte) (base : Nat) (bs : List α) (h : (bs.map off).Nodup) (m : Tab Byte) :
    (∀ b ∈ bs, tget memDefault (bs.foldl (fun m b => tput memDefault m (base + off b) (val b)) m) (base + off b) = val b) ∧
    ∀ k, (∀ b ∈ bs, k ≠ base + off b) →
      tget memDefault (bs.foldl (fun m b => tput memDefault m (base + off b) (val b)) m) k = tget memDefault m k := by
  induction bs generalizing m with
  | nil => simp
  | cons x t ih =>
    rw [List.map_cons, List.nodup_cons] at h
    obtain ⟨h1, h2⟩ := ih h.2 (tput memDefault m (base + off x) (val x))
    refine ⟨?_, ?_⟩
    · rintro b (_ | ⟨_, hb⟩)
      · rw [List.foldl_cons, h2 _ (fun b hb e => h.1 (List.mem_map.mpr ⟨b, hb, by omega⟩)), tget_tput_same]
      · exact h1 b hb
    · intro k hk
      rw [List.foldl_cons, h2 k (fun b hb => hk b (by simp [hb])), tget_tput_ne _ _ _ (hk x (by simp))]

-- Parts of lanes

/-- The entry that a step works on stands in its lane's queue, and its team on a core. -/
theorem partOf_some {s : State} {u g i idx : Nat} {p : Part} (h : partOf s u g i idx = some p) :
    p.uid = u ∧ p.g = g ∧ p.i = i ∧ p.idx = idx ∧ findTeam s u = some p.team ∧ p.team.uid = u ∧ p.team.core = some p.core ∧
    findGang s u g = some (p.team.gang g) ∧ findLane s u g i = some p.lane ∧ p.lane.queue[idx]? = some p.op := by
  unfold partOf at h
  split at h
  · cases h
  next t ht =>
  split at h
  · cases h
  next core hcore =>
  dsimp only at h
  split at h
  · cases h
  next e he =>
  split at h
  · cases h
    have hu : t.uid = u := by
      have := List.find?_some (p := fun t : Team => t.uid == u) ht
      simpa using this
    have hg : t.gangs[g]? = some (t.gang g) := by
      unfold Team.gang at he ⊢
      rw [List.getD_eq_getElem?_getD] at he ⊢
      cases hq : t.gangs[g]? with
      | none =>
        have hz : ((none : Option Gang).getD Gang.empty).lane i = Lane.absent := by
          simp only [Option.getD_none, Gang.lane, Gang.empty, List.getD_eq_getElem?_getD, List.getElem?_replicate]
          split <;> rfl
        rw [hq, hz] at he; simp [Lane.absent] at he
      | some x => rfl
    have hl : (t.gang g).lanes[i]? = some ((t.gang g).lane i) := by
      unfold Gang.lane at he ⊢
      rw [List.getD_eq_getElem?_getD] at he ⊢
      cases hq : (t.gang g).lanes[i]? with
      | none => rw [hq] at he; simp [Lane.absent] at he
      | some x => rfl
    refine ⟨rfl, rfl, rfl, rfl, ht, hu, hcore, ?_, ?_, he⟩
    · simp [findGang, ht, hg]
    · simp [findLane, findGang, ht, hg, hl]
  · cases h

/-- Changing a gang but for its lanes. -/
theorem findLane_modGang (s : State) (u k : Nat) (f : Gang → Gang) (hf : ∀ x, (f x).lanes = x.lanes) (g i : Nat) :
    findLane (modGang s u k f) u g i = findLane s u g i := by
  unfold findLane
  by_cases h : g = k
  · subst h
    rw [findGang_modGang]
    cases findGang s u g with
    | none => rfl
    | some x => simp [hf]
  · rw [findGang_modGang_ne _ _ (.inr h)]

theorem finishPart_lanes (s : State) (u g op id i : Nat) : findLane (finishPart s u g op id) u g i = findLane s u g i := by
  unfold finishPart
  refine findLane_modGang _ _ _ _ (fun x => ?_) _ _
  split
  · rfl
  · dsimp only
    split
    · unfold Gang.subFlag; split <;> rfl
    · rfl

/-- A part that ends takes its entry out of its lane's queue. -/
theorem donePart_lane (s : State) (p : Part) :
    findLane (donePart s p) p.uid p.g p.i = (findLane s p.uid p.g p.i).map (fun l => { l with queue := l.queue.eraseIdx p.idx }) := by
  unfold donePart
  dsimp only
  split
  · rw [finishPart_lanes, findLane_modLane]
  · rw [findLane_modLane]

theorem donePart_mem (s : State) (p : Part) : (donePart s p).mem = s.mem := by
  unfold donePart; dsimp only; split <;> rfl
theorem donePart_cores (s : State) (p : Part) : (donePart s p).cores = s.cores := by
  unfold donePart; dsimp only; split <;> rfl

/-- A lane that has not exited since takes the words of its g destination (R88). -/
theorem writeResult_lane (s : State) (u g i op b w : Nat) (ws : List Word) {l : Lane} (h : findLane s u g i = some l)
    (hl : l.takes op = true) :
    findLane (writeResult s u g i op { name := .g b, words := w } ws) u g i = some (l.setRegs b ws) := by
  show findLane (modLane s u g i _) u g i = _
  rw [findLane_modLane, h]; simp [hl]

theorem writeResult_mem (s : State) (u g i op : Nat) (d : Dst) (ws : List Word) : (writeResult s u g i op d ws).mem = s.mem := by
  unfold writeResult; split <;> rfl
theorem writeResult_cores (s : State) (u g i op : Nat) (d : Dst) (ws : List Word) : (writeResult s u g i op d ws).cores = s.cores := by
  unfold writeResult; split <;> rfl

theorem setRegs_queue (l : Lane) (b : Nat) (ws : List Word) : (l.setRegs b ws).queue = l.queue := by
  induction ws generalizing l b with
  | nil => rfl
  | cons w t ih => rw [Lane.setRegs]; exact ih _ _

/-- A part that delivers words to its lane's registers and ends. -/
theorem deliver_lane {s t : State} {u g i idx : Nat} {p : Part} (h : partOf s u g i idx = some p) (ht : t.teams = s.teams) (b w : Nat)
    (ws : List Word) (hl : p.lane.takes p.op.op = true) : ∃ m,
    findLane (donePart (writeResult t p.uid p.g p.i p.op.op { name := .g b, words := w } ws) p) u g i = some m ∧
    m.queue = p.lane.queue.eraseIdx idx ∧ m.preds = p.lane.preds ∧
    ∀ n, m.reg n = if b ≤ n ∧ n < b + ws.length then ws.getD (n - b) 0 else p.lane.reg n := by
  obtain ⟨hu, hg, hi, hx, -, -, -, -, hlane, -⟩ := partOf_some h
  have hf : findLane t u g i = some p.lane := by rw [← hlane]; simp [findLane, findGang, findTeam, ht]
  subst hu hg hi hx
  refine ⟨{ p.lane.setRegs b ws with queue := (p.lane.setRegs b ws).queue.eraseIdx p.idx }, ?_, ?_, ?_, ?_⟩
  · rw [donePart_lane, writeResult_lane _ _ _ _ _ _ _ _ hf hl]; rfl
  · rw [setRegs_queue]
  · exact (setRegs_rest _ _ _).1
  · intro n
    have := setRegs_reg p.lane b n ws
    simpa [Lane.reg] using this

-- Buffers

theorem copy_setCopy (m : LocalMem) (l : Line) (bs : List Byte) (bad : List Nat) : (m.setCopy l bs bad).copy l = some bs := by
  simp [LocalMem.setCopy, LocalMem.copy]

theorem copy_dropCopy (m : LocalMem) (l : Line) : (m.dropCopy l).copy l = none := by
  simp [LocalMem.dropCopy, LocalMem.copy]

theorem find_filter_ne {β : Type} (m : List (Line × β)) {l k : Line} (h : k ≠ l) :
    (m.filter (fun e => e.1 != l)).find? (fun e => e.1 == k) = m.find? (fun e => e.1 == k) := by
  induction m with
  | nil => rfl
  | cons x t ih =>
    by_cases hx : x.1 = l
    · have : (x.1 != l) = false := by simp [hx]
      rw [List.filter_cons, this, if_neg (by simp), ih, List.find?_cons]
      have : (x.1 == k) = false := by rw [hx]; simpa using fun e => h e.symm
      rw [this]
    · have : (x.1 != l) = true := by simpa using hx
      rw [List.filter_cons, this, if_pos rfl, List.find?_cons, List.find?_cons, ih]

theorem copy_dropCopy_ne (m : LocalMem) {l k : Line} (h : k ≠ l) : (m.dropCopy l).copy k = m.copy k := by
  simp [LocalMem.dropCopy, LocalMem.copy, find_filter_ne _ h]

/-- A byte of a line after bytes were stored from an offset on. -/
theorem buffered_merge (m : LocalMem) (l : Line) (o : Nat) (bs : List Byte) (team lane : Nat) (port : Option Nat) (cmd e : Nat) (w : DWord) (k : Nat) :
    (m.merge l ((List.range bs.length).map (fun i => { off := o + i, val := bs.getD i 0, team := team, lane := lane, port := port, cmd := cmd, era := e, insn := w }))).buffered l k =
      if o ≤ k ∧ k < o + bs.length then bs[k - o]? else m.buffered l k := by
  have he : ∀ (kept new : List BufByte), (LocalMem.entry { m with buf := (l, kept ++ new) :: m.buf.filter (fun e => e.1 != l) } l) = kept ++ new := by
    intro kept new; simp [LocalMem.entry]
  unfold LocalMem.merge LocalMem.buffered
  rw [he, List.find?_append]
  by_cases hk : o ≤ k ∧ k < o + bs.length
  · rw [if_pos hk]
    have h1 : ((m.entry l).filter (fun b => !((List.range bs.length).map (fun i =>
        ({ off := o + i, val := bs.getD i 0, team := team, lane := lane, port := port, cmd := cmd, era := e, insn := w } : BufByte))).any (fun n => n.off == b.off))).find?
        (fun b => b.off == k) = none := by
      rw [List.find?_eq_none]
      intro b hb
      rw [List.mem_filter] at hb
      intro hbk
      have hbk : b.off = k := by simpa using hbk
      have h := hb.2
      simp only [Bool.not_eq_true', List.any_eq_false] at h
      refine h { off := o + (k - o), val := bs.getD (k - o) 0, team := team, lane := lane, port := port, cmd := cmd, era := e, insn := w } ?_ (by simp [hbk]; omega)
      exact List.mem_map.mpr ⟨k - o, by simp; omega, rfl⟩
    rw [h1, Option.none_or, List.map_map, List.find?_map]
    have h2 : (List.range bs.length).find? ((fun b : BufByte => b.off == k) ∘ (fun n : BufByte => { n with olds := m.past l n.off }) ∘ fun i =>
        ({ off := o + i, val := bs.getD i 0, team := team, lane := lane, port := port, cmd := cmd, era := e, insn := w } : BufByte)) = some (k - o) := by
      rw [List.find?_range_eq_some]
      refine ⟨by simp; omega, by simp; omega, ?_⟩
      intro j hj
      simp; omega
    rw [h2]
    simp [List.getD_eq_getElem?_getD]
    rw [List.getElem?_eq_getElem (by omega)]; simp
  · rw [if_neg hk]
    have h2 : (((List.range bs.length).map (fun i =>
        ({ off := o + i, val := bs.getD i 0, team := team, lane := lane, port := port, cmd := cmd, era := e, insn := w } : BufByte))).map
          (fun n => { n with olds := m.past l n.off })).find? (fun b => b.off == k) = none := by
      rw [List.find?_eq_none]
      intro b hb
      obtain ⟨b', hb', rfl⟩ := List.mem_map.mp hb
      obtain ⟨j, hj, rfl⟩ := List.mem_map.mp hb'
      simp at hj ⊢; omega
    rw [h2, Option.or_none, List.find?_filter]
    congr 2
    funext b
    by_cases hb : b.off = k
    · have : ((List.range bs.length).map (fun i =>
        ({ off := o + i, val := bs.getD i 0, team := team, lane := lane, port := port, cmd := cmd, era := e, insn := w } : BufByte))).any (fun n => n.off == b.off) = false := by
        rw [List.any_eq_false]
        intro n hn
        obtain ⟨j, hj, rfl⟩ := List.mem_map.mp hn
        simp at hj ⊢; omega
      rw [this]; simp [hb]
    · simp [hb]

/-- What the drain of such a line is: a write at its home, and the entry gone. -/
theorem drainLine_good {s : State} {n : Nat} {l : Line} {loc : Loc} (hne : (agentMem s (.core n)).entry l ≠ [])
    (hloc : ∀ b ∈ (agentMem s (.core n)).entry l, locate s l.ctx l.addr .write (leased s b.team l.addr) = .ok loc) :
    ∃ t : State, t.mem = s.mem ∧ t.dies = s.dies ∧ (t.dirty = s.dirty ∧ t.older = s.older) ∧ t.cores = s.cores.modify n (fun c => { c with mem := { c.mem with buf := c.mem.buf.filter (fun e => e.1 != l) } }) ∧ ∃ id f, drainLine s (.core n) l = modAgent
      (settleSlots (homeWrite t l.ctx l loc (((agentMem s (.core n)).entry l).map (fun x : BufByte => (x.off, x.val))) false id (some n) (((agentMem s (.core n)).entry l).map BufByte.history)) (lineAddr loc.key) ((((agentMem s (.core n)).entry l).filter (fun x => x.port.isSome)).map (·.off)))
      (.core n) f ∧ ∀ m, (f m).buf = m.buf := by
  have hbytes : ((agentMem s (.core n)).entry l).isEmpty = false := by
    cases h : (agentMem s (.core n)).entry l with
    | nil => exact absurd h hne
    | cons => rfl
  obtain ⟨b0, rest, hcons⟩ := List.exists_cons_of_ne_nil hne
  unfold drainLine
  lift_lets
  extract_lets bytes out good wait bad s1 id offs s2 s3
  have hby : bytes = (agentMem s (.core n)).entry l := rfl
  have hg : good = bytes := by
    show List.filter _ _ = _
    rw [List.filter_eq_self]; intro b hb
    show (match out b with | .ok _ => true | .error _ => false) = true
    rw [show out b = .ok loc from hloc b hb]
  have hw : wait = [] := by
    show List.filter _ _ = _
    rw [List.filter_eq_nil_iff]; intro b hb
    show ¬ (match out b with | .error .residency => true | _ => false) = true
    rw [show out b = .ok loc from hloc b hb]; simp
  have hba : bad = [] := by
    show List.filterMap _ _ = _
    rw [List.filterMap_eq_nil_iff]; intro b hb
    have : out b = .ok loc := hloc b hb
    show (match out b with
      | .error c => if c = .residency then none else some (c, b)
      | .ok _ => none) = none
    rw [this]
  rw [if_neg (by rw [hbytes]; simp), if_pos (by rw [hw]; rfl)]
  have hs3 : s3 = s2 := by
    show List.foldl _ _ _ = _
    rw [hba]; rfl
  rw [hs3]
  have hp : ∀ c : Bool, (if c = true then s1 else spoilRings s1 (lineAddr loc.key)) =
      { s1 with broken := (if c = true then s1 else spoilRings s1 (lineAddr loc.key)).broken } := fun c => by cases c <;> rfl
  refine ⟨{ (if (good.all fun x => x.port == some 16) = true then s1 else spoilRings s1 (lineAddr loc.key)) with
    fresh := (if (good.all fun x => x.port == some 16) = true then s1 else spoilRings s1 (lineAddr loc.key)).fresh + 1 },
    (by rw [hp]; rfl), (by rw [hp]; rfl), (by rw [hp]; exact ⟨rfl, rfl⟩), ?_, s1.fresh, ?_⟩
  · rw [hp]
    show s.cores.modify n _ = _
    congr 1; funext c; rw [hw]; rfl
  · refine ⟨fun m => { (match m.copy l with
          | none => m
          | some bs => { m with snap := modWhere (fun e => e.1 == l) (fun e =>
              (e.1, (((agentMem s (.core n)).entry l).map (fun x : BufByte => (x.off, x.val))).foldl (fun (b : List Byte) (x : Nat × Byte) => b.set x.1 x.2) bs)) m.snap }) with
          acks := (s1.fresh, l) :: (match m.copy l with
          | none => m
          | some bs => { m with snap := modWhere (fun e => e.1 == l) (fun e =>
              (e.1, (((agentMem s (.core n)).entry l).map (fun x : BufByte => (x.off, x.val))).foldl (fun (b : List Byte) (x : Nat × Byte) => b.set x.1 x.2) bs)) m.snap }).acks }, ?_, ?_⟩
    · have hgood : good = b0 :: rest := by rw [hg, hby, hcons]
      have hb0 : out b0 = .ok loc := hloc b0 (by rw [hcons]; simp)
      have hoffs : offs = ((agentMem s (.core n)).entry l).map (fun x => (x.off, x.val)) := by
        show good.map _ = _; rw [hg]
      have hh : good.map BufByte.history = ((agentMem s (.core n)).entry l).map BufByte.history := by rw [hg]
      rw [← hoffs, ← hh]
      have hsome : (List.filter (fun x => x.port.isSome) ((agentMem s (.core n)).entry l)) = List.filter (fun x => x.port.isSome) good := by rw [hg]
      rw [hsome]
      clear hg hw hba hs3 hby hcons
      clear_value good out
      subst hgood
      show (match out b0 with
          | .error _ => s1
          | .ok loc => _) = _
      rw [hb0]; try rfl
    · intro m; dsimp only; split <;> rfl

/-- A buffered line whose page accepts every byte goes to its home: the entry empties, and the home's bytes are the buffered ones. -/
theorem drain_good {s : State} {n : Nat} {l : Line} {loc : Loc} (hn : n < s.cores.length) (hne : (agentMem s (.core n)).entry l ≠ [])
    (hnd : (((agentMem s (.core n)).entry l).map (·.off)).Nodup)
    (hloc : ∀ b ∈ (agentMem s (.core n)).entry l, locate s l.ctx l.addr .write (leased s b.team l.addr) = .ok loc)
    (hch : channelFailed s (lineAddr loc.key) = false) (hset : Settled s) :
    (agentMem (drainLine s (.core n) l) (.core n)).entry l = [] ∧
    (∀ b ∈ (agentMem s (.core n)).entry l, rdByte (drainLine s (.core n) l) (lineAddr loc.key + b.off) = b.val) ∧
    ∀ k, (∀ b ∈ (agentMem s (.core n)).entry l, k ≠ lineAddr loc.key + b.off) →
      rdByte (drainLine s (.core n) l) k = rdByte (markLeaf s loc true) k := by
  obtain ⟨t, t1, t2, ⟨t4, t5⟩, t3, id, f, hd, hf⟩ := drainLine_good hne hloc
  obtain ⟨⟨-, h3, -⟩, -, h1, -⟩ := homeWrite_shape t l.ctx l loc (((agentMem s (.core n)).entry l).map (fun x : BufByte => (x.off, x.val))) false id (some n) (((agentMem s (.core n)).entry l).map BufByte.history)
  have h1 := (h1 (by unfold Settled; rw [t4, t5]; exact hset)).2 (by unfold channelFailed at hch ⊢; rw [t2]; exact hch)
  clear hloc
  generalize homeWrite t l.ctx l loc (((agentMem s (.core n)).entry l).map (fun x : BufByte => (x.off, x.val))) false id (some n) (((agentMem s (.core n)).entry l).map BufByte.history) = H at hd h1 h3
  refine ⟨?_, ?_⟩
  · rw [hd]
    show (coreOf (modCore _ n _) n).mem.entry l = []
    have : n < (settleSlots H (lineAddr loc.key) ((((agentMem s (.core n)).entry l).filter (fun x => x.port.isSome)).map (·.off))).cores.length := by
      show n < H.cores.length
      rw [h3, t3]; simpa using hn
    rw [coreOf_modCore _ _ _ this]
    show (f _).entry l = []
    unfold LocalMem.entry
    rw [hf]
    show (((H.cores.getD n Core.reset).mem.buf.find? _).map _).getD [] = []
    rw [h3, t3]
    simp [List.getD_eq_getElem?_getD, hn]
    rw [show List.find? (fun _ => false) s.cores[n].mem.buf = none from by rw [List.find?_eq_none]; simp]; rfl
  · have hm : ∀ k, rdByte (drainLine s (.core n) l) k = tget memDefault ((((agentMem s (.core n)).entry l).map (fun x : BufByte => (x.off, x.val))).foldl (fun m b => tput memDefault m (lineAddr loc.key + b.1) b.2) (markLeaf s loc true).mem) k := by
      intro k
      rw [hd]
      show tget memDefault H.mem k = _
      rw [h1]
      congr 2
      unfold markLeaf
      cases loc.leaf with
      | none => exact t1
      | some x => show tput _ t.mem _ (rdByte t _ ||| _) = _; rw [rdByte_congr t1, t1]
    obtain ⟨g1, g2⟩ := rdByte_stores (fun x : Nat × Byte => x.1) (fun x => x.2) (lineAddr loc.key) (((agentMem s (.core n)).entry l).map (fun x : BufByte => (x.off, x.val))) (by rw [List.map_map]; exact hnd) (markLeaf s loc true).mem
    refine ⟨fun b hb => ?_, fun k hk => ?_⟩
    · rw [hm]; exact g1 _ (List.mem_map.mpr ⟨b, hb, rfl⟩)
    · rw [hm, g2 k (fun b hb => ?_)]
      · rfl
      obtain ⟨x, hx, rfl⟩ := List.mem_map.mp hb
      exact hk x hx

-- Acquires

/-- An acquire of a core drops prefetched elements of its lanes, and nothing else of theirs. -/
theorem acquireCore_gang (s : State) (core : Nat) (sc : Scope) (u g : Nat) {x : Gang} (h : findGang s u g = some x) :
    ∃ y, findGang (acquireCore s core sc) u g = some y ∧ y.lanes.length = x.lanes.length ∧ y.ops = x.ops ∧ y.flags = x.flags ∧
      ∀ i, ∃ pre, y.lane i = { x.lane i with pre := pre } := by
  unfold findGang at h
  cases ht : findTeam s u with
  | none => rw [ht] at h; cases h
  | some t =>
    rw [ht] at h
    have hx : t.gangs[g]? = some x := h
    have hu : ∀ (s : State) (F : Team → Team), (∀ t, (F t).uid = t.uid) → ({ s with teams := s.teams.map F } : State).teams.find? (fun t => t.uid == u) = (s.teams.find? (fun t => t.uid == u)).map F := by
      intro s F hF
      show (s.teams.map F).find? _ = _
      rw [List.find?_map]
      congr 2; funext t; simp [hF]
    unfold findGang findTeam acquireCore
    rw [hu _ _ (by intro t; split <;> rfl)]
    have : (modCore s core (fun c => { c with mem := c.mem.acquire (coreDie core) sc })).teams.find? (fun t => t.uid == u) = some t := ht
    rw [this]
    simp only [Option.map_some, Option.bind_some]
    have hgx : t.gang g = x := by simp [Team.gang, List.getD_eq_getElem?_getD, hx]
    have hlt : g < t.gangs.length := by
      rcases List.getElem?_eq_some_iff.mp hx with ⟨h, -⟩; exact h
    split
    · refine ⟨_, by simp [hlt]; rfl, ?_, ?_, ?_, ?_⟩
      · simp [hgx]
      · simp [hgx]
      · simp [hgx]
      · intro i
        by_cases hi : i < x.lanes.length
        · simp only [hgx]
          rw [lane_mapAll _ _ _ hi]
          exact ⟨_, rfl⟩
        · refine ⟨(x.lane i).pre, ?_⟩
          rw [lane_out x i hi, lane_out]
          simpa [hgx] using hi
    · exact ⟨x, hx, rfl, rfl, rfl, fun i => ⟨_, rfl⟩⟩

theorem acquireCore_mem (s : State) (core : Nat) (sc : Scope) : (acquireCore s core sc).mem = s.mem := rfl
theorem acquireCore_cores (s : State) (core : Nat) (sc : Scope) : (acquireCore s core sc).cores = (modCore s core (fun c => { c with mem := c.mem.acquire (coreDie core) sc })).cores := rfl

theorem lane_of_gang {s : State} {u g i : Nat} {x : Gang} (h : findGang s u g = some x) (hi : i < x.lanes.length) : findLane s u g i = some (x.lane i) := by
  unfold findLane; rw [h]; simp [Gang.lane, List.getD_eq_getElem?_getD, hi]

end Sys2Proof.Machine
end

