-- ==== Sys2Proof/Laws/PerInstr.lean ====
section
/-! SUPPORT. Decoding an encoded well-formed instruction gives it back, instruction by instruction: the family RoundTrip. -/

namespace Sys2Proof.Laws.RoundTrip

open Sys2Proof Sys2Proof.Machine

set_option linter.unusedSimpArgs false

/-- A well-formed instruction decodes from its own word; a whole step of the machine has no word. -/
def Statement (i : Instr) : Prop := isInsn i = true → i.wf = true → decodeWord (encode i) = some i

theorem mem_bools (x : Bool) : x ∈ bools := by cases x <;> decide
theorem mem_sats (x : Sat) : x ∈ sats := by cases x <;> decide
theorem mem_sgnsS (x : Sgn) : x ∈ sgnsS := by cases x <;> decide
theorem mem_sgnsN (x : Sgn) : x ∈ sgnsN := by cases x <;> decide
theorem mem_itys (x : ITy) : x ∈ itys := by cases x <;> decide
theorem mem_negTys (x : NegTy) : x ∈ negTys := by cases x <;> decide
theorem mem_iconds (x : ICond) : x ∈ iconds := by cases x <;> decide
theorem mem_fconds (x : FCond) : x ∈ fconds := by cases x <;> decide
theorem mem_rnds5 (x : Rnd) : x ∈ rnds5 := by cases x <;> decide
theorem mem_clsForms (x : ClsForm) : x ∈ clsForms := by cases x <;> decide
theorem mem_cvtTys (x : CvtTy) : x ∈ cvtTys := by
  cases x with
  | fl f => cases f <;> decide
  | int t => cases t <;> decide
theorem mem_votes (x : Vote) : x ∈ votes := by cases x <;> decide
theorem mem_redOps (x : RedOp) : x ∈ redOps := by cases x <;> decide
theorem mem_memTys (x : MemTy) : x ∈ memTys := by cases x <;> decide
theorem mem_atomOps (x : AtomOp) : x ∈ atomOps := by cases x <;> decide
theorem mem_ords (x : Ord) : x ∈ ords := by cases x <;> decide
theorem mem_views (x : Sys2Proof.View) : x ∈ views := by cases x <;> decide
theorem mem_etypes (x : EType) : x ∈ etypes := by cases x <;> decide
theorem mem_scopes (x : Scope) : x ∈ scopes := by cases x <;> decide
theorem mem_tlScopes (x : Scope) : x ∈ tlScopes := by cases x <;> decide
theorem mem_tretForms (x : TretForm) : x ∈ tretForms := by cases x <;> decide
theorem mem_tlbOps (x : TlbOp) : x ∈ tlbOps := by cases x <;> decide
theorem mem_oluOps (x : OluOp) : x ∈ oluOps := by cases x <;> decide

-- Instructions

theorem nop (c : Common)  : Statement (.nop c) := by
  intro _ h0
  have hc : c.ok .none 0 = true := h0
  have e : encode (.nop c) = put 0x001 c 0 0 0 := by rfl
  rw [e, decodeWord_put hc (by decide) (by omega) (by omega) (by omega)]
  unfold decodeRaw decodeCtl
  simp only [fields_opc, fields_dst, fields_sa, fields_low, Nat.reduceLT, if_false, commonOf_fields hc, Option.bind_some, onlyIf, beq_self_eq_true, Bool.and_self, if_true, Bool.and_true, Bool.true_and, decide_true]

theorem bra (c : Common) (off : Int) : Statement (.bra c off) := by
  intro _ h0
  have h : (c.ok .none 0 && sfits 21 off) = true := h0
  simp only [Bool.and_eq_true] at h
  obtain ⟨hc, h1⟩ := h
  obtain ⟨l_off, b_off⟩ := sext_unsext (by decide) h1
  obtain ⟨x_, hx_⟩ : ∃ x_, x_ = unsext 21 off := ⟨_, rfl⟩
  have e : encode (.bra c off) = put 0x002 c 0 0 x_ := by rw [hx_]; rfl
  rw [e, decodeWord_put hc (by decide) (by omega) (by omega) (by omega)]
  unfold decodeRaw decodeCtl
  simp only [fields_opc, fields_dst, fields_sa, fields_low, Nat.reduceLT, if_false, commonOf_fields hc, hx_, Option.bind_some, onlyIf, beq_self_eq_true, Bool.and_self, if_true, Bool.and_true, Bool.true_and, b_off, decide_true]

theorem brx (c : Common) (a : Name) : Statement (.brx c a) := by
  intro _ h0
  have h : (c.ok .none 0 && a.ok) = true := h0
  simp only [Bool.and_eq_true] at h
  obtain ⟨hc, h1⟩ := h
  have l_a := nameCode_lt h1
  have e : encode (.brx c a) = put 0x003 c 0 (nameCode a) 0 := by rfl
  rw [e, decodeWord_put hc (by decide) (by omega) (by omega) (by omega)]
  unfold decodeRaw decodeCtl
  simp only [fields_opc, fields_dst, fields_sa, fields_low, Nat.reduceLT, if_false, commonOf_fields hc, Option.bind_some, onlyIf, beq_self_eq_true, Bool.and_self, if_true, Bool.and_true, Bool.true_and, nameOf_nameCode h1, decide_true]

theorem call (c : Common) (d : Name) (off : Int) : Statement (.call c d off) := by
  intro _ h0
  have h : (c.ok .none (nameCode d) && d.ok && sfits 21 off) = true := h0
  simp only [Bool.and_eq_true] at h
  obtain ⟨⟨hc, h1⟩, h2⟩ := h
  have l_d := nameCode_lt h1
  obtain ⟨l_off, b_off⟩ := sext_unsext (by decide) h2
  obtain ⟨x_, hx_⟩ : ∃ x_, x_ = unsext 21 off := ⟨_, rfl⟩
  have e : encode (.call c d off) = put 0x004 c (nameCode d) 0 x_ := by rw [hx_]; rfl
  rw [e, decodeWord_put hc (by decide) (by omega) (by omega) (by omega)]
  unfold decodeRaw decodeCtl
  simp only [fields_opc, fields_dst, fields_sa, fields_low, Nat.reduceLT, if_false, commonOf_fields hc, hx_, Option.bind_some, onlyIf, beq_self_eq_true, Bool.and_self, if_true, Bool.and_true, Bool.true_and, nameOf_nameCode h1, b_off, decide_true]

theorem callx (c : Common) (d a : Name) : Statement (.callx c d a) := by
  intro _ h0
  have h : (c.ok .none (nameCode d) && d.ok && a.ok) = true := h0
  simp only [Bool.and_eq_true] at h
  obtain ⟨⟨hc, h1⟩, h2⟩ := h
  have l_d := nameCode_lt h1
  have l_a := nameCode_lt h2
  have e : encode (.callx c d a) = put 0x005 c (nameCode d) (nameCode a) 0 := by rfl
  rw [e, decodeWord_put hc (by decide) (by omega) (by omega) (by omega)]
  unfold decodeRaw decodeCtl
  simp only [fields_opc, fields_dst, fields_sa, fields_low, Nat.reduceLT, if_false, commonOf_fields hc, Option.bind_some, onlyIf, beq_self_eq_true, Bool.and_self, if_true, Bool.and_true, Bool.true_and, nameOf_nameCode h1, nameOf_nameCode h2, decide_true]

theorem ret (c : Common) (a : Name) : Statement (.ret c a) := by
  intro _ h0
  have h : (c.ok .none 0 && a.ok) = true := h0
  simp only [Bool.and_eq_true] at h
  obtain ⟨hc, h1⟩ := h
  have l_a := nameCode_lt h1
  have e : encode (.ret c a) = put 0x006 c 0 (nameCode a) 0 := by rfl
  rw [e, decodeWord_put hc (by decide) (by omega) (by omega) (by omega)]
  unfold decodeRaw decodeCtl
  simp only [fields_opc, fields_dst, fields_sa, fields_low, Nat.reduceLT, if_false, commonOf_fields hc, Option.bind_some, onlyIf, beq_self_eq_true, Bool.and_self, if_true, Bool.and_true, Bool.true_and, nameOf_nameCode h1, decide_true]

theorem exit (c : Common)  : Statement (.exit c) := by
  intro _ h0
  have hc : c.ok .none 0 = true := h0
  have e : encode (.exit c) = put 0x007 c 0 0 0 := by rfl
  rw [e, decodeWord_put hc (by decide) (by omega) (by omega) (by omega)]
  unfold decodeRaw decodeCtl
  simp only [fields_opc, fields_dst, fields_sa, fields_low, Nat.reduceLT, if_false, commonOf_fields hc, Option.bind_some, onlyIf, beq_self_eq_true, Bool.and_self, if_true, Bool.and_true, Bool.true_and, decide_true]

theorem yld (c : Common) (d : Nat) : Statement (.yld c d) := by
  intro _ h0
  have h : (c.ok .none 0 && decide (d < 9)) = true := h0
  simp only [Bool.and_eq_true] at h
  obtain ⟨hc, h1⟩ := h
  have l_d := of_decide_eq_true h1
  obtain ⟨x_, hx_⟩ : ∃ x_, x_ = d := ⟨_, rfl⟩
  have e : encode (.yld c d) = put 0x008 c 0 0 x_ := by rw [hx_]; rfl
  rw [e, decodeWord_put hc (by decide) (by omega) (by omega) (by omega)]
  unfold decodeRaw decodeCtl
  simp only [fields_opc, fields_dst, fields_sa, fields_low, Nat.reduceLT, if_false, commonOf_fields hc, hx_, Option.bind_some, onlyIf, beq_self_eq_true, Bool.and_self, if_true, Bool.and_true, Bool.true_and, h1, decide_true]

theorem hinty (c : Common)  : Statement (.hinty c) := by
  intro _ h0
  have hc : c.ok .none 0 = true := h0
  have e : encode (.hinty c) = put 0x009 c 0 0 0 := by rfl
  rw [e, decodeWord_put hc (by decide) (by omega) (by omega) (by omega)]
  unfold decodeRaw decodeCtl
  simp only [fields_opc, fields_dst, fields_sa, fields_low, Nat.reduceLT, if_false, commonOf_fields hc, Option.bind_some, onlyIf, beq_self_eq_true, Bool.and_self, if_true, Bool.and_true, Bool.true_and, decide_true]

theorem barg (c : Common) (sc : Scope) : Statement (.barg c sc) := by
  intro _ h0
  have h : (c.ok .none 0 && barScopes.contains sc) = true := h0
  simp only [Bool.and_eq_true] at h
  obtain ⟨hc, h1⟩ := h
  have l_sc : codeOf barScopes sc < 3 := codeOf_lt barScopes sc (by simpa using h1)
  obtain ⟨x_, hx_⟩ : ∃ x_, x_ = codeOf barScopes sc := ⟨_, rfl⟩
  have f0 : fld x_ 20 3 = 0 := by show x_ / 8 % 262144 = _; omega
  have f1 : fld x_ 2 0 = codeOf barScopes sc := by show x_ / 1 % 8 = _; omega
  have e : encode (.barg c sc) = put 0x00a c 0 0 x_ := by rw [hx_]; rfl
  rw [e, decodeWord_put hc (by decide) (by omega) (by omega) (by omega)]
  unfold decodeRaw decodeCtl
  simp only [fields_opc, fields_dst, fields_sa, fields_low, Nat.reduceLT, if_false, commonOf_fields hc, f0, f1, Option.bind_some, onlyIf, beq_self_eq_true, Bool.and_self, if_true, Bool.and_true, Bool.true_and, codeOf_get barScopes sc (by simpa using h1), decide_true]

theorem bart (c : Common) (sc : Scope) : Statement (.bart c sc) := by
  intro _ h0
  have h : (c.ok .none 0 && barScopes.contains sc) = true := h0
  simp only [Bool.and_eq_true] at h
  obtain ⟨hc, h1⟩ := h
  have l_sc : codeOf barScopes sc < 3 := codeOf_lt barScopes sc (by simpa using h1)
  obtain ⟨x_, hx_⟩ : ∃ x_, x_ = codeOf barScopes sc := ⟨_, rfl⟩
  have f0 : fld x_ 20 3 = 0 := by show x_ / 8 % 262144 = _; omega
  have f1 : fld x_ 2 0 = codeOf barScopes sc := by show x_ / 1 % 8 = _; omega
  have e : encode (.bart c sc) = put 0x00b c 0 0 x_ := by rw [hx_]; rfl
  rw [e, decodeWord_put hc (by decide) (by omega) (by omega) (by omega)]
  unfold decodeRaw decodeCtl
  simp only [fields_opc, fields_dst, fields_sa, fields_low, Nat.reduceLT, if_false, commonOf_fields hc, f0, f1, Option.bind_some, onlyIf, beq_self_eq_true, Bool.and_self, if_true, Bool.and_true, Bool.true_and, codeOf_get barScopes sc (by simpa using h1), decide_true]

theorem barb (c : Common) (sc : Scope) : Statement (.barb c sc) := by
  intro _ h0
  have h : (c.ok .none 0 && bandScopes.contains sc) = true := h0
  simp only [Bool.and_eq_true] at h
  obtain ⟨hc, h1⟩ := h
  have l_sc : codeOf bandScopes sc < 2 := codeOf_lt bandScopes sc (by simpa using h1)
  obtain ⟨x_, hx_⟩ : ∃ x_, x_ = codeOf bandScopes sc := ⟨_, rfl⟩
  have f0 : fld x_ 20 3 = 0 := by show x_ / 8 % 262144 = _; omega
  have f1 : fld x_ 2 0 = codeOf bandScopes sc := by show x_ / 1 % 8 = _; omega
  have e : encode (.barb c sc) = put 0x00c c 0 0 x_ := by rw [hx_]; rfl
  rw [e, decodeWord_put hc (by decide) (by omega) (by omega) (by omega)]
  unfold decodeRaw decodeCtl
  simp only [fields_opc, fields_dst, fields_sa, fields_low, Nat.reduceLT, if_false, commonOf_fields hc, f0, f1, Option.bind_some, onlyIf, beq_self_eq_true, Bool.and_self, if_true, Bool.and_true, Bool.true_and, codeOf_get bandScopes sc (by simpa using h1), decide_true]

theorem regrp (c : Common)  : Statement (.regrp c) := by
  intro _ h0
  have hc : c.ok .none 0 = true := h0
  have e : encode (.regrp c) = put 0x00d c 0 0 0 := by rfl
  rw [e, decodeWord_put hc (by decide) (by omega) (by omega) (by omega)]
  unfold decodeRaw decodeCtl
  simp only [fields_opc, fields_dst, fields_sa, fields_low, Nat.reduceLT, if_false, commonOf_fields hc, Option.bind_some, onlyIf, beq_self_eq_true, Bool.and_self, if_true, Bool.and_true, Bool.true_and, decide_true]

theorem sphase (c : Common) (a : Name) : Statement (.sphase c a) := by
  intro _ h0
  have h : (c.ok .none 0 && a.ok) = true := h0
  simp only [Bool.and_eq_true] at h
  obtain ⟨hc, h1⟩ := h
  have l_a := nameCode_lt h1
  have e : encode (.sphase c a) = put 0x00e c 0 (nameCode a) 0 := by rfl
  rw [e, decodeWord_put hc (by decide) (by omega) (by omega) (by omega)]
  unfold decodeRaw decodeCtl
  simp only [fields_opc, fields_dst, fields_sa, fields_low, Nat.reduceLT, if_false, commonOf_fields hc, Option.bind_some, onlyIf, beq_self_eq_true, Bool.and_self, if_true, Bool.and_true, Bool.true_and, nameOf_nameCode h1, decide_true]

theorem acqx (c : Common) (n : Nat) : Statement (.acqx c n) := by
  intro _ h0
  have h : (c.ok .none 0 && decide (n < 5)) = true := h0
  simp only [Bool.and_eq_true] at h
  obtain ⟨hc, h1⟩ := h
  have l_n := of_decide_eq_true h1
  obtain ⟨x_, hx_⟩ : ∃ x_, x_ = n := ⟨_, rfl⟩
  have e : encode (.acqx c n) = put 0x00f c 0 0 x_ := by rw [hx_]; rfl
  rw [e, decodeWord_put hc (by decide) (by omega) (by omega) (by omega)]
  unfold decodeRaw decodeCtl
  simp only [fields_opc, fields_dst, fields_sa, fields_low, Nat.reduceLT, if_false, commonOf_fields hc, hx_, Option.bind_some, onlyIf, beq_self_eq_true, Bool.and_self, if_true, Bool.and_true, Bool.true_and, h1, decide_true]

theorem relx (c : Common) (n : Nat) : Statement (.relx c n) := by
  intro _ h0
  have h : (c.ok .none 0 && decide (n < 5)) = true := h0
  simp only [Bool.and_eq_true] at h
  obtain ⟨hc, h1⟩ := h
  have l_n := of_decide_eq_true h1
  obtain ⟨x_, hx_⟩ : ∃ x_, x_ = n := ⟨_, rfl⟩
  have e : encode (.relx c n) = put 0x011 c 0 0 x_ := by rw [hx_]; rfl
  rw [e, decodeWord_put hc (by decide) (by omega) (by omega) (by omega)]
  unfold decodeRaw decodeCtl
  simp only [fields_opc, fields_dst, fields_sa, fields_low, Nat.reduceLT, if_false, commonOf_fields hc, hx_, Option.bind_some, onlyIf, beq_self_eq_true, Bool.and_self, if_true, Bool.and_true, Bool.true_and, h1, decide_true]

theorem acqxt (c : Common) (n pd : Nat) : Statement (.acqxt c n pd) := by
  intro _ h0
  have h : (c.ok .none 0 && decide (n < 5) && decide (pd < 96)) = true := h0
  simp only [Bool.and_eq_true] at h
  obtain ⟨⟨hc, h1⟩, h2⟩ := h
  have l_n := of_decide_eq_true h1
  have l_pd := of_decide_eq_true h2
  obtain ⟨x_, hx_⟩ : ∃ x_, x_ = n * 128 + pd := ⟨_, rfl⟩
  have f0 : fld x_ 20 10 = 0 := by show x_ / 1024 % 2048 = _; omega
  have f1 : fld x_ 9 7 = n := by show x_ / 128 % 8 = _; omega
  have f2 : fld x_ 6 0 = pd := by show x_ / 1 % 128 = _; omega
  have e : encode (.acqxt c n pd) = put 0x010 c 0 0 x_ := by rw [hx_]; rfl
  rw [e, decodeWord_put hc (by decide) (by omega) (by omega) (by omega)]
  unfold decodeRaw decodeCtl
  simp only [fields_opc, fields_dst, fields_sa, fields_low, Nat.reduceLT, if_false, commonOf_fields hc, f0, f1, f2, Option.bind_some, onlyIf, beq_self_eq_true, Bool.and_self, if_true, Bool.and_true, Bool.true_and, h1, h2, decide_true]

theorem tlsig (c : Common) (sc : Scope) (e : Nat) : Statement (.tlsig c sc e) := by
  intro _ h0
  have h : (c.ok .none 0 && barScopes.contains sc && decide (e < 8)) = true := h0
  simp only [Bool.and_eq_true] at h
  obtain ⟨⟨hc, h1⟩, h2⟩ := h
  have l_sc : codeOf barScopes sc < 3 := codeOf_lt barScopes sc (by simpa using h1)
  have l_e := of_decide_eq_true h2
  obtain ⟨x_, hx_⟩ : ∃ x_, x_ = codeOf barScopes sc * 8 + e := ⟨_, rfl⟩
  have f0 : fld x_ 20 6 = 0 := by show x_ / 64 % 32768 = _; omega
  have f1 : fld x_ 5 3 = codeOf barScopes sc := by show x_ / 8 % 8 = _; omega
  have f2 : fld x_ 2 0 = e := by show x_ / 1 % 8 = _; omega
  have e : encode (.tlsig c sc e) = put 0x014 c 0 0 x_ := by rw [hx_]; rfl
  rw [e, decodeWord_put hc (by decide) (by omega) (by omega) (by omega)]
  unfold decodeRaw decodeCtl
  simp only [fields_opc, fields_dst, fields_sa, fields_low, Nat.reduceLT, if_false, commonOf_fields hc, f0, f1, f2, Option.bind_some, onlyIf, beq_self_eq_true, Bool.and_self, if_true, Bool.and_true, Bool.true_and, codeOf_get barScopes sc (by simpa using h1), h2, decide_true]

theorem mov (c : Common) (d a : Name) (w64 : Bool) : Statement (.mov c d a w64) := by
  intro _ h0
  have h : (c.ok .fixed (nameCode d) && d.ok && a.ok) = true := h0
  simp only [Bool.and_eq_true] at h
  obtain ⟨⟨hc, h1⟩, h2⟩ := h
  have l_d := nameCode_lt h1
  have l_a := nameCode_lt h2
  have l_w64 : codeOf bools w64 < 2 := codeOf_lt bools w64 (mem_bools w64)
  obtain ⟨x_, hx_⟩ : ∃ x_, x_ = codeOf bools w64 := ⟨_, rfl⟩
  have f0 : fld x_ 20 3 = 0 := by show x_ / 8 % 262144 = _; omega
  have f1 : fld x_ 2 0 = codeOf bools w64 := by show x_ / 1 % 8 = _; omega
  have e : encode (.mov c d a w64) = put 0x040 c (nameCode d) (nameCode a) x_ := by rw [hx_]; rfl
  rw [e, decodeWord_put hc (by decide) (by omega) (by omega) (by omega)]
  unfold decodeRaw decodeInt
  simp only [fields_opc, fields_dst, fields_sa, fields_low, Nat.reduceLT, if_false, commonOf_fields hc, f0, f1, Option.bind_some, onlyIf, beq_self_eq_true, Bool.and_self, if_true, Bool.and_true, Bool.true_and, nameOf_nameCode h1, nameOf_nameCode h2, codeOf_get bools w64 (mem_bools w64), decide_true]

theorem movImm (c : Common) (d : Name) (imm : Int) : Statement (.movImm c d imm) := by
  intro _ h0
  have h : (c.ok .fixed (nameCode d) && d.ok && sfits 21 imm) = true := h0
  simp only [Bool.and_eq_true] at h
  obtain ⟨⟨hc, h1⟩, h2⟩ := h
  have l_d := nameCode_lt h1
  obtain ⟨l_imm, b_imm⟩ := sext_unsext (by decide) h2
  obtain ⟨x_, hx_⟩ : ∃ x_, x_ = unsext 21 imm := ⟨_, rfl⟩
  have e : encode (.movImm c d imm) = put 0x080 c (nameCode d) 0 x_ := by rw [hx_]; rfl
  rw [e, decodeWord_put hc (by decide) (by omega) (by omega) (by omega)]
  unfold decodeRaw decodeInt
  simp only [fields_opc, fields_dst, fields_sa, fields_low, Nat.reduceLT, if_false, commonOf_fields hc, hx_, Option.bind_some, onlyIf, beq_self_eq_true, Bool.and_self, if_true, Bool.and_true, Bool.true_and, nameOf_nameCode h1, b_imm, decide_true]

theorem iadd (c : Common) (d a b : Name) (t : Sat) : Statement (.iadd c d a b t) := by
  intro _ h0
  have h : (c.ok .fixed (nameCode d) && d.ok && a.ok && b.ok) = true := h0
  simp only [Bool.and_eq_true] at h
  obtain ⟨⟨⟨hc, h1⟩, h2⟩, h3⟩ := h
  have l_d := nameCode_lt h1
  have l_a := nameCode_lt h2
  have l_b := nameCode_lt h3
  have l_t : codeOf sats t < 3 := codeOf_lt sats t (mem_sats t)
  obtain ⟨x_, hx_⟩ : ∃ x_, x_ = nameCode b * 4096 + codeOf sats t := ⟨_, rfl⟩
  have f0 : fld x_ 20 12 = nameCode b := by show x_ / 4096 % 512 = _; omega
  have f1 : fld x_ 11 3 = 0 := by show x_ / 8 % 512 = _; omega
  have f2 : fld x_ 2 0 = codeOf sats t := by show x_ / 1 % 8 = _; omega
  have e : encode (.iadd c d a b t) = put 0x042 c (nameCode d) (nameCode a) x_ := by rw [hx_]; rfl
  rw [e, decodeWord_put hc (by decide) (by omega) (by omega) (by omega)]
  unfold decodeRaw decodeInt
  simp only [fields_opc, fields_dst, fields_sa, fields_low, Nat.reduceLT, if_false, commonOf_fields hc, f0, f1, f2, Option.bind_some, onlyIf, beq_self_eq_true, Bool.and_self, if_true, Bool.and_true, Bool.true_and, nameOf_nameCode h1, nameOf_nameCode h2, nameOf_nameCode h3, codeOf_get sats t (mem_sats t), decide_true]

theorem iaddImm (c : Common) (d a : Name) (imm : Int) : Statement (.iaddImm c d a imm) := by
  intro _ h0
  have h : (c.ok .fixed (nameCode d) && d.ok && a.ok && sfits 21 imm) = true := h0
  simp only [Bool.and_eq_true] at h
  obtain ⟨⟨⟨hc, h1⟩, h2⟩, h3⟩ := h
  have l_d := nameCode_lt h1
  have l_a := nameCode_lt h2
  obtain ⟨l_imm, b_imm⟩ := sext_unsext (by decide) h3
  obtain ⟨x_, hx_⟩ : ∃ x_, x_ = unsext 21 imm := ⟨_, rfl⟩
  have e : encode (.iaddImm c d a imm) = put 0x082 c (nameCode d) (nameCode a) x_ := by rw [hx_]; rfl
  rw [e, decodeWord_put hc (by decide) (by omega) (by omega) (by omega)]
  unfold decodeRaw decodeInt
  simp only [fields_opc, fields_dst, fields_sa, fields_low, Nat.reduceLT, if_false, commonOf_fields hc, hx_, Option.bind_some, onlyIf, beq_self_eq_true, Bool.and_self, if_true, Bool.and_true, Bool.true_and, nameOf_nameCode h1, nameOf_nameCode h2, b_imm, decide_true]

theorem isub (c : Common) (d a b : Name) (t : Sat) : Statement (.isub c d a b t) := by
  intro _ h0
  have h : (c.ok .fixed (nameCode d) && d.ok && a.ok && b.ok) = true := h0
  simp only [Bool.and_eq_true] at h
  obtain ⟨⟨⟨hc, h1⟩, h2⟩, h3⟩ := h
  have l_d := nameCode_lt h1
  have l_a := nameCode_lt h2
  have l_b := nameCode_lt h3
  have l_t : codeOf sats t < 3 := codeOf_lt sats t (mem_sats t)
  obtain ⟨x_, hx_⟩ : ∃ x_, x_ = nameCode b * 4096 + codeOf sats t := ⟨_, rfl⟩
  have f0 : fld x_ 20 12 = nameCode b := by show x_ / 4096 % 512 = _; omega
  have f1 : fld x_ 11 3 = 0 := by show x_ / 8 % 512 = _; omega
  have f2 : fld x_ 2 0 = codeOf sats t := by show x_ / 1 % 8 = _; omega
  have e : encode (.isub c d a b t) = put 0x043 c (nameCode d) (nameCode a) x_ := by rw [hx_]; rfl
  rw [e, decodeWord_put hc (by decide) (by omega) (by omega) (by omega)]
  unfold decodeRaw decodeInt
  simp only [fields_opc, fields_dst, fields_sa, fields_low, Nat.reduceLT, if_false, commonOf_fields hc, f0, f1, f2, Option.bind_some, onlyIf, beq_self_eq_true, Bool.and_self, if_true, Bool.and_true, Bool.true_and, nameOf_nameCode h1, nameOf_nameCode h2, nameOf_nameCode h3, codeOf_get sats t (mem_sats t), decide_true]

theorem isubImm (c : Common) (d a : Name) (imm : Int) : Statement (.isubImm c d a imm) := by
  intro _ h0
  have h : (c.ok .fixed (nameCode d) && d.ok && a.ok && sfits 21 imm) = true := h0
  simp only [Bool.and_eq_true] at h
  obtain ⟨⟨⟨hc, h1⟩, h2⟩, h3⟩ := h
  have l_d := nameCode_lt h1
  have l_a := nameCode_lt h2
  obtain ⟨l_imm, b_imm⟩ := sext_unsext (by decide) h3
  obtain ⟨x_, hx_⟩ : ∃ x_, x_ = unsext 21 imm := ⟨_, rfl⟩
  have e : encode (.isubImm c d a imm) = put 0x083 c (nameCode d) (nameCode a) x_ := by rw [hx_]; rfl
  rw [e, decodeWord_put hc (by decide) (by omega) (by omega) (by omega)]
  unfold decodeRaw decodeInt
  simp only [fields_opc, fields_dst, fields_sa, fields_low, Nat.reduceLT, if_false, commonOf_fields hc, hx_, Option.bind_some, onlyIf, beq_self_eq_true, Bool.and_self, if_true, Bool.and_true, Bool.true_and, nameOf_nameCode h1, nameOf_nameCode h2, b_imm, decide_true]

theorem imul (c : Common) (d a b : Name) (t : Sat) : Statement (.imul c d a b t) := by
  intro _ h0
  have h : (c.ok .fixed (nameCode d) && d.ok && a.ok && b.ok) = true := h0
  simp only [Bool.and_eq_true] at h
  obtain ⟨⟨⟨hc, h1⟩, h2⟩, h3⟩ := h
  have l_d := nameCode_lt h1
  have l_a := nameCode_lt h2
  have l_b := nameCode_lt h3
  have l_t : codeOf sats t < 3 := codeOf_lt sats t (mem_sats t)
  obtain ⟨x_, hx_⟩ : ∃ x_, x_ = nameCode b * 4096 + codeOf sats t := ⟨_, rfl⟩
  have f0 : fld x_ 20 12 = nameCode b := by show x_ / 4096 % 512 = _; omega
  have f1 : fld x_ 11 3 = 0 := by show x_ / 8 % 512 = _; omega
  have f2 : fld x_ 2 0 = codeOf sats t := by show x_ / 1 % 8 = _; omega
  have e : encode (.imul c d a b t) = put 0x044 c (nameCode d) (nameCode a) x_ := by rw [hx_]; rfl
  rw [e, decodeWord_put hc (by decide) (by omega) (by omega) (by omega)]
  unfold decodeRaw decodeInt
  simp only [fields_opc, fields_dst, fields_sa, fields_low, Nat.reduceLT, if_false, commonOf_fields hc, f0, f1, f2, Option.bind_some, onlyIf, beq_self_eq_true, Bool.and_self, if_true, Bool.and_true, Bool.true_and, nameOf_nameCode h1, nameOf_nameCode h2, nameOf_nameCode h3, codeOf_get sats t (mem_sats t), decide_true]

theorem imulImm (c : Common) (d a : Name) (imm : Int) : Statement (.imulImm c d a imm) := by
  intro _ h0
  have h : (c.ok .fixed (nameCode d) && d.ok && a.ok && sfits 21 imm) = true := h0
  simp only [Bool.and_eq_true] at h
  obtain ⟨⟨⟨hc, h1⟩, h2⟩, h3⟩ := h
  have l_d := nameCode_lt h1
  have l_a := nameCode_lt h2
  obtain ⟨l_imm, b_imm⟩ := sext_unsext (by decide) h3
  obtain ⟨x_, hx_⟩ : ∃ x_, x_ = unsext 21 imm := ⟨_, rfl⟩
  have e : encode (.imulImm c d a imm) = put 0x084 c (nameCode d) (nameCode a) x_ := by rw [hx_]; rfl
  rw [e, decodeWord_put hc (by decide) (by omega) (by omega) (by omega)]
  unfold decodeRaw decodeInt
  simp only [fields_opc, fields_dst, fields_sa, fields_low, Nat.reduceLT, if_false, commonOf_fields hc, hx_, Option.bind_some, onlyIf, beq_self_eq_true, Bool.and_self, if_true, Bool.and_true, Bool.true_and, nameOf_nameCode h1, nameOf_nameCode h2, b_imm, decide_true]

theorem imulh (c : Common) (d a b : Name) (t : Sgn) : Statement (.imulh c d a b t) := by
  intro _ h0
  have h : (c.ok .fixed (nameCode d) && d.ok && a.ok && b.ok) = true := h0
  simp only [Bool.and_eq_true] at h
  obtain ⟨⟨⟨hc, h1⟩, h2⟩, h3⟩ := h
  have l_d := nameCode_lt h1
  have l_a := nameCode_lt h2
  have l_b := nameCode_lt h3
  have l_t : codeOf sgnsS t < 2 := codeOf_lt sgnsS t (mem_sgnsS t)
  obtain ⟨x_, hx_⟩ : ∃ x_, x_ = nameCode b * 4096 + codeOf sgnsS t := ⟨_, rfl⟩
  have f0 : fld x_ 20 12 = nameCode b := by show x_ / 4096 % 512 = _; omega
  have f1 : fld x_ 11 3 = 0 := by show x_ / 8 % 512 = _; omega
  have f2 : fld x_ 2 0 = codeOf sgnsS t := by show x_ / 1 % 8 = _; omega
  have e : encode (.imulh c d a b t) = put 0x045 c (nameCode d) (nameCode a) x_ := by rw [hx_]; rfl
  rw [e, decodeWord_put hc (by decide) (by omega) (by omega) (by omega)]
  unfold decodeRaw decodeInt
  simp only [fields_opc, fields_dst, fields_sa, fields_low, Nat.reduceLT, if_false, commonOf_fields hc, f0, f1, f2, Option.bind_some, onlyIf, beq_self_eq_true, Bool.and_self, if_true, Bool.and_true, Bool.true_and, nameOf_nameCode h1, nameOf_nameCode h2, nameOf_nameCode h3, codeOf_get sgnsS t (mem_sgnsS t), decide_true]

theorem imad (c : Common) (d a b x : Name) (t : Sat) : Statement (.imad c d a b x t) := by
  intro _ h0
  have h : (c.ok .fixed (nameCode d) && d.ok && a.ok && b.ok && x.ok) = true := h0
  simp only [Bool.and_eq_true] at h
  obtain ⟨⟨⟨⟨hc, h1⟩, h2⟩, h3⟩, h4⟩ := h
  have l_d := nameCode_lt h1
  have l_a := nameCode_lt h2
  have l_b := nameCode_lt h3
  have l_x := nameCode_lt h4
  have l_t : codeOf sats t < 3 := codeOf_lt sats t (mem_sats t)
  obtain ⟨x_, hx_⟩ : ∃ x_, x_ = nameCode b * 4096 + nameCode x * 8 + codeOf sats t := ⟨_, rfl⟩
  have f0 : fld x_ 20 12 = nameCode b := by show x_ / 4096 % 512 = _; omega
  have f1 : fld x_ 11 3 = nameCode x := by show x_ / 8 % 512 = _; omega
  have f2 : fld x_ 2 0 = codeOf sats t := by show x_ / 1 % 8 = _; omega
  have e : encode (.imad c d a b x t) = put 0x046 c (nameCode d) (nameCode a) x_ := by rw [hx_]; rfl
  rw [e, decodeWord_put hc (by decide) (by omega) (by omega) (by omega)]
  unfold decodeRaw decodeInt
  simp only [fields_opc, fields_dst, fields_sa, fields_low, Nat.reduceLT, if_false, commonOf_fields hc, f0, f1, f2, Option.bind_some, onlyIf, beq_self_eq_true, Bool.and_self, if_true, Bool.and_true, Bool.true_and, nameOf_nameCode h1, nameOf_nameCode h2, nameOf_nameCode h3, nameOf_nameCode h4, codeOf_get sats t (mem_sats t), decide_true]

theorem imadw (c : Common) (d a b x : Name) (t : Sgn) : Statement (.imadw c d a b x t) := by
  intro _ h0
  have h : (c.ok .fixed (nameCode d) && d.ok && a.ok && b.ok && x.ok) = true := h0
  simp only [Bool.and_eq_true] at h
  obtain ⟨⟨⟨⟨hc, h1⟩, h2⟩, h3⟩, h4⟩ := h
  have l_d := nameCode_lt h1
  have l_a := nameCode_lt h2
  have l_b := nameCode_lt h3
  have l_x := nameCode_lt h4
  have l_t : codeOf sgnsS t < 2 := codeOf_lt sgnsS t (mem_sgnsS t)
  obtain ⟨x_, hx_⟩ : ∃ x_, x_ = nameCode b * 4096 + nameCode x * 8 + codeOf sgnsS t := ⟨_, rfl⟩
  have f0 : fld x_ 20 12 = nameCode b := by show x_ / 4096 % 512 = _; omega
  have f1 : fld x_ 11 3 = nameCode x := by show x_ / 8 % 512 = _; omega
  have f2 : fld x_ 2 0 = codeOf sgnsS t := by show x_ / 1 % 8 = _; omega
  have e : encode (.imadw c d a b x t) = put 0x047 c (nameCode d) (nameCode a) x_ := by rw [hx_]; rfl
  rw [e, decodeWord_put hc (by decide) (by omega) (by omega) (by omega)]
  unfold decodeRaw decodeInt
  simp only [fields_opc, fields_dst, fields_sa, fields_low, Nat.reduceLT, if_false, commonOf_fields hc, f0, f1, f2, Option.bind_some, onlyIf, beq_self_eq_true, Bool.and_self, if_true, Bool.and_true, Bool.true_and, nameOf_nameCode h1, nameOf_nameCode h2, nameOf_nameCode h3, nameOf_nameCode h4, codeOf_get sgnsS t (mem_sgnsS t), decide_true]

theorem iadd64 (c : Common) (d a b : Name) (t : Sat) : Statement (.iadd64 c d a b t) := by
  intro _ h0
  have h : (c.ok .fixed (nameCode d) && d.ok && a.ok && b.ok) = true := h0
  simp only [Bool.and_eq_true] at h
  obtain ⟨⟨⟨hc, h1⟩, h2⟩, h3⟩ := h
  have l_d := nameCode_lt h1
  have l_a := nameCode_lt h2
  have l_b := nameCode_lt h3
  have l_t : codeOf sats t < 3 := codeOf_lt sats t (mem_sats t)
  obtain ⟨x_, hx_⟩ : ∃ x_, x_ = nameCode b * 4096 + codeOf sats t := ⟨_, rfl⟩
  have f0 : fld x_ 20 12 = nameCode b := by show x_ / 4096 % 512 = _; omega
  have f1 : fld x_ 11 3 = 0 := by show x_ / 8 % 512 = _; omega
  have f2 : fld x_ 2 0 = codeOf sats t := by show x_ / 1 % 8 = _; omega
  have e : encode (.iadd64 c d a b t) = put 0x048 c (nameCode d) (nameCode a) x_ := by rw [hx_]; rfl
  rw [e, decodeWord_put hc (by decide) (by omega) (by omega) (by omega)]
  unfold decodeRaw decodeInt
  simp only [fields_opc, fields_dst, fields_sa, fields_low, Nat.reduceLT, if_false, commonOf_fields hc, f0, f1, f2, Option.bind_some, onlyIf, beq_self_eq_true, Bool.and_self, if_true, Bool.and_true, Bool.true_and, nameOf_nameCode h1, nameOf_nameCode h2, nameOf_nameCode h3, codeOf_get sats t (mem_sats t), decide_true]

theorem isub64 (c : Common) (d a b : Name) (t : Sat) : Statement (.isub64 c d a b t) := by
  intro _ h0
  have h : (c.ok .fixed (nameCode d) && d.ok && a.ok && b.ok) = true := h0
  simp only [Bool.and_eq_true] at h
  obtain ⟨⟨⟨hc, h1⟩, h2⟩, h3⟩ := h
  have l_d := nameCode_lt h1
  have l_a := nameCode_lt h2
  have l_b := nameCode_lt h3
  have l_t : codeOf sats t < 3 := codeOf_lt sats t (mem_sats t)
  obtain ⟨x_, hx_⟩ : ∃ x_, x_ = nameCode b * 4096 + codeOf sats t := ⟨_, rfl⟩
  have f0 : fld x_ 20 12 = nameCode b := by show x_ / 4096 % 512 = _; omega
  have f1 : fld x_ 11 3 = 0 := by show x_ / 8 % 512 = _; omega
  have f2 : fld x_ 2 0 = codeOf sats t := by show x_ / 1 % 8 = _; omega
  have e : encode (.isub64 c d a b t) = put 0x049 c (nameCode d) (nameCode a) x_ := by rw [hx_]; rfl
  rw [e, decodeWord_put hc (by decide) (by omega) (by omega) (by omega)]
  unfold decodeRaw decodeInt
  simp only [fields_opc, fields_dst, fields_sa, fields_low, Nat.reduceLT, if_false, commonOf_fields hc, f0, f1, f2, Option.bind_some, onlyIf, beq_self_eq_true, Bool.and_self, if_true, Bool.and_true, Bool.true_and, nameOf_nameCode h1, nameOf_nameCode h2, nameOf_nameCode h3, codeOf_get sats t (mem_sats t), decide_true]

theorem idiv (c : Common) (d a b : Name) (t : ITy) : Statement (.idiv c d a b t) := by
  intro _ h0
  have h : (c.ok .tracked (nameCode d) && d.ok && a.ok && b.ok) = true := h0
  simp only [Bool.and_eq_true] at h
  obtain ⟨⟨⟨hc, h1⟩, h2⟩, h3⟩ := h
  have l_d := nameCode_lt h1
  have l_a := nameCode_lt h2
  have l_b := nameCode_lt h3
  have l_t : codeOf itys t < 4 := codeOf_lt itys t (mem_itys t)
  obtain ⟨x_, hx_⟩ : ∃ x_, x_ = nameCode b * 4096 + codeOf itys t := ⟨_, rfl⟩
  have f0 : fld x_ 20 12 = nameCode b := by show x_ / 4096 % 512 = _; omega
  have f1 : fld x_ 11 3 = 0 := by show x_ / 8 % 512 = _; omega
  have f2 : fld x_ 2 0 = codeOf itys t := by show x_ / 1 % 8 = _; omega
  have e : encode (.idiv c d a b t) = put 0x04a c (nameCode d) (nameCode a) x_ := by rw [hx_]; rfl
  rw [e, decodeWord_put hc (by decide) (by omega) (by omega) (by omega)]
  unfold decodeRaw decodeInt
  simp only [fields_opc, fields_dst, fields_sa, fields_low, Nat.reduceLT, if_false, commonOf_fields hc, f0, f1, f2, Option.bind_some, onlyIf, beq_self_eq_true, Bool.and_self, if_true, Bool.and_true, Bool.true_and, nameOf_nameCode h1, nameOf_nameCode h2, nameOf_nameCode h3, codeOf_get itys t (mem_itys t), decide_true]

theorem irem (c : Common) (d a b : Name) (t : ITy) : Statement (.irem c d a b t) := by
  intro _ h0
  have h : (c.ok .tracked (nameCode d) && d.ok && a.ok && b.ok) = true := h0
  simp only [Bool.and_eq_true] at h
  obtain ⟨⟨⟨hc, h1⟩, h2⟩, h3⟩ := h
  have l_d := nameCode_lt h1
  have l_a := nameCode_lt h2
  have l_b := nameCode_lt h3
  have l_t : codeOf itys t < 4 := codeOf_lt itys t (mem_itys t)
  obtain ⟨x_, hx_⟩ : ∃ x_, x_ = nameCode b * 4096 + codeOf itys t := ⟨_, rfl⟩
  have f0 : fld x_ 20 12 = nameCode b := by show x_ / 4096 % 512 = _; omega
  have f1 : fld x_ 11 3 = 0 := by show x_ / 8 % 512 = _; omega
  have f2 : fld x_ 2 0 = codeOf itys t := by show x_ / 1 % 8 = _; omega
  have e : encode (.irem c d a b t) = put 0x04b c (nameCode d) (nameCode a) x_ := by rw [hx_]; rfl
  rw [e, decodeWord_put hc (by decide) (by omega) (by omega) (by omega)]
  unfold decodeRaw decodeInt
  simp only [fields_opc, fields_dst, fields_sa, fields_low, Nat.reduceLT, if_false, commonOf_fields hc, f0, f1, f2, Option.bind_some, onlyIf, beq_self_eq_true, Bool.and_self, if_true, Bool.and_true, Bool.true_and, nameOf_nameCode h1, nameOf_nameCode h2, nameOf_nameCode h3, codeOf_get itys t (mem_itys t), decide_true]

theorem ineg (c : Common) (d a : Name) (t : NegTy) : Statement (.ineg c d a t) := by
  intro _ h0
  have h : (c.ok .fixed (nameCode d) && d.ok && a.ok) = true := h0
  simp only [Bool.and_eq_true] at h
  obtain ⟨⟨hc, h1⟩, h2⟩ := h
  have l_d := nameCode_lt h1
  have l_a := nameCode_lt h2
  have l_t : codeOf negTys t < 4 := codeOf_lt negTys t (mem_negTys t)
  obtain ⟨x_, hx_⟩ : ∃ x_, x_ = codeOf negTys t := ⟨_, rfl⟩
  have f0 : fld x_ 20 3 = 0 := by show x_ / 8 % 262144 = _; omega
  have f1 : fld x_ 2 0 = codeOf negTys t := by show x_ / 1 % 8 = _; omega
  have e : encode (.ineg c d a t) = put 0x04c c (nameCode d) (nameCode a) x_ := by rw [hx_]; rfl
  rw [e, decodeWord_put hc (by decide) (by omega) (by omega) (by omega)]
  unfold decodeRaw decodeInt
  simp only [fields_opc, fields_dst, fields_sa, fields_low, Nat.reduceLT, if_false, commonOf_fields hc, f0, f1, Option.bind_some, onlyIf, beq_self_eq_true, Bool.and_self, if_true, Bool.and_true, Bool.true_and, nameOf_nameCode h1, nameOf_nameCode h2, codeOf_get negTys t (mem_negTys t), decide_true]

theorem iabs (c : Common) (d a : Name) (t : NegTy) : Statement (.iabs c d a t) := by
  intro _ h0
  have h : (c.ok .fixed (nameCode d) && d.ok && a.ok) = true := h0
  simp only [Bool.and_eq_true] at h
  obtain ⟨⟨hc, h1⟩, h2⟩ := h
  have l_d := nameCode_lt h1
  have l_a := nameCode_lt h2
  have l_t : codeOf negTys t < 4 := codeOf_lt negTys t (mem_negTys t)
  obtain ⟨x_, hx_⟩ : ∃ x_, x_ = codeOf negTys t := ⟨_, rfl⟩
  have f0 : fld x_ 20 3 = 0 := by show x_ / 8 % 262144 = _; omega
  have f1 : fld x_ 2 0 = codeOf negTys t := by show x_ / 1 % 8 = _; omega
  have e : encode (.iabs c d a t) = put 0x04d c (nameCode d) (nameCode a) x_ := by rw [hx_]; rfl
  rw [e, decodeWord_put hc (by decide) (by omega) (by omega) (by omega)]
  unfold decodeRaw decodeInt
  simp only [fields_opc, fields_dst, fields_sa, fields_low, Nat.reduceLT, if_false, commonOf_fields hc, f0, f1, Option.bind_some, onlyIf, beq_self_eq_true, Bool.and_self, if_true, Bool.and_true, Bool.true_and, nameOf_nameCode h1, nameOf_nameCode h2, codeOf_get negTys t (mem_negTys t), decide_true]

theorem imin (c : Common) (d a b : Name) (t : ITy) : Statement (.imin c d a b t) := by
  intro _ h0
  have h : (c.ok .fixed (nameCode d) && d.ok && a.ok && b.ok) = true := h0
  simp only [Bool.and_eq_true] at h
  obtain ⟨⟨⟨hc, h1⟩, h2⟩, h3⟩ := h
  have l_d := nameCode_lt h1
  have l_a := nameCode_lt h2
  have l_b := nameCode_lt h3
  have l_t : codeOf itys t < 4 := codeOf_lt itys t (mem_itys t)
  obtain ⟨x_, hx_⟩ : ∃ x_, x_ = nameCode b * 4096 + codeOf itys t := ⟨_, rfl⟩
  have f0 : fld x_ 20 12 = nameCode b := by show x_ / 4096 % 512 = _; omega
  have f1 : fld x_ 11 3 = 0 := by show x_ / 8 % 512 = _; omega
  have f2 : fld x_ 2 0 = codeOf itys t := by show x_ / 1 % 8 = _; omega
  have e : encode (.imin c d a b t) = put 0x04e c (nameCode d) (nameCode a) x_ := by rw [hx_]; rfl
  rw [e, decodeWord_put hc (by decide) (by omega) (by omega) (by omega)]
  unfold decodeRaw decodeInt
  simp only [fields_opc, fields_dst, fields_sa, fields_low, Nat.reduceLT, if_false, commonOf_fields hc, f0, f1, f2, Option.bind_some, onlyIf, beq_self_eq_true, Bool.and_self, if_true, Bool.and_true, Bool.true_and, nameOf_nameCode h1, nameOf_nameCode h2, nameOf_nameCode h3, codeOf_get itys t (mem_itys t), decide_true]

theorem iminImm (c : Common) (d a : Name) (imm : Int) : Statement (.iminImm c d a imm) := by
  intro _ h0
  have h : (c.ok .fixed (nameCode d) && d.ok && a.ok && sfits 21 imm) = true := h0
  simp only [Bool.and_eq_true] at h
  obtain ⟨⟨⟨hc, h1⟩, h2⟩, h3⟩ := h
  have l_d := nameCode_lt h1
  have l_a := nameCode_lt h2
  obtain ⟨l_imm, b_imm⟩ := sext_unsext (by decide) h3
  obtain ⟨x_, hx_⟩ : ∃ x_, x_ = unsext 21 imm := ⟨_, rfl⟩
  have e : encode (.iminImm c d a imm) = put 0x08e c (nameCode d) (nameCode a) x_ := by rw [hx_]; rfl
  rw [e, decodeWord_put hc (by decide) (by omega) (by omega) (by omega)]
  unfold decodeRaw decodeInt
  simp only [fields_opc, fields_dst, fields_sa, fields_low, Nat.reduceLT, if_false, commonOf_fields hc, hx_, Option.bind_some, onlyIf, beq_self_eq_true, Bool.and_self, if_true, Bool.and_true, Bool.true_and, nameOf_nameCode h1, nameOf_nameCode h2, b_imm, decide_true]

theorem imax (c : Common) (d a b : Name) (t : ITy) : Statement (.imax c d a b t) := by
  intro _ h0
  have h : (c.ok .fixed (nameCode d) && d.ok && a.ok && b.ok) = true := h0
  simp only [Bool.and_eq_true] at h
  obtain ⟨⟨⟨hc, h1⟩, h2⟩, h3⟩ := h
  have l_d := nameCode_lt h1
  have l_a := nameCode_lt h2
  have l_b := nameCode_lt h3
  have l_t : codeOf itys t < 4 := codeOf_lt itys t (mem_itys t)
  obtain ⟨x_, hx_⟩ : ∃ x_, x_ = nameCode b * 4096 + codeOf itys t := ⟨_, rfl⟩
  have f0 : fld x_ 20 12 = nameCode b := by show x_ / 4096 % 512 = _; omega
  have f1 : fld x_ 11 3 = 0 := by show x_ / 8 % 512 = _; omega
  have f2 : fld x_ 2 0 = codeOf itys t := by show x_ / 1 % 8 = _; omega
  have e : encode (.imax c d a b t) = put 0x04f c (nameCode d) (nameCode a) x_ := by rw [hx_]; rfl
  rw [e, decodeWord_put hc (by decide) (by omega) (by omega) (by omega)]
  unfold decodeRaw decodeInt
  simp only [fields_opc, fields_dst, fields_sa, fields_low, Nat.reduceLT, if_false, commonOf_fields hc, f0, f1, f2, Option.bind_some, onlyIf, beq_self_eq_true, Bool.and_self, if_true, Bool.and_true, Bool.true_and, nameOf_nameCode h1, nameOf_nameCode h2, nameOf_nameCode h3, codeOf_get itys t (mem_itys t), decide_true]

theorem imaxImm (c : Common) (d a : Name) (imm : Int) : Statement (.imaxImm c d a imm) := by
  intro _ h0
  have h : (c.ok .fixed (nameCode d) && d.ok && a.ok && sfits 21 imm) = true := h0
  simp only [Bool.and_eq_true] at h
  obtain ⟨⟨⟨hc, h1⟩, h2⟩, h3⟩ := h
  have l_d := nameCode_lt h1
  have l_a := nameCode_lt h2
  obtain ⟨l_imm, b_imm⟩ := sext_unsext (by decide) h3
  obtain ⟨x_, hx_⟩ : ∃ x_, x_ = unsext 21 imm := ⟨_, rfl⟩
  have e : encode (.imaxImm c d a imm) = put 0x08f c (nameCode d) (nameCode a) x_ := by rw [hx_]; rfl
  rw [e, decodeWord_put hc (by decide) (by omega) (by omega) (by omega)]
  unfold decodeRaw decodeInt
  simp only [fields_opc, fields_dst, fields_sa, fields_low, Nat.reduceLT, if_false, commonOf_fields hc, hx_, Option.bind_some, onlyIf, beq_self_eq_true, Bool.and_self, if_true, Bool.and_true, Bool.true_and, nameOf_nameCode h1, nameOf_nameCode h2, b_imm, decide_true]

theorem logt (c : Common) (d a b : Name) (tbl : Nat) : Statement (.logt c d a b tbl) := by
  intro _ h0
  have h : (c.ok .keep (nameCode d) && d.ok && a.ok && b.ok && decide (tbl < 256)) = true := h0
  simp only [Bool.and_eq_true] at h
  obtain ⟨⟨⟨⟨hc, h1⟩, h2⟩, h3⟩, h4⟩ := h
  have l_d := nameCode_lt h1
  have l_a := nameCode_lt h2
  have l_b := nameCode_lt h3
  have l_tbl := of_decide_eq_true h4
  obtain ⟨x_, hx_⟩ : ∃ x_, x_ = nameCode b * 4096 + tbl * 16 := ⟨_, rfl⟩
  have f0 : fld x_ 20 12 = nameCode b := by show x_ / 4096 % 512 = _; omega
  have f1 : fld x_ 11 4 = tbl := by show x_ / 16 % 256 = _; omega
  have f2 : fld x_ 3 0 = 0 := by show x_ / 1 % 16 = _; omega
  have e : encode (.logt c d a b tbl) = put 0x050 c (nameCode d) (nameCode a) x_ := by rw [hx_]; rfl
  rw [e, decodeWord_put hc (by decide) (by omega) (by omega) (by omega)]
  unfold decodeRaw decodeInt
  simp only [fields_opc, fields_dst, fields_sa, fields_low, Nat.reduceLT, if_false, commonOf_fields hc, f0, f1, f2, Option.bind_some, onlyIf, beq_self_eq_true, Bool.and_self, if_true, Bool.and_true, Bool.true_and, nameOf_nameCode h1, nameOf_nameCode h2, nameOf_nameCode h3, h4, decide_true]

theorem shl (c : Common) (d a n : Name) (w64 : Bool) : Statement (.shl c d a n w64) := by
  intro _ h0
  have h : (c.ok .fixed (nameCode d) && d.ok && a.ok && n.ok) = true := h0
  simp only [Bool.and_eq_true] at h
  obtain ⟨⟨⟨hc, h1⟩, h2⟩, h3⟩ := h
  have l_d := nameCode_lt h1
  have l_a := nameCode_lt h2
  have l_n := nameCode_lt h3
  have l_w64 : codeOf bools w64 < 2 := codeOf_lt bools w64 (mem_bools w64)
  obtain ⟨x_, hx_⟩ : ∃ x_, x_ = nameCode n * 4096 + codeOf bools w64 := ⟨_, rfl⟩
  have f0 : fld x_ 20 12 = nameCode n := by show x_ / 4096 % 512 = _; omega
  have f1 : fld x_ 11 3 = 0 := by show x_ / 8 % 512 = _; omega
  have f2 : fld x_ 2 0 = codeOf bools w64 := by show x_ / 1 % 8 = _; omega
  have e : encode (.shl c d a n w64) = put 0x051 c (nameCode d) (nameCode a) x_ := by rw [hx_]; rfl
  rw [e, decodeWord_put hc (by decide) (by omega) (by omega) (by omega)]
  unfold decodeRaw decodeInt
  simp only [fields_opc, fields_dst, fields_sa, fields_low, Nat.reduceLT, if_false, commonOf_fields hc, f0, f1, f2, Option.bind_some, onlyIf, beq_self_eq_true, Bool.and_self, if_true, Bool.and_true, Bool.true_and, nameOf_nameCode h1, nameOf_nameCode h2, nameOf_nameCode h3, codeOf_get bools w64 (mem_bools w64), decide_true]

theorem shlImm (c : Common) (d a : Name) (imm : Nat) : Statement (.shlImm c d a imm) := by
  intro _ h0
  have h : (c.ok .fixed (nameCode d) && d.ok && a.ok && decide (imm < 2097152)) = true := h0
  simp only [Bool.and_eq_true] at h
  obtain ⟨⟨⟨hc, h1⟩, h2⟩, h3⟩ := h
  have l_d := nameCode_lt h1
  have l_a := nameCode_lt h2
  have l_imm := of_decide_eq_true h3
  obtain ⟨x_, hx_⟩ : ∃ x_, x_ = imm := ⟨_, rfl⟩
  have e : encode (.shlImm c d a imm) = put 0x091 c (nameCode d) (nameCode a) x_ := by rw [hx_]; rfl
  rw [e, decodeWord_put hc (by decide) (by omega) (by omega) (by omega)]
  unfold decodeRaw decodeInt
  simp only [fields_opc, fields_dst, fields_sa, fields_low, Nat.reduceLT, if_false, commonOf_fields hc, hx_, Option.bind_some, onlyIf, beq_self_eq_true, Bool.and_self, if_true, Bool.and_true, Bool.true_and, nameOf_nameCode h1, nameOf_nameCode h2, h3, decide_true]

theorem shr (c : Common) (d a n : Name) (w64 : Bool) : Statement (.shr c d a n w64) := by
  intro _ h0
  have h : (c.ok .fixed (nameCode d) && d.ok && a.ok && n.ok) = true := h0
  simp only [Bool.and_eq_true] at h
  obtain ⟨⟨⟨hc, h1⟩, h2⟩, h3⟩ := h
  have l_d := nameCode_lt h1
  have l_a := nameCode_lt h2
  have l_n := nameCode_lt h3
  have l_w64 : codeOf bools w64 < 2 := codeOf_lt bools w64 (mem_bools w64)
  obtain ⟨x_, hx_⟩ : ∃ x_, x_ = nameCode n * 4096 + codeOf bools w64 := ⟨_, rfl⟩
  have f0 : fld x_ 20 12 = nameCode n := by show x_ / 4096 % 512 = _; omega
  have f1 : fld x_ 11 3 = 0 := by show x_ / 8 % 512 = _; omega
  have f2 : fld x_ 2 0 = codeOf bools w64 := by show x_ / 1 % 8 = _; omega
  have e : encode (.shr c d a n w64) = put 0x052 c (nameCode d) (nameCode a) x_ := by rw [hx_]; rfl
  rw [e, decodeWord_put hc (by decide) (by omega) (by omega) (by omega)]
  unfold decodeRaw decodeInt
  simp only [fields_opc, fields_dst, fields_sa, fields_low, Nat.reduceLT, if_false, commonOf_fields hc, f0, f1, f2, Option.bind_some, onlyIf, beq_self_eq_true, Bool.and_self, if_true, Bool.and_true, Bool.true_and, nameOf_nameCode h1, nameOf_nameCode h2, nameOf_nameCode h3, codeOf_get bools w64 (mem_bools w64), decide_true]

theorem shrImm (c : Common) (d a : Name) (imm : Nat) : Statement (.shrImm c d a imm) := by
  intro _ h0
  have h : (c.ok .fixed (nameCode d) && d.ok && a.ok && decide (imm < 2097152)) = true := h0
  simp only [Bool.and_eq_true] at h
  obtain ⟨⟨⟨hc, h1⟩, h2⟩, h3⟩ := h
  have l_d := nameCode_lt h1
  have l_a := nameCode_lt h2
  have l_imm := of_decide_eq_true h3
  obtain ⟨x_, hx_⟩ : ∃ x_, x_ = imm := ⟨_, rfl⟩
  have e : encode (.shrImm c d a imm) = put 0x092 c (nameCode d) (nameCode a) x_ := by rw [hx_]; rfl
  rw [e, decodeWord_put hc (by decide) (by omega) (by omega) (by omega)]
  unfold decodeRaw decodeInt
  simp only [fields_opc, fields_dst, fields_sa, fields_low, Nat.reduceLT, if_false, commonOf_fields hc, hx_, Option.bind_some, onlyIf, beq_self_eq_true, Bool.and_self, if_true, Bool.and_true, Bool.true_and, nameOf_nameCode h1, nameOf_nameCode h2, h3, decide_true]

theorem sar (c : Common) (d a n : Name) (w64 : Bool) : Statement (.sar c d a n w64) := by
  intro _ h0
  have h : (c.ok .fixed (nameCode d) && d.ok && a.ok && n.ok) = true := h0
  simp only [Bool.and_eq_true] at h
  obtain ⟨⟨⟨hc, h1⟩, h2⟩, h3⟩ := h
  have l_d := nameCode_lt h1
  have l_a := nameCode_lt h2
  have l_n := nameCode_lt h3
  have l_w64 : codeOf bools w64 < 2 := codeOf_lt bools w64 (mem_bools w64)
  obtain ⟨x_, hx_⟩ : ∃ x_, x_ = nameCode n * 4096 + codeOf bools w64 := ⟨_, rfl⟩
  have f0 : fld x_ 20 12 = nameCode n := by show x_ / 4096 % 512 = _; omega
  have f1 : fld x_ 11 3 = 0 := by show x_ / 8 % 512 = _; omega
  have f2 : fld x_ 2 0 = codeOf bools w64 := by show x_ / 1 % 8 = _; omega
  have e : encode (.sar c d a n w64) = put 0x053 c (nameCode d) (nameCode a) x_ := by rw [hx_]; rfl
  rw [e, decodeWord_put hc (by decide) (by omega) (by omega) (by omega)]
  unfold decodeRaw decodeInt
  simp only [fields_opc, fields_dst, fields_sa, fields_low, Nat.reduceLT, if_false, commonOf_fields hc, f0, f1, f2, Option.bind_some, onlyIf, beq_self_eq_true, Bool.and_self, if_true, Bool.and_true, Bool.true_and, nameOf_nameCode h1, nameOf_nameCode h2, nameOf_nameCode h3, codeOf_get bools w64 (mem_bools w64), decide_true]

theorem sarImm (c : Common) (d a : Name) (imm : Nat) : Statement (.sarImm c d a imm) := by
  intro _ h0
  have h : (c.ok .fixed (nameCode d) && d.ok && a.ok && decide (imm < 2097152)) = true := h0
  simp only [Bool.and_eq_true] at h
  obtain ⟨⟨⟨hc, h1⟩, h2⟩, h3⟩ := h
  have l_d := nameCode_lt h1
  have l_a := nameCode_lt h2
  have l_imm := of_decide_eq_true h3
  obtain ⟨x_, hx_⟩ : ∃ x_, x_ = imm := ⟨_, rfl⟩
  have e : encode (.sarImm c d a imm) = put 0x093 c (nameCode d) (nameCode a) x_ := by rw [hx_]; rfl
  rw [e, decodeWord_put hc (by decide) (by omega) (by omega) (by omega)]
  unfold decodeRaw decodeInt
  simp only [fields_opc, fields_dst, fields_sa, fields_low, Nat.reduceLT, if_false, commonOf_fields hc, hx_, Option.bind_some, onlyIf, beq_self_eq_true, Bool.and_self, if_true, Bool.and_true, Bool.true_and, nameOf_nameCode h1, nameOf_nameCode h2, h3, decide_true]

theorem rot (c : Common) (d a n : Name) (w64 : Bool) : Statement (.rot c d a n w64) := by
  intro _ h0
  have h : (c.ok .fixed (nameCode d) && d.ok && a.ok && n.ok) = true := h0
  simp only [Bool.and_eq_true] at h
  obtain ⟨⟨⟨hc, h1⟩, h2⟩, h3⟩ := h
  have l_d := nameCode_lt h1
  have l_a := nameCode_lt h2
  have l_n := nameCode_lt h3
  have l_w64 : codeOf bools w64 < 2 := codeOf_lt bools w64 (mem_bools w64)
  obtain ⟨x_, hx_⟩ : ∃ x_, x_ = nameCode n * 4096 + codeOf bools w64 := ⟨_, rfl⟩
  have f0 : fld x_ 20 12 = nameCode n := by show x_ / 4096 % 512 = _; omega
  have f1 : fld x_ 11 3 = 0 := by show x_ / 8 % 512 = _; omega
  have f2 : fld x_ 2 0 = codeOf bools w64 := by show x_ / 1 % 8 = _; omega
  have e : encode (.rot c d a n w64) = put 0x054 c (nameCode d) (nameCode a) x_ := by rw [hx_]; rfl
  rw [e, decodeWord_put hc (by decide) (by omega) (by omega) (by omega)]
  unfold decodeRaw decodeInt
  simp only [fields_opc, fields_dst, fields_sa, fields_low, Nat.reduceLT, if_false, commonOf_fields hc, f0, f1, f2, Option.bind_some, onlyIf, beq_self_eq_true, Bool.and_self, if_true, Bool.and_true, Bool.true_and, nameOf_nameCode h1, nameOf_nameCode h2, nameOf_nameCode h3, codeOf_get bools w64 (mem_bools w64), decide_true]

theorem rotImm (c : Common) (d a : Name) (imm : Nat) : Statement (.rotImm c d a imm) := by
  intro _ h0
  have h : (c.ok .fixed (nameCode d) && d.ok && a.ok && decide (imm < 2097152)) = true := h0
  simp only [Bool.and_eq_true] at h
  obtain ⟨⟨⟨hc, h1⟩, h2⟩, h3⟩ := h
  have l_d := nameCode_lt h1
  have l_a := nameCode_lt h2
  have l_imm := of_decide_eq_true h3
  obtain ⟨x_, hx_⟩ : ∃ x_, x_ = imm := ⟨_, rfl⟩
  have e : encode (.rotImm c d a imm) = put 0x094 c (nameCode d) (nameCode a) x_ := by rw [hx_]; rfl
  rw [e, decodeWord_put hc (by decide) (by omega) (by omega) (by omega)]
  unfold decodeRaw decodeInt
  simp only [fields_opc, fields_dst, fields_sa, fields_low, Nat.reduceLT, if_false, commonOf_fields hc, hx_, Option.bind_some, onlyIf, beq_self_eq_true, Bool.and_self, if_true, Bool.and_true, Bool.true_and, nameOf_nameCode h1, nameOf_nameCode h2, h3, decide_true]

theorem funl (c : Common) (d lo hi n : Name) (left : Bool) : Statement (.funl c d lo hi n left) := by
  intro _ h0
  have h : (c.ok .fixed (nameCode d) && d.ok && lo.ok && hi.ok && n.ok) = true := h0
  simp only [Bool.and_eq_true] at h
  obtain ⟨⟨⟨⟨hc, h1⟩, h2⟩, h3⟩, h4⟩ := h
  have l_d := nameCode_lt h1
  have l_lo := nameCode_lt h2
  have l_hi := nameCode_lt h3
  have l_n := nameCode_lt h4
  have l_left : codeOf bools left < 2 := codeOf_lt bools left (mem_bools left)
  obtain ⟨x_, hx_⟩ : ∃ x_, x_ = nameCode hi * 4096 + nameCode n * 8 + codeOf bools left := ⟨_, rfl⟩
  have f0 : fld x_ 20 12 = nameCode hi := by show x_ / 4096 % 512 = _; omega
  have f1 : fld x_ 11 3 = nameCode n := by show x_ / 8 % 512 = _; omega
  have f2 : fld x_ 2 0 = codeOf bools left := by show x_ / 1 % 8 = _; omega
  have e : encode (.funl c d lo hi n left) = put 0x055 c (nameCode d) (nameCode lo) x_ := by rw [hx_]; rfl
  rw [e, decodeWord_put hc (by decide) (by omega) (by omega) (by omega)]
  unfold decodeRaw decodeInt
  simp only [fields_opc, fields_dst, fields_sa, fields_low, Nat.reduceLT, if_false, commonOf_fields hc, f0, f1, f2, Option.bind_some, onlyIf, beq_self_eq_true, Bool.and_self, if_true, Bool.and_true, Bool.true_and, nameOf_nameCode h1, nameOf_nameCode h2, nameOf_nameCode h3, nameOf_nameCode h4, codeOf_get bools left (mem_bools left), decide_true]

theorem bfx (c : Common) (d a f : Name) (t : Sgn) : Statement (.bfx c d a f t) := by
  intro _ h0
  have h : (c.ok .fixed (nameCode d) && d.ok && a.ok && f.ok) = true := h0
  simp only [Bool.and_eq_true] at h
  obtain ⟨⟨⟨hc, h1⟩, h2⟩, h3⟩ := h
  have l_d := nameCode_lt h1
  have l_a := nameCode_lt h2
  have l_f := nameCode_lt h3
  have l_t : codeOf sgnsN t < 2 := codeOf_lt sgnsN t (mem_sgnsN t)
  obtain ⟨x_, hx_⟩ : ∃ x_, x_ = nameCode f * 4096 + codeOf sgnsN t := ⟨_, rfl⟩
  have f0 : fld x_ 20 12 = nameCode f := by show x_ / 4096 % 512 = _; omega
  have f1 : fld x_ 11 3 = 0 := by show x_ / 8 % 512 = _; omega
  have f2 : fld x_ 2 0 = codeOf sgnsN t := by show x_ / 1 % 8 = _; omega
  have e : encode (.bfx c d a f t) = put 0x056 c (nameCode d) (nameCode a) x_ := by rw [hx_]; rfl
  rw [e, decodeWord_put hc (by decide) (by omega) (by omega) (by omega)]
  unfold decodeRaw decodeInt
  simp only [fields_opc, fields_dst, fields_sa, fields_low, Nat.reduceLT, if_false, commonOf_fields hc, f0, f1, f2, Option.bind_some, onlyIf, beq_self_eq_true, Bool.and_self, if_true, Bool.and_true, Bool.true_and, nameOf_nameCode h1, nameOf_nameCode h2, nameOf_nameCode h3, codeOf_get sgnsN t (mem_sgnsN t), decide_true]

theorem bfi (c : Common) (d ins base f : Name) : Statement (.bfi c d ins base f) := by
  intro _ h0
  have h : (c.ok .fixed (nameCode d) && d.ok && ins.ok && base.ok && f.ok) = true := h0
  simp only [Bool.and_eq_true] at h
  obtain ⟨⟨⟨⟨hc, h1⟩, h2⟩, h3⟩, h4⟩ := h
  have l_d := nameCode_lt h1
  have l_ins := nameCode_lt h2
  have l_base := nameCode_lt h3
  have l_f := nameCode_lt h4
  obtain ⟨x_, hx_⟩ : ∃ x_, x_ = nameCode base * 4096 + nameCode f * 8 := ⟨_, rfl⟩
  have f0 : fld x_ 20 12 = nameCode base := by show x_ / 4096 % 512 = _; omega
  have f1 : fld x_ 11 3 = nameCode f := by show x_ / 8 % 512 = _; omega
  have f2 : fld x_ 2 0 = 0 := by show x_ / 1 % 8 = _; omega
  have e : encode (.bfi c d ins base f) = put 0x057 c (nameCode d) (nameCode ins) x_ := by rw [hx_]; rfl
  rw [e, decodeWord_put hc (by decide) (by omega) (by omega) (by omega)]
  unfold decodeRaw decodeInt
  simp only [fields_opc, fields_dst, fields_sa, fields_low, Nat.reduceLT, if_false, commonOf_fields hc, f0, f1, f2, Option.bind_some, onlyIf, beq_self_eq_true, Bool.and_self, if_true, Bool.and_true, Bool.true_and, nameOf_nameCode h1, nameOf_nameCode h2, nameOf_nameCode h3, nameOf_nameCode h4, decide_true]

theorem popc (c : Common) (d a : Name) (w64 : Bool) : Statement (.popc c d a w64) := by
  intro _ h0
  have h : (c.ok .fixed (nameCode d) && d.ok && a.ok) = true := h0
  simp only [Bool.and_eq_true] at h
  obtain ⟨⟨hc, h1⟩, h2⟩ := h
  have l_d := nameCode_lt h1
  have l_a := nameCode_lt h2
  have l_w64 : codeOf bools w64 < 2 := codeOf_lt bools w64 (mem_bools w64)
  obtain ⟨x_, hx_⟩ : ∃ x_, x_ = codeOf bools w64 := ⟨_, rfl⟩
  have f0 : fld x_ 20 3 = 0 := by show x_ / 8 % 262144 = _; omega
  have f1 : fld x_ 2 0 = codeOf bools w64 := by show x_ / 1 % 8 = _; omega
  have e : encode (.popc c d a w64) = put 0x058 c (nameCode d) (nameCode a) x_ := by rw [hx_]; rfl
  rw [e, decodeWord_put hc (by decide) (by omega) (by omega) (by omega)]
  unfold decodeRaw decodeInt
  simp only [fields_opc, fields_dst, fields_sa, fields_low, Nat.reduceLT, if_false, commonOf_fields hc, f0, f1, Option.bind_some, onlyIf, beq_self_eq_true, Bool.and_self, if_true, Bool.and_true, Bool.true_and, nameOf_nameCode h1, nameOf_nameCode h2, codeOf_get bools w64 (mem_bools w64), decide_true]

theorem clz (c : Common) (d a : Name) (w64 : Bool) : Statement (.clz c d a w64) := by
  intro _ h0
  have h : (c.ok .fixed (nameCode d) && d.ok && a.ok) = true := h0
  simp only [Bool.and_eq_true] at h
  obtain ⟨⟨hc, h1⟩, h2⟩ := h
  have l_d := nameCode_lt h1
  have l_a := nameCode_lt h2
  have l_w64 : codeOf bools w64 < 2 := codeOf_lt bools w64 (mem_bools w64)
  obtain ⟨x_, hx_⟩ : ∃ x_, x_ = codeOf bools w64 := ⟨_, rfl⟩
  have f0 : fld x_ 20 3 = 0 := by show x_ / 8 % 262144 = _; omega
  have f1 : fld x_ 2 0 = codeOf bools w64 := by show x_ / 1 % 8 = _; omega
  have e : encode (.clz c d a w64) = put 0x059 c (nameCode d) (nameCode a) x_ := by rw [hx_]; rfl
  rw [e, decodeWord_put hc (by decide) (by omega) (by omega) (by omega)]
  unfold decodeRaw decodeInt
  simp only [fields_opc, fields_dst, fields_sa, fields_low, Nat.reduceLT, if_false, commonOf_fields hc, f0, f1, Option.bind_some, onlyIf, beq_self_eq_true, Bool.and_self, if_true, Bool.and_true, Bool.true_and, nameOf_nameCode h1, nameOf_nameCode h2, codeOf_get bools w64 (mem_bools w64), decide_true]

theorem ctz (c : Common) (d a : Name) (w64 : Bool) : Statement (.ctz c d a w64) := by
  intro _ h0
  have h : (c.ok .fixed (nameCode d) && d.ok && a.ok) = true := h0
  simp only [Bool.and_eq_true] at h
  obtain ⟨⟨hc, h1⟩, h2⟩ := h
  have l_d := nameCode_lt h1
  have l_a := nameCode_lt h2
  have l_w64 : codeOf bools w64 < 2 := codeOf_lt bools w64 (mem_bools w64)
  obtain ⟨x_, hx_⟩ : ∃ x_, x_ = codeOf bools w64 := ⟨_, rfl⟩
  have f0 : fld x_ 20 3 = 0 := by show x_ / 8 % 262144 = _; omega
  have f1 : fld x_ 2 0 = codeOf bools w64 := by show x_ / 1 % 8 = _; omega
  have e : encode (.ctz c d a w64) = put 0x05a c (nameCode d) (nameCode a) x_ := by rw [hx_]; rfl
  rw [e, decodeWord_put hc (by decide) (by omega) (by omega) (by omega)]
  unfold decodeRaw decodeInt
  simp only [fields_opc, fields_dst, fields_sa, fields_low, Nat.reduceLT, if_false, commonOf_fields hc, f0, f1, Option.bind_some, onlyIf, beq_self_eq_true, Bool.and_self, if_true, Bool.and_true, Bool.true_and, nameOf_nameCode h1, nameOf_nameCode h2, codeOf_get bools w64 (mem_bools w64), decide_true]

theorem brev (c : Common) (d a : Name) (w64 : Bool) : Statement (.brev c d a w64) := by
  intro _ h0
  have h : (c.ok .fixed (nameCode d) && d.ok && a.ok) = true := h0
  simp only [Bool.and_eq_true] at h
  obtain ⟨⟨hc, h1⟩, h2⟩ := h
  have l_d := nameCode_lt h1
  have l_a := nameCode_lt h2
  have l_w64 : codeOf bools w64 < 2 := codeOf_lt bools w64 (mem_bools w64)
  obtain ⟨x_, hx_⟩ : ∃ x_, x_ = codeOf bools w64 := ⟨_, rfl⟩
  have f0 : fld x_ 20 3 = 0 := by show x_ / 8 % 262144 = _; omega
  have f1 : fld x_ 2 0 = codeOf bools w64 := by show x_ / 1 % 8 = _; omega
  have e : encode (.brev c d a w64) = put 0x05b c (nameCode d) (nameCode a) x_ := by rw [hx_]; rfl
  rw [e, decodeWord_put hc (by decide) (by omega) (by omega) (by omega)]
  unfold decodeRaw decodeInt
  simp only [fields_opc, fields_dst, fields_sa, fields_low, Nat.reduceLT, if_false, commonOf_fields hc, f0, f1, Option.bind_some, onlyIf, beq_self_eq_true, Bool.and_self, if_true, Bool.and_true, Bool.true_and, nameOf_nameCode h1, nameOf_nameCode h2, codeOf_get bools w64 (mem_bools w64), decide_true]

theorem lea (c : Common) (d base idx off : Name) (scale : Nat) (t : Sgn) : Statement (.lea c d base idx off scale t) := by
  intro _ h0
  have h : (c.ok .fixed (nameCode d) && d.ok && base.ok && idx.ok && off.ok && scales.contains scale) = true := h0
  simp only [Bool.and_eq_true] at h
  obtain ⟨⟨⟨⟨⟨hc, h1⟩, h2⟩, h3⟩, h4⟩, h5⟩ := h
  have l_d := nameCode_lt h1
  have l_base := nameCode_lt h2
  have l_idx := nameCode_lt h3
  have l_off := nameCode_lt h4
  have l_t : codeOf sgnsN t < 2 := codeOf_lt sgnsN t (mem_sgnsN t)
  have l_scale : codeOf scales scale < 4 := codeOf_lt scales scale (by simpa using h5)
  obtain ⟨x_, hx_⟩ : ∃ x_, x_ = nameCode idx * 4096 + nameCode off * 8 + codeOf sgnsN t * 4 + codeOf scales scale := ⟨_, rfl⟩
  have f0 : fld x_ 20 12 = nameCode idx := by show x_ / 4096 % 512 = _; omega
  have f1 : fld x_ 11 3 = nameCode off := by show x_ / 8 % 512 = _; omega
  have f2 : fld x_ 2 2 = codeOf sgnsN t := by show x_ / 4 % 2 = _; omega
  have f3 : fld x_ 1 0 = codeOf scales scale := by show x_ / 1 % 4 = _; omega
  have e : encode (.lea c d base idx off scale t) = put 0x05c c (nameCode d) (nameCode base) x_ := by rw [hx_]; rfl
  rw [e, decodeWord_put hc (by decide) (by omega) (by omega) (by omega)]
  unfold decodeRaw decodeInt
  simp only [fields_opc, fields_dst, fields_sa, fields_low, Nat.reduceLT, if_false, commonOf_fields hc, f0, f1, f2, f3, Option.bind_some, onlyIf, beq_self_eq_true, Bool.and_self, if_true, Bool.and_true, Bool.true_and, nameOf_nameCode h1, nameOf_nameCode h2, nameOf_nameCode h3, nameOf_nameCode h4, codeOf_get sgnsN t (mem_sgnsN t), codeOf_get scales scale (by simpa using h5), decide_true]

theorem icmp (c : Common) (pd : Nat) (a b : Name) (cond : ICond) (t : ITy) : Statement (.icmp c pd a b cond t) := by
  intro _ h0
  have h : (c.ok .none pd && decide (pd < 96) && a.ok && b.ok) = true := h0
  simp only [Bool.and_eq_true] at h
  obtain ⟨⟨⟨hc, h1⟩, h2⟩, h3⟩ := h
  have l_pd := of_decide_eq_true h1
  have l_a := nameCode_lt h2
  have l_b := nameCode_lt h3
  have l_cond : codeOf iconds cond < 7 := codeOf_lt iconds cond (mem_iconds cond)
  have l_t : codeOf itys t < 4 := codeOf_lt itys t (mem_itys t)
  obtain ⟨x_, hx_⟩ : ∃ x_, x_ = nameCode b * 4096 + codeOf iconds cond * 512 + codeOf itys t * 64 := ⟨_, rfl⟩
  have f0 : fld x_ 20 12 = nameCode b := by show x_ / 4096 % 512 = _; omega
  have f1 : fld x_ 11 9 = codeOf iconds cond := by show x_ / 512 % 8 = _; omega
  have f2 : fld x_ 8 6 = codeOf itys t := by show x_ / 64 % 8 = _; omega
  have f3 : fld x_ 5 0 = 0 := by show x_ / 1 % 64 = _; omega
  have e : encode (.icmp c pd a b cond t) = put 0x05d c pd (nameCode a) x_ := by rw [hx_]; rfl
  rw [e, decodeWord_put hc (by decide) (by omega) (by omega) (by omega)]
  unfold decodeRaw decodeInt
  simp only [fields_opc, fields_dst, fields_sa, fields_low, Nat.reduceLT, if_false, commonOf_fields hc, f0, f1, f2, f3, Option.bind_some, onlyIf, beq_self_eq_true, Bool.and_self, if_true, Bool.and_true, Bool.true_and, h1, nameOf_nameCode h2, nameOf_nameCode h3, codeOf_get iconds cond (mem_iconds cond), codeOf_get itys t (mem_itys t), decide_true]
  exact if_pos h1

theorem sel (c : Common) (d a b : Name) (ps : Nat) (inv w64 : Bool) : Statement (.sel c d a b ps inv w64) := by
  intro _ h0
  have h : (c.ok .fixed (nameCode d) && d.ok && a.ok && b.ok && predSrc ps) = true := h0
  simp only [Bool.and_eq_true] at h
  obtain ⟨⟨⟨⟨hc, h1⟩, h2⟩, h3⟩, h4⟩ := h
  have l_d := nameCode_lt h1
  have l_a := nameCode_lt h2
  have l_b := nameCode_lt h3
  have l_ps := predSrc_lt h4
  have l_inv : codeOf bools inv < 2 := codeOf_lt bools inv (mem_bools inv)
  have l_w64 : codeOf bools w64 < 2 := codeOf_lt bools w64 (mem_bools w64)
  obtain ⟨x_, hx_⟩ : ∃ x_, x_ = nameCode b * 4096 + ps * 8 + codeOf bools inv * 4 + codeOf bools w64 := ⟨_, rfl⟩
  have f0 : fld x_ 20 12 = nameCode b := by show x_ / 4096 % 512 = _; omega
  have f1 : fld x_ 11 3 = ps := by show x_ / 8 % 512 = _; omega
  have f2 : fld x_ 2 2 = codeOf bools inv := by show x_ / 4 % 2 = _; omega
  have f3 : fld x_ 1 1 = 0 := by show x_ / 2 % 2 = _; omega
  have f4 : fld x_ 0 0 = codeOf bools w64 := by show x_ / 1 % 2 = _; omega
  have e : encode (.sel c d a b ps inv w64) = put 0x05e c (nameCode d) (nameCode a) x_ := by rw [hx_]; rfl
  rw [e, decodeWord_put hc (by decide) (by omega) (by omega) (by omega)]
  unfold decodeRaw decodeInt
  simp only [fields_opc, fields_dst, fields_sa, fields_low, Nat.reduceLT, if_false, commonOf_fields hc, f0, f1, f2, f3, f4, Option.bind_some, onlyIf, beq_self_eq_true, Bool.and_self, if_true, Bool.and_true, Bool.true_and, nameOf_nameCode h1, nameOf_nameCode h2, nameOf_nameCode h3, h4, codeOf_get bools inv (mem_bools inv), codeOf_get bools w64 (mem_bools w64), decide_true]

theorem plog (c : Common) (pd pa pb tbl : Nat) : Statement (.plog c pd pa pb tbl) := by
  intro _ h0
  have h : (c.ok .none pd && decide (pd < 96) && predSrc pa && predSrc pb && decide (tbl < 256)) = true := h0
  simp only [Bool.and_eq_true] at h
  obtain ⟨⟨⟨⟨hc, h1⟩, h2⟩, h3⟩, h4⟩ := h
  have l_pd := of_decide_eq_true h1
  have l_pa := predSrc_lt h2
  have l_pb := predSrc_lt h3
  have l_tbl := of_decide_eq_true h4
  obtain ⟨x_, hx_⟩ : ∃ x_, x_ = pb * 16384 + tbl * 64 := ⟨_, rfl⟩
  have f0 : fld x_ 20 14 = pb := by show x_ / 16384 % 128 = _; omega
  have f1 : fld x_ 13 6 = tbl := by show x_ / 64 % 256 = _; omega
  have f2 : fld x_ 5 0 = 0 := by show x_ / 1 % 64 = _; omega
  have e : encode (.plog c pd pa pb tbl) = put 0x05f c pd pa x_ := by rw [hx_]; rfl
  rw [e, decodeWord_put hc (by decide) (by omega) (by omega) (by omega)]
  unfold decodeRaw decodeInt
  simp only [fields_opc, fields_dst, fields_sa, fields_low, Nat.reduceLT, if_false, commonOf_fields hc, f0, f1, f2, Option.bind_some, onlyIf, beq_self_eq_true, Bool.and_self, if_true, Bool.and_true, Bool.true_and, h1, h2, h3, h4, decide_true]
  exact if_pos h1

theorem prd (c : Common) (d : Name) (bank : Nat) : Statement (.prd c d bank) := by
  intro _ h0
  have h : (c.ok .fixed (nameCode d) && d.ok && decide (bank < 3)) = true := h0
  simp only [Bool.and_eq_true] at h
  obtain ⟨⟨hc, h1⟩, h2⟩ := h
  have l_d := nameCode_lt h1
  have l_bank := of_decide_eq_true h2
  obtain ⟨x_, hx_⟩ : ∃ x_, x_ = bank := ⟨_, rfl⟩
  have f0 : fld x_ 20 3 = 0 := by show x_ / 8 % 262144 = _; omega
  have f1 : fld x_ 2 0 = bank := by show x_ / 1 % 8 = _; omega
  have e : encode (.prd c d bank) = put 0x060 c (nameCode d) 0 x_ := by rw [hx_]; rfl
  rw [e, decodeWord_put hc (by decide) (by omega) (by omega) (by omega)]
  unfold decodeRaw decodeInt
  simp only [fields_opc, fields_dst, fields_sa, fields_low, Nat.reduceLT, if_false, commonOf_fields hc, f0, f1, Option.bind_some, onlyIf, beq_self_eq_true, Bool.and_self, if_true, Bool.and_true, Bool.true_and, nameOf_nameCode h1, h2, decide_true]

theorem pwr (c : Common) (a m : Name) (bank : Nat) : Statement (.pwr c a m bank) := by
  intro _ h0
  have h : (c.ok .none 0 && a.ok && m.ok && decide (bank < 3)) = true := h0
  simp only [Bool.and_eq_true] at h
  obtain ⟨⟨⟨hc, h1⟩, h2⟩, h3⟩ := h
  have l_a := nameCode_lt h1
  have l_m := nameCode_lt h2
  have l_bank := of_decide_eq_true h3
  obtain ⟨x_, hx_⟩ : ∃ x_, x_ = nameCode m * 4096 + bank := ⟨_, rfl⟩
  have f0 : fld x_ 20 12 = nameCode m := by show x_ / 4096 % 512 = _; omega
  have f1 : fld x_ 11 3 = 0 := by show x_ / 8 % 512 = _; omega
  have f2 : fld x_ 2 0 = bank := by show x_ / 1 % 8 = _; omega
  have e : encode (.pwr c a m bank) = put 0x061 c 0 (nameCode a) x_ := by rw [hx_]; rfl
  rw [e, decodeWord_put hc (by decide) (by omega) (by omega) (by omega)]
  unfold decodeRaw decodeInt
  simp only [fields_opc, fields_dst, fields_sa, fields_low, Nat.reduceLT, if_false, commonOf_fields hc, f0, f1, f2, Option.bind_some, onlyIf, beq_self_eq_true, Bool.and_self, if_true, Bool.and_true, Bool.true_and, nameOf_nameCode h1, nameOf_nameCode h2, h3, decide_true]

theorem fadd (c : Common) (d a b : Name) (r : Rnd) : Statement (.fadd c d a b rd) := by
  intro _ h0
  have h : (c.ok .fixed (nameCode d) && d.ok && a.ok && b.ok && rnds4.contains rd) = true := h0
  simp only [Bool.and_eq_true] at h
  obtain ⟨⟨⟨⟨hc, h1⟩, h2⟩, h3⟩, h4⟩ := h
  have l_d := nameCode_lt h1
  have l_a := nameCode_lt h2
  have l_b := nameCode_lt h3
  have l_rd : codeOf rnds4 rd < 4 := codeOf_lt rnds4 rd (by simpa using h4)
  obtain ⟨x_, hx_⟩ : ∃ x_, x_ = nameCode b * 4096 + codeOf rnds4 rd := ⟨_, rfl⟩
  have f0 : fld x_ 20 12 = nameCode b := by show x_ / 4096 % 512 = _; omega
  have f1 : fld x_ 11 3 = 0 := by show x_ / 8 % 512 = _; omega
  have f2 : fld x_ 2 0 = codeOf rnds4 rd := by show x_ / 1 % 8 = _; omega
  have e : encode (.fadd c d a b rd) = put 0x0c0 c (nameCode d) (nameCode a) x_ := by rw [hx_]; rfl
  rw [e, decodeWord_put hc (by decide) (by omega) (by omega) (by omega)]
  unfold decodeRaw decodeFlt
  simp only [fields_opc, fields_dst, fields_sa, fields_low, Nat.reduceLT, if_false, commonOf_fields hc, f0, f1, f2, Option.bind_some, onlyIf, beq_self_eq_true, Bool.and_self, if_true, Bool.and_true, Bool.true_and, nameOf_nameCode h1, nameOf_nameCode h2, nameOf_nameCode h3, codeOf_get rnds4 rd (by simpa using h4), decide_true]

theorem fsub (c : Common) (d a b : Name) (r : Rnd) : Statement (.fsub c d a b rd) := by
  intro _ h0
  have h : (c.ok .fixed (nameCode d) && d.ok && a.ok && b.ok && rnds4.contains rd) = true := h0
  simp only [Bool.and_eq_true] at h
  obtain ⟨⟨⟨⟨hc, h1⟩, h2⟩, h3⟩, h4⟩ := h
  have l_d := nameCode_lt h1
  have l_a := nameCode_lt h2
  have l_b := nameCode_lt h3
  have l_rd : codeOf rnds4 rd < 4 := codeOf_lt rnds4 rd (by simpa using h4)
  obtain ⟨x_, hx_⟩ : ∃ x_, x_ = nameCode b * 4096 + codeOf rnds4 rd := ⟨_, rfl⟩
  have f0 : fld x_ 20 12 = nameCode b := by show x_ / 4096 % 512 = _; omega
  have f1 : fld x_ 11 3 = 0 := by show x_ / 8 % 512 = _; omega
  have f2 : fld x_ 2 0 = codeOf rnds4 rd := by show x_ / 1 % 8 = _; omega
  have e : encode (.fsub c d a b rd) = put 0x0c1 c (nameCode d) (nameCode a) x_ := by rw [hx_]; rfl
  rw [e, decodeWord_put hc (by decide) (by omega) (by omega) (by omega)]
  unfold decodeRaw decodeFlt
  simp only [fields_opc, fields_dst, fields_sa, fields_low, Nat.reduceLT, if_false, commonOf_fields hc, f0, f1, f2, Option.bind_some, onlyIf, beq_self_eq_true, Bool.and_self, if_true, Bool.and_true, Bool.true_and, nameOf_nameCode h1, nameOf_nameCode h2, nameOf_nameCode h3, codeOf_get rnds4 rd (by simpa using h4), decide_true]

theorem fmul (c : Common) (d a b : Name) (r : Rnd) : Statement (.fmul c d a b rd) := by
  intro _ h0
  have h : (c.ok .fixed (nameCode d) && d.ok && a.ok && b.ok && rnds4.contains rd) = true := h0
  simp only [Bool.and_eq_true] at h
  obtain ⟨⟨⟨⟨hc, h1⟩, h2⟩, h3⟩, h4⟩ := h
  have l_d := nameCode_lt h1
  have l_a := nameCode_lt h2
  have l_b := nameCode_lt h3
  have l_rd : codeOf rnds4 rd < 4 := codeOf_lt rnds4 rd (by simpa using h4)
  obtain ⟨x_, hx_⟩ : ∃ x_, x_ = nameCode b * 4096 + codeOf rnds4 rd := ⟨_, rfl⟩
  have f0 : fld x_ 20 12 = nameCode b := by show x_ / 4096 % 512 = _; omega
  have f1 : fld x_ 11 3 = 0 := by show x_ / 8 % 512 = _; omega
  have f2 : fld x_ 2 0 = codeOf rnds4 rd := by show x_ / 1 % 8 = _; omega
  have e : encode (.fmul c d a b rd) = put 0x0c2 c (nameCode d) (nameCode a) x_ := by rw [hx_]; rfl
  rw [e, decodeWord_put hc (by decide) (by omega) (by omega) (by omega)]
  unfold decodeRaw decodeFlt
  simp only [fields_opc, fields_dst, fields_sa, fields_low, Nat.reduceLT, if_false, commonOf_fields hc, f0, f1, f2, Option.bind_some, onlyIf, beq_self_eq_true, Bool.and_self, if_true, Bool.and_true, Bool.true_and, nameOf_nameCode h1, nameOf_nameCode h2, nameOf_nameCode h3, codeOf_get rnds4 rd (by simpa using h4), decide_true]

theorem ffma (c : Common) (d a b x : Name) (r : Rnd) : Statement (.ffma c d a b x rd) := by
  intro _ h0
  have h : (c.ok .fixed (nameCode d) && d.ok && a.ok && b.ok && x.ok && rnds4.contains rd) = true := h0
  simp only [Bool.and_eq_true] at h
  obtain ⟨⟨⟨⟨⟨hc, h1⟩, h2⟩, h3⟩, h4⟩, h5⟩ := h
  have l_d := nameCode_lt h1
  have l_a := nameCode_lt h2
  have l_b := nameCode_lt h3
  have l_x := nameCode_lt h4
  have l_rd : codeOf rnds4 rd < 4 := codeOf_lt rnds4 rd (by simpa using h5)
  obtain ⟨x_, hx_⟩ : ∃ x_, x_ = nameCode b * 4096 + nameCode x * 8 + codeOf rnds4 rd := ⟨_, rfl⟩
  have f0 : fld x_ 20 12 = nameCode b := by show x_ / 4096 % 512 = _; omega
  have f1 : fld x_ 11 3 = nameCode x := by show x_ / 8 % 512 = _; omega
  have f2 : fld x_ 2 0 = codeOf rnds4 rd := by show x_ / 1 % 8 = _; omega
  have e : encode (.ffma c d a b x rd) = put 0x0c3 c (nameCode d) (nameCode a) x_ := by rw [hx_]; rfl
  rw [e, decodeWord_put hc (by decide) (by omega) (by omega) (by omega)]
  unfold decodeRaw decodeFlt
  simp only [fields_opc, fields_dst, fields_sa, fields_low, Nat.reduceLT, if_false, commonOf_fields hc, f0, f1, f2, Option.bind_some, onlyIf, beq_self_eq_true, Bool.and_self, if_true, Bool.and_true, Bool.true_and, nameOf_nameCode h1, nameOf_nameCode h2, nameOf_nameCode h3, nameOf_nameCode h4, codeOf_get rnds4 rd (by simpa using h5), decide_true]

theorem fmin (c : Common) (d a b : Name) : Statement (.fmin c d a b) := by
  intro _ h0
  have h : (c.ok .fixed (nameCode d) && d.ok && a.ok && b.ok) = true := h0
  simp only [Bool.and_eq_true] at h
  obtain ⟨⟨⟨hc, h1⟩, h2⟩, h3⟩ := h
  have l_d := nameCode_lt h1
  have l_a := nameCode_lt h2
  have l_b := nameCode_lt h3
  obtain ⟨x_, hx_⟩ : ∃ x_, x_ = nameCode b * 4096 := ⟨_, rfl⟩
  have f0 : fld x_ 20 12 = nameCode b := by show x_ / 4096 % 512 = _; omega
  have f1 : fld x_ 11 3 = 0 := by show x_ / 8 % 512 = _; omega
  have f2 : fld x_ 2 0 = 0 := by show x_ / 1 % 8 = _; omega
  have e : encode (.fmin c d a b) = put 0x0c4 c (nameCode d) (nameCode a) x_ := by rw [hx_]; rfl
  rw [e, decodeWord_put hc (by decide) (by omega) (by omega) (by omega)]
  unfold decodeRaw decodeFlt
  simp only [fields_opc, fields_dst, fields_sa, fields_low, Nat.reduceLT, if_false, commonOf_fields hc, f0, f1, f2, Option.bind_some, onlyIf, beq_self_eq_true, Bool.and_self, if_true, Bool.and_true, Bool.true_and, nameOf_nameCode h1, nameOf_nameCode h2, nameOf_nameCode h3, decide_true]

theorem fmax (c : Common) (d a b : Name) : Statement (.fmax c d a b) := by
  intro _ h0
  have h : (c.ok .fixed (nameCode d) && d.ok && a.ok && b.ok) = true := h0
  simp only [Bool.and_eq_true] at h
  obtain ⟨⟨⟨hc, h1⟩, h2⟩, h3⟩ := h
  have l_d := nameCode_lt h1
  have l_a := nameCode_lt h2
  have l_b := nameCode_lt h3
  obtain ⟨x_, hx_⟩ : ∃ x_, x_ = nameCode b * 4096 := ⟨_, rfl⟩
  have f0 : fld x_ 20 12 = nameCode b := by show x_ / 4096 % 512 = _; omega
  have f1 : fld x_ 11 3 = 0 := by show x_ / 8 % 512 = _; omega
  have f2 : fld x_ 2 0 = 0 := by show x_ / 1 % 8 = _; omega
  have e : encode (.fmax c d a b) = put 0x0c5 c (nameCode d) (nameCode a) x_ := by rw [hx_]; rfl
  rw [e, decodeWord_put hc (by decide) (by omega) (by omega) (by omega)]
  unfold decodeRaw decodeFlt
  simp only [fields_opc, fields_dst, fields_sa, fields_low, Nat.reduceLT, if_false, commonOf_fields hc, f0, f1, f2, Option.bind_some, onlyIf, beq_self_eq_true, Bool.and_self, if_true, Bool.and_true, Bool.true_and, nameOf_nameCode h1, nameOf_nameCode h2, nameOf_nameCode h3, decide_true]

theorem fcmp (c : Common) (pd : Nat) (a b : Name) (cond : FCond) : Statement (.fcmp c pd a b cond) := by
  intro _ h0
  have h : (c.ok .none pd && decide (pd < 96) && a.ok && b.ok) = true := h0
  simp only [Bool.and_eq_true] at h
  obtain ⟨⟨⟨hc, h1⟩, h2⟩, h3⟩ := h
  have l_pd := of_decide_eq_true h1
  have l_a := nameCode_lt h2
  have l_b := nameCode_lt h3
  have l_cond : codeOf fconds cond < 7 := codeOf_lt fconds cond (mem_fconds cond)
  obtain ⟨x_, hx_⟩ : ∃ x_, x_ = nameCode b * 4096 + codeOf fconds cond * 512 := ⟨_, rfl⟩
  have f0 : fld x_ 20 12 = nameCode b := by show x_ / 4096 % 512 = _; omega
  have f1 : fld x_ 11 9 = codeOf fconds cond := by show x_ / 512 % 8 = _; omega
  have f2 : fld x_ 8 0 = 0 := by show x_ / 1 % 512 = _; omega
  have e : encode (.fcmp c pd a b cond) = put 0x0c6 c pd (nameCode a) x_ := by rw [hx_]; rfl
  rw [e, decodeWord_put hc (by decide) (by omega) (by omega) (by omega)]
  unfold decodeRaw decodeFlt
  simp only [fields_opc, fields_dst, fields_sa, fields_low, Nat.reduceLT, if_false, commonOf_fields hc, f0, f1, f2, Option.bind_some, onlyIf, beq_self_eq_true, Bool.and_self, if_true, Bool.and_true, Bool.true_and, h1, nameOf_nameCode h2, nameOf_nameCode h3, codeOf_get fconds cond (mem_fconds cond), decide_true]
  exact if_pos h1

theorem dcmp (c : Common) (pd : Nat) (a b : Name) (cond : FCond) : Statement (.dcmp c pd a b cond) := by
  intro _ h0
  have h : (c.ok .none pd && decide (pd < 96) && a.ok && b.ok) = true := h0
  simp only [Bool.and_eq_true] at h
  obtain ⟨⟨⟨hc, h1⟩, h2⟩, h3⟩ := h
  have l_pd := of_decide_eq_true h1
  have l_a := nameCode_lt h2
  have l_b := nameCode_lt h3
  have l_cond : codeOf fconds cond < 7 := codeOf_lt fconds cond (mem_fconds cond)
  obtain ⟨x_, hx_⟩ : ∃ x_, x_ = nameCode b * 4096 + codeOf fconds cond * 512 := ⟨_, rfl⟩
  have f0 : fld x_ 20 12 = nameCode b := by show x_ / 4096 % 512 = _; omega
  have f1 : fld x_ 11 9 = codeOf fconds cond := by show x_ / 512 % 8 = _; omega
  have f2 : fld x_ 8 0 = 0 := by show x_ / 1 % 512 = _; omega
  have e : encode (.dcmp c pd a b cond) = put 0x0d7 c pd (nameCode a) x_ := by rw [hx_]; rfl
  rw [e, decodeWord_put hc (by decide) (by omega) (by omega) (by omega)]
  unfold decodeRaw decodeFlt
  simp only [fields_opc, fields_dst, fields_sa, fields_low, Nat.reduceLT, if_false, commonOf_fields hc, f0, f1, f2, Option.bind_some, onlyIf, beq_self_eq_true, Bool.and_self, if_true, Bool.and_true, Bool.true_and, h1, nameOf_nameCode h2, nameOf_nameCode h3, codeOf_get fconds cond (mem_fconds cond), decide_true]
  exact if_pos h1

theorem fdiv (c : Common) (d a b : Name) (r : Rnd) : Statement (.fdiv c d a b rd) := by
  intro _ h0
  have h : (c.ok .tracked (nameCode d) && d.ok && a.ok && b.ok && rnds4.contains rd) = true := h0
  simp only [Bool.and_eq_true] at h
  obtain ⟨⟨⟨⟨hc, h1⟩, h2⟩, h3⟩, h4⟩ := h
  have l_d := nameCode_lt h1
  have l_a := nameCode_lt h2
  have l_b := nameCode_lt h3
  have l_rd : codeOf rnds4 rd < 4 := codeOf_lt rnds4 rd (by simpa using h4)
  obtain ⟨x_, hx_⟩ : ∃ x_, x_ = nameCode b * 4096 + codeOf rnds4 rd := ⟨_, rfl⟩
  have f0 : fld x_ 20 12 = nameCode b := by show x_ / 4096 % 512 = _; omega
  have f1 : fld x_ 11 3 = 0 := by show x_ / 8 % 512 = _; omega
  have f2 : fld x_ 2 0 = codeOf rnds4 rd := by show x_ / 1 % 8 = _; omega
  have e : encode (.fdiv c d a b rd) = put 0x0c7 c (nameCode d) (nameCode a) x_ := by rw [hx_]; rfl
  rw [e, decodeWord_put hc (by decide) (by omega) (by omega) (by omega)]
  unfold decodeRaw decodeFlt
  simp only [fields_opc, fields_dst, fields_sa, fields_low, Nat.reduceLT, if_false, commonOf_fields hc, f0, f1, f2, Option.bind_some, onlyIf, beq_self_eq_true, Bool.and_self, if_true, Bool.and_true, Bool.true_and, nameOf_nameCode h1, nameOf_nameCode h2, nameOf_nameCode h3, codeOf_get rnds4 rd (by simpa using h4), decide_true]

theorem fsqrt (c : Common) (d a : Name) (r : Rnd) : Statement (.fsqrt c d a rd) := by
  intro _ h0
  have h : (c.ok .tracked (nameCode d) && d.ok && a.ok && rnds4.contains rd) = true := h0
  simp only [Bool.and_eq_true] at h
  obtain ⟨⟨⟨hc, h1⟩, h2⟩, h3⟩ := h
  have l_d := nameCode_lt h1
  have l_a := nameCode_lt h2
  have l_rd : codeOf rnds4 rd < 4 := codeOf_lt rnds4 rd (by simpa using h3)
  obtain ⟨x_, hx_⟩ : ∃ x_, x_ = codeOf rnds4 rd := ⟨_, rfl⟩
  have f0 : fld x_ 20 3 = 0 := by show x_ / 8 % 262144 = _; omega
  have f1 : fld x_ 2 0 = codeOf rnds4 rd := by show x_ / 1 % 8 = _; omega
  have e : encode (.fsqrt c d a rd) = put 0x0c8 c (nameCode d) (nameCode a) x_ := by rw [hx_]; rfl
  rw [e, decodeWord_put hc (by decide) (by omega) (by omega) (by omega)]
  unfold decodeRaw decodeFlt
  simp only [fields_opc, fields_dst, fields_sa, fields_low, Nat.reduceLT, if_false, commonOf_fields hc, f0, f1, Option.bind_some, onlyIf, beq_self_eq_true, Bool.and_self, if_true, Bool.and_true, Bool.true_and, nameOf_nameCode h1, nameOf_nameCode h2, codeOf_get rnds4 rd (by simpa using h3), decide_true]

theorem frcp (c : Common) (d a : Name) : Statement (.frcp c d a) := by
  intro _ h0
  have h : (c.ok .tracked (nameCode d) && d.ok && a.ok) = true := h0
  simp only [Bool.and_eq_true] at h
  obtain ⟨⟨hc, h1⟩, h2⟩ := h
  have l_d := nameCode_lt h1
  have l_a := nameCode_lt h2
  have f0 : fld 0 20 3 = 0 := rfl
  have f1 : fld 0 2 0 = 0 := rfl
  have e : encode (.frcp c d a) = put 0x0c9 c (nameCode d) (nameCode a) 0 := by rfl
  rw [e, decodeWord_put hc (by decide) (by omega) (by omega) (by omega)]
  unfold decodeRaw decodeFlt
  simp only [fields_opc, fields_dst, fields_sa, fields_low, Nat.reduceLT, if_false, commonOf_fields hc, f0, f1, Option.bind_some, onlyIf, beq_self_eq_true, Bool.and_self, if_true, Bool.and_true, Bool.true_and, nameOf_nameCode h1, nameOf_nameCode h2, decide_true]

theorem frsq (c : Common) (d a : Name) : Statement (.frsq c d a) := by
  intro _ h0
  have h : (c.ok .tracked (nameCode d) && d.ok && a.ok) = true := h0
  simp only [Bool.and_eq_true] at h
  obtain ⟨⟨hc, h1⟩, h2⟩ := h
  have l_d := nameCode_lt h1
  have l_a := nameCode_lt h2
  have f0 : fld 0 20 3 = 0 := rfl
  have f1 : fld 0 2 0 = 0 := rfl
  have e : encode (.frsq c d a) = put 0x0ca c (nameCode d) (nameCode a) 0 := by rfl
  rw [e, decodeWord_put hc (by decide) (by omega) (by omega) (by omega)]
  unfold decodeRaw decodeFlt
  simp only [fields_opc, fields_dst, fields_sa, fields_low, Nat.reduceLT, if_false, commonOf_fields hc, f0, f1, Option.bind_some, onlyIf, beq_self_eq_true, Bool.and_self, if_true, Bool.and_true, Bool.true_and, nameOf_nameCode h1, nameOf_nameCode h2, decide_true]

theorem fexp2 (c : Common) (d a : Name) : Statement (.fexp2 c d a) := by
  intro _ h0
  have h : (c.ok .tracked (nameCode d) && d.ok && a.ok) = true := h0
  simp only [Bool.and_eq_true] at h
  obtain ⟨⟨hc, h1⟩, h2⟩ := h
  have l_d := nameCode_lt h1
  have l_a := nameCode_lt h2
  have f0 : fld 0 20 3 = 0 := rfl
  have f1 : fld 0 2 0 = 0 := rfl
  have e : encode (.fexp2 c d a) = put 0x0cb c (nameCode d) (nameCode a) 0 := by rfl
  rw [e, decodeWord_put hc (by decide) (by omega) (by omega) (by omega)]
  unfold decodeRaw decodeFlt
  simp only [fields_opc, fields_dst, fields_sa, fields_low, Nat.reduceLT, if_false, commonOf_fields hc, f0, f1, Option.bind_some, onlyIf, beq_self_eq_true, Bool.and_self, if_true, Bool.and_true, Bool.true_and, nameOf_nameCode h1, nameOf_nameCode h2, decide_true]

theorem flog2 (c : Common) (d a : Name) : Statement (.flog2 c d a) := by
  intro _ h0
  have h : (c.ok .tracked (nameCode d) && d.ok && a.ok) = true := h0
  simp only [Bool.and_eq_true] at h
  obtain ⟨⟨hc, h1⟩, h2⟩ := h
  have l_d := nameCode_lt h1
  have l_a := nameCode_lt h2
  have f0 : fld 0 20 3 = 0 := rfl
  have f1 : fld 0 2 0 = 0 := rfl
  have e : encode (.flog2 c d a) = put 0x0cc c (nameCode d) (nameCode a) 0 := by rfl
  rw [e, decodeWord_put hc (by decide) (by omega) (by omega) (by omega)]
  unfold decodeRaw decodeFlt
  simp only [fields_opc, fields_dst, fields_sa, fields_low, Nat.reduceLT, if_false, commonOf_fields hc, f0, f1, Option.bind_some, onlyIf, beq_self_eq_true, Bool.and_self, if_true, Bool.and_true, Bool.true_and, nameOf_nameCode h1, nameOf_nameCode h2, decide_true]

theorem fsin (c : Common) (d a : Name) : Statement (.fsin c d a) := by
  intro _ h0
  have h : (c.ok .tracked (nameCode d) && d.ok && a.ok) = true := h0
  simp only [Bool.and_eq_true] at h
  obtain ⟨⟨hc, h1⟩, h2⟩ := h
  have l_d := nameCode_lt h1
  have l_a := nameCode_lt h2
  have f0 : fld 0 20 3 = 0 := rfl
  have f1 : fld 0 2 0 = 0 := rfl
  have e : encode (.fsin c d a) = put 0x0cd c (nameCode d) (nameCode a) 0 := by rfl
  rw [e, decodeWord_put hc (by decide) (by omega) (by omega) (by omega)]
  unfold decodeRaw decodeFlt
  simp only [fields_opc, fields_dst, fields_sa, fields_low, Nat.reduceLT, if_false, commonOf_fields hc, f0, f1, Option.bind_some, onlyIf, beq_self_eq_true, Bool.and_self, if_true, Bool.and_true, Bool.true_and, nameOf_nameCode h1, nameOf_nameCode h2, decide_true]

theorem fcos (c : Common) (d a : Name) : Statement (.fcos c d a) := by
  intro _ h0
  have h : (c.ok .tracked (nameCode d) && d.ok && a.ok) = true := h0
  simp only [Bool.and_eq_true] at h
  obtain ⟨⟨hc, h1⟩, h2⟩ := h
  have l_d := nameCode_lt h1
  have l_a := nameCode_lt h2
  have f0 : fld 0 20 3 = 0 := rfl
  have f1 : fld 0 2 0 = 0 := rfl
  have e : encode (.fcos c d a) = put 0x0ce c (nameCode d) (nameCode a) 0 := by rfl
  rw [e, decodeWord_put hc (by decide) (by omega) (by omega) (by omega)]
  unfold decodeRaw decodeFlt
  simp only [fields_opc, fields_dst, fields_sa, fields_low, Nat.reduceLT, if_false, commonOf_fields hc, f0, f1, Option.bind_some, onlyIf, beq_self_eq_true, Bool.and_self, if_true, Bool.and_true, Bool.true_and, nameOf_nameCode h1, nameOf_nameCode h2, decide_true]

theorem frnd (c : Common) (d a : Name) (r : Rnd) : Statement (.frnd c d a rd) := by
  intro _ h0
  have h : (c.ok .fixed (nameCode d) && d.ok && a.ok && rnds4.contains rd) = true := h0
  simp only [Bool.and_eq_true] at h
  obtain ⟨⟨⟨hc, h1⟩, h2⟩, h3⟩ := h
  have l_d := nameCode_lt h1
  have l_a := nameCode_lt h2
  have l_rd : codeOf rnds4 rd < 4 := codeOf_lt rnds4 rd (by simpa using h3)
  obtain ⟨x_, hx_⟩ : ∃ x_, x_ = codeOf rnds4 rd := ⟨_, rfl⟩
  have f0 : fld x_ 20 3 = 0 := by show x_ / 8 % 262144 = _; omega
  have f1 : fld x_ 2 0 = codeOf rnds4 rd := by show x_ / 1 % 8 = _; omega
  have e : encode (.frnd c d a rd) = put 0x0cf c (nameCode d) (nameCode a) x_ := by rw [hx_]; rfl
  rw [e, decodeWord_put hc (by decide) (by omega) (by omega) (by omega)]
  unfold decodeRaw decodeFlt
  simp only [fields_opc, fields_dst, fields_sa, fields_low, Nat.reduceLT, if_false, commonOf_fields hc, f0, f1, Option.bind_some, onlyIf, beq_self_eq_true, Bool.and_self, if_true, Bool.and_true, Bool.true_and, nameOf_nameCode h1, nameOf_nameCode h2, codeOf_get rnds4 rd (by simpa using h3), decide_true]

theorem fcls (c : Common) (d a : Name) (form : ClsForm) : Statement (.fcls c d a form) := by
  intro _ h0
  have h : (c.ok .fixed (nameCode d) && d.ok && a.ok) = true := h0
  simp only [Bool.and_eq_true] at h
  obtain ⟨⟨hc, h1⟩, h2⟩ := h
  have l_d := nameCode_lt h1
  have l_a := nameCode_lt h2
  have l_form : codeOf clsForms form < 3 := codeOf_lt clsForms form (mem_clsForms form)
  obtain ⟨x_, hx_⟩ : ∃ x_, x_ = codeOf clsForms form := ⟨_, rfl⟩
  have f0 : fld x_ 20 3 = 0 := by show x_ / 8 % 262144 = _; omega
  have f1 : fld x_ 2 0 = codeOf clsForms form := by show x_ / 1 % 8 = _; omega
  have e : encode (.fcls c d a form) = put 0x0d0 c (nameCode d) (nameCode a) x_ := by rw [hx_]; rfl
  rw [e, decodeWord_put hc (by decide) (by omega) (by omega) (by omega)]
  unfold decodeRaw decodeFlt
  simp only [fields_opc, fields_dst, fields_sa, fields_low, Nat.reduceLT, if_false, commonOf_fields hc, f0, f1, Option.bind_some, onlyIf, beq_self_eq_true, Bool.and_self, if_true, Bool.and_true, Bool.true_and, nameOf_nameCode h1, nameOf_nameCode h2, codeOf_get clsForms form (mem_clsForms form), decide_true]

theorem fscl (c : Common) (d a n : Name) (r : Rnd) : Statement (.fscl c d a n rd) := by
  intro _ h0
  have h : (c.ok .fixed (nameCode d) && d.ok && a.ok && n.ok && rnds4.contains rd) = true := h0
  simp only [Bool.and_eq_true] at h
  obtain ⟨⟨⟨⟨hc, h1⟩, h2⟩, h3⟩, h4⟩ := h
  have l_d := nameCode_lt h1
  have l_a := nameCode_lt h2
  have l_n := nameCode_lt h3
  have l_rd : codeOf rnds4 rd < 4 := codeOf_lt rnds4 rd (by simpa using h4)
  obtain ⟨x_, hx_⟩ : ∃ x_, x_ = nameCode n * 4096 + codeOf rnds4 rd := ⟨_, rfl⟩
  have f0 : fld x_ 20 12 = nameCode n := by show x_ / 4096 % 512 = _; omega
  have f1 : fld x_ 11 3 = 0 := by show x_ / 8 % 512 = _; omega
  have f2 : fld x_ 2 0 = codeOf rnds4 rd := by show x_ / 1 % 8 = _; omega
  have e : encode (.fscl c d a n rd) = put 0x0d1 c (nameCode d) (nameCode a) x_ := by rw [hx_]; rfl
  rw [e, decodeWord_put hc (by decide) (by omega) (by omega) (by omega)]
  unfold decodeRaw decodeFlt
  simp only [fields_opc, fields_dst, fields_sa, fields_low, Nat.reduceLT, if_false, commonOf_fields hc, f0, f1, f2, Option.bind_some, onlyIf, beq_self_eq_true, Bool.and_self, if_true, Bool.and_true, Bool.true_and, nameOf_nameCode h1, nameOf_nameCode h2, nameOf_nameCode h3, codeOf_get rnds4 rd (by simpa using h4), decide_true]

theorem dadd (c : Common) (d a b : Name) (r : Rnd) (sub : Bool) : Statement (.dadd c d a b rd sub) := by
  intro _ h0
  have h : (c.ok .fixed (nameCode d) && d.ok && a.ok && b.ok && rnds4.contains rd) = true := h0
  simp only [Bool.and_eq_true] at h
  obtain ⟨⟨⟨⟨hc, h1⟩, h2⟩, h3⟩, h4⟩ := h
  have l_d := nameCode_lt h1
  have l_a := nameCode_lt h2
  have l_b := nameCode_lt h3
  have l_sub : codeOf bools sub < 2 := codeOf_lt bools sub (mem_bools sub)
  have l_rd : codeOf rnds4 rd < 4 := codeOf_lt rnds4 rd (by simpa using h4)
  obtain ⟨x_, hx_⟩ : ∃ x_, x_ = nameCode b * 4096 + codeOf bools sub * 4 + codeOf rnds4 rd := ⟨_, rfl⟩
  have f0 : fld x_ 20 12 = nameCode b := by show x_ / 4096 % 512 = _; omega
  have f1 : fld x_ 11 3 = 0 := by show x_ / 8 % 512 = _; omega
  have f2 : fld x_ 2 2 = codeOf bools sub := by show x_ / 4 % 2 = _; omega
  have f3 : fld x_ 1 0 = codeOf rnds4 rd := by show x_ / 1 % 4 = _; omega
  have e : encode (.dadd c d a b rd sub) = put 0x0d2 c (nameCode d) (nameCode a) x_ := by rw [hx_]; rfl
  rw [e, decodeWord_put hc (by decide) (by omega) (by omega) (by omega)]
  unfold decodeRaw decodeFlt
  simp only [fields_opc, fields_dst, fields_sa, fields_low, Nat.reduceLT, if_false, commonOf_fields hc, f0, f1, f2, f3, Option.bind_some, onlyIf, beq_self_eq_true, Bool.and_self, if_true, Bool.and_true, Bool.true_and, nameOf_nameCode h1, nameOf_nameCode h2, nameOf_nameCode h3, codeOf_get bools sub (mem_bools sub), codeOf_get rnds4 rd (by simpa using h4), decide_true]

theorem dmul (c : Common) (d a b : Name) (r : Rnd) : Statement (.dmul c d a b rd) := by
  intro _ h0
  have h : (c.ok .fixed (nameCode d) && d.ok && a.ok && b.ok && rnds4.contains rd) = true := h0
  simp only [Bool.and_eq_true] at h
  obtain ⟨⟨⟨⟨hc, h1⟩, h2⟩, h3⟩, h4⟩ := h
  have l_d := nameCode_lt h1
  have l_a := nameCode_lt h2
  have l_b := nameCode_lt h3
  have l_rd : codeOf rnds4 rd < 4 := codeOf_lt rnds4 rd (by simpa using h4)
  obtain ⟨x_, hx_⟩ : ∃ x_, x_ = nameCode b * 4096 + codeOf rnds4 rd := ⟨_, rfl⟩
  have f0 : fld x_ 20 12 = nameCode b := by show x_ / 4096 % 512 = _; omega
  have f1 : fld x_ 11 3 = 0 := by show x_ / 8 % 512 = _; omega
  have f2 : fld x_ 2 0 = codeOf rnds4 rd := by show x_ / 1 % 8 = _; omega
  have e : encode (.dmul c d a b rd) = put 0x0d3 c (nameCode d) (nameCode a) x_ := by rw [hx_]; rfl
  rw [e, decodeWord_put hc (by decide) (by omega) (by omega) (by omega)]
  unfold decodeRaw decodeFlt
  simp only [fields_opc, fields_dst, fields_sa, fields_low, Nat.reduceLT, if_false, commonOf_fields hc, f0, f1, f2, Option.bind_some, onlyIf, beq_self_eq_true, Bool.and_self, if_true, Bool.and_true, Bool.true_and, nameOf_nameCode h1, nameOf_nameCode h2, nameOf_nameCode h3, codeOf_get rnds4 rd (by simpa using h4), decide_true]

theorem dfma (c : Common) (d a b x : Name) (r : Rnd) : Statement (.dfma c d a b x rd) := by
  intro _ h0
  have h : (c.ok .fixed (nameCode d) && d.ok && a.ok && b.ok && x.ok && rnds4.contains rd) = true := h0
  simp only [Bool.and_eq_true] at h
  obtain ⟨⟨⟨⟨⟨hc, h1⟩, h2⟩, h3⟩, h4⟩, h5⟩ := h
  have l_d := nameCode_lt h1
  have l_a := nameCode_lt h2
  have l_b := nameCode_lt h3
  have l_x := nameCode_lt h4
  have l_rd : codeOf rnds4 rd < 4 := codeOf_lt rnds4 rd (by simpa using h5)
  obtain ⟨x_, hx_⟩ : ∃ x_, x_ = nameCode b * 4096 + nameCode x * 8 + codeOf rnds4 rd := ⟨_, rfl⟩
  have f0 : fld x_ 20 12 = nameCode b := by show x_ / 4096 % 512 = _; omega
  have f1 : fld x_ 11 3 = nameCode x := by show x_ / 8 % 512 = _; omega
  have f2 : fld x_ 2 0 = codeOf rnds4 rd := by show x_ / 1 % 8 = _; omega
  have e : encode (.dfma c d a b x rd) = put 0x0d4 c (nameCode d) (nameCode a) x_ := by rw [hx_]; rfl
  rw [e, decodeWord_put hc (by decide) (by omega) (by omega) (by omega)]
  unfold decodeRaw decodeFlt
  simp only [fields_opc, fields_dst, fields_sa, fields_low, Nat.reduceLT, if_false, commonOf_fields hc, f0, f1, f2, Option.bind_some, onlyIf, beq_self_eq_true, Bool.and_self, if_true, Bool.and_true, Bool.true_and, nameOf_nameCode h1, nameOf_nameCode h2, nameOf_nameCode h3, nameOf_nameCode h4, codeOf_get rnds4 rd (by simpa using h5), decide_true]

theorem ddiv (c : Common) (d a b : Name) (r : Rnd) : Statement (.ddiv c d a b rd) := by
  intro _ h0
  have h : (c.ok .tracked (nameCode d) && d.ok && a.ok && b.ok && rnds4.contains rd) = true := h0
  simp only [Bool.and_eq_true] at h
  obtain ⟨⟨⟨⟨hc, h1⟩, h2⟩, h3⟩, h4⟩ := h
  have l_d := nameCode_lt h1
  have l_a := nameCode_lt h2
  have l_b := nameCode_lt h3
  have l_rd : codeOf rnds4 rd < 4 := codeOf_lt rnds4 rd (by simpa using h4)
  obtain ⟨x_, hx_⟩ : ∃ x_, x_ = nameCode b * 4096 + codeOf rnds4 rd := ⟨_, rfl⟩
  have f0 : fld x_ 20 12 = nameCode b := by show x_ / 4096 % 512 = _; omega
  have f1 : fld x_ 11 3 = 0 := by show x_ / 8 % 512 = _; omega
  have f2 : fld x_ 2 0 = codeOf rnds4 rd := by show x_ / 1 % 8 = _; omega
  have e : encode (.ddiv c d a b rd) = put 0x0d5 c (nameCode d) (nameCode a) x_ := by rw [hx_]; rfl
  rw [e, decodeWord_put hc (by decide) (by omega) (by omega) (by omega)]
  unfold decodeRaw decodeFlt
  simp only [fields_opc, fields_dst, fields_sa, fields_low, Nat.reduceLT, if_false, commonOf_fields hc, f0, f1, f2, Option.bind_some, onlyIf, beq_self_eq_true, Bool.and_self, if_true, Bool.and_true, Bool.true_and, nameOf_nameCode h1, nameOf_nameCode h2, nameOf_nameCode h3, codeOf_get rnds4 rd (by simpa using h4), decide_true]

theorem dsqrt (c : Common) (d a : Name) (r : Rnd) : Statement (.dsqrt c d a rd) := by
  intro _ h0
  have h : (c.ok .tracked (nameCode d) && d.ok && a.ok && rnds4.contains rd) = true := h0
  simp only [Bool.and_eq_true] at h
  obtain ⟨⟨⟨hc, h1⟩, h2⟩, h3⟩ := h
  have l_d := nameCode_lt h1
  have l_a := nameCode_lt h2
  have l_rd : codeOf rnds4 rd < 4 := codeOf_lt rnds4 rd (by simpa using h3)
  obtain ⟨x_, hx_⟩ : ∃ x_, x_ = codeOf rnds4 rd := ⟨_, rfl⟩
  have f0 : fld x_ 20 3 = 0 := by show x_ / 8 % 262144 = _; omega
  have f1 : fld x_ 2 0 = codeOf rnds4 rd := by show x_ / 1 % 8 = _; omega
  have e : encode (.dsqrt c d a rd) = put 0x0d6 c (nameCode d) (nameCode a) x_ := by rw [hx_]; rfl
  rw [e, decodeWord_put hc (by decide) (by omega) (by omega) (by omega)]
  unfold decodeRaw decodeFlt
  simp only [fields_opc, fields_dst, fields_sa, fields_low, Nat.reduceLT, if_false, commonOf_fields hc, f0, f1, Option.bind_some, onlyIf, beq_self_eq_true, Bool.and_self, if_true, Bool.and_true, Bool.true_and, nameOf_nameCode h1, nameOf_nameCode h2, codeOf_get rnds4 rd (by simpa using h3), decide_true]

theorem badd2 (c : Common) (d a b : Name) (rz sat : Bool) : Statement (.badd2 c d a b rz sat) := by
  intro _ h0
  have h : (c.ok .fixed (nameCode d) && d.ok && a.ok && b.ok) = true := h0
  simp only [Bool.and_eq_true] at h
  obtain ⟨⟨⟨hc, h1⟩, h2⟩, h3⟩ := h
  have l_d := nameCode_lt h1
  have l_a := nameCode_lt h2
  have l_b := nameCode_lt h3
  have l_sat : codeOf bools sat < 2 := codeOf_lt bools sat (mem_bools sat)
  have l_rz : codeOf bools rz < 2 := codeOf_lt bools rz (mem_bools rz)
  obtain ⟨x_, hx_⟩ : ∃ x_, x_ = nameCode b * 4096 + codeOf bools sat * 2 + codeOf bools rz := ⟨_, rfl⟩
  have f0 : fld x_ 20 12 = nameCode b := by show x_ / 4096 % 512 = _; omega
  have f1 : fld x_ 11 2 = 0 := by show x_ / 4 % 1024 = _; omega
  have f2 : fld x_ 1 1 = codeOf bools sat := by show x_ / 2 % 2 = _; omega
  have f3 : fld x_ 0 0 = codeOf bools rz := by show x_ / 1 % 2 = _; omega
  have e : encode (.badd2 c d a b rz sat) = put 0x0d8 c (nameCode d) (nameCode a) x_ := by rw [hx_]; rfl
  rw [e, decodeWord_put hc (by decide) (by omega) (by omega) (by omega)]
  unfold decodeRaw decodeFlt
  simp only [fields_opc, fields_dst, fields_sa, fields_low, Nat.reduceLT, if_false, commonOf_fields hc, f0, f1, f2, f3, Option.bind_some, onlyIf, beq_self_eq_true, Bool.and_self, if_true, Bool.and_true, Bool.true_and, nameOf_nameCode h1, nameOf_nameCode h2, nameOf_nameCode h3, codeOf_get bools sat (mem_bools sat), codeOf_get bools rz (mem_bools rz), decide_true]

theorem bfma2 (c : Common) (d a b x : Name) (rz sat : Bool) : Statement (.bfma2 c d a b x rz sat) := by
  intro _ h0
  have h : (c.ok .fixed (nameCode d) && d.ok && a.ok && b.ok && x.ok) = true := h0
  simp only [Bool.and_eq_true] at h
  obtain ⟨⟨⟨⟨hc, h1⟩, h2⟩, h3⟩, h4⟩ := h
  have l_d := nameCode_lt h1
  have l_a := nameCode_lt h2
  have l_b := nameCode_lt h3
  have l_x := nameCode_lt h4
  have l_sat : codeOf bools sat < 2 := codeOf_lt bools sat (mem_bools sat)
  have l_rz : codeOf bools rz < 2 := codeOf_lt bools rz (mem_bools rz)
  obtain ⟨x_, hx_⟩ : ∃ x_, x_ = nameCode b * 4096 + nameCode x * 8 + codeOf bools sat * 2 + codeOf bools rz := ⟨_, rfl⟩
  have f0 : fld x_ 20 12 = nameCode b := by show x_ / 4096 % 512 = _; omega
  have f1 : fld x_ 11 3 = nameCode x := by show x_ / 8 % 512 = _; omega
  have f2 : fld x_ 2 2 = 0 := by show x_ / 4 % 2 = _; omega
  have f3 : fld x_ 1 1 = codeOf bools sat := by show x_ / 2 % 2 = _; omega
  have f4 : fld x_ 0 0 = codeOf bools rz := by show x_ / 1 % 2 = _; omega
  have e : encode (.bfma2 c d a b x rz sat) = put 0x0d9 c (nameCode d) (nameCode a) x_ := by rw [hx_]; rfl
  rw [e, decodeWord_put hc (by decide) (by omega) (by omega) (by omega)]
  unfold decodeRaw decodeFlt
  simp only [fields_opc, fields_dst, fields_sa, fields_low, Nat.reduceLT, if_false, commonOf_fields hc, f0, f1, f2, f3, f4, Option.bind_some, onlyIf, beq_self_eq_true, Bool.and_self, if_true, Bool.and_true, Bool.true_and, nameOf_nameCode h1, nameOf_nameCode h2, nameOf_nameCode h3, nameOf_nameCode h4, codeOf_get bools sat (mem_bools sat), codeOf_get bools rz (mem_bools rz), decide_true]

theorem hfma2 (c : Common) (d a b x : Name) (rz sat : Bool) : Statement (.hfma2 c d a b x rz sat) := by
  intro _ h0
  have h : (c.ok .fixed (nameCode d) && d.ok && a.ok && b.ok && x.ok) = true := h0
  simp only [Bool.and_eq_true] at h
  obtain ⟨⟨⟨⟨hc, h1⟩, h2⟩, h3⟩, h4⟩ := h
  have l_d := nameCode_lt h1
  have l_a := nameCode_lt h2
  have l_b := nameCode_lt h3
  have l_x := nameCode_lt h4
  have l_sat : codeOf bools sat < 2 := codeOf_lt bools sat (mem_bools sat)
  have l_rz : codeOf bools rz < 2 := codeOf_lt bools rz (mem_bools rz)
  obtain ⟨x_, hx_⟩ : ∃ x_, x_ = nameCode b * 4096 + nameCode x * 8 + codeOf bools sat * 2 + codeOf bools rz := ⟨_, rfl⟩
  have f0 : fld x_ 20 12 = nameCode b := by show x_ / 4096 % 512 = _; omega
  have f1 : fld x_ 11 3 = nameCode x := by show x_ / 8 % 512 = _; omega
  have f2 : fld x_ 2 2 = 0 := by show x_ / 4 % 2 = _; omega
  have f3 : fld x_ 1 1 = codeOf bools sat := by show x_ / 2 % 2 = _; omega
  have f4 : fld x_ 0 0 = codeOf bools rz := by show x_ / 1 % 2 = _; omega
  have e : encode (.hfma2 c d a b x rz sat) = put 0x0da c (nameCode d) (nameCode a) x_ := by rw [hx_]; rfl
  rw [e, decodeWord_put hc (by decide) (by omega) (by omega) (by omega)]
  unfold decodeRaw decodeFlt
  simp only [fields_opc, fields_dst, fields_sa, fields_low, Nat.reduceLT, if_false, commonOf_fields hc, f0, f1, f2, f3, f4, Option.bind_some, onlyIf, beq_self_eq_true, Bool.and_self, if_true, Bool.and_true, Bool.true_and, nameOf_nameCode h1, nameOf_nameCode h2, nameOf_nameCode h3, nameOf_nameCode h4, codeOf_get bools sat (mem_bools sat), codeOf_get bools rz (mem_bools rz), decide_true]

theorem cvt (c : Common) (d a rb : Name) (dt st : CvtTy) (r : Rnd) (sat : Bool) : Statement (.cvt c d a rb dt sty rd sat) := by
  intro _ h0
  have h : (c.ok .fixed (nameCode d) && d.ok && a.ok && rb.ok && cvtOk rb dt sty rd sat) = true := h0
  simp only [Bool.and_eq_true] at h
  obtain ⟨⟨⟨⟨hc, h1⟩, h2⟩, h3⟩, h4⟩ := h
  have l_d := nameCode_lt h1
  have l_a := nameCode_lt h2
  have l_rb := nameCode_lt h3
  have l_dt : codeOf cvtTys dt < 13 := codeOf_lt cvtTys dt (mem_cvtTys dt)
  have l_sty : codeOf cvtTys sty < 13 := codeOf_lt cvtTys sty (mem_cvtTys sty)
  have l_rd : codeOf rnds5 rd < 5 := codeOf_lt rnds5 rd (mem_rnds5 rd)
  have l_sat : codeOf bools sat < 2 := codeOf_lt bools sat (mem_bools sat)
  obtain ⟨x_, hx_⟩ : ∃ x_, x_ = nameCode rb * 4096 + codeOf cvtTys dt * 256 + codeOf cvtTys sty * 16 + codeOf rnds5 rd * 2 + codeOf bools sat := ⟨_, rfl⟩
  have f0 : fld x_ 20 12 = nameCode rb := by show x_ / 4096 % 512 = _; omega
  have f1 : fld x_ 11 8 = codeOf cvtTys dt := by show x_ / 256 % 16 = _; omega
  have f2 : fld x_ 7 4 = codeOf cvtTys sty := by show x_ / 16 % 16 = _; omega
  have f3 : fld x_ 3 1 = codeOf rnds5 rd := by show x_ / 2 % 8 = _; omega
  have f4 : fld x_ 0 0 = codeOf bools sat := by show x_ / 1 % 2 = _; omega
  have e : encode (.cvt c d a rb dt sty rd sat) = put 0x0db c (nameCode d) (nameCode a) x_ := by rw [hx_]; rfl
  rw [e, decodeWord_put hc (by decide) (by omega) (by omega) (by omega)]
  unfold decodeRaw decodeFlt
  simp only [fields_opc, fields_dst, fields_sa, fields_low, Nat.reduceLT, if_false, commonOf_fields hc, f0, f1, f2, f3, f4, Option.bind_some, onlyIf, beq_self_eq_true, Bool.and_self, if_true, Bool.and_true, Bool.true_and, nameOf_nameCode h1, nameOf_nameCode h2, nameOf_nameCode h3, codeOf_get cvtTys dt (mem_cvtTys dt), codeOf_get cvtTys sty (mem_cvtTys sty), codeOf_get rnds5 rd (mem_rnds5 rd), codeOf_get bools sat (mem_bools sat), h4, decide_true]

theorem pack (c : Common) (d a j : Name) (f : Fmt) : Statement (.pack c d a j f) := by
  intro _ h0
  have h : (c.ok .keep (nameCode d) && d.ok && a.ok && j.ok && packFmts.contains f) = true := h0
  simp only [Bool.and_eq_true] at h
  obtain ⟨⟨⟨⟨hc, h1⟩, h2⟩, h3⟩, h4⟩ := h
  have l_d := nameCode_lt h1
  have l_a := nameCode_lt h2
  have l_j := nameCode_lt h3
  have l_f : codeOf packFmts f < 7 := codeOf_lt packFmts f (by simpa using h4)
  obtain ⟨x_, hx_⟩ : ∃ x_, x_ = nameCode j * 4096 + codeOf packFmts f := ⟨_, rfl⟩
  have f0 : fld x_ 20 12 = nameCode j := by show x_ / 4096 % 512 = _; omega
  have f1 : fld x_ 11 3 = 0 := by show x_ / 8 % 512 = _; omega
  have f2 : fld x_ 2 0 = codeOf packFmts f := by show x_ / 1 % 8 = _; omega
  have e : encode (.pack c d a j f) = put 0x0dc c (nameCode d) (nameCode a) x_ := by rw [hx_]; rfl
  rw [e, decodeWord_put hc (by decide) (by omega) (by omega) (by omega)]
  unfold decodeRaw decodeFlt
  simp only [fields_opc, fields_dst, fields_sa, fields_low, Nat.reduceLT, if_false, commonOf_fields hc, f0, f1, f2, Option.bind_some, onlyIf, beq_self_eq_true, Bool.and_self, if_true, Bool.and_true, Bool.true_and, nameOf_nameCode h1, nameOf_nameCode h2, nameOf_nameCode h3, codeOf_get packFmts f (by simpa using h4), decide_true]

theorem unpk (c : Common) (d a j : Name) (f : Fmt) : Statement (.unpk c d a j f) := by
  intro _ h0
  have h : (c.ok .fixed (nameCode d) && d.ok && a.ok && j.ok && packFmts.contains f) = true := h0
  simp only [Bool.and_eq_true] at h
  obtain ⟨⟨⟨⟨hc, h1⟩, h2⟩, h3⟩, h4⟩ := h
  have l_d := nameCode_lt h1
  have l_a := nameCode_lt h2
  have l_j := nameCode_lt h3
  have l_f : codeOf packFmts f < 7 := codeOf_lt packFmts f (by simpa using h4)
  obtain ⟨x_, hx_⟩ : ∃ x_, x_ = nameCode j * 4096 + codeOf packFmts f := ⟨_, rfl⟩
  have f0 : fld x_ 20 12 = nameCode j := by show x_ / 4096 % 512 = _; omega
  have f1 : fld x_ 11 3 = 0 := by show x_ / 8 % 512 = _; omega
  have f2 : fld x_ 2 0 = codeOf packFmts f := by show x_ / 1 % 8 = _; omega
  have e : encode (.unpk c d a j f) = put 0x0dd c (nameCode d) (nameCode a) x_ := by rw [hx_]; rfl
  rw [e, decodeWord_put hc (by decide) (by omega) (by omega) (by omega)]
  unfold decodeRaw decodeFlt
  simp only [fields_opc, fields_dst, fields_sa, fields_low, Nat.reduceLT, if_false, commonOf_fields hc, f0, f1, f2, Option.bind_some, onlyIf, beq_self_eq_true, Bool.and_self, if_true, Bool.and_true, Bool.true_and, nameOf_nameCode h1, nameOf_nameCode h2, nameOf_nameCode h3, codeOf_get packFmts f (by simpa using h4), decide_true]

theorem act (c : Common) (d x : Name) (slot : Nat) : Statement (.act c d x slot) := by
  intro _ h0
  have h : (c.ok .fixed (nameCode d) && d.ok && x.ok && decide (slot < 8)) = true := h0
  simp only [Bool.and_eq_true] at h
  obtain ⟨⟨⟨hc, h1⟩, h2⟩, h3⟩ := h
  have l_d := nameCode_lt h1
  have l_x := nameCode_lt h2
  have l_slot := of_decide_eq_true h3
  obtain ⟨x_, hx_⟩ : ∃ x_, x_ = slot := ⟨_, rfl⟩
  have f0 : fld x_ 20 3 = 0 := by show x_ / 8 % 262144 = _; omega
  have f1 : fld x_ 2 0 = slot := by show x_ / 1 % 8 = _; omega
  have e : encode (.act c d x slot) = put 0x0de c (nameCode d) (nameCode x) x_ := by rw [hx_]; rfl
  rw [e, decodeWord_put hc (by decide) (by omega) (by omega) (by omega)]
  unfold decodeRaw decodeFlt
  simp only [fields_opc, fields_dst, fields_sa, fields_low, Nat.reduceLT, if_false, commonOf_fields hc, f0, f1, Option.bind_some, onlyIf, beq_self_eq_true, Bool.and_self, if_true, Bool.and_true, Bool.true_and, nameOf_nameCode h1, nameOf_nameCode h2, h3, decide_true]

theorem actd (c : Common) (d x g : Name) (slot : Nat) : Statement (.actd c d x g slot) := by
  intro _ h0
  have h : (c.ok .fixed (nameCode d) && d.ok && x.ok && g.ok && decide (slot < 8)) = true := h0
  simp only [Bool.and_eq_true] at h
  obtain ⟨⟨⟨⟨hc, h1⟩, h2⟩, h3⟩, h4⟩ := h
  have l_d := nameCode_lt h1
  have l_x := nameCode_lt h2
  have l_g := nameCode_lt h3
  have l_slot := of_decide_eq_true h4
  obtain ⟨x_, hx_⟩ : ∃ x_, x_ = nameCode g * 4096 + slot := ⟨_, rfl⟩
  have f0 : fld x_ 20 12 = nameCode g := by show x_ / 4096 % 512 = _; omega
  have f1 : fld x_ 11 3 = 0 := by show x_ / 8 % 512 = _; omega
  have f2 : fld x_ 2 0 = slot := by show x_ / 1 % 8 = _; omega
  have e : encode (.actd c d x g slot) = put 0x0df c (nameCode d) (nameCode x) x_ := by rw [hx_]; rfl
  rw [e, decodeWord_put hc (by decide) (by omega) (by omega) (by omega)]
  unfold decodeRaw decodeFlt
  simp only [fields_opc, fields_dst, fields_sa, fields_low, Nat.reduceLT, if_false, commonOf_fields hc, f0, f1, f2, Option.bind_some, onlyIf, beq_self_eq_true, Bool.and_self, if_true, Bool.and_true, Bool.true_and, nameOf_nameCode h1, nameOf_nameCode h2, nameOf_nameCode h3, h4, decide_true]

theorem xrng (c : Common) (d ctr key : Name) : Statement (.xrng c d ctr key) := by
  intro _ h0
  have h : (c.ok .keep (nameCode d) && d.ok && ctr.ok && key.ok) = true := h0
  simp only [Bool.and_eq_true] at h
  obtain ⟨⟨⟨hc, h1⟩, h2⟩, h3⟩ := h
  have l_d := nameCode_lt h1
  have l_ctr := nameCode_lt h2
  have l_key := nameCode_lt h3
  obtain ⟨x_, hx_⟩ : ∃ x_, x_ = nameCode key * 4096 := ⟨_, rfl⟩
  have f0 : fld x_ 20 12 = nameCode key := by show x_ / 4096 % 512 = _; omega
  have f1 : fld x_ 11 0 = 0 := by show x_ / 1 % 4096 = _; omega
  have e : encode (.xrng c d ctr key) = put 0x0e0 c (nameCode d) (nameCode ctr) x_ := by rw [hx_]; rfl
  rw [e, decodeWord_put hc (by decide) (by omega) (by omega) (by omega)]
  unfold decodeRaw decodeFlt
  simp only [fields_opc, fields_dst, fields_sa, fields_low, Nat.reduceLT, if_false, commonOf_fields hc, f0, f1, Option.bind_some, onlyIf, beq_self_eq_true, Bool.and_self, if_true, Bool.and_true, Bool.true_and, nameOf_nameCode h1, nameOf_nameCode h2, nameOf_nameCode h3, decide_true]

theorem xrngf (c : Common) (d a : Name) : Statement (.xrngf c d a) := by
  intro _ h0
  have h : (c.ok .fixed (nameCode d) && d.ok && a.ok) = true := h0
  simp only [Bool.and_eq_true] at h
  obtain ⟨⟨hc, h1⟩, h2⟩ := h
  have l_d := nameCode_lt h1
  have l_a := nameCode_lt h2
  have f0 : fld 0 20 3 = 0 := rfl
  have f1 : fld 0 2 0 = 0 := rfl
  have e : encode (.xrngf c d a) = put 0x0e1 c (nameCode d) (nameCode a) 0 := by rfl
  rw [e, decodeWord_put hc (by decide) (by omega) (by omega) (by omega)]
  unfold decodeRaw decodeFlt
  simp only [fields_opc, fields_dst, fields_sa, fields_low, Nat.reduceLT, if_false, commonOf_fields hc, f0, f1, Option.bind_some, onlyIf, beq_self_eq_true, Bool.and_self, if_true, Bool.and_true, Bool.true_and, nameOf_nameCode h1, nameOf_nameCode h2, decide_true]

theorem qswp (c : Common) (d v m f : Name) (pv : Nat) : Statement (.qswp c d v m f pv) := by
  intro _ h0
  have h : (c.ok .fixed (nameCode d) && d.ok && v.ok && m.ok && f.ok && decide (pv < 8)) = true := h0
  simp only [Bool.and_eq_true] at h
  obtain ⟨⟨⟨⟨⟨hc, h1⟩, h2⟩, h3⟩, h4⟩, h5⟩ := h
  have l_d := nameCode_lt h1
  have l_v := nameCode_lt h2
  have l_m := nameCode_lt h3
  have l_f := nameCode_lt h4
  have l_pv := of_decide_eq_true h5
  obtain ⟨x_, hx_⟩ : ∃ x_, x_ = nameCode m * 4096 + nameCode f * 8 + pv := ⟨_, rfl⟩
  have f0 : fld x_ 20 12 = nameCode m := by show x_ / 4096 % 512 = _; omega
  have f1 : fld x_ 11 3 = nameCode f := by show x_ / 8 % 512 = _; omega
  have f2 : fld x_ 2 0 = pv := by show x_ / 1 % 8 = _; omega
  have e : encode (.qswp c d v m f pv) = put 0x140 c (nameCode d) (nameCode v) x_ := by rw [hx_]; rfl
  rw [e, decodeWord_put hc (by decide) (by omega) (by omega) (by omega)]
  unfold decodeRaw decodeXch
  simp only [fields_opc, fields_dst, fields_sa, fields_low, Nat.reduceLT, if_false, commonOf_fields hc, f0, f1, f2, Option.bind_some, onlyIf, beq_self_eq_true, Bool.and_self, if_true, Bool.and_true, Bool.true_and, nameOf_nameCode h1, nameOf_nameCode h2, nameOf_nameCode h3, nameOf_nameCode h4, h5, decide_true]

theorem qbc (c : Common) (d v j f : Name) (pv : Nat) : Statement (.qbc c d v j f pv) := by
  intro _ h0
  have h : (c.ok .fixed (nameCode d) && d.ok && v.ok && j.ok && f.ok && decide (pv < 8)) = true := h0
  simp only [Bool.and_eq_true] at h
  obtain ⟨⟨⟨⟨⟨hc, h1⟩, h2⟩, h3⟩, h4⟩, h5⟩ := h
  have l_d := nameCode_lt h1
  have l_v := nameCode_lt h2
  have l_j := nameCode_lt h3
  have l_f := nameCode_lt h4
  have l_pv := of_decide_eq_true h5
  obtain ⟨x_, hx_⟩ : ∃ x_, x_ = nameCode j * 4096 + nameCode f * 8 + pv := ⟨_, rfl⟩
  have f0 : fld x_ 20 12 = nameCode j := by show x_ / 4096 % 512 = _; omega
  have f1 : fld x_ 11 3 = nameCode f := by show x_ / 8 % 512 = _; omega
  have f2 : fld x_ 2 0 = pv := by show x_ / 1 % 8 = _; omega
  have e : encode (.qbc c d v j f pv) = put 0x141 c (nameCode d) (nameCode v) x_ := by rw [hx_]; rfl
  rw [e, decodeWord_put hc (by decide) (by omega) (by omega) (by omega)]
  unfold decodeRaw decodeXch
  simp only [fields_opc, fields_dst, fields_sa, fields_low, Nat.reduceLT, if_false, commonOf_fields hc, f0, f1, f2, Option.bind_some, onlyIf, beq_self_eq_true, Bool.and_self, if_true, Bool.and_true, Bool.true_and, nameOf_nameCode h1, nameOf_nameCode h2, nameOf_nameCode h3, nameOf_nameCode h4, h5, decide_true]

theorem qdx (c : Common) (d v f : Name) (pv : Nat) : Statement (.qdx c d v f pv) := by
  intro _ h0
  have h : (c.ok .fixed (nameCode d) && d.ok && v.ok && f.ok && decide (pv < 8)) = true := h0
  simp only [Bool.and_eq_true] at h
  obtain ⟨⟨⟨⟨hc, h1⟩, h2⟩, h3⟩, h4⟩ := h
  have l_d := nameCode_lt h1
  have l_v := nameCode_lt h2
  have l_f := nameCode_lt h3
  have l_pv := of_decide_eq_true h4
  obtain ⟨x_, hx_⟩ : ∃ x_, x_ = nameCode f * 8 + pv := ⟨_, rfl⟩
  have f0 : fld x_ 20 12 = 0 := by show x_ / 4096 % 512 = _; omega
  have f1 : fld x_ 11 3 = nameCode f := by show x_ / 8 % 512 = _; omega
  have f2 : fld x_ 2 0 = pv := by show x_ / 1 % 8 = _; omega
  have e : encode (.qdx c d v f pv) = put 0x142 c (nameCode d) (nameCode v) x_ := by rw [hx_]; rfl
  rw [e, decodeWord_put hc (by decide) (by omega) (by omega) (by omega)]
  unfold decodeRaw decodeXch
  simp only [fields_opc, fields_dst, fields_sa, fields_low, Nat.reduceLT, if_false, commonOf_fields hc, f0, f1, f2, Option.bind_some, onlyIf, beq_self_eq_true, Bool.and_self, if_true, Bool.and_true, Bool.true_and, nameOf_nameCode h1, nameOf_nameCode h2, nameOf_nameCode h3, h4, decide_true]

theorem qdy (c : Common) (d v f : Name) (pv : Nat) : Statement (.qdy c d v f pv) := by
  intro _ h0
  have h : (c.ok .fixed (nameCode d) && d.ok && v.ok && f.ok && decide (pv < 8)) = true := h0
  simp only [Bool.and_eq_true] at h
  obtain ⟨⟨⟨⟨hc, h1⟩, h2⟩, h3⟩, h4⟩ := h
  have l_d := nameCode_lt h1
  have l_v := nameCode_lt h2
  have l_f := nameCode_lt h3
  have l_pv := of_decide_eq_true h4
  obtain ⟨x_, hx_⟩ : ∃ x_, x_ = nameCode f * 8 + pv := ⟨_, rfl⟩
  have f0 : fld x_ 20 12 = 0 := by show x_ / 4096 % 512 = _; omega
  have f1 : fld x_ 11 3 = nameCode f := by show x_ / 8 % 512 = _; omega
  have f2 : fld x_ 2 0 = pv := by show x_ / 1 % 8 = _; omega
  have e : encode (.qdy c d v f pv) = put 0x143 c (nameCode d) (nameCode v) x_ := by rw [hx_]; rfl
  rw [e, decodeWord_put hc (by decide) (by omega) (by omega) (by omega)]
  unfold decodeRaw decodeXch
  simp only [fields_opc, fields_dst, fields_sa, fields_low, Nat.reduceLT, if_false, commonOf_fields hc, f0, f1, f2, Option.bind_some, onlyIf, beq_self_eq_true, Bool.and_self, if_true, Bool.and_true, Bool.true_and, nameOf_nameCode h1, nameOf_nameCode h2, nameOf_nameCode h3, h4, decide_true]

theorem perm (c : Common) (d v x f : Name) (pv : Nat) : Statement (.perm c d v x f pv) := by
  intro _ h0
  have h : (c.ok .fixed (nameCode d) && d.ok && v.ok && x.ok && f.ok && decide (pv < 8)) = true := h0
  simp only [Bool.and_eq_true] at h
  obtain ⟨⟨⟨⟨⟨hc, h1⟩, h2⟩, h3⟩, h4⟩, h5⟩ := h
  have l_d := nameCode_lt h1
  have l_v := nameCode_lt h2
  have l_x := nameCode_lt h3
  have l_f := nameCode_lt h4
  have l_pv := of_decide_eq_true h5
  obtain ⟨x_, hx_⟩ : ∃ x_, x_ = nameCode x * 4096 + nameCode f * 8 + pv := ⟨_, rfl⟩
  have f0 : fld x_ 20 12 = nameCode x := by show x_ / 4096 % 512 = _; omega
  have f1 : fld x_ 11 3 = nameCode f := by show x_ / 8 % 512 = _; omega
  have f2 : fld x_ 2 0 = pv := by show x_ / 1 % 8 = _; omega
  have e : encode (.perm c d v x f pv) = put 0x144 c (nameCode d) (nameCode v) x_ := by rw [hx_]; rfl
  rw [e, decodeWord_put hc (by decide) (by omega) (by omega) (by omega)]
  unfold decodeRaw decodeXch
  simp only [fields_opc, fields_dst, fields_sa, fields_low, Nat.reduceLT, if_false, commonOf_fields hc, f0, f1, f2, Option.bind_some, onlyIf, beq_self_eq_true, Bool.and_self, if_true, Bool.and_true, Bool.true_and, nameOf_nameCode h1, nameOf_nameCode h2, nameOf_nameCode h3, nameOf_nameCode h4, h5, decide_true]

theorem shup (c : Common) (d v n f : Name) (pv : Nat) : Statement (.shup c d v n f pv) := by
  intro _ h0
  have h : (c.ok .fixed (nameCode d) && d.ok && v.ok && n.ok && f.ok && decide (pv < 8)) = true := h0
  simp only [Bool.and_eq_true] at h
  obtain ⟨⟨⟨⟨⟨hc, h1⟩, h2⟩, h3⟩, h4⟩, h5⟩ := h
  have l_d := nameCode_lt h1
  have l_v := nameCode_lt h2
  have l_n := nameCode_lt h3
  have l_f := nameCode_lt h4
  have l_pv := of_decide_eq_true h5
  obtain ⟨x_, hx_⟩ : ∃ x_, x_ = nameCode n * 4096 + nameCode f * 8 + pv := ⟨_, rfl⟩
  have f0 : fld x_ 20 12 = nameCode n := by show x_ / 4096 % 512 = _; omega
  have f1 : fld x_ 11 3 = nameCode f := by show x_ / 8 % 512 = _; omega
  have f2 : fld x_ 2 0 = pv := by show x_ / 1 % 8 = _; omega
  have e : encode (.shup c d v n f pv) = put 0x145 c (nameCode d) (nameCode v) x_ := by rw [hx_]; rfl
  rw [e, decodeWord_put hc (by decide) (by omega) (by omega) (by omega)]
  unfold decodeRaw decodeXch
  simp only [fields_opc, fields_dst, fields_sa, fields_low, Nat.reduceLT, if_false, commonOf_fields hc, f0, f1, f2, Option.bind_some, onlyIf, beq_self_eq_true, Bool.and_self, if_true, Bool.and_true, Bool.true_and, nameOf_nameCode h1, nameOf_nameCode h2, nameOf_nameCode h3, nameOf_nameCode h4, h5, decide_true]

theorem shdn (c : Common) (d v n f : Name) (pv : Nat) : Statement (.shdn c d v n f pv) := by
  intro _ h0
  have h : (c.ok .fixed (nameCode d) && d.ok && v.ok && n.ok && f.ok && decide (pv < 8)) = true := h0
  simp only [Bool.and_eq_true] at h
  obtain ⟨⟨⟨⟨⟨hc, h1⟩, h2⟩, h3⟩, h4⟩, h5⟩ := h
  have l_d := nameCode_lt h1
  have l_v := nameCode_lt h2
  have l_n := nameCode_lt h3
  have l_f := nameCode_lt h4
  have l_pv := of_decide_eq_true h5
  obtain ⟨x_, hx_⟩ : ∃ x_, x_ = nameCode n * 4096 + nameCode f * 8 + pv := ⟨_, rfl⟩
  have f0 : fld x_ 20 12 = nameCode n := by show x_ / 4096 % 512 = _; omega
  have f1 : fld x_ 11 3 = nameCode f := by show x_ / 8 % 512 = _; omega
  have f2 : fld x_ 2 0 = pv := by show x_ / 1 % 8 = _; omega
  have e : encode (.shdn c d v n f pv) = put 0x146 c (nameCode d) (nameCode v) x_ := by rw [hx_]; rfl
  rw [e, decodeWord_put hc (by decide) (by omega) (by omega) (by omega)]
  unfold decodeRaw decodeXch
  simp only [fields_opc, fields_dst, fields_sa, fields_low, Nat.reduceLT, if_false, commonOf_fields hc, f0, f1, f2, Option.bind_some, onlyIf, beq_self_eq_true, Bool.and_self, if_true, Bool.and_true, Bool.true_and, nameOf_nameCode h1, nameOf_nameCode h2, nameOf_nameCode h3, nameOf_nameCode h4, h5, decide_true]

theorem shxr (c : Common) (d v n f : Name) (pv : Nat) : Statement (.shxr c d v n f pv) := by
  intro _ h0
  have h : (c.ok .fixed (nameCode d) && d.ok && v.ok && n.ok && f.ok && decide (pv < 8)) = true := h0
  simp only [Bool.and_eq_true] at h
  obtain ⟨⟨⟨⟨⟨hc, h1⟩, h2⟩, h3⟩, h4⟩, h5⟩ := h
  have l_d := nameCode_lt h1
  have l_v := nameCode_lt h2
  have l_n := nameCode_lt h3
  have l_f := nameCode_lt h4
  have l_pv := of_decide_eq_true h5
  obtain ⟨x_, hx_⟩ : ∃ x_, x_ = nameCode n * 4096 + nameCode f * 8 + pv := ⟨_, rfl⟩
  have f0 : fld x_ 20 12 = nameCode n := by show x_ / 4096 % 512 = _; omega
  have f1 : fld x_ 11 3 = nameCode f := by show x_ / 8 % 512 = _; omega
  have f2 : fld x_ 2 0 = pv := by show x_ / 1 % 8 = _; omega
  have e : encode (.shxr c d v n f pv) = put 0x147 c (nameCode d) (nameCode v) x_ := by rw [hx_]; rfl
  rw [e, decodeWord_put hc (by decide) (by omega) (by omega) (by omega)]
  unfold decodeRaw decodeXch
  simp only [fields_opc, fields_dst, fields_sa, fields_low, Nat.reduceLT, if_false, commonOf_fields hc, f0, f1, f2, Option.bind_some, onlyIf, beq_self_eq_true, Bool.and_self, if_true, Bool.and_true, Bool.true_and, nameOf_nameCode h1, nameOf_nameCode h2, nameOf_nameCode h3, nameOf_nameCode h4, h5, decide_true]

theorem vote (c : Common) (d v : Name) (m : Vote) : Statement (.vote c d v m) := by
  intro _ h0
  have h : (c.ok .fixed (nameCode d) && d.ok && v.ok) = true := h0
  simp only [Bool.and_eq_true] at h
  obtain ⟨⟨hc, h1⟩, h2⟩ := h
  have l_d := nameCode_lt h1
  have l_v := nameCode_lt h2
  have l_m : codeOf votes m < 4 := codeOf_lt votes m (mem_votes m)
  obtain ⟨x_, hx_⟩ : ∃ x_, x_ = codeOf votes m := ⟨_, rfl⟩
  have f0 : fld x_ 20 3 = 0 := by show x_ / 8 % 262144 = _; omega
  have f1 : fld x_ 2 0 = codeOf votes m := by show x_ / 1 % 8 = _; omega
  have e : encode (.vote c d v m) = put 0x148 c (nameCode d) (nameCode v) x_ := by rw [hx_]; rfl
  rw [e, decodeWord_put hc (by decide) (by omega) (by omega) (by omega)]
  unfold decodeRaw decodeXch
  simp only [fields_opc, fields_dst, fields_sa, fields_low, Nat.reduceLT, if_false, commonOf_fields hc, f0, f1, Option.bind_some, onlyIf, beq_self_eq_true, Bool.and_self, if_true, Bool.and_true, Bool.true_and, nameOf_nameCode h1, nameOf_nameCode h2, codeOf_get votes m (mem_votes m), decide_true]

theorem mtch (c : Common) (d v : Name) (w64 : Bool) : Statement (.mtch c d v w64) := by
  intro _ h0
  have h : (c.ok .fixed (nameCode d) && d.ok && v.ok) = true := h0
  simp only [Bool.and_eq_true] at h
  obtain ⟨⟨hc, h1⟩, h2⟩ := h
  have l_d := nameCode_lt h1
  have l_v := nameCode_lt h2
  have l_w64 : codeOf bools w64 < 2 := codeOf_lt bools w64 (mem_bools w64)
  obtain ⟨x_, hx_⟩ : ∃ x_, x_ = codeOf bools w64 := ⟨_, rfl⟩
  have f0 : fld x_ 20 3 = 0 := by show x_ / 8 % 262144 = _; omega
  have f1 : fld x_ 2 0 = codeOf bools w64 := by show x_ / 1 % 8 = _; omega
  have e : encode (.mtch c d v w64) = put 0x149 c (nameCode d) (nameCode v) x_ := by rw [hx_]; rfl
  rw [e, decodeWord_put hc (by decide) (by omega) (by omega) (by omega)]
  unfold decodeRaw decodeXch
  simp only [fields_opc, fields_dst, fields_sa, fields_low, Nat.reduceLT, if_false, commonOf_fields hc, f0, f1, Option.bind_some, onlyIf, beq_self_eq_true, Bool.and_self, if_true, Bool.and_true, Bool.true_and, nameOf_nameCode h1, nameOf_nameCode h2, codeOf_get bools w64 (mem_bools w64), decide_true]

theorem gscan (c : Common) (d v seed : Name) (op : RedOp) : Statement (.gscan c d v seed op) := by
  intro _ h0
  have h : (c.ok .fixed (nameCode d) && d.ok && v.ok && seed.ok) = true := h0
  simp only [Bool.and_eq_true] at h
  obtain ⟨⟨⟨hc, h1⟩, h2⟩, h3⟩ := h
  have l_d := nameCode_lt h1
  have l_v := nameCode_lt h2
  have l_seed := nameCode_lt h3
  have l_op : codeOf redOps op < 8 := codeOf_lt redOps op (mem_redOps op)
  obtain ⟨x_, hx_⟩ : ∃ x_, x_ = nameCode seed * 4096 + codeOf redOps op := ⟨_, rfl⟩
  have f0 : fld x_ 20 12 = nameCode seed := by show x_ / 4096 % 512 = _; omega
  have f1 : fld x_ 11 3 = 0 := by show x_ / 8 % 512 = _; omega
  have f2 : fld x_ 2 0 = codeOf redOps op := by show x_ / 1 % 8 = _; omega
  have e : encode (.gscan c d v seed op) = put 0x14a c (nameCode d) (nameCode v) x_ := by rw [hx_]; rfl
  rw [e, decodeWord_put hc (by decide) (by omega) (by omega) (by omega)]
  unfold decodeRaw decodeXch
  simp only [fields_opc, fields_dst, fields_sa, fields_low, Nat.reduceLT, if_false, commonOf_fields hc, f0, f1, f2, Option.bind_some, onlyIf, beq_self_eq_true, Bool.and_self, if_true, Bool.and_true, Bool.true_and, nameOf_nameCode h1, nameOf_nameCode h2, nameOf_nameCode h3, codeOf_get redOps op (mem_redOps op), decide_true]

theorem gred (c : Common) (d v : Name) (op : RedOp) : Statement (.gred c d v op) := by
  intro _ h0
  have h : (c.ok .fixed (nameCode d) && d.ok && v.ok) = true := h0
  simp only [Bool.and_eq_true] at h
  obtain ⟨⟨hc, h1⟩, h2⟩ := h
  have l_d := nameCode_lt h1
  have l_v := nameCode_lt h2
  have l_op : codeOf redOps op < 8 := codeOf_lt redOps op (mem_redOps op)
  obtain ⟨x_, hx_⟩ : ∃ x_, x_ = codeOf redOps op := ⟨_, rfl⟩
  have f0 : fld x_ 20 3 = 0 := by show x_ / 8 % 262144 = _; omega
  have f1 : fld x_ 2 0 = codeOf redOps op := by show x_ / 1 % 8 = _; omega
  have e : encode (.gred c d v op) = put 0x14b c (nameCode d) (nameCode v) x_ := by rw [hx_]; rfl
  rw [e, decodeWord_put hc (by decide) (by omega) (by omega) (by omega)]
  unfold decodeRaw decodeXch
  simp only [fields_opc, fields_dst, fields_sa, fields_low, Nat.reduceLT, if_false, commonOf_fields hc, f0, f1, Option.bind_some, onlyIf, beq_self_eq_true, Bool.and_self, if_true, Bool.and_true, Bool.true_and, nameOf_nameCode h1, nameOf_nameCode h2, codeOf_get redOps op (mem_redOps op), decide_true]

theorem rdix (c : Common) (d base idx f : Name) (pv : Nat) : Statement (.rdix c d base idx f pv) := by
  intro _ h0
  have h : (c.ok .fixed (nameCode d) && d.ok && base.ok && idx.ok && f.ok && decide (pv < 8)) = true := h0
  simp only [Bool.and_eq_true] at h
  obtain ⟨⟨⟨⟨⟨hc, h1⟩, h2⟩, h3⟩, h4⟩, h5⟩ := h
  have l_d := nameCode_lt h1
  have l_base := nameCode_lt h2
  have l_idx := nameCode_lt h3
  have l_f := nameCode_lt h4
  have l_pv := of_decide_eq_true h5
  obtain ⟨x_, hx_⟩ : ∃ x_, x_ = nameCode idx * 4096 + nameCode f * 8 + pv := ⟨_, rfl⟩
  have f0 : fld x_ 20 12 = nameCode idx := by show x_ / 4096 % 512 = _; omega
  have f1 : fld x_ 11 3 = nameCode f := by show x_ / 8 % 512 = _; omega
  have f2 : fld x_ 2 0 = pv := by show x_ / 1 % 8 = _; omega
  have e : encode (.rdix c d base idx f pv) = put 0x14c c (nameCode d) (nameCode base) x_ := by rw [hx_]; rfl
  rw [e, decodeWord_put hc (by decide) (by omega) (by omega) (by omega)]
  unfold decodeRaw decodeXch
  simp only [fields_opc, fields_dst, fields_sa, fields_low, Nat.reduceLT, if_false, commonOf_fields hc, f0, f1, f2, Option.bind_some, onlyIf, beq_self_eq_true, Bool.and_self, if_true, Bool.and_true, Bool.true_and, nameOf_nameCode h1, nameOf_nameCode h2, nameOf_nameCode h3, nameOf_nameCode h4, h5, decide_true]

theorem wrix (c : Common) (base v idx : Name) (pv : Nat) : Statement (.wrix c base v idx pv) := by
  intro _ h0
  have h : (c.ok .none (nameCode base) && base.ok && v.ok && idx.ok && decide (pv < 8)) = true := h0
  simp only [Bool.and_eq_true] at h
  obtain ⟨⟨⟨⟨hc, h1⟩, h2⟩, h3⟩, h4⟩ := h
  have l_base := nameCode_lt h1
  have l_v := nameCode_lt h2
  have l_idx := nameCode_lt h3
  have l_pv := of_decide_eq_true h4
  obtain ⟨x_, hx_⟩ : ∃ x_, x_ = nameCode idx * 4096 + pv := ⟨_, rfl⟩
  have f0 : fld x_ 20 12 = nameCode idx := by show x_ / 4096 % 512 = _; omega
  have f1 : fld x_ 11 3 = 0 := by show x_ / 8 % 512 = _; omega
  have f2 : fld x_ 2 0 = pv := by show x_ / 1 % 8 = _; omega
  have e : encode (.wrix c base v idx pv) = put 0x14d c (nameCode base) (nameCode v) x_ := by rw [hx_]; rfl
  rw [e, decodeWord_put hc (by decide) (by omega) (by omega) (by omega)]
  unfold decodeRaw decodeXch
  simp only [fields_opc, fields_dst, fields_sa, fields_low, Nat.reduceLT, if_false, commonOf_fields hc, f0, f1, f2, Option.bind_some, onlyIf, beq_self_eq_true, Bool.and_self, if_true, Bool.and_true, Bool.true_and, nameOf_nameCode h1, nameOf_nameCode h2, nameOf_nameCode h3, h4, decide_true]

theorem ld (c : Common) (d base : Name) (off : Int) (t : MemTy) (a64 : Bool) : Statement (.ld c d base off t a64) := by
  intro _ h0
  have h : (c.ok .tracked (nameCode d) && d.ok && base.ok && sfits 7 off) = true := h0
  simp only [Bool.and_eq_true] at h
  obtain ⟨⟨⟨hc, h1⟩, h2⟩, h3⟩ := h
  have l_d := nameCode_lt h1
  have l_base := nameCode_lt h2
  obtain ⟨l_off, b_off⟩ := sext_unsext (by decide) h3
  have l_t : codeOf memTys t < 7 := codeOf_lt memTys t (mem_memTys t)
  have l_a64 : codeOf bools a64 < 2 := codeOf_lt bools a64 (mem_bools a64)
  obtain ⟨x_, hx_⟩ : ∃ x_, x_ = unsext 7 off * 32 + codeOf memTys t * 4 + codeOf bools a64 * 2 := ⟨_, rfl⟩
  have f0 : fld x_ 20 12 = 0 := by show x_ / 4096 % 512 = _; omega
  have f1 : fld x_ 11 5 = unsext 7 off := by show x_ / 32 % 128 = _; omega
  have f2 : fld x_ 4 2 = codeOf memTys t := by show x_ / 4 % 8 = _; omega
  have f3 : fld x_ 1 1 = codeOf bools a64 := by show x_ / 2 % 2 = _; omega
  have f4 : fld x_ 0 0 = 0 := by show x_ / 1 % 2 = _; omega
  have e : encode (.ld c d base off t a64) = put 0x160 c (nameCode d) (nameCode base) x_ := by rw [hx_]; rfl
  rw [e, decodeWord_put hc (by decide) (by omega) (by omega) (by omega)]
  unfold decodeRaw decodeMem
  simp only [fields_opc, fields_dst, fields_sa, fields_low, Nat.reduceLT, if_false, commonOf_fields hc, f0, f1, f2, f3, f4, Option.bind_some, onlyIf, beq_self_eq_true, Bool.and_self, if_true, Bool.and_true, Bool.true_and, nameOf_nameCode h1, nameOf_nameCode h2, b_off, codeOf_get memTys t (mem_memTys t), codeOf_get bools a64 (mem_bools a64), decide_true]

theorem ldp (c : Common) (d base : Name) (off : Int) (t : MemTy) : Statement (.ldp c d base off t) := by
  intro _ h0
  have h : (c.ok .tracked (nameCode d) && d.ok && base.ok && sfits 7 off) = true := h0
  simp only [Bool.and_eq_true] at h
  obtain ⟨⟨⟨hc, h1⟩, h2⟩, h3⟩ := h
  have l_d := nameCode_lt h1
  have l_base := nameCode_lt h2
  obtain ⟨l_off, b_off⟩ := sext_unsext (by decide) h3
  have l_t : codeOf memTys t < 7 := codeOf_lt memTys t (mem_memTys t)
  obtain ⟨x_, hx_⟩ : ∃ x_, x_ = unsext 7 off * 32 + codeOf memTys t * 4 := ⟨_, rfl⟩
  have f0 : fld x_ 20 12 = 0 := by show x_ / 4096 % 512 = _; omega
  have f1 : fld x_ 11 5 = unsext 7 off := by show x_ / 32 % 128 = _; omega
  have f2 : fld x_ 4 2 = codeOf memTys t := by show x_ / 4 % 8 = _; omega
  have f3 : fld x_ 1 1 = 0 := by show x_ / 2 % 2 = _; omega
  have f4 : fld x_ 0 0 = 0 := by show x_ / 1 % 2 = _; omega
  have e : encode (.ldp c d base off t) = put 0x162 c (nameCode d) (nameCode base) x_ := by rw [hx_]; rfl
  rw [e, decodeWord_put hc (by decide) (by omega) (by omega) (by omega)]
  unfold decodeRaw decodeMem
  simp only [fields_opc, fields_dst, fields_sa, fields_low, Nat.reduceLT, if_false, commonOf_fields hc, f0, f1, f2, f3, f4, Option.bind_some, onlyIf, beq_self_eq_true, Bool.and_self, if_true, Bool.and_true, Bool.true_and, nameOf_nameCode h1, nameOf_nameCode h2, b_off, codeOf_get memTys t (mem_memTys t), decide_true]

theorem st (c : Common) (base v : Name) (off : Int) (t : MemTy) (a64 : Bool) : Statement (.st c base v off t a64) := by
  intro _ h0
  have h : (c.ok .tracked 0 && base.ok && v.ok && sfits 7 off && storeTy t) = true := h0
  simp only [Bool.and_eq_true] at h
  obtain ⟨⟨⟨⟨hc, h1⟩, h2⟩, h3⟩, h4⟩ := h
  have l_base := nameCode_lt h1
  have l_v := nameCode_lt h2
  obtain ⟨l_off, b_off⟩ := sext_unsext (by decide) h3
  have l_t : codeOf memTys t < 7 := codeOf_lt memTys t (mem_memTys t)
  have l_a64 : codeOf bools a64 < 2 := codeOf_lt bools a64 (mem_bools a64)
  obtain ⟨x_, hx_⟩ : ∃ x_, x_ = nameCode v * 4096 + unsext 7 off * 32 + codeOf memTys t * 4 + codeOf bools a64 * 2 := ⟨_, rfl⟩
  have f0 : fld x_ 20 12 = nameCode v := by show x_ / 4096 % 512 = _; omega
  have f1 : fld x_ 11 5 = unsext 7 off := by show x_ / 32 % 128 = _; omega
  have f2 : fld x_ 4 2 = codeOf memTys t := by show x_ / 4 % 8 = _; omega
  have f3 : fld x_ 1 1 = codeOf bools a64 := by show x_ / 2 % 2 = _; omega
  have f4 : fld x_ 0 0 = 0 := by show x_ / 1 % 2 = _; omega
  have e : encode (.st c base v off t a64) = put 0x161 c 0 (nameCode base) x_ := by rw [hx_]; rfl
  rw [e, decodeWord_put hc (by decide) (by omega) (by omega) (by omega)]
  unfold decodeRaw decodeMem
  simp only [fields_opc, fields_dst, fields_sa, fields_low, Nat.reduceLT, if_false, commonOf_fields hc, f0, f1, f2, f3, f4, Option.bind_some, onlyIf, beq_self_eq_true, Bool.and_self, if_true, Bool.and_true, Bool.true_and, nameOf_nameCode h1, nameOf_nameCode h2, b_off, codeOf_get memTys t (mem_memTys t), codeOf_get bools a64 (mem_bools a64), h4, decide_true]

theorem stp (c : Common) (base v : Name) (off : Int) (t : MemTy) : Statement (.stp c base v off t) := by
  intro _ h0
  have h : (c.ok .tracked 0 && base.ok && v.ok && sfits 7 off && storeTy t) = true := h0
  simp only [Bool.and_eq_true] at h
  obtain ⟨⟨⟨⟨hc, h1⟩, h2⟩, h3⟩, h4⟩ := h
  have l_base := nameCode_lt h1
  have l_v := nameCode_lt h2
  obtain ⟨l_off, b_off⟩ := sext_unsext (by decide) h3
  have l_t : codeOf memTys t < 7 := codeOf_lt memTys t (mem_memTys t)
  obtain ⟨x_, hx_⟩ : ∃ x_, x_ = nameCode v * 4096 + unsext 7 off * 32 + codeOf memTys t * 4 := ⟨_, rfl⟩
  have f0 : fld x_ 20 12 = nameCode v := by show x_ / 4096 % 512 = _; omega
  have f1 : fld x_ 11 5 = unsext 7 off := by show x_ / 32 % 128 = _; omega
  have f2 : fld x_ 4 2 = codeOf memTys t := by show x_ / 4 % 8 = _; omega
  have f3 : fld x_ 1 1 = 0 := by show x_ / 2 % 2 = _; omega
  have f4 : fld x_ 0 0 = 0 := by show x_ / 1 % 2 = _; omega
  have e : encode (.stp c base v off t) = put 0x163 c 0 (nameCode base) x_ := by rw [hx_]; rfl
  rw [e, decodeWord_put hc (by decide) (by omega) (by omega) (by omega)]
  unfold decodeRaw decodeMem
  simp only [fields_opc, fields_dst, fields_sa, fields_low, Nat.reduceLT, if_false, commonOf_fields hc, f0, f1, f2, f3, f4, Option.bind_some, onlyIf, beq_self_eq_true, Bool.and_self, if_true, Bool.and_true, Bool.true_and, nameOf_nameCode h1, nameOf_nameCode h2, b_off, codeOf_get memTys t (mem_memTys t), h4, decide_true]

theorem atom (c : Common) (d base v : Name) (op : AtomOp) (w64 : Bool) (o : Ord) (sc : Scope) (a64 : Bool) : Statement (.atom c d base v op w64 o sc a64) := by
  intro _ h0
  have h : (c.ok .tracked (nameCode d) && d.ok && base.ok && v.ok) = true := h0
  simp only [Bool.and_eq_true] at h
  obtain ⟨⟨⟨hc, h1⟩, h2⟩, h3⟩ := h
  have l_d := nameCode_lt h1
  have l_base := nameCode_lt h2
  have l_v := nameCode_lt h3
  have l_op : codeOf atomOps op < 9 := codeOf_lt atomOps op (mem_atomOps op)
  have l_w64 : codeOf bools w64 < 2 := codeOf_lt bools w64 (mem_bools w64)
  have l_o : codeOf ords o < 4 := codeOf_lt ords o (mem_ords o)
  have l_sc : codeOf scopes sc < 5 := codeOf_lt scopes sc (mem_scopes sc)
  have l_a64 : codeOf bools a64 < 2 := codeOf_lt bools a64 (mem_bools a64)
  obtain ⟨x_, hx_⟩ : ∃ x_, x_ = nameCode v * 4096 + codeOf atomOps op * 256 + codeOf bools w64 * 128 + codeOf ords o * 32 + codeOf scopes sc * 4 + codeOf bools a64 * 2 := ⟨_, rfl⟩
  have f0 : fld x_ 20 12 = nameCode v := by show x_ / 4096 % 512 = _; omega
  have f1 : fld x_ 11 8 = codeOf atomOps op := by show x_ / 256 % 16 = _; omega
  have f2 : fld x_ 7 7 = codeOf bools w64 := by show x_ / 128 % 2 = _; omega
  have f3 : fld x_ 6 5 = codeOf ords o := by show x_ / 32 % 4 = _; omega
  have f4 : fld x_ 4 2 = codeOf scopes sc := by show x_ / 4 % 8 = _; omega
  have f5 : fld x_ 1 1 = codeOf bools a64 := by show x_ / 2 % 2 = _; omega
  have f6 : fld x_ 0 0 = 0 := by show x_ / 1 % 2 = _; omega
  have e : encode (.atom c d base v op w64 o sc a64) = put 0x164 c (nameCode d) (nameCode base) x_ := by rw [hx_]; rfl
  rw [e, decodeWord_put hc (by decide) (by omega) (by omega) (by omega)]
  unfold decodeRaw decodeMem
  simp only [fields_opc, fields_dst, fields_sa, fields_low, Nat.reduceLT, if_false, commonOf_fields hc, f0, f1, f2, f3, f4, f5, f6, Option.bind_some, onlyIf, beq_self_eq_true, Bool.and_self, if_true, Bool.and_true, Bool.true_and, nameOf_nameCode h1, nameOf_nameCode h2, nameOf_nameCode h3, codeOf_get atomOps op (mem_atomOps op), codeOf_get bools w64 (mem_bools w64), codeOf_get ords o (mem_ords o), codeOf_get scopes sc (mem_scopes sc), codeOf_get bools a64 (mem_bools a64), decide_true]

theorem acas (c : Common) (d base v : Name) (w64 : Bool) (o : Ord) (sc : Scope) (a64 : Bool) : Statement (.acas c d base v w64 o sc a64) := by
  intro _ h0
  have h : (c.ok .tracked (nameCode d) && d.ok && base.ok && v.ok) = true := h0
  simp only [Bool.and_eq_true] at h
  obtain ⟨⟨⟨hc, h1⟩, h2⟩, h3⟩ := h
  have l_d := nameCode_lt h1
  have l_base := nameCode_lt h2
  have l_v := nameCode_lt h3
  have l_w64 : codeOf bools w64 < 2 := codeOf_lt bools w64 (mem_bools w64)
  have l_o : codeOf ords o < 4 := codeOf_lt ords o (mem_ords o)
  have l_sc : codeOf scopes sc < 5 := codeOf_lt scopes sc (mem_scopes sc)
  have l_a64 : codeOf bools a64 < 2 := codeOf_lt bools a64 (mem_bools a64)
  obtain ⟨x_, hx_⟩ : ∃ x_, x_ = nameCode v * 4096 + codeOf bools w64 * 128 + codeOf ords o * 32 + codeOf scopes sc * 4 + codeOf bools a64 * 2 := ⟨_, rfl⟩
  have f0 : fld x_ 20 12 = nameCode v := by show x_ / 4096 % 512 = _; omega
  have f1 : fld x_ 11 8 = 0 := by show x_ / 256 % 16 = _; omega
  have f2 : fld x_ 7 7 = codeOf bools w64 := by show x_ / 128 % 2 = _; omega
  have f3 : fld x_ 6 5 = codeOf ords o := by show x_ / 32 % 4 = _; omega
  have f4 : fld x_ 4 2 = codeOf scopes sc := by show x_ / 4 % 8 = _; omega
  have f5 : fld x_ 1 1 = codeOf bools a64 := by show x_ / 2 % 2 = _; omega
  have f6 : fld x_ 0 0 = 0 := by show x_ / 1 % 2 = _; omega
  have e : encode (.acas c d base v w64 o sc a64) = put 0x165 c (nameCode d) (nameCode base) x_ := by rw [hx_]; rfl
  rw [e, decodeWord_put hc (by decide) (by omega) (by omega) (by omega)]
  unfold decodeRaw decodeMem
  simp only [fields_opc, fields_dst, fields_sa, fields_low, Nat.reduceLT, if_false, commonOf_fields hc, f0, f1, f2, f3, f4, f5, f6, Option.bind_some, onlyIf, beq_self_eq_true, Bool.and_self, if_true, Bool.and_true, Bool.true_and, nameOf_nameCode h1, nameOf_nameCode h2, nameOf_nameCode h3, codeOf_get bools w64 (mem_bools w64), codeOf_get ords o (mem_ords o), codeOf_get scopes sc (mem_scopes sc), codeOf_get bools a64 (mem_bools a64), decide_true]

theorem xsum (c : Common) (base v : Name) (bf16 : Bool) (o : Ord) (sc : Scope) (a64 : Bool) : Statement (.xsum c base v bf16 o sc a64) := by
  intro _ h0
  have h : (c.ok .tracked 0 && base.ok && v.ok) = true := h0
  simp only [Bool.and_eq_true] at h
  obtain ⟨⟨hc, h1⟩, h2⟩ := h
  have l_base := nameCode_lt h1
  have l_v := nameCode_lt h2
  have l_bf16 : codeOf bools bf16 < 2 := codeOf_lt bools bf16 (mem_bools bf16)
  have l_o : codeOf ords o < 4 := codeOf_lt ords o (mem_ords o)
  have l_sc : codeOf scopes sc < 5 := codeOf_lt scopes sc (mem_scopes sc)
  have l_a64 : codeOf bools a64 < 2 := codeOf_lt bools a64 (mem_bools a64)
  obtain ⟨x_, hx_⟩ : ∃ x_, x_ = nameCode v * 4096 + codeOf bools bf16 * 256 + codeOf ords o * 32 + codeOf scopes sc * 4 + codeOf bools a64 * 2 := ⟨_, rfl⟩
  have f0 : fld x_ 20 12 = nameCode v := by show x_ / 4096 % 512 = _; omega
  have f1 : fld x_ 11 9 = 0 := by show x_ / 512 % 8 = _; omega
  have f2 : fld x_ 8 8 = codeOf bools bf16 := by show x_ / 256 % 2 = _; omega
  have f3 : fld x_ 7 7 = 0 := by show x_ / 128 % 2 = _; omega
  have f4 : fld x_ 6 5 = codeOf ords o := by show x_ / 32 % 4 = _; omega
  have f5 : fld x_ 4 2 = codeOf scopes sc := by show x_ / 4 % 8 = _; omega
  have f6 : fld x_ 1 1 = codeOf bools a64 := by show x_ / 2 % 2 = _; omega
  have f7 : fld x_ 0 0 = 0 := by show x_ / 1 % 2 = _; omega
  have e : encode (.xsum c base v bf16 o sc a64) = put 0x166 c 0 (nameCode base) x_ := by rw [hx_]; rfl
  rw [e, decodeWord_put hc (by decide) (by omega) (by omega) (by omega)]
  unfold decodeRaw decodeMem
  simp only [fields_opc, fields_dst, fields_sa, fields_low, Nat.reduceLT, if_false, commonOf_fields hc, f0, f1, f2, f3, f4, f5, f6, f7, Option.bind_some, onlyIf, beq_self_eq_true, Bool.and_self, if_true, Bool.and_true, Bool.true_and, nameOf_nameCode h1, nameOf_nameCode h2, codeOf_get bools bf16 (mem_bools bf16), codeOf_get ords o (mem_ords o), codeOf_get scopes sc (mem_scopes sc), codeOf_get bools a64 (mem_bools a64), decide_true]

theorem xrd (c : Common) (d base : Name) (pair clr : Bool) (o : Ord) (sc : Scope) (a64 : Bool) : Statement (.xrd c d base pair clr o sc a64) := by
  intro _ h0
  have h : (c.ok .tracked (nameCode d) && d.ok && base.ok) = true := h0
  simp only [Bool.and_eq_true] at h
  obtain ⟨⟨hc, h1⟩, h2⟩ := h
  have l_d := nameCode_lt h1
  have l_base := nameCode_lt h2
  have l_clr : codeOf bools clr < 2 := codeOf_lt bools clr (mem_bools clr)
  have l_pair : codeOf bools pair < 2 := codeOf_lt bools pair (mem_bools pair)
  have l_o : codeOf ords o < 4 := codeOf_lt ords o (mem_ords o)
  have l_sc : codeOf scopes sc < 5 := codeOf_lt scopes sc (mem_scopes sc)
  have l_a64 : codeOf bools a64 < 2 := codeOf_lt bools a64 (mem_bools a64)
  obtain ⟨x_, hx_⟩ : ∃ x_, x_ = codeOf bools clr * 512 + codeOf bools pair * 256 + codeOf ords o * 32 + codeOf scopes sc * 4 + codeOf bools a64 * 2 := ⟨_, rfl⟩
  have f0 : fld x_ 20 10 = 0 := by show x_ / 1024 % 2048 = _; omega
  have f1 : fld x_ 9 9 = codeOf bools clr := by show x_ / 512 % 2 = _; omega
  have f2 : fld x_ 8 8 = codeOf bools pair := by show x_ / 256 % 2 = _; omega
  have f3 : fld x_ 7 7 = 0 := by show x_ / 128 % 2 = _; omega
  have f4 : fld x_ 6 5 = codeOf ords o := by show x_ / 32 % 4 = _; omega
  have f5 : fld x_ 4 2 = codeOf scopes sc := by show x_ / 4 % 8 = _; omega
  have f6 : fld x_ 1 1 = codeOf bools a64 := by show x_ / 2 % 2 = _; omega
  have f7 : fld x_ 0 0 = 0 := by show x_ / 1 % 2 = _; omega
  have e : encode (.xrd c d base pair clr o sc a64) = put 0x167 c (nameCode d) (nameCode base) x_ := by rw [hx_]; rfl
  rw [e, decodeWord_put hc (by decide) (by omega) (by omega) (by omega)]
  unfold decodeRaw decodeMem
  simp only [fields_opc, fields_dst, fields_sa, fields_low, Nat.reduceLT, if_false, commonOf_fields hc, f0, f1, f2, f3, f4, f5, f6, f7, Option.bind_some, onlyIf, beq_self_eq_true, Bool.and_self, if_true, Bool.and_true, Bool.true_and, nameOf_nameCode h1, nameOf_nameCode h2, codeOf_get bools clr (mem_bools clr), codeOf_get bools pair (mem_bools pair), codeOf_get ords o (mem_ords o), codeOf_get scopes sc (mem_scopes sc), codeOf_get bools a64 (mem_bools a64), decide_true]

theorem xclr (c : Common) (base : Name) (sc : Scope) (a64 : Bool) : Statement (.xclr c base sc a64) := by
  intro _ h0
  have h : (c.ok .tracked 0 && base.ok) = true := h0
  simp only [Bool.and_eq_true] at h
  obtain ⟨hc, h1⟩ := h
  have l_base := nameCode_lt h1
  have l_sc : codeOf scopes sc < 5 := codeOf_lt scopes sc (mem_scopes sc)
  have l_a64 : codeOf bools a64 < 2 := codeOf_lt bools a64 (mem_bools a64)
  obtain ⟨x_, hx_⟩ : ∃ x_, x_ = codeOf scopes sc * 4 + codeOf bools a64 * 2 := ⟨_, rfl⟩
  have f0 : fld x_ 20 5 = 0 := by show x_ / 32 % 65536 = _; omega
  have f1 : fld x_ 4 2 = codeOf scopes sc := by show x_ / 4 % 8 = _; omega
  have f2 : fld x_ 1 1 = codeOf bools a64 := by show x_ / 2 % 2 = _; omega
  have f3 : fld x_ 0 0 = 0 := by show x_ / 1 % 2 = _; omega
  have e : encode (.xclr c base sc a64) = put 0x168 c 0 (nameCode base) x_ := by rw [hx_]; rfl
  rw [e, decodeWord_put hc (by decide) (by omega) (by omega) (by omega)]
  unfold decodeRaw decodeMem
  simp only [fields_opc, fields_dst, fields_sa, fields_low, Nat.reduceLT, if_false, commonOf_fields hc, f0, f1, f2, f3, Option.bind_some, onlyIf, beq_self_eq_true, Bool.and_self, if_true, Bool.and_true, Bool.true_and, nameOf_nameCode h1, codeOf_get scopes sc (mem_scopes sc), codeOf_get bools a64 (mem_bools a64), decide_true]

theorem ldv (c : Common) (d base : Name) (off : Int) (a64 : Bool) : Statement (.ldv c d base off a64) := by
  intro _ h0
  have h : (c.ok .tracked (nameCode d) && d.ok && base.ok && sfits 7 off) = true := h0
  simp only [Bool.and_eq_true] at h
  obtain ⟨⟨⟨hc, h1⟩, h2⟩, h3⟩ := h
  have l_d := nameCode_lt h1
  have l_base := nameCode_lt h2
  obtain ⟨l_off, b_off⟩ := sext_unsext (by decide) h3
  have l_a64 : codeOf bools a64 < 2 := codeOf_lt bools a64 (mem_bools a64)
  obtain ⟨x_, hx_⟩ : ∃ x_, x_ = unsext 7 off * 32 + 4 * 4 + codeOf bools a64 * 2 := ⟨_, rfl⟩
  have f0 : fld x_ 20 12 = 0 := by show x_ / 4096 % 512 = _; omega
  have f1 : fld x_ 11 5 = unsext 7 off := by show x_ / 32 % 128 = _; omega
  have f2 : fld x_ 4 2 = 4 := by show x_ / 4 % 8 = _; omega
  have f3 : fld x_ 1 1 = codeOf bools a64 := by show x_ / 2 % 2 = _; omega
  have f4 : fld x_ 0 0 = 0 := by show x_ / 1 % 2 = _; omega
  have e : encode (.ldv c d base off a64) = put 0x169 c (nameCode d) (nameCode base) x_ := by rw [hx_]; rfl
  rw [e, decodeWord_put hc (by decide) (by omega) (by omega) (by omega)]
  unfold decodeRaw decodeMem
  simp only [fields_opc, fields_dst, fields_sa, fields_low, Nat.reduceLT, if_false, commonOf_fields hc, f0, f1, f2, f3, f4, Option.bind_some, onlyIf, beq_self_eq_true, Bool.and_self, if_true, Bool.and_true, Bool.true_and, nameOf_nameCode h1, nameOf_nameCode h2, b_off, codeOf_get bools a64 (mem_bools a64), decide_true]

theorem cms (c : Common) (d base : Name) (pd : Nat) (sc : Scope) (a64 : Bool) : Statement (.cms c d base pd sc a64) := by
  intro _ h0
  have h : (c.ok .tracked (nameCode d) && d.ok && base.ok && decide (pd < 96)) = true := h0
  simp only [Bool.and_eq_true] at h
  obtain ⟨⟨⟨hc, h1⟩, h2⟩, h3⟩ := h
  have l_d := nameCode_lt h1
  have l_base := nameCode_lt h2
  have l_pd := of_decide_eq_true h3
  have l_sc : codeOf scopes sc < 5 := codeOf_lt scopes sc (mem_scopes sc)
  have l_a64 : codeOf bools a64 < 2 := codeOf_lt bools a64 (mem_bools a64)
  obtain ⟨x_, hx_⟩ : ∃ x_, x_ = pd * 16384 + codeOf scopes sc * 4 + codeOf bools a64 * 2 := ⟨_, rfl⟩
  have f0 : fld x_ 20 14 = pd := by show x_ / 16384 % 128 = _; omega
  have f1 : fld x_ 13 5 = 0 := by show x_ / 32 % 512 = _; omega
  have f2 : fld x_ 4 2 = codeOf scopes sc := by show x_ / 4 % 8 = _; omega
  have f3 : fld x_ 1 1 = codeOf bools a64 := by show x_ / 2 % 2 = _; omega
  have f4 : fld x_ 0 0 = 0 := by show x_ / 1 % 2 = _; omega
  have e : encode (.cms c d base pd sc a64) = put 0x16a c (nameCode d) (nameCode base) x_ := by rw [hx_]; rfl
  rw [e, decodeWord_put hc (by decide) (by omega) (by omega) (by omega)]
  unfold decodeRaw decodeMem
  simp only [fields_opc, fields_dst, fields_sa, fields_low, Nat.reduceLT, if_false, commonOf_fields hc, f0, f1, f2, f3, f4, Option.bind_some, onlyIf, beq_self_eq_true, Bool.and_self, if_true, Bool.and_true, Bool.true_and, nameOf_nameCode h1, nameOf_nameCode h2, h3, codeOf_get scopes sc (mem_scopes sc), codeOf_get bools a64 (mem_bools a64), decide_true]

theorem fence (c : Common) (sc : Scope) : Statement (.fence c sc) := by
  intro _ h0
  have hc : c.ok .tracked 0 = true := h0
  have l_sc : codeOf scopes sc < 5 := codeOf_lt scopes sc (mem_scopes sc)
  obtain ⟨x_, hx_⟩ : ∃ x_, x_ = codeOf scopes sc := ⟨_, rfl⟩
  have f0 : fld x_ 20 3 = 0 := by show x_ / 8 % 262144 = _; omega
  have f1 : fld x_ 2 0 = codeOf scopes sc := by show x_ / 1 % 8 = _; omega
  have e : encode (.fence c sc) = put 0x16b c 0 0 x_ := by rw [hx_]; rfl
  rw [e, decodeWord_put hc (by decide) (by omega) (by omega) (by omega)]
  unfold decodeRaw decodeMem
  simp only [fields_opc, fields_dst, fields_sa, fields_low, Nat.reduceLT, if_false, commonOf_fields hc, f0, f1, Option.bind_some, onlyIf, beq_self_eq_true, Bool.and_self, if_true, Bool.and_true, Bool.true_and, codeOf_get scopes sc (mem_scopes sc), decide_true]

theorem rel (c : Common) (sc : Scope) : Statement (.rel c sc) := by
  intro _ h0
  have hc : c.ok .tracked 0 = true := h0
  have l_sc : codeOf scopes sc < 5 := codeOf_lt scopes sc (mem_scopes sc)
  obtain ⟨x_, hx_⟩ : ∃ x_, x_ = codeOf scopes sc := ⟨_, rfl⟩
  have f0 : fld x_ 20 3 = 0 := by show x_ / 8 % 262144 = _; omega
  have f1 : fld x_ 2 0 = codeOf scopes sc := by show x_ / 1 % 8 = _; omega
  have e : encode (.rel c sc) = put 0x16c c 0 0 x_ := by rw [hx_]; rfl
  rw [e, decodeWord_put hc (by decide) (by omega) (by omega) (by omega)]
  unfold decodeRaw decodeMem
  simp only [fields_opc, fields_dst, fields_sa, fields_low, Nat.reduceLT, if_false, commonOf_fields hc, f0, f1, Option.bind_some, onlyIf, beq_self_eq_true, Bool.and_self, if_true, Bool.and_true, Bool.true_and, codeOf_get scopes sc (mem_scopes sc), decide_true]

theorem acq (c : Common) (sc : Scope) : Statement (.acq c sc) := by
  intro _ h0
  have hc : c.ok .tracked 0 = true := h0
  have l_sc : codeOf scopes sc < 5 := codeOf_lt scopes sc (mem_scopes sc)
  obtain ⟨x_, hx_⟩ : ∃ x_, x_ = codeOf scopes sc := ⟨_, rfl⟩
  have f0 : fld x_ 20 3 = 0 := by show x_ / 8 % 262144 = _; omega
  have f1 : fld x_ 2 0 = codeOf scopes sc := by show x_ / 1 % 8 = _; omega
  have e : encode (.acq c sc) = put 0x16d c 0 0 x_ := by rw [hx_]; rfl
  rw [e, decodeWord_put hc (by decide) (by omega) (by omega) (by omega)]
  unfold decodeRaw decodeMem
  simp only [fields_opc, fields_dst, fields_sa, fields_low, Nat.reduceLT, if_false, commonOf_fields hc, f0, f1, Option.bind_some, onlyIf, beq_self_eq_true, Bool.and_self, if_true, Bool.and_true, Bool.true_and, codeOf_get scopes sc (mem_scopes sc), decide_true]

theorem sbsc (c : Common) (d base quad : Name) (f : Sys2Proof.View) (inv : Bool) (t : EType) (a64 : Bool) : Statement (.sbsc c d base quad f inv t a64) := by
  intro _ h0
  have h : (c.ok .tracked (nameCode d) && d.ok && base.ok && quad.ok) = true := h0
  simp only [Bool.and_eq_true] at h
  obtain ⟨⟨⟨hc, h1⟩, h2⟩, h3⟩ := h
  have l_d := nameCode_lt h1
  have l_base := nameCode_lt h2
  have l_quad := nameCode_lt h3
  have l_f : codeOf views f < 6 := codeOf_lt views f (mem_views f)
  have l_inv : codeOf bools inv < 2 := codeOf_lt bools inv (mem_bools inv)
  have l_t : codeOf etypes t < 2 := codeOf_lt etypes t (mem_etypes t)
  have l_a64 : codeOf bools a64 < 2 := codeOf_lt bools a64 (mem_bools a64)
  obtain ⟨x_, hx_⟩ : ∃ x_, x_ = nameCode quad * 4096 + codeOf views f * 512 + codeOf bools inv * 256 + codeOf etypes t * 128 + codeOf bools a64 * 2 := ⟨_, rfl⟩
  have f0 : fld x_ 20 12 = nameCode quad := by show x_ / 4096 % 512 = _; omega
  have f1 : fld x_ 11 9 = codeOf views f := by show x_ / 512 % 8 = _; omega
  have f2 : fld x_ 8 8 = codeOf bools inv := by show x_ / 256 % 2 = _; omega
  have f3 : fld x_ 7 7 = codeOf etypes t := by show x_ / 128 % 2 = _; omega
  have f4 : fld x_ 6 2 = 0 := by show x_ / 4 % 32 = _; omega
  have f5 : fld x_ 1 1 = codeOf bools a64 := by show x_ / 2 % 2 = _; omega
  have f6 : fld x_ 0 0 = 0 := by show x_ / 1 % 2 = _; omega
  have e : encode (.sbsc c d base quad f inv t a64) = put 0x16e c (nameCode d) (nameCode base) x_ := by rw [hx_]; rfl
  rw [e, decodeWord_put hc (by decide) (by omega) (by omega) (by omega)]
  unfold decodeRaw decodeMem
  simp only [fields_opc, fields_dst, fields_sa, fields_low, Nat.reduceLT, if_false, commonOf_fields hc, f0, f1, f2, f3, f4, f5, f6, Option.bind_some, onlyIf, beq_self_eq_true, Bool.and_self, if_true, Bool.and_true, Bool.true_and, nameOf_nameCode h1, nameOf_nameCode h2, nameOf_nameCode h3, codeOf_get views f (mem_views f), codeOf_get bools inv (mem_bools inv), codeOf_get etypes t (mem_etypes t), codeOf_get bools a64 (mem_bools a64), decide_true]

theorem unsb (c : Common) (d base : Name) (a64 : Bool) : Statement (.unsb c d base a64) := by
  intro _ h0
  have h : (c.ok .tracked (nameCode d) && d.ok && base.ok) = true := h0
  simp only [Bool.and_eq_true] at h
  obtain ⟨⟨hc, h1⟩, h2⟩ := h
  have l_d := nameCode_lt h1
  have l_base := nameCode_lt h2
  have l_a64 : codeOf bools a64 < 2 := codeOf_lt bools a64 (mem_bools a64)
  obtain ⟨x_, hx_⟩ : ∃ x_, x_ = codeOf bools a64 * 2 := ⟨_, rfl⟩
  have f0 : fld x_ 20 2 = 0 := by show x_ / 4 % 524288 = _; omega
  have f1 : fld x_ 1 1 = codeOf bools a64 := by show x_ / 2 % 2 = _; omega
  have f2 : fld x_ 0 0 = 0 := by show x_ / 1 % 2 = _; omega
  have e : encode (.unsb c d base a64) = put 0x16f c (nameCode d) (nameCode base) x_ := by rw [hx_]; rfl
  rw [e, decodeWord_put hc (by decide) (by omega) (by omega) (by omega)]
  unfold decodeRaw decodeMem
  simp only [fields_opc, fields_dst, fields_sa, fields_low, Nat.reduceLT, if_false, commonOf_fields hc, f0, f1, f2, Option.bind_some, onlyIf, beq_self_eq_true, Bool.and_self, if_true, Bool.and_true, Bool.true_and, nameOf_nameCode h1, nameOf_nameCode h2, codeOf_get bools a64 (mem_bools a64), decide_true]

theorem sld (c : Common) (d base : Name) (off : Int) (a64 : Bool) : Statement (.sld c d base off a64) := by
  intro _ h0
  have h : (c.ok .tracked (nameCode d) && d.ok && base.ok && sfits 7 off) = true := h0
  simp only [Bool.and_eq_true] at h
  obtain ⟨⟨⟨hc, h1⟩, h2⟩, h3⟩ := h
  have l_d := nameCode_lt h1
  have l_base := nameCode_lt h2
  obtain ⟨l_off, b_off⟩ := sext_unsext (by decide) h3
  have l_a64 : codeOf bools a64 < 2 := codeOf_lt bools a64 (mem_bools a64)
  obtain ⟨x_, hx_⟩ : ∃ x_, x_ = unsext 7 off * 32 + codeOf bools a64 * 2 := ⟨_, rfl⟩
  have f0 : fld x_ 20 12 = 0 := by show x_ / 4096 % 512 = _; omega
  have f1 : fld x_ 11 5 = unsext 7 off := by show x_ / 32 % 128 = _; omega
  have f2 : fld x_ 4 2 = 0 := by show x_ / 4 % 8 = _; omega
  have f3 : fld x_ 1 1 = codeOf bools a64 := by show x_ / 2 % 2 = _; omega
  have f4 : fld x_ 0 0 = 0 := by show x_ / 1 % 2 = _; omega
  have e : encode (.sld c d base off a64) = put 0x170 c (nameCode d) (nameCode base) x_ := by rw [hx_]; rfl
  rw [e, decodeWord_put hc (by decide) (by omega) (by omega) (by omega)]
  unfold decodeRaw decodeMem
  simp only [fields_opc, fields_dst, fields_sa, fields_low, Nat.reduceLT, if_false, commonOf_fields hc, f0, f1, f2, f3, f4, Option.bind_some, onlyIf, beq_self_eq_true, Bool.and_self, if_true, Bool.and_true, Bool.true_and, nameOf_nameCode h1, nameOf_nameCode h2, b_off, codeOf_get bools a64 (mem_bools a64), decide_true]

theorem supg (c : Common) (d base : Name) (f : Sys2Proof.View) (a64 : Bool) : Statement (.supg c d base f a64) := by
  intro _ h0
  have h : (c.ok .tracked (nameCode d) && d.ok && base.ok) = true := h0
  simp only [Bool.and_eq_true] at h
  obtain ⟨⟨hc, h1⟩, h2⟩ := h
  have l_d := nameCode_lt h1
  have l_base := nameCode_lt h2
  have l_f : codeOf views f < 6 := codeOf_lt views f (mem_views f)
  have l_a64 : codeOf bools a64 < 2 := codeOf_lt bools a64 (mem_bools a64)
  obtain ⟨x_, hx_⟩ : ∃ x_, x_ = codeOf views f * 512 + codeOf bools a64 * 2 := ⟨_, rfl⟩
  have f0 : fld x_ 20 12 = 0 := by show x_ / 4096 % 512 = _; omega
  have f1 : fld x_ 11 9 = codeOf views f := by show x_ / 512 % 8 = _; omega
  have f2 : fld x_ 8 2 = 0 := by show x_ / 4 % 128 = _; omega
  have f3 : fld x_ 1 1 = codeOf bools a64 := by show x_ / 2 % 2 = _; omega
  have f4 : fld x_ 0 0 = 0 := by show x_ / 1 % 2 = _; omega
  have e : encode (.supg c d base f a64) = put 0x171 c (nameCode d) (nameCode base) x_ := by rw [hx_]; rfl
  rw [e, decodeWord_put hc (by decide) (by omega) (by omega) (by omega)]
  unfold decodeRaw decodeMem
  simp only [fields_opc, fields_dst, fields_sa, fields_low, Nat.reduceLT, if_false, commonOf_fields hc, f0, f1, f2, f3, f4, Option.bind_some, onlyIf, beq_self_eq_true, Bool.and_self, if_true, Bool.and_true, Bool.true_and, nameOf_nameCode h1, nameOf_nameCode h2, codeOf_get views f (mem_views f), codeOf_get bools a64 (mem_bools a64), decide_true]

theorem schg (c : Common) (d base : Name) (a64 : Bool) : Statement (.schg c d base a64) := by
  intro _ h0
  have h : (c.ok .tracked (nameCode d) && d.ok && base.ok) = true := h0
  simp only [Bool.and_eq_true] at h
  obtain ⟨⟨hc, h1⟩, h2⟩ := h
  have l_d := nameCode_lt h1
  have l_base := nameCode_lt h2
  have l_a64 : codeOf bools a64 < 2 := codeOf_lt bools a64 (mem_bools a64)
  obtain ⟨x_, hx_⟩ : ∃ x_, x_ = codeOf bools a64 * 2 := ⟨_, rfl⟩
  have f0 : fld x_ 20 2 = 0 := by show x_ / 4 % 524288 = _; omega
  have f1 : fld x_ 1 1 = codeOf bools a64 := by show x_ / 2 % 2 = _; omega
  have f2 : fld x_ 0 0 = 0 := by show x_ / 1 % 2 = _; omega
  have e : encode (.schg c d base a64) = put 0x172 c (nameCode d) (nameCode base) x_ := by rw [hx_]; rfl
  rw [e, decodeWord_put hc (by decide) (by omega) (by omega) (by omega)]
  unfold decodeRaw decodeMem
  simp only [fields_opc, fields_dst, fields_sa, fields_low, Nat.reduceLT, if_false, commonOf_fields hc, f0, f1, f2, Option.bind_some, onlyIf, beq_self_eq_true, Bool.and_self, if_true, Bool.and_true, Bool.true_and, nameOf_nameCode h1, nameOf_nameCode h2, codeOf_get bools a64 (mem_bools a64), decide_true]

theorem sbind (c : Common) (port addr : Name) : Statement (.sbind c port addr) := by
  intro _ h0
  have h : (c.ok .none (nameCode port) && port.ok && addr.ok) = true := h0
  simp only [Bool.and_eq_true] at h
  obtain ⟨⟨hc, h1⟩, h2⟩ := h
  have l_port := nameCode_lt h1
  have l_addr := nameCode_lt h2
  have e : encode (.sbind c port addr) = put 0x1a0 c (nameCode port) (nameCode addr) 0 := by rfl
  rw [e, decodeWord_put hc (by decide) (by omega) (by omega) (by omega)]
  unfold decodeRaw decodeStr
  simp only [fields_opc, fields_dst, fields_sa, fields_low, Nat.reduceLT, if_false, commonOf_fields hc, Option.bind_some, onlyIf, beq_self_eq_true, Bool.and_self, if_true, Bool.and_true, Bool.true_and, nameOf_nameCode h1, nameOf_nameCode h2, decide_true]

theorem sfree (c : Common) (port : Name) : Statement (.sfree c port) := by
  intro _ h0
  have h : (c.ok .none (nameCode port) && port.ok) = true := h0
  simp only [Bool.and_eq_true] at h
  obtain ⟨hc, h1⟩ := h
  have l_port := nameCode_lt h1
  have e : encode (.sfree c port) = put 0x1a1 c (nameCode port) 0 0 := by rfl
  rw [e, decodeWord_put hc (by decide) (by omega) (by omega) (by omega)]
  unfold decodeRaw decodeStr
  simp only [fields_opc, fields_dst, fields_sa, fields_low, Nat.reduceLT, if_false, commonOf_fields hc, Option.bind_some, onlyIf, beq_self_eq_true, Bool.and_self, if_true, Bool.and_true, Bool.true_and, nameOf_nameCode h1, decide_true]

theorem spos (c : Common) (d a : Name) (set : Bool) : Statement (.spos c d a set) := by
  intro _ h0
  have h : (c.ok .keep (nameCode d) && d.ok && a.ok) = true := h0
  simp only [Bool.and_eq_true] at h
  obtain ⟨⟨hc, h1⟩, h2⟩ := h
  have l_d := nameCode_lt h1
  have l_a := nameCode_lt h2
  have l_set : codeOf bools set < 2 := codeOf_lt bools set (mem_bools set)
  obtain ⟨x_, hx_⟩ : ∃ x_, x_ = codeOf bools set := ⟨_, rfl⟩
  have f0 : fld x_ 20 3 = 0 := by show x_ / 8 % 262144 = _; omega
  have f1 : fld x_ 2 0 = codeOf bools set := by show x_ / 1 % 8 = _; omega
  have e : encode (.spos c d a set) = put 0x1a2 c (nameCode d) (nameCode a) x_ := by rw [hx_]; rfl
  rw [e, decodeWord_put hc (by decide) (by omega) (by omega) (by omega)]
  unfold decodeRaw decodeStr
  simp only [fields_opc, fields_dst, fields_sa, fields_low, Nat.reduceLT, if_false, commonOf_fields hc, f0, f1, Option.bind_some, onlyIf, beq_self_eq_true, Bool.and_self, if_true, Bool.and_true, Bool.true_and, nameOf_nameCode h1, nameOf_nameCode h2, codeOf_get bools set (mem_bools set), decide_true]

theorem sdrain (c : Common) (port : Name) (close : Bool) : Statement (.sdrain c port close) := by
  intro _ h0
  have h : (c.ok .tracked 0 && port.ok) = true := h0
  simp only [Bool.and_eq_true] at h
  obtain ⟨hc, h1⟩ := h
  have l_port := nameCode_lt h1
  have l_close : codeOf bools close < 2 := codeOf_lt bools close (mem_bools close)
  obtain ⟨x_, hx_⟩ : ∃ x_, x_ = codeOf bools close := ⟨_, rfl⟩
  have f0 : fld x_ 20 3 = 0 := by show x_ / 8 % 262144 = _; omega
  have f1 : fld x_ 2 0 = codeOf bools close := by show x_ / 1 % 8 = _; omega
  have e : encode (.sdrain c port close) = put 0x1a3 c 0 (nameCode port) x_ := by rw [hx_]; rfl
  rw [e, decodeWord_put hc (by decide) (by omega) (by omega) (by omega)]
  unfold decodeRaw decodeStr
  simp only [fields_opc, fields_dst, fields_sa, fields_low, Nat.reduceLT, if_false, commonOf_fields hc, f0, f1, Option.bind_some, onlyIf, beq_self_eq_true, Bool.and_self, if_true, Bool.and_true, Bool.true_and, nameOf_nameCode h1, codeOf_get bools close (mem_bools close), decide_true]

theorem qring (c : Common) (d base quad : Name) (a64 : Bool) : Statement (.qring c d base quad a64) := by
  intro _ h0
  have h : (c.ok .tracked (nameCode d) && d.ok && base.ok && quad.ok) = true := h0
  simp only [Bool.and_eq_true] at h
  obtain ⟨⟨⟨hc, h1⟩, h2⟩, h3⟩ := h
  have l_d := nameCode_lt h1
  have l_base := nameCode_lt h2
  have l_quad := nameCode_lt h3
  have l_a64 : codeOf bools a64 < 2 := codeOf_lt bools a64 (mem_bools a64)
  obtain ⟨x_, hx_⟩ : ∃ x_, x_ = nameCode quad * 4096 + codeOf bools a64 := ⟨_, rfl⟩
  have f0 : fld x_ 20 12 = nameCode quad := by show x_ / 4096 % 512 = _; omega
  have f1 : fld x_ 11 3 = 0 := by show x_ / 8 % 512 = _; omega
  have f2 : fld x_ 2 0 = codeOf bools a64 := by show x_ / 1 % 8 = _; omega
  have e : encode (.qring c d base quad a64) = put 0x1a4 c (nameCode d) (nameCode base) x_ := by rw [hx_]; rfl
  rw [e, decodeWord_put hc (by decide) (by omega) (by omega) (by omega)]
  unfold decodeRaw decodeStr
  simp only [fields_opc, fields_dst, fields_sa, fields_low, Nat.reduceLT, if_false, commonOf_fields hc, f0, f1, f2, Option.bind_some, onlyIf, beq_self_eq_true, Bool.and_self, if_true, Bool.and_true, Bool.true_and, nameOf_nameCode h1, nameOf_nameCode h2, nameOf_nameCode h3, codeOf_get bools a64 (mem_bools a64), decide_true]

theorem qrfree (c : Common) (d base : Name) (a64 : Bool) : Statement (.qrfree c d base a64) := by
  intro _ h0
  have h : (c.ok .tracked (nameCode d) && d.ok && base.ok) = true := h0
  simp only [Bool.and_eq_true] at h
  obtain ⟨⟨hc, h1⟩, h2⟩ := h
  have l_d := nameCode_lt h1
  have l_base := nameCode_lt h2
  have l_a64 : codeOf bools a64 < 2 := codeOf_lt bools a64 (mem_bools a64)
  obtain ⟨x_, hx_⟩ : ∃ x_, x_ = codeOf bools a64 := ⟨_, rfl⟩
  have f0 : fld x_ 20 3 = 0 := by show x_ / 8 % 262144 = _; omega
  have f1 : fld x_ 2 0 = codeOf bools a64 := by show x_ / 1 % 8 = _; omega
  have e : encode (.qrfree c d base a64) = put 0x1a5 c (nameCode d) (nameCode base) x_ := by rw [hx_]; rfl
  rw [e, decodeWord_put hc (by decide) (by omega) (by omega) (by omega)]
  unfold decodeRaw decodeStr
  simp only [fields_opc, fields_dst, fields_sa, fields_low, Nat.reduceLT, if_false, commonOf_fields hc, f0, f1, Option.bind_some, onlyIf, beq_self_eq_true, Bool.and_self, if_true, Bool.and_true, Bool.true_and, nameOf_nameCode h1, nameOf_nameCode h2, codeOf_get bools a64 (mem_bools a64), decide_true]

theorem hdef (c : Common) (d addr : Name) (h e : Nat) (sc : Scope) (a64 : Bool) : Statement (.hdef c d addr h e sc a64) := by
  intro _ h0
  have h : (c.ok .tracked (nameCode d) && d.ok && addr.ok && decide (h < 64) && decide (e < 8)) = true := h0
  simp only [Bool.and_eq_true] at h
  obtain ⟨⟨⟨⟨hc, h1⟩, h2⟩, h3⟩, h4⟩ := h
  have l_d := nameCode_lt h1
  have l_addr := nameCode_lt h2
  have l_h := of_decide_eq_true h3
  have l_e := of_decide_eq_true h4
  have l_sc : codeOf scopes sc < 5 := codeOf_lt scopes sc (mem_scopes sc)
  have l_a64 : codeOf bools a64 < 2 := codeOf_lt bools a64 (mem_bools a64)
  obtain ⟨x_, hx_⟩ : ∃ x_, x_ = h * 32768 + e * 4096 + codeOf scopes sc * 512 + codeOf bools a64 * 2 := ⟨_, rfl⟩
  have f0 : fld x_ 20 15 = h := by show x_ / 32768 % 64 = _; omega
  have f1 : fld x_ 14 12 = e := by show x_ / 4096 % 8 = _; omega
  have f2 : fld x_ 11 9 = codeOf scopes sc := by show x_ / 512 % 8 = _; omega
  have f3 : fld x_ 8 2 = 0 := by show x_ / 4 % 128 = _; omega
  have f4 : fld x_ 1 1 = codeOf bools a64 := by show x_ / 2 % 2 = _; omega
  have f5 : fld x_ 0 0 = 0 := by show x_ / 1 % 2 = _; omega
  have e : encode (.hdef c d addr h e sc a64) = put 0x1b0 c (nameCode d) (nameCode addr) x_ := by rw [hx_]; rfl
  rw [e, decodeWord_put hc (by decide) (by omega) (by omega) (by omega)]
  unfold decodeRaw decodeCpy
  simp only [fields_opc, fields_dst, fields_sa, fields_low, Nat.reduceLT, if_false, commonOf_fields hc, f0, f1, f2, f3, f4, f5, Option.bind_some, onlyIf, beq_self_eq_true, Bool.and_self, if_true, Bool.and_true, Bool.true_and, nameOf_nameCode h1, nameOf_nameCode h2, h3, h4, codeOf_get scopes sc (mem_scopes sc), codeOf_get bools a64 (mem_bools a64), decide_true]

theorem hqry (c : Common) (d : Name) (h sel : Nat) : Statement (.hqry c d h s) := by
  intro _ h0
  have h : (c.ok .tracked (nameCode d) && d.ok && decide (h < 64) && decide (s < 8)) = true := h0
  simp only [Bool.and_eq_true] at h
  obtain ⟨⟨⟨hc, h1⟩, h2⟩, h3⟩ := h
  have l_d := nameCode_lt h1
  have l_h := of_decide_eq_true h2
  have l_s := of_decide_eq_true h3
  obtain ⟨x_, hx_⟩ : ∃ x_, x_ = h * 32768 + s * 4096 := ⟨_, rfl⟩
  have f0 : fld x_ 20 15 = h := by show x_ / 32768 % 64 = _; omega
  have f1 : fld x_ 14 12 = s := by show x_ / 4096 % 8 = _; omega
  have f2 : fld x_ 11 0 = 0 := by show x_ / 1 % 4096 = _; omega
  have e : encode (.hqry c d h s) = put 0x1b1 c (nameCode d) 0 x_ := by rw [hx_]; rfl
  rw [e, decodeWord_put hc (by decide) (by omega) (by omega) (by omega)]
  unfold decodeRaw decodeCpy
  simp only [fields_opc, fields_dst, fields_sa, fields_low, Nat.reduceLT, if_false, commonOf_fields hc, f0, f1, f2, Option.bind_some, onlyIf, beq_self_eq_true, Bool.and_self, if_true, Bool.and_true, Bool.true_and, nameOf_nameCode h1, h2, h3, decide_true]

theorem copy (c : Common) (d addr : Name) (hd hs e : Nat) (sc : Scope) (a64 : Bool) : Statement (.copy c d addr hd hs e sc a64) := by
  intro _ h0
  have h : (c.ok .tracked (nameCode d) && d.ok && addr.ok && decide (hd < 64) && decide (e < 8) && decide (hs < 64)) = true := h0
  simp only [Bool.and_eq_true] at h
  obtain ⟨⟨⟨⟨⟨hc, h1⟩, h2⟩, h3⟩, h4⟩, h5⟩ := h
  have l_d := nameCode_lt h1
  have l_addr := nameCode_lt h2
  have l_hd := of_decide_eq_true h3
  have l_e := of_decide_eq_true h4
  have l_sc : codeOf scopes sc < 5 := codeOf_lt scopes sc (mem_scopes sc)
  have l_hs := of_decide_eq_true h5
  have l_a64 : codeOf bools a64 < 2 := codeOf_lt bools a64 (mem_bools a64)
  obtain ⟨x_, hx_⟩ : ∃ x_, x_ = hd * 32768 + e * 4096 + codeOf scopes sc * 512 + hs * 8 + codeOf bools a64 * 2 := ⟨_, rfl⟩
  have f0 : fld x_ 20 15 = hd := by show x_ / 32768 % 64 = _; omega
  have f1 : fld x_ 14 12 = e := by show x_ / 4096 % 8 = _; omega
  have f2 : fld x_ 11 9 = codeOf scopes sc := by show x_ / 512 % 8 = _; omega
  have f3 : fld x_ 8 3 = hs := by show x_ / 8 % 64 = _; omega
  have f4 : fld x_ 2 2 = 0 := by show x_ / 4 % 2 = _; omega
  have f5 : fld x_ 1 1 = codeOf bools a64 := by show x_ / 2 % 2 = _; omega
  have f6 : fld x_ 0 0 = 0 := by show x_ / 1 % 2 = _; omega
  have e : encode (.copy c d addr hd hs e sc a64) = put 0x1b2 c (nameCode d) (nameCode addr) x_ := by rw [hx_]; rfl
  rw [e, decodeWord_put hc (by decide) (by omega) (by omega) (by omega)]
  unfold decodeRaw decodeCpy
  simp only [fields_opc, fields_dst, fields_sa, fields_low, Nat.reduceLT, if_false, commonOf_fields hc, f0, f1, f2, f3, f4, f5, f6, Option.bind_some, onlyIf, beq_self_eq_true, Bool.and_self, if_true, Bool.and_true, Bool.true_and, nameOf_nameCode h1, nameOf_nameCode h2, h3, h4, codeOf_get scopes sc (mem_scopes sc), h5, codeOf_get bools a64 (mem_bools a64), decide_true]

theorem cfill (c : Common) (d addr : Name) (h e : Nat) (sc : Scope) (a64 : Bool) : Statement (.cfill c d addr h e sc a64) := by
  intro _ h0
  have h : (c.ok .tracked (nameCode d) && d.ok && addr.ok && decide (h < 64) && decide (e < 8)) = true := h0
  simp only [Bool.and_eq_true] at h
  obtain ⟨⟨⟨⟨hc, h1⟩, h2⟩, h3⟩, h4⟩ := h
  have l_d := nameCode_lt h1
  have l_addr := nameCode_lt h2
  have l_h := of_decide_eq_true h3
  have l_e := of_decide_eq_true h4
  have l_sc : codeOf scopes sc < 5 := codeOf_lt scopes sc (mem_scopes sc)
  have l_a64 : codeOf bools a64 < 2 := codeOf_lt bools a64 (mem_bools a64)
  obtain ⟨x_, hx_⟩ : ∃ x_, x_ = h * 32768 + e * 4096 + codeOf scopes sc * 512 + codeOf bools a64 * 2 := ⟨_, rfl⟩
  have f0 : fld x_ 20 15 = h := by show x_ / 32768 % 64 = _; omega
  have f1 : fld x_ 14 12 = e := by show x_ / 4096 % 8 = _; omega
  have f2 : fld x_ 11 9 = codeOf scopes sc := by show x_ / 512 % 8 = _; omega
  have f3 : fld x_ 8 2 = 0 := by show x_ / 4 % 128 = _; omega
  have f4 : fld x_ 1 1 = codeOf bools a64 := by show x_ / 2 % 2 = _; omega
  have f5 : fld x_ 0 0 = 0 := by show x_ / 1 % 2 = _; omega
  have e : encode (.cfill c d addr h e sc a64) = put 0x1b3 c (nameCode d) (nameCode addr) x_ := by rw [hx_]; rfl
  rw [e, decodeWord_put hc (by decide) (by omega) (by omega) (by omega)]
  unfold decodeRaw decodeCpy
  simp only [fields_opc, fields_dst, fields_sa, fields_low, Nat.reduceLT, if_false, commonOf_fields hc, f0, f1, f2, f3, f4, f5, Option.bind_some, onlyIf, beq_self_eq_true, Bool.and_self, if_true, Bool.and_true, Bool.true_and, nameOf_nameCode h1, nameOf_nameCode h2, h3, h4, codeOf_get scopes sc (mem_scopes sc), codeOf_get bools a64 (mem_bools a64), decide_true]

theorem coll (c : Common) (d addr : Name) (e : Nat) (sc : Scope) (a64 : Bool) : Statement (.coll c d addr e sc a64) := by
  intro _ h0
  have h : (c.ok .tracked (nameCode d) && d.ok && addr.ok && decide (e < 8)) = true := h0
  simp only [Bool.and_eq_true] at h
  obtain ⟨⟨⟨hc, h1⟩, h2⟩, h3⟩ := h
  have l_d := nameCode_lt h1
  have l_addr := nameCode_lt h2
  have l_e := of_decide_eq_true h3
  have l_sc : codeOf scopes sc < 5 := codeOf_lt scopes sc (mem_scopes sc)
  have l_a64 : codeOf bools a64 < 2 := codeOf_lt bools a64 (mem_bools a64)
  obtain ⟨x_, hx_⟩ : ∃ x_, x_ = e * 4096 + codeOf scopes sc * 512 + codeOf bools a64 * 2 := ⟨_, rfl⟩
  have f0 : fld x_ 20 15 = 0 := by show x_ / 32768 % 64 = _; omega
  have f1 : fld x_ 14 12 = e := by show x_ / 4096 % 8 = _; omega
  have f2 : fld x_ 11 9 = codeOf scopes sc := by show x_ / 512 % 8 = _; omega
  have f3 : fld x_ 8 2 = 0 := by show x_ / 4 % 128 = _; omega
  have f4 : fld x_ 1 1 = codeOf bools a64 := by show x_ / 2 % 2 = _; omega
  have f5 : fld x_ 0 0 = 0 := by show x_ / 1 % 2 = _; omega
  have e : encode (.coll c d addr e sc a64) = put 0x1b4 c (nameCode d) (nameCode addr) x_ := by rw [hx_]; rfl
  rw [e, decodeWord_put hc (by decide) (by omega) (by omega) (by omega)]
  unfold decodeRaw decodeCpy
  simp only [fields_opc, fields_dst, fields_sa, fields_low, Nat.reduceLT, if_false, commonOf_fields hc, f0, f1, f2, f3, f4, f5, Option.bind_some, onlyIf, beq_self_eq_true, Bool.and_self, if_true, Bool.and_true, Bool.true_and, nameOf_nameCode h1, nameOf_nameCode h2, h3, codeOf_get scopes sc (mem_scopes sc), codeOf_get bools a64 (mem_bools a64), decide_true]

theorem tlrd (c : Common) (d : Name) (e : Nat) (iss : Bool) : Statement (.tlrd c d e iss) := by
  intro _ h0
  have h : (c.ok .tracked (nameCode d) && d.ok && decide (e < 8)) = true := h0
  simp only [Bool.and_eq_true] at h
  obtain ⟨⟨hc, h1⟩, h2⟩ := h
  have l_d := nameCode_lt h1
  have l_e := of_decide_eq_true h2
  have l_iss : codeOf bools iss < 2 := codeOf_lt bools iss (mem_bools iss)
  obtain ⟨x_, hx_⟩ : ∃ x_, x_ = e * 4096 + codeOf bools iss * 2048 := ⟨_, rfl⟩
  have f0 : fld x_ 20 15 = 0 := by show x_ / 32768 % 64 = _; omega
  have f1 : fld x_ 14 12 = e := by show x_ / 4096 % 8 = _; omega
  have f2 : fld x_ 11 11 = codeOf bools iss := by show x_ / 2048 % 2 = _; omega
  have f3 : fld x_ 10 0 = 0 := by show x_ / 1 % 2048 = _; omega
  have e : encode (.tlrd c d e iss) = put 0x1b5 c (nameCode d) 0 x_ := by rw [hx_]; rfl
  rw [e, decodeWord_put hc (by decide) (by omega) (by omega) (by omega)]
  unfold decodeRaw decodeCpy
  simp only [fields_opc, fields_dst, fields_sa, fields_low, Nat.reduceLT, if_false, commonOf_fields hc, f0, f1, f2, f3, Option.bind_some, onlyIf, beq_self_eq_true, Bool.and_self, if_true, Bool.and_true, Bool.true_and, nameOf_nameCode h1, h2, codeOf_get bools iss (mem_bools iss), decide_true]

theorem wld (c : Common) (d box : Name) (h e : Nat) (sc : Scope) : Statement (.wld c d box h e sc) := by
  intro _ h0
  have h : (c.ok .tracked (nameCode d) && d.ok && box.ok && decide (h < 64) && decide (e < 8)) = true := h0
  simp only [Bool.and_eq_true] at h
  obtain ⟨⟨⟨⟨hc, h1⟩, h2⟩, h3⟩, h4⟩ := h
  have l_d := nameCode_lt h1
  have l_box := nameCode_lt h2
  have l_h := of_decide_eq_true h3
  have l_e := of_decide_eq_true h4
  have l_sc : codeOf scopes sc < 5 := codeOf_lt scopes sc (mem_scopes sc)
  obtain ⟨x_, hx_⟩ : ∃ x_, x_ = h * 32768 + e * 4096 + codeOf scopes sc * 512 := ⟨_, rfl⟩
  have f0 : fld x_ 20 15 = h := by show x_ / 32768 % 64 = _; omega
  have f1 : fld x_ 14 12 = e := by show x_ / 4096 % 8 = _; omega
  have f2 : fld x_ 11 9 = codeOf scopes sc := by show x_ / 512 % 8 = _; omega
  have f3 : fld x_ 8 0 = 0 := by show x_ / 1 % 512 = _; omega
  have e : encode (.wld c d box h e sc) = put 0x1c0 c (nameCode d) (nameCode box) x_ := by rw [hx_]; rfl
  rw [e, decodeWord_put hc (by decide) (by omega) (by omega) (by omega)]
  unfold decodeRaw decodeMtx
  simp only [fields_opc, fields_dst, fields_sa, fields_low, Nat.reduceLT, if_false, commonOf_fields hc, f0, f1, f2, f3, Option.bind_some, onlyIf, beq_self_eq_true, Bool.and_self, if_true, Bool.and_true, Bool.true_and, nameOf_nameCode h1, nameOf_nameCode h2, h3, h4, codeOf_get scopes sc (mem_scopes sc), decide_true]

theorem wswp (c : Common) (d : Name) (e : Nat) : Statement (.wswp c d e) := by
  intro _ h0
  have h : (c.ok .tracked (nameCode d) && d.ok && decide (e < 8)) = true := h0
  simp only [Bool.and_eq_true] at h
  obtain ⟨⟨hc, h1⟩, h2⟩ := h
  have l_d := nameCode_lt h1
  have l_e := of_decide_eq_true h2
  obtain ⟨x_, hx_⟩ : ∃ x_, x_ = e * 4096 := ⟨_, rfl⟩
  have f0 : fld x_ 20 15 = 0 := by show x_ / 32768 % 64 = _; omega
  have f1 : fld x_ 14 12 = e := by show x_ / 4096 % 8 = _; omega
  have f2 : fld x_ 11 0 = 0 := by show x_ / 1 % 4096 = _; omega
  have e : encode (.wswp c d e) = put 0x1c1 c (nameCode d) 0 x_ := by rw [hx_]; rfl
  rw [e, decodeWord_put hc (by decide) (by omega) (by omega) (by omega)]
  unfold decodeRaw decodeMtx
  simp only [fields_opc, fields_dst, fields_sa, fields_low, Nat.reduceLT, if_false, commonOf_fields hc, f0, f1, f2, Option.bind_some, onlyIf, beq_self_eq_true, Bool.and_self, if_true, Bool.and_true, Bool.true_and, nameOf_nameCode h1, h2, decide_true]

theorem mzero (c : Common) (d : Name) (tile e : Nat) : Statement (.mzero c d tile e) := by
  intro _ h0
  have h : (c.ok .tracked (nameCode d) && d.ok && decide (e < 8) && decide (tile < 4)) = true := h0
  simp only [Bool.and_eq_true] at h
  obtain ⟨⟨⟨hc, h1⟩, h2⟩, h3⟩ := h
  have l_d := nameCode_lt h1
  have l_e := of_decide_eq_true h2
  have l_tile := of_decide_eq_true h3
  obtain ⟨x_, hx_⟩ : ∃ x_, x_ = e * 4096 + tile * 32 := ⟨_, rfl⟩
  have f0 : fld x_ 20 15 = 0 := by show x_ / 32768 % 64 = _; omega
  have f1 : fld x_ 14 12 = e := by show x_ / 4096 % 8 = _; omega
  have f2 : fld x_ 11 7 = 0 := by show x_ / 128 % 32 = _; omega
  have f3 : fld x_ 6 5 = tile := by show x_ / 32 % 4 = _; omega
  have f4 : fld x_ 4 0 = 0 := by show x_ / 1 % 32 = _; omega
  have e : encode (.mzero c d tile e) = put 0x1c3 c (nameCode d) 0 x_ := by rw [hx_]; rfl
  rw [e, decodeWord_put hc (by decide) (by omega) (by omega) (by omega)]
  unfold decodeRaw decodeMtx
  simp only [fields_opc, fields_dst, fields_sa, fields_low, Nat.reduceLT, if_false, commonOf_fields hc, f0, f1, f2, f3, f4, Option.bind_some, onlyIf, beq_self_eq_true, Bool.and_self, if_true, Bool.and_true, Bool.true_and, nameOf_nameCode h1, h2, h3, decide_true]

theorem mstat (c : Common) (d : Name) (sel : Nat) : Statement (.mstat c d s) := by
  intro _ h0
  have h : (c.ok .tracked (nameCode d) && d.ok && decide (s < 3)) = true := h0
  simp only [Bool.and_eq_true] at h
  obtain ⟨⟨hc, h1⟩, h2⟩ := h
  have l_d := nameCode_lt h1
  have l_s := of_decide_eq_true h2
  obtain ⟨x_, hx_⟩ : ∃ x_, x_ = s * 512 := ⟨_, rfl⟩
  have f0 : fld x_ 20 12 = 0 := by show x_ / 4096 % 512 = _; omega
  have f1 : fld x_ 11 9 = s := by show x_ / 512 % 8 = _; omega
  have f2 : fld x_ 8 0 = 0 := by show x_ / 1 % 512 = _; omega
  have e : encode (.mstat c d s) = put 0x1c8 c (nameCode d) 0 x_ := by rw [hx_]; rfl
  rw [e, decodeWord_put hc (by decide) (by omega) (by omega) (by omega)]
  unfold decodeRaw decodeMtx
  simp only [fields_opc, fields_dst, fields_sa, fields_low, Nat.reduceLT, if_false, commonOf_fields hc, f0, f1, f2, Option.bind_some, onlyIf, beq_self_eq_true, Bool.and_self, if_true, Bool.and_true, Bool.true_and, nameOf_nameCode h1, h2, decide_true]

theorem sort (c : Common) (d addr : Name) (e : Nat) (sc : Scope) (a64 : Bool) : Statement (.sort c d addr e sc a64) := by
  intro _ h0
  have h : (c.ok .tracked (nameCode d) && d.ok && addr.ok && decide (e < 8)) = true := h0
  simp only [Bool.and_eq_true] at h
  obtain ⟨⟨⟨hc, h1⟩, h2⟩, h3⟩ := h
  have l_d := nameCode_lt h1
  have l_addr := nameCode_lt h2
  have l_e := of_decide_eq_true h3
  have l_sc : codeOf scopes sc < 5 := codeOf_lt scopes sc (mem_scopes sc)
  have l_a64 : codeOf bools a64 < 2 := codeOf_lt bools a64 (mem_bools a64)
  obtain ⟨x_, hx_⟩ : ∃ x_, x_ = e * 4096 + codeOf scopes sc * 512 + codeOf bools a64 * 2 := ⟨_, rfl⟩
  have f0 : fld x_ 20 15 = 0 := by show x_ / 32768 % 64 = _; omega
  have f1 : fld x_ 14 12 = e := by show x_ / 4096 % 8 = _; omega
  have f2 : fld x_ 11 9 = codeOf scopes sc := by show x_ / 512 % 8 = _; omega
  have f3 : fld x_ 8 2 = 0 := by show x_ / 4 % 128 = _; omega
  have f4 : fld x_ 1 1 = codeOf bools a64 := by show x_ / 2 % 2 = _; omega
  have f5 : fld x_ 0 0 = 0 := by show x_ / 1 % 2 = _; omega
  have e : encode (.sort c d addr e sc a64) = put 0x1d8 c (nameCode d) (nameCode addr) x_ := by rw [hx_]; rfl
  rw [e, decodeWord_put hc (by decide) (by omega) (by omega) (by omega)]
  unfold decodeRaw decodePhy
  simp only [fields_opc, fields_dst, fields_sa, fields_low, Nat.reduceLT, if_false, commonOf_fields hc, f0, f1, f2, f3, f4, f5, Option.bind_some, onlyIf, beq_self_eq_true, Bool.and_self, if_true, Bool.and_true, Bool.true_and, nameOf_nameCode h1, nameOf_nameCode h2, h3, codeOf_get scopes sc (mem_scopes sc), codeOf_get bools a64 (mem_bools a64), decide_true]

theorem bvhq (c : Common) (d q addr : Name) (ray : Bool) (e : Nat) (sc : Scope) (a64 : Bool) : Statement (.bvhq c d q addr ray e sc a64) := by
  intro _ h0
  have h : (c.ok .tracked (nameCode d) && d.ok && q.ok && addr.ok && decide (e < 8)) = true := h0
  simp only [Bool.and_eq_true] at h
  obtain ⟨⟨⟨⟨hc, h1⟩, h2⟩, h3⟩, h4⟩ := h
  have l_d := nameCode_lt h1
  have l_q := nameCode_lt h2
  have l_addr := nameCode_lt h3
  have l_sc : codeOf scopes sc < 5 := codeOf_lt scopes sc (mem_scopes sc)
  have l_e := of_decide_eq_true h4
  have l_ray : codeOf bools ray < 2 := codeOf_lt bools ray (mem_bools ray)
  have l_a64 : codeOf bools a64 < 2 := codeOf_lt bools a64 (mem_bools a64)
  obtain ⟨x_, hx_⟩ : ∃ x_, x_ = nameCode addr * 4096 + codeOf scopes sc * 512 + e * 64 + codeOf bools ray * 32 + codeOf bools a64 * 2 := ⟨_, rfl⟩
  have f0 : fld x_ 20 12 = nameCode addr := by show x_ / 4096 % 512 = _; omega
  have f1 : fld x_ 11 9 = codeOf scopes sc := by show x_ / 512 % 8 = _; omega
  have f2 : fld x_ 8 6 = e := by show x_ / 64 % 8 = _; omega
  have f3 : fld x_ 5 5 = codeOf bools ray := by show x_ / 32 % 2 = _; omega
  have f4 : fld x_ 4 2 = 0 := by show x_ / 4 % 8 = _; omega
  have f5 : fld x_ 1 1 = codeOf bools a64 := by show x_ / 2 % 2 = _; omega
  have f6 : fld x_ 0 0 = 0 := by show x_ / 1 % 2 = _; omega
  have e : encode (.bvhq c d q addr ray e sc a64) = put 0x1d9 c (nameCode d) (nameCode q) x_ := by rw [hx_]; rfl
  rw [e, decodeWord_put hc (by decide) (by omega) (by omega) (by omega)]
  unfold decodeRaw decodePhy
  simp only [fields_opc, fields_dst, fields_sa, fields_low, Nat.reduceLT, if_false, commonOf_fields hc, f0, f1, f2, f3, f4, f5, f6, Option.bind_some, onlyIf, beq_self_eq_true, Bool.and_self, if_true, Bool.and_true, Bool.true_and, nameOf_nameCode h1, nameOf_nameCode h2, nameOf_nameCode h3, codeOf_get scopes sc (mem_scopes sc), h4, codeOf_get bools ray (mem_bools ray), codeOf_get bools a64 (mem_bools a64), decide_true]

theorem qlus (c : Common) (d f b : Name) (w64 : Bool) : Statement (.qlus c d f b w64) := by
  intro _ h0
  have h : (c.ok .keep (nameCode d) && d.ok && f.ok && b.ok) = true := h0
  simp only [Bool.and_eq_true] at h
  obtain ⟨⟨⟨hc, h1⟩, h2⟩, h3⟩ := h
  have l_d := nameCode_lt h1
  have l_f := nameCode_lt h2
  have l_b := nameCode_lt h3
  have l_w64 : codeOf bools w64 < 2 := codeOf_lt bools w64 (mem_bools w64)
  obtain ⟨x_, hx_⟩ : ∃ x_, x_ = nameCode b * 4096 + codeOf bools w64 * 256 := ⟨_, rfl⟩
  have f0 : fld x_ 20 12 = nameCode b := by show x_ / 4096 % 512 = _; omega
  have f1 : fld x_ 11 9 = 0 := by show x_ / 512 % 8 = _; omega
  have f2 : fld x_ 8 8 = codeOf bools w64 := by show x_ / 256 % 2 = _; omega
  have f3 : fld x_ 7 0 = 0 := by show x_ / 1 % 256 = _; omega
  have e : encode (.qlus c d f b w64) = put 0x1db c (nameCode d) (nameCode f) x_ := by rw [hx_]; rfl
  rw [e, decodeWord_put hc (by decide) (by omega) (by omega) (by omega)]
  unfold decodeRaw decodePhy
  simp only [fields_opc, fields_dst, fields_sa, fields_low, Nat.reduceLT, if_false, commonOf_fields hc, f0, f1, f2, f3, Option.bind_some, onlyIf, beq_self_eq_true, Bool.and_self, if_true, Bool.and_true, Bool.true_and, nameOf_nameCode h1, nameOf_nameCode h2, nameOf_nameCode h3, codeOf_get bools w64 (mem_bools w64), decide_true]

theorem qlut (c : Common) (d f b : Name) (w64 : Bool) : Statement (.qlut c d f b w64) := by
  intro _ h0
  have h : (c.ok .keep (nameCode d) && d.ok && f.ok && b.ok) = true := h0
  simp only [Bool.and_eq_true] at h
  obtain ⟨⟨⟨hc, h1⟩, h2⟩, h3⟩ := h
  have l_d := nameCode_lt h1
  have l_f := nameCode_lt h2
  have l_b := nameCode_lt h3
  have l_w64 : codeOf bools w64 < 2 := codeOf_lt bools w64 (mem_bools w64)
  obtain ⟨x_, hx_⟩ : ∃ x_, x_ = nameCode b * 4096 + codeOf bools w64 * 256 := ⟨_, rfl⟩
  have f0 : fld x_ 20 12 = nameCode b := by show x_ / 4096 % 512 = _; omega
  have f1 : fld x_ 11 9 = 0 := by show x_ / 512 % 8 = _; omega
  have f2 : fld x_ 8 8 = codeOf bools w64 := by show x_ / 256 % 2 = _; omega
  have f3 : fld x_ 7 0 = 0 := by show x_ / 1 % 256 = _; omega
  have e : encode (.qlut c d f b w64) = put 0x1dc c (nameCode d) (nameCode f) x_ := by rw [hx_]; rfl
  rw [e, decodeWord_put hc (by decide) (by omega) (by omega) (by omega)]
  unfold decodeRaw decodePhy
  simp only [fields_opc, fields_dst, fields_sa, fields_low, Nat.reduceLT, if_false, commonOf_fields hc, f0, f1, f2, f3, Option.bind_some, onlyIf, beq_self_eq_true, Bool.and_self, if_true, Bool.and_true, Bool.true_and, nameOf_nameCode h1, nameOf_nameCode h2, nameOf_nameCode h3, codeOf_get bools w64 (mem_bools w64), decide_true]

theorem qpiv (c : Common) (d v log : Name) (inv w64 : Bool) : Statement (.qpiv c d v log inv w64) := by
  intro _ h0
  have h : (c.ok .keep (nameCode d) && d.ok && v.ok && log.ok) = true := h0
  simp only [Bool.and_eq_true] at h
  obtain ⟨⟨⟨hc, h1⟩, h2⟩, h3⟩ := h
  have l_d := nameCode_lt h1
  have l_v := nameCode_lt h2
  have l_log := nameCode_lt h3
  have l_inv : codeOf bools inv < 2 := codeOf_lt bools inv (mem_bools inv)
  have l_w64 : codeOf bools w64 < 2 := codeOf_lt bools w64 (mem_bools w64)
  obtain ⟨x_, hx_⟩ : ∃ x_, x_ = nameCode log * 4096 + codeOf bools inv * 512 + codeOf bools w64 * 256 := ⟨_, rfl⟩
  have f0 : fld x_ 20 12 = nameCode log := by show x_ / 4096 % 512 = _; omega
  have f1 : fld x_ 11 10 = 0 := by show x_ / 1024 % 4 = _; omega
  have f2 : fld x_ 9 9 = codeOf bools inv := by show x_ / 512 % 2 = _; omega
  have f3 : fld x_ 8 8 = codeOf bools w64 := by show x_ / 256 % 2 = _; omega
  have f4 : fld x_ 7 0 = 0 := by show x_ / 1 % 256 = _; omega
  have e : encode (.qpiv c d v log inv w64) = put 0x1dd c (nameCode d) (nameCode v) x_ := by rw [hx_]; rfl
  rw [e, decodeWord_put hc (by decide) (by omega) (by omega) (by omega)]
  unfold decodeRaw decodePhy
  simp only [fields_opc, fields_dst, fields_sa, fields_low, Nat.reduceLT, if_false, commonOf_fields hc, f0, f1, f2, f3, f4, Option.bind_some, onlyIf, beq_self_eq_true, Bool.and_self, if_true, Bool.and_true, Bool.true_and, nameOf_nameCode h1, nameOf_nameCode h2, nameOf_nameCode h3, codeOf_get bools inv (mem_bools inv), codeOf_get bools w64 (mem_bools w64), decide_true]

theorem lnch (c : Common) (d addr : Name) (a64 : Bool) : Statement (.lnch c d addr a64) := by
  intro _ h0
  have h : (c.ok .tracked (nameCode d) && d.ok && addr.ok) = true := h0
  simp only [Bool.and_eq_true] at h
  obtain ⟨⟨hc, h1⟩, h2⟩ := h
  have l_d := nameCode_lt h1
  have l_addr := nameCode_lt h2
  have l_a64 : codeOf bools a64 < 2 := codeOf_lt bools a64 (mem_bools a64)
  obtain ⟨x_, hx_⟩ : ∃ x_, x_ = codeOf bools a64 * 2 := ⟨_, rfl⟩
  have f0 : fld x_ 20 2 = 0 := by show x_ / 4 % 524288 = _; omega
  have f1 : fld x_ 1 1 = codeOf bools a64 := by show x_ / 2 % 2 = _; omega
  have f2 : fld x_ 0 0 = 0 := by show x_ / 1 % 2 = _; omega
  have e : encode (.lnch c d addr a64) = put 0x1e8 c (nameCode d) (nameCode addr) x_ := by rw [hx_]; rfl
  rw [e, decodeWord_put hc (by decide) (by omega) (by omega) (by omega)]
  unfold decodeRaw decodeLch
  simp only [fields_opc, fields_dst, fields_sa, fields_low, Nat.reduceLT, if_false, commonOf_fields hc, f0, f1, f2, Option.bind_some, onlyIf, beq_self_eq_true, Bool.and_self, if_true, Bool.and_true, Bool.true_and, nameOf_nameCode h1, nameOf_nameCode h2, codeOf_get bools a64 (mem_bools a64), decide_true]

theorem lrec (c : Common) (d addr quad : Name) (a64 : Bool) : Statement (.lrec c d addr quad a64) := by
  intro _ h0
  have h : (c.ok .tracked (nameCode d) && d.ok && addr.ok && quad.ok) = true := h0
  simp only [Bool.and_eq_true] at h
  obtain ⟨⟨⟨hc, h1⟩, h2⟩, h3⟩ := h
  have l_d := nameCode_lt h1
  have l_addr := nameCode_lt h2
  have l_quad := nameCode_lt h3
  have l_a64 : codeOf bools a64 < 2 := codeOf_lt bools a64 (mem_bools a64)
  obtain ⟨x_, hx_⟩ : ∃ x_, x_ = nameCode quad * 4096 + codeOf bools a64 * 2 := ⟨_, rfl⟩
  have f0 : fld x_ 20 12 = nameCode quad := by show x_ / 4096 % 512 = _; omega
  have f1 : fld x_ 11 2 = 0 := by show x_ / 4 % 1024 = _; omega
  have f2 : fld x_ 1 1 = codeOf bools a64 := by show x_ / 2 % 2 = _; omega
  have f3 : fld x_ 0 0 = 0 := by show x_ / 1 % 2 = _; omega
  have e : encode (.lrec c d addr quad a64) = put 0x1e9 c (nameCode d) (nameCode addr) x_ := by rw [hx_]; rfl
  rw [e, decodeWord_put hc (by decide) (by omega) (by omega) (by omega)]
  unfold decodeRaw decodeLch
  simp only [fields_opc, fields_dst, fields_sa, fields_low, Nat.reduceLT, if_false, commonOf_fields hc, f0, f1, f2, f3, Option.bind_some, onlyIf, beq_self_eq_true, Bool.and_self, if_true, Bool.and_true, Bool.true_and, nameOf_nameCode h1, nameOf_nameCode h2, nameOf_nameCode h3, codeOf_get bools a64 (mem_bools a64), decide_true]

theorem lstat (c : Common) (d : Name) (sel : Nat) : Statement (.lstat c d s) := by
  intro _ h0
  have h : (c.ok .tracked (nameCode d) && d.ok && decide (s < 5)) = true := h0
  simp only [Bool.and_eq_true] at h
  obtain ⟨⟨hc, h1⟩, h2⟩ := h
  have l_d := nameCode_lt h1
  have l_s := of_decide_eq_true h2
  obtain ⟨x_, hx_⟩ : ∃ x_, x_ = s * 512 := ⟨_, rfl⟩
  have f0 : fld x_ 20 12 = 0 := by show x_ / 4096 % 512 = _; omega
  have f1 : fld x_ 11 9 = s := by show x_ / 512 % 8 = _; omega
  have f2 : fld x_ 8 0 = 0 := by show x_ / 1 % 512 = _; omega
  have e : encode (.lstat c d s) = put 0x1ea c (nameCode d) 0 x_ := by rw [hx_]; rfl
  rw [e, decodeWord_put hc (by decide) (by omega) (by omega) (by omega)]
  unfold decodeRaw decodeLch
  simp only [fields_opc, fields_dst, fields_sa, fields_low, Nat.reduceLT, if_false, commonOf_fields hc, f0, f1, f2, Option.bind_some, onlyIf, beq_self_eq_true, Bool.and_self, if_true, Bool.and_true, Bool.true_and, nameOf_nameCode h1, h2, decide_true]

theorem lease (c : Common) (d quad : Name) : Statement (.lease c d quad) := by
  intro _ h0
  have h : (c.ok .tracked (nameCode d) && d.ok && quad.ok) = true := h0
  simp only [Bool.and_eq_true] at h
  obtain ⟨⟨hc, h1⟩, h2⟩ := h
  have l_d := nameCode_lt h1
  have l_quad := nameCode_lt h2
  have e : encode (.lease c d quad) = put 0x1eb c (nameCode d) (nameCode quad) 0 := by rfl
  rw [e, decodeWord_put hc (by decide) (by omega) (by omega) (by omega)]
  unfold decodeRaw decodeLch
  simp only [fields_opc, fields_dst, fields_sa, fields_low, Nat.reduceLT, if_false, commonOf_fields hc, Option.bind_some, onlyIf, beq_self_eq_true, Bool.and_self, if_true, Bool.and_true, Bool.true_and, nameOf_nameCode h1, nameOf_nameCode h2, decide_true]

theorem trap (c : Common) (code : Nat) : Statement (.trap c code) := by
  intro _ h0
  have h : (c.ok .none 0 && decide (code < 1024)) = true := h0
  simp only [Bool.and_eq_true] at h
  obtain ⟨hc, h1⟩ := h
  have l_code := of_decide_eq_true h1
  obtain ⟨x_, hx_⟩ : ∃ x_, x_ = code := ⟨_, rfl⟩
  have e : encode (.trap c code) = put 0x1f0 c 0 0 x_ := by rw [hx_]; rfl
  rw [e, decodeWord_put hc (by decide) (by omega) (by omega) (by omega)]
  unfold decodeRaw decodeSys
  simp only [fields_opc, fields_dst, fields_sa, fields_low, Nat.reduceLT, if_false, commonOf_fields hc, hx_, Option.bind_some, onlyIf, beq_self_eq_true, Bool.and_self, if_true, Bool.and_true, Bool.true_and, h1, decide_true]

theorem tret (c : Common) (form : TretForm) : Statement (.tret c form) := by
  intro _ h0
  have hc : c.ok .none 0 = true := h0
  have l_form : codeOf tretForms form < 3 := codeOf_lt tretForms form (mem_tretForms form)
  obtain ⟨x_, hx_⟩ : ∃ x_, x_ = codeOf tretForms form := ⟨_, rfl⟩
  have f0 : fld x_ 20 3 = 0 := by show x_ / 8 % 262144 = _; omega
  have f1 : fld x_ 2 0 = codeOf tretForms form := by show x_ / 1 % 8 = _; omega
  have e : encode (.tret c form) = put 0x1f1 c 0 0 x_ := by rw [hx_]; rfl
  rw [e, decodeWord_put hc (by decide) (by omega) (by omega) (by omega)]
  unfold decodeRaw decodeSys
  simp only [fields_opc, fields_dst, fields_sa, fields_low, Nat.reduceLT, if_false, commonOf_fields hc, f0, f1, Option.bind_some, onlyIf, beq_self_eq_true, Bool.and_self, if_true, Bool.and_true, Bool.true_and, codeOf_get tretForms form (mem_tretForms form), decide_true]

theorem csave (c : Common) (d a : Name) : Statement (.csave c d a) := by
  intro _ h0
  have h : (c.ok .tracked (nameCode d) && d.ok && a.ok) = true := h0
  simp only [Bool.and_eq_true] at h
  obtain ⟨⟨hc, h1⟩, h2⟩ := h
  have l_d := nameCode_lt h1
  have l_a := nameCode_lt h2
  have e : encode (.csave c d a) = put 0x1f2 c (nameCode d) (nameCode a) 0 := by rfl
  rw [e, decodeWord_put hc (by decide) (by omega) (by omega) (by omega)]
  unfold decodeRaw decodeSys
  simp only [fields_opc, fields_dst, fields_sa, fields_low, Nat.reduceLT, if_false, commonOf_fields hc, Option.bind_some, onlyIf, beq_self_eq_true, Bool.and_self, if_true, Bool.and_true, Bool.true_and, nameOf_nameCode h1, nameOf_nameCode h2, decide_true]

theorem crest (c : Common) (d a : Name) : Statement (.crest c d a) := by
  intro _ h0
  have h : (c.ok .tracked (nameCode d) && d.ok && a.ok) = true := h0
  simp only [Bool.and_eq_true] at h
  obtain ⟨⟨hc, h1⟩, h2⟩ := h
  have l_d := nameCode_lt h1
  have l_a := nameCode_lt h2
  have e : encode (.crest c d a) = put 0x1f3 c (nameCode d) (nameCode a) 0 := by rfl
  rw [e, decodeWord_put hc (by decide) (by omega) (by omega) (by omega)]
  unfold decodeRaw decodeSys
  simp only [fields_opc, fields_dst, fields_sa, fields_low, Nat.reduceLT, if_false, commonOf_fields hc, Option.bind_some, onlyIf, beq_self_eq_true, Bool.and_self, if_true, Bool.and_true, Bool.true_and, nameOf_nameCode h1, nameOf_nameCode h2, decide_true]

theorem tlbinv (c : Common) (d quad : Name) (op : TlbOp) : Statement (.tlbinv c d quad op) := by
  intro _ h0
  have h : (c.ok .tracked (nameCode d) && d.ok && quad.ok) = true := h0
  simp only [Bool.and_eq_true] at h
  obtain ⟨⟨hc, h1⟩, h2⟩ := h
  have l_d := nameCode_lt h1
  have l_quad := nameCode_lt h2
  have l_op : codeOf tlbOps op < 5 := codeOf_lt tlbOps op (mem_tlbOps op)
  obtain ⟨x_, hx_⟩ : ∃ x_, x_ = codeOf tlbOps op := ⟨_, rfl⟩
  have f0 : fld x_ 20 3 = 0 := by show x_ / 8 % 262144 = _; omega
  have f1 : fld x_ 2 0 = codeOf tlbOps op := by show x_ / 1 % 8 = _; omega
  have e : encode (.tlbinv c d quad op) = put 0x1f4 c (nameCode d) (nameCode quad) x_ := by rw [hx_]; rfl
  rw [e, decodeWord_put hc (by decide) (by omega) (by omega) (by omega)]
  unfold decodeRaw decodeSys
  simp only [fields_opc, fields_dst, fields_sa, fields_low, Nat.reduceLT, if_false, commonOf_fields hc, f0, f1, Option.bind_some, onlyIf, beq_self_eq_true, Bool.and_self, if_true, Bool.and_true, Bool.true_and, nameOf_nameCode h1, nameOf_nameCode h2, codeOf_get tlbOps op (mem_tlbOps op), decide_true]

theorem replay (c : Common) (d ctx : Name) : Statement (.replay c d ctx) := by
  intro _ h0
  have h : (c.ok .tracked (nameCode d) && d.ok && ctx.ok) = true := h0
  simp only [Bool.and_eq_true] at h
  obtain ⟨⟨hc, h1⟩, h2⟩ := h
  have l_d := nameCode_lt h1
  have l_ctx := nameCode_lt h2
  have e : encode (.replay c d ctx) = put 0x1f5 c (nameCode d) (nameCode ctx) 0 := by rfl
  rw [e, decodeWord_put hc (by decide) (by omega) (by omega) (by omega)]
  unfold decodeRaw decodeSys
  simp only [fields_opc, fields_dst, fields_sa, fields_low, Nat.reduceLT, if_false, commonOf_fields hc, Option.bind_some, onlyIf, beq_self_eq_true, Bool.and_self, if_true, Bool.and_true, Bool.true_and, nameOf_nameCode h1, nameOf_nameCode h2, decide_true]

theorem rdsr (c : Common) (d : Name) (sr : Nat) : Statement (.rdsr c d sr) := by
  intro _ h0
  have h : (c.ok .keep (nameCode d) && d.ok && decide (sr < 14)) = true := h0
  simp only [Bool.and_eq_true] at h
  obtain ⟨⟨hc, h1⟩, h2⟩ := h
  have l_d := nameCode_lt h1
  have l_sr := of_decide_eq_true h2
  obtain ⟨x_, hx_⟩ : ∃ x_, x_ = sr := ⟨_, rfl⟩
  have e : encode (.rdsr c d sr) = put 0x1f6 c (nameCode d) 0 x_ := by rw [hx_]; rfl
  rw [e, decodeWord_put hc (by decide) (by omega) (by omega) (by omega)]
  unfold decodeRaw decodeSys
  simp only [fields_opc, fields_dst, fields_sa, fields_low, Nat.reduceLT, if_false, commonOf_fields hc, hx_, Option.bind_some, onlyIf, beq_self_eq_true, Bool.and_self, if_true, Bool.and_true, Bool.true_and, nameOf_nameCode h1, h2, decide_true]

theorem wrsr (c : Common) (v : Name) (sr : Nat) : Statement (.wrsr c v sr) := by
  intro _ h0
  have h : (c.ok .none 0 && v.ok && decide (sr < 14) && writableSrs.contains sr) = true := h0
  simp only [Bool.and_eq_true] at h
  obtain ⟨⟨⟨hc, h1⟩, h2⟩, h3⟩ := h
  have l_v := nameCode_lt h1
  have l_sr := of_decide_eq_true h2
  obtain ⟨x_, hx_⟩ : ∃ x_, x_ = sr := ⟨_, rfl⟩
  have e : encode (.wrsr c v sr) = put 0x1f7 c 0 (nameCode v) x_ := by rw [hx_]; rfl
  rw [e, decodeWord_put hc (by decide) (by omega) (by omega) (by omega)]
  unfold decodeRaw decodeSys
  simp only [fields_opc, fields_dst, fields_sa, fields_low, Nat.reduceLT, if_false, commonOf_fields hc, hx_, Option.bind_some, onlyIf, beq_self_eq_true, Bool.and_self, if_true, Bool.and_true, Bool.true_and, nameOf_nameCode h1, h2, h3, decide_true]

theorem evnt (c : Common) (code payload : Name) (int : Bool) : Statement (.evnt c code payload int) := by
  intro _ h0
  have h : (c.ok .tracked 0 && code.ok && payload.ok) = true := h0
  simp only [Bool.and_eq_true] at h
  obtain ⟨⟨hc, h1⟩, h2⟩ := h
  have l_code := nameCode_lt h1
  have l_payload := nameCode_lt h2
  have l_int : codeOf bools int < 2 := codeOf_lt bools int (mem_bools int)
  obtain ⟨x_, hx_⟩ : ∃ x_, x_ = nameCode payload * 4096 + codeOf bools int := ⟨_, rfl⟩
  have f0 : fld x_ 20 12 = nameCode payload := by show x_ / 4096 % 512 = _; omega
  have f1 : fld x_ 11 3 = 0 := by show x_ / 8 % 512 = _; omega
  have f2 : fld x_ 2 0 = codeOf bools int := by show x_ / 1 % 8 = _; omega
  have e : encode (.evnt c code payload int) = put 0x1f8 c 0 (nameCode code) x_ := by rw [hx_]; rfl
  rw [e, decodeWord_put hc (by decide) (by omega) (by omega) (by omega)]
  unfold decodeRaw decodeSys
  simp only [fields_opc, fields_dst, fields_sa, fields_low, Nat.reduceLT, if_false, commonOf_fields hc, f0, f1, f2, Option.bind_some, onlyIf, beq_self_eq_true, Bool.and_self, if_true, Bool.and_true, Bool.true_and, nameOf_nameCode h1, nameOf_nameCode h2, codeOf_get bools int (mem_bools int), decide_true]

theorem halt (c : Common)  : Statement (.halt c) := by
  intro _ h0
  have hc : c.ok .none 0 = true := h0
  have e : encode (.halt c) = put 0x1f9 c 0 0 0 := by rfl
  rw [e, decodeWord_put hc (by decide) (by omega) (by omega) (by omega)]
  unfold decodeRaw decodeSys
  simp only [fields_opc, fields_dst, fields_sa, fields_low, Nat.reduceLT, if_false, commonOf_fields hc, Option.bind_some, onlyIf, beq_self_eq_true, Bool.and_self, if_true, Bool.and_true, Bool.true_and, decide_true]

theorem tlSel_lt (ts : TlSel) (h : ts.ok = true) : tlSelCode ts < 2097152 ∧ tlSelCode ts % 128 = 0 := by
  cases ts with
  | team n => simp only [TlSel.ok, decide_eq_true_eq] at h; simp only [tlSelCode]; omega
  | mem sc a =>
    have := nameCode_lt h
    have : codeOf tlScopes sc < 5 := codeOf_lt tlScopes sc (mem_tlScopes sc)
    simp only [tlSelCode]; omega

theorem tlSel_back (ts : TlSel) (h : ts.ok = true) (x : Nat) (p : Nat) (hp : p < 128) (hx : x = tlSelCode ts + p) :
    tlSelOf x = some ts := by
  cases ts with
  | team n =>
    simp only [TlSel.ok, decide_eq_true_eq] at h
    simp only [tlSelCode] at hx
    have f0 : fld x 7 7 = 0 := by show x / 128 % 2 = _; omega
    have f1 : fld x 11 8 = n := by show x / 256 % 16 = _; omega
    have f2 : fld x 20 12 = 0 := by show x / 4096 % 512 = _; omega
    have hn : ¬ (0 : Nat) ≠ 0 := by omega
    simp only [tlSelOf, f0, f1, f2, onlyIf, beq_self_eq_true, if_true, h, hn, if_false]
  | mem sc a =>
    have la := nameCode_lt h
    have ls : codeOf tlScopes sc < 5 := codeOf_lt tlScopes sc (mem_tlScopes sc)
    simp only [tlSelCode] at hx
    have f0 : fld x 7 7 = 0 := by show x / 128 % 2 = _; omega
    have f1 : fld x 11 8 = 8 + codeOf tlScopes sc := by show x / 256 % 16 = _; omega
    have f2 : fld x 20 12 = nameCode a := by show x / 4096 % 512 = _; omega
    have hn : ¬ (0 : Nat) ≠ 0 := by omega
    have hm : ¬ 8 + codeOf tlScopes sc < 8 := by omega
    have he : 8 + codeOf tlScopes sc - 8 = codeOf tlScopes sc := by omega
    simp only [tlSelOf, f0, f1, f2, hn, hm, if_false, he, codeOf_get tlScopes sc (mem_tlScopes sc), Option.map_some,
      nameOf_nameCode h]

theorem tlwait (c : Common) (v : Name) (ts : TlSel) : Statement (.tlwait c v ts) := by
  intro _ h0
  have h : (c.ok .none 0 && v.ok && ts.ok) = true := h0
  simp only [Bool.and_eq_true] at h
  obtain ⟨⟨hc, h1⟩, h2⟩ := h
  have l_v := nameCode_lt h1
  obtain ⟨l_t, m_t⟩ := tlSel_lt ts h2
  obtain ⟨x_, hx_⟩ : ∃ x_, x_ = tlSelCode ts := ⟨_, rfl⟩
  have f0 : fld x_ 6 0 = 0 := by show x_ / 1 % 128 = _; omega
  have b_t := tlSel_back ts h2 x_ 0 (by omega) hx_
  have e : encode (.tlwait c v ts) = put 0x012 c 0 (nameCode v) x_ := by rw [hx_]; rfl
  rw [e, decodeWord_put hc (by decide) (by omega) (by omega) (by omega)]
  unfold decodeRaw decodeCtl
  simp only [fields_opc, fields_dst, fields_sa, fields_low, Nat.reduceLT, if_true, commonOf_fields hc, f0, b_t, Option.bind_some,
    onlyIf, beq_self_eq_true, Bool.and_self, nameOf_nameCode h1]

theorem tltry (c : Common) (v : Name) (ts : TlSel) (pd : Nat) : Statement (.tltry c v ts pd) := by
  intro _ h0
  have h : (c.ok .none 0 && v.ok && ts.ok && decide (pd < 96)) = true := h0
  simp only [Bool.and_eq_true] at h
  obtain ⟨⟨⟨hc, h1⟩, h2⟩, h3⟩ := h
  have l_v := nameCode_lt h1
  have l_p := of_decide_eq_true h3
  obtain ⟨l_t, m_t⟩ := tlSel_lt ts h2
  obtain ⟨x_, hx_⟩ : ∃ x_, x_ = tlSelCode ts + pd := ⟨_, rfl⟩
  have f0 : fld x_ 6 0 = pd := by show x_ / 1 % 128 = _; omega
  have b_t := tlSel_back ts h2 x_ pd (by omega) hx_
  have e : encode (.tltry c v ts pd) = put 0x013 c 0 (nameCode v) x_ := by rw [hx_]; rfl
  rw [e, decodeWord_put hc (by decide) (by omega) (by omega) (by omega)]
  unfold decodeRaw decodeCtl
  simp only [fields_opc, fields_dst, fields_sa, fields_low, Nat.reduceLT, if_true, commonOf_fields hc, f0, b_t, Option.bind_some,
    onlyIf, beq_self_eq_true, Bool.true_and, nameOf_nameCode h1, h3]

theorem movk (c : Common) (d : Name) (k : Nat) (hi z : Bool) : Statement (.movk c d k hi z) := by
  intro _ h0
  have h : (c.ok (if z then .fixed else .keep) (nameCode d) && d.ok && decide (k < 65536)) = true := h0
  simp only [Bool.and_eq_true] at h
  obtain ⟨⟨hc, h1⟩, h2⟩ := h
  have l_d := nameCode_lt h1
  have l_k := of_decide_eq_true h2
  have l_hi : codeOf bools hi < 2 := codeOf_lt bools hi (mem_bools hi)
  have l_z : codeOf bools z < 2 := codeOf_lt bools z (mem_bools z)
  obtain ⟨x_, hx_⟩ : ∃ x_, x_ = k * 32 + codeOf bools hi * 16 + codeOf bools z * 8 := ⟨_, rfl⟩
  have f0 : fld x_ 20 5 = k := by show x_ / 32 % 65536 = _; omega
  have f1 : fld x_ 4 4 = codeOf bools hi := by show x_ / 16 % 2 = _; omega
  have f2 : fld x_ 3 3 = codeOf bools z := by show x_ / 8 % 2 = _; omega
  have f3 : fld x_ 2 0 = 0 := by show x_ / 1 % 8 = _; omega
  have hk : (if (codeOf bools z == 1) = true then ResKind.fixed else ResKind.keep) = (if z then .fixed else .keep) := by
    cases z <;> rfl
  have e : encode (.movk c d k hi z) = put 0x041 c (nameCode d) 0 x_ := by rw [hx_]; rfl
  rw [e, decodeWord_put hc (by decide) (by omega) (by omega) (by omega)]
  unfold decodeRaw decodeInt
  simp only [fields_opc, fields_dst, fields_sa, fields_low, Nat.reduceLT, if_true, if_false, f0, f1, f2, f3, hk,
    commonOf_fields hc, Option.bind_some, onlyIf, beq_self_eq_true, Bool.and_self, nameOf_nameCode h1,
    codeOf_get bools hi (mem_bools hi), codeOf_get bools z (mem_bools z)]

theorem laneFmt_back (f : Fmt) (h : laneFmts.contains f = true) : codeOf laneFmts f < 6 ∧ laneFmts[codeOf laneFmts f]? = some f :=
  ⟨codeOf_lt laneFmts f (by simpa using h), codeOf_get laneFmts f (by simpa using h)⟩

theorem mmaSrc_lt (s : MmaSrc) (h : s.ok = true) : mmaSrcCode s < 2097152 ∧ mmaSrcCode s % 4 = 0 ∧ mmaSrcCode s / 32 % 4 = 0 ∧
    mmaSrcCode s / 512 % 64 = 0 := by
  cases s with
  | lane f => have := (laneFmt_back f h).1; simp only [mmaSrcCode]; omega
  | hdl n => simp only [MmaSrc.ok, decide_eq_true_eq] at h; simp only [mmaSrcCode]; omega
  | unf n => simp only [MmaSrc.ok, decide_eq_true_eq] at h; simp only [mmaSrcCode]; omega
  | port => decide

theorem mmaSrc_back (s : MmaSrc) (h : s.ok = true) :
    mmaSrcOf (mmaSrcCode s / 128 % 4) (mmaSrcCode s / 32768 % 64) (mmaSrcCode s / 4 % 8) = some s := by
  cases s with
  | lane f =>
    obtain ⟨l, b⟩ := laneFmt_back f h
    have e0 : mmaSrcCode (.lane f) / 128 % 4 = 0 := by simp only [mmaSrcCode]; omega
    have e1 : mmaSrcCode (.lane f) / 32768 % 64 = 0 := by simp only [mmaSrcCode]; omega
    have e2 : mmaSrcCode (.lane f) / 4 % 8 = codeOf laneFmts f := by simp only [mmaSrcCode]; omega
    simp only [e0, e1, e2, mmaSrcOf, if_true, b, Option.bind_some, onlyIf, beq_self_eq_true]
  | hdl n =>
    simp only [MmaSrc.ok, decide_eq_true_eq] at h
    have e0 : mmaSrcCode (.hdl n) / 128 % 4 = 1 := by simp only [mmaSrcCode]; omega
    have e1 : mmaSrcCode (.hdl n) / 32768 % 64 = n := by simp only [mmaSrcCode]; omega
    have e2 : mmaSrcCode (.hdl n) / 4 % 8 = 0 := by simp only [mmaSrcCode]; omega
    rw [e0, e1, e2]; rfl
  | unf n =>
    simp only [MmaSrc.ok, decide_eq_true_eq] at h
    have e0 : mmaSrcCode (.unf n) / 128 % 4 = 2 := by simp only [mmaSrcCode]; omega
    have e1 : mmaSrcCode (.unf n) / 32768 % 64 = n := by simp only [mmaSrcCode]; omega
    have e2 : mmaSrcCode (.unf n) / 4 % 8 = 0 := by simp only [mmaSrcCode]; omega
    rw [e0, e1, e2]; rfl
  | port => rfl

theorem mma (c : Common) (d a : Name) (src : MmaSrc) (tile e : Nat) (sc : Scope) : Statement (.mma c d a src tile e sc) := by
  intro _ h0
  have h : (c.ok .tracked (nameCode d) && d.ok && a.ok && src.ok && decide (tile < 4) && decide (e < 8)) = true := h0
  simp only [Bool.and_eq_true] at h
  obtain ⟨⟨⟨⟨⟨hc, h1⟩, h2⟩, h3⟩, h4⟩, h5⟩ := h
  have l_d := nameCode_lt h1
  have l_a := nameCode_lt h2
  have l_t := of_decide_eq_true h4
  have l_e := of_decide_eq_true h5
  obtain ⟨l_s, m1, m2, m3⟩ := mmaSrc_lt src h3
  have b_s := mmaSrc_back src h3
  have l_sc : codeOf scopes sc < 5 := codeOf_lt scopes sc (mem_scopes sc)
  obtain ⟨s_, hs_⟩ : ∃ s_, s_ = mmaSrcCode src := ⟨_, rfl⟩
  rw [← hs_] at l_s m1 m2 m3 b_s
  obtain ⟨x_, hx_⟩ : ∃ x_, x_ = s_ + e * 4096 + codeOf scopes sc * 512 + tile * 32 := ⟨_, rfl⟩
  have f0 : fld x_ 8 7 = s_ / 128 % 4 := by show x_ / 128 % 4 = _; omega
  have f1 : fld x_ 20 15 = s_ / 32768 % 64 := by show x_ / 32768 % 64 = _; omega
  have f2 : fld x_ 4 2 = s_ / 4 % 8 := by show x_ / 4 % 8 = _; omega
  have f3 : fld x_ 11 9 = codeOf scopes sc := by show x_ / 512 % 8 = _; omega
  have f4 : fld x_ 6 5 = tile := by show x_ / 32 % 4 = _; omega
  have f5 : fld x_ 14 12 = e := by show x_ / 4096 % 8 = _; omega
  have f6 : fld x_ 1 0 = 0 := by show x_ / 1 % 4 = _; omega
  have e : encode (.mma c d a src tile e sc) = put 0x1c2 c (nameCode d) (nameCode a) x_ := by rw [hx_, hs_]; rfl
  rw [e, decodeWord_put hc (by decide) (by omega) (by omega) (by omega)]
  unfold decodeRaw decodeMtx
  simp only [fields_opc, fields_dst, fields_sa, fields_low, Nat.reduceLT, if_true, if_false, commonOf_fields hc, f0, f1, f2, f3, f4,
    f5, f6, b_s, Option.bind_some, onlyIf, beq_self_eq_true, nameOf_nameCode h1, nameOf_nameCode h2,
    codeOf_get scopes sc (mem_scopes sc)]

theorem mrd (c : Common) (d col : Name) (tile e : Nat) (av : Option Nat) (f : Fmt) (sat : Bool) :
    Statement (.mrd c d col tile e av f sat) := by
  intro _ h0
  have h : (c.ok .tracked (nameCode d) && d.ok && col.ok && decide (tile < 4) && decide (e < 8) && actOk av &&
    readFmts.contains f) = true := h0
  simp only [Bool.and_eq_true] at h
  obtain ⟨⟨⟨⟨⟨⟨hc, h1⟩, h2⟩, h3⟩, h4⟩, h5⟩, h6⟩ := h
  have l_d := nameCode_lt h1
  have l_a := nameCode_lt h2
  have l_t := of_decide_eq_true h3
  have l_e := of_decide_eq_true h4
  obtain ⟨l_v, l_b, b_v⟩ := act_back h5
  have hf : f ∈ readFmts := by simpa using h6
  have l_f : codeOf readFmts f < 8 := codeOf_lt readFmts f hf
  have l_s : codeOf bools sat < 2 := codeOf_lt bools sat (mem_bools sat)
  obtain ⟨x_, hx_⟩ : ∃ x_, x_ = e * 4096 + actSlot av * 512 + actBit av * 256 + codeOf bools sat * 128 + tile * 32 +
    codeOf readFmts f * 4 := ⟨_, rfl⟩
  have f0 : fld x_ 4 2 = codeOf readFmts f := by show x_ / 4 % 8 = _; omega
  have f1 : fld x_ 7 7 = codeOf bools sat := by show x_ / 128 % 2 = _; omega
  have f2 : fld x_ 20 15 = 0 := by show x_ / 32768 % 64 = _; omega
  have f3 : fld x_ 1 0 = 0 := by show x_ / 1 % 4 = _; omega
  have f4 : fld x_ 6 5 = tile := by show x_ / 32 % 4 = _; omega
  have f5 : fld x_ 14 12 = e := by show x_ / 4096 % 8 = _; omega
  have f6 : fld x_ 8 8 = actBit av := by show x_ / 256 % 2 = _; omega
  have f7 : fld x_ 11 9 = actSlot av := by show x_ / 512 % 8 = _; omega
  have e : encode (.mrd c d col tile e av f sat) = put 0x1c4 c (nameCode d) (nameCode col) x_ := by rw [hx_]; rfl
  rw [e, decodeWord_put hc (by decide) (by omega) (by omega) (by omega)]
  unfold decodeRaw decodeMtx
  simp only [fields_opc, fields_dst, fields_sa, fields_low, Nat.reduceLT, if_true, if_false, commonOf_fields hc, f0, f1, f2, f3, f4,
    f5, f6, f7, b_v, Option.bind_some, onlyIf, beq_self_eq_true, Bool.and_self, nameOf_nameCode h1, nameOf_nameCode h2,
    codeOf_get readFmts f hf, codeOf_get bools sat (mem_bools sat)]

theorem mwr (c : Common) (d v col : Name) (tile e : Nat) (rs : Bool) : Statement (.mwr c d v col tile e rs) := by
  intro _ h0
  have h : (c.ok .tracked (nameCode d) && d.ok && v.ok && col.ok && decide (tile < 4) && decide (e < 8) &&
    (!rs || nameCode col == 0)) = true := h0
  simp only [Bool.and_eq_true] at h
  obtain ⟨⟨⟨⟨⟨⟨hc, h1⟩, h2⟩, h3⟩, h4⟩, h5⟩, h6⟩ := h
  have l_d := nameCode_lt h1
  have l_a := nameCode_lt h2
  have l_c := nameCode_lt h3
  have l_t := of_decide_eq_true h4
  have l_e := of_decide_eq_true h5
  have l_r : codeOf bools rs < 2 := codeOf_lt bools rs (mem_bools rs)
  obtain ⟨x_, hx_⟩ : ∃ x_, x_ = nameCode col * 4096 + e * 512 + codeOf bools rs * 256 + tile * 32 := ⟨_, rfl⟩
  have f0 : fld x_ 8 8 = codeOf bools rs := by show x_ / 256 % 2 = _; omega
  have f1 : fld x_ 7 7 = 0 := by show x_ / 128 % 2 = _; omega
  have f2 : fld x_ 4 0 = 0 := by show x_ / 1 % 32 = _; omega
  have f3 : fld x_ 20 12 = nameCode col := by show x_ / 4096 % 512 = _; omega
  have f4 : fld x_ 6 5 = tile := by show x_ / 32 % 4 = _; omega
  have f5 : fld x_ 11 9 = e := by show x_ / 512 % 8 = _; omega
  have e : encode (.mwr c d v col tile e rs) = put 0x1c5 c (nameCode d) (nameCode v) x_ := by rw [hx_]; rfl
  rw [e, decodeWord_put hc (by decide) (by omega) (by omega) (by omega)]
  unfold decodeRaw decodeMtx
  simp only [fields_opc, fields_dst, fields_sa, fields_low, Nat.reduceLT, if_true, if_false, commonOf_fields hc, f0, f1, f2, f3, f4,
    f5, Option.bind_some, onlyIf, beq_self_eq_true, Bool.true_and, h6, nameOf_nameCode h1, nameOf_nameCode h2,
    nameOf_nameCode h3, codeOf_get bools rs (mem_bools rs)]

theorem mst (c : Common) (d org : Name) (hd tile e : Nat) (sc : Scope) (av : Option Nat) (sat : Bool) :
    Statement (.mst c d org hd tile e sc av sat) := by
  intro _ h0
  have h : (c.ok .tracked (nameCode d) && d.ok && org.ok && decide (hd < 64) && decide (tile < 4) && decide (e < 8) &&
    actOk av) = true := h0
  simp only [Bool.and_eq_true] at h
  obtain ⟨⟨⟨⟨⟨⟨hc, h1⟩, h2⟩, h3⟩, h4⟩, h5⟩, h6⟩ := h
  have l_d := nameCode_lt h1
  have l_a := nameCode_lt h2
  have l_h := of_decide_eq_true h3
  have l_t := of_decide_eq_true h4
  have l_e := of_decide_eq_true h5
  obtain ⟨l_v, l_b, b_v⟩ := act_back h6
  have l_s : codeOf bools sat < 2 := codeOf_lt bools sat (mem_bools sat)
  have l_sc : codeOf scopes sc < 5 := codeOf_lt scopes sc (mem_scopes sc)
  obtain ⟨x_, hx_⟩ : ∃ x_, x_ = hd * 32768 + e * 4096 + codeOf scopes sc * 512 + actSlot av * 64 + actBit av * 32 +
    codeOf bools sat * 16 + tile * 4 := ⟨_, rfl⟩
  have f0 : fld x_ 11 9 = codeOf scopes sc := by show x_ / 512 % 8 = _; omega
  have f1 : fld x_ 4 4 = codeOf bools sat := by show x_ / 16 % 2 = _; omega
  have f2 : fld x_ 1 0 = 0 := by show x_ / 1 % 4 = _; omega
  have f3 : fld x_ 20 15 = hd := by show x_ / 32768 % 64 = _; omega
  have f4 : fld x_ 3 2 = tile := by show x_ / 4 % 4 = _; omega
  have f5 : fld x_ 14 12 = e := by show x_ / 4096 % 8 = _; omega
  have f6 : fld x_ 5 5 = actBit av := by show x_ / 32 % 2 = _; omega
  have f7 : fld x_ 8 6 = actSlot av := by show x_ / 64 % 8 = _; omega
  have e : encode (.mst c d org hd tile e sc av sat) = put 0x1c6 c (nameCode d) (nameCode org) x_ := by rw [hx_]; rfl
  rw [e, decodeWord_put hc (by decide) (by omega) (by omega) (by omega)]
  unfold decodeRaw decodeMtx
  simp only [fields_opc, fields_dst, fields_sa, fields_low, Nat.reduceLT, if_true, if_false, commonOf_fields hc, f0, f1, f2, f3, f4,
    f5, f6, f7, b_v, Option.bind_some, onlyIf, beq_self_eq_true, nameOf_nameCode h1, nameOf_nameCode h2,
    codeOf_get scopes sc (mem_scopes sc), codeOf_get bools sat (mem_bools sat)]

theorem tblForm_back (f : TblForm) (h : f.ok = true) : tblFormCode f < 16 ∧
    tblFormOf (tblFormCode f / 8) (tblFormCode f % 8) = some f := by
  cases f with
  | slot n => simp only [TblForm.ok, decide_eq_true_eq] at h; interval_cases n <;> decide
  | bias n => simp only [TblForm.ok, decide_eq_true_eq] at h; interval_cases n <;> decide

theorem tblld (c : Common) (d addr : Name) (form : TblForm) (e : Nat) (sc : Scope) (a64 : Bool) :
    Statement (.tblld c d addr form e sc a64) := by
  intro _ h0
  have h : (c.ok .tracked (nameCode d) && d.ok && addr.ok && form.ok && decide (e < 8)) = true := h0
  simp only [Bool.and_eq_true] at h
  obtain ⟨⟨⟨⟨hc, h1⟩, h2⟩, h3⟩, h4⟩ := h
  have l_d := nameCode_lt h1
  have l_a := nameCode_lt h2
  have l_e := of_decide_eq_true h4
  obtain ⟨l_f, b_f⟩ := tblForm_back form h3
  have l_sc : codeOf scopes sc < 5 := codeOf_lt scopes sc (mem_scopes sc)
  have l_w : codeOf bools a64 < 2 := codeOf_lt bools a64 (mem_bools a64)
  obtain ⟨x_, hx_⟩ : ∃ x_, x_ = e * 4096 + codeOf scopes sc * 512 + tblFormCode form * 32 + codeOf bools a64 * 2 := ⟨_, rfl⟩
  have f0 : fld x_ 8 8 = tblFormCode form / 8 := by show x_ / 256 % 2 = _; omega
  have f1 : fld x_ 7 5 = tblFormCode form % 8 := by show x_ / 32 % 8 = _; omega
  have f2 : fld x_ 11 9 = codeOf scopes sc := by show x_ / 512 % 8 = _; omega
  have f3 : fld x_ 1 1 = codeOf bools a64 := by show x_ / 2 % 2 = _; omega
  have f4 : fld x_ 20 15 = 0 := by show x_ / 32768 % 64 = _; omega
  have f5 : fld x_ 4 2 = 0 := by show x_ / 4 % 8 = _; omega
  have f6 : fld x_ 0 0 = 0 := by show x_ / 1 % 2 = _; omega
  have f7 : fld x_ 14 12 = e := by show x_ / 4096 % 8 = _; omega
  have e : encode (.tblld c d addr form e sc a64) = put 0x1c7 c (nameCode d) (nameCode addr) x_ := by rw [hx_]; rfl
  rw [e, decodeWord_put hc (by decide) (by omega) (by omega) (by omega)]
  unfold decodeRaw decodeMtx
  simp only [fields_opc, fields_dst, fields_sa, fields_low, Nat.reduceLT, if_true, if_false, commonOf_fields hc, f0, f1, f2, f3, f4,
    f5, f6, f7, b_f, Option.bind_some, onlyIf, beq_self_eq_true, Bool.and_self, nameOf_nameCode h1, nameOf_nameCode h2,
    codeOf_get scopes sc (mem_scopes sc), codeOf_get bools a64 (mem_bools a64)]

theorem qlu (c : Common) (d a : Name) (pd : Option Nat) (w64 : Bool) : Statement (.qlu c d a pd w64) := by
  intro _ h0
  have h : (c.ok .keep (nameCode d) && d.ok && a.ok && predDstOk pd) = true := h0
  simp only [Bool.and_eq_true] at h
  obtain ⟨⟨⟨hc, h1⟩, h2⟩, h3⟩ := h
  have l_d := nameCode_lt h1
  have l_a := nameCode_lt h2
  obtain ⟨l_p, b_p⟩ := predDst_back h3
  have l_w : codeOf bools w64 < 2 := codeOf_lt bools w64 (mem_bools w64)
  obtain ⟨x_, hx_⟩ : ∃ x_, x_ = predDstCode pd * 4096 + codeOf bools w64 * 256 := ⟨_, rfl⟩
  have f0 : fld x_ 20 12 = predDstCode pd := by show x_ / 4096 % 512 = _; omega
  have f1 : fld x_ 8 8 = codeOf bools w64 := by show x_ / 256 % 2 = _; omega
  have f2 : fld x_ 11 9 = 0 := by show x_ / 512 % 8 = _; omega
  have f3 : fld x_ 7 0 = 0 := by show x_ / 1 % 256 = _; omega
  have e : encode (.qlu c d a pd w64) = put 0x1da c (nameCode d) (nameCode a) x_ := by rw [hx_]; rfl
  rw [e, decodeWord_put hc (by decide) (by omega) (by omega) (by omega)]
  unfold decodeRaw decodePhy
  simp only [fields_opc, fields_dst, fields_sa, fields_low, Nat.reduceLT, if_true, if_false, commonOf_fields hc, f0, f1, f2, f3, b_p,
    Option.bind_some, onlyIf, beq_self_eq_true, Bool.and_self, nameOf_nameCode h1, nameOf_nameCode h2,
    codeOf_get bools w64 (mem_bools w64)]

theorem zeroName {b : Name} (h : (nameCode b == 0) = true) (hb : b.ok = true) : b = .g 0 := by
  have := nameOf_nameCode hb
  rw [beq_iff_eq] at h
  rw [h] at this
  exact this.symm

theorem olu (c : Common) (d a b : Name) (pd : Option Nat) (op : OluOp) (w64 : Bool) : Statement (.olu c d a b pd op w64) := by
  intro _ h0
  have h : (c.ok .keep (nameCode d) && d.ok && a.ok && b.ok && predDstOk pd &&
    (if op = .f then nameCode b == 0 else pd == none)) = true := h0
  simp only [Bool.and_eq_true] at h
  obtain ⟨⟨⟨⟨⟨hc, h1⟩, h2⟩, h3⟩, h4⟩, h5⟩ := h
  have l_d := nameCode_lt h1
  have l_a := nameCode_lt h2
  have l_b := nameCode_lt h3
  obtain ⟨l_p, b_p⟩ := predDst_back h4
  have l_w : codeOf bools w64 < 2 := codeOf_lt bools w64 (mem_bools w64)
  have l_o : codeOf oluOps op < 5 := codeOf_lt oluOps op (mem_oluOps op)
  obtain ⟨y_, hy_⟩ : ∃ y_, y_ = (if op = .f then predDstCode pd else nameCode b) := ⟨_, rfl⟩
  have l_y : y_ < 512 := by rw [hy_]; split <;> omega
  have b_y : oluArgOf op y_ = some (b, pd) := by
    rw [hy_]
    by_cases ho : op = .f
    · rw [if_pos ho] at h5
      simp only [oluArgOf, if_pos ho, b_p, Option.map_some, zeroName h5 h3]
    · rw [if_neg ho] at h5
      simp only [oluArgOf, if_neg ho, nameOf_nameCode h3, Option.some.injEq, Prod.mk.injEq, true_and]
      exact (beq_iff_eq.mp h5).symm
  obtain ⟨x_, hx_⟩ : ∃ x_, x_ = y_ * 4096 + codeOf oluOps op * 512 + codeOf bools w64 * 256 := ⟨_, rfl⟩
  have f0 : fld x_ 20 12 = y_ := by show x_ / 4096 % 512 = _; omega
  have f1 : fld x_ 8 8 = codeOf bools w64 := by show x_ / 256 % 2 = _; omega
  have f2 : fld x_ 11 9 = codeOf oluOps op := by show x_ / 512 % 8 = _; omega
  have f3 : fld x_ 7 0 = 0 := by show x_ / 1 % 256 = _; omega
  have e : encode (.olu c d a b pd op w64) = put 0x1de c (nameCode d) (nameCode a) x_ := by rw [hx_, hy_]; rfl
  rw [e, decodeWord_put hc (by decide) (by omega) (by omega) (by omega)]
  unfold decodeRaw decodePhy
  simp only [fields_opc, fields_dst, fields_sa, fields_low, Nat.reduceLT, if_true, if_false, commonOf_fields hc, f0, f1, f2, f3, b_y,
    Option.bind_some, onlyIf, beq_self_eq_true, nameOf_nameCode h1, nameOf_nameCode h2,
    codeOf_get bools w64 (mem_bools w64), codeOf_get oluOps op (mem_oluOps op)]

-- Whole steps of the machine

theorem clauseIssue (core bay : Nat) : Statement (.clauseIssue core bay) := fun h => by cases h
theorem operationComplete (team gang op lane : Nat) : Statement (.operationComplete team gang op lane) := fun h => by cases h
theorem demotionEnd (team gang lane : Nat) : Statement (.demotionEnd team gang lane) := fun h => by cases h
theorem watchdog (team gang lane : Nat) : Statement (.watchdog team gang lane) := fun h => by cases h
theorem barrierComplete (b : Bar) : Statement (.barrierComplete b) := fun h => by cases h
theorem regroup (team : Nat) : Statement (.regroup team) := fun h => by cases h
theorem acqxGrant (core bay : Nat) : Statement (.acqxGrant core bay) := fun h => by cases h
theorem tlwaitReread (team gang lane : Nat) : Statement (.tlwaitReread team gang lane) := fun h => by cases h
theorem tltryIntervalEnd (team gang lane : Nat) : Statement (.tltryIntervalEnd team gang lane) := fun h => by cases h
theorem preemptDecide (team : Nat) : Statement (.preemptDecide team) := fun h => by cases h
theorem teamSave (team : Nat) : Statement (.teamSave team) := fun h => by cases h
theorem teamResume (team core : Nat) : Statement (.teamResume team core) := fun h => by cases h
theorem gangRetire (team gang : Nat) : Statement (.gangRetire team gang) := fun h => by cases h
theorem teamRetire (team : Nat) : Statement (.teamRetire team) := fun h => by cases h
theorem teamEnd (team : Nat) : Statement (.teamEnd team) := fun h => by cases h
theorem trapEntry (team gang lane : Nat) : Statement (.trapEntry team gang lane) := fun h => by cases h
theorem parkGang (team gang : Nat) : Statement (.parkGang team gang) := fun h => by cases h
theorem parkedGangResume (team gang : Nat) : Statement (.parkedGangResume team gang) := fun h => by cases h
theorem store (team gang lane idx : Nat) : Statement (.store team gang lane idx) := fun h => by cases h
theorem fill (a : Agent) (line : Line) : Statement (.fill a line) := fun h => by cases h
theorem evict (a : Agent) (line : Line) : Statement (.evict a line) := fun h => by cases h
theorem load (team gang lane idx : Nat) : Statement (.load team gang lane idx) := fun h => by cases h
theorem drain (a : Agent) (line : Line) : Statement (.drain a line) := fun h => by cases h
theorem ackArrive (a : Agent) (id : Nat) : Statement (.ackArrive a id) := fun h => by cases h
theorem relStep (team gang lane idx : Nat) : Statement (.relStep team gang lane idx) := fun h => by cases h
theorem acqStep (team gang lane idx : Nat) : Statement (.acqStep team gang lane idx) := fun h => by cases h
theorem atomic (team gang lane idx : Nat) : Statement (.atomic team gang lane idx) := fun h => by cases h
theorem register (msg : Nat) : Statement (.register msg) := fun h => by cases h
theorem apply (core msg : Nat) : Statement (.apply core msg) := fun h => by cases h
theorem leave (msg : Nat) : Statement (.leave msg) := fun h => by cases h
theorem sldBind (team gang lane idx : Nat) : Statement (.sldBind team gang lane idx) := fun h => by cases h
theorem peersld (team gang lane idx peer : Nat) : Statement (.peersld team gang lane idx peer) := fun h => by cases h
theorem l1EvictRegistered (core : Nat) (line : Line) : Statement (.l1EvictRegistered core line) := fun h => by cases h
theorem sliceDropLine (phys : Nat) : Statement (.sliceDropLine phys) := fun h => by cases h
theorem directoryError (phys : Nat) (groups : Option (List Nat)) : Statement (.directoryError phys groups) := fun h => by cases h
theorem bind (team gang port : Nat) : Statement (.bind team gang port) := fun h => by cases h
theorem prefetch (team gang lane port : Nat) : Statement (.prefetch team gang lane port) := fun h => by cases h
theorem pop (team gang lane idx : Nat) : Statement (.pop team gang lane idx) := fun h => by cases h
theorem claim (team gang lane port : Nat) : Statement (.claim team gang lane port) := fun h => by cases h
theorem reserve (team gang lane port : Nat) : Statement (.reserve team gang lane port) := fun h => by cases h
theorem rpush (team gang lane idx : Nat) : Statement (.rpush team gang lane idx) := fun h => by cases h
theorem commit (ring : Line) : Statement (.commit ring) := fun h => by cases h
theorem engineCommandBegin (team e : Nat) : Statement (.engineCommandBegin team e) := fun h => by cases h
theorem engineCommandComplete (team e : Nat) : Statement (.engineCommandComplete team e) := fun h => by cases h
theorem contextPark (team e : Nat) : Statement (.contextPark team e) := fun h => by cases h
theorem collMatch (team e : Nat) (others : List Member) : Statement (.collMatch team e others) := fun h => by cases h
theorem collAbort (team e : Nat) : Statement (.collAbort team e) := fun h => by cases h
theorem arrayRowPass (core : Nat) : Statement (.arrayRowPass core) := fun h => by cases h
theorem chainRecordAccept (chain : Nat) : Statement (.chainRecordAccept chain) := fun h => by cases h
theorem pendingLaunchAccept (team : Nat) : Statement (.pendingLaunchAccept team) := fun h => by cases h
theorem launchMakeResident (launch : Nat) (refused : Bool) : Statement (.launchMakeResident launch refused) := fun h => by cases h
theorem teamAdmit (launch : Nat) : Statement (.teamAdmit launch) := fun h => by cases h
theorem parentSwapOut (team : Nat) : Statement (.parentSwapOut team) := fun h => by cases h
theorem parentSwapIn (team core : Nat) : Statement (.parentSwapIn team core) := fun h => by cases h
theorem bandComplete (launch band : Nat) : Statement (.bandComplete launch band) := fun h => by cases h
theorem launchComplete (launch : Nat) : Statement (.launchComplete launch) := fun h => by cases h
theorem timeSlotStart (entry : Nat) : Statement (.timeSlotStart entry) := fun h => by cases h
theorem eventEntryWrite (die : Nat) : Statement (.eventEntryWrite die) := fun h => by cases h
theorem faultRecordWrite (die : Nat) : Statement (.faultRecordWrite die) := fun h => by cases h
theorem msiSend : Statement (.msiSend) := fun h => by cases h
theorem hostWindowAccess (hpa : Nat) (data : Option (List Byte)) (n : Nat) : Statement (.hostWindowAccess hpa data n) := fun h => by cases h
theorem peerRequest (ctx : Nat) (die off : Nat) (op : PeerOp) : Statement (.peerRequest ctx die off op) := fun h => by cases h
theorem peerTimeout (team gang lane idx : Nat) (merged : Bool) : Statement (.peerTimeout team gang lane idx merged) := fun h => by cases h
theorem flitCrcFail (port : Nat) (retrain : Bool) : Statement (.flitCrcFail port retrain) := fun h => by cases h
theorem datagramReceive (mac ip udp : Nat) (addr : Nat) (data : List Byte) (good : Bool) : Statement (.datagramReceive mac ip udp addr data good) := fun h => by cases h
theorem datagramAck (seq : Nat) (refusal : Option Nat) : Statement (.datagramAck seq refusal) := fun h => by cases h
theorem datagramResend (seq : Nat) : Statement (.datagramResend seq) := fun h => by cases h
theorem hbmRecalBurst (die ch : Nat) : Statement (.hbmRecalBurst die ch) := fun h => by cases h
theorem rowRemap (die ch row : Nat) : Statement (.rowRemap die ch row) := fun h => by cases h
theorem remapTableReload (die ch : Nat) (copyBad : Bool) : Statement (.remapTableReload die ch copyBad) := fun h => by cases h
theorem uncorrectableError (s : Struct) : Statement (.uncorrectableError s) := fun h => by cases h
theorem dieLoss (die : Nat) : Statement (.dieLoss die) := fun h => by cases h
theorem powerCapExcess (point : Nat) : Statement (.powerCapExcess point) := fun h => by cases h
theorem thermalLimit (point temp : Nat) : Statement (.thermalLimit point temp) := fun h => by cases h
theorem reset : Statement (.reset) := fun h => by cases h
theorem bootVerify (die : Nat) (verdict : Nat) : Statement (.bootVerify die verdict) := fun h => by cases h
theorem partitionWrite (v : DWord) : Statement (.partitionWrite v) := fun h => by cases h
theorem partitionApply : Statement (.partitionApply) := fun h => by cases h
theorem chainEnable (chain : Nat) (v : DWord) : Statement (.chainEnable chain v) := fun h => by cases h
theorem chainTailWrite (chain : Nat) (v : DWord) : Statement (.chainTailWrite chain v) := fun h => by cases h
theorem chainErrClear (chain : Nat) (v : DWord) : Statement (.chainErrClear chain v) := fun h => by cases h
theorem timedEntryEnable (entry : Nat) (v : DWord) : Statement (.timedEntryEnable entry v) := fun h => by cases h
theorem ovrWrite (entry : Nat) (v : DWord) : Statement (.ovrWrite entry v) := fun h => by cases h
theorem killLaunch (v : DWord) : Statement (.killLaunch v) := fun h => by cases h
theorem killContext (v : DWord) : Statement (.killContext v) := fun h => by cases h
theorem killEntry (v : DWord) : Statement (.killEntry v) := fun h => by cases h
theorem debugResume (v : DWord) : Statement (.debugResume v) := fun h => by cases h
theorem degradeWrite (v : DWord) : Statement (.degradeWrite v) := fun h => by cases h
theorem deviceNumberWrite (v : DWord) : Statement (.deviceNumberWrite v) := fun h => by cases h
theorem keyInstall (v : DWord) : Statement (.keyInstall v) := fun h => by cases h
theorem keyDestroy (v : DWord) : Statement (.keyDestroy v) := fun h => by cases h
theorem clockStep (v : DWord) : Statement (.clockStep v) := fun h => by cases h
theorem rtiWrite (die : Nat) (v : DWord) : Statement (.rtiWrite die v) := fun h => by cases h
theorem pcapWrite (v : DWord) : Statement (.pcapWrite v) := fun h => by cases h
theorem perfReqWrite (v : DWord) : Statement (.perfReqWrite v) := fun h => by cases h
theorem eventQueueConfig (die : Nat) (lcap : Bool) (v : DWord) : Statement (.eventQueueConfig die lcap v) := fun h => by cases h
theorem eventQueueHeadWrite (die : Nat) (v : DWord) : Statement (.eventQueueHeadWrite die v) := fun h => by cases h
theorem faultRingConfig (die : Nat) (lcap : Bool) (v : DWord) : Statement (.faultRingConfig die lcap v) := fun h => by cases h
theorem faultRingHeadWrite (die : Nat) (v : DWord) : Statement (.faultRingHeadWrite die v) := fun h => by cases h
theorem attestRequest (v : DWord) : Statement (.attestRequest v) := fun h => by cases h
theorem attestReportWrite : Statement (.attestReportWrite) := fun h => by cases h
theorem registerWrite (off : Nat) (v : DWord) : Statement (.registerWrite off v) := fun h => by cases h
theorem correctedError (die ch row : Nat) : Statement (.correctedError die ch row) := fun h => by cases h
theorem thermalLimitEnd : Statement (.thermalLimitEnd) := fun h => by cases h
theorem powerCapWithin (point : Nat) : Statement (.powerCapWithin point) := fun h => by cases h
theorem keyOperationDone : Statement (.keyOperationDone) := fun h => by cases h
theorem ieee1588EventMessage (port : Nat) (egress : Bool) : Statement (.ieee1588EventMessage port egress) := fun h => by cases h

end Sys2Proof.Laws.RoundTrip
end

