-- ==== Sys2Proof/Laws/Whole.lean ====
section
/-! SUPPORT. What the operations that complete as a whole leave behind when they issue (R392 to R395, R365 to R368), and what entering
and leaving a handler does (R377, R379). -/

namespace Sys2Proof.Machine

/-- A tracked operation has begun, and entries may stand in the queues of some lanes. -/
theorem begun {s : State} {c : Common} {v : View} (h : issueView s c = some v) (hs : Stands s v) (k : OpKind) (idents also : List Nat)
    (lanes : List Nat) (qs : Nat → List LaneOp) (hn : lanes.Nodup) :
    Kept s (afterSlot (lanes.foldl (fun s2 i => modLane s2 v.iss.team v.g i (fun l => l.push (qs i)))
      (startOp s v c.setf k idents also)) v false WinSlot.none) v ∧
    Began s (afterSlot (lanes.foldl (fun s2 i => modLane s2 v.iss.team v.g i (fun l => l.push (qs i)))
      (startOp s v c.setf k idents also)) v false WinSlot.none) v c k idents := by
  obtain ⟨-, -, hg, hb, -⟩ := issueView_eq h
  obtain ⟨⟨x, hx, hl⟩, hgrp, -⟩ := hs
  have ex := gangOf_eq hx
  have h1 := startOp_gang s v c.setf k idents also hg hx
  have hel1 := startOp_elsewhere s v c.setf k idents also hg
  have hb1 : ∀ a b, bayOf (startOp s v c.setf k idents also) a b = bayOf s a b := fun _ _ => startOp_bays _ _ _ _ _ _ _ _
  generalize startOp s v c.setf k idents also = s1 at *
  obtain ⟨r1, r2, r3, r4, r5, r6⟩ := started_rest x s.fresh c.setf k idents also v.word
  generalize started x s.fresh c.setf k idents also v.word = x1 at *
  obtain ⟨y, hy, yl, ylane, yeq⟩ := modLanes_lanes s1 v.iss.team v.iss.gang (fun i l => l.push (qs i)) lanes h1 hn
  obtain ⟨hel2, hb2⟩ := modLanes_rest s1 v (fun i l => l.push (qs i)) hg lanes
  rw [hg] at hel2 hb2 ⊢
  generalize lanes.foldl (fun s2 i => modLane s2 v.iss.team v.iss.gang i (fun l => l.push (qs i))) s1 = s2 at *
  have e := afterSlot_end s2 v false WinSlot.none hy hg
  obtain ⟨z, hz, zops, zq⟩ := afterSlot_grew s2 v false WinSlot.none hy hg
  have ey := gangOf_eq hy
  have ez := gangOf_eq hz
  have hlane1 : ∀ i, x1.lane i = x.lane i := fun i => by rw [Gang.lane, Gang.lane, r1]
  have hylane : ∀ i, i < 32 → laneOf s2 v i = if i ∈ lanes then (x.lane i).push (qs i) else x.lane i := by
    intro i hi
    rw [laneOf, ey, ylane i (by rw [r1, hl]; exact hi), hlane1]
  have hel : Elsewhere s (afterSlot s2 v false WinSlot.none) v := (hel1.trans hel2).trans e.elsewhere
  refine ⟨⟨fun i hi => ?_, fun i hi => ?_, fun i hi => ?_, ⟨?_, fun i hi => ?_⟩, ?_, hel⟩, ⟨s.fresh, also, [], ?_⟩, fun hf => ?_, fun n hn => ?_, ?_, ?_⟩
  · rw [e.regs, hylane i hi, laneOf, ex]; split <;> rfl
  · rw [e.preds, hylane i hi, laneOf, ex]; split <;> rfl
  · rw [e.fst, hylane i hi, laneOf, ex]; split <;> rfl
  · rw [e.gsys, ey, yeq, ex]; exact r5
  · rw [e.sys, hylane i hi, laneOf, ex]; split <;> rfl
  · rw [e.cregs, ey, yeq, ex]; exact r2
  · rw [ez, zops, yeq, ex]; exact r3
  · rw [Gang.flag, e.flags, ey, ex, yeq]
    have := r6 c.setf
    refine Eq.trans (b := x1.flag c.setf) rfl (this.trans ?_)
    cases idleOp k idents <;> simp [hf, Gang.flag]
  · rw [Gang.flag, e.flags, ey, ex, yeq]
    have := r6 n
    rw [if_neg (by simp [hn])] at this
    exact this
  · exact afterSlot_advanced s2 v false WinSlot.none (by rw [hb2, hb1]; exact hb)
  · by_cases hsl : v.iss.slot < v.iss.ni
    · exact .inl hsl
    · refine .inr (fun i hi => ?_)
      rw [e.pc i (by rw [ey, yl, r1, hl]; exact hgrp i hi), slotPc, if_neg hsl, if_pos (by simpa using hi)]

/-- A system operation that names no port and passes its checks begins. -/
theorem execOnce_holds {s : State} {c : Common} {v : View} {f : Front} {own : View → Option FaultInfo} {addr : Option (View → Nat → Nat)}
    {acc : Nat} {k : (Nat → Opnd → List Word) → Nat → OpKind} (h : Passes s c f own v) (hq : f.srcPorts = []) (hd : f.dstPort = none)
    (hok : ∀ a, addr = some a → ∀ i ∈ v.acting.take 1, a v i % 128 = 0 ∧ servedFault s .all (a v i) = none) :
    ∃ t, execOnce c f own addr acc k s = .next t ∧ Kept s t v ∧
      Began s t v c (k (fun i o => v.src s.fresh i o) (v.acting.headD 0)) ((v.acting.take 1).map (fun i => (v.gang.lane i).ident)) := by
  refine ⟨_, ?_, begun h.view h.stands (k (fun i o => v.src s.fresh i o) (v.acting.headD 0)) _ [] [] (fun _ => []) List.nodup_nil⟩
  refine (issueChecks_pass h _).trans ?_
  have hp : popAll s v [] = (s, []) := rfl
  cases ha : addr with
  | none => simp only [hq, hd, hp]; rfl
  | some a => dsimp only [Option.bind_some]; rw [addrFaults_none (hok a ha)]; simp only [hq, hd, hp]; rfl

/-- A launch instruction that passes its checks begins. -/
theorem execLaunchOp_holds {s : State} {c : Common} {v : View} {f : Front} {own : View → Option FaultInfo}
    {addr : Option (View → Nat → Nat)} {first : View → Nat → List MemKind} {k : View → List Nat → OpKind} (h : Passes s c f own v)
    (hok : ∀ a, addr = some a → ∀ i ∈ v.actors f false, a v i % 128 = 0 ∧ servedFault s .all (a v i) = none) :
    ∃ t, execLaunchOp c f own addr first k s = .next t ∧ Kept s t v ∧
      Began s t v c (k v (v.actors f false)) ((v.actors f false).map (fun i => (v.gang.lane i).ident)) := by
  refine ⟨_, ?_, begun h.view h.stands (k v (v.actors f false)) _ [] (v.actors f false) (fun i => (first v i).map (fun m =>
    { op := s.fresh, kind := m, last := false, acks := [], parked := none, insn := v.word })) (actors_nodup (active_facts h.view h.stands).1 _ _)⟩
  refine (issueChecks_pass h _).trans ?_
  cases ha : addr with
  | none => rfl
  | some a => dsimp only [Option.bind_some]; rw [addrFaults_none (hok a ha)]

/-- Entering a handler (R377): each named lane runs at the vector in the handler, with its place saved; the gang holds the fault; registers,
predicates, fst, c registers and flags stand. -/
theorem enterHandler_entered {s : State} {u g : Nat} {x : Gang} (hx : findGang s u g = some x) (lanes : List Nat) (tv : DWord)
    (info : FaultInfo) (epc : DWord) (eslot : Nat) (sh : Nat → List (Option DWord)) :
    ∃ y, findGang (enterHandler s u g lanes tv info epc eslot sh) u g = some y ∧ y.lanes.length = x.lanes.length ∧
      (∀ i < x.lanes.length, y.lane i = if lanes.contains i then
        { x.lane i with st := .trapped, handler := true, pc := tv, resume := 0, epc := epc, eslot := eslot, shadow := sh i, wdog := 0 }
        else x.lane i) ∧
      y.ecause = BitVec.ofNat 32 (causeCode info.cause) ∧ y.einfo = info.einfo ∧ y.eaddr = info.addr ∧ y.einsn = info.insn ∧
      y.cregs = x.cregs ∧ y.flags = x.flags := by
  unfold enterHandler
  rw [findGang_modGang, hx]
  refine ⟨_, rfl, by simp, fun i hi => ?_, rfl, rfl, rfl, rfl, rfl, rfl⟩
  exact lane_map x _ i hi

/-- A trap with a handler enters it. -/
theorem takeTrap_enters {s : State} {u g : Nat} {t : Team} (ht : findTeam s u = some t) {lanes : List Nat} {info : FaultInfo}
    {epc : DWord} {eslot : Nat} {sh : Nat → List (Option DWord)} {tv : DWord} (hc : traps info.cause = true)
    (hl : ∀ i ∈ lanes, ((t.gang g).lane i).trapped = false) (hv : handlerFor s t.ctx info.cause info.tmem = some tv) :
    takeTrap s u g lanes info epc eslot sh = enterHandler s u g lanes tv info epc eslot sh := by
  have hany : lanes.any (fun i => ((t.gang g).lane i).trapped) = false := by
    rw [List.any_eq_false]; intro i hi; simp [hl i hi]
  unfold takeTrap
  rw [ht]
  dsimp only
  rw [if_neg (by simp [hc, hany]), hv]

/-- A trap without a handler, or inside one, ends the team. -/
theorem takeTrap_ends {s : State} {u g : Nat} {t : Team} (ht : findTeam s u = some t) {lanes : List Nat} {info : FaultInfo}
    {epc : DWord} {eslot : Nat} {sh : Nat → List (Option DWord)}
    (h : handlerFor s t.ctx info.cause info.tmem = none ∨ ∃ i ∈ lanes, ((t.gang g).lane i).trapped = true) :
    takeTrap s u g lanes info epc eslot sh = endTeam s u info := by
  unfold takeTrap
  rw [ht]
  dsimp only
  split
  · rfl
  · next hn =>
    rcases h with h | ⟨i, hi, hi'⟩
    · rw [h]
    · exact absurd (.inr (List.any_eq_true.mpr ⟨i, hi, hi'⟩)) hn

/-- The handler for a class depends on memory and the context table alone (R369, R374). -/
theorem handlerFor_congr {s t : State} (hm : t.mem = s.mem) (hg : t.mgmt = s.mgmt) (ctx : Nat) (c : Cause) (m : Option Bool) :
    handlerFor t ctx c m = handlerFor s ctx c m := by
  have hb : ∀ k, rdByte t k = rdByte s k := fun k => by simp only [rdByte, hm]
  have hn : ∀ k n, rdNat t k n = rdNat s k n := fun k n => by simp only [rdNat, rdBytes, hb]
  unfold handlerFor ctxTvec ctxTmem ctxEntry
  rw [hg, hn]

theorem modGang_team {s : State} {u : Nat} {t : Team} (h : findTeam s u = some t) (g : Nat) (f : Gang → Gang) :
    ∃ w, findTeam (modGang s u g f) u = some w ∧ w.ctx = t.ctx ∧ w.ending = t.ending :=
  ⟨{ t with gangs := t.gangs.modify g f }, by rw [modGang, findTeam_modTeam _ _ _ (by intro; rfl), h]; rfl, rfl, rfl⟩

/-- The state of a trapping slot before the fault meets its fate: the clause has ended, and nothing else changed. -/
theorem trapSlot_end (s : State) (v : View) (info : FaultInfo) {x : Gang} (hx : findGang s v.iss.team v.iss.gang = some x)
    (hg : v.g = v.iss.gang) (hb : (bayOf s v.core v.bay).issue = some v.iss) :
    ∃ s2, SlotEnd s s2 v (fun i => (laneOf s v i).pc) ∧ (bayOf s2 v.core v.bay).issue = none ∧
      (∀ u, findTeam s v.iss.team = some u → ∃ w, findTeam s2 v.iss.team = some w ∧ w.ctx = u.ctx ∧ w.ending = u.ending) ∧
      trapSlot s v info = takeTrap s2 v.iss.team v.g v.iss.group info v.iss.pc v.iss.slot (windowOf s.fresh v.iss v.iss.slot) := by
  have e1 := gangOf_eq hx
  refine ⟨_, ?_, ?_, ?_, rfl⟩
  · generalize hF : (fun i => if v.iss.group.contains i then fillSlots v.iss.ports { x.lane i with lastIssue := v.t } else x.lane i) = F
    have hm : findGang (modGang (v.passed { s with fresh := s.fresh + 1 }) v.iss.team v.g (fun g =>
      { g with lanes := (List.range g.lanes.length).map (fun i =>
          if v.iss.group.contains i then fillSlots v.iss.ports { g.lane i with lastIssue := v.t } else g.lane i) }))
        v.iss.team v.iss.gang = some { x with lanes := (List.range x.lanes.length).map F } := by
      rw [hg, findGang_modGang, findGang_passed, show findGang { s with fresh := s.fresh + 1 } v.iss.team v.iss.gang = some x from hx,
        ← hF]
      rfl
    refine SlotEnd.trans ?_ (endIssue_end _ v _ hm hg)
    have e2 := gangOf_eq hm
    have hl : ∀ i, ({ x with lanes := (List.range x.lanes.length).map F } : Gang).lane i =
        if i < x.lanes.length then F i else Lane.absent := by
      intro i
      split
      · next hi => exact lane_map x F i hi
      · next hi => exact lane_out _ _ (by simpa using hi)
    have hs : ∀ i, SameLane (x.lane i) (({ x with lanes := (List.range x.lanes.length).map F } : Gang).lane i) ∧
        (({ x with lanes := (List.range x.lanes.length).map F } : Gang).lane i).preds = (x.lane i).preds := by
      intro i
      rw [hl]
      split
      · rw [← hF]; dsimp only
        split
        · exact ⟨⟨rfl, rfl, rfl, rfl, rfl, rfl, rfl, rfl, rfl⟩, rfl⟩
        · exact ⟨.refl _, rfl⟩
      · next hi => rw [lane_out x i hi]; exact ⟨.refl _, rfl⟩
    refine ⟨⟨_, hm, by rw [e1]; simp⟩, fun i => ?_, fun i => ?_, fun i => ?_, fun i => ?_, fun i => ?_, fun i _ => ?_, ?_, ?_, ?_, ?_, ?_⟩
    · simp only [laneOf, e1, e2]; exact (hs i).1.regs
    · simp only [laneOf, e1, e2]; exact (hs i).2
    · simp only [laneOf, e1, e2]; exact (hs i).1.fst
    · simp only [laneOf, e1, e2]; exact (hs i).1.sys
    · simp only [laneOf, e1, e2]; exact (hs i).1.st
    · simp only [laneOf, e1, e2]; exact (hs i).1.pc
    · rw [e1, e2]
    · rw [e1, e2]
    · rw [e1, e2]
    · rw [e1, e2]; rfl
    · refine ⟨rfl, fun u hu => ?_, fun g h => ?_, rfl, rfl, rfl, rfl⟩
      · rw [hg]; exact findTeam_modGang_ne _ _ _ hu
      · rw [hg]; exact findGang_modGang_ne _ _ (.inr h)
  · obtain ⟨hc, hb'⟩ := bay_exists hb
    unfold endIssue
    dsimp only
    rw [bayOf_modBay (hc := by exact hc) (hb := by exact hb')]
  · intro u hu
    obtain ⟨w, hw, c1, d1⟩ := modGang_team (s := v.passed { s with fresh := s.fresh + 1 }) (show _ = some u from hu) v.g
      (fun g => { g with lanes := (List.range g.lanes.length).map (fun i =>
        if v.iss.group.contains i then fillSlots v.iss.ports { g.lane i with lastIssue := v.t } else g.lane i) })
    obtain ⟨w2, hw2, c2, d2⟩ := modGang_team hw v.g (fun g => g.bindPorts _)
    exact ⟨w2, hw2, c2.trans c1, d2.trans d1⟩

/-- A trap with a handler (R377). -/
theorem trapSlot_trapped {s : State} {c : Common} {v : View} {info : FaultInfo} {tv : DWord} (h : issueView s c = some v)
    (hs : Stands s v) (hh : Handles s v info.cause tv info.tmem) : Trapped s (trapSlot s v info) v info tv := by
  obtain ⟨ht, -, hg, hb, -⟩ := issueView_eq h
  obtain ⟨⟨x, hx, hl⟩, hgrp, -⟩ := hs
  obtain ⟨h1, h2, h3⟩ := hh
  obtain ⟨s2, e, hstop, htm, heq⟩ := trapSlot_end s v info hx hg hb
  obtain ⟨w, hw, hwc, -⟩ := htm _ ht
  obtain ⟨y, hy, hyl⟩ := e.found
  have e1 := gangOf_eq hx
  have e2 := gangOf_eq hy
  rw [e1, hl] at hyl
  have hgl : (w.gang v.g) = y := by
    rw [hg, Team.gang, List.getD_eq_getElem?_getD]
    simp only [findGang, hw, Option.bind_some] at hy
    rw [hy]; rfl
  have hnt : ∀ i ∈ v.iss.group, ((w.gang v.g).lane i).trapped = false := by
    intro i hi
    have := e.sys i
    rw [hgl, ← e2]
    exact (congrArg (fun p : DWord × Nat × Bool => p.2.2) this).trans (h2 i hi)
  have hv : handlerFor s2 w.ctx info.cause info.tmem = some tv := by
    rw [handlerFor_congr e.elsewhere.mem e.elsewhere.mgmt, hwc]; exact h3
  rw [heq, takeTrap_enters hw h1 hnt hv, hg]
  obtain ⟨z, hz, hzl, hlane, c1, c2, c3, c4, c5, c6⟩ := enterHandler_entered hy v.iss.group tv info v.iss.pc v.iss.slot
    (windowOf s.fresh v.iss v.iss.slot)
  have e3 := gangOf_eq hz
  have hch : z.chunks = y.chunks := by
    have : findGang (enterHandler s2 v.iss.team v.iss.gang v.iss.group tv info v.iss.pc v.iss.slot (windowOf s.fresh v.iss v.iss.slot))
        v.iss.team v.iss.gang = some z := hz
    unfold enterHandler at this
    rw [findGang_modGang, hy] at this
    cases this; rfl
  have hln : ∀ i < 32, z.lane i = if v.iss.group.contains i then
        { y.lane i with
          st := .trapped, handler := true, pc := tv, resume := 0, epc := v.iss.pc, eslot := v.iss.slot
          shadow := windowOf s.fresh v.iss v.iss.slot i, wdog := 0 } else y.lane i := fun i hi => hlane i (by omega)
  have hp : ∀ i < 32, (laneOf s2 v i).pc = (laneOf s v i).pc := fun i hi => e.pc i (by rw [e1, hl]; exact hi)
  have r1 := e.regs; have r2 := e.preds; have r3 := e.fst; have r4 := e.sys; have r5 := e.st
  have r6 := e.cregs; have r7 := e.flags; have r8 := e.chunks
  simp only [laneOf, e1, e2] at r1 r2 r3 r4 r5 r6 r7 r8 hp
  refine ⟨fun i hi => ?_, ?_, fun i hi => ?_, fun i hi hn => ?_, ?_, ?_, ?_⟩
  · have : v.iss.group.contains i = true := by simpa using hi
    simp only [laneOf, e3, hln i (hgrp i hi), this, if_true, and_self]
  · rw [e3]; exact ⟨c1, c2, c3, c4⟩
  · simp only [laneOf, e1, e3, hln i hi]
    split <;> exact ⟨r1 i, r2 i, r3 i⟩
  · have : ¬ v.iss.group.contains i = true := by simpa using hn
    simp only [laneOf, e1, e3, hln i hi, this]
    exact ⟨r4 i, r5 i, hp i hi⟩
  · rw [e3, e1]; exact ⟨c5.trans r6, c6.trans r7, hch.trans r8⟩
  · exact hstop
  · have k := e.elsewhere
    refine ⟨k.mem, fun u hu => ?_, fun g h => ?_, k.launches, k.chains, k.dies, k.mgmt⟩
    · rw [← k.teams u hu]; exact findTeam_modGang_ne _ _ _ hu
    · rw [← k.gangs g h]; exact findGang_modGang_ne _ _ (.inr h)

/-- A trap that no handler takes ends the team with the fault (R374, R377). -/
theorem trapSlot_ends {s : State} {c : Common} {v : View} {info : FaultInfo} (h : issueView s c = some v)
    (hs : Stands s v) (hh : Unhandled s v info.cause info.tmem) (hn : v.team.ending = none) :
    ∃ u, findTeam (trapSlot s v info) v.iss.team = some u ∧ u.ending = some info ∧ (trapSlot s v info).mem = s.mem := by
  obtain ⟨ht, -, hg, hb, -⟩ := issueView_eq h
  obtain ⟨⟨x, hx, hl⟩, hgrp, -⟩ := hs
  obtain ⟨s2, e, hstop, htm, heq⟩ := trapSlot_end s v info hx hg hb
  obtain ⟨w, hw, hwc, hwe⟩ := htm _ ht
  obtain ⟨y, hy, hyl⟩ := e.found
  have e2 := gangOf_eq hy
  have hgl : (w.gang v.g) = y := by
    rw [hg, Team.gang, List.getD_eq_getElem?_getD]
    simp only [findGang, hw, Option.bind_some] at hy
    rw [hy]; rfl
  rw [heq, takeTrap_ends hw]
  · refine ⟨{ w with ending := some info }, ?_, rfl, e.elsewhere.mem⟩
    rw [endTeam, findTeam_modTeam _ _ _ (by intro t; split <;> rfl), hw]
    simp [hwe, hn]
  · rcases hh.2 with ⟨i, hi, hi'⟩ | hx
    · refine .inr ⟨i, hi, ?_⟩
      rw [hgl, ← e2]
      exact (congrArg (fun p : DWord × Nat × Bool => p.2.2) (e.sys i)).trans hi'
    · left; rw [handlerFor_congr e.elsewhere.mem e.elsewhere.mgmt, hwc]; exact hx

/-- The first three checks of stage 3 that fail: names, TIMING, FLAGOVF (R62). -/
theorem issueChecks_names {s : State} {c : Common} {f : Front} {own : View → Option FaultInfo} {v : View} {info : FaultInfo}
    (hv : issueView s c = some v) (hn : nameFault v c f = some info) (hr : info.cause ≠ .residency) (k : View → Out) :
    issueChecks s c f own k = .next (trapSlot s v info) := by
  unfold issueChecks
  rw [hv]; dsimp only
  rw [hn]; dsimp only [failSlot]
  rw [if_neg hr]

theorem issueChecks_timing {s : State} {c : Common} {f : Front} {own : View → Option FaultInfo} {v : View}
    (hv : issueView s c = some v) (hn : nameFault v c f = none) (ho : own v = none) (ht : timingLate v c f = true) (k : View → Out) :
    issueChecks s c f own k = .next (trapSlot s v (v.fault .timing)) := by
  unfold issueChecks
  rw [hv]; dsimp only
  rw [hn]; dsimp only
  rw [ho]; dsimp only
  rw [if_pos ht]

theorem issueChecks_flag {s : State} {c : Common} {f : Front} {own : View → Option FaultInfo} {v : View}
    (hv : issueView s c = some v) (hn : nameFault v c f = none) (ho : own v = none) (ht : timingLate v c f = false)
    (hc : c.setf ≠ 0) (h63 : 63 ≤ v.gang.flag c.setf) (k : View → Out) :
    issueChecks s c f own k = .next (trapSlot s v (v.fault .flagovf)) := by
  unfold issueChecks
  rw [hv]; dsimp only
  rw [hn]; dsimp only
  rw [ho]; dsimp only
  rw [if_neg (by simp [ht]), if_pos ⟨hc, h63⟩]

/-- A lane whose address is not aligned (R183). -/
theorem addrFaults_align {v : View} {lanes : List Nat} {addr : Nat → Nat} {align : Nat} {bad : Nat → Option Cause} {acc : Nat}
    (h : ∃ i ∈ lanes, addr i % align ≠ 0) :
    ∃ f, addrFaults v lanes addr align bad acc = some f ∧ f.cause = .align ∧ f.einfo = BitVec.ofNat 32 acc := by
  have hsome : ∀ (g : Nat → FaultInfo), (∀ i, (g i).cause = .align) → ∃ f,
      lanes.findSome? (fun i => if addr i % align ≠ 0 then some (g i) else none) = some f ∧ f.cause = .align := by
    intro g hg
    obtain ⟨i, hi, hx⟩ := h
    cases hf : lanes.findSome? (fun i => if addr i % align ≠ 0 then some (g i) else none) with
    | none => rw [List.findSome?_eq_none_iff] at hf; have := hf i hi; simp [hx] at this
    | some f =>
      obtain ⟨j, hj, hjf⟩ := List.exists_of_findSome?_eq_some hf
      refine ⟨f, rfl, ?_⟩
      split at hjf
      · cases hjf; exact hg j
      · cases hjf
  obtain ⟨f, hf, hc⟩ := hsome (fun i => { v.fault .align with
    addr := BitVec.ofNat 64 (addr i), lane := i, lid := (v.gang.lane i).lid, qid := (v.gang.lane i).qid,
    gid := (v.gang.lane i).gid }) (fun _ => rfl)
  refine ⟨{ f with einfo := BitVec.ofNat 32 acc }, ?_, hc, rfl⟩
  unfold addrFaults
  dsimp only
  rw [hf]; rfl

end Sys2Proof.Machine
end

