-- ==== Sys2Proof/Tests/Slice0.lean ====
section
/-! SUPPORT. Tests: ill-formed terms that well-formedness refuses, words written out from the spec's encodings, results worked out in the
spec, and for every statement a state that meets its hypotheses. -/

open Sys2Proof Sys2Proof.Machine

namespace Sys2Proof.Tests

set_option Elab.async false

def c0 : Common := { dist := 0, setf := 0, nwb := false, guard := .always }
def g (n : Nat) : Name := .g n

-- Well-formed syntax: each check refuses something

theorem wf_common : [Instr.nop { c0 with dist := 8 }, .nop { c0 with guard := .pred 96 false }, .nop { c0 with setf := 1 },
    .nop { c0 with nwb := true }, .idiv { c0 with setf := 13 } (g 1) (g 2) (g 3) .s32].all (fun i => !i.wf) = true := by decide
theorem wf_names : [g 320, .q 16, .w 0, .w 9, .k 8, .c 64, .bad 426, .bad 512].all (fun n => !(Instr.mov c0 (g 1) n false).wf) = true := by
  decide
theorem wf_destination : [Instr.iadd c0 (.w 0) (g 1) (g 2) .wrap, .iadd c0 (g 1) (.k 9) (g 2) .wrap, .iadd c0 (g 1) (g 2) (.c 99) .wrap].all
    (fun i => !i.wf) = true := by decide
theorem wf_constants : [Instr.movk c0 (g 1) 65536 false true, .movImm c0 (g 1) 1048576, .movImm c0 (g 1) (-1048577), .bra c0 1048576,
    .shlImm c0 (g 1) (g 2) 2097152, .logt c0 (g 1) (g 2) (g 3) 256, .trap c0 1024, .yld c0 9].all (fun i => !i.wf) = true := by decide
theorem wf_predicates : [Instr.icmp c0 96 (g 1) (g 2) .eq .s32, .plog c0 3 96 0 0, .plog c0 3 0 126 0, .sel c0 (g 1) (g 2) (g 3) 100 false false,
    .prd c0 (g 1) 3, .acqxt c0 1 96, .tltry c0 (g 2) (.team 0) 96, .qlu c0 (g 8) (g 0) (some 96) false].all (fun i => !i.wf) = true := by decide
theorem wf_indices : [Instr.acqx c0 5, .relx c0 5, .tlwait c0 (g 2) (.team 8), .tlsig c0 .core 8, .hdef c0 (g 1) (g 2) 64 0 .core false,
    .wswp c0 (g 1) 8, .mzero c0 (g 1) 4 0, .mrd c0 (g 1) (g 2) 0 0 (some 8) .f32 false, .tblld c0 (g 1) (g 2) (.bias 4) 0 .core false,
    .mstat c0 (g 1) 3, .lstat c0 (g 1) 5].all (fun i => !i.wf) = true := by decide
theorem wf_forms : [Instr.st c0 (g 1) (g 2) 0 .s8 false, .mma c0 (g 1) (g 2) (.hdl 64) 0 0 .core, .mwr c0 (g 1) (g 2) (g 3) 0 0 true,
    .olu c0 (g 8) (g 0) (g 1) none .f false, .olu c0 (g 8) (g 0) (g 1) (some 3) .s false,
    .cvt c0 (g 1) (g 2) (g 0) (.int .s32) (.int .n32) .rn false, .barb c0 .core].all (fun i => !i.wf) = true := by decide
theorem wf_steps : [Instr.barrierComplete (.gang 0 16), .barrierComplete (.band 0 32), .evict (.core 256) { ctx := 0, addr := 0 },
    .evict (.ctx 0 8) { ctx := 0, addr := 0 }].all (fun i => !i.wf) = true := by decide

-- Decoding: a word of each family, written out field by field (03 to 15)

/-- CTL: `YLD 8`, OPC 0x008, PG 127, IMM 8 (R92). -/
theorem test_decode_yld : decodeWord 0x04003F8000000008 = some (.yld c0 8) := by decide
/-- CTL: `TLTRY p4, tl3, g10` (04). -/
theorem test_decode_tltry : decodeWord 0x09803F8001400304 = some (.tltry c0 (g 10) (.team 3) 4) := by decide
/-- INT: the two worked words of 05. -/
theorem test_decode_icmp : decodeWord 0x2E803F80C0805400 = some (.icmp c0 3 (g 4) (g 5) .lt .s32) := by decide
theorem test_decode_logt : decodeWord 0x28003F81C0202CA0 = some (.logt c0 (g 7) (g 1) (g 2) 0xCA) := by decide
/-- INT: `IADD g5, g4, -3` (03). -/
theorem test_decode_iadd_imm : decodeWord 0x41003F81409FFFFD = some (.iaddImm c0 (g 5) (g 4) (-3)) := by decide
/-- FLT: `FADD g3, w1, k1 dist=3` (03). -/
theorem test_decode_fadd : decodeWord 0x60303F80EA159000 = some (.fadd { c0 with dist := 3 } (g 3) (.w 1) (.k 1) .rn) := by decide
/-- MEM: the two worked words of 08. -/
theorem test_decode_ld : decodeWord 0xB0013F8080000010 = some (.ld { c0 with setf := 1 } (g 2) (g 0) 0 .b32 false) := by decide
theorem test_decode_atom : decodeWord 0xB2023F824080604A =
    some (.atom { c0 with setf := 2 } (g 9) (g 4) (g 6) .add false .rel .die true) := by decide
/-- STR (10). -/
theorem test_decode_sbind : decodeWord 0xD0003FD0AC800000 = some (.sbind c0 (.q 2) (.c 4)) := by decide
theorem test_decode_sdrain : decodeWord 0xD1843F8028A00001 = some (.sdrain { c0 with setf := 4 } (.q 5) true) := by decide
/-- CPY (11). -/
theorem test_decode_copy : decodeWord 0xD9003FDCAC808002 = some (.copy c0 (.c 18) (.c 4) 1 0 0 .pkg true) := by decide
/-- MTX (12). -/
theorem test_decode_mma : decodeWord 0xE1023F8504001214 = some (.mma { c0 with setf := 2 } (g 20) (g 32) (.lane .e2m1) 0 1 .core) := by
  decide
/-- PHY (13). -/
theorem test_decode_sort : decodeWord 0xEC003FDD2C802002 = some (.sort c0 (.c 20) (.c 4) 2 .pkg true) := by decide
theorem test_decode_qlu : decodeWord 0xED003F8200005000 = some (.qlu c0 (g 8) (g 0) (some 5) false) := by decide
/-- LCH (14). -/
theorem test_decode_lnch : decodeWord 0xF4023F8280800002 = some (.lnch { c0 with setf := 2 } (g 10) (g 4) true) := by decide
/-- SYS (15). -/
theorem test_decode_rdsr : decodeWord 0xFB003F8140000004 = some (.rdsr c0 (g 5) 4) := by decide
theorem test_decode_tret : decodeWord 0xF8803F8000000001 = some (.tret c0 .skip) := by decide
/-- XCH: `VOTE.any g3, g4`: OPC 0x148, PG 127, DST 3, SA 4, MOD 1 (R173). -/
theorem test_decode_vote : decodeWord 0xA4003F80C0800001 = some (.vote c0 (g 3) (g 4) .any) := by decide
/-- Codes and fields that no instruction has: ILLINSN (R51, R60). -/
theorem test_decode_refused : [0, 0x0A803F8000000000, 0xFFFFFFFFFFFFFFFF, 0x00803F8000000001, 0x00803F0000000000].all
    (fun w => (decodeWord w).isNone) = true := by decide

-- A state in which an instruction issues: a quad of four running lanes of one gang of one team, on core 0, bay 0 (log entry 12)

/-- The gang in issue at a NOP, its registers as `f` leaves them. -/
def s0 : State := { State.reset.withFetchWord 64 0x00803F8000000000 with focus := some (0, 0), agenda := [] }
def withTeam (f : Team → Team) (s : State) : State := modTeam s 0 f
def withGang (f : Gang → Gang) (s : State) : State := modGang s 0 0 f
def withLanes (f : Lane → Lane) (s : State) : State := withGang (fun x => { x with lanes := x.lanes.map (fun l => if l.live then f l else l) }) s
def withLane (i : Nat) (f : Lane → Lane) (s : State) : State := modLane s 0 0 i f
def withCore (f : Core → Core) (s : State) : State := modCore s 0 f
def withMgmt (f : Mgmt → Mgmt) (s : State) : State := { s with mgmt := f s.mgmt }
/-- g registers of every lane. -/
def regs (l : List (Nat × Word)) (s : State) : State :=
  withLanes (fun x => l.foldl (fun x r => { x with regs := tput 0 x.regs r.1 r.2 }) x) s

/-- Does an instruction pass the checks of R62, and does `extra` hold of it? -/
def meets (s : State) (c : Common) (f : Front) (own : Sys2Proof.Machine.View → Option FaultInfo) (extra : Sys2Proof.Machine.View → Bool) : Bool :=
  match issueView s c with
  | none => false
  | some v =>
    (match findGang s v.iss.team v.iss.gang with
      | some x => x.lanes.length == 32
      | none => false) &&
    v.iss.group.all (fun i => decide (i < 32)) && decide v.iss.group.Nodup && (nameFault v c f).isNone && (own v).isNone &&
    !timingLate v c f && decide (c.setf = 0 ∨ v.gang.flag c.setf < 63) && (popFault s v f).isNone && (pushFault s v f).isNone && extra v

theorem passes_of {s : State} {c : Common} {f : Front} {own : Sys2Proof.Machine.View → Option FaultInfo}
    {extra : Sys2Proof.Machine.View → Bool} (h : meets s c f own extra = true) : ∃ v, Passes s c f own v ∧ extra v = true := by
  unfold meets at h
  split at h
  · cases h
  · next v hv =>
    simp only [Bool.and_eq_true, decide_eq_true_eq, List.all_eq_true, Option.isNone_iff_eq_none, Bool.not_eq_true'] at h
    obtain ⟨⟨⟨⟨⟨⟨⟨⟨⟨h1, h2⟩, h3⟩, h4⟩, h5⟩, h6⟩, h7⟩, h8⟩, h9⟩, h10⟩ := h
    split at h1
    · next x hx => exact ⟨v, ⟨hv, ⟨⟨x, hx, by simpa using h1⟩, h2, h3⟩, h4, h5, h6, h7, h8, h9⟩, h10⟩
    · cases h1

/-- One witness: a state, the common fields, what the instruction names, its own checks, and the rest of the hypotheses. -/
structure Wit where
  s : State := s0
  c : Common := c0
  f : Front
  own : Sys2Proof.Machine.View → Option FaultInfo := noOwn
  extra : Sys2Proof.Machine.View → Bool := fun _ => true

def Wit.ok (w : Wit) : Bool := meets w.s w.c w.f w.own w.extra
/-- The hypotheses of a clause are met together. -/
def Wit.Met (w : Wit) : Prop := ∃ v, Passes w.s w.c w.f w.own v ∧ w.extra v = true
theorem met {l : List Wit} (h : l.all Wit.ok = true) : ∀ w ∈ l, w.Met := fun w hw => passes_of (List.all_eq_true.mp h w hw)

def n1 (k : Nat) : List Opnd := (List.range k).map (fun i => o1 (g (2 * i + 2)))
def n2 (k : Nat) : List Opnd := (List.range k).map (fun i => o2 (g (2 * i + 2)))
def quad4 : Opnd := { name := g 4, words := 4 }

-- Witnesses of the instruction statements: one for each clause

theorem wit_integer : ∀ w ∈ ([{ f := names (n1 1) (d1 (g 1)) }, { f := names (n2 1) (d2 (g 20)) }, { f := names [] (d1 (g 1)) },
    { f := { dst := d1 (g 1), readsDst := true } }, { f := names (n1 2) (d1 (g 1)) }, { f := names (n1 3) (d1 (g 1)) },
    { f := names [o1 (g 2), o1 (g 3), o2 (g 4)] (d2 (g 20)) }, { f := names (n2 2) (d2 (g 20)) },
    { f := names (n2 3) (d2 (g 20)) }, { c := { c0 with setf := 12 }, f := names (n2 2) (d2 (g 20)) },
    { f := names [o2 (g 2), o1 (g 4), o1 (g 5)] (d2 (g 20)) }, { f := names (n1 2) none }, { f := names (n2 2) none },
    { f := { srcs := n1 2, dst := d1 (g 1), psrc := [127], perLane := true } }, { f := { psrc := [1, 127, 95] } },
    { f := { dst := d1 (g 1), psrc := bankPreds 2, perLane := true } }] : List Wit), w.Met := met (by decide)
theorem wit_float : ∀ w ∈ ([{ f := { srcs := n1 1, dst := d1 (g 1), perLane := true, readsFst := true } },
    { f := { srcs := n1 2, dst := d1 (g 1), readsDst := true } }, { f := names (o2 (g 2) :: []) (d1 (g 1)) },
    { f := names [o1 (g 2), o1 (g 3)] (d2 (g 20)) }, { f := names [{ name := g 4, words := 4 }, o2 (g 8)] (some { name := g 12, words := 4 }) }]
    : List Wit), w.Met := met (by decide)
theorem wit_exchange : ∀ w ∈ ([{ f := { srcs := n1 3, dst := d1 (g 1), perLane := true } }, { f := { srcs := n1 2, dst := d1 (g 1), perLane := true } },
    { f := { srcs := n1 1, dst := d1 (g 1), cOk := true } }, { f := { srcs := n2 1, dst := d2 (g 20), perLane := true } },
    { f := { srcs := n1 2, dst := d1 (g 1), perLane := true },
      own := ixOwn s0 { srcs := n1 2, dst := d1 (g 1), perLane := true } (.g 319) 0 }, { f := { srcs := n1 2, perLane := true } }] : List Wit), w.Met :=
  met (by decide)
/-- A port of the gang, as the clause in issue sees it. -/
def withPort (p : Nat) (b : Port) (s : State) : State :=
  withGang (fun x => { x with ports := x.ports.set p b }) (modBay s 0 0 (fun y => { y with issue := y.issue.map (fun i =>
    { i with ports := i.ports.set p b }) }))
def boundPort (mode : Nat) : Port := { Port.unbound with st := .bound, desc := mode }
/-- A second team on the core, with this gang. -/
def withGuest (x : Gang) (s : State) : State := { s with teams := s.teams ++ [{ placedTeam false with uid := 1, gangs := [x] }] }
def stopping (s : State) : State := withTeam (fun t => { t with preempting := true }) s
def holding (s : State) : State := withCore (fun k => { k with holder := some 0 }) s
/-- TVEC of context 0 is 0x8 (R369), and its team traps its memory faults. -/
def handled (s : State) : State := { s with mem := tput memDefault (tput memDefault s.mem 24 8) 32 8 }
def inHandler (s : State) : State := withLanes (fun l => { l with st := .trapped, handler := true, epc := 0x0008000000000010, eslot := 1 }) s

def reachB (s : State) (lanes : List Nat) (addr : Nat → Nat) (align : Nat) (k : Serves) : Bool :=
  lanes.all (fun i => addr i % align == 0 && (servedFault s k (addr i)).isNone)
theorem reaches_of {s : State} {lanes : List Nat} {addr : Nat → Nat} {align : Nat} {k : Serves} (h : reachB s lanes addr align k = true) :
    Reaches s lanes addr align k := by
  intro i hi
  have := List.all_eq_true.mp h i hi
  simpa using this

theorem wit_transfers : ∀ w ∈ ([
    { f := names [] none, extra := fun v => (v.iss.pc + BitVec.ofInt 64 (8 * -1)).toNat % 8 == 0 && !v.team.stopping },
    { f := names (n2 1) none, own := namesOwn [g 2], extra := fun v => v.active.all (fun i => (v.src2 s0.fresh i (g 2)).toNat % 8 == 0) },
    { f := names [] (d2 (g 62)) },
    { f := names (n2 1) (d2 (g 2)), own := namesOwn [g 2], extra := fun v => v.active.all (fun i => (v.src2 s0.fresh i (g 2)).toNat % 8 == 0) }]
    : List Wit), w.Met := met (by decide)
theorem wit_arrivals : ∀ w ∈ ([
    { f := names [] none, extra := fun v => !v.team.stopping && v.gang.chunks == 0 },
    { s := stopping s0, f := names [] none, extra := fun v => v.team.stopping }] : List Wit), w.Met := met (by decide)
theorem wit_chunks : ∀ w ∈ ([
    { f := { srcs := n1 1, allowQ := false }, extra := fun v => v.gang.phase.length == 8 },
    { f := {}, own := acqxOwn 0, extra := fun v => decide (0 ≤ v.gang.chunks) },
    { f := {}, own := acqxOwn 1, extra := fun v => decide (v.gang.chunks < 1) && v.active != [] && chunksFit s0 v.core v.bay v.iss.team v.g 1 },
    { s := withGuest { placedGang with chunks := 48 } s0, f := {}, own := acqxOwn 1, extra := fun v => decide (v.gang.chunks < 1) && !v.team.stopping &&
      !chunksFit (withGuest { placedGang with chunks := 48 } s0) v.core v.bay v.iss.team v.g 1 },
    { s := withGang (fun x => { x with chunks := 1 }) s0, f := {}, extra := fun v => decide (0 < v.gang.chunks) && v.active != [] },
    { f := {}, extra := fun v => decide (v.gang.chunks ≤ 0) }, { f := {}, own := acqxOwn 1, extra := fun v => v.active != [] }] : List Wit), w.Met :=
  met (by decide)
theorem wit_timelines : ∀ w ∈ ([
    { f := names (n2 1) none, own := namesOwn [g 2],
      extra := fun v => v.active.all (fun i => decide ((v.src2 s0.fresh i (g 2)).toNat ≤ (v.team.ctxOf 7).tl.toNat)) },
    { s := regs [(2, 1)] s0, f := names (n2 1) none, own := namesOwn [g 2], extra := fun v => !v.team.stopping &&
      v.active.all (fun i => decide ((v.team.ctxOf 7).tl.toNat < (v.src2 s0.fresh i (g 2)).toNat)) },
    { f := names (n2 2) none, own := namesOwn [g 2, g 4], extra := fun v => !v.team.stopping &&
      reachB s0 v.active (fun i => (v.src2 s0.fresh i (g 4)).toNat) 8 .all }] : List Wit), w.Met := met (by decide)

/-- The hypotheses of a memory instruction at address 0 of home 0, or at `a`. -/
def memWit (srcs : List Opnd) (d : Option Dst) (helpers : Bool) (align : Nat) (k : Serves) (s : State := s0) (off : Int := 0) : Wit :=
  let f := names (srcs ++ addrSrcs (g 2) true) d
  { s := s, f := { f with allowQ := false }, own := baseOwn (g 2) true,
    extra := fun v => reachB s (v.actors f helpers) (fun i => v.addr s.fresh i (g 2) true off) align k && v.actors f helpers != [] }

theorem wit_memory : ∀ w ∈ [memWit [] (d1 (g 8)) true 4 .all, memWit [] (some { name := g 8, words := 4 }) true 16 .all (off := -16 + 16),
    memWit [o1 (g 8)] none false 1 .all (off := 1048575), memWit [o1 (g 8)] (d1 (g 9)) false 4 .noHost, memWit [o2 (g 8)] (d2 (g 10)) false 8 .noHost,
    memWit [{ name := g 8, words := 4 }] (d2 (g 12)) false 8 .noHost, memWit [o1 (g 8)] none false 64 .package,
    memWit [] (d2 (g 8)) false 64 .package, memWit [] (d2 (g 8)) true 4 .package, memWit [] (d1 (g 8)) false 128 .package,
    memWit [{ name := g 8, words := 4 }] (d1 (g 12)) false 128 .package, memWit [] (d1 (g 8)) false 64 .all, memWit [] (d1 (g 8)) false 128 .all,
    memWit [{ name := g 8, words := 8 }] (d1 (g 16)) false 32 .all, memWit [{ name := g 8, words := 4 }] (d1 (g 12)) false 128 .all], w.Met :=
  met (by decide)
/-- Per-lane memory of one word: the lowest offset and the highest (R185). -/
theorem wit_private : ∀ w ∈ ([
    { s := withTeam (fun t => { t with ps := 4 }) s0, f := { names (n1 1) (d1 (g 8)) with allowQ := false },
      extra := fun v => v.active.all (fun i => decide (v.laneOff 1 i (g 2) 0 % 4 = 0) && decide (0 ≤ v.laneOff 1 i (g 2) 0) && decide (v.laneOff 1 i (g 2) 0 + 4 ≤ v.team.ps)) }]
    : List Wit), w.Met := met (by decide)
theorem wit_order : ∀ w ∈ ([
    { f := {} }, { f := { allowQ := false } }] : List Wit), w.Met := met (by decide)

theorem wit_streams : ∀ w ∈ ([
    { f := names [o2 (.c 4)] none, own := descOwn (.q 15) (.c 4),
      extra := fun v => v.active != [] && v.gang.ports.length == 16 && reachB s0 (v.active.take 1) (fun i => (v.src2 s0.fresh i (.c 4)).toNat) 64 .all &&
      v.iss.slot == v.iss.ni },
    { f := {}, own := portOwn (.q 15), extra := fun v => v.active != [] && v.gang.ports.length == 16 },
    { s := withPort 3 (boundPort 0) s0, f := { dst := d1 (g 1), perLane := true, allowQ := false }, own := boundOwn (.q 3) },
    { s := withPort 3 (boundPort 3) s0, f := { srcs := n1 1, allowQ := false }, own := boundOwn (.q 3),
      extra := fun v => v.iss.rebind.all (fun y => y.1 != 3) && (v.iss.ports.getD 3 Port.unbound).isRing },
    { s := withPort 3 (boundPort 4) s0, f := {}, own := sdrainOwn (.q 3) true }, { s := withPort 3 (boundPort 1) s0, f := {}, own := sdrainOwn (.q 3) false }]
    : List Wit), w.Met := met (by decide)
theorem wit_commands : ∀ w ∈ ([
    { f := {}, extra := fun v => decide (7 < v.team.ectx.length) && decide ((ctxAt s0 v 7).issued.toNat + 1 < 2 ^ 64) && v.acting != [] },
    { f := { dst := d1 (g 1), allowQ := false } }, { f := { dst := d2 (g 2), allowQ := false } },
    { s := holding s0, f := { srcs := [quad4], dst := d1 (g 1), allowQ := false },
      own := fun u => (namesOwn [g 4] u).orElse (fun _ => claimOwn (holding s0) u),
      extra := fun v => decide (7 < v.team.ectx.length) && decide ((ctxAt s0 v 7).issued.toNat + 1 < 2 ^ 64) },
    { s := holding s0, f := { dst := d1 (g 1), allowQ := false }, own := claimOwn (holding s0) },
    { s := holding s0, f := mmaFront (holding s0) (g 1) (g 32) (.lane .e2m1), own := mmaOwn (holding s0) (g 32) (.lane .e2m1) },
    { s := holding s0, f := mmaFront (holding s0) (g 1) (g 32) (.hdl 63), own := mmaOwn (holding s0) (g 32) (.hdl 63) },
    { s := holding s0, f := { srcs := n1 1, dst := some { name := g 12, words := 4 }, perLane := true, allowQ := false }, own := claimOwn (holding s0) },
    { s := holding s0, f := { srcs := [quad4, o1 (g 2)], dst := d1 (g 1), allowQ := false }, own := mwrOwn (holding s0) (g 4) false },
    { s := holding s0, f := { srcs := [o1 (g 4)], dst := d1 (g 1), allowQ := false }, own := mwrOwn (holding s0) (g 4) true },
    { s := holding s0, f := { srcs := [o2 (g 4)], dst := d1 (g 1), allowQ := false }, own := claimOwn (holding s0) },
    { s := holding s0, f := { srcs := addrSrcs (g 2) true, dst := d1 (g 1), allowQ := false },
      own := fun u => (baseOwn (g 2) true u).orElse (fun _ => claimOwn (holding s0) u),
      extra := fun v => reachB (holding s0) (v.acting.take 1) (fun i => v.addr s0.fresh i (g 2) true 0) 64 .all }] : List Wit), w.Met := met (by decide)
theorem wit_blocks : ∀ w ∈ ([
    { f := { srcs := [quad4], dst := some { name := g 8, words := 5 }, perLane := true, allowQ := false }, own := invarOwn [g 8, g 4] },
    { f := { srcs := [{ name := g 16, words := 16 }], dst := some { name := g 32, words := 18 }, perLane := true, allowQ := false }, own := invarOwn [g 32, g 16] },
    { f := { srcs := [{ name := g 8, words := 5 }, o1 (g 1)], dst := d1 (g 2), perLane := true, allowQ := false }, own := invarOwn [g 2, g 8, g 1] },
    { f := { srcs := [o1 (g 1), o1 (g 3)], dst := d1 (g 2), perLane := true, allowQ := false }, own := invarOwn [g 2, g 1, g 3] }] : List Wit), w.Met :=
  met (by decide)
/-- The pager's context (R369, R380). -/
def pager (s : State) : State := { s with mem := tput memDefault s.mem 32 7 }
theorem wit_system : ∀ w ∈ ([
    { f := { srcs := n2 1, dst := d1 (g 1), allowQ := false }, own := namesOwn [g 2], extra := fun v =>
      reachB s0 (v.acting.take 1) (fun i => (v.src2 s0.fresh i (g 2)).toNat) 128 .all && v.acting != [] },
    { s := pager s0, f := { srcs := [quad4], dst := d1 (g 1), allowQ := false },
      own := fun u => (namesOwn [g 4] u).orElse (fun _ => if ctxPager (pager s0) u.team.ctx then none else some (u.fault .priv)) },
    { s := pager s0, f := { srcs := [o1 (g 2)], dst := d1 (g 1), allowQ := false },
      own := fun u => if ctxPager (pager s0) u.team.ctx then none else some (u.fault .priv) },
    { s := inHandler s0, f := { srcs := [o1 (g 2)], allowQ := false }, extra := fun v => v.active.all (fun i => (v.gang.lane i).handler) },
    { f := { srcs := [o1 (g 2), o2 (g 4)], allowQ := false }, extra := fun v => decide (coreDie v.core < s0.dies.length) && v.acting != [] },
    { f := {}, extra := fun v => decide (coreDie v.core < s0.dies.length) && v.acting != [] }] : List Wit), w.Met := met (by decide +kernel)
theorem wit_traps : ∀ w ∈ ([
    { s := handled s0, f := {}, extra := fun v => v.active != [] && v.active.all (fun i => !(laneOf (handled s0) v i).trapped) &&
      handlerFor (handled s0) v.team.ctx .swtrap == some 8 },
    { f := {}, extra := fun v => v.active != [] && v.team.ending.isNone && handlerFor s0 v.team.ctx .swtrap == none },
    { s := inHandler (handled s0), f := {}, extra := fun v => v.active != [] && v.team.ending.isNone && v.active.any (fun i => (laneOf (inHandler (handled s0)) v i).trapped) },
    { c := { c0 with guard := .pred 95 false }, f := {}, extra := fun v => v.active == [] }] : List Wit), w.Met := met (by decide +kernel)

/-- Does a check of names fail, and is there a handler at `tv`, or none? -/
def fails (s : State) (f : Front) (tv : Option DWord) : Bool :=
  match issueView s c0 with
  | none => false
  | some v =>
    match nameFault v c0 f with
    | none => false
    | some i =>
      v.iss.group.all (fun j => !(laneOf s v j).trapped) && v.team.ending.isNone && traps i.cause && (handlerFor s v.team.ctx i.cause == tv)

/-- A check of stage 3 that fails: a q register without a bound port, with a handler and without one (R62, R377); a result that is read too
early; a full flag; an address that is not aligned. -/
theorem wit_checks : fails (handled s0) (names [o1 (.q 0), o1 (g 1)] (d1 (g 2))) (some 8) = true ∧
    fails s0 (names [o1 (.q 0), o1 (g 1)] (d1 (g 2))) none = true := by decide +kernel
theorem wit_timing : (match issueView (withGang (fun x => { x with ready := [(0, 9)] }) s0) c0 with
    | some v => timingLate v c0 (names [o1 (g 0), o1 (g 1)] (d1 (g 2)))
    | none => false) = true := by decide
theorem wit_full_flag : (match issueView (withGang (fun x => { x with flags := [(1, 63)] }) s0) { c0 with setf := 1 } with
    | some v => v.gang.flag 1 == 63 && !timingLate v c0 (names (n1 1) (d1 (g 1)))
    | none => false) = true := by decide
theorem wit_unaligned : ∀ w ∈ ([
    { s := regs [(2, 1)] (handled s0), f := { names (addrSrcs (g 2) true) (d1 (g 8)) with allowQ := false }, own := baseOwn (g 2) true,
      extra := fun v => v.active.any (fun i => v.addr s0.fresh i (g 2) true 0 % 4 != 0) && handlerFor (handled s0) v.team.ctx .align == some 8 }]
    : List Wit), w.Met := met (by decide +kernel)

-- Results that the spec works out; the source of each stands before it

def after (i : Instr) (s : State) : State :=
  match exec i s with
  | .next t => t
  | _ => s
/-- A register of a lane after an instruction. -/
def lanesReg (t : State) (i n : Nat) : Word := ((findLane t 0 0 i).map (fun l => l.reg n)).getD 0xDEADBEEF
def lanePred (t : State) (i n : Nat) : Bool := ((findLane t 0 0 i).map (fun l => l.pred n)).getD false
def laneFst (t : State) (i : Nat) : Nat := ((findLane t 0 0 i).map (fun l => l.fst.toNat)).getD 99
/-- What an instruction that reads g2, g3 and g4 as these values writes to g1. -/
def out (i : Instr) (a b e : Word) : Word := lanesReg (after i (regs [(2, a), (3, b), (4, e)] s0)) 0 1
def fstOf (i : Instr) (a b e : Word) : Nat := laneFst (after i (regs [(2, a), (3, b), (4, e)] s0)) 0

/-- 05, Worked results. -/
theorem test_iadd : out (.iadd c0 (g 1) (g 2) (g 3) .wrap) 0x7FFFFFFF 1 0 = 0x80000000 ∧ out (.iadd c0 (g 1) (g 2) (g 3) .ssat) 0x7FFFFFFF 1 0 = 0x7FFFFFFF := by decide +kernel
theorem test_isub : out (.isub c0 (g 1) (g 2) (g 3) .nsat) 3 5 0 = 0 := by decide +kernel
theorem test_imulh : out (.imulh c0 (g 1) (g 2) (g 3) .s) 0x80000000 0x80000000 0 = 0x40000000 ∧ out (.imulh c0 (g 1) (g 2) (g 3) .n) 0xFFFFFFFF 0xFFFFFFFF 0 = 0xFFFFFFFE := by decide +kernel
theorem test_iabs : out (.iabs c0 (g 1) (g 2) .s32) 0x80000000 0 0 = 0x80000000 ∧ out (.iabs c0 (g 1) (g 2) .s32sat) 0x80000000 0 0 = 0x7FFFFFFF := by decide +kernel
theorem test_sar : out (.sar c0 (g 1) (g 2) (g 3) false) 0x80000000 40 0 = 0xFFFFFFFF := by decide +kernel
theorem test_rot : out (.rot c0 (g 1) (g 2) (g 3) false) 0x80000001 33 0 = 3 := by decide +kernel
theorem test_bfx : out (.bfx c0 (g 1) (g 2) (g 3) .s) 0x0000F0F0 0x0404 0 = 0xFFFFFFFF ∧ out (.bfx c0 (g 1) (g 2) (g 3) .n) 0x0000F0F0 0x1C1C 0 = 0 := by decide +kernel
theorem test_clz : out (.clz c0 (g 1) (g 2) false) 0 0 0 = 32 := by decide +kernel
/-- R115. -/
theorem test_movk : lanesReg (after (.movk c0 (g 9) 0x1234 true false) (after (.movk c0 (g 9) 0x5678 false true) { s0 with agenda := [] })) 0 9 = 0x5678 ∧
    lanesReg (after (.movk c0 (g 9) 0x1234 true false) (regs [(9, 0x5678)] s0)) 0 9 = 0x12345678 := by decide +kernel
/-- R128. -/
theorem test_lea : (let t := after (.lea c0 (g 20) (g 2) (g 4) (g 5) 8 .s) (regs [(2, 0x12345600), (4, 0xFFFFFFFF), (5, 16)] s0)
    (lanesReg t 0 20, lanesReg t 0 21)) = (0x12345608, 0) := by decide +kernel
/-- R125: .r by 32 gives Hi, .l by 32 gives Lo. -/
theorem test_funl : out (.funl c0 (g 1) (g 2) (g 3) (g 4) false) 5 7 32 = 7 ∧ out (.funl c0 (g 1) (g 2) (g 3) (g 4) true) 5 7 99 = 5 := by decide +kernel
/-- R123: table 0xCA selects b where a is 1 and d elsewhere. -/
theorem test_logt : lanesReg (after (.logt c0 (g 1) (g 2) (g 3) 0xCA) (regs [(1, 0x0F0F0F0F), (2, 0xFFFF0000), (3, 0x12345678)] s0)) 0 1 = 0x12340F0F := by decide +kernel
/-- R131: PLOG p4, p1, p127, 0xFA gives p4 OR p1. -/
theorem test_plog : lanePred (after (.plog c0 4 1 127 0xFA) (withLanes (fun l => l.setPred 1 true) s0)) 0 4 = true ∧ lanePred (after (.plog c0 4 1 127 0xFA) s0) 0 4 = false := by decide +kernel
/-- R129. -/
theorem test_icmp : lanePred (after (.icmp c0 3 (g 2) (g 3) .lt .s32) (regs [(2, 0xFFFFFFFF), (3, 1)] s0)) 0 3 = true ∧ lanePred (after (.icmp c0 3 (g 2) (g 3) .lt .n32) (regs [(2, 0xFFFFFFFF), (3, 1)] s0)) 0 3 = false := by decide +kernel
/-- R161. -/
theorem test_fscl : out (.fscl c0 (g 1) (g 2) (g 3) .rn) 0x3FC00000 0xFFFFFF6B 0 = 2 ∧ fstOf (.fscl c0 (g 1) (g 2) (g 3) .rn) 0x3FC00000 0xFFFFFF6B 0 = 24 := by decide +kernel
/-- R159. -/
theorem test_frnd : out (.frnd c0 (g 1) (g 2) .rn) 0xBE99999A 0 0 = 0x80000000 ∧ out (.frnd c0 (g 1) (g 2) .rn) 0x40200000 0 0 = 0x40000000 := by decide +kernel
/-- R155. -/
theorem test_ffma_invalid : fstOf (.ffma c0 (g 1) (g 2) (g 3) (g 4) .rn) 0 0x7F800000 0x7FC00000 = 1 := by decide +kernel
/-- R156. -/
theorem test_fmin_zeros : out (.fmin c0 (g 1) (g 2) (g 3)) 0 0x80000000 0 = 0x80000000 ∧ out (.fmin c0 (g 1) (g 2) (g 3)) 0x7FC00000 5 0 = 5 := by decide +kernel
/-- R140. -/
theorem test_cvt_e4m3 : out (.cvt c0 (g 1) (g 2) (g 0) (.fl .e4m3) (.fl .f32) .rn false) 0x3F880000 0 0 = 0x38 ∧
    out (.cvt c0 (g 1) (g 2) (g 0) (.fl .e4m3) (.fl .f32) .rn false) 0x4788B800 0 0 = 0x7E ∧ fstOf (.cvt c0 (g 1) (g 2) (g 0) (.fl .e4m3) (.fl .f32) .rn false) 0x3A83126F 0 0 = 24 := by decide +kernel
/-- R140. -/
theorem test_cvt_e5m2 : out (.cvt c0 (g 1) (g 2) (g 0) (.fl .e5m2) (.fl .f32) .rn false) 0x4788B800 0 0 = 0x7C ∧
    out (.cvt c0 (g 1) (g 2) (g 0) (.fl .e5m2) (.fl .f32) .rn true) 0x7F800000 0 0 = 0x7B ∧ fstOf (.cvt c0 (g 1) (g 2) (g 0) (.fl .e5m2) (.fl .f32) .rn true) 0x7F800000 0 0 = 4 := by decide +kernel
/-- 06, the fragment after R168. -/
theorem test_cvt_rx : out (.cvt c0 (g 1) (g 2) (g 3) (.fl .e4m3) (.fl .f32) .rx false) 0x3F880000 0x462EEC2D 0 = 0x38 ∧
    out (.cvt c0 (g 1) (g 2) (g 3) (.fl .e4m3) (.fl .f32) .rx false) 0x3F880000 0x88676DEC 0 = 0x39 := by decide +kernel
/-- R152. -/
theorem test_xrng : (let t := after (.xrng c0 (g 8) (g 4) (g 12)) s0
    (lanesReg t 0 8, lanesReg t 0 9, lanesReg t 0 10, lanesReg t 0 11)) = (0x462EEC2D, 0x0CD92B39, 0x88676DEC, 0xC5E89E1D) := by decide +kernel
/-- 06, the fragment after R168. -/
theorem test_xrngf : out (.xrngf c0 (g 1) (g 2)) 0x462EEC2D 0 0 = 0x3E8C5DD8 := by decide +kernel
/-- 13, Worked example: position 0 and 3 of the block, its log and p5. -/
theorem test_qlu : (let rows : List (List (Nat × Word)) := [[(0, 0x40000000), (1, 0x3F800000)], [(0, 0x40800000), (1, 0x3F800000)],
      [(2, 0x3F800000), (3, 0x3F800000)], [(2, 0x3F800000), (3, 0x3F802000)]]
    let s := (List.range 4).foldl (fun s i => withLane i (fun l => (rows.getD i []).foldl (fun l r => { l with regs := tput 0 l.regs r.1 r.2 }) l) s) s0
    let t := after (.qlu c0 (g 8) (g 0) (some 5) false) s
    (lanesReg t 0 8, lanesReg t 1 9, lanesReg t 3 10, lanesReg t 3 11, lanesReg t 2 12, lanePred t 0 5)) =
    (0x40800000, 0x3F000000, 0x3F800000, 0x3A800000, 0x0FF608E5, true) := by decide +kernel
/-- 08, Exact-sum cells: 2^24, then 1, then −2^24; the sum reads back as 1.0. -/
theorem test_exact_sum : cellAdd 0 0x4B800000 / 2 ^ 128 % 2 ^ 64 = 0x0100000000000000 ∧
    cellAdd (cellAdd 0 0x4B800000) 0x3F800000 / 2 ^ 128 % 2 ^ 64 = 0x0100000100000000 ∧
    (cellRead (cellAdd (cellAdd (cellAdd 0 0x4B800000) 0x3F800000) 0xCB800000)).1 = 0x3F800000 := by decide +kernel
/-- R165: .e2m1 has eight fields of four bits. -/
theorem test_pack : lanesReg (after (.pack c0 (g 1) (g 2) (g 3) .e2m1) (regs [(1, 0xFFFFFFFF), (2, 0x3F800000), (3, 9)] s0)) 0 1 = 0xFFFFFF2F := by decide +kernel
/-- 07, Worked example: seven ordinary lanes and a helper, lane 5 inactive (positions 0, 4, 6 and 7). -/
theorem test_exchange : (let lane := fun (i : Nat) => { Lane.absent with st := .running, pc := placedPc, lid := i, helper := i == 7, regs := [(1, BitVec.ofNat 32 (10 * i))], preds := if i = 5 then 0 else 4 }
    let s := withGang (fun x => { x with lanes := (List.range 8).map (fun i => if i = 0 then { lane 0 with regs := [] } else lane i) ++ List.replicate 24 Lane.absent })
      (modBay s0 0 0 (fun y => { y with issue := y.issue.map (fun i => { i with group := List.range 8 }) }))
    let c := { c0 with guard := .pred 2 false }
    ([0, 4, 6, 7].map (fun i => (lanesReg (after (.shup c (g 2) (g 1) (.sp .one) (.sp .zero) 1) s) i 2, lanePred (after (.shup c (g 2) (g 1) (.sp .one) (.sp .zero) 1) s) i 1)),
     [0, 4, 6, 7].map (fun i => lanesReg (after (.gscan c (g 4) (g 1) (.sp .zero) .add) s) i 4), lanesReg (after (.gred c (g 5) (g 1) .add) s) 7 5)) =
    ([(0, false), (30, true), (0, false), (60, true)], [0, 60, 100, 160], 160) := by decide +kernel

-- Hypotheses of the statements about the steps of the table: a state for each clause, at the ends of a range where it has one

/-- The firmware runs. -/
def up (s : State) : State := withMgmt (fun m => { m with bootst := 2, bootOk := [true, true] }) s
/-- An address in Pewter of die 0. -/
def pw : Nat := 2 ^ 51 + 0x1000
def pwa : DWord := BitVec.ofNat 64 pw
def ln : Line := lineOf 0 pw
def live0 : Team := (findTeam s0 0).getD (placedTeam false)
/-- One entry in lane 0's queue, of an operation of flag 1. -/
def queued (k : MemKind) (s : State := s0) : State := withLane 0 (fun l => { l with queue := [{ LaneOp.plain k with op := 5 }] }) s
def part (s : State) (p : Part → Bool) : Bool := (partOf s 0 0 0 0).any p
def dst (w : Nat) : Dst := { name := g 8, words := w }
def blockAll (w : Wait) (s : State := s0) : State := withLanes (fun l => { l with st := .blocked w }) s
def noBay (s : State) : State := modBay s 0 0 (fun b => { b with issue := none })

theorem wit_running : running (up State.reset) = true ∧ running (withMgmt (fun m => { m with bootst := 4 }) State.reset) = true ∧
    running State.reset = false := by decide +kernel
/-- The ends of the ranges of RTI and PCAP (R388, R413), and of a chain's LCAP. -/
theorem wit_ranges : [16, 4096].all (fun n => decide (16 ≤ fld n 12 0 ∧ fld n 12 0 ≤ 4096)) ∧
    [15, 4097].all (fun n => !decide (16 ≤ fld n 12 0 ∧ fld n 12 0 ≤ 4096)) ∧ [500, 2800].all (fun n => decide (500 ≤ fld n 11 0 ∧ fld n 11 0 ≤ 2800)) ∧
    [499, 2801].all (fun n => !decide (500 ≤ fld n 11 0 ∧ fld n 11 0 ≤ 2800)) := by decide
theorem wit_device_number : (∀ k ∈ State.reset.chains, k.en = false) ∧ (∀ x ∈ State.reset.teams, x.core = none) ∧ ∃ x ∈ s0.teams, x.core ≠ none := by
  refine ⟨by decide +kernel, by decide, ?_⟩
  exact ⟨placedTeam false, by decide +kernel, by decide⟩
def ringed : State := modDie s0 1 (fun d => { d with
  events := { d.events with base := 0x1000, lcap := 4, buffer := [(2, 7)] },
  faults := { d.faults with base := 0x2000, lcap := 16, waiting := [(0, 8)] } })
theorem wit_rings : (dieOf ringed 1).events.configured = true ∧ (dieOf ringed 1).events.full = false ∧ (dieOf ringed 1).events.buffer = [(2, 7)] ∧
    (dieOf ringed 1).faults.configured = true ∧ (dieOf ringed 1).faults.full = false ∧ (dieOf ringed 1).faults.buffer = [] ∧
    (dieOf ringed 1).faults.waiting = [(0, 8)] ∧ 1 < ringed.dies.length := by decide +kernel
theorem wit_attest : (withMgmt (fun m => { m with attBusy := true }) s0).mgmt.attBusy = true := by decide +kernel
theorem wit_chain_words : (up s0).chains.length = 16 ∧ (up s0).timed.length = 64 ∧
    [10000, 9999].map (fun n => decide (10000 ≤ n)) = [true, false] := by decide +kernel
/-- A launch of one team of a quad, which waits for a place (R341). -/
def rec4 : Nat := 2 ^ 51 + 0x10001 * 2 ^ 64 + 2 ^ 96 + 3 * 2 ^ 116 + 2 ^ 128
def launched (r : Nat) (id : Nat) : Launch :=
  { id := id, raw := r, chain := .host 0, no := 1, ctx := 0, depth := 1, die := 0, order := id, resident := true, nores := false, admitted := 0,
    retired := 0, faulted := 0, fcode := 0, fteam := 0, bandsDone := 0, bandsDue := [], crecBad := false, killed := false, killTid := none, epoch := 0 }
/-- A launch of chain 0 that entry 63 started last. -/
def killable : State :=
  let s := up s0
  { s with launches := [launched rec4 9], timed := s.timed.set 63 { Timed.reset with started := some 9 } }
theorem wit_kills : (up s0).mgmt.killBusy = false ∧ (up s0).mgmt.keyBusy = false ∧ ([2, 1, 3].map (fun n => fld n 1 0)) = [2, 1, 3] ∧
    ([0x100, 0x200].map (fun n => fld n 9 8)) = [1, 2] ∧ (∀ l ∈ (up s0).launches, l.chain ≠ .host 15) ∧
    ((up s0).timed.getD 63 Timed.reset).started = none ∧ (withMgmt (fun m => { m with keyBusy := true }) s0).mgmt.keyBusy = true := by decide +kernel
theorem wit_kills_found : running killable = true ∧ killable.mgmt.killBusy = false ∧
    killable.launches.find? (fun l => l.chain == .host 0 && l.no % 2 ^ 32 == 1 && l.epoch == (killable.chains.getD 0 Chain.reset).epoch) = some (launched rec4 9) ∧
    findLaunch killable 9 = some (launched rec4 9) ∧ (launched rec4 9).killed = false ∧ (killable.timed.getD 63 Timed.reset).started = some 9 := by decide +kernel
theorem wit_keys : (∀ x ∈ (up s0).teams, x.ctx ≠ 255) ∧ (∃ x ∈ (up s0).teams, x.ctx = 0) ∧
    255 ∈ (withMgmt (fun m => { m with keys := [255] }) (up s0)).mgmt.keys ∧ 0 ∉ (up s0).mgmt.keys ∧ ∀ e ∈ s0.pieceKey, e.2 ≠ s0.mgmt.keyCtl + 1 := by
  decide +kernel
theorem wit_boot : State.reset.mgmt.bootOk = [false, false] ∧ State.reset.mgmt.bootst < 2 ∧
    (withMgmt (fun m => { m with bootst := 3 }) State.reset).mgmt.bootst = 3 ∧
    (withMgmt (fun m => { m with bootOk := [true, false], bootst := 1 }) State.reset).mgmt.bootOk = [(1 : Nat) == 1, (1 : Nat) == 0] := by decide +kernel
theorem wit_partition : (withMgmt (fun m => { m with partPending := some 4 }) State.reset).mgmt.partPending = some 4 ∧
    (withMgmt (fun m => { m with partPending := some 4 }) State.reset).teams = [] := by decide +kernel

-- Outside (16), errors and power
def errs {α : Type} : Except Cause α → Bool
  | .error _ => true
  | .ok _ => false
/-- The first 64 GiB of both dies' HBM, mapped in context 0 by one leaf each (R370, R371). -/
def mapped (s : State) : State :=
  { s with mem := [(2, 1), (10, 1), (0x10000, 0x47)].foldl (fun m (x : Nat × Byte) => tput memDefault m x.1 x.2) s.mem }
/-- Context 0 is valid, and its device addresses 0 on lie in Pewter. -/
def served : State := handled (up (withMgmt (fun m => { m with devValid := true }) s0))
theorem wit_outside : errs (outsideRead (up s0) 0 (((up s0).mgmt.hwDev + 0).toNat) 8) = true ∧ (up s0).mgmt.devValid = false ∧
    errs (outsideRead { served with mgmt := { served.mgmt with hwDev := pwa } } 0 pw 8) = false ∧ served.mgmt.devValid = true ∧
    senderOf s0 1 2 3 = none := by decide +kernel
def endpointed : State := withMgmt (fun m => { m with endpoints := [(5, 2 ^ 48 + 1 + 2 * 2 ^ 64 + 3 * 2 ^ 192)] }) (up s0)
/-- Datagrams and requests of 1 and of 128 bytes, in context 0: one that is refused, and one that is written. -/
theorem wit_datagram : senderOf endpointed 1 2 3 = some 0 ∧ errs (outsideWrite endpointed 0 0 [1]) = true ∧
    (let s := { served with mgmt := { served.mgmt with endpoints := endpointed.mgmt.endpoints } }
    senderOf s 1 2 3 = some 0 ∧ ([[1], List.replicate 128 7].all fun bs => pw % 128 + bs.length ≤ 128 && bs != [] && !errs (outsideWrite s 0 pw bs) &&
      (match locate s 0 pw .write false with
        | .ok loc => !channelFailed s (lineAddr loc.key)
        | .error _ => false)) = true) := by decide +kernel
/-- A host store that is refused and one that is made; a peer's load and store, at the ends of HBM. -/
theorem wit_requests : errs (outsideWrite { served with mgmt := { served.mgmt with hwDev := 0, hwCtx := 255 } } 255 0 [1]) = true ∧
    errs (outsideWrite served 0 pw [1]) = false ∧ (mapped served).mgmt.devValid = true ∧
    ([0, 1].all fun d => [0, 8].all fun o => !errs (outsideRead (mapped served) 0 (d * 2 ^ 50 + o) 8) && !errs (outsideWrite (mapped served) 0 (d * 2 ^ 50 + o) [1])) = true := by
  decide +kernel
theorem wit_peer_timeout : part (queued (.load (BitVec.ofNat 64 (0x800 * 2 ^ 50)) .b32 (dst 1))) (fun p =>
    p.op.kind.addr? == some (0x800 * 2 ^ 50) && decide (0x800 ≤ homeOf (0x800 * 2 ^ 50))) = true := by decide +kernel
theorem wit_resend : ({ s0 with clock := 20000 * (24 * 10 ^ 9), datagrams := [{ seq := 4, team := 0, e := 0, endpoint := 1, addr := 0, data := [], tries := 63, sentAt := 0 }] } : State).datagrams.any
      (fun d => d.seq == 4 && decide (d.tries < 64) && decide (d.sentAt + 20000 ≤ timeOf { s0 with clock := 20000 * (24 * 10 ^ 9) })) = true := by decide +kernel
theorem wit_errors : (dieOf s0 1).failedCh.contains 3 = false ∧ 1 < s0.dies.length ∧ live0.ending = none ∧ (dieOf s0 1).failed = false ∧
    (findTeam s0 0).isSome = true ∧ s0.mgmt.perfCur < 3 ∧ (1 : Nat) < (withMgmt (fun m => { m with capPoint := 2 }) s0).mgmt.capPoint := by decide +kernel
theorem wit_row_remap : ([15, 16].map (fun n => decide (16 ≤ tget 0 (dieOf (modDie s0 0 (fun d => { d with rowErrs := tput 0 d.rowErrs (rowKey 1 2) n })) 0).rowErrs (rowKey 1 2)))) =
    [false, true] := by decide +kernel

-- Issue, waits, gangs and teams (04)
def tracked (k : OpKind) (s : State := s0) : State :=
  withGang (fun x => { x with flags := [(12, 1)], ops := [{ id := 5, flag := 12, kind := k, lanes := [], also := [] }] }) s
theorem wit_completion : (findGang (tracked .mem) 0 0).any (fun x => x.ops.any (fun o => o.id == 5 && o.kind == .mem && o.lanes == [])) = true ∧
    (findGang (tracked .cmds) 0 0).any (fun x => x.ops.any (fun o => o.id == 5 && o.kind == .cmds && o.lanes == [])) = true ∧
    (findGang (tracked (.value { name := .g 319, words := 1 } [(3, ([7], 0))] [])) 0 0).any (fun x => x.ops.any (fun o => o.id == 5)) = true ∧
    live0.whereIs 3 = some (0, 3) ∧ (findLane s0 0 0 3).any Lane.live = true := by decide +kernel
def barOk (s : State) (b : Bar) : Bool :=
  let x := barGangs s b
  decide ((s.teams.map (·.uid)).Nodup) && x.1.any (fun y => (y.1.gang y.2).liveAt != []) &&
    x.1.all (fun y => (y.1.gang y.2).liveAt.all (fun i => (((y.1.gang y.2).lane i).arrived x.2).isSome))
theorem wit_barriers : barOk (blockAll (.barg .core)) (.gang 0 0) = true ∧ barOk (blockAll (.bart .die)) (.team 0) = true ∧
    barOk (blockAll (.barb .sys)) (.band 0 0) = true := by decide +kernel
theorem wit_regroup : (findTeam (blockAll .regrp) 0).any (fun t => t.core.isSome && t.ending.isNone && decide (t.perGang ≤ 8) &&
    t.gangs.all (fun g => !g.retired && g.lanes.length == 32 && g.lanes.all (fun l => !l.live || (l.arrived isRegrp).isSome) &&
      (List.range 12).all (fun n => g.flag (n + 1) == 0) && g.ready == []) && t.gangs.any (fun g => g.lanes.any Lane.live)) = true := by decide +kernel
theorem wit_grant : (let s := blockAll (.acqx 1)
    (oldestWaiter (acqxWaiters s 0 0)).any (fun w => w.1 == 0 && w.2.1 == 0 && findGang s 0 0 == some w.2.2 && w.2.2.acqxWant == some 1 &&
      decide (w.2.2.chunks < 1) && decide (1 ≤ w.2.2.chunks + freeChunks s 0 0))) = true := by decide +kernel
def reread (w : Wait) (v : Nat) : Bool :=
  (findTeam (blockAll w) 0).any (fun t => memWait ((t.gang 0).lane 0).st == memWait (.blocked w) && (memWait (.blocked w)).isSome &&
    (t.gang 0).parked == 0 && ((t.gang 0).lane 0).queue == [] &&
    (match (readWord (blockAll w) t 0 pwa).2 with
      | .ok x => decide ((v ≤ x) = (v = 0))
      | .error _ => false))
theorem wit_reread : reread (.tlMem pwa 0 .pkg) 0 = true ∧ reread (.tlMem pwa 1 .pkg) 1 = true ∧ reread (.tryMem pwa 0 .pkg 95 9) 0 = true ∧
    reread (.tryMem pwa 1 .pkg 0 9) 1 = true := by decide +kernel
theorem wit_interval : (findLane (blockAll (.tryTeam 7 1 95 0)) 0 0 0).any (fun l => l.st == .blocked (.tryTeam 7 1 95 0)) = true ∧
    0 ≤ (blockAll (.tryTeam 7 1 95 0)).cycle ∧ heldSince (blockAll (.tryTeam 7 1 95 0)) 0 0 0 = none ∧
    (let s := { blockAll (.tryTeam 7 1 95 9) with held := [(0, 3, 8)], cycle := 9 }
    (findLane s 0 0 3).any (fun l => l.st == .blocked (.tryTeam 7 1 95 9) && l.caughtUp) && heldSince s 0 0 3 == some 8 && decide (9 ≤ s.cycle)) = true := by
  decide +kernel
/-- Every core of the package is filled by the team's chunks, so that no place is free. -/
def crowded (l : Launch) (s : State) : State :=
  { s with launches := [l], dies := s.dies.map (fun d => { d with failed := true }) }

def wanting : State := crowded (launched (rec4 + 2 ^ 126) 9) (up s0)
theorem wit_preempt : (findTeam wanting 0).any (fun t => t.core.isSome && !t.preempting && t.ending.isNone &&
    wantsPlace wanting (fun l => decide (t.prio < recPrio l.raw))) = true := by
  decide +kernel
def halted4 : State := noBay (stopping (withLanes (fun l => { l with st := .stopped none }) (up s0)))
theorem wit_save : (findTeam halted4 0).any (fun t => t.core == some 0 && t.preempting && t.ending.isNone && t.stopped && (coreOf halted4 0).order == [] &&
    (teamRelease (writeBack halted4 t) 0).2) = true := by decide +kernel
def away (sw : Bool) : State := withTeam (fun t => { t with place := .away sw, preempting := false, watch := [(pwa, 1)] }) halted4
theorem wit_resume : ([false, true].all fun sw => (findTeam (away sw) 0).any (fun t => t.place == .away sw && mayResume (away sw) t 255 &&
    wordAt (away sw) t pwa != some 1 && t.watch == [(pwa, 1)] && ((t.gang 0).lane 3).st == .stopped none)) = true := by decide +kernel
def joining : State := crowded (launched rec4 9) (up (withLanes (fun l => { l with seen := some 0 }) (blockAll (.tlMem pwa 1 .pkg))))
theorem wit_swap : (findTeam joining 0).any (fun t => t.core.isSome && !t.preempting && t.ending.isNone && t.gangs.any (fun g => g.lanes.any Lane.live) &&
    t.gangs.all (fun g => g.lanes.all (fun l => !l.live || (!l.handler && l.joins.isSome && l.seen.isSome))) &&
    wantsPlace joining (fun l => l.die == t.die)) = true := by decide +kernel
def finished : State := noBay (withLanes (fun l => { l with st := .exited }) s0)
theorem wit_retire : (findTeam finished 0).any (fun t => t.core.isSome && t.ending.isNone && t.pend == [] && t.ectx.all (fun c => c.queue == []) &&
    t.gangs.all (fun g => !g.retired && g.lanes.all (fun l => !l.live) && (List.range 12).all (fun n => g.flag (n + 1) == 0))) = true ∧
    (findTeam (withGang (fun g => { g with retired := true }) finished) 0).any (fun t => t.gangs.all (fun g => g.retired && g.lanes.all (fun l => l.queue == [])) &&
      poolOf finished 0 == [] && !t.launching && (teamRelease (withGang (fun g => { g with retired := true }) finished) 0).2 &&
      (ctxRelease (teamRelease (withGang (fun g => { g with retired := true }) finished) 0).1 t).2) = true := by decide +kernel
def info0 (c : Cause) : FaultInfo :=
  { cause := c, kind := 1, gang := 0, lane := 0, slot := 0, pc := 0, addr := pwa, insn := 0, port := none, ectx := 0, spos := 0, lid := 0, qid := 0, gid := 0, cmdno := 0, einfo := 0 }
theorem wit_team_end : (findTeam (withTeam (fun t => { t with ending := some (info0 .poison) }) s0) 0).any (fun t => t.ending.isSome && !t.begun &&
    decide (t.die < s0.dies.length) && !(dieOf s0 t.die).failed && (ctxRelease s0 t).2) = true := by decide +kernel
theorem wit_deferred : (let s := noBay (withLane 3 (fun l => { l with deferred := some (info0 .align) }) (handled s0))
    (choose (issueCycle s 0 0) (candidates s 0 0 (issueCycle s 0 0))).any (fun c => c.team.uid == 0 && c.g == 0 &&
      findGang s 0 0 == some c.gang && c.gang.lanes.length == 32 && (pastEnd c.fetched (c.gang.lane (c.grp.headD 0)).resume).isNone &&
      c.grp.find? (fun j => (c.gang.lane j).deferred.isSome) == some 3 && c.grp.all (fun j => !(c.gang.lane j).handler) && traps .align &&
      handlerFor s c.team.ctx .align (info0 .align).tmem == some 8) && (bayOf s 0 0).issue.isNone && !(dieOf s (coreDie 0)).halted) = true := by decide +kernel
theorem wit_parked : (let s := noBay (withGang (fun x => { x with parked := 1, parts := [(ln, true)] }) s0)
    (findGang s 0 0).any (fun x => x.parked == 1 && x.parts != [] && !gangIssuing s 0 0 0 && x.onlyParked 0)) = true ∧
    (let s := noBay (withGang (fun x => { x with parked := 2, ops := [{ id := 5, flag := 1, kind := .mem, lanes := [0], also := [] }] }) s0)
    (findGang s 0 0).any (fun x => x.parked == 2 && x.parts == [] && x.lanes.all (fun l => l.queue == []) && x.ops.all (fun o => o.kind == .mem) &&
      bayFits s 0 0 1 x.chunks)) = true := by decide +kernel

-- The ordering machine (08)
def good {α ε : Type} : Except ε α → (α → Bool) → Bool
  | .ok a, p => p a
  | .error _, _ => false
theorem wit_fill : (255 : Nat) < s0.cores.length ∧ agentSubscribed s0 (.core 255) ln = false ∧ (agentMem s0 (.core 255)).copy ln = none ∧
    good (locate s0 ln.ctx ln.addr .read (agentLeased s0 (.core 255) ln)) (fun _ => true) = true := by decide +kernel
theorem wit_load : (let s := fillLine (queued (.load pwa .b128 (dst 4))) (.core 0) ln { key := lineAddr pw, leaf := none } false
    part s (fun p => p.lane.takes p.op.op && good (locateFor s p.team pw .read) (fun loc =>
      (viewBytes s (.core 0) p.team.ctx ln (lineAddr loc.key) (pw % 128) 16).any (fun bs => bs.all (fun x => !x.2))))) = true := by decide +kernel
theorem wit_store : part (queued (.store (pwa + 112) (List.replicate 16 7) none)) (fun p => decide (p.core < s0.cores.length) && p.op.kind == .store (pwa + 112) (List.replicate 16 7) none) = true ∧
    (pwa + 112).toNat % 128 + 16 ≤ 128 := by decide +kernel
def buffered2 : State := withCore (fun k => { k with mem := { k.mem with buf := [(ln, [{ off := 0, val := 1, team := 0, lane := 0, port := none },
  { off := 127, val := 2, team := 0, lane := 3, port := none }])] } }) s0
theorem wit_drain : (agentMem buffered2 (.core 0)).entry ln ≠ [] ∧ (((agentMem buffered2 (.core 0)).entry ln).map (·.off)).Nodup ∧
    ((agentMem buffered2 (.core 0)).entry ln).all (fun b => good (locate buffered2 ln.ctx ln.addr .write (leased buffered2 b.team ln.addr)) (fun loc =>
      !channelFailed buffered2 (lineAddr loc.key))) = true ∧ (∀ m ∈ buffered2.msgs, m.cause ≠ 4) ∧ Settled s0 ∧ Settled buffered2 := by
  refine ⟨by decide +kernel, by decide +kernel, by decide +kernel, by decide +kernel, ?_, ?_⟩ <;> exact fun _ _ => rfl
theorem wit_release : part (queued (.rel .sys)) (fun p => p.op.kind == .rel .sys && p.op.acks == [] && (agentMem s0 (.core p.core)).buf == [] &&
    (agentMem s0 (.core p.core)).acks == []) = true := by decide +kernel
theorem wit_acquire : part (withGang (fun x => { x with flags := [(12, 1)], ops := [{ id := 5, flag := 12, kind := .mem, lanes := [0], also := [] }] }) (queued (.acq .pkg)))
    (fun p => p.op.kind == .acq .pkg && p.op.last && p.op.op != 0 && opGang p.team p.op.op == some 0 && ((p.team.gang 0).ops.find? (fun q => q.id == p.op.op)).any (fun o => o.lanes == [p.lane.ident])) = true := by
  decide +kernel
theorem wit_atomic : ([false, true].all fun w => part (queued (.atom pwa .add w 1 (dst 2))) (fun p => p.op.acks == [] && p.lane.takes p.op.op && good (locateFor s0 p.team pw .write) (fun loc =>
    (agentMem s0 (.core p.core)).entry ln == [] && (List.range 8).all (fun k => !poisoned s0 (loc.key + k)) && !channelFailed s0 (lineAddr loc.key) &&
    entriesOf s0 ln == [] && s0.msgs == []))) = true := by decide +kernel
theorem wit_cell : dec .f32 (1 : Word).toNat = .fin false 1 (-149) false ∧ -(2 ^ 479 : Nat) ≤ cellVal 0 + sgn false (1 * 2 ^ ((-149 : Int) + 160).toNat) ∧
    cellVal 0 + sgn false (1 * 2 ^ ((-149 : Int) + 160).toNat) < (2 ^ 479 : Nat) := by decide +kernel

-- Subscriptions (09)
def msg0 (k : MsgKind) : Msg := { id := 3, kind := k, core := 0, line := ln, stamp := 255, f := .e2m1, elems := [1], cause := 0, inv := false, t := .f32, re := 2 }
def mailed (k : MsgKind) (s : State := s0) : State := { s with msgs := [msg0 k] }
theorem wit_register : (let s := mailed .register
    (s.msgs.find? (fun x => x.id == 3 && x.kind == .register)).any (fun m => firstReq s m && decide (m.core < s.cores.length) && findDir s m.line == none &&
      [true, false].all (fun b => good (locate s m.line.ctx m.line.addr .read b) (fun loc => badPieces s (lineAddr loc.key) == [])))) = true := by decide +kernel
def region0 : Region := { team := 0, line := ln, len := 128, f := .e2m1, inv := false, t := .f32, caddr := 0, count := 0 }
def sub0 (r : Bool) : SubLine :=
  { line := ln, registered := r, asked := some 2, view := List.replicate 32 1, f := .e2m1, inv := false, next := none, refused := none, fault := none }
def subbed (r : Bool) (s : State) : State := withCore (fun k => { k with regions := [region0], sub := [sub0 r] }) s
theorem wit_apply : ([MsgKind.data true, .update].all fun k => let s := subbed true (mailed k)
    (s.msgs.find? (fun y => y.id == 3 && y.core == 0)).any (fun m =>
      (((s.msgs.filter (fun y => y.toCore && y.line == m.line)).take 64).find? (fun y => y.core == 0)).map (·.id) == some 3 &&
      m.kind == k && ((coreOf s 0).regions.find? (fun y => y.holds m.line)).any (fun g => g.caddr == 0) &&
      (subLine s 0 m.line).any (fun x => x.registered && x.asked == some m.re))) = true := by decide +kernel
theorem wit_leave : (let s := { mailed .leave with dir := [{ line := ln, t := .f32, seq := 0, coarse := false, sharers := [{ core := 0, f := .exact, inv := true }], groups := [] }] }
    (s.msgs.find? (fun x => x.id == 3 && x.kind == .leave)).any (fun m => firstReq s m && (findDir s m.line).any (fun d => !d.coarse)) && s.sliceLines == []) = true := by decide +kernel
theorem wit_sld : part (subbed true (queued (.sld pwa 4 none (dst 1)))) (fun p => p.lane.takes p.op.op && viewLine p.team.ctx pw == ln &&
    (teamRegion (subbed true s0) p.core 0 ln).isSome &&
    (subLine (subbed true s0) p.core ln).any (·.registered)) = true ∧
    part (queued (.schg pwa (dst 2))) (fun p => p.lane.takes p.op.op && p.op.kind == .schg pwa (dst 2)) = true := by decide +kernel
def neighbour : State := modCore (subbed false (queued (.sld pwa 4 (some 2) (dst 1)))) 7 (fun k => { k with regions := [region0], sub := [sub0 true] })
theorem wit_peersld : part neighbour (fun p => p.lane.takes p.op.op && (teamRegion neighbour p.core 0 ln).isSome && groupOf 7 == groupOf p.core && p.core != 7 &&
    (subLine neighbour p.core ln).any (fun x => !x.registered && x.next.isNone) && (subLine neighbour 7 ln).any (fun y => y.registered && y.f == region0.f) &&
    ((coreOf neighbour 7).regions.find? (fun r => r.holds ln)).any (fun z => z.t == region0.t)) = true := by decide +kernel
/-- A line that L1 evicts though it is registered; a line that its slice drops: one without an entry, and with none. -/
theorem wit_slice : homeOf (0 * 128) < 2 ∧ ({ s0 with sliceLines := [0] } : State).sliceLines.contains 0 = true ∧
    entriesAt { s0 with sliceLines := [0] } 0 = [] ∧ (subLine (subbed true s0) 0 ln).any (·.registered) = true ∧
    ((coreOf (subbed true s0) 0).regions.find? (fun r => r.holds ln)).isSome = true ∧ (coreOf (subbed true s0) 0).mem.snap = [] := by decide +kernel
/-- A clean line with a copy that can no longer be fetched (R385), and one without a copy. -/
theorem wit_clean_line : errs (locate s0 0 0 .read false) = true ∧ ∀ a ∈ [Agent.core 0, .core 255, .ctx 0 7], (agentMem s0 a).copy ln = none := by decide +kernel

-- Streams and rings (10)
def binding : State := withGang (fun x => { x with ports := x.ports.set 15 { Port.unbound with st := .pending, daddr := pwa, seq := 6 } }) (queued (.bind 15 pwa 6))
theorem wit_bind : (findTeam binding 0).any (fun t => (findGang binding 0 0).any (fun x => bindAt (coreDie 0) x 15 == some (0, 0, 6) &&
    (x.ports.getD 15 Port.unbound).st == .pending && (x.ports.getD 15 Port.unbound).seq == 6 && decide (15 < x.ports.length) &&
    (coreOf binding 0).bays.all (fun y => match y.issue with
      | some z => z.rebind == []
      | none => true) &&
    good (fetchBytes binding t (.core 0) (x.ports.getD 15 Port.unbound).daddr.toNat .read true 64).2 (fun bs => bs.all (fun b => !b.2)))) = true ∧
    descBad { boundPort 0 with desc := 0 } = false ∧ fld 2 2 0 < 3 := by decide +kernel
/-- A port of `n` elements of which lane 0 holds all but the last. -/
def reading (n : Nat) : State :=
  withLane 0 (fun l => { l with pre := (List.range (n - 1)).map (fun j => { port := 3, pos := j, val := 0, fault := none, addrs := [] }) })
    (withPort 3 { boundPort 0 with desc := 2 ^ 64 * pw + 2 ^ 160 * (n - 1) + 2 ^ 192 * 4 } s0)
theorem wit_prefetch : ([1, 16].all fun n => (findTeam (reading n) 0).any (fun t => let b := (t.gang 0).ports.getD 3 Port.unbound
    ((t.gang 0).lane 0).live && b.st == .bound && b.isRead && !b.isRing && decide ((((t.gang 0).lane 0).pre.filter (fun e => e.port == 3)).length < 16) &&
    ((List.range 16).filter (fun j => decide ((tget 0 ((t.gang 0).lane 0).pos 3).toNat + j < b.total) &&
      !((t.gang 0).lane 0).hasPre 3 ((tget 0 ((t.gang 0).lane 0).pos 3).toNat + j))) == [n - 1])) = true ∧
    part (queued (.pop 3)) (fun p => p.op.kind == .pop 3) = true := by decide +kernel
def rk : Nat := 2 ^ 51 + 0x2000
/-- A ring of 512 slots: one element committed, two reserved. -/
def ring1 (s : State) : State :=
  { s with mem := putBytes s.mem rk (toBytes 64 (2 + 2 ^ 64 + 2 ^ 192 * (2 ^ 51 + 0x4000) + 2 ^ 256 * 512 + 2 ^ 288 * 6 + 2 ^ 294)) }
def ringClause (pop : Bool) : State :=
  ring1 (withPort 3 { boundPort (if pop then 3 else 4) with desc := (if pop then 3 else 4) + 8 * 6 + 2 ^ 64 * rk } (noBay
    { State.reset.withFetchWord 64 (encode (if pop then .mov { c0 with guard := .pred 0 false } (g 1) (.q 3) false else .iaddImm { c0 with guard := .pred 0 false } (.q 3) (g 4) 0)).toNat with agenda := [] }))
def onlyLane0 (s : State) : State := withLane 0 (fun l => l.setPred 0 true) s
theorem wit_ring : ([true, false].all fun pop => let s := onlyLane0 (ringClause pop)
    (findTeam s 0).any (fun t => (findGang s 0 0).any (fun x => let b := x.ports.getD 3 Port.unbound
      x.pcGroup 0 != [] && !gangIssuing s 0 0 0 && b.st == .bound && b.mode == (if pop then 3 else 4) && t.issues && x.parked == 0 &&
      portRing s t b == some rk && rk % 128 == 0 && !s.broken.contains rk &&
      !heldBack s { key := rk, pop := pop, team := 0, gang := 0, lane := (x.pcGroup 0).headD 0, port := 3 } &&
      (match fetchClause s t 0 (x.lane 0).pc (privileged t 0 0) (x.codeMark (x.pcGroup 0)) with
        | .ok k => let l := ringPlan x (namings (coreOf s 0) x k (x.lane 0).resume s.cycle (x.pcGroup 0)) 3 pop
          l != [] && ringGrants s rk l.length pop && decide (ringHead (ringOf s rk) + l.length < 2 ^ 64)
        | _ => false)))) = true := by decide +kernel
theorem wit_rpush : part (ring1 (queued (.rpush (BitVec.ofNat 64 rk) 1 (List.replicate 4 9)))) (fun p => decide (p.core < s0.cores.length) &&
    decide (ringSlot (ringOf (ring1 s0) rk) 1 % 128 + 4 ≤ 128)) = true := by decide +kernel
/-- R246: a plain store into the data area of a live ring, and none beyond it. -/
theorem test_ring_spoilt : (let s := { ring1 s0 with rings := [(rk, ringHeader (BitVec.ofNat 64 (2 ^ 51 + 0x4000)) 512 6)] }
    (spoilRings s (2 ^ 51 + 0x4080)).broken == [rk] && (spoilRings s rk).broken == [rk] && (spoilRings s (2 ^ 51 + 0x3F80)).broken == []) = true := by decide +kernel
theorem wit_commit : (let r : Line := { ctx := 0, addr := rk }
    (homeOf r.addr == 2) && r.addr % 128 == 0 && decide (ringCtail (ringOf (ring1 s0) r.addr) < ringTail (ringOf (ring1 s0) r.addr)) &&
    !(ring1 s0).slotsOut.contains (r.addr, ringCtail (ringOf (ring1 s0) r.addr)) && !(ring1 s0).broken.contains r.addr) = true := by decide +kernel

-- Engine commands (11, 12)
def cmd0 (k : CmdKind) (st : CmdSt := .queued) : Cmd :=
  { no := 1, kind := k, sc := .pkg, gang := 0, op := 0, dst := some (dst 1), lanes := [3], who := 0, st := st, res := [], rows := [], outbox := [], ring := 0,
    slot := none, pushed := [], rcd := 0, fault := none, parked := false, begun := 0, late := none }
def commanded (k : Cmd) (s : State := s0) : State := withTeam (fun t => { t with ectx := t.ectx.set 7 { Ctx.empty with queue := [k] } }) s
def ordered (s : State) : State := withCore (fun c => { c with holder := some 0, order := [(0, 7, 1)] }) s
def heads (s : State) (p : Team → Cmd → Bool) : Bool := (findTeam s 0).any (fun t => decide (7 < t.ectx.length) && (headCmd t 7).any (p t))
theorem wit_begin : ([CmdKind.tlsig, .wswp 7, .mzero 3].all fun k => heads (ordered (commanded (cmd0 k))) (fun t c => c.kind == k &&
    mayBegin (ordered (commanded (cmd0 k))) t 7 c && decide (t.coreN < s0.cores.length))) = true := by decide +kernel
def sorting : State := withTeam (fun t => { t with ectx := t.ectx.set 6 { Ctx.empty with queue := [cmd0 (.sort 0)] } }) (commanded (cmd0 (.sort 0)))
theorem wit_engine_turn : (findTeam sorting 0).any (fun t => (headCmd t 7).any (fun k => !engineTurn sorting t 7 k) &&
    (headCmd t 6).any (fun k => engineTurn sorting t 6 k && mayBegin sorting t 6 k)) = true := by decide +kernel
theorem wit_complete : heads (commanded (cmd0 .tlsig (.running 0))) (fun t c => !c.parked && c.st == .running 0 && workOut (commanded (cmd0 .tlsig (.running 0))) 0 7 c &&
    c.fault.isNone && (t.ctxOf 7).mem.buf == [] && (t.ctxOf 7).mem.acks == [] && t.whereIs 3 == some (0, 3)) = true := by decide +kernel
def waitsPage (s : State) (t : Team) (k : Cmd) : Bool :=
  match (beginWork s t 7 k).out with
  | .stop .residency _ => true
  | _ => false
/-- Die 0's HBM is one page that is not present (R370). -/
def absent (s : State) : State := { s with mem := tput memDefault (tput memDefault s.mem 2 1) 0x10000 3 }
theorem wit_context_park : heads (absent (commanded (cmd0 (.hdef 63 0)))) (fun t c => mayBegin (absent (commanded (cmd0 (.hdef 63 0)))) t 7 c &&
    waitsPage (absent (commanded (cmd0 (.hdef 63 0)))) t c) = true := by
  decide +kernel
/-- A collective of devices in `members`, of one element of kind `k`. -/
def coll (members k : Nat) : Cmd := { cmd0 (.coll pwa) .waiting with rcd := members + 2 ^ 512 * pw + 2 ^ 576 * (pw + 128) + 2 ^ 640 + 2 ^ 672 * k }
def member1 (k : Nat) : Member := { device := 1, kind := k, dtype := 0, count := 1, root := 0, net := false, elems := [5] }
theorem wit_coll : heads (commanded (coll 3 0)) (fun t c => c.st == .waiting && !c.parked && collOthers s0 c.rcd [member1 1] && !([member1 1].all (collAgrees c.rcd)) &&
      collOthers s0 c.rcd [member1 0] && [member1 0].all (collAgrees c.rcd) && good (runExchange (commanded (coll 3 0)) t 7 c.rcd [member1 0]).2 (· == 0) &&
      heads (runExchange (commanded (coll 3 0)) t 7 c.rcd [member1 0]).1 (fun _ d => d == c)) = true := by decide +kernel
theorem wit_coll_first : collFirst (commanded (coll 3 0)) (coll 3 0) = true ∧ feeds (ordered (commanded (cmd0 (.wswp 1)))) (0, 7, 1) = none := by decide +kernel
theorem wit_row : heads (ordered (commanded { cmd0 (.mma (.lane .e2m1) 3 7 1 [] (some .e2m1) []) with rows := [(127, [1])] })) (fun _ c => c.no == 1 && c.rows == [(127, [1])]) = true ∧
    (coreOf (ordered s0) 0).order = (0, 7, 1) :: [] := by decide +kernel

-- Launches (14)
def valid (s : State) : State := { s with mem := tput memDefault s.mem 32 1 }
/-- A chain of one record at the Pewter address, the record `r`. -/
def chained (r : Nat) : State :=
  let s := valid (up s0)
  { s with fresh := 20, chains := s.chains.set 15 { Chain.reset with base := pwa, en := true, tail := 1 }, mem := putBytes s.mem pw (toBytes 128 r) }
def acceptable (s : State) (c : Chain) (refused : Bool) : Bool :=
  let r := engineRead s c.ctx (nextSlot c) 128
  !slotHit c && good r.2 (fun q => (recRefused r.1 c.ctx q).isSome == refused && rangesFit s c.die q)
theorem wit_accept : (chained rec4).chains[15]?.any (fun c => c.en && !c.err && decide ((c.tail - c.head).toNat = 1) && decide ((c.tail - c.head).toNat ≤ 2 ^ c.lcap) &&
    engineTakes (chained rec4) c.die (.host 15) && acceptable (chained rec4) c false && acceptable (chained 0) c true) = true ∧ recCrec rec4 = 0 := by decide +kernel
def chained2 : State := { chained rec4 with chains := (chained rec4).chains.set 3 { Chain.reset with base := pwa, en := true, tail := 1 } }
theorem wit_chain_turn : (dieOf chained2 0).stalled = none ∧ chainTurn chained2 0 15 = false ∧ chainTurn chained2 0 3 = true := by decide +kernel
/-- R346: a slot stored to after TAIL has passed it gives no stated record. -/
theorem test_slot_hit : slotHit { Chain.reset with base := pwa, en := true, tail := 1, hit := [] } = false ∧
    slotHit { Chain.reset with base := pwa, en := true, tail := 1, hit := [0] } = true := by decide
theorem wit_pending : (let s := withTeam (fun t => { t with pend := [rec4] }) (valid (up s0))
    (findTeam s 0).any (fun t => t.pend == [rec4] && engineTakes s t.die (.team 0) && t.ending.isNone && !t.killPending && (recRefused s t.ctx rec4).isNone && rangesFit s t.die rec4)) = true := by
  decide +kernel
/-- A launch with one range of HBM of die 0 (R341), not resident. -/
def recHbm : Nat := rec4 + 2 ^ 512 + 2 ^ 542
def waitingLaunch (r : Nat) : State := { valid (up State.reset) with fresh := 20, launches := [{ launched r 9 with resident := false }] }
theorem wit_resident : (findLaunch (waitingLaunch rec4) 9).any (fun l => !l.resident && !l.nores && !l.killed && launchIn (waitingLaunch rec4) l) = true ∧
    (findLaunch (waitingLaunch recHbm) 9).any asksPager = true ∧ running (waitingLaunch rec4) = true ∧ (dieOf (waitingLaunch rec4) 0).halted = false ∧
    (waitingLaunch rec4).launches.any (dependsOn (launched rec4 9)) = false := by decide +kernel
def admitting : State := { valid (up State.reset) with fresh := 20, launches := [launched rec4 9] }
theorem wit_admit : (findLaunch admitting 9).any (fun l => (placeFor admitting l).isSome && l.waits admitting && !(dieOf admitting l.die).halted &&
    admitting.launches.all (fun x => !servedBefore x l) && admitting.teams == [] && recG rec4 == 1) = true := by decide +kernel
def ended : State := { admitting with launches := [{ launched rec4 9 with admitted := 1, retired := 1, bandsDue := [31] }] }
theorem wit_band : (findLaunch ended 9).any (fun l => l.bandsDue.contains 31 && decide (recTeams l.raw ≤ l.admitted) && ended.teams == []) = true ∧
    (findLaunch { ended with launches := [{ launched rec4 9 with admitted := 1, retired := 1 }] } 9).any (fun l => l.bandsDue == [] &&
      decide (l.retired + l.faulted = recTeams l.raw) && decide (l.die < ended.dies.length)) = true := by decide +kernel
def slotted : State :=
  let s := chained rec4
  { s with clock := 10000 * (24 * 10 ^ 9), timed := s.timed.set 63 { Timed.reset with recAddr := pwa, period := 10000, phase := 9999, en := true } }
theorem wit_slot : slotted.timed[63]?.any (fun e => e.en && running slotted && !e.resubmit && e.period != 0 && decide (e.nextSlot ≤ timeOf slotted) &&
    prevDone slotted e e.nextSlot && engineTakes slotted 0 (.timed 63) && good (engineRead slotted e.ctx e.recAddr.toNat 128).2 (fun r =>
      (recRefused slotted e.ctx r).isNone && rangesFit slotted 0 r)) = true := by decide +kernel

-- The step, encoding and the form of memory
theorem wit_step : slotWord s0 0 0 = some 0x00803F8000000000 ∧ slotWord (noBay s0) 0 0 = none ∧ decodeWord 0 = none ∧ s0.agenda = [] ∧
    ({ s0 with agenda := [.slot 0 0, .tick 1] } : State).agenda = .slot 0 0 :: [.tick 1] ∧
    (slotWord (State.reset.withFetchWord 64 0) 0 0).bind decodeWord = none := by decide +kernel
theorem wit_encoding : ([Instr.nop c0, .copy c0 (.c 18) (.c 4) 1 0 0 .pkg true, .st c0 (g 319) (g 2) (-1) .n8 true].map (fun i => (isInsn i, i.wf))) =
    [(true, true), (true, true), (true, true)] ∧ isInsn (.chainEnable 0 0) = false := by decide
theorem wit_form : Sys2Proof.Machine.Inv State.reset ∧ Sys2Proof.Machine.Inv s0 ∧ (match step s0 with
    | .next t => t.mem == s0.mem
    | _ => false) = true := ⟨rfl, show Memory.wf s0.mem = true by decide +kernel, by decide +kernel⟩

-- Further clauses

/-- A read port of which every lane holds the next element, as the source or the destination of a system instruction. -/
def porting : State := withLanes (fun l => { l with pre := [{ port := 3, pos := 0, val := 0, fault := none, addrs := [] }] })
  (withPort 3 { boundPort 0 with desc := 2 ^ 64 * pw + 2 ^ 160 * 3 + 2 ^ 192 * 4 } s0)
theorem wit_ports : ∀ w ∈ ([
    { s := inHandler porting, f := { srcs := [o1 (.q 3)] }, extra := fun v => v.active.all (fun i => (v.gang.lane i).handler) },
    { s := porting, f := { srcs := [o1 (.q 3), o2 (g 4)] }, extra := fun v => decide (coreDie v.core < porting.dies.length) && v.acting != [] },
    { s := pager porting, f := { srcs := [o1 (.q 3)], dst := d1 (g 1) },
      own := fun u => if ctxPager (pager porting) u.team.ctx then none else some (u.fault .priv) },
    { f := { dst := d1 (g 1), srs := [0] } }, { f := { dst := d1 (g 1), srs := [13] } },
    { f := { srcs := n2 1, dst := d1 (g 1) }, own := namesOwn [g 2], extra := fun v =>
      reachB s0 (v.acting.take 1) (fun i => (v.src2 s0.fresh i (g 2)).toNat) 128 .all && v.acting != [] }] : List Wit), w.Met := met (by decide +kernel)
/-- A group whose lane 0 has its value reached and whose other lanes have not. -/
theorem wit_mixed : ∀ w ∈ ([
    { s := withLane 0 (fun l => { l with regs := [] }) (regs [(2, 1)] s0), f := names (n2 1) none, own := namesOwn [g 2],
      extra := fun v => v.active.map (fun i => decide ((v.src2 s0.fresh i (g 2)).toNat ≤ (v.team.ctxOf 7).tl.toNat)) == [true, false, false, false] }] : List Wit),
    w.Met := met (by decide +kernel)
/-- An MSI whose entry is written goes although one before it waits. -/
theorem wit_msi_passes : (let s := { ringed with msiWait := [{ vec := 1, die := 1, entry := 2, cause := 0 }, { vec := 2047, die := 1, entry := 3, cause := 4 }] }
    (dieOf s 1).events.holds 2 && !(dieOf s 1).events.holds 3 && s.msgs.all (fun x => x.cause != 4)) = true := by decide +kernel
theorem wit_entry : (7 : Nat) < 2 ^ 128 := by decide
/-- The clause of a team that stands ready at lane `lane` of its group, with what `f` makes of the lane. -/
def choosing (s : State) (p : Cand → Bool) : Bool := (choose (issueCycle s 0 0) (candidates s 0 0 (issueCycle s 0 0))).any p
theorem wit_issue : (choosing (noBay s0) (fun c => (match c.fetched with
      | .ok k => decide ((c.gang.lane (c.grp.headD 0)).resume ≤ k.hdr.ni)
      | _ => false) && c.grp.all (fun i => (c.gang.lane i).deferred.isNone && !(c.gang.lane i).overdue)) &&
    choosing (noBay (withLane 3 (fun l => { l with deadline := 0, wdog := 256 }) s0)) (fun c => c.team.uid == 0 && c.g == 0 &&
      (pastEnd c.fetched (c.gang.lane (c.grp.headD 0)).resume).isNone && c.grp.all (fun j => (c.gang.lane j).deferred.isNone) &&
      c.grp.find? (fun j => decide (2 ^ ((c.gang.lane j).deadline + 8) < (c.gang.lane j).wdog + 1)) == some 3) &&
    choosing (noBay (withLane 3 (fun l => { l with deferred := some (info0 .align) }) (handled s0))) (fun c =>
      c.team.uid == 0 && c.g == 0 && findGang (noBay (withLane 3 (fun l => { l with deferred := some (info0 .align) }) (handled s0))) 0 0 == some c.gang &&
      handlerFor (handled s0) c.team.ctx .align (info0 .align).tmem == some 8) &&
    decide (issueCycle s0 0 0 = s0.cycle) && (List.range 4).all (fun j => decide ((bayOf s0 0 j).done ≠ s0.cycle + 1))) = true := by decide +kernel
/-- An operation of one lane, which completes as a whole. -/
def whole (k : OpKind) : State := withGang (fun x => { x with flags := [(12, 1)], ops := [{ id := 5, flag := 12, kind := k, lanes := [0], also := [] }] }) (noBay s0)
theorem wit_whole : ([OpKind.lnch (dst 1) [(0, .got rec4)], .lrec (dst 1) [(0, .bad)], .lease (dst 1) [(0, [0, 0, 0, 4])], .csave (dst 1) pwa false,
      .csave (dst 1) pwa true, .crest (dst 1) pwa, .tlbinv (dst 1) .query [0, 0, 0, 0], .replay (dst 1) 0 none, .replay (dst 1) 0 (some 0), .evnt []].all fun k =>
    let s := whole k
    (findTeam s 0).any (fun t => t.core == some 0 && (t.gang 0).ops.any (fun o => o.id == 5 && o.kind == k && o.lanes == [((t.gang 0).lane 0).ident]) &&
      opGang t 5 == some 0 && t.whereIs ((t.gang 0).lane 0).ident == some (0, 0) && decide (t.die < s.dies.length))) = true := by decide +kernel
theorem wit_whole_lanes : (let s := whole .mem
    !gangIssuing s 0 0 0 && replayDone s 0 && (findTeam s 0).any (fun t => (t.gang 0).ports.all (fun p => p.st != .pending) &&
      good (fetchRun (acquireCore s 0 .pkg) t 0 pw 1).2 (fun bs => bs.length == 128)) && imageBad placedGang []) = true := by decide +kernel
/-- TLBINV: a page of 64 GiB that is mapped, asked for by its size and by another; a page that is not; a bad request. -/
def tlbq (va size : Nat) : List Word := [BitVec.ofNat 32 va, BitVec.ofNat 32 (va / 2 ^ 32), BitVec.ofNat 32 (256 * size), 0]
theorem wit_tlb : (let s := mapped s0
    !tlbBad .unmap (tlbReq (tlbq 0 3)) && !tlbBad .query (tlbReq (tlbq 0 0)) && (leafOf s 0 0).any (fun x => x.psize == pageBytes 3 && x.psize != pageBytes 0 &&
      (List.range 3).all (fun j => !channelFailed s (x.key + 65536 * j))) && !pageLeased s 0 0 (pageBytes 3) && (leafOf s0 0 0).isNone &&
    tlbBad .query (tlbReq (tlbq 1 3))) = true ∧
    pageLeased (withTeam (fun t => { t with leases := [{ base := 0, len := 1, mode := 1 }] }) (mapped s0)) 0 0 (pageBytes 3) = true := by decide +kernel
theorem wit_regroup_ready : (findTeam (blockAll .regrp) 0).any (fun t => t.gangs.all (fun g => g.parked == 0 && g.lanes.all (fun l => l.live || t.laneDone l) &&
    g.ready.all (fun r => decide (r.2 ≤ s0.cycle)))) = true := by decide +kernel
/-- A ready team that has found no place for 20 us, on the die of a team that waits in joins (R436). -/
def waited (n : Nat) : State := { joining with clock := n, launches := joining.launches.map (fun l => { l with noPlace := some 0 }) }
theorem wit_swap_out : ([20000 * (24 * 10 ^ 9) - 1, 20000 * (24 * 10 ^ 9)].map fun n => let s := waited n
    (findTeam s 0).any (fun t => decide (t.holdOff ≤ s.clock) && s.teams.all (fun x => !(x.die == t.die && x.swappable s) || decide (t.resumedAt ≤ x.resumedAt)) &&
      wantsPlace s (fun l => l.die == t.die && l.noPlace.any (fun c => decide (c + 20000 * (24 * 10 ^ 9) ≤ s.clock))))) = [false, true] := by decide +kernel
/-- A team that is done, and its core has a Leave to send home or none (R433). -/
def leaving (b : Bool) : State := if b then subbed true (withGang (fun g => { g with retired := true }) finished) else withGang (fun g => { g with retired := true }) finished
theorem wit_leaves_home : ([true, false].map fun b => let s := leaving b
    (findTeam s 0).any (fun t => let x := (ctxRelease (teamRelease s 0).1 t).1
      ((teamRegions x 0 0).foldl (fun s y => (endRegion s 0 y).1) x).msgs.any (fun m => m.kind == .leave && m.core == 0))) = [true, false] := by decide +kernel
/-- Per-lane memory of 16 bytes in Pewter; the second byte was stored by the team. -/
def privately : State := withTeam (fun t => { t with ps := 16, pb := pwa, l1 := [(pw + 1, some 7)] }) s0
theorem wit_lane_memory : part (queued (.laneLoad 0 .b32 (dst 1)) privately) (fun p => p.lane.takes p.op.op && p.op.kind == .laneLoad 0 .b32 (dst 1) &&
    [0, 3].all (fun k => good (locateFor privately p.team (pw + k) .read) (fun loc => !poisoned privately loc.key && rdByte privately loc.key == 0)) &&
    tget none p.team.l1 (pw + 1) == some 7) = true ∧
    part (queued (.laneStore 0 [1, 2, 3, 4]) privately) (fun p => p.op.kind == .laneStore 0 [1, 2, 3, 4] &&
      (List.range 4).all (fun k => good (locateFor privately p.team (pw + k) .write) (fun _ => true))) = true := by decide +kernel
/-- The other atomic forms (R205 to R208), at an address of Pewter. -/
theorem wit_atomics : ([MemKind.acas pwa false 0 5 (dst 1), .acas pwa true 1 5 (dst 2), .xsum pwa 1, .xrd pwa true true (dst 2), .xclr pwa, .ldv pwa (dst 2)].all fun k =>
    part (queued k) (fun p => (atomArgs p.op.kind).any (fun x => x.1 == pwa) && p.op.acks == [] && p.lane.takes p.op.op &&
      [Access.read, .write].all (fun c => good (locateFor s0 p.team pw c) (fun loc => !channelFailed s0 (lineAddr loc.key))) &&
      (agentMem s0 (.core p.core)).entry ln == [] && (List.range 64).all (fun k => !poisoned s0 (pw + k)) && entriesOf s0 ln == [])) = true := by decide +kernel
/-- A CMS of one line, whose stamp is expected to be `st`, and of one with a bad count. -/
def multi (n st : Nat) : State :=
  let s := queued (.cms pwa 95 (dst 1))
  { s with mem := putBytes s.mem pw (toBytes 32 (n + 2 ^ 128 * (pw + 0x1000) + 2 ^ 192 * st)) }
def headOf (n st : Nat) (q : List Byte → Bool) : Bool :=
  part (multi n st) (fun p => p.lane.takes p.op.op && good (readView (multi n st) p pw 128) q)
theorem wit_cms : ([(1, 0), (1, 1), (0, 0), (5, 0)].all fun x => headOf x.1 x.2 (fun hs => fld (ofBytes hs) 2 0 == x.1 && fld (ofBytes hs) 191 128 == pw + 0x1000 &&
      fld (ofBytes hs) 223 192 == x.2)) = true ∧
    part (multi 1 0) (fun p => good (readView (multi 1 0) p (pw + 128) 128) (fun ds => ds.length == 128) && (servedFault (multi 1 0) .package (pw + 0x1000)).isNone &&
      good (locateFor (multi 1 0) p.team (pw + 0x1000) .write) (fun loc => stampOf (multi 1 0) loc.key == 0 && decide (2 ≤ homeOf loc.key) &&
        !channelFailed (multi 1 0) loc.key && loc.leaf.isNone)) = true := by decide +kernel
/-- A weight that WLD loads: through a region whose line is registered, and from its home. -/
def viewHdl : Nat := pw + 2 ^ 64 * 128 + 2 ^ 96 * 128 + 2 ^ 128 + 2 ^ 160 + 2 ^ 344
theorem wit_weight : (findTeam (subbed true s0) 0).any (fun t => let a := (hAddr viewHdl [0, 0, 0, 0]).1
    a == pw && (teamRegion (subbed true s0) 0 0 (viewLine t.ctx a)).any (fun z => z.t == .f32) && (subLine (subbed true s0) 0 (viewLine t.ctx a)).any (fun x =>
      x.registered && x.f == latchView 6) && (teamRegion s0 0 0 (viewLine t.ctx a)).isNone &&
    good (locateFor s0 t a .read) (fun loc => (List.range 4).all (fun i => !poisoned s0 (loc.key + i)))) = true := by decide +kernel
/-- A registered line in a full set of which nothing else can go (R225). -/
theorem wit_l1_set : ∀ e ∈ (coreOf (subbed true s0) 0).mem.snap, Config.l1Set (e.1.addr / 128) ≠ Config.l1Set (ln.addr / 128) := by decide +kernel
/-- Commands whose work is done at once, waits, or stops, of a team that holds the array. -/
def begins (k : Cmd) (s : State) (p : CmdOut → Bool) : Bool :=
  heads s (fun t c => c == k && mayBegin s t 7 c && p (beginWork s t 7 (c.begin_ t 7 s.fresh)).out &&
    (findTeam (beginWork s t 7 (c.begin_ t 7 s.fresh)).s 0).any (fun u => (headCmd u 7).any (· == k) && decide (7 < u.ectx.length)))
def array0 (s : State) : State := ordered s
def spoilt (s : State) : State := { array0 s with badArrays := [0] }
def isDone (o : CmdOut) : Bool := match o with
  | .done _ => true
  | _ => false
theorem wit_works : ([CmdKind.tlsig, .wswp 7, .mzero 3, .mwr 0 false [(127, (124, [1, 2, 3, 4]))], .mrd 3 none .f32 false [(0, (3, 0))], .hdef 63 pwa, .copy 0 1 pwa,
      .cfill 0 pwa, .wld 0 0 [0, 0, 1, 0], .mst 0 0 [0, 0] none false, .sort pwa].all fun k =>
    begins (cmd0 k) (ordered (commanded (cmd0 k))) isDone) = true ∧
    begins (cmd0 (.mrd 3 none .f32 false [])) (spoilt (commanded (cmd0 (.mrd 3 none .f32 false [])))) (· == .stop .poison 0) = true := by decide +kernel
/-- Its record names a handle that another context still defines (R269). -/
def pendingSort : State := withTeam (fun t => { t with ectx := t.ectx.set 0 { Ctx.empty with queue := [cmd0 (.hdef 0 pwa)] } }) (commanded (cmd0 (.sort pwa)))
theorem wit_wait : begins (cmd0 (.sort pwa)) pendingSort (· == .wait) = true := by decide +kernel
/-- Commands that complete with a handle, a table, what MRD read, and one that adds at CTL. -/
def completes (k : Cmd) (p : Cmd → Bool) : Bool :=
  let s := commanded k
  heads s (fun t c => !c.parked && c.st == .running 0 && workOut s 0 7 c && c.fault.isNone && (t.ctxOf 7).mem.buf == [] && (t.ctxOf 7).mem.acks == [] &&
    t.whereIs 3 == some (0, 3) && p c)
def doing (k : CmdKind) (rcd : Nat) (res : Tab (List Word)) : Cmd := { cmd0 k (.running 0) with rcd := rcd, res := res }
theorem wit_completes : completes (doing (.hdef 63 pwa) viewHdl []) (fun c => !hBad c.rcd && ctlWord c 0 == none) = true ∧
    completes (doing (.tblld (.slot 3) pwa) 0 [(0, [7])]) (fun c => ctlWord c 0 == none) = true ∧
    completes (doing (.mrd 0 none .f32 false [(0, (3, 0))]) 0 [(3, [1, 2, 3, 4])]) (fun c => ctlWord c 0 == none) = true ∧
    completes (doing (.coll pwa) (3 + 2 ^ 512 * pw + 2 ^ 576 * (pw + 128) + 2 ^ 640 + 2 ^ 768 * pw) []) (fun c => ctlWord c 0 == some pw) = true := by
  decide +kernel
/-- Handles 0 and 1 of 8 elements each, and the bytes `b` of a record at `pwa`. -/
def hdl (o f : Nat) : Nat := pw + o + 2 ^ 64 * 8 + 2 ^ 96 + 2 ^ 128 + 2 ^ 160 + 2 ^ 336 * f
def handling (k : CmdKind) (f b : Nat) : State :=
  { withTeam (fun t => { t with handles := (t.handles.set 0 { st := 2, raw := hdl 0x1000 f }).set 1 { st := 2, raw := hdl 0x2000 f } })
      (commanded (cmd0 k) (ring1 s0)) with mem := putBytes (putBytes (ring1 s0).mem pw (toBytes 64 b)) (pw + 0x1000) (toBytes 128 (2 + 2 ^ 32 + 2 ^ 768 * (2 ^ 128 - 1))) }
def box (n : Nat) : Nat := 2 ^ 128 + 2 ^ 256 * n + 2 ^ 288 + 2 ^ 320 + 2 ^ 352
/-- COPY and CFILL of the last seven elements, of none, and of one too many; a SORT of two keys, of none, and with no digit; a query. -/
theorem wit_command_work : ([(7, 0), (0, 1), (8, 3)].all fun x => begins (cmd0 (.copy 1 0 pwa)) (handling (.copy 1 0 pwa) 0 (box x.1)) (· == .done x.2) &&
      begins (cmd0 (.cfill 1 pwa)) (handling (.cfill 1 pwa) 0 (box x.1)) (· == .done x.2)) = true ∧
    ([(2, 4, 0), (0, 4, 1), (2, 0, 4), (9, 4, 3)].all fun x => begins (cmd0 (.sort pwa)) (handling (.sort pwa) 12 (2 ^ 6 + 2 ^ 25 + 2 ^ 36 * x.2.1 + 2 ^ 64 * x.1 + 2 ^ 128 * (pw + 0x3000)))
      (· == .done x.2.2)) = true ∧
    begins (cmd0 (.bvhq pwa false [0, 0, 0, 0, 0, 0])) (handling (.bvhq pwa false [0, 0, 0, 0, 0, 0]) 0 (pw + 0x1000 + 2 ^ 64 * rk)) isDone = true := by decide +kernel
/-- The element that a COPY moves, unchanged, from FP32 to BF16, and to its code book's index (R277, R144). -/
theorem wit_move : (findTeam (handling .tlsig 0 0) 0).any (fun t => good (readCode (handling .tlsig 0 0) t 7 (hdl 0x1000 0) [0, 0, 0, 0]).2 (· == 2) &&
      good (readElem (handling .tlsig 0 0) t 7 (hdl 0x1000 0) [7, 0, 0, 0]).2 (fun _ => true) && hFmt (hdl 0 0) != hFmt (hdl 0 1) && (hFloat (hFmt (hdl 0 1))).isSome) = true ∧
    dec .bf16 0 = .fin false 0 (-133) false ∧ (hAddr (hdl 0 0) [7, 0, 0, 0]).1 % 128 + 4 ≤ 128 := by decide +kernel
/-- A collective of two members that match, with a source; a node of which no child is there. -/
theorem wit_collective : collPlaces (coll 3 0).rcd = none ∧ collHasSrc s0 (coll 3 0).rcd = true ∧ [member1 0].all (collAgrees (coll 3 0).rcd) = true ∧
    (findTeam s0 0).any (fun t => good (collRead s0 t 7 (coll 3 0).rcd).2 (fun _ => true)) = true ∧ dec .f32 0 = .fin false 0 (-149) false := by decide +kernel
theorem wit_node : (findTeam (handling .tlsig 0 0) 0).any (fun t => good (readNat (handling .tlsig 0 0) t 7 ((pw + 0x1000 + 128 * 0) % 2 ^ 64) 128).2 (fun n =>
    fld n 1023 936 == 0 && fld n 799 768 == 2 ^ 32 - 1)) = true := by decide +kernel
/-- A query that reserves a slot of its ring, and one whose ring is no longer live (log entry 115). -/
theorem wit_query_slot : ([true, false].all fun live => let s := commanded { cmd0 (.bvhq pwa false []) (.running 0) with ring := rk, outbox := [0xFFFFFFFF] } (if live then ring1 s0 else s0)
    heads s (fun _ k => k.outbox != [] && k.slot.isNone && ringLive (ringOf s k.ring) == live && s.broken == [] && k.ring % 128 == 0 && homeOf k.ring == 2 &&
      (!live || (!heldBack s { key := k.ring, pop := false, team := 0, gang := 23, lane := 0, port := 0 } && ringGrants s k.ring 1 false &&
        decide (ringTail (ringOf s k.ring) + 1 < 2 ^ 64))))) = true := by decide +kernel
/-- A launch that finds no core (R436), kills that find nothing or a launch that has completed, and a chain's count. -/
theorem wit_no_place : (findLaunch wanting 9).any (fun l => (placeFor wanting l).isNone && l.waits wanting) = true ∧
    ((up s0).timed.getD 63 Timed.reset).started = none ∧
    (let s := { up s0 with timed := s0.timed.set 63 { Timed.reset with started := some 8 } }
    (s.timed.getD 63 Timed.reset).started == some 8 && (findLaunch s 8).isNone) = true ∧
    (let s := { up s0 with timed := s0.timed.set 63 { Timed.reset with started := some 9 }, launches := [launched rec4 9] }
    (s.timed.getD 63 Timed.reset).started == some 9 && (findLaunch s 9).any (fun l => !l.killed)) = true := by decide +kernel
/-- A peer's fetch (R405), and the 64th resend of a datagram that found no answer (R408). -/
def unanswered (n : Nat) : State :=
  { commanded (cmd0 (.copy 0 1 pwa) (.running 0)) with clock := 20000 * (24 * 10 ^ 9), datagrams := [{ seq := 4, team := 0, e := 7, endpoint := 1, addr := 0, data := [], tries := n, sentAt := 0 }] }
theorem wit_peer_fetch : ((mapped served).mgmt.devValid && !errs (outsideRead { mapped served with mem := tput memDefault (mapped served).mem 0x10000 0x4F } 0 0 8 .fetch)) = true ∧
    ([63, 64].map fun n => (unanswered n).datagrams.any (fun d => d.seq == 4 && decide (d.sentAt + 20000 ≤ timeOf (unanswered n)) && decide (64 ≤ d.tries) &&
      (findTeam (unanswered n) d.team).any (fun x => (x.ctxOf d.e).queue != []))) = [false, true] := by decide +kernel
/-- A check of its own that fails: the array is not claimed (R292); and a check of names, with the handler of its class. -/
theorem wit_failed_check : (match issueView (handled s0) c0 with
    | some v => (nameFault v c0 (names [o1 (.q 0)] (d1 (g 2)))).any (fun i => handlerFor (handled s0) v.team.ctx i.cause i.tmem == some 8) &&
        (nameFault v c0 { dst := d1 (g 1), allowQ := false }).isNone && (claimOwn s0 v).isSome
    | none => false) = true := by decide +kernel
end Sys2Proof.Tests
end

section
/-! O41. The bay arbiter (R70, R303) and the clause that a bay latches (R62). -/

namespace Sys2Proof.Machine

-- R70's order: a lexicographic key, whose order is linear

/-- Is every lane of the group demoted (R97)? -/
def Cand.demoted (now : Nat) (c : Cand) : Bool := c.grp.all (fun i => decide (now < (c.gang.lane i).demotedUntil))

/-- The group's age: the earliest of its lanes' last-issue cycles (R70). -/
def Cand.age (c : Cand) : Nat :=
  (c.grp.map (fun i => (c.gang.lane i).lastIssue)).foldl min (c.gang.lane (c.grp.headD 0)).lastIssue

/-- The first three keys of R70, which make a linear order: the higher priority, the group that is not demoted, the smaller age. (Slot and
lane position are the order of the list of candidates.) -/
def Cand.key (now : Nat) (c : Cand) : Natᵒᵈ ×ₗ Bool ×ₗ Nat :=
  toLex (OrderDual.toDual c.team.prio, toLex (c.demoted now, c.age))

theorem Cand.before_iff_key_lt (now : Nat) (a b : Cand) : a.before now b = true ↔ a.key now < b.key now := by
  have unfolded : a.before now b = (if a.team.prio ≠ b.team.prio then decide (b.team.prio < a.team.prio)
      else if a.demoted now != b.demoted now then !a.demoted now else decide (a.age < b.age)) := rfl
  simp only [unfolded, Cand.key, Prod.Lex.toLex_lt_toLex, OrderDual.toDual_lt_toDual, OrderDual.toDual_inj]
  by_cases hp : a.team.prio = b.team.prio
  · cases a.demoted now <;> cases b.demoted now <;> simp [hp]
  · simp [hp]

theorem Cand.not_before_iff_key_le (now : Nat) (a b : Cand) : a.before now b = false ↔ b.key now ≤ a.key now := by
  rw [← not_lt, ← Cand.before_iff_key_lt, Bool.not_eq_true]

-- The arbiter's choice

theorem choose_eq_none_iff (now : Nat) (cs : List Cand) : choose now cs = none ↔ ∀ c ∈ cs, c.ready ≠ .yes := by
  induction cs with
  | nil => simp [choose]
  | cons c t ih =>
    rw [List.forall_mem_cons, ← ih, choose]
    cases choose now t with
    | none => simp
    | some d => dsimp only; split <;> simp

/-- The choice is ready, and no ready group has a smaller key. -/
theorem choose_least {now : Nat} {cs : List Cand} {c : Cand} (h : choose now cs = some c) :
    c ∈ cs ∧ c.ready = .yes ∧ ∀ d ∈ cs, d.ready = .yes → c.key now ≤ d.key now := by
  induction cs generalizing c with
  | nil => simp [choose] at h
  | cons a t ih =>
    rw [choose] at h
    cases ht : choose now t with
    | none =>
      have none_ready := (choose_eq_none_iff now t).mp ht
      obtain ⟨ha, rfl⟩ : a.ready = .yes ∧ a = c := by simpa [ht] using h
      exact ⟨List.mem_cons_self, ha, List.forall_mem_cons.mpr ⟨fun _ => le_rfl, fun d hd hr => absurd hr (none_ready d hd)⟩⟩
    | some d =>
      obtain ⟨hd, hr, least⟩ := ih ht
      simp only [ht] at h
      split at h
      · next takes =>
        -- the head, which the choice of the tail does not come before
        obtain rfl := Option.some.inj h
        have le_d : a.key now ≤ d.key now := (Cand.not_before_iff_key_le now d a).mp (by simpa using takes.2)
        exact ⟨List.mem_cons_self, takes.1, List.forall_mem_cons.mpr ⟨fun _ => le_rfl, fun e he hre => le_d.trans (least e he hre)⟩⟩
      · next leaves =>
        -- the choice of the tail, which comes before a head that is ready
        obtain rfl := Option.some.inj h
        have le_a : a.ready = .yes → d.key now ≤ a.key now := fun ha =>
          ((Cand.before_iff_key_lt now d a).mp (by simpa [ha] using leaves)).le
        exact ⟨List.mem_cons_of_mem _ hd, hr, List.forall_mem_cons.mpr ⟨le_a, least⟩⟩

-- The cycle of the issue (R303)

/-- Has a bay of a higher number issued in the present cycle? -/
def higherIssued (s : State) (core bay : Nat) : Prop := ∃ j < 4, bay < j ∧ (bayOf s core j).done = s.cycle + 1

theorem issueCycle_of_higherIssued {s : State} {core bay : Nat} (hn : (bayOf s core bay).next ≤ s.cycle)
    (h : higherIssued s core bay) : issueCycle s core bay = s.cycle + 1 := by
  have hc : max s.cycle (bayOf s core bay).next = s.cycle := by omega
  unfold issueCycle
  simp only [hc]
  rw [if_pos]
  simpa [higherIssued] using h

theorem issueCycle_of_not_higherIssued {s : State} {core bay : Nat} (h : ¬ higherIssued s core bay) :
    issueCycle s core bay = max s.cycle (bayOf s core bay).next := by
  unfold issueCycle
  refine if_neg (fun ⟨hc, hj⟩ => h ?_)
  simpa [higherIssued, hc] using hj

theorem not_higherIssued_iff {s : State} {core bay : Nat} :
    ¬ higherIssued s core bay ↔ ∀ j < 4, bay < j → (bayOf s core j).done ≠ s.cycle + 1 := by
  simp [higherIssued]

/-- A bay's clause issues no earlier than the present cycle, and than the bay itself may issue. -/
theorem le_issueCycle (s : State) (core bay : Nat) : max s.cycle (bayOf s core bay).next ≤ issueCycle s core bay := by
  unfold issueCycle
  dsimp only
  split <;> omega

theorem not_higherIssued_of_issueCycle {s : State} {core bay : Nat} (h : issueCycle s core bay = s.cycle) :
    ¬ higherIssued s core bay := fun hi => by
  have hn : (bayOf s core bay).next ≤ s.cycle := by have := le_issueCycle s core bay; omega
  have := issueCycle_of_higherIssued hn hi
  omega

-- What a bay that issues latches (R62)

/-- The groups that wait on a ring or a full context meet a YLD point (R84). -/
def meetYldPoints (s : State) (cs : List Cand) : State := cs.foldl (fun s c =>
  if c.ready = .full then
    c.grp.foldl (fun s i => modLane s c.team.uid c.g i (fun l => l.yldPoint c.team.stopping c.team.killPending)) s
  else s) s

/-- What every step of a fold keeps, the fold keeps. -/
theorem foldl_keeps {β γ : Type} (p : State → γ) {f : State → β → State} (hf : ∀ s b, p (f s b) = p s) (l : List β) (s : State) :
    p (l.foldl f s) = p s :=
  List.foldlRecOn l f (motive := fun t => p t = p s) rfl (fun t ht b _ => (hf t b).trans ht)

theorem meetYldPoints_keeps {γ : Type} (p : State → γ) (hp : ∀ s uid g i f, p (modLane s uid g i f) = p s) (s : State) (cs : List Cand) :
    p (meetYldPoints s cs) = p s := by
  refine foldl_keeps p (fun t c => ?_) cs s
  split
  · exact foldl_keeps p (fun t i => hp t _ _ i _) c.grp t
  · rfl

@[simp] theorem meetYldPoints_cores (s : State) (cs : List Cand) : (meetYldPoints s cs).cores = s.cores :=
  meetYldPoints_keeps State.cores modLane_cores s cs
@[simp] theorem meetYldPoints_mgmt (s : State) (cs : List Cand) : (meetYldPoints s cs).mgmt = s.mgmt :=
  meetYldPoints_keeps State.mgmt modLane_mgmt s cs

theorem pastEnd_eq_none {k : Clause} {n : Nat} (h : n ≤ k.hdr.ni) : pastEnd (.ok k) n = none := if_neg (Nat.not_lt.mpr h)

/-- CLAUSE_ISSUE where a group is chosen that neither stands past its clause's end, nor has a fault deferred, nor is overdue. -/
theorem execClauseIssue_of_choose {s : State} {core bay : Nat} {c : Cand} (hbay : bay < 4) (hcore : core < s.cores.length)
    (hidle : (bayOf s core bay).issue = none) (hrun : (dieOf s (coreDie core)).halted = false)
    (hc : choose (issueCycle s core bay) (candidates s core bay (issueCycle s core bay)) = some c)
    (hend : pastEnd c.fetched (c.gang.lane (c.grp.headD 0)).resume = none)
    (hdef : ∀ i ∈ c.grp, (c.gang.lane i).deferred = none) (hdue : ∀ i ∈ c.grp, (c.gang.lane i).overdue = false) :
    execClauseIssue core bay s = .next (issueClause
      (passTo (meetYldPoints s (candidates s core bay (issueCycle s core bay))) (issueCycle s core bay)) core bay (issueCycle s core bay) c) := by
  have idle : ¬ ((bayOf s core bay).issue.isSome ∨ (dieOf s (coreDie core)).halted ∨ 4 ≤ bay ∨ s.cores.length ≤ core) := by
    simp [hidle, hrun, hbay, hcore]
  have none_deferred : ¬ c.grp.any (fun i => (c.gang.lane i).deferred.isSome) := by simpa using hdef
  have none_overdue : c.grp.find? (fun i => (c.gang.lane i).overdue) = none := by simpa using hdue
  simp only [execClauseIssue, if_neg idle, hc, hend, if_neg none_deferred, none_overdue]
  rfl

/-- What the bay latches of the group's clause, which runs at `point`. -/
def Cand.issue (c : Cand) (k : Clause) (point : Nat) : Issue :=
  let l := c.gang.lane (c.grp.headD 0)
  { team := c.team.uid, gang := c.g, group := c.grp, pc := l.pc, cls := k.hdr.cls, ni := k.hdr.ni, words := k.words, lits := k.lits,
    slot := l.resume, window := restoredWindow c.gang c.grp l.resume, ports := c.gang.ports, rebind := [], point := point }

theorem bayOf_issueClause {s : State} {core bay : Nat} (now : Nat) {c : Cand} {k : Clause} (hk : c.fetched = .ok k)
    (hcore : core < s.cores.length) (hbay : bay < (coreOf s core).bays.length) :
    bayOf (issueClause s core bay now c) core bay =
      { bayOf s core bay with issue := some (c.issue k s.mgmt.perfCur), next := now } := by
  simp only [issueClause, hk]
  obtain ⟨-, cores, -, -, -, -, -, mgmt⟩ := (markCode_lines s c.team (c.gang.lane (c.grp.headD 0)).pc.toNat k.hdr.size).rest
  generalize markCode s c.team (c.gang.lane (c.grp.headD 0)).pc.toNat k.hdr.size = s1 at *
  rw [bayOf_modBay (hc := by simpa [cores] using hcore) (hb := by simpa [coreOf, cores] using hbay), bayOf_modGang,
    bayOf_congr cores, mgmt]
  rfl

/-- CLAUSE_ISSUE runs as its own definition. -/
theorem exec_clauseIssue (core bay : Nat) (s : State) : exec (.clauseIssue core bay) s = execClauseIssue core bay s := rfl

/-- Settles O41: the choice is the least of the ready groups under R70's linear key, and the bay latches the chosen group's clause as it
was fetched. -/
theorem clausesIssueInOrder : Obligations.ClausesIssueInOrder := by
  unfold Obligations.ClausesIssueInOrder
  refine ⟨fun now cs c h => ?_, choose_eq_none_iff, fun s core bay c k hbay hcore hlen hidle hrun hc hk hni hlanes => ?_,
    fun s core bay => ⟨le_issueCycle s core bay, fun h => not_higherIssued_iff.mp (not_higherIssued_of_issueCycle h),
      fun h => issueCycle_of_not_higherIssued (not_higherIssued_iff.mpr h)⟩⟩
  · obtain ⟨hmem, hready, least⟩ := choose_least h
    exact ⟨hmem, hready, fun d hd hr => (Cand.not_before_iff_key_le now d c).mpr (least d hd hr)⟩
  · have runs := execClauseIssue_of_choose hbay hcore hidle hrun hc (hk ▸ pastEnd_eq_none hni)
      (fun i hi => (hlanes i hi).1) (fun i hi => (hlanes i hi).2)
    have latched := bayOf_issueClause
      (s := passTo (meetYldPoints s (candidates s core bay (issueCycle s core bay))) (issueCycle s core bay)) (issueCycle s core bay) hk
      (by simpa using hcore) (by simpa [coreOf] using hlen)
    rw [passTo_mgmt, meetYldPoints_mgmt] at latched
    exact ⟨_, c.issue k s.mgmt.perfCur, (exec_clauseIssue core bay s).trans runs, by rw [latched],
      rfl, rfl, rfl, rfl, rfl, rfl, rfl, rfl, rfl, by rw [latched]⟩

end Sys2Proof.Machine
end

section
/-! Integer instructions (05). From what one lane computes to what a fixed-latency instruction leaves behind (R62, R106). -/

namespace Sys2Proof.Machine

-- How many words a source reads and a result holds

theorem fits_word (d : Name) (x : Word) : fits (d1 d) (.word x) := by
  rintro _ ⟨rfl⟩; rfl

theorem fits_dword (d : Name) (x : DWord) : fits (d2 d) (.dword x) := by
  rintro _ ⟨rfl⟩; rfl

theorem fits_none (o : LaneOut) : fits none o := by
  rintro _ ⟨⟩

theorem fits_dW (w64 : Bool) (d : Name) (x : Word) (y : DWord) : fits (dW w64 d) (if w64 then .dword y else .word x) := by
  cases w64
  · exact fits_word d x
  · exact fits_dword d y

/-- A source of 32 or 64 bits that is a legal name gives as many words as it is wide: no name is legal that holds fewer. -/
theorem srcWords_length {v : View} {allowQ : Bool} {o : Opnd} (legal : srcOk v allowQ o = true) (pos : 0 < o.words)
    (fresh : Nat) (pops : List ((Nat × Nat) × Word)) (i : Nat) : (srcWords fresh v pops i o).length = o.words := by
  obtain ⟨name, words, loose⟩ := o
  cases name with
  | g n | k n | c n => simp [srcWords]
  | q n =>
    simp only [srcOk, Bool.and_eq_true, beq_iff_eq] at legal
    exact legal.2.symm
  | sp x =>
    simp only [srcOk, beq_iff_eq] at legal
    exact legal.symm
  | bad n => simp [srcOk] at legal
  | w n =>
    simp only [srcOk, Bool.and_eq_true, decide_eq_true_eq] at legal
    obtain ⟨⟨-, narrow⟩, filled⟩ := legal
    cases hw : v.iss.window[v.iss.slot - n]? with
    | none => simp [hw] at filled
    | some w =>
      simp only [srcWords, hw]
      split
      · next one => exact one.symm
      · next wide => exact le_antisymm (by simp at *; omega) narrow

/-- An instruction that passes its checks names legal sources (R62). -/
theorem Passes.srcOk {s : State} {c : Common} {f : Front} {own : View → Option FaultInfo} {v : View} (h : Passes s c f own v) {o : Opnd}
    (ho : o ∈ f.srcs) : srcOk v f.allowQ o = true := by
  have legal := h.names
  unfold nameFault at legal
  by_cases all : f.srcs.all (Machine.srcOk v f.allowQ) = true
  · exact List.all_eq_true.mp all o ho
  · simp [all] at legal

theorem oW_words (w64 : Bool) (n : Name) : (oW w64 n).words = if w64 then 2 else 1 := by
  cases w64 <;> rfl

/-- The words of a source of an instruction that passes its checks fill a destination of the source's width. -/
theorem Passes.fits_src {s : State} {c : Common} {f : Front} {own : View → Option FaultInfo} {v : View} (h : Passes s c f own v)
    {w64 : Bool} {d n : Name} (hd : f.dst = dW w64 d) {k : Nat} (hk : f.srcs[k]? = some (oW w64 n)) (j : Nat) :
    fits f.dst { regs := (operands s v f j).vals.getD k [] } := by
  have len := srcWords_length (h.srcOk (List.mem_of_getElem? hk)) (by rw [oW_words]; split <;> decide) s.fresh (popAll s v f.srcPorts).2 j
  intro x hx
  rw [hd] at hx
  have wide : x.words = (oW w64 n).words := by cases w64 <;> cases hx <;> rfl
  simpa [operands, List.getD_eq_getElem?_getD, hk, wide] using len

-- Instructions of this chapter: each lane computes from its own operands, with latency 2

section
variable {s : State} {c : Common} {v : View} {i : Instr}

/-- An instruction whose lanes each compute from their own operands does what its lanes compute. -/
theorem computes_lanes {f : Front} {lat : Nat} {g : LaneIn → LaneOut} {o : View → (Nat → LaneIn) → Nat → LaneOut}
    (runs : exec i s = execAlu c { front := f, lat := lat, run := perLane g } s)
    (fill : Passes s c f noOwn v → ∀ j, fits f.dst (g (operands s v f j)))
    (same : ∀ inp j, g (inp j) = o v inp j) : Computes s c v i f noOwn o := by
  intro h
  have agree : perLane g v (operands s v f) = o v (operands s v f) := funext (same _)
  obtain ⟨t, next, wrote⟩ := execAlu_wrote (a := { front := f, lat := lat, run := perLane g }) h (fill h)
  exact ⟨t, runs.trans next, agree ▸ wrote⟩

theorem computes_word {srcs : List Opnd} {d : Name} {g : LaneIn → Word} {o : View → (Nat → LaneIn) → Nat → Word}
    (runs : exec i s = execAlu c (intAlu srcs (d1 d) (fun x => .word (g x))) s) (same : ∀ inp j, g (inp j) = o v inp j) :
    Computes s c v i (names srcs (d1 d)) noOwn (fun v x j => .word (o v x j)) :=
  computes_lanes runs (fun _ _ => fits_word _ _) (fun inp j => congrArg LaneOut.word (same inp j))

theorem computes_dword {srcs : List Opnd} {d : Name} {g : LaneIn → DWord} {o : View → (Nat → LaneIn) → Nat → DWord}
    (runs : exec i s = execAlu c (intAlu srcs (d2 d) (fun x => .dword (g x))) s) (same : ∀ inp j, g (inp j) = o v inp j) :
    Computes s c v i (names srcs (d2 d)) noOwn (fun v x j => .dword (o v x j)) :=
  computes_lanes runs (fun _ _ => fits_dword _ _) (fun inp j => congrArg LaneOut.dword (same inp j))

end

end Sys2Proof.Machine
end

section
/-! Integer instructions (05). Words, readings and bits that several of their statements share (R4, R41, R112, R131). -/

namespace Sys2Proof.Machine

-- Halves of pairs as bit ranges (R4, R41)

theorem lo32_eq_extractLsb' (x : DWord) : lo32 x = x.extractLsb' 0 32 := BitVec.setWidth_eq_extractLsb' (by decide)

theorem hi32_eq_extractLsb' (x : DWord) : hi32 x = x.extractLsb' 32 32 := by
  apply BitVec.eq_of_toNat_eq
  simp [hi32, BitVec.extractLsb'_toNat]

-- Readings of 32 or 64 bits (R108, R112)

theorem ofInt_toNat {w : Nat} (n : Nat) (x : BitVec w) : BitVec.ofInt n x.toNat = x.setWidth n := by
  rw [BitVec.ofInt_natCast, BitVec.ofNat_toNat]

theorem ofInt_rdInt_n {w : Nat} (n : Nat) (x : BitVec w) : BitVec.ofInt n (rdInt .n x) = x.setWidth n := ofInt_toNat n x

theorem outW_rawVal (w64 : Bool) (x : LaneIn) (k : Nat) : outW w64 (rawVal w64 x k) = if w64 then .dword (x.d k) else .word (x.w k) := by
  cases w64
  · exact congrArg LaneOut.word (BitVec.setWidth_setWidth_of_le _ (by decide) |>.trans (BitVec.setWidth_eq _))
  · rfl

theorem rawVal_toNat_narrow (x : LaneIn) (k : Nat) : (rawVal false x k).toNat = (x.w k).toNat :=
  BitVec.toNat_setWidth_of_le (b := x.w k) (by decide)

/-- A bit of a truth table is numbered by its three inputs. -/
theorem tblBit_eq_testBit (tbl : Nat) (a b d : Bool) : tblBit tbl a b d = tbl.testBit (4 * a.toNat + 2 * b.toNat + d.toNat) := by
  cases a <;> cases b <;> cases d <;> rfl

end Sys2Proof.Machine
end

section
/-! O1, O6. Moves, arithmetic and addresses (R108, R114 to R119, R128). -/

namespace Sys2Proof.Machine

-- Results brought to their width (R108)

theorem ofInt_emod (w : Nat) (n : Int) : BitVec.ofInt w (n % (2 ^ w : Nat)) = BitVec.ofInt w n := by
  apply BitVec.eq_of_toNat_eq
  simp [BitVec.toNat_ofInt]

theorem satS_eq_narrowed (w : Nat) (es en : Int) : satS w es = narrowed w .ssat es en := by
  have pos : 0 < 2 ^ (w - 1) := by positivity
  simp only [satS, narrowed]
  split_ifs <;> congr 1 <;> omega

theorem satN_eq_narrowed (w : Nat) (es en : Int) : satN w en = narrowed w .nsat es en := by
  have pos : 0 < 2 ^ w := by positivity
  have top : BitVec.ofInt w ((2 ^ w : Nat) - 1) = BitVec.allOnes w := by
    apply BitVec.eq_of_toNat_eq
    rw [BitVec.toNat_ofInt, BitVec.toNat_allOnes, Int.emod_eq_of_lt] <;> omega
  simp only [satN, narrowed, ← top, ← show BitVec.ofInt w 0 = 0 by simp]
  split_ifs <;> congr 1 <;> omega

theorem intRes_eq_narrowed (t : Sat) (es en : Int) : intRes t es en = narrowed 32 t es en := by
  cases t with
  | wrap => exact (ofInt_emod 32 en).symm
  | ssat => exact satS_eq_narrowed 32 es en
  | nsat => exact satN_eq_narrowed 32 es en

theorem intRes64_eq_narrowed (t : Sat) (es en : Int) : intRes64 t es en = narrowed 64 t es en := by
  cases t with
  | wrap => exact (ofInt_emod 64 en).symm
  | ssat => exact satS_eq_narrowed 64 es en
  | nsat => exact satN_eq_narrowed 64 es en

-- Sums modulo 2^64 (R118, R128)

theorem wrap64_mul_add (a b : Int) (x : DWord) : wrap64 (a * b + x.toNat) = BitVec.ofInt 64 a * BitVec.ofInt 64 b + x := by
  rw [wrap64, BitVec.ofInt_add, BitVec.ofInt_mul, ofInt_toNat, BitVec.setWidth_eq]

theorem wrap64_address (b : DWord) (i : Int) (scale : Nat) (off : Word) :
    wrap64 (b.toNat + i * scale + off.toInt) = b + BitVec.ofInt 64 i * BitVec.ofNat 64 scale + off.signExtend 64 := by
  rw [wrap64, BitVec.ofInt_add, BitVec.ofInt_add, BitVec.ofInt_mul, ofInt_toNat, BitVec.setWidth_eq, BitVec.ofInt_natCast]
  rfl

-- MOVK's halves (R115)

theorem toNat_append_halves (h l : BitVec 16) : (h ++ l).toNat = h.toNat * 65536 + l.toNat := by
  rw [BitVec.toNat_append, ← Nat.shiftLeft_add_eq_or_of_lt l.isLt, Nat.shiftLeft_eq]

theorem movk_high (k : Nat) (x : Word) :
    BitVec.ofNat 32 (k * 65536 + x.toNat % 65536) = BitVec.ofNat 16 k ++ x.extractLsb' 0 16 := by
  apply BitVec.eq_of_toNat_eq
  rw [toNat_append_halves]
  simp only [BitVec.toNat_ofNat, BitVec.extractLsb'_toNat, Nat.shiftRight_zero]
  omega

theorem movk_low {k : Nat} (hk : k < 65536) (x : Word) :
    BitVec.ofNat 32 (x.toNat / 65536 * 65536 + k) = x.extractLsb' 16 16 ++ BitVec.ofNat 16 k := by
  apply BitVec.eq_of_toNat_eq
  rw [toNat_append_halves]
  have small := x.isLt
  simp only [BitVec.toNat_ofNat, BitVec.extractLsb'_toNat, Nat.shiftRight_eq_div_pow]
  omega

/-- Settles O1: each exact result, brought to its width by R108. -/
theorem integerArithmeticComputes : Obligations.IntegerArithmeticComputes := by
  unfold Obligations.IntegerArithmeticComputes
  intro s c v
  refine ⟨?mov, ?movImm, ?movk, ?iadd, ?iaddImm, ?isub, ?isubImm, ?imul, ?imulImm, ?imulh, ?imad, ?imadw, ?iadd64, ?isub64⟩
  case mov =>
    exact fun d a w64 => computes_lanes (g := fun x => { regs := x.vals.getD 0 [] }) rfl (fun h => h.fits_src rfl rfl) (fun _ _ => rfl)
  case movImm => exact fun d imm => computes_word rfl (fun _ _ => rfl)
  case movk =>
    intro d k hi z hk
    refine computes_lanes rfl (fun _ _ => fits_word _ _) (fun x i => congrArg LaneOut.word ?_)
    have read : (if z then 0 else ((x i).old.getD 0 0).toNat) = (if z then 0 else (x i).old.getD 0 0 : Word).toNat := by
      cases z <;> rfl
    simp only [read]
    cases hi
    · exact movk_low hk _
    · exact movk_high k _
  case iadd | isub | imul => exact fun d a b t => computes_word rfl (fun _ _ => intRes_eq_narrowed t _ _)
  case iaddImm | isubImm | imulImm => exact fun d a imm => computes_word rfl (fun _ _ => rfl)
  case imulh =>
    refine fun d a b t => computes_word rfl (fun x i => (hi32_eq_extractLsb' _).trans (congrArg (BitVec.extractLsb' 32 32) ?_))
    cases t with
    | s => rfl
    | n => exact BitVec.ofInt_natCast 64 (((x i).w 0).toNat * ((x i).w 1).toNat)
  case imad => exact fun d a b e t => computes_word rfl (fun _ _ => intRes_eq_narrowed t _ _)
  case imadw =>
    refine fun d a b e t => computes_dword rfl (fun x i => (wrap64_mul_add _ _ _).trans ?_)
    cases t with
    | s => rfl
    | n => rw [ofInt_rdInt_n, ofInt_rdInt_n]
  case iadd64 | isub64 => exact fun d a b t => computes_dword rfl (fun _ _ => intRes64_eq_narrowed t _ _)

/-- Settles O6: the exact sum of R128 modulo 2^64 is the sum of the readings modulo 2^64. -/
theorem leaFormsAddress : Obligations.LeaFormsAddress := by
  unfold Obligations.LeaFormsAddress
  refine fun s c v d base idx off scale t => computes_dword rfl (fun x i => (wrap64_address _ _ _ _).trans ?_)
  cases t with
  | s => rfl
  | n => rw [ofInt_rdInt_n]

end Sys2Proof.Machine
end

section
/-! O3. Signs and order (R121, R122). -/

namespace Sys2Proof.Machine

-- −a and |a|, and where the signed range ends (R108)

theorem ofInt_neg_toInt {w : Nat} (a : BitVec w) : BitVec.ofInt w (-a.toInt) = -a := by
  rw [BitVec.ofInt_neg, BitVec.ofInt_toInt]

theorem ofInt_natAbs_toInt {w : Nat} (a : BitVec w) : BitVec.ofInt w a.toInt.natAbs = a.abs := by
  rw [BitVec.abs_eq, BitVec.msb_eq_toInt]
  by_cases neg : a.toInt < 0
  · rw [if_pos (by simpa using neg), Int.ofNat_natAbs_of_nonpos neg.le, ofInt_neg_toInt]
  · rw [if_neg (by simpa using neg), Int.natAbs_of_nonneg (not_lt.mp neg), BitVec.ofInt_toInt]

/-- A value as far from zero as a signed operand saturates only where the operand is the most negative one. -/
theorem satS_of_natAbs_eq {w : Nat} (hw : 0 < w) (a : BitVec w) {n : Int} (magnitude : n.natAbs = a.toInt.natAbs) (nonneg : a.toInt < 0 → 0 ≤ n) :
    satS w n = if a = BitVec.intMin w then BitVec.intMax w else BitVec.ofInt w n := by
  have half : 0 < 2 ^ (w - 1) := by positivity
  have low := a.le_toInt
  have high : a.toInt < 2 ^ (w - 1) := BitVec.toInt_lt
  have least : (BitVec.intMin w).toInt = -((2 ^ (w - 1) : Nat) : Int) := by
    rw [BitVec.toInt_intMin, Nat.mod_eq_of_lt (Nat.pow_lt_pow_right (by decide) (by omega))]
  have iff : a = BitVec.intMin w ↔ a.toInt = -((2 ^ (w - 1) : Nat) : Int) := by rw [← least, BitVec.toInt_inj]
  rw [← BitVec.ofInt_toInt (x := BitVec.intMax w), BitVec.toInt_intMax, satS]
  push_cast at *
  split_ifs with h <;> rw [iff] at h <;> congr 1 <;> omega

theorem satS_neg {w : Nat} (hw : 0 < w) (a : BitVec w) :
    satS w (-a.toInt) = if a = BitVec.intMin w then BitVec.intMax w else -a := by
  rw [satS_of_natAbs_eq hw a (Int.natAbs_neg _) (by omega), ofInt_neg_toInt]

theorem satS_natAbs {w : Nat} (hw : 0 < w) (a : BitVec w) :
    satS w a.toInt.natAbs = if a = BitVec.intMin w then BitVec.intMax w else a.abs := by
  rw [satS_of_natAbs_eq hw a (Int.natAbs_natCast _) (by omega), ofInt_natAbs_toInt]

-- The smaller and the larger of two values (R122)

/-- Of two values with one reading it does not matter which is taken. -/
theorem larger_either_way {α : Type} {r : α → Int} (inj : Function.Injective r) (a b : α) :
    (if r b ≤ r a then a else b) = if r a ≤ r b then b else a := by
  split_ifs with ge le le
  · exact inj (le_antisymm le ge)
  · rfl
  · rfl
  · omega

theorem smaller_signed {w : Nat} (a b : BitVec w) : (if a.toInt ≤ b.toInt then a else b) = if a.sle b then a else b := by
  simp only [BitVec.sle_eq_decide, decide_eq_true_eq]

theorem larger_signed {w : Nat} (a b : BitVec w) : (if b.toInt ≤ a.toInt then a else b) = if a.sle b then b else a := by
  simp only [BitVec.sle_eq_decide, decide_eq_true_eq]
  exact larger_either_way (fun _ _ => BitVec.toInt_inj.mp) a b

theorem smaller_unsigned {w : Nat} (a b : BitVec w) : (if (a.toNat : Int) ≤ b.toNat then a else b) = if a ≤ b then a else b := by
  simp only [BitVec.le_def, Int.ofNat_le]

theorem larger_unsigned {w : Nat} (a b : BitVec w) : (if (b.toNat : Int) ≤ a.toNat then a else b) = if a ≤ b then b else a := by
  simp only [BitVec.le_def, ← Int.ofNat_le]
  exact larger_either_way (r := fun x : BitVec w => (x.toNat : Int)) (fun _ _ h => BitVec.eq_of_toNat_eq (Int.ofNat_inj.mp h)) a b

theorem minMax_smaller (t : ITy) (x : LaneIn) : minMax t false x =
    if ity64 t then .dword (if tyVal t x 0 ≤ tyVal t x 1 then x.d 0 else x.d 1)
    else .word (if tyVal t x 0 ≤ tyVal t x 1 then x.w 0 else x.w 1) := by
  by_cases first : tyVal t x 0 ≤ tyVal t x 1 <;> simp [minMax, outW_rawVal, first]

theorem minMax_larger (t : ITy) (x : LaneIn) : minMax t true x =
    if ity64 t then .dword (if tyVal t x 1 ≤ tyVal t x 0 then x.d 0 else x.d 1)
    else .word (if tyVal t x 1 ≤ tyVal t x 0 then x.w 0 else x.w 1) := by
  by_cases first : tyVal t x 1 ≤ tyVal t x 0 <;> simp [minMax, outW_rawVal, first]

/-- Settles O3: the only operand whose sign change leaves the signed range is the most negative one. -/
theorem signAndOrderCompute : Obligations.SignAndOrderCompute := by
  unfold Obligations.SignAndOrderCompute
  intro s c v
  refine ⟨?ineg, ?iabs, ?imin, ?iminImm, ?imax, ?imaxImm⟩
  case ineg =>
    refine fun d a t => computes_lanes rfl (fun _ _ => fits_dW _ _ _ _) (fun x i => ?_)
    cases t with
    | s32 => exact congrArg LaneOut.word (ofInt_neg_toInt _)
    | s32sat => exact congrArg LaneOut.word (satS_neg (by decide) _)
    | s64 => exact congrArg LaneOut.dword (ofInt_neg_toInt _)
    | s64sat => exact congrArg LaneOut.dword (satS_neg (by decide) _)
  case iabs =>
    refine fun d a t => computes_lanes rfl (fun _ _ => fits_dW _ _ _ _) (fun x i => ?_)
    cases t with
    | s32 => exact congrArg LaneOut.word (ofInt_natAbs_toInt _)
    | s32sat => exact congrArg LaneOut.word (satS_natAbs (by decide) _)
    | s64 => exact congrArg LaneOut.dword (ofInt_natAbs_toInt _)
    | s64sat => exact congrArg LaneOut.dword (satS_natAbs (by decide) _)
  case imin =>
    refine fun d a b t => computes_lanes rfl (fun _ _ => fits_dW _ _ _ _) (fun x i => (minMax_smaller t (x i)).trans ?_)
    cases t with
    | s32 => exact congrArg LaneOut.word (smaller_signed _ _)
    | n32 => exact congrArg LaneOut.word (smaller_unsigned _ _)
    | s64 => exact congrArg LaneOut.dword (smaller_signed _ _)
    | n64 => exact congrArg LaneOut.dword (smaller_unsigned _ _)
  case iminImm => exact fun d a imm => computes_word rfl (fun _ _ => smaller_signed _ _)
  case imax =>
    refine fun d a b t => computes_lanes rfl (fun _ _ => fits_dW _ _ _ _) (fun x i => (minMax_larger t (x i)).trans ?_)
    cases t with
    | s32 => exact congrArg LaneOut.word (larger_signed _ _)
    | n32 => exact congrArg LaneOut.word (larger_unsigned _ _)
    | s64 => exact congrArg LaneOut.dword (larger_signed _ _)
    | n64 => exact congrArg LaneOut.dword (larger_unsigned _ _)
  case imaxImm => exact fun d a imm => computes_word rfl (fun _ _ => larger_signed _ _)

end Sys2Proof.Machine
end

section
/-! O4. Truth tables, fields, counts and bit reversal (R123, R126, R127). -/

namespace Sys2Proof.Machine

-- A number given by its bits (R123, R127)

/-- A sum of powers of two, one for each bit that is set, has those bits. -/
theorem sum_two_pow_eq_ofBits (p : Nat → Bool) (n : Nat) :
    (∑ i ∈ Finset.range n, if p i then 2 ^ i else 0) = Nat.ofBits (fun i : Fin n => p i) := by
  induction n generalizing p with
  | zero => rfl
  | succ n ih =>
    have doubled (i : Nat) : (if p (i + 1) then 2 ^ (i + 1) else 0) = 2 * if p (i + 1) then 2 ^ i else 0 := by
      split <;> omega
    have lowest : (if p 0 then 2 ^ 0 else 0) = (p 0).toNat := by cases p 0 <;> rfl
    simp only [Finset.sum_range_succ', doubled, lowest, ← Finset.mul_sum, ih (fun i => p (i + 1)), Nat.ofBits_succ]
    rfl

theorem ofNat_sum_two_pow (p : Nat → Bool) (n : Nat) :
    BitVec.ofNat n (∑ i ∈ Finset.range n, if p i then 2 ^ i else 0) = BitVec.ofFnLE (fun i : Fin n => p i) := by
  apply BitVec.eq_of_toNat_eq
  rw [sum_two_pow_eq_ofBits, BitVec.toNat_ofNat, BitVec.toNat_ofFnLE, Nat.mod_eq_of_lt (Nat.ofBits_lt_two_pow _)]

/-- Adding powers of two, one for each i below n that meets `p`. -/
theorem foldl_two_pow (p : Nat → Bool) (e : Nat → Nat) (n : Nat) :
    (List.range n).foldl (fun a i => if p i then a + 2 ^ e i else a) 0 = ∑ i ∈ Finset.range n, if p i then 2 ^ e i else 0 := by
  induction n with
  | zero => rfl
  | succ n ih =>
    rw [List.range_succ, List.foldl_append, ih, Finset.sum_range_succ]
    split <;> simp_all

theorem logtRes_eq_ofFnLE (tbl : Nat) (a b d : Word) : logtRes tbl a b d = BitVec.ofFnLE (fun (j : Fin 32) =>
    tbl.testBit (4 * (a.getLsbD j).toNat + 2 * (b.getLsbD j).toNat + (d.getLsbD j).toNat)) := by
  rw [logtRes, foldl_two_pow, ofNat_sum_two_pow]
  simp only [tblBit_eq_testBit]

theorem ofNat_brevRes {w : Nat} (x : BitVec w) : BitVec.ofNat w (brevRes w x.toNat) = x.reverse := by
  have mirrored : brevRes w x.toNat = ∑ i ∈ Finset.range w, if x.toNat.testBit (w - 1 - i) then 2 ^ i else 0 := by
    rw [brevRes, foldl_two_pow, ← Finset.sum_range_reflect]
    refine Finset.sum_congr rfl (fun i hi => ?_)
    rw [Nat.sub_sub_self (by have := Finset.mem_range.mp hi; omega)]
  refine BitVec.eq_of_getLsbD_eq (fun j hj => ?_)
  rw [mirrored, ofNat_sum_two_pow (fun i => x.toNat.testBit (w - 1 - i)), BitVec.getLsbD_ofFnLE, dif_pos hj, BitVec.testBit_toNat,
    BitVec.getLsbD_reverse, BitVec.getMsbD_eq_getLsbD, decide_eq_true hj, Bool.true_and]

-- Counts (R127)

theorem popCount_eq_countP (x n : Nat) : popCount x n = (List.range n).countP x.testBit := by
  induction n with
  | zero => rfl
  | succ n ih => simp [popCount, ih, List.range_succ, List.countP_append, List.countP_cons]

/-- No bit of a W-bit value stands at W or above. -/
theorem popCount_add {x w : Nat} (hx : x < 2 ^ w) (k : Nat) : popCount x (w + k) = popCount x w := by
  induction k with
  | zero => rfl
  | succ k ih =>
    have clear : x.testBit (w + k) = false := Nat.testBit_lt_two_pow (hx.trans_le (Nat.pow_le_pow_right (by decide) (by omega)))
    rw [← Nat.add_assoc, popCount, ih, clear]
    rfl

theorem toNat_natCast_self (w : Nat) : ((w : Nat) : BitVec w).toNat = w := by
  simp [Nat.mod_eq_of_lt Nat.lt_two_pow_self]

theorem clzRes_toNat {w : Nat} (x : BitVec w) : clzRes w x.toNat = x.clz.toNat := by
  rw [clzRes]
  by_cases zero : x = 0#w
  · rw [if_pos (by simp [zero]), BitVec.clz_eq_iff_eq_zero.mpr zero]
    exact (toNat_natCast_self w).symm
  · have nonzero : x.toNat ≠ 0 := fun h => zero (BitVec.eq_of_toNat_eq (by simpa using h))
    have inside : x.clz.toNat < w := by
      have lt := BitVec.lt_def.mp (BitVec.clz_lt_iff_ne_zero.mpr zero)
      rwa [toNat_natCast_self] at lt
    have top : x.toNat.log2 = w - 1 - x.clz.toNat := by
      refine (Nat.log2_eq_iff nonzero).mpr ⟨BitVec.two_pow_sub_clz_le_toNat_of_ne_zero (by omega) zero, ?_⟩
      rw [show w - 1 - x.clz.toNat + 1 = w - x.clz.toNat by omega]
      exact BitVec.toNat_lt_two_pow_sub_clz
    rw [if_neg nonzero, top]
    omega

/-- The count stops at the first one bit, or past the last bit. -/
theorem ctzFrom_eq {x n k first : Nat} (from_le : k ≤ first) (le : first ≤ k + n) (zeros : ∀ i < first, x.testBit i = false)
    (one : first < k + n → x.testBit first = true) : ctzFrom x n k = first := by
  induction n generalizing k with
  | zero => exact le_antisymm from_le le
  | succ n ih =>
    rw [ctzFrom]
    rcases from_le.eq_or_lt with rfl | lt
    · rw [if_pos (one (by omega))]
    · rw [if_neg (by simp [zeros k lt])]
      exact ih lt (by omega) (fun h => one (by omega))

theorem ctzRes_toNat {w : Nat} (x : BitVec w) : ctzRes w x.toNat = x.ctz.toNat := by
  have le : x.ctz.toNat ≤ w := by
    have le := BitVec.le_def.mp (BitVec.clz_le (x := x.reverse))
    rwa [toNat_natCast_self] at le
  refine ctzFrom_eq (Nat.zero_le _) (by omega) (fun i hi => BitVec.getLsbD_false_of_lt_ctz hi) (fun inside => ?_)
  refine BitVec.getLsbD_true_ctz_of_ne_zero (BitVec.ctz_lt_iff_ne_zero.mp (BitVec.lt_def.mpr ?_))
  rw [toNat_natCast_self]
  omega

/-- A count of a 32- or 64-bit value, as a 32-bit result. -/
theorem ofNat_count {count : Nat → Nat → Nat} {r : (w : Nat) → BitVec w → BitVec w} (counts : ∀ w (x : BitVec w), count w x.toNat = (r w x).toNat)
    (w64 : Bool) (x : LaneIn) : BitVec.ofNat 32 (count (widthOf w64) (rawVal w64 x 0).toNat) =
      if w64 then (r 64 (x.d 0)).setWidth 32 else r 32 (x.w 0) := by
  cases w64
  · rw [rawVal_toNat_narrow]
    exact (congrArg (BitVec.ofNat 32) (counts 32 _)).trans (BitVec.ofNat_toNat _ _ |>.trans (BitVec.setWidth_eq _))
  · exact (congrArg (BitVec.ofNat 32) (counts 64 _)).trans (BitVec.ofNat_toNat _ _)

-- Fields (R126)

theorem fld_toNat {w : Nat} (x : BitVec w) (h l : Nat) : fld x.toNat h l = (x.extractLsb' l (h + 1 - l)).toNat := by
  rw [fld, BitVec.extractLsb'_toNat, Nat.shiftRight_eq_div_pow]

theorem sext_toNat {e : Nat} (he : 0 < e) (x : BitVec e) : sext e x.toNat = x.toInt := by
  obtain ⟨k, rfl⟩ : ∃ k, e = k + 1 := ⟨e - 1, by omega⟩
  rw [sext, BitVec.toInt_eq_toNat_cond, Nat.add_sub_cancel, Nat.pow_succ]
  split_ifs <;> omega

/-- The e bits of a value from bit `pos` on. -/
theorem fld_eq_setWidth {w : Nat} (a : BitVec w) (pos : Nat) {e : Nat} (he : 0 < e) :
    fld a.toNat (pos + e - 1) pos = ((a >>> pos).setWidth e).toNat := by
  rw [fld, show pos + e - 1 + 1 - pos = e by omega, BitVec.toNat_setWidth, BitVec.toNat_ushiftRight, Nat.shiftRight_eq_div_pow]

/-- A mask of e ones from bit `pos` on. -/
theorem ofNat_mask (w e pos : Nat) : BitVec.ofNat w ((2 ^ e - 1) * 2 ^ pos) = (BitVec.allOnes e).setWidth w <<< pos := by
  refine BitVec.eq_of_getLsbD_eq (fun j hj => ?_)
  rw [BitVec.getLsbD_ofNat, Nat.testBit_mul_two_pow, Nat.testBit_two_pow_sub_one, BitVec.getLsbD_shiftLeft, BitVec.getLsbD_setWidth,
    BitVec.getLsbD_allOnes, Bool.eq_iff_iff]
  simp only [Bool.and_eq_true, Bool.not_eq_true', decide_eq_true_eq, decide_eq_false_iff_not]
  omega

/-- BFX reads the field as a value of its own width (R126). -/
theorem bfxRes_eq (t : Sgn) (a f : Word) {pos len : Nat} (hpos : (f.extractLsb' 0 8).toNat = pos) (hlen : (f.extractLsb' 8 8).toNat = len) :
    bfxRes t a f = if 32 ≤ pos ∨ len = 0 then 0 else BitVec.ofInt 32 (rdInt t ((a >>> pos).setWidth (min len (32 - pos)))) := by
  subst hpos hlen
  simp only [bfxRes, fld_toNat f]
  split_ifs with empty
  · rfl
  · rw [fld_eq_setWidth a _ (by omega)]
    cases t with
    | s => exact congrArg (BitVec.ofInt 32) (sext_toNat (by omega) _)
    | n => exact (BitVec.ofInt_natCast 32 _).symm

/-- Settles O4: each function of the model, which counts and adds over numbers, gives the bits of the rule. -/
theorem bitFieldsCompute : Obligations.BitFieldsCompute := by
  unfold Obligations.BitFieldsCompute
  intro s c v
  refine ⟨?logt, ?bfx, ?bfi, ?popc, ?clz, ?ctz, ?brev⟩
  case logt =>
    exact fun d a b tbl => computes_lanes rfl (fun _ _ => fits_word _ _) (fun _ _ => congrArg LaneOut.word (logtRes_eq_ofFnLE _ _ _ _))
  case bfx =>
    refine fun d a f t => computes_word rfl (fun x i => (bfxRes_eq t _ _ rfl rfl).trans ?_)
    cases t with
    | s => rfl
    | n => rw [ofInt_rdInt_n]
  case bfi =>
    refine fun d ins base f => computes_word rfl (fun x i => ?_)
    simp only [bfiRes, fld_toNat, ofNat_mask]
  case popc =>
    refine fun d a w64 => computes_word rfl (fun x i => congrArg (BitVec.ofNat 32) ?_)
    cases w64
    · rw [rawVal_toNat_narrow]
      exact (popCount_add ((x i).w 0).isLt 32).trans (popCount_eq_countP _ 32)
    · exact popCount_eq_countP _ 64
  case clz => exact fun d a w64 => computes_word rfl (fun x i => ofNat_count (r := fun _ x => x.clz) (fun _ => clzRes_toNat) w64 (x i))
  case ctz => exact fun d a w64 => computes_word rfl (fun x i => ofNat_count (r := fun _ x => x.ctz) (fun _ => ctzRes_toNat) w64 (x i))
  case brev =>
    refine fun d a w64 => computes_lanes rfl (fun _ _ => fits_dW _ _ _ _) (fun x i => ?_)
    cases w64
    · rw [rawVal_toNat_narrow]
      exact congrArg LaneOut.word ((BitVec.setWidth_ofNat_of_le (by decide) _).trans (ofNat_brevRes ((x i).w 0)))
    · exact congrArg LaneOut.dword (ofNat_brevRes _)

end Sys2Proof.Machine
end

section
/-! O5. Shifts, rotations and funnel shifts by any count (R124, R125). -/

namespace Sys2Proof.Machine

theorem shiftRes_shl {w : Nat} (a : BitVec w) (n : Nat) : shiftRes .shl a n = a <<< n := by
  by_cases out : w ≤ n
  · simp [shiftRes, out, BitVec.shiftLeft_eq_zero out]
  · simp [shiftRes, out]

theorem shiftRes_shr {w : Nat} (a : BitVec w) (n : Nat) : shiftRes .shr a n = a >>> n := by
  by_cases out : w ≤ n
  · simp [shiftRes, out, BitVec.ushiftRight_eq_zero out]
  · simp [shiftRes, out]

/-- From a count of W on, an arithmetic shift leaves copies of the sign alone. -/
theorem shiftRes_sar {w : Nat} (a : BitVec w) (n : Nat) : shiftRes .sar a n = a.sshiftRight n := by
  show a.sshiftRight (min n w) = a.sshiftRight n
  by_cases inside : n ≤ w
  · rw [min_eq_left inside]
  · rw [min_eq_right (by omega)]
    refine BitVec.eq_of_getLsbD_eq (fun i _ => ?_)
    rw [BitVec.getLsbD_sshiftRight, BitVec.getLsbD_sshiftRight, if_neg (by omega), if_neg (by omega)]

theorem shiftRes_rot {w : Nat} (a : BitVec w) (n : Nat) : shiftRes .rot a n = a.rotateLeft n :=
  BitVec.rotateLeft_mod_eq_rotateLeft

/-- Settles O5: a count of the operand's width or more needs no clause of its own. -/
theorem shiftsCompute : Obligations.ShiftsCompute := by
  unfold Obligations.ShiftsCompute
  intro s c v
  refine ⟨?shl, ?shlImm, ?shr, ?shrImm, ?sar, ?sarImm, ?rot, ?rotImm, ?funl⟩
  case shl | shr | sar | rot =>
    refine fun d a n w64 => computes_lanes rfl (fun _ _ => fits_dW _ _ _ _) (fun x i => ?_)
    simp only [shiftRes_shl, shiftRes_shr, shiftRes_sar, shiftRes_rot]
  case shlImm => exact fun d a n => computes_word rfl (fun _ _ => shiftRes_shl _ n)
  case shrImm => exact fun d a n => computes_word rfl (fun _ _ => shiftRes_shr _ n)
  case sarImm => exact fun d a n => computes_word rfl (fun _ _ => shiftRes_sar _ n)
  case rotImm => exact fun d a n => computes_word rfl (fun _ _ => shiftRes_rot _ n)
  case funl =>
    refine fun d lo hi n left => computes_word rfl (fun x i => ?_)
    cases left
    · exact lo32_eq_extractLsb' _
    · exact hi32_eq_extractLsb' _

end Sys2Proof.Machine
end

section
/-! O7. Compares and predicates (R129 to R132). -/

namespace Sys2Proof.Machine

/-- Masking two values of one width leaves a bit, whatever the width to which they are read. -/
theorem rawVal_and_ne_zero (w64 : Bool) (x : LaneIn) : (rawVal w64 x 0 &&& rawVal w64 x 1 != 0) =
    if w64 then decide (x.d 0 &&& x.d 1 ≠ 0) else decide (x.w 0 &&& x.w 1 ≠ 0) := by
  have judged (y : DWord) : (y != 0) = decide (y ≠ 0) := by rw [Bool.eq_iff_iff, bne_iff_ne, decide_eq_true_iff]
  rw [judged]
  cases w64
  · refine decide_eq_decide.mpr (not_congr ?_)
    rw [rawVal, rawVal, if_neg Bool.false_ne_true, if_neg Bool.false_ne_true, ← BitVec.setWidth_and]
    exact ⟨fun h => by simpa using congrArg (BitVec.setWidth 32) h, fun h => by rw [h]; rfl⟩
  · rfl

theorem bank_eq_ofFnLE (l : Lane) {bank : Nat} (hb : bank < 3) :
    (l.preds >>> (32 * bank)).setWidth 32 = BitVec.ofFnLE (fun (j : Fin 32) => l.pred (32 * bank + j)) := by
  refine BitVec.eq_of_getLsbD_eq (fun j hj => ?_)
  have named : 32 * bank + j ≠ 127 := by omega
  simp [hj, Lane.pred, named]

/-- Settles O7: compares judge the readings of R112, and TST the bits. -/
theorem predicatesCompute : Obligations.PredicatesCompute := by
  unfold Obligations.PredicatesCompute
  intro s c v
  refine ⟨?icmp, ?sel, ?plog, ?prd, ?pwr⟩
  case icmp =>
    refine fun pd a b k t => computes_lanes rfl (fun _ _ => fits_none _) (fun x i => congrArg (LaneOut.pred pd) ?_)
    cases k with
    | tst => exact rawVal_and_ne_zero (ity64 t) (x i)
    | eq | ne | lt | le | gt | ge => cases t <;> rfl
  case sel =>
    intro d a b ps inv w64
    refine computes_lanes (g := fun x => { regs := x.vals.getD (if x.lane.pred ps != inv then 0 else 1) [] }) rfl (fun h j => ?_) (fun x i => ?_)
    · split
      · exact h.fits_src rfl rfl j
      · exact h.fits_src rfl rfl j
    · by_cases second : (x i).lane.pred ps = inv <;> simp [second]
  case plog =>
    exact fun pd pa pb tbl => computes_lanes rfl (fun _ _ => fits_none _) (fun _ _ => congrArg (LaneOut.pred pd) (tblBit_eq_testBit _ _ _ _))
  case prd =>
    exact fun d bank hb => computes_lanes rfl (fun _ _ => fits_word _ _) (fun _ _ => congrArg LaneOut.word (bank_eq_ofFnLE _ hb))
  case pwr =>
    refine fun a m bank => computes_lanes rfl (fun _ _ => fits_none _) (fun x i => ?_)
    rw [← List.filterMap_eq_map, List.filterMap_filter]
    rfl

end Sys2Proof.Machine
end

section
/-! O47. The ordering machine (08): FILL, EVICT, LOAD, STORE, DRAIN and the acknowledgements of a core, and per-lane memory (R185, R186,
R189). -/

namespace Sys2Proof.Machine

-- What a core holds

theorem agentMem_modAgent_core {s : State} {n : Nat} (f : LocalMem → LocalMem) (h : n < s.cores.length) :
    agentMem (modAgent s (.core n) f) (.core n) = f (agentMem s (.core n)) :=
  congrArg Core.mem (coreOf_modCore s n _ h)

theorem agentMem_core_congr {s t : State} (h : t.cores = s.cores) (n : Nat) : agentMem t (.core n) = agentMem s (.core n) := by
  simp only [agentMem, coreOf, h]

-- FILL and EVICT (R189)

theorem execFill_of_absent {s : State} {a : Agent} {l : Line} {loc : Loc} (hsub : agentSubscribed s a l = false)
    (hcopy : (agentMem s a).copy l = none) (hloc : locate s l.ctx l.addr .read (agentLeased s a l) = .ok loc) :
    execFill a l s = .next (fillLine s a l loc true) := by
  simp [execFill, hsub, hcopy, hloc]

/-- Marking a page and bringing the line into its slice leave memory as marked where every line is settled. -/
theorem markTouch_mem {s : State} (h : Settled s) (loc : Loc) (c : Nat) :
    (touchLine (markLeaf s loc false) c loc).mem = (markLeaf s loc false).mem :=
  touchLine_mem _ _ _ ((markLeaf_lines s loc false).settled h)

theorem fillLine_marked (s : State) (a : Agent) (l : Line) (loc : Loc) :
    fillLine s a l loc true = modAgent (touchLine (markLeaf s loc false) l.ctx loc) a (fun m => m.setCopy l
      (rdBytes (touchLine (markLeaf s loc false) l.ctx loc) (lineAddr loc.key) 128)
      (badPieces (touchLine (markLeaf s loc false) l.ctx loc) (lineAddr loc.key))) := rfl

/-- What FILL leaves: the home's line in the snapshot, the buffer as it was, the page marked. -/
theorem fillLine_filled {s : State} {n : Nat} {l : Line} {loc : Loc} (hn : n < s.cores.length) (hset : Settled s) :
    (fillLine s (.core n) l loc true).teams = s.teams ∧ (fillLine s (.core n) l loc true).mem = (markLeaf s loc false).mem ∧
      (agentMem (fillLine s (.core n) l loc true) (.core n)).copy l = some (rdBytes (markLeaf s loc false) (lineAddr loc.key) 128) ∧
      (agentMem (fillLine s (.core n) l loc true) (.core n)).buf = (agentMem s (.core n)).buf := by
  obtain ⟨teams, cores, -⟩ := ((markLeaf_lines s loc false).trans (touchLine_cached _ l.ctx loc).1).rest
  have bytes := rdBytes_congr (markTouch_mem hset loc l.ctx) (lineAddr loc.key) 128
  rw [fillLine_marked, agentMem_modAgent_core _ (by simpa [cores] using hn), copy_setCopy, bytes, ← agentMem_core_congr cores n]
  exact ⟨teams, markTouch_mem hset loc l.ctx, rfl, rfl⟩

theorem exec_evict (n : Nat) (l : Line) (s : State) :
    exec (.evict (.core n) l) s = .next (modAgent s (.core n) (fun m => m.dropCopy l)) := rfl

-- Acknowledgements (R189, R222)

theorem execAckArrive_of_acknowledged {s : State} {id : Nat} (a : Agent) (h : ∀ m ∈ s.msgs, m.cause ≠ id) :
    execAckArrive a id s = .next (modAgent s a (fun m => { m with acks := m.acks.filter (fun x => x.1 != id) })) :=
  if_neg (by simpa using h)

-- LOAD of LD (R189, R202)

theorem loadPart_of_bound {s : State} {p : Part} {a : Nat} {ty : MemTy} {d : Dst} {loc : Loc} {bs : List (Byte × Bool)}
    (hloc : locateFor s p.team a .read = .ok loc)
    (hview : viewBytes s p.agent p.ctx (lineOf p.ctx a) (lineAddr loc.key) (a % 128) (tyBytes ty) = some bs)
    (clean : ∀ x ∈ bs, x.2 = false) :
    loadPart s p a ty d =
      donePart (writeResult (markLeaf s loc false) p.uid p.g p.i p.op.op d (loadWords ty (bs.map (·.1)))) p := by
  have unpoisoned : ¬ bs.any (·.2) := by simpa using clean
  simp only [loadPart, hloc, hview, if_neg unpoisoned]

theorem exec_load_of_load {s : State} {team g i idx : Nat} {p : Part} {a : DWord} {ty : MemTy} {d : Dst}
    (h : partOf s team g i idx = some p) (hk : p.op.kind = .load a ty d) :
    exec (.load team g i idx) s = .next (loadPart s p a.toNat ty d) := by
  show execLoad team g i idx s = _
  simp only [execLoad, h, hk]

/-- A load that delivers its words in a state with the teams of its issue: the lane's registers and memory afterwards. -/
theorem delivered {s t : State} {u g i idx : Nat} {p : Part} (h : partOf s u g i idx = some p) (ht : t.teams = s.teams) (b w : Nat)
    (ws : List Word) (hl : p.lane.takes p.op.op = true) :
    let r := donePart (writeResult t p.uid p.g p.i p.op.op { name := .g b, words := w } ws) p
    r.mem = t.mem ∧ ∃ m, findLane r u g i = some m ∧ m.queue = p.lane.queue.eraseIdx idx ∧ m.preds = p.lane.preds ∧
      ∀ n, m.reg n = if b ≤ n ∧ n < b + ws.length then ws.getD (n - b) 0 else p.lane.reg n :=
  ⟨(donePart_mem _ _).trans (writeResult_mem _ _ _ _ _ _ _), deliver_lane h ht b w ws hl⟩

-- STORE of ST (R189, R203)

/-- Changing a team but for its gangs. -/
theorem findLane_modTeam (s : State) (u : Nat) (f : Team → Team) (hu : ∀ t, (f t).uid = t.uid) (hf : ∀ t, (f t).gangs = t.gangs) (g i : Nat) :
    findLane (modTeam s u f) u g i = findLane s u g i := by
  unfold findLane findGang
  rw [findTeam_modTeam s u f hu]
  cases findTeam s u with
  | none => rfl
  | some t => simp only [Option.map_some, Option.bind_some, hf]

theorem findLane_noteHome (s : State) (u h g i : Nat) : findLane (noteHome s u h) u g i = findLane s u g i :=
  findLane_modTeam s u _ (fun t => by split <;> rfl) (fun t => by split <;> rfl) g i

/-- A part that ends where its lane still stands as it was. -/
theorem donePart_of_lane {s t : State} {u g i idx : Nat} {p : Part} (h : partOf s u g i idx = some p)
    (hl : findLane t u g i = findLane s u g i) :
    findLane (donePart t p) u g i = some { p.lane with queue := p.lane.queue.eraseIdx idx } := by
  obtain ⟨rfl, rfl, rfl, rfl, -, -, -, -, hlane, -⟩ := partOf_some h
  rw [donePart_lane, hl, hlane]
  rfl

/-- Bytes that stay within their line merge into that line's entry. -/
theorem storeBytes_of_fits {a : Nat} {bs : List Byte} (h : a % 128 + bs.length ≤ 128) (s : State) (ag : Agent)
    (ctx team lane : Nat) (port : Option Nat) (cmd : Nat) (insn : DWord) :
    storeBytes s ag ctx a bs team lane port cmd insn = modAgent s ag (fun m => m.merge (lineOf ctx a) ((List.range bs.length).map (fun i =>
      { off := a % 128 + i, val := bs.getD i 0, team := team, lane := lane, port := port, cmd := cmd, era := s.era, insn := insn }))) := by
  have one_line : splitLines ctx a bs = [(lineOf ctx a, a % 128, bs)] := if_pos (by omega)
  rw [storeBytes, one_line]
  rfl

/-- What STORE leaves of a store that stays within its line. -/
def stored (s : State) (p : Part) (a : DWord) (bs : List Byte) (port : Option Nat) : State :=
  donePart (noteHome (storeBytes s p.agent p.ctx a.toNat bs p.uid p.lane.ident port 0 p.op.insn) p.uid (homeOf a.toNat)) p

theorem exec_store_of_store {s : State} {team g i idx : Nat} {p : Part} {a : DWord} {bs : List Byte} {port : Option Nat}
    (h : partOf s team g i idx = some p) (hk : p.op.kind = .store a bs port) :
    exec (.store team g i idx) s = .next (stored s p a bs port) := by
  show execStore team g i idx s = _
  simp only [execStore, h, hk, stored]

theorem stored_lane {s : State} {team g i idx : Nat} {p : Part} (h : partOf s team g i idx = some p) {a : DWord} {bs : List Byte}
    (fits : a.toNat % 128 + bs.length ≤ 128) (port : Option Nat) :
    findLane (stored s p a bs port) team g i = some { p.lane with queue := p.lane.queue.eraseIdx idx } := by
  refine donePart_of_lane h ?_
  rw [storeBytes_of_fits fits, (partOf_some h).1, findLane_noteHome]
  rfl

theorem stored_mem {s : State} {p : Part} {a : DWord} {bs : List Byte} (fits : a.toNat % 128 + bs.length ≤ 128) (port : Option Nat) :
    (stored s p a bs port).mem = s.mem := by
  rw [stored, donePart_mem, storeBytes_of_fits fits]
  rfl

theorem stored_buffered {s : State} {p : Part} {a : DWord} {bs : List Byte} (hcore : p.core < s.cores.length)
    (fits : a.toNat % 128 + bs.length ≤ 128) (port : Option Nat) (o : Nat) :
    (agentMem (stored s p a bs port) (.core p.core)).buffered (lineOf p.team.ctx a.toNat) o =
      if a.toNat % 128 ≤ o ∧ o < a.toNat % 128 + bs.length then bs[o - a.toNat % 128]?
      else (agentMem s (.core p.core)).buffered (lineOf p.team.ctx a.toNat) o := by
  have cores : (stored s p a bs port).cores =
      (storeBytes s p.agent p.ctx a.toNat bs p.uid p.lane.ident port 0 p.op.insn).cores := donePart_cores _ _
  rw [agentMem_core_congr cores, storeBytes_of_fits fits]
  show (agentMem (modAgent s (.core p.core) _) (.core p.core)).buffered _ o = _
  rw [agentMem_modAgent_core _ hcore]
  exact buffered_merge _ _ _ _ _ _ _ _ _ _ _

-- Per-lane memory (R185, R186)

theorem laneByte_eq_ok {s : State} {t : Team} {a : Nat} {b : Byte} (h : tget none t.l1 a = some b ∨ (tget none t.l1 a = none ∧
    ∃ loc, locateFor s t a .read = .ok loc ∧ poisoned s loc.key = false ∧ rdByte s loc.key = b)) :
    laneByte s t a = .ok (b, false) := by
  rcases h with stands | ⟨absent, loc, hloc, clean, read⟩
  · simp only [laneByte, stands]
  · simp only [laneByte, absent, hloc, clean, read]

theorem laneBytes_eq_ok {s : State} {t : Team} {l : Lane} {o n : Nat} {val : Nat → Byte × Bool}
    (h : ∀ k < n, laneByte s t (laneAddr t l (o + k)) = .ok (val k)) : laneBytes s t l o n = .ok ((List.range n).map val) := by
  induction n generalizing o val with
  | zero => rfl
  | succ n ih =>
    have first : laneByte s t (laneAddr t l o) = .ok (val 0) := h 0 (by omega)
    have rest : laneBytes s t l (o + 1) n = .ok ((List.range n).map (fun k => val (k + 1))) :=
      ih (fun k hk => by simpa only [Nat.add_assoc, Nat.add_comm 1 k] using h (k + 1) (by omega))
    simp [laneBytes, first, rest, List.range_succ_eq_map, Function.comp_def]

/-- Bytes of a lane within 16 of each other stand at different addresses: R185 spreads words 128 bytes apart, far below 2^64. -/
theorem laneAddr_add_inj {t : Team} {l : Lane} {o j k : Nat} (hj : j < 16) (hk : k < 16)
    (h : laneAddr t l (o + j) = laneAddr t l (o + k)) : j = k := by
  have same : (l.gid * 32 * t.ps + (o + j) / 4 * 128 + l.lid * 4 + (o + j) % 4) % 2 ^ 64 =
      (l.gid * 32 * t.ps + (o + k) / 4 * 128 + l.lid * 4 + (o + k) % 4) % 2 ^ 64 := by
    have offsets := add_left_cancel (BitVec.eq_of_toNat_eq h)
    simpa only [BitVec.toNat_ofNat] using congrArg BitVec.toNat offsets
  generalize l.gid * 32 * t.ps = base at same
  omega

theorem markAt_singleton {s : State} {t : Team} {a : Nat} {acc : Access} {loc : Loc} (h : locateFor s t a acc = .ok loc) :
    markAt s t [a] acc = markLeaf s loc (acc == .write) := by
  simp only [markAt, List.foldl_cons, List.foldl_nil, h]

theorem markAt_teams (s : State) (t : Team) (as : List Nat) (acc : Access) : (markAt s t as acc).teams = s.teams := by
  refine foldl_keeps State.teams (fun x a => ?_) as s
  split
  · exact (markLeaf_lines _ _ _).rest.1
  · rfl

-- LOAD of LDP

theorem laneLoadPart_of_read {s : State} {p : Part} {o : Nat} {ty : MemTy} {d : Dst} {val : Nat → Byte}
    (h : ∀ k < tyBytes ty, laneByte s p.team (laneAddr p.team p.lane (o + k)) = .ok (val k, false)) :
    laneLoadPart s p o ty d = donePart (writeResult (markAt s p.team [laneAddr p.team p.lane o] .read) p.uid p.g p.i p.op.op d
      (loadWords ty ((List.range (tyBytes ty)).map val))) p := by
  have bytes : laneBytes s p.team p.lane o (tyBytes ty) = .ok ((List.range (tyBytes ty)).map (fun k => (val k, false))) := laneBytes_eq_ok h
  simp [laneLoadPart, bytes, Function.comp_def]

theorem exec_load_of_laneLoad {s : State} {team g i idx : Nat} {p : Part} {o : Nat} {ty : MemTy} {d : Dst}
    (h : partOf s team g i idx = some p) (hk : p.op.kind = .laneLoad o ty d) :
    exec (.load team g i idx) s = .next (laneLoadPart s p o ty d) := by
  show execLoad team g i idx s = _
  simp only [execLoad, h, hk]

-- STORE of STP

/-- L1 with bytes stored in turn at given addresses. -/
def l1Puts (m : Tab (Option Byte)) (at_ : Nat → Nat) (bs : List Byte) : Tab (Option Byte) :=
  (((List.range bs.length).map at_).zip bs).foldl (fun m x => tput none m x.1 (some x.2)) m

theorem l1Puts_eq_foldl_range (m : Tab (Option Byte)) (at_ : Nat → Nat) (bs : List Byte) :
    l1Puts m at_ bs = (List.range bs.length).foldl (fun m k => tput none m (at_ k) (some (bs.getD k 0))) m := by
  have pairs : ((List.range bs.length).map at_).zip bs = (List.range bs.length).map (fun k => (at_ k, bs.getD k 0)) :=
    List.ext_getElem (by simp) (fun k _ hk => by simp at hk; simp [hk])
  rw [l1Puts, pairs, List.foldl_map]

/-- At distinct addresses the bytes stored stand. -/
theorem tget_l1Puts {m : Tab (Option Byte)} {at_ : Nat → Nat} {bs : List Byte}
    (distinct : ∀ j < bs.length, ∀ k < bs.length, at_ j = at_ k → j = k) {k : Nat} (hk : k < bs.length) :
    tget none (l1Puts m at_ bs) (at_ k) = bs[k]? := by
  have nodup : ((List.range bs.length).map at_).Nodup :=
    List.nodup_range.map_on (fun j hj k hk => distinct j (List.mem_range.mp hj) k (List.mem_range.mp hk))
  rw [l1Puts_eq_foldl_range, tget_foldl_tput none at_ _ _ _ nodup k (List.mem_range.mpr hk)]
  simp [hk]

theorem tget_l1Puts_ne {m : Tab (Option Byte)} {at_ : Nat → Nat} {bs : List Byte} {a : Nat} (h : ∀ k < bs.length, a ≠ at_ k) :
    tget none (l1Puts m at_ bs) a = tget none m a := by
  rw [l1Puts_eq_foldl_range]
  refine List.foldlRecOn _ _ (motive := fun x => tget none x a = tget none m a) rfl (fun x hx k hk => ?_)
  exact (tget_tput_ne _ _ _ (h k (List.mem_range.mp hk))).trans hx

/-- What STORE leaves of bytes of per-lane memory. -/
def laneStored (s : State) (p : Part) (o : Nat) (bs : List Byte) : State :=
  let at_ := fun k => laneAddr p.team p.lane (o + k)
  donePart (noteHome (modTeam (markAt s p.team [at_ 0] .write) p.uid (fun t => { t with l1 := l1Puts t.l1 at_ bs }))
    p.uid (homeOf (at_ 0))) p

theorem laneStorePart_of_located {s : State} {p : Part} {o : Nat} {bs : List Byte} (hne : bs ≠ [])
    (hloc : ∀ k < bs.length, ∃ loc, locateFor s p.team (laneAddr p.team p.lane (o + k)) .write = .ok loc) :
    laneStorePart s p o bs = laneStored s p o bs := by
  obtain ⟨b, rest, rfl⟩ := List.exists_cons_of_ne_nil hne
  unfold laneStorePart
  dsimp only
  split
  · next c a faults =>
    obtain ⟨x, hx, fault⟩ := List.exists_of_findSome?_eq_some faults
    obtain ⟨k, hk, rfl⟩ := List.mem_map.mp hx
    obtain ⟨loc, located⟩ := hloc k (List.mem_range.mp hk)
    simp [located] at fault
  · simp [laneStored, l1Puts, List.range_succ_eq_map]

theorem exec_store_of_laneStore {s : State} {team g i idx : Nat} {p : Part} {o : Nat} {bs : List Byte}
    (h : partOf s team g i idx = some p) (hk : p.op.kind = .laneStore o bs) :
    exec (.store team g i idx) s = .next (laneStorePart s p o bs) := by
  show execStore team g i idx s = _
  simp only [execStore, h, hk]

/-- Changing a team but for what L1 holds of its per-lane memory. -/
theorem l1_modTeam (s : State) (u : Nat) (f : Team → Team) (hu : ∀ t, (f t).uid = t.uid) (hf : ∀ t, (f t).l1 = t.l1) :
    (findTeam (modTeam s u f) u).map Team.l1 = (findTeam s u).map Team.l1 := by
  rw [findTeam_modTeam s u f hu, Option.map_map]
  exact congrArg (Option.map · _) (funext hf)

theorem l1_donePart (s : State) (p : Part) : (findTeam (donePart s p) p.uid).map Team.l1 = (findTeam s p.uid).map Team.l1 := by
  have ended : ∀ s g f, (findTeam (modGang s p.uid g f) p.uid).map Team.l1 = (findTeam s p.uid).map Team.l1 :=
    fun s g f => l1_modTeam s p.uid _ (fun _ => rfl) (fun _ => rfl)
  unfold donePart
  dsimp only
  split
  · exact (ended _ _ _).trans (ended _ _ _)
  · exact ended _ _ _

theorem l1_noteHome (s : State) (u h : Nat) : (findTeam (noteHome s u h) u).map Team.l1 = (findTeam s u).map Team.l1 :=
  l1_modTeam s u _ (fun t => by split <;> rfl) (fun t => by split <;> rfl)

theorem laneStored_lane {s : State} {team g i idx : Nat} {p : Part} (h : partOf s team g i idx = some p) (o : Nat) (bs : List Byte) :
    findLane (laneStored s p o bs) team g i = some { p.lane with queue := p.lane.queue.eraseIdx idx } := by
  refine donePart_of_lane h ?_
  rw [(partOf_some h).1, findLane_noteHome, findLane_modTeam _ _ _ (by intro; rfl) (by intro; rfl)]
  simp only [findLane, findGang, findTeam, markAt_teams]

theorem laneStored_mem {s : State} {p : Part} {o : Nat} {loc : Loc} (h : locateFor s p.team (laneAddr p.team p.lane o) .write = .ok loc)
    (bs : List Byte) : (laneStored s p o bs).mem = (markLeaf s loc true).mem := by
  rw [laneStored, donePart_mem]
  show (markAt s p.team [laneAddr p.team p.lane o] .write).mem = _
  rw [markAt_singleton h]
  rfl

theorem laneStored_l1 {s : State} {team g i idx : Nat} {p : Part} (h : partOf s team g i idx = some p) (o : Nat) (bs : List Byte) :
    ∃ t, findTeam (laneStored s p o bs) team = some t ∧ t.l1 = l1Puts p.team.l1 (fun k => laneAddr p.team p.lane (o + k)) bs := by
  obtain ⟨rfl, -, -, -, hteam, -⟩ := partOf_some h
  have marked : findTeam (markAt s p.team [laneAddr p.team p.lane o] .write) p.uid = some p.team := by
    rw [← hteam]; simp only [findTeam, markAt_teams]
  have holds : (findTeam (laneStored s p o bs) p.uid).map Team.l1 =
      some (l1Puts p.team.l1 (fun k => laneAddr p.team p.lane (o + k)) bs) := by
    rw [laneStored, l1_donePart, l1_noteHome, findTeam_modTeam _ _ _ (by intro; rfl)]
    simp [marked]
  exact Option.map_eq_some_iff.mp holds

/-- Settles O47: each step is brought to what it leaves, by one lemma per step; DRAIN by `drain_good`. -/
theorem loadsStoresAndDrains : Obligations.LoadsStoresAndDrains := by
  unfold Obligations.LoadsStoresAndDrains
  intro s
  refine ⟨?fill, ?evict, ?load, ?store, ?laneLoad, ?laneStore, ?drain, ?ack⟩
  case fill =>
    intro n l loc hn hsub hcopy hset hloc
    exact ⟨_, execFill_of_absent hsub hcopy hloc, fillLine_filled hn hset⟩
  case evict =>
    intro n l hn
    refine ⟨_, exec_evict n l s, ?_, rfl, rfl, fun k hk => ?_⟩
    · rw [agentMem_modAgent_core _ hn, copy_dropCopy]
    · rw [agentMem_modAgent_core _ hn, copy_dropCopy_ne _ hk]
  case load =>
    intro team g i idx p a ty b w loc bs h hk takes hloc hview clean
    obtain ⟨mem, m, lane, queue, preds, regs⟩ :=
      delivered h (markLeaf_lines s loc false).rest.1 b w (loadWords ty (bs.map (·.1))) takes
    exact ⟨_, m, (exec_load_of_load h hk).trans (congrArg _ (loadPart_of_bound hloc hview clean)), lane, queue, preds, mem, regs⟩
  case store =>
    intro team g i idx p a bs port h hk hcore fits
    exact ⟨_, _, exec_store_of_store h hk, stored_lane h fits port, rfl, rfl, stored_mem fits port, stored_buffered hcore fits port⟩
  case laneLoad =>
    intro team g i idx p o ty b w val h hk takes at_ read
    obtain ⟨mem, m, lane, queue, preds, regs⟩ :=
      delivered h (markAt_teams s p.team [at_ 0] .read) b w (loadWords ty ((List.range (tyBytes ty)).map val)) takes
    have runs := laneLoadPart_of_read (d := { name := .g b, words := w }) (fun k hk => laneByte_eq_ok (read k hk))
    exact ⟨_, m, (exec_load_of_laneLoad h hk).trans (congrArg _ runs), lane, queue, preds,
      fun loc hloc => mem.trans (congrArg State.mem (markAt_singleton hloc)), regs⟩
  case laneStore =>
    intro team g i idx p o bs h hk hne at_ hloc short
    obtain ⟨t, team_at, l1⟩ := laneStored_l1 h o bs
    refine ⟨_, _, t, (exec_store_of_laneStore h hk).trans (congrArg _ (laneStorePart_of_located hne hloc)), laneStored_lane h o bs, rfl, rfl,
      fun loc hloc => laneStored_mem hloc bs, team_at, fun k hk => ?_, fun a ha => ?_⟩
    · rw [l1]
      exact tget_l1Puts (fun j hj k hk => laneAddr_add_inj (by omega) (by omega)) hk
    · rw [l1]
      exact tget_l1Puts_ne ha
  case drain =>
    intro n l loc hn hne nodup hloc channel hset
    exact ⟨_, rfl, drain_good hn hne nodup hloc channel hset⟩
  case ack =>
    intro n id hn arrived
    refine ⟨_, execAckArrive_of_acknowledged (.core n) arrived, rfl, rfl, ?_⟩
    rw [agentMem_modAgent_core _ hn]

end Sys2Proof.Machine
end

section
/-! O59. Every well-formed instruction is read back from its word and from its bytes (R4, R51 to R54). -/

namespace Sys2Proof.Machine

-- Little-endian bytes (R4)

theorem length_toBytes (n v : Nat) : (toBytes n v).length = n := by
  induction n generalizing v with
  | zero => rfl
  | succ n ih => simp [toBytes, ih]

/-- The bytes of a number hold it modulo 256 to their count. -/
theorem ofBytes_toBytes (n v : Nat) : ofBytes (toBytes n v) = v % 256 ^ n := by
  induction n generalizing v with
  | zero => simp [toBytes, ofBytes, Nat.mod_one]
  | succ n ih => simp [toBytes, ofBytes, ih, pow_succ', Nat.mod_mul]

theorem ofNat_ofBytes_toBytes (w : DWord) : BitVec.ofNat 64 (ofBytes (toBytes 8 w.toNat)) = w := by
  rw [ofBytes_toBytes, show 256 ^ 8 = 2 ^ 64 from rfl, Nat.mod_eq_of_lt w.isLt, BitVec.ofNat_toNat, BitVec.setWidth_eq]

/-- A word at the head of a byte string decodes as the word does, and the bytes after it are left over. -/
theorem decode_toBytes {w : DWord} {i : Instr} (h : decodeWord w = some i) (rest : List Byte) :
    decode (toBytes 8 w.toNat ++ rest) = .ok (i, rest) := by
  have len := length_toBytes 8 w.toNat
  have enough : ¬ (toBytes 8 w.toNat ++ rest).length < 8 := by simp [len]
  rw [decode, if_neg enough, List.take_left' len, List.drop_left' len, ofNat_ofBytes_toBytes, h]

end Sys2Proof.Machine

namespace Sys2Proof.Laws.RoundTrip

open Sys2Proof Sys2Proof.Machine

/-- The round trips of all instructions, taken together; a whole step of the machine has no word. -/
theorem statement : ∀ i, Statement i
  | .nop a => nop a | .bra a b => bra a b | .brx a b => brx a b | .call a b c => call a b c | .callx a b c => callx a b c
  | .ret a b => ret a b | .exit a => exit a | .yld a b => yld a b | .hinty a => hinty a | .barg a b => barg a b | .bart a b => bart a b
  | .barb a b => barb a b | .regrp a => regrp a | .sphase a b => sphase a b | .acqx a b => acqx a b | .relx a b => relx a b
  | .acqxt a b c => acqxt a b c | .tlwait a b c => tlwait a b c | .tltry a b c d => tltry a b c d | .tlsig a b c => tlsig a b c
  | .mov a b c d => mov a b c d | .movImm a b c => movImm a b c | .movk a b c d e => movk a b c d e | .iadd a b c d e => iadd a b c d e
  | .iaddImm a b c d => iaddImm a b c d | .isub a b c d e => isub a b c d e | .isubImm a b c d => isubImm a b c d
  | .imul a b c d e => imul a b c d e | .imulImm a b c d => imulImm a b c d | .imulh a b c d e => imulh a b c d e
  | .imad a b c d e x => imad a b c d e x | .imadw a b c d e x => imadw a b c d e x | .iadd64 a b c d e => iadd64 a b c d e
  | .isub64 a b c d e => isub64 a b c d e | .idiv a b c d e => idiv a b c d e | .irem a b c d e => irem a b c d e
  | .ineg a b c d => ineg a b c d | .iabs a b c d => iabs a b c d | .imin a b c d e => imin a b c d e
  | .iminImm a b c d => iminImm a b c d | .imax a b c d e => imax a b c d e | .imaxImm a b c d => imaxImm a b c d
  | .logt a b c d e => logt a b c d e | .shl a b c d e => shl a b c d e | .shlImm a b c d => shlImm a b c d
  | .shr a b c d e => shr a b c d e | .shrImm a b c d => shrImm a b c d | .sar a b c d e => sar a b c d e
  | .sarImm a b c d => sarImm a b c d | .rot a b c d e => rot a b c d e | .rotImm a b c d => rotImm a b c d
  | .funl a b c d e x => funl a b c d e x | .bfx a b c d e => bfx a b c d e | .bfi a b c d e => bfi a b c d e
  | .popc a b c d => popc a b c d | .clz a b c d => clz a b c d | .ctz a b c d => ctz a b c d | .brev a b c d => brev a b c d
  | .lea a b c d e x y => lea a b c d e x y | .icmp a b c d e x => icmp a b c d e x | .sel a b c d e x y => sel a b c d e x y
  | .plog a b c d e => plog a b c d e | .prd a b c => prd a b c | .pwr a b c d => pwr a b c d | .fadd a b c d e => fadd a b c d e
  | .fsub a b c d e => fsub a b c d e | .fmul a b c d e => fmul a b c d e | .ffma a b c d e x => ffma a b c d e x
  | .fmin a b c d => fmin a b c d | .fmax a b c d => fmax a b c d | .fcmp a b c d e => fcmp a b c d e | .dcmp a b c d e => dcmp a b c d e
  | .fdiv a b c d e => fdiv a b c d e | .fsqrt a b c d => fsqrt a b c d | .frcp a b c => frcp a b c | .frsq a b c => frsq a b c
  | .fexp2 a b c => fexp2 a b c | .flog2 a b c => flog2 a b c | .fsin a b c => fsin a b c | .fcos a b c => fcos a b c
  | .frnd a b c d => frnd a b c d | .fcls a b c d => fcls a b c d | .fscl a b c d e => fscl a b c d e
  | .dadd a b c d e x => dadd a b c d e x | .dmul a b c d e => dmul a b c d e | .dfma a b c d e x => dfma a b c d e x
  | .ddiv a b c d e => ddiv a b c d e | .dsqrt a b c d => dsqrt a b c d | .badd2 a b c d e x => badd2 a b c d e x
  | .bfma2 a b c d e x y => bfma2 a b c d e x y | .hfma2 a b c d e x y => hfma2 a b c d e x y
  | .cvt a b c d e x y z => cvt a b c d e x y z | .pack a b c d e => pack a b c d e | .unpk a b c d e => unpk a b c d e
  | .act a b c d => act a b c d | .actd a b c d e => actd a b c d e | .xrng a b c d => xrng a b c d | .xrngf a b c => xrngf a b c
  | .qswp a b c d e x => qswp a b c d e x | .qbc a b c d e x => qbc a b c d e x | .qdx a b c d e => qdx a b c d e
  | .qdy a b c d e => qdy a b c d e | .perm a b c d e x => perm a b c d e x | .shup a b c d e x => shup a b c d e x
  | .shdn a b c d e x => shdn a b c d e x | .shxr a b c d e x => shxr a b c d e x | .vote a b c d => vote a b c d
  | .mtch a b c d => mtch a b c d | .gscan a b c d e => gscan a b c d e | .gred a b c d => gred a b c d
  | .rdix a b c d e x => rdix a b c d e x | .wrix a b c d e => wrix a b c d e | .ld a b c d e x => ld a b c d e x
  | .ldp a b c d e => ldp a b c d e | .st a b c d e x => st a b c d e x | .stp a b c d e => stp a b c d e
  | .atom a b c d e x y z u => atom a b c d e x y z u | .acas a b c d e x y z => acas a b c d e x y z
  | .xsum a b c d e x y => xsum a b c d e x y | .xrd a b c d e x y z => xrd a b c d e x y z | .xclr a b c d => xclr a b c d
  | .ldv a b c d e => ldv a b c d e | .cms a b c d e x => cms a b c d e x | .fence a b => fence a b | .rel a b => rel a b
  | .acq a b => acq a b | .sbsc a b c d e x y z => sbsc a b c d e x y z | .unsb a b c d => unsb a b c d | .sld a b c d e => sld a b c d e
  | .supg a b c d e => supg a b c d e | .schg a b c d => schg a b c d | .sbind a b c => sbind a b c | .sfree a b => sfree a b
  | .spos a b c d => spos a b c d | .sdrain a b c => sdrain a b c | .qring a b c d e => qring a b c d e
  | .qrfree a b c d => qrfree a b c d | .hdef a b c d e x y => hdef a b c d e x y | .hqry a b c d => hqry a b c d
  | .copy a b c d e x y z => copy a b c d e x y z | .cfill a b c d e x y => cfill a b c d e x y | .coll a b c d e x => coll a b c d e x
  | .tlrd a b c d => tlrd a b c d | .wld a b c d e x => wld a b c d e x | .wswp a b c => wswp a b c
  | .mma a b c d e x y => mma a b c d e x y | .mzero a b c d => mzero a b c d | .mrd a b c d e x y z => mrd a b c d e x y z
  | .mwr a b c d e x y => mwr a b c d e x y | .mst a b c d e x y z u => mst a b c d e x y z u
  | .tblld a b c d e x y => tblld a b c d e x y | .mstat a b c => mstat a b c | .sort a b c d e x => sort a b c d e x
  | .bvhq a b c d e x y z => bvhq a b c d e x y z | .qlu a b c d e => qlu a b c d e | .qlus a b c d e => qlus a b c d e
  | .qlut a b c d e => qlut a b c d e | .qpiv a b c d e x => qpiv a b c d e x | .olu a b c d e x y => olu a b c d e x y
  | .lnch a b c d => lnch a b c d | .lrec a b c d e => lrec a b c d e | .lstat a b c => lstat a b c | .lease a b c => lease a b c
  | .trap a b => trap a b | .tret a b => tret a b | .csave a b c => csave a b c | .crest a b c => crest a b c
  | .tlbinv a b c d => tlbinv a b c d | .replay a b c => replay a b c | .rdsr a b c => rdsr a b c | .wrsr a b c => wrsr a b c
  | .evnt a b c d => evnt a b c d | .halt a => halt a | .clauseIssue a b => clauseIssue a b
  | .operationComplete a b c d => operationComplete a b c d | .demotionEnd a b c => demotionEnd a b c | .watchdog a b c => watchdog a b c
  | .barrierComplete a => barrierComplete a | .regroup a => regroup a | .acqxGrant a b => acqxGrant a b
  | .tlwaitReread a b c => tlwaitReread a b c | .tltryIntervalEnd a b c => tltryIntervalEnd a b c | .preemptDecide a => preemptDecide a
  | .teamSave a => teamSave a | .teamResume a b => teamResume a b | .gangRetire a b => gangRetire a b | .teamRetire a => teamRetire a
  | .teamEnd a => teamEnd a | .trapEntry a b c => trapEntry a b c | .parkGang a b => parkGang a b
  | .parkedGangResume a b => parkedGangResume a b | .store a b c d => store a b c d | .fill a b => fill a b | .evict a b => evict a b
  | .load a b c d => load a b c d | .drain a b => drain a b | .ackArrive a b => ackArrive a b | .relStep a b c d => relStep a b c d
  | .acqStep a b c d => acqStep a b c d | .atomic a b c d => atomic a b c d | .register a => register a | .apply a b => apply a b
  | .leave a => leave a | .sldBind a b c d => sldBind a b c d | .peersld a b c d e => peersld a b c d e
  | .l1EvictRegistered a b => l1EvictRegistered a b | .sliceDropLine a => sliceDropLine a | .directoryError a b => directoryError a b
  | .bind a b c => bind a b c | .prefetch a b c d => prefetch a b c d | .pop a b c d => pop a b c d | .claim a b c d => claim a b c d
  | .reserve a b c d => reserve a b c d | .rpush a b c d => rpush a b c d | .commit a => commit a
  | .engineCommandBegin a b => engineCommandBegin a b | .engineCommandComplete a b => engineCommandComplete a b
  | .contextPark a b => contextPark a b | .collMatch a b c => collMatch a b c | .collAbort a b => collAbort a b
  | .arrayRowPass a => arrayRowPass a | .chainRecordAccept a => chainRecordAccept a | .pendingLaunchAccept a => pendingLaunchAccept a
  | .launchMakeResident a b => launchMakeResident a b | .teamAdmit a => teamAdmit a | .parentSwapOut a => parentSwapOut a
  | .parentSwapIn a b => parentSwapIn a b | .bandComplete a b => bandComplete a b | .launchComplete a => launchComplete a
  | .timeSlotStart a => timeSlotStart a | .eventEntryWrite a => eventEntryWrite a | .faultRecordWrite a => faultRecordWrite a
  | .msiSend => msiSend | .hostWindowAccess a b c => hostWindowAccess a b c | .peerRequest a b c d => peerRequest a b c d
  | .peerTimeout a b c d e => peerTimeout a b c d e | .flitCrcFail a b => flitCrcFail a b
  | .datagramReceive a b c d e x => datagramReceive a b c d e x | .datagramAck a b => datagramAck a b
  | .datagramResend a => datagramResend a | .hbmRecalBurst a b => hbmRecalBurst a b | .rowRemap a b c => rowRemap a b c
  | .remapTableReload a b c => remapTableReload a b c | .uncorrectableError a => uncorrectableError a | .dieLoss a => dieLoss a
  | .powerCapExcess a => powerCapExcess a | .thermalLimit a b => thermalLimit a b | .reset => reset | .bootVerify a b => bootVerify a b
  | .partitionWrite a => partitionWrite a | .partitionApply => partitionApply | .chainEnable a b => chainEnable a b
  | .chainTailWrite a b => chainTailWrite a b | .chainErrClear a b => chainErrClear a b | .timedEntryEnable a b => timedEntryEnable a b
  | .ovrWrite a b => ovrWrite a b | .killLaunch a => killLaunch a | .killContext a => killContext a | .killEntry a => killEntry a
  | .debugResume a => debugResume a | .degradeWrite a => degradeWrite a | .deviceNumberWrite a => deviceNumberWrite a
  | .keyInstall a => keyInstall a | .keyDestroy a => keyDestroy a | .clockStep a => clockStep a | .rtiWrite a b => rtiWrite a b
  | .pcapWrite a => pcapWrite a | .perfReqWrite a => perfReqWrite a | .eventQueueConfig a b c => eventQueueConfig a b c
  | .eventQueueHeadWrite a b => eventQueueHeadWrite a b | .faultRingConfig a b c => faultRingConfig a b c
  | .faultRingHeadWrite a b => faultRingHeadWrite a b | .attestRequest a => attestRequest a | .attestReportWrite => attestReportWrite
  | .registerWrite a b => registerWrite a b | .correctedError a b c => correctedError a b c | .thermalLimitEnd => thermalLimitEnd
  | .powerCapWithin a => powerCapWithin a | .keyOperationDone => keyOperationDone | .ieee1588EventMessage a b => ieee1588EventMessage a b

end Sys2Proof.Laws.RoundTrip

namespace Sys2Proof.Machine

/-- Settles O59: the round trip of the word carries over to its bytes and to the table's decoder, and makes encoding injective. -/
theorem decodeReadsEncode : Obligations.DecodeReadsEncode := by
  unfold Obligations.DecodeReadsEncode
  intro i hi wf
  have word := Laws.RoundTrip.statement i hi wf
  refine ⟨word, decode_toBytes word, ?_, fun j hj wfj same => ?_⟩
  · have bytes := decode_toBytes word []
    rw [List.append_nil] at bytes
    rw [decodeTableWord, Nat.mod_eq_of_lt (encode i).isLt, bytes]
  · have back := Laws.RoundTrip.statement j hj wfj
    rw [same, word] at back
    exact (Option.some.inj back).symm

end Sys2Proof.Machine
end

section
/-! Instructions that compute (05 to 07). From what an instruction's lanes give to what it leaves behind, at issue or at completion
(R62, R73, R76). -/

namespace Sys2Proof.Machine

variable {s : State} {c : Common} {v : View} {i : Instr}

/-- A fixed-latency instruction does what its lanes compute, each from the operand values of all. -/
theorem computes_alu {f : Front} {lat : Nat} {half firstOnly : Bool} {own : View → Option FaultInfo}
    {run o : View → (Nat → LaneIn) → Nat → LaneOut}
    (runs : exec i s = execAlu c { front := f, lat := lat, half := half, firstOnly := firstOnly, own := own, run := run } s)
    (fill : ∀ inp j, fits f.dst (o v inp j)) (same : ∀ inp j, run v inp j = o v inp j) : Computes s c v i f own o := by
  intro h
  have agree : run v = o v := funext₂ same
  have fill_run : ∀ j, fits f.dst (run v (operands s v f) j) := fun j => (same _ j).symm ▸ fill _ j
  obtain ⟨t, next, wrote⟩ := execAlu_wrote (a := { front := f, lat := lat, half := half, firstOnly := firstOnly, own := own, run := run })
    h fill_run
  exact ⟨t, runs.trans next, agree ▸ wrote⟩

/-- A flag-tracked instruction does later what its lanes compute. -/
theorem computesLater_value {f : Front} {half : Bool} {run o : View → (Nat → LaneIn) → Nat → LaneOut}
    (runs : exec i s = execValue c f half noOwn run s) (same : ∀ inp j, run v inp j = o v inp j) : ComputesLater s c v i f o := by
  intro h
  obtain ⟨t, next, tracks⟩ := execValue_tracks (half := half) (run := run) h
  have agree : run v = o v := funext₂ same
  exact ⟨t, runs.trans next, agree ▸ tracks⟩

theorem fits_fltOut_f32 (d : Name) (r : Nat × Flags) : fits (d1 d) (fltOut .f32 r) := by
  rintro _ ⟨rfl⟩; rfl

theorem fits_fltOut_f64 (d : Name) (r : Nat × Flags) : fits (d2 d) (fltOut .f64 r) := by
  rintro _ ⟨rfl⟩; rfl

end Sys2Proof.Machine
end

section
/-! O8 to O11. Floating-point arithmetic, compares and functions (R155 to R163). -/

namespace Sys2Proof.Machine

/-- FMIN and FMAX by R156: of two numbers the one that lies below, −0 below +0, or the other one; of a NaN and a number the number. -/
theorem fminmax_eq (big : Bool) (x : LaneIn) : fminmax big x =
    (let p := dec .f32 (x.w 0).toNat
     let q := dec .f32 (x.w 1).toNat
     fltOut .f32 (withOperands .f32 [(x.w 0).toNat, (x.w 1).toNat]
      (if p.isNan then (if q.isNan then 0x7FC00000 else (x.w 1).toNat) else if q.isNan then (x.w 0).toNat
       else if cmpNum p q = .lt ∨ (cmpNum p q = .eq ∧ (p.negOf ∨ ¬ q.negOf)) then (if big then x.w 1 else x.w 0).toNat
       else (if big then x.w 0 else x.w 1).toNat, 0))) := by
  have hp : x.num .f32 0 = dec .f32 (x.w 0).toNat := rfl
  have hq : x.num .f32 1 = dec .f32 (x.w 1).toNat := rfl
  simp only [fminmax, hp, hq]
  generalize dec .f32 (x.w 0).toNat = p
  generalize dec .f32 (x.w 1).toNat = q
  congr 3
  cases hpn : p.isNan with
  | true => cases q.isNan <;> simp [fmtNan]
  | false =>
    cases hqn : q.isNan with
    | true => simp
    | false => cases h : cmpNum p q <;> cases big <;> cases p.negOf <;> cases q.negOf <;> simp

/-- Settles O8: each exact value, rounded once to FP32. -/
theorem fp32Computes : Obligations.Fp32Computes := by
  unfold Obligations.Fp32Computes
  intro s c v
  refine ⟨?fadd, ?fsub, ?fmul, ?ffma, ?fmin, ?fmax, ?frnd, ?fcls32, ?fcls64, ?fclsFst, ?fscl⟩
  case fadd | fsub | fmul => exact fun d a b r => computes_alu rfl (fun _ _ => fits_fltOut_f32 d _) (fun _ _ => rfl)
  case ffma => exact fun d a b e r => computes_alu rfl (fun _ _ => fits_fltOut_f32 d _) (fun _ _ => rfl)
  case fmin => exact fun d a b => computes_alu rfl (fun _ _ => fits_fltOut_f32 d _) (fun x i => fminmax_eq false (x i))
  case fmax => exact fun d a b => computes_alu rfl (fun _ _ => fits_fltOut_f32 d _) (fun x i => fminmax_eq true (x i))
  case frnd => exact fun d a r => computes_alu rfl (fun _ _ => fits_fltOut_f32 d _) (fun _ _ => rfl)
  case fcls32 | fcls64 => exact fun d a => computes_alu rfl (fun _ _ => fits_word d _) (fun _ _ => rfl)
  case fclsFst => exact fun d a => computes_alu rfl (fun _ _ => by rintro _ ⟨rfl⟩; rfl) (fun _ _ => rfl)
  case fscl => exact fun d a n r => computes_alu rfl (fun _ _ => fits_fltOut_f32 d _) (fun _ _ => rfl)

end Sys2Proof.Machine
end

section
/-! O2, O9 to O11. Compares, FP64 and halves, and the functions that complete later (R120, R157, R158, R162, R163). -/

namespace Sys2Proof.Machine

/-- The compares of R157 case by case: unordered operands, and ordered ones. -/
theorem fcmpRes_eq (k : FCond) (p q : Num) : fcmpRes k p q =
    (let un := p.isNan || q.isNan
     (match k with
        | .un => un
        | .ne => un || cmpNum p q != .eq
        | .eq => !un && cmpNum p q == .eq
        | .lt => !un && cmpNum p q == .lt
        | .le => !un && cmpNum p q != .gt
        | .gt => !un && cmpNum p q == .gt
        | .ge => !un && cmpNum p q != .lt,
      if un ∧ (k = .lt ∨ k = .le ∨ k = .gt ∨ k = .ge) then fIV else 0)) := by
  unfold fcmpRes
  cases p.isNan || q.isNan with
  | true => cases k <;> simp
  | false => cases k <;> simp

/-- Settles O9: a compare by R157, with the bits of its operands. -/
theorem floatComparesCompute : Obligations.FloatComparesCompute := by
  unfold Obligations.FloatComparesCompute
  intro s c v
  refine ⟨?fcmp, ?dcmp⟩
  case fcmp =>
    refine fun pd a b k => computes_alu (f := names [o1 a, o1 b] none) rfl (fun _ _ => fits_none _) (fun x i => ?_)
    simp only [perLane, fcmpRes_eq]
    cases k <;> rfl
  case dcmp =>
    refine fun pd a b k => computes_alu (f := names [o2 a, o2 b] none) rfl (fun _ _ => fits_none _) (fun x i => ?_)
    simp only [perLane, fcmpRes_eq]
    cases k <;> rfl

/-- Settles O10: exact values rounded once to FP64, and each half of a register rounded once. -/
theorem doubleAndHalvesCompute : Obligations.DoubleAndHalvesCompute := by
  unfold Obligations.DoubleAndHalvesCompute
  intro s c v
  refine ⟨?dadd, ?dmul, ?dfma, ?badd2, ?bfma2, ?hfma2⟩
  case dadd => exact fun d a b r sub => computes_alu rfl (fun _ _ => fits_fltOut_f64 d _) (fun _ _ => rfl)
  case dmul => exact fun d a b r => computes_alu rfl (fun _ _ => fits_fltOut_f64 d _) (fun _ _ => rfl)
  case dfma => exact fun d a b e r => computes_alu rfl (fun _ _ => fits_fltOut_f64 d _) (fun _ _ => rfl)
  case badd2 => exact fun d a b rz sat => computes_alu rfl (fun _ _ => fits_fltOut_f32 d _) (fun _ _ => rfl)
  case bfma2 | hfma2 => exact fun d a b e rz sat => computes_alu rfl (fun _ _ => fits_fltOut_f32 d _) (fun _ _ => rfl)

/-- Settles O11: each function's value, rounded once when its flag shows it complete. -/
theorem floatFunctionsComputeLater : Obligations.FloatFunctionsComputeLater := by
  unfold Obligations.FloatFunctionsComputeLater
  intro s c v
  refine ⟨?fdiv, ?fsqrt, ?frcp, ?frsq, ?fexp2, ?flog2, ?fsin, ?fcos, ?ddiv, ?dsqrt⟩
  case fdiv | ddiv => exact fun d a b r => computesLater_value rfl (fun _ _ => rfl)
  case fsqrt | dsqrt => exact fun d a r => computesLater_value rfl (fun _ _ => rfl)
  case frcp | frsq | fexp2 | flog2 | fsin | fcos => exact fun d a => computesLater_value rfl (fun _ _ => rfl)

end Sys2Proof.Machine
end

section
/-! O2. Division, whose results wait for the flag (R120). -/

namespace Sys2Proof.Machine

/-- The most negative number is its own negative. -/
theorem neg_ofInt_min {w : Nat} (hw : 0 < w) : -BitVec.ofInt w (-(2 ^ (w - 1) : Nat)) = BitVec.ofInt w (-(2 ^ (w - 1) : Nat)) := by
  have twice : (-(2 ^ (w - 1) : Nat) + -(2 ^ (w - 1) : Nat) : Int) = -((2 ^ w : Nat) : Int) := by
    have := Nat.two_pow_pred_add_two_pow_pred hw
    omega
  have sum : BitVec.ofInt w (-(2 ^ (w - 1) : Nat)) + BitVec.ofInt w (-(2 ^ (w - 1) : Nat)) = 0 := by
    have wraps : BitVec.ofNat w (2 ^ w) = 0 := BitVec.eq_of_toNat_eq (Nat.mod_self _)
    rw [← BitVec.ofInt_add, twice, BitVec.ofInt_neg, BitVec.ofInt_natCast, wraps, neg_zero]
  exact neg_eq_of_add_eq_zero_right sum

/-- The signed quotient and remainder; the most negative dividend by −1 gives itself and 0 (R120). -/
theorem divRem_signed {w : Nat} (hw : 0 < w) (a b : BitVec w) : divRem w true a b =
    (if b = 0 then BitVec.allOnes w else a.sdiv b, if b = 0 then a else a.srem b) := by
  have quot : BitVec.ofInt w (a.toInt.tdiv b.toInt) = a.sdiv b := by
    apply BitVec.eq_of_toInt_eq
    rw [BitVec.toInt_ofInt, BitVec.toInt_sdiv]
  have rest : BitVec.ofInt w (a.toInt - a.toInt.tdiv b.toInt * b.toInt) = a.srem b := by
    rw [mul_comm, ← Int.tmod_def, ← BitVec.toInt_srem, BitVec.ofInt_toInt]
  unfold divRem
  by_cases zero : b = 0
  · simp [zero]
  by_cases least : a = BitVec.ofInt w (-(2 ^ (w - 1) : Nat)) ∧ b = BitVec.allOnes w
  · have minus : b.toInt = -1 := by rw [least.2, BitVec.toInt_allOnes, if_pos hw]
    have self : a.sdiv b = a := by
      rw [← quot, minus, Int.tdiv_neg, Int.tdiv_one, BitVec.ofInt_neg, BitVec.ofInt_toInt, least.1, neg_ofInt_min hw]
    have none_left : a.srem b = 0 := by rw [← rest, minus]; simp
    rw [if_neg zero, if_pos ⟨rfl, least⟩, if_neg zero, if_neg zero, self, none_left]
  · simp only [if_neg zero, true_and, if_neg least, if_true, quot, rest]

theorem divRem_unsigned {w : Nat} (a b : BitVec w) : divRem w false a b =
    (if b = 0 then BitVec.allOnes w else a / b, if b = 0 then a else a % b) := by
  have quot : BitVec.ofInt w ((a.toNat : Int).tdiv b.toNat) = a / b := by
    rw [← Int.ofNat_tdiv, BitVec.ofInt_natCast, ← BitVec.toNat_udiv, BitVec.ofNat_toNat, BitVec.setWidth_eq]
  have rest : BitVec.ofInt w ((a.toNat : Int) - (a.toNat : Int).tdiv b.toNat * b.toNat) = a % b := by
    rw [mul_comm, ← Int.tmod_def, ← Int.ofNat_tmod, BitVec.ofInt_natCast, ← BitVec.toNat_umod, BitVec.ofNat_toNat, BitVec.setWidth_eq]
  unfold divRem
  by_cases zero : b = 0
  · simp [zero]
  · simp only [if_neg zero, Bool.false_eq_true, false_and, if_false, quot, rest]

/-- Settles O2: the model's division is that of R120 in both readings. -/
theorem divisionComputesLater : Obligations.DivisionComputesLater := by
  unfold Obligations.DivisionComputesLater
  intro s c v d a b t
  constructor
  all_goals
    refine computesLater_value rfl (fun x i => ?_)
    cases t with
    | s32 | s64 => simp only [perLane, divOut, ity64, itySg, divRem_signed (w := 32) (by decide), divRem_signed (w := 64) (by decide)]; rfl
    | n32 | n64 => simp only [perLane, divOut, ity64, itySg, divRem_unsigned]; rfl

end Sys2Proof.Machine
end

section
/-! O12. Conversions and packed fields (R164, R165). -/

namespace Sys2Proof.Machine

-- Rounding to an integer (R141, R164)

/-- Does a mode round away from zero where a division of a magnitude by `d` has the quotient `q` and leaves `low` over (R141)? -/
def roundsUp (mode : Rnd) (neg : Bool) (q low d : Nat) : Bool :=
  match mode with
  | .rn => decide (d < 2 * low ∨ (2 * low = d ∧ q % 2 = 1))
  | .rp => decide (low ≠ 0 ∧ neg = false)
  | .rm => decide (low ≠ 0 ∧ neg = true)
  | _ => false

/-- The quotient, one more where the mode rounds away from zero, is the value rounded in the mode. -/
theorem rounds_of_roundsUp {mode : Rnd} (hm : mode ≠ .rx) (neg : Bool) {q low d : Nat} (hlow : low < d) :
    Rounds mode (sgn neg (q * d + low)) d (sgn neg (if roundsUp mode neg q low d then q + 1 else q)) := by
  generalize hu : roundsUp mode neg q low d = up
  generalize hn : sgn neg (if up then q + 1 else q) = n
  obtain ⟨p, hp⟩ : ∃ p : Nat, p = q * d := ⟨_, rfl⟩
  have value : n * d = sgn neg (if up then p + d else p) := by
    rw [← hn, hp]; cases up <;> cases neg <;> simp [sgn] <;> ring
  have parity : n % 2 = (if up then q + 1 else q : Nat) % 2 := by
    rw [← hn]; cases neg <;> simp [sgn]
  have next : (n + 1) * d = n * d + d := by ring
  have prev : (n - 1) * d = n * d - d := by ring
  rw [← hp]
  cases mode with
  | rx => exact absurd rfl hm
  | rz =>
    obtain rfl : false = up := hu
    cases neg <;> simp only [Rounds, sgn, next, prev, Bool.false_eq_true, if_false, if_true] at value ⊢ <;> split <;> omega
  | rp =>
    cases neg <;> cases up <;> simp [Rounds, sgn, prev, roundsUp] at hu value ⊢ <;> omega
  | rm =>
    cases neg <;> cases up <;> simp [Rounds, sgn, next, roundsUp] at hu value ⊢ <;> omega
  | rn =>
    simp only [Rounds, abs_eq_max_neg]
    cases neg <;> cases up <;> simp [sgn, roundsUp] at hu value parity ⊢ <;> omega

/-- A magnitude brought to an integer: its quotient, rounded away from zero where the mode says so, and whether anything was left over. -/
theorem quant_to_integer {mode : Rnd} (hm : mode ≠ .rx) (neg : Bool) (m : Nat) (e : Int) {d x : Nat} (hd : d = 2 ^ (-e).toNat)
    (hx : x = m * 2 ^ e.toNat) :
    quant mode 0 neg m false (-e) = (if roundsUp mode neg (x / d) (x % d) d then x / d + 1 else x / d, decide (x % d ≠ 0)) := by
  rcases le_or_gt 0 e with whole | part
  · have one : d = 1 := by rw [hd, Int.toNat_of_nonpos (by omega), pow_zero]
    have quotient : m <<< e.toNat = x := by rw [hx, Nat.shiftLeft_eq]
    subst one
    cases mode with
    | rx => exact absurd rfl hm
    | _ => simp [quant, roundsUp, whole, quotient, Nat.mod_one]
  · have self : x = m := by rw [hx, Int.toNat_of_nonpos part.le, pow_zero, mul_one]
    have half : d = 2 * 2 ^ ((-e).toNat - 1) := by rw [hd, ← pow_succ']; congr 1; omega
    subst self
    have above : d < 2 * (x % d) ↔ 2 ^ ((-e).toNat - 1) < x % d := by omega
    have equal : 2 * (x % d) = d ↔ x % d = 2 ^ ((-e).toNat - 1) := by omega
    have quotient : x >>> (-e).toNat = x / d := by rw [Nat.shiftRight_eq_div_pow, hd]
    cases mode with
    | rx => exact absurd rfl hm
    | _ => simp [quant, roundsUp, part.not_ge, quotient, ← hd, above, equal]

theorem roundsUp_exact (mode : Rnd) (neg : Bool) (q : Nat) {d : Nat} (hd : 0 < d) : roundsUp mode neg q 0 d = false := by
  cases mode <;> simp [roundsUp]
  omega

theorem sgn_mul (neg : Bool) (a d : Nat) : sgn neg a * (d : Int) = sgn neg (a * d) := by
  cases neg <;> simp [sgn]

theorem sgn_inj {neg : Bool} {a b : Nat} : sgn neg a = sgn neg b ↔ a = b := by
  cases neg <;> simp [sgn]

/-- R164: what rounding to an integer gives, and whether it is inexact. -/
theorem roundInt_rounds {mode : Rnd} (hm : mode ≠ .rx) (neg : Bool) (m : Nat) (e : Int) :
    Rounds mode (sgn neg (m * 2 ^ e.toNat)) (2 ^ (-e).toNat) (roundInt mode neg m e).1 ∧
      ((roundInt mode neg m e).2 = false ↔ (roundInt mode neg m e).1 * (2 ^ (-e).toNat : Nat) = sgn neg (m * 2 ^ e.toNat)) := by
  obtain ⟨d, hd⟩ : ∃ d, d = 2 ^ (-e).toNat := ⟨_, rfl⟩
  obtain ⟨x, hx⟩ : ∃ x, x = m * 2 ^ e.toNat := ⟨_, rfl⟩
  have low : x % d < d := Nat.mod_lt _ (by rw [hd]; positivity)
  have whole : x / d * d + x % d = x := by rw [mul_comm]; exact Nat.div_add_mod x d
  have rounds := rounds_of_roundsUp hm neg (q := x / d) low
  rw [whole] at rounds
  simp only [roundInt, quant_to_integer hm neg m e hd hx, ← hd, ← hx]
  refine ⟨rounds, ?_⟩
  rw [sgn_mul, sgn_inj, decide_eq_false_iff_not, not_not]
  constructor
  · intro exact_
    rw [exact_, roundsUp_exact mode neg _ (by omega), if_neg (by decide)]
    omega
  · intro multiple
    rw [← multiple, Nat.mul_mod_left]

-- CVT (R164)

/-- An integer brought into a range is the nearest end of it, or itself. -/
theorem toIntRes_fin (t : ITy) {mode : Rnd} (hm : mode ≠ .rx) (neg st : Bool) (m : Nat) (e : Int) :
    ∃ n, Rounds mode (sgn neg (m * 2 ^ e.toNat)) (2 ^ (-e).toNat) n ∧
      toIntRes t mode (.fin neg m e st) = (max (intRange t).1 (min (intRange t).2 n),
        if n < (intRange t).1 ∨ (intRange t).2 < n then fIV ||| fIX
        else if n * (2 ^ (-e).toNat : Nat) = sgn neg (m * 2 ^ e.toNat) then 0 else fIX) := by
  obtain ⟨rounds, exact_iff⟩ := roundInt_rounds hm neg m e
  refine ⟨_, rounds, ?_⟩
  have ordered : (intRange t).1 ≤ (intRange t).2 := by cases t <;> decide
  simp only [toIntRes, ← exact_iff]
  generalize (roundInt mode neg m e).1 = n
  split_ifs <;> simp_all <;> omega

/-- Settles O12: rounding to an integer is the division of the exact value; the packed field is a field of the register. -/
theorem conversionsCompute : Obligations.ConversionsCompute := by
  unfold Obligations.ConversionsCompute
  refine ⟨fun f st mode sat x rb => ⟨?toInt, ?toFloat⟩, fun s c v => ⟨?cvt, ?pack, ?unpk⟩⟩
  case toInt =>
    intro t lo hi range hm
    have ends : intRange t = (lo, hi) := by
      simp only [List.mem_cons, List.not_mem_nil, or_false, Prod.mk.injEq] at range
      rcases range with ⟨rfl, rfl, rfl⟩ | ⟨rfl, rfl, rfl⟩ | ⟨rfl, rfl, rfl⟩ | ⟨rfl, rfl, rfl⟩ <;> rfl
    simp only [cvtRes, cvtSrc]
    cases dec f x.toNat with
    | nan iv => simp [toIntRes]
    | inf neg => simp [toIntRes, ends]
    | fin neg m e st =>
      obtain ⟨n, rounds, result⟩ := toIntRes_fin t hm neg st m e
      rw [ends] at result
      exact ⟨n, rounds, by simp only [result, Nat.cast_pow, Nat.cast_ofNat]⟩
  case toFloat =>
    intro g
    cases st with
    | fl g => rfl
    | int t => cases t <;> simp only [cvtRes, cvtSrc, lo32_eq_extractLsb']
  case cvt =>
    exact fun d a rb dt st r sat => computes_alu rfl (fun _ _ => by cases h : cvt64 dt <;> rintro _ ⟨rfl⟩ <;> rfl) (fun _ _ => rfl)
  case pack => exact fun d a j f => computes_alu rfl (fun _ _ => fits_fltOut_f32 d _) (fun _ _ => rfl)
  case unpk =>
    refine fun d a j f => computes_alu rfl (fun _ _ => fits_word d _) (fun x i => ?_)
    simp only [perLane, BitVec.toNat_ushiftRight, Nat.shiftRight_eq_div_pow]

end Sys2Proof.Machine
end

section
/-! O13. Activation tables and the random streams (R149, R151, R166 to R168). -/

namespace Sys2Proof.Machine

-- The rounds of XCG4 (R151)

/-- A round with the two increments of the key as parameters: with their numerals in place the kernel would compute with them. -/
def xcgRoundOf (A B k0 k1 : Word) (j : Nat) (x : Word × Word × Word × Word) : Word × Word × Word × Word :=
  let y0 := x.1 + x.2.2.2 + (k0 + BitVec.ofNat 32 j * A)
  let y1 := (x.2.1 ^^^ y0).rotateLeft 8
  let y2 := x.2.2.1 + y1 + (k1 + BitVec.ofNat 32 j * B)
  let y3 := (x.2.2.2 ^^^ y2).rotateLeft 20
  (y0, y3, y2, y1)

theorem xcgRoundOf_eq (k0 k1 : Word) (j : Nat) (x : Word × Word × Word × Word) :
    xcgRoundOf 0x5A3C96E1 0xC78D2B4F k0 k1 j x = xcgRound k0 k1 j x := rfl

/-- The model's recursion over the rounds, with the same parameters. -/
def xcgRoundsOf (A B k0 k1 : Word) : Nat → Nat → Word × Word × Word × Word → Word × Word × Word × Word
  | 0, _, x => x
  | n + 1, j, (x0, x1, x2, x3) =>
    let a := k0 + BitVec.ofNat 32 j * A
    let b := k1 + BitVec.ofNat 32 j * B
    let y0 := x0 + x3 + a
    let y1 := xcgRounds.rotL32 (x1 ^^^ y0) 8
    let y2 := x2 + y1 + b
    let y3 := xcgRounds.rotL32 (x3 ^^^ y2) 20
    xcgRoundsOf A B k0 k1 n (j + 1) (y0, y3, y2, y1)

theorem xcgRounds_eq (k0 k1 : Word) (n j : Nat) (x : Word × Word × Word × Word) :
    xcgRounds k0 k1 n j x = xcgRoundsOf 0x5A3C96E1 0xC78D2B4F k0 k1 n j x := by
  delta xcgRounds xcgRoundsOf
  delta xcgRounds._f xcgRoundsOf._f
  exact rfl

theorem xcgRoundsOf_eq_foldl (A B k0 k1 : Word) (n j : Nat) (x : Word × Word × Word × Word) :
    xcgRoundsOf A B k0 k1 n j x = (List.range n).foldl (fun x i => xcgRoundOf A B k0 k1 (j + i) x) x := by
  induction n generalizing j x with
  | zero => rfl
  | succ n ih =>
    rw [List.range_succ_eq_map, List.foldl_cons, List.foldl_map]
    refine (ih (j + 1) (xcgRoundOf A B k0 k1 j x)).trans ?_
    simp only [Nat.succ_eq_add_one, Nat.add_right_comm j 1, Nat.add_assoc, Nat.add_zero]

/-- XCG4 is ten rounds of R151. -/
theorem xcg4_eq (ctr : Word × Word × Word × Word) (k0 k1 : Word) : xcg4 ctr k0 k1 =
    (let x := (List.range 10).foldl (fun x j => xcgRound k0 k1 (j + 1) x) ctr
     [x.1, x.2.1, x.2.2.1, x.2.2.2]) := by
  simp only [xcg4, xcgRounds_eq, xcgRoundsOf_eq_foldl, xcgRoundOf_eq, Nat.add_comm 1]

theorem rotateLeft_injective {w r : Nat} (hr : r < w) : Function.Injective (fun x : BitVec w => x.rotateLeft r) := by
  intro x y same
  apply BitVec.eq_of_getLsbD_eq
  intro i hi
  by_cases low : i + r < w
  · have bit := congrArg (BitVec.getLsbD · (i + r)) same
    simpa only [BitVec.getLsbD_rotateLeft_of_le hr, low, Nat.not_lt.mpr (Nat.le_add_left r i), decide_false, decide_true, cond_false,
      Bool.true_and, Nat.add_sub_cancel] using bit
  · have bit := congrArg (BitVec.getLsbD · (i + r - w)) same
    have small : i + r - w < r := by omega
    have back : w - r + (i + r - w) = i := by omega
    simpa only [BitVec.getLsbD_rotateLeft_of_le hr, small, back, decide_true, cond_true] using bit

/-- A round can be undone: its counter words follow from its outputs. -/
theorem xcgRoundOf_injective (A B k0 k1 : Word) (j : Nat) : Function.Injective (xcgRoundOf A B k0 k1 j) := by
  rintro ⟨x0, x1, x2, x3⟩ ⟨y0, y1, y2, y3⟩ same
  simp only [xcgRoundOf, Prod.mk.injEq] at same
  obtain ⟨h0, h3, h2, h1⟩ := same
  have h2' := h2
  rw [h1, BitVec.add_left_inj, BitVec.add_left_inj] at h2'
  rw [h2] at h3
  rw [h0] at h1
  have e1 : x1 = y1 := (BitVec.xor_left_inj _).mp (rotateLeft_injective (by decide) h1)
  have e3 : x3 = y3 := (BitVec.xor_left_inj _).mp (rotateLeft_injective (by decide) h3)
  rw [e3, BitVec.add_left_inj, BitVec.add_left_inj] at h0
  rw [h0, e1, h2', e3]

theorem foldl_injective {α β : Type} {f : α → β → α} (hf : ∀ b, Function.Injective (f · b)) (l : List β) :
    Function.Injective (fun a => l.foldl f a) := by
  induction l with
  | nil => exact fun _ _ h => h
  | cons b l ih => exact fun x y h => hf b (ih h)

theorem xcg4_injective {p q : Word × Word × Word × Word} {k0 k1 : Word} (same : xcg4 p k0 k1 = xcg4 q k0 k1) : p = q := by
  simp only [xcg4_eq, ← xcgRoundOf_eq, List.cons.injEq, and_true] at same
  obtain ⟨h0, h1, h2, h3⟩ := same
  have rounds := Prod.ext h0 (Prod.ext h1 (Prod.ext h2 h3))
  exact foldl_injective (f := fun x j => xcgRoundOf 0x5A3C96E1 0xC78D2B4F k0 k1 (j + 1) x) (fun j => xcgRoundOf_injective _ _ k0 k1 (j + 1))
    (List.range 10) rounds

-- Comparing exact values (R133)

theorem compare_mul_right {a b k : Int} (hk : 0 < k) : compare (a * k) (b * k) = compare a b := by
  rcases lt_trichotomy a b with less | rfl | more
  · rw [compare_lt_iff_lt.mpr less, compare_lt_iff_lt]
    exact mul_lt_mul_of_pos_right less hk
  · simp
  · rw [compare_gt_iff_gt.mpr more, compare_gt_iff_gt]
    exact mul_lt_mul_of_pos_right more hk

theorem compare_sub_zero (a b : Int) : compare (a - b) 0 = compare a b := by
  rcases lt_trichotomy a b with less | rfl | more
  · rw [compare_lt_iff_lt.mpr less, compare_lt_iff_lt]; omega
  · simp
  · rw [compare_gt_iff_gt.mpr more, compare_gt_iff_gt]; omega

theorem sgn_shiftLeft (n : Bool) (m k : Nat) : sgn n (m <<< k) = sgn n m * 2 ^ k := by
  rw [Nat.shiftLeft_eq, ← sgn_mul]; push_cast; rfl

theorem sgn_not (n : Bool) (m : Nat) : sgn (!n) m = -sgn n m := by
  cases n <;> simp [sgn]

/-- Finite values compare as the integers that they are multiples of, over a common power of two. -/
theorem cmpNum_fin (n n' s s' : Bool) (m m' : Nat) (e e' : Int) : cmpNum (.fin n m e s) (.fin n' m' e' s') =
    compare (sgn n m * 2 ^ (e - min e e').toNat) (sgn n' m' * 2 ^ (e' - min e e').toNat) := by
  have pos : ∀ k : Nat, (0 : Int) < 2 ^ k := fun k => by positivity
  have zero : ∀ b, sgn b 0 = 0 := fun b => by cases b <;> rfl
  have from_zero : ∀ (b : Int) (k : Nat), compare 0 (b * 2 ^ k) = compare 0 b := fun b k => by
    simpa only [zero_mul] using compare_mul_right (a := 0) (b := b) (pos k)
  have to_zero : ∀ (b : Int) (k : Nat), compare (b * 2 ^ k) 0 = compare b 0 := fun b k => by
    simpa only [zero_mul] using compare_mul_right (a := b) (b := 0) (pos k)
  simp only [cmpNum, Num.neg]
  cases m with
  | zero =>
    cases m' with
    | zero => simp [sumFin, zero]
    | succ m' =>
      simp only [sumFin, zero, sgn_shiftLeft, sgn_not, List.foldl_cons, List.foldl_nil, neg_mul, zero_mul, zero_add, ← zero_sub (_ * _),
        compare_sub_zero, from_zero]
  | succ m =>
    cases m' with
    | zero => simp only [sumFin, zero, sgn_shiftLeft, List.foldl_cons, List.foldl_nil, zero_mul, zero_add, to_zero]
    | succ m' =>
      simp only [sumFin, sgn_shiftLeft, sgn_not, List.foldl_cons, List.foldl_nil, zero_add]
      generalize hE : min (min 100000 e) e' = E
      have left : (e - E).toNat = (e - min e e').toNat + (min e e' - E).toNat := by omega
      have right : (e' - E).toNat = (e' - min e e').toNat + (min e e' - E).toNat := by omega
      rw [left, right, pow_add, pow_add, ← mul_assoc, ← mul_assoc, neg_mul, neg_mul, ← sub_eq_add_neg, compare_sub_zero, compare_mul_right (pos _)]

/-- A finite value against a natural number: its multiple of a power of two against the number's. -/
theorem cmpNum_nat (n s s' : Bool) (m k : Nat) (e : Int) : cmpNum (.fin n m e s) (.fin false k 0 s') =
    compare (sgn n (m * 2 ^ e.toNat)) (k * 2 ^ (-e).toNat) := by
  have left : (e - min e 0).toNat = e.toNat := by omega
  have right : (0 - min e 0).toNat = (-e).toNat := by omega
  rw [cmpNum_fin, left, right, ← sgn_mul]
  push_cast
  rfl

theorem nat_cmpNum (n s s' : Bool) (m k : Nat) (e : Int) : cmpNum (.fin false k 0 s') (.fin n m e s) =
    compare (k * 2 ^ (-e).toNat : Int) (sgn n (m * 2 ^ e.toNat)) := by
  have left : (e - min 0 e).toNat = e.toNat := by omega
  have right : (0 - min 0 e).toNat = (-e).toNat := by omega
  rw [cmpNum_fin, left, right, ← sgn_mul]
  push_cast
  rfl

theorem sgn_nonneg {n : Bool} {x : Nat} (h : ¬ sgn n x < 0) : sgn n x = x := by
  cases n with
  | false => rfl
  | true => simp only [sgn, if_true] at h ⊢; omega

-- Activation tables (R149)

/-- Between 0 and 1,024 the model's segment is the one that holds t. -/
theorem segment_holds {n s : Bool} {m : Nat} {e : Int} (low : cmpNum (.fin n m e s) (.fin false 0 0 false) ≠ .lt)
    (high : cmpNum (.fin n m e s) (.fin false 1024 0 false) = .lt) :
    let i := (roundInt .rz false m e).1.toNat
    i < 1024 ∧ cmpNum (.fin false i 0 false) (.fin n m e s) ≠ .gt ∧ cmpNum (.fin n m e s) (.fin false (i + 1) 0 false) = .lt := by
  intro i
  rw [cmpNum_nat, Ne, compare_lt_iff_lt, Nat.cast_zero, zero_mul] at low
  rw [cmpNum_nat, compare_lt_iff_lt] at high
  rw [nat_cmpNum, Ne, compare_gt_iff_gt, cmpNum_nat, compare_lt_iff_lt]
  have rounds := (roundInt_rounds (mode := .rz) (by decide) false m e).1
  have d_pos : (0 : Int) < (2 ^ (-e).toNat : Nat) := by positivity
  rw [sgn_nonneg low] at high ⊢
  simp only [Rounds, sgn, Bool.false_eq_true, if_false, Int.natCast_nonneg, if_true, ← Nat.cast_ofNat (R := Int), ← Nat.cast_pow] at rounds high ⊢
  generalize (m * 2 ^ e.toNat) = x at *
  generalize 2 ^ (-e).toNat = d at *
  obtain ⟨below, above⟩ := rounds
  have nonneg : 0 ≤ (roundInt .rz false m e).1 := by
    have : (0 : Int) * d < ((roundInt .rz false m e).1 + 1) * d := by rw [zero_mul]; exact lt_of_le_of_lt (Int.natCast_nonneg x) above
    have := lt_of_mul_lt_mul_right this d_pos.le
    omega
  have hi : (i : Int) = (roundInt .rz false m e).1 := Int.toNat_of_nonneg nonneg
  rw [← hi] at below above
  have small := lt_of_mul_lt_mul_right (lt_of_le_of_lt below high) d_pos.le
  push_cast
  exact ⟨by omega, not_lt.mpr below, above⟩


/-- What a table's image gives (R149). -/
theorem actEval_evaluates (t : List Word) (img : Nat) (free : Word) (x : Nat) :
    Evaluates (fun i => (t.getD (1040 * img + i) 0).toNat) free x (actEval t img free x) := by
  simp only [Evaluates, actEval, stepRne, tableWord]
  cases dec .f32 x with
  | nan iv => simp [Num.isNan, fmtNan]
  | inf n | fin n m e s =>
    simp only [Num.isNan, Bool.false_eq_true, if_false]
    generalize dec .f32 (rne .f32 (mulNum _ _)).1 = tv
    cases tv with
    | nan iv => simp
    | inf neg => cases neg <;> simp [cmpNum]
    | fin neg m e s =>
      by_cases low : cmpNum (.fin neg m e s) (.fin false 0 0 false) = .lt
      · simp [low]
      by_cases high : cmpNum (.fin neg m e s) (.fin false 1024 0 false) = .lt
      · obtain ⟨inside, from_i, below⟩ := segment_holds low high
        have next : ∀ i, 8 + (i + 1) = 9 + i := by omega
        simp only [low, high, if_false, ne_eq, not_true_eq_false, next]
        exact ⟨_, inside, from_i, below, rfl⟩
      · simp [low, high]

/-- The manual's example of an evaluation: x = 0.3 in segment 550 of a table of the range −4 to 4 (R149). -/
theorem actEval_example {t : List Word} (free : Word) (h0 : t.getD 0 0 = 0xC0800000) (h2 : t.getD 2 0 = 0x43000000)
    (h558 : t.getD 558 0 = 0x3DB48000) (h559 : t.getD 559 0 = 0x3DBE2000) : actEval t 0 free 0x3E99999A = (0x3DB859A9, 0) := by
  have hx : dec .f32 0x3E99999A = .fin false 10066330 (-25) false := by decide
  have hd : stepRne (sumNum false [.fin false 10066330 (-25) false, (dec .f32 (0xC0800000 : Word).toNat).neg]) = (.fin false 9017754 (-21) false, 0) := by decide
  have hq : stepRne (mulNum (.fin false 9017754 (-21) false) (dec .f32 (0x43000000 : Word).toNat)) = (.fin false 9017754 (-14) false, 0) := by decide
  have hi : (roundInt .rz false 9017754 (-14)).1.toNat = 550 := by decide
  have low : cmpNum (.fin false 9017754 (-14) false) (.fin false 0 0 false) ≠ .lt := by decide
  have high : ¬ cmpNum (.fin false 9017754 (-14) false) (.fin false 1024 0 false) ≠ .lt := by decide
  simp only [actEval, tableWord, Nat.mul_zero, Nat.zero_add, hx, h0, h2, hd, hq, if_neg low, if_neg high, hi, h558, h559]
  decide

/-- Settles O13: a table by the segment that holds t, the rounds of XCG4 by their injectivity, and each instruction by what its lanes give. -/
theorem tablesAndStreamsCompute : Obligations.TablesAndStreamsCompute := by
  unfold Obligations.TablesAndStreamsCompute
  refine ⟨actEval_evaluates, fun t free => actEval_example free, xcg4_eq, fun p q k0 k1 => xcg4_injective, fun s c v => ⟨?act, ?actd, ?xrng, ?xrngf⟩⟩
  case act => exact fun d x slot => computes_alu rfl (fun _ _ => fits_fltOut_f32 d _) (fun _ _ => rfl)
  case actd => exact fun d x g slot => computes_alu rfl (fun _ _ => fits_fltOut_f32 d _) (fun _ _ => rfl)
  case xrng => exact fun d ctr key => computes_alu rfl (fun _ _ => by rintro _ ⟨rfl⟩; rfl) (fun _ _ => rfl)
  case xrngf =>
    refine fun d a => computes_alu rfl (fun _ _ => fits_word d _) (fun x i => ?_)
    simp only [perLane, BitVec.toNat_ushiftRight, Nat.shiftRight_eq_div_pow]

end Sys2Proof.Machine
end

section
/-! O14, O15. Lane reads, reductions and indirect registers (R170 to R180). -/

namespace Sys2Proof.Machine

variable {s : State} {c : Common} {v : View}

/-- A lane read gives a valid source's value, or the fill (R171). -/
theorem laneRead_eq {quad : Bool} {pos : Nat → Nat → Option Nat} {pv : Nat} {inp : Nat → LaneIn} {i p : Nat} {inside : Prop}
    [Decidable inside] (at_ : pos i ((inp i).w 1).toNat = if inside then some p else none) :
    laneRead quad pos pv v inp i =
      if inside ∧ validSource v quad p then { regs := [(inp p).w 0], preds := pvOut pv true }
      else { regs := [(inp i).w 2], preds := pvOut pv false } := by
  unfold laneRead
  rw [at_]
  by_cases h : inside
  · rw [if_pos h, Option.filter_some]
    by_cases hv : validSource v quad p = true
    · rw [if_pos hv, if_pos ⟨h, hv⟩]
    · rw [if_neg hv, if_neg (fun both => hv both.2)]
  · rw [if_neg h, if_neg (fun both => h both.1)]
    rfl

theorem fits_laneRead (d : Name) (quad : Bool) (pos : Nat → Nat → Option Nat) (pv : Nat) (inp : Nat → LaneIn) (i : Nat) :
    fits (d1 d) (laneRead quad pos pv v inp i) := by
  rintro _ ⟨rfl⟩
  unfold laneRead
  split <;> rfl

/-- Either branch of a lane read is one word. -/
theorem fits_oneWord (d : Name) (ok : Prop) [Decidable ok] (a b : Word) (p q : List (Nat × Bool)) :
    fits (d1 d) (if ok then { regs := [a], preds := p } else { regs := [b], preds := q }) := by
  rintro _ ⟨rfl⟩
  split <;> rfl

theorem fits_quadDiff (d : Name) (bit pv : Nat) (inp : Nat → LaneIn) (i : Nat) : fits (d1 d) (quadDiff bit pv v inp i) := by
  rintro _ ⟨rfl⟩
  unfold quadDiff
  generalize (if i / bit % 2 = 1 then i - bit else i) = lo
  dsimp only
  split <;> rfl

/-- A source that every x names lies inside. -/
theorem laneRead_all {quad : Bool} {pos : Nat → Nat → Option Nat} {pv : Nat} {inp : Nat → LaneIn} {i p : Nat}
    (at_ : pos i ((inp i).w 1).toNat = some p) :
    laneRead quad pos pv v inp i =
      if validSource v quad p then { regs := [(inp p).w 0], preds := pvOut pv true }
      else { regs := [(inp i).w 2], preds := pvOut pv false } := by
  rw [laneRead_eq (p := p) (inside := True) (at_.trans (if_pos trivial).symm)]
  simp only [true_and]

/-- Settles O14: each lane read by the source that its rule names. -/
theorem laneReadsCompute : Obligations.LaneReadsCompute := by
  unfold Obligations.LaneReadsCompute
  intro s c v
  refine ⟨?qswp, ?qbc, ?qdx, ?qdy, ?perm, ?shup, ?shdn, ?shxr⟩
  case qdx | qdy => exact fun d a f pv => computes_alu rfl (fun x i => fits_quadDiff d _ pv x i) (fun _ _ => rfl)
  case qswp | qbc => exact fun d a e f pv => computes_alu rfl (fun _ _ => fits_oneWord d _ _ _ _ _) (fun _ _ => laneRead_all rfl)
  case perm | shdn | shxr =>
    exact fun d a e f pv => computes_alu rfl (fun _ _ => fits_oneWord d _ _ _ _ _) (fun _ _ => laneRead_eq rfl)
  case shup =>
    refine fun d a e f pv => computes_alu rfl (fun _ _ => fits_oneWord d _ _ _ _ _) (fun x i => laneRead_eq ?_)
    by_cases h : i < ((x i).w 1).toNat
    · simp only [if_pos h, if_neg (Nat.not_le.2 h)]
    · simp only [if_neg h, if_pos (Nat.not_lt.1 h)]

/-- An indirect target that may be touched (R180). -/
theorem ixTarget_eq (v : View) (base idx : Nat) :
    ixTarget v base idx = if base + idx < 320 ∧ base + idx < 64 * (1 + v.gang.chunks) then some (base + idx) else none := by
  simp only [ixTarget, Gang.acquired, decide_eq_true_eq, Nat.lt_iff_add_one_le]

/-- What an indirect access does, where its target may be touched and where not. -/
theorem ixTarget_cases {α : Type} (v : View) (base idx : Nat) (touch : Nat → α) (none_ : α) :
    (match ixTarget v base idx with | some n => touch n | none => none_) =
      if base + idx < 320 ∧ base + idx < 64 * (1 + v.gang.chunks) then touch (base + idx) else none_ := by
  rw [ixTarget_eq]
  by_cases h : base + idx < 320 ∧ base + idx < 64 * (1 + v.gang.chunks)
  · rw [if_pos h, if_pos h]
  · rw [if_neg h, if_neg h]

/-- The votes of R179 without the model's counts. -/
theorem voteRes_eq (m : Vote) (v : View) (x : Nat → LaneIn) :
    voteRes m v x = match m with
      | .ballot => maskOf (v.contrib.filter (fun p => (x p).w 0 != 0))
      | .any => if v.contrib.any (fun p => (x p).w 0 != 0) then 1 else 0
      | .all => if v.contrib.all (fun p => (x p).w 0 != 0) then 1 else 0
      | .uni => if v.contrib.all (fun p => v.contrib.all (fun q => (x p).w 0 == (x q).w 0)) then 1 else 0 := by
  cases m with
  | ballot => rfl
  | any =>
    cases h : v.contrib.any (fun p => (x p).w 0 != 0) <;> simp_all [voteRes, List.isEmpty_iff]
  | all => simp [voteRes, List.length_filter_eq_length_iff]
  | uni =>
    have agree : (v.contrib.all (fun p => (x p).w 0 == (x (v.contrib.headD 0)).w 0)) =
        v.contrib.all (fun p => v.contrib.all (fun q => (x p).w 0 == (x q).w 0)) := by
      cases h : v.contrib with
      | nil => rfl
      | cons a as =>
        refine Bool.eq_iff_iff.2 ?_
        simp only [List.all_eq_true, beq_iff_eq, List.headD_cons]
        exact ⟨fun all p hp q hq => (all p hp).trans (all q hq).symm, fun all p hp => all p hp a List.mem_cons_self⟩
    simp only [voteRes, agree]

/-- Settles O15: votes and indirect targets by their equations, the rest as they stand. -/
theorem reductionsCompute : Obligations.ReductionsCompute := by
  unfold Obligations.ReductionsCompute
  intro s c v
  refine ⟨?vote, ?mtch, ?gscan, ?gred, ?rdix, ?wrix⟩
  case vote =>
    exact fun d a m => computes_alu rfl (fun _ _ => fits_word d _) (fun x _ => congrArg LaneOut.word (voteRes_eq m v x))
  case mtch =>
    refine fun d a w64 => computes_alu rfl (fun x i => ?_) (fun _ _ => rfl)
    cases w64 <;> rintro _ ⟨rfl⟩ <;> rfl
  case gscan => exact fun d a seed op => computes_alu rfl (fun _ _ => fits_word d _) (fun _ _ => rfl)
  case gred => exact fun d a op => computes_alu rfl (fun _ _ => fits_word d _) (fun _ _ => rfl)
  case rdix =>
    refine fun d n idx f pv => computes_alu rfl (fun _ _ => fits_oneWord d _ _ _ _ _) (fun x i => ?_)
    exact ixTarget_cases (α := LaneOut) v n ((x i).w 0).toNat (fun r => { regs := [(x i).lane.reg r], preds := pvOut pv true })
      { regs := [(x i).w 1], preds := pvOut pv false }
  case wrix =>
    refine fun n a idx pv => computes_alu rfl (fun _ _ => fits_none _) (fun x i => ?_)
    exact ixTarget_cases (α := LaneOut) v n ((x i).w 1).toNat (fun r => { ind := some (r, (x i).w 0), preds := pvOut pv true })
      { preds := pvOut pv false }

end Sys2Proof.Machine
end

section
/-! Instructions that end with their active lanes changed (R49, R70, R93 to R99). -/

namespace Sys2Proof.Machine

variable {s t : State} {c : Common} {v : View} {i : Instr}

/-- An instruction whose meaning, past its checks, is to end its slot and change its active lanes. -/
theorem endsWith_of {f : Front} {own : View → Option FaultInfo} {change g : Nat → Lane → Lane} (k : View → Out)
    (runs : exec i s = issueChecks s c f own k) (ends : Passes s c f own v → k v = .next (endWith s v change))
    (same : change = g) : EndsWith s c v i f own g := fun h =>
  ⟨_, runs.trans ((issueChecks_pass h k).trans (ends h)), same ▸ endWith_ended h.view h.stands _⟩

/-- No target is off its alignment where every one is a multiple of 8. -/
theorem misaligned_none {tgt : Nat → DWord} (aligned : ∀ i ∈ v.active, (tgt i).toNat % 8 = 0) : misaligned v tgt = none := by
  have none_ : v.active.find? (fun i => decide ((tgt i).toNat % 8 ≠ 0)) = none :=
    List.find?_eq_none.2 fun i hi => by simp [aligned i hi]
  simp only [misaligned, none_, Option.map_none]

theorem transferTo_aligned {tgt : Nat → DWord} (aligned : ∀ i ∈ v.active, (tgt i).toNat % 8 = 0) :
    transferTo s v tgt = .next (endWith s v (fun i l => { l with pc := tgt i })) := by
  simp only [transferTo, misaligned_none aligned]

/-- What an ending leaves is not changed by what touches the gang in issue alone, and neither its lanes nor its registers. -/
theorem ended_modGang {f : Nat → Lane → Lane} (h : Ended s t v f) (hg : v.g = v.iss.gang) (k : Gang → Gang)
    (lanes : ∀ g, (k g).lanes = g.lanes) (cregs : ∀ g, (k g).cregs = g.cregs) (flags : ∀ g, (k g).flags = g.flags)
    (chunks : ∀ g, (k g).chunks = g.chunks) (sys : ∀ g, (k g).sys = g.sys) : Ended s (modGang t v.iss.team v.g k) v f := by
  have gang_or : gangOf (modGang t v.iss.team v.g k) v = k (gangOf t v) ∨ gangOf (modGang t v.iss.team v.g k) v = gangOf t v := by
    rw [gangOf, gangOf, hg, findGang_modGang]
    cases findGang t v.iss.team v.iss.gang with
    | none => exact .inr rfl
    | some x => exact .inl rfl
  have keeps : ∀ {α : Type} (r : Gang → α), (∀ g, r (k g) = r g) → r (gangOf (modGang t v.iss.team v.g k) v) = r (gangOf t v) :=
    fun r hr => by rcases gang_or with e | e <;> simp only [e, hr]
  have lane : ∀ i, laneOf (modGang t v.iss.team v.g k) v i = laneOf t v i := fun i =>
    keeps (fun g => g.lane i) (fun g => by simp only [Gang.lane, lanes])
  have elsewhere : Elsewhere t (modGang t v.iss.team v.g k) v :=
    ⟨rfl, fun u hu => findTeam_modGang_ne _ _ _ hu, fun g hgg => findGang_modGang_ne _ _ (.inr (by rwa [hg])), rfl, rfl, rfl, rfl⟩
  refine ⟨fun i hi => ?_, fun i hi hn => ?_, (keeps _ cregs).trans h.cregs, (keeps _ flags).trans h.flags,
    (keeps _ chunks).trans h.chunks, (keeps _ sys).trans h.sys, ?_, h.elsewhere.trans elsewhere⟩
  · rw [lane]; exact h.active i hi
  · rw [lane]; exact h.others i hi hn
  · have advanced := h.advanced
    unfold Advanced at advanced ⊢
    rwa [bayOf_modGang]

theorem setReady_sys (g : Gang) (ks : List (Nat × Nat)) (t : Nat) : (g.setReady ks t).sys = g.sys := rfl

/-- A call writes its link and transfers (R94). -/
theorem linkTo_ends {f : Front} {own : View → Option FaultInfo} {n : Nat} {tgt : Nat → DWord} (h : Passes s c f own v)
    (aligned : ∀ i ∈ v.active, (tgt i).toNat % 8 = 0) :
    ∃ t, linkTo s v (.g n) tgt = .next t ∧
      Ended s t v (fun i l => { l.setRegs n [lo32 v.nextPc, hi32 v.nextPc] with pc := tgt i }) := by
  have ended := endWith_ended h.view h.stands (fun i l => { l.setRegs n [lo32 v.nextPc, hi32 v.nextPc] with pc := tgt i })
  simp only [linkTo, misaligned_none aligned]
  refine ⟨_, rfl, ?_⟩
  split
  · exact ended
  · exact ended_modGang ended (issueView_eq h.view).2.2.1 _ (fun _ => rfl) (fun _ => rfl) (fun _ => rfl) (fun _ => rfl) (fun _ => rfl)

/-- A call passes the checks of its link where they are none. -/
theorem endsWith_link {f : Front} {own : View → Option FaultInfo} {n : Nat} {tgt : View → Nat → DWord}
    (runs : exec i s = issueChecks s c f own (fun v => linkTo s v (.g n) (tgt v)))
    (aligned : ∀ i ∈ v.active, (tgt v i).toNat % 8 = 0) :
    EndsWith s c v i f own (fun i l => { l.setRegs n [lo32 v.nextPc, hi32 v.nextPc] with pc := tgt v i }) := fun h => by
  obtain ⟨t, next, ended⟩ := linkTo_ends (n := n) h aligned
  exact ⟨t, (runs.trans (issueChecks_pass h _)).trans next, ended⟩

/-- A YLD point of a lane with a new deadline, as R85 has it for each of the lane's states. -/
theorem yldPoint_deadline (stop kill : Bool) (d : Nat) (l : Lane) :
    { l.yldPoint stop kill with deadline := d } = match l.st with
      | .running => { l with wdog := 0, deadline := d, st := if stop then .stopped none else .running }
      | .trapped => { l with wdog := 0, deadline := d, st := if kill then .stopped none else .trapped, handler := l.handler && !kill }
      | .blocked w => { l with wdog := 0, deadline := d, handler := l.handler && !kill,
                               st := if kill || (stop && !l.handler) then .stopped (some w) else .blocked w }
      | _ => { l with wdog := 0, deadline := d } := by
  unfold Lane.yldPoint
  split <;> rename_i st <;> simp only [st]
  · cases kill <;> simp
  · cases kill <;> simp [← st]

/-- A lane that begins to wait meets a YLD point (R84). -/
theorem yldPoint_blocked (team : Team) (w : Wait) (l : Lane) :
    { l with st := .blocked w }.yldPoint team.stopping team.killPending = waiting team w l := by
  unfold Lane.yldPoint waiting
  dsimp only
  cases team.killPending <;> simp

/-- A YLD point where the team is not being stopped. -/
theorem yldPoint_free (d : Nat) (l : Lane) : { l.yldPoint false false with deadline := d } = { l with wdog := 0, deadline := d } := by
  rw [yldPoint_deadline]
  split <;> rename_i st <;> simp [st]

/-- The deferred fault of an exiting lane ends the team (log entry 105). -/
theorem endTeam_ending {uid : Nat} {u : Team} {info : FaultInfo} (found : findTeam s uid = some u) (live : u.ending = none) :
    ∃ u', findTeam (endTeam s uid info) uid = some u' ∧ u'.ending = some info := by
  refine ⟨_, (findTeam_modTeam s uid _ (fun t => by split <;> rfl)).trans (congrArg _ found), ?_⟩
  simp [live]

theorem endTeam_mem (uid : Nat) (info : FaultInfo) : (endTeam s uid info).mem = s.mem := rfl

/-- A team but for its gangs. -/
def Team.body (t : Team) : Team := { t with gangs := [] }
/-- The team that a state holds under an identity, but for its gangs. -/
def teamBody (s : State) (uid : Nat) : Option Team := (findTeam s uid).map Team.body

theorem teamBody_modGang (s : State) (u g uid : Nat) (f : Gang → Gang) : teamBody (modGang s u g f) uid = teamBody s uid := by
  by_cases h : uid = u
  · subst h
    rw [teamBody, teamBody, modGang, findTeam_modTeam _ _ _ (by intro; rfl), Option.map_map]
    rfl
  · rw [teamBody, teamBody, findTeam_modGang_ne _ _ _ h]

theorem teamBody_modLane (s : State) (u g i uid : Nat) (f : Lane → Lane) : teamBody (modLane s u g i f) uid = teamBody s uid :=
  teamBody_modGang s u g uid _

theorem teamBody_congr {s t : State} (h : t.teams = s.teams) (uid : Nat) : teamBody t uid = teamBody s uid := by
  rw [teamBody, teamBody, findTeam, findTeam, h]

theorem teamBody_modActive (s : State) (v : View) (f : Nat → Lane → Lane) (uid : Nat) :
    teamBody (modActive s v f) uid = teamBody s uid :=
  List.foldlRecOn v.active _ (motive := fun t => teamBody t uid = teamBody s uid) rfl
    (fun t h _ _ => (teamBody_modLane t _ _ _ uid _).trans h)

theorem teamBody_afterSlot (s : State) (v : View) (half : Bool) (w : WinSlot) (uid : Nat) :
    teamBody (afterSlot s v half w) uid = teamBody s uid := by
  have passed : teamBody (v.passed { s with fresh := s.fresh + 1 }) uid = teamBody s uid := teamBody_congr (View.passed_teams _ _) uid
  unfold afterSlot endIssue
  dsimp only
  split
  · exact (teamBody_congr rfl uid).trans passed
  · exact (teamBody_congr rfl uid).trans ((teamBody_modGang _ _ _ uid _).trans ((teamBody_modGang _ _ _ uid _).trans passed))

theorem teamBody_some {s t : State} {uid : Nat} {u : Team} (same : teamBody t uid = teamBody s uid) (found : findTeam s uid = some u) :
    ∃ u', findTeam t uid = some u' ∧ u'.body = u.body := by
  rw [teamBody, teamBody, found] at same
  exact Option.map_eq_some_iff.1 same

/-- The team in issue stands still, with the ending it had, when it ends a slot and changes its lanes. -/
theorem endWith_team {f : Front} {own : View → Option FaultInfo} (h : Passes s c f own v) (g : Nat → Lane → Lane) :
    ∃ u, findTeam (endWith s v g) v.iss.team = some u ∧ u.ending = v.team.ending := by
  obtain ⟨u, found, same⟩ := teamBody_some
    ((teamBody_modActive _ v g _).trans (teamBody_afterSlot s v false WinSlot.none _)) (issueView_eq h.view).1
  exact ⟨u, found, (congrArg Team.ending same : u.body.ending = v.team.body.ending)⟩

/-- Settles O16: each transfer by the change of its lanes, CALL and CALLX by their link. -/
theorem transfersMoveActiveLanes : Obligations.TransfersMoveActiveLanes := by
  unfold Obligations.TransfersMoveActiveLanes
  intro s c v
  refine ⟨?nop, ?bra, ?brx, ?ret, ?call, ?callx, ?exit, ?deferred, ?yld, ?hinty⟩
  case nop => exact computes_alu rfl (fun _ _ => fits_none _) (fun _ _ => rfl)
  case bra => exact fun off aligned => endsWith_of _ rfl (fun _ => transferTo_aligned (fun _ _ => aligned)) rfl
  case brx | ret => exact fun a aligned => endsWith_of _ rfl (fun _ => transferTo_aligned aligned) rfl
  case call => exact fun n off aligned => endsWith_link (tgt := fun v _ => v.c21 off) rfl (fun _ _ => aligned)
  case callx => exact fun n a aligned => endsWith_link (tgt := fun v i => v.src2 s.fresh i a) rfl aligned
  case exit =>
    intro healthy
    have none_ : v.active.findSome? (fun i => (v.gang.lane i).deferred) = none := List.findSome?_eq_none_iff.2 healthy
    exact endsWith_of _ rfl (fun _ => by simp only [none_]; rfl) rfl
  case deferred =>
    intro f h some_ live
    obtain ⟨u, found, ending⟩ := endWith_team h (fun _ l => exitLane s.fresh l)
    obtain ⟨u', found', ended⟩ := endTeam_ending (info := f) found (ending.trans live)
    refine ⟨_, u', (issueChecks_pass h _).trans (by simp only [some_]), found', ended, ?_⟩
    exact (endWith_ended h.view h.stands _).elsewhere.mem
  case yld =>
    intro d running
    refine endsWith_of _ rfl (fun _ => rfl) (funext₂ fun _ l => ?_)
    have live : v.team.killPending = false := (Bool.or_eq_false_iff.1 running).2
    rw [running, live]
    exact yldPoint_free d l
  case hinty => exact endsWith_of _ rfl (fun _ => rfl) rfl

/-- A lane that arrives releases, and then waits. -/
theorem arrive_eq (w : Wait) (sc : Scope) (team : Team) :
    arrive w sc team = fun l => { waiting team w l with queue := l.queue ++ [LaneOp.plain (.rel sc)] } :=
  funext fun l => yldPoint_blocked team w (l.push [LaneOp.plain (.rel sc)])

/-- Settles O17: arrivals by `arrive_eq`, YLD by its YLD point. -/
theorem arrivalsBlock : Obligations.ArrivalsBlock := by
  unfold Obligations.ArrivalsBlock
  intro s c v arrives
  have arrival : ∀ w sc, (fun _ => arrive w sc v.team : Nat → Lane → Lane) = arrives w sc := fun w sc => funext fun _ => arrive_eq w sc v.team
  refine ⟨?barg, ?bart, ?barb, ?regrp, ?yld⟩
  case barg | bart | barb => exact fun sc => endsWith_of _ rfl (fun _ => rfl) (arrival _ _)
  case regrp =>
    intro no_chunks h
    refine endsWith_of _ rfl (fun _ => rfl) (arrival _ _) { h with own := ?_ }
    rw [if_neg (fun some_ => some_ no_chunks)]
  case yld =>
    refine fun d => endsWith_of _ rfl (fun _ => rfl) (funext₂ fun _ l => ?_)
    exact yldPoint_deadline _ _ d l

end Sys2Proof.Machine
end

section
/-! The gang in issue, in a state that the instruction has already changed: what the end of its slot leaves behind. -/

namespace Sys2Proof.Machine

/-- The gang in issue stands in a state as `x`, with its clause in the bay: what the end of a slot needs. -/
structure At (s : State) (v : View) (x : Gang) : Prop where
  gang : findGang s v.iss.team v.iss.gang = some x
  count : x.lanes.length = 32
  place : v.g = v.iss.gang
  bay : (bayOf s v.core v.bay).issue = some v.iss
  group : ∀ i ∈ v.iss.group, i < 32
  nodup : v.active.Nodup
  active : ∀ i ∈ v.active, i ∈ v.iss.group ∧ i < 32

variable {s t : State} {c : Common} {v : View} {x : Gang} {f : Front} {own : View → Option FaultInfo}

theorem Passes.at_ (h : Passes s c f own v) : At s v v.gang := by
  obtain ⟨-, -, place, bay, -⟩ := issueView_eq h.view
  obtain ⟨nodup, active⟩ := active_facts h.view h.stands
  obtain ⟨⟨x, found, count⟩, group, -⟩ := h.stands
  obtain rfl : v.gang = x := view_gang h.view found
  exact ⟨found, count, place, bay, group, nodup, active⟩

namespace At

theorem gang_eq (h : At s v x) : gangOf s v = x := gangOf_eq h.gang

theorem laneOf_eq (h : At s v x) (i : Nat) : laneOf s v i = x.lane i := by rw [laneOf, h.gang_eq]

/-- The gang in issue is changed, with as many lanes as before. -/
theorem modGang (h : At s v x) (k : Gang → Gang) (count : (k x).lanes.length = x.lanes.length) :
    At (modGang s v.iss.team v.g k) v (k x) where
  gang := by rw [h.place, findGang_modGang, h.gang]; rfl
  count := count.trans h.count
  place := h.place
  bay := (congrArg Bay.issue (bayOf_modGang _ _ _ _ _ _)).trans h.bay
  group := h.group
  nodup := h.nodup
  active := h.active

/-- So it stands in a state with the same teams and bays. -/
theorem same (h : At s v x) (teams : t.teams = s.teams) (cores : t.cores = s.cores) : At t v x where
  gang := by rw [← h.gang, findGang, findGang, findTeam, findTeam, teams]
  count := h.count
  place := h.place
  bay := by rw [← h.bay, bayOf_congr cores]
  group := h.group
  nodup := h.nodup
  active := h.active

theorem slotEnd (h : At s v x) (half : Bool) (w : WinSlot) : SlotEnd s (afterSlot s v half w) v (slotPc s v) :=
  afterSlot_end s v half w h.gang h.place

theorem advanced (h : At s v x) (half : Bool) (w : WinSlot) : Advanced (afterSlot s v half w) v :=
  afterSlot_advanced s v half w h.bay

theorem follows (h : At s v x) (half : Bool) (w : WinSlot) : Follows (afterSlot s v half w) v := by
  by_cases more : v.iss.slot < v.iss.ni
  · exact .inl more
  · refine .inr fun i hi => ?_
    rw [(h.slotEnd half w).pc i (by rw [h.gang_eq, h.count]; exact h.group i hi), slotPc, if_neg more,
      if_pos (List.contains_iff_mem.2 hi)]

end At

theorem SlotEnd.kept {pc : Nat → DWord} (h : SlotEnd s t v pc) : Kept s t v :=
  ⟨fun i _ => h.regs i, fun i _ => h.preds i, fun i _ => h.fst i, ⟨h.gsys, fun i _ => h.sys i⟩, h.cregs, h.elsewhere⟩

theorem modGang_elsewhere (place : v.g = v.iss.gang) (k : Gang → Gang) : Elsewhere s (modGang s v.iss.team v.g k) v :=
  ⟨rfl, fun _ hu => findTeam_modGang_ne _ _ _ hu, fun _ hg => findGang_modGang_ne _ _ (.inr (by rwa [place])), rfl, rfl, rfl, rfl⟩

-- What of a gang the end of a slot leaves alone

/-- A gang but for its lanes and ports. -/
def Gang.body (g : Gang) : Gang := { g with lanes := [], ports := [] }
/-- The gang in issue, but for its lanes and ports. -/
def gangBody (s : State) (v : View) : Option Gang := (findGang s v.iss.team v.iss.gang).map Gang.body

theorem gangBody_modGang (place : v.g = v.iss.gang) (k : Gang → Gang) (same : ∀ g, (k g).body = g.body) :
    gangBody (modGang s v.iss.team v.g k) v = gangBody s v := by
  rw [gangBody, gangBody, place, findGang_modGang, Option.map_map]
  exact congrArg (fun r => Option.map r _) (funext same)

theorem bindPorts_body (g : Gang) (l : List (Nat × DWord × Nat)) : (g.bindPorts l).body = g.body :=
  List.foldlRecOn l _ (motive := fun k : Gang => k.body = g.body) rfl (fun _ h _ _ => h)

theorem gangBody_congr (teams : t.teams = s.teams) : gangBody t v = gangBody s v := by
  rw [gangBody, gangBody, findGang, findGang, findTeam, findTeam, teams]

theorem gangBody_afterSlot (place : v.g = v.iss.gang) (half : Bool) (w : WinSlot) : gangBody (afterSlot s v half w) v = gangBody s v := by
  have passed : gangBody (v.passed { s with fresh := s.fresh + 1 }) v = gangBody s v := gangBody_congr (View.passed_teams _ _)
  unfold afterSlot endIssue
  dsimp only
  split
  · exact (gangBody_congr rfl).trans passed
  · refine (gangBody_congr rfl).trans ((gangBody_modGang place _ (fun _ => bindPorts_body _ _)).trans ?_)
    exact (gangBody_modGang place _ (by intro; rfl)).trans passed

theorem gangBody_modActive (place : v.g = v.iss.gang) (g : Nat → Lane → Lane) : gangBody (modActive s v g) v = gangBody s v :=
  List.foldlRecOn v.active _ (motive := fun t => gangBody t v = gangBody s v) rfl
    (fun _ h _ _ => (gangBody_modGang place _ (by intro; rfl)).trans h)

theorem gangBody_endWith (place : v.g = v.iss.gang) (g : Nat → Lane → Lane) : gangBody (endWith s v g) v = gangBody s v :=
  (gangBody_modActive place g).trans (gangBody_afterSlot place _ _)

/-- What the body of a gang says, the gang in issue says. -/
theorem At.body (h : At s v x) (same : gangBody t v = gangBody s v) : (gangOf t v).body = x.body := by
  rw [gangBody, gangBody, h.gang] at same
  obtain ⟨y, found, body⟩ := Option.map_eq_some_iff.1 same
  rw [gangOf_eq found, body]

-- What of a lane the end of a slot leaves alone

/-- A lane but for where it stands, its queue, and what it keeps of its ports. -/
def Lane.body (l : Lane) : Lane :=
  { l with pc := 0, lastIssue := 0, resume := 0, queue := [], pos := [], late := [], pre := [], claims := [], slots := [], granted := [],
           filled := [] }
/-- The lanes of the gang in issue, but for those parts. -/
def laneBodies (s : State) (v : View) : Option (List Lane) := (findGang s v.iss.team v.iss.gang).map (fun g => g.lanes.map Lane.body)

theorem laneBodies_modGang (place : v.g = v.iss.gang) (k : Gang → Gang)
    (same : ∀ g, (k g).lanes.map Lane.body = g.lanes.map Lane.body) :
    laneBodies (modGang s v.iss.team v.g k) v = laneBodies s v := by
  rw [laneBodies, laneBodies, place, findGang_modGang, Option.map_map]
  exact congrArg (fun r => Option.map r _) (funext same)

theorem bindPorts_bodies (g : Gang) (l : List (Nat × DWord × Nat)) : (g.bindPorts l).lanes.map Lane.body = g.lanes.map Lane.body :=
  List.foldlRecOn l _ (motive := fun k : Gang => k.lanes.map Lane.body = g.lanes.map Lane.body) rfl
    (fun _ h _ _ => (List.map_map ..).trans h)

/-- Lanes rewritten one by one keep their bodies where each does. -/
theorem rewritten_bodies (g : Gang) (f : Nat → Lane) (same : ∀ i, (f i).body = (g.lane i).body) :
    ((List.range g.lanes.length).map f).map Lane.body = g.lanes.map Lane.body := by
  refine List.ext_getElem (by simp) fun i h _ => ?_
  have here : i < g.lanes.length := by simpa using h
  simp only [List.getElem_map, List.getElem_range, same, Gang.lane, List.getD_eq_getElem _ _ here]

theorem laneBodies_congr (teams : t.teams = s.teams) : laneBodies t v = laneBodies s v := by
  rw [laneBodies, laneBodies, findGang, findGang, findTeam, findTeam, teams]

theorem laneBodies_afterSlot (place : v.g = v.iss.gang) (half : Bool) (w : WinSlot) :
    laneBodies (afterSlot s v half w) v = laneBodies s v := by
  have passed : laneBodies (v.passed { s with fresh := s.fresh + 1 }) v = laneBodies s v := laneBodies_congr (View.passed_teams _ _)
  unfold afterSlot endIssue
  dsimp only
  split
  · exact (laneBodies_congr rfl).trans passed
  · refine (laneBodies_congr rfl).trans ((laneBodies_modGang place _ (fun _ => bindPorts_bodies _ _)).trans ?_)
    refine (laneBodies_modGang place _ (fun g => rewritten_bodies g _ (fun i => ?_))).trans passed
    split <;> rfl

theorem laneBodies_lane (same : laneBodies t v = laneBodies s v) (found : findGang s v.iss.team v.iss.gang = some x) (i : Nat) :
    (laneOf t v i).body = (laneOf s v i).body := by
  rw [laneBodies, laneBodies, found] at same
  obtain ⟨y, found', lanes⟩ := Option.map_eq_some_iff.1 same
  have lane : ∀ g : Gang, (g.lane i).body = (g.lanes.map Lane.body).getD i Lane.absent.body := fun g => (List.getD_map ..).symm
  rw [laneOf, laneOf, gangOf_eq found', gangOf_eq found, lane, lane, lanes]

-- Ending a slot and changing the active lanes, from any state

theorem At.endWith_lane (h : At s v x) (g : Nat → Lane → Lane) : ∀ i < 32, laneOf (endWith s v g) v i =
    if i ∈ v.active then g i (laneOf (afterSlot s v false WinSlot.none) v i) else laneOf (afterSlot s v false WinSlot.none) v i := by
  intro i hi
  obtain ⟨y, found, count⟩ := (h.slotEnd false WinSlot.none).found
  obtain ⟨z, found', -, lanes, -⟩ := modActive_lanes _ v g h.place found h.nodup
  rw [laneOf, endWith, gangOf_eq found', lanes i (by rw [count, h.gang_eq, h.count]; exact hi), laneOf, gangOf_eq found]

theorem At.ended (h : At s v x) (g : Nat → Lane → Lane) : Ended s (endWith s v g) v g := by
  have e := h.slotEnd false WinSlot.none
  have body := h.body (gangBody_endWith h.place g)
  rw [← h.gang_eq] at body
  obtain ⟨elsewhere, bays⟩ := modActive_rest (afterSlot s v false WinSlot.none) v g h.place
  refine ⟨fun i hi => ⟨_, ?_, e.regs i, e.preds i, e.fst i, e.sys i, e.st i, ?_⟩, fun i hi out => ?_,
    (congrArg Gang.cregs body :), (congrArg Gang.flags body :), (congrArg Gang.chunks body :), (congrArg Gang.sys body :), ?_,
    e.elsewhere.trans elsewhere⟩
  · rw [h.endWith_lane g i (h.active i hi).2, if_pos hi]
  · exact (h.follows false WinSlot.none).imp id (fun all => all i (h.active i hi).1)
  · rw [h.endWith_lane g i hi, if_neg out]
    exact ⟨e.regs i, e.preds i, e.fst i, e.sys i, e.st i⟩
  · have advanced := h.advanced false WinSlot.none
    unfold Advanced at advanced ⊢
    rwa [endWith, bays]

end Sys2Proof.Machine
end

section
/-! O18. Phase tags and register blocks (R78, R80, R100 to R102). -/

namespace Sys2Proof.Machine

variable {s t p : State} {c : Common} {v : View} {x : Gang} {f : Front} {own : View → Option FaultInfo}

theorem Kept.trans (h : Kept p s v) (k : Kept s t v) : Kept p t v :=
  ⟨fun i hi => (k.regs i hi).trans (h.regs i hi), fun i hi => (k.preds i hi).trans (h.preds i hi),
   fun i hi => (k.fst i hi).trans (h.fst i hi), ⟨k.sys.1.trans h.sys.1, fun i hi => (k.sys.2 i hi).trans (h.sys.2 i hi)⟩,
   k.cregs.trans h.cregs, h.elsewhere.trans k.elsewhere⟩

/-- The gang in issue is changed, and neither its lanes nor its registers. -/
theorem At.kept_modGang (h : At s v x) (k : Gang → Gang) (lanes : (k x).lanes = x.lanes) (cregs : (k x).cregs = x.cregs)
    (sys : (k x).sys = x.sys) : Kept s (Machine.modGang s v.iss.team v.g k) v := by
  have after := h.modGang k (congrArg _ lanes)
  have lane : ∀ i, laneOf (Machine.modGang s v.iss.team v.g k) v i = laneOf s v i := fun i => by
    rw [after.laneOf_eq, h.laneOf_eq, Gang.lane, Gang.lane, lanes]
  refine ⟨fun i _ => by rw [lane], fun i _ => by rw [lane], fun i _ => by rw [lane], ⟨?_, fun i _ => by rw [lane]⟩, ?_,
    modGang_elsewhere h.place k⟩
  · rw [after.gang_eq, h.gang_eq, sys]
  · rw [after.gang_eq, h.gang_eq, cregs]

-- Phase tags (R100)

/-- The tags that are kept tell what any later cycle reads. -/
theorem find_kept {t u : Nat} (later : t ≤ u) (l : List (BitVec 8 × Nat)) :
    (Phase.kept t l).find? (fun x => decide (x.2 ≤ u)) = l.find? (fun x => decide (x.2 ≤ u)) := by
  induction l with
  | nil => rfl
  | cons a r ih =>
    by_cases seen : a.2 ≤ u
    · simp [Phase.kept, seen]
    · have old : ¬ a.2 ≤ t := fun h => seen (h.trans later)
      simp [Phase.kept, seen, old, ih]

/-- A new tag shows two cycles later, and until then what stood before (R100). -/
theorem shown_give (ph : Phase) (tag : BitVec 8) {t u : Nat} (later : t ≤ u) :
    (ph.give tag t).shown u = if t + 2 ≤ u then tag else ph.shown u := by
  unfold Phase.shown Phase.give
  dsimp only
  rw [find_kept later]
  by_cases old : ph.from_ ≤ u <;> simp [old]

-- Register blocks (R78)

theorem tget_filter {α : Type} (d : α) (keep : Nat → Bool) (m : List (Nat × α)) (k : Nat) :
    tget d (m.filter (fun e => keep e.1)) k = if keep k then tget d m k else d := by
  induction m with
  | nil => simp [tget]
  | cons e r ih =>
    obtain ⟨j, y⟩ := e
    by_cases here : j = k
    · subst here
      by_cases kept : keep j <;> simp [kept, tget, ih]
    · by_cases kept : keep j <;> simp [kept, tget, ih, here]

theorem clearRegs_reg (l : Lane) (lo hi n : Nat) : (l.clearRegs lo hi).reg n = if lo ≤ n ∧ n < hi then 0 else l.reg n := by
  refine (tget_filter 0 (fun k => decide (k < lo) || decide (hi ≤ k)) l.regs n).trans ?_
  by_cases inside : lo ≤ n ∧ n < hi
  · rw [if_pos inside, if_neg (by simpa using inside)]
  · rw [if_neg inside, if_pos (by rw [Bool.or_eq_true, decide_eq_true_eq, decide_eq_true_eq]; omega)]
    rfl

theorem setChunks_lane (g : Gang) (n i : Nat) :
    ((g.setChunks n).lane i).preds = (g.lane i).preds ∧ ∀ r, ((g.setChunks n).lane i).reg r =
      if 64 * (1 + min n g.chunks) ≤ r ∧ r < 64 * (1 + max n g.chunks) then 0 else (g.lane i).reg r := by
  by_cases here : i < g.lanes.length
  · have lane : (g.setChunks n).lane i = (g.lane i).clearRegs (64 * (1 + min n g.chunks)) (64 * (1 + max n g.chunks)) :=
      lane_mapAll g _ i here
    rw [lane]
    exact ⟨rfl, clearRegs_reg _ _ _⟩
  · rw [lane_out _ _ (by simpa [Gang.setChunks] using here), lane_out _ _ here]
    exact ⟨rfl, fun r => (ite_self _).symm⟩

theorem At.setChunks (h : At s v x) (n : Nat) :
    At (Machine.modGang s v.iss.team v.g (fun g => g.setChunks n)) v (x.setChunks n) :=
  h.modGang _ (List.length_map _)

/-- A gang that changes its blocks and ends its slot: the blocks, its predicates, and the registers of the others. -/
theorem At.chunked (h : At s v x) (n : Nat) :
    let t := afterSlot (Machine.modGang s v.iss.team v.g (fun g => g.setChunks n)) v false WinSlot.none
    Advanced t v ∧ Follows t v ∧ Elsewhere s t v ∧ (gangOf t v).chunks = n ∧
      ∀ i < 32, (laneOf t v i).preds = (laneOf s v i).preds ∧ ∀ r, (laneOf t v i).reg r =
        if 64 * (1 + min n x.chunks) ≤ r ∧ r < 64 * (1 + max n x.chunks) then 0 else (laneOf s v i).reg r := by
  intro t
  have at_ := h.setChunks n
  have e := at_.slotEnd false WinSlot.none
  refine ⟨at_.advanced _ _, at_.follows _ _, (modGang_elsewhere h.place _).trans e.elsewhere, ?_, fun i _ => ⟨?_, fun r => ?_⟩⟩
  · rw [e.chunks, at_.gang_eq]; rfl
  · rw [e.preds, at_.laneOf_eq, h.laneOf_eq, (setChunks_lane x n i).1]
  · rw [Lane.reg, e.regs, at_.laneOf_eq, h.laneOf_eq]
    exact (setChunks_lane x n i).2 r

/-- With no lane active, to end with the lanes changed is to end the slot. -/
theorem endWith_idle (idle : v.active = []) (g : Nat → Lane → Lane) : endWith s v g = afterSlot s v false WinSlot.none := by
  rw [endWith, modActive, idle]
  rfl

theorem At.ends (h : At s v x) : let t := afterSlot s v false WinSlot.none
    Kept s t v ∧ Advanced t v ∧ Follows t v ∧ (gangOf t v).chunks = x.chunks :=
  ⟨(h.slotEnd _ _).kept, h.advanced _ _, h.follows _ _, (h.slotEnd _ _).chunks.trans (congrArg Gang.chunks h.gang_eq)⟩

/-- What SPHASE makes of the tags of a gang: each quad with an active lane gives its new tag. -/
def phased (v : View) (fresh : Nat) (a : Name) (g : Gang) : Gang :=
  { g with phase := (List.range g.phase.length).map (fun q =>
      match v.active.find? (fun i => i / 4 == q) with
      | some i => (g.phase.getD q Phase.zero).give ((v.src1 fresh i a).setWidth 8) v.t
      | none => g.phase.getD q Phase.zero) }

theorem phased_shown {fresh : Nat} {a : Name} {g : Gang} {q u : Nat} (quad : q < g.phase.length) (later : v.t ≤ u) :
    ((phased v fresh a g).phase.getD q Phase.zero).shown u = match v.active.find? (fun i => i / 4 == q) with
      | some i => if v.t + 2 ≤ u then (v.src1 fresh i a).setWidth 8 else (g.phase.getD q Phase.zero).shown u
      | none => (g.phase.getD q Phase.zero).shown u := by
  have tag : (phased v fresh a g).phase.getD q Phase.zero = match v.active.find? (fun i => i / 4 == q) with
      | some i => (g.phase.getD q Phase.zero).give ((v.src1 fresh i a).setWidth 8) v.t
      | none => g.phase.getD q Phase.zero := by
    rw [phased, List.getD_eq_getElem?_getD, List.getElem?_map, List.getElem?_range quad]
    rfl
  rw [tag]
  cases v.active.find? (fun i => i / 4 == q) with
  | none => rfl
  | some i => exact shown_give _ _ later

/-- ACQXT: the grant, and its predicate in the active lanes (R102). -/
theorem acqxt_lanes (h : At s v x) (granted : Bool) (n pd : Nat) (answer : Bool) (low : pd < 96) (more : granted = true → x.chunks < n) :
    let s1 := if granted then modGang s v.iss.team v.g (fun g => g.setChunks n) else s
    let s2 := endWith s1 v (fun _ l => l.setPred pd answer)
    let t := if v.active.isEmpty then s2 else modGang s2 v.iss.team v.g (fun g => g.setReady (inLanes [keyP pd] v.active) (v.t + 2))
    Advanced t v ∧ Elsewhere s t v ∧ (gangOf t v).chunks = (if granted then n else x.chunks) ∧
      (∀ i ∈ v.active, (laneOf t v i).pred pd = answer) ∧
      (∀ i < 32, ∀ m < 96, m ≠ pd → (laneOf t v i).pred m = (laneOf s v i).pred m) ∧
      ∀ i < 32, ∀ r < 64 * (1 + x.chunks), (laneOf t v i).reg r = (laneOf s v i).reg r := by
  intro s1 s2 t
  obtain ⟨y, at_, elsewhere, chunks, lanes⟩ : ∃ y, At s1 v y ∧ Elsewhere s s1 v ∧ y.chunks = (if granted then n else x.chunks) ∧
      ∀ i, (y.lane i).preds = (x.lane i).preds ∧ ∀ r < 64 * (1 + x.chunks), (y.lane i).reg r = (x.lane i).reg r := by
    cases granted with
    | false => exact ⟨x, h, ⟨rfl, fun _ _ => rfl, fun _ _ => rfl, rfl, rfl, rfl, rfl⟩, rfl, fun i => ⟨rfl, fun r _ => rfl⟩⟩
    | true =>
      refine ⟨_, h.setChunks n, modGang_elsewhere h.place _, rfl, fun i => ⟨(setChunks_lane x n i).1, fun r low => ?_⟩⟩
      rw [(setChunks_lane x n i).2, if_neg (by have := more rfl; omega)]
  have ended : Ended s1 t v (fun _ l => l.setPred pd answer) := by
    show Ended s1 (if v.active.isEmpty then s2 else _) v _
    split
    · exact at_.ended _
    · exact ended_modGang (at_.ended _) h.place _ (fun _ => rfl) (fun _ => rfl) (fun _ => rfl) (fun _ => rfl) (fun _ => rfl)
  have lane : ∀ i < 32, ∃ l, laneOf t v i = (if i ∈ v.active then l.setPred pd answer else l) ∧
      l.preds = (x.lane i).preds ∧ ∀ r < 64 * (1 + x.chunks), l.reg r = (x.lane i).reg r := by
    intro i hi
    by_cases active : i ∈ v.active
    · obtain ⟨l, eq, regs, preds, -⟩ := ended.active i active
      rw [at_.laneOf_eq] at regs preds
      exact ⟨l, by rw [eq, if_pos active], preds.trans (lanes i).1, fun r low => by rw [Lane.reg, regs]; exact (lanes i).2 r low⟩
    · obtain ⟨regs, preds, -⟩ := ended.others i hi active
      rw [at_.laneOf_eq] at regs preds
      exact ⟨_, (if_neg active).symm, preds.trans (lanes i).1, fun r low => by rw [Lane.reg, regs]; exact (lanes i).2 r low⟩
  refine ⟨ended.advanced, elsewhere.trans ended.elsewhere, ?_, fun i hi => ?_, fun i hi m hm other => ?_, fun i hi r low => ?_⟩
  · rw [ended.chunks, at_.gang_eq, chunks]
  · obtain ⟨l, eq, -⟩ := lane i (h.active i hi).2
    rw [eq, if_pos hi, setPred_pred _ _ _ _ low, if_pos rfl]
  · obtain ⟨l, eq, preds, -⟩ := lane i hi
    have same : l.pred m = (laneOf s v i).pred m := by rw [h.laneOf_eq, Lane.pred, Lane.pred, preds]
    rw [eq, ← same]
    split
    · rw [setPred_pred _ _ _ _ hm, if_neg (Ne.symm other)]
    · rfl
  · obtain ⟨l, eq, -, regs⟩ := lane i hi
    rw [eq, h.laneOf_eq, ← regs r low]
    split <;> rfl

/-- Settles O18: phase tags by `phased_shown`, blocks by what `setChunks` clears. -/
theorem phasesAndChunks : Obligations.PhasesAndChunks := by
  unfold Obligations.PhasesAndChunks
  intro s c v
  refine ⟨?sphase, ?held, ?granted, ?waits, ?released, ?kept, ?acqxt⟩
  case sphase =>
    intro a h quads
    have at_ := h.at_
    have after := at_.modGang (phased v s.fresh a) rfl
    have e := after.slotEnd false WinSlot.none
    refine ⟨_, issueChecks_pass h _, (at_.kept_modGang (phased v s.fresh a) rfl rfl rfl).trans e.kept, after.advanced _ _,
      after.follows _ _, fun q hq u later => ?_⟩
    have body := after.body (gangBody_afterSlot at_.place false WinSlot.none)
    have phase : (gangOf (afterSlot (modGang s v.iss.team v.g (phased v s.fresh a)) v false WinSlot.none) v).phase =
        (phased v s.fresh a v.gang).phase := (congrArg Gang.phase body :)
    exact (congrArg (fun p : List Phase => (p.getD q Phase.zero).shown u) phase).trans (phased_shown (quads ▸ hq) later)
  case held =>
    intro n h satisfied
    refine ⟨_, (issueChecks_pass h _).trans (if_pos ?_), h.at_.ends⟩
    exact satisfied.symm.imp (fun idle => by rw [idle]; rfl) id
  case granted =>
    intro n h more active fit
    obtain ⟨advanced, follows, elsewhere, chunks, lanes⟩ := h.at_.chunked n
    rw [min_eq_right more.le, max_eq_left more.le] at lanes
    refine ⟨_, (issueChecks_pass h _).trans ((if_neg ?_).trans (if_pos fit)), advanced, follows, elsewhere, chunks, lanes⟩
    rintro (idle | enough)
    · exact active (List.isEmpty_iff.1 idle)
    · exact absurd enough (Nat.not_le.2 more)
  case waits =>
    intro n more unfit
    refine endsWith_of (change := fun _ l => { l with st := .blocked (.acqx n) }.yldPoint v.team.stopping v.team.killPending) _ rfl (fun _ => ?_)
      (funext₂ fun _ l => yldPoint_blocked v.team (.acqx n) l)
    by_cases idle : v.active = []
    · rw [if_pos (.inl (List.isEmpty_iff.2 idle)), endWith_idle idle]
    · rw [if_neg (not_or.2 ⟨fun e => idle (List.isEmpty_iff.1 e), Nat.not_le.2 more⟩), unfit]
      rfl
  case released =>
    intro n h fewer active
    obtain ⟨advanced, follows, elsewhere, chunks, lanes⟩ := h.at_.chunked n
    rw [min_eq_left fewer.le, max_eq_right fewer.le] at lanes
    have acts : ¬ (v.active.isEmpty = true ∨ v.gang.chunks ≤ n) :=
      not_or.2 ⟨fun e => active (List.isEmpty_iff.1 e), Nat.not_le.2 fewer⟩
    refine ⟨_, (issueChecks_pass h _).trans (by rw [if_neg acts]), advanced, follows, elsewhere, chunks, fun i hi => ⟨(lanes i hi).1, fun r low => ?_⟩⟩
    rw [(lanes i hi).2, if_neg (fun inside => absurd low (Nat.not_lt.2 inside.1))]
  case kept =>
    intro n h enough
    exact ⟨_, (issueChecks_pass h _).trans (by rw [if_pos (.inr enough)]), h.at_.ends⟩
  case acqxt =>
    intro n pd low h
    obtain ⟨advanced, elsewhere, chunks, answer, preds, regs⟩ := acqxt_lanes h.at_ (!decide (n ≤ v.gang.chunks) && chunksFit s v.core v.bay v.iss.team v.g n) n pd
      (decide (n ≤ v.gang.chunks) || (!decide (n ≤ v.gang.chunks) && chunksFit s v.core v.bay v.iss.team v.g n)) low
      (fun granted => by simp at granted; exact granted.1)
    refine ⟨_, issueChecks_pass h _, advanced, elsewhere, chunks.trans ?_, fun i hi => (answer i hi).trans ?_, preds, regs⟩
    · simp only [Bool.and_eq_true, Bool.not_eq_true', decide_eq_false_iff_not, Nat.not_le]
    · cases decide (n ≤ v.gang.chunks) <;> rfl

end Sys2Proof.Machine
end

section
/-! O19, and what an acquire leaves of a gang. Waits on timelines and memory (R103, R104, R189). -/

namespace Sys2Proof.Machine

variable {s t r : State} {c : Common} {v : View} {x : Gang} {f : Front} {own : View → Option FaultInfo}

/-- What acquires leave of a gang: its lanes but for what they prefetched and what their fetches see, its operations and flags; every
bay, and memory. -/
structure Acquired (s t : State) (u g : Nat) : Prop where
  gang : ∀ x, findGang s u g = some x → ∃ y, findGang t u g = some y ∧ y.lanes.length = x.lanes.length ∧ y.ops = x.ops ∧
    y.flags = x.flags ∧ ∀ i, ∃ pre code, y.lane i = { x.lane i with pre := pre, code := code }
  bays : ∀ core bay, bayOf t core bay = bayOf s core bay
  mem : t.mem = s.mem

theorem Acquired.refl (s : State) (u g : Nat) : Acquired s s u g :=
  ⟨fun x h => ⟨x, h, rfl, rfl, rfl, fun _ => ⟨_, _, rfl⟩⟩, fun _ _ => rfl, rfl⟩

theorem Acquired.trans {u g : Nat} (h : Acquired s t u g) (k : Acquired t r u g) : Acquired s r u g := by
  refine ⟨fun x found => ?_, fun a b => (k.bays a b).trans (h.bays a b), k.mem.trans h.mem⟩
  obtain ⟨y, found, count, ops, flags, lanes⟩ := h.gang x found
  obtain ⟨z, found, count', ops', flags', lanes'⟩ := k.gang y found
  refine ⟨z, found, count'.trans count, ops'.trans ops, flags'.trans flags, fun i => ?_⟩
  obtain ⟨_, _, e⟩ := lanes i
  obtain ⟨pre, code, e'⟩ := lanes' i
  exact ⟨pre, code, e'.trans (by rw [e])⟩

theorem acquireCore_acquired (s : State) (core : Nat) (sc : Scope) (u g : Nat) : Acquired s (acquireCore s core sc) u g := by
  refine ⟨fun x found => ?_, fun a b => ?_, acquireCore_mem s core sc⟩
  · obtain ⟨y, found, count, ops, flags, lanes⟩ := acquireCore_gang s core sc u g found
    refine ⟨y, found, count, ops, flags, fun i => ?_⟩
    obtain ⟨pre, e⟩ := lanes i
    exact ⟨pre, _, e⟩
  · exact (bayOf_congr (acquireCore_cores s core sc) a b).trans (bayOf_modCore_mem s core (fun m => m.acquire (coreDie core) sc) a b)

theorem lane_modify (g : Gang) (i j : Nat) (k : Lane → Lane) :
    ({ g with lanes := g.lanes.modify i k } : Gang).lane j = if j = i ∧ i < g.lanes.length then k (g.lane i) else g.lane j := by
  by_cases same : j = i
  · subst same
    by_cases within : j < g.lanes.length
    · rw [if_pos ⟨rfl, within⟩]
      simp [Gang.lane, within]
    · rw [if_neg (fun both => within both.2), lane_out _ _ (by simpa using within), lane_out g j within]
  · rw [if_neg (fun both => same both.1)]
    simp [Gang.lane, Ne.symm same]

/-- A change of one lane's view of code. -/
theorem modLane_acquired (s : State) (u g i era d : Nat) (sc : Scope) (k n : Nat) :
    Acquired s (modLane s u g i (Lane.acquireCode era d sc)) k n := by
  refine ⟨fun x found => ?_, fun _ _ => rfl, rfl⟩
  by_cases here : k = u ∧ n = g
  · obtain ⟨rfl, rfl⟩ := here
    refine ⟨{ x with lanes := x.lanes.modify i (Lane.acquireCode era d sc) }, by rw [modLane, findGang_modGang, found, Option.map_some], List.length_modify .., rfl, rfl, fun j => ?_⟩
    rw [lane_modify]
    split
    · rename_i same
      rw [same.1]
      exact ⟨_, _, rfl⟩
    · exact ⟨_, _, rfl⟩
  · exact ⟨x, by rwa [modLane, findGang_modGang_ne _ _ (by tauto)], rfl, rfl, rfl, fun _ => ⟨_, _, rfl⟩⟩

theorem Acquired.same {u g : Nat} (h : Acquired s t u g) (teams : r.teams = t.teams) (cores : r.cores = t.cores) (mem : r.mem = t.mem) :
    Acquired s r u g := by
  refine ⟨fun x found => ?_, fun a b => (bayOf_congr cores a b).trans (h.bays a b), mem.trans h.mem⟩
  obtain ⟨y, found, rest⟩ := h.gang x found
  exact ⟨y, by rw [← found, findGang, findGang, findTeam, findTeam, teams], rest⟩

theorem acquireAt_acquired (s : State) (core uid g i : Nat) (sc : Scope) (u k : Nat) : Acquired s (acquireAt s core uid g i sc) u k := by
  refine ((acquireCore_acquired s core sc u k).trans ?_)
  have lane := modLane_acquired { acquireCore s core sc with era := (acquireCore s core sc).era + 1 } uid g i
    ((acquireCore s core sc).era + 1) (coreDie core) sc u k
  exact Acquired.same (s := acquireCore s core sc) ⟨fun x found => lane.gang x found, fun a b => lane.bays a b, lane.mem⟩ rfl rfl rfl

theorem acquireCtx_acquired (s : State) (core uid g i e : Nat) (val : DWord) (u k : Nat) :
    Acquired s (acquireCtx s core uid g i e val) u k := by
  unfold acquireCtx
  split
  · exact .refl s u k
  · exact List.foldlRecOn _ _ (motive := fun t => Acquired s t u k) (.refl s u k)
      (fun t h sc _ => h.trans (acquireAt_acquired t core uid g i sc u k))

-- TLWAIT and TLTRY

/-- The lanes of the gang in issue, once it has ended a slot with them changed and then acquired. -/
theorem At.acquired_lane (h : At s v x) (g : Nat → Lane → Lane) (acq : Acquired (endWith s v g) t v.iss.team v.iss.gang) :
    Advanced t v ∧ (gangOf t v).flags = x.flags ∧ ∀ i < 32, ∃ l pre code, l.body = (x.lane i).body ∧
      laneOf t v i = { (if i ∈ v.active then g i l else l) with pre := pre, code := code } := by
  have ended := h.ended g
  obtain ⟨y, found, -⟩ := (h.slotEnd false WinSlot.none).found
  obtain ⟨z, found', -⟩ := modActive_lanes _ v g h.place found h.nodup
  obtain ⟨w, found'', -, -, flags, lanes⟩ := acq.gang z found'
  refine ⟨?_, ?_, fun i hi => ?_⟩
  · have advanced := ended.advanced
    unfold Advanced at advanced ⊢
    rwa [acq.bays]
  · rw [gangOf_eq found'', flags, ← gangOf_eq found', ← h.gang_eq]
    exact ended.flags
  · obtain ⟨pre, code, e⟩ := lanes i
    refine ⟨laneOf (afterSlot s v false WinSlot.none) v i, pre, code, ?_, ?_⟩
    · rw [laneBodies_lane (laneBodies_afterSlot h.place _ _) h.gang, h.laneOf_eq]
    · rw [laneOf, gangOf_eq found'', e, ← h.endWith_lane g i hi, laneOf, endWith, gangOf_eq found']

/-- A lane that begins to wait on a timeline or on memory: it keeps the word that waits, and has read nothing yet. -/
def tlWaits (v : View) (w : Wait) (l : Lane) : Lane := { waiting v.team w l with seen := none, waitInsn := v.word }

theorem tlWaits_eq (v : View) (w : Wait) (l : Lane) :
    { l with st := .blocked w, seen := none, waitInsn := v.word }.yldPoint v.team.stopping v.team.killPending = tlWaits v w l :=
  yldPoint_blocked v.team w { l with seen := none, waitInsn := v.word }

/-- Does a lane of the team form go on at once (R103, R190)? -/
def tlGoes (s : State) (v : View) (e : Nat) (a : Name) (i : Nat) : Bool :=
  decide ((v.src2 s.fresh i a).toNat ≤ (v.team.ctxOf e).tl.toNat) && (v.gang.lane i).caughtUp

/-- The team form of TLWAIT and TLTRY: each active lane by itself. -/
theorem execTl_team {a : Name} {e : Nat} (pd : Option Nat) (h : Passes s c (names [o2 a] none) (namesOwn [a]) v) :
    ∃ t, execTl c a (.team e) pd s = .next t ∧ Advanced t v ∧ (gangOf t v).flags = (gangOf s v).flags ∧
      ∀ i < 32, ∃ l pre code, l.body = (laneOf s v i).body ∧
        laneOf t v i = { (if i ∈ v.active then
            (if tlGoes s v e a i then (match pd with | some p => l.setPred p true | none => l)
              else tlWaits v (waitOf (.team e) (v.src2 s.fresh i a) 0 (pd.map (fun p => (p, v.t + 2048)))) l)
          else l) with pre := pre, code := code } := by
  have at_ := h.at_
  refine ⟨_, issueChecks_pass h _, ?_⟩
  dsimp only
  generalize List.filter _ s.held ++ _ = held
  have same : At { s with held := held } v v.gang := at_.same rfl rfl
  rw [at_.gang_eq]
  simp only [at_.laneOf_eq, ← tlWaits_eq]
  exact same.acquired_lane _ (List.foldlRecOn _ _ (motive := fun t => Acquired _ t v.iss.team v.iss.gang) (.refl _ _ _)
    (fun t acq i _ => acq.trans (acquireCtx_acquired t _ _ _ _ _ _ _ _)))

/-- Since when a word stands as it does is no part of what an ending leaves. -/
theorem ended_held {a : List (Nat × Nat × Nat)} {g : Nat → Lane → Lane} (h : Ended { s with held := a } t v g) (b : List (Nat × Nat × Nat)) :
    Ended s { t with held := b } v g :=
  ⟨h.active, h.others, h.cregs, h.flags, h.chunks, h.sys, h.advanced, h.elsewhere.mem, h.elsewhere.teams, h.elsewhere.gangs,
   h.elsewhere.launches, h.elsewhere.chains, h.elsewhere.dies, h.elsewhere.mgmt⟩

/-- The memory form of TLWAIT and TLTRY: every active lane waits. -/
theorem execTl_mem {a b : Name} {sc : Scope} (pd : Option Nat) (h : Passes s c (names [o2 a, o2 b] none) (namesOwn [a, b]) v)
    (good : Reaches s v.active (fun i => (v.src2 s.fresh i b).toNat) 8 .all) :
    ∃ t, execTl c a (.mem sc b) pd s = .next t ∧ Ended s t v (fun i l =>
      tlWaits v (waitOf (.mem sc b) (v.src2 s.fresh i a) (v.src2 s.fresh i b) (pd.map (fun p => (p, v.t + 2048)))) l) := by
  have no_fault : waitFault s (.mem sc b) v = none := addrFaults_none good
  refine ⟨_, (issueChecks_pass h _).trans (by rw [no_fault]), ?_⟩
  dsimp only
  generalize List.filter _ s.held ++ _ = held
  have same : At { s with held := held } v v.gang := h.at_.same rfl rfl
  simp only [← tlWaits_eq]
  exact ended_held (same.ended _) _

theorem tlGoes_iff {a : Name} {e i : Nat} : tlGoes s v e a i = true ↔
    (v.src2 s.fresh i a).toNat ≤ (v.team.ctxOf e).tl.toNat ∧ (v.gang.lane i).queue = [] := by
  simp [tlGoes, Lane.caughtUp]

/-- What of a lane tells whether it waits, and for which word. -/
def Lane.waitState (l : Lane) : LaneSt × Option DWord × Bool × DWord := (l.st, l.seen, l.handler, l.waitInsn)

theorem waitState_eq {l m : Lane} (h : l.waitState = m.waitState) :
    l.st = m.st ∧ l.seen = m.seen ∧ l.handler = m.handler ∧ l.waitInsn = m.waitInsn := by
  simpa [Lane.waitState, Prod.ext_iff] using h

theorem waitState_body {l m : Lane} (body : l.body = m.body) : l.waitState = m.waitState := (congrArg Lane.waitState body :)

theorem tlWaits_body {l m : Lane} (w : Wait) (body : l.body = m.body) : (tlWaits v w l).waitState = (tlWaits v w m).waitState := by
  have handler : l.handler = m.handler := (congrArg Lane.handler body :)
  simp only [Lane.waitState, tlWaits, waiting, handler]

/-- Settles O19: the team forms lane by lane, the memory forms by their wait. -/
theorem timelineWaits : Obligations.TimelineWaits := by
  unfold Obligations.TimelineWaits
  intro s c v goes waits
  have goes_iff : ∀ {e a i}, i ∈ v.active → (tlGoes s v e a i = true ↔ goes e a i) := fun active =>
    tlGoes_iff.trans ⟨fun both => ⟨active, both⟩, fun all => all.2⟩
  refine ⟨?wait, ?waitMem, ?tries, ?tryMem⟩
  case waitMem => exact fun a b sc good h => execTl_mem none h good
  case tryMem => exact fun a b sc pd good h => execTl_mem (some pd) h good
  case wait =>
    intro a e h
    obtain ⟨t, next, advanced, flags, lanes⟩ := execTl_team none h
    refine ⟨t, next, advanced, flags, fun i hi => ?_⟩
    obtain ⟨l, pre, code, body, eq⟩ := lanes i hi
    have regs : l.regs = (laneOf s v i).regs := (congrArg Lane.regs body :)
    have preds : l.preds = (laneOf s v i).preds := (congrArg Lane.preds body :)
    by_cases act : i ∈ v.active ∧ ¬ goes e a i
    · rw [if_pos act.1, if_neg ((goes_iff act.1).not.2 act.2)] at eq
      rw [eq, if_pos act]
      exact ⟨regs, preds, waitState_eq (tlWaits_body _ body)⟩
    · have stays : laneOf t v i = { l with pre := pre, code := code } := by
        by_cases active : i ∈ v.active
        · rw [eq, if_pos active, if_pos ((goes_iff active).2 (not_not.1 (fun no => act ⟨active, no⟩)))]
        · rw [eq, if_neg active]
      rw [stays, if_neg act]
      exact ⟨regs, preds, (waitState_eq (waitState_body body) :)⟩
  case tries =>
    intro a e pd low h
    obtain ⟨t, next, advanced, flags, lanes⟩ := execTl_team (some pd) h
    refine ⟨t, next, advanced, flags, fun i hi => ?_⟩
    obtain ⟨l, pre, code, body, eq⟩ := lanes i hi
    have regs : l.regs = (laneOf s v i).regs := (congrArg Lane.regs body :)
    have pred : ∀ n, l.pred n = (laneOf s v i).pred n := fun n => by
      rw [Lane.pred, Lane.pred, show l.preds = (laneOf s v i).preds from (congrArg Lane.preds body :)]
    by_cases go : goes e a i
    · rw [if_pos go.1, if_pos ((goes_iff go.1).2 go)] at eq
      rw [eq, if_neg (fun act => act.2 go)]
      refine ⟨regs, fun n hn => ?_, (waitState_eq (waitState_body body) :)⟩
      show (l.setPred pd true).pred n = _
      rw [setPred_pred l pd n true hn, pred]
      simp only [go, and_true, eq_comm]
    · have same : ∀ m : Lane, (∀ n, m.pred n = l.pred n) → ∀ n < 96, m.pred n =
          if n = pd ∧ goes e a i then true else (laneOf s v i).pred n := fun m hm n _ => by
        rw [hm, pred, if_neg (fun both => go both.2)]
      by_cases active : i ∈ v.active
      · rw [if_pos active, if_neg ((goes_iff active).not.2 go)] at eq
        rw [eq, if_pos ⟨active, go⟩]
        exact ⟨regs, same _ (fun _ => rfl), waitState_eq (tlWaits_body _ body)⟩
      · rw [if_neg active] at eq
        rw [eq, if_neg (fun act => active act.1)]
        exact ⟨regs, same _ (fun _ => rfl), (waitState_eq (waitState_body body) :)⟩

end Sys2Proof.Machine
end

section
/-! O20 to O22. Memory instructions place their operations (R64, R187, R202 to R210, R229 to R235). -/

namespace Sys2Proof.Machine

variable {s : State} {c : Common} {v : View} {i : Instr}

/-- A memory instruction queues its operation in the lanes that act. -/
theorem queues_mem {f : Front} {own : View → Option FaultInfo} {helpers early : Bool} {addr : View → Nat → Nat} {align acc : Nat}
    {bad : View → Nat → Option Cause} {ops : View → Nat → List MemKind} {lanes : List Nat} {good : Prop} {ks : Nat → List MemKind}
    (runs : exec i s = execMem c ⟨f, own, helpers, early, addr, align, bad, acc, ops⟩ s)
    (acts : v.actors { f with allowQ := false } helpers = lanes)
    (ok : good → ∀ j ∈ lanes, addr v j % align = 0 ∧ bad v (addr v j) = none) (same : ops v = ks) :
    Queues s c v i f own lanes good ks := fun h hg => by
  subst acts same
  obtain ⟨t, next, queued⟩ := execMem_queued (m := ⟨f, own, helpers, early, addr, align, bad, acc, ops⟩) h (ok hg)
  exact ⟨t, runs.trans next, queued⟩

/-- No access to per-lane memory faults that is aligned and within it (R185, R201). -/
theorem laneFaults_none {lanes : List Nat} {off : Nat → Int} {n acc : Nat}
    (good : ∀ j ∈ lanes, off j % n = 0 ∧ 0 ≤ off j ∧ off j + n ≤ v.team.ps) : laneFaults v lanes off n acc = none := by
  have aligned : ∀ k : Nat → Option FaultInfo, lanes.findSome? (fun j => if off j % n ≠ 0 then k j else none) = none := fun k =>
    List.findSome?_eq_none_iff.2 fun j hj => if_neg (not_not.2 (good j hj).1)
  have inside : ∀ k : Nat → Option FaultInfo, lanes.findSome? (fun j => if off j < 0 ∨ (v.team.ps : Int) < off j + n then k j else none) = none :=
    fun k => List.findSome?_eq_none_iff.2 fun j hj => if_neg (by have := (good j hj).2; omega)
  simp only [laneFaults, aligned, inside, accessFault, Option.orElse_none, Option.map_none]

/-- A queued operation, past the checks of an instruction. -/
theorem queues_op {f : Front} {own : View → Option FaultInfo} {k : View → Out} {lanes also : List Nat} {good : Prop}
    {ks : Nat → List MemKind} (runs : exec i s = issueChecks s c { f with allowQ := false } own k)
    (queue : good → k v = .next (afterSlot (queueOp s v c.setf lanes also ks) v false WinSlot.none))
    (acts : v.active.Nodup → lanes.Nodup) : Queues s c v i f own lanes good ks := fun h hg =>
  ⟨_, (runs.trans (issueChecks_pass h _)).trans (queue hg),
   queueOp_queued h.view h.stands lanes also ks (acts (active_facts h.view h.stands).1)⟩

/-- Settles O20: per-lane memory by its own checks, the rest as memory instructions. -/
theorem accessesQueue : Obligations.AccessesQueue := by
  unfold Obligations.AccessesQueue
  intro s c v
  refine ⟨?ld, ?ldp, ?st, ?stp, ?atom, ?acas, ?xsum⟩
  case ld => exact fun d base off ty a64 => queues_mem rfl rfl id rfl
  case st => exact fun base val off ty a64 => queues_mem rfl rfl id rfl
  case atom => exact fun d base val op w64 o sc a64 => queues_mem rfl rfl id rfl
  case acas => exact fun d base val w64 o sc a64 => queues_mem rfl rfl id rfl
  case xsum => exact fun base val bf16 o sc a64 => queues_mem rfl rfl id rfl
  case ldp =>
    intro d base off ty
    refine queues_op (also := []) rfl (fun good => ?_) (fun nodup => actors_nodup nodup _ _)
    have no_fault : laneFaults v (v.actors { srcs := [o1 base], dst := some { name := d, words := tyWords ty }, allowQ := false } true)
        (fun i => v.laneOff s.fresh i base (off * tyBytes ty)) (tyBytes ty) 0 = none := laneFaults_none good
    dsimp only
    rw [no_fault]
    rfl
  case stp =>
    intro base val off ty
    refine queues_op (also := []) rfl (fun good => ?_) (fun nodup => nodup.filter _)
    have no_fault : laneFaults v (v.actors { srcs := [{ name := val, words := tyWords ty }, o1 base], allowQ := false } false)
        (fun i => v.laneOff s.fresh i base (off * tyBytes ty)) (tyBytes ty) 1 = none := laneFaults_none good
    dsimp only
    rw [no_fault]
    rfl

/-- Settles O21: cells and versioned loads as memory instructions, the ordering instructions in every active lane. -/
theorem cellsAndOrderQueue : Obligations.CellsAndOrderQueue := by
  unfold Obligations.CellsAndOrderQueue
  intro s c v
  refine ⟨?xrd, ?xclr, ?ldv, ?cms, ?fence, ?rel, ?acq⟩
  case xrd => exact fun d base pr clr o sc a64 => queues_mem rfl rfl id rfl
  case xclr => exact fun base sc a64 => queues_mem rfl rfl id rfl
  case ldv => exact fun d base off a64 => queues_mem rfl rfl id rfl
  case cms => exact fun d base pd sc a64 => queues_mem rfl rfl id rfl
  case fence | rel | acq =>
    exact fun sc h => ⟨_, issueChecks_pass h _, queueOp_queued h.view h.stands _ [] _ (active_facts h.view h.stands).1⟩

/-- A list that a `match` on a region takes apart is the one that asks whether there is a region. -/
theorem sldOp_eq (r : Option Region) (a : DWord) (d : Dst) :
    [if r.isSome then MemKind.sld a (match r with | some r => etypeBytes r.t | none => 4) none d else .load a .b32 d] =
      [match r with | some r => .sld a (etypeBytes r.t) none d | none => .load a .b32 d] := by
  cases r <;> rfl

/-- No SLD faults that is aligned to its element's size at an address that is served (R233). -/
theorem sldFaults_none {lanes : List Nat} {addr size : Nat → Nat}
    (good : ∀ j ∈ lanes, addr j % size j = 0 ∧ servedFault s .all (addr j) = none) :
    (addrFaults v (lanes.filter (fun j => addr j % size j ≠ 0)) addr 4 (fun _ => some .align) 0).orElse
      (fun _ => addrFaults v lanes addr 1 (servedFault s .all) 0) = none := by
  have aligned : lanes.filter (fun j => addr j % size j ≠ 0) = [] := List.filter_eq_nil_iff.2 fun j hj => by simp [(good j hj).1]
  rw [aligned, addrFaults_none (lanes := []) (by simp), addrFaults_none (fun j hj => ⟨Nat.mod_one _, (good j hj).2⟩)]
  rfl

/-- Settles O22: the table instructions as memory instructions without an access, SLD by its region. -/
theorem subscriptionsQueue : Obligations.SubscriptionsQueue := by
  unfold Obligations.SubscriptionsQueue
  intro s c v
  refine ⟨?sbsc, ?unsb, ?supg, ?schg, ?sld⟩
  case sbsc => exact fun d base quad f inv ty a64 => queues_mem rfl rfl id rfl
  case unsb => exact fun d base a64 => queues_mem rfl rfl (fun _ _ _ => ⟨Nat.mod_one _, rfl⟩) rfl
  case supg => exact fun d base f a64 => queues_mem rfl rfl (fun _ _ _ => ⟨Nat.mod_one _, rfl⟩) rfl
  case schg => exact fun d base a64 => queues_mem rfl rfl (fun _ _ _ => ⟨Nat.mod_one _, rfl⟩) rfl
  case sld =>
    intro d base off a64
    refine queues_op (also := []) rfl (fun good => ?_) (fun nodup => actors_nodup nodup _ _)
    dsimp only
    split
    · rename_i info fault
      cases fault.symm.trans (sldFaults_none good)
    · exact congrArg (fun ks => Host.Outcome.next (afterSlot (queueOp s v c.setf _ [] ks) v false WinSlot.none))
        (funext fun i => sldOp_eq _ _ _)

end Sys2Proof.Machine
end

section
/-! O23. Stream instructions (R257 to R262), by what the end of a slot makes of ports. -/

namespace Sys2Proof.Machine

variable {s t : State} {c : Common} {v : View} {x : Gang} {y : Issue} {half : Bool} {w : WinSlot}

/-- The clause in the bay after a slot: its next slot, or none. -/
theorem bay_afterSlot (bay : (bayOf s v.core v.bay).issue = some y) : (bayOf (afterSlot s v half w) v.core v.bay).issue =
    if v.iss.slot < v.iss.ni then some { y with slot := y.slot + 1, window := y.window ++ [w] } else none := by
  obtain ⟨core, inside⟩ := bay_exists bay
  unfold afterSlot endIssue
  dsimp only
  split
  · rw [bayOf_modBay (hc := by exact core) (hb := by exact inside)]
    show Option.map _ (bayOf s v.core v.bay).issue = _
    rw [bay]
    rfl
  · rw [bayOf_modBay (hc := by exact core) (hb := by exact inside)]

/-- What Advanced says, where the clause in the bay differs from the one in issue in its ports and bindings alone. -/
theorem advanced_afterSlot (bay : (bayOf s v.core v.bay).issue = some y)
    (same : { y with ports := v.iss.ports, rebind := v.iss.rebind } = v.iss) : Advanced (afterSlot s v half w) v := by
  unfold Advanced
  rw [bay_afterSlot bay]
  have slot : y.slot = v.iss.slot := (congrArg Issue.slot same :)
  split
  · exact ⟨_, rfl, congrArg (· + 1) slot, (congrArg Issue.words same :), (congrArg Issue.group same :), (congrArg Issue.pc same :)⟩
  · rfl

/-- A lane of the issue group at the end of its clause. -/
def endLane (v : View) (l : Lane) : Lane :=
  fillSlots v.iss.ports { l with pc := v.iss.pc + BitVec.ofNat 64 (8 * (2 + v.iss.ni + (v.iss.lits.length / 2))), lastIssue := v.t, resume := 0 }

/-- The gang in issue after a slot: its clause goes on, or has ended and its SBINDs come into force (R257). -/
theorem gang_afterSlot (found : findGang s v.iss.team v.iss.gang = some x) (place : v.g = v.iss.gang)
    (bay : (bayOf s v.core v.bay).issue = some y) : gangOf (afterSlot s v half w) v =
      if v.iss.slot < v.iss.ni then x
      else Gang.bindPorts { x with lanes := (List.range x.lanes.length).map (fun i =>
        if v.iss.group.contains i then endLane v (x.lane i) else x.lane i) } y.rebind := by
  apply gangOf_eq
  unfold afterSlot endIssue
  dsimp only
  split
  · rw [findGang_modBay, findGang_passed]
    exact found
  · have rebind : ((bayOf (v.passed { s with fresh := s.fresh + 1 }) v.core v.bay).issue.map (·.rebind)).getD [] = y.rebind := by
      rw [show bayOf (v.passed { s with fresh := s.fresh + 1 }) v.core v.bay = bayOf s v.core v.bay from rfl, bay]
      rfl
    rw [findGang_modBay, place, findGang_modGang, findGang_modGang, findGang_passed,
      show findGang { s with fresh := s.fresh + 1 } v.iss.team v.iss.gang = some x from found, bayOf_modGang, rebind]
    rfl

/-- The ports that SBINDs leave. -/
theorem bindPorts_ports (g : Gang) (l : List (Nat × DWord × Nat)) : (g.bindPorts l).ports =
    l.foldl (fun ps e => ps.set e.1 { Port.unbound with st := .pending, daddr := e.2.1, seq := e.2.2 }) g.ports := by
  unfold Gang.bindPorts
  induction l generalizing g with
  | nil => rfl
  | cons e l ih => exact ih _

/-- What every lane keeps through the end of a slot, if what the end of a clause does to lanes keeps it. -/
theorem lanes_afterSlot (P : Lane → Prop) (found : findGang s v.iss.team v.iss.gang = some x) (place : v.g = v.iss.gang)
    (bay : (bayOf s v.core v.bay).issue = some y) (ends : ∀ l, P l → P (endLane v l))
    (free : ∀ e ∈ y.rebind, ∀ ps l, P l → P (freeLanePort ps e.1 l)) {i : Nat} (within : i < x.lanes.length) (h : P (x.lane i)) :
    P (laneOf (afterSlot s v half w) v i) := by
  rw [laneOf, gang_afterSlot found place bay]
  split
  · exact h
  · have start : P (({ x with lanes := (List.range x.lanes.length).map (fun i =>
        if v.iss.group.contains i then endLane v (x.lane i) else x.lane i) } : Gang).lane i) := by
      rw [lane_map x _ i within]
      split
      · exact ends _ h
      · exact h
    have count : i < ({ x with lanes := (List.range x.lanes.length).map (fun i =>
        if v.iss.group.contains i then endLane v (x.lane i) else x.lane i) } : Gang).lanes.length := by simpa using within
    generalize ({ x with lanes := _ } : Gang) = g at start count
    refine (List.foldlRecOn y.rebind _ (motive := fun k : Gang => i < k.lanes.length ∧ P (k.lane i)) ⟨count, start⟩
      (fun k hk e he => ⟨by simpa using hk.1, ?_⟩)).2
    have lane := lane_mapAll k (freeLanePort k.ports e.1) i hk.1
    exact (show P (({ k with lanes := k.lanes.map (freeLanePort k.ports e.1) } : Gang).lane i) from lane ▸ free e he _ _ hk.2)

-- SBIND and SFREE

theorem getD_set (ps : List Port) (p q : Nat) (b : Port) (room : p < ps.length) :
    (ps.set p b).getD q Port.unbound = if q = p then b else ps.getD q Port.unbound := by
  by_cases same : q = p
  · subst same
    simp [room]
  · simp [same, Ne.symm same]

/-- SBINDs of other ports leave a port as it is. -/
theorem bind_others (l : List (Nat × DWord × Nat)) (p : Nat) (ps : List Port) (others : ∀ e ∈ l, e.1 ≠ p) :
    (l.foldl (fun ps e => ps.set e.1 { Port.unbound with st := .pending, daddr := e.2.1, seq := e.2.2 }) ps).getD p Port.unbound =
      ps.getD p Port.unbound := by
  induction l generalizing ps with
  | nil => rfl
  | cons e l ih =>
    rw [List.foldl_cons, ih _ (fun e he => others e (List.mem_cons_of_mem _ he))]
    have other : e.1 ≠ p := others e List.mem_cons_self
    simp [other]

theorem length_binds (l : List (Nat × DWord × Nat)) (ps : List Port) :
    (l.foldl (fun ps e => ps.set e.1 { Port.unbound with st := .pending, daddr := e.2.1, seq := e.2.2 }) ps).length = ps.length :=
  List.foldlRecOn l _ (motive := fun qs : List Port => qs.length = ps.length) rfl (fun _ h _ _ => (List.length_set ..).trans h)

/-- The gang in issue and its clause are changed together. -/
theorem At.modBay (h : At s v x) (k : Bay → Bay) (core : v.core < s.cores.length) (inside : v.bay < (coreOf s v.core).bays.length) :
    findGang (Machine.modBay s v.core v.bay k) v.iss.team v.iss.gang = some x ∧
      bayOf (Machine.modBay s v.core v.bay k) v.core v.bay = k (bayOf s v.core v.bay) :=
  ⟨(findGang_modBay ..).trans h.gang, bayOf_modBay s _ _ k core inside⟩

/-- A change of the gang in issue that leaves its lanes their registers keeps what an instruction has to keep. -/
theorem At.kept_lanes (h : At s v x) {k : Gang} (found : findGang t v.iss.team v.iss.gang = some k)
    (lanes : ∀ i < 32, (k.lane i).regs = (x.lane i).regs ∧ (k.lane i).preds = (x.lane i).preds ∧ (k.lane i).fst = (x.lane i).fst ∧
      (k.lane i).sys = (x.lane i).sys) (cregs : k.cregs = x.cregs) (sys : k.sys = x.sys) (elsewhere : Elsewhere s t v) : Kept s t v := by
  have lane : ∀ i, laneOf t v i = k.lane i := fun i => by rw [laneOf, gangOf_eq found]
  refine ⟨fun i hi => ?_, fun i hi => ?_, fun i hi => ?_, ⟨?_, fun i hi => ?_⟩, ?_, elsewhere⟩
  · rw [lane, h.laneOf_eq]; exact (lanes i hi).1
  · rw [lane, h.laneOf_eq]; exact (lanes i hi).2.1
  · rw [lane, h.laneOf_eq]; exact (lanes i hi).2.2.1
  · rw [gangOf_eq found, h.gang_eq, sys]
  · rw [lane, h.laneOf_eq]; exact (lanes i hi).2.2.2
  · rw [gangOf_eq found, h.gang_eq, cregs]

/-- What an instruction keeps that has changed lanes and ports of its gang and its clause's bindings, and then ends its slot. -/
theorem At.slot_kept (h : At s v x) {k : Gang} (found : findGang t v.iss.team v.iss.gang = some k)
    (lanes : ∀ i < 32, (k.lane i).regs = (x.lane i).regs ∧ (k.lane i).preds = (x.lane i).preds ∧ (k.lane i).fst = (x.lane i).fst ∧
      (k.lane i).sys = (x.lane i).sys) (cregs : k.cregs = x.cregs) (sys : k.sys = x.sys) (elsewhere : Elsewhere s t v) :
    Kept s (afterSlot t v half w) v :=
  (h.kept_lanes found lanes cregs sys elsewhere).trans (afterSlot_end t v half w found h.place).kept

theorem elsewhere_modBay (h : Elsewhere s t v) (core bay : Nat) (k : Bay → Bay) : Elsewhere s (modBay t core bay k) v :=
  ⟨h.mem, fun u hu => (findTeam_modBay ..).trans (h.teams u hu), fun g hg => (findGang_modBay ..).trans (h.gangs g hg), h.launches,
   h.chains, h.dies, h.mgmt⟩

/-- A clause in which an SBIND has issued (R257). -/
def Issue.binding (y : Issue) (p : Nat) (a : DWord) (n : Nat) : Issue :=
  { y with rebind := y.rebind.filter (fun e => e.1 != p) ++ [(p, a, n)] }

/-- The gang of an SBIND, and its clause, before its slot ends: BIND stands in the queue of a lane. -/
def sbound (s : State) (v : View) (p i : Nat) (a : DWord) : State :=
  modBay (modLane s v.iss.team v.g i (fun l => l.push [LaneOp.plain (.bind p a s.fresh)])) v.core v.bay
    (fun b => { b with issue := b.issue.map (fun y => y.binding p a s.fresh) })

theorem At.sbound (h : At s v x) (p i : Nat) (a : DWord) :
    findGang (sbound s v p i a) v.iss.team v.iss.gang =
        some { x with lanes := x.lanes.modify i (fun l => l.push [LaneOp.plain (.bind p a s.fresh)]) } ∧
      (bayOf (Machine.sbound s v p i a) v.core v.bay).issue = some (v.iss.binding p a s.fresh) ∧
      Elsewhere s (Machine.sbound s v p i a) v := by
  have after := h.modGang (fun g => { g with lanes := g.lanes.modify i (fun l => l.push [LaneOp.plain (.bind p a s.fresh)]) })
    (List.length_modify ..)
  obtain ⟨core, inside⟩ := bay_exists after.bay
  obtain ⟨found, bay⟩ := after.modBay (fun b => { b with issue := b.issue.map (fun y => y.binding p a s.fresh) }) core inside
  refine ⟨found, (congrArg Bay.issue bay).trans ?_, elsewhere_modBay (modGang_elsewhere h.place _) ..⟩
  show Option.map _ (bayOf (Machine.modGang s _ _ _) v.core v.bay).issue = _
  rw [after.bay]
  rfl

/-- A push keeps a lane's registers. -/
theorem push_kept (g : Gang) (i j : Nat) (q : List LaneOp) :
    let k : Gang := { g with lanes := g.lanes.modify i (fun l => l.push q) }
    (k.lane j).regs = (g.lane j).regs ∧ (k.lane j).preds = (g.lane j).preds ∧ (k.lane j).fst = (g.lane j).fst ∧
      (k.lane j).sys = (g.lane j).sys := by
  intro k
  have lane : k.lane j = if j = i ∧ i < g.lanes.length then (g.lane i).push q else g.lane j := lane_modify g i j _
  rw [lane]
  split
  · rename_i same
    rw [same.1]
    exact ⟨rfl, rfl, rfl, rfl⟩
  · exact ⟨rfl, rfl, rfl, rfl⟩

/-- SBIND ends its slot: its BIND is queued, and its port is pending for the clauses after its own. -/
theorem At.sbound_slot (h : At s v x) {p i : Nat} (a : DWord) (within : i < 32) (ports : x.ports.length = 16) (room : p < 16) :
    let t := afterSlot (Machine.sbound s v p i a) v false WinSlot.none
    Kept s t v ∧ Advanced t v ∧ LaneOp.plain (.bind p a s.fresh) ∈ (laneOf t v i).queue ∧
      (if v.iss.slot < v.iss.ni then
         ∃ y, (bayOf t v.core v.bay).issue = some y ∧ y.ports = v.iss.ports ∧ (p, a, s.fresh) ∈ y.rebind
       else (gangOf t v).ports.getD p Port.unbound = { Port.unbound with st := .pending, daddr := a, seq := s.fresh }) := by
  intro t
  obtain ⟨found, bay, elsewhere⟩ := h.sbound p i a
  refine ⟨h.slot_kept found (fun j _ => push_kept x i j _) rfl rfl elsewhere, advanced_afterSlot bay rfl, ?_, ?_⟩
  · refine lanes_afterSlot (fun l => LaneOp.plain (.bind p a s.fresh) ∈ l.queue) found h.place bay
      (fun l hl => List.mem_append_left _ hl) (fun _ _ _ l hl => List.mem_append_left _ hl)
      (by rw [List.length_modify, h.count]; exact within) ?_
    rw [lane_modify, if_pos ⟨rfl, by rw [h.count]; exact within⟩]
    exact List.mem_append_right _ List.mem_cons_self
  · split
    · rename_i more
      exact ⟨_, (bay_afterSlot bay).trans (if_pos more), rfl, List.mem_append_right _ List.mem_cons_self⟩
    · rename_i last
      have gang : gangOf t v = _ := (gang_afterSlot found h.place bay).trans (if_neg last)
      rw [gang, bindPorts_ports, Issue.binding, List.foldl_append, List.foldl_cons, List.foldl_nil, getD_set, if_pos rfl]
      rw [length_binds]
      exact ports ▸ room

-- SFREE

/-- A clause in which an SFREE has issued (R258). -/
def Issue.freeing (y : Issue) (p : Nat) : Issue :=
  { y with ports := y.ports.set p Port.unbound, rebind := y.rebind.filter (fun e => e.1 != p) }

/-- The gang of an SFREE, and its clause, before its slot ends. -/
def sfreed (s : State) (v : View) (p : Nat) : State :=
  modBay (modGang s v.iss.team v.g (fun g =>
    { g with ports := g.ports.set p Port.unbound, lanes := g.lanes.map (freeLanePort v.iss.ports p) })) v.core v.bay
    (fun b => { b with issue := b.issue.map (fun y => y.freeing p) })

/-- A lane keeps nothing of a port: it stands at its start, with nothing prefetched (R254). -/
def portFree (p : Nat) (l : Lane) : Prop := tget 0 l.pos p = 0 ∧ ∀ e ∈ l.pre, e.port ≠ p

theorem freeLanePort_portFree (ps : List Port) (p : Nat) (l : Lane) : portFree p (freeLanePort ps p l) :=
  ⟨tget_tput_same 0 l.pos p 0, fun _ he => by simpa using (List.mem_filter.1 he).2⟩

theorem portFree_freeLanePort (ps : List Port) (p q : Nat) (l : Lane) (h : portFree p l) : portFree p (freeLanePort ps q l) := by
  refine ⟨?_, fun e he => h.2 e (List.mem_filter.1 he).1⟩
  show tget 0 (tput 0 l.pos q 0) p = 0
  rw [tget_tput]
  split
  · rfl
  · exact h.1

theorem At.sfreed (h : At s v x) (p : Nat) :
    findGang (sfreed s v p) v.iss.team v.iss.gang =
        some { x with ports := x.ports.set p Port.unbound, lanes := x.lanes.map (freeLanePort v.iss.ports p) } ∧
      (bayOf (Machine.sfreed s v p) v.core v.bay).issue = some (v.iss.freeing p) ∧ Elsewhere s (Machine.sfreed s v p) v := by
  have after := h.modGang (fun g =>
    { g with ports := g.ports.set p Port.unbound, lanes := g.lanes.map (freeLanePort v.iss.ports p) }) (List.length_map ..)
  obtain ⟨core, inside⟩ := bay_exists after.bay
  obtain ⟨found, bay⟩ := after.modBay (fun b => { b with issue := b.issue.map (fun y => y.freeing p) }) core inside
  refine ⟨found, (congrArg Bay.issue bay).trans ?_, elsewhere_modBay (modGang_elsewhere h.place _) ..⟩
  show Option.map _ (bayOf (Machine.modGang s _ _ _) v.core v.bay).issue = _
  rw [after.bay]
  rfl

/-- SFREE ends its slot: its port is unbound, and no lane keeps anything of it. -/
theorem At.sfreed_slot (h : At s v x) {p : Nat} (ports : x.ports.length = 16) (room : p < 16) :
    let t := afterSlot (Machine.sfreed s v p) v false WinSlot.none
    Kept s t v ∧ Advanced t v ∧ (gangOf t v).ports.getD p Port.unbound = Port.unbound ∧ ∀ i < 32, portFree p (laneOf t v i) := by
  intro t
  obtain ⟨found, bay, elsewhere⟩ := h.sfreed p
  have freed : ∀ i < 32, ({ x with ports := x.ports.set p Port.unbound, lanes := x.lanes.map (freeLanePort v.iss.ports p) } : Gang).lane i =
      freeLanePort v.iss.ports p (x.lane i) := fun i hi => lane_mapAll x _ i (by rw [h.count]; exact hi)
  have unbound : (x.ports.set p Port.unbound).getD p Port.unbound = Port.unbound := by
    rw [getD_set _ _ _ _ (ports ▸ room), if_pos rfl]
  refine ⟨h.slot_kept found (fun i hi => ?_) rfl rfl elsewhere, advanced_afterSlot bay rfl, ?_, fun i hi => ?_⟩
  · rw [freed i hi]
    exact ⟨rfl, rfl, rfl, rfl⟩
  · show (gangOf t v).ports.getD p Port.unbound = _
    rw [gang_afterSlot found h.place bay]
    split
    · exact unbound
    · rw [bindPorts_ports, bind_others _ p _ (fun e he => by simpa using (List.mem_filter.1 he).2)]
      exact unbound
  · refine lanes_afterSlot (portFree p) found h.place bay (fun _ hl => hl) (fun e _ ps l hl => portFree_freeLanePort ps p e.1 l hl)
      (by rw [List.length_map, h.count]; exact hi) ?_
    rw [freed i hi]
    exact freeLanePort_portFree ..

-- SPOS.set

/-- A lane whose position in a port has been set (R259). -/
def setPos (b : Port) (p : Nat) (val : Word) (l : Lane) : Lane :=
  if b.isRing then { l with late := l.late.filter (fun e => e.1 != p), pos := tput 0 l.pos p val }
  else { l with late := l.late.filter (fun e => e.1 != p), pos := tput 0 l.pos p (BitVec.ofNat 32 (min val.toNat b.total)),
                pre := l.pre.filter (fun e => e.port != p) }

/-- What a lane holds of a port once its position is set to `val`. -/
def posSet (b : Port) (p : Nat) (val : Word) (l : Lane) : Prop :=
  (∀ e ∈ l.late, e.1 ≠ p) ∧ (b.isRing = false → ∀ e ∈ l.pre, e.port ≠ p) ∧
    tget 0 l.pos p = if b.isRing then val else BitVec.ofNat 32 (min val.toNat b.total)

theorem setPos_posSet (b : Port) (p : Nat) (val : Word) (l : Lane) : posSet b p val (setPos b p val l) := by
  unfold setPos posSet
  cases b.isRing with
  | true => exact ⟨fun e he => by simpa using (List.mem_filter.1 he).2, fun no => (by cases no), tget_tput_same ..⟩
  | false =>
    exact ⟨fun e he => by simpa using (List.mem_filter.1 he).2, fun _ e he => by simpa using (List.mem_filter.1 he).2, tget_tput_same ..⟩

theorem setPos_kept (b : Port) (p : Nat) (val : Word) (l : Lane) :
    (setPos b p val l).regs = l.regs ∧ (setPos b p val l).preds = l.preds ∧ (setPos b p val l).fst = l.fst ∧
      (setPos b p val l).sys = l.sys := by
  unfold setPos
  split <;> exact ⟨rfl, rfl, rfl, rfl⟩

theorem posSet_freeLanePort {b : Port} {p q : Nat} {val : Word} (other : q ≠ p) (ps : List Port) (l : Lane) (h : posSet b p val l) :
    posSet b p val (freeLanePort ps q l) := by
  refine ⟨fun e he => h.1 e (List.mem_filter.1 he).1, fun no e he => h.2.1 no e (List.mem_filter.1 he).1, ?_⟩
  rw [← h.2.2]
  exact tget_tput_ne 0 l.pos 0 (Ne.symm other)

/-- The active lanes are changed, and the slot ends. -/
theorem At.modActive (h : At s v x) (g : Nat → Lane → Lane) : ∃ y, At (modActive s v g) v y ∧ y.cregs = x.cregs ∧ y.sys = x.sys ∧
    Elsewhere s (Machine.modActive s v g) v ∧ ∀ i < 32, y.lane i = if i ∈ v.active then g i (x.lane i) else x.lane i := by
  obtain ⟨y, found, count, lanes, eq⟩ := modActive_lanes s v g h.place h.gang h.nodup
  obtain ⟨elsewhere, bays⟩ := modActive_rest s v g h.place
  refine ⟨y, ⟨found, count.trans h.count, h.place, (congrArg Bay.issue (bays _ _)).trans h.bay, h.group, h.nodup, h.active⟩,
    by rw [eq], by rw [eq]; rfl, elsewhere, fun i hi => lanes i (by rw [h.count]; exact hi)⟩

/-- Settles O23: SBIND, SFREE and SPOS.set by what the end of the slot makes of the gang, the others as they queue or compute. -/
theorem streamInstructions : Obligations.StreamInstructions := by
  unfold Obligations.StreamInstructions
  intro s c v
  refine ⟨?sbind, ?sfree, ?get, ?set_, ?sdrain, ?qring, ?qrfree⟩
  case get => exact fun n p => computes_alu rfl (fun _ _ => fits_word _ _) (fun _ _ => rfl)
  case sdrain =>
    exact fun p close h => ⟨_, issueChecks_pass h _, queueOp_queued h.view h.stands _ [] _ (active_facts h.view h.stands).1⟩
  case qring => exact fun d base quad a64 => queues_mem rfl rfl id rfl
  case qrfree => exact fun d base a64 => queues_mem rfl rfl id rfl
  case sbind =>
    intro p addr h active ports room good
    obtain ⟨i, rest, some_⟩ := List.exists_cons_of_ne_nil active
    have no_fault : addrFaults v (v.active.take 1) (fun i => (v.src2 s.fresh i addr).toNat) 64 (servedFault s .all) 0 = none :=
      addrFaults_none good
    have within : i < 32 := (h.at_.active i (by rw [some_]; exact List.mem_cons_self)).2
    have runs : exec (.sbind c (.q p) addr) s =
        .next (afterSlot (sbound s v p i (v.src2 s.fresh i addr)) v false WinSlot.none) := by
      refine (issueChecks_pass h _).trans ?_
      dsimp only
      rw [no_fault, some_, ← BitVec.setWidth_eq (v.src2 s.fresh i addr), ← BitVec.ofNat_toNat]
      rfl
    rw [some_]
    obtain ⟨kept, advanced, queued, port⟩ := h.at_.sbound_slot (v.src2 s.fresh i addr) within ports room
    exact ⟨_, runs, kept, advanced, queued, port⟩
  case sfree =>
    intro p h active ports room
    have runs : exec (.sfree c (.q p)) s = .next (afterSlot (sfreed s v p) v false WinSlot.none) := by
      refine (issueChecks_pass h _).trans ?_
      rw [if_neg (fun e => active (List.isEmpty_iff.1 e))]
      rfl
    exact ⟨_, runs, h.at_.sfreed_slot ports room⟩
  case set_ =>
    intro p a h others
    have runs : exec (.spos c (.q p) a true) s = .next (afterSlot (modActive s v (fun i =>
        setPos (v.iss.ports.getD p Port.unbound) p (v.src1 s.fresh i a))) v false WinSlot.none) := (issueChecks_pass h _).trans rfl
    obtain ⟨y, at_, cregs, sys, elsewhere, lanes⟩ :=
      h.at_.modActive (fun i => setPos (v.iss.ports.getD p Port.unbound) p (v.src1 s.fresh i a))
    have set_ : ∀ i ∈ v.active, posSet (v.iss.ports.getD p Port.unbound) p (v.src1 s.fresh i a) (laneOf (afterSlot (modActive s v (fun i =>
        setPos (v.iss.ports.getD p Port.unbound) p (v.src1 s.fresh i a))) v false WinSlot.none) v i) := fun i hi => by
      have within := (at_.active i hi).2
      refine lanes_afterSlot (posSet _ p _) at_.gang at_.place at_.bay (fun _ hl => hl)
        (fun e he ps l hl => posSet_freeLanePort (others e he) ps l hl) (by rw [at_.count]; exact within) ?_
      rw [lanes i within, if_pos hi]
      exact setPos_posSet ..
    refine ⟨_, runs, h.at_.slot_kept at_.gang (fun i hi => ?_) cregs sys elsewhere, at_.advanced _ _,
      fun i hi => ⟨(set_ i hi).1, (set_ i hi).2.1⟩, fun i hi => (set_ i hi).2.2⟩
    rw [lanes i hi]
    split
    · exact setPos_kept ..
    · exact ⟨rfl, rfl, rfl, rfl⟩

end Sys2Proof.Machine
end

section
/-! Tracked operations that begin (R64, R73): from a state that the instruction has already changed to what its slot leaves behind. -/

namespace Sys2Proof.Machine

variable {s t : State} {c : Common} {v : View} {x z : Gang} {half : Bool} {w : WinSlot} {f : Front} {own : View → Option FaultInfo}

/-- The pops of an instruction that passes its checks leave its gang in issue, the same but for its ports. -/
theorem Passes.popped_at (h : Passes s c f own v) : ∃ y, At (popped s v f) v y := by
  obtain ⟨y, found, count, -, bay⟩ := h.gang
  have at_ := h.at_
  exact ⟨y, found, count, at_.place, bay, at_.group, at_.nodup, at_.active⟩

namespace At


/-- An operation joins its gang, and its flag counts up; one with nothing to do has ended already (R64). -/
theorem start (h : At s v x) (n : Nat) (k : OpKind) (lanes also : List Nat) (slots : List (Nat × DWord × Nat)) :
    ∃ y, At (startOp s v n k lanes also slots) v y ∧ y.lanes = x.lanes ∧ y.cregs = x.cregs ∧ y.sys = x.sys ∧
      y.ops = x.ops ++ (if idleOp k lanes then [] else
        [{ id := s.fresh, flag := n, kind := k, lanes := lanes, also := also, insn := v.word, slots := slots }]) ∧
      (∀ m, y.flag m = x.flag m + (if m = n ∧ m ≠ 0 ∧ idleOp k lanes = false then 1 else 0)) ∧
      Elsewhere s (startOp s v n k lanes also slots) v := by
  unfold startOp
  cases idle : idleOp k lanes with
  | true => exact ⟨x, h.same rfl rfl, rfl, rfl, rfl, by simp, fun m => by simp, ⟨rfl, fun _ _ => rfl, fun _ _ => rfl, rfl, rfl, rfl, rfl⟩⟩
  | false =>
    obtain ⟨lanes', cregs, ops, -, sys, flags⟩ := addFlag_rest { x with ops := x.ops ++
      [{ id := s.fresh, flag := n, kind := k, lanes := lanes, also := also, insn := v.word, slots := slots }] } n
    have fresh : At { s with fresh := s.fresh + 1 } v x := h.same rfl rfl
    have count : (Gang.addFlag { x with ops := x.ops ++
      [{ id := s.fresh, flag := n, kind := k, lanes := lanes, also := also, insn := v.word, slots := slots }] } n).lanes.length = x.lanes.length :=
      congrArg _ lanes'
    have elsewhere := modGang_elsewhere (s := { s with fresh := s.fresh + 1 }) h.place (fun g => Gang.addFlag { g with ops := g.ops ++
      [{ id := s.fresh, flag := n, kind := k, lanes := lanes, also := also, insn := v.word, slots := slots }] } n)
    refine ⟨_, fresh.modGang _ count, lanes', cregs, sys, ops, fun m => ?_, ⟨elsewhere.mem, elsewhere.teams, elsewhere.gangs,
      elsewhere.launches, elsewhere.chains, elsewhere.dies, elsewhere.mgmt⟩⟩
    simp only [and_true]
    exact flags m

/-- Lanes are changed one by one. -/
theorem modLanes (h : At s v x) (g : Nat → Lane → Lane) (l : List Nat) (nodup : l.Nodup) :
    ∃ y, At (l.foldl (fun s i => modLane s v.iss.team v.g i (g i)) s) v y ∧ y.cregs = x.cregs ∧ y.sys = x.sys ∧ y.ops = x.ops ∧
      y.flags = x.flags ∧ Elsewhere s (l.foldl (fun s i => modLane s v.iss.team v.g i (g i)) s) v ∧
      ∀ i < 32, y.lane i = if i ∈ l then g i (x.lane i) else x.lane i := by
  obtain ⟨y, found, count, lanes, eq⟩ := modLanes_lanes s v.iss.team v.iss.gang g l h.gang nodup
  obtain ⟨elsewhere, bays⟩ := modLanes_rest s v g h.place l
  rw [← h.place] at found
  exact ⟨y, ⟨h.place ▸ found, count.trans h.count, h.place, (congrArg Bay.issue (bays _ _)).trans h.bay, h.group, h.nodup, h.active⟩,
    by rw [eq], by rw [eq]; rfl, by rw [eq], by rw [eq], elsewhere, fun i hi => lanes i (by rw [h.count]; exact hi)⟩

/-- What stands in a lane's queue after its slot: only the port slots that the clause left unused may follow (R249). -/
theorem queue (h : At s v x) : ∀ i, ∃ rest, (v.iss.slot < v.iss.ni → rest = []) ∧
    (laneOf (afterSlot s v half w) v i).queue = (x.lane i).queue ++ rest := by
  intro i
  obtain ⟨y, found, -, queues⟩ := afterSlot_grew s v half w h.gang h.place
  obtain ⟨rest, last, eq⟩ := queues i
  exact ⟨rest, fun more => last (not_not.2 more), by rw [laneOf, gangOf_eq found, eq]⟩

/-- An operation that has begun, once the slot has ended. -/
theorem began {p : State} (hp : At p v x) (h : At s v z) {k : OpKind} {lanes : List Nat} {id : Nat} {also : List Nat}
    {slots : List (Nat × DWord × Nat)} (ops : z.ops = x.ops ++ (if idleOp k lanes then [] else
      [{ id := id, flag := c.setf, kind := k, lanes := lanes, also := also, insn := v.word, slots := slots }]))
    (flag : ∀ m, z.flag m = x.flag m + (if m = c.setf ∧ m ≠ 0 ∧ idleOp k lanes = false then 1 else 0)) :
    Began p (afterSlot s v half w) v c k lanes := by
  have body := h.body (gangBody_afterSlot h.place half w)
  have flags : ∀ m, (gangOf (afterSlot s v half w) v).flag m = z.flag m := fun m => (congrArg (fun g : Gang => g.flag m) body :)
  refine ⟨⟨id, also, slots, ?_⟩, fun used => ?_, fun n other => ?_, h.advanced _ _, h.follows _ _⟩
  · rw [hp.gang_eq, ← ops]
    exact (congrArg Gang.ops body :)
  · rw [flags, flag, hp.gang_eq]
    cases idleOp k lanes <;> simp [used]
  · rw [flags, flag, hp.gang_eq, if_neg (fun all => other all.1)]
    rfl

/-- An operation begins whose accesses stand in the queues of some lanes: what is kept, the operation, and the queues. -/
theorem begin_ (h : At s v x) (k : OpKind) (idents also : List Nat) (lanes : List Nat) (qs : Nat → List LaneOp) (nodup : lanes.Nodup) :
    let t := afterSlot (lanes.foldl (fun s2 i => modLane s2 v.iss.team v.g i (fun l => l.push (qs i)))
      (startOp s v c.setf k idents also)) v half w
    Kept s t v ∧ Began s t v c k idents ∧ ∀ i < 32, ∃ rest, (v.iss.slot < v.iss.ni → rest = []) ∧
      (laneOf t v i).queue = (laneOf s v i).queue ++ (if i ∈ lanes then qs i else []) ++ rest := by
  intro t
  obtain ⟨y, at1, lanes1, cregs1, sys1, ops, flag, elsewhere1⟩ := h.start c.setf k idents also []
  obtain ⟨z, at2, cregs2, sys2, ops2, flags2, elsewhere2, lanes2⟩ := at1.modLanes (fun i l => l.push (qs i)) lanes nodup
  have lane : ∀ i < 32, z.lane i = if i ∈ lanes then (x.lane i).push (qs i) else x.lane i := fun i hi => by
    rw [lanes2 i hi, Gang.lane, Gang.lane, lanes1]
  refine ⟨h.slot_kept at2.gang (fun i hi => ?_) (cregs2.trans cregs1) (sys2.trans sys1) (elsewhere1.trans elsewhere2),
    h.began at2 (ops2.trans ops) (fun m => by rw [Gang.flag, flags2]; exact flag m), fun i hi => ?_⟩
  · rw [lane i hi]
    split <;> exact ⟨rfl, rfl, rfl, rfl⟩
  · obtain ⟨rest, last, eq⟩ := at2.queue (half := half) (w := w) i
    refine ⟨rest, last, eq.trans ?_⟩
    rw [lane i hi, h.laneOf_eq]
    split
    · rfl
    · rw [List.append_nil]

end At

end Sys2Proof.Machine
end

section
/-! O25, O29, O30. Queries, and the operations of launches and of the system that begin (R280, R283, R318, R365 to R368, R392 to R395). -/

namespace Sys2Proof.Machine

variable {s : State} {c : Common} {v : View} {i : Instr} {f : Front} {own : View → Option FaultInfo}

/-- Settles O25: each query's value, read at issue. -/
theorem queriesReadLater : Obligations.QueriesReadLater := by
  unfold Obligations.QueriesReadLater
  intro s c v
  refine ⟨?hqry, ?tlrd, ?mstat, ?lstat⟩
  case hqry => exact fun d h sel => computesLater_value (Eq.refl (execHqry c d h sel s)) (fun _ _ => rfl)
  case tlrd => exact fun d e iss => computesLater_value (Eq.refl (execTlrd c d e iss s)) (fun _ _ => rfl)
  case mstat =>
    refine fun d sel => computesLater_value (Eq.refl (execMstat c d sel s)) (fun _ _ => ?_)
    refine congrArg LaneOut.word ?_
    unfold mstatValue
    split <;> rfl
  case lstat => exact fun d sel => computesLater_value (Eq.refl (execLstat c d sel s)) (fun _ _ => rfl)

/-- The queue entries of an operation that completes as a whole. -/
def heldEntries (id : Nat) (w : DWord) (ks : List MemKind) : List LaneOp :=
  ks.map (fun m => { op := id, kind := m, last := false, acks := [], parked := none, insn := w })

/-- A launch instruction begins its operation. -/
theorem holds_launch {addr : Option (View → Nat → Nat)} {first : View → Nat → List MemKind} {k : View → List Nat → OpKind}
    {good : Prop} {kind : OpKind} {lanes : List Nat} {ks : Nat → List MemKind} (runs : exec i s = execLaunchOp c f own addr first k s)
    (quiet : f.allowQ = false) (acts : v.actors f false = lanes)
    (ok : good → ∀ a, addr = some a → ∀ j ∈ lanes, a v j % 128 = 0 ∧ servedFault s .all (a v j) = none)
    (what : k v lanes = kind) (same : ∀ j, first v j = ks j) : Holds s c v i f own good kind lanes ks := fun h hg => by
  have front : { f with allowQ := false } = f := by rw [← quiet]
  rw [front] at h
  subst acts what
  obtain ⟨kept, began, queues⟩ := h.at_.begin_ (c := c) (half := false) (w := WinSlot.none) (k v (v.actors f false))
    ((v.actors f false).map (fun j => (v.gang.lane j).ident)) [] (v.actors f false)
    (fun j => heldEntries s.fresh v.word (first v j)) (actors_nodup h.at_.nodup _ _)
  refine ⟨_, runs.trans ((issueChecks_pass h _).trans ?_), kept, began, s.fresh, fun j hj => ?_⟩
  · cases addr with
    | none => rfl
    | some a => dsimp only [Option.bind_some]; rw [addrFaults_none (ok hg a rfl)]; rfl
  · rw [← same]
    exact queues j hj

/-- The word that LREC takes from its quadruple. -/
def lrecWord (s : State) (v : View) (quad : Name) (i j : Nat) : Nat :=
  ((v.src s.fresh i { name := quad, words := 4 }).getD j 0).toNat

/-- The accesses of LREC: the stores of its fields, the read, and the zeros of a usable completion record (R366). -/
def lrecStores (s : State) (addr quad : Name) (a64 : Bool) (v : View) (i : Nat) : List MemKind :=
  let a := v.addr s.fresh i addr a64 0
  let crec := lrecWord s v quad i 2 + 2 ^ 32 * lrecWord s v quad i 3
  if 2 ^ 16 ≤ lrecWord s v quad i 1 then []
  else [.store (BitVec.ofNat 64 (a + 8)) (toBytes 6 (lrecWord s v quad i 0 + 2 ^ 32 * lrecWord s v quad i 1)) none,
        .store (BitVec.ofNat 64 (a + 104)) (toBytes 8 crec) none, .lnch (BitVec.ofNat 64 a)] ++
       (if crecUsable crec then [.store (BitVec.ofNat 64 crec) (List.replicate 32 0) none] else [])

/-- What LREC waits for, lane by lane. -/
def lrecKind (s : State) (d quad : Name) (v : View) (lanes : List Nat) : OpKind :=
  .lrec { name := d, words := 1 } (byIdent .wait v lanes (fun i => if 2 ^ 16 ≤ lrecWord s v quad i 1 then .bad else .wait))

theorem crecUsable_iff (a : Nat) : crecUsable a = true ↔ a ≠ 0 ∧ a % 32 = 0 ∧ a < 2 ^ 62 ∧ homeOf a < 4 := by
  simp [crecUsable, and_assoc]

theorem exec_lrec (d addr quad : Name) (a64 : Bool) : exec (.lrec c d addr quad a64) s =
    execLaunchOp c { srcs := { name := quad, words := 4 } :: addrSrcs addr a64, dst := d1 d, allowQ := false }
      (fun u => (baseOwn addr a64 u).orElse (fun _ => namesOwn [quad] u)) (some (fun v i => v.addr s.fresh i addr a64 0))
      (lrecStores s addr quad a64) (lrecKind s d quad) s := rfl

theorem exec_lnch (d addr : Name) (a64 : Bool) : exec (.lnch c d addr a64) s =
    execLaunchOp c { srcs := addrSrcs addr a64, dst := d1 d, allowQ := false } (baseOwn addr a64)
      (some (fun v i => v.addr s.fresh i addr a64 0)) (fun v i => [.lnchRel, .lnch (BitVec.ofNat 64 (v.addr s.fresh i addr a64 0))])
      (fun _ _ => .lnch { name := d, words := 1 } []) s := rfl

theorem exec_lease (d quad : Name) : exec (.lease c d quad) s =
    execLaunchOp c { srcs := [{ name := quad, words := 4 }], dst := d1 d, allowQ := false } (namesOwn [quad]) none (fun _ _ => [])
      (fun v lanes => .lease { name := d, words := 1 } (byIdent [] v lanes (fun i => v.src s.fresh i { name := quad, words := 4 }))) s := rfl

/-- Settles O29: each launch instruction by the operation that it begins. -/
theorem launchInstructionsBegin : Obligations.LaunchInstructionsBegin := by
  unfold Obligations.LaunchInstructionsBegin
  intro s c v
  refine ⟨?lnch, ?lrec, ?lease⟩
  case lnch =>
    exact fun d addr a64 => holds_launch (exec_lnch d addr a64) rfl rfl
      (fun good a ha j hj => by cases ha; exact good j hj) rfl (fun _ => rfl)
  case lrec =>
    intro d addr quad a64
    refine holds_launch (exec_lrec d addr quad a64) rfl rfl (fun good a ha j hj => by cases ha; exact good j hj) rfl (fun j => ?_)
    simp only [lrecStores, crecUsable_iff]
    rfl
  case lease =>
    exact fun d quad => holds_launch (exec_lease d quad) rfl rfl (fun _ a ha => by cases ha) rfl (fun _ => rfl)

/-- The ring slots of the lanes that deliver to a port leave with the operation (R243). -/
theorem At.takeSlots {x : Gang} (h : At s v x) (lanes : List Nat) (nodup : lanes.Nodup) (port : Option Nat) :
    ∃ y, At (takeSlots s v lanes port) v y ∧ y.cregs = x.cregs ∧ y.sys = x.sys ∧ y.ops = x.ops ∧ y.flags = x.flags ∧
      Elsewhere s (Machine.takeSlots s v lanes port) v ∧ ∀ i < 32, ∃ slots, y.lane i = { x.lane i with slots := slots } := by
  cases port with
  | none => exact ⟨x, h, rfl, rfl, rfl, rfl, ⟨rfl, fun _ _ => rfl, fun _ _ => rfl, rfl, rfl, rfl, rfl⟩, fun i _ => ⟨_, rfl⟩⟩
  | some p =>
    obtain ⟨y, at_, cregs, sys, ops, flags, elsewhere, lanes'⟩ :=
      h.modLanes (fun _ l => { l with slots := l.slots.eraseP (fun e => e.1 == p) }) lanes nodup
    refine ⟨y, at_, cregs, sys, ops, flags, elsewhere, fun i hi => ?_⟩
    rw [lanes' i hi]
    split <;> exact ⟨_, rfl⟩

/-- A system operation of one lane begins, after its pops. -/
theorem holdsOnce {addr : Option (View → Nat → Nat)} {acc : Nat} {k : (Nat → Opnd → List Word) → Nat → OpKind} {good : Prop}
    {kind : (Nat → LaneIn) → OpKind} (runs : exec i s = execOnce c f own addr acc k s)
    (ok : good → ∀ a, addr = some a → ∀ j ∈ v.acting.take 1, a v j % 128 = 0 ∧ servedFault s .all (a v j) = none)
    (what : k (srcWords s.fresh v (popAll s v f.srcPorts).2) (v.acting.headD 0) = kind (operands s v f)) :
    HoldsOnce s c v i f own good kind := fun h hg => by
  obtain ⟨x, at0⟩ := h.popped_at
  obtain ⟨y, at1, cregs1, sys1, ops1, flags1, elsewhere1, lanes1⟩ := at0.takeSlots (v.acting.take 1) ((h.at_.nodup.filter _).sublist (List.take_sublist ..)) f.dstPort
  obtain ⟨z, at2, lanes2, cregs2, sys2, ops2, flag2, elsewhere2⟩ := at1.start c.setf (kind (operands s v f))
    ((v.acting.take 1).map (fun j => (v.gang.lane j).ident)) [] (takenSlots v (v.acting.take 1) f.dstPort)
  have lane : ∀ j < 32, ∃ slots, z.lane j = { x.lane j with slots := slots } := fun j hj => by
    obtain ⟨slots, eq⟩ := lanes1 j hj
    exact ⟨slots, by rw [← eq, Gang.lane, Gang.lane, lanes2]⟩
  refine ⟨_, runs.trans ((issueChecks_pass h _).trans ?_), at0.slot_kept (half := false) (w := WinSlot.none) at2.gang (fun j hj => ?_) (cregs2.trans cregs1) (sys2.trans sys1)
    (elsewhere1.trans elsewhere2), at0.began at2 (ops2.trans (by rw [ops1])) (fun m => by rw [flag2, Gang.flag, flags1]; rfl), fun j hj => ?_⟩
  · rw [← what]
    cases addr with
    | none => rfl
    | some a => dsimp only [Option.bind_some]; rw [addrFaults_none (ok hg a rfl)]; rfl
  · obtain ⟨slots, eq⟩ := lane j hj
    rw [eq]
    exact ⟨rfl, rfl, rfl, rfl⟩
  · obtain ⟨rest, last, eq⟩ := at2.queue (half := false) (w := WinSlot.none) j
    obtain ⟨slots, same⟩ := lane j hj
    exact ⟨rest, last, by rw [eq, same, at0.laneOf_eq]⟩

theorem exec_csave (d a : Name) : exec (.csave c d a) s =
    execOnce c { srcs := [o2 a], dst := d1 d } (namesOwn [a]) (some (fun v i => (v.src2 s.fresh i a).toNat)) 1
      (fun x i => .csave { name := d, words := 1 } (pairOf (x i (o2 a))) false) s := rfl

theorem exec_crest (d a : Name) : exec (.crest c d a) s =
    execOnce c { srcs := [o2 a], dst := d1 d } (namesOwn [a]) (some (fun v i => (v.src2 s.fresh i a).toNat)) 0
      (fun x i => .crest { name := d, words := 1 } (pairOf (x i (o2 a)))) s := rfl

theorem exec_tlbinv (d quad : Name) (op : TlbOp) : exec (.tlbinv c d quad op) s =
    execOnce c { srcs := [{ name := quad, words := 4 }], dst := d1 d }
      (fun u => (namesOwn [quad] u).orElse (fun _ => if ctxPager s u.team.ctx then none else some (u.fault .priv))) none 0
      (fun x i => .tlbinv { name := d, words := 1 } op (x i { name := quad, words := 4 })) s := rfl

theorem exec_replay (d a : Name) : exec (.replay c d a) s =
    execOnce c { srcs := [o1 a], dst := d1 d } (fun u => if ctxPager s u.team.ctx then none else some (u.fault .priv)) none 0
      (fun x i => .replay { name := d, words := 1 } (((x i (o1 a)).getD 0 0).toNat % 256) none) s := rfl

/-- Settles O30: each system operation by the one lane that acts. -/
theorem systemOperationsBegin : Obligations.SystemOperationsBegin := by
  unfold Obligations.SystemOperationsBegin
  intro s c v
  refine ⟨?csave, ?crest, ?tlbinv, ?replay⟩
  case csave => exact fun d a => holdsOnce (exec_csave d a) (fun good a ha j hj => by cases ha; exact good j hj) rfl
  case crest => exact fun d a => holdsOnce (exec_crest d a) (fun good a ha j hj => by cases ha; exact good j hj) rfl
  case tlbinv => exact fun d quad op => holdsOnce (exec_tlbinv d quad op) (fun _ a ha => by cases ha) rfl
  case replay => exact fun d a => holdsOnce (exec_replay d a) (fun _ a ha => by cases ha) rfl

end Sys2Proof.Machine
end

section
/-! O31. System registers (R378, R396). -/

namespace Sys2Proof.Machine

variable {s : State} {c : Common} {v : View} {x : Gang}

theorem mem_tput {α : Type} [DecidableEq α] (d : α) (m : List (Nat × α)) (k : Nat) {y : α} (some_ : y ≠ d) : (k, y) ∈ tput d m k y := by
  rw [tput, if_neg some_]
  generalize tdel k m = r
  induction r with
  | nil => exact List.mem_cons_self
  | cons e r ih =>
    obtain ⟨j, u⟩ := e
    unfold tins
    split
    · exact List.mem_cons_self
    · exact List.mem_cons_of_mem _ ih

theorem le_foldl_max (l : List Nat) : ∀ a, a ≤ l.foldl max a ∧ ∀ n ∈ l, n ≤ l.foldl max a := by
  induction l with
  | nil => exact fun a => ⟨le_rfl, fun n hn => by cases hn⟩
  | cons b l ih =>
    intro a
    obtain ⟨start, each⟩ := ih (max a b)
    refine ⟨(le_max_left a b).trans start, fun n hn => ?_⟩
    rcases List.mem_cons.1 hn with rfl | hn
    · exact (le_max_right a n).trans start
    · exact each n hn

/-- What is written under a key is not readable before its cycle (R77). -/
theorem le_readyAt_setReady (g : Gang) (k t : Nat) (later : t ≠ 0) : t ≤ (g.setReady [(k, 0)] t).readyAt k := by
  refine (le_foldl_max _ 0).2 t (List.mem_map.2 ⟨(64 * k + 0, t), List.mem_filter.2 ⟨mem_tput 0 g.ready _ later, ?_⟩, rfl⟩)
  simp

theorem headD_eq_getD {α : Type} (l : List α) (d : α) : l.headD d = l.getD 0 d := by cases l <;> rfl

/-- What WRSR does to a lane: one that is in a handler takes the value, any other stands (R378). -/
def wrsrLane (sr : Nat) (val : Word) (l : Lane) : Lane := if l.handler then writeSr sr val l else l

theorem wrsrLane_kept (sr : Nat) (val : Word) (l : Lane) : (wrsrLane sr val l).regs = l.regs ∧ (wrsrLane sr val l).preds = l.preds ∧
    (wrsrLane sr val l).fst = l.fst ∧ (wrsrLane sr val l).handler = l.handler := by
  unfold wrsrLane writeSr
  split
  · split <;> exact ⟨rfl, rfl, rfl, rfl⟩
  · exact ⟨rfl, rfl, rfl, rfl⟩

theorem wrsrLane_saved (sr : Nat) (val : Word) (l : Lane) : ((wrsrLane sr val l).epc, (wrsrLane sr val l).eslot) =
    if l.handler = true then
      (match sr with
      | 2 => (pair val (hi32 l.epc), l.eslot)
      | 3 => (pair (lo32 l.epc) val, l.eslot)
      | 4 => (l.epc, val.toNat % 16)
      | _ => (l.epc, l.eslot))
    else (l.epc, l.eslot) := by
  unfold wrsrLane writeSr
  cases l.handler with
  | true => rcases sr with _ | _ | _ | _ | _ | n <;> rfl
  | false => rfl

/-- A gang whose lanes are changed and which may wait for a system register, at the end of its slot. -/
theorem wrsr_slot (h : At s v x) (g : Nat → Lane → Lane) (wrote : Bool) (sr : Nat) :
    let s1 := modActive s v g
    let s2 := if wrote then modGang s1 v.iss.team v.g (fun k => k.setReady [(keyS sr, 0)] (v.t + 2)) else s1
    let t := afterSlot s2 v false WinSlot.none
    (∀ i < 32, (laneOf t v i).body = (if i ∈ v.active then g i (laneOf s v i) else laneOf s v i).body) ∧
    (wrote = true → v.t + 2 ≤ (gangOf t v).readyAt (keyS sr)) ∧ (gangOf t v).sys = (gangOf s v).sys ∧
    (gangOf t v).cregs = (gangOf s v).cregs ∧ Elsewhere s t v ∧ Advanced t v ∧ Follows t v := by
  intro s1 s2 t
  obtain ⟨y, at1, cregs, sys, elsewhere, lanes⟩ := h.modActive g
  obtain ⟨z, at2, lanes2, cregs2, sys2, ready, elsewhere2⟩ : ∃ z, At s2 v z ∧ z.lanes = y.lanes ∧ z.cregs = y.cregs ∧ z.sys = y.sys ∧
      (wrote = true → v.t + 2 ≤ z.readyAt (keyS sr)) ∧ Elsewhere s1 s2 v := by
    show ∃ z, At (if wrote then _ else _) v z ∧ _ ∧ _ ∧ _ ∧ _ ∧ Elsewhere s1 (if wrote then _ else _) v
    cases wrote with
    | true =>
      exact ⟨_, at1.modGang (fun k => k.setReady [(keyS sr, 0)] (v.t + 2)) rfl, rfl, rfl, rfl,
        fun _ => le_readyAt_setReady _ _ _ (by omega), modGang_elsewhere at1.place _⟩
    | false =>
      exact ⟨y, at1, rfl, rfl, rfl, fun no => (by cases no), rfl, fun _ _ => rfl, fun _ _ => rfl, rfl, rfl, rfl, rfl⟩
  have body : (gangOf t v).body = z.body := at2.body (gangBody_afterSlot at2.place false WinSlot.none)
  have end_ := at2.slotEnd false WinSlot.none
  refine ⟨fun i hi => ?_, fun w => ?_, ?_, ?_, (elsewhere.trans elsewhere2).trans end_.elsewhere, at2.advanced _ _, at2.follows _ _⟩
  · rw [laneBodies_lane (laneBodies_afterSlot at2.place _ _) at2.gang, at2.laneOf_eq, h.laneOf_eq, ← lanes i hi, Gang.lane, Gang.lane, lanes2]
  · rw [show (gangOf t v).readyAt (keyS sr) = z.readyAt (keyS sr) from (congrArg (fun g : Gang => g.readyAt (keyS sr)) body :)]
    exact ready w
  · rw [end_.gsys, at2.gang_eq, h.gang_eq, sys2, sys]
  · rw [end_.cregs, at2.gang_eq, h.gang_eq, cregs2, cregs]

theorem exec_rdsr (d : Name) (sr : Nat) : exec (.rdsr c d sr) s =
    execAlu c { front := { dst := d1 d, srs := [sr] }, lat := 2, run := fun v inp i => .word (srValue v sr (inp i).lane) } s := rfl

/-- Settles O31: RDSR by what its lanes give, WRSR by its lanes. -/
theorem systemRegistersReadAndWritten : Obligations.SystemRegistersReadAndWritten := by
  unfold Obligations.SystemRegistersReadAndWritten
  intro s c v
  refine ⟨fun d sr => computes_alu (exec_rdsr d sr) (fun _ _ => fits_word d _) (fun _ _ => rfl), fun val sr => ?_⟩
  intro f p h
  obtain ⟨x, at_⟩ := h.popped_at
  obtain ⟨lanes, ready, sys, cregs, elsewhere, advanced, follows⟩ := wrsr_slot at_ (fun i => wrsrLane sr ((operands s v f i).w 0))
    (v.active.any (fun i => (v.gang.lane i).handler)) sr
  have kept : ∀ i l, let k := (if i ∈ v.active then wrsrLane sr ((operands s v f i).w 0) l else l)
      k.regs = l.regs ∧ k.preds = l.preds ∧ k.fst = l.fst ∧ k.handler = l.handler := fun i l => by
    split
    · exact wrsrLane_kept ..
    · exact ⟨rfl, rfl, rfl, rfl⟩
  have runs : exec (.wrsr c val sr) s = .next (afterSlot (if v.active.any (fun i => (v.gang.lane i).handler) then
      modGang (modActive p v (fun i => wrsrLane sr ((operands s v f i).w 0))) v.iss.team v.g (fun k => k.setReady [(keyS sr, 0)] (v.t + 2))
    else modActive p v (fun i => wrsrLane sr ((operands s v f i).w 0))) v false WinSlot.none) := by
    have value : ∀ i, (operands s v f i).w 0 = (srcWords s.fresh v (popAll s v f.srcPorts).2 i (o1 val)).headD 0 := fun i =>
      (headD_eq_getD ..).symm
    simp only [value]
    exact issueChecks_pass h _
  refine ⟨_, runs, fun i hi => ?_, fun i hi => ?_, fun some_ => ready ?_, sys, cregs, elsewhere, advanced, follows⟩
  · obtain ⟨regs, preds, fst, handler⟩ := kept i (laneOf p v i)
    exact ⟨(congrArg Lane.regs (lanes i hi) :).trans regs, (congrArg Lane.preds (lanes i hi) :).trans preds,
      (congrArg Lane.fst (lanes i hi) :).trans fst, (congrArg Lane.handler (lanes i hi) :).trans handler⟩
  · refine (congrArg (fun l : Lane => (l.epc, l.eslot)) (lanes i hi) :).trans ?_
    by_cases active : i ∈ v.active
    · rw [if_pos active]
      refine (wrsrLane_saved ..).trans ?_
      exact if_congr (and_iff_right active).symm rfl rfl
    · rw [if_neg active]
      exact (if_neg (fun both => active both.1)).symm
  · obtain ⟨i, active, handler⟩ := some_
    rw [h.at_.laneOf_eq] at handler
    exact List.any_eq_true.2 ⟨i, active, handler⟩

end Sys2Proof.Machine
end

section
/-! O33. TRAP and TRET (R377 to R379, R390, R391). -/

namespace Sys2Proof.Machine

variable {s t : State} {c : Common} {v : View} {x : Gang} {f : Front} {own : View → Option FaultInfo}

/-- The gang in issue, as its team holds it. -/
theorem At.team_gang (h : At s v x) {u : Team} (found : findTeam s v.iss.team = some u) : u.gang v.g = x := by
  have gang := h.gang
  rw [findGang, found, Option.bind_some] at gang
  rw [Team.gang, h.place, List.getD_eq_getElem?_getD, gang]
  rfl

/-- After its slot, TRAP's bay waits for the clause's results; the gang and its team stand. -/
theorem Passes.slot (h : Passes s c f own v) (k : Bay → Bay) :
    ∃ y u, SlotEnd s (modBay (afterSlot s v false WinSlot.none) v.core v.bay k) v (slotPc s v) ∧
      findGang (modBay (afterSlot s v false WinSlot.none) v.core v.bay k) v.iss.team v.iss.gang = some y ∧ y.lanes.length = 32 ∧
      findTeam (modBay (afterSlot s v false WinSlot.none) v.core v.bay k) v.iss.team = some u ∧ u.ctx = v.team.ctx ∧
      u.ending = v.team.ending ∧ u.gang v.g = y := by
  have at_ := h.at_
  have e := at_.slotEnd false WinSlot.none
  obtain ⟨y, found, count⟩ := e.found
  obtain ⟨u, team, body⟩ := teamBody_some (teamBody_afterSlot s v false WinSlot.none v.iss.team) (issueView_eq h.view).1
  have slot : SlotEnd s (modBay (afterSlot s v false WinSlot.none) v.core v.bay k) v (slotPc s v) :=
    ⟨e.found, e.regs, e.preds, e.fst, e.sys, e.st, e.pc, e.cregs, e.flags, e.chunks, e.gsys, elsewhere_modBay e.elsewhere ..⟩
  refine ⟨y, u, slot, found, by rw [count, at_.gang_eq, at_.count], team, (congrArg Team.ctx body :), (congrArg Team.ending body :), ?_⟩
  have gang := found
  rw [findGang, team, Option.bind_some] at gang
  rw [Team.gang, at_.place, List.getD_eq_getElem?_getD, gang]
  rfl

/-- A trap with no handler, or inside one, ends a team that was not ending (R377). -/
theorem takeTrap_ending {u : Team} {g : Nat} {lanes : List Nat} {info : FaultInfo} {epc : DWord} {eslot : Nat}
    {sh : Nat → List (Option DWord)} {uid : Nat} (found : findTeam s uid = some u) (live : u.ending = none)
    (fate : handlerFor s u.ctx info.cause info.tmem = none ∨ ∃ i ∈ lanes, ((u.gang g).lane i).trapped = true) :
    ∃ u', findTeam (takeTrap s uid g lanes info epc eslot sh) uid = some u' ∧ u'.ending = some info := by
  rw [takeTrap_ends found fate]
  exact endTeam_ending found live

/-- Entering a handler touches the gang that enters alone. -/
theorem enterHandler_elsewhere (place : v.g = v.iss.gang) (lanes : List Nat) (tv : DWord) (info : FaultInfo) (epc : DWord) (eslot : Nat)
    (sh : Nat → List (Option DWord)) : Elsewhere s (enterHandler s v.iss.team v.g lanes tv info epc eslot sh) v :=
  modGang_elsewhere place _

/-- What TRAP leaves in the gang whose active lanes enter the handler (R377, R390). -/
theorem Passes.enters (h : Passes s c f own v) (k : Bay → Bay) (tv : DWord) (info : FaultInfo) (epc : DWord) (sh : Nat → List (Option DWord)) :
    let t := enterHandler (modBay (afterSlot s v false WinSlot.none) v.core v.bay k) v.iss.team v.g v.active tv info epc 0 sh
    (∀ i ∈ v.active, (laneOf t v i).handler = true ∧ (laneOf t v i).pc = tv ∧ (laneOf t v i).epc = epc ∧ (laneOf t v i).eslot = 0 ∧
      (laneOf t v i).resume = 0) ∧
    (gangOf t v).ecause = BitVec.ofNat 32 (causeCode info.cause) ∧ (gangOf t v).einfo = info.einfo ∧
    (∀ i < 32, (laneOf t v i).regs = (laneOf s v i).regs ∧ (laneOf t v i).preds = (laneOf s v i).preds ∧
      (laneOf t v i).fst = (laneOf s v i).fst ∧ (i ∉ v.active → (laneOf t v i).sys = (laneOf s v i).sys)) ∧
    (gangOf t v).cregs = (gangOf s v).cregs ∧ (gangOf t v).flags = (gangOf s v).flags ∧ Elsewhere s t v := by
  intro t
  have at_ := h.at_
  obtain ⟨y, u, slot, found, count, -⟩ := h.slot k
  obtain ⟨z, entered, -, lanes, ecause, einfo, -, -, cregs, flags⟩ := enterHandler_entered (u := v.iss.team) (g := v.iss.gang) found v.active tv info epc 0 sh
  rw [← at_.place] at entered
  have gang : gangOf t v = z := gangOf_eq (at_.place ▸ entered)
  have lane : ∀ i < 32, laneOf t v i = if v.active.contains i then
      { y.lane i with st := .trapped, handler := true, pc := tv, resume := 0, epc := epc, eslot := 0, shadow := sh i, wdog := 0 }
      else y.lane i := fun i hi => by rw [laneOf, gang, lanes i (count ▸ hi)]
  have before : ∀ i, y.lane i = laneOf (modBay (afterSlot s v false WinSlot.none) v.core v.bay k) v i := fun i => by
    rw [laneOf, gangOf_eq found]
  refine ⟨fun i hi => ?_, by rw [gang, ecause], by rw [gang, einfo], fun i hi => ?_, ?_, ?_,
    slot.elsewhere.trans (enterHandler_elsewhere at_.place ..)⟩
  · rw [lane i (at_.active i hi).2, if_pos (List.contains_iff_mem.2 hi)]
    exact ⟨rfl, rfl, rfl, rfl, rfl⟩
  · rw [lane i hi, ← slot.regs i, ← slot.preds i, ← slot.fst i, ← slot.sys i, ← before i]
    split
    · rename_i inside
      exact ⟨rfl, rfl, rfl, fun out => absurd (List.contains_iff_mem.1 inside) out⟩
    · exact ⟨rfl, rfl, rfl, fun _ => rfl⟩
  · rw [gang, cregs, ← slot.cregs, gangOf_eq found]
  · rw [gang, flags, ← slot.flags, gangOf_eq found]

/-- Settles O33: TRAP by its fate, TRET by the lanes that leave. -/
theorem trapsAndReturns : Obligations.TrapsAndReturns := by
  unfold Obligations.TrapsAndReturns
  intro s c v
  refine ⟨?enters, ?ends, ?idle, ?plain, ?skip, ?kill⟩
  case plain => exact endsWith_of _ rfl (fun _ => rfl) rfl
  case skip => exact endsWith_of _ rfl (fun _ => rfl) rfl
  case idle =>
    intro code h idle
    obtain ⟨kept, advanced, follows, -⟩ := h.at_.ends
    exact ⟨_, (issueChecks_pass h _).trans (if_pos (List.isEmpty_iff.2 idle)), kept, advanced, follows⟩
  case enters =>
    intro code tv h active free handler
    let k : Bay → Bay := fun b => { b with next := max b.next (v.settled + 1) }
    obtain ⟨y, u, slot, found, count, team, ctx, -, gang⟩ := h.slot k
    have handler' : handlerFor (modBay (afterSlot s v false WinSlot.none) v.core v.bay k) u.ctx .swtrap none = some tv := by
      rw [handlerFor_congr slot.elsewhere.mem slot.elsewhere.mgmt, ctx, handler]
    have free' : ∀ i ∈ v.active, ((u.gang v.g).lane i).trapped = false := fun i hi => by
      rw [gang, ← gangOf_eq found]
      exact (congrArg (fun l : DWord × Nat × Bool => l.2.2) (slot.sys i) :).trans (free i hi)
    obtain ⟨lanes, ecause, einfo, rest⟩ := h.enters k tv { v.faultAt .swtrap with einfo := BitVec.ofNat 32 code } v.nextPc
      (windowOf s.fresh v.iss v.iss.slot)
    refine ⟨_, (issueChecks_pass h _).trans ((if_neg (fun e => active (List.isEmpty_iff.1 e))).trans ?_), lanes, ecause, einfo, rest⟩
    exact congrArg Host.Outcome.next (takeTrap_enters team rfl free' handler')
  case ends =>
    intro code h active live fate
    let k : Bay → Bay := fun b => { b with next := max b.next (v.settled + 1) }
    obtain ⟨y, u, slot, found, count, team, ctx, ending, gang⟩ := h.slot k
    have fate' : handlerFor (modBay (afterSlot s v false WinSlot.none) v.core v.bay k) u.ctx .swtrap none = none ∨
        ∃ i ∈ v.active, ((u.gang v.g).lane i).trapped = true := by
      refine fate.imp (fun none_ => ?_) (fun ⟨i, hi, inside⟩ => ⟨i, hi, ?_⟩)
      · rw [handlerFor_congr slot.elsewhere.mem slot.elsewhere.mgmt, ctx, none_]
      · rw [gang, ← gangOf_eq found]
        exact (congrArg (fun l : DWord × Nat × Bool => l.2.2) (slot.sys i) :).trans inside
    obtain ⟨u', found', ended⟩ := takeTrap_ending (g := v.g) (lanes := v.active) (epc := v.nextPc) (eslot := 0) (sh := windowOf s.fresh v.iss v.iss.slot)
      (info := { v.faultAt .swtrap with einfo := BitVec.ofNat 32 code }) team (ending.trans live) fate'
    refine ⟨_, u', _, (issueChecks_pass h _).trans (if_neg (fun e => active (List.isEmpty_iff.1 e))), found', ended, rfl, rfl, ?_⟩
    exact (congrArg State.mem (takeTrap_ends team fate')).trans slot.elsewhere.mem
  case kill =>
    intro h active live
    obtain ⟨u, team, body⟩ := teamBody_some (teamBody_afterSlot s v false WinSlot.none v.iss.team) (issueView_eq h.view).1
    have live' : u.ending = none := (congrArg Team.ending body :).trans live
    obtain ⟨u', found, ended⟩ := endTeam_ending
      (info := v.faultAt (if v.active.any (fun i => (v.gang.lane i).handler) then causeOf v.gang.ecause.toNat else .killed)) team live'
    refine ⟨_, u', _, (issueChecks_pass h _).trans (congrArg Host.Outcome.next (if_neg (fun e => active (List.isEmpty_iff.1 e)))), found,
      ended, (h.at_.slotEnd false WinSlot.none).elsewhere.mem, fun outside => ?_⟩
    have none_ : v.active.any (fun i => (v.gang.lane i).handler) = false := List.any_eq_false.2 fun i hi => by
      rw [← h.at_.laneOf_eq, outside i hi]
      exact Bool.false_ne_true
    rw [none_]
    rfl

end Sys2Proof.Machine
end

section
/-! O55, O56. A step runs the decoded instruction; the words that the spec writes out decode. -/

namespace Sys2Proof.Machine

variable {s : State} {m : Move} {rest : List Move}

/-- A step does the first move of the agenda, which falls away. -/
theorem step_cons (h : s.agenda = m :: rest) : step s = doMove m { s with agenda := rest } := by
  rw [step, nextMove, h]

/-- An empty agenda stands for a round. -/
theorem step_nil (h : s.agenda = []) : ∃ m rest, m :: rest = round s ∧ step s = step { s with agenda := m :: rest } := by
  have moves : round s ≠ [] := by simp [round]
  obtain ⟨m, rest, eq⟩ := List.exists_cons_of_ne_nil moves
  refine ⟨m, rest, eq.symm, ?_⟩
  rw [step_cons (s := { s with agenda := m :: rest }) rfl, step, nextMove, h, eq]
  rfl

/-- The word of a bay does not depend on the agenda. -/
theorem slotWord_agenda (core bay : Nat) : slotWord { s with agenda := rest } core bay = slotWord s core bay := rfl

/-- A bay's slot runs what its word decodes to. -/
theorem doMove_slot {core bay : Nat} {w : DWord} (h : slotWord s core bay = some w) :
    doMove (.slot core bay) s = match decodeWord w with
      | none => .next (undecoded { s with focus := some (core, bay) })
      | some i => exec i { s with focus := some (core, bay) } := by
  rw [doMove, h] <;> rfl

/-- Settles O55: a step does the first move of the agenda (`step_cons`), and the moves are the cases of `doMove`. -/
theorem stepRunsDecoded : Obligations.StepRunsDecoded := by
  intro s
  refine ⟨?_, ?_, ?_, ?_, ?_, step_nil⟩
  · intro core bay rest w i agenda word decoded
    rw [step_cons agenda, doMove_slot ((slotWord_agenda core bay).trans word), decoded]
  · intro core bay rest w agenda word decoded
    rw [step_cons agenda, doMove_slot ((slotWord_agenda core bay).trans word), decoded]
  · intro core bay rest agenda word
    rw [step_cons agenda, doMove, slotWord_agenda, word]
  · intro i rest agenda
    rw [step_cons agenda, doMove]
  · intro n rest agenda
    rw [step_cons agenda, doMove]

/-- Settles O56: each word is decoded by evaluation. -/
theorem writtenWordsDecode : Obligations.WrittenWordsDecode := by
  unfold Obligations.WrittenWordsDecode
  decide
end Sys2Proof.Machine
end

section
/-! O57, O58. What reset leaves. -/

namespace Sys2Proof.Machine

/-- Every core of the package is reset. -/
theorem coreOf_reset {n : Nat} (h : n < 256) : coreOf State.reset n = Core.reset := by
  rw [coreOf, State.reset, List.getD_eq_getElem?_getD, List.getElem?_replicate, if_pos h]
  rfl

/-- Settles O57: each core, chain, entry and die is the reset value of its list. -/
theorem resetLeaves : Obligations.ResetLeaves := by
  refine ⟨List.length_replicate, rfl, rfl, fun _ => rfl, ?_, ?_, ?_, ?_, ?_, ?_⟩
  · intro n below
    rw [coreOf_reset below]
    refine ⟨rfl, rfl, rfl, fun b => ?_⟩
    rw [bayOf, coreOf_reset below, Core.reset, List.getD_eq_getElem?_getD, List.getElem?_getD_replicate_default_eq]
    rfl
  · intro n k x below
    rw [coreOf_reset below]
    change ((List.replicate 8 ([] : List Word)).getD k []).getD x 0 = 0
    rw [List.getD_eq_getElem?_getD (l := List.replicate 8 _), List.getElem?_getD_replicate_default_eq]
    rfl
  · intro c mem
    cases List.eq_of_mem_replicate mem
    decide
  · intro c mem
    cases List.eq_of_mem_replicate mem
    decide
  · intro c mem
    cases List.eq_of_mem_replicate mem
    decide
  · decide

/-- Settles O58: no byte is stored at reset, and the lists have the package's lengths. -/
theorem resetHasForm : Obligations.ResetHasForm :=
  ⟨reset_memory_wf, List.length_replicate, List.length_replicate, List.length_replicate, List.length_replicate⟩
end Sys2Proof.Machine
end

section
/-! O34. The registers that store their fields (R6, R418). -/

namespace Sys2Proof.Machine

variable {s : State}

/-- Once the firmware runs, a write acts. -/
theorem whenRunning_of_running (run : running s = true) (f : State → State) : whenRunning s f = .next (f s) := by
  rw [whenRunning, if_pos run]

/-- The changed die, and every other. -/
theorem dieOf_modDie (s : State) {d : Nat} (below : d < s.dies.length) (f : Die → Die) (k : Nat) :
    dieOf (modDie s d f) k = if k = d then f (dieOf s k) else dieOf s k := by
  rw [dieOf, dieOf, modDie, List.getD_eq_getElem?_getD, List.getD_eq_getElem?_getD, List.getElem?_modify]
  by_cases same : d = k
  · subst same
    simp [List.getElem?_eq_getElem below]
  · simp [same, Ne.symm same]

/-- KEYDATA's words stand at 0x48 to 0x80 (R404). -/
theorem plainRegister_keyData (s : State) (v : DWord) {k : Nat} (below : k < 8) :
    plainRegister (0x48 + 8 * k) v s = some { s with mgmt := { s.mgmt with keyData := s.mgmt.keyData.set k v } } := by
  have word : (0x48 + 8 * k - 0x48) / 8 = k := by omega
  simp only [plainRegister]
  rw [if_neg (by omega), if_neg (by omega), if_neg (by omega), if_pos (by omega), word]
  rfl

/-- KEYDATA reads as zero. -/
theorem readRegister_keyData (s : State) {k : Nat} (below : k < 8) : readRegister (0x48 + 8 * k) s = 0 := by
  interval_cases k <;> simp [readRegister]

/-- The state with its clock stepped. -/
def clockStepped (s : State) (step : Int) : State :=
  { s with clock := (((s.clock : Int) + step * (24 * 10 ^ 9 : Nat)) % (2 ^ 64 * (24 * 10 ^ 9 : Nat))).toNat }

theorem clockStepped_clock (s : State) (step : Int) : ((clockStepped s step).clock : Int) =
    ((s.clock : Int) + step * (24 * 10 ^ 9 : Nat)) % (2 ^ 64 * (24 * 10 ^ 9 : Nat)) :=
  Int.toNat_of_nonneg (Int.emod_nonneg _ (by decide))

/-- The times from which entries start slots, after a step of the clock (R411). -/
def flooredFrom (s : State) (step : Int) (es : List Timed) : List Timed :=
  es.map (fun e => { e with
    floor := if step = 0 then e.floor else if 0 < step then max e.floor (timeOf s) else min e.floor (timeOf s) })

/-- A write of the clock-adjust register steps the clock and the entries' times, and stores LOCK and FREQ. -/
theorem writeClock_eq (s : State) (v : DWord) :
    let step := sext 32 (fld v.toNat 31 0)
    let x := sext 21 (fld v.toNat 52 32)
    writeClock v s = { clockStepped s step with
      timed := flooredFrom (clockStepped s step) step s.timed
      mgmt := { s.mgmt with lock := v.getLsbD 53, freq := if -1000000 ≤ x ∧ x ≤ 1000000 then x else s.mgmt.freq } } := by
  intro step x
  by_cases still : step = 0
  · have same : flooredFrom (clockStepped s step) step s.timed = s.timed := by
      simp only [flooredFrom, if_pos still]
      exact List.map_id _
    rw [same, writeClock]
    dsimp only
    rw [if_pos still]
    rfl
  · rw [writeClock, flooredFrom]
    dsimp only
    rw [if_neg still]
    simp only [if_neg still]
    split <;> rfl

/-- Settles O34: each register's write, unfolded once. -/
theorem managementWritesStore : Obligations.ManagementWritesStore := by
  intro s v run
  have acts := whenRunning_of_running run
  refine ⟨?_, ?_, ?_, ?_, ?_, ?_, ?_, ?_, ?_, ?_, ?_, ?_, ?_, ?_, ?_, ?_, ?_, ?_, ?_⟩
  · refine (acts _).trans (congrArg _ ?_)
    unfold writePartition
    by_cases big : 4 < fld v.toNat 2 0
    · rw [if_pos big, if_neg (by omega)]
    · rw [if_neg big, if_pos (by omega)]
      rfl
  · intro d below
    refine ⟨_, acts _, ?_⟩
    unfold writeRti
    by_cases fits : 16 ≤ fld v.toNat 12 0 ∧ fld v.toNat 12 0 ≤ 4096
    · simp only [if_pos fits]
      refine ⟨rfl, by simp [modDie], by rw [dieOf_modDie s below, if_pos rfl], fun k other => ?_⟩
      rw [dieOf_modDie s below, if_neg other]
    · rw [if_neg fits, if_neg fits]
      exact ⟨rfl, rfl, rfl, fun _ _ => rfl⟩
  · refine (acts _).trans (congrArg _ ?_)
    unfold writePcap
    by_cases fits : 500 ≤ fld v.toNat 11 0 ∧ fld v.toNat 11 0 ≤ 2800
    · simp only [if_pos fits]
      rfl
    · simp only [if_neg fits]
  · exact ⟨_, acts _, rfl, rfl, rfl⟩
  · refine ⟨_, acts _, rfl, ?_, ?_⟩
    · unfold writeDegrade setMgmt
      generalize v.getLsbD 0 = bit
      cases needs : s.mgmt.needDegrade <;> cases bit <;> simp [needs]
    · unfold writeDegrade setMgmt
      generalize v.getLsbD 0 = bit
      cases needs : s.mgmt.needDegrade <;> cases bit <;> simp [needs]
  · refine ⟨_, acts _, ?_⟩
    unfold writeDevice
    simp only [List.any_eq_true, Option.isSome_iff_ne_none]
    by_cases lives : (∃ k ∈ s.chains, k.en = true) ∨ (∃ x ∈ s.teams, x.core ≠ none)
    · simp only [if_pos lives]
    · simp only [if_neg lives]
      refine ⟨rfl, rfl, rfl, ?_⟩
      simp [setMgmt]
  · refine ⟨_, acts _, rfl, List.length_mapIdx, fun d below => ?_⟩
    simp only [dieOf, writeDebug, setMgmt, List.getD_eq_getElem?_getD, List.getElem?_mapIdx, List.getElem?_eq_getElem below]
    cases v.getLsbD (1 + d) <;> simp
  · exact ⟨_, (acts _).trans (congrArg _ (writeClock_eq s v)), rfl, clockStepped_clock s _, rfl, rfl⟩
  · refine ⟨_, acts _, ?_⟩
    unfold writeAttest
    cases busy : s.mgmt.attBusy
    · exact ⟨rfl, rfl⟩
    · exact ⟨rfl, busy⟩
  · exact acts _
  · exact acts _
  · exact acts _
  · exact acts _
  · exact fun k below => (acts _).trans (by rw [plainRegister_keyData s v below, Option.getD_some])
  · intro off odd
    rw [readRegister, if_pos odd]
  · have reads : readRegister 0xE0 s = regWord [(2, fld s.mgmt.killReg.toNat 19 2), (20, if s.mgmt.killBusy then 1 else 0),
        (21, s.mgmt.killStatus), (32, fld s.mgmt.killReg.toNat 63 32)] := by
      simp [readRegister, run]
    rw [reads, regWord, BitVec.toNat_ofNat]
    simp only [List.foldl_cons, List.foldl_nil]
    generalize (if s.mgmt.killBusy = true then 1 else 0) = busy
    omega
  · have reads : readRegister 0x240 s = regWord [(1, if s.mgmt.attBusy then 1 else 0)] := by
      simp [readRegister, run]
    rw [reads]
    cases s.mgmt.attBusy <;> decide
  · simp [readRegister, run, regWord]
  · exact fun k below => readRegister_keyData s below

end Sys2Proof.Machine
end

section
/-! O38. Reset, the boot ROMs and a new split of Pewter (R15, R417, R419). -/

namespace Sys2Proof.Machine

variable {s : State}

/-- Until the firmware runs, a write is ignored (R417). -/
theorem whenRunning_of_not (still : running s = false) (f : State → State) : whenRunning s f = .next s := by
  rw [whenRunning, still]
  rfl

/-- A write-back of dirty lines leaves the bytes as they are. -/
theorem writeBackLines_mem (s : State) (es : Tab Nat) : (es.foldl (fun s e => writeBackLine s e.1) s).mem = s.mem := by
  induction es generalizing s with
  | nil => rfl
  | cons e es ih =>
    rw [List.foldl_cons, ih, writeBackLine]
    dsimp only
    split <;> rfl

/-- A boot ROM's verdict while neither die has failed. -/
theorem execBootVerify_early {d n : Nat} (die : d < 2) (code : n ≤ 4) (early : s.mgmt.bootst < 2) :
    execBootVerify d n s = if n ≠ 0 then .next (setMgmt s (fun m => { m with bootst := 3, bootFail := n }))
      else .next (setMgmt s (fun m => { m with
        bootOk := m.bootOk.set d true, bootst := if (m.bootOk.set d true).all id then 2 else 1 })) := by
  rw [execBootVerify, if_neg (by omega)]

/-- Settles O38: the model's definitions of reset and boot, and a filter of the stored bytes by their home. -/
theorem resetAndBoot : Obligations.ResetAndBoot := by
  intro s
  refine ⟨⟨_, rfl, rfl, rfl, rfl, rfl, rfl, rfl, rfl, rfl, rfl, rfl⟩, ?_, ?_, ?_, ?_, ?_, ?_⟩
  · intro d die before early
    refine (execBootVerify_early die (by decide) early).trans ?_
    rw [if_neg (by decide), setMgmt]
    rcases before with none | other
    · rw [if_pos none, if_pos none, none]
      interval_cases d <;> rfl
    · have some : s.mgmt.bootOk ≠ [false, false] := by
        rw [other]
        interval_cases d <;> decide
      rw [if_neg some, if_neg some, other]
      interval_cases d <;> rfl
  · intro d n die low high early
    refine (execBootVerify_early die high early).trans ?_
    rw [if_pos (by omega)]
    rfl
  · intro failed d n
    exact if_pos (.inr (.inl failed))
  · intro still v k
    have ignored := whenRunning_of_not still
    refine ⟨ignored _, ignored _, ignored _, ?_, ?_, ignored _, ignored (fun s => (plainRegister k v s).getD s),
      ignored (fun s => modDie s k (fun d => { d with events := { d.events with head := v } })), ignored _, ignored _⟩
    · exact (if_congr Iff.rfl (ignored _) rfl).trans (ite_self _)
    · exact (if_congr Iff.rfl (ignored _) rfl).trans (ite_self _)
  · intro still off notId notBoot
    by_cases odd : off % 8 ≠ 0
    · rw [readRegister, if_pos odd]
    · rw [readRegister, if_neg odd, if_neg notId, if_neg notBoot, if_pos (by rw [still]; rfl)]
  · intro n pending gone
    have apply_ : exec .partitionApply s = execPartitionApply s := rfl
    rw [apply_, execPartitionApply]
    simp only [pending, gone, List.isEmpty_nil, Bool.not_true, Bool.false_eq_true, if_false]
    refine ⟨_, rfl, rfl, rfl, fun a => ?_⟩
    rw [writeBackLines_mem]
    refine (tget_filter 0 (fun k => !(homeOf k == 2 || homeOf k == 3)) s.mem a).trans ?_
    by_cases pewter : homeOf a = 2 ∨ homeOf a = 3
    · rw [if_pos pewter, if_neg (by simpa [or_iff_not_imp_left] using pewter)]
    · rw [if_neg pewter, if_pos (by simpa using pewter)]

end Sys2Proof.Machine
end

section
/-! O36. The words of a command chain and of a time-triggered entry (R345, R346, R362). -/

namespace Sys2Proof.Machine

variable {s : State}

/-- The dies after a chain's engine stops waiting (R348). -/
def unstalled (c : ChainId) (en : Bool) (ds : List Die) : List Die :=
  ds.map (fun x => { x with stalled := if en = false ∧ x.stalled = some c then none else x.stalled })

theorem unstalled_enabled (c : ChainId) (ds : List Die) : unstalled c true ds = ds := by
  simp [unstalled]

theorem unstalled_disabled (s : State) (c : ChainId) : dropStall s c = { s with dies := unstalled c false s.dies } := by
  simp [dropStall, unstalled]

/-- A change of an entry that is there replaces it. -/
theorem modify_of_getElem? {α : Type} {l : List α} {k : Nat} {a : α} (found : l[k]? = some a) (f : α → α) :
    l.modify k f = l.set k (f a) := by
  rw [List.modify_eq_set_getElem?, found]
  rfl

/-- The entry that was put into a list, where one stood. -/
theorem getD_set_of_getElem? {α : Type} {l : List α} {k : Nat} {a : α} (found : l[k]? = some a) (b d : α) :
    (l.set k b).getD k d = b := by
  obtain ⟨below, -⟩ := List.getElem?_eq_some_iff.mp found
  rw [List.getD_eq_getElem?_getD, List.getElem?_set_self below]
  rfl

/-- A write of a chain's word changes the chain, and its engine's wait. -/
theorem writeChain_eq {k : Nat} {c : Chain} (found : s.chains[k]? = some c) (v : DWord) :
    let d := chainWord s.mgmt.devValid v.toNat c
    writeChain k v s = { s with chains := s.chains.set k d, dies := unstalled (.host k) d.en s.dies } := by
  intro d
  rw [writeChain, modChain, modify_of_getElem? found]
  dsimp only
  rw [getD_set_of_getElem? found]
  cases en : d.en
  · rw [if_neg (by decide)]
    exact unstalled_disabled _ _
  · rw [if_pos rfl, unstalled_enabled]

/-- A write of an entry's word changes the entry, and its engine's wait. -/
theorem writeTimed_eq {j : Nat} {e : Timed} (found : s.timed[j]? = some e) (v : DWord) :
    let d := timedWord (timeOf s) v.toNat e
    writeTimed j v s = { s with timed := s.timed.set j d, dies := unstalled (.timed j) d.en s.dies } := by
  intro d
  rw [writeTimed, modTimed, modify_of_getElem? found]
  dsimp only
  rw [getD_set_of_getElem? found]
  cases en : d.en
  · rw [if_neg (by decide)]
    exact unstalled_disabled _ _
  · rw [if_pos rfl, unstalled_enabled]

/-- A chain that is enabled keeps its fields but EN (R345). -/
theorem chainWord_enabled {c : Chain} (en : c.en = true) (valid : Bool) (v : Nat) :
    chainWord valid v c = { c with tail := BitVec.ofNat 32 (fld v 63 32), err := c.err && fld v 7 7 == 0, en := fld v 6 6 == 1 } :=
  if_pos en

/-- A chain that is not enabled takes LCAP and DIE, and starts if EN, the device's number and LCAP allow it (R345). -/
theorem chainWord_disabled {c : Chain} (en : c.en = false) (valid : Bool) (v : Nat) :
    let d := { c with tail := BitVec.ofNat 32 (fld v 63 32), err := c.err && fld v 7 7 == 0, lcap := fld v 4 0, die := fld v 5 5 }
    chainWord valid v c =
      if (fld v 6 6 == 1 && valid && decide (fld v 4 0 ≤ 16)) = true then
        { d with en := true, head := d.tail, start := d.tail, epoch := d.epoch + 1, count := 0, done := [], tl := 0, hit := [] }
      else d := by
  intro d
  rw [chainWord]
  dsimp only
  rw [if_neg (by rw [en]; decide)]
  refine if_congr ?_ rfl rfl
  simp [and_assoc]

/-- An entry's word stores its fields, with the floor of an entry that is enabled now (R362). -/
theorem timedWord_eq (now v : Nat) (e : Timed) :
    let en := fld v 0 0 == 1 && (e.en || (decide (10000 ≤ e.period) && decide (e.phase < e.period)))
    let starts := en = true ∧ e.en = false
    timedWord now v e = { e with
      en := en
      mode := fld v 1 1 == 1
      ovr := fld v 63 32
      floor := if starts then now else e.floor
      resubmit := if starts then false else e.resubmit
      stalled := if starts then false else e.stalled } := by
  intro en starts
  rw [timedWord]
  have same : (en = true ∧ (!e.en) = true) ↔ starts := by simp only [starts, Bool.not_eq_true']
  by_cases start : starts
  · simp only [if_pos start]
    rw [if_pos (same.mpr start)]
  · simp only [if_neg start]
    rw [if_neg (mt same.mp start)]

/-- Settles O36: the writes of the two words, once for all their names. -/
theorem chainAndEntryWords : Obligations.ChainAndEntryWords := by
  intro s v run
  have acts := whenRunning_of_running run
  refine ⟨fun k c found => ?_, fun j e found => ?_⟩
  · have written := (acts _).trans (congrArg _ (writeChain_eq found v))
    refine ⟨_, _, written, written, written, rfl, rfl, ?_⟩
    cases en : c.en
    · rw [chainWord_disabled en]
      cases starts : (fld v.toNat 6 6 == 1 && s.mgmt.devValid && decide (fld v.toNat 4 0 ≤ 16))
      · rw [if_neg (by decide)]
        exact ⟨rfl, rfl, fun on => absurd on (by decide), fun _ => ⟨rfl, rfl, en, fun on => absurd (en.symm.trans on) (by decide)⟩⟩
      · rw [if_pos rfl]
        exact ⟨rfl, rfl, fun on => absurd on (by decide), fun _ => ⟨rfl, rfl, rfl, fun _ => ⟨rfl, rfl, rfl, rfl⟩⟩⟩
    · rw [chainWord_enabled en]
      exact ⟨rfl, rfl, fun _ => ⟨rfl, rfl, rfl, rfl, rfl⟩, fun off => absurd off (by decide)⟩
  · have written := (acts _).trans (congrArg _ (writeTimed_eq found v))
    refine ⟨_, _, written, written, rfl, rfl, ?_⟩
    rw [timedWord_eq]
    exact ⟨rfl, rfl, rfl, rfl, rfl, rfl, rfl⟩

end Sys2Proof.Machine
end

section
/-! What the launch engines' own accesses leave as it is: the completion records, and the events of their levels (R355, R357). -/

namespace Sys2Proof.Machine

variable {s t u : State}

/-- A die but for its event queue. -/
def Die.but (d : Die) : Die := { d with events := HostRing.reset }

/-- A launch but for the condition at its completion record. -/
def Launch.but (l : Launch) : Launch := { l with crecBad := false }

/-- Nothing has changed but memory, the caches, the directory and its messages, the events that wait and the conditions at completion
records; memory keeps its form. -/
structure Quiet (s t : State) : Prop where
  teams : t.teams = s.teams
  cores : t.cores = s.cores
  mgmt : t.mgmt = s.mgmt
  dies : t.dies.map Die.but = s.dies.map Die.but
  launches : t.launches.map Launch.but = s.launches.map Launch.but
  wf : Memory.wf s.mem = true → Memory.wf t.mem = true

theorem Quiet.refl (s : State) : Quiet s s := ⟨rfl, rfl, rfl, rfl, rfl, id⟩

theorem Quiet.trans (h : Quiet s t) (k : Quiet t u) : Quiet s u :=
  ⟨k.teams.trans h.teams, k.cores.trans h.cores, k.mgmt.trans h.mgmt, k.dies.trans h.dies, k.launches.trans h.launches, k.wf ∘ h.wf⟩

theorem Quiet.foldl {β : Type} (l : List β) (f : State → β → State) (h : ∀ s b, Quiet s (f s b)) (s : State) : Quiet s (l.foldl f s) := by
  induction l generalizing s with
  | nil => exact Quiet.refl s
  | cons b l ih => exact (h s b).trans (ih _)

theorem Lines.quiet (h : Lines s t) : Quiet s t := by
  obtain ⟨teams, cores, dies, -, -, launches, -, mgmt⟩ := h.rest
  exact ⟨teams, cores, mgmt, congrArg _ dies, congrArg _ launches, h.wf⟩

theorem homeWrite_quiet (s : State) (ctx : Nat) (l : Line) (loc : Loc) (bytes : List (Nat × Byte)) (b : Bool) (cause : Nat)
    (core : Option Nat) (hist : List (Nat × List (Byte × Nat))) : Quiet s (homeWrite s ctx l loc bytes b cause core hist) := by
  obtain ⟨⟨teams, cores, dies, launches, mgmt, -⟩, wf, -⟩ := homeWrite_shape s ctx l loc bytes b cause core hist
  exact ⟨teams, cores, mgmt, congrArg _ dies, congrArg _ launches, wf⟩

/-- An ATOMIC of the engine that meets no condition. -/
theorem engineAtomic_quiet {ctx a n : Nat} {f : Nat → List (Nat × Byte)} (ok : engineAtomic s ctx a n f = .ok t) : Quiet s t := by
  unfold engineAtomic at ok
  split at ok
  · cases ok
  · split at ok
    · cases ok
    · next loc _ =>
      split at ok
      · cases ok
      · cases ok
        have numbered : Quiet s { s with fresh := s.fresh + 1 } := ⟨rfl, rfl, rfl, rfl, rfl, id⟩
        exact numbered.trans ((markLeaf_lines _ loc true).quiet.trans
          ((touchLine_cached _ ctx loc).1.quiet.trans (homeWrite_quiet _ ..)))

theorem modDie_but (s : State) (d : Nat) (f : Die → Die) (h : ∀ x, (f x).but = x.but) :
    (modDie s d f).dies.map Die.but = s.dies.map Die.but := by
  rw [modDie]
  dsimp only
  induction s.dies generalizing d with
  | nil => simp
  | cons x ds ih => cases d <;> simp [h, ih]

theorem postEvent_quiet (s : State) (d e : Nat) : Quiet s (postEvent s d e).1 :=
  ⟨rfl, rfl, rfl, modDie_but s d _ fun _ => rfl, rfl, id⟩

theorem errorEvent_quiet (s : State) (d a : Nat) : Quiet s (errorEvent s d a) := postEvent_quiet s d _

/-- A condition at a completion record stops the engine's writes to it. -/
theorem crecBad_quiet (s : State) (id : Nat) : Quiet s (modLaunch s id (fun l => { l with crecBad := true })) := by
  refine ⟨rfl, rfl, rfl, rfl, ?_, fun wf => wf⟩
  rw [modLaunch, modWhere, List.map_map]
  refine List.map_congr_left fun l _ => ?_
  rw [Function.comp_apply]
  split <;> rfl

theorem crecWrite_quiet (s : State) (id : Nat) (f : Nat → List (Nat × Byte)) : Quiet s (crecWrite s id f) := by
  have numbered : Quiet s { s with fresh := s.fresh + 1 } := ⟨rfl, rfl, rfl, rfl, rfl, fun wf => wf⟩
  unfold crecWrite
  split
  · exact Quiet.refl s
  · dsimp only
    split
    · exact numbered
    · split
      · next ok => exact engineAtomic_quiet ok
      · exact numbered.trans ((crecBad_quiet _ id).trans (errorEvent_quiet ..))

theorem crecRefuse_quiet (s : State) (d ctx r code : Nat) : Quiet s (crecRefuse s d ctx r code) := by
  unfold crecRefuse
  dsimp only
  split
  · exact Quiet.refl s
  · split
    · next ok => exact engineAtomic_quiet ok
    · exact errorEvent_quiet ..

theorem raiseLevel_quiet (s : State) (l : Launch) (kind bit band code data cause : Nat) :
    Quiet s (raiseLevel s l kind bit band code data cause) := by
  have posted : Quiet s (if recBit l.raw bit then postEvent s l.die (eventEntry kind band code data (recCrec l.raw)) else (s, 0)).1 := by
    split
    · exact postEvent_quiet ..
    · exact Quiet.refl s
  unfold raiseLevel
  dsimp only
  split
  · exact ⟨posted.teams, posted.cores, posted.mgmt, posted.dies, posted.launches, posted.wf⟩
  · exact posted

theorem chainDone_quiet (s : State) (k no epoch : Nat) : Quiet s (chainDone s k no epoch) := by
  unfold chainDone
  dsimp only
  split
  · exact Quiet.refl s
  · generalize hc : (Chain.mk ..) = c
    have set : Quiet s { s with chains := s.chains.set k c } := ⟨rfl, rfl, rfl, rfl, rfl, fun wf => wf⟩
    split
    · exact set
    · split
      · next ok => exact set.trans (engineAtomic_quiet ok)
      · exact set.trans (errorEvent_quiet ..)

/-- The launches that the engine knows keep their numbers and their marks. -/
theorem Quiet.findLaunch (h : Quiet s t) (id : Nat) :
    (findLaunch t id).map Launch.but = (Machine.findLaunch s id).map Launch.but := by
  have ids (ls : List Launch) : (ls.find? (fun l => l.id == id)).map Launch.but = (ls.map Launch.but).find? (fun l => l.id == id) := by
    rw [List.find?_map]
    rfl
  rw [Machine.findLaunch, Machine.findLaunch, ids, ids, h.launches]

/-- The pools keep the records that wait (R359). -/
theorem Quiet.pools (h : Quiet s t) : t.dies.map Die.pool = s.dies.map Die.pool := by
  have pools (ds : List Die) : ds.map Die.pool = (ds.map Die.but).map Die.pool := by
    rw [List.map_map]
    rfl
  rw [pools t.dies, h.dies, ← pools s.dies]

end Sys2Proof.Machine
end

section
/-! O37. Kills and key operations (R404, R420). -/

namespace Sys2Proof.Machine

variable {s t : State} {v : DWord}

-- What a kill does to a team

/-- The lane no longer waits (R84, R420). -/
theorem Team.kill_unblocked (x : Team) : ∀ g ∈ x.kill.gangs, ∀ l ∈ g.lanes, ∀ w, l.st ≠ .blocked w := by
  intro g inGangs l inLanes w
  obtain ⟨g', -, rfl⟩ := List.mem_map.mp inGangs
  obtain ⟨l', -, rfl⟩ := List.mem_map.mp inLanes
  split
  · next w' blocked => simp [Lane.yldPoint, blocked]
  · next free => exact free w

/-- A team is killed and waits on nothing. -/
def Killed (x : Team) : Prop := x.killPending = true ∧ ∀ g ∈ x.gangs, ∀ l ∈ g.lanes, ∀ w, l.st ≠ .blocked w

theorem killed_kill (x : Team) : Killed x.kill := ⟨rfl, x.kill_unblocked⟩

/-- The teams with those killed that `p` names. -/
def killTeams (p : Team → Bool) (ts : List Team) : List Team := ts.map (fun x => if p x = true then x.kill else x)

/-- Each team of the result that `p` names is killed, where `p` reads what a kill leaves. -/
theorem killTeams_killed {p : Team → Bool} {ts : List Team} {x : Team} (mem : x ∈ killTeams p ts) (named : p x = true) : Killed x := by
  obtain ⟨y, -, rfl⟩ := List.mem_map.mp mem
  by_cases py : p y = true
  · rw [if_pos py]
    exact killed_kill y
  · rw [if_neg py] at named
    exact absurd named py

-- What a kill does to a launch

/-- The launch that a change finds. -/
theorem findLaunch_modLaunch (s : State) (id : Nat) (f : Launch → Launch) (keeps : ∀ l, (f l).id = l.id) (k : Nat) :
    findLaunch (modLaunch s id f) k = (findLaunch s k).map (fun l => if l.id == id then f l else l) :=
  find_modWhere (fun l : Launch => l.id == id) (fun l => l.id == k) f s.launches fun l => by rw [keeps l]

/-- A change of a launch that keeps its mark keeps every mark. -/
theorem modLaunch_killed (s : State) (id : Nat) (f : Launch → Launch) (keeps : ∀ l, (f l).id = l.id ∧ (f l).killed = l.killed) (k : Nat) :
    (findLaunch (modLaunch s id f) k).map Launch.killed = (findLaunch s k).map Launch.killed := by
  rw [findLaunch_modLaunch s id f (fun l => (keeps l).1), Option.map_map]
  refine congrFun (congrArg Option.map (funext fun x => ?_)) _
  rw [Function.comp_apply]
  split
  · exact (keeps x).2
  · rfl

/-- A quiet step keeps the launches' marks. -/
theorem Quiet.killed (h : Quiet s t) (k : Nat) : (Machine.findLaunch t k).map Launch.killed = (Machine.findLaunch s k).map Launch.killed := by
  have marks (o : Option Launch) : o.map Launch.killed = (o.map Launch.but).map Launch.killed := by
    rw [Option.map_map]
    rfl
  rw [marks, h.findLaunch, ← marks]

/-- Counting a team out changes no team and no mark of a launch. -/
structure Counted (s t : State) : Prop where
  teams : t.teams = s.teams
  mgmt : t.mgmt = s.mgmt
  killed : ∀ k, (findLaunch t k).map Launch.killed = (findLaunch s k).map Launch.killed

theorem Counted.trans {u : State} (h : Counted s t) (k : Counted t u) : Counted s u :=
  ⟨k.teams.trans h.teams, k.mgmt.trans h.mgmt, fun n => (k.killed n).trans (h.killed n)⟩

theorem Counted.foldl {β : Type} (l : List β) (f : State → β → State) (h : ∀ s b, Counted s (f s b)) (s : State) :
    Counted s (l.foldl f s) := by
  induction l generalizing s with
  | nil => exact ⟨rfl, rfl, fun _ => rfl⟩
  | cons b l ih => exact (h s b).trans (ih _)

theorem Quiet.counted (h : Quiet s t) : Counted s t := ⟨h.teams, h.mgmt, h.killed⟩

theorem modLaunch_counted (s : State) (id : Nat) (f : Launch → Launch) (keeps : ∀ l, (f l).id = l.id ∧ (f l).killed = l.killed) :
    Counted s (modLaunch s id f) :=
  ⟨rfl, rfl, modLaunch_killed s id f keeps⟩

theorem countEnd_counted (s : State) (id band tid code : Nat) : Counted s (countEnd s id band tid code) := by
  unfold countEnd
  split
  · exact (Quiet.refl s).counted
  · next l _ =>
    dsimp only
    refine ((crecWrite_quiet s l.id _).counted.trans (modLaunch_counted _ l.id _ fun x => ?_)).trans (raiseLevel_quiet _ l ..).counted
    split <;> exact ⟨rfl, rfl⟩

/-- A launch that was not killed is now, and so are its teams. -/
theorem killLaunch_found {reg : Bool} {id : Nat} {l : Launch} (found : findLaunch s id = some l) (live : l.killed = false) :
    (∃ m, findLaunch (killLaunch reg s id) id = some m ∧ m.killed = true) ∧ (killLaunch reg s id).mgmt = s.mgmt ∧
      (killLaunch reg s id).teams = killTeams (fun x => decide (x.launch = id)) s.teams := by
  unfold killLaunch
  rw [found]
  dsimp only
  rw [if_neg (by rw [live]; decide)]
  generalize (List.foldl min (_ : Nat) _) = low
  generalize hm : modLaunch s id (fun l => { l with killed := true, killTid := if reg then some low else none }) = marked
  have mark : (findLaunch marked id).map Launch.killed = some true := by
    have own : (l.id == id) = true := List.find?_some (p := fun l : Launch => l.id == id) found
    rw [← hm, findLaunch_modLaunch s id _ (by intro; rfl), found, Option.map_some, if_pos own]
    rfl
  generalize hk : ({ marked with teams := marked.teams.map (fun t => if t.launch = id then t.kill else t) } : State) = slain
  have counted : Counted slain (modLaunch ((List.range (if l.nores = true then 0 else recTeams l.raw - l.admitted)).foldl
      (fun s j => countEnd s id 0 (l.admitted + j) 16) slain) id
      (fun l => { l with admitted := if l.nores then l.admitted else recTeams l.raw })) :=
    (Counted.foldl _ _ (fun s j => countEnd_counted s id 0 (l.admitted + j) 16) slain).trans
      (modLaunch_counted _ id _ fun _ => ⟨rfl, rfl⟩)
  refine ⟨?_, counted.mgmt.trans (by rw [← hk, ← hm]; rfl), counted.teams.trans (by rw [← hk, ← hm]; simp [killTeams])⟩
  have kept := (counted.killed id).trans ((by rw [← hk]; rfl : _ = (findLaunch marked id).map Launch.killed).trans mark)
  exact Option.map_eq_some_iff.mp kept

-- What a kill of a context discards

/-- A team's launches that were not accepted are gone. -/
structure Discarded (u : Nat) (s : State) : Prop where
  pend : ∀ x ∈ s.teams, x.uid = u → x.pend = []
  pool : ∀ d ∈ s.dies, ∀ r ∈ d.pool, r.1 ≠ u

theorem Discarded.poolOf {u : Nat} (h : Discarded u s) : poolOf s u = [] := by
  have none : s.dies.flatMap (fun d => d.pool.filter (fun x => x.1 == u)) = [] := by
    rw [List.flatMap_eq_nil_iff]
    intro d mem
    rw [List.filter_eq_nil_iff]
    intro r inPool
    simpa using h.pool d mem r inPool
  rw [Machine.poolOf, none]
  rfl

/-- What discarding leaves of the teams and of the pools. -/
theorem discardLaunches_eq (s : State) (d : Nat) (x : Team) :
    (discardLaunches s d x).teams = modWhere (fun y => y.uid == x.uid) (fun y => { y with pend := [] }) s.teams ∧
    (discardLaunches s d x).dies.map Die.pool = s.dies.map (fun y => y.pool.filter (fun r => !(r.1 == x.uid))) ∧
    (discardLaunches s d x).mgmt = s.mgmt := by
  have told := Quiet.foldl (x.pend ++ (poolOf s x.uid).map (fun x => x.2.2.1)) (fun s r => crecRefuse s d x.ctx r 5)
    (fun s r => crecRefuse_quiet s d x.ctx r 5) s
  refine ⟨?_, ?_, told.mgmt⟩
  · rw [discardLaunches, modTeam, dropPool]
    exact congrArg _ told.teams
  · have pools := congrArg (List.map (List.filter (fun r => !(r.1 == x.uid)))) told.pools
    rw [List.map_map, List.map_map] at pools
    rw [discardLaunches, modTeam, dropPool]
    dsimp only
    rw [List.map_map]
    exact pools

theorem discardLaunches_discarded (s : State) (d : Nat) (x : Team) : Discarded x.uid (discardLaunches s d x) := by
  obtain ⟨teams, pools, -⟩ := discardLaunches_eq s d x
  refine ⟨fun y mem own => ?_, fun y mem r inPool own => ?_⟩
  · rw [teams] at mem
    obtain ⟨z, -, rfl⟩ := List.mem_map.mp mem
    by_cases same : (z.uid == x.uid) = true
    · rw [if_pos same]
    · rw [if_neg same] at own
      exact absurd (beq_iff_eq.mpr own) same
  · have inPools : y.pool ∈ (discardLaunches s d x).dies.map Die.pool := List.mem_map_of_mem mem
    rw [pools] at inPools
    obtain ⟨z, -, eq⟩ := List.mem_map.mp inPools
    rw [← eq] at inPool
    have other := (List.mem_filter.mp inPool).2
    rw [own] at other
    simp at other

theorem Discarded.discardLaunches {u : Nat} (h : Discarded u s) (d : Nat) (x : Team) : Discarded u (discardLaunches s d x) := by
  obtain ⟨teams, pools, -⟩ := discardLaunches_eq s d x
  refine ⟨fun y mem own => ?_, fun y mem r inPool => ?_⟩
  · rw [teams] at mem
    obtain ⟨z, inTeams, rfl⟩ := List.mem_map.mp mem
    by_cases same : (z.uid == x.uid) = true
    · rw [if_pos same]
    · rw [if_neg same] at own ⊢
      exact h.pend z inTeams own
  · have inPools : y.pool ∈ (Machine.discardLaunches s d x).dies.map Die.pool := List.mem_map_of_mem mem
    rw [pools] at inPools
    obtain ⟨z, inDies, eq⟩ := List.mem_map.mp inPools
    rw [← eq] at inPool
    exact h.pool z inDies r (List.mem_filter.mp inPool).1

/-- After all the teams of a list have been dealt with, the launches of each are gone. -/
theorem discardAll (xs : List Team) (s : State) :
    (∀ x ∈ xs, Discarded x.uid (xs.foldl (fun s x => discardLaunches s x.die x) s)) ∧
    (xs.foldl (fun s x => discardLaunches s x.die x) s).mgmt = s.mgmt ∧
    ∀ y ∈ (xs.foldl (fun s x => discardLaunches s x.die x) s).teams, ∃ z ∈ s.teams, z.uid = y.uid ∧ z.ctx = y.ctx := by
  induction xs generalizing s with
  | nil => exact ⟨by simp, rfl, fun y mem => ⟨y, mem, rfl, rfl⟩⟩
  | cons x xs ih =>
    obtain ⟨gone, mgmt, from_⟩ := ih (discardLaunches s x.die x)
    obtain ⟨teams, -, same⟩ := discardLaunches_eq s x.die x
    have stays (ys : List Team) (s : State) (d : Discarded x.uid s) :
        Discarded x.uid (ys.foldl (fun s x => discardLaunches s x.die x) s) :=
      List.foldlRecOn ys _ d fun _ h y _ => h.discardLaunches y.die y
    refine ⟨fun y mem => ?_, mgmt.trans same, fun y mem => ?_⟩
    · rcases List.mem_cons.mp mem with rfl | later
      · exact stays xs _ (discardLaunches_discarded s _ _)
      · exact gone y later
    · obtain ⟨z, inTeams, uid, ctx⟩ := from_ y mem
      rw [teams] at inTeams
      obtain ⟨w, inOld, rfl⟩ := List.mem_map.mp inTeams
      refine ⟨w, inOld, uid.symm.trans ?_ |>.symm, ctx.symm.trans ?_ |>.symm⟩
      · split <;> rfl
      · split <;> rfl

-- The kill register

/-- The kill register's word, as it is kept. -/
def killWord (v : DWord) : DWord := BitVec.ofNat 64 (v.toNat / 4 % 2 ^ 18 * 4 + v.toNat / 2 ^ 32 * 2 ^ 32)

/-- The kill register holds a word. -/
def killKept (s : State) (r : DWord) : State := setMgmt s (fun m => { m with killReg := r })

theorem findLaunch_killKept (s : State) (r : DWord) (id : Nat) : findLaunch (killKept s r) id = findLaunch s id := rfl

/-- The teams that a kill waits for, and the status (R420). -/
def killEnd (p : Team → Bool) (status : Nat) (s : State) : State :=
  setMgmt s (fun m => { m with
    killStatus := status
    killWait := (s.teams.filter p).map (·.uid)
    killBusy := !((s.teams.filter p).map (·.uid)).isEmpty })

/-- A team that the kill names is waited for. -/
theorem killEnd_waits {p : Team → Bool} {status : Nat} {x : Team} (mem : x ∈ (killEnd p status s).teams) (named : p x = true) :
    x.uid ∈ (killEnd p status s).mgmt.killWait :=
  List.mem_map_of_mem (List.mem_filter.mpr ⟨mem, named⟩)

/-- A kill of launches. -/
theorem writeKill_launches (idle : s.mgmt.killBusy = false) (op : fld v.toNat 1 0 = 1 ∨ fld v.toNat 1 0 = 3) :
    writeKill v s = killEnd (fun t => (killTargets s v.toNat).1.contains t.launch) (killTargets s v.toNat).2
      ((killTargets s v.toNat).1.foldl (killLaunch true) (killKept s (killWord v))) := by
  have notCtx : (fld v.toNat 1 0 == 2) = false := by
    rcases op with op | op <;> rw [op] <;> rfl
  have acts : ¬ (s.mgmt.killBusy = true ∨ fld v.toNat 1 0 = 0) := by
    rw [idle]
    rintro (busy | zero)
    · exact absurd busy (by decide)
    · omega
  rw [writeKill]
  dsimp only
  rw [if_neg acts]
  simp only [notCtx, Bool.false_and, Bool.or_false, Bool.false_eq_true, if_false]
  rfl

/-- A kill of a context. -/
theorem writeKill_context (idle : s.mgmt.killBusy = false) (op : fld v.toNat 1 0 = 2) :
    let slain := (killTargets s v.toNat).1.foldl (killLaunch true) (killKept s (killWord v))
    let gone := (slain.teams.filter (fun t => t.ctx == fld v.toNat 13 6)).foldl (fun s t => discardLaunches s t.die t) slain
    writeKill v s = killEnd (fun t => (killTargets s v.toNat).1.contains t.launch || t.ctx == fld v.toNat 13 6)
      (killTargets s v.toNat).2
      { gone with teams := killTeams (fun t => decide (t.ctx = fld v.toNat 13 6)) gone.teams } := by
  intro slain gone
  have acts : ¬ (s.mgmt.killBusy = true ∨ fld v.toNat 1 0 = 0) := by
    rw [idle, op]
    decide
  rw [writeKill]
  dsimp only
  rw [if_neg acts]
  simp only [op, killTeams, decide_eq_true_eq]
  rfl

/-- A kill of a context finds it where a launch or a team of it is. -/
theorem killTargets_context (op : fld v.toNat 1 0 = 2) : (killTargets s v.toNat).2 =
    if (∃ l ∈ s.launches, l.ctx = fld v.toNat 13 6) ∨ (∃ x ∈ s.teams, x.ctx = fld v.toNat 13 6) then 0 else 1 := by
  have targets : (killTargets s v.toNat).2 =
      if (((s.launches.filter (fun l => l.ctx == fld v.toNat 13 6)).map (·.id)).isEmpty &&
        !s.teams.any (fun t => t.ctx == fld v.toNat 13 6)) = true then 1 else 0 := by
    rw [killTargets, op]
    rfl
  have missing : (((s.launches.filter (fun l => l.ctx == fld v.toNat 13 6)).map (·.id)).isEmpty &&
      !s.teams.any (fun t => t.ctx == fld v.toNat 13 6)) = true ↔
      ¬ ((∃ l ∈ s.launches, l.ctx = fld v.toNat 13 6) ∨ (∃ x ∈ s.teams, x.ctx = fld v.toNat 13 6)) := by
    simp
  rw [targets, if_congr missing rfl rfl, ite_not]

/-- No launch of the chain is there: it has completed, or never was. -/
theorem killTargets_noLaunch (op : fld v.toNat 1 0 = 1) (none : ∀ l ∈ s.launches, l.chain ≠ .host (fld v.toNat 5 2)) :
    killTargets s v.toNat = ([], let c := s.chains.getD (fld v.toNat 5 2) Chain.reset
      if (1 ≤ fld v.toNat 63 32 ∧ fld v.toNat 63 32 ≤ c.count) ∨ 2 ^ 32 ≤ c.count then 2 else 1) := by
  have missing : s.launches.find? (fun l => l.chain == .host (fld v.toNat 5 2) && l.no % 2 ^ 32 == fld v.toNat 63 32 &&
      l.epoch == (s.chains.getD (fld v.toNat 5 2) Chain.reset).epoch) = Option.none := by
    rw [List.find?_eq_none]
    intro l mem
    simp [none l mem]
  rw [killTargets, op]
  simp only [missing]

/-- No launch of the entry is there: it has completed, or never was. -/
theorem killTargets_noEntry (op : fld v.toNat 1 0 = 3)
    (none : ∀ id, (s.timed.getD (fld v.toNat 19 14) Timed.reset).started = some id → findLaunch s id = none) :
    killTargets s v.toNat = ([], if (s.timed.getD (fld v.toNat 19 14) Timed.reset).started = .none then 1 else 2) := by
  rw [killTargets, op]
  dsimp only
  cases started : (s.timed.getD (fld v.toNat 19 14) Timed.reset).started with
  | none => rfl
  | some id => simp [none id started]

/-- A kill of one launch. -/
theorem killed_launch {id : Nat} {l : Launch} (idle : s.mgmt.killBusy = false) (op : fld v.toNat 1 0 = 1 ∨ fld v.toNat 1 0 = 3)
    (targets : killTargets s v.toNat = ([id], 0)) (found : findLaunch s id = some l) (live : l.killed = false) :
    ∃ t, writeKill v s = t ∧ (∃ m, findLaunch t id = some m ∧ m.killed = true) ∧ t.mgmt.killStatus = 0 ∧
      (∀ x ∈ t.teams, x.launch = id → Killed x ∧ x.uid ∈ t.mgmt.killWait) ∧ t.mgmt.killBusy = !t.mgmt.killWait.isEmpty := by
  obtain ⟨launch, -, teams⟩ := killLaunch_found (reg := true) ((findLaunch_killKept s (killWord v) id).trans found) live
  have eq := writeKill_launches idle op
  rw [targets, List.foldl_cons, List.foldl_nil] at eq
  generalize killLaunch true (killKept s (killWord v)) id = slain at *
  refine ⟨_, eq, launch, rfl, fun x mem own => ⟨?_, killEnd_waits mem (by simp [own])⟩, rfl⟩
  exact killTeams_killed (teams ▸ mem) (decide_eq_true own)

/-- A kill that finds nothing waits for nothing. -/
theorem killEnd_none (s : State) (r : DWord) (status : Nat) :
    let t := killEnd (fun _ => false) status (killKept s r)
    t.teams = s.teams ∧ t.launches = s.launches ∧ t.mem = s.mem ∧ t.mgmt.killBusy = false ∧ t.mgmt.killStatus = status :=
  ⟨rfl, rfl, rfl, by simp [killEnd, setMgmt], rfl⟩

/-- A kill that names no launch that runs. -/
theorem killed_none {status : Nat} (idle : s.mgmt.killBusy = false) (op : fld v.toNat 1 0 = 1 ∨ fld v.toNat 1 0 = 3)
    (targets : killTargets s v.toNat = ([], status)) :
    ∃ t, writeKill v s = t ∧ t.teams = s.teams ∧ t.launches = s.launches ∧ t.mem = s.mem ∧ t.mgmt.killBusy = false ∧
      t.mgmt.killStatus = status := by
  refine ⟨_, ?_, killEnd_none s (killWord v) status⟩
  rw [writeKill_launches idle op, targets]
  rfl

-- The key register

/-- A key operation, while none is in progress (R404). -/
theorem writeKeyCtl_idle (idle : s.mgmt.keyBusy = false) (op : fld v.toNat 9 8 = 1 ∨ fld v.toNat 9 8 = 2) :
    writeKeyCtl v s = if s.teams.any (fun t => t.ctx == fld v.toNat 7 0) = true then
        { s with mgmt := { s.mgmt with keyCtl := fld v.toNat 7 0, keyStatus := 1 } }
      else if fld v.toNat 9 8 = 2 ∧ (!s.mgmt.keys.contains (fld v.toNat 7 0)) = true then
        { s with mgmt := { s.mgmt with keyCtl := fld v.toNat 7 0, keyStatus := 2 } }
      else { s with mgmt := { s.mgmt with keyCtl := fld v.toNat 7 0, keyBusy := true, keyOp := fld v.toNat 9 8 } } := by
  rw [writeKeyCtl, if_neg (by rw [idle]; decide)]
  dsimp only
  rw [if_neg (by omega)]
  rfl

/-- What a change of its key scrambles of a context; nothing, where nothing is under the key. -/
theorem scramble_kept (s : State) (ctx : Nat) : (scramble s ctx).mgmt = s.mgmt ∧ (scramble s ctx).teams = s.teams ∧
    (scramble s ctx).pieceKey = s.pieceKey ∧ ((∀ e ∈ s.pieceKey, e.2 ≠ ctx + 1) → (scramble s ctx).mem = s.mem) := by
  unfold scramble
  refine ⟨?_, ?_, ?_, fun free => ?_⟩
  case _ =>
    refine List.foldlRecOn _ _ (motive := fun t : State => t.mgmt = s.mgmt) rfl fun t same e _ => ?_
    dsimp only
    split <;> exact same
  case _ =>
    refine List.foldlRecOn _ _ (motive := fun t : State => t.teams = s.teams) rfl fun t same e _ => ?_
    dsimp only
    split <;> exact same
  case _ =>
    refine List.foldlRecOn _ _ (motive := fun t : State => t.pieceKey = s.pieceKey) rfl fun t same e _ => ?_
    dsimp only
    split <;> exact same
  case _ =>
    have none : s.pieceKey.filter (fun e => e.2 == ctx + 1) = [] := by
      rw [List.filter_eq_nil_iff]
      intro e mem
      simpa using free e mem
    rw [none]
    rfl

/-- What stays while lines leave the memory-side cache; the bytes too, where HBM holds no older ones. -/
structure Dropped (s t : State) : Prop where
  mgmt : t.mgmt = s.mgmt
  teams : t.teams = s.teams
  keys : t.pieceKey = s.pieceKey
  mem : (∀ n, tget [] s.older n = []) → t.mem = s.mem ∧ ∀ n, tget [] t.older n = []

theorem Dropped.trans {u : State} (h : Dropped s t) (k : Dropped t u) : Dropped s u :=
  ⟨k.mgmt.trans h.mgmt, k.teams.trans h.teams, k.keys.trans h.keys, fun none =>
    ⟨(k.mem (h.mem none).2).1.trans (h.mem none).1, (k.mem (h.mem none).2).2⟩⟩

theorem dropMscLine_dropped (s : State) (n : Nat) : Dropped s (dropMscLine s n) := by
  unfold dropMscLine
  split
  · exact ⟨rfl, rfl, rfl, fun none => ⟨rfl, none⟩⟩
  · dsimp only
    have stays (none : ∀ n, tget [] s.older n = []) (k : Nat) : tget [] (tput [] s.older n []) k = [] := by
      rw [tget_tput, none k, ite_self]
    split
    · exact ⟨rfl, rfl, rfl, fun none => ⟨rfl, stays none⟩⟩
    · next older => exact ⟨rfl, rfl, rfl, fun none => absurd (none n) older⟩

/-- A key operation that is done. -/
theorem keyOperationDone_done (busy : s.mgmt.keyBusy = true) :
    ∃ t, exec .keyOperationDone s = .next t ∧ t.mgmt.keyBusy = false ∧ t.mgmt.keyStatus = 0 ∧
      (∀ k, k ≠ s.mgmt.keyCtl → (k ∈ t.mgmt.keys ↔ k ∈ s.mgmt.keys)) ∧ (s.mgmt.keyCtl ∈ t.mgmt.keys ↔ s.mgmt.keyOp = 1) ∧
      t.teams = s.teams ∧ t.pieceKey = s.pieceKey ∧
      (s.mgmt.keyOp = 1 → (∀ e ∈ s.pieceKey, e.2 ≠ s.mgmt.keyCtl + 1) → t.mem = s.mem) ∧
      (s.mgmt.keyOp ≠ 1 → (∀ n, tget [] s.older n = []) → t.mem = s.mem) := by
  have start : exec .keyOperationDone s = execKeyOperationDone s := rfl
  rw [start, execKeyOperationDone, if_neg (by rw [busy]; decide)]
  dsimp only
  by_cases install : s.mgmt.keyOp = 1
  · rw [if_pos install]
    obtain ⟨-, teams, keys, mem⟩ := scramble_kept s s.mgmt.keyCtl
    refine ⟨_, rfl, rfl, rfl, fun k other => ?_, ?_, teams, keys, fun _ => mem, fun destroy => absurd install destroy⟩
    · simp [setMgmt, other]
    · simp [setMgmt, install]
  · rw [if_neg install]
    generalize hu : ({ s with msc := _ } : State) = u
    generalize (List.flatMap _ s.msc) = gone
    have dropped : Dropped u (gone.foldl dropMscLine u) :=
      List.foldlRecOn gone dropMscLine ⟨rfl, rfl, rfl, fun none => ⟨rfl, none⟩⟩ fun t so n _ => so.trans (dropMscLine_dropped t n)
    subst hu
    refine ⟨_, rfl, rfl, rfl, fun k other => ?_, ?_, dropped.teams, dropped.keys, fun op => absurd op install,
      fun _ none => (dropped.mem none).1⟩
    · simp [setMgmt, other]
    · simp [setMgmt, install]

/-- Settles O37: a kill by the lemmas on launches and discarded records, and the key operations by their definitions. -/
theorem killsAndKeys : Obligations.KillsAndKeys := by
  intro s v
  refine ⟨?_, ?_, ?_, ?_, ?_, ?_, ?_, ?_, ?_, ?_⟩
  · intro run idle op
    refine ⟨_, (if_pos op).trans ((whenRunning_of_running run _).trans (congrArg _ (writeKill_context idle op))), ?_, ?_, rfl⟩
    · exact killTargets_context op
    · intro x mem ctx
      have killed := killTeams_killed mem (decide_eq_true ctx)
      have waits := killEnd_waits mem (by rw [ctx, BEq.rfl, Bool.or_true])
      obtain ⟨y, inGone, rfl⟩ := List.mem_map.mp mem
      obtain ⟨gone, -, from_⟩ := discardAll
        (((killTargets s v.toNat).1.foldl (killLaunch true) (killKept s (killWord v))).teams.filter (fun t => t.ctx == fld v.toNat 13 6))
        ((killTargets s v.toNat).1.foldl (killLaunch true) (killKept s (killWord v)))
      obtain ⟨z, inSlain, uid, own⟩ := from_ y inGone
      have mine : y.ctx = fld v.toNat 13 6 := by
        by_cases named : decide (y.ctx = fld v.toNat 13 6) = true
        · exact of_decide_eq_true named
        · rw [if_neg named] at ctx
          exact ctx
      have discarded := gone z (List.mem_filter.mpr ⟨inSlain, by rw [own, mine]; exact BEq.rfl⟩)
      rw [uid] at discarded
      rw [if_pos (decide_eq_true mine)] at killed waits ⊢
      exact ⟨killed.1, waits, discarded.pend y inGone rfl, discarded.poolOf, killed.2⟩
  · intro l run idle op target found live
    have targets : killTargets s v.toNat = ([l.id], 0) := by
      rw [killTargets, op]
      simp only [target]
    obtain ⟨t, written, ⟨m, found, killed⟩, status, teams, busy⟩ := killed_launch idle (.inl op) targets found live
    refine ⟨t, m, (if_pos op).trans ((whenRunning_of_running run _).trans (congrArg _ written)), found, killed, status, ?_, busy⟩
    intro x mem own
    obtain ⟨⟨pending, free⟩, waits⟩ := teams x mem own
    exact ⟨pending, waits, free⟩
  · intro run idle op none
    obtain ⟨t, written, kept⟩ := killed_none idle (.inl op) (killTargets_noLaunch op none)
    exact ⟨t, (if_pos op).trans ((whenRunning_of_running run _).trans (congrArg _ written)), kept⟩
  · intro id l run idle op start found live
    have targets : killTargets s v.toNat = ([id], 0) := by
      rw [killTargets, op]
      simp only [start, found, Option.isSome_some, if_true]
    obtain ⟨t, written, ⟨m, found, killed⟩, status, teams, busy⟩ := killed_launch idle (.inr op) targets found live
    refine ⟨t, m, (if_pos op).trans ((whenRunning_of_running run _).trans (congrArg _ written)), found, killed, status, ?_, busy⟩
    intro x mem own
    obtain ⟨⟨pending, -⟩, waits⟩ := teams x mem own
    exact ⟨pending, waits⟩
  · intro run idle op none
    obtain ⟨t, written, kept⟩ := killed_none idle (.inr op) (killTargets_noEntry op none)
    exact ⟨t, (if_pos op).trans ((whenRunning_of_running run _).trans (congrArg _ written)), kept⟩
  · intro run idle op free
    refine (if_pos op).trans ((whenRunning_of_running run _).trans (congrArg _ ?_))
    rw [writeKeyCtl_idle idle (by omega), if_neg (by simpa using free), if_neg (by rw [op]; simp), op]
  · intro run idle op busy
    refine (if_pos op).trans ((whenRunning_of_running run _).trans (congrArg _ ?_))
    rw [writeKeyCtl_idle idle (by omega), if_pos (by simpa using busy)]
  · intro run idle op free key
    refine (if_pos op).trans ((whenRunning_of_running run _).trans (congrArg _ ?_))
    rw [writeKeyCtl_idle idle (by omega), if_neg (by simpa using free), if_neg (by simp [key]), op]
  · intro run idle op refused
    refine (if_pos op).trans ((whenRunning_of_running run _).trans (congrArg _ ?_))
    rw [writeKeyCtl_idle idle (by omega)]
    by_cases busy : ∃ x ∈ s.teams, x.ctx = fld v.toNat 7 0
    · rw [if_pos (by simpa using busy), if_pos busy]
    · rw [if_neg (by simpa using busy), if_pos ⟨op, by simpa using refused.resolve_left busy⟩, if_neg busy]
  · exact keyOperationDone_done

end Sys2Proof.Machine
end

section
/-! O54. The checks of stage 3, and the fates of what they find (R62, R374, R377). -/

namespace Sys2Proof.Machine

variable {s : State} {c : Common} {v : View} {f : Front} {own : View → Option FaultInfo} {k : View → Out} {info : FaultInfo} {tv : DWord}

/-- An instruction that fails with `info`: its handler takes the fault, or its team ends. -/
def FailsWith (s : State) (v : View) (tv : DWord) (o : Out) (info : FaultInfo) : Prop :=
  (Handles s v info.cause tv info.tmem → ∃ t, o = .next t ∧ Trapped s t v info tv) ∧
  (Unhandled s v info.cause info.tmem → v.team.ending = none →
    ∃ t u, o = .next t ∧ findTeam t v.iss.team = some u ∧ u.ending = some info ∧ t.mem = s.mem)

/-- What a trapped slot meets. -/
theorem failsWith_trapSlot (view : issueView s c = some v) (stands : Stands s v) (info : FaultInfo) :
    FailsWith s v tv (.next (trapSlot s v info)) info := by
  refine ⟨fun handles => ⟨_, rfl, trapSlot_trapped view stands handles⟩, fun unhandled alive => ?_⟩
  obtain ⟨u, found, ended, mem⟩ := trapSlot_ends view stands unhandled alive
  exact ⟨_, u, rfl, found, ended, mem⟩

/-- A class that a handler takes, or that ends its team, is not RESIDENCY, which parks. -/
theorem failsWith_failSlot (view : issueView s c = some v) (stands : Stands s v) (info : FaultInfo) :
    FailsWith s v tv (failSlot s v info) info := by
  obtain ⟨takes, ends⟩ := failsWith_trapSlot (tv := tv) view stands info
  have slot (other : info.cause ≠ .residency) : failSlot s v info = .next (trapSlot s v info) := by
    rw [failSlot, if_neg other]
  refine ⟨fun handles => ?_, fun unhandled alive => ?_⟩
  · have other : info.cause ≠ .residency := by
      intro eq
      have takes := handles.1
      rw [eq] at takes
      exact absurd takes (by decide)
    rw [slot other]
    exact takes handles
  · rw [slot unhandled.1]
    exact ends unhandled alive

section
variable (view : issueView s c = some v)
include view

/-- A fault of the names that an instruction reads and writes. -/
theorem issueChecks_nameFault (names : nameFault v c f = some info) : issueChecks s c f own k = failSlot s v info := by
  rw [issueChecks, view]
  dsimp only
  rw [names]

/-- A fault of an instruction's own checks. -/
theorem issueChecks_ownFault (names : nameFault v c f = none) (fault : own v = some info) :
    issueChecks s c f own k = failSlot s v info := by
  rw [issueChecks, view]
  dsimp only
  rw [names]
  dsimp only
  rw [fault]

/-- A fault that a port holds for its reader. -/
theorem issueChecks_popFault (names : nameFault v c f = none) (fine : own v = none) (timely : timingLate v c f = false)
    (room : c.setf = 0 ∨ v.gang.flag c.setf < 63) (fault : popFault s v f = some info) :
    issueChecks s c f own k = failSlot s v info := by
  rw [issueChecks, view]
  dsimp only
  rw [names]
  dsimp only
  rw [fine]
  dsimp only
  rw [if_neg (by rw [timely]; decide), if_neg (by omega), fault]

/-- A fault of a push. -/
theorem issueChecks_pushFault (names : nameFault v c f = none) (fine : own v = none) (timely : timingLate v c f = false)
    (room : c.setf = 0 ∨ v.gang.flag c.setf < 63) (pops : popFault s v f = none) (fault : pushFault s v f = some info) :
    issueChecks s c f own k = .next (trapSlot s v info) := by
  rw [issueChecks, view]
  dsimp only
  rw [names]
  dsimp only
  rw [fine]
  dsimp only
  rw [if_neg (by rw [timely]; decide), if_neg (by omega), pops]
  dsimp only
  rw [fault]
end

/-- A misaligned access of a lane that acts (R183): its handler takes ALIGN. -/
theorem execMem_misaligned {m : MemShape} (h : Passes s c { m.front with allowQ := false } m.own v) (order : m.addrFirst = false)
    (off : ∃ i ∈ v.actors { m.front with allowQ := false } m.helpers, m.addr v i % m.align ≠ 0) (handles : Handles s v .align tv) :
    ∃ t f, execMem c m s = .next t ∧ f.cause = .align ∧ f.einfo = BitVec.ofNat 32 m.acc ∧ Trapped s t v f tv := by
  obtain ⟨f, fault, cause, acc⟩ := addrFaults_align (bad := m.bad v) (acc := m.acc) off
  refine ⟨_, f, ?_, cause, acc, trapSlot_trapped h.view h.stands ?_⟩
  · rw [execMem, issueChecks_pass h]
    dsimp only
    rw [order, if_neg (by decide), fault]
  · obtain ⟨takes, free, stands⟩ := handles
    rw [cause]
    refine ⟨takes, free, ?_⟩
    simpa [handlerFor] using stands

/-- Settles O54: each failed check by its place in the order of `issueChecks`, and the fates of a trapped slot. -/
theorem checksTrap : Obligations.ChecksTrap := by
  intro s c v tv view stands
  refine ⟨fun i f own k eq => ?_, ?_, ?_, ?_, ?_, ?_, ?_, ?_, ?_, ?_, ?_, ?_⟩
  · rw [eq]
    refine ⟨fun info fault => ?_, fun info names fault => ?_, fun names fine late => ?_, fun names fine timely flag full => ?_,
      fun names fine timely room => ⟨fun info fault => ?_, fun info pops fault => ?_⟩⟩
    · rw [issueChecks_nameFault view fault]
      exact failsWith_failSlot view stands info
    · rw [issueChecks_ownFault view names fault]
      exact failsWith_failSlot view stands info
    · rw [issueChecks_timing view names fine late]
      exact failsWith_trapSlot view stands _
    · rw [issueChecks_flag view names fine timely flag full]
      exact failsWith_trapSlot view stands _
    · rw [issueChecks_popFault view names fine timely room fault]
      exact failsWith_failSlot view stands info
    · rw [issueChecks_pushFault view names fine timely room pops fault]
      exact failsWith_trapSlot view stands info
  · exact fun d a b ty => ⟨_, rfl⟩
  · exact fun d a b r => ⟨_, rfl⟩
  · exact fun d a => ⟨_, rfl⟩
  · exact fun d n => ⟨_, rfl, _, rfl⟩
  · exact fun d base off ty a64 => ⟨_, rfl⟩
  · exact fun d base val op w64 o sc a64 => ⟨_, rfl⟩
  · exact fun d addr h e sc a64 => ⟨_, rfl⟩
  · exact fun d tile e => ⟨_, rfl⟩
  · exact fun d addr a64 => ⟨_, rfl⟩
  · intro d base off ty a64 passes misaligned handles
    exact execMem_misaligned passes rfl misaligned handles
  · intro base val off ty a64 passes misaligned handles
    exact execMem_misaligned passes rfl misaligned handles
end Sys2Proof.Machine
end

section
/-! O49. What the atomics compute (R194 to R196, R204). -/

namespace Sys2Proof.Machine

-- Sums of a cell

/-- The low bits of an integer. -/
theorem unsext_lt (n : Nat) (v : Int) : unsext n v < 2 ^ n := by
  have pos : (0 : Int) < (2 ^ n : Nat) := by exact_mod_cast Nat.two_pow_pos n
  have below := Int.emod_lt_of_pos v pos
  have nonneg := Int.emod_nonneg v pos.ne'
  unfold unsext
  omega

/-- The bits below `n` and the ones above, of a number that is put together from them. -/
theorem low_of_parts {n a b : Nat} (below : b < 2 ^ n) : (a * 2 ^ n + b) % 2 ^ n = b ∧ (a * 2 ^ n + b) / 2 ^ n = a := by
  rw [Nat.mul_comm]
  exact ⟨by rw [Nat.mul_add_mod, Nat.mod_eq_of_lt below], by rw [Nat.mul_add_div (Nat.two_pow_pos n), Nat.div_eq_of_lt below, Nat.add_zero]⟩

theorem cellVal_eq (c : Nat) : cellVal c = sext 480 (c % 2 ^ 480) := by
  rw [cellVal, fld, Nat.pow_zero, Nat.div_one]

/-- A finite value whose sum fits is added exactly, and no flag changes (R195). -/
theorem cellAdd_fits {c : Nat} {x : Word} {neg : Bool} {m : Nat} {e : Int} {st : Bool} (finite : dec .f32 x.toNat = .fin neg m e st)
    (low : -(2 ^ 479 : Nat) ≤ cellVal c + sgn neg (m * 2 ^ (e + 160).toNat))
    (high : cellVal c + sgn neg (m * 2 ^ (e + 160).toNat) < (2 ^ 479 : Nat)) :
    cellVal (cellAdd c x) = cellVal c + sgn neg (m * 2 ^ (e + 160).toNat) ∧ cellAdd c x / 2 ^ 480 = c / 2 ^ 480 := by
  rw [cellAdd, finite]
  dsimp only
  generalize cellVal c + sgn neg (m * 2 ^ (e + 160).toNat) = v at *
  rw [if_neg (by rintro (below | above) <;> [exact absurd low (Int.not_le.mpr below); exact absurd high (Int.not_lt.mpr above)])]
  obtain ⟨bits, flags⟩ := low_of_parts (a := c / 2 ^ 480) (unsext_lt 480 v)
  rw [cellVal_eq, bits]
  exact ⟨(sext_unsext (by decide) (by rw [sfits, Bool.and_eq_true, decide_eq_true_eq, decide_eq_true_eq]; exact ⟨low, high⟩)).2, flags⟩

/-- A cell without flags reads as its sum, rounded once (R196). -/
theorem cellRead_noFlags {c : Nat} (none : c < 2 ^ 480) : (cellRead c).1 = (rne .f32 (ofInt (cellVal c) (-160) false)).1 := by
  have flag (i : Nat) (high : 480 ≤ i) : cellFlag c i = false := by
    have zero : c / 2 ^ i = 0 := Nat.div_eq_of_lt (Nat.lt_of_lt_of_le none (Nat.pow_le_pow_right (by decide) high))
    rw [cellFlag, fld, zero, Nat.zero_mod]
    rfl
  rw [cellRead]
  simp only [flag 480 (by decide), flag 481 (by decide), flag 482 (by decide), flag 483 (by decide), Bool.or_false, Bool.and_false,
    Bool.false_eq_true, if_false]
  split <;> rfl

/-- Settles O49: the operations by their definitions, and a cell's sum by its 480 bits. -/
theorem atomicsCompute : Obligations.AtomicsCompute := by
  refine ⟨fun w64 old b => ⟨rfl, rfl, rfl, rfl, rfl, ?_, ?_⟩, fun old b => ⟨?_, ?_, ?_, ?_⟩, fun c x neg m e st => cellAdd_fits,
    fun c => cellRead_noFlags⟩
  · exact (apply_ite BitVec.toNat _ _ _).trans (min_def _ _).symm
  · exact (apply_ite BitVec.toNat _ _ _).trans (max_def _ _).symm
  · exact (apply_ite BitVec.toInt _ _ _).trans (min_def _ _).symm
  · exact (apply_ite BitVec.toInt _ _ _).trans (max_def _ _).symm
  · exact (apply_ite (fun x => (lo32 x).toInt) _ _ _).trans (min_def _ _).symm
  · exact (apply_ite (fun x => (lo32 x).toInt) _ _ _).trans (max_def _ _).symm

end Sys2Proof.Machine
end

section
/-! O28. The order of magnitudes (R335), and the pivot that a column has. -/

namespace Sys2Proof.Machine

/-- The size of a finite magnitude. -/
def magSize (m : Nat) (e : Int) : ℚ := m * 2 ^ e

/-- Where a value ranks among magnitudes: a NaN largest, then infinity, then the finite ones by their size. -/
def magRank : Num → WithTop (WithTop ℚ)
  | .nan _ => ⊤
  | .inf _ => ((⊤ : WithTop ℚ) : WithTop (WithTop ℚ))
  | .fin _ m e _ => ((magSize m e : WithTop ℚ) : WithTop (WithTop ℚ))

/-- Integers compare as their multiples by a positive rational. -/
theorem compare_scaled (a b : Int) {k : ℚ} (pos : 0 < k) : compare a b = compare ((a : ℚ) * k) (b * k) := by
  rcases lt_trichotomy a b with less | rfl | more
  · rw [compare_lt_iff_lt.mpr less, eq_comm, compare_lt_iff_lt]
    exact mul_lt_mul_of_pos_right (by exact_mod_cast less) pos
  · simp
  · rw [compare_gt_iff_gt.mpr more, eq_comm, compare_gt_iff_gt]
    exact mul_lt_mul_of_pos_right (by exact_mod_cast more) pos

theorem magSize_shifted (m : Nat) {e b : Int} (low : b ≤ e) : ((sgn false m * 2 ^ (e - b).toNat : Int) : ℚ) * 2 ^ b = magSize m e := by
  have exponent : e = ((e - b).toNat : Int) + b := by omega
  have sum : (2 : ℚ) ^ e = 2 ^ (e - b).toNat * 2 ^ b := by
    conv_lhs => rw [exponent]
    rw [zpow_add₀ (by norm_num), zpow_natCast]
  rw [magSize, sum, ← mul_assoc]
  push_cast
  rfl

/-- Finite magnitudes compare as rational numbers. -/
theorem cmpNum_magnitudes (m m' : Nat) (e e' : Int) (st st' : Bool) :
    cmpNum (.fin false m e st) (.fin false m' e' st') = compare (magSize m e) (magSize m' e') := by
  rw [cmpNum_fin, compare_scaled _ _ (zpow_pos (by norm_num : (0 : ℚ) < 2) (min e e')), magSize_shifted m (min_le_left e e'),
    magSize_shifted m' (min_le_right e e')]

/-- The first magnitude is larger exactly where it ranks above. -/
theorem magGt_iff (a b : Num) : magGt a b = true ↔ magRank b < magRank a := by
  cases a with
  | nan i => cases b <;> simp [magGt, Num.isNan, magRank]
  | inf x => cases b <;> simp [magGt, Num.isNan, magRank, Num.abs, cmpNum, WithTop.coe_lt_coe]
  | fin x m e st =>
    cases b with
    | nan j => simp [magGt, Num.isNan, magRank]
    | inf y => simp [magGt, Num.isNan, magRank, Num.abs, cmpNum]
    | fin y k g st' => simp [magGt, Num.isNan, Num.abs, cmpNum_magnitudes, magRank, compare_gt_iff_gt]

theorem magGt_false_iff (a b : Num) : magGt a b = false ↔ magRank a ≤ magRank b := by
  rw [← not_lt, ← magGt_iff, Bool.not_eq_true]

theorem magRank_abs (a : Num) : magRank a.abs = magRank a := by
  cases a <;> rfl

/-- The index that R335 keeps while it looks down a column from `k`. -/
def pivotFold {α : Type} [LinearOrder α] (rank : Nat → α) (k n : Nat) : Nat :=
  (List.range n).foldl (fun b i => if k < i ∧ rank b < rank i then i else b) k

theorem pivotFold_succ {α : Type} [LinearOrder α] (rank : Nat → α) (k n : Nat) : pivotFold rank k (n + 1) =
    if k < n ∧ rank (pivotFold rank k n) < rank n then n else pivotFold rank k n := by
  rw [pivotFold, List.range_succ, List.foldl_append, List.foldl_cons, List.foldl_nil]
  rfl

/-- It is the first of the largest. -/
theorem pivotFold_first {α : Type} [LinearOrder α] (rank : Nat → α) (k n : Nat) :
    k ≤ pivotFold rank k n ∧ (pivotFold rank k n < n ∨ pivotFold rank k n = k) ∧
      (∀ i < n, k ≤ i → rank i ≤ rank (pivotFold rank k n)) ∧
      ∀ i < pivotFold rank k n, k ≤ i → rank i < rank (pivotFold rank k n) := by
  induction n with
  | zero => exact ⟨le_rfl, .inr rfl, fun i below => absurd below (Nat.not_lt_zero i), fun i below above => absurd below (Nat.not_lt.mpr above)⟩
  | succ n ih =>
    obtain ⟨above, place, largest, earlier⟩ := ih
    rw [pivotFold_succ]
    by_cases more : k < n ∧ rank (pivotFold rank k n) < rank n
    · rw [if_pos more]
      refine ⟨more.1.le, .inl (Nat.lt_succ_self n), fun i below from_ => ?_, fun i below from_ => ?_⟩
      · rcases Nat.lt_succ_iff_lt_or_eq.mp below with lower | rfl
        · exact (largest i lower from_).trans more.2.le
        · exact le_rfl
      · exact (largest i below from_).trans_lt more.2
    · rw [if_neg more]
      refine ⟨above, place.imp_left Nat.lt_succ_of_lt, fun i below from_ => ?_, earlier⟩
      rcases Nat.lt_succ_iff_lt_or_eq.mp below with lower | rfl
      · exact largest i lower from_
      · rcases Nat.eq_or_lt_of_le from_ with rfl | later
        · rcases place with lower | same
          · omega
          · rw [same]
        · exact not_lt.mp fun larger => more ⟨later, larger⟩

/-- No magnitude ranks below zero. -/
theorem magRank_zero_le (a : Num) : magRank (.fin false 0 0 false) ≤ magRank a := by
  cases a with
  | nan i => exact le_top
  | inf x => exact WithTop.coe_le_coe.mpr le_top
  | fin x m e st =>
    refine WithTop.coe_le_coe.mpr (WithTop.coe_le_coe.mpr ?_)
    simp only [magSize, Nat.cast_zero, zero_mul]
    positivity

/-- What ranks as zero is a zero. -/
theorem zero_of_magRank {a : Num} (low : magRank a ≤ magRank (.fin false 0 0 false)) : ∃ neg e st, a = .fin neg 0 e st := by
  cases a with
  | nan i => simp [magRank] at low
  | inf x => simp [magRank] at low
  | fin x m e st =>
    have small := WithTop.coe_le_coe.mp (WithTop.coe_le_coe.mp low)
    simp only [magSize, Nat.cast_zero, zero_mul] at small
    have pos : (0 : ℚ) < 2 ^ e := zpow_pos (by norm_num) e
    have none : (m : ℚ) ≤ 0 := by
      by_contra some
      exact absurd small (not_le.mpr (mul_pos (not_le.mp some) pos))
    have zero : m = 0 := by exact_mod_cast le_antisymm none (Nat.cast_nonneg m)
    exact ⟨x, e, st, by rw [zero]⟩

/-- The largest magnitude of values is that of one which none exceeds, or zero's where all are zero. -/
theorem magMax_largest (d : Nat → Num) (n : Nat) : let M := magMax ((List.range n).map d)
    (∀ i < n, magRank (d i) ≤ magRank M) ∧ (M = .fin false 0 0 false ∨ ∃ m < n, M = (d m).abs) := by
  induction n with
  | zero => exact ⟨fun i below => absurd below (Nat.not_lt_zero i), .inl rfl⟩
  | succ n ih =>
    intro M
    obtain ⟨largest, one⟩ := ih
    have next : M = if magGt (d n) (magMax ((List.range n).map d)) then (d n).abs else magMax ((List.range n).map d) := by
      simp only [M, magMax, List.range_succ, List.map_append, List.map_cons, List.map_nil, List.foldl_append, List.foldl_cons,
        List.foldl_nil]
      rfl
    cases more : magGt (d n) (magMax ((List.range n).map d)) with
    | true =>
      rw [next, more, if_pos rfl]
      refine ⟨fun i below => ?_, .inr ⟨n, Nat.lt_succ_self n, rfl⟩⟩
      rw [magRank_abs]
      rcases Nat.lt_succ_iff_lt_or_eq.mp below with lower | rfl
      · exact (largest i lower).trans ((magGt_iff _ _).mp more).le
      · exact le_rfl
    | false =>
      rw [next, more, if_neg (by decide)]
      refine ⟨fun i below => ?_, one.imp_right fun ⟨m, below, eq⟩ => ⟨m, Nat.lt_succ_of_lt below, eq⟩⟩
      rcases Nat.lt_succ_iff_lt_or_eq.mp below with lower | rfl
      · exact largest i lower
      · exact (magGt_false_iff _ _).mp more

/-- Comparing with a multiple of zero does not depend on how the zero is written. -/
theorem cmpNum_zero (a : Num) (e e' : Int) (st st' : Bool) : cmpNum a (.fin false 0 e st) = cmpNum a (.fin false 0 e' st') := by
  cases a with
  | nan i => rfl
  | inf x => rfl
  | fin x m g st'' =>
    rw [cmpNum_fin, cmpNum_fin]
    have zero (k : Nat) (b : Int) : compare (sgn x m * 2 ^ k) (sgn false 0 * 2 ^ b.toNat) = compare (sgn x m) 0 := by
      have pos : (0 : Int) < 2 ^ k := by positivity
      simpa [sgn] using compare_mul_right (a := sgn x m) (b := 0) pos
    rw [zero, zero]

end Sys2Proof.Machine
end

section
/-! O28. The rows of a block: exchanges, a step of the factorization, and the substitutions (R335 to R337). -/

namespace Sys2Proof.Machine

-- Exchanges

section
variable {α : Type} [Inhabited α]

theorem swapAt_length (l : List α) (i j : Nat) : (swapAt l i j).length = l.length := by
  simp [swapAt]

/-- An entry after two have changed places. -/
theorem swapAt_getElem? (l : List α) {i j : Nat} (hi : i < l.length) (hj : j < l.length) (k : Nat) :
    (swapAt l i j)[k]? = l[if k = i then j else if k = j then i else k]? := by
  rw [swapAt, List.getElem?_set, List.getElem?_set, List.length_set]
  by_cases same : k = i
  · subst same
    by_cases both : j = k
    · simp [both, hi]
    · simp [both, hi, hj]
  · by_cases other : k = j
    · subst other
      simp [same, hi, hj]
    · simp [same, other, Ne.symm same, Ne.symm other]

theorem swapAt_getD (l : List α) {i j : Nat} (hi : i < l.length) (hj : j < l.length) (k : Nat) (d : α) :
    (swapAt l i j).getD k d = l.getD (if k = i then j else if k = j then i else k) d := by
  rw [List.getD_eq_getElem?_getD, swapAt_getElem? l hi hj, ← List.getD_eq_getElem?_getD]

/-- Two exchanges of the same entries undo each other. -/
theorem swapAt_swapAt (l : List α) {i j : Nat} (hi : i < l.length) (hj : j < l.length) : swapAt (swapAt l i j) i j = l := by
  refine List.ext_getElem? fun k => ?_
  rw [swapAt_getElem? _ (by rwa [swapAt_length]) (by rwa [swapAt_length]), swapAt_getElem? l hi hj]
  congr 1
  split_ifs <;> omega

/-- The exchanges of some steps, in their order. -/
def exchanges (ps : List Nat) (ks : List Nat) (l : List α) : List α := ks.foldl (fun l k => swapAt l k (ps.getD k 0)) l

theorem exchange_up (ps : List Nat) (l : List α) : exchange false ps l = exchanges ps (List.range ps.length) l := rfl
theorem exchange_down (ps : List Nat) (l : List α) : exchange true ps l = exchanges ps (List.range ps.length).reverse l := rfl

theorem exchanges_length (ps ks : List Nat) (l : List α) : (exchanges ps ks l).length = l.length := by
  unfold exchanges
  induction ks generalizing l with
  | nil => rfl
  | cons k ks ih => rw [List.foldl_cons, ih, swapAt_length]

theorem exchange_length (down : Bool) (ps : List Nat) (l : List α) : (exchange down ps l).length = l.length := by
  cases down
  · exact exchanges_length ..
  · exact exchanges_length ..

/-- An exchange keeps what all entries have. -/
theorem swapAt_forall {P : α → Prop} {l : List α} (all : ∀ x ∈ l, P x) {i j : Nat} (hi : i < l.length) (hj : j < l.length) :
    ∀ x ∈ swapAt l i j, P x := by
  intro x mem
  obtain ⟨k, hk⟩ := List.mem_iff_getElem?.mp mem
  rw [swapAt_getElem? l hi hj] at hk
  exact all x (List.mem_of_getElem? hk)

theorem exchanges_forall {P : α → Prop} (ps ks : List Nat) {l : List α} (all : ∀ x ∈ l, P x)
    (rows : ∀ k ∈ ks, k < l.length ∧ ps.getD k 0 < l.length) : ∀ x ∈ exchanges ps ks l, P x := by
  induction ks generalizing l with
  | nil => exact all
  | cons k ks ih =>
    obtain ⟨hk, hp⟩ := rows k List.mem_cons_self
    exact ih (l := swapAt l k (ps.getD k 0)) (swapAt_forall all hk hp) fun j mem => by
      rw [swapAt_length]
      exact rows j (List.mem_cons_of_mem k mem)

/-- Steps undone in the opposite order. -/
theorem exchanges_reverse (ps ks : List Nat) (l : List α) (rows : ∀ k ∈ ks, k < l.length ∧ ps.getD k 0 < l.length) :
    exchanges ps ks.reverse (exchanges ps ks l) = l := by
  induction ks generalizing l with
  | nil => rfl
  | cons k ks ih =>
    obtain ⟨hk, hp⟩ := rows k List.mem_cons_self
    rw [List.reverse_cons, exchanges, List.foldl_append]
    have undone : exchanges ps ks.reverse (exchanges ps (k :: ks) l) = swapAt l k (ps.getD k 0) :=
      ih (swapAt l k (ps.getD k 0)) fun j mem => by
        rw [swapAt_length]
        exact rows j (List.mem_cons_of_mem k mem)
    change List.foldl _ (exchanges ps ks.reverse (exchanges ps (k :: ks) l)) [k] = l
    rw [undone]
    exact swapAt_swapAt l hk hp

omit [Inhabited α] in
/-- The steps of a log that stays within a list. -/
theorem steps_within {ps : List Nat} {l : List α} (short : ps.length ≤ l.length) (rows : ∀ p ∈ ps, p < l.length) :
    ∀ k ∈ List.range ps.length, k < l.length ∧ ps.getD k 0 < l.length := by
  intro k mem
  have below := List.mem_range.mp mem
  refine ⟨below.trans_le short, ?_⟩
  rw [List.getD_eq_getElem?_getD, List.getElem?_eq_getElem below]
  exact rows _ (List.getElem_mem below)

theorem exchange_forall {P : α → Prop} (down : Bool) (ps : List Nat) {l : List α} (all : ∀ x ∈ l, P x) (short : ps.length ≤ l.length)
    (rows : ∀ p ∈ ps, p < l.length) : ∀ x ∈ exchange down ps l, P x := by
  have steps := steps_within short rows
  cases down with
  | false => exact exchanges_forall ps _ all steps
  | true => exact exchanges_forall ps (List.range ps.length).reverse all fun k mem => steps k (List.mem_reverse.mp mem)

/-- One direction of a permutation undoes the other (R337). -/
theorem exchange_undo (ps : List Nat) (l : List α) (short : ps.length ≤ l.length) (rows : ∀ p ∈ ps, p < l.length) :
    exchange true ps (exchange false ps l) = l ∧ exchange false ps (exchange true ps l) = l := by
  have steps := steps_within short rows
  refine ⟨exchanges_reverse ps _ l steps, ?_⟩
  have back := exchanges_reverse ps (List.range ps.length).reverse l fun k mem => steps k (List.mem_reverse.mp mem)
  rw [List.reverse_reverse] at back
  exact back
end

-- Substitution (R336)

/-- a − b × c, rounded once: the value. -/
def subVal (f : Fmt) (u v w : Nat) : Nat := (rne f (sumNum false [dec f u, (mulNum (dec f v) (dec f w)).neg])).1

/-- a / b, rounded once: the value; +0 by a zero. -/
def quoVal (f : Fmt) (u v : Nat) : Nat := if (dec f v).isZero then 0 else (rne f (divNum (dec f u) (dec f v)).1).1

theorem getD_set_zero (l : List Nat) {k : Nat} (below : k < l.length) (v i : Nat) :
    (l.set k v).getD i 0 = if i = k then v else l.getD i 0 := by
  rw [List.getD_eq_getElem?_getD, List.getElem?_set]
  by_cases same : i = k
  · subst same
    simp [below]
  · simp [same, Ne.symm same]

theorem elimAt_length (f : Fmt) (a k i : Nat) (y : List Nat × Flags) : (elimAt f a k i y).1.length = y.1.length := by
  simp [elimAt]
theorem divAt_length (f : Fmt) (u k : Nat) (y : List Nat × Flags) : (divAt f u k y).1.length = y.1.length := by
  unfold divAt
  split <;> simp

theorem elimAt_getD (f : Fmt) (a k : Nat) {i : Nat} {y : List Nat × Flags} (below : i < y.1.length) (j : Nat) :
    (elimAt f a k i y).1.getD j 0 = if j = i then subVal f (y.1.getD i 0) a (y.1.getD k 0) else y.1.getD j 0 :=
  getD_set_zero y.1 below _ j

theorem divAt_getD (f : Fmt) (u : Nat) {k : Nat} {y : List Nat × Flags} (below : k < y.1.length) (j : Nat) :
    (divAt f u k y).1.getD j 0 = if j = k then quoVal f (y.1.getD k 0) u else y.1.getD j 0 := by
  unfold divAt quoVal
  split
  · exact getD_set_zero y.1 below _ j
  · exact getD_set_zero y.1 below _ j

/-- The eliminations by element k in some others. -/
def elims (f : Fmt) (a : Nat → Nat) (k : Nat) (is : List Nat) (y : List Nat × Flags) : List Nat × Flags :=
  is.foldl (fun y i => elimAt f (a i) k i y) y

theorem elims_length (f : Fmt) (a : Nat → Nat) (k : Nat) (is : List Nat) (y : List Nat × Flags) :
    (elims f a k is y).1.length = y.1.length := by
  unfold elims
  induction is generalizing y with
  | nil => rfl
  | cons i is ih => rw [List.foldl_cons, ih, elimAt_length]

theorem elims_getD (f : Fmt) (a : Nat → Nat) {k : Nat} {is : List Nat} (nodup : is.Nodup) (other : k ∉ is) (y : List Nat × Flags)
    (below : ∀ i ∈ is, i < y.1.length) (j : Nat) :
    (elims f a k is y).1.getD j 0 = if j ∈ is then subVal f (y.1.getD j 0) (a j) (y.1.getD k 0) else y.1.getD j 0 := by
  unfold elims
  induction is generalizing y with
  | nil => simp
  | cons i is ih =>
    obtain ⟨fresh, nodup'⟩ := List.nodup_cons.mp nodup
    have hi := below i List.mem_cons_self
    have hk : k ≠ i := fun eq => other (eq ▸ List.mem_cons_self)
    rw [List.foldl_cons, ih nodup' (fun mem => other (List.mem_cons_of_mem i mem)) _
      (fun j mem => by rw [elimAt_length]; exact below j (List.mem_cons_of_mem i mem))]
    rw [elimAt_getD f _ k hi, elimAt_getD f _ k hi, if_neg hk]
    by_cases same : j = i
    · subst same
      simp [fresh]
    · simp [same]

/-- The states of steps `k` to 0 of a pass that goes down from `n`: what stands before step k − 1. -/
def downTo {β : Type} (step : Nat → β → β) (n : Nat) (y : β) (k : Nat) : β := (List.range' k (n - k)).foldr step y

theorem downTo_top {β : Type} (step : Nat → β → β) (n : Nat) (y : β) : downTo step n y n = y := by
  rw [downTo, Nat.sub_self]
  rfl

theorem downTo_step {β : Type} (step : Nat → β → β) {n k : Nat} (y : β) (below : k < n) :
    downTo step n y k = step k (downTo step n y (k + 1)) := by
  have left : n - k = n - (k + 1) + 1 := by omega
  rw [downTo, left, List.range'_succ, List.foldr_cons]
  rfl

theorem downTo_all {β : Type} (step : Nat → β → β) (n : Nat) (y : β) :
    (List.range n).reverse.foldl (fun y k => step k y) y = downTo step n y 0 := by
  rw [List.foldl_reverse, downTo, Nat.sub_zero, List.range_eq_range']

/-- The states of a pass that goes up: what stands before step k. -/
def upTo {β : Type} (step : Nat → β → β) (y : β) (k : Nat) : β := (List.range k).foldl (fun y k => step k y) y

theorem upTo_step {β : Type} (step : Nat → β → β) (y : β) (k : Nat) : upTo step y (k + 1) = step k (upTo step y k) := by
  rw [upTo, List.range_succ, List.foldl_append]
  rfl

theorem upTo_length {step : Nat → List Nat × Flags → List Nat × Flags} (keeps : ∀ k y, (step k y).1.length = y.1.length)
    (y : List Nat × Flags) (k : Nat) : (upTo step y k).1.length = y.1.length := by
  induction k with
  | zero => rfl
  | succ k ih => rw [upTo_step, keeps, ih]

theorem downTo_length {step : Nat → List Nat × Flags → List Nat × Flags} (keeps : ∀ k y, (step k y).1.length = y.1.length)
    (n : Nat) (y : List Nat × Flags) (k : Nat) : (downTo step n y k).1.length = y.1.length := by
  unfold downTo
  induction List.range' k (n - k) with
  | nil => rfl
  | cons j js ih => rw [List.foldr_cons, keeps, ih]

/-- The rows below a step, and those above it. -/
def later (n k : Nat) : List Nat := (List.range n).filter (fun i => decide (k < i))
def earlier (n k : Nat) : List Nat := (List.range n).filter (fun i => decide (i < k))

theorem mem_later {n k i : Nat} : i ∈ later n k ↔ i < n ∧ k < i := by simp [later]
theorem mem_earlier {n k i : Nat} : i ∈ earlier n k ↔ i < n ∧ i < k := by simp [earlier]

theorem elims_later (f : Fmt) (a : Nat → Nat) {n k : Nat} {y : List Nat × Flags} (len : y.1.length = n) {i : Nat} (below : i < n) :
    (elims f a k (later n k) y).1.getD i 0 = if k < i then subVal f (y.1.getD i 0) (a i) (y.1.getD k 0) else y.1.getD i 0 := by
  have nodup : (later n k).Nodup := List.nodup_range.filter _
  rw [elims_getD f a nodup (fun mem => (mem_later.mp mem).2.false) y
    (fun i mem => by rw [len]; exact (mem_later.mp mem).1)]
  exact if_congr (mem_later.trans ⟨And.right, fun h => ⟨below, h⟩⟩) rfl rfl

theorem elims_earlier (f : Fmt) (a : Nat → Nat) {n k : Nat} {y : List Nat × Flags} (len : y.1.length = n) {i : Nat} (below : i < n) :
    (elims f a k (earlier n k) y).1.getD i 0 = if i < k then subVal f (y.1.getD i 0) (a i) (y.1.getD k 0) else y.1.getD i 0 := by
  have nodup : (earlier n k).Nodup := List.nodup_range.filter _
  rw [elims_getD f a nodup (fun mem => (mem_earlier.mp mem).2.false) y
    (fun i mem => by rw [len]; exact (mem_earlier.mp mem).1)]
  exact if_congr (mem_earlier.trans ⟨And.right, fun h => ⟨below, h⟩⟩) rfl rfl

/-- The steps of the plain solve: forward, and backward with the divisions. -/
def forwardStep (f : Fmt) (n : Nat) (a : List (List Nat)) (k : Nat) (y : List Nat × Flags) : List Nat × Flags :=
  elims f (fun i => matAt a i k) k (later n k) y
def backwardStep (f : Fmt) (n : Nat) (a : List (List Nat)) (k : Nat) (y : List Nat × Flags) : List Nat × Flags :=
  elims f (fun i => matAt a i k) k (earlier n k) (divAt f (matAt a k k) k y)

theorem solveBlock_plain (f : Fmt) (n : Nat) (a : List (List Nat)) (ps b : List Nat) :
    solveBlock f n false a ps b = downTo (backwardStep f n a) n (upTo (forwardStep f n a) (exchange false ps b, 0) n) 0 := by
  rw [← downTo_all]
  rfl

/-- The steps of the transposed solve: forward with the divisions, and backward. -/
def forwardStepT (f : Fmt) (n : Nat) (a : List (List Nat)) (k : Nat) (y : List Nat × Flags) : List Nat × Flags :=
  elims f (fun i => matAt a k i) k (later n k) (divAt f (matAt a k k) k y)
def backwardStepT (f : Fmt) (n : Nat) (a : List (List Nat)) (k : Nat) (y : List Nat × Flags) : List Nat × Flags :=
  elims f (fun i => matAt a k i) k (earlier n k) y

theorem solveBlock_transposed (f : Fmt) (n : Nat) (a : List (List Nat)) (ps b : List Nat) :
    (solveBlock f n true a ps b).1 =
      exchange true ps (downTo (backwardStepT f n a) n (upTo (forwardStepT f n a) (b, 0) n) 0).1 := by
  rw [← downTo_all]
  rfl

/-- The plain solve substitutes (R336). -/
theorem substitutes_solve (f : Fmt) (n : Nat) (a : List (List Nat)) (ps b : List Nat) (len : b.length = n) :
    Substitutes f n a (fun i => (exchange false ps b).getD i 0) (fun i => (solveBlock f n false a ps b).1.getD i 0) := by
  have keepsF (k : Nat) (y : List Nat × Flags) : (forwardStep f n a k y).1.length = y.1.length := elims_length ..
  have keepsB (k : Nat) (y : List Nat × Flags) : (backwardStep f n a k y).1.length = y.1.length := by
    rw [backwardStep, elims_length, divAt_length]
  rw [solveBlock_plain]
  generalize hu : upTo (forwardStep f n a) (exchange false ps b, 0) = U
  have lenU (k : Nat) : (U k).1.length = n := by rw [← hu, upTo_length keepsF, exchange_length, len]
  generalize hd : downTo (backwardStep f n a) n (U n) = D
  have lenD (k : Nat) : (D k).1.length = n := by rw [← hd, downTo_length keepsB, lenU]
  have stepU (k i : Nat) (hi : i < n) : (U (k + 1)).1.getD i 0 =
      if k < i then subVal f ((U k).1.getD i 0) (matAt a i k) ((U k).1.getD k 0) else (U k).1.getD i 0 := by
    rw [← hu, upTo_step, hu]
    exact elims_later f _ (lenU k) hi
  have stepD (k i : Nat) (hk : k < n) (hi : i < n) : (D k).1.getD i 0 =
      if i < k then subVal f ((D (k + 1)).1.getD i 0) (matAt a i k) (quoVal f ((D (k + 1)).1.getD k 0) (matAt a k k))
      else if i = k then quoVal f ((D (k + 1)).1.getD k 0) (matAt a k k) else (D (k + 1)).1.getD i 0 := by
    have inRow : k < (D (k + 1)).1.length := by rwa [lenD]
    rw [← hd, downTo_step _ _ hk, hd, backwardStep, elims_earlier f _ (by rw [divAt_length, lenD]) hi,
      divAt_getD f _ inRow, divAt_getD f _ inRow, if_pos rfl]
    by_cases before : i < k
    · rw [if_pos before, if_pos before, if_neg (by omega)]
    · rw [if_neg before, if_neg before]
  -- a row that the backward pass has reached is not touched again
  have settled (i : Nat) (hi : i < n) (k : Nat) (hk : k ≤ i) : (D k).1.getD i 0 = (D i).1.getD i 0 := by
    obtain ⟨j, rfl⟩ := Nat.exists_eq_add_of_le hk
    induction j generalizing k with
    | zero => rfl
    | succ j ih =>
      have next := ih (k + 1) (by omega) (by omega)
      rw [show k + 1 + j = k + (j + 1) by omega] at next
      rw [stepD k (k + (j + 1)) (by omega) hi, if_neg (by omega), if_neg (by omega), next]
  refine ⟨fun k i => (U k).1.getD i 0, fun k i => (D (max k (i + 1))).1.getD i 0, fun i _ => by rw [← hu]; rfl,
    fun k _ i hi => stepU k i hi, fun i hi => ?_, fun k hk => ?_, fun k hk i hi => ?_⟩
  · dsimp only
    have top : max n (i + 1) = n := by omega
    rw [top, ← hd, downTo_top]
  · dsimp only
    have own : max (k + 1) (k + 1) = k + 1 := by omega
    rw [own, settled k hk 0 (Nat.zero_le k), stepD k k hk hk, if_neg (by omega), if_pos rfl]
    rfl
  · dsimp only
    by_cases before : i < k
    · have here : max k (i + 1) = k := by omega
      have next : max (k + 1) (i + 1) = k + 1 := by omega
      rw [if_pos before, here, next, settled k hk 0 (Nat.zero_le k), stepD k i hk hi, if_pos before, stepD k k hk hk,
        if_neg (by omega), if_pos rfl]
      rfl
    · have here : max k (i + 1) = i + 1 := by omega
      have next : max (k + 1) (i + 1) = i + 1 := by omega
      rw [if_neg before, here, next]

/-- The transposed solve substitutes, up to its exchanges (R336). -/
theorem substitutesT_solve (f : Fmt) (n : Nat) (a : List (List Nat)) (ps b : List Nat) (len : b.length = n) :
    ∃ x : List Nat, x.length = n ∧ (solveBlock f n true a ps b).1 = exchange true ps x ∧
      SubstitutesT f n a (fun i => b.getD i 0) (fun i => x.getD i 0) := by
  have keepsF (k : Nat) (y : List Nat × Flags) : (forwardStepT f n a k y).1.length = y.1.length := by
    rw [forwardStepT, elims_length, divAt_length]
  have keepsB (k : Nat) (y : List Nat × Flags) : (backwardStepT f n a k y).1.length = y.1.length := elims_length ..
  rw [solveBlock_transposed]
  generalize hu : upTo (forwardStepT f n a) (b, 0) = U
  have lenU (k : Nat) : (U k).1.length = n := by rw [← hu, upTo_length keepsF, len]
  generalize hd : downTo (backwardStepT f n a) n (U n) = D
  have lenD (k : Nat) : (D k).1.length = n := by rw [← hd, downTo_length keepsB, lenU]
  have stepU (k i : Nat) (hk : k < n) (hi : i < n) : (U (k + 1)).1.getD i 0 =
      if k < i then subVal f ((U k).1.getD i 0) (matAt a k i) (quoVal f ((U k).1.getD k 0) (matAt a k k))
      else if i = k then quoVal f ((U k).1.getD k 0) (matAt a k k) else (U k).1.getD i 0 := by
    have inRow : k < (U k).1.length := by rwa [lenU]
    rw [← hu, upTo_step, hu, forwardStepT, elims_later f _ (by rw [divAt_length, lenU]) hi,
      divAt_getD f _ inRow, divAt_getD f _ inRow, if_pos rfl]
    by_cases after : k < i
    · rw [if_pos after, if_pos after, if_neg (by omega)]
    · rw [if_neg after, if_neg after]
  have stepD (k i : Nat) (hk : k < n) (hi : i < n) : (D k).1.getD i 0 =
      if i < k then subVal f ((D (k + 1)).1.getD i 0) (matAt a k i) ((D (k + 1)).1.getD k 0) else (D (k + 1)).1.getD i 0 := by
    rw [← hd, downTo_step _ _ hk, hd]
    exact elims_earlier f _ (lenD (k + 1)) hi
  -- a row that the forward pass has divided is not touched again
  have settled (i : Nat) (hi : i < n) (k : Nat) (hk : i < k) (top : k ≤ n) : (U k).1.getD i 0 = (U (i + 1)).1.getD i 0 := by
    induction k, hk using Nat.le_induction with
    | base => rfl
    | succ k hk ih => rw [stepU k i (by omega) hi, if_neg (by omega), if_neg (by omega), ih (by omega)]
  refine ⟨(D 0).1, lenD 0, rfl, fun k i => (U (min k i)).1.getD i 0, fun k i => (D k).1.getD i 0,
    fun i => quoVal f ((U i).1.getD i 0) (matAt a i i), fun i _ => ?_, fun k hk => ?_, fun k hk i hi => ?_, fun i hi => ?_,
    fun i _ => rfl, fun k hk i hi => stepD k i hk hi⟩
  · dsimp only
    have bottom : min 0 i = 0 := by omega
    rw [bottom, ← hu]
    rfl
  · dsimp only
    have own : min k k = k := by omega
    rw [own]
    rfl
  · dsimp only
    by_cases after : k < i
    · have here : min k i = k := by omega
      have next : min (k + 1) i = k + 1 := by omega
      rw [if_pos after, here, next, stepU k i hk hi, if_pos after]
      rfl
    · have here : min k i = i := by omega
      have next : min (k + 1) i = i := by omega
      rw [if_neg after, here, next]
  · dsimp only
    rw [← hd, downTo_top, settled i hi n hi le_rfl, stepU i i hi hi, if_neg (by omega), if_pos rfl]

end Sys2Proof.Machine
end

section
/-! O28. A step of the factorization (R335). -/

namespace Sys2Proof.Machine

/-- A matrix of `n` rows of `n` entries. -/
def Square (n : Nat) (m : List (List Nat)) : Prop := m.length = n ∧ ∀ r ∈ m, r.length = n

theorem Square.row {n : Nat} {m : List (List Nat)} (h : Square n m) {i : Nat} (below : i < n) : (m.getD i []).length = n := by
  obtain ⟨len, rows⟩ := h
  rw [List.getD_eq_getElem?_getD, List.getElem?_eq_getElem (by omega)]
  exact rows _ (List.getElem_mem _)

theorem Square.matSet {n : Nat} {m : List (List Nat)} (h : Square n m) (i j v : Nat) : Square n (matSet m i j v) := by
  obtain ⟨len, rows⟩ := h
  refine ⟨by rw [Machine.matSet, List.length_modify, len], fun r mem => ?_⟩
  obtain ⟨k, hk, rfl⟩ := List.getElem_of_mem mem
  simp only [Machine.matSet, List.getElem_modify]
  split
  · rw [List.length_set]
    exact rows _ (List.getElem_mem _)
  · exact rows _ (List.getElem_mem _)

theorem Square.swapAt {n : Nat} {m : List (List Nat)} (h : Square n m) {i j : Nat} (hi : i < n) (hj : j < n) : Square n (swapAt m i j) := by
  obtain ⟨len, rows⟩ := h
  refine ⟨by rw [swapAt_length, len], fun r mem => ?_⟩
  obtain ⟨k, hk⟩ := List.mem_iff_getElem?.mp mem
  rw [swapAt_getElem? m (by omega) (by omega)] at hk
  exact rows r (List.mem_of_getElem? hk)

theorem matAt_matSet {n : Nat} {m : List (List Nat)} (h : Square n m) {i j : Nat} (hi : i < n) (hj : j < n) (v a b : Nat) :
    matAt (matSet m i j v) a b = if a = i ∧ b = j then v else matAt m a b := by
  have inRows : i < m.length := by rw [h.1]; exact hi
  by_cases row : a = i
  · subst row
    have eq : (matSet m a j v).getD a [] = (m.getD a []).set j v := by
      simp [matSet, List.getD_eq_getElem?_getD, List.getElem?_eq_getElem inRows]
    rw [matAt, eq, getD_set_zero _ (by rw [h.row hi]; exact hj)]
    simp [matAt]
  · have eq : (matSet m i j v).getD a [] = m.getD a [] := by
      simp [matSet, List.getD_eq_getElem?_getD, Ne.symm row]
    rw [matAt, eq, if_neg (fun same => row same.1)]
    rfl

/-- The entries of a matrix two of whose rows have changed places. -/
theorem matAt_swapAt {n : Nat} {m : List (List Nat)} (h : Square n m) {k p : Nat} (hk : k < n) (hp : p < n) (i j : Nat) :
    matAt (swapAt m k p) i j = matAt m (if i = k then p else if i = p then k else i) j := by
  rw [matAt, swapAt_getD m (by rw [h.1]; exact hk) (by rw [h.1]; exact hp)]
  rfl

-- The rows below the pivot

/-- Row i of step k, up to column m: `l` times row k is subtracted. -/
def rowFold (f : Fmt) (k i l : Nat) (y : List (List Nat) × Flags) (m : Nat) : List (List Nat) × Flags :=
  (List.range m).foldl (fun y j =>
    if j ≤ k then y
    else
      let u := blockSub f (matAt y.1 i j) l (matAt y.1 k j)
      (matSet y.1 i j u.1, y.2 ||| u.2)) y

theorem rowFold_succ (f : Fmt) (k i l : Nat) (y : List (List Nat) × Flags) (m : Nat) : rowFold f k i l y (m + 1) =
    if m ≤ k then rowFold f k i l y m
    else (matSet (rowFold f k i l y m).1 i m
        (blockSub f (matAt (rowFold f k i l y m).1 i m) l (matAt (rowFold f k i l y m).1 k m)).1,
      (rowFold f k i l y m).2 ||| (blockSub f (matAt (rowFold f k i l y m).1 i m) l (matAt (rowFold f k i l y m).1 k m)).2) := by
  rw [rowFold, List.range_succ, List.foldl_append]
  rfl

/-- What one row's subtractions leave. -/
theorem rowFold_entries (f : Fmt) {n k i : Nat} (l : Nat) {y : List (List Nat) × Flags} (sq : Square n y.1) (hi : i < n)
    {m : Nat} (top : m ≤ n) :
    Square n (rowFold f k i l y m).1 ∧
    (∀ a b, matAt (rowFold f k i l y m).1 a b =
      if a = i ∧ k < b ∧ b < m then (blockSub f (matAt y.1 i b) l (matAt y.1 k b)).1 else matAt y.1 a b) ∧
    ∀ u, (rowFold f k i l y m).2.getLsbD u = true ↔
      y.2.getLsbD u = true ∨ ∃ j < m, k < j ∧ (blockSub f (matAt y.1 i j) l (matAt y.1 k j)).2.getLsbD u = true := by
  induction m with
  | zero => exact ⟨sq, fun a b => by rw [if_neg (by omega)]; rfl, fun u => by simp [rowFold]⟩
  | succ m ih =>
    obtain ⟨sq', entries, flags⟩ := ih (by omega)
    rw [rowFold_succ]
    by_cases early : m ≤ k
    · rw [if_pos early]
      refine ⟨sq', fun a b => (entries a b).trans (if_congr (by omega) rfl rfl), fun u => (flags u).trans (or_congr_right ?_)⟩
      exact ⟨fun ⟨j, below, rest⟩ => ⟨j, by omega, rest⟩, fun ⟨j, below, after, rest⟩ => ⟨j, by omega, after, rest⟩⟩
    · rw [if_neg early, entries i m, entries k m, if_neg (by omega), if_neg (by omega)]
      refine ⟨sq'.matSet .., fun a b => ?_, fun u => ?_⟩
      · dsimp only
        rw [matAt_matSet sq' hi (by omega), entries a b]
        by_cases here : a = i ∧ b = m
        · rw [if_pos here, if_pos (by omega), here.2]
        · rw [if_neg here]
          exact if_congr (by omega) rfl rfl
      · dsimp only
        rw [BitVec.getLsbD_or, Bool.or_eq_true, flags u, or_assoc]
        refine or_congr_right ⟨?_, ?_⟩
        · rintro (⟨j, below, rest⟩ | last)
          · exact ⟨j, by omega, rest⟩
          · exact ⟨m, by omega, by omega, last⟩
        · rintro ⟨j, below, after, rest⟩
          rcases Nat.lt_succ_iff_lt_or_eq.mp below with lower | rfl
          · exact .inl ⟨j, lower, after, rest⟩
          · exact .inr rest

/-- Step k on the rows up to m. -/
def rowsFold (f : Fmt) (n k : Nat) (zero : Bool) (y : List (List Nat) × Flags) (m : Nat) : List (List Nat) × Flags :=
  (List.range m).foldl (fun y i =>
    if i ≤ k then y
    else if zero then (matSet y.1 i k 0, y.2)
    else
      let l := blockDiv f (matAt y.1 i k) (matAt y.1 k k)
      rowFold f k i l.1 (matSet y.1 i k l.1, y.2 ||| l.2) n) y

theorem rowsFold_succ (f : Fmt) (n k : Nat) (zero : Bool) (y : List (List Nat) × Flags) (m : Nat) : rowsFold f n k zero y (m + 1) =
    if m ≤ k then rowsFold f n k zero y m
    else if zero then (matSet (rowsFold f n k zero y m).1 m k 0, (rowsFold f n k zero y m).2)
    else
      let l := blockDiv f (matAt (rowsFold f n k zero y m).1 m k) (matAt (rowsFold f n k zero y m).1 k k)
      rowFold f k m l.1 (matSet (rowsFold f n k zero y m).1 m k l.1, (rowsFold f n k zero y m).2 ||| l.2) n := by
  rw [rowsFold, List.range_succ, List.foldl_append]
  rfl

/-- An entry below the pivot after step k, from the rows `b` of before. -/
def stepEntry (f : Fmt) (k : Nat) (zero : Bool) (b : Nat → Nat → Nat) (i j : Nat) : Nat :=
  if zero then (if j = k then 0 else b i j)
  else if j = k then (blockDiv f (b i k) (b k k)).1
  else (blockSub f (b i j) (blockDiv f (b i k) (b k k)).1 (b k j)).1

/-- Does row i of step k raise a flag? -/
def StepFlag (f : Fmt) (n k : Nat) (b : Nat → Nat → Nat) (i u : Nat) : Prop :=
  (blockDiv f (b i k) (b k k)).2.getLsbD u = true ∨
    ∃ j < n, k < j ∧ (blockSub f (b i j) (blockDiv f (b i k) (b k k)).1 (b k j)).2.getLsbD u = true

/-- What step k leaves of the rows. -/
theorem rowsFold_entries (f : Fmt) {n k : Nat} (zero : Bool) {y : List (List Nat) × Flags} (sq : Square n y.1) (hk : k < n)
    {m : Nat} (top : m ≤ n) :
    Square n (rowsFold f n k zero y m).1 ∧
    (∀ i < n, ∀ j < n, matAt (rowsFold f n k zero y m).1 i j =
      if i ≤ k ∨ m ≤ i ∨ j < k then matAt y.1 i j else stepEntry f k zero (matAt y.1) i j) ∧
    ∀ u, (rowsFold f n k zero y m).2.getLsbD u = true ↔
      y.2.getLsbD u = true ∨ (zero = false ∧ ∃ i < m, k < i ∧ StepFlag f n k (matAt y.1) i u) := by
  induction m with
  | zero => exact ⟨sq, fun i _ j _ => by rw [if_pos (by omega)]; rfl, fun u => by simp [rowsFold]⟩
  | succ m ih =>
    obtain ⟨sq', entries, flags⟩ := ih (by omega)
    rw [rowsFold_succ]
    by_cases early : m ≤ k
    · rw [if_pos early]
      refine ⟨sq', fun i hi j hj => (entries i hi j hj).trans (if_congr (by omega) rfl rfl), fun u => (flags u).trans (or_congr_right ?_)⟩
      exact and_congr_right fun _ =>
        ⟨fun ⟨j, below, rest⟩ => ⟨j, by omega, rest⟩, fun ⟨j, below, after, rest⟩ => ⟨j, by omega, after, rest⟩⟩
    · rw [if_neg early]
      cases zero with
      | true =>
        rw [if_pos rfl]
        refine ⟨sq'.matSet .., fun i hi j hj => ?_, fun u => ?_⟩
        · dsimp only
          rw [matAt_matSet sq' (by omega) hk, entries i hi j hj]
          by_cases here : i = m ∧ j = k
          · rw [if_pos here, if_neg (by omega), stepEntry, if_pos rfl, if_pos here.2]
          · rw [if_neg here]
            by_cases row : i = m
            · rw [if_pos (by omega)]
              by_cases low : j < k
              · rw [if_pos (by omega)]
              · rw [if_neg (by omega), stepEntry, if_pos rfl, if_neg (by omega)]
            · exact if_congr (by omega) rfl rfl
        · exact (flags u).trans (by simp)
      | false =>
        rw [if_neg (by decide)]
        dsimp only
        rw [entries m (by omega) k hk, entries k hk k hk, if_pos (by omega), if_pos (by omega)]
        generalize hl : blockDiv f (matAt y.1 m k) (matAt y.1 k k) = l
        obtain ⟨sq'', entries', flags'⟩ := rowFold_entries f (k := k) l.1
          (y := (matSet (rowsFold f n k false y m).1 m k l.1, (rowsFold f n k false y m).2 ||| l.2)) (sq'.matSet m k l.1)
          (show m < n by omega) le_rfl
        have row (j : Nat) (hj : j < n) : matAt (matSet (rowsFold f n k false y m).1 m k l.1) m j =
            if j = k then l.1 else matAt y.1 m j := by
          rw [matAt_matSet sq' (by omega) hk, entries m (by omega) j hj]
          by_cases same : j = k
          · rw [if_pos ⟨rfl, same⟩, if_pos same]
          · rw [if_neg (fun both => same both.2), if_neg same, if_pos (by omega)]
        have pivot (j : Nat) (hj : j < n) : matAt (matSet (rowsFold f n k false y m).1 m k l.1) k j = matAt y.1 k j := by
          rw [matAt_matSet sq' (by omega) hk, if_neg (by omega), entries k hk j hj, if_pos (by omega)]
        refine ⟨sq'', fun i hi j hj => ?_, fun u => ?_⟩
        · rw [entries' i j]
          by_cases below : i = m
          · subst below
            dsimp only
            rw [row j hj, pivot j hj]
            by_cases right : k < j
            · rw [if_pos ⟨rfl, right, hj⟩, if_neg (by omega), if_neg (by omega), stepEntry, if_neg (by decide), if_neg (by omega), hl]
            · rw [if_neg (by omega)]
              by_cases same : j = k
              · rw [if_pos same, if_neg (by omega), stepEntry, if_neg (by decide), if_pos same, hl]
              · rw [if_neg same, if_pos (by omega)]
          · dsimp only
            rw [if_neg (by omega), matAt_matSet sq' (by omega) hk, if_neg (by omega), entries i hi j hj]
            exact if_congr (by omega) rfl rfl
        · rw [flags' u]
          dsimp only
          rw [BitVec.getLsbD_or, Bool.or_eq_true, flags u, or_assoc, or_assoc]
          have own : (l.2.getLsbD u = true ∨ ∃ j < n, k < j ∧
              (blockSub f (matAt (matSet (rowsFold f n k false y m).1 m k l.1) m j) l.1
                (matAt (matSet (rowsFold f n k false y m).1 m k l.1) k j)).2.getLsbD u = true) ↔ StepFlag f n k (matAt y.1) m u := by
            rw [StepFlag, hl]
            refine or_congr_right (exists_congr fun j => and_congr_right fun hj => and_congr_right fun after => ?_)
            rw [row j hj, pivot j hj, if_neg (by omega)]
          rw [own]
          refine or_congr_right ⟨?_, ?_⟩
          · rintro (⟨-, i, low, rest⟩ | last)
            · exact ⟨rfl, i, by omega, rest⟩
            · exact ⟨rfl, m, by omega, by omega, last⟩
          · rintro ⟨-, i, low, after, rest⟩
            rcases Nat.lt_succ_iff_lt_or_eq.mp low with lower | rfl
            · exact .inl ⟨rfl, i, lower, after, rest⟩
            · exact .inr rest

-- The step

/-- The pivot that R335 takes in column k. -/
def pivotOf (f : Fmt) (n k : Nat) (a : List (List Nat)) : Nat := pivotFold (fun i => magRank (dec f (matAt a i k))) k n

/-- The near-singular bit of a pivot against the largest magnitude of its column. -/
def nearSingular (piv mk : Num) (free : Bool) : Bool :=
  piv.isZero || (!piv.isNan && (if mk.isNan then free else cmpNum piv.abs (mulNum (.fin false 1 (-8) false) mk) == .lt))

theorem factorStep_eq (f : Fmt) (n k : Nat) (mk : Num) (free : Bool) (qe : Nat → Bool) (x : Factor) :
    let a := swapAt x.a k (pivotOf f n k x.a)
    let piv := dec f (matAt a k k)
    let r := rowsFold f n k piv.isZero (a, x.fl) n
    factorStep f n k mk free qe x =
      { a := r.1, p := x.p ++ [pivotOf f n k x.a], ns := x.ns ++ [nearSingular piv mk free && qe (matAt a k k)], fl := r.2 } := by
  have pivot : pivotOf f n k x.a = (List.range n).foldl
      (fun b i => if k < i ∧ magGt (dec f (matAt x.a i k)) (dec f (matAt x.a b k)) then i else b) k := by
    simp only [pivotOf, pivotFold, magGt_iff]
  rw [pivot]
  rfl

/-- How the largest magnitude of a column decides a near-singular bit. -/
theorem nearSingular_magMax (d : Nat → Num) {n k : Nat} (hk : k < n) (piv : Num) (free : Bool) :
    ∃ m < n, (∀ i < n, magGt (d i) (d m) = false) ∧
      nearSingular piv (magMax ((List.range n).map d)) free = (piv.isZero || (!piv.isNan &&
        (if (d m).isNan then free else cmpNum piv.abs (mulNum (.fin false 1 (-8) false) (d m).abs) == .lt))) := by
  obtain ⟨largest, zero | ⟨m, below, one⟩⟩ := magMax_largest d n
  · obtain ⟨neg, e, st, eq⟩ := zero_of_magRank (zero ▸ largest k hk)
    refine ⟨k, hk, fun i below => ?_, ?_⟩
    · rw [magGt_false_iff]
      exact (zero ▸ largest i below).trans (magRank_zero_le _)
    · have zeros : cmpNum piv.abs (mulNum (.fin false 1 (-8) false) (.fin false 0 0 false)) =
          cmpNum piv.abs (mulNum (.fin false 1 (-8) false) (Num.fin neg 0 e st).abs) := cmpNum_zero _ _ _ _ _
      rw [zero, eq, nearSingular, zeros]
      rfl
  · refine ⟨m, below, fun i below => ?_, ?_⟩
    · rw [magGt_false_iff, ← magRank_abs (d m), ← one]
      exact largest i below
    · have nan : (d m).abs.isNan = (d m).isNan := by cases d m <;> rfl
      rw [one, nearSingular, nan]

theorem blockDiv_value (f : Fmt) (a b : Nat) : (blockDiv f a b).1 = (rne f (divNum (dec f a) (dec f b)).1).1 := rfl
theorem blockSub_value (f : Fmt) (a b c : Nat) :
    (blockSub f a b c).1 = (rne f (sumNum false [dec f a, (mulNum (dec f b) (dec f c)).neg])).1 := rfl

/-- One step of R335 does what the rule says. -/
theorem factors_factorStep (f : Fmt) {n k : Nat} (hk : k < n) (free : Bool) (qe : Nat → Bool) (inp : List (List Nat)) {x : Factor}
    (sq : Square n x.a) :
    let y := factorStep f n k (magMax ((List.range n).map (fun i => dec f (matAt inp i k)))) free qe x
    Square n y.a ∧ Factors f n k free qe inp x y := by
  obtain ⟨from_, place, largest, first_⟩ := pivotFold_first (fun i => magRank (dec f (matAt x.a i k))) k n
  have hp : pivotOf f n k x.a < n := by
    rcases place with below | same
    · exact below
    · exact same.trans_lt hk
  have swapped := matAt_swapAt sq hk hp
  obtain ⟨sq', entries, flags⟩ := rowsFold_entries f (k := k) (dec f (matAt (swapAt x.a k (pivotOf f n k x.a)) k k)).isZero
    (y := (swapAt x.a k (pivotOf f n k x.a), x.fl)) (sq.swapAt hk hp) hk le_rfl
  intro y
  have eq : y = _ := factorStep_eq ..
  rw [eq]
  refine ⟨sq', pivotOf f n k x.a, from_, hp, fun i below above => (magGt_false_iff _ _).mpr (largest i below above),
    fun i below above => (magGt_iff _ _).mpr (first_ i below above), rfl, ?_⟩
  have rows : matAt (swapAt x.a k (pivotOf f n k x.a)) =
      fun i j => matAt x.a (if i = k then pivotOf f n k x.a else if i = pivotOf f n k x.a then k else i) j := funext₂ swapped
  dsimp only at entries flags ⊢
  rw [rows] at entries flags ⊢
  obtain ⟨m, below, max, near⟩ := nearSingular_magMax (fun i => dec f (matAt inp i k)) hk
    (dec f (matAt x.a (if k = k then pivotOf f n k x.a else if k = pivotOf f n k x.a then k else k) k)) free
  refine ⟨⟨m, below, max, ?_⟩, fun i hi j hj => ?_, fun u => ?_⟩
  · rw [near, Bool.and_comm]
  · rw [entries i hi j hj]
    by_cases kept : i ≤ k ∨ j < k
    · rw [if_pos kept, if_pos (by omega)]
    · rw [if_neg kept, if_neg (by omega), stepEntry, blockDiv_value, blockSub_value]
  · rw [Bool.eq_iff_iff, flags u, Bool.or_eq_true, Bool.and_eq_true, Bool.not_eq_true', decide_eq_true_eq]
    rfl

/-- The steps of a factorization. -/
def factorSteps (f : Fmt) (n : Nat) (free : Nat → Bool) (qe : Nat → Bool) (rows : List (List Nat)) : Nat → Factor :=
  upTo (fun k x => factorStep f n k (magMax ((List.range n).map (fun i => dec f (matAt rows i k)))) (free k) qe x)
    { a := rows, p := [], ns := [], fl := 0 }

/-- They keep the matrix square. -/
theorem factorSteps_square (f : Fmt) {n : Nat} (free : Nat → Bool) (qe : Nat → Bool) {rows : List (List Nat)} (sq : Square n rows)
    {k : Nat} (top : k ≤ n) : Square n (factorSteps f n free qe rows k).a := by
  induction k with
  | zero => exact sq
  | succ k ih =>
    rw [factorSteps, upTo_step]
    exact (factors_factorStep f top (free k) qe rows (ih (by omega))).1

/-- The factorization is its steps, one after another (R335). -/
theorem factor_steps (f : Fmt) (n : Nat) (free : Nat → Bool) (qe : Nat → Bool) {rows : List (List Nat)} (len : rows.length = n)
    (each : ∀ r ∈ rows, r.length = n) :
    ∃ x : Nat → Factor, x 0 = { a := rows, p := [], ns := [], fl := 0 } ∧ factor f n free qe rows = x n ∧
      ∀ k < n, Factors f n k (free k) qe rows (x k) (x (k + 1)) := by
  refine ⟨factorSteps f n free qe rows, rfl, rfl, fun k below => ?_⟩
  rw [factorSteps, upTo_step]
  exact (factors_factorStep f below (free k) qe rows (factorSteps_square f free qe ⟨len, each⟩ below.le)).2

/-- A row of a factorization is as long as the matrix is wide. -/
theorem factor_row_length (f : Fmt) {n : Nat} (free : Nat → Bool) (qe : Nat → Bool) {rows : List (List Nat)} (sq : Square n rows) {i : Nat}
    (below : i < n) : ((factor f n free qe rows).a.getD i []).length = n :=
  (factorSteps_square f free qe sq le_rfl).row below

end Sys2Proof.Machine
end

section
/-! O28. The Invar instructions (R332 to R337). -/

namespace Sys2Proof.Machine

variable {s t : State} {c : Common} {v : View} {f : Front} {own : View → Option FaultInfo}

-- A result that is written nowhere (R59)

/-- An outcome with its result filled up with zeros. -/
def LaneOut.filled (n : Nat) (o : LaneOut) : LaneOut := { o with regs := o.regs ++ List.replicate (n - o.regs.length) 0 }

theorem getD_append_zeros (l : List Word) (n k : Nat) : (l ++ List.replicate n 0).getD k 0 = l.getD k 0 := by
  rcases Nat.lt_or_ge k l.length with below | above
  · rw [List.getD_append _ _ _ _ below]
  · rw [List.getD_append_right _ _ _ _ above, List.getD_eq_default _ _ above, List.getD_eq_getElem?_getD, List.getElem?_replicate]
    split <;> rfl

theorem winVal_filled (once : Bool) (n : Nat) (o : LaneOut) : winVal once (o.filled n).regs = winVal once o.regs := by
  rw [winVal, winVal, LaneOut.filled, getD_append_zeros, getD_append_zeros]

/-- With .nwb it does not matter how many words a result has. -/
theorem aluEffect_filled (nwb : c.nwb = true) (a : Alu) (n : Nat) (v : View) :
    aluEffect s c { a with run := fun v inp i => (a.run v inp i).filled n } v = aluEffect s c a v := by
  have lane (d : Option Dst) (o : LaneOut) (l : Lane) : applyLane v c d a.lat (o.filled n) l = applyLane v c d a.lat o l := by
    cases d with
    | none => rfl
    | some d =>
      simp only [applyLane, nwb, if_true]
      rfl
  have once : a.front.once c.nwb = false := by
    rw [Front.once, nwb]
    cases a.front.dst <;> rfl
  unfold aluEffect
  simp only [once, lane, winVal_filled, Bool.false_eq_true, if_false, false_and]
  rfl

/-- What an instruction with .nwb leaves behind does not depend on its result. -/
theorem Wrote.of_filled {n : Nat} {o : Nat → LaneOut} (nwb : c.nwb = true) (h : Wrote s t v c f (fun i => (o i).filled n)) :
    Wrote s t v c f o := by
  have once : f.once c.nwb = false := by
    rw [Front.once, nwb]
    cases f.dst <;> rfl
  have reg (d : Option Dst) (o : LaneOut) (k : Nat) (old : Word) : newReg c d (o.filled n) k old = newReg c d o k old := by
    simp only [newReg, nwb, Bool.true_eq_false, false_and, if_false]
    rfl
  obtain ⟨regs, preds, fst, others, cregs, flags, sys, advanced, follows, elsewhere⟩ := h
  simp only [once, Bool.false_eq_true, if_false, false_and] at regs preds fst cregs
  refine ⟨?_, ?_, ?_, others, ?_, flags, sys, advanced, follows, elsewhere⟩
  · simpa only [once, Bool.false_eq_true, if_false, reg] using regs
  · simp only [once, Bool.false_eq_true, if_false]
    exact preds
  · simp only [once, Bool.false_eq_true, if_false]
    exact fst
  · simpa only [once, Bool.false_eq_true, if_false, false_and] using cregs

/-- A fixed-latency instruction with .nwb, whose results may have fewer words than its destination. -/
theorem execAlu_wrote_nwb {a : Alu} (h : Passes s c a.front a.own v) (nwb : c.nwb = true)
    (short : ∀ i d, a.front.dst = some d → (a.run v (operands s v a.front) i).regs.length ≤ d.words) :
    ∃ t, execAlu c a s = .next t ∧ Wrote s t v c a.front (a.run v (operands s v a.front)) := by
  let n := (a.front.dst.map Dst.words).getD 0
  obtain ⟨t, next, wrote⟩ := execAlu_wrote (a := { a with run := fun v inp i => (a.run v inp i).filled n }) h fun i d dst => by
    have few := short i d dst
    have wide : n = d.words := by simp only [n]; rw [dst]; rfl
    simp only [LaneOut.filled, List.length_append, List.length_replicate, wide]
    omega
  refine ⟨t, ?_, wrote.of_filled nwb⟩
  rw [← next, execAlu, execAlu, issueChecks_pass h, issueChecks_pass h, aluEffect_filled nwb]

-- Invar instructions

/-- The destination of an Invar instruction that passes its checks is a g register, unless nothing is written to it (R333). -/
theorem Passes.oldWords_length {d : Dst} {ns : List Name} (h : Passes s c f (invarOwn (d.name :: ns)) v) (dst : f.dst = some d) (i : Nat) :
    (oldWords v i d).length ≤ d.words ∧ (c.nwb = false → (oldWords v i d).length = d.words) := by
  have own := h.own
  have names := h.names
  cases hd : d.name with
  | g n => simp [oldWords, hd]
  | c n => simp [invarOwn, hd] at own
  | q n => simp [hd, invarOwn] at own
  | w n => simp [hd, invarOwn] at own
  | k n => simp [hd, invarOwn] at own
  | sp x =>
    refine ⟨by simp [oldWords, hd], fun write => ?_⟩
    simp [nameFault, dst, write, dstOk, hd] at names
  | bad n =>
    refine ⟨by simp [oldWords, hd], fun write => ?_⟩
    simp [nameFault, dst, write, dstOk, hd] at names

/-- The block of a lane, as the operands of its lanes. -/
def blockOf (n i : Nat) (x : Nat → LaneIn) : List LaneIn := ((List.range n).map (fun j => i / n * n + j)).map x

/-- An Invar instruction does what its blocks compute, where each result is as wide as the destination. -/
theorem computes_invar {i : Instr} {n lat : Nat} {srcs : List Opnd} {d : Dst} {run : List LaneIn → Nat → LaneOut} (pos : 0 < n)
    (runs : exec i s = execAlu c (invarAlu n lat srcs d run) s)
    (wide : Passes s c (invarAlu n lat srcs d run).front (invarAlu n lat srcs d run).own v → ∀ i < n, ∀ j,
      (run (blockOf n j (operands s v (invarAlu n lat srcs d run).front)) i).regs.length = d.words) :
    Computes s c v i (invarAlu n lat srcs d run).front (invarOwn (d.name :: srcs.map (·.name))) (invarAlu n lat srcs d run).run := by
  intro h
  have each := wide h
  have old (j : Nat) : (operands s v (invarAlu n lat srcs d run).front j).old = oldWords v j d := rfl
  have lens (j : Nat) : ((invarAlu n lat srcs d run).run v (operands s v (invarAlu n lat srcs d run).front) j).regs.length ≤ d.words ∧
      (c.nwb = false →
        ((invarAlu n lat srcs d run).run v (operands s v (invarAlu n lat srcs d run).front) j).regs.length = d.words) := by
    have block := each (j % n) (Nat.mod_lt _ pos) j
    simp only [invarAlu]
    split
    · exact ⟨block.le, fun _ => block⟩
    · exact h.oldWords_length rfl j
  rw [runs]
  cases nwb : c.nwb with
  | true => exact execAlu_wrote_nwb h nwb fun j x dst => by cases dst; exact (lens j).1
  | false => exact execAlu_wrote h fun j x dst => by cases dst; exact (lens j).2 nwb

-- The widths of their results

theorem elemsOf_length (w64 : Bool) (n : Nat) (ws : List Word) : (elemsOf w64 n ws).length = n := by
  simp [elemsOf]

theorem elemsWords_length (w64 : Bool) (xs : List Nat) : (elemsWords w64 xs).length = xs.length * elemRegs w64 := by
  induction xs with
  | nil => simp [elemsWords]
  | cons x xs ih =>
    rw [elemsWords, List.flatMap_cons, List.length_append, ← elemsWords, ih, List.length_cons, Nat.succ_mul, Nat.add_comm]
    cases w64 <;> rfl

theorem logWords_length (w64 : Bool) (n : Nat) (x : Factor) : (logWords w64 n x).length = if n = 4 then 1 else 2 := by
  unfold logWords
  dsimp only
  split <;> rfl

theorem blockOf_length (n i : Nat) (x : Nat → LaneIn) : (blockOf n i x).length = n := by
  simp [blockOf]

/-- The rows that a block's lanes hold. -/
theorem block_square (w64 : Bool) (n i : Nat) (x : Nat → LaneIn) :
    Square n ((blockOf n i x).map (fun x => elemsOf w64 n (x.vals.getD 0 []))) := by
  refine ⟨by rw [List.length_map, blockOf_length], fun r mem => ?_⟩
  obtain ⟨y, -, rfl⟩ := List.mem_map.mp mem
  exact elemsOf_length ..

/-- A factorization gives a row and the log. -/
theorem factor_wide (w64 : Bool) {n : Nat} (free : Nat → Bool) (qe : Nat → Bool) {rows : List (List Nat)} (sq : Square n rows) {i : Nat}
    (below : i < n) (x : Factor) :
    (elemsWords w64 ((factor (elemFormat w64) n free qe rows).a.getD i []) ++ logWords w64 n x).length =
      n * elemRegs w64 + (if n = 4 then 1 else 2) := by
  rw [List.length_append, elemsWords_length, logWords_length, factor_row_length _ free qe sq below]

/-- The exchanges of a log stay within the block. -/
theorem logPivots_lt {n : Nat} (size : n = 4 ∨ n = 8) (w : Word) : ∀ p ∈ logPivots n w, p < n := by
  intro p mem
  obtain ⟨k, -, rfl⟩ := List.mem_map.mp mem
  rcases size with rfl | rfl
  · exact Nat.mod_lt _ (by decide)
  · exact Nat.mod_lt _ (by decide)

theorem logPivots_length (n : Nat) (w : Word) : (logPivots n w).length = n := by
  simp [logPivots]

/-- What an exchange moves is as wide as it was. -/
theorem exchange_wide {n : Nat} (size : n = 4 ∨ n = 8) {a : Name} {w64 : Bool} {rest : List Opnd} {dst : Option Dst} {per : Bool}
    (h : Passes s c { srcs := oW w64 a :: rest, dst := dst, perLane := per, allowQ := false } own v) (inv : Bool) (w : Word) {i : Nat}
    (below : i < n) (j : Nat) :
    ((exchange inv (logPivots n w) ((blockOf n j (operands s v { srcs := oW w64 a :: rest, dst := dst, perLane := per, allowQ := false })).map
      (fun x => x.vals.getD 0 []))).getD i []).length = elemRegs w64 := by
  generalize hf : ({ srcs := oW w64 a :: rest, dst := dst, perLane := per, allowQ := false } : Front) = f at h ⊢
  have source : oW w64 a ∈ f.srcs := by rw [← hf]; exact List.mem_cons_self
  have each (k : Nat) : ((operands s v f k).vals.getD 0 []).length = elemRegs w64 := by
    have len := srcWords_length (h.srcOk source) (by rw [oW_words]; split <;> decide) s.fresh (popAll s v f.srcPorts).2 k
    rw [oW_words] at len
    rw [← hf] at len ⊢
    exact len
  have all : ∀ x ∈ (blockOf n j (operands s v f)).map (fun x => x.vals.getD 0 []), x.length = elemRegs w64 := by
    intro x mem
    obtain ⟨y, inBlock, rfl⟩ := List.mem_map.mp mem
    obtain ⟨k, -, rfl⟩ := List.mem_map.mp inBlock
    exact each k
  have moved := exchange_forall inv (logPivots n w) all (by rw [List.length_map, blockOf_length, logPivots_length])
    fun p mem => by rw [List.length_map, blockOf_length]; exact logPivots_lt size w p mem
  have inList : i < (exchange inv (logPivots n w) ((blockOf n j (operands s v f)).map (fun x => x.vals.getD 0 []))).length := by
    rw [exchange_length, List.length_map, blockOf_length]
    exact below
  rw [List.getD_eq_getElem?_getD, List.getElem?_eq_getElem inList]
  exact moved _ (List.getElem_mem inList)

section
variable {i : Instr} {n lat : Nat} {w64 : Bool}

theorem computes_factorAlu {d a : Name} {pd : Option Nat} (pos : 0 < n)
    (runs : exec i s = execAlu c (factorAlu s n lat d a pd w64) s) :
    Computes s c v i (factorAlu s n lat d a pd w64).front (factorAlu s n lat d a pd w64).own (factorAlu s n lat d a pd w64).run := by
  refine computes_invar pos runs fun _ i below j => ?_
  exact factor_wide w64 _ _ (block_square ..) below _

theorem computes_solveAlu {tr : Bool} {d a b : Name} (pos : 0 < n) (runs : exec i s = execAlu c (solveAlu n lat tr d a b w64) s) :
    Computes s c v i (solveAlu n lat tr d a b w64).front (solveAlu n lat tr d a b w64).own (solveAlu n lat tr d a b w64).run := by
  refine computes_invar pos runs fun _ i below j => ?_
  exact (elemsWords_length ..).trans (Nat.one_mul _)

theorem computes_pivotAlu {inv : Bool} {d a b : Name} (size : n = 4 ∨ n = 8)
    (runs : exec i s = execAlu c (pivotAlu n lat inv d a b w64) s) :
    Computes s c v i (pivotAlu n lat inv d a b w64).front (pivotAlu n lat inv d a b w64).own (pivotAlu n lat inv d a b w64).run := by
  refine computes_invar (by omega) runs fun h i below j => ?_
  exact exchange_wide size h inv _ below j
end

/-- Settles O28: the steps of R335 to R337 by the lemmas on a block's rows, and each instruction by the width of its results. -/
theorem blockSolverComputes : Obligations.BlockSolverComputes := by
  refine ⟨fun f n free qe rows => factor_steps f n free qe, fun f n a ps b len _ => ⟨substitutes_solve f n a ps b len,
    substitutesT_solve f n a ps b len⟩, ?_, ?_⟩
  · intro ps l short rows
    refine ⟨⟨upTo (fun k l => swapAt l k (ps.getD k 0)) l, rfl, rfl, fun k hk i hi => ?_⟩, exchange_undo ps l short rows⟩
    have len : (upTo (fun k l => swapAt l k (ps.getD k 0)) l k).length = l.length := exchanges_length ps (List.range k) l
    obtain ⟨hkl, hp⟩ := steps_within short rows k (List.mem_range.mpr hk)
    rw [upTo_step, swapAt_getD _ (by rw [len]; exact hkl) (by rw [len]; exact hp)]
  · intro s c v n d srcs words run rows block f own
    refine ⟨?_, ?_, ?_⟩
    · intro a pd w64 hs hw hr
      subst hs hw hr
      refine ⟨fun n4 => ?_, fun n8 b => ?_⟩
      · subst n4
        exact computes_factorAlu (n := 4) (lat := quadLat w64) (d := d) (a := a) (pd := pd) (w64 := w64) (by decide) rfl
      · subst n8
        exact computes_factorAlu (n := 8) (lat := octetLat w64) (d := d) (a := a) (pd := pd) (w64 := w64) (by decide) rfl
    · intro a b w64 tr hs hw hr
      subst hs hw hr
      refine ⟨fun n4 plain => ?_, fun n4 transposed => ?_, fun n8 pd => ?_⟩
      · subst n4 plain
        exact computes_solveAlu (n := 4) (lat := quadLat w64) (tr := false) (d := d) (a := a) (b := b) (w64 := w64) (by decide) rfl
      · subst n4 transposed
        exact computes_solveAlu (n := 4) (lat := quadLat w64) (tr := true) (d := d) (a := a) (b := b) (w64 := w64) (by decide) rfl
      · subst n8
        cases tr
        · exact computes_solveAlu (n := 8) (lat := octetLat w64) (tr := false) (d := d) (a := a) (b := b) (w64 := w64) (by decide) rfl
        · exact computes_solveAlu (n := 8) (lat := octetLat w64) (tr := true) (d := d) (a := a) (b := b) (w64 := w64) (by decide) rfl
    · intro a b w64 inv hs hw hr
      subst hs hw hr
      refine ⟨fun n4 => ?_, fun n8 pd => ?_⟩
      · subst n4
        exact computes_pivotAlu (n := 4) (lat := 6) (inv := inv) (d := d) (a := a) (b := b) (w64 := w64) (.inl rfl) rfl
      · subst n8
        cases inv
        · exact computes_pivotAlu (n := 8) (lat := octetLat w64) (inv := false) (d := d) (a := a) (b := b) (w64 := w64) (.inr rfl) rfl
        · exact computes_pivotAlu (n := 8) (lat := octetLat w64) (inv := true) (d := d) (a := a) (b := b) (w64 := w64) (.inr rfl) rfl

end Sys2Proof.Machine
end

section
/-! O35. Rings in host memory, interrupts and the attestation report (R402, R421, R422, R444). -/

namespace Sys2Proof.Machine

variable {s : State} {d : Nat}

/-- A write of a ring's registers, once the firmware runs, changes that die alone. -/
theorem ringRegister (run : running s = true) (below : d < s.dies.length) (f : Die → Die) {i : Instr}
    (acts : exec i s = whenRunning s (fun s => modDie s d f)) :
    ∃ t, exec i s = .next t ∧ t = { s with dies := t.dies } ∧ dieOf t d = f (dieOf s d) :=
  ⟨modDie s d f, acts.trans (whenRunning_of_running run _), rfl, (dieOf_modDie s below f d).trans (if_pos rfl)⟩

theorem ringConfig_base (v : DWord) (r : HostRing) :
    ringConfig false v r = if r.tail = r.head then { r with base := BitVec.ofNat 64 (v.toNat / 4096 * 4096) } else r := by
  by_cases empty : r.tail = r.head
  · rw [ringConfig, if_neg (not_not_intro empty), if_neg Bool.false_ne_true, if_pos empty]
  · rw [ringConfig, if_pos empty, if_neg empty]

theorem ringConfig_lcap (v : DWord) (r : HostRing) :
    ringConfig true v r = if r.tail = r.head ∧ 4 ≤ v.toNat ∧ v.toNat ≤ 16 then { r with lcap := v.toNat } else r := by
  by_cases empty : r.tail = r.head
  · rw [ringConfig, if_neg (not_not_intro empty), if_pos rfl]
    simp only [empty, true_and]
  · rw [ringConfig, if_pos empty, if_neg (fun h => empty h.1)]

theorem HostRing.takeItem_buffer {r : HostRing} {k x : Nat} {w : List (Nat × Nat)} (item : r.buffer = (k, x) :: w) :
    r.takeItem = some (x, { r with buffer := w }) := by
  rw [HostRing.takeItem, item]

theorem HostRing.takeItem_waiting {r : HostRing} {x : Nat × Nat} {w : List (Nat × Nat)} (none : r.buffer = []) (item : r.waiting = x :: w) :
    r.takeItem = some (x.2, { r with waiting := w }) := by
  obtain ⟨base, lcap, head, tail, buffer, waiting⟩ := r
  cases none
  cases item
  rfl

/-- What a ring that has room writes next goes to TAIL. -/
theorem ringWrite_of_item {r r' : HostRing} {size x : Nat} (configured : r.configured = true) (room : r.full = false)
    (item : r.takeItem = some (x, r')) : ringWrite s r size = some
      ({ s with mem := putBytes s.mem (pkey 4 (r.place size % 2 ^ 50)) (toBytes size (x % 2 ^ (8 * size))) },
        { r' with tail := r'.tail + 1 }, x, r.place size) := by
  rw [ringWrite, configured, room, item]
  rfl

/-- An event entry is written (R421). -/
theorem eventEntryWrite_of_item {r' : HostRing} {x : Nat} (configured : (dieOf s d).events.configured = true)
    (room : (dieOf s d).events.full = false) (item : (dieOf s d).events.takeItem = some (x, r')) :
    exec (.eventEntryWrite d) s = .next (modDie
      { s with mem := putBytes s.mem (pkey 4 ((dieOf s d).events.place 16 % 2 ^ 50)) (toBytes 16 (x % 2 ^ (8 * 16))) } d
      (fun y => { y with events := { r' with tail := r'.tail + 1 } })) := by
  have written := ringWrite_of_item (s := s) (size := 16) configured room item
  rw [show exec (.eventEntryWrite d) s = execEventEntryWrite d s from rfl, execEventEntryWrite]
  rw [written]

/-- A fault record is written, and its event entry waits (R444). -/
theorem faultRecordWrite_of_item {r' : HostRing} {x : Nat} (configured : (dieOf s d).faults.configured = true)
    (room : (dieOf s d).faults.full = false) (item : (dieOf s d).faults.takeItem = some (x, r')) :
    exec (.faultRecordWrite d) s = .next (postEvent (modDie
      { s with mem := putBytes s.mem (pkey 4 ((dieOf s d).faults.place 64 % 2 ^ 50)) (toBytes 64 (x % 2 ^ (8 * 64))) } d
      (fun y => { y with faults := { r' with tail := r'.tail + 1 } })) d
      (eventEntry 5 (x / 2 ^ 512) (if fld x 7 0 = 17 then 1 else fld x 7 0) (fld x 63 32) ((dieOf s d).faults.place 64))).1 := by
  have written := ringWrite_of_item (s := s) (size := 64) configured room item
  rw [show exec (.faultRecordWrite d) s = execFaultRecordWrite d s from rfl, execFaultRecordWrite]
  dsimp only
  rw [written]

/-- Does an interrupt still wait: for its entry, or for a message that the reported write caused (R402)? -/
def Msi.waits (s : State) (m : Msi) : Prop :=
  (dieOf s m.die).events.holds m.entry = true ∨ (m.cause ≠ 0 ∧ ∃ x ∈ s.msgs, x.cause = m.cause)

/-- The test that picks the next interrupt. -/
theorem msi_free_iff (s : State) (m : Msi) :
    (!(dieOf s m.die).events.holds m.entry && !(m.cause != 0 && s.msgs.any (fun x => x.cause == m.cause))) = true ↔ ¬ m.waits s := by
  simp only [Msi.waits, Bool.and_eq_true, Bool.not_eq_true', Bool.and_eq_false_iff, bne_eq_false_iff_eq, List.any_eq_false, beq_iff_eq,
    not_or, not_and, not_exists, Bool.not_eq_true]
  constructor
  · rintro ⟨written, acked⟩
    exact ⟨written, fun caused => acked.resolve_left caused⟩
  · rintro ⟨written, acked⟩
    exact ⟨written, (Decidable.em (m.cause = 0)).imp id acked⟩

/-- The first interrupt that waits for nothing is the next. -/
theorem nextMsi_of_first {a r : List Msi} {m : Msi} (eq : s.msiWait = a ++ m :: r) (waiting : ∀ w ∈ a, w.waits s) (free : ¬ m.waits s) :
    nextMsi s = some m := by
  rw [nextMsi, eq, List.find?_append, List.find?_eq_none.mpr fun w mem => (msi_free_iff s w).not.mpr (not_not_intro (waiting w mem)),
    Option.none_or]
  exact List.find?_cons_of_pos ((msi_free_iff s m).mpr free)

/-- An interrupt is sent unless its vector is masked; the others wait on (R402). -/
theorem msiSend_of_first {a r : List Msi} {m : Msi} (eq : s.msiWait = a ++ m :: r) (waiting : ∀ w ∈ a, w.waits s) (free : ¬ m.waits s) :
    exec .msiSend s = .next { s with
      msiWait := a ++ r
      msiSent := if m.vec < 2048 ∧ (tget (0, 0) s.mgmt.vectors m.vec).2.getLsbD 32 = false
        then s.msiSent ++ [((tget (0, 0) s.mgmt.vectors m.vec).1, lo32 (tget (0, 0) s.mgmt.vectors m.vec).2)]
        else s.msiSent } := by
  have later : m ∉ a := fun mem => free (waiting m mem)
  have erased : s.msiWait.erase m = a ++ r := by
    rw [eq, List.erase_append_right _ later, List.erase_cons_head]
  rw [show exec .msiSend s = execMsiSend s from rfl, execMsiSend, nextMsi_of_first eq waiting free]
  dsimp only
  rw [erased]
  split <;> rfl

/-- The two numbers of a report's signature (R422). -/
def signature (m : Mgmt) : List Byte :=
  toBytes 66 (Config.attestSign (attestBody m)).1 ++ toBytes 66 (Config.attestSign (attestBody m)).2

/-- The attestation report goes to its address (R422). -/
theorem attestReportWrite_of_busy (busy : s.mgmt.attBusy = true) : exec .attestReportWrite s =
    .next (setMgmt { s with mem := putBytes s.mem (pkey 4 (s.mgmt.attAddr.toNat % 2 ^ 50)) (attestBody s.mgmt ++ signature s.mgmt) }
      (fun m => { m with attBusy := false })) := by
  rw [show exec .attestReportWrite s = execAttestReportWrite s from rfl, execAttestReportWrite, busy, signature, ← List.append_assoc]
  rfl

/-- Settles O35: the registers by `ringRegister`, what is written by `ringWrite_of_item`, the interrupts by `msiSend_of_first`. -/
theorem hostRingsFill : Obligations.HostRingsFill := by
  intro s
  refine ⟨fun d v run below => ?_, fun d v run below => ?_, fun d v run below => ?_, fun d v run below => ?_,
    fun d k x w below configured room item small => ?_, fun d x w below configured room none item => ?_,
    fun a m r eq waiting written acked => ?_, fun busy => ?_⟩
  · obtain ⟨t, acts, same, die⟩ := ringRegister (i := .eventQueueConfig d false v) run below
      (fun y => { y with events := ringConfig false v y.events }) rfl
    exact ⟨t, acts, same, by rw [die, ← ringConfig_base]⟩
  · obtain ⟨t, acts, same, die⟩ := ringRegister (i := .faultRingConfig d true v) run below
      (fun y => { y with faults := ringConfig true v y.faults }) rfl
    exact ⟨t, acts, same, by rw [die, ← ringConfig_lcap]⟩
  · obtain ⟨t, acts, same, die⟩ := ringRegister (i := .eventQueueHeadWrite d v) run below
      (fun y => { y with events := { y.events with head := v } }) rfl
    exact ⟨t, acts, same, by rw [die]⟩
  · obtain ⟨t, acts, same, die⟩ := ringRegister (i := .faultRingHeadWrite d v) run below
      (fun y => { y with faults := { y.faults with head := v } }) rfl
    exact ⟨t, acts, same, by rw [die]⟩
  · have taken := HostRing.takeItem_buffer item
    refine ⟨_, eventEntryWrite_of_item configured room taken, ?_, ?_, ?_⟩
    · exact congrArg (·.events.tail) ((dieOf_modDie _ below _ d).trans (if_pos rfl))
    · exact congrArg (·.events.buffer) ((dieOf_modDie _ below _ d).trans (if_pos rfl))
    · show putBytes _ _ _ = _
      rw [Nat.mod_eq_of_lt small]
      rfl
  · have taken := HostRing.takeItem_waiting none item
    have record : ∀ (m : Tab Byte) f, dieOf (modDie { s with mem := m } d f) d = f (dieOf s d) :=
      fun m f => (dieOf_modDie _ below f d).trans (if_pos rfl)
    have posted : ∀ (y : State) e, d < y.dies.length → dieOf (postEvent y d e).1 d =
        { dieOf y d with events := { (dieOf y d).events with waiting := (dieOf y d).events.waiting ++ [(y.fresh, e)] } } :=
      fun y e below => (dieOf_modDie y below _ d).trans (if_pos rfl)
    have below' : ∀ (m : Tab Byte) f, d < (modDie { s with mem := m } d f).dies.length := fun m f => by
      rw [modDie]
      exact lt_of_lt_of_eq below (List.length_modify ..).symm
    refine ⟨_, faultRecordWrite_of_item configured room taken, ?_, ?_, rfl, ?_⟩
    · rw [posted _ _ (below' _ _), record]
    · rw [posted _ _ (below' _ _), record]
    · rw [posted _ _ (below' _ _), record]
      rfl
  · refine msiSend_of_first eq waiting fun waits => ?_
    obtain held | ⟨caused, x, mem, same⟩ := waits
    · exact absurd held (by rw [written]; decide)
    · exact (acked.resolve_left caused) x mem same
  · refine ⟨_, signature s.mgmt, attestReportWrite_of_busy busy, rfl, ?_, rfl⟩
    rw [signature, List.length_append, length_toBytes, length_toBytes]

end Sys2Proof.Machine
end

section
/-! O32. EVNT whose code is a port pops it, and the pop may have to fetch: the fetch can make a line leave the caches, whose bytes then
reach the memory below them. -/

namespace Sys2Proof.Machine

open Sys2Proof.Tests

/-- A port q0 whose next element stands at address 0 of die 0 and has not been prefetched. The set of that line in the memory-side cache
is full, and HBM holds an older byte for line 1, which is in no cache. -/
def unsettled : State :=
  let s := withPort 0 (boundPort 0) s0
  { s with
    mem := tput memDefault (tput memDefault s.mem 0 64) 64 0x43
    msc := [(0, List.replicate 16 (0, 1))]
    older := [(1, [1])] }

/-- EVNT with the port as its code. -/
def popsPort : Instr := .evnt c0 (.q 0) (.g 2) false

theorem popsPort_meets : meets unsettled c0 { srcs := [o1 (.q 0), o2 (.g 2)] } noOwn
    (fun v => decide (coreDie v.core < unsettled.dies.length)) = true := by decide +kernel

/-- The byte of memory at 128 after a step. -/
def byteOf (o : Out) : Option Byte :=
  match o with
  | .next t => some (tget memDefault t.mem 128)
  | _ => none

theorem byteAfter_eq : byteOf (exec popsPort unsettled) = some 1 := by decide +kernel

theorem byteBefore_eq : tget memDefault unsettled.mem 128 = 0 := by decide +kernel

/-- Refutes O32: the pop of EVNT's code fetches its element, a line gives way in the memory-side cache, and the older bytes of HBM under
that line come to be what memory reads as. The statement says that memory stays as it was, for every state, a settled one or not. -/
theorem not_eventsAndHalt : ¬ Obligations.EventsAndHalt := by
  intro claim
  obtain ⟨v, passes, onDie⟩ := passes_of popsPort_meets
  obtain ⟨t, acts, same, -⟩ := (claim unsettled c0 v).1 (.q 0) (.g 2) false passes (of_decide_eq_true onDie)
  have after : byteOf (.next t) = some 1 := (congrArg byteOf acts).symm.trans byteAfter_eq
  rw [byteOf, same, byteBefore_eq] at after
  exact absurd after (by decide)

end Sys2Proof.Machine
end


section
/-! O43: barriers and regrouping. A fold over lanes changes each of them once; insertion keeps the order of the tags; and a gang
that received quads holds exactly these. -/

namespace Sys2Proof.Machine

/-- Where a lane stands. -/
abbrev LaneAt := Nat × Nat × Nat

def findAt (s : State) (k : LaneAt) : Option Lane := findLane s k.1 k.2.1 k.2.2
def modAt (s : State) (k : LaneAt) (f : Lane → Lane) : State := modLane s k.1 k.2.1 k.2.2 f

theorem findAt_modAt (s : State) (k : LaneAt) (f : Lane → Lane) : findAt (modAt s k f) k = (findAt s k).map f :=
  findLane_modLane s k.1 k.2.1 k.2.2 f

theorem findAt_modAt_ne (s : State) {k j : LaneAt} (f : Lane → Lane) (ne : j ≠ k) : findAt (modAt s k f) j = findAt s j := by
  obtain ⟨u, g, i⟩ := k
  obtain ⟨v, h, n⟩ := j
  refine findLane_modLane_ne s f ?_
  simp only [ne_eq, Prod.mk.injEq, not_and] at ne
  tauto

section
variable {β : Type} (key : β → LaneAt) (f : β → Lane → Lane)

/-- A fold over other lanes leaves a lane as it is. -/
theorem findAt_foldl_ne (l : List β) (s : State) (j : LaneAt) (other : ∀ y ∈ l, j ≠ key y) :
    findAt (l.foldl (fun s y => modAt s (key y) (f y)) s) j = findAt s j := by
  induction l generalizing s with
  | nil => rfl
  | cons y l ih =>
    rw [List.foldl_cons, ih _ fun z hz => other z (by simp [hz]), findAt_modAt_ne s _ (other y (by simp))]

/-- A fold over distinct lanes changes each once. -/
theorem findAt_foldl (l : List β) (s : State) (distinct : (l.map key).Nodup) (y : β) (mem : y ∈ l) :
    findAt (l.foldl (fun s y => modAt s (key y) (f y)) s) (key y) = (findAt s (key y)).map (f y) := by
  induction l generalizing s with
  | nil => simp at mem
  | cons z l ih =>
    obtain ⟨fresh, rest⟩ := List.nodup_cons.mp distinct
    rcases List.mem_cons.mp mem with rfl | later
    · rw [List.foldl_cons, findAt_foldl_ne key f l _ _ fun z hz e => fresh (by rw [e]; exact List.mem_map_of_mem hz), findAt_modAt]
    · rw [List.foldl_cons, ih _ rest later, findAt_modAt_ne]
      exact fun e => fresh (by rw [← e]; exact List.mem_map_of_mem later)

theorem foldl_modAt_mem (l : List β) (s : State) : (l.foldl (fun s y => modAt s (key y) (f y)) s).mem = s.mem := by
  induction l generalizing s with
  | nil => rfl
  | cons y l ih => rw [List.foldl_cons, ih]; rfl

end

-- Barriers

/-- The teams of a state are told apart by their numbers. -/
theorem findTeam_of_mem {s : State} (distinct : (s.teams.map (·.uid)).Nodup) {t : Team} (mem : t ∈ s.teams) : findTeam s t.uid = some t := by
  unfold findTeam
  obtain ⟨u, hu⟩ : ∃ u, s.teams.find? (fun x => x.uid == t.uid) = some u :=
    Option.isSome_iff_exists.mp (List.find?_isSome.mpr ⟨t, mem, by simp⟩)
  have same : u.uid = t.uid := by simpa using List.find?_some hu
  rw [hu, List.inj_on_of_nodup_map distinct (List.mem_of_find?_eq_some hu) mem same]

theorem teamGangs_nodup (l : List Team) (distinct : (l.map (·.uid)).Nodup) :
    ((l.flatMap fun t => (List.range t.gangs.length).map fun g => (t, g)).map fun y => (y.1.uid, y.2)).Nodup := by
  induction l with
  | nil => simp
  | cons t l ih =>
    obtain ⟨fresh, rest⟩ := List.nodup_cons.mp distinct
    rw [List.flatMap_cons, List.map_append, List.nodup_append]
    refine ⟨?_, ih rest, ?_⟩
    · rw [List.map_map]
      exact List.Nodup.map (fun a b e => (Prod.mk.inj e).2) List.nodup_range
    · rintro ⟨u, g⟩ hu ⟨v, h⟩ hv e
      simp only [List.mem_map, List.mem_flatMap, Prod.mk.injEq] at hu hv
      obtain ⟨_, ⟨_, _, rfl⟩, rfl, _⟩ := hu
      obtain ⟨_, ⟨w, hw, _, _, rfl⟩, rfl, _⟩ := hv
      exact fresh (List.mem_map.mpr ⟨w, hw, ((Prod.mk.inj e).1).symm⟩)

theorem barGangs_nodup {s : State} (distinct : (s.teams.map (·.uid)).Nodup) (b : Bar) :
    ((barGangs s b).1.map fun y => (y.1.uid, y.2)).Nodup := by
  have one (u : Nat) : ((findTeam s u).toList.map (·.uid)).Nodup := by cases findTeam s u <;> simp
  cases b with
  | gang u g => cases h : findTeam s u <;> simp [barGangs, h]
  | team u => exact teamGangs_nodup _ (one u)
  | band l b => exact teamGangs_nodup _ (distinct.sublist (List.filter_sublist.map _))

theorem barGangs_team {s : State} (distinct : (s.teams.map (·.uid)).Nodup) {b : Bar} {y : Team × Nat} (mem : y ∈ (barGangs s b).1) :
    findTeam s y.1.uid = some y.1 := by
  have one {u : Nat} {t : Team} (h : findTeam s u = some t) : findTeam s t.uid = some t :=
    findTeam_of_mem distinct (List.mem_of_find?_eq_some h)
  cases b with
  | gang u g =>
    simp only [barGangs, List.mem_map, Option.mem_toList] at mem
    obtain ⟨t, ht, rfl⟩ := mem
    exact one ht
  | team u =>
    simp only [barGangs, List.mem_flatMap, List.mem_map, Option.mem_toList] at mem
    obtain ⟨t, ht, g, _, rfl⟩ := mem
    exact one ht
  | band l b =>
    simp only [barGangs, List.mem_flatMap, List.mem_map, List.mem_filter] at mem
    obtain ⟨t, ⟨ht, _⟩, g, _, rfl⟩ := mem
    exact findTeam_of_mem distinct ht

theorem absent_not_live : Lane.absent.live = false := rfl

theorem emptyGang_lane (i : Nat) : Gang.empty.lane i = Lane.absent := by
  rw [Gang.lane, show Gang.empty.lanes = List.replicate 32 Lane.absent from rfl, List.getD_eq_getElem?_getD, List.getElem?_replicate]
  split <;> rfl

/-- A lane that has not exited stands in its gang. -/
theorem findLane_liveAt {s : State} {t : Team} {u g i : Nat} (found : findTeam s u = some t) (live : i ∈ (t.gang g).liveAt) :
    findLane s u g i = some ((t.gang g).lane i) := by
  have live : ((t.gang g).lane i).live = true := (List.mem_filter.mp live).2
  unfold Team.gang Gang.lane at *
  simp only [findLane, findGang, found, List.getD_eq_getElem?_getD, Option.bind_some] at live ⊢
  cases hg : t.gangs[g]? with
  | none =>
    rw [hg] at live
    have none_ : (Gang.empty.lanes[i]?).getD Lane.absent = Lane.absent := emptyGang_lane i
    simp [none_, absent_not_live] at live
  | some x =>
    cases hl : x.lanes[i]? with
    | none => simp [hg, hl, absent_not_live] at live
    | some l => simp [hl]

/-- A participant of a barrier: where it stands, and the scope at which it arrived. -/
abbrev Participant := Nat × Nat × Nat × Option Scope

def participants (s : State) (b : Bar) : List Participant :=
  (barGangs s b).1.flatMap fun y => ((y.1.gang y.2).liveAt).map fun i => (y.1.uid, y.2, i, ((y.1.gang y.2).lane i).arrived (barGangs s b).2)

def Participant.at_ (y : Participant) : LaneAt := (y.1, y.2.1, y.2.2.1)

theorem mem_participants {s : State} {b : Bar} {z : Participant} : z ∈ participants s b ↔
    ∃ y ∈ (barGangs s b).1, ∃ i ∈ (y.1.gang y.2).liveAt, (y.1.uid, y.2, i, ((y.1.gang y.2).lane i).arrived (barGangs s b).2) = z := by
  simp only [participants, List.mem_flatMap, List.mem_map]

theorem participants_nodup {s : State} (distinct : (s.teams.map (·.uid)).Nodup) (b : Bar) : ((participants s b).map Participant.at_).Nodup := by
  have gangs := barGangs_nodup distinct b
  unfold participants
  generalize (barGangs s b).2 = k
  generalize (barGangs s b).1 = l at gangs
  induction l with
  | nil => simp
  | cons y l ih =>
    obtain ⟨fresh, rest⟩ := List.nodup_cons.mp gangs
    rw [List.flatMap_cons, List.map_append, List.nodup_append]
    refine ⟨?_, ih rest, ?_⟩
    · rw [List.map_map]
      exact (List.nodup_range.filter _).map fun a b e => (Prod.mk.inj (Prod.mk.inj e).2).2
    · rintro p hp q hq rfl
      simp only [List.mem_map, List.mem_flatMap] at hp hq
      obtain ⟨_, ⟨i, _, rfl⟩, rfl⟩ := hp
      obtain ⟨_, ⟨z, hz, j, _, rfl⟩, e⟩ := hq
      have same : (z.1.uid, z.2) = (y.1.uid, y.2) := by
        obtain ⟨hu, hrest⟩ := Prod.mk.inj e
        exact Prod.ext hu (Prod.mk.inj hrest).1
      exact fresh (List.mem_map.mpr ⟨z, hz, same⟩)

/-- R98: a barrier that all its participants have reached releases each. -/
theorem execBarrierComplete_met {s : State} {b : Bar} (some_ : ∃ y ∈ (barGangs s b).1, (y.1.gang y.2).liveAt ≠ [])
    (met : ∀ y ∈ (barGangs s b).1, ∀ i ∈ (y.1.gang y.2).liveAt, ((y.1.gang y.2).lane i).arrived (barGangs s b).2 ≠ none) :
    exec (.barrierComplete b) s =
      .next ((participants s b).foldl (fun s y => modAt s y.at_ (passBarrier (y.2.2.2.getD .core))) s) := by
  change execBarrierComplete b s = _
  have ready : ¬ ((participants s b).isEmpty ∨ (participants s b).any fun y => y.2.2.2.isNone) := by
    rintro (empty | missing)
    · obtain ⟨y, hy, live⟩ := some_
      obtain ⟨i, hi⟩ := List.exists_mem_of_ne_nil _ live
      have := mem_participants.mpr ⟨y, hy, i, hi, rfl⟩
      simp [List.isEmpty_iff.mp empty] at this
    · obtain ⟨z, hz, none_⟩ := List.any_eq_true.mp missing
      obtain ⟨y, hy, i, hi, rfl⟩ := mem_participants.mp hz
      exact met y hy i hi (by simpa using none_)
  exact if_neg ready

/-- R98: a participant that passes acquires at its scope and goes on. -/
theorem passBarrier_passes (sc : Scope) (l : Lane) : (passBarrier sc l).st = (if l.handler then .trapped else .running) ∧
    (passBarrier sc l).queue = l.queue ++ [LaneOp.plain (.acq sc)] ∧ (passBarrier sc l).regs = l.regs ∧ (passBarrier sc l).pc = l.pc :=
  ⟨rfl, rfl, rfl, rfl⟩

-- Quads

/-- A quad of four places with a lane that is there. -/
def Quad.whole (q : Quad) : Prop := q.lanes.length = 4 ∧ ∃ l ∈ q.lanes, l.st ≠ .absent

/-- In order of their tags. -/
def Quad.ordered (qs : List Quad) : Prop := qs.Pairwise fun a b => a.phase.tag.toNat ≤ b.phase.tag.toNat

theorem mem_insert {q y : Quad} {qs : List Quad} : y ∈ q.insert qs ↔ y = q ∨ y ∈ qs := by
  induction qs with
  | nil => simp [Quad.insert]
  | cons x qs ih =>
    unfold Quad.insert
    split
    · simp
    · simp only [List.mem_cons, ih]
      tauto

theorem insert_ordered {q : Quad} {qs : List Quad} (h : Quad.ordered qs) : Quad.ordered (q.insert qs) := by
  induction qs with
  | nil => simp [Quad.insert, Quad.ordered]
  | cons x qs ih =>
    obtain ⟨first, rest⟩ := List.pairwise_cons.mp h
    unfold Quad.insert
    split
    · next before =>
      have low : q.phase.tag.toNat ≤ x.phase.tag.toNat := by
        rcases before with same | less | ⟨same, _⟩
        · exact (Prod.mk.inj same).1.le
        · exact less.le
        · rw [same]
      refine List.pairwise_cons.mpr ⟨fun y hy => ?_, h⟩
      rcases List.mem_cons.mp hy with rfl | hy
      · exact low
      · exact low.trans (first y hy)
    · next after =>
      refine List.pairwise_cons.mpr ⟨fun y hy => ?_, ih rest⟩
      rcases mem_insert.mp hy with rfl | hy
      · simp only [not_or] at after
        exact Nat.le_of_not_lt after.2.1
      · exact first y hy

theorem mem_sorted {y : Quad} {qs : List Quad} : y ∈ qs.foldr Quad.insert [] ↔ y ∈ qs := by
  induction qs with
  | nil => rfl
  | cons x qs ih => rw [List.foldr_cons, mem_insert, ih, List.mem_cons]

theorem sorted_ordered (qs : List Quad) : Quad.ordered (qs.foldr Quad.insert []) := by
  induction qs with
  | nil => exact List.Pairwise.nil
  | cons x qs ih => exact insert_ordered ih

/-- Place `4 k + i` of quads of four lanes is place `i` of quad `k`. -/
theorem getElem?_flatLanes {qs : List Quad} (four : ∀ q ∈ qs, q.lanes.length = 4) (k : Nat) {i : Nat} (hi : i < 4) :
    (qs.flatMap (·.lanes))[4 * k + i]? = (qs[k]?).bind fun q => q.lanes[i]? := by
  induction qs generalizing k with
  | nil => simp
  | cons q qs ih =>
    have len : q.lanes.length = 4 := four q (by simp)
    cases k with
    | zero => simp [List.getElem?_append_left (show i < q.lanes.length by omega)]
    | succ k =>
      rw [List.flatMap_cons, List.getElem?_append_right (by omega), show 4 * (k + 1) + i - q.lanes.length = 4 * k + i by omega,
        ih (fun q hq => four q (by simp [hq]))]
      simp

/-- The lanes of a gang that received quads. -/
theorem deal_lanes (g : Gang) (qs : List Quad) :
    (g.deal qs).lanes = qs.flatMap (·.lanes) ++ List.replicate (32 - (qs.flatMap (·.lanes)).length) Lane.absent := by
  unfold Gang.deal
  split <;> rfl

theorem deal_phase (g : Gang) (qs : List Quad) : (g.deal qs).phase = qs.map (·.phase) ++ List.replicate (8 - qs.length) Phase.zero := by
  unfold Gang.deal
  split <;> rfl

theorem getD_append_replicate {α : Type} (l : List α) (n k : Nat) (d : α) : (l ++ List.replicate n d).getD k d = l.getD k d := by
  rw [List.getD_eq_getElem?_getD, List.getD_eq_getElem?_getD]
  by_cases h : k < l.length
  · rw [List.getElem?_append_left h]
  · rw [List.getElem?_append_right (by omega), List.getElem?_eq_none (show l.length ≤ k by omega), List.getElem?_replicate]
    split <;> rfl

theorem deal_lane (g : Gang) {qs : List Quad} (four : ∀ q ∈ qs, q.lanes.length = 4) (k : Nat) {i : Nat} (hi : i < 4) :
    (g.deal qs).lane (4 * k + i) = ((qs[k]?).bind fun q => q.lanes[i]?).getD Lane.absent := by
  rw [Gang.lane, deal_lanes, getD_append_replicate, List.getD_eq_getElem?_getD, getElem?_flatLanes four k hi]

/-- Quad `k` of a gang, if it holds lanes: what `Gang.quads` collects. -/
def Gang.quadAt (g : Gang) (k : Nat) : Option Quad :=
  let ls := (List.range 4).map fun i => g.lane (4 * k + i)
  if ls.all (fun l => l.st == .absent) then none else some { lanes := ls, phase := g.phase.getD k Phase.zero }

theorem quads_eq (g : Gang) : g.quads = (List.range 8).filterMap g.quadAt := rfl

theorem deal_quadAt (g : Gang) {qs : List Quad} (whole : ∀ q ∈ qs, q.whole) (k : Nat) : (g.deal qs).quadAt k = qs[k]? := by
  have four : ∀ q ∈ qs, q.lanes.length = 4 := fun q hq => (whole q hq).1
  have lanes : ((List.range 4).map fun i => (g.deal qs).lane (4 * k + i)) =
      (List.range 4).map fun i => ((qs[k]?).bind fun q => q.lanes[i]?).getD Lane.absent :=
    List.map_congr_left fun i hi => deal_lane g four k (List.mem_range.mp hi)
  unfold Gang.quadAt
  rw [lanes]
  cases hk : qs[k]? with
  | none => simp [Lane.absent]
  | some q =>
    obtain ⟨len, l, hl, there⟩ := whole q (List.mem_of_getElem? hk)
    have all : ((List.range 4).map fun i => ((some q).bind fun q => q.lanes[i]?).getD Lane.absent) = q.lanes := by
      refine List.ext_getElem (by simp [len]) fun i h1 h2 => ?_
      simp [List.getElem?_eq_getElem h2]
    have some_ : ¬ q.lanes.all (fun l => l.st == .absent) = true := fun h => there (by simpa using List.all_eq_true.mp h l hl)
    rw [all]
    have phase : (g.deal qs).phase.getD k Phase.zero = q.phase := by
      rw [deal_phase, getD_append_replicate, List.getD_eq_getElem?_getD, List.getElem?_map, hk]
      rfl
    simp only [if_neg some_, phase]

/-- A gang that received quads holds these. -/
theorem deal_quads (g : Gang) {qs : List Quad} (whole : ∀ q ∈ qs, q.whole) (fits : qs.length ≤ 8) : (g.deal qs).quads = qs := by
  rw [quads_eq, funext (deal_quadAt g whole)]
  have all : (List.range 8).filterMap (fun k => qs[k]?) = (List.range qs.length).filterMap fun k => qs[k]? := by
    obtain ⟨n, hn⟩ := Nat.exists_eq_add_of_le fits
    rw [hn, List.range_add, List.filterMap_append]
    simp
  rw [all]
  have map : (List.range qs.length).map (fun k => qs[k]?) = qs.map some :=
    List.ext_getElem (by simp) fun i h1 h2 => by simp at h1; simp [h1]
  have := congrArg (List.filterMap id) map
  rw [List.filterMap_map, List.filterMap_map] at this
  simpa [Function.comp_def] using this

/-- The quads that stand in the gangs after the deal are some of those dealt, in the same order. -/
theorem dealGangs_quads (p : Nat) (fits : p ≤ 8) (gs : List Gang) (qs : List Quad) (whole : ∀ q ∈ qs, q.whole) :
    (((dealGangs p gs qs).filter (fun g => !g.retired)).flatMap Gang.quads).Sublist qs := by
  induction gs generalizing qs with
  | nil => simp [dealGangs]
  | cons g gs ih =>
    unfold dealGangs
    split
    · next gone => simpa [gone] using ih qs whole
    · next stays =>
      have rest := ih (qs.drop p) fun q hq => whole q (List.mem_of_mem_drop hq)
      rw [List.filter_cons]
      split
      · rw [List.flatMap_cons, deal_quads g (fun q hq => whole q (List.mem_of_mem_take hq)) (by rw [List.length_take]; omega)]
        conv => rhs; rw [← List.take_append_drop p qs]
        exact rest.append_left _
      · exact rest.trans (List.drop_sublist _ _)

theorem dealGangs_length (p : Nat) (gs : List Gang) (qs : List Quad) : (dealGangs p gs qs).length = gs.length := by
  induction gs generalizing qs with
  | nil => rfl
  | cons g gs ih =>
    unfold dealGangs
    split <;> simp [ih]

/-- A lane that stands in a gang after the deal: one of a retired gang, one of a quad, or none. -/
theorem dealGangs_lane {p : Nat} {gs : List Gang} {qs : List Quad} {g : Gang} (hg : g ∈ dealGangs p gs qs) {l : Lane} (hl : l ∈ g.lanes) :
    (∃ h ∈ gs, h.retired = true ∧ l ∈ h.lanes) ∨ (∃ q ∈ qs, l ∈ q.lanes) ∨ l = Lane.absent := by
  induction gs generalizing qs with
  | nil => simp [dealGangs] at hg
  | cons h gs ih =>
    unfold dealGangs at hg
    split at hg
    · next gone =>
      rcases List.mem_cons.mp hg with rfl | hg
      · exact .inl ⟨g, by simp, gone, hl⟩
      · rcases ih hg with ⟨h', hh, r⟩ | other
        · exact .inl ⟨h', by simp [hh], r⟩
        · exact .inr other
    · rcases List.mem_cons.mp hg with rfl | hg
      · rw [deal_lanes, List.mem_append, List.mem_flatMap] at hl
        rcases hl with ⟨q, hq, hl⟩ | hl
        · exact .inr (.inl ⟨q, List.mem_of_mem_take hq, hl⟩)
        · exact .inr (.inr (List.eq_of_mem_replicate hl))
      · rcases ih hg with ⟨h', hh, r⟩ | ⟨q, hq, hl⟩ | rfl
        · exact .inl ⟨h', by simp [hh], r⟩
        · exact .inr (.inl ⟨q, List.mem_of_mem_drop hq, hl⟩)
        · exact .inr (.inr rfl)

theorem quadAt_lanes {g : Gang} {k : Nat} {q : Quad} (h : g.quadAt k = some q) : q.lanes = (List.range 4).map fun i => g.lane (4 * k + i) := by
  unfold Gang.quadAt at h
  extract_lets ls at h
  split at h
  · cases h
  · injection h with h
    rw [← h]

/-- The lanes of a full gang's quads are its lanes. -/
theorem quads_lanes {g : Gang} (full : g.lanes.length = 32) {q : Quad} (hq : q ∈ g.quads) : q.lanes.length = 4 ∧ ∀ l ∈ q.lanes, l ∈ g.lanes := by
  rw [quads_eq, List.mem_filterMap] at hq
  obtain ⟨k, hk, hq⟩ := hq
  rw [quadAt_lanes hq]
  refine ⟨by simp, fun l hl => ?_⟩
  obtain ⟨i, hi, rfl⟩ := List.mem_map.mp hl
  have inside : 4 * k + i < g.lanes.length := by
    have := List.mem_range.mp hk
    have := List.mem_range.mp hi
    omega
  rw [Gang.lane, List.getD_eq_getElem _ _ inside]
  exact List.getElem_mem inside

/-- R81: in a regrouped quad every lane goes on. -/
theorem regrouped_lane {q : Quad} {l : Lane} (hl : l ∈ q.regrouped.lanes) : l.st = .running ∨ l.st = .trapped := by
  simp only [Quad.regrouped, List.mem_map] at hl
  obtain ⟨a, _, rfl⟩ := hl
  split
  · exact .inl rfl
  · change (passBarrier .core a).st = _ ∨ (passBarrier .core a).st = _
    rw [(passBarrier_passes .core a).1]
    cases a.handler
    · exact .inl rfl
    · exact .inr rfl

theorem regrouped_whole {q : Quad} (four : q.lanes.length = 4) : q.regrouped.whole := by
  have len : q.regrouped.lanes.length = 4 := by simpa [Quad.regrouped] using four
  obtain ⟨l, hl⟩ := List.exists_mem_of_length_pos (l := q.regrouped.lanes) (by omega)
  refine ⟨len, l, hl, ?_⟩
  rcases regrouped_lane hl with h | h <;> simp [h]

/-- The quads of a team that are dealt at REGRP, in order. -/
def Team.dealt (t : Team) : List Quad :=
  (((t.gangs.flatMap Gang.quads).filter (fun q => q.lanes.any Lane.live)).map Quad.regrouped).foldr Quad.insert []

theorem mem_dealt {t : Team} (full : ∀ g ∈ t.gangs, g.lanes.length = 32) {q : Quad} (hq : q ∈ t.dealt) :
    q.whole ∧ ∀ l ∈ q.lanes, l.st = .running ∨ l.st = .trapped := by
  rw [Team.dealt, mem_sorted, List.mem_map] at hq
  obtain ⟨p, hp, rfl⟩ := hq
  obtain ⟨g, hg, hp⟩ := List.mem_flatMap.mp (List.mem_filter.mp hp).1
  exact ⟨regrouped_whole (quads_lanes (full g hg) hp).1, fun l hl => regrouped_lane hl⟩

/-- R81: what holds up a team at REGRP is not there, and its quads are dealt. -/
theorem execRegroup_ready {s : State} {team : Nat} {t : Team} (found : findTeam s team = some t) (placed : t.core ≠ none)
    (going : t.ending = none) (some_ : ∃ g ∈ t.gangs, ∃ l ∈ g.lanes, l.live = true)
    (met : ∀ g ∈ t.gangs, g.lanes.length = 32 ∧ ∀ l ∈ g.lanes, l.live = true → l.arrived isRegrp ≠ none)
    (still : ∀ g ∈ t.gangs, g.parked = 0 ∧ (∀ n < 12, g.flag (n + 1) = 0) ∧ ∀ r ∈ g.ready, r.2 ≤ s.cycle)
    (done : ∀ g ∈ t.gangs, ∀ l ∈ g.lanes, l.live = false → t.laneDone l = true) :
    exec (.regroup team) s = .next (modTeam s team fun t' => { t' with gangs := dealGangs t'.perGang t'.gangs t.dealt }) := by
  change execRegroup team s = _
  unfold execRegroup
  simp only [found]
  refine if_neg ?_
  rintro (empty | waiting | gone | ending | moving | dropped)
  · obtain ⟨g, hg, l, hl, live⟩ := some_
    have := List.isEmpty_iff.mp empty
    simp only [List.flatMap_eq_nil_iff, List.filter_eq_nil_iff] at this
    exact this g hg l hl live
  · obtain ⟨l, hl, none_⟩ := List.any_eq_true.mp waiting
    obtain ⟨g, hg, hl⟩ := List.mem_flatMap.mp hl
    obtain ⟨hl, live⟩ := List.mem_filter.mp hl
    exact (met g hg).2 l hl live (by simpa using none_)
  · exact placed (by simpa using gone)
  · simp [going] at ending
  · obtain ⟨g, hg, moving⟩ := List.any_eq_true.mp moving
    obtain ⟨parked, flags, ready⟩ := still g hg
    simp only [Bool.or_eq_true, List.any_eq_true, List.mem_range, bne_iff_ne, decide_eq_true_eq, Bool.and_eq_true] at moving
    rcases moving with (⟨n, hn, busy⟩ | ⟨r, hr, later⟩) | ⟨p, _⟩
    · exact busy (flags n hn)
    · exact absurd (ready r hr) (by omega)
    · exact p parked
  · obtain ⟨q, hq, busy⟩ := List.any_eq_true.mp dropped
    obtain ⟨hq, dead⟩ := List.mem_filter.mp hq
    obtain ⟨g, hg, hq⟩ := List.mem_flatMap.mp hq
    obtain ⟨l, hl, busy⟩ := List.any_eq_true.mp busy
    have out : l.live = false := by
      simp only [Bool.not_eq_true', List.any_eq_false] at dead
      simpa using dead l hl
    simp [done g hg l ((quads_lanes (met g hg).1 hq).2 l hl) out] at busy

/-- Settles O43: a barrier's participants stand at distinct lanes, each of which is passed once; at REGRP the quads are dealt in the
order into which they were sorted by tag. -/
theorem barriersAndRegrouping : Obligations.BarriersAndRegrouping := by
  unfold Obligations.BarriersAndRegrouping
  refine fun s => ⟨fun b distinct some_ met => ?_, fun team t found placed going small old some_ arrived still done => ?_⟩
  · refine ⟨_, execBarrierComplete_met some_ met, foldl_modAt_mem _ _ _ _, fun y hy i hi => ?_⟩
    obtain ⟨sc, hsc⟩ := Option.ne_none_iff_exists'.mp (met y hy i hi)
    have part := findAt_foldl Participant.at_ (fun z => passBarrier (z.2.2.2.getD .core)) (participants s b) s
      (participants_nodup distinct b) _ (mem_participants.mpr ⟨y, hy, i, hi, rfl⟩)
    refine ⟨sc, _, hsc, part.trans ?_, passBarrier_passes sc _⟩
    change (findLane s y.1.uid y.2 i).map _ = _
    rw [findLane_liveAt (barGangs_team distinct hy) hi, Option.map_some]
    simp only [hsc, Option.getD_some]
  · have full : ∀ g ∈ t.gangs, g.lanes.length = 32 := fun g hg => (arrived g hg).1
    refine ⟨_, { t with gangs := dealGangs t.perGang t.gangs t.dealt }, execRegroup_ready found placed going some_ arrived still done,
      ?_, dealGangs_length _ _ _, fun g hg l hl => ?_, ?_⟩
    · rw [findTeam_modTeam, found]
      · rfl
      · exact fun _ => rfl
    · rcases dealGangs_lane hg hl with ⟨h, hh, gone, hl⟩ | ⟨q, hq, hl⟩ | rfl
      · intro waits
        have := old h hh gone l hl
        simp [Lane.live, waits] at this
      · rcases (mem_dealt full hq).2 l hl with h | h <;> simp [h]
      · simp [Lane.absent]
    · exact (sorted_ordered _).sublist (dealGangs_quads _ small _ _ fun q hq => (mem_dealt full hq).1)

end Sys2Proof.Machine
end


section
/-! O44: the grant of chunks (R79), and the waits that a re-read or an interval's end decides (R103, R104). -/

namespace Sys2Proof.Machine

variable {s t : State}

theorem minWant_le (l : List Nat) (a : Option Nat) {n : Nat} (h : l.foldl (fun a n => some (match a with | none => n | some m => min m n)) a = some n) :
    (∀ m, a = some m → n ≤ m) ∧ ∀ m ∈ l, n ≤ m := by
  induction l generalizing a with
  | nil => exact ⟨fun m hm => by simp_all, by simp⟩
  | cons k l ih =>
    obtain ⟨first, rest⟩ := ih _ h
    have low := first _ rfl
    cases a with
    | none => exact ⟨by simp, fun m hm => (List.mem_cons.mp hm).elim (fun e => e ▸ low) (rest m)⟩
    | some b =>
      dsimp only at low
      exact ⟨fun m hm => by cases hm; omega, fun m hm => (List.mem_cons.mp hm).elim (fun e => by omega) (rest m)⟩

/-- No lane of a gang asks for less than the gang does. -/
theorem acqxWant_le {x : Gang} {n m : Nat} (h : x.acqxWant = some n) {l : Lane} (mem : l ∈ x.lanes) (asks : l.acqxWant = some m) : n ≤ m :=
  (minWant_le _ _ h).2 m (List.mem_filterMap.mpr ⟨l, mem, asks⟩)

theorem acqxWant_iff (l : Lane) (n : Nat) : l.acqxWant = some n ↔ l.st = .blocked (.acqx n) := by
  unfold Lane.acqxWant
  split <;> simp_all

/-- R79: the lanes whose request a gang's chunks satisfy go on. -/
def Lane.granted79 (chunks : Nat) (l : Lane) : Lane :=
  match l.acqxWant with
  | some n => if n ≤ chunks then l.wake else l
  | none => l

theorem wakeAcqx_lane (g : Gang) (i : Nat) : g.wakeAcqx.lane i = (g.lane i).granted79 g.chunks := by
  simp only [Gang.lane, List.getD_eq_getElem?_getD, Gang.wakeAcqx, List.getElem?_map]
  cases g.lanes[i]? <;> rfl

theorem granted79_kept (chunks : Nat) (l : Lane) : (l.granted79 chunks).regs = l.regs := by
  unfold Lane.granted79
  split
  · split <;> rfl
  · rfl

/-- With as many chunks as the smallest request of the gang, exactly those that asked for as many go on. -/
theorem granted79_st {l : Lane} {n : Nat} (least : ∀ m, l.acqxWant = some m → n ≤ m) :
    (l.granted79 n).st = if l.st = .blocked (.acqx n) then (if l.handler then .trapped else .running) else l.st := by
  unfold Lane.granted79
  cases asks : l.acqxWant with
  | none =>
    have not_ : l.st ≠ .blocked (.acqx n) := fun e => by simp [(acqxWant_iff l n).mpr e] at asks
    rw [if_neg not_]
  | some m =>
    have st := (acqxWant_iff l m).mp asks
    have low := least m asks
    dsimp only
    by_cases all : m ≤ n
    · have same : m = n := by omega
      subst same
      rw [if_pos all, if_pos st]
      rfl
    · have other : l.st ≠ .blocked (.acqx n) := by
        rw [st]
        intro e
        injection e with e
        injection e with e
        omega
      rw [if_neg all, if_neg other]

theorem setChunks_clears (g : Gang) (n i : Nat) :
    (g.setChunks n).lane i = (g.lane i).clearRegs (64 * (1 + min n g.chunks)) (64 * (1 + max n g.chunks)) := by
  simp only [Gang.lane, List.getD_eq_getElem?_getD, Gang.setChunks, List.getElem?_map]
  cases g.lanes[i]? <;> rfl

/-- R79: the grant of `n` chunks to a gang whose smallest request is `n`. -/
theorem granted_gang {x : Gang} {n : Nat} (wants : x.acqxWant = some n) (more : x.chunks < n) (i : Nat) :
    let y := (x.setChunks n).wakeAcqx
    (y.lane i).st = (if (x.lane i).st = .blocked (.acqx n) then (if (x.lane i).handler then .trapped else .running) else (x.lane i).st) ∧
      ∀ k < 64 * (1 + x.chunks), (y.lane i).reg k = (x.lane i).reg k := by
  intro y
  have lane : y.lane i = ((x.lane i).clearRegs (64 * (1 + min n x.chunks)) (64 * (1 + max n x.chunks))).granted79 n := by
    rw [wakeAcqx_lane, setChunks_clears]
    rfl
  have least : ∀ m, (x.lane i).acqxWant = some m → n ≤ m := fun m asks => by
    by_cases inside : i < x.lanes.length
    · refine acqxWant_le wants ?_ asks
      rw [Gang.lane, List.getD_eq_getElem _ _ inside]
      exact List.getElem_mem inside
    · rw [lane_out _ _ inside] at asks
      cases asks
  rw [lane]
  refine ⟨granted79_st least, fun k low => ?_⟩
  rw [Lane.reg, granted79_kept]
  exact (clearRegs_reg _ _ _ _).trans (if_neg (by omega))

-- Lanes after an acquire

theorem findLane_some {u g i : Nat} {l : Lane} (h : findLane s u g i = some l) :
    ∃ x, findGang s u g = some x ∧ i < x.lanes.length ∧ x.lane i = l := by
  unfold findLane at h
  obtain ⟨x, found, lane⟩ := Option.bind_eq_some_iff.mp h
  obtain ⟨inside, e⟩ := List.getElem?_eq_some_iff.mp lane
  exact ⟨x, found, inside, by rw [Gang.lane, List.getD_eq_getElem _ _ inside, e]⟩

theorem findLane_at {u g i : Nat} {t : Team} {l : Lane} (team : findTeam s u = some t) (lane : findLane s u g i = some l) :
    (t.gang g).lane i = l := by
  obtain ⟨x, found, -, e⟩ := findLane_some lane
  rw [findGang, team, Option.bind_some] at found
  rw [Team.gang, List.getD_eq_getElem?_getD, found]
  exact e

/-- An acquire leaves a lane all but what it prefetched and what its fetches see. -/
theorem Acquired.lane {u g i : Nat} {l : Lane} (h : Acquired s t u g) (found : findLane s u g i = some l) :
    ∃ pre code, findLane t u g i = some { l with pre := pre, code := code } := by
  obtain ⟨x, gang, inside, rfl⟩ := findLane_some found
  obtain ⟨y, gang', count, -, -, lanes⟩ := h.gang x gang
  obtain ⟨pre, code, e⟩ := lanes i
  exact ⟨pre, code, by rw [lane_of_gang gang' (by omega), e]⟩

theorem findLane_congr (teams : t.teams = s.teams) (u g i : Nat) : findLane t u g i = findLane s u g i := by
  rw [findLane, findLane, findGang, findGang, findTeam, findTeam, teams]

theorem readWord_same (s : State) (t : Team) (core : Nat) (a : DWord) : SameTeams s (readWord s t core a).1 := by
  unfold readWord
  have fetched := (modAgent_core_same s core (fun m => m.dropCopy (lineOf t.ctx a.toNat))).trans
    (fetchBytes_same (modAgent s (.core core) (fun m => m.dropCopy (lineOf t.ctx a.toNat))) t core a.toNat .read true 8)
  dsimp only
  split
  · exact fetched
  · split <;> exact fetched

/-- R189: an acquire at a scope leaves no line of the scope in the core's snapshot. -/
theorem acquireAt_snap (s : State) (core uid g i : Nat) (sc : Scope) :
    ∀ e ∈ (agentMem (acquireAt s core uid g i sc) (.core core)).snap, inScope (coreDie core) sc (homeOf e.1.addr) = false := by
  have snap : (agentMem (acquireAt s core uid g i sc) (.core core)) =
      (coreOf (modCore s core fun c => { c with mem := c.mem.acquire (coreDie core) sc }) core).mem := rfl
  rw [snap]
  intro e he
  unfold coreOf modCore at he
  rw [List.getD_eq_getElem?_getD, List.getElem?_modify] at he
  simp only [if_true] at he
  cases inside : s.cores[core]? with
  | none =>
    rw [inside] at he
    cases he
  | some c =>
    rw [inside] at he
    simpa using (List.mem_filter.mp he).2

-- The waits

/-- R103: a lane whose word has not the value yet has noted what it read; one whose word has goes on, with an acquire. -/
theorem execTlwaitReread_read {team g i core : Nat} {x : Nat} {u : Team} {l : Lane} {a v : DWord} {sc : Scope} {tr : Option (Nat × Nat)} {r : State}
    (found : findTeam s team = some u) (placed : u.core = some core) (lane : findLane s team g i = some l)
    (waits : memWait l.st = some (a, v, sc, tr)) (idle : l.queue = []) (here : (u.gang g).parked = 0)
    (open_ : ∀ p, tr = some p → s.cycle < p.2) (read : readWord s u core a = (r, .ok x)) :
    exec (.tlwaitReread team g i) s = .next (if v.toNat ≤ x then
      dropHeld (waitMet (noteSeen r team g i x) team core g i sc (tr.map (·.1))) team g i else noteSeen r team g i x) := by
  change execTlwaitReread team g i s = _
  unfold execTlwaitReread
  have ready : ¬ ((!l.queue.isEmpty) = true ∨ (u.gang g).parked ≠ 0 ∨ tr.any (fun x => decide (x.2 ≤ s.cycle)) = true) := by
    rintro (busy | parked | late_)
    · simp [idle] at busy
    · exact parked here
    · obtain ⟨p, hp, late⟩ := (Option.any_eq_true _ _).mp late_
      have := open_ p hp
      simp only [decide_eq_true_eq] at late
      omega
  simp only [found, findLane_at found lane, placed, waits, read]
  rw [if_neg ready]

/-- R104: an interval that has ended is answered. -/
theorem execTltryIntervalEnd_team {team g i core e pd d : Nat} {u : Team} {l : Lane} {v : DWord}
    (found : findTeam s team = some u) (placed : u.core = some core) (lane : findLane s team g i = some l)
    (waits : l.st = .blocked (.tryTeam e v pd d)) (late_ : d ≤ s.cycle) (here : (u.gang g).parked = 0) (idle : l.queue = []) :
    exec (.tltryIntervalEnd team g i) s = .next (endTry s team g i pd ((heldSince s team g i).any (fun h => tryAnswer s h d))
      (fun s => acquireCtx s core team g i e v)) := by
  change execTltryIntervalEnd team g i s = _
  unfold execTltryIntervalEnd
  have up : l.caughtUp = true := by rw [Lane.caughtUp, idle]; rfl
  simp only [found, findLane_at found lane, placed, waits, up]
  rw [if_neg (by simp [here]), if_neg (by omega), if_neg (by simp)]

theorem endTry_lane {u g i pd : Nat} {l : Lane} (b : Bool) (lane : findLane s u g i = some l) (acq : State → State)
    (acquired : ∀ t, Acquired t (acq t) u g) :
    (endTry s u g i pd b acq).mem = s.mem ∧ ∃ pre code, findLane (endTry s u g i pd b acq) u g i = some { l.wake.setPred pd b with pre := pre, code := code } := by
  have woken : findLane (dropHeld (modLane { s with fresh := s.fresh + 1 } u g i (fun l => l.wake.setPred pd b)) u g i) u g i =
      some (l.wake.setPred pd b) :=
    (findLane_modLane { s with fresh := s.fresh + 1 } u g i _).trans
      (congrArg (Option.map fun l => l.wake.setPred pd b) ((findLane_congr (s := s) rfl u g i).trans lane))
  unfold endTry
  cases b with
  | false => exact ⟨rfl, _, _, woken⟩
  | true => exact ⟨(acquired _).mem, (acquired _).lane woken⟩

/-- Settles O44: a grant changes the gang of the oldest waiter alone; an acquire leaves lanes what they hold; and what a TLTRY answers is
`tryAnswer` of when its condition came true. -/
theorem requestsAndWaitsGranted : Obligations.RequestsAndWaitsGranted := by
  unfold Obligations.RequestsAndWaitsGranted
  refine fun s => ⟨fun core bay uid g x n oldest found wants more fits => ?_,
    fun team g i u core l a v sc tr r x found placed lane waits idle here open_ read => ?_,
    fun team g i u core e v pd d l found placed lane waits late_ low here idle => ?_⟩
  · have run : exec (.acqxGrant core bay) s = .next (modGang s uid g (fun y => (y.setChunks n).wakeAcqx)) := by
      change execAcqxGrant core bay s = _
      unfold execAcqxGrant
      simp only [oldest, wants, Option.getD_some]
      rw [if_neg (by omega), if_pos fits]
    exact ⟨_, _, run, by rw [findGang_modGang, found]; rfl, rfl, by simp [Gang.wakeAcqx, Gang.setChunks], rfl, granted_gang wants more⟩
  · have run := execTlwaitReread_read found placed lane waits idle here (fun p hp => (open_ p hp).1) read
    have same : r.teams = s.teams := by
      have := (readWord_same s u core a).teams
      rwa [read] at this
    have noted : findLane (noteSeen r team g i x) team g i = some { l with seen := some (BitVec.ofNat 64 x) } := by
      rw [noteSeen, findLane_modLane, findLane_congr same, lane]
      rfl
    by_cases met : v.toNat ≤ x
    · rw [if_pos met] at run
      let woken : Lane := match tr.map (·.1) with
        | none => ({ l with seen := some (BitVec.ofNat 64 x) } : Lane).wake
        | some p => ({ l with seen := some (BitVec.ofNat 64 x) } : Lane).wake.setPred p true
      have goes : findLane (modLane (noteSeen r team g i x) team g i (fun l => match tr.map (·.1) with
          | none => l.wake
          | some p => l.wake.setPred p true)) team g i = some woken := by
        rw [findLane_modLane, noted]
        rfl
      obtain ⟨pre, code, after⟩ := (acquireAt_acquired _ core team g i sc team g).lane goes
      refine ⟨_, _, run, after, ?_, ?_, ?_, (acquireAt_acquired _ core team g i sc team g).mem, fun less => absurd met (by omega),
        fun _ => ⟨?_, fun p hp => ?_, acquireAt_snap _ core team g i sc⟩⟩
      · cases tr <;> rfl
      · cases tr <;> exact idle
      · cases tr <;> rfl
      · cases tr <;> rfl
      · subst hp
        exact (setPred_pred _ _ _ true (open_ p rfl).2).trans (if_pos rfl)
    · rw [if_neg met] at run
      exact ⟨_, _, run, noted, rfl, idle, rfl, rfl, fun _ => ⟨rfl, rfl⟩, fun met' => absurd met' met⟩
  · obtain ⟨mem, pre, code, after⟩ := endTry_lane (pd := pd) ((heldSince s team g i).any (fun h => tryAnswer s h d)) lane
      (fun s => acquireCtx s core team g i e v) (fun t => acquireCtx_acquired t core team g i e v team g)
    have answers (b : Bool) : ({ l.wake.setPred pd b with pre := pre, code := code } : Lane).pred pd = b :=
      (setPred_pred l.wake pd pd b low).trans (if_pos rfl)
    refine ⟨_, _, execTltryIntervalEnd_team found placed lane waits late_ here idle, after, rfl, rfl, mem, fun none_ => ?_, fun h held early => ?_⟩
    · rw [answers, none_]
      rfl
    · rw [answers, held]
      simp [tryAnswer, early]

end Sys2Proof.Machine
end


section
/-! What waits for the rings of fault records, and whether a die has failed: what drains, releases and the end of a team leave of it. -/

namespace Sys2Proof.Machine

variable {s t : State}

/-- Of each die, its ring of fault records and whether it has failed. -/
def faultRings (s : State) : List (HostRing × Bool) := s.dies.map fun d => (d.faults, d.failed)

theorem faultRings_of_dies (same : t.dies = s.dies) : faultRings t = faultRings s := by rw [faultRings, faultRings, same]

theorem Quiet.faultRings (h : Quiet s t) : faultRings t = Machine.faultRings s := by
  have but (ds : List Die) : ds.map (fun d => (d.faults, d.failed)) = (ds.map Die.but).map fun d => (d.faults, d.failed) := by
    rw [List.map_map]
    rfl
  rw [Machine.faultRings, Machine.faultRings, but, h.dies, ← but]

theorem faultRings_foldl {β : Type} (f : State → β → State) (keeps : ∀ s b, faultRings (f s b) = faultRings s) (l : List β) (s : State) :
    faultRings (l.foldl f s) = faultRings s := by
  induction l generalizing s with
  | nil => rfl
  | cons b l ih => rw [List.foldl_cons, ih, keeps]

theorem dieOf_faults (same : faultRings t = faultRings s) (d : Nat) :
    (dieOf t d).faults = (dieOf s d).faults ∧ (dieOf t d).failed = (dieOf s d).failed := by
  have get (u : State) : ((dieOf u d).faults, (dieOf u d).failed) = (faultRings u).getD d (Die.reset.faults, Die.reset.failed) := by
    rw [faultRings, List.getD_eq_getElem?_getD, List.getElem?_map, dieOf, List.getD_eq_getElem?_getD]
    cases u.dies[d]? <;> rfl
  exact Prod.mk.inj ((get t).trans (same ▸ (get s).symm))

theorem modAgent_dies (s : State) (a : Agent) (f : LocalMem → LocalMem) : (modAgent s a f).dies = s.dies := by
  cases a <;> rfl

theorem endTeam_dies (s : State) (uid : Nat) (f : FaultInfo) : (endTeam s uid f).dies = s.dies := rfl

theorem holdFault_dies (s : State) (uid g i : Nat) (f : FaultInfo) : (holdFault s uid g i f).dies = s.dies := by
  unfold holdFault
  split
  · rfl
  · split <;> rfl

theorem deferFault_dies (s : State) (uid g i : Nat) (c : Cause) (a acc : Nat) (w : DWord) : (deferFault s uid g i c a acc w).dies = s.dies := by
  unfold deferFault
  split
  · rfl
  · dsimp only
    split
    · rfl
    · exact holdFault_dies ..

theorem commandFate_dies (s : State) (x : Team) (who : Nat) (f : FaultInfo) : (commandFate s x who f).dies = s.dies := by
  unfold commandFate
  split
  · split
    · exact holdFault_dies ..
    · rfl
  · rfl

theorem postPage_faults (s : State) (x : Team) (a : Nat) : faultRings (postPage s x a) = faultRings s := by
  unfold postPage
  dsimp only
  split
  · rfl
  · exact (postEvent_quiet { s with parkPosted := _ :: s.parkPosted } x.die _).faultRings

theorem parkGangOn_faults (s : State) (uid g a : Nat) : faultRings (parkGangOn s uid g a) = faultRings s := by
  unfold parkGangOn
  split
  · rfl
  · exact postPage_faults ..

theorem parkCtx_faults (s : State) (uid e a : Nat) : faultRings (parkCtx s uid e a) = faultRings s := by
  unfold parkCtx
  split
  · rfl
  · exact postPage_faults ..

theorem drainFault_faults (s : State) (a : Agent) (l : Line) (c : Cause) (bs : List BufByte) :
    faultRings (drainFault s a l c bs) = faultRings s := by
  refine faultRings_foldl _ (fun s x => ?_) _ s
  split
  · rfl
  · split
    · split
      · exact parkCtx_faults ..
      · exact faultRings_of_dies (commandFate_dies ..)
    · split
      · rfl
      · split
        · exact parkGangOn_faults ..
        · exact faultRings_of_dies (deferFault_dies ..)

theorem drainLine_faults (s : State) (a : Agent) (l : Line) : faultRings (drainLine s a l) = faultRings s := by
  unfold drainLine
  extract_lets bytes out good wait bad s1 id offs s2 s3
  split
  · rfl
  · have h1 : faultRings s1 = faultRings s := faultRings_of_dies (modAgent_dies ..)
    have h2 : faultRings s2 = faultRings s1 := by
      unfold s2
      clear_value s1 good out
      split
      · rfl
      · split
        · rfl
        · dsimp only
          refine (faultRings_of_dies (modAgent_dies ..)).trans ((faultRings_of_dies (homeWrite_shape ..).1.2.2.1).trans ?_)
          split <;> rfl
    have h3 : faultRings s3 = faultRings s2 := faultRings_foldl _ (fun s c => drainFault_faults ..) _ _
    split
    · exact h3.trans (h2.trans h1)
    · exact (drainFault_faults ..).trans (h3.trans (h2.trans h1))

theorem relScope_faults (s : State) (a : Agent) (sc : Scope) (acks : List Nat) : faultRings (relScope s a sc acks).1 = faultRings s := by
  unfold relScope
  extract_lets d
  unfold relAdvance
  split
  · have drained := faultRings_foldl (fun s l => drainLine s a l) (fun s l => drainLine_faults s a l)
      (((agentMem s a).buf.filter (fun e => inScope d sc (homeOf e.1.addr))).map (·.1)) s
    dsimp only
    split <;> exact drained
  · rfl

theorem ctxRelease_faults (s : State) (x : Team) : faultRings (ctxRelease s x).1 = faultRings s := by
  unfold ctxRelease
  generalize (List.range x.ectx.length).map (Agent.ctx x.uid) = l
  have all (a : State × Bool) : faultRings (l.foldl (fun a ag => ((relScope a.1 ag .sys []).1, a.2 && (relScope a.1 ag .sys []).2.isNone)) a).1 =
      faultRings a.1 := by
    induction l generalizing a with
    | nil => rfl
    | cons ag l ih => exact (ih _).trans (relScope_faults ..)
  exact all (s, true)

theorem discardLaunches_faults (s : State) (d : Nat) (x : Team) : faultRings (discardLaunches s d x) = faultRings s := by
  have told := (Quiet.foldl (x.pend ++ (poolOf s x.uid).map (fun x => x.2.2.1)) (fun s r => crecRefuse s d x.ctx r 5)
    (fun s r => crecRefuse_quiet s d x.ctx r 5) s).faultRings
  rw [discardLaunches, ← told]
  generalize List.foldl _ s _ = u
  unfold faultRings modTeam dropPool
  dsimp only
  rw [List.map_map]
  rfl

theorem endRegion_dies (s : State) (core : Nat) (r : Region) : (endRegion s core r).1.dies = s.dies := by
  unfold endRegion
  extract_lets x
  have asked : x.1.dies = s.dies := by
    unfold x
    generalize (List.filter _ (coreOf s core).sub) = l
    have all (a : State × List Nat) : (l.foldl (fun (a : State × List Nat) x =>
        ((sendReq a.1 .leave core x.line x.f false r.t).1, a.2 ++ [(sendReq a.1 .leave core x.line x.f false r.t).2])) a).1.dies = a.1.dies := by
      induction l generalizing a with
      | nil => rfl
      | cons y l ih => exact ih _
    exact all (s, [])
  exact asked

theorem freeCore_faults (s : State) (uid core : Nat) : faultRings (freeCore s uid core) = faultRings s :=
  faultRings_foldl _ (fun _ _ => faultRings_of_dies (endRegion_dies ..)) _ s

theorem countEnd_faults (s : State) (id band tid code : Nat) : faultRings (countEnd s id band tid code) = faultRings s := by
  unfold countEnd
  split
  · rfl
  · exact (raiseLevel_quiet ..).faultRings.trans (crecWrite_quiet ..).faultRings

/-- The fault record of a team that ends waits at its die, after those that wait there (R374, R376). -/
theorem finishEnd_record {x : Team} {f : FaultInfo} (here : x.die < s.dies.length) (stands : (dieOf s x.die).failed = false) :
    findTeam (finishEnd s x f) x.uid = none ∧ ∃ n, (dieOf (finishEnd s x f) x.die).faults.waiting =
      (dieOf s x.die).faults.waiting ++ [(n, faultRecord x f + 2 ^ 512 * x.band)] := by
  unfold finishEnd
  extract_lets d s1 s2 s3 s4
  have d_eq : d = x.die := by simp [d, stands]
  constructor
  · simp [findTeam, dropTeam]
  · have h4 : faultRings s4 = faultRings s2 := by
      unfold s4
      split
      · rfl
      · exact (freeCore_faults ..).trans (faultRings_of_dies (modAgent_dies ..))
    have end_ : faultRings (dropTeam (countTeam s4 x (fateCode f.cause)) x.uid) = faultRings s2 := (countEnd_faults ..).trans h4
    have h1 : (dieOf s1 x.die).faults = (dieOf s x.die).faults := (dieOf_faults (discardLaunches_faults s d x) x.die).1
    have here1 : x.die < s1.dies.length := by
      have := congrArg List.length (discardLaunches_faults s d x)
      simp only [faultRings, List.length_map] at this
      change x.die < (discardLaunches s d x).dies.length
      omega
    refine ⟨s1.fresh, ?_⟩
    rw [(dieOf_faults end_ x.die).1, ← h1]
    unfold s2
    rw [d_eq]
    exact congrArg (fun y : Die => y.faults.waiting) ((dieOf_modDie s1 here1 _ x.die).trans (if_pos rfl))

end Sys2Proof.Machine
end


section
/-! O46: gangs and teams retire, end, trap and park. -/

namespace Sys2Proof.Machine

variable {s t : State}

-- Retirement

theorem findTeam_gang {team g : Nat} {u : Team} {x : Gang} (found : findTeam s team = some u) (gang : findGang s team g = some x) :
    u.gangs[g]? = some x ∧ u.gang g = x := by
  rw [findGang, found, Option.bind_some] at gang
  exact ⟨gang, by rw [Team.gang, List.getD_eq_getElem?_getD, gang]; rfl⟩

/-- R88: a gang without live lanes, its flags at zero, retires. -/
theorem execGangRetire_empty {team g : Nat} {u : Team} {x : Gang} (found : findTeam s team = some u) (placed : u.core ≠ none)
    (gang : findGang s team g = some x) (stands : x.retired = false) (empty : ∀ l ∈ x.lanes, l.live = false)
    (flags : ∀ n < 12, x.flag (n + 1) = 0) : ∃ f : Team → Team, exec (.gangRetire team g) s = .next (modTeam s team f) ∧
      (∀ v, (f v).uid = v.uid) ∧
      ∀ v, (f v).gangs = v.gangs.modify g (fun x => { x with retired := true, chunks := 0, parked := 0 }) := by
  obtain ⟨at_, eq⟩ := findTeam_gang found gang
  have none_live : x.liveAt = [] := by
    refine List.filter_eq_nil_iff.mpr fun i _ => ?_
    rw [Gang.lane, List.getD_eq_getElem?_getD]
    cases inside : x.lanes[i]? with
    | none => simp [Lane.live, Lane.absent]
    | some l => simp [empty l (List.mem_of_getElem? inside)]
  have ready : ¬ ((u.gang g).retired = true ∨ u.gangs.length ≤ g ∨ (!(u.gang g).liveAt.isEmpty) = true ∨
      ((List.range 12).any fun n => (u.gang g).flag (n + 1) != 0) = true ∨ u.core.isNone = true) := by
    rw [eq]
    rintro (gone | out | live | busy | away)
    · simp [stands] at gone
    · rw [List.getElem?_eq_none out] at at_
      cases at_
    · simp [none_live] at live
    · obtain ⟨n, hn, busy⟩ := List.any_eq_true.mp busy
      simp [flags n (List.mem_range.mp hn)] at busy
    · exact placed (by simpa using away)
  change ∃ f : Team → Team, execGangRetire team g s = _ ∧ _
  unfold execGangRetire
  simp only [found]
  rw [if_neg ready]
  exact ⟨_, rfl, fun _ => rfl, fun _ => rfl⟩

/-- R89: what holds back the retirement of a team is not there: its releases and Leaves are made, and it is gone once these have come
home. -/
theorem execTeamRetire_done {team core : Nat} {u : Team} (found : findTeam s team = some u) (placed : u.core = some core)
    (going : u.ending = none) (gangs : ∀ g ∈ u.gangs, g.retired = true ∧ ∀ l ∈ g.lanes, l.queue = []) (cmds : ∀ c ∈ u.ectx, c.queue = [])
    (pend : u.pend = []) (pool : poolOf s team = []) (launches : u.launching = false) (released : (teamRelease s core).2 = true)
    (drained : (ctxRelease (teamRelease s core).1 u).2 = true) :
    let left := (teamRegions (ctxRelease (teamRelease s core).1 u).1 core team).foldl (fun s y => (endRegion s core y).1)
      (ctxRelease (teamRelease s core).1 u).1
    exec (.teamRetire team) s = .next (if left.msgs.any (fun m => m.kind == .leave && m.core == core) then left
      else dropTeam (freeCore (countTeam left u 0) team core) team) := by
  intro left
  change execTeamRetire team s = _
  have ready : ¬ (u.ending.isSome = true ∨ (u.gangs.any fun g => !g.retired || g.lanes.any fun l => !l.queue.isEmpty) = true ∨
      (u.ectx.any fun c => !c.queue.isEmpty) = true ∨ (!u.pend.isEmpty) = true ∨ (!(poolOf s team).isEmpty) = true ∨ u.launching = true) := by
    rintro (ending | busy | busy | busy | busy | busy)
    · simp [going] at ending
    · obtain ⟨g, hg, busy⟩ := List.any_eq_true.mp busy
      obtain ⟨gone, idle⟩ := gangs g hg
      simp only [gone, Bool.not_true, Bool.false_or, List.any_eq_true] at busy
      obtain ⟨l, hl, busy⟩ := busy
      simp [idle l hl] at busy
    · obtain ⟨c, hc, busy⟩ := List.any_eq_true.mp busy
      simp [cmds c hc] at busy
    · simp [pend] at busy
    · simp [pool] at busy
    · simp [launches] at busy
  unfold execTeamRetire
  simp only [found, placed]
  rw [if_neg ready, if_neg (by simp [released, drained])]
  exact (apply_ite Host.Outcome.next _ _ _).symm

/-- R374: a team that has to end does so once its begun commands have completed and their writes have drained. -/
theorem execTeamEnd_drained {team : Nat} {u : Team} {f : FaultInfo} (found : findTeam s team = some u) (ending : u.ending = some f)
    (begun : u.begun = false) (drained : (ctxRelease s u).2 = true) : exec (.teamEnd team) s = .next (finishEnd (ctxRelease s u).1 u f) := by
  change execTeamEnd team s = _
  unfold execTeamEnd
  simp [found, ending, begun, drained]

-- Deferred traps

/-- A YLD point never puts a lane into a handler. -/
theorem yldPoint_handler {l : Lane} (out : l.handler = false) (stop kill : Bool) : (l.yldPoint stop kill).handler = false := by
  unfold Lane.yldPoint
  split
  · exact out
  · split
    · rfl
    · exact out
  · split
    · rfl
    · exact out
  · exact out

/-- Some lanes of a gang are in no handler. -/
structure Free (s : State) (u g : Nat) (grp : List Nat) (ctx : Nat) : Prop where
  team : ∃ t, findTeam s u = some t ∧ t.ctx = ctx
  gang : ∃ y, findGang s u g = some y ∧ y.lanes.length = 32 ∧ ∀ j ∈ grp, (y.lane j).handler = false

/-- A change of lanes that puts none into a handler. -/
theorem Free.modGang {u g ctx : Nat} {grp : List Nat} (h : Free s u g grp ctx) (v k : Nat) (f : Gang → Gang)
    (count : ∀ x, (f x).lanes.length = x.lanes.length)
    (out : ∀ x : Gang, ∀ j, (x.lane j).handler = false → ((f x).lane j).handler = false) : Free (Machine.modGang s v k f) u g grp ctx := by
  obtain ⟨⟨t, team, rfl⟩, y, gang, len, free⟩ := h
  constructor
  · by_cases same : u = v
    · subst same
      obtain ⟨w, found, ctx, -⟩ := modGang_team team k f
      exact ⟨w, found, ctx⟩
    · exact ⟨t, by rw [findTeam_modGang_ne _ _ _ same, team], rfl⟩
  · by_cases same : u = v ∧ g = k
    · obtain ⟨rfl, rfl⟩ := same
      exact ⟨f y, by rw [findGang_modGang, gang]; rfl, by rw [count, len], fun j hj => out y j (free j hj)⟩
    · exact ⟨y, by rw [findGang_modGang_ne _ _ (by tauto), gang], len, free⟩

theorem Free.modLane {u g ctx : Nat} {grp : List Nat} (h : Free s u g grp ctx) (v k i : Nat) (f : Lane → Lane)
    (out : ∀ l : Lane, l.handler = false → (f l).handler = false) : Free (Machine.modLane s v k i f) u g grp ctx := by
  refine h.modGang v k _ (fun x => List.length_modify ..) fun x j free => ?_
  rw [lane_modify]
  split
  · next here => exact out _ (here.1 ▸ free)
  · exact free

theorem Free.meetYldPoints {u g ctx : Nat} {grp : List Nat} (h : Free s u g grp ctx) (cs : List Cand) :
    Free (Machine.meetYldPoints s cs) u g grp ctx := by
  refine List.foldlRecOn cs _ (motive := fun t => Free t u g grp ctx) h fun t ht c _ => ?_
  split
  · exact List.foldlRecOn c.grp _ (motive := fun t => Free t u g grp ctx) ht fun t ht i _ =>
      ht.modLane _ _ _ _ fun l out => yldPoint_handler out _ _
  · exact ht

/-- The lanes of a group stand at places of a gang. -/
theorem candidate_lanes {core bay now : Nat} {c : Cand} (mem : c ∈ candidates s core bay now) : ∀ j ∈ c.grp, j < 32 := by
  simp only [candidates, List.mem_flatMap] at mem
  obtain ⟨x, -, mem⟩ := mem
  cases found : findTeam s x.1 with
  | none => simp [found] at mem
  | some t =>
    simp only [found] at mem
    split at mem
    · cases mem
    · obtain ⟨grp, hgrp, rfl⟩ := List.mem_map.mp mem
      simp only [Gang.pcGroups, List.mem_filterMap] at hgrp
      obtain ⟨i, -, hi⟩ := hgrp
      split at hi
      · cases hi
        intro j hj
        unfold Gang.pcGroup at hj
        dsimp only at hj
        split at hj
        · exact List.mem_range.mp (List.mem_filter.mp hj).1
        · cases hj
      · cases hi

/-- R70, R374: CLAUSE_ISSUE where the chosen group has a deferred fault. -/
theorem execClauseIssue_deferred {core bay : Nat} {c : Cand} (hbay : bay < 4) (hcore : core < s.cores.length)
    (idle : (bayOf s core bay).issue = none) (runs : (dieOf s (coreDie core)).halted = false)
    (chosen : choose (issueCycle s core bay) (candidates s core bay (issueCycle s core bay)) = some c)
    (within : pastEnd c.fetched (c.gang.lane (c.grp.headD 0)).resume = none) {i : Nat} (hi : i ∈ c.grp)
    (deferred : (c.gang.lane i).deferred.isSome = true) :
    execClauseIssue core bay s = .next (deferredTrap (passTo (meetYldPoints s (candidates s core bay (issueCycle s core bay)))
      (issueCycle s core bay)) c.team.uid c.g c.grp c.gang) := by
  have ready : ¬ ((bayOf s core bay).issue.isSome ∨ (dieOf s (coreDie core)).halted ∨ 4 ≤ bay ∨ s.cores.length ≤ core) := by
    simp [idle, runs, hbay, hcore]
  have some_ : c.grp.any (fun i => (c.gang.lane i).deferred.isSome) = true := List.any_eq_true.mpr ⟨i, hi, deferred⟩
  simp only [execClauseIssue, if_neg ready, chosen, within, if_pos some_]
  rfl

/-- R374, R377: the trap of the deferred faults of a group, with its handler installed. -/
theorem deferredTrap_enters {u g i ctx : Nat} {grp : List Nat} {x : Gang} {f : FaultInfo} {tv : DWord} (free : Free s u g grp ctx)
    (inside : ∀ j ∈ grp, j < 32) (first : grp.find? (fun j => (x.lane j).deferred.isSome) = some i) (fault : (x.lane i).deferred = some f)
    (trap : traps f.cause = true) (installed : handlerFor s ctx f.cause f.tmem = some tv) :
    ∃ y, findGang (deferredTrap s u g grp x) u g = some y ∧ y.ecause = BitVec.ofNat 32 (causeCode f.cause) ∧ y.eaddr = f.addr ∧
      (deferredTrap s u g grp x).mem = s.mem ∧ ∀ j ∈ grp, (y.lane j).handler = true ∧ (y.lane j).pc = tv ∧
        (y.lane j).epc = (x.lane i).pc ∧ (y.lane j).eslot = 0 ∧ (y.lane j).deferred = none := by
  let clear : Gang → Gang := fun y => { y with lanes := (List.range y.lanes.length).map (fun j =>
    if grp.contains j then fillSlots y.ports { y.lane j with deferred := none } else y.lane j) }
  have cleared : Free (modGang s u g clear) u g grp ctx := by
    refine free.modGang u g clear (fun y => by simp [clear]) fun y j out => ?_
    by_cases here : j < y.lanes.length
    · rw [show (clear y).lane j = _ from lane_map y _ j here]
      split <;> exact out
    · rw [lane_out _ _ (by simpa [clear] using here)]
      rfl
  obtain ⟨y, gang, len, -⟩ := free.gang
  obtain ⟨w, team, rfl⟩ := cleared.team
  have gang' : findGang (modGang s u g clear) u g = some (clear y) := by rw [findGang_modGang, gang]; rfl
  have out : ∀ j ∈ grp, ((w.gang g).lane j).trapped = false := by
    obtain ⟨z, found, -, low⟩ := cleared.gang
    rw [(findTeam_gang team found).2]
    exact low
  have run : deferredTrap s u g grp x = enterHandler (modGang s u g clear) u g grp tv { f with pc := (x.lane i).pc, slot := 0 }
      (x.lane i).pc 0 (fun _ => []) := by
    simp only [deferredTrap, first, fault]
    exact takeTrap_enters team trap out ((handlerFor_congr (s := s) rfl rfl _ _ _).trans installed)
  obtain ⟨z, found, -, lanes, cause, -, addr, -⟩ := enterHandler_entered gang' grp tv { f with pc := (x.lane i).pc, slot := 0 }
    (x.lane i).pc 0 (fun _ => [])
  refine ⟨z, run ▸ found, cause, addr, run ▸ rfl, fun j hj => ?_⟩
  have here : j < y.lanes.length := by
    have := inside j hj
    omega
  have lane : (clear y).lane j = fillSlots y.ports { y.lane j with deferred := none } :=
    (lane_map y _ j here).trans (if_pos (List.elem_iff.mpr hj))
  rw [lanes j (by simpa [clear] using here), if_pos (List.elem_iff.mpr hj), lane]
  exact ⟨rfl, rfl, rfl, rfl, rfl⟩

-- Parking

/-- How the gangs of each team are parked. -/
def parks (s : State) : List (Nat × List Nat) := s.teams.map fun t => (t.uid, t.gangs.map Gang.parked)

theorem modTeam_parks (s : State) (u : Nat) (f : Team → Team) (same : ∀ t, (f t).uid = t.uid ∧ (f t).gangs.map Gang.parked = t.gangs.map Gang.parked) :
    parks (modTeam s u f) = parks s := by
  unfold parks modTeam modWhere
  rw [List.map_map]
  refine List.map_congr_left fun t _ => ?_
  rw [Function.comp_apply]
  split
  · rw [(same t).1, (same t).2]
  · rfl

theorem modGang_parks (s : State) (u g : Nat) (f : Gang → Gang) (same : ∀ x, (f x).parked = x.parked) : parks (modGang s u g f) = parks s := by
  refine modTeam_parks s u _ fun t => ⟨rfl, List.ext_getElem? fun n => ?_⟩
  rw [List.getElem?_map, List.getElem?_map, List.getElem?_modify]
  cases t.gangs[n]? with
  | none => rfl
  | some x =>
    simp only [Option.map_some]
    split
    · exact congrArg some (same x)
    · rfl

theorem findGang_parked (s : State) (u g : Nat) :
    (findGang s u g).map Gang.parked = ((parks s).find? (fun x => x.1 == u)).bind (fun x => x.2[g]?) := by
  rw [findGang, findTeam, parks, List.find?_map]
  simp only [Function.comp_def]
  cases s.teams.find? (fun t => t.uid == u) with
  | none => rfl
  | some t => simp

/-- An acquire by lanes on a core parks no gang and brings none back. -/
structure Steady (s t : State) : Prop where
  parks : parks t = parks s
  mem : t.mem = s.mem

theorem Steady.refl (s : State) : Steady s s := ⟨rfl, rfl⟩
theorem Steady.trans {r : State} (h : Steady s t) (k : Steady t r) : Steady s r := ⟨k.parks.trans h.parks, k.mem.trans h.mem⟩

theorem Steady.foldl {β : Type} (f : State → β → State) (keeps : ∀ s b, Steady s (f s b)) (l : List β) (s : State) : Steady s (l.foldl f s) :=
  List.foldlRecOn l f (motive := fun t => Steady s t) (.refl s) fun t h b _ => h.trans (keeps t b)

theorem modGang_steady (s : State) (u g : Nat) (f : Gang → Gang) (same : ∀ x, (f x).parked = x.parked) : Steady s (modGang s u g f) :=
  ⟨modGang_parks s u g f same, rfl⟩

theorem modLane_steady (s : State) (u g i : Nat) (f : Lane → Lane) : Steady s (modLane s u g i f) := modGang_steady s u g _ fun _ => rfl

theorem acquireCore_steady (s : State) (core : Nat) (sc : Scope) : Steady s (acquireCore s core sc) := by
  refine ⟨?_, rfl⟩
  unfold parks acquireCore
  dsimp only
  rw [List.map_map]
  refine List.map_congr_left fun t _ => ?_
  rw [Function.comp_apply]
  split
  · refine congrArg (Prod.mk t.uid) (List.ext_getElem (by simp) fun n h1 h2 => ?_)
    have inside : n < t.gangs.length := by simpa using h2
    simp [Team.gang, List.getElem?_eq_getElem inside]
  · rfl

theorem acquireLane_steady (s : State) (core u g i : Nat) (sc : Scope) : Steady s (acquireLane s core u g i sc) := by
  have lane := modGang_steady { s with era := s.era + 1 } u g
    (fun x => { x with lanes := x.lanes.modify i (Lane.acquireCode (s.era + 1) (coreDie core) sc) }) fun _ => rfl
  exact ⟨lane.parks, lane.mem⟩

theorem acquireAt_steady (s : State) (core u g i : Nat) (sc : Scope) : Steady s (acquireAt s core u g i sc) :=
  (acquireCore_steady s core sc).trans (acquireLane_steady _ core u g i sc)

theorem acquireCtx_steady (s : State) (core u g i e : Nat) (v : DWord) : Steady s (acquireCtx s core u g i e v) := by
  unfold acquireCtx
  split
  · exact .refl s
  · exact Steady.foldl _ (fun s sc => acquireAt_steady s core u g i sc) _ s

theorem acquireGangs_steady (s : State) (core u : Nat) (gs : List Nat) : Steady s (acquireGangs s core u gs) := by
  have all := Steady.foldl (fun s' g => modGang s' u g (fun x =>
    { x with lanes := x.lanes.map (Lane.acquireCode (s.era + 1) (coreDie core) .pkg) })) (fun s' g => modGang_steady s' u g _ fun _ => rfl)
    gs { s with era := s.era + 1 }
  exact ⟨all.parks, all.mem⟩

theorem endTry_steady (s : State) (u g i pd : Nat) (b : Bool) (acq : State → State) (keeps : ∀ s, Steady s (acq s)) :
    Steady s (endTry s u g i pd b acq) := by
  have lane := modLane_steady { s with fresh := s.fresh + 1 } u g i (fun l => l.wake.setPred pd b)
  have woken : Steady s (dropHeld (modLane { s with fresh := s.fresh + 1 } u g i (fun l => l.wake.setPred pd b)) u g i) :=
    ⟨lane.parks, lane.mem⟩
  unfold endTry
  dsimp only
  split
  · exact woken.trans (keeps _)
  · exact woken

theorem wakeLane_steady (s : State) (t : Team) (core g i : Nat) : Steady s (wakeLane s t core g i) := by
  unfold wakeLane
  extract_lets l met h
  split
  · exact .refl s
  · split
    · split
      · exact (modLane_steady s t.uid g i _).trans (acquireCtx_steady ..)
      · exact .refl s
    · split
      · exact .refl s
      · split
        · split
          · exact .refl s
          · exact ⟨rfl, rfl⟩
        · exact endTry_steady _ _ _ _ _ _ _ fun s => acquireCtx_steady ..
    · exact .refl s

theorem wakeTimeline_steady (s : State) (u : Nat) : Steady s (wakeTimeline s u) := by
  unfold wakeTimeline
  split
  · exact .refl s
  · next t _ =>
    split
    · exact .refl s
    · exact Steady.foldl _ (fun s g => Steady.foldl _ (fun s i => wakeLane_steady s t _ g i) _ s) _ s

theorem saveOne_kept (s : State) (u g : Nat) : (saveOne s u g).teams = s.teams ∧ (saveOne s u g).mem = s.mem := by
  unfold saveOne
  split <;> exact ⟨rfl, rfl⟩

/-- Settles O46: each end or park is the model's step once nothing of its condition holds it back; what a release drains leaves the fault
records of a die; and no YLD point that other groups meet puts a lane into a handler. -/
theorem gangsAndTeamsEnd : Obligations.GangsAndTeamsEnd := by
  unfold Obligations.GangsAndTeamsEnd
  refine fun s => ⟨fun team g x t found placed gang stands empty flags => ?_,
    fun team t core found placed going gangs cmds pend pool launches released drained => ?_,
    fun team t f found ending begun here stands drained => ?_,
    fun team g i t core c tv f found placed inCores idle runs chosen uid at_ gang len within first fault out trap installed => ?_,
    fun team g t core x found placed gang parked parts quiet only => ?_,
    fun team g t core x found placed gang parked parts idle ops fits => ?_⟩
  · obtain ⟨f, run, keeps, gangs⟩ := execGangRetire_empty found placed gang stands empty flags
    refine ⟨_, { x with retired := true, chunks := 0, parked := 0 }, run, ?_, rfl, rfl, rfl⟩
    rw [findGang, findTeam_modTeam s team f keeps, found, Option.map_some, Option.bind_some, gangs, List.getElem?_modify,
      (findTeam_gang found gang).1]
    simp
  · have run := execTeamRetire_done found placed going gangs cmds pend pool launches released drained
    dsimp only at run ⊢
    generalize List.foldl _ (ctxRelease (teamRelease s core).1 t).1 _ = left at run ⊢
    refine ⟨fun home => ⟨_, run.trans (congrArg _ (if_neg ?_)), ?_⟩, fun ⟨m, hm, leave, ours⟩ => run.trans (congrArg _ (if_pos ?_))⟩
    · rintro away
      obtain ⟨m, hm, both⟩ := List.any_eq_true.mp away
      simp only [Bool.and_eq_true, beq_iff_eq] at both
      exact home m hm both.1 both.2
    · simp [findTeam, dropTeam]
    · exact List.any_eq_true.mpr ⟨m, hm, by simp [leave, ours]⟩
  · have run := execTeamEnd_drained found ending begun drained
    have same := ctxRelease_faults s t
    have uid : t.uid = team := by simpa using List.find?_some found
    have here' : t.die < (ctxRelease s t).1.dies.length := by
      have := congrArg List.length same
      simp only [faultRings, List.length_map] at this
      omega
    obtain ⟨faults, failed⟩ := dieOf_faults same t.die
    obtain ⟨gone, n, record⟩ := finishEnd_record (f := f) here' (failed.trans stands)
    exact ⟨_, n, run, uid ▸ gone, faults ▸ record⟩
  · obtain rfl : c.g = g := at_
    have hi : i ∈ c.grp := List.mem_of_find?_eq_some first
    have some_ : (c.gang.lane i).deferred.isSome = true := by rw [fault]; rfl
    have free : Free s team c.g c.grp t.ctx := ⟨⟨t, found, rfl⟩, c.gang, gang, len, out⟩
    have free' := free.meetYldPoints (candidates s core (c.g % 4) (issueCycle s core (c.g % 4)))
    have run : exec (.trapEntry team c.g i) s = .next (deferredTrap (passTo (meetYldPoints s (candidates s core (c.g % 4)
        (issueCycle s core (c.g % 4)))) (issueCycle s core (c.g % 4))) team c.g c.grp c.gang) := by
      change execTrapEntry team c.g i s = _
      unfold execTrapEntry dueIssue
      simp only [found, Option.bind_some, placed, chosen]
      rw [if_pos ⟨uid, trivial, List.elem_iff.mpr hi, some_⟩,
        execClauseIssue_deferred (by omega) inCores idle runs chosen within hi some_, uid]
    have installed' : handlerFor (passTo (meetYldPoints s (candidates s core (c.g % 4) (issueCycle s core (c.g % 4))))
        (issueCycle s core (c.g % 4))) t.ctx f.cause f.tmem = some tv :=
      (handlerFor_congr (meetYldPoints_keeps State.mem modLane_mem s _) (meetYldPoints_mgmt s _) _ _ _).trans installed
    obtain ⟨y, gang', cause, addr, mem, lanes⟩ := deferredTrap_enters (s := passTo _ _) ⟨free'.team, free'.gang⟩
      (candidate_lanes (choose_least chosen).1) first fault trap installed'
    exact ⟨_, y, run, gang', cause, addr, mem.trans (meetYldPoints_keeps State.mem modLane_mem s _), lanes⟩
  · have eq := (findTeam_gang found gang).2
    obtain ⟨teams, mem⟩ := saveOne_kept (modGang s team g (fun x => { x with parked := 2 })) team g
    refine ⟨saveOne (modGang s team g (fun x => { x with parked := 2 })) team g, ?_, ?_, mem⟩
    · change execParkGang team g s = _
      unfold execParkGang
      simp only [found, placed, eq]
      exact if_neg (by simp [parked, parts, quiet, only])
    · rw [findGang, findTeam, teams]
      exact (findGang_modGang s team g _).trans (by rw [gang]; rfl)
  · have eq := (findTeam_gang found gang).2
    let back : Gang → Gang := fun x => { x with parked := 0, admitted := s.cycle, lanes := x.lanes.map (Lane.resumed s.cycle) }
    let r := wakeTimeline (noteLanes (acquireGangs (acquireCore { modGang s team g back with
      held := s.held.filter (fun h => !(h.1 == team && h.2.1 / 32 == g)) } core .pkg) core team [g]) s.cycle
      (fun t k _ => t.uid == team && k == g)) team
    have steady : Steady (modGang s team g back) r := by
      refine Steady.trans ?_ (wakeTimeline_steady _ team)
      have := (acquireCore_steady { modGang s team g back with held := s.held.filter (fun h => !(h.1 == team && h.2.1 / 32 == g)) }
        core .pkg).trans (acquireGangs_steady _ core team [g])
      exact ⟨this.parks, this.mem⟩
    have zero : (findGang r team g).map Gang.parked = some 0 := by
      rw [findGang_parked, steady.parks, ← findGang_parked, findGang_modGang, gang]
      rfl
    obtain ⟨y, gang', parked'⟩ := Option.map_eq_some_iff.mp zero
    refine ⟨r, y, ?_, gang', parked', steady.mem⟩
    change execParkedGangResume team g s = _
    unfold execParkedGangResume
    simp only [found, placed, eq]
    rw [if_neg, if_neg (by omega), if_neg (by simp [fits])]
    · rfl
    · rintro (home | waits | out)
      · omega
      · simp [parts] at waits
      · rcases Bool.or_eq_true_iff.mp out with busy | busy
        · obtain ⟨l, hl, busy⟩ := List.any_eq_true.mp busy
          simp [idle l hl] at busy
        · obtain ⟨o, ho, busy⟩ := List.any_eq_true.mp busy
          simp [ops o ho] at busy

end Sys2Proof.Machine
end


section
/-! O53: launches are accepted, made resident, started and counted out. What the launch engine's accesses leave of the chains and the
time-triggered table; the team that is admitted. -/

namespace Sys2Proof.Machine

variable {s t : State}

/-- The chains keep their heads, and the time-triggered table stands. -/
structure Steer (s t : State) : Prop where
  timed : t.timed = s.timed
  heads : t.chains.map Chain.head = s.chains.map Chain.head

theorem Steer.refl (s : State) : Steer s s := ⟨rfl, rfl⟩
theorem Steer.trans {r : State} (h : Steer s t) (k : Steer t r) : Steer s r := ⟨k.timed.trans h.timed, k.heads.trans h.heads⟩

theorem Lines.steer (h : Lines s t) : Steer s t := by
  obtain ⟨_, _, _, _, _, _, _, _, _, _, _, _, _, _, _, rfl, -⟩ := h
  exact ⟨rfl, rfl⟩

theorem Told.steer (h : Told s t) : Steer s t := by
  obtain ⟨_, _, _, rfl, -⟩ := h
  exact ⟨rfl, rfl⟩

theorem noteSlots_steer (s : State) (base : Nat) : Steer s (noteSlots s base) := by
  refine ⟨rfl, ?_⟩
  unfold noteSlots
  dsimp only
  rw [List.map_map]
  rfl

theorem homeWrite_steer (s : State) (ctx : Nat) (l : Line) (loc : Loc) (bytes : List (Nat × Byte)) (b : Bool) (cause : Nat)
    (core : Option Nat) (hist : List (Nat × List (Byte × Nat))) : Steer s (homeWrite s ctx l loc bytes b cause core hist) := by
  have marked : Lines s (dirtyLine (markLeaf (noteCode s loc bytes core hist) loc true) ctx loc) :=
    ((noteCode_cached s loc bytes core hist).1.trans (markLeaf_lines _ loc true)).trans (dirtyLine_cached _ _ _).1
  unfold homeWrite
  extract_lets base s1 old s2 s3 new covered forced
  have written : Steer s1 s2 := by
    unfold s2
    split <;> exact ⟨rfl, rfl⟩
  have noted : Steer s2 s3 := by
    refine Steer.trans ?_ (noteSlots_steer _ base)
    unfold noteHeld noteLanes
    rw [settlePieces_shape]
    exact ⟨rfl, rfl⟩
  refine (marked.steer.trans (written.trans noted)).trans ?_
  exact List.foldlRecOn _ _ (motive := fun t => Steer s3 t) (.refl s3) fun t h d _ => h.trans (notify_told ..).steer

theorem engineAtomic_steer {ctx a n : Nat} {f : Nat → List (Nat × Byte)} (ok : engineAtomic s ctx a n f = .ok t) :
    Steer s t ∧ t.launches = s.launches := by
  unfold engineAtomic at ok
  split at ok
  · cases ok
  · split at ok
    · cases ok
    · next loc _ =>
      split at ok
      · cases ok
      · cases ok
        have numbered : Lines s { s with fresh := s.fresh + 1 } :=
          ⟨_, _, _, _, _, _, _, _, _, _, _, _, _, _, _, rfl, Nat.le_succ _, id, id⟩
        have before := numbered.trans ((markLeaf_lines _ loc true).trans (touchLine_cached _ ctx loc).1)
        obtain ⟨-, -, -, -, -, launches, -⟩ := before.rest
        exact ⟨before.steer.trans (homeWrite_steer ..), (homeWrite_shape ..).1.2.2.2.1.trans launches⟩

theorem crecWrite_steer (s : State) (id : Nat) (f : Nat → List (Nat × Byte)) : Steer s (crecWrite s id f) := by
  unfold crecWrite
  split
  · exact .refl s
  · dsimp only
    split
    · exact ⟨rfl, rfl⟩
    · split
      · next ok => exact (engineAtomic_steer ok).1
      · exact ⟨rfl, rfl⟩

theorem crecRefuse_steer (s : State) (d ctx r code : Nat) :
    Steer s (crecRefuse s d ctx r code) ∧ (crecRefuse s d ctx r code).launches = s.launches := by
  unfold crecRefuse
  dsimp only
  split
  · exact ⟨.refl s, rfl⟩
  · split
    · next ok => exact engineAtomic_steer ok
    · exact ⟨⟨rfl, rfl⟩, rfl⟩

theorem chainDone_steer {k : Nat} (here : k < s.chains.length) (no epoch : Nat) :
    Steer s (chainDone s k no epoch) ∧ (chainDone s k no epoch).launches = s.launches := by
  unfold chainDone
  extract_lets c done tl r
  have set : Steer s r := by
    refine ⟨rfl, List.ext_getElem? fun n => ?_⟩
    rw [List.getElem?_map, List.getElem?_map, List.getElem?_set]
    split
    · next same =>
      subst same
      rw [List.getElem?_eq_getElem here]
      change some c.head = some s.chains[k].head
      rw [show c = s.chains[k] from List.getD_eq_getElem _ _ here]
    · rfl
  split
  · exact ⟨.refl s, rfl⟩
  · split
    · exact ⟨set, rfl⟩
    · split
      · next ok =>
        obtain ⟨steer, launches⟩ := engineAtomic_steer ok
        exact ⟨set.trans steer, launches⟩
      · exact ⟨set.trans ⟨rfl, rfl⟩, rfl⟩

theorem Steer.length (h : Steer s t) : t.chains.length = s.chains.length := by
  have := congrArg List.length h.heads
  simpa using this

theorem Steer.head (h : Steer s t) (k : Nat) : (t.chains.getD k Chain.reset).head = (s.chains.getD k Chain.reset).head := by
  have get (u : State) : (u.chains.getD k Chain.reset).head = (u.chains.map Chain.head).getD k Chain.reset.head := by
    rw [List.getD_eq_getElem?_getD, List.getD_eq_getElem?_getD, List.getElem?_map]
    cases u.chains[k]? <;> rfl
  rw [get, get, h.heads]

/-- What the engine reads it reads through the slices alone (R346). -/
theorem engineRead_lines (s : State) (ctx a n : Nat) : Lines s (engineRead s ctx a n).1 := by
  unfold engineRead
  split
  · exact .refl s
  · next loc _ =>
    split
    · exact .refl s
    · exact (markLeaf_lines s loc false).trans (touchLine_cached _ ctx loc).1

/-- A launch without a completion record has none written. -/
theorem crecWrite_none {id : Nat} {l : Launch} (found : findLaunch s id = some l) (none_ : recCrec l.raw = 0) (f : Nat → List (Nat × Byte)) :
    crecWrite s id f = { s with fresh := s.fresh + 1 } := by
  unfold crecWrite
  simp only [found]
  exact if_pos (.inl none_)

theorem mem_raiseLevel (s : State) (l : Launch) (kind bit band code data cause : Nat) :
    (raiseLevel s l kind bit band code data cause).mem = s.mem := by
  unfold raiseLevel
  dsimp only
  split <;> split <;> rfl

theorem Quiet.ranges (h : Quiet s t) (d : Nat) : (dieOf t d).ranges = (dieOf s d).ranges := by
  have get (u : State) : (dieOf u d).ranges = ((u.dies.map Die.but).map Die.ranges).getD d Die.reset.ranges := by
    rw [List.getD_eq_getElem?_getD, List.getElem?_map, List.getElem?_map, dieOf, List.getD_eq_getElem?_getD]
    cases u.dies[d]? <;> rfl
  rw [get, get, h.dies]

-- Acceptance

/-- The launch that a record makes. -/
def newLaunch (s : State) (d ctx depth r no : Nat) (c : ChainId) (epoch : Nat) : Launch :=
  { id := s.fresh, raw := r, chain := c, no := no, ctx := ctx, depth := depth, die := d, order := s.fresh, resident := false,
    nores := false, admitted := 0, retired := 0, faulted := 0, fcode := 0, fteam := 0, bandsDone := 0, bandsDue := [],
    crecBad := false, killed := false, killTid := none, epoch := epoch }

/-- R350: the record's launch is among those that the engine knows, and its completion record is begun, if it has one. -/
theorem acceptRaw_accepts (s : State) (d ctx depth r no : Nat) (c : ChainId) (epoch : Nat) :
    (∃ l ∈ (acceptRaw s d ctx depth r no c epoch).launches, l.but = newLaunch s d ctx depth r no c epoch) ∧
    Steer s (acceptRaw s d ctx depth r no c epoch) ∧
    (recCrec r = 0 → (∀ y ∈ s.launches, y.id ≠ s.fresh) → (acceptRaw s d ctx depth r no c epoch).mem = s.mem) := by
  unfold acceptRaw
  extract_lets id l u
  have quiet := crecWrite_quiet u id (fun _ => bytesAt 0 32 (2 ^ 64 * recTeams r))
  refine ⟨?_, Steer.trans (t := u) ⟨rfl, rfl⟩ (crecWrite_steer ..), fun none_ fresh => ?_⟩
  · have mem : l.but ∈ u.launches.map Launch.but := List.mem_map_of_mem (by simp [u, modDie])
    rw [← quiet.launches] at mem
    obtain ⟨m, hm, e⟩ := List.mem_map.mp mem
    exact ⟨m, hm, e⟩
  · have found : findLaunch u id = some l := by
      have old : s.launches.find? (fun x => x.id == id) = none := by
        rw [List.find?_eq_none]
        intro y hy
        simpa using fresh y hy
      change (s.launches ++ [l]).find? _ = _
      rw [List.find?_append, old]
      simp [l]
    rw [crecWrite_none found none_]
    rfl

/-- The engine has taken or refused a chain's record: the chain stands as `c`, and the next turn is another's (R346). -/
def setChain (s : State) (chain : Nat) (c : Chain) : State :=
  modDie (endStall { s with chains := s.chains.set chain c } c.die (.host chain)) c.die (fun d => { d with turn := chain + 1 })

theorem setChain_head (s : State) {chain : Nat} (here : chain < s.chains.length) (c : Chain) :
    ((setChain s chain c).chains.getD chain Chain.reset).head = c.head :=
  congrArg Chain.head (getD_set_of_getElem? (List.getElem?_eq_getElem here) c Chain.reset)

section
variable {chain : Nat} {c : Chain} {x : State} {r : Nat} (found : s.chains[chain]? = some c) (on : c.en = true) (fine : c.err = false)
  (ahead : (c.tail - c.head).toNat ≠ 0) (room : (c.tail - c.head).toNat ≤ 2 ^ c.lcap) (takes : engineTakes s c.die (.host chain) = true)
  (clean : slotHit c = false) (read : engineRead s c.ctx (nextSlot c) 128 = (x, .ok r))
include found on fine ahead room takes clean read

/-- R346, R350: a chain's record that passes its checks is accepted. -/
theorem execChainRecordAccept_good (good : recRefused x c.ctx r = none) (fits : rangesFit s c.die r = true) :
    exec (.chainRecordAccept chain) s =
      .next (setChain (acceptRaw x c.die c.ctx 0 r (c.count + 1) (.host chain) c.epoch) chain c.took) := by
  change execChainRecordAccept chain s = _
  unfold execChainRecordAccept
  have go : ¬ ((!c.en) = true ∨ c.err = true ∨ (c.tail - c.head).toNat = 0 ∨ (!engineTakes s c.die (.host chain)) = true) := by
    simpa [on, fine, takes] using ahead
  simp only [found, if_neg go, if_neg (Nat.not_lt.mpr room), clean, Bool.false_eq_true, if_false, read, good, fits, Bool.not_true]
  rfl

/-- R346, R350: one that does not is refused. -/
theorem execChainRecordAccept_bad {code : Nat} (bad : recRefused x c.ctx r = some code) :
    exec (.chainRecordAccept chain) s = .next (chainDone (setChain (crecRefuse x c.die c.ctx r code) chain c.took) chain (c.count + 1) c.epoch) := by
  change execChainRecordAccept chain s = _
  unfold execChainRecordAccept
  have go : ¬ ((!c.en) = true ∨ c.err = true ∨ (c.tail - c.head).toNat = 0 ∨ (!engineTakes s c.die (.host chain)) = true) := by
    simpa [on, fine, takes] using ahead
  simp only [found, if_neg go, if_neg (Nat.not_lt.mpr room), clean, Bool.false_eq_true, if_false, read, bad]
  rfl

end

/-- A launch but for the condition at its completion record is the record's launch: its fields are those that the record gives. -/
theorem newLaunch_fields {l : Launch} {d ctx depth r no epoch : Nat} {c : ChainId} (e : l.but = newLaunch s d ctx depth r no c epoch) :
    l.raw = r ∧ l.chain = c ∧ l.no = no ∧ l.epoch = epoch ∧ l.depth = depth ∧ l.resident = false ∧ l.admitted = 0 :=
  ⟨congrArg Launch.raw e, congrArg Launch.chain e, congrArg Launch.no e, congrArg Launch.epoch e, congrArg Launch.depth e,
    congrArg Launch.resident e, congrArg Launch.admitted e⟩

theorem dropPend_kept (s : State) (x : Team) : (dropPend s x).launches = s.launches ∧ (dropPend s x).mem = s.mem := by
  unfold dropPend
  dsimp only
  split <;> exact ⟨rfl, rfl⟩

/-- The launch that a change finds under its number. -/
theorem findLaunch_modLaunch_same {id : Nat} {l : Launch} (found : findLaunch s id = some l) (f : Launch → Launch)
    (keeps : ∀ l, (f l).id = l.id) : findLaunch (modLaunch s id f) id = some (f l) := by
  have same : (l.id == id) = true := by simpa using List.find?_some found
  rw [findLaunch_modLaunch s id f keeps id, found, Option.map_some, if_pos same]

-- Admission

/-- What a team stands as: its numbers, its place and its gangs. -/
def Team.frame (t : Team) : Nat × Nat × Nat × Place × List Gang := (t.uid, t.tid, t.launch, t.place, t.gangs)

/-- The teams stand as they stood, and the launches are the same. -/
structure Loaded (s t : State) : Prop where
  teams : t.teams.map Team.frame = s.teams.map Team.frame
  launches : t.launches = s.launches

theorem Loaded.refl (s : State) : Loaded s s := ⟨rfl, rfl⟩
theorem Loaded.trans {r : State} (h : Loaded s t) (k : Loaded t r) : Loaded s r := ⟨k.teams.trans h.teams, k.launches.trans h.launches⟩

theorem Loaded.foldl {β : Type} (f : State → β → State) (keeps : ∀ s b, Loaded s (f s b)) (l : List β) (s : State) : Loaded s (l.foldl f s) :=
  List.foldlRecOn l f (motive := fun t => Loaded s t) (.refl s) fun t h b _ => h.trans (keeps t b)

theorem modTeam_loaded (s : State) (u : Nat) (f : Team → Team) (same : ∀ t, (f t).frame = t.frame) : Loaded s (modTeam s u f) := by
  refine ⟨?_, rfl⟩
  unfold modTeam modWhere
  rw [List.map_map]
  refine List.map_congr_left fun t _ => ?_
  rw [Function.comp_apply]
  split
  · exact same t
  · rfl

theorem Lines.loaded (h : Lines s t) : Loaded s t := by
  obtain ⟨teams, -, -, -, -, launches, -⟩ := h.rest
  exact ⟨congrArg _ teams, launches⟩

theorem replayPreload_loaded (s : State) (x : Team) : Loaded s (replayPreload s x) := by
  refine Loaded.foldl _ (fun s p => ?_) _ s
  have read := (engineRead_lines s x.ctx p.2.toNat 64).loaded
  dsimp only
  split
  · exact .refl s
  · have kept := read.trans (modTeam_loaded _ x.uid (fun t => { t with preload := t.preload.filter (fun y => y.1 != p.1),
                                                                         handles := t.handles.set p.1 { st := 3, raw := 0 } }) fun _ => rfl)
    exact ⟨kept.teams, kept.launches⟩
  · exact read.trans (modTeam_loaded _ x.uid _ fun _ => rfl)

theorem postPage_loaded (s : State) (x : Team) (a : Nat) : Loaded s (postPage s x a) := by
  unfold postPage
  dsimp only
  split <;> exact ⟨rfl, rfl⟩

theorem findTeam_frame (s : State) (u : Nat) : (findTeam s u).map Team.frame = (s.teams.map Team.frame).find? (fun x => x.1 == u) := by
  rw [findTeam, List.find?_map]
  rfl

/-- A team on a core that acquires drops what its lanes prefetched from homes in the scope. -/
def Team.acquired (core : Nat) (sc : Scope) (t : Team) : Team :=
  if t.core = some core then { t with gangs := t.gangs.map fun x => { x with lanes := x.lanes.map (Lane.dropPre (coreDie core) sc) } } else t

theorem findTeam_acquireCore (s : State) (core : Nat) (sc : Scope) (u : Nat) :
    findTeam (acquireCore s core sc) u = (findTeam s u).map (Team.acquired core sc) := by
  have each : (acquireCore s core sc).teams = s.teams.map (Team.acquired core sc) := by
    refine List.map_congr_left fun t _ => ?_
    unfold Team.acquired
    split
    · have gangs : (List.range t.gangs.length).map (fun g => { t.gang g with lanes := (t.gang g).lanes.map (Lane.dropPre (coreDie core) sc) }) =
          t.gangs.map fun x => { x with lanes := x.lanes.map (Lane.dropPre (coreDie core) sc) } := by
        refine List.ext_getElem (by simp) fun n h1 h2 => ?_
        have inside : n < t.gangs.length := by simpa using h2
        simp [Team.gang, List.getElem?_eq_getElem inside]
      exact congrArg (fun gs => { t with gangs := gs }) gangs
    · rfl
  rw [findTeam, each, List.find?_map]
  refine congrArg (Option.map _) (congrArg (fun p => s.teams.find? p) (funext fun t => ?_))
  rw [Function.comp_apply, Team.acquired]
  split <;> rfl

theorem findTeam_bornLanes (s : State) (u : Nat) : findTeam (bornLanes s u) u = (findTeam s u).map fun t =>
    { t with gangs := t.gangs.map (fun g => { g with lanes := g.lanes.map (Lane.bornCode (s.era + 1)) }) } :=
  findTeam_modTeam { s with era := s.era + 1 } u _ fun _ => rfl

theorem gang_map (t : Team) (gs : List Gang) (f : Gang → Gang) (same : t.gangs = gs.map f) {g : Nat} (here : g < gs.length) :
    t.gang g = f (gs.getD g Gang.empty) := by
  rw [Team.gang, same, List.getD_eq_getElem _ _ (by simpa using here), List.getElem_map, List.getD_eq_getElem _ _ here]

/-- R65, R343: a lane of a gang that starts is at the entry, if it is there. -/
theorem startGang_lane (r now g i : Nat) : (startGang r now g).lane i = Lane.absent ∨
    ((startGang r now g).lane i).st = .running ∧ ((startGang r now g).lane i).gid = g ∧ ((startGang r now g).lane i).lid = i ∧
      ((startGang r now g).lane i).pc = BitVec.ofNat 64 (recEntry r) := by
  by_cases inside : i < 32
  · have lane : (startGang r now g).lane i = startLane (recEntry r) now (recP r) (recL r) (recQ r) g i := by
      simp [Gang.lane, startGang, List.getD_eq_getElem?_getD, inside]
    rw [lane, startLane]
    dsimp only
    split
    · exact .inr ⟨rfl, rfl, rfl, rfl⟩
    · exact .inl rfl
  · exact .inl (lane_out _ _ (by simpa [startGang] using inside))

theorem startGang_creg (r now g : Nat) : (startGang r now g).creg 0 = lo32 (recParam r) ∧ (startGang r now g).creg 1 = hi32 (recParam r) := by
  simp [Gang.creg, startGang, tget_tput]

theorem waits_modLaunch (s : State) (id : Nat) (f : Launch → Launch) (x : Launch) : x.waits (modLaunch s id f) = x.waits s := rfl
theorem placeFor_modLaunch (s : State) (id : Nat) (f : Launch → Launch) (x : Launch) : placeFor (modLaunch s id f) x = placeFor s x := rfl

/-- The dispatcher's note of a launch without a place (R436). -/
def Launch.noted (l : Launch) (c : Option Nat) : Launch := { l with noPlace := c }

/-- No other launch of the die comes first, whatever notes the dispatcher has made. -/
theorem noneBefore {l : Launch} {y : Launch} {id : Nat} {c : Option Nat}
    (first : ∀ x ∈ s.launches, x.die = l.die → x.waits s = true → servedBefore x l = true → placeFor s x = none)
    (mem : y ∈ (modLaunch s id (Launch.noted · c)).launches) (die : y.die = l.die) (waits : y.waits s = true)
    (before : servedBefore y l = true) : placeFor s y = none := by
  obtain ⟨x, hx, rfl⟩ := List.mem_map.mp mem
  by_cases here : (x.id == id) = true
  · rw [if_pos here] at die waits before ⊢
    exact first x hx die waits before
  · rw [if_neg here] at die waits before ⊢
    exact first x hx die waits before

/-- The team that is admitted stands on its core as it starts (R343), whatever its handle records are found to be. -/
theorem execTeamAdmit_starts {id core : Nat} {l : Launch} (found : findLaunch s id = some l) (place : placeFor s l = some core)
    (waits : l.waits s = true) (runs : (dieOf s l.die).halted = false)
    (first : ∀ x ∈ s.launches, x.die = l.die → x.waits s = true → servedBefore x l = true → placeFor s x = none) :
    ∃ v, exec (.teamAdmit id) s = .next (bornLanes (acquireCore v core .pkg) s.fresh) ∧
      v.teams.map Team.frame = (s.teams ++ [startTeam l (ctxPriv s l.ctx) s.fresh l.admitted core s.cycle]).map Team.frame ∧
      (findLaunch v id).isSome = true := by
  change ∃ v, execTeamAdmit id s = _ ∧ _
  unfold execTeamAdmit
  simp only [found, place]
  have turn : ¬ ((!l.waits (modLaunch s id (Launch.noted · none))) = true ∨
      (dieOf (modLaunch s id (Launch.noted · none)) l.die).halted = true ∨
      ((modLaunch s id (Launch.noted · none)).launches.any fun x => x.die == l.die && x.waits (modLaunch s id (Launch.noted · none)) &&
        servedBefore x l && (placeFor (modLaunch s id (Launch.noted · none)) x).isSome) = true) := by
    rintro (idle | halted | other)
    · simp [waits_modLaunch, waits] at idle
    · exact absurd (show (dieOf s l.die).halted = true from halted) (by rw [runs]; decide)
    · obtain ⟨y, hy, served⟩ := List.any_eq_true.mp other
      simp only [Bool.and_eq_true, beq_iff_eq, waits_modLaunch, placeFor_modLaunch] at served
      obtain ⟨⟨⟨die, waits'⟩, before⟩, place'⟩ := served
      simp [noneBefore first hy die waits' before] at place'
  erw [if_neg turn]
  let team := startTeam l (ctxPriv s l.ctx) s.fresh l.admitted core s.cycle
  let s1 : State := { modLaunch s id (Launch.noted · none) with fresh := s.fresh + 1, teams := s.teams ++ [team] }
  let s2 := modLaunch s1 id (fun l => { l with admitted := l.admitted + 1, bandsDue := (team.band :: l.bandsDue).dedup })
  let s3 := if team.wantsArray then modCore s2 core (fun c => { c with holder := some team.uid, arr := Array.granted, order := [] }) else s2
  have array : Loaded s2 s3 := by
    unfold s3
    split <;> exact ⟨rfl, rfl⟩
  have loaded := array.trans ((replayPreload_loaded s3 team).trans
    (Loaded.foldl (fun s p => postPage s team p.2.toNat) (fun s p => postPage_loaded s team p.2.toNat)
      (((findTeam (replayPreload s3 team) team.uid).map (fun y => y.preload)).getD []) _))
  have known : (s2.launches.find? (fun x => x.id == id)).isSome = true := by
    have kept := (findLaunch_modLaunch s1 id (fun l => { l with admitted := l.admitted + 1, bandsDue := (team.band :: l.bandsDue).dedup })
      (fun _ => rfl) id).trans (congrArg _ (findLaunch_modLaunch s id (Launch.noted · none) (fun _ => rfl) id))
    rw [found] at kept
    change (findLaunch s2 id).isSome = true
    rw [kept]
    rfl
  refine ⟨_, rfl, loaded.teams, ?_⟩
  rw [← loaded.launches] at known
  exact known

/-- A lane as it stands once it has acquired and its fetches see what stands. -/
def Lane.admitted (core era : Nat) (l : Lane) : Lane := (l.dropPre (coreDie core) .pkg).bornCode era

/-- So do all the lanes of a gang. -/
def Gang.admittedLanes (core era : Nat) (x : Gang) : Gang := { x with lanes := x.lanes.map (Lane.admitted core era) }

/-- R343: the team once it has been admitted. -/
theorem startTeam_admitted {v : State} {l : Launch} {p : Bool} {uid tid core now : Nat} {x : Team} (found : findTeam v uid = some x)
    (frame : x.frame = (startTeam l p uid tid core now).frame) : ∃ t, findTeam (bornLanes (acquireCore v core .pkg) uid) uid = some t ∧
      t.tid = tid ∧ t.launch = l.id ∧ t.core = some core ∧ t.gangs.length = recG l.raw ∧
      ∀ g < recG l.raw, (t.gang g).cregs = (startGang l.raw now g).cregs ∧
        ∃ era, ∀ i, ((t.gang g).lane i).live = true → (t.gang g).lane i = ((startGang l.raw now g).lane i).admitted core era := by
  simp only [Team.frame, startTeam, Prod.mk.injEq] at frame
  obtain ⟨-, tid_, launch, place, gangs⟩ := frame
  have here : x.core = some core := by rw [Team.core, place]
  have team : findTeam (bornLanes (acquireCore v core .pkg) uid) uid =
      some { x with gangs := x.gangs.map (Gang.admittedLanes core ((acquireCore v core .pkg).era + 1)) } := by
    rw [findTeam_bornLanes, findTeam_acquireCore, found, Option.map_some, Option.map_some, Team.acquired, if_pos here]
    dsimp only
    rw [List.map_map]
    refine congrArg (fun gs => some { x with gangs := gs }) (List.map_congr_left fun g _ => ?_)
    rw [Function.comp_apply, Gang.admittedLanes, List.map_map]
    rfl
  refine ⟨_, team, tid_, launch, here, by simp [gangs], fun g hg => ?_⟩
  have start : x.gangs.getD g Gang.empty = startGang l.raw now g := by
    rw [gangs, List.getD_eq_getElem _ _ (by simpa using hg)]
    simp
  rw [gang_map _ x.gangs (Gang.admittedLanes core ((acquireCore v core .pkg).era + 1)) rfl (by simpa [gangs] using hg), start]
  refine ⟨rfl, (acquireCore v core .pkg).era + 1, fun i live => ?_⟩
  by_cases inside : i < (startGang l.raw now g).lanes.length
  · exact lane_mapAll _ _ i inside
  · rw [lane_out _ i (by simpa [Gang.admittedLanes] using inside)] at live
    cases live

-- Completion

/-- R357: a band that its last team has left is counted. -/
theorem execBandComplete_done {id band : Nat} {l : Launch} (found : findLaunch s id = some l) (due : l.bandsDue.contains band = true)
    (all : l.nores = false → l.killed = false → recTeams l.raw ≤ l.admitted) (none_ : ∀ t ∈ s.teams, t.launch = id → t.band ≠ band) :
    ∃ u m, exec (.bandComplete id band) s = .next u ∧ findLaunch u id = some m ∧ m.bandsDone = l.bandsDone + 1 ∧
      m.bandsDue = l.bandsDue.filter (· != band) ∧ (recCrec l.raw = 0 → u.mem = s.mem) := by
  let told := crecWrite s id (fun old => bytesAt 28 4 (fld old 255 224 + 1))
  let counted (l : Launch) : Launch := { l with bandsDue := l.bandsDue.filter (· != band), bandsDone := l.bandsDone + 1 }
  have ready : ¬ ((!l.bandsDue.contains band) = true ∨ (!l.nores && !l.killed && decide (l.admitted < recTeams l.raw)) = true ∨
      (s.teams.any fun t => t.launch == id && t.band == band) = true) := by
    rintro (off | waiting | stays)
    · rw [due] at off
      cases off
    · simp only [Bool.and_eq_true, Bool.not_eq_true', decide_eq_true_eq] at waiting
      have := all waiting.1.1 waiting.1.2
      omega
    · obtain ⟨t, ht, both⟩ := List.any_eq_true.mp stays
      simp only [Bool.and_eq_true, beq_iff_eq] at both
      exact none_ t ht both.1 both.2
  have run : exec (.bandComplete id band) s = .next (raiseLevel (modLaunch told id counted) l 2 898 band 0 0 s.fresh) := by
    change execBandComplete id band s = _
    unfold execBandComplete
    simp only [found, if_neg ready]
    rfl
  have kept := (crecWrite_quiet s id (fun old => bytesAt 28 4 (fld old 255 224 + 1))).findLaunch id
  rw [found] at kept
  obtain ⟨m, found', but⟩ := Option.map_eq_some_iff.mp kept
  have raised := (raiseLevel_quiet (modLaunch told id counted) l 2 898 band 0 0 s.fresh).findLaunch id
  rw [findLaunch_modLaunch_same found' counted fun _ => rfl] at raised
  obtain ⟨w, found'', but'⟩ := Option.map_eq_some_iff.mp raised
  have done := congrArg Launch.bandsDone but
  have due' := congrArg Launch.bandsDue but
  refine ⟨_, w, run, found'', (congrArg Launch.bandsDone but').trans (congrArg (· + 1) done),
    (congrArg Launch.bandsDue but').trans (congrArg (List.filter (· != band)) due'), fun no => (mem_raiseLevel ..).trans ?_⟩
  change told.mem = s.mem
  rw [show told = _ from crecWrite_none found no _]

/-- R357: a launch whose teams have all ended is known no more, and holds no ranges. -/
theorem execLaunchComplete_done {id : Nat} {l : Launch} (found : findLaunch s id = some l) (bands : l.bandsDue = [])
    (done : l.nores = true ∨ l.retired + l.faulted = recTeams l.raw) (die : l.die < s.dies.length) :
    ∃ u, exec (.launchComplete id) s = .next u ∧ findLaunch u id = none ∧ ∀ x ∈ (dieOf u l.die).ranges, x.1 ≠ id := by
  let freed := modDie s l.die (fun d => { d with ranges := d.ranges.filter (fun x => x.1 != id) })
  let told := crecWrite freed id (fun _ => bytesAt 0 8 1 ++ bytesAt 22 1 (if l.nores then 6 else 0))
  let raised := raiseLevel told l 3 900 0 l.fcode 0 freed.fresh
  let ended : State := { raised with launches := raised.launches.filter (fun x => x.id != id) }
  have ready : ¬ ((!l.bandsDue.isEmpty) = true ∨ (!(l.nores || l.retired + l.faulted == recTeams l.raw)) = true) := by
    rintro (due | left_)
    · simp [bands] at due
    · rcases done with no | all
      · simp [no] at left_
      · simp [all] at left_
  have run : exec (.launchComplete id) s = .next (match l.chain with
      | .host k => chainDone ended k l.no l.epoch
      | .timed j => { ended with timed := ended.timed.modify j (fun e => if e.prev = some id then { e with prevEnd := some (timeOf ended) } else e) }
      | .team _ => ended) := by
    change execLaunchComplete id s = _
    unfold execLaunchComplete
    simp only [found, if_neg ready]
    rfl
  have quiet : Quiet ended (match l.chain with
      | .host k => chainDone ended k l.no l.epoch
      | .timed j => { ended with timed := ended.timed.modify j (fun e => if e.prev = some id then { e with prevEnd := some (timeOf ended) } else e) }
      | .team _ => ended) := by
    split
    · exact chainDone_quiet ..
    · exact ⟨rfl, rfl, rfl, rfl, rfl, fun wf => wf⟩
    · exact .refl ended
  have gone : findLaunch ended id = none := by
    unfold findLaunch
    simp [ended]
  have none_ := quiet.findLaunch id
  rw [gone] at none_
  refine ⟨_, run, by simpa using none_, ?_⟩
  have ranges : (dieOf ended l.die).ranges = (dieOf freed l.die).ranges :=
    ((crecWrite_quiet freed id _).trans (raiseLevel_quiet told l 3 900 0 l.fcode 0 freed.fresh)).ranges l.die
  rw [quiet.ranges, ranges, show dieOf freed l.die = _ from (dieOf_modDie s die _ l.die).trans (if_pos rfl)]
  intro x hx
  simpa using (List.mem_filter.mp hx).2

/-- Settles O53: the engine's own reads and writes leave the chains' heads, the table and the launches; and the team that is admitted
keeps its frame while its handle records are read. -/
theorem launchesAdvance : Obligations.LaunchesAdvance := by
  unfold Obligations.LaunchesAdvance
  refine fun s => ⟨fun chain c x r found on fine ahead room takes clean read => ⟨fun good fits => ?_, fun bad => ?_⟩,
    fun chain c found free turn => ?_,
    fun team t r rest found pend takes going live good fits => ?_,
    fun id l refused found not_ nores live runs on free => ⟨fun no in_ => ?_, fun yes asks => ?_⟩,
    fun id l core found place waits on first fresh => ?_,
    fun id l found place waits => ?_,
    fun id band l found due all none_ => ?_,
    fun id l found bands done die => ?_,
    fun j e x r found on runs_ submit period time prev takes read good fits => ?_⟩
  · obtain ⟨here, -⟩ := List.getElem?_eq_some_iff.mp found
    have lines : Lines s x := by
      have := engineRead_lines s c.ctx (nextSlot c) 128
      rwa [read] at this
    have fits' : rangesFit s c.die r = true := fits
    obtain ⟨⟨l, mem, e⟩, steer, same⟩ := acceptRaw_accepts x c.die c.ctx 0 r (c.count + 1) (.host chain) c.epoch
    obtain ⟨raw, of_, no, epoch, -, out, zero⟩ := newLaunch_fields e
    refine ⟨_, l, execChainRecordAccept_good found on fine ahead room takes clean read good fits', mem, raw, of_, no, epoch, out, zero, ?_, same⟩
    exact setChain_head _ (by rw [steer.length, lines.steer.length]; exact here) _
  · obtain ⟨here, -⟩ := List.getElem?_eq_some_iff.mp found
    have lines : Lines s x := by
      have := engineRead_lines s c.ctx (nextSlot c) 128
      rwa [read] at this
    obtain ⟨code, bad⟩ := Option.ne_none_iff_exists'.mp bad
    obtain ⟨steer, launches⟩ := crecRefuse_steer x c.die c.ctx r code
    have here' : chain < (crecRefuse x c.die c.ctx r code).chains.length := by rw [steer.length, lines.steer.length]; exact here
    obtain ⟨steer', launches'⟩ := chainDone_steer (s := setChain (crecRefuse x c.die c.ctx r code) chain c.took) (k := chain)
      (by simpa [setChain, endStall, modDie] using here') (c.count + 1) c.epoch
    refine ⟨_, execChainRecordAccept_bad found on fine ahead room takes clean read bad, launches'.trans (launches.trans lines.rest.2.2.2.2.2.1), ?_⟩
    rw [steer'.head]
    exact setChain_head _ here' _
  · change execChainRecordAccept chain s = _
    have waits : engineTakes s c.die (.host chain) = false := by
      simp [engineTakes, free, turn]
    unfold execChainRecordAccept
    simp [found, waits]
  · obtain ⟨⟨l, mem, e⟩, -, same⟩ := acceptRaw_accepts s t.die t.ctx (t.depth + 1) r 0 (.team team) 0
    obtain ⟨raw, of_, -, -, depth, out, -⟩ := newLaunch_fields e
    obtain ⟨launches, mem'⟩ := dropPend_kept (acceptRaw s t.die t.ctx (t.depth + 1) r 0 (.team team) 0) t
    refine ⟨_, l, ?_, launches ▸ mem, raw, of_, depth, out, fun none_ new => mem'.trans (same none_ new)⟩
    change execPendingLaunchAccept team s = _
    unfold execPendingLaunchAccept
    simp [found, pend, takes, going, live, good, fits]
  · refine ⟨_, ?_, findLaunch_modLaunch_same found (fun l => { l with resident := true }) (fun _ => rfl), rfl⟩
    change execLaunchMakeResident id refused s = _
    unfold execLaunchMakeResident
    simp [found, not_, nores, live, runs, on, free, no, in_]
  · refine ⟨_, ?_, findLaunch_modLaunch_same found (fun l => { l with nores := true }) (fun _ => rfl), rfl⟩
    change execLaunchMakeResident id refused s = _
    unfold execLaunchMakeResident
    simp [found, not_, nores, live, runs, on, free, yes, asks]
  · obtain ⟨v, run, frames, known⟩ := execTeamAdmit_starts found place waits on first
    have team : (findTeam v s.fresh).map Team.frame = some (startTeam l (ctxPriv s l.ctx) s.fresh l.admitted core s.cycle).frame := by
      have old : (s.teams.map Team.frame).find? (fun x => x.1 == s.fresh) = none := by
        rw [List.find?_eq_none]
        intro y hy
        obtain ⟨t, ht, rfl⟩ := List.mem_map.mp hy
        simpa [Team.frame] using fresh t ht
      rw [findTeam_frame, frames, List.map_append, List.find?_append, old]
      simp [Team.frame, startTeam]
    obtain ⟨x, found', frame⟩ := Option.map_eq_some_iff.mp team
    obtain ⟨t, team', tid, launch, here, count, gangs⟩ := startTeam_admitted found' frame
    refine ⟨_, t, run, team', tid, launch, here, count, ?_, fun g hg => ?_⟩
    · intro gone
      have gone : findLaunch v id = none := gone
      simp [gone] at known
    · obtain ⟨cregs, era, lanes⟩ := gangs g hg
      obtain ⟨c0, c1⟩ := startGang_creg l.raw s.cycle g
      refine ⟨by rw [Gang.creg, cregs]; exact c0, by rw [Gang.creg, cregs]; exact c1, fun i live => ?_⟩
      have lane := lanes i live
      rw [lane] at live ⊢
      rcases startGang_lane l.raw s.cycle g i with none_ | fields
      · rw [none_] at live
        cases live
      · exact fields
  · refine ⟨_, ?_, findLaunch_modLaunch_same found (fun l => { l with noPlace := some (l.noPlace.getD s.clock) }) (fun _ => rfl), rfl, rfl⟩
    change execTeamAdmit id s = _
    unfold execTeamAdmit
    simp [found, place, waits]
  · exact execBandComplete_done found due all none_
  · exact execLaunchComplete_done found bands done die
  · have lines := engineRead_lines s e.ctx e.recAddr.toNat 128
    rw [read] at lines
    obtain ⟨⟨l, mem, but⟩, steer, -⟩ := acceptRaw_accepts x 0 e.ctx 0 r 0 (.timed j) 0
    obtain ⟨raw, of_, -⟩ := newLaunch_fields but
    let y : Timed := { e with
      floor := e.nextSlot + 1, resubmit := false, stalled := false, prev := some x.fresh, started := some x.fresh, prevEnd := none,
      starts := e.starts + 1, lastSlot := e.nextSlot + 1 }
    let u : State := { acceptRaw x 0 e.ctx 0 r 0 (.timed j) 0 with timed := (acceptRaw x 0 e.ctx 0 r 0 (.timed j) 0).timed.set j y }
    have run : exec (.timeSlotStart j) s = .next u := by
      change execTimeSlotStart j s = _
      unfold execTimeSlotStart submitTimed
      have go : ¬ ((!e.en) = true ∨ (!running s) = true ∨ e.period = 0) := by simp [on, runs_, period]
      simp only [found, if_neg go, submit, Bool.false_eq_true, if_false, if_neg (Nat.not_lt.mpr time), prev, if_true, takes, Bool.not_true,
        read, good, fits]
      rfl
    have stands : u.timed[j]? = some y := by
      obtain ⟨here, -⟩ := List.getElem?_eq_some_iff.mp found
      exact List.getElem?_set_self (by rw [steer.timed, lines.steer.timed]; exact here)
    exact ⟨u, l, y, run, mem, raw, of_, stands, rfl, rfl, rfl⟩

end Sys2Proof.Machine
end


section
/-! How a tracked operation leaves its gang (R73, R88): its flag counts down, and its status reaches a register of its lane. -/

namespace Sys2Proof.Machine

variable {s t : State}

/-- The operations that the gangs of each team track. -/
def opsTable (s : State) : List (Nat × List (List Tracked)) := s.teams.map fun t => (t.uid, t.gangs.map Gang.ops)

theorem opGang_eq (t : Team) (op : Nat) : opGang t op =
    (List.range (t.gangs.map Gang.ops).length).find? fun g => ((t.gangs.map Gang.ops).getD g []).any fun o => o.id == op := by
  rw [opGang, List.length_map]
  refine congrArg (fun p => List.find? p _) (funext fun g => ?_)
  rw [Team.gang, List.getD_eq_getElem?_getD, List.getD_eq_getElem?_getD, List.getElem?_map]
  cases t.gangs[g]? <;> rfl

theorem find_opsTable (s : State) (u : Nat) :
    (findTeam s u).map (fun t => t.gangs.map Gang.ops) = ((opsTable s).find? (fun x => x.1 == u)).map (·.2) := by
  rw [opsTable, findTeam, List.find?_map, Option.map_map]
  rfl

/-- Which gang holds an operation depends on the operations alone. -/
theorem opHome_congr (same : opsTable t = opsTable s) (u g op : Nat) : opHome t u g op = opHome s u g op := by
  have home (s : State) : (findTeam s u).bind (fun t => opGang t op) = (((opsTable s).find? (fun x => x.1 == u)).map (·.2)).bind fun l =>
      (List.range l.length).find? fun g => (l.getD g []).any fun o => o.id == op := by
    rw [← find_opsTable]
    cases findTeam s u with
    | none => rfl
    | some t => exact opGang_eq t op
  rw [opHome, opHome, home, home, same]

theorem modTeam_ops (s : State) (u : Nat) (f : Team → Team) (same : ∀ t, (f t).uid = t.uid ∧ (f t).gangs.map Gang.ops = t.gangs.map Gang.ops) :
    opsTable (modTeam s u f) = opsTable s := by
  unfold opsTable modTeam modWhere
  rw [List.map_map]
  refine List.map_congr_left fun t _ => ?_
  rw [Function.comp_apply]
  split
  · rw [(same t).1, (same t).2]
  · rfl

theorem modGang_ops (s : State) (u g : Nat) (f : Gang → Gang) (same : ∀ x, (f x).ops = x.ops) : opsTable (modGang s u g f) = opsTable s := by
  refine modTeam_ops s u _ fun t => ⟨rfl, List.ext_getElem? fun n => ?_⟩
  rw [List.getElem?_map, List.getElem?_map, List.getElem?_modify]
  cases t.gangs[n]? with
  | none => rfl
  | some x =>
    simp only [Option.map_some]
    split
    · exact congrArg some (same x)
    · rfl

theorem modLane_ops (s : State) (u g i : Nat) (f : Lane → Lane) : opsTable (modLane s u g i f) = opsTable s := modGang_ops s u g _ fun _ => rfl

theorem subFlag_flag (x : Gang) (k n : Nat) : (x.subFlag k).flag n = x.flag n - if n = k ∧ n ≠ 0 then 1 else 0 := by
  unfold Gang.subFlag
  by_cases zero : k = 0
  · subst zero
    rw [if_pos rfl, if_neg (by omega)]
    rfl
  · rw [if_neg zero]
    by_cases same : n = k
    · subst same
      rw [if_pos ⟨rfl, zero⟩]
      exact tget_tput_same ..
    · rw [if_neg (by tauto)]
      exact tget_tput_ne _ _ _ same

theorem subFlag_rest (x : Gang) (k : Nat) : (x.subFlag k).lanes = x.lanes ∧ (x.subFlag k).ops = x.ops ∧ (x.subFlag k).cregs = x.cregs := by
  unfold Gang.subFlag
  split <;> exact ⟨rfl, rfl, rfl⟩

/-- The operation `o` of gang `g` is tracked there, and its lane `l` stands at place `i` of gang `h`. -/
structure Ending (s : State) (team g op h i : Nat) (x : Gang) (o : Tracked) (l : Lane) : Prop where
  gang : findGang s team g = some x
  tracked : x.ops.find? (fun o => o.id == op) = some o
  home : ∀ k, opHome s team k op = g
  lane : findLane s team h i = some l
  place : ∃ t, findTeam s team = some t ∧ t.whereIs l.ident = some (h, i)

/-- The operation has ended: it has left its gang, its flag has counted down, and register `b` of its lane holds its status, if the
lane still takes it. -/
def Ends (team g op h i b : Nat) (x : Gang) (o : Tracked) (l : Lane) (st : Nat) (u : State) : Prop :=
  ∃ y m, findGang u team g = some y ∧ y.ops = x.ops.filter (fun p => p.id != op) ∧
    (∀ n, y.flag n = x.flag n - (if n = o.flag ∧ n ≠ 0 then 1 else 0)) ∧
    findLane u team h i = some m ∧ m.preds = l.preds ∧
    ∀ n, m.reg n = if l.takes op = true ∧ n = b then BitVec.ofNat 32 st else l.reg n

variable {team g op h i : Nat} {x : Gang} {o : Tracked} {l : Lane}

theorem Ending.congr (e : Ending s team g op h i x o l) (teams : t.teams = s.teams) : Ending t team g op h i x o l := by
  have team_ : findTeam t team = findTeam s team := by rw [findTeam, findTeam, teams]
  have ops : opsTable t = opsTable s := by rw [opsTable, opsTable, teams]
  exact ⟨by rw [findGang, team_]; exact e.gang, e.tracked, fun k => (opHome_congr ops ..).trans (e.home k),
    (findLane_congr teams ..).trans e.lane, team_ ▸ e.place⟩

/-- Changing a team but for its gangs. -/
theorem Ending.modTeam (e : Ending s team g op h i x o l) (f : Team → Team) (same : ∀ t, (f t).uid = t.uid ∧ (f t).gangs = t.gangs) :
    Ending (Machine.modTeam s team f) team g op h i x o l := by
  obtain ⟨t, found, place⟩ := e.place
  have found' : findTeam (Machine.modTeam s team f) team = some (f t) := by rw [findTeam_modTeam s team f fun t => (same t).1, found]; rfl
  have gangs := (same t).2
  have gang : findGang (Machine.modTeam s team f) team = findGang s team := by
    funext k
    rw [findGang, findGang, found', found, Option.bind_some, Option.bind_some, gangs]
  refine ⟨by rw [gang]; exact e.gang, e.tracked, fun k => (opHome_congr (modTeam_ops s team f fun t => ⟨(same t).1, ?_⟩) ..).trans (e.home k),
    by rw [findLane, gang]; exact e.lane, f t, found', ?_⟩
  · rw [(same t).2]
  · rw [← place, Team.whereIs, Team.whereIs, gangs]
    simp only [Team.gang, gangs]

/-- The result of an operation written to a register of its lane, before the operation leaves. -/
theorem Ending.written (e : Ending s team g op h i x o l) (b w : Nat) (ws : List Word) :
    let u := writeResult s team h i op { name := .g b, words := w } ws
    (∃ y, findGang u team g = some y ∧ y.ops = x.ops ∧ y.flags = x.flags) ∧ (∀ k, opHome u team k op = g) ∧
      findLane u team h i = some (if l.takes op then l.setRegs b ws else l) := by
  intro u
  refine ⟨?_, fun k => (opHome_congr (modLane_ops ..) ..).trans (e.home k), ?_⟩
  · by_cases same : h = g
    · subst same
      exact ⟨_, (findGang_modGang s team h _).trans (congrArg (Option.map _) e.gang), rfl, rfl⟩
    · exact ⟨x, (findGang_modGang_ne s _ (.inr (Ne.symm same))).trans e.gang, rfl, rfl⟩
  · exact (findLane_modLane s team h i _).trans (by rw [e.lane]; rfl)

theorem status_regs (l : Lane) (op b : Nat) (w : Word) : (if l.takes op then l.setRegs b [w] else l).preds = l.preds ∧
    ∀ n, (if l.takes op then l.setRegs b [w] else l).reg n = if l.takes op = true ∧ n = b then w else l.reg n := by
  by_cases takes : l.takes op = true
  · rw [if_pos takes]
    refine ⟨(setRegs_rest _ _ _).1, fun n => (setRegs_reg l b n [w]).trans ?_⟩
    by_cases same : n = b
    · subst same
      rw [if_pos (by simp), if_pos ⟨takes, rfl⟩]
      simp
    · rw [if_neg (by simp; omega), if_neg (by tauto)]
  · rw [if_neg takes]
    exact ⟨rfl, fun n => by rw [if_neg (by tauto)]⟩

/-- The operation leaves its gang, with the status written. -/
theorem Ending.leaves (e : Ending s team g op h i x o l) (b st : Nat) (f : Gang → Gang)
    (leaves : ∀ y, y.ops = x.ops → f y = { y with ops := y.ops.filter (fun p => p.id != op) }.subFlag o.flag) :
    Ends team g op h i b x o l st (modGang (writeResult s team h i op { name := .g b, words := 1 } [BitVec.ofNat 32 st]) team g f) := by
  obtain ⟨⟨y, gang, ops, flags⟩, -, lane⟩ := e.written b 1 [BitVec.ofNat 32 st]
  obtain ⟨preds, regs⟩ := status_regs l op b (BitVec.ofNat 32 st)
  obtain ⟨lanes, ops', -⟩ := subFlag_rest { y with ops := y.ops.filter (fun p => p.id != op) } o.flag
  have left_ : findGang (modGang (writeResult s team h i op { name := .g b, words := 1 } [BitVec.ofNat 32 st]) team g f) team g =
      some ({ y with ops := y.ops.filter (fun p => p.id != op) }.subFlag o.flag) := by
    rw [findGang_modGang, gang, Option.map_some, leaves y ops]
  refine ⟨_, _, left_, by rw [ops', ops], fun n => (subFlag_flag _ _ n).trans (congrArg (· - _) (congrArg (tget 0 · n) flags)), ?_, preds, regs⟩
  rw [← lane]
  by_cases same : h = g
  · subst same
    rw [findLane, left_, findLane, gang, Option.bind_some, Option.bind_some, lanes]
  · rw [findLane, findLane, findGang_modGang_ne _ _ (.inr same)]

/-- A part of a lane that is the last of its operation ends it (R73). -/
theorem Ending.lanePart (e : Ending s team g op h i x o l) (only : o.lanes = [l.ident]) (b st : Nat) :
    Ends team g op h i b x o l st (endLanePart s team h i op { name := .g b, words := 1 } [BitVec.ofNat 32 st]) := by
  unfold endLanePart
  simp only [e.lane]
  unfold finishPart
  rw [(e.written b 1 [BitVec.ofNat 32 st]).2.1 h]
  refine e.leaves b st _ fun y ops => ?_
  simp only [ops, e.tracked, only]
  simp

theorem mem_endLanePart (s : State) (uid g i op : Nat) (d : Dst) (ws : List Word) : (endLanePart s uid g i op d ws).mem = s.mem := by
  unfold endLanePart
  split
  · rfl
  · exact writeResult_mem ..

/-- An operation that acts once ends with its status (R73). -/
theorem Ending.once (e : Ending s team g op h i x o l) (b st : Nat) :
    Ends team g op h i b x o l st (endOnce s team h i op { name := .g b, words := 1 } (BitVec.ofNat 32 st)) ∧
    (endOnce s team h i op { name := .g b, words := 1 } (BitVec.ofNat 32 st)).mem = s.mem := by
  obtain ⟨t, found, place⟩ := e.place
  have uid : t.uid = team := by simpa using List.find?_some found
  have gang : t.gang g = x := by
    have := e.gang
    rw [findGang, found, Option.bind_some] at this
    rw [Team.gang, List.getD_eq_getElem?_getD, this]
    rfl
  have run : endOnce s team h i op { name := .g b, words := 1 } (BitVec.ofNat 32 st) =
      modGang (writeResult s team h i op { name := .g b, words := 1 } [BitVec.ofNat 32 st]) team g
        (fun y => { y with ops := y.ops.filter (fun p => p.id != op) }.subFlag o.flag) := by
    unfold endOnce writeValue
    simp only [found, e.home, gang, e.tracked, findLane_at found e.lane, place, uid]
    rfl
  rw [run]
  exact ⟨e.leaves b st _ fun _ _ => rfl, writeResult_mem ..⟩

/-- The end of an operation without a result (R73). -/
theorem endOp_ends {uid : Nat} (gang : findGang s uid g = some x) (tracked : x.ops.find? (fun o => o.id == op) = some o) :
    ∃ y, findGang (endOp s uid g op) uid g = some y ∧ y.ops = x.ops.filter (fun p => p.id != op) ∧ y.lanes = x.lanes ∧ y.cregs = x.cregs ∧
      ∀ n, y.flag n = x.flag n - (if n = o.flag ∧ n ≠ 0 then 1 else 0) := by
  obtain ⟨lanes, ops, cregs⟩ := subFlag_rest { x with ops := x.ops.filter (fun p => p.id != op) } o.flag
  refine ⟨_, (findGang_modGang s uid g _).trans (by rw [gang, Option.map_some]), ?_⟩
  simp only [tracked]
  exact ⟨ops, lanes, cregs, subFlag_flag _ _⟩

end Sys2Proof.Machine
end


section
/-! Values reach their lanes (R73, R88); the watchdog ends a team (R84); what LNCH and LEASE place (R365, R368). -/

namespace Sys2Proof.Machine

variable {s t : State} {team g op h i b core : Nat} {u : Team} {x : Gang} {o : Tracked} {l : Lane}

/-- R73: the step of an operation that is tracked in a gang on a core. -/
theorem exec_operationComplete (found : findTeam s team = some u) (placed : u.core = some core)
    (tracked : (u.gang g).ops.find? (fun o => o.id == op) = some o) (no : Nat) :
    exec (.operationComplete team g op no) s = .next (completeOp s u core g o no) := by
  change execOperationComplete team g op no s = _
  unfold execOperationComplete
  simp only [found, placed, tracked]

theorem tracked_id (tracked : x.ops.find? (fun o => o.id == op) = some o) : o.id = op := by
  simpa using List.find?_some tracked

/-- What the clauses of one lane's operation say of where it stands. -/
theorem ending_of (found : findTeam s team = some u) (here : g < u.gangs.length) (tracked : (u.gang g).ops.find? (fun o => o.id == op) = some o)
    (home : opGang u op = some g) (place : u.whereIs l.ident = some (h, i)) (lane : findLane s team h i = some l) :
    Ending s team g op h i (u.gang g) o l := by
  refine ⟨?_, tracked, fun k => ?_, lane, u, found, place⟩
  · rw [findGang, found, Option.bind_some, Team.gang, List.getElem?_eq_getElem here, List.getD_eq_getElem _ _ here]
  · rw [opHome, found, Option.bind_some, home, Option.getD_some]

-- Values

theorem modLane_gang_ops {v : State} (gang : findGang v team g = some x) (k n : Nat) (f : Lane → Lane) :
    ∃ y, findGang (modLane v team k n f) team g = some y ∧ y.ops = x.ops := by
  by_cases same : k = g
  · subst same
    exact ⟨_, (findGang_modGang v team k _).trans (congrArg (Option.map _) gang), rfl⟩
  · exact ⟨x, (findGang_modGang_ne v _ (.inr (Ne.symm same))).trans gang, rfl⟩

/-- R73, R88: a computation's value reaches the lane that it belongs to, unless that lane has exited since. -/
theorem writeValue_lane {id fl : _} {ws : List Word} (uid : u.uid = team) (some_ : ws ≠ []) (place : u.whereIs id = some (h, i))
    (lane : findLane s team h i = some l) (slots : List (Nat × DWord × Nat)) (insn : DWord) :
    ∃ m, findLane (writeValue s u g op { name := .g b, words := ws.length } slots id (ws, fl) insn) team h i = some m ∧ m.preds = l.preds ∧
      m.fst = (if l.takes op = true then l.fst ||| fl else l.fst) ∧
      ∀ n, m.reg n = if l.takes op = true ∧ b ≤ n ∧ n < b + ws.length then ws.getD (n - b) 0 else l.reg n := by
  let flagged : Lane := if l.takes op then { l with fst := l.fst ||| fl } else l
  have flags : flagged.preds = l.preds ∧ flagged.fst = (if l.takes op = true then l.fst ||| fl else l.fst) ∧ flagged.regs = l.regs ∧
      flagged.takes op = l.takes op := by
    unfold flagged
    by_cases live : l.takes op = true
    · rw [if_pos live, if_pos live]
      exact ⟨rfl, rfl, rfl, rfl⟩
    · rw [if_neg live, if_neg live]
      exact ⟨rfl, rfl, rfl, rfl⟩
  obtain ⟨preds, fst, regs, takes⟩ := flags
  have first : findLane (if fl = 0 then s else modLane s u.uid h i (fun l => if l.takes op then { l with fst := l.fst ||| fl } else l)) team h i =
      some flagged := by
    split
    · next zero =>
      rw [lane]
      unfold flagged
      subst zero
      split
      · simp
      · rfl
    · rw [uid, findLane_modLane, lane]
      rfl
  have nonempty : ws.isEmpty = false := by simpa using some_
  unfold writeValue
  simp only [place, nonempty, Bool.false_eq_true, if_false, uid] at first ⊢
  refine ⟨if flagged.takes op then flagged.setRegs b ws else flagged, (findLane_modLane _ team h i _).trans (by rw [first]; rfl), ?_, ?_, ?_⟩
  · split
    · exact (setRegs_rest _ _ _).1.trans preds
    · exact preds
  · split
    · exact (setRegs_rest _ _ _).2.1.trans fst
    · exact fst
  · intro n
    rw [takes]
    by_cases live : l.takes op = true
    · rw [if_pos live]
      refine (setRegs_reg flagged b n ws).trans ?_
      by_cases inside : b ≤ n ∧ n < b + ws.length
      · rw [if_pos inside, if_pos ⟨live, inside⟩]
      · rw [if_neg inside, if_neg (by tauto), Lane.reg, regs, Lane.reg]
    · rw [if_neg live, if_neg (by tauto), Lane.reg, regs, Lane.reg]

-- The watchdog

/-- R84: CLAUSE_ISSUE where a lane of the chosen group is overdue. -/
theorem execClauseIssue_overdue {bay : Nat} {c : Cand} (hbay : bay < 4) (hcore : core < s.cores.length)
    (idle : (bayOf s core bay).issue = none) (runs : (dieOf s (coreDie core)).halted = false)
    (chosen : choose (issueCycle s core bay) (candidates s core bay (issueCycle s core bay)) = some c)
    (within : pastEnd c.fetched (c.gang.lane (c.grp.headD 0)).resume = none) (fine : ∀ j ∈ c.grp, (c.gang.lane j).deferred = none)
    (late : c.grp.find? (fun j => (c.gang.lane j).overdue) = some i) :
    execClauseIssue core bay s = .next (watchdogEnd (passTo (meetYldPoints s (candidates s core bay (issueCycle s core bay)))
      (issueCycle s core bay)) c.team c.g i) := by
  have ready : ¬ ((bayOf s core bay).issue.isSome ∨ (dieOf s (coreDie core)).halted ∨ 4 ≤ bay ∨ s.cores.length ≤ core) := by
    simp [idle, runs, hbay, hcore]
  have none_ : ¬ c.grp.any (fun i => (c.gang.lane i).deferred.isSome) = true := by simpa using fine
  simp only [execClauseIssue, if_neg ready, chosen, within, if_neg none_, late]
  rfl

theorem meetYldPoints_body (s : State) (cs : List Cand) (uid : Nat) : teamBody (meetYldPoints s cs) uid = teamBody s uid :=
  meetYldPoints_keeps (teamBody · uid) (fun s u g i f => teamBody_modLane s u g i uid f) s cs

theorem watchdogEnd_ends {c : Cand} (found : findTeam s c.team.uid = some u) (going : u.ending = none) (cs : List Cand) (now k j : Nat) :
    ∃ w f, findTeam (watchdogEnd (passTo (meetYldPoints s cs) now) c.team k j) c.team.uid = some w ∧ w.ending = some f ∧
      f.cause = .watchdog ∧ f.lane = j := by
  obtain ⟨v, found', body⟩ := teamBody_some (meetYldPoints_body s cs c.team.uid) found
  have going' : v.ending = none := (congrArg Team.ending body : v.body.ending = u.body.ending).trans going
  obtain ⟨w, found'', ending⟩ := endTeam_ending (s := passTo (meetYldPoints s cs) now) (info := laneFault c.team k j .watchdog 4 0) found' going'
  exact ⟨w, _, found'', ending, rfl, rfl⟩

-- LNCH, LREC and LEASE

theorem found_modTeam (found : findTeam s team = some u) (f : Team → Team) (same : ∀ t, (f t).uid = t.uid) :
    findTeam (modTeam s team f) team = some (f u) := by
  rw [findTeam_modTeam s team f same, found]
  rfl

theorem head_place (only : o.lanes = [l.ident]) (place : u.whereIs l.ident = some (h, i)) :
    o.lanes.head?.bind u.whereIs = some (h, i) := by rw [only]; exact place

theorem endLanePart_kept (s : State) (uid k j op : Nat) (d : Dst) (ws : List Word) :
    (endLanePart s uid k j op d ws).dies = s.dies ∧ ∀ v, teamBody (endLanePart s uid k j op d ws) v = teamBody s v := by
  have written : (writeResult s uid k j op d ws).dies = s.dies ∧ ∀ v, teamBody (writeResult s uid k j op d ws) v = teamBody s v := by
    unfold writeResult
    split
    · exact ⟨rfl, fun v => teamBody_modLane s uid k j v _⟩
    · exact ⟨rfl, fun v => teamBody_modGang s uid k v _⟩
    · exact ⟨rfl, fun _ => rfl⟩
  unfold endLanePart
  split
  · exact ⟨rfl, fun _ => rfl⟩
  · exact ⟨written.1, fun v => (teamBody_modGang _ uid _ v _).trans (written.2 v)⟩

/-- A team after the last part of an operation: as it was, but for its gangs. -/
theorem endLanePart_team {v : Team} (found : findTeam s team = some v) (k j op : Nat) (d : Dst) (ws : List Word) :
    ∃ y, findTeam (endLanePart s team k j op d ws) team = some y ∧ y.pend = v.pend ∧ y.leases = v.leases := by
  obtain ⟨y, found', body⟩ := teamBody_some ((endLanePart_kept s team k j op d ws).2 team) found
  exact ⟨y, found', (congrArg Team.pend body : y.body.pend = v.body.pend), (congrArg Team.leases body : y.body.leases = v.body.leases)⟩

section
variable (e : Ending s team g op h i x o l) (only : o.lanes = [l.ident]) (found : findTeam s team = some u) (b : Nat)
include e only found

/-- R365: what LNCH places of a record that it does not refuse, by the room in the team's queue and in the pool of its context. -/
theorem lnchPart_places (die : u.die < s.dies.length) (r : Nat) (shallow : u.depth ≠ 8) (good : recRefused s u.ctx r = none) :
    let room := u.pend.length < 4 ∧ poolOf s team = []
    let pool := ((dieOf s u.die).pool.filter (fun y => y.2.1 == u.ctx)).length < 4096
    let w := lnchPart s u h i op { name := .g b, words := 1 } r
    Ends team g op h i b x o l (if room ∨ pool then 0 else 2) w ∧ ∃ y n, findTeam w team = some y ∧
      y.pend = u.pend ++ (if room then [r] else []) ∧
      (dieOf w u.die).pool = (dieOf s u.die).pool ++ (if ¬ room ∧ pool then [(team, u.ctx, r, n)] else []) ∧ w.mem = s.mem := by
  intro room pool w
  have uid : u.uid = team := by simpa using List.find?_some found
  have dies (v : State) (st : Nat) : dieOf (endLanePart v team h i op { name := .g b, words := 1 } [BitVec.ofNat 32 st]) u.die = dieOf v u.die := by
    rw [dieOf, (endLanePart_kept ..).1, dieOf]
  by_cases hroom : room
  · have run : w = endLanePart (modTeam s team (fun t => { t with pend := t.pend ++ [r] })) team h i op { name := .g b, words := 1 } [BitVec.ofNat 32 0] := by
      have room' : u.pend.length < 4 ∧ (poolOf s team).isEmpty = true := ⟨hroom.1, by rw [hroom.2]; rfl⟩
      simp only [w, lnchPart, if_neg shallow, good, uid, if_pos room']
    obtain ⟨y, found', pend, -⟩ := endLanePart_team (s := modTeam s team (fun t => { t with pend := t.pend ++ [r] }))
      (found_modTeam found (fun t => { t with pend := t.pend ++ [r] }) fun _ => rfl) h i op { name := .g b, words := 1 } [BitVec.ofNat 32 0]
    rw [run]
    refine ⟨?_, y, 0, found', ?_, ?_, mem_endLanePart ..⟩
    · rw [if_pos (.inl hroom)]
      exact (e.modTeam (fun t => { t with pend := t.pend ++ [r] }) fun _ => ⟨rfl, rfl⟩).lanePart only b 0
    · rw [if_pos hroom]
      exact pend
    · rw [dies, if_neg fun no => no.1 hroom, List.append_nil]
      rfl
  · have full : ¬ (u.pend.length < 4 ∧ (poolOf s team).isEmpty = true) := by simpa [room] using hroom
    by_cases hpool : pool
    · have run : w = endLanePart (modDie { s with fresh := s.fresh + 1 } u.die (fun y => { y with pool := y.pool ++ [(team, u.ctx, r, s.fresh)] }))
          team h i op { name := .g b, words := 1 } [BitVec.ofNat 32 0] := by
        simp only [w, lnchPart, if_neg shallow, good, uid, if_neg full]
        exact if_pos hpool
      obtain ⟨y, found', pend, -⟩ := endLanePart_team (s := modDie { s with fresh := s.fresh + 1 } u.die
        (fun y => { y with pool := y.pool ++ [(team, u.ctx, r, s.fresh)] })) found h i op { name := .g b, words := 1 } [BitVec.ofNat 32 0]
      rw [run]
      refine ⟨?_, y, s.fresh, found', ?_, ?_, mem_endLanePart ..⟩
      · rw [if_pos (.inr hpool)]
        exact (e.congr (t := modDie { s with fresh := s.fresh + 1 } u.die _) rfl).lanePart only b 0
      · rw [if_neg hroom, List.append_nil]
        exact pend
      · rw [dies, if_pos ⟨hroom, hpool⟩]
        exact congrArg Die.pool ((dieOf_modDie { s with fresh := s.fresh + 1 } die _ u.die).trans (if_pos rfl))
    · have run : w = endLanePart s team h i op { name := .g b, words := 1 } [BitVec.ofNat 32 2] := by
        simp only [w, lnchPart, if_neg shallow, good, uid, if_neg full]
        exact if_neg hpool
      obtain ⟨y, found', pend, -⟩ := endLanePart_team found h i op { name := .g b, words := 1 } [BitVec.ofNat 32 2]
      rw [run]
      refine ⟨?_, y, 0, found', ?_, ?_, mem_endLanePart ..⟩
      · rw [if_neg fun some_ => some_.elim hroom hpool]
        exact e.lanePart only b 2
      · rw [if_neg hroom, List.append_nil]
        exact pend
      · rw [dies, if_neg fun some_ => hpool some_.2, List.append_nil]

/-- R365: what LNCH refuses leaves the team's queue. -/
theorem lnchPart_refuses (r st : Nat) (why : (u.depth = 8 ∧ st = 1) ∨ (u.depth ≠ 8 ∧ recRefused s u.ctx r = some st)) :
    let w := lnchPart s u h i op { name := .g b, words := 1 } r
    Ends team g op h i b x o l st w ∧ ∃ y, findTeam w team = some y ∧ y.pend = u.pend := by
  intro w
  have uid : u.uid = team := by simpa using List.find?_some found
  rcases why with ⟨deep, rfl⟩ | ⟨shallow, bad⟩
  · have run : w = endLanePart s team h i op { name := .g b, words := 1 } [BitVec.ofNat 32 1] := by
      simp only [w, lnchPart, if_pos deep, uid]
    obtain ⟨y, found', pend, -⟩ := endLanePart_team found h i op { name := .g b, words := 1 } [BitVec.ofNat 32 1]
    rw [run]
    exact ⟨e.lanePart only b 1, y, found', pend⟩
  · have run : w = endLanePart (crecRefuse s u.die u.ctx r st) team h i op { name := .g b, words := 1 } [BitVec.ofNat 32 st] := by
      simp only [w, lnchPart, if_neg shallow, bad, uid]
    have teams := (crecRefuse_quiet s u.die u.ctx r st).teams
    obtain ⟨y, found', pend, -⟩ := endLanePart_team (s := crecRefuse s u.die u.ctx r st) (by rw [findTeam, teams]; exact found)
      h i op { name := .g b, words := 1 } [BitVec.ofNat 32 st]
    rw [run]
    exact ⟨(e.congr teams).lanePart only b st, y, found', pend⟩

/-- R368: what LEASE does with its range. -/
theorem leasePart_ends (q : List Word) (refused : Bool) :
    let bad := rangeBad (leaseRange q) = true ∨ (leaseRange q).mode = 0 ∨ 4 ≤ (q.getD 3 0).toNat
    let pages := (rangePages (leaseRange q)).all (pageIn s u.ctx) = true
    let w := leasePart s u h i op { name := .g b, words := 1 } q refused
    (¬ bad → u.leases.length < 8 → ¬ pages → refused = false → w = s) ∧
    (bad ∨ 8 ≤ u.leases.length ∨ pages ∨ refused = true →
      Ends team g op h i b x o l (if bad then 3 else if 8 ≤ u.leases.length then 2 else if pages then 0 else 6) w ∧ ∃ y, findTeam w team = some y ∧
      y.leases = u.leases ++ (if ¬ bad ∧ u.leases.length < 8 ∧ pages then [leaseRange q] else []) ∧ w.mem = s.mem) := by
  intro bad pages w
  have uid : u.uid = team := by simpa using List.find?_some found
  have ends (st : Nat) (run : w = endLanePart s team h i op { name := .g b, words := 1 } [BitVec.ofNat 32 st]) :
      Ends team g op h i b x o l st w ∧ ∃ y, findTeam w team = some y ∧ y.leases = u.leases ++ [] ∧ w.mem = s.mem := by
    obtain ⟨y, found', -, leases⟩ := endLanePart_team found h i op { name := .g b, words := 1 } [BitVec.ofNat 32 st]
    rw [run, mem_endLanePart, List.append_nil]
    exact ⟨e.lanePart only b st, y, found', leases, rfl⟩
  by_cases hbad : bad
  · refine ⟨fun fine => absurd hbad fine, fun _ => ?_⟩
    rw [if_pos hbad, if_neg (by tauto)]
    exact ends 3 ((if_pos hbad).trans (by rw [uid]))
  · by_cases hfull : 8 ≤ u.leases.length
    · refine ⟨fun _ room => absurd hfull (by omega), fun _ => ?_⟩
      rw [if_neg hbad, if_pos hfull, if_neg (by omega)]
      exact ends 2 ((if_neg hbad).trans ((if_pos hfull).trans (by rw [uid])))
    · by_cases hpages : pages
      · refine ⟨fun _ _ absent => absurd hpages absent, fun _ => ?_⟩
        have run : w = endLanePart (modTeam s team (fun t => { t with leases := t.leases ++ [leaseRange q] })) team h i op
            { name := .g b, words := 1 } [BitVec.ofNat 32 0] :=
          (if_neg hbad).trans ((if_neg hfull).trans ((if_pos hpages).trans (by rw [uid])))
        obtain ⟨y, found', -, leases⟩ := endLanePart_team (s := modTeam s team (fun t => { t with leases := t.leases ++ [leaseRange q] }))
          (found_modTeam found (fun t => { t with leases := t.leases ++ [leaseRange q] }) fun _ => rfl) h i op { name := .g b, words := 1 } [BitVec.ofNat 32 0]
        rw [if_neg hbad, if_neg hfull, if_pos hpages, if_pos ⟨hbad, by omega, hpages⟩, run, mem_endLanePart]
        exact ⟨(e.modTeam (fun t => { t with leases := t.leases ++ [leaseRange q] }) fun _ => ⟨rfl, rfl⟩).lanePart only b 0, y, found', leases, rfl⟩
      · cases refused with
        | false => exact ⟨fun _ _ _ _ => (if_neg hbad).trans ((if_neg hfull).trans ((if_neg hpages).trans (if_neg (by simp)))), fun why => by
            rcases why with why | why | why | why
            · exact absurd why hbad
            · exact absurd why hfull
            · exact absurd why hpages
            · exact absurd why Bool.false_ne_true⟩
        | true =>
          refine ⟨fun _ _ _ no => absurd no.symm Bool.false_ne_true, fun _ => ?_⟩
          rw [if_neg hbad, if_neg hfull, if_neg hpages, if_neg fun some_ => hpages some_.2.2]
          exact ends 6 ((if_neg hbad).trans ((if_neg hfull).trans ((if_neg hpages).trans ((if_pos rfl).trans (by rw [uid])))))

end

end Sys2Proof.Machine
end


section
/-! What TLBINV does to a page, and its status (R394; the order of its checks is log entry 74). -/

namespace Sys2Proof.Machine

variable {s t : State}

-- The snapshots of the agents

/-- The agent exists: it is a core of the package, or a context that a team has. -/
def Present (s : State) : Agent → Prop
  | .core n => n < s.cores.length
  | .ctx u e => ∃ x, findTeam s u = some x ∧ e < x.ectx.length

theorem agentMem_absent : ∀ {a : Agent}, ¬ Present s a → agentMem s a = LocalMem.empty
  | .core n, gone => by rw [agentMem, coreOf, List.getD_eq_default _ _ (Nat.le_of_not_lt gone)]; rfl
  | .ctx u e, gone => by
    rw [agentMem]
    cases found : findTeam s u with
    | none => rfl
    | some x =>
      rw [Option.map_some, Option.getD_some, Team.ctxOf, List.getD_eq_default _ _ (Nat.le_of_not_lt fun inside => gone ⟨x, found, inside⟩)]
      rfl

theorem agentMem_congr (teams : t.teams = s.teams) (cores : t.cores = s.cores) (a : Agent) : agentMem t a = agentMem s a := by
  cases a with
  | core n => simp only [agentMem, coreOf, cores]
  | ctx u e => simp only [agentMem, findTeam, teams]

theorem agentMem_modAgent_ne (f : LocalMem → LocalMem) : ∀ {a b : Agent}, a ≠ b → agentMem (modAgent s b f) a = agentMem s a
  | .core n, .core m, other => by
    have ne : m ≠ n := fun same => other (same ▸ rfl)
    simp only [agentMem, coreOf, modAgent, modCore, List.getD_eq_getElem?_getD, List.getElem?_modify, if_neg ne]
    cases s.cores[n]? <;> rfl
  | .core n, .ctx u e, _ => rfl
  | .ctx u e, .core n, _ => rfl
  | .ctx v k, .ctx u e, other => by
    have uid (x : Team) : ({ x with ectx := x.ectx.modify e fun c => { c with mem := f c.mem } } : Team).uid = x.uid := rfl
    by_cases same : v = u
    · subst same
      have ne : e ≠ k := fun same => other (same ▸ rfl)
      simp only [agentMem, modAgent]
      rw [findTeam_modTeam s v _ uid, Option.map_map]
      refine congrArg (fun h => (Option.map h (findTeam s v)).getD LocalMem.empty) (funext fun x => ?_)
      simp only [Function.comp_apply, Team.ctxOf, List.getD_eq_getElem?_getD, List.getElem?_modify, if_neg ne]
      cases x.ectx[k]? <;> rfl
    · simp only [agentMem, modAgent]
      rw [findTeam_modTeam_ne s _ uid same]

theorem agentMem_modAgent (f : LocalMem → LocalMem) : ∀ {a : Agent}, Present s a → agentMem (modAgent s a f) a = f (agentMem s a)
  | .core _, here => agentMem_modAgent_core f here
  | .ctx u e, ⟨x, found, inside⟩ => by
    have uid (x : Team) : ({ x with ectx := x.ectx.modify e fun c => { c with mem := f c.mem } } : Team).uid = x.uid := rfl
    simp only [agentMem, modAgent]
    rw [findTeam_modTeam s u _ uid, found]
    simp [Team.ctxOf, List.getElem?_eq_getElem inside]

theorem findTeam_mapTeams (s : State) (f : Team → Team) (uid : ∀ t, (f t).uid = t.uid) (u : Nat) :
    findTeam { s with teams := s.teams.map f } u = (findTeam s u).map f := by
  rw [findTeam, List.find?_map]
  refine congrArg (fun p => Option.map f (List.find? p s.teams)) (funext fun x => ?_)
  rw [Function.comp_apply, uid]

/-- No snapshot of a line that the page holds. -/
def Clean (ctx va n : Nat) (s : State) (a : Agent) : Prop := ∀ e ∈ (agentMem s a).snap, inPage ctx va n e.1 = false

variable {ctx va n : Nat}

theorem Clean.modAgent {a : Agent} (c : Clean ctx va n s a) (b : Agent) (f : LocalMem → LocalMem) (fewer : ∀ m, ∀ e ∈ (f m).snap, e ∈ m.snap) :
    Clean ctx va n (Machine.modAgent s b f) a := by
  by_cases same : a = b
  · subst same
    by_cases here : Present s a
    · intro e held
      rw [agentMem_modAgent f here] at held
      exact c e (fewer _ e held)
    · have gone : agentMem (Machine.modAgent s a f) a = LocalMem.empty := by
        refine agentMem_absent ?_
        cases a with
        | core n => simpa [Present, Machine.modAgent, modCore] using here
        | ctx u e =>
          rintro ⟨y, found, inside⟩
          have uid (x : Team) : ({ x with ectx := x.ectx.modify e fun c => { c with mem := f c.mem } } : Team).uid = x.uid := rfl
          rw [Machine.modAgent, findTeam_modTeam s u _ uid] at found
          obtain ⟨x, found', rfl⟩ := Option.map_eq_some_iff.mp found
          exact here ⟨x, found', by simpa using inside⟩
      intro e held
      rw [gone] at held
      cases held
  · intro e held
    rw [agentMem_modAgent_ne f same] at held
    exact c e held

theorem mem_allAgents {a : Agent} (here : Present s a) : a ∈ allAgents s := by
  cases a with
  | core n => exact List.mem_append_left _ (List.mem_map.mpr ⟨n, List.mem_range.mpr here, rfl⟩)
  | ctx u e =>
    obtain ⟨x, found, inside⟩ := here
    have uid : x.uid = u := by simpa using List.find?_some found
    exact List.mem_append_right _ (List.mem_flatMap.mpr ⟨x, List.mem_of_find?_eq_some found, List.mem_map.mpr ⟨e, List.mem_range.mpr inside, by rw [uid]⟩⟩)

/-- The agents of a list let go of the page. -/
def dropCopies (ctx va n : Nat) (m : LocalMem) : LocalMem :=
  { m with snap := m.snap.filter (fun e => !inPage ctx va n e.1), bad := m.bad.filter (fun e => !inPage ctx va n e.1) }

theorem dropCopies_fewer (m : LocalMem) : ∀ e ∈ (dropCopies ctx va n m).snap, e ∈ m.snap := fun _ held => List.mem_of_mem_filter held

theorem clean_dropCopies (a : Agent) (as : List Agent) : ∀ s : State, a ∈ as ∨ Clean ctx va n s a →
    Clean ctx va n (as.foldl (fun s a => modAgent s a (dropCopies ctx va n)) s) a := by
  induction as with
  | nil => exact fun s clean => clean.resolve_left (by simp)
  | cons b as ih =>
    intro s clean
    refine ih _ ?_
    by_cases same : a = b
    · subst same
      refine .inr ?_
      by_cases here : Present s a
      · intro e held
        rw [agentMem_modAgent _ here] at held
        simpa using (List.mem_filter.mp held).2
      · refine Clean.modAgent (fun e held => ?_) a _ dropCopies_fewer
        rw [agentMem_absent here] at held
        cases held
    · exact clean.imp (fun inside => (List.mem_cons.mp inside).resolve_left same) fun c => c.modAgent b _ dropCopies_fewer

theorem dropPage_clean (s : State) (a : Agent) : Clean ctx va n (dropPage s ctx va n) a := by
  have clean : Clean ctx va n ((allAgents s).foldl (fun s a => modAgent s a (dropCopies ctx va n)) s) a := by
    refine clean_dropCopies a _ s ?_
    by_cases here : Present s a
    · exact .inl (mem_allAgents here)
    · refine .inr fun e held => ?_
      rw [agentMem_absent here] at held
      cases held
  intro e held
  refine clean e ?_
  convert held using 2
  cases a with
  | core n => rfl
  | ctx u e =>
    simp only [agentMem, dropPage]
    rw [findTeam_mapTeams _ _ fun x => by split <;> rfl, Option.map_map]
    refine congrArg (fun h => (Option.map h (findTeam _ u)).getD LocalMem.empty) (funext fun x => ?_)
    rw [Function.comp_apply]
    split <;> rfl

theorem Clean.congr {a : Agent} (c : Clean ctx va n s a) (teams : t.teams = s.teams) (cores : t.cores = s.cores) : Clean ctx va n t a := by
  rw [Clean, agentMem_congr teams cores]
  exact c

-- What the steps of a page leave (R394)

theorem drops_tlb (s : State) (key : Nat) : ∀ e ∈ (dropTlb s key).tlb, e.2 ≠ key := fun e held => by
  simpa using (List.mem_filter.mp held).2

theorem sendAll_agents (d : DirEntry) (k : MsgKind) (f : Sys2Proof.View) (elems : List Nat) (cores : List Nat) : ∀ s : State,
    (sendAll s d cores k f elems).1.teams = s.teams ∧ (sendAll s d cores k f elems).1.cores = s.cores := by
  have sent (coarse : Nat) : ∀ a : State × DirEntry,
      (cores.foldl (fun a c => sendMsg a.1 a.2 c k f elems 0 coarse) a).1.teams = a.1.teams ∧
      (cores.foldl (fun a c => sendMsg a.1 a.2 c k f elems 0 coarse) a).1.cores = a.1.cores := by
    induction cores with
    | nil => exact fun _ => ⟨rfl, rfl⟩
    | cons c cores ih => exact fun a => ih (sendMsg a.1 a.2 c k f elems 0 coarse)
  exact fun s => sent _ (s, d)

theorem forgetEntries_agents (ds : List DirEntry) : ∀ s : State, (ds.foldl (fun s d => forgetEntry s d d.cores) s).teams = s.teams ∧
    (ds.foldl (fun s d => forgetEntry s d d.cores) s).cores = s.cores := by
  induction ds with
  | nil => exact fun _ => ⟨rfl, rfl⟩
  | cons d ds ih =>
    intro s
    have sent := sendAll_agents d .invalidation .exact [] d.cores s
    exact ⟨(ih _).1.trans sent.1, (ih _).2.trans sent.2⟩

theorem writeBackLine_agents (s : State) (line : Nat) : (writeBackLine s line).teams = s.teams ∧ (writeBackLine s line).cores = s.cores := by
  unfold writeBackLine
  simp only
  split <;> exact ⟨rfl, rfl⟩

theorem flushPage_agents (s : State) (frame : Nat) : (flushPage s va frame n).teams = s.teams ∧ (flushPage s va frame n).cores = s.cores := by
  have written (ls : List (Nat × Nat)) : ∀ s : State, (ls.foldl (fun s e => writeBackLine s e.1) s).teams = s.teams ∧
      (ls.foldl (fun s e => writeBackLine s e.1) s).cores = s.cores := by
    induction ls with
    | nil => exact fun _ => ⟨rfl, rfl⟩
    | cons e ls ih => exact fun s => ⟨(ih _).1.trans (writeBackLine_agents s e.1).1, (ih _).2.trans (writeBackLine_agents s e.1).2⟩
  unfold flushPage
  simp only
  split
  · exact written _ s
  · exact ⟨rfl, rfl⟩

theorem flushed_clean {a : Agent} (c : Clean ctx va n s a) (frame key : Nat) : Clean ctx va n (dropTlb (flushPage s va frame n) key) a :=
  c.congr (flushPage_agents s frame).1 (flushPage_agents s frame).2

/-- R394, R418: an entry of the page table on channels that have not failed reads back as it was written. -/
theorem rdNat_writeEntry {key v : Nat} (sound : ∀ j < 3, channelFailed s (key + 65536 * j) = false) (fits : v < 2 ^ 64) :
    rdNat (writeEntry s key v) key 8 = v := by
  have length : (toBytes 8 v).length = 8 := rfl
  have all : ¬ (List.range ((toBytes 8 v).length / 65536 + 2)).any (fun j => channelFailed s (key + 65536 * j)) = true := by
    rw [length]
    simpa using fun j inside => sound j (by omega)
  rw [writeEntry, writeTable, if_neg all, rdNat]
  have bytes : rdBytes { s with mem := putBytes s.mem key (toBytes 8 v) } key 8 = toBytes 8 v := by
    refine List.ext_getElem (by simp [rdBytes, length]) fun j inside _ => ?_
    have j8 : j < 8 := by simpa [rdBytes] using inside
    simp only [rdBytes, rdByte, List.getElem_map, List.getElem_range, tget_putBytes, length]
    rw [if_pos (by omega), Nat.add_sub_cancel_left, List.getD_eq_getElem _ _ (by rw [length]; exact j8)]
  rw [bytes, ofBytes_toBytes]
  exact Nat.mod_eq_of_lt fits

theorem ofBytes_lt (bs : List Byte) : ofBytes bs < 256 ^ bs.length := by
  induction bs with
  | nil => exact Nat.one_pos
  | cons b bs ih =>
    rw [ofBytes, List.length_cons, Nat.pow_succ]
    have := b.isLt
    omega

theorem rdNat_lt (s : State) (k : Nat) : rdNat s k 8 < 2 ^ 64 :=
  (ofBytes_lt (rdBytes s k 8)).trans_eq (by simp [rdBytes])

/-- R394: TLBINV. -/
theorem runTlb_effects (s : State) (q : List Word) :
    let r := tlbReq q
    let n := pageBytes r.size
    (∀ k, tlbBad k r = true → runTlb s k q = (s, 3)) ∧
    (∀ k, k ≠ .map → tlbBad k r = false → leafOf s r.ctx r.va = none → runTlb s k q = (s, 5)) ∧
    (∀ k x, k ≠ .map → tlbBad k r = false → leafOf s r.ctx r.va = some x → x.psize ≠ n → runTlb s k q = (s, 3)) ∧
    (tlbBad .map r = false → leafOf s r.ctx r.va = none → aliases s r = true → runTlb s .map q = (s, 1)) ∧
    (∀ k x, k = .unmap ∨ k = .evict → tlbBad k r = false → leafOf s r.ctx r.va = some x → x.psize = n → pageLeased s r.ctx r.va n = true →
      runTlb s k q = (s, 2)) ∧
    (∀ x, tlbBad .query r = false → leafOf s r.ctx r.va = some x → x.psize = n →
      runTlb s .query q = (s, 256 * fld x.entry 4 4 + 512 * fld x.entry 5 5 + 1024 * fld x.entry 6 6 + 2048 * fld x.entry 2 2)) ∧
    (∀ x, tlbBad .clrad r = false → leafOf s r.ctx r.va = some x → x.psize = n → (∀ j < 3, channelFailed s (x.key + 65536 * j) = false) →
      (runTlb s .clrad q).2 = 0 ∧ (∀ e ∈ (runTlb s .clrad q).1.tlb, e.2 ≠ x.key) ∧
      rdNat (runTlb s .clrad q).1 x.key 8 = rdNat s x.key 8 - 16 * fld (rdNat s x.key 8) 5 4) ∧
    (∀ k x, k = .unmap ∨ k = .evict → tlbBad k r = false → leafOf s r.ctx r.va = some x → x.psize = n → pageLeased s r.ctx r.va n = false →
      (runTlb s k q).2 = 0 ∧ (∀ e ∈ (runTlb s k q).1.tlb, e.2 ≠ x.key) ∧
      ∀ a, ∀ e ∈ (agentMem (runTlb s k q).1 a).snap, inPage r.ctx r.va n e.1 = false) := by
  intro r n
  have good_ {k : TlbOp} (good : tlbBad k r = false) : ¬ tlbBad k (tlbReq q) = true := by rw [show tlbBad k (tlbReq q) = false from good]; simp
  have absent_ (absent : leafOf s r.ctx r.va = none) : leafOf s (tlbReq q).ctx (tlbReq q).va = none := absent
  have leaf_ {x : Leaf} (leaf : leafOf s r.ctx r.va = some x) : leafOf s (tlbReq q).ctx (tlbReq q).va = some x := leaf
  have size_ {x : Leaf} (size : x.psize = n) : ¬ x.psize ≠ pageBytes (tlbReq q).size := fun no => no size
  refine ⟨fun k bad => if_pos bad, fun k other good absent => ?_, fun k x other good leaf size => ?_, fun good absent shared => ?_,
    fun k x which good leaf size lease => ?_, fun x good leaf size => ?_, fun x good leaf size sound => ?_, fun k x which good leaf size free => ?_⟩
  · cases k with
    | map => exact absurd rfl other
    | _ => simp only [runTlb, if_neg (good_ good), absent_ absent]
  · cases k with
    | map => exact absurd rfl other
    | _ => simp only [runTlb, if_neg (good_ good), leaf_ leaf, if_pos (show x.psize ≠ pageBytes (tlbReq q).size from size)]
  · simp [runTlb, if_neg (good_ good), absent_ absent, show aliases s (tlbReq q) = true from shared]
  · have lease' : pageLeased s (tlbReq q).ctx (tlbReq q).va (pageBytes (tlbReq q).size) = true := lease
    rcases which with rfl | rfl <;> simp only [runTlb, if_neg (good_ good), leaf_ leaf, if_neg (size_ size), lease', if_true]
  · simp only [runTlb, if_neg (good_ good), leaf_ leaf, if_neg (size_ size)]
  · have run : runTlb s .clrad q = (dropTlb (writeEntry s x.key (rdNat s x.key 8 - 16 * fld (rdNat s x.key 8) 5 4)) x.key, 0) := by
      simp only [runTlb, if_neg (good_ good), leaf_ leaf, if_neg (size_ size)]
    rw [run]
    exact ⟨rfl, drops_tlb _ _, rdNat_writeEntry sound (Nat.lt_of_le_of_lt (Nat.sub_le _ _) (rdNat_lt s x.key))⟩
  · have free' : ¬ pageLeased s (tlbReq q).ctx (tlbReq q).va (pageBytes (tlbReq q).size) = true := by
      rw [show pageLeased s (tlbReq q).ctx (tlbReq q).va (pageBytes (tlbReq q).size) = false from free]; simp
    rcases which with rfl | rfl
    · simp only [runTlb, if_neg (good_ good), leaf_ leaf, if_neg (size_ size), if_neg free']
      exact ⟨trivial, drops_tlb _ _, fun a => flushed_clean
        ((dropPage_clean _ a).congr (forgetEntries_agents _ _).1 (forgetEntries_agents _ _).2) x.frame x.key⟩
    · simp only [runTlb, if_neg (good_ good), leaf_ leaf, if_neg (size_ size), if_neg free']
      exact ⟨trivial, drops_tlb _ _, fun a => flushed_clean (dropPage_clean _ a) _ _⟩

end Sys2Proof.Machine
end


section
/-! The operations that the gangs track are left alone by what faults, drains and replays do. -/

namespace Sys2Proof.Machine

variable {s t : State}

theorem opsTable_of_teams (same : t.teams = s.teams) : opsTable t = opsTable s := by rw [opsTable, opsTable, same]

theorem opsTable_foldl {β : Type} (f : State → β → State) (keeps : ∀ s b, opsTable (f s b) = opsTable s) (l : List β) (s : State) :
    opsTable (l.foldl f s) = opsTable s := by
  induction l generalizing s with
  | nil => rfl
  | cons b l ih => rw [List.foldl_cons, ih, keeps]

/-- The operations of one gang, from the table. -/
theorem findGang_ops {u g : Nat} {x : Gang} (same : opsTable t = opsTable s) (found : findGang s u g = some x) :
    ∃ y, findGang t u g = some y ∧ y.ops = x.ops := by
  have get (v : State) : (findGang v u g).map Gang.ops = ((findTeam v u).map fun t => t.gangs.map Gang.ops).bind fun l => l[g]? := by
    rw [findGang]
    cases findTeam v u with
    | none => rfl
    | some t => exact (List.getElem?_map ..).symm
  have here := (get t).trans ((congrArg (Option.bind · _) ((find_opsTable t u).trans ((congrArg _ (congrArg _ same)).trans (find_opsTable s u).symm))).trans
    (get s).symm)
  rw [found] at here
  exact Option.map_eq_some_iff.mp here

theorem modAgent_ops (s : State) (a : Agent) (f : LocalMem → LocalMem) : opsTable (modAgent s a f) = opsTable s := by
  cases a with
  | core n => rfl
  | ctx u e => exact modTeam_ops s u _ fun _ => ⟨rfl, rfl⟩

theorem endTeam_ops (s : State) (uid : Nat) (f : FaultInfo) : opsTable (endTeam s uid f) = opsTable s :=
  modTeam_ops s uid _ fun t => by split <;> exact ⟨rfl, rfl⟩

theorem holdFault_ops (s : State) (uid g i : Nat) (f : FaultInfo) : opsTable (holdFault s uid g i f) = opsTable s := by
  unfold holdFault
  split
  · exact endTeam_ops ..
  · split
    · exact modLane_ops ..
    · exact endTeam_ops ..

theorem deferFault_ops (s : State) (uid g i : Nat) (c : Cause) (a acc : Nat) (w : DWord) : opsTable (deferFault s uid g i c a acc w) = opsTable s := by
  unfold deferFault
  split
  · rfl
  · dsimp only
    split
    · exact endTeam_ops ..
    · exact holdFault_ops ..

theorem commandFate_ops (s : State) (x : Team) (who : Nat) (f : FaultInfo) : opsTable (commandFate s x who f) = opsTable s := by
  unfold commandFate
  split
  · split
    · exact holdFault_ops ..
    · exact endTeam_ops ..
  · exact endTeam_ops ..

theorem postPage_ops (s : State) (x : Team) (a : Nat) : opsTable (postPage s x a) = opsTable s := by
  unfold postPage
  dsimp only
  split
  · rfl
  · exact opsTable_of_teams (postEvent_quiet { s with parkPosted := _ :: s.parkPosted } x.die _).teams

theorem parkGangOn_ops (s : State) (uid g a : Nat) : opsTable (parkGangOn s uid g a) = opsTable s := by
  unfold parkGangOn
  split
  · rfl
  · exact (postPage_ops ..).trans (modGang_ops _ _ _ _ fun _ => rfl)

theorem parkCtx_ops (s : State) (uid e a : Nat) : opsTable (parkCtx s uid e a) = opsTable s := by
  unfold parkCtx
  split
  · rfl
  · exact (postPage_ops ..).trans (modTeam_ops _ _ _ fun _ => ⟨rfl, rfl⟩)

theorem drainFault_ops (s : State) (a : Agent) (l : Line) (c : Cause) (bs : List BufByte) : opsTable (drainFault s a l c bs) = opsTable s := by
  refine opsTable_foldl _ (fun s x => ?_) _ s
  split
  · rfl
  · split
    · split
      · exact parkCtx_ops ..
      · exact commandFate_ops ..
    · split
      · rfl
      · split
        · refine (parkGangOn_ops ..).trans (modGang_ops _ _ _ _ fun x => ?_)
          split <;> rfl
        · exact deferFault_ops ..

theorem drainLine_ops (s : State) (a : Agent) (l : Line) : opsTable (drainLine s a l) = opsTable s := by
  unfold drainLine
  extract_lets bytes out good wait bad s1 id offs s2 s3
  split
  · rfl
  · have h1 : opsTable s1 = opsTable s := modAgent_ops ..
    have h2 : opsTable s2 = opsTable s1 := by
      unfold s2
      clear_value s1 good out
      split
      · rfl
      · split
        · rfl
        · dsimp only
          refine (modAgent_ops ..).trans ((opsTable_of_teams (homeWrite_shape ..).1.1).trans ?_)
          split <;> rfl
    have h3 : opsTable s3 = opsTable s2 := opsTable_foldl _ (fun s c => drainFault_ops ..) _ _
    split
    · exact h3.trans (h2.trans h1)
    · exact (drainFault_ops ..).trans (h3.trans (h2.trans h1))

theorem replayGang_ops (s : State) (x : Team) (g : Nat) : opsTable (replayGang s x g) = opsTable s := by
  unfold replayGang
  dsimp only
  split
  · exact (modGang_ops _ x.uid g (fun z => { z with parts := z.parts ++ (x.gang g).parts.filter (·.2) }) fun _ => rfl).trans
      (modGang_ops s x.uid g _ fun _ => rfl)
  · exact (opsTable_foldl _ (fun s p => drainLine_ops ..) _ _).trans (modGang_ops s x.uid g _ fun _ => rfl)

theorem replayPreload_ops (s : State) (x : Team) : opsTable (replayPreload s x) = opsTable s := by
  refine opsTable_foldl _ (fun s p => ?_) _ s
  have read := opsTable_of_teams (engineRead_lines s x.ctx p.2.toNat 64).rest.1
  dsimp only
  split
  · rfl
  · refine (opsTable_of_teams (errorEvent_quiet _ _ _).teams).trans ((modTeam_ops _ _ _ ?_).trans read)
    exact fun _ => ⟨rfl, rfl⟩
  · refine (modTeam_ops _ _ _ ?_).trans read
    exact fun _ => ⟨rfl, rfl⟩

/-- R395: a replay of a context. -/
theorem replayAll_ops (s : State) (ctx : Nat) : opsTable (replayAll s ctx).1 = opsTable s := by
  refine opsTable_foldl _ (fun s x => ?_) _ s
  have gangs := opsTable_foldl _ (fun s g => replayGang_ops s x g) (List.range x.gangs.length) s
  refine (modTeam_ops _ _ _ ?_).trans ((replayPreload_ops ..).trans gangs)
  exact fun _ => ⟨rfl, rfl⟩

theorem keepSave_teams (s : State) (uid : Nat) : (keepSave s uid).teams = s.teams ∧ (keepSave s uid).mem = s.mem := by
  unfold keepSave
  split
  · exact ⟨rfl, rfl⟩
  · dsimp only
    split <;> exact ⟨rfl, rfl⟩

theorem keepSaves_teams (ts : List Team) : ∀ s : State, (ts.foldl (fun s x => keepSave s x.uid) s).teams = s.teams ∧
    (ts.foldl (fun s x => keepSave s x.uid) s).mem = s.mem := by
  induction ts with
  | nil => exact fun _ => ⟨rfl, rfl⟩
  | cons x ts ih => exact fun s => ⟨(ih _).1.trans (keepSave_teams s x.uid).1, (ih _).2.trans (keepSave_teams s x.uid).2⟩

end Sys2Proof.Machine
end


section
/-! O42: operations complete and count their flags down; demotions and watchdogs end; what TLBINV does. -/

namespace Sys2Proof.Machine

variable {s t : State} {team g op h i b core : Nat} {u : Team} {x : Gang} {o : Tracked} {l : Lane}

-- CSAVE and CREST (R392, R393)

theorem mfold_same {α β : Type} (f : State → β → α → MemR β) (keeps : ∀ s b a, SameTeams s (f s b a).1) (l : List α) :
    ∀ (s : State) (b : β), SameTeams s (mfold f l s b).1 := by
  induction l with
  | nil => exact fun s _ => .refl s
  | cons a l ih =>
    intro s b
    unfold mfold mbind
    split
    · exact (keeps s b a).trans (ih _ _)
    · exact keeps s b a

theorem fetchRun_same (s : State) (u : Team) (core a lines : Nat) : SameTeams s (fetchRun s u core a lines).1 := by
  unfold fetchRun
  generalize 128 = n
  refine mfold_same _ (fun s bs k => ?_) _ s []
  have fetched := fetchBytes_same s u core (a + n * k) .read true n
  dsimp only
  split
  · exact fetched
  · split <;> exact fetched

theorem acquired_whereIs (core : Nat) (sc : Scope) (u : Team) (id : Nat) : (u.acquired core sc).whereIs id = u.whereIs id := by
  unfold Team.acquired
  split
  · unfold Team.whereIs
    rw [List.length_map]
    refine congrArg (fun f => List.findSome? f _) (funext fun g => ?_)
    have gang : ({ u with gangs := u.gangs.map fun x => { x with lanes := x.lanes.map (Lane.dropPre (coreDie core) sc) } } : Team).gang g =
        { u.gang g with lanes := (u.gang g).lanes.map (Lane.dropPre (coreDie core) sc) } := by
      simp only [Team.gang, List.getD_eq_getElem?_getD, List.getElem?_map]
      cases u.gangs[g]? <;> rfl
    rw [gang, List.findIdx?_map]
    rfl
  · rfl

theorem acquireCore_ops (s : State) (core : Nat) (sc : Scope) : opsTable (acquireCore s core sc) = opsTable s := by
  unfold opsTable acquireCore
  dsimp only
  rw [List.map_map]
  refine List.map_congr_left fun u _ => ?_
  rw [Function.comp_apply]
  split
  · refine congrArg (Prod.mk u.uid) (List.ext_getElem (by simp) fun n h1 h2 => ?_)
    have inside : n < u.gangs.length := by simpa using h2
    simp [Team.gang, List.getElem?_eq_getElem inside]
  · rfl

/-- An acquire of the core leaves the operation where it is. -/
theorem Ending.acquired (e : Ending s team g op h i x o l) (core : Nat) (sc : Scope) :
    ∃ y m, Ending (acquireCore s core sc) team g op h i y o m ∧ y.ops = x.ops ∧ y.flags = x.flags ∧
      m.preds = l.preds ∧ m.regs = l.regs ∧ m.takes op = l.takes op ∧ m.ident = l.ident := by
  obtain ⟨y, gang, -, ops, flags, -⟩ := (acquireCore_acquired s core sc team g).gang x e.gang
  obtain ⟨pre, code, lane⟩ := (acquireCore_acquired s core sc team h).lane e.lane
  obtain ⟨u, found, place⟩ := e.place
  refine ⟨y, _, ⟨gang, by rw [ops]; exact e.tracked, fun k => (opHome_congr (acquireCore_ops ..) ..).trans (e.home k), lane,
    u.acquired core sc, by rw [findTeam_acquireCore, found]; rfl, (acquired_whereIs ..).trans place⟩, ops, flags, rfl, rfl, rfl, rfl⟩

/-- The end of an operation, seen from a gang and a lane that are the same but for what they fetched. -/
theorem Ends.seen {y : Gang} {m : Lane} {st : Nat} (ends : Ends team g op h i b y o m st t) (ops : y.ops = x.ops) (flags : y.flags = x.flags)
    (preds : m.preds = l.preds) (regs : m.regs = l.regs) (takes : m.takes op = l.takes op) : Ends team g op h i b x o l st t := by
  obtain ⟨z, n, gang, left_, flag, lane, preds', reg⟩ := ends
  refine ⟨z, n, gang, by rw [left_, ops], fun k => (flag k).trans (by rw [Gang.flag, Gang.flag, flags]), lane, preds'.trans preds, fun k => ?_⟩
  rw [reg, takes, Lane.reg, Lane.reg, regs]

/-- The gang has these core registers, and its lanes these predicates. -/
def Shows (t : State) (team g : Nat) (z : Gang) : Prop :=
  ∃ y, findGang t team g = some y ∧ y.cregs = z.cregs ∧ ∀ j, (y.lane j).preds = (z.lane j).preds

theorem Shows.modGang {z : Gang} (shows_ : Shows t team g z) (k : Nat) (f : Gang → Gang)
    (same : ∀ y, (f y).cregs = y.cregs ∧ ∀ j, ((f y).lane j).preds = (y.lane j).preds) : Shows (Machine.modGang t team k f) team g z := by
  obtain ⟨y, gang, cregs, preds⟩ := shows_
  by_cases here : k = g
  · subst here
    exact ⟨f y, (findGang_modGang t team k f).trans (by rw [gang]; rfl), (same y).1.trans cregs, fun j => ((same y).2 j).trans (preds j)⟩
  · exact ⟨y, (findGang_modGang_ne t f (.inr (Ne.symm here))).trans gang, cregs, preds⟩

theorem writeResult_shows {z : Gang} (shows_ : Shows t team g z) (k j op b w : Nat) (ws : List Word) :
    Shows (writeResult t team k j op { name := .g b, words := w } ws) team g z := by
  refine shows_.modGang k _ fun y => ⟨rfl, fun n => ?_⟩
  rw [lane_modify]
  split
  · next here =>
    obtain ⟨rfl, -⟩ := here
    split
    · exact (setRegs_rest _ _ _).1
    · rfl
  · rfl

theorem endOnce_word_mem (s : State) (uid k j op b : Nat) (w : Word) : (endOnce s uid k j op { name := .g b, words := 1 } w).mem = s.mem := by
  unfold endOnce
  dsimp only
  split
  · rfl
  · split
    · rfl
    · change (writeValue ..).mem = s.mem
      unfold writeValue
      dsimp only
      split
      · rfl
      · simp only [List.isEmpty_cons, Bool.false_eq_true, if_false, if_true]
        exact writeResult_mem s ..

/-- An operation that acts once writes registers, and no predicate or core register. -/
theorem endOnce_shows {z : Gang} (shows_ : Shows t team g z) (k j op b : Nat) (w : Word) :
    Shows (endOnce t team k j op { name := .g b, words := 1 } w) team g z := by
  unfold endOnce
  dsimp only
  split
  · exact shows_
  · next v found =>
    have uid : v.uid = team := by simpa using List.find?_some found
    split
    · exact shows_
    · refine Shows.modGang ?_ _ _ fun y => ?_
      · unfold writeValue
        dsimp only
        split
        · exact shows_
        · rw [uid]
          exact writeResult_shows shows_ _ _ _ _ 1 _
      · obtain ⟨lanes, -, cregs⟩ := subFlag_rest { y with ops := y.ops.filter (fun p => p.id != op) } ‹Tracked›.flag
        exact ⟨cregs, fun j => by rw [Gang.lane, lanes]; rfl⟩

theorem restoreLane_preds (bs : List Byte) (claims : List (Nat × Nat × Nat × Nat)) (tvec : DWord) (p q now j : Nat) (m : Lane) :
    (restoreLane bs claims tvec p now j m).preds = (restoreLane bs claims tvec q now j m).preds := by
  unfold restoreLane
  extract_lets hd bk win mine pc slot st new
  clear_value hd bk win mine pc slot st new
  split
  · rfl
  · split
    · rfl
    · split <;> rfl

theorem restoreGang_shows (f : Nat) (v : Team) (y : Gang) (bs : List Byte) (era : Nat) :
    let z := restoreGang s v y bs
    let w := restoreGang { s with fresh := f } v y bs
    z.cregs = w.cregs ∧ ∀ j, (({ z with lanes := z.lanes.map (Lane.bornCode era) } : Gang).lane j).preds = (w.lane j).preds := by
  refine ⟨rfl, fun j => ?_⟩
  simp only [Gang.lane, restoreGang, List.getD_eq_getElem?_getD, List.getElem?_map]
  cases (List.range y.lanes.length)[j]? with
  | none => rfl
  | some n =>
    simp only [Option.map_some, Option.getD_some, Lane.bornCode]
    exact restoreLane_preds ..

theorem storeRun_teams (s : State) (core ctx a : Nat) (bs : List Byte) (v k : Nat) : (storeRun s (.core core) ctx a bs v k).teams = s.teams := by
  have stored (u : State) (a : Nat) (bs : List Byte) : (storeBytes u (.core core) ctx a bs v k none).teams = u.teams := by
    unfold storeBytes
    generalize splitLines ctx a bs = ps
    induction ps generalizing u with
    | nil => rfl
    | cons p ps ih => exact (ih _).trans rfl
  unfold storeRun
  generalize List.range ((bs.length + 127) / 128) = ks
  induction ks generalizing s with
  | nil => rfl
  | cons n ks ih => exact (ih _).trans (stored ..)

/-- The kind of an operation that notes how far it is. -/
theorem kind_changed (tracked : x.ops.find? (fun o => o.id == op) = some o) (k : OpKind) :
    ((modWhere (fun p => p.id == op) (fun p => { p with kind := k }) x.ops).find? (fun o => o.id == op)).map (·.kind) = some k := by
  have id := tracked_id tracked
  rw [find_modWhere (fun p => p.id == op) (fun p => p.id == op) (fun p => { p with kind := k }) x.ops fun _ => rfl, tracked, Option.map_some,
    if_pos (by simpa using id)]
  rfl

theorem findLane_modGang_ops (s : State) (v g : Nat) (f : List Tracked → List Tracked) (h i : Nat) :
    findLane (modGang s v g fun x => { x with ops := f x.ops }) v h i = findLane s v h i := by
  refine findLane_modGang s v g _ ?_ h i
  exact fun _ => rfl

section
variable (e : Ending s team g op h i x o l) (found : findTeam s team = some u)
include e found

theorem Ending.team_gang : u.gang g = x := by
  have gang := e.gang
  rw [findGang, found, Option.bind_some] at gang
  rw [Team.gang, List.getD_eq_getElem?_getD, gang]
  rfl

/-- R392: CSAVE waits for the other flags and the pending ports of its gang, then stores the image and queues its release. -/
theorem csaveStep_begins (b : Nat) (a : DWord) :
    let r := csaveStep s u core g h i o { name := .g b, words := 1 } a false
    ((∃ n < 12, n + 1 ≠ o.flag ∧ x.flag (n + 1) ≠ 0) ∨ (∃ p ∈ x.ports, p.st = .pending) → r = s) ∧
    ((∀ n < 12, n + 1 ≠ o.flag → x.flag (n + 1) = 0) → (∀ p ∈ x.ports, p.st ≠ .pending) →
      ∃ y m, agentMem r (.core core) = agentMem (storeRun s (.core core) u.ctx a.toNat (gangImage g x) team l.ident) (.core core) ∧
        findGang r team g = some y ∧ (y.ops.find? (fun o => o.id == op)).map (·.kind) = some (.csave { name := .g b, words := 1 } a true) ∧
        findLane r team h i = some m ∧
        m.queue = l.queue ++ [{ op := op, kind := .rel .pkg, last := false, acks := [], parked := none }]) := by
  intro r
  have uid : u.uid = team := by simpa using List.find?_some found
  have waits : ((List.range 12).any (fun n => n + 1 != o.flag && (u.gang g).flag (n + 1) != 0) || (u.gang g).ports.any (fun p => p.st == .pending)) = true ↔
      (∃ n < 12, n + 1 ≠ o.flag ∧ x.flag (n + 1) ≠ 0) ∨ (∃ p ∈ x.ports, p.st = .pending) := by
    rw [e.team_gang found]
    simp
  refine ⟨fun why => ?_, fun flags ports => ?_⟩
  · unfold r csaveStep
    rw [if_neg Bool.false_ne_true]
    exact if_pos (waits.mpr why)
  · have go : ¬ ((List.range 12).any (fun n => n + 1 != o.flag && (u.gang g).flag (n + 1) != 0) || (u.gang g).ports.any (fun p => p.st == .pending)) = true :=
      fun no => (waits.mp no).elim (fun ⟨n, small, other, busy⟩ => busy (flags n small other)) fun ⟨p, held, pending⟩ => ports p held pending
    have id := tracked_id e.tracked
    have lane := findLane_at found e.lane
    let begun : Gang → Gang := fun x => { x with
      ops := modWhere (fun p => p.id == op) (fun p => { p with kind := .csave { name := .g b, words := 1 } a true }) x.ops }
    let released : Lane → Lane := fun l => l.push [{ op := op, kind := .rel .pkg, last := false, acks := [], parked := none }]
    let w := noteHome (storeRun s (.core core) u.ctx a.toNat (gangImage g x) team l.ident) team (homeOf a.toNat)
    have run : r = modLane (modGang w team g begun) team h i released := by
      unfold r csaveStep
      rw [if_neg Bool.false_ne_true]
      refine (if_neg go).trans ?_
      rw [lane, e.team_gang found, uid, id]
    have stored := (e.congr (storeRun_teams s core u.ctx a.toNat (gangImage g x) team l.ident)).modTeam
      (fun t => if t.homes.contains (homeOf a.toNat) then t else { t with homes := homeOf a.toNat :: t.homes })
      fun t => by split <;> exact ⟨rfl, rfl⟩
    have gang : findGang (modGang w team g begun) team g = some (begun x) := by
      rw [findGang_modGang, show findGang w team g = some x from stored.gang]
      rfl
    have lane' : findLane (modGang w team g begun) team h i = some l := (findLane_modGang_ops w team g _ h i).trans stored.lane
    obtain ⟨y, gang', ops⟩ := modLane_gang_ops gang h i released
    rw [run]
    refine ⟨y, released l, agentMem_core_congr rfl core, gang', ?_, ?_, rfl⟩
    · rw [ops]
      exact kind_changed e.tracked _
    · rw [findLane_modLane, lane']
      rfl

/-- R392: CSAVE ends once its release has. -/
theorem csaveStep_ends (b : Nat) (a : DWord) :
    let r := csaveStep s u core g h i o { name := .g b, words := 1 } a true
    ((∃ q ∈ l.queue, q.op = op) → r = s) ∧ ((∀ q ∈ l.queue, q.op ≠ op) → Ends team g op h i b x o l 0 r ∧ r.mem = s.mem) := by
  intro r
  have uid : u.uid = team := by simpa using List.find?_some found
  have id := tracked_id e.tracked
  have lane := findLane_at found e.lane
  refine ⟨fun ⟨q, held, mine⟩ => ?_, fun none_ => ?_⟩
  · unfold r csaveStep
    rw [if_pos rfl]
    refine if_pos ?_
    rw [lane, id]
    exact List.any_eq_true.mpr ⟨q, held, by simpa using mine⟩
  · have run : r = endOnce s team h i op { name := .g b, words := 1 } (BitVec.ofNat 32 0) := by
      unfold r csaveStep
      rw [if_pos rfl, lane, id, uid]
      exact if_neg (by simpa using none_)
    rw [run]
    exact e.once b 0

/-- R393: CREST waits while its gang issues, refuses a bad image, and else restores the gang. -/
theorem crestStep_ends (b : Nat) (a : DWord) :
    let r := crestStep s u core g h i o { name := .g b, words := 1 } a
    (gangIssuing s core team g = true → r = s) ∧
    (∀ bs s1, gangIssuing s core team g = false → fetchRun (acquireCore s core .pkg) u core a.toNat 112 = (s1, .ok bs) →
      imageBad x bs = true → Ends team g op h i b x o l 1 r ∧ r.mem = s1.mem) ∧
    (∀ bs s1 cs s2 z, gangIssuing s core team g = false →
      fetchRun (acquireCore s core .pkg) u core a.toNat 112 = (s1, .ok bs) → imageBad x bs = false →
      fetchRun s1 u core a.toNat (imageSize (fld (imgNat bs 0 1024) 10 8) / 128) = (s2, .ok cs) → findGang s2 team g = some z →
      Shows r team g (restoreGang { s2 with fresh := s2.fresh + 1 } u z cs) ∧ r.mem = s2.mem) := by
  intro r
  have uid : u.uid = team := by simpa using List.find?_some found
  have id := tracked_id e.tracked
  have gang := e.team_gang found
  have issues : ((coreOf s core).bays.any (fun b => match b.issue with
      | some x => x.team == u.uid && x.gang == g
      | none => false)) = gangIssuing s core team g := by rw [uid]; rfl
  refine ⟨fun busy => if_pos (issues.trans busy), fun bs s1 idle read bad => ?_, fun bs s1 cs s2 z idle read good read' held => ?_⟩
  · have run : r = endOnce s1 team h i op { name := .g b, words := 1 } (BitVec.ofNat 32 1) := by
      unfold r crestStep
      refine (if_neg fun busy => Bool.false_ne_true (idle.symm.trans (issues.symm.trans busy))).trans ?_
      simp only [read, gang, bad, if_true, uid, id]
      rfl
    obtain ⟨y, m, e', ops, flags, preds, regs, takes, -⟩ := e.acquired core .pkg
    have teams : s1.teams = (acquireCore s core .pkg).teams := by
      have := (fetchRun_same (acquireCore s core .pkg) u core a.toNat 112).teams
      rwa [read] at this
    obtain ⟨ends, mem⟩ := (e'.congr teams).once b 1
    rw [run]
    exact ⟨ends.seen ops flags preds regs takes, mem⟩
  · let w : State := { s2 with fresh := s2.fresh + 1 }
    let restored : Gang → Gang := fun x =>
      let y := restoreGang s2 u x cs
      { y with lanes := y.lanes.map (Lane.bornCode (w.era + 1)) }
    have run : r = endOnce (modGang { w with era := w.era + 1 } team g restored) team h i op { name := .g b, words := 1 } 0 := by
      unfold r crestStep
      refine (if_neg fun busy => Bool.false_ne_true (idle.symm.trans (issues.symm.trans busy))).trans ?_
      simp only [read, gang, good, Bool.false_eq_true, if_false, read', uid, id]
      rfl
    have held' : findGang { w with era := w.era + 1 } team g = some z := held
    have restored_ : Shows (modGang { w with era := w.era + 1 } team g restored) team g (restoreGang { s2 with fresh := s2.fresh + 1 } u z cs) :=
      ⟨restored z, by rw [findGang_modGang, held']; rfl, restoreGang_shows (s := s2) (s2.fresh + 1) u z cs (w.era + 1)⟩
    rw [run]
    exact ⟨endOnce_shows restored_ .., endOnce_word_mem ..⟩

end

-- All of O42

section
variable (e : Ending s team g op h i x o l) (found : findTeam s team = some u) (only : o.lanes = [l.ident])
  (place : u.whereIs l.ident = some (h, i))
include e found only place

/-- R365, R366, R368: LNCH, LREC and LEASE, of one lane. -/
theorem completeOp_lnch {d : Dst} {rs : Tab LaneRec} (kind : o.kind = .lnch d rs) (no : Nat) :
    (tget .wait rs l.ident = .wait → completeOp s u core g o no = s) ∧
    ∀ r, tget .wait rs l.ident = .got r → completeOp s u core g o no = lnchPart s u h i op d r := by
  have uid : u.uid = team := by simpa using List.find?_some found
  have id := tracked_id e.tracked
  have run : completeOp s u core g o no = placeRecords s u o d rs := by
    simp only [completeOp, kind, only, List.isEmpty_cons, Bool.false_eq_true, if_false]
  rw [run]
  unfold placeRecords
  rw [only]
  refine ⟨fun wait => if_neg (by simp [wait]), fun r got => (if_pos (by simp [got])).trans ?_⟩
  simp only [List.foldl_cons, List.foldl_nil, uid, found, got, place, id]

end

theorem completeOp_part (only : o.lanes = [l.ident]) (part : (∃ d rs, o.kind = .lrec d rs) ∨ ∃ d qs, o.kind = .lease d qs) (no : Nat) :
    completeOp s u core g o no = lanePart s u o (decide (32 ≤ no)) := by
  rcases part with ⟨d, rs, kind⟩ | ⟨d, qs, kind⟩ <;> simp only [completeOp, kind, only, List.isEmpty_cons, Bool.false_eq_true, if_false]

theorem gang_of_team (found : findTeam s team = some u) (gang : findGang s team g = some x) : u.gang g = x := by
  rw [findGang, found, Option.bind_some] at gang
  rw [Team.gang, List.getD_eq_getElem?_getD, gang]
  rfl

theorem findLane_endOp (s : State) (v g op k n : Nat) : findLane (endOp s v g op) v k n = findLane s v k n := by
  unfold endOp
  refine findLane_modGang s v g _ (fun y => ?_) k n
  split
  · rfl
  · exact (subFlag_rest _ _).1

theorem writeValue_word_mem (s : State) (u : Team) (g op b w : Nat) (slots : List (Nat × DWord × Nat)) (id : Nat) (r : List Word × Flags)
    (insn : DWord) : (writeValue s u g op { name := .g b, words := w } slots id r insn).mem = s.mem := by
  have flagged (h i : Nat) : (if r.2 = 0 then s else modLane s u.uid h i (fun l => if l.takes op then { l with fst := l.fst ||| r.2 } else l)).mem =
      s.mem := by
    split <;> rfl
  unfold writeValue
  dsimp only
  split
  · rfl
  · split
    · exact flagged ..
    · exact (writeResult_mem ..).trans (flagged ..)

/-- R84: WATCHDOG, where the bay of the gang chooses the lane's group. -/
theorem watchdog_ends {i : Nat} {c : Cand} (found : findTeam s team = some u) (placed : u.core = some core) (hcore : core < s.cores.length)
    (going : u.ending = none) (idle : (bayOf s core (g % 4)).issue = none) (runs : (dieOf s (coreDie core)).halted = false)
    (chosen : choose (issueCycle s core (g % 4)) (candidates s core (g % 4) (issueCycle s core (g % 4))) = some c)
    (mine : c.team.uid = team) (gang : c.g = g) (within : pastEnd c.fetched (c.gang.lane (c.grp.headD 0)).resume = none)
    (fine : ∀ j ∈ c.grp, (c.gang.lane j).deferred = none) (late : c.grp.find? (fun j => (c.gang.lane j).overdue) = some i) :
    ∃ r w f, exec (.watchdog team g i) s = .next r ∧ findTeam r team = some w ∧ w.ending = some f ∧ f.cause = .watchdog ∧ f.lane = i := by
  have held : c.grp.contains i = true := by simpa using List.mem_of_find?_eq_some late
  have due : (c.gang.lane i).overdue = true := List.find?_some (p := fun j => (c.gang.lane j).overdue) late
  have run : exec (.watchdog team g i) s = execClauseIssue core (g % 4) s := by
    change execWatchdog team g i s = _
    unfold execWatchdog dueIssue
    simp only [found, Option.bind_some, placed, chosen, mine, gang, held, due, and_self, if_true]
  rw [run, execClauseIssue_overdue (Nat.mod_lt _ (by omega)) hcore idle runs chosen within fine late]
  subst mine
  obtain ⟨w, f, found', ending⟩ := watchdogEnd_ends found going (candidates s core (g % 4) (issueCycle s core (g % 4))) (issueCycle s core (g % 4)) c.g i
  exact ⟨_, w, f, rfl, found', ending⟩

/-- Settles O42. -/
theorem operationsCompleteAndCountsEnd : Obligations.OperationsCompleteAndCountsEnd := by
  intro s team
  refine ⟨?mem, ?value, ?demotion, ?watchdog, ?whole, runTlb_effects s⟩
  case mem =>
    intro g op t core o x found placed gang tracked kind only
    have run : completeOp s t core g o 0 = endOp s team g op := by
      have uid : t.uid = team := by simpa using List.find?_some found
      rcases kind with kind | kind <;>
        simp only [completeOp, kind, only, List.isEmpty_nil, if_true, uid, tracked_id tracked]
    obtain ⟨y, gang', ops, lanes, cregs, flag⟩ := endOp_ends gang tracked
    exact ⟨_, y, (exec_operationComplete found placed (by rw [gang_of_team found gang]; exact tracked) 0).trans (congrArg _ run),
      gang', ops, lanes, cregs, rfl, flag⟩
  case value =>
    intro g op t core o x b ws fl id h i l found placed gang tracked kind some_ place lane
    have uid : t.uid = team := by simpa using List.find?_some found
    obtain ⟨m, lane', preds, fst, reg⟩ := writeValue_lane (g := g) (op := o.id) (b := b) (fl := fl) uid some_ place lane [] o.insn
    have run : completeOp s t core g o 0 =
        endOp (writeValue s t g o.id { name := .g b, words := ws.length } [] id (ws, fl) o.insn) team g o.id := by
      simp only [completeOp, kind, List.foldl_cons, List.foldl_nil, uid]
    exact ⟨_, m, (exec_operationComplete found placed (by rw [gang_of_team found gang]; exact tracked) 0).trans (congrArg _ run),
      (findLane_endOp ..).trans lane', preds, writeValue_word_mem .., fst, reg⟩
  case demotion =>
    intro g i l lane
    refine ⟨_, rfl, ?_, rfl⟩
    rw [findLane_modLane, lane, Option.map_some]
    split <;> rfl
  case watchdog =>
    intro g i t core c found placed hcore going idle runs chosen mine gang within fine late
    exact watchdog_ends found placed hcore going idle runs chosen mine gang within fine late
  case whole =>
    intro g op t core o h i l b d ends run found placed here tracked home only place lane
    have e : Ending s team g op h i (t.gang g) o l := ending_of found here tracked home place lane
    have step (no : Nat) : exec (.operationComplete team g op no) s = .next (completeOp s t core g o no) :=
      exec_operationComplete found placed tracked no
    have uid : t.uid = team := by simpa using List.find?_some found
    have id := tracked_id tracked
    have spot := head_place only place
    refine ⟨?lnchWaits, ?lnch, ?lrecWaits, ?lrecBad, ?lrec, ?lease, ?csave, ?csaveEnds, ?crestWaits, ?crestBad, ?crest, ?tlbinv, ?replay,
      ?replayEnds, ?evnt⟩
    case lnchWaits =>
      intro rs kind wait
      exact (step 0).trans (congrArg Host.Outcome.next ((completeOp_lnch e found only place kind 0).1 wait))
    case lnch =>
      intro rs rec kind got die room pool ok
      have part := (completeOp_lnch e found only place (core := core) kind 0).2 rec got
      have run' := (step 0).trans (congrArg Host.Outcome.next part)
      by_cases deep : t.depth = 8
      · obtain ⟨ends', y, found', pend⟩ := lnchPart_refuses e only found b rec 1 (.inl ⟨deep, rfl⟩)
        refine ⟨_, y, 0, run', ?_, found', ?_, fun good => absurd deep good.1, fun good => absurd deep good.1⟩
        · rw [if_pos deep]
          exact ends'
        · rw [if_neg fun good => good.1.1 deep, List.append_nil]
          exact pend
      · rcases Option.eq_none_or_eq_some (recRefused s t.ctx rec) with refused | ⟨code, refused⟩
        · obtain ⟨ends', y, n, found', pend, pool', mem⟩ := lnchPart_places e only found b die rec deep refused
          refine ⟨_, y, n, run', ?_, found', ?_, fun _ => pool', fun _ => mem⟩
          · rw [if_neg deep, refused]
            exact ends'
          · rw [pend]
            refine congrArg (t.pend ++ ·) (if_congr ?_ rfl rfl)
            exact ⟨fun some_ => ⟨⟨deep, refused⟩, some_⟩, fun some_ => some_.2⟩
        · have bad : ¬ ok := fun good => Option.some_ne_none code (refused.symm.trans good.2)
          obtain ⟨ends', y, found', pend⟩ := lnchPart_refuses e only found b rec code (.inr ⟨deep, refused⟩)
          refine ⟨_, y, 0, run', ?_, found', ?_, fun good => absurd good bad, fun good => absurd good bad⟩
          · rw [if_neg deep, refused]
            exact ends'
          · rw [if_neg fun good => bad good.1, List.append_nil]
            exact pend
    case lrecWaits =>
      intro rs kind wait
      refine (step 0).trans (congrArg Host.Outcome.next ((completeOp_part only (.inl ⟨_, _, kind⟩) 0).trans ?_))
      simp only [lanePart, only, List.head?_cons, place, kind, wait]
    case lrecBad =>
      intro rs kind bad
      refine ⟨_, (step 0).trans (congrArg Host.Outcome.next ((completeOp_part only (.inl ⟨_, _, kind⟩) 0).trans ?_)), e.lanePart only b 3, mem_endLanePart ..⟩
      simp only [lanePart, only, List.head?_cons, place, kind, bad, lrecPart, uid, id]
      rfl
    case lrec =>
      intro rs rec kind got
      refine ⟨_, (step 0).trans (congrArg Host.Outcome.next ((completeOp_part only (.inl ⟨_, _, kind⟩) 0).trans ?_)),
        e.lanePart only b ((recCheck rec).getD 0), mem_endLanePart ..⟩
      simp only [lanePart, only, List.head?_cons, place, kind, got, lrecPart, uid, id]
      rfl
    case lease =>
      intro qs no kind q r bad pages
      have run' : exec (.operationComplete team g op no) s = .next (leasePart s t h i op { name := .g b, words := 1 } q (decide (32 ≤ no))) := by
        refine (step no).trans (congrArg Host.Outcome.next ((completeOp_part only (.inr ⟨_, _, kind⟩) no).trans ?_))
        simp only [lanePart, only, List.head?_cons, place, kind, id]
        rfl
      obtain ⟨waits, ends'⟩ := leasePart_ends e only found b q (decide (32 ≤ no))
      refine ⟨fun fine room absent small => run'.trans (congrArg Host.Outcome.next (waits fine room absent (by simpa using small))), fun why => ?_⟩
      obtain ⟨done_, y, found', leases, mem⟩ := ends' (why.imp_right (Or.imp_right (Or.imp_right fun big => decide_eq_true big)))
      exact ⟨_, y, run', done_, found', leases, mem⟩
    case csave =>
      intro a kind
      have run' : run = .next (csaveStep s t core g h i o { name := .g b, words := 1 } a false) := by
        refine (step 0).trans (congrArg Host.Outcome.next ?_)
        simp only [completeOp, kind, spot]
        rfl
      obtain ⟨waits, begins⟩ := csaveStep_begins (core := core) e found b a
      refine ⟨fun why => run'.trans (congrArg Host.Outcome.next (waits why)), fun flags ports => ?_⟩
      obtain ⟨y, m, rest⟩ := begins flags ports
      exact ⟨_, y, m, run', rest⟩
    case csaveEnds =>
      intro a kind
      have run' : run = .next (csaveStep s t core g h i o { name := .g b, words := 1 } a true) := by
        refine (step 0).trans (congrArg Host.Outcome.next ?_)
        simp only [completeOp, kind, spot]
        rfl
      obtain ⟨waits, ends'⟩ := csaveStep_ends (core := core) e found b a
      exact ⟨fun why => run'.trans (congrArg Host.Outcome.next (waits why)), fun none_ => ⟨_, run', ends' none_⟩⟩
    case crestWaits =>
      intro a kind busy
      refine (step 0).trans (congrArg Host.Outcome.next ?_)
      simp only [completeOp, kind, spot]
      exact (crestStep_ends e found b a).1 busy
    case crestBad =>
      intro a bs s1 kind idle read bad
      refine ⟨_, (step 0).trans (congrArg Host.Outcome.next ?_), (crestStep_ends e found b a).2.1 bs s1 idle read bad⟩
      simp only [completeOp, kind, spot]
      rfl
    case crest =>
      intro a bs s1 cs s2 x kind idle read good read' held
      obtain ⟨⟨y, gang, shown⟩, mem⟩ := (crestStep_ends e found b a).2.2 bs s1 cs s2 x idle read good read' held
      refine ⟨_, y, (step 0).trans (congrArg Host.Outcome.next ?_), gang, mem, shown⟩
      simp only [completeOp, kind, spot]
      rfl
    case tlbinv =>
      intro k q kind teams
      refine ⟨_, (step 0).trans (congrArg Host.Outcome.next ?_), (e.congr teams).once b (runTlb s k q).2⟩
      simp only [completeOp, kind, spot, uid, id]
      rfl
    case replay =>
      intro ctx kind
      obtain ⟨y, gang, ops⟩ := findGang_ops (replayAll_ops s ctx) e.gang
      let noted : Gang → Gang := fun x => { x with ops := modWhere (fun p => p.id == op) (fun p =>
        { p with kind := .replay { name := .g b, words := 1 } ctx (some (replayAll s ctx).2) }) x.ops }
      have run' : run = .next (modGang (replayAll s ctx).1 team g noted) := by
        refine (step 0).trans (congrArg Host.Outcome.next ?_)
        simp only [completeOp, kind, spot, uid, id, noted, modWhere, beq_iff_eq]
        rfl
      refine ⟨_, noted y, run', by rw [findGang_modGang, gang]; rfl, rfl, ?_⟩
      exact kind_changed (by rw [ops]; exact tracked) _
    case replayEnds =>
      intro ctx n kind
      have run' : run = .next (if replayDone s ctx then
          endOnce ((s.teams.filter (fun x => x.ctx == ctx)).foldl (fun s x => keepSave s x.uid) s) team h i op { name := .g b, words := 1 } (BitVec.ofNat 32 n)
        else s) := by
        refine (step 0).trans (congrArg Host.Outcome.next ?_)
        simp only [completeOp, kind, spot, uid, id]
        rfl
      refine ⟨fun wait => run'.trans (by rw [wait]; rfl), fun done_ => ?_⟩
      obtain ⟨teams, mem⟩ := keepSaves_teams (s.teams.filter (fun x => x.ctx == ctx)) s
      obtain ⟨ends', mem'⟩ := (e.congr teams).once b n
      exact ⟨_, run'.trans (by rw [done_, if_pos rfl]), ends', mem'.trans mem⟩
    case evnt =>
      intro es kind
      have holds_ : s.dies.any (fun x => es.any x.events.holds) = true ↔ ∃ x ∈ s.dies, ∃ n ∈ es, x.events.holds n = true := by simp
      refine ⟨fun why => ?_, fun clear_ => ?_⟩
      · refine (step 0).trans (congrArg Host.Outcome.next ?_)
        simp only [completeOp, kind]
        exact if_pos (holds_.mpr why)
      · obtain ⟨y, gang, ops, lanes, -, flag⟩ := endOp_ends e.gang tracked
        refine ⟨endOp s team g op, y, (step 0).trans (congrArg Host.Outcome.next ?_), gang, lanes, ops, rfl, flag⟩
        simp only [completeOp, kind, uid, id]
        refine if_neg fun some_ => ?_
        obtain ⟨x, hx, n, hn, held⟩ := holds_.mp some_
        exact Bool.false_ne_true ((clear_ x hx n hn).symm.trans held)

end Sys2Proof.Machine
end

section
/-! O48. ACAS compares the bytes that it finds before the walker marks the page, when it decides whether the page is written (R372), and
those that stand there after the mark, when it decides whether it writes. Where the word is the page's own leaf, the two differ. -/

namespace Sys2Proof.Machine

open Sys2Proof.Tests

/-- An ACAS of a lane on the leaf that maps it: it writes 1 if the leaf has its A and D bits (0x77). -/
def leafSwap : MemKind := .acas 0x10000 true 0x77 1 { name := .g 0, words := 2 }

/-- The page of the leaf at 0x10000 of die 0 is its own: the leaf has neither A nor D (0x47). -/
def selfMapped : State :=
  withLane 0 (fun l => { l with queue := [{ LaneOp.plain leafSwap with op := 7 }] }) (mapped s0)

/-- The byte at the leaf after a step. -/
def leafByte (o : Out) : Option Byte :=
  match o with
  | .next t => some (tget memDefault t.mem 0x10000)
  | _ => none

/-- What the statement asks of the lane's part, and of the place of its word. -/
def swapReady (p : Part) : Bool :=
  p.op.kind == leafSwap && p.op.acks == [] && p.lane.takes p.op.op &&
  ((agentMem selfMapped (.core p.core)).entry (lineOf p.team.ctx 0x10000)).isEmpty &&
  (entriesOf selfMapped (lineOf p.team.ctx 0x10000)).isEmpty &&
  (match locateFor selfMapped p.team 0x10000 .write with
    | .ok loc => loc.key == 0x10000 && (List.range 8).all (fun k => !poisoned selfMapped (0x10000 + k)) &&
        !channelFailed selfMapped (lineAddr 0x10000) && rdNat (markLeaf selfMapped loc true) 0x10000 8 == 0x77
    | .error _ => false)

theorem swapReady_eq : (partOf selfMapped 0 0 0 0).any swapReady = true := by decide +kernel

theorem selfMapped_quiet : selfMapped.msgs = [] ∧ selfMapped.older = [] := by decide +kernel

theorem leafAfter_eq : leafByte (exec (.atomic 0 0 0 0) selfMapped) = some 0x57 := by decide +kernel

/-- The part is there, and its word is where its page's leaf is. -/
theorem swap_placed : ∃ p loc, partOf selfMapped 0 0 0 0 = some p ∧ p.op.kind = leafSwap ∧ p.op.acks = [] ∧ p.lane.takes p.op.op = true ∧
    locateFor selfMapped p.team 0x10000 .write = .ok loc ∧ loc.key = 0x10000 ∧
    (agentMem selfMapped (.core p.core)).entry (lineOf p.team.ctx 0x10000) = [] ∧ entriesOf selfMapped (lineOf p.team.ctx 0x10000) = [] ∧
    (∀ k < 8, poisoned selfMapped (0x10000 + k) = false) ∧ channelFailed selfMapped (lineAddr 0x10000) = false ∧
    rdNat (markLeaf selfMapped loc true) 0x10000 8 = 0x77 := by
  obtain ⟨p, found, ready⟩ := (Option.any_eq_true _ _).mp swapReady_eq
  unfold swapReady at ready
  cases place : locateFor selfMapped p.team 0x10000 .write with
  | error c => simp [place] at ready
  | ok loc =>
    simp only [place, Bool.and_eq_true, beq_iff_eq, List.isEmpty_iff, List.all_eq_true, List.mem_range, Bool.not_eq_true'] at ready
    obtain ⟨⟨⟨⟨⟨kind, acks⟩, takes⟩, entry⟩, dir⟩, ⟨⟨key, pieces⟩, channel⟩, word⟩ := ready
    exact ⟨p, loc, found, kind, acks, takes, place, key, entry, dir, pieces, channel, word⟩

/-- Refutes O48: the word is 0x77 once its page is marked as read and written, so the statement has the ACAS write 1. The model finds
0x47, another word than the 0x77 that it compares with, marks the page as read alone, and then finds 0x57: it writes nothing. -/
theorem not_orderAndAtomicsAct : ¬ Obligations.OrderAndAtomicsAct := by
  intro claim
  obtain ⟨p, loc, found, kind, acks, takes, place, key, entry, dir, pieces, channel, word⟩ := swap_placed
  obtain ⟨-, -, atomics, -⟩ := claim selfMapped 0 0 0 0 p found
  have acts (stamp : Nat) : Acts 0x77 stamp leafSwap (some 1) [0x77, 0] 0 := Acts.acas (old := 0x77) (stamp := stamp) 0x10000 true 0x77 1 _
  obtain ⟨r, m, run, -, -, -, -, bytes, -⟩ := atomics 0x10000 8 (some (0, 2)) .write loc (some 1) [0x77, 0] 0 (by rw [kind]; rfl) acks takes place
    entry (by rw [key]; exact pieces) (fun _ => by rw [key]; exact channel) dir (by rw [selfMapped_quiet.1]; simp)
    (fun n _ => by rw [selfMapped_quiet.2]; rfl) (by rw [key, kind]; exact word ▸ acts _)
  have written : leafByte (.next r) = some 1 := congrArg some (by
    have low := bytes 1 rfl 0 (by decide)
    rw [key] at low
    exact low)
  exact absurd (written.symm.trans ((congrArg leafByte run).symm.trans leafAfter_eq)) (by decide)

end Sys2Proof.Machine
end


section
/-! The bytes of a line share its place: what R182, R371 and R372 find for one byte of a line, they find for the others. -/

namespace Sys2Proof.Machine

variable {s : State} {a b : Nat}

theorem fld_of_line (same : a / 128 = b / 128) {h l : Nat} (line : 7 ≤ l) : fld a h l = fld b h l := by
  have parts (x : Nat) : x / 2 ^ l = x / 128 / 2 ^ (l - 7) := by
    rw [Nat.div_div_eq_div_mul, show (128 : Nat) = 2 ^ 7 from rfl, ← Nat.pow_add, Nat.add_sub_cancel' line]
  rw [fld, fld, parts a, parts b, same]

theorem homeOf_of_line (same : a / 128 = b / 128) : homeOf a = homeOf b := fld_of_line same (by omega)

theorem offOf_of_line (same : a / 128 = b / 128) : offOf a / 128 = offOf b / 128 := by
  unfold offOf
  omega

theorem sliceAt_of_line (same : a / 128 = b / 128) : sliceAt a = sliceAt b := by
  unfold sliceAt sliceOf
  have off := offOf_of_line same
  rw [homeOf_of_line same, fld_of_line off (l := 11) (by omega), fld_of_line off (l := 17) (by omega), fld_of_line off (l := 23) (by omega),
    fld_of_line off (l := 29) (by omega), fld_of_line off (l := 35) (by omega), fld_of_line off (l := 41) (by omega),
    fld_of_line off (l := 47) (by omega)]

theorem issueFault_of_line (same : a / 128 = b / 128) : issueFault s a = issueFault s b := by
  have off := offOf_of_line same
  have size : offOf a < pewterSize s ↔ offOf b < pewterSize s := by
    unfold pewterSize
    omega
  have high : a / 2 ^ 62 = b / 2 ^ 62 := by omega
  unfold issueFault
  dsimp only
  rw [homeOf_of_line same, high]
  simp only [size]

theorem walk_of_line {home : Nat} (same : a / 128 = b / 128) (levels : List (Nat × Nat)) (pages : ∀ x ∈ levels, 7 ≤ x.2) :
    ∀ table, walk s home a levels table = walk s home b levels table := by
  induction levels with
  | nil => exact fun _ => rfl
  | cons x levels ih =>
    intro table
    have deeper := ih fun y inside => pages y (List.mem_cons_of_mem _ inside)
    simp only [walk]
    rw [fld_of_line same (pages x List.mem_cons_self), deeper]

/-- The page of a leaf is a power of two that a line divides. -/
theorem walk_page {home off : Nat} {leaf : Leaf} (levels : List (Nat × Nat)) (pages : ∀ x ∈ levels, 7 ≤ x.2) :
    ∀ table, walk s home off levels table = .ok leaf → ∃ n, leaf.psize = 128 * n := by
  induction levels with
  | nil => exact fun _ found => by cases found
  | cons x levels ih =>
    intro table found
    simp only [walk] at found
    split at found
    · cases found
    · split at found
      · cases found
      · split at found
        · split at found
          · cases found
          · cases found
            refine ⟨2 ^ (x.2 - 7), ?_⟩
            rw [show (128 : Nat) = 2 ^ 7 from rfl, ← Nat.pow_add, Nat.add_sub_cancel' (pages x List.mem_cons_self)]
        · split at found
          · cases found
          · exact ih (fun y inside => pages y (List.mem_cons_of_mem _ inside)) _ found

theorem mod_of_line {n i : Nat} (inside : a % 128 + i < 128) : (a + i) % (128 * n) = a % (128 * n) + i := by
  rcases Nat.eq_zero_or_pos n with rfl | some_
  · simp
  · have page := Nat.mod_lt a (show 0 < 128 * n by omega)
    have low : a % (128 * n) % 128 = a % 128 := Nat.mod_mul_right_mod ..
    have fits : a % (128 * n) + i < 128 * n := by omega
    calc (a + i) % (128 * n) = (a % (128 * n) + i) % (128 * n) := by rw [Nat.mod_add_mod]
      _ = a % (128 * n) + i := Nat.mod_eq_of_lt fits

theorem walkLevels_pages : ∀ x ∈ walkLevels, 7 ≤ x.2 := by decide

/-- R182, R372: a byte of the line that `a` lies in stands where `a` does, as far on. -/
theorem locate_in_line {ctx i : Nat} {acc : Access} {lease : Bool} {loc : Loc} (place : locate s ctx a acc lease = .ok loc)
    (inside : a % 128 + i < 128) :
    locate s ctx (a + i) acc lease = .ok { loc with key := loc.key + i } ∧ loc.key % 128 = a % 128 := by
  have same : (a + i) / 128 = a / 128 := by omega
  have off := offOf_of_line same
  have home := homeOf_of_line same
  have next : offOf (a + i) = offOf a + i := by
    unfold offOf at off ⊢
    omega
  unfold locate at place ⊢
  dsimp only at place ⊢
  rw [issueFault_of_line same, home, sliceAt_of_line same, walkTo, home, walk_of_line off walkLevels walkLevels_pages]
  rw [walkTo] at place
  split at place
  · cases place
  · split at place
    · cases place
    · next sound =>
      rw [if_neg sound]
      split at place
      · cases place
      · next linked =>
        rw [if_neg linked]
        split at place
        · next direct =>
          rw [if_pos direct]
          cases place
          exact ⟨rfl, rfl⟩
        · next mapped =>
          rw [if_neg mapped]
          split at place
          · cases place
          · next leaf found =>
            obtain ⟨n, page⟩ := walk_page walkLevels walkLevels_pages _ found
            split at place
            · cases place
            · next allowed =>
              rw [if_neg allowed]
              split at place
              · cases place
              · next present =>
                rw [if_neg present]
                cases place
                have low : offOf a % 128 = a % 128 := by
                  unfold offOf
                  omega
                refine ⟨?_, ?_⟩
                · simp only [next, page, mod_of_line (n := n) (i := i) (low ▸ inside), pkey, Nat.add_assoc]
                · have part : offOf a % leaf.psize % 128 = offOf a % 128 := by rw [page, Nat.mod_mul_right_mod]
                  simp only [pkey, Leaf.frame]
                  omega

end Sys2Proof.Machine
end


section
/-! O39. Requests from the host, a peer and the network (16). -/

namespace Sys2Proof.Machine

variable {s t : State}

-- The window of the host (R400)

/-- An error event waits at its die, and changes nothing else that is asked of it. -/
theorem errorEvent_waits (s : State) (a : Nat) (here : 0 < s.dies.length) :
    ∃ e, (dieOf (errorEvent s 0 a) 0).events.waiting = (dieOf s 0).events.waiting ++ [e] ∧ e.2 % 16 = 6 := by
  refine ⟨(s.fresh, eventEntry 6 0 0 0 a), ?_, ?_⟩
  · exact congrArg (fun d => d.events.waiting) ((dieOf_modDie s here _ 0).trans (if_pos rfl))
  · simp [eventEntry]
    omega

/-- R400: an access inside the window. -/
theorem exec_hostWindowAccess {hpa n : Nat} (runs : running s = true) (low : s.mgmt.hwBase.toNat ≤ hpa)
    (high : hpa + n ≤ s.mgmt.hwBase.toNat + 2 ^ 36) (data : Option (List Byte)) :
    exec (.hostWindowAccess hpa data n) s =
      let a := (s.mgmt.hwDev + BitVec.ofNat 64 (hpa - s.mgmt.hwBase.toNat)).toNat
      match data with
      | none => match outsideRead s s.mgmt.hwCtx a n with
        | .ok r => .next { r.1 with hostData := r.2 }
        | .error _ => .next { errorEvent s 0 a with hostData := List.replicate n 0xFF }
      | some bs => match outsideWrite s s.mgmt.hwCtx a bs with
        | .ok s => .next s
        | .error _ => .next (errorEvent s 0 a) := by
  have inside : ¬ ((!running s) = true ∨ hpa < s.mgmt.hwBase.toNat ∨ s.mgmt.hwBase.toNat + 2 ^ 36 < hpa + n) := by
    rw [runs]
    simp
    omega
  change execHostWindowAccess hpa data n s = _
  unfold execHostWindowAccess
  exact (if_neg inside).trans rfl

-- The requests of a peer (R405)

theorem exec_peerRequest {ctx d o : Nat} (valid : s.mgmt.devValid = true) (die : d < 2) (off : o < 2 ^ 50) (op : PeerOp) :
    exec (.peerRequest ctx d o op) s = match op with
      | .cell => .next (reply s (causeCode .prot) [])
      | .load n => (match outsideRead s ctx (d * 2 ^ 50 + o) n with
        | .error c => .next (reply s (causeCode c) [])
        | .ok r => .next (reply r.1 0 r.2))
      | .fetch n => (match outsideRead s ctx (d * 2 ^ 50 + o) n .fetch with
        | .error c => .next (reply s (causeCode c) [])
        | .ok r => .next (reply r.1 0 r.2))
      | .store bs => (match outsideWrite s ctx (d * 2 ^ 50 + o) bs with
        | .error c => .next (reply s (causeCode c) [])
        | .ok s => .next (reply s 0 []))
      | .atom op w64 v => .next (peerAtomic s ctx (d * 2 ^ 50 + o) (if w64 then 8 else 4)
          (.atom (BitVec.ofNat 64 (d * 2 ^ 50 + o)) op w64 v { name := .g 0, words := 1 }))
      | .acas w64 cmp new => .next (peerAtomic s ctx (d * 2 ^ 50 + o) (if w64 then 8 else 4)
          (.acas (BitVec.ofNat 64 (d * 2 ^ 50 + o)) w64 cmp new { name := .g 0, words := 1 })) := by
  change execPeerRequest ctx d o op s = _
  unfold execPeerRequest
  refine (if_neg (by simp [valid]; omega)).trans ?_
  cases op <;> rfl

-- A datagram that is written (R409)

/-- The bytes of a write that reaches its home stand there, whatever gave way in the caches. -/
theorem homeWrite_bytes (s : State) (ctx : Nat) (l : Line) (loc : Loc) (bytes : List (Nat × Byte)) (b : Bool) (cause : Nat)
    (core : Option Nat) (hist : List (Nat × List (Byte × Nat))) (sound : channelFailed s (lineAddr loc.key) = false) :
    ∃ m, (homeWrite s ctx l loc bytes b cause core hist).mem = bytes.foldl (fun m b => tput memDefault m (lineAddr loc.key + b.1) b.2) m := by
  have lines : Lines s (dirtyLine (markLeaf (noteCode s loc bytes core hist) loc true) ctx loc) :=
    ((noteCode_cached s loc bytes core hist).1.trans (markLeaf_lines _ loc true)).trans (dirtyLine_cached _ _ _).1
  have sound' : channelFailed (dirtyLine (markLeaf (noteCode s loc bytes core hist) loc true) ctx loc) (lineAddr loc.key) = false := by
    rw [channelFailed, lines.rest.2.2.1]
    exact sound
  unfold homeWrite
  dsimp only
  generalize dirtyLine (markLeaf (noteCode s loc bytes core hist) loc true) ctx loc = v at sound'
  rw [if_neg (by rw [sound']; exact Bool.false_ne_true)]
  refine ⟨v.mem, ?_⟩
  generalize hu : noteSlots _ _ = u
  have stored : u.mem = bytes.foldl (fun m b => tput memDefault m (lineAddr loc.key + b.1) b.2) v.mem := by
    rw [← hu]
    unfold noteSlots noteHeld noteLanes
    exact settlePieces_mem ..
  obtain ⟨_, _, _, told, -⟩ := notifyAll_told (entriesOf u l) (rdBytes v (lineAddr loc.key) 128) (rdBytes u (lineAddr loc.key) 128)
    (fun d i => if b = true then ((rdBytes v (lineAddr loc.key) 128).drop (i * etypeBytes d.t)).take (etypeBytes d.t) !=
        ((rdBytes u (lineAddr loc.key) 128).drop (i * etypeBytes d.t)).take (etypeBytes d.t)
      else (List.range (etypeBytes d.t)).any (fun j => bytes.any (fun b => b.1 == i * etypeBytes d.t + j)) &&
        !(List.range (etypeBytes d.t)).all (fun j => bytes.any (fun b => b.1 == i * etypeBytes d.t + j))) cause u
  exact (congrArg State.mem told).trans stored

/-- Where the bytes of a write within one line go. -/
theorem outsideLocs_line {ctx a : Nat} {acc : Access} {loc : Loc} (place : locate s ctx a acc false = .ok loc) :
    ∀ n, a % 128 + n ≤ 128 → outsideLocs s ctx a n acc = .ok ((List.range n).map fun i => { loc with key := loc.key + i }) := by
  intro n
  induction n with
  | zero => exact fun _ => rfl
  | succ n ih =>
    intro fits
    have before := ih (by omega)
    unfold outsideLocs at before ⊢
    rw [List.range_succ, List.foldl_append, before, List.foldl_cons, List.foldl_nil]
    simp only [(locate_in_line (i := n) place (by omega)).1, List.map_append, List.map_cons, List.map_nil]

/-- R409: a write within one line, of a page on channels that have not failed. -/
theorem outsideWrite_line {ctx a : Nat} {bs : List Byte} {loc : Loc} (fits : a % 128 + bs.length ≤ 128) (some_ : bs ≠ [])
    (place : locate s ctx a .write false = .ok loc) (sound : channelFailed s (lineAddr loc.key) = false) :
    ∃ t, outsideWrite s ctx a bs = .ok t ∧ ∀ i < bs.length, rdByte t (loc.key + i) = bs.getD i 0 := by
  have aligned := (locate_in_line (i := 0) place (by omega)).2
  have count : 0 < bs.length := List.length_pos_iff.mpr some_
  let xs := ((List.range bs.length).map fun i => ({ loc with key := loc.key + i } : Loc)).zip bs
  have length : xs.length = bs.length := by simp [xs]
  have line : ∀ x ∈ xs, x.1.key / 128 = loc.key / 128 := by
    intro x held
    obtain ⟨i, inside, e⟩ := List.mem_map.mp (List.of_mem_zip held).1
    have := List.mem_range.mp inside
    rw [← e]
    simp only
    omega
  have bytes : xs.map (fun y => (y.1.key % 128, y.2)) = (List.range bs.length).map fun i => (loc.key % 128 + i, bs.getD i 0) := by
    refine List.ext_getElem (by simp [length]) fun i h1 h2 => ?_
    have inside : i < bs.length := by simpa using h2
    simp [xs, inside]
    omega
  have lines : (xs.map (fun x => x.1.key / 128)).dedup = [loc.key / 128] := by
    rw [List.eq_replicate_of_mem (l := xs.map fun x => x.1.key / 128) (a := loc.key / 128) fun k held => by
      obtain ⟨x, inside, rfl⟩ := List.mem_map.mp held
      exact line x inside]
    exact List.replicate_dedup (by rw [List.length_map, length]; omega)
  have mine : xs.filter (fun x => x.1.key / 128 == loc.key / 128) = xs := List.filter_eq_self.mpr fun x inside => by simpa using line x inside
  obtain ⟨x, rest, head⟩ := List.exists_cons_of_length_pos (l := xs) (by omega)
  have base : lineAddr x.1.key = lineAddr loc.key := by
    have := line x (by rw [head]; exact List.mem_cons_self)
    unfold lineAddr
    omega
  let v : State := spoilRings (touchLine (markLeaf s x.1 true) ctx x.1) (128 * (loc.key / 128))
  have sound' : channelFailed { v with fresh := v.fresh + 1 } (lineAddr x.1.key) = false := by
    have dies : v.dies = s.dies := ((markLeaf_lines s x.1 true).trans (touchLine_cached _ ctx x.1).1).rest.2.2.1
    rw [base, channelFailed]
    change (_ && ((v.dies[_]?).map _).getD false) = false
    rw [dies]
    exact sound
  obtain ⟨m, stored⟩ := homeWrite_bytes { v with fresh := v.fresh + 1 } ctx (lineOf ctx (a + xs.idxOf x)) x.1
    ((x :: rest).map (fun y => (y.1.key % 128, y.2))) false s.fresh none [] sound'
  have run : ∃ t, outsideWrite s ctx a bs = .ok t ∧ t.mem = (homeWrite { v with fresh := v.fresh + 1 } ctx (lineOf ctx (a + xs.idxOf x)) x.1
      ((x :: rest).map (fun y => (y.1.key % 128, y.2))) false s.fresh none []).mem := by
    unfold outsideWrite
    rw [outsideLocs_line place bs.length fits]
    refine ⟨_, rfl, ?_⟩
    change State.mem (List.foldl _ s (xs.map (fun x => x.1.key / 128)).dedup) = _
    rw [lines, List.foldl_cons, List.foldl_nil]
    change State.mem (match xs.filter (fun x => x.1.key / 128 == loc.key / 128) with
      | [] => s
      | x :: _ => _) = _
    rw [mine.trans head]
    dsimp only
    split <;> rfl
  obtain ⟨t, run, mem⟩ := run
  refine ⟨t, run, fun i inside => ?_⟩
  rw [rdByte, mem, stored, base, ← head, bytes]
  have found := (rdByte_stores Prod.fst Prod.snd (lineAddr loc.key) ((List.range bs.length).map fun i => (loc.key % 128 + i, bs.getD i 0))
    (by
      rw [List.map_map]
      exact List.nodup_range.map fun i j same => Nat.add_left_cancel same) m).1 (loc.key % 128 + i, bs.getD i 0)
    (List.mem_map.mpr ⟨i, List.mem_range.mpr inside, rfl⟩)
  rw [show loc.key + i = lineAddr loc.key + (loc.key % 128 + i) by unfold lineAddr; omega]
  exact found

-- Datagrams that end a command (R408, R409)

theorem found_modHead {u : Nat} {x : Team} (found : findTeam s u = some x) (e : Nat) (f : Cmd → Cmd) :
    findTeam (modHead s u e f) u = some { x with ectx := x.ectx.modify e (fun c => { c with queue := c.queue.modify 0 f }) } := by
  unfold modHead
  rw [findTeam_modTeam, found]
  · rfl
  · exact fun _ => rfl

theorem ctxOf_modify {x : Team} {e : Nat} (place : e < x.ectx.length) (f : Ctx → Ctx) :
    ({ x with ectx := x.ectx.modify e f } : Team).ctxOf e = f (x.ctxOf e) := by
  simp [Team.ctxOf, List.getElem?_eq_getElem place]

theorem commandFault_cause (t : Team) (e no who gang : Nat) (c : Cause) (a acc : Nat) : (commandFault t e no who gang c a acc).cause = c := by
  unfold commandFault
  dsimp only
  split <;> rfl

theorem datagramFault_ends (d : Datagram) (c : Cause) {x : Team} {k : Cmd} {r : List Cmd} (found : findTeam s d.team = some x)
    (queue : (x.ctxOf d.e).queue = k :: r) :
    (∀ z ∈ (datagramFault s d c).datagrams, ¬ (z.team = d.team ∧ z.e = d.e)) ∧
    ∃ y f, findTeam (datagramFault s d c) d.team = some y ∧ (y.ctxOf d.e).queue = { k with st := .running 6, fault := some f } :: r ∧ f.cause = c := by
  let w : State := { s with datagrams := s.datagrams.filter (fun x => !(x.team == d.team && x.e == d.e)) }
  let f := cmdFault x d.e k c (metStore d.addr.toNat)
  let ended : Cmd → Cmd := fun k => { k with st := .running 6, fault := some (cmdFault x d.e k c (metStore d.addr.toNat)) }
  have run : datagramFault s d c = modHead w d.team d.e ended := by
    unfold datagramFault
    have found' : findTeam w d.team = some x := found
    simp only [w] at found'
    simp only [found']
    rfl
  have place : d.e < x.ectx.length := by
    by_contra outside
    rw [Team.ctxOf, List.getD_eq_default _ _ (Nat.le_of_not_lt outside)] at queue
    cases queue
  rw [run]
  refine ⟨fun z held both => ?_, _, f, found_modHead (s := w) found d.e ended, ?_, ?_⟩
  · have kept := (List.mem_filter.mp (show z ∈ w.datagrams from held)).2
    simp [both.1, both.2] at kept
  · rw [ctxOf_modify place, queue]
    rfl
  · exact commandFault_cause ..

theorem datagram_stored {mac ip udp a ctx : Nat} {bs : List Byte} {u : State} (sender : senderOf s mac ip udp = some ctx)
    (write : outsideWrite s ctx a bs = .ok u) : exec (.datagramReceive mac ip udp a bs true) s = .next { u with peerReply := [0] } := by
  change execDatagramReceive mac ip udp a bs true s = _
  simp only [execDatagramReceive, sender, write]
  rfl

/-- Settles O39. -/
theorem outsideRequestsServed : Obligations.OutsideRequestsServed := by
  intro s
  refine ⟨?hostFaults, ?hostReads, ?hostWrites, ?early, ?cell, ?load, ?fetch, ?store, ?timeout, ?replay, ?port, ?dropped, ?written, ?stored, ?refused,
    ?acked, ?ended, ?resent⟩
  case hostFaults =>
    intro hpa n c runs low high bad
    have run := exec_hostWindowAccess runs low high none
    simp only [bad] at run
    exact ⟨_, run, rfl, rfl, errorEvent_waits s _⟩
  case hostReads =>
    intro hpa n r runs low high read
    have run := exec_hostWindowAccess runs low high none
    simp only [read] at run
    exact ⟨_, run, rfl, rfl⟩
  case hostWrites =>
    intro hpa n bs runs low high
    refine ⟨fun u write => (exec_hostWindowAccess runs low high (some bs)).trans (by simp only [write]), fun c bad => ?_⟩
    have run := exec_hostWindowAccess runs low high (some bs)
    simp only [bad] at run
    exact ⟨_, run, rfl, errorEvent_waits s _⟩
  case early =>
    intro ctx d o op invalid
    change execPeerRequest ctx d o op s = _
    unfold execPeerRequest
    rw [if_pos (.inl (by rw [invalid]; rfl))]
    rfl
  case cell =>
    intro ctx d o
    change execPeerRequest ctx d o .cell s = _
    unfold execPeerRequest
    split <;> rfl
  case load =>
    intro ctx d o n r valid die off read
    refine (exec_peerRequest (ctx := ctx) valid die off (.load n)).trans ?_
    simp only [read]
    rfl
  case fetch =>
    intro ctx d o n r valid die off read
    refine (exec_peerRequest (ctx := ctx) valid die off (.fetch n)).trans ?_
    simp only [read]
    rfl
  case store =>
    intro ctx d o bs u valid die off write
    refine (exec_peerRequest (ctx := ctx) valid die off (.store bs)).trans ?_
    simp only [write]
    rfl
  case timeout =>
    intro team gang lane idx p a small position part addr peer
    have away : (!atPeer a) = false := by simpa [atPeer] using peer
    change execPeerTimeout team gang lane idx false s = _
    unfold execPeerTimeout
    rw [if_pos ⟨small, position⟩]
    simp only [part, entryTimeout, addr, away, Bool.false_eq_true, if_false]
    refine congrArg (fun w => Host.Outcome.next (partPoison w p a 1)) ?_
    cases p.op.kind with
    | atom | acas => dsimp only; split <;> rfl
    | _ => rfl
  case replay => exact fun n => congrArg Host.Outcome.next (if_pos (.inl rfl))
  case port =>
    intro n
    by_cases lost : s.lostPorts.contains n = true
    · exact ⟨s, congrArg Host.Outcome.next (if_pos (.inr lost)), List.elem_iff.mp lost, rfl⟩
    · exact ⟨_, congrArg Host.Outcome.next (if_neg (by simpa using lost)), List.mem_cons_self, rfl⟩
  case dropped =>
    intro mac ip udp a bs g why
    change execDatagramReceive mac ip udp a bs g s = _
    unfold execDatagramReceive
    split
    · rfl
    · next ctx sender =>
      rw [if_pos (by rcases why with none_ | bad
                     · rw [none_] at sender; cases sender
                     · rw [bad]; rfl)]
  case written =>
    intro mac ip udp a bs ctx loc sender fits some_ place sound
    obtain ⟨t, write, bytes⟩ := outsideWrite_line fits some_ place sound
    exact ⟨_, datagram_stored sender write, rfl, bytes⟩
  case stored => exact fun mac ip udp a bs ctx u sender write => datagram_stored sender write
  case refused =>
    intro mac ip udp a bs ctx c sender bad
    change execDatagramReceive mac ip udp a bs true s = _
    simp only [execDatagramReceive, sender, bad]
    rfl
  case acked =>
    intro n d found
    change execDatagramAck n none s = _
    simp only [execDatagramAck, found]
  case ended =>
    intro n d u x k r held found queue why
    have after (c : Cause) := datagramFault_ends (s := s) d c found queue
    rcases why with ⟨rfl, late, often⟩ | ⟨code, rfl⟩
    · obtain ⟨others, y, f, found', queue', cause⟩ := after .poison
      refine ⟨_, y, f, ?_, others, found', queue', fun _ no => (by cases no), fun _ => cause⟩
      change execDatagramResend n s = _
      simp only [execDatagramResend, held, if_neg (Nat.not_lt.mpr late), if_pos often]
    · obtain ⟨others, y, f, found', queue', cause⟩ := after (causeOf code)
      refine ⟨_, y, f, ?_, others, found', queue', fun _ same => (by cases same; exact cause), fun no => (by cases no)⟩
      change execDatagramAck n (some code) s = _
      simp only [execDatagramAck, held]
  case resent =>
    intro n d held late few
    change execDatagramResend n s = _
    simp only [execDatagramResend, held, if_neg (Nat.not_lt.mpr late), if_neg (Nat.not_le.mpr few), modWhere, beq_iff_eq]

end Sys2Proof.Machine
end


section
/-! A line that an access brings to its slice gives no poison that it did not give before (R386, R403, R404). -/

namespace Sys2Proof.Machine

variable {s : State}

-- Poison, and the lines of the memory-side cache

theorem writeBackLine_kept (s : State) (n : Nat) : (writeBackLine s n).poison = s.poison ∧ (writeBackLine s n).msc = s.msc ∧
    (writeBackLine s n).sliceLines = s.sliceLines := by
  unfold writeBackLine
  dsimp only
  split <;> exact ⟨rfl, rfl, rfl⟩

theorem settleLine_kept (s : State) (n : Nat) : (settleLine s n).poison = s.poison ∧ (settleLine s n).msc = s.msc ∧
    (settleLine s n).sliceLines = s.sliceLines := by
  unfold settleLine
  split
  · exact ⟨rfl, rfl, rfl⟩
  · split
    · exact writeBackLine_kept s n
    · split <;> exact ⟨rfl, rfl, rfl⟩

theorem settleLines_kept (ws : List (Nat × Nat)) : ∀ s : State, (ws.foldl (fun s w => settleLine s w.2) s).poison = s.poison ∧
    (ws.foldl (fun s w => settleLine s w.2) s).msc = s.msc ∧ (ws.foldl (fun s w => settleLine s w.2) s).sliceLines = s.sliceLines := by
  induction ws with
  | nil => exact fun _ => ⟨rfl, rfl, rfl⟩
  | cons w ws ih =>
    intro s
    obtain ⟨poison, msc, slice⟩ := settleLine_kept s w.2
    obtain ⟨poison', msc', slice'⟩ := ih (settleLine s w.2)
    exact ⟨poison'.trans poison, msc'.trans msc, slice'.trans slice⟩

theorem mscAccess_kept (s : State) (ctx k : Nat) : (mscAccess s ctx k).poison = s.poison ∧ (mscAccess s ctx k).sliceLines = s.sliceLines := by
  unfold mscAccess
  dsimp only
  split
  · exact ⟨rfl, rfl⟩
  · exact ⟨(settleLines_kept _ _).1, (settleLines_kept _ _).2.2⟩

/-- A line that joins a set of 15 others stands among the first 15, at their head or before the last of them. -/
theorem insertLine_first (x : Nat × Nat) (kept : List (Nat × Nat)) (mru : Bool) (few : kept.length ≤ 15) :
    x ∈ (if mru then x :: kept else kept.take (kept.length - 1) ++ [x] ++ kept.drop (kept.length - 1)).take 15 := by
  cases mru with
  | true => exact List.mem_cons_self
  | false =>
    have short : (kept.take (kept.length - 1) ++ [x]).length ≤ 15 := by simp; omega
    rw [if_neg Bool.false_ne_true, List.take_append, List.take_of_length_le short]
    simp

theorem insertLine_rest (x : Nat × Nat) (kept : List (Nat × Nat)) (mru : Bool) {w : Nat × Nat} (held : w ∈ kept) :
    w ∈ (if mru then x :: kept else kept.take (kept.length - 1) ++ [x] ++ kept.drop (kept.length - 1)) := by
  cases mru with
  | true => exact List.mem_cons_of_mem _ held
  | false =>
    rw [← List.take_append_drop (kept.length - 1) kept, List.mem_append] at held
    rw [if_neg Bool.false_ne_true, List.append_assoc, List.mem_append, List.mem_append]
    exact held.imp_right .inr

/-- What an access leaves of the sets of the memory-side cache: its own line among the first 15 of its set, and every line that was
among the first 15 of one. -/
theorem mscAccess_msc (s : State) (ctx k : Nat) :
    (∃ w ∈ (tget [] (mscAccess s ctx k).msc (mscIndex k)).take 15, w.2 = k / 128) ∧
    ∀ i, ∀ w ∈ (tget [] s.msc i).take 15, ∃ v ∈ tget [] (mscAccess s ctx k).msc i, v.2 = w.2 := by
  unfold mscAccess
  dsimp only
  split
  · next hit =>
    obtain ⟨w, held, same⟩ := List.any_eq_true.mp hit
    refine ⟨?_, fun i w held => ?_⟩
    · rw [tget_tput_same]
      have mine : w ∈ (tget [] s.msc (mscIndex k)).filter (fun w => w.2 == k / 128) := List.mem_filter.mpr ⟨held, same⟩
      obtain ⟨v, rest, first⟩ := List.exists_cons_of_ne_nil (List.ne_nil_of_mem mine)
      have v_mine : v ∈ (tget [] s.msc (mscIndex k)).filter (fun w => w.2 == k / 128) := by rw [first]; exact List.mem_cons_self
      rw [first]
      exact ⟨v, by simp, by simpa using (List.mem_filter.mp v_mine).2⟩
    · by_cases here : i = mscIndex k
      · subst here
        rw [tget_tput_same]
        refine ⟨w, ?_, rfl⟩
        have held' := List.mem_of_mem_take held
        by_cases mine : w.2 = k / 128
        · exact List.mem_append_left _ (List.mem_filter.mpr ⟨held', by simpa using mine⟩)
        · exact List.mem_append_right _ (List.mem_filter.mpr ⟨held', by simpa using mine⟩)
      · rw [tget_tput_ne _ _ _ here]
        exact ⟨w, List.mem_of_mem_take held, rfl⟩
  · rw [(settleLines_kept _ _).2.1]
    dsimp only
    rw [show (mscSample s ctx (k / 128 % 262144)).msc = s.msc from rfl]
    refine ⟨?_, fun i w held => ?_⟩
    · rw [tget_tput_same]
      exact ⟨(ctx, k / 128), insertLine_first _ _ _ (by simp), rfl⟩
    · by_cases here : i = mscIndex k
      · subst here
        rw [tget_tput_same]
        exact ⟨w, insertLine_rest _ _ _ held, rfl⟩
      · rw [tget_tput_ne _ _ _ here]
        exact ⟨w, List.mem_of_mem_take held, rfl⟩

-- Poison

/-- A line that stands among the first 15 of its set of the memory-side cache. -/
def Recent (s : State) (k : Nat) : Prop := ∃ w ∈ (tget [] s.msc (mscIndex k)).take 15, w.2 = k / 128

/-- The line stands in the memory-side cache. -/
def Below (s : State) (k : Nat) : Prop := ∃ w ∈ tget [] s.msc (mscIndex k), w.2 = k / 128

theorem leaveSlice_below {k : Nat} (recent : Recent s k) (n : Nat) : Below (leaveSlice s n) k ∧ (leaveSlice s n).poison = s.poison := by
  obtain ⟨w, held, same⟩ := recent
  unfold leaveSlice
  dsimp only
  split
  · obtain ⟨poison, msc, -⟩ := settleLine_kept { s with sliceLines := s.sliceLines.filter (fun x => x != n), forgotten := n :: s.forgotten } n
    exact ⟨⟨w, by rw [msc]; exact List.mem_of_mem_take held, same⟩, poison⟩
  · obtain ⟨v, held', same'⟩ := (mscAccess_msc { s with sliceLines := s.sliceLines.filter (fun x => x != n), forgotten := n :: s.forgotten }
      ‹Nat› (n * 128)).2 (mscIndex k) w held
    exact ⟨⟨v, held', same'.trans same⟩, (mscAccess_kept _ _ _).1⟩

theorem leaveSlice_slice (s : State) (n : Nat) : (leaveSlice s n).sliceLines = s.sliceLines.filter (fun x => x != n) := by
  unfold leaveSlice
  dsimp only
  split
  · exact (settleLine_kept _ _).2.2
  · exact (mscAccess_kept _ _ _).2

theorem makeRoom_below {k : Nat} (recent : Recent s k) (n : Nat) : Below (makeRoom s n) k ∧ (makeRoom s n).poison = s.poison := by
  have here : Below s k := recent.imp fun w held => ⟨List.mem_of_mem_take held.1, held.2⟩
  unfold makeRoom
  dsimp only
  split
  · exact ⟨here, rfl⟩
  · split
    · exact leaveSlice_below recent _
    · exact ⟨here, rfl⟩

/-- A line that comes to its slice is in a cache; nothing is poisoned. -/
theorem fillSlice_cachedLine (s : State) (ctx : Nat) (loc : Loc) :
    (fillSlice s ctx loc).poison = s.poison ∧ (homeOf loc.key < 2 → cached (fillSlice s ctx loc) loc.key = true) := by
  unfold fillSlice
  dsimp only
  split
  · next fills =>
    have recent : Recent (mscAccess s ctx loc.key) loc.key := (mscAccess_msc s ctx loc.key).1
    obtain ⟨⟨w, held, same⟩, poison⟩ := makeRoom_below recent loc.slice
    refine ⟨poison.trans (mscAccess_kept ..).1, fun _ => ?_⟩
    unfold cached
    exact Bool.or_eq_true_iff.mpr (.inr (List.any_eq_true.mpr ⟨w, held, by simpa using same⟩))
  · next stays =>
    refine ⟨rfl, fun low => ?_⟩
    have held : s.sliceLines.contains (loc.key / 128) = true := by
      by_contra gone
      exact stays ⟨low, by simpa using gone⟩
    unfold cached
    rw [held]
    rfl

theorem cached_of_line {a b : Nat} (same : a / 128 = b / 128) : cached s a = cached s b := by
  unfold cached mscIndex
  rw [homeOf_of_line same, same]

/-- A byte of the line that an access touches reads no poison where it read none before. -/
theorem touchLine_sound {ctx k : Nat} {loc : Loc} (line : k / 128 = loc.key / 128) (sound : poisoned s k = false) :
    poisoned (touchLine s ctx loc) k = false := by
  obtain ⟨-, -, dies, -, -, -, -, mgmt⟩ := (touchLine_cached s ctx loc).1.rest
  unfold touchLine at dies mgmt ⊢
  dsimp only at dies mgmt ⊢
  split
  · exact sound
  · next bears =>
    rw [if_neg bears] at dies mgmt
    obtain ⟨poison, caught⟩ := fillSlice_cachedLine s ctx loc
    unfold poisoned at sound ⊢
    dsimp only at sound ⊢
    simp only [Bool.or_eq_false_iff] at sound ⊢
    obtain ⟨⟨clear_, keyed⟩, channel⟩ := sound
    rw [poison, dies]
    refine ⟨⟨clear_, ?_⟩, channel⟩
    by_cases low : homeOf k < 2
    · unfold keyless
      rw [cached_of_line line, caught (homeOf_of_line line ▸ low)]
      simp
    · unfold keyless
      simp [low]

theorem touchLine_pieces {ctx : Nat} {loc : Loc} (sound : badPieces s (lineAddr loc.key) = []) :
    badPieces (touchLine s ctx loc) (lineAddr loc.key) = [] := by
  unfold badPieces at sound ⊢
  rw [List.filter_eq_nil_iff] at sound ⊢
  intro o held
  have small : o < 128 := by
    rcases List.mem_cons.mp held with rfl | held
    · omega
    · rw [List.mem_singleton.mp held]
      omega
  have clear_ : poisoned s (lineAddr loc.key + o) = false := by simpa using sound o held
  rw [touchLine_sound (by unfold lineAddr; omega) clear_]
  exact Bool.false_ne_true

end Sys2Proof.Machine
end


section
/-! O50. Registers, Data, Leaves and updates; SLD and SCHG; lines that leave L1 or their slice, and lost entries (09). -/

namespace Sys2Proof.Machine

variable {s t : State}

-- The directory

theorem setDir_find (s : State) (d : DirEntry) : findDir (setDir s d) d.line = some d := by
  unfold findDir setDir
  simp

theorem sendMsg_dir (s : State) (d : DirEntry) (c : Nat) (k : MsgKind) (f : Sys2Proof.View) (es : List Nat) (cause re : Nat) (inv : Bool) :
    (sendMsg s d c k f es cause re inv).1.dir = s.dir := rfl

/-- R217: the Register that a home finds, without an entry for the line: Data goes to the core, and the entry lists it alone. -/
theorem register_answers {msg : Nat} {m : Msg} {loc : Loc} (found : s.msgs.find? (fun x => x.id == msg && x.kind == .register) = some m)
    (first : firstReq s m = true) (place : ∀ b, locate s m.line.ctx m.line.addr .read b = .ok loc) (sound : badPieces s (lineAddr loc.key) = [])
    (none_ : findDir s m.line = none) (settled : Settled s) :
    ∃ r d x, exec (.register msg) s = .next r ∧ findDir r m.line = some d ∧ d.coarse = false ∧ d.t = m.t ∧
      d.sharers = [{ core := m.core, f := m.f, inv := m.inv }] ∧ x ∈ r.msgs ∧ x.kind = .data true ∧ x.core = m.core ∧ x.line = m.line ∧
      x.f = m.f ∧ x.elems = (lineElems m.t (rdBytes (markLeaf s loc false) (lineAddr loc.key) 128)).map (viewOf m.t m.f) := by
  let v := dropMsg s msg
  let w := touchLine (markLeaf v loc false) m.line.ctx loc
  have lines : Lines v w := (markLeaf_lines v loc false).trans (touchLine_cached _ _ _).1
  have sound' : ¬ badPieces w (lineAddr loc.key) ≠ [] := by
    have marked : badPieces (markLeaf v loc false) (lineAddr loc.key) = [] := by
      rw [← sound]
      refine List.filter_congr fun o _ => ?_
      unfold markLeaf
      split <;> rfl
    exact not_not.mpr (touchLine_pieces marked)
  have bytes : rdBytes w (lineAddr loc.key) 128 = rdBytes (markLeaf s loc false) (lineAddr loc.key) 128 := by
    have mem : w.mem = (markLeaf s loc false).mem := by
      have marked : Settled (markLeaf v loc false) := (markLeaf_lines v loc false).settled settled
      rw [touchLine_mem _ _ _ marked]
      exact markLeaf_mem_congr (show v.mem = s.mem from rfl) _ _
    simp only [rdBytes, rdByte, mem]
  have new : findDir w m.line = none := by
    rw [findDir, lines.rest.2.2.2.1]
    exact none_
  let elems := fun f => (lineElems m.t (rdBytes w (lineAddr loc.key) 128)).map (viewOf m.t f)
  let entry : DirEntry := { line := m.line, t := m.t, seq := 0, coarse := false, sharers := [], groups := [] }
  let listed : DirEntry := { entry with sharers := [{ core := m.core, f := m.f, inv := m.inv }] }
  let sent := sendMsg w listed m.core (.data true) m.f (elems m.f) 0 m.id m.inv
  have run : exec (.register msg) s = .next (setDir sent.1 sent.2) := by
    change execRegister msg s = _
    unfold execRegister
    simp only [found, first, Bool.not_true, Bool.false_eq_true, if_false]
    have place' (b : Bool) : locate (dropMsg s msg) m.line.ctx m.line.addr .read b = .ok loc := place b
    simp only [place']
    rw [if_neg sound', show findDir (touchLine (markLeaf (dropMsg s msg) loc false) m.line.ctx loc) m.line = none from new]
    exact if_neg fun no => no rfl
  let told : Msg := { id := w.fresh, kind := .data true, core := m.core, line := m.line, stamp := 1, f := m.f, elems := elems m.f, cause := 0,
                      re := m.id, inv := m.inv, t := m.t }
  refine ⟨_, sent.2, told, run, setDir_find sent.1 sent.2, rfl, rfl, rfl, ?_, rfl, rfl, rfl, rfl,
    congrArg (fun bs => (lineElems m.t bs).map (viewOf m.t m.f)) bytes⟩
  exact List.mem_append_right _ List.mem_cons_self

/-- R217: a Leave strikes its core out of the entry of the line. -/
theorem leave_strikes {msg : Nat} {m : Msg} {d : DirEntry} (found : s.msgs.find? (fun x => x.id == msg && x.kind == .leave) = some m)
    (first : firstReq s m = true) (entry : findDir s m.line = some d) (fine : d.coarse = false) :
    ∃ r, exec (.leave msg) s = .next r ∧ r.mem = s.mem ∧
      findDir r m.line = (let l := d.sharers.filter (fun x => x.core != m.core); if l = [] then none else some { d with sharers := l }) := by
  have line : d.line = m.line := by simpa using List.find?_some entry
  have entry' : findDir (dropMsg s msg) m.line = some d := entry
  let left_ : DirEntry := { d with sharers := d.sharers.filter (fun x => x.core != m.core) }
  have run : exec (.leave msg) s = .next (if left_.sharers.isEmpty then { dropMsg s msg with dir := s.dir.filter (fun e => e.line != m.line) }
      else setDir (dropMsg s msg) left_) := by
    change execLeave msg s = _
    unfold execLeave
    simp only [found, first, Bool.not_true, Bool.false_eq_true, if_false, entry']
    rw [if_neg (by rw [fine]; exact Bool.false_ne_true)]
    split <;> rfl
  rw [run]
  by_cases empty : left_.sharers = []
  · rw [if_pos (List.isEmpty_iff.mpr empty)]
    refine ⟨_, rfl, rfl, ?_⟩
    rw [if_pos empty]
    unfold findDir
    simp
  · rw [if_neg (by simpa using empty)]
    refine ⟨_, rfl, rfl, ?_⟩
    rw [if_neg empty, ← line]
    exact setDir_find _ left_

-- The table of a core (R218, R225)

theorem modSub_line (core : Nat) (here : core < s.cores.length) (l : Line) (f : SubLine → SubLine) (same : ∀ x, (f x).line = x.line) :
    subLine (modSub s core l f) core l = (subLine s core l).map f := by
  unfold subLine modSub
  rw [coreOf_modCore _ _ _ here, find_modWhere _ _ _ _ fun x => by rw [same]]
  cases found : (coreOf s core).sub.find? (fun x => x.line == l) with
  | none => rfl
  | some x => exact congrArg some (if_pos (List.find?_some (p := fun x : SubLine => x.line == l) found))

/-- The region that holds a line, once its table or its count has changed. -/
def regionAt (s : State) (core : Nat) (l : Line) : Option Region := (coreOf s core).regions.find? fun r => r.holds l

theorem regionAt_modSub (core : Nat) (l k : Line) (f : SubLine → SubLine) : regionAt (modSub s core l f) core k = regionAt s core k := by
  unfold regionAt modSub
  by_cases here : core < s.cores.length
  · rw [coreOf_modCore _ _ _ here]
  · simp [coreOf, modCore, List.getD_eq_getElem?_getD, List.getElem?_eq_none (Nat.le_of_not_lt here)]

/-- R219: a region without a counter word counts a change. -/
theorem bumpCounter_counts {core : Nat} {g : Region} {l : Line} (here : core < s.cores.length) (found : regionAt s core l = some g)
    (plain : g.caddr = 0) : ∃ h, regionAt (bumpCounter s core g) core l = some h ∧ h.count = g.count + 1 ∧
      subLine (bumpCounter s core g) core l = subLine s core l ∧ (bumpCounter s core g).mem = s.mem := by
  let counted : Region → Region := fun x => { x with count := g.count + 1 }
  have run : bumpCounter s core g = modCore s core (fun c => { c with regions := modWhere (fun x => x == g) counted c.regions }) := by
    unfold bumpCounter
    rw [if_pos (by rw [plain]; rfl)]
  refine ⟨counted g, ?_, rfl, ?_, ?_⟩ <;> rw [run]
  · unfold regionAt at found ⊢
    rw [coreOf_modCore _ _ _ here, find_modWhere _ (fun r => r.holds l) counted _ fun _ => rfl, found, Option.map_some, if_pos (by simp)]
  · unfold subLine
    rw [coreOf_modCore _ _ _ here]
  · rfl

/-- R218: Data and updates reach the core's table. -/
theorem apply_reaches {core msg : Nat} {m : Msg} {g : Region} {x : SubLine} (here : core < s.cores.length)
    (found : s.msgs.find? (fun y => y.id == msg && y.core == core) = some m)
    (next : (((s.msgs.filter (fun y => y.toCore && y.line == m.line)).take 64).find? (fun y => y.core == core)).map (·.id) = some msg)
    (kind : (m.kind = .data true ∧ x.asked = some m.re) ∨ (m.kind = .update ∧ x.registered = true ∧ g.caddr = 0))
    (region : regionAt s core m.line = some g) (line : subLine s core m.line = some x) :
    ∃ r y h, exec (.apply core msg) s = .next r ∧ subLine r core m.line = some y ∧ y.view = m.elems ∧ y.f = m.f ∧ y.registered = true ∧
      y.next = some ((m.stamp + 1) % 256) ∧ regionAt r core m.line = some h ∧
      h.count = (if m.kind = .update then g.count + 1 else g.count) ∧ r.mem = s.mem := by
  have mine : m.core = core := by
    have := List.find?_some found
    simp only [Bool.and_eq_true, beq_iff_eq] at this
    exact this.2
  subst mine
  let v := dropMsg s msg
  let told (w : State) : State := { w with hostWait := w.hostWait.filter (fun c => w.msgs.any (fun x => x.cause == c)) }
  have run : exec (.apply m.core msg) s = .next (told (applyMsg v m)) := by
    change execApply m.core msg s = _
    unfold execApply
    simp only [found]
    rw [if_neg (by rw [List.head?_filter, next]; exact not_not.mpr rfl)]
  have region' : (coreOf v m.core).regions.find? (fun r => r.holds m.line) = some g := region
  have line' : subLine v m.core m.line = some x := line
  rcases kind with ⟨data, asked⟩ | ⟨update, registered, plain⟩
  · let filled : SubLine → SubLine := fun y => { y with view := m.elems, f := m.f, inv := m.inv, registered := true, asked := none,
                                                        refused := none, next := some ((m.stamp + 1) % 256) }
    have set_ : applyMsg v m = modSub v m.core m.line filled := by
      unfold applyMsg
      simp only [region', line', data]
      rw [if_neg (not_not.mpr asked)]
      rfl
    refine ⟨_, filled x, g, run, ?_, rfl, rfl, rfl, rfl, ?_, by rw [data]; rfl, ?_⟩ <;> rw [set_]
    · exact (modSub_line (s := v) m.core here m.line filled fun _ => rfl).trans (by rw [line']; rfl)
    · exact (regionAt_modSub (s := v) m.core m.line m.line filled).trans region
    · rfl
  · let filled : SubLine → SubLine := fun y => { y with view := m.elems, f := m.f, inv := false, next := some ((m.stamp + 1) % 256) }
    have set_ : applyMsg v m = bumpCounter (modSub v m.core m.line filled) m.core g := by
      unfold applyMsg
      simp only [region', line', update, registered, if_true]
      rfl
    have here' : m.core < (modSub v m.core m.line filled).cores.length := by simpa [modSub, modCore, v, dropMsg] using here
    obtain ⟨h, counted, count, lines, mem⟩ := bumpCounter_counts (l := m.line) here'
      ((regionAt_modSub (s := v) m.core m.line m.line filled).trans region) plain
    refine ⟨_, filled x, h, run, ?_, rfl, rfl, registered, rfl, ?_, by rw [count, if_pos update], ?_⟩ <;> rw [set_]
    · exact lines.trans ((modSub_line (s := v) m.core here m.line filled fun _ => rfl).trans (by rw [line']; rfl))
    · exact counted
    · exact mem

/-- R225: L1 evicts a registered line, and a Leave goes. -/
theorem evict_leaves {core : Nat} {line : Line} {x : SubLine} {z : Region} (here : core < s.cores.length) (found : subLine s core line = some x)
    (region : regionAt s core line = some z) (registered : x.registered = true)
    (crowded : ∀ e ∈ (coreOf s core).mem.snap, Config.l1Set (e.1.addr / 128) ≠ Config.l1Set (line.addr / 128)) :
    ∃ r y m, exec (.l1EvictRegistered core line) s = .next r ∧ subLine r core line = some y ∧ y.registered = false ∧
      y.asked = none ∧ y.view = [] ∧ r.msgs = s.msgs ++ [m] ∧ m.kind = .leave ∧ m.core = core ∧ m.line = line ∧ r.mem = s.mem := by
  let told : Msg := { id := s.fresh, kind := .leave, core := core, line := line, stamp := 0, f := x.f, elems := [], cause := 0, re := 0, inv := false,
                      t := z.t }
  let v : State := { s with fresh := s.fresh + 1, msgs := s.msgs ++ [told] }
  let left_ : SubLine → SubLine := fun y => { y with registered := false, asked := none, view := [] }
  have run : exec (.l1EvictRegistered core line) s = .next (modSub v core line left_) := by
    change execL1EvictRegistered core line s = _
    unfold regionAt at region
    unfold execL1EvictRegistered
    simp only [found, region]
    exact if_pos ⟨registered, by simpa using crowded⟩
  exact ⟨_, left_ x, told, run, (modSub_line (s := v) core here line left_ fun _ => rfl).trans (by
    rw [show subLine v core line = some x from found]; rfl), rfl, rfl, rfl, rfl, rfl, rfl, rfl, rfl⟩

-- Lines that leave their slice, and lost entries (R225)

/-- Invalidations go to the cores that an entry is taken to name. -/
theorem sendAll_tells (d : DirEntry) (k : MsgKind) (f : Sys2Proof.View) (es : List Nat) (cores : List Nat) (s : State) :
    Told s (sendAll s d cores k f es).1 ∧ (sendAll s d cores k f es).1.dir = s.dir ∧ (∀ m ∈ s.msgs, m ∈ (sendAll s d cores k f es).1.msgs) ∧
    ∀ c ∈ cores, ∃ m ∈ (sendAll s d cores k f es).1.msgs, m.kind = k ∧ m.core = c ∧ m.line = d.line := by
  have each (re : Nat) (l : Line) : ∀ a : State × DirEntry, a.2.line = l →
      let r := (cores.foldl (fun a c => sendMsg a.1 a.2 c k f es 0 re) a).1
      Told a.1 r ∧ r.dir = a.1.dir ∧ (∀ m ∈ a.1.msgs, m ∈ r.msgs) ∧ ∀ c ∈ cores, ∃ m ∈ r.msgs, m.kind = k ∧ m.core = c ∧ m.line = l := by
    induction cores with
    | nil => exact fun a _ => ⟨.refl _, rfl, fun _ => id, by simp⟩
    | cons c cores ih =>
      intro a line
      let b := sendMsg a.1 a.2 c k f es 0 re
      obtain ⟨told, dir, kept, rest⟩ := ih b line
      let m : Msg := { id := a.1.fresh, kind := k, core := c, line := a.2.line, stamp := (a.2.seq + 1) % 256, f := f, elems := es, cause := 0,
                       re := re, inv := false, t := a.2.t }
      have sent : m ∈ b.1.msgs := List.mem_append_right _ List.mem_cons_self
      refine ⟨(sendMsg_told _ _ _ _ _ _ _ _ _).trans told, dir, fun m held => kept m (List.mem_append_left _ held), fun e held => ?_⟩
      rcases List.mem_cons.mp held with rfl | held
      · exact ⟨m, kept m sent, rfl, rfl, line⟩
      · exact rest e held
  exact each _ d.line (s, d) rfl

/-- No entry is kept of a line. -/
def Forgotten (s : State) (l : Line) : Prop := ∀ e ∈ s.dir, e.line ≠ l

theorem Forgotten.find {l : Line} (gone : Forgotten s l) : findDir s l = none :=
  List.find?_eq_none.mpr fun e held => by simpa using gone e held

/-- Entries that are forgotten, with the cores that each is taken to name. -/
theorem forgetEntries_tell (cores : DirEntry → List Nat) (ds : List DirEntry) : ∀ s : State,
    let r := ds.foldl (fun s d => forgetEntry s d (cores d)) s
    Told s r ∧ (∀ m ∈ s.msgs, m ∈ r.msgs) ∧ (∀ l, Forgotten s l → Forgotten r l) ∧
    ∀ d ∈ ds, Forgotten r d.line ∧ ∀ c ∈ cores d, ∃ m ∈ r.msgs, m.kind = .invalidation ∧ m.core = c ∧ m.line = d.line := by
  induction ds with
  | nil => exact fun s => ⟨.refl _, fun _ => id, fun _ => id, by simp⟩
  | cons d ds ih =>
    intro s
    obtain ⟨told, dir, kept, tells⟩ := sendAll_tells d .invalidation .exact [] (cores d) s
    obtain ⟨told', kept', gone', rest⟩ := ih (forgetEntry s d (cores d))
    have struck : Forgotten (forgetEntry s d (cores d)) d.line := fun e held => by simpa using (List.mem_filter.mp held).2
    have first : Told s (forgetEntry s d (cores d)) := told.trans ⟨_, _, _, rfl, Nat.le_refl _⟩
    refine ⟨first.trans told', fun m held => kept' m (kept m held), fun l gone => gone' l fun e held => ?_, fun e held => ?_⟩
    · exact gone e (dir ▸ (List.mem_filter.mp held).1)
    · rcases List.mem_cons.mp held with rfl | held
      · refine ⟨gone' _ struck, fun c inside => ?_⟩
        obtain ⟨m, sent, about⟩ := tells c inside
        exact ⟨m, kept' m sent, about⟩
      · exact rest e held

/-- R197, R225: a slice drops a line. -/
theorem sliceDropLine_drops {phys : Nat} (low : homeOf (phys * 128) < 2) (held : s.sliceLines.contains phys = true)
    (may : entriesAt s phys = [] ∨ mustDrop s phys = true) :
    ∃ r, exec (.sliceDropLine phys) s = .next r ∧ r.sliceLines.contains phys = false ∧ (Settled s → r.mem = s.mem) ∧
      ∀ d ∈ entriesAt s phys, findDir r d.line = none ∧
        ∀ c ∈ d.cores, ∃ m ∈ r.msgs, m.kind = .invalidation ∧ m.core = c ∧ m.line = d.line := by
  let v := (entriesAt s phys).foldl (fun s d => forgetEntry s d d.cores) s
  obtain ⟨⟨_, _, _, told, -⟩, -, -, each⟩ := forgetEntries_tell DirEntry.cores (entriesAt s phys) s
  have run : exec (.sliceDropLine phys) s = .next (leaveSlice v phys) := by
    change execSliceDropLine phys s = _
    unfold execSliceDropLine
    refine if_neg fun why => ?_
    rcases why with high | absent | ⟨named, stays⟩
    · omega
    · exact absurd held (by simpa using absent)
    · rcases may with none_ | must
      · simp [none_] at named
      · simp [must] at stays
  obtain ⟨lines, mem⟩ := leaveSlice_cached v phys
  obtain ⟨-, -, -, dir, msgs, -⟩ := lines.rest
  have older : Settled s → Settled v ∧ v.mem = s.mem := fun settled => by
    have told' : v = _ := told
    rw [told']
    exact ⟨settled, rfl⟩
  refine ⟨_, run, ?_, fun settled => (mem (older settled).1).trans (older settled).2, fun d named => ?_⟩
  · rw [leaveSlice_slice]
    simp
  · obtain ⟨gone, tells⟩ := each d named
    refine ⟨?_, fun c inside => ?_⟩
    · rw [findDir, dir]
      exact Forgotten.find (s := v) gone
    · rw [msgs]
      exact tells c inside

/-- R225: an entry that is lost. -/
theorem directoryError_tells (s : State) (phys : Nat) (gs : Option (List Nat)) :
    ∃ r, exec (.directoryError phys gs) s = .next r ∧ r.mem = s.mem ∧ ∀ d ∈ entriesAt s phys, findDir r d.line = none ∧
      ∀ c, (gs = none → c < 256) → (∀ l, gs = some l → c / 8 ∈ l) → ∃ m ∈ r.msgs, m.kind = .invalidation ∧ m.core = c ∧ m.line = d.line := by
  obtain ⟨⟨_, _, _, told, -⟩, -, -, each⟩ := forgetEntries_tell (fun _ => (gs.getD (List.range 32)).flatMap groupCores) (entriesAt s phys) s
  refine ⟨directoryLost s phys gs, rfl, (congrArg State.mem told : (directoryLost s phys gs).mem = _), fun d named => ?_⟩
  obtain ⟨gone, tells⟩ := each d named
  refine ⟨gone.find, fun c unknown known => tells c ?_⟩
  have group : c / 8 ∈ gs.getD (List.range 32) := by
    cases gs with
    | none => exact List.mem_range.mpr (by have := unknown rfl; omega)
    | some l => exact known l rfl
  exact List.mem_flatMap.mpr ⟨c / 8, group, List.mem_map.mpr ⟨c % 8, List.mem_range.mpr (by omega), by omega⟩⟩

-- SLD and SCHG (R224, R233, R235)

section
variable {team g i idx : Nat} {p : Part}

theorem exec_sldBind_sld {a : DWord} {k : Nat} {asked : Option Nat} {d : Dst} (part : partOf s team g i idx = some p)
    (kind : p.op.kind = .sld a k asked d) : exec (.sldBind team g i idx) s = .next (sldPart s p a.toNat asked d) := by
  change execSldBind team g i idx s = _
  simp only [execSldBind, part, kind]

/-- A part that delivers one word. -/
theorem delivers_word (part : partOf s team g i idx = some p) (teams : t.teams = s.teams) (b w : Nat) (x : Word) (takes : p.lane.takes p.op.op = true) :
    let r := donePart (writeResult t p.uid p.g p.i p.op.op { name := .g b, words := w } [x]) p
    r.mem = t.mem ∧ ∃ m, findLane r team g i = some m ∧ m.queue = p.lane.queue.eraseIdx idx ∧
      ∀ n, m.reg n = if n = b then x else p.lane.reg n := by
  obtain ⟨mem, m, lane, queue, -, reg⟩ := delivered part teams b w [x] takes
  refine ⟨mem, m, lane, queue, fun n => (reg n).trans ?_⟩
  by_cases same : n = b
  · subst same
    rw [if_pos ⟨Nat.le_refl _, Nat.lt_succ_self _⟩, if_pos rfl]
    simp
  · rw [if_neg (by simp; omega), if_neg same]

theorem sld_gives {a : DWord} {k b w : Nat} {asked : Option Nat} {z : Region} {x : SubLine} (part : partOf s team g i idx = some p)
    (kind : p.op.kind = .sld a k asked { name := .g b, words := w }) (takes : p.lane.takes p.op.op = true)
    (region : teamRegion s p.core team (viewLine p.team.ctx a.toNat) = some z) (line : subLine s p.core (viewLine p.team.ctx a.toNat) = some x)
    (registered : x.registered = true) :
    ∃ r m, exec (.sldBind team g i idx) s = .next r ∧ findLane r team g i = some m ∧ m.queue = p.lane.queue.eraseIdx idx ∧ r.mem = s.mem ∧
      ∀ n, m.reg n = if n = b then sldValue z.t x.f (x.view.getD (a.toNat % 128 / etypeBytes z.t) 0) else p.lane.reg n := by
  obtain ⟨mem, m, lane, queue, reg⟩ := delivers_word part rfl b w (sldValue z.t x.f (x.view.getD (a.toNat % 128 / etypeBytes z.t) 0)) takes
  refine ⟨_, m, (exec_sldBind_sld part kind).trans (congrArg Host.Outcome.next ?_), lane, queue, mem, reg⟩
  rw [← (partOf_some part).1] at region
  unfold sldPart
  simp only [Part.ctx, region, line, registered, if_true]

theorem schg_reads {a : DWord} {b w : Nat} (part : partOf s team g i idx = some p) (kind : p.op.kind = .schg a { name := .g b, words := w })
    (takes : p.lane.takes p.op.op = true) :
    ∃ r m, exec (.sldBind team g i idx) s = .next r ∧ findLane r team g i = some m ∧ m.queue = p.lane.queue.eraseIdx idx ∧ r.mem = s.mem ∧
      ∀ n, m.reg n = (let v := match teamRegion s p.core team (viewLine p.team.ctx a.toNat) with
          | some z => z.count
          | none => 0xFFFFFFFFFFFFFFFF
        if n = b then lo32 v else if n = b + 1 then hi32 v else p.lane.reg n) := by
  let v : DWord := match teamRegion s p.core team (viewLine p.team.ctx a.toNat) with
    | some z => z.count
    | none => 0xFFFFFFFFFFFFFFFF
  obtain ⟨mem, m, lane, queue, -, reg⟩ := delivered part rfl b w [lo32 v, hi32 v] takes
  refine ⟨_, m, ?_, lane, queue, mem, fun n => (reg n).trans ?_⟩
  · change execSldBind team g i idx s = _
    simp only [execSldBind, part, kind, schgPart, Part.ctx, (partOf_some part).1]
    rfl
  · change _ = if n = b then lo32 v else if n = b + 1 then hi32 v else p.lane.reg n
    by_cases first : n = b
    · subst first
      rw [if_pos (by simp), if_pos rfl]
      simp
    · by_cases second : n = b + 1
      · subst second
        rw [if_pos (by simp), if_neg first, if_pos rfl]
        simp
      · rw [if_neg (by simp; omega), if_neg first, if_neg second]

theorem peersld_gives {peer k b w : Nat} {a : DWord} {asked : Option Nat} {z z' : Region} {x y : SubLine} (part : partOf s team g i idx = some p)
    (kind : p.op.kind = .sld a k asked { name := .g b, words := w }) (takes : p.lane.takes p.op.op = true)
    (region : teamRegion s p.core team (viewLine p.team.ctx a.toNat) = some z) (line : subLine s p.core (viewLine p.team.ctx a.toNat) = some x)
    (line' : subLine s peer (viewLine p.team.ctx a.toNat) = some y)
    (region' : (coreOf s peer).regions.find? (fun r => r.holds (viewLine p.team.ctx a.toNat)) = some z')
    (group : groupOf peer = groupOf p.core) (other : peer ≠ p.core) (away : x.registered = false) (unknown : x.next = none)
    (there : y.registered = true) (format : y.f = z.f) (type : z'.t = z.t) :
    ∃ r m, exec (.peersld team g i idx peer) s = .next r ∧ findLane r team g i = some m ∧ m.queue = p.lane.queue.eraseIdx idx ∧ r.mem = s.mem ∧
      ∀ n, m.reg n = if n = b then sldValue z.t y.f (y.view.getD (a.toNat % 128 / etypeBytes z.t) 0) else p.lane.reg n := by
  let v := if x.asked.isSome then s else (askLine s p.core z (viewLine p.team.ctx a.toNat)).1
  have asked_ : v.teams = s.teams ∧ v.mem = s.mem := by
    unfold v
    split <;> exact ⟨rfl, rfl⟩
  obtain ⟨mem, m, lane, queue, reg⟩ := delivers_word part asked_.1 b w (sldValue z.t y.f (y.view.getD (a.toNat % 128 / etypeBytes z.t) 0)) takes
  refine ⟨_, m, ?_, lane, queue, mem.trans asked_.2, reg⟩
  rw [← (partOf_some part).1] at region
  change execPeersld team g i idx peer s = _
  unfold execPeersld
  simp only [part, kind, Part.ctx, region, line, line', region']
  exact if_pos ⟨group, other, by rw [away]; rfl, there, format, type, by rw [unknown]⟩

end

/-- Settles O50. -/
theorem subscriptionsServed : Obligations.SubscriptionsServed := by
  intro s
  refine ⟨?register, ?apply, ?leave, ?sld, ?schg, ?peer, ?weight, ?evict, ?drop, ?lost⟩
  case register => exact fun msg m loc found first _ place sound none_ settled => register_answers found first place sound none_ settled
  case apply => exact fun core msg m g x here found next kind region line => apply_reaches here found next kind region line
  case leave => exact fun msg m d found first entry fine => leave_strikes found first entry fine
  case sld =>
    intro team g i idx p a k asked b w z x part kind takes region line registered
    exact sld_gives part kind takes region line registered
  case schg =>
    intro team g i idx p a b w part kind takes
    exact schg_reads part kind takes
  case peer =>
    intro team g i idx peer p a k asked b w z x y z' part kind takes region line line' region' group other away unknown there format type
    exact peersld_gives part kind takes region line line' region' group other away unknown there format type
  case weight =>
    intro t core r latch asked j a et
    refine ⟨fun z x region line registered format type => ?_, fun loc region place sound => ?_⟩
    · unfold subWeight
      simp only [show teamRegion s core t.uid (viewLine t.ctx (hAddr r j).1) = some z from region,
        show subLine s core (viewLine t.ctx (hAddr r j).1) = some x from line]
      exact if_pos (by simp [registered, format, type, et])
    · unfold subWeight
      simp only [show teamRegion s core t.uid (viewLine t.ctx (hAddr r j).1) = none from region,
        show locateFor s t (hAddr r j).1 .read = .ok loc from place]
      exact if_neg (by simpa using sound)
  case evict => exact fun core line x z here found region registered crowded => evict_leaves here found region registered crowded
  case drop => exact fun phys low held may => sliceDropLine_drops low held may
  case lost => exact fun phys gs => directoryError_tells s phys gs

end Sys2Proof.Machine
end

section
/-! O51. A prefetch fetches its element, and the fetch can make another line leave the caches: in the state of O32, the bytes that HBM
holds for that line then come to be what memory reads as. -/

namespace Sys2Proof.Machine

open Sys2Proof.Tests

/-- The team, its lane and its port meet what the statement asks of a prefetch, with the element at the lane's position alone missing. -/
def prefetches (t : Team) (l : Lane) : Bool :=
  let b := (t.gang 0).ports.getD 0 Port.unbound
  t.core == some 0 && l.live && b.st == .bound && b.isRead && !b.isRing &&
    decide ((l.pre.filter (fun e => e.port == 0)).length < 16) &&
    (List.range 16).filter (fun j => decide ((tget 0 l.pos 0).toNat + j < b.total) && !l.hasPre 0 ((tget 0 l.pos 0).toNat + j)) == [0]

theorem unsettled_prefetches : (findTeam unsettled 0).any (fun t => (findLane unsettled 0 0 0).any (prefetches t)) = true := by
  decide +kernel

theorem byteAfterPrefetch_eq : byteOf (exec (.prefetch 0 0 0 0) unsettled) = some 1 := by decide +kernel

/-- Refutes O51: the statement says that memory stays as it was at a prefetch, for every state. Here the element's line takes the place of
one under which HBM holds older bytes, and byte 128, which read as 0, reads as 1. -/
theorem not_streamsServed : ¬ Obligations.StreamsServed := by
  intro claim
  obtain ⟨t, found, ht⟩ := (Option.any_eq_true _ _).mp unsettled_prefetches
  obtain ⟨l, lane, hl⟩ := (Option.any_eq_true _ _).mp ht
  simp only [prefetches, Bool.and_eq_true, beq_iff_eq, decide_eq_true_eq, Bool.not_eq_true'] at hl
  obtain ⟨⟨⟨⟨⟨⟨core, live⟩, bound⟩, read⟩, noRing⟩, room⟩, missing⟩ := hl
  obtain ⟨-, -, prefetch, -⟩ := claim unsettled
  obtain ⟨r, -, -, acts, -, -, -, -, -, -, same, -⟩ := prefetch 0 0 0 0 t 0 l 0 found core lane live bound read noRing room missing
  have after : byteOf (.next r) = some 1 := (congrArg byteOf acts).symm.trans byteAfterPrefetch_eq
  rw [byteOf, same, byteBefore_eq] at after
  exact absurd after (by decide)

end Sys2Proof.Machine
end

section
/-! O52. Engine contexts: what a step does to the command at the head of a context, and what a command that retires leaves. -/

namespace Sys2Proof.Machine

variable {s r : State} {team e : Nat} {t : Team} {k : Cmd}

-- The command at the head of a context

theorem modify_head (q : List Cmd) (f : Cmd → Cmd) : (q.modify 0 f).head? = q.head?.map f := by
  cases q <;> rfl

/-- A change of the command at the head of a context. -/
theorem modHead_head (found : findTeam s team = some t) (within : e < t.ectx.length) (head : headCmd t e = some k) (f : Cmd → Cmd) :
    ∃ u, findTeam (modHead s team e f) team = some u ∧ headCmd u e = some (f k) ∧ e < u.ectx.length := by
  refine ⟨_, found_modHead found e f, ?_, by simpa using within⟩
  rw [headCmd, ctxOf_modify within, modify_head]
  exact congrArg (Option.map f) head

theorem engineServed_kept (s : State) (t : Team) (e : Nat) (k : Cmd) :
    (engineServed s t e k).teams = s.teams ∧ (engineServed s t e k).mem = s.mem := by
  unfold engineServed
  split <;> exact ⟨rfl, rfl⟩

/-- What ENGINE_COMMAND_BEGIN makes of the outcome of a command's work. -/
theorem execEngineCommandBegin_eq (found : findTeam s team = some t) (head : headCmd t e = some k) (may : mayBegin s t e k = true) :
    execEngineCommandBegin team e s =
      let b := k.begin_ t e s.fresh
      let w := beginWork s t e b
      let served := engineServed { w.s with fresh := w.s.fresh + 1 } t e b
      match w.out with
      | .done st => .next (modHead served team e (fun c => { w.upd (c.begin_ t e s.fresh) with st := .running st }))
      | .wait => .next (modHead served team e (fun c => w.upd (c.begin_ t e s.fresh)))
      | .stop c a => if c = .residency then .next s
        else .next (modHead served team e (fun x => { w.upd (x.begin_ t e s.fresh) with st := .running 6, fault := some (cmdFault t e b c a) })) := by
  unfold execEngineCommandBegin
  rw [found]
  dsimp only
  rw [head]
  dsimp only
  exact (if_neg (by simp [may])).trans rfl

/-- Handles that a command keeps as it begins. -/
theorem begin_handles {h : Nat} (fresh : k.begun = 0) (inside : h < t.handles.length) (free : t.pendingFor e h = false) :
    (k.begin_ t e s.fresh).handles.find? (fun x => x.1 == h) = some (h, t.handle h) := by
  have own : ∀ l : List Nat, h ∈ l → (l.filterMap (fun h => if t.pendingFor e h then none else some (h, t.handle h))).find? (fun x => x.1 == h) =
      some (h, t.handle h) := by
    intro l
    induction l with
    | nil => exact fun absent => absurd absent List.not_mem_nil
    | cons a l ih =>
      intro held
      by_cases same : a = h
      · subst same
        simp [free]
      · have later := ih (by simpa [Ne.symm same] using held)
        rw [List.filterMap_cons]
        split
        · exact later
        · next y here =>
          split at here
          · cases here
          · cases here
            rw [List.find?_cons_of_neg (by simpa using same), later]
  rw [Cmd.begin_, if_pos fresh]
  exact own _ (List.mem_range.mpr inside)

/-- A park of a context touches neither memory nor other parts of the command. -/
theorem parkCtx_parks (found : findTeam s team = some t) (within : e < t.ectx.length) (head : headCmd t e = some k) (a : Nat) :
    ∃ u, findTeam (parkCtx s team e a) team = some u ∧ headCmd u e = some { k with parked := true, asked := [] } ∧
      (parkCtx s team e a).mem = s.mem := by
  obtain ⟨u, foundU, headU, -⟩ := modHead_head found within head (fun k => { k with parked := true, asked := [] })
  have posted (s : State) : (postPage s t a).teams = s.teams ∧ (postPage s t a).mem = s.mem := by
    unfold postPage
    dsimp only
    split <;> exact ⟨rfl, rfl⟩
  refine ⟨u, ?_, headU, ?_⟩
  all_goals
    unfold parkCtx
    rw [found]
    dsimp only
  · rw [findTeam, (posted _).1]
    exact foundU
  · rw [(posted _).2]
    rfl

-- What a command that retires leaves of the rest

/-- What stands of a team: its timelines and the commands in their contexts, its handles, and the registers of its lanes. -/
def Team.standing (t : Team) : List (DWord × List Cmd) × List Handle × List (List (Tab Word)) :=
  (t.ectx.map fun c => (c.tl, c.queue), t.handles, t.gangs.map fun g => g.lanes.map Lane.regs)

/-- What a function says of every team. -/
def byTeam {β : Type} (f : Team → β) (s : State) : List (Nat × β) := s.teams.map fun t => (t.uid, f t)

theorem modTeam_byTeam {β : Type} (p : Team → β) (s : State) (u : Nat) (f : Team → Team) (same : ∀ t, (f t).uid = t.uid ∧ p (f t) = p t) :
    byTeam p (modTeam s u f) = byTeam p s := by
  unfold byTeam modTeam modWhere
  rw [List.map_map]
  refine List.map_congr_left fun t _ => ?_
  rw [Function.comp_apply]
  split
  · rw [(same t).1, (same t).2]
  · rfl

theorem map_byTeam {β : Type} {p : Team → β} (same : byTeam p r = byTeam p s) (u : Nat) : (findTeam r u).map p = (findTeam s u).map p := by
  have all (v : State) : (findTeam v u).map p = ((byTeam p v).find? (fun x => x.1 == u)).map Prod.snd := by
    rw [findTeam, byTeam, List.find?_map, Option.map_map]
    rfl
  rw [all, all, same]

/-- The team of which the same is said. -/
theorem found_byTeam {β : Type} {p : Team → β} (same : byTeam p r = byTeam p s) (found : findTeam s team = some t) :
    ∃ u, findTeam r team = some u ∧ p u = p t := by
  have both := map_byTeam same team
  rw [found] at both
  exact Option.map_eq_some_iff.mp both

theorem map_modify_same {α β : Type} (l : List α) (n : Nat) (f : α → α) (g : α → β) (same : ∀ x, g (f x) = g x) :
    (l.modify n f).map g = l.map g := by
  induction l generalizing n with
  | nil => cases n <;> rfl
  | cons a l ih => cases n <;> simp [same, ih]

theorem modGang_standings (s : State) (u g : Nat) (f : Gang → Gang) (same : ∀ x, (f x).lanes.map Lane.regs = x.lanes.map Lane.regs) :
    byTeam Team.standing (modGang s u g f) = byTeam Team.standing s :=
  modTeam_byTeam _ s u _ fun t => ⟨rfl, by rw [Team.standing, Team.standing, map_modify_same _ _ _ _ same]⟩

/-- A step has touched neither the commands, the timelines and the handles of any team, nor registers, tables and memory. -/
structure Untouched (s r : State) : Prop where
  teams : byTeam Team.standing r = byTeam Team.standing s
  tables : r.cores.map Core.tables = s.cores.map Core.tables
  mem : r.mem = s.mem

theorem Untouched.refl (s : State) : Untouched s s := ⟨rfl, rfl, rfl⟩

theorem Untouched.trans {r u : State} (h : Untouched s r) (k : Untouched r u) : Untouched s u :=
  ⟨k.teams.trans h.teams, k.tables.trans h.tables, k.mem.trans h.mem⟩

theorem Untouched.foldl {β : Type} (f : State → β → State) (keeps : ∀ s b, Untouched s (f s b)) (l : List β) (s : State) :
    Untouched s (l.foldl f s) :=
  List.foldlRecOn l f (motive := Untouched s) (.refl s) fun r h b _ => h.trans (keeps r b)

theorem modGang_untouched (s : State) (u g : Nat) (f : Gang → Gang) (same : ∀ x, (f x).lanes.map Lane.regs = x.lanes.map Lane.regs) :
    Untouched s (modGang s u g f) :=
  ⟨modGang_standings s u g f same, rfl, rfl⟩

theorem modLane_untouched (s : State) (u g i : Nat) (f : Lane → Lane) (same : ∀ l, (f l).regs = l.regs) :
    Untouched s (modLane s u g i f) := modGang_untouched s u g _ fun x => map_modify_same x.lanes i f Lane.regs same

theorem finishPart_untouched (s : State) (u g op ident : Nat) : Untouched s (finishPart s u g op ident) := by
  refine modGang_untouched s u _ _ fun _ => ?_
  split
  · rfl
  · dsimp only
    split
    · unfold Gang.subFlag
      split <;> rfl
    · rfl

theorem keepSave_untouched (s : State) (u : Nat) : Untouched s (keepSave s u) := by
  unfold keepSave
  split
  · exact .refl s
  · dsimp only
    split <;> exact ⟨rfl, rfl, rfl⟩

theorem acquireCore_untouched (s : State) (core : Nat) (sc : Scope) : Untouched s (acquireCore s core sc) := by
  refine ⟨?_, map_modify_same _ _ _ _ fun _ => rfl, rfl⟩
  unfold byTeam acquireCore
  dsimp only
  rw [List.map_map]
  refine List.map_congr_left fun t _ => ?_
  rw [Function.comp_apply]
  split
  · simp only [Team.standing, Prod.mk.injEq, true_and]
    refine List.ext_getElem (by simp) fun n h1 h2 => ?_
    have inside : n < t.gangs.length := by simpa using h2
    simp [Team.gang, List.getElem?_eq_getElem inside, Lane.dropPre, Function.comp_def]
  · rfl

theorem acquireAt_untouched (s : State) (core u g i : Nat) (sc : Scope) : Untouched s (acquireAt s core u g i sc) := by
  have lane := modLane_untouched { acquireCore s core sc with era := (acquireCore s core sc).era + 1 } u g i
    (Lane.acquireCode ((acquireCore s core sc).era + 1) (coreDie core) sc) fun _ => rfl
  exact (acquireCore_untouched s core sc).trans ⟨lane.teams, lane.tables, lane.mem⟩

theorem acquireCtx_untouched (s : State) (core u g i e : Nat) (v : DWord) : Untouched s (acquireCtx s core u g i e v) := by
  unfold acquireCtx
  split
  · exact .refl s
  · exact Untouched.foldl _ (fun s sc => acquireAt_untouched s core u g i sc) _ s

theorem endTry_untouched (s : State) (u g i pd : Nat) (b : Bool) (acq : State → State) (keeps : ∀ s, Untouched s (acq s)) :
    Untouched s (endTry s u g i pd b acq) := by
  have lane := modLane_untouched { s with fresh := s.fresh + 1 } u g i (fun l => l.wake.setPred pd b) fun _ => rfl
  have woken : Untouched s (dropHeld (modLane { s with fresh := s.fresh + 1 } u g i (fun l => l.wake.setPred pd b)) u g i) :=
    ⟨lane.teams, lane.tables, lane.mem⟩
  unfold endTry
  dsimp only
  split
  · exact woken.trans (keeps _)
  · exact woken

/-- The wait of one lane on a timeline ends, or goes on. -/
theorem wakeLane_untouched (s : State) (t : Team) (core g i : Nat) : Untouched s (wakeLane s t core g i) := by
  unfold wakeLane
  extract_lets l met h
  split
  · exact .refl s
  · split
    case h_1 =>
      split
      · exact (modLane_untouched s t.uid g i Lane.wake fun _ => rfl).trans (acquireCtx_untouched ..)
      · exact .refl s
    case h_2 =>
      split
      · exact .refl s
      · split
        · split
          · exact .refl s
          · exact ⟨rfl, rfl, rfl⟩
        · exact endTry_untouched _ _ _ _ _ _ _ fun s => acquireCtx_untouched ..
    case h_3 => exact .refl s

theorem wakeTimeline_untouched (s : State) (u : Nat) : Untouched s (wakeTimeline s u) := by
  unfold wakeTimeline
  split
  · exact .refl s
  · next t _ =>
    split
    · exact .refl s
    · exact Untouched.foldl _ (fun s g => Untouched.foldl _ (fun s i => wakeLane_untouched s t _ g i) _ s) _ s

theorem ctxOf_of_standing {u : Team} (same : u.standing = t.standing) (e : Nat) :
    (u.ctxOf e).tl = (t.ctxOf e).tl ∧ (u.ctxOf e).queue = (t.ctxOf e).queue := by
  have both := congrArg (fun l : List (DWord × List Cmd) => l[e]?) (congrArg Prod.fst same :)
  simp only [Team.standing, List.getElem?_map] at both
  rw [Team.ctxOf, Team.ctxOf, List.getD_eq_getElem?_getD, List.getD_eq_getElem?_getD]
  cases hu : u.ectx[e]? <;> cases ht : t.ectx[e]? <;> rw [hu, ht] at both <;> simp_all

theorem handle_of_standing {u : Team} (same : u.standing = t.standing) (h : Nat) : u.handle h = t.handle h := by
  have both := congrArg (fun x => x.2.1) same
  exact congrArg (fun l : List Handle => l.getD h Handle.empty) both

/-- A lane keeps its registers. -/
theorem Untouched.lane (h : Untouched s r) {g i : Nat} {l : Lane} (found : findLane s team g i = some l) :
    ∃ m, findLane r team g i = some m ∧ m.regs = l.regs := by
  have get (v : State) : (findLane v team g i).map Lane.regs =
      ((findTeam v team).map Team.standing).bind fun x => (x.2.2[g]?).bind fun y => y[i]? := by
    rw [findLane, findGang]
    cases findTeam v team with
    | none => rfl
    | some t => cases hg : t.gangs[g]? <;> simp [Team.standing, hg]
  have same := get r
  rw [map_byTeam h.teams, ← get s, found] at same
  exact Option.map_eq_some_iff.mp same

theorem Untouched.table (h : Untouched s r) (n : Nat) : (coreOf r n).tables = (coreOf s n).tables := by
  have same := congrArg (fun l : List (List (List Word)) => l[n]?) h.tables
  simp only [List.getElem?_map] at same
  rw [coreOf, coreOf, List.getD_eq_getElem?_getD, List.getD_eq_getElem?_getD]
  cases hr : r.cores[n]? <;> cases hs : s.cores[n]? <;> rw [hr, hs] at same <;> simp_all

-- A command that retires (R263, R266)

/-- The commands and timelines of a team's contexts, and its handles. -/
def Team.tracked (t : Team) : List (DWord × List Cmd) × List Handle := (t.ectx.map fun c => (c.tl, c.queue), t.handles)

/-- The words that a command leaves in the registers of the lane with an identity. -/
def Cmd.words (k : Cmd) (st id : Nat) : List Word :=
  match k.kind with
  | .mrd _ _ _ _ _ => tget [] k.res id
  | _ => [BitVec.ofNat 32 st]

/-- The registers of a lane after a result. -/
def written (b : Nat) (ws : List Word) (f : Nat → Word) (n : Nat) : Word := if b ≤ n ∧ n < b + ws.length then ws.getD (n - b) 0 else f n

theorem written_twice (b : Nat) (ws : List Word) (f : Nat → Word) : written b ws (written b ws f) = written b ws f := by
  funext n
  unfold written
  split <;> rfl

theorem setRegs_takes (l : Lane) (op b : Nat) (ws : List Word) : (l.setRegs b ws).takes op = l.takes op := by
  induction ws generalizing l b with
  | nil => rfl
  | cons w ws ih => exact (ih ..).trans rfl

theorem writeResult_kept (s : State) (u g i op : Nat) (d : Dst) (ws : List Word) :
    byTeam Team.tracked (writeResult s u g i op d ws) = byTeam Team.tracked s ∧ (writeResult s u g i op d ws).cores = s.cores ∧
    (writeResult s u g i op d ws).mem = s.mem := by
  unfold writeResult
  split
  · exact ⟨modTeam_byTeam _ s u _ fun _ => ⟨rfl, rfl⟩, rfl, rfl⟩
  · exact ⟨modTeam_byTeam _ s u _ fun _ => ⟨rfl, rfl⟩, rfl, rfl⟩
  · exact ⟨rfl, rfl, rfl⟩

theorem writeStatus_kept (s : State) (t : Team) (k : Cmd) (st : Nat) :
    byTeam Team.tracked (writeStatus s t k st) = byTeam Team.tracked s ∧ (writeStatus s t k st).cores = s.cores ∧
    (writeStatus s t k st).mem = s.mem := by
  unfold writeStatus
  split
  · exact ⟨rfl, rfl, rfl⟩
  · split
    · exact writeResult_kept ..
    · refine List.foldlRecOn k.lanes _ (motive := fun r => byTeam Team.tracked r = byTeam Team.tracked s ∧ r.cores = s.cores ∧ r.mem = s.mem)
        ⟨rfl, rfl, rfl⟩ fun r kept id _ => ?_
      split
      · exact kept
      · obtain ⟨teams, cores, mem⟩ := writeResult_kept r t.uid _ _ k.op _ _
        exact ⟨teams.trans kept.1, cores.trans kept.2.1, mem.trans kept.2.2⟩

/-- A lane stands at one place. -/
theorem ident_of_whereIs {id g i : Nat} (place : t.whereIs id = some (g, i)) : ((t.gang g).lane i).ident = id := by
  obtain ⟨g', -, here⟩ := List.exists_of_findSome?_eq_some place
  obtain ⟨i', at_, eq⟩ := Option.map_eq_some_iff.mp here
  obtain ⟨rfl, rfl⟩ := Prod.mk.inj eq
  obtain ⟨inside, holds, -⟩ := List.findIdx?_eq_some_iff_getElem.mp at_
  rw [Gang.lane, List.getD_eq_getElem?_getD, List.getElem?_eq_getElem inside]
  exact beq_iff_eq.mp (Bool.and_eq_true_iff.mp holds).1

/-- The results of a command's lanes, written one after the other: each lane takes its own. -/
theorem writeLanes_reg {b w id g i : Nat} (place : t.whereIs id = some (g, i)) (ids : List Nat) (st : Nat) :
    ∀ {s : State} {l : Lane}, findLane s t.uid g i = some l → l.takes k.op = true →
    ∃ m, findLane (ids.foldl (fun s id => match t.whereIs id with
        | none => s
        | some (g, i) => writeResult s t.uid g i k.op { name := .g b, words := w } (k.words st id)) s) t.uid g i = some m ∧
      ∀ n, m.reg n = if id ∈ ids then written b (k.words st id) l.reg n else l.reg n := by
  induction ids with
  | nil => exact fun {s l} found _ => ⟨l, found, fun n => (if_neg List.not_mem_nil).symm⟩
  | cons a ids ih =>
    intro s l found takes
    rw [List.foldl_cons]
    by_cases same : a = id
    · subst same
      rw [place]
      have wrote : findLane (writeResult s t.uid g i k.op { name := .g b, words := w } (k.words st a)) t.uid g i =
          some (l.setRegs b (k.words st a)) := by
        rw [writeResult, findLane_modLane, found, Option.map_some, if_pos takes]
      obtain ⟨m, foundM, regs⟩ := ih wrote (by rw [setRegs_takes]; exact takes)
      refine ⟨m, foundM, fun n => (regs n).trans ?_⟩
      have one : (l.setRegs b (k.words st a)).reg = written b (k.words st a) l.reg := funext (setRegs_reg l b · _)
      rw [one, written_twice, if_pos List.mem_cons_self, ite_self]
    · have kept : ∃ r, (match t.whereIs a with
          | none => s
          | some (g, i) => writeResult s t.uid g i k.op { name := .g b, words := w } (k.words st a)) = r ∧ findLane r t.uid g i = some l := by
        refine ⟨_, rfl, ?_⟩
        split
        · exact found
        · next g' i' there =>
          have other : t.uid ≠ t.uid ∨ g ≠ g' ∨ i ≠ i' := by
            by_contra! both
            obtain ⟨-, rfl, rfl⟩ := both
            exact same ((ident_of_whereIs there).symm.trans (ident_of_whereIs place))
          rw [writeResult, findLane_modLane_ne _ _ other, found]
      obtain ⟨r, eq, foundR⟩ := kept
      rw [eq]
      obtain ⟨m, foundM, regs⟩ := ih foundR takes
      refine ⟨m, foundM, fun n => (regs n).trans ?_⟩
      simp [Ne.symm same]

/-- What a command gives as it retires: its words, the table of TBLLD, the handle of HDEF. -/
def withResults (s : State) (t : Team) (k : Cmd) (st : Nat) : State :=
  match k.kind, k.res with
  | .tblld (.slot n) _, (_, ws) :: _ => modCore (writeStatus s t k st) t.coreN (fun c => { c with tables := c.tables.set n ws })
  | .hdef h _, _ => modTeam (writeStatus s t k st) t.uid (fun t => endHdef t h k)
  | _, _ => writeStatus s t k st

/-- A context whose head has gone. -/
def Ctx.advanced (c : Ctx) : Ctx := { c with queue := c.queue.drop 1, tl := c.tl + 1 }

/-- A team, one of whose contexts has advanced. -/
def Team.advanced (e : Nat) (t : Team) : Team := { t with ectx := t.ectx.modify e Ctx.advanced }

/-- Besides its results, a command that retires ends its part of its operation and leaves its context, which wakes lanes. -/
theorem retireCmd_steps (s : State) (t : Team) (e : Nat) (st : Nat) (sound : k.fault = none) :
    ∃ v, Untouched (withResults s t k st) v ∧
      Untouched (modTeam v t.uid (Team.advanced e)) (retireCmd s t e k st) := by
  refine ⟨match opGang t k.op with
    | none => withResults s t k st
    | some g => finishPart (withResults s t k st) t.uid g k.op k.no, ?_, ?_⟩
  · split
    · exact .refl _
    · exact finishPart_untouched ..
  · have ordered (v : State) : Untouched v (if onArray k.kind = true then modCore v t.coreN (fun c => { c with order := c.order.filter (fun x => x != (t.uid, e, k.no)) }) else v) := by
      split
      · exact ⟨rfl, map_modify_same _ _ _ _ fun _ => rfl, rfl⟩
      · exact .refl _
    unfold retireCmd
    rw [sound]
    exact (ordered _).trans ((keepSave_untouched ..).trans (wakeTimeline_untouched ..))

theorem withResults_mem (s : State) (t : Team) (k : Cmd) (st : Nat) : (withResults s t k st).mem = s.mem := by
  have mem := (writeStatus_kept s t k st).2.2
  unfold withResults
  split <;> exact mem

/-- A result changes no context, and a handle only at HDEF. -/
theorem withResults_team (found : findTeam s t.uid = some t) (k : Cmd) (st : Nat) :
    ∃ u, findTeam (withResults s t k st) t.uid = some u ∧ u.tracked.1 = t.tracked.1 ∧ u.ectx.length = t.ectx.length ∧
      ∀ h a, k.kind = .hdef h a → k.fault = none → h < t.handles.length → u.handle h = { st := if hBad k.rcd then 3 else 2, raw := k.rcd } := by
  obtain ⟨u, foundU, same⟩ := found_byTeam (writeStatus_kept s t k st).1 found
  have contexts := congrArg Prod.fst same
  have length : u.ectx.length = t.ectx.length := by simpa [Team.tracked] using congrArg List.length contexts
  unfold withResults
  split
  · next n a x ws rest kind _ => exact ⟨u, foundU, contexts, length, fun h a other => by rw [kind] at other; cases other⟩
  · next h a kind =>
    have fields (t : Team) : (endHdef t h k).uid = t.uid ∧ (endHdef t h k).ectx = t.ectx := by
      unfold endHdef setHandle
      split <;> exact ⟨rfl, rfl⟩
    refine ⟨endHdef u h k, ?_, ?_, ?_, fun h' a' same' sound inside => ?_⟩
    · rw [findTeam_modTeam _ _ _ fun t => (fields t).1, foundU, Option.map_some]
    · rw [Team.tracked, (fields u).2]
      exact contexts
    · rw [(fields u).2]
      exact length
    · rw [kind] at same'
      cases same'
      have count : u.handles.length = t.handles.length := congrArg (fun x => x.2.length) same
      rw [endHdef, if_neg (by simp [sound])]
      simp [Team.handle, setHandle, count, inside]
  · next other _ => exact ⟨u, foundU, contexts, length, fun h a kind => absurd kind (other h a)⟩

theorem withResults_table {n a : Nat} {addr : DWord} {ws : List Word} (kind : k.kind = .tblld (.slot n) addr) (res : k.res = [(a, ws)]) (st : Nat)
    (placed : t.coreN < s.cores.length) (inside : n < (coreOf s t.coreN).tables.length) :
    (coreOf (withResults s t k st) t.coreN).tables.getD n [] = ws := by
  have cores := (writeStatus_kept s t k st).2.1
  have same : coreOf (writeStatus s t k st) t.coreN = coreOf s t.coreN := by rw [coreOf, coreOf, cores]
  have run : withResults s t k st = modCore (writeStatus s t k st) t.coreN (fun c => { c with tables := c.tables.set n ws }) := by
    unfold withResults
    rw [kind, res]
  rw [run, coreOf_modCore _ _ _ (by rw [cores]; exact placed), same]
  simp [inside]

/-- A lane of a command has its words. -/
theorem withResults_lane {b w id g i : Nat} {l : Lane} (dst : k.dst = some { name := .g b, words := w }) (st : Nat) (own : id ∈ k.lanes)
    (place : t.whereIs id = some (g, i)) (found : findLane s t.uid g i = some l) (takes : l.takes k.op = true) :
    ∃ m, findLane (withResults s t k st) t.uid g i = some m ∧ ∀ n, m.reg n = written b (k.words st id) l.reg n := by
  obtain ⟨m, foundM, regs⟩ := writeLanes_reg (b := b) (w := w) place k.lanes st found takes
  have status : findLane (writeStatus s t k st) t.uid g i = some m := by
    unfold writeStatus
    rw [dst]
    exact foundM
  refine ⟨m, ?_, fun n => (regs n).trans (if_pos own)⟩
  unfold withResults
  split
  · exact status
  · rw [findLane, findGang, findTeam_modTeam, Option.bind_map]
    · refine Eq.trans ?_ status
      rw [findLane, findGang]
      congr 2
      funext t
      rw [Function.comp_apply, endHdef, setHandle]
      split <;> rfl
    · intro t
      rw [endHdef, setHandle]
      split <;> rfl
  · exact status

theorem ctxOf_of_rows {u : Team} (same : u.tracked.1 = t.tracked.1) (e : Nat) :
    (u.ctxOf e).tl = (t.ctxOf e).tl ∧ (u.ctxOf e).queue = (t.ctxOf e).queue := by
  have both := congrArg (fun l : List (DWord × List Cmd) => l[e]?) same
  simp only [Team.tracked, List.getElem?_map] at both
  rw [Team.ctxOf, Team.ctxOf, List.getD_eq_getElem?_getD, List.getD_eq_getElem?_getD]
  cases hu : u.ectx[e]? <;> cases ht : t.ectx[e]? <;> rw [hu, ht] at both <;> simp_all

/-- What a command that retires without a fault leaves. -/
theorem retireCmd_leaves (found : findTeam s t.uid = some t) (within : e < t.ectx.length) (sound : k.fault = none) (st : Nat) :
    (retireCmd s t e k st).mem = s.mem ∧
    (∃ u, findTeam (retireCmd s t e k st) t.uid = some u ∧ (u.ctxOf e).tl = (t.ctxOf e).tl + 1 ∧ (u.ctxOf e).queue = (t.ctxOf e).queue.drop 1 ∧
      ∀ h a, k.kind = .hdef h a → h < t.handles.length → u.handle h = { st := if hBad k.rcd then 3 else 2, raw := k.rcd }) ∧
    (∀ n a ws, k.kind = .tblld (.slot n) a → k.res = [(0, ws)] → t.coreN < s.cores.length → n < (coreOf s t.coreN).tables.length →
      (coreOf (retireCmd s t e k st) t.coreN).tables.getD n [] = ws) ∧
    ∀ b w id g i l, k.dst = some { name := .g b, words := w } → id ∈ k.lanes → t.whereIs id = some (g, i) → findLane s t.uid g i = some l →
      l.takes k.op = true → ∃ m, findLane (retireCmd s t e k st) t.uid g i = some m ∧ ∀ n, m.reg n = written b (k.words st id) l.reg n := by
  obtain ⟨v, first, last⟩ := retireCmd_steps s t e st sound
  refine ⟨last.mem.trans (first.mem.trans (withResults_mem s t k st)), ?_, fun n a ws kind res placed inside => ?_,
    fun b w id g i l dst own place foundL takes => ?_⟩
  · obtain ⟨u1, found1, contexts, length, handles⟩ := withResults_team found k st
    obtain ⟨u2, found2, same2⟩ := found_byTeam first.teams found1
    have left : findTeam (modTeam v t.uid (Team.advanced e)) t.uid =
        some (u2.advanced e) := by
      rw [findTeam_modTeam v t.uid (Team.advanced e) (fun _ => rfl), found2, Option.map_some]
    obtain ⟨u3, found3, same3⟩ := found_byTeam last.teams left
    have within2 : e < u2.ectx.length := by
      have := congrArg (fun x => x.1.length) same2
      simp [Team.standing] at this
      omega
    obtain ⟨tl3, queue3⟩ := ctxOf_of_standing same3 e
    obtain ⟨tl2, queue2⟩ := ctxOf_of_standing same2 e
    obtain ⟨tl1, queue1⟩ := ctxOf_of_rows contexts e
    rw [Team.advanced, ctxOf_modify within2] at tl3 queue3
    refine ⟨u3, found3, ?_, ?_, fun h a kind inside => ?_⟩
    · rw [tl3, Ctx.advanced, tl2, tl1]
    · rw [queue3, Ctx.advanced, queue2, queue1]
    · refine (handle_of_standing same3 h).trans ?_
      exact (handle_of_standing same2 h).trans (handles h a kind sound inside)
  · rw [last.table, modTeam, coreOf]
    exact (congrArg (fun x : List (List Word) => x.getD n []) (first.table t.coreN)).trans (withResults_table kind res st placed inside)
  · obtain ⟨m1, found1, regs⟩ := withResults_lane dst st own place foundL takes
    obtain ⟨m2, found2, same2⟩ := first.lane found1
    have left : findLane (modTeam v t.uid (Team.advanced e)) t.uid g i = some m2 := by
      rw [← found2, findLane, findLane, findGang, findGang, findTeam_modTeam v t.uid (Team.advanced e) (fun _ => rfl)]
      cases findTeam v t.uid <;> rfl
    obtain ⟨m3, found3, same3⟩ := last.lane left
    refine ⟨m3, found3, fun n => ?_⟩
    rw [← regs n, Lane.reg, Lane.reg, same3, same2]

-- The release of a command, and the count at CTL (R266, R288)

/-- Nothing of the scope is buffered or unacknowledged: the release is complete. -/
theorem relScope_done (found : findTeam s team = some t) {sc : Scope}
    (buffered : ∀ x ∈ (t.ctxOf e).mem.buf, inScope t.die sc (homeOf x.1.addr) = false)
    (acked : ∀ x ∈ (t.ctxOf e).mem.acks, inScope t.die sc (homeOf x.2.addr) = false) :
    relScope s (.ctx team e) sc [] = (s, none) := by
  have mem : agentMem s (.ctx team e) = (t.ctxOf e).mem := by
    rw [agentMem, found]
    rfl
  have die : agentDie s (.ctx team e) = t.die := by
    rw [agentDie, found]
    rfl
  have none_ : (t.ctxOf e).mem.buf.filter (fun x => inScope t.die sc (homeOf x.1.addr)) = [] :=
    List.filter_eq_nil_iff.mpr fun x held => by rw [buffered x held]; decide
  have noAck : (t.ctxOf e).mem.acks.filter (fun x => inScope t.die sc (homeOf x.2.addr)) = [] :=
    List.filter_eq_nil_iff.mpr fun x held => by rw [acked x held]; decide
  unfold relScope relAdvance drainAll
  dsimp only
  have idle : ¬ ((t.ctxOf e).mem.buf.any fun x => inScope t.die sc (homeOf x.1.addr)) = true := by
    simpa using fun a b held => buffered (a, b) held
  rw [die, mem, none_, List.map_nil, List.foldl_nil, mem, if_pos List.isEmpty_nil, if_neg idle, noAck]
  rfl

/-- The value of bytes that have been stored from a key on, by their offsets in its line. -/
theorem rdNat_stored {n v key : Nat} {m : Tab Byte}
    (mem : r.mem = ((toBytes n v).mapIdx (fun i b => (key % 128 + i, b))).foldl (fun m b => tput memDefault m (lineAddr key + b.1) b.2) m) :
    rdNat r key n = v % 256 ^ n := by
  have bytes : rdBytes r key n = toBytes n v := by
    refine List.ext_getElem (by simp [rdBytes, length_toBytes]) fun j inside _ => ?_
    have j' : j < n := by simpa [rdBytes] using inside
    have offsets : ((toBytes n v).mapIdx (fun i b => (key % 128 + i, b))).map Prod.fst = (List.range n).map (key % 128 + ·) :=
      List.ext_getElem (by simp [length_toBytes]) fun i h1 h2 => by simp
    have own := (rdByte_stores Prod.fst Prod.snd (lineAddr key) ((toBytes n v).mapIdx (fun i b => (key % 128 + i, b)))
      (offsets ▸ List.nodup_range.map fun i j same => Nat.add_left_cancel same) m).1 (key % 128 + j, (toBytes n v)[j])
      (List.mem_mapIdx.mpr ⟨j, by rw [length_toBytes]; exact j', rfl⟩)
    simp only [rdBytes, List.getElem_map, List.getElem_range, rdByte, mem]
    rw [show key + j = lineAddr key + (key % 128 + j) by unfold lineAddr; omega]
    exact own
  rw [rdNat, bytes, ofBytes_toBytes]

theorem modAgent_tracked (s : State) (u e : Nat) (f : LocalMem → LocalMem) :
    byTeam Team.tracked (modAgent s (.ctx u e) f) = byTeam Team.tracked s :=
  modTeam_byTeam _ s u _ fun x => ⟨rfl, Prod.ext (map_modify_same x.ectx e (fun c => { c with mem := f c.mem }) (fun c => (c.tl, c.queue)) fun _ => rfl) rfl⟩

theorem noteHome_tracked (s : State) (u h : Nat) : byTeam Team.tracked (noteHome s u h) = byTeam Team.tracked s := by
  refine modTeam_byTeam _ s u _ fun x => ?_
  split <;> exact ⟨rfl, rfl⟩

/-- The command at the head of a context, as far as the contexts stand. -/
theorem head_of_tracked (same : byTeam Team.tracked r = byTeam Team.tracked s) (found : findTeam s team = some t) (within : e < t.ectx.length)
    (head : headCmd t e = some k) : ∃ u, findTeam r team = some u ∧ headCmd u e = some k ∧ e < u.ectx.length := by
  obtain ⟨u, foundU, both⟩ := found_byTeam same found
  have rows := congrArg Prod.fst both
  have count := congrArg List.length rows
  simp only [Team.tracked, List.length_map] at count
  exact ⟨u, foundU, by rw [headCmd, (ctxOf_of_rows rows e).2]; exact head, by omega⟩

/-- R288: the count at CTL rises by one, at its home. -/
theorem ctlAdd_adds {a : Nat} {loc : Loc} (aligned : a % 8 = 0) (allowed : servedFault s .noHost a ≠ some .prot)
    (place : locateFor s t a .write = .ok loc) (clean : (agentMem s (.ctx t.uid e)).entry (lineOf t.ctx a) = [])
    (sound : ∀ i < 8, poisoned s (loc.key + i) = false) (channel : channelFailed s (lineAddr loc.key) = false) (settled : Settled s) :
    ∃ v n, ctlAdd s t e a = .ok (v, n) ∧ byTeam Team.tracked v = byTeam Team.tracked s ∧
      rdNat v loc.key 8 = (rdNat (markLeaf s loc true) loc.key 8 + 1) % 2 ^ 64 := by
  have low := (locate_in_line (i := 0) place (by omega)).2
  let s0 := modAgent s (.ctx t.uid e) (fun m => m.dropCopy (lineOf t.ctx a))
  have cleared : clearLine s (.ctx t.uid e) (lineOf t.ctx a) = s0 := by
    rw [clearLine, drainLine, clean]
    rfl
  let s1 := touchLine (markLeaf s0 loc true) t.ctx loc
  have touched := touchLine_cached (markLeaf s0 loc true) t.ctx loc
  have lines : Lines s0 s1 := (markLeaf_lines s0 loc true).trans touched.1
  have settled0 : Settled s0 := settled
  have mem1 : s1.mem = (markLeaf s loc true).mem :=
    (touched.2 ((markLeaf_lines s0 loc true).settled settled0)).trans
      (markLeaf_mem_congr (s := s) (t := s0) rfl loc true)
  have sound1 : (List.range 8).any (fun i => poisoned s1 (loc.key + i)) = false := by
    rw [List.any_eq_false]
    intro i inside
    have before : poisoned (markLeaf s0 loc true) (loc.key + i) = false := by
      rw [markLeaf_shape]
      exact sound i (List.mem_range.mp inside)
    have line : (loc.key + i) / 128 = loc.key / 128 := by
      have := List.mem_range.mp inside
      omega
    rw [touchLine_sound line before]
    exact Bool.false_ne_true
  have channel1 : channelFailed { s1 with fresh := s1.fresh + 1 } (lineAddr loc.key) = false := by
    rw [channelFailed, lines.rest.2.2.1]
    exact channel
  let bytes := (toBytes 8 (rdNat s1 loc.key 8 + 1)).mapIdx (fun i b => (loc.key % 128 + i, b))
  obtain ⟨m, stored⟩ := homeWrite_bytes { s1 with fresh := s1.fresh + 1 } t.ctx (lineOf t.ctx a) loc bytes false s1.fresh none [] channel1
  obtain ⟨⟨teams, -⟩, -⟩ := homeWrite_shape { s1 with fresh := s1.fresh + 1 } t.ctx (lineOf t.ctx a) loc bytes false s1.fresh none []
  obtain ⟨w, write⟩ : ∃ w, w = homeWrite { s1 with fresh := s1.fresh + 1 } t.ctx (lineOf t.ctx a) loc bytes false s1.fresh none [] := ⟨_, rfl⟩
  rw [← write] at stored teams
  refine ⟨noteHome (modAgent w (.ctx t.uid e) (fun m => { m with acks := (s1.fresh, lineOf t.ctx a) :: m.acks })) t.uid (homeOf a), s1.fresh,
    ?_, ?_, ?_⟩
  · unfold ctlAdd
    rw [if_neg (by omega), if_neg allowed, place, write]
    dsimp only
    rw [cleared]
    exact if_neg (by rw [sound1]; exact Bool.false_ne_true)
  · refine (noteHome_tracked ..).trans ((modAgent_tracked ..).trans ?_)
    rw [byTeam, teams]
    change byTeam Team.tracked s1 = _
    rw [byTeam, lines.rest.1]
    exact modAgent_tracked s t.uid e _
  · refine Eq.trans (b := rdNat w loc.key 8) rfl ?_
    rw [rdNat_stored (m := m) stored, rdNat, rdBytes_congr mem1]
    rfl

-- Collectives and rows (R287, R288, R298)

theorem storeBytes_tracked (s : State) (u e ctx a : Nat) (bs : List Byte) (w lane : Nat) (port : Option Nat) (cmd : Nat) (insn : DWord) :
    byTeam Team.tracked (storeBytes s (.ctx u e) ctx a bs w lane port cmd insn) = byTeam Team.tracked s :=
  List.foldlRecOn _ _ (motive := fun r => byTeam Team.tracked r = byTeam Team.tracked s) rfl fun r kept _ _ => (modAgent_tracked r u e _).trans kept

theorem writeCtx_tracked (s : State) (t : Team) (e a : Nat) (bs : List Byte) :
    byTeam Team.tracked (writeCtx s t e a bs).1 = byTeam Team.tracked s := by
  unfold writeCtx
  split
  · rfl
  · exact (storeBytes_tracked ..).trans (noteHome_tracked ..)

theorem abortColl_tracked (s : State) (t : Team) (e r : Nat) : byTeam Team.tracked (abortColl s t e r) = byTeam Team.tracked s := by
  unfold abortColl
  refine List.foldlRecOn _ _ (motive := fun r => byTeam Team.tracked r = byTeam Team.tracked s) rfl fun v kept i _ => ?_
  exact (writeCtx_tracked v t e _ _).trans kept

/-- What a step of a collective does with the command that waits. -/
theorem collStep_eq (found : findTeam s team = some t) (head : headCmd t e = some k) (waits : k.st = .waiting) (awake : k.parked = false)
    (f : Team → Cmd → State × CmdOut) (st : Nat) (out : (f t k).2 = .done st) :
    collStep s team e f = .next (modHead (f t k).1 team e (fun c => { c with st := .running st })) := by
  unfold collStep
  rw [found]
  dsimp only
  rw [head]
  dsimp only
  rw [if_neg (by simp [waits, awake]), out]

/-- The first command in array order that has a row to feed feeds it. -/
theorem execArrayRowPass_eq {core uid no tile bank : Nat} {f : Fmt} {row : Nat × List Nat} {pre rest : List (Nat × Nat × Nat)}
    (order : (coreOf s core).order = pre ++ (uid, e, no) :: rest) (idle : ∀ x ∈ pre, feeds s x = none)
    (fed : feeds s (uid, e, no) = some (uid, e, tile, bank, f, row)) :
    execArrayRowPass core s = .next (modHead (modArr s core (fun a => passRow a tile bank f row)) uid e (fun c => { c with rows := c.rows.drop 1 })) := by
  unfold execArrayRowPass
  rw [order, List.findSome?_append, List.findSome?_eq_none_iff.mpr idle, Option.none_or, List.findSome?_cons, fed]

theorem begin_kind (k : Cmd) (t : Team) (e now : Nat) : (k.begin_ t e now).kind = k.kind := by
  unfold Cmd.begin_
  split <;> rfl

theorem uid_of_found (found : findTeam s team = some t) : t.uid = team := beq_iff_eq.mp (List.find?_some found :)

theorem execContextPark_eq (found : findTeam s team = some t) (head : headCmd t e = some k) (may : mayBegin s t e k = true) {a : Nat}
    (out : (beginWork s t e (k.begin_ t e s.fresh)).out = .stop .residency a) :
    execContextPark team e s = .next (parkCtx (modHead { s with fresh := s.fresh + 1 } team e (Cmd.begin_ t e s.fresh)) team e (metAddr a)) := by
  unfold execContextPark
  rw [found]
  dsimp only
  rw [head]
  dsimp only
  rw [if_neg (by simp [may]), out]

/-- A command that has done its work goes on to its release. -/
theorem execEngineCommandComplete_eq (found : findTeam s team = some t) (head : headCmd t e = some k) (awake : k.parked = false) {st : Nat}
    (state : k.st = .running st) (out : workOut s team e k = true) :
    execEngineCommandComplete team e s = .next (completeCmd s t e k st []) := by
  unfold execEngineCommandComplete
  rw [found]
  dsimp only
  rw [head]
  dsimp only
  rw [if_neg (by simp [awake]), state]
  exact if_pos out

section
variable {st : Nat} (released : relScope s (.ctx t.uid e) k.sc [] = (s, none))
include released

theorem completeCmd_retires (done : ctlWord k st = none) : completeCmd s t e k st [] = retireCmd s t e k st := by
  unfold completeCmd
  rw [released]
  dsimp only
  rw [done]

theorem completeCmd_counts {a n : Nat} {v : State} (counts : ctlWord k st = some a) (added : ctlAdd s t e a = .ok (v, n)) :
    completeCmd s t e k st [] = modHead v t.uid e (fun x => { x with rcd := 0, st := .releasing st [n] }) := by
  unfold completeCmd
  rw [released]
  dsimp only
  rw [counts]
  dsimp only
  rw [added]

end

/-- Settles O52: each clause reads off the step, by what it does to the command at the head of the context; a command that retires gives its
results, leaves its context, and wakes lanes, which touches no other result. -/
theorem enginesServed : Obligations.EnginesServed := by
  unfold Obligations.EnginesServed
  refine fun s => ⟨fun team e t k found within head may => ?_, fun team e t k found head turn => ?_,
    fun team e t k st found within head awake state out sound buffered acked => ⟨fun done => ?_, fun a loc counts aligned allowed place clean
      bytes channel _ settled => ?_⟩,
    fun team e t k others found within head waits awake first match_ => ⟨fun differ => ?_, fun s1 u1 agree ran found1 head1 within1 => ?_⟩,
    fun team e t k found within head waits awake => ?_,
    fun core uid e no pre rest t k src tile bank ki arg f n row rows inside order idle found within head number kind own => ?_⟩
  · intro b w
    have run : exec (.engineCommandBegin team e) s = _ := execEngineCommandBegin_eq found head may
    dsimp only at run
    refine ⟨fun fresh => ⟨?_, fun h inside free => begin_handles fresh inside free⟩, fun begun => ?_, ?_, fun reads bad => ?_,
      fun u0 found0 head0 within0 => ?_, fun a out => ⟨?_, ?_⟩⟩
    · exact congrArg Cmd.begun (if_pos fresh)
    · exact if_neg begun
    · rintro ⟨old, kind⟩
      have kind' : b.kind = .wswp old := (begin_kind k t e s.fresh).trans kind
      simp only [w, beginWork, kind', readsArray, Bool.false_eq_true, false_and, if_false, cmdWork, true_and]
      rfl
    · have reads' : readsArray b.kind = true := (congrArg readsArray (begin_kind k t e s.fresh)).trans reads
      simp only [w, beginWork, reads', bad, and_self, if_true]
    · obtain ⟨teams, mem⟩ := engineServed_kept { w.s with fresh := w.s.fresh + 1 } t e b
      have foundS : findTeam (engineServed { w.s with fresh := w.s.fresh + 1 } t e b) team = some u0 := by
        rw [findTeam, teams]
        exact found0
      refine ⟨fun st out => ?_, fun out => ?_, fun c a out absent => ?_⟩
      · obtain ⟨u, foundU, headU, -⟩ := modHead_head foundS within0 head0 (fun c => { w.upd (c.begin_ t e s.fresh) with st := .running st })
        simp only [b, w] at out
        rw [out] at run
        exact ⟨_, u, run, foundU, headU, mem⟩
      · obtain ⟨u, foundU, headU, -⟩ := modHead_head foundS within0 head0 (fun c => w.upd (c.begin_ t e s.fresh))
        simp only [b, w] at out
        rw [out] at run
        exact ⟨_, u, run, foundU, headU, mem⟩
      · obtain ⟨u, foundU, headU, -⟩ := modHead_head foundS within0 head0
          (fun x => { w.upd (x.begin_ t e s.fresh) with st := .running 6, fault := some (cmdFault t e b c a) })
        simp only [b, w] at out
        rw [out] at run
        exact ⟨_, u, run.trans (if_neg absent), foundU, headU, mem⟩
    · simp only [b, w] at out
      rw [out] at run
      exact run.trans (if_pos rfl)
    · obtain ⟨u1, found1, head1, within1⟩ := modHead_head (s := { s with fresh := s.fresh + 1 }) found within head (Cmd.begin_ t e s.fresh)
      obtain ⟨u, foundU, headU, mem⟩ := parkCtx_parks found1 within1 head1 (metAddr a)
      refine ⟨_, u, execContextPark_eq found head may out, foundU, headU, mem⟩
  · change execEngineCommandBegin team e s = _
    unfold execEngineCommandBegin
    rw [found]
    dsimp only
    rw [head]
    exact if_pos (by simp [mayBegin, turn])
  · obtain rfl := uid_of_found found
    obtain ⟨mem, ⟨u, foundU, tl, queue, handles⟩, tables, lanes⟩ := retireCmd_leaves found within sound st
    refine ⟨_, u, (execEngineCommandComplete_eq found head awake state out).trans
      (congrArg _ (completeCmd_retires (relScope_done found buffered acked) done)), foundU, tl, queue, mem, handles, tables, ?_⟩
    exact lanes
  · obtain rfl := uid_of_found found
    obtain ⟨v, n, added, tracked, value⟩ := ctlAdd_adds (e := e) aligned allowed place clean bytes channel settled
    obtain ⟨u1, found1, head1, within1⟩ := head_of_tracked tracked found within head
    obtain ⟨u, foundU, headU, -⟩ := modHead_head found1 within1 head1 (fun x => { x with rcd := 0, st := .releasing st [n] })
    exact ⟨_, u, n, (execEngineCommandComplete_eq found head awake state out).trans
      (congrArg _ (completeCmd_counts (relScope_done found buffered acked) counts added)), foundU, headU, value⟩
  · obtain ⟨u, foundU, headU, -⟩ := modHead_head found within head (fun c => { c with st := .running 8 })
    have ran : runExchange s t e k.rcd others = (s, .ok 8) := by
      unfold runExchange
      exact if_pos (by simp [differ])
    have run := collStep_eq found head waits awake (fun t k => if collFirst s k ∧ collOthers s k.rcd others then
      cmdOut (runExchange s t e k.rcd others) else (s, .wait)) 8 (by rw [if_pos ⟨first, match_⟩, ran]; rfl)
    rw [if_pos ⟨first, match_⟩, ran] at run
    exact ⟨_, u, run, foundU, headU, rfl⟩
  · obtain ⟨u, foundU, headU, -⟩ := modHead_head found1 within1 head1 (fun c => { c with st := .running 0 })
    have run := collStep_eq found head waits awake (fun t k => if collFirst s k ∧ collOthers s k.rcd others then
      cmdOut (runExchange s t e k.rcd others) else (s, .wait)) 0 (by rw [if_pos ⟨first, match_⟩, ran]; rfl)
    rw [if_pos ⟨first, match_⟩, ran] at run
    exact ⟨_, u, run, foundU, headU, rfl⟩
  · obtain ⟨u1, found1, head1, within1⟩ := head_of_tracked (abortColl_tracked s t e k.rcd) found within head
    obtain ⟨u, foundU, headU, -⟩ := modHead_head found1 within1 head1 (fun c => { c with st := .running 9 })
    refine ⟨_, u, collStep_eq found head waits awake (fun t k => (abortColl s t e k.rcd, .done 9)) 9 rfl, foundU, headU, fun nothing => ?_⟩
    change (abortColl s t e k.rcd).mem = s.mem
    rw [abortColl, nothing, Nat.zero_mul]
    rfl
  · have fed : feeds s (uid, e, no) = some (uid, e, tile, bank, f, row) := by
      unfold feeds
      simp only [found, head, Option.bind_some, number, ne_eq, not_true_eq_false, if_false, kind, own]
    have found' : findTeam (modArr s core (fun a => passRow a tile bank f row)) uid = some t := found
    obtain ⟨u, foundU, headU, -⟩ := modHead_head found' within head (fun c => { c with rows := c.rows.drop 1 })
    refine ⟨_, u, execArrayRowPass_eq order idle fed, foundU, ?_, ?_, rfl⟩
    · rw [headU, own]
      rfl
    · exact congrArg Core.arr (coreOf_modCore s core _ inside)

end Sys2Proof.Machine
end

section
/-! Tile handles (R271 to R273): which records HDEF finds bad, and where a handle's elements stand. -/

namespace Sys2Proof.Machine

/-- The checks of HDEF (R272), one by one. -/
theorem hBad_iff (r : Nat) : hBad r = true ↔
    let f := hFmt r
    let b := 8 * 2 ^ hLayout r
    fld r 351 348 ≠ 0 ∨ fld r 511 480 ≠ 0 ∨ 13 ≤ f ∨ fld r 347 346 = 3 ∨ (∃ j < 4, hExt r j = 0) ∨
    (hLayout r = 0 ∧ f ≠ 7 ∧ f ≠ 8 ∧ f ≠ 9 ∧ hBase r % hBytes f ≠ 0) ∨ (hLayout r ≠ 0 ∧ hBase r % 128 ≠ 0) ∨
    (hLayout r ≠ 0 ∧ (hExt r 0 % b ≠ 0 ∨ hExt r 1 % b ≠ 0 ∨ hStr r 1 % (b * b : Nat) ≠ 0)) ∨
    (hScale r ≠ 0 ∧ (f = 8 ∨ f = 9 ∨ 10 ≤ f)) ∨ (f ≠ 8 ∧ f ≠ 9 ∧ hAux r ≠ 0) ∨ (f = 8 ∧ (hAux r = 0 ∨ hAux r % 32 ≠ 0)) ∨
    (f = 9 ∧ (hAux r = 0 ∨ hSptr r = 0 ∨ hExt r 0 % (32 * 2 ^ fld r 347 346) ≠ 0)) ∨ (fld r 344 344 = 1 ∧ f ≠ 0 ∧ f ≠ 1) := by
  have extents : (List.range 4).any (fun j => hExt r j == 0) = true ↔ ∃ j < 4, hExt r j = 0 := by
    simp [List.any_eq_true]
  have base : (if hLayout r = 0 then (if hFmt r = 7 ∨ hFmt r = 8 ∨ hFmt r = 9 then false else hBase r % hBytes (hFmt r) != 0)
      else hBase r % 128 != 0) = true ↔ (hLayout r = 0 ∧ hFmt r ≠ 7 ∧ hFmt r ≠ 8 ∧ hFmt r ≠ 9 ∧ hBase r % hBytes (hFmt r) ≠ 0) ∨
      (hLayout r ≠ 0 ∧ hBase r % 128 ≠ 0) := by
    by_cases layout : hLayout r = 0
    · by_cases half : hFmt r = 7 ∨ hFmt r = 8 ∨ hFmt r = 9
      · rcases half with f | f | f <;> simp [layout, f]
      · simp only [not_or] at half
        simp [layout, half]
    · simp [layout]
  have aux : (if hFmt r = 8 then (hAux r == 0 || hAux r % 32 != 0) else (hFmt r != 9 && hAux r != 0)) = true ↔
      (hFmt r ≠ 8 ∧ hFmt r ≠ 9 ∧ hAux r ≠ 0) ∨ (hFmt r = 8 ∧ (hAux r = 0 ∨ hAux r % 32 ≠ 0)) := by
    by_cases f : hFmt r = 8 <;> simp [f]
  have sub : (hSub r && decide (1 < hFmt r)) = true ↔ fld r 344 344 = 1 ∧ hFmt r ≠ 0 ∧ hFmt r ≠ 1 := by
    have big : 1 < hFmt r ↔ hFmt r ≠ 0 ∧ hFmt r ≠ 1 := by omega
    simp [hSub, big]
  unfold hBad
  dsimp only
  simp only [Bool.or_eq_true, extents, aux, sub]
  simp only [base, hRaw, hGroup, bne_iff_ne, decide_eq_true_eq, beq_iff_eq, Bool.and_eq_true, Bool.or_eq_true, or_assoc]

/-- The offset of R273, in elements, of a view element. -/
def viewOffset (r j0 j1 j2 j3 : Nat) : Int :=
  let i0 := if hTrv r then j1 else j0
  let i1 := if hTrv r then j0 else j1
  let b := 8 * 2 ^ hLayout r
  if hLayout r = 0 then i0 + i1 * hStr r 1 + j2 * hStr r 2 + j3 * hStr r 3
  else (i0 % b : Nat) + b * (i1 % b : Nat) + b * b * (i0 / b : Nat) + hStr r 1 * (i1 / b : Nat) + j2 * hStr r 2 + j3 * hStr r 3

theorem hOffset_stored (r j0 j1 j2 j3 : Nat) : hOffset r (hStored r [j0, j1, j2, j3]) = viewOffset r j0 j1 j2 j3 := by
  unfold hOffset hStored viewOffset
  cases hTrv r <;> by_cases layout : hLayout r = 0 <;> simp [layout, add_assoc]

/-- A 64-bit offset stands for the offset modulo 2^64. -/
theorem sext_ofInt (o : Int) : sext 64 (BitVec.ofInt 64 o).toNat = o.bmod (2 ^ 64) := by
  rw [sext_toNat (by omega), BitVec.toInt_ofInt]

theorem toNat_ofInt64 (x : Int) : ((BitVec.ofInt 64 x).toNat : Int) = x % (2 ^ 64 : Nat) := by
  rw [BitVec.toNat_ofInt, Int.toNat_of_nonneg (Int.emod_nonneg _ (by decide))]

/-- R273: where an element of whole bytes stands. -/
theorem hAddr_bytes {r : Nat} (whole : hBytes (hFmt r) ≠ 0) (j0 j1 j2 j3 : Nat) :
    ((hAddr r [j0, j1, j2, j3]).1 : Int) = (hBase r + viewOffset r j0 j1 j2 j3 * hBytes (hFmt r)) % (2 ^ 64 : Nat) := by
  have wraps (o n : Int) : (hBase r + o.bmod (2 ^ 64) * n) % (2 ^ 64 : Nat) = (hBase r + o * n) % (2 ^ 64 : Nat) := by
    have same : o.bmod (2 ^ 64) ≡ o [ZMOD (2 ^ 64 : Nat)] := Int.bmod_emod
    exact (same.mul_right n).add_left _
  unfold hAddr
  dsimp only
  rw [if_neg whole, hOffset_stored, sext_ofInt, toNat_ofInt64, wraps]

/-- R273: where an element of half a byte stands, and which half it is. -/
theorem hAddr_half {r : Nat} (half : hBytes (hFmt r) = 0) {j0 j1 j2 j3 : Nat} (low : -(2 ^ 63 : Nat) ≤ viewOffset r j0 j1 j2 j3)
    (high : viewOffset r j0 j1 j2 j3 < (2 ^ 63 : Nat)) :
    ((hAddr r [j0, j1, j2, j3]).1 : Int) = (hBase r + viewOffset r j0 j1 j2 j3 / 2) % (2 ^ 64 : Nat) ∧
      ((hAddr r [j0, j1, j2, j3]).2 = true ↔ viewOffset r j0 j1 j2 j3 % 2 = 1) := by
  have fits : (viewOffset r j0 j1 j2 j3).bmod (2 ^ 64) = viewOffset r j0 j1 j2 j3 :=
    Int.bmod_eq_of_le (by omega) (by omega)
  have run : hAddr r [j0, j1, j2, j3] = ((BitVec.ofInt 64 (hBase r + Int.fdiv (viewOffset r j0 j1 j2 j3) 2)).toNat,
      decide (Int.fmod (viewOffset r j0 j1 j2 j3) 2 = 1)) := by
    unfold hAddr
    dsimp only
    rw [if_pos half, hOffset_stored, sext_ofInt, fits]
  rw [run, toNat_ofInt64, Int.fdiv_eq_ediv_of_nonneg _ (by decide), Int.fmod_eq_emod_of_nonneg _ (by decide)]
  exact ⟨rfl, decide_eq_true_iff⟩

end Sys2Proof.Machine
end

section
/-! The index that encodes a value in a codebook (R144): the first of the entries that lie nearest. -/

namespace Sys2Proof.Machine

/-- How far an entry lies, in an order: an infinity beyond all finite distances, and what is never chosen beyond it. -/
def distRank : Dist → WithTop (WithTop ℚ)
  | .never => ⊤
  | .inf => ((⊤ : WithTop ℚ) : WithTop (WithTop ℚ))
  | .at_ d => magRank d

/-- The distance of a finite value from a finite entry is a finite magnitude. -/
theorem far_magnitude (n n' : Bool) (m m' : Nat) (e e' : Int) (s s' : Bool) :
    ∃ k f, (sumNum false [.fin n m e s, (Num.fin n' m' e' s').neg]).abs = .fin false k f false := by
  have whole (i f : Int) (z : Bool) : ∃ k g, (ofInt i f z).abs = .fin false k g false := by
    unfold ofInt
    split <;> exact ⟨_, _, rfl⟩
  exact whole _ _ _

/-- The distances of a finite value. -/
inductive Reach : Dist → Prop
  | never : Reach .never
  | inf : Reach .inf
  | at_ (k : Nat) (f : Int) : Reach (.at_ (.fin false k f false))

theorem bookDist_reach (n : Bool) (m : Nat) (e : Int) (s : Bool) (entry : Nat) : Reach (bookDist (.fin n m e s) entry) := by
  unfold bookDist
  cases h : dec .bf16 entry with
  | nan i => exact .never
  | inf i => exact .inf
  | fin n' m' e' s' =>
    obtain ⟨k, f, eq⟩ := far_magnitude n n' m m' e e' s s'
    simp only [eq]
    exact .at_ k f

theorem Reach.lt_iff {a b : Dist} (ha : Reach a) (hb : Reach b) : a.lt b = true ↔ distRank a < distRank b := by
  cases ha <;> cases hb <;> simp [Dist.lt, distRank, magRank, cmpNum_magnitudes, compare_lt_iff_lt]

/-- What is as near as a finite distance is a finite entry. -/
theorem finite_of_rank {n : Bool} {m : Nat} {e : Int} {s : Bool} {entry k : Nat} {f : Int}
    (near : distRank (bookDist (.fin n m e s) entry) ≤ distRank (.at_ (.fin false k f false))) : ∃ a b c d, dec .bf16 entry = .fin a b c d := by
  unfold bookDist at near
  cases h : dec .bf16 entry with
  | nan x => simp [h, distRank, magRank] at near
  | inf x => simp [h, distRank, magRank] at near
  | fin a b c z => exact ⟨a, b, c, z, rfl⟩

/-- Of a rising list, the first of the best: none is better, and those before it are worse. -/
theorem foldl_first {α : Type} [LinearOrder α] {lt : Nat → Nat → Bool} {rank : Nat → α} (order : ∀ i j, lt i j = true ↔ rank i < rank j)
    (t : List Nat) : ∀ b, (b :: t).Pairwise (· < ·) → let r := t.foldl (fun b j => if lt j b then j else b) b
      r ∈ b :: t ∧ ∀ j ∈ b :: t, rank r ≤ rank j ∧ (j < r → rank r < rank j) := by
  induction t with
  | nil => exact fun b _ => ⟨List.mem_cons_self, fun j here => by simp at here; simp [here]⟩
  | cons a t ih =>
    intro b rising
    obtain ⟨above, rest⟩ := List.pairwise_cons.mp rising
    rw [List.foldl_cons]
    by_cases better : lt a b = true
    · rw [if_pos better]
      obtain ⟨held, best⟩ := ih a rest
      refine ⟨List.mem_cons_of_mem _ held, fun j here => ?_⟩
      rcases List.mem_cons.mp here with rfl | here
      · have below := lt_of_le_of_lt (best a List.mem_cons_self).1 ((order a j).mp better)
        exact ⟨below.le, fun _ => below⟩
      · exact best j here
    · rw [if_neg better]
      have skipped : (b :: t).Pairwise (· < ·) :=
        List.pairwise_cons.mpr ⟨fun x hx => above x (List.mem_cons_of_mem _ hx), (List.pairwise_cons.mp rest).2⟩
      obtain ⟨held, best⟩ := ih b skipped
      have bound : rank b ≤ rank a := not_lt.mp fun less => better ((order a b).mpr less)
      refine ⟨?_, fun j here => ?_⟩
      · rcases List.mem_cons.mp held with eq | later
        · rw [eq]
          exact List.mem_cons_self
        · exact List.mem_cons_of_mem _ (List.mem_cons_of_mem _ later)
      · rcases List.mem_cons.mp here with rfl | here
        · exact best _ List.mem_cons_self
        · rcases List.mem_cons.mp here with rfl | here
          · obtain ⟨low, strict⟩ := best b List.mem_cons_self
            refine ⟨low.trans bound, fun before => lt_of_lt_of_le (strict ?_) bound⟩
            exact (above j List.mem_cons_self).trans before
          · exact best j (List.mem_cons_of_mem _ here)

/-- R144: the index of a finite value is that of the nearest finite entry, the lowest of several. -/
theorem bookIndex_nearest (bk : List Nat) (n : Bool) (m : Nat) (e : Int) (s : Bool) (some_ : ∃ j < 16, ∃ a b c d, dec .bf16 (bk.getD j 0) = .fin a b c d) :
    let far := fun j => (sumNum false [.fin n m e s, (dec .bf16 (bk.getD j 0)).neg]).abs
    let i := bookIndex bk (.fin n m e s)
    i < 16 ∧ ∀ j < 16, (∃ a b c d, dec .bf16 (bk.getD j 0) = .fin a b c d) →
      cmpNum (far j) (far i) ≠ .lt ∧ (j < i → cmpNum (far i) (far j) = .lt) := by
  intro far i
  let d := fun i => bookDist (.fin n m e s) (bk.getD i 0)
  let idx := (List.range 16).filter (fun i => d i != .never)
  have run : i = firstBest (fun i j => (d i).lt (d j)) idx := rfl
  have finite (j : Nat) (own : ∃ a b c d, dec .bf16 (bk.getD j 0) = .fin a b c d) : d j = .at_ (far j) ∧ ∃ k f, far j = .fin false k f false := by
    obtain ⟨a, b, c, z, entry⟩ := own
    simp only [d, far, bookDist, entry, true_and]
    exact far_magnitude ..
  have chosen (j : Nat) (small : j < 16) (own : ∃ a b c d, dec .bf16 (bk.getD j 0) = .fin a b c d) : j ∈ idx := by
    rw [List.mem_filter, (finite j own).1]
    exact ⟨List.mem_range.mpr small, rfl⟩
  have rising : idx.Pairwise (· < ·) := List.pairwise_lt_range.filter _
  obtain ⟨j0, small0, own0⟩ := some_
  have nonempty : ∃ b t, idx = b :: t := List.exists_cons_of_ne_nil (List.ne_nil_of_mem (chosen j0 small0 own0))
  obtain ⟨b, t, split⟩ := nonempty
  have order (i j : Nat) : (d i).lt (d j) = true ↔ distRank (d i) < distRank (d j) := (bookDist_reach ..).lt_iff (bookDist_reach ..)
  have result := foldl_first order t b (split ▸ rising)
  rw [split] at run
  change i = t.foldl (fun b j => if (d j).lt (d b) then j else b) b at run
  dsimp only at result
  rw [← run, ← split] at result
  obtain ⟨held, best⟩ := result
  have near0 := (best j0 (chosen j0 small0 own0)).1
  obtain ⟨at0, k0, f0, eq0⟩ := finite j0 own0
  rw [at0, eq0] at near0
  have own := finite_of_rank near0
  obtain ⟨atI, k, f, eq⟩ := finite i own
  refine ⟨List.mem_range.mp (List.mem_filter.mp held).1, fun j small ownJ => ?_⟩
  obtain ⟨atJ, k', f', eq'⟩ := finite j ownJ
  obtain ⟨low, strict⟩ := best j (chosen j small ownJ)
  rw [atI, atJ, eq, eq'] at low strict
  rw [eq, eq', cmpNum_magnitudes, cmpNum_magnitudes]
  simp only [distRank, magRank, WithTop.coe_le_coe, WithTop.coe_lt_coe] at low strict
  exact ⟨fun less => absurd (compare_lt_iff_lt.mp less) (not_lt.mpr low), fun before => compare_lt_iff_lt.mpr (strict before)⟩

end Sys2Proof.Machine
end

section
/-! The sum of a collective (R287): the cells of its members add up exactly. -/

namespace Sys2Proof.Machine

/-- The size of an FP32 value in the bits of a cell. -/
theorem dec_f32_bounds {x : Nat} {neg : Bool} {m : Nat} {e : Int} {st : Bool} (finite : dec .f32 x = .fin neg m e st) :
    m < 2 ^ 24 ∧ e ≤ 105 := by
  unfold dec at finite
  dsimp only [fmtBits, fmtM, fmtUlpMin, fmtBias] at finite
  by_cases special : fmtMax .f32 < x % 2 ^ (32 - 1)
  · rw [if_pos special] at finite
    split at finite <;> cases finite
  · rw [if_neg special] at finite
    split at finite <;> cases finite <;> constructor <;> omega

/-- What a value adds to a cell. -/
def cellTerm (x : Word) : Int :=
  match dec .f32 x.toNat with
  | .fin neg m e _ => sgn neg (m * 2 ^ (e + 160).toNat)
  | _ => 0

theorem cellTerm_bounds (x : Word) : -(2 ^ 289 : Nat) ≤ cellTerm x ∧ cellTerm x ≤ (2 ^ 289 : Nat) := by
  unfold cellTerm
  split
  · next neg m e st finite =>
    obtain ⟨small, low⟩ := dec_f32_bounds finite
    have bound : m * 2 ^ (e + 160).toNat ≤ 2 ^ 289 := by
      calc m * 2 ^ (e + 160).toNat ≤ 2 ^ 24 * 2 ^ 265 := Nat.mul_le_mul small.le (Nat.pow_le_pow_right (by decide) (by omega))
        _ = 2 ^ 289 := by rw [← Nat.pow_add]
    generalize m * 2 ^ (e + 160).toNat = k at bound
    generalize 2 ^ 289 = b at bound
    unfold sgn
    split <;> constructor <;> omega
  · exact ⟨by simp, by simp⟩

/-- The cell of one finite value. -/
theorem cellAdd_one {x : Word} (finite : ∃ a b c d, dec .f32 x.toNat = .fin a b c d) :
    cellVal (cellAdd 0 x) = cellTerm x ∧ cellAdd 0 x < 2 ^ 480 := by
  obtain ⟨neg, m, e, st, eq⟩ := finite
  have term : cellTerm x = sgn neg (m * 2 ^ (e + 160).toNat) := by
    unfold cellTerm
    rw [eq]
  have zero : cellVal 0 = 0 := by decide
  obtain ⟨low, high⟩ := cellTerm_bounds x
  rw [term] at low high
  have gap : (2 ^ 289 : Nat) < 2 ^ 479 := Nat.pow_lt_pow_right (by decide) (by decide)
  have fits : -(2 ^ 479 : Nat) ≤ cellVal 0 + sgn neg (m * 2 ^ (e + 160).toNat) ∧
      cellVal 0 + sgn neg (m * 2 ^ (e + 160).toNat) < (2 ^ 479 : Nat) := by
    rw [zero]
    generalize sgn neg (m * 2 ^ (e + 160).toNat) = v at *
    generalize 2 ^ 289 = a at *
    generalize 2 ^ 479 = b at *
    omega
  obtain ⟨value, flags⟩ := cellAdd_fits eq fits.1 fits.2
  refine ⟨by rw [value, zero, term, Int.zero_add], ?_⟩
  rw [Nat.zero_div, Nat.div_eq_zero_iff] at flags
  exact flags.resolve_left (Nat.two_pow_pos 480).ne'

/-- Two cells without flags whose sum fits merge exactly. -/
theorem cellMerge_fits {c d : Nat} (plainC : c < 2 ^ 480) (plainD : d < 2 ^ 480) (low : -(2 ^ 479 : Nat) ≤ cellVal c + cellVal d)
    (high : cellVal c + cellVal d < (2 ^ 479 : Nat)) : cellVal (cellMerge c d) = cellVal c + cellVal d ∧ cellMerge c d < 2 ^ 480 := by
  have flag (i : Nat) (above : 480 ≤ i) : cellFlag d i = false := by
    have zero : d / 2 ^ i = 0 := Nat.div_eq_of_lt (Nat.lt_of_lt_of_le plainD (Nat.pow_le_pow_right (by decide) above))
    rw [cellFlag, fld, zero, Nat.zero_mod]
    rfl
  have merged : cellMerge c d = unsext 480 (cellVal c + cellVal d) := by
    unfold cellMerge
    simp only [List.foldl_cons, List.foldl_nil, flag 480 (by decide), flag 481 (by decide), flag 482 (by decide), flag 483 (by decide),
      Bool.false_eq_true, if_false]
    rw [if_neg (by rintro (below | above) <;> [exact absurd low (Int.not_le.mpr below); exact absurd high (Int.not_lt.mpr above)]),
      Nat.div_eq_of_lt plainC, Nat.zero_mul, Nat.zero_add]
  have small := unsext_lt 480 (cellVal c + cellVal d)
  rw [merged, cellVal_eq (unsext 480 (cellVal c + cellVal d)), Nat.mod_eq_of_lt small]
  exact ⟨(sext_unsext (by decide) (by rw [sfits, Bool.and_eq_true, decide_eq_true_eq, decide_eq_true_eq]; exact ⟨low, high⟩)).2, small⟩

/-- The cells of a list of finite values merge into their sum. -/
theorem cells_sum (xs : List Word) (finite : ∀ x ∈ xs, ∃ a b c d, dec .f32 x.toNat = .fin a b c d) :
    ∀ (c : Nat) (n : Nat), c < 2 ^ 480 → -(n * (2 ^ 289 : Nat) : Int) ≤ cellVal c → cellVal c ≤ n * (2 ^ 289 : Nat) → n + xs.length ≤ 512 →
    cellVal (xs.foldl (fun c x => cellMerge c (cellAdd 0 x)) c) = cellVal c + (xs.map cellTerm).sum ∧
      xs.foldl (fun c x => cellMerge c (cellAdd 0 x)) c < 2 ^ 480 := by
  induction xs with
  | nil => exact fun c n plain _ _ _ => ⟨by simp, plain⟩
  | cons x xs ih =>
    intro c n plain low high few
    obtain ⟨one, plain1⟩ := cellAdd_one (finite x List.mem_cons_self)
    obtain ⟨lowX, highX⟩ := cellTerm_bounds x
    have room : (512 * 2 ^ 289 : Nat) < 2 ^ 479 := by
      rw [show (512 : Nat) = 2 ^ 9 from rfl, ← Nat.pow_add]
      exact Nat.pow_lt_pow_right (by decide) (by decide)
    rw [List.length_cons] at few
    have next : (n + 1 : Int) * (2 ^ 289 : Nat) ≤ (512 * 2 ^ 289 : Nat) := by
      rw [Int.natCast_mul]
      exact mul_le_mul_of_nonneg_right (by omega) (Int.natCast_nonneg _)
    rw [add_mul, one_mul] at next
    rw [List.foldl_cons]
    have step := cellMerge_fits (c := c) (d := cellAdd 0 x) plain plain1
    rw [one] at step
    have bounds : -((n + 1 : Nat) * (2 ^ 289 : Nat) : Int) ≤ cellVal c + cellTerm x ∧ cellVal c + cellTerm x ≤ (n + 1 : Nat) * (2 ^ 289 : Nat) ∧
        -(2 ^ 479 : Nat) ≤ cellVal c + cellTerm x ∧ cellVal c + cellTerm x < (2 ^ 479 : Nat) := by
      rw [Nat.cast_add, Nat.cast_one, add_mul, one_mul]
      generalize (2 ^ 289 : Nat) = a at *
      generalize (2 ^ 479 : Nat) = b at *
      generalize (n : Int) * (a : Int) = p at *
      omega
    obtain ⟨value, plain'⟩ := step bounds.2.2.1 bounds.2.2.2
    obtain ⟨total, plainT⟩ := ih (fun x held => finite x (List.mem_cons_of_mem _ held)) (cellMerge c (cellAdd 0 x)) (n + 1) plain'
      (value ▸ bounds.1) (value ▸ bounds.2.1) (by omega)
    refine ⟨?_, plainT⟩
    rw [total, value, List.map_cons, List.sum_cons, Int.add_assoc]

/-- R287: an FP32 sum of a collective is the exact sum of its members' values, rounded once. -/
theorem collSum_exact (xs : List Word) (few : xs.length ≤ 512) (finite : ∀ x ∈ xs, ∃ a b c d, dec .f32 x.toNat = .fin a b c d) :
    collSum 0 xs = (rne .f32 (ofInt (xs.map cellTerm).sum (-160) false)).1 := by
  obtain ⟨value, plain⟩ := cells_sum xs finite 0 0 (Nat.two_pow_pos 480) (by decide) (by decide) (by omega)
  have zero : cellVal 0 = 0 := by decide
  have run : collSum 0 xs = (cellRead (xs.foldl (fun c x => cellMerge c (cellAdd 0 x)) 0)).1 := rfl
  rw [run, cellRead_noFlags plain, value, zero, Int.zero_add]

end Sys2Proof.Machine
end

section
/-! The work of HDEF, COPY, CFILL and COLL when they begin (R272, R276, R277, R287). -/

namespace Sys2Proof.Machine

variable {s x : State} {t : Team} {e : Nat} {k : Cmd}

-- Memory work

theorem mbind_ok {α β : Type} {m : MemR α} {v : α} (ok : m = (x, .ok v)) (f : State → α → MemR β) : mbind m f = f x v := by
  rw [ok]
  rfl

/-- A command that does not read the array does its work where its acquire has dropped the copies of its scope. -/
theorem beginWork_eq (reads : readsArray k.kind = false) : beginWork s t e k = cmdWork (workState s t e k) (t.asFound k) e k := by
  unfold beginWork
  exact if_neg (by simp [reads])

-- Boxes

theorem all_dims {p : Nat → Bool} : (List.range 4).all p = false ↔ ∃ j : Fin 4, p j = false := by
  rw [List.all_eq_false]
  constructor
  · rintro ⟨j, inside, fails⟩
    exact ⟨⟨j, List.mem_range.mp inside⟩, by simpa using fails⟩
  · rintro ⟨j, fails⟩
    exact ⟨j, List.mem_range.mpr j.isLt, by simp [fails]⟩

theorem dims_getD (f : Nat → Nat) (j : Fin 4) : ((List.range 4).map f).getD j 0 = f j := by
  simp

/-- An empty box (R276). -/
theorem boxExt_empty (b : Nat) : (boxExt b).any (· == 0) = true ↔ ∃ j : Fin 4, fld b (287 + 32 * j) (256 + 32 * j) = 0 := by
  unfold boxExt
  rw [List.any_map, List.any_eq_true]
  constructor
  · rintro ⟨j, inside, zero⟩
    exact ⟨⟨j, List.mem_range.mp inside⟩, by simpa using zero⟩
  · rintro ⟨j, zero⟩
    exact ⟨j, List.mem_range.mpr j.isLt, by simpa using zero⟩

/-- A box that does not lie within a view (R276). -/
theorem boxFits_false (r : Nat) (o x : Nat → Nat) : boxFits r ((List.range 4).map o) ((List.range 4).map x) = false ↔
    ∃ j : Fin 4, hView r j < o j + x j := by
  unfold boxFits
  rw [all_dims]
  simp only [dims_getD, decide_eq_false_iff_not, not_le]

theorem copyOk_iff (f g : Nat) : copyOk f g = true ↔ f = g ∨ (g ≠ 9 ∧ f < 10 ∧ g < 10) := by
  simp [copyOk, hRaw, and_assoc]

/-- The status with which a COPY within the package ends (R276, R277). -/
def copyStatus (rs rd b : Nat) : Nat :=
  if fld b 511 448 ≠ 0 then 2
  else if !copyOk (hFmt rs) (hFmt rd) then 4
  else if (boxExt b).any (· == 0) then 1
  else if !(boxFits rs (boxSrc b) (boxExt b) && boxFits rd (boxDst b) (boxExt b)) then 3
  else if rangesMeet (boxRange rs (boxSrc b) (boxElems (boxExt b))) (boxRange rd (boxDst b) (boxElems (boxExt b))) then 5
  else 0

theorem copyStatus_eq (rs rd b : Nat) :
    let src := fun j => fld b (31 + 32 * j) (32 * j)
    let dst := fun j => fld b (159 + 32 * j) (128 + 32 * j)
    let ext := fun j => fld b (287 + 32 * j) (256 + 32 * j)
    copyStatus rs rd b = if fld b 511 448 ≠ 0 then 2
      else if ¬(hFmt rs = hFmt rd ∨ (hFmt rd ≠ 9 ∧ hFmt rs < 10 ∧ hFmt rd < 10)) then 4
      else if ∃ j : Fin 4, ext j = 0 then 1
      else if ∃ j : Fin 4, hView rs j < src j + ext j ∨ hView rd j < dst j + ext j then 3
      else if rangesMeet (boxRange rs (boxSrc b) (boxElems (boxExt b))) (boxRange rd (boxDst b) (boxElems (boxExt b))) = true then 5
      else 0 := by
  intro src dst ext
  have formats : (!copyOk (hFmt rs) (hFmt rd)) = true ↔ ¬(hFmt rs = hFmt rd ∨ (hFmt rd ≠ 9 ∧ hFmt rs < 10 ∧ hFmt rd < 10)) := by
    rw [← copyOk_iff, Bool.not_eq_true', Bool.not_eq_true]
  have fits : (!(boxFits rs (boxSrc b) (boxExt b) && boxFits rd (boxDst b) (boxExt b))) = true ↔
      ∃ j : Fin 4, hView rs j < src j + ext j ∨ hView rd j < dst j + ext j := by
    rw [Bool.not_eq_true', Bool.and_eq_false_iff]
    have hs := boxFits_false rs src ext
    have hd := boxFits_false rd dst ext
    exact (or_congr hs hd).trans exists_or.symm
  unfold copyStatus
  simp only [formats, boxExt_empty, fits, ext]

/-- COPY within the package, with its record read and its handles defined. -/
theorem runCopy_ends {hd hs a b rs rd : Nat} (read : readNat s t e a 64 = (x, .ok b)) (source : t.record hs = some rs)
    (dest : t.record hd = some rd) (near : fld b 447 416 = 0) :
    (copyStatus rs rd b ≠ 0 → runCopy s t e hd hs a = (x, .ok (copyStatus rs rd b))) ∧
    ∀ y, copyStatus rs rd b = 0 →
      mfold (fun s _ j => moveElem s t e rs rd (addIdx (boxSrc b) j) (addIdx (boxDst b) j)) (boxElems (boxExt b)) x () = (y, .ok ()) →
      runCopy s t e hd hs a = (y, .ok 0) := by
  have run : runCopy s t e hd hs a = if copyStatus rs rd b ≠ 0 then (x, .ok (copyStatus rs rd b)) else
      mbind (mfold (fun s _ j => moveElem s t e rs rd (addIdx (boxSrc b) j) (addIdx (boxDst b) j)) (boxElems (boxExt b)) x ())
        (fun s _ => mpure s 0) := by
    unfold runCopy
    rw [mbind_ok read, source, dest]
    have here : boxEndp b = 0 := near
    simp only [copyStatus, here, ne_eq, not_true_eq_false, decide_false, Bool.not_false, Bool.true_and, Bool.false_and,
      Bool.false_eq_true, if_false]
    split
    · rfl
    · split
      · rfl
      · split
        · rfl
        · split
          · rfl
          · split <;> rfl
  refine ⟨fun some_ => run.trans (if_pos some_), fun y none_ moved => run.trans ?_⟩
  rw [if_neg (not_not.mpr none_), mbind_ok moved]
  rfl

/-- COPY, with a handle that is not defined. -/
theorem runCopy_undefined {hd hs a b : Nat} (read : readNat s t e a 64 = (x, .ok b)) (missing : t.record hs = none ∨ t.record hd = none) :
    runCopy s t e hd hs a = (x, .ok 2) := by
  unfold runCopy
  rw [mbind_ok read]
  rcases missing with source | dest
  · rw [source]
    rfl
  · rw [dest]
    cases t.record hs <;> rfl

/-- The status with which a CFILL ends (R276, R285). -/
def cfillStatus (r b : Nat) : Nat :=
  if fld b 511 416 ≠ 0 then 2
  else if hFmt r = 9 then 4
  else if (boxExt b).any (· == 0) then 1
  else if !boxFits r (boxDst b) (boxExt b) then 3
  else 0

theorem cfillStatus_eq (r b : Nat) :
    let dst := fun j => fld b (159 + 32 * j) (128 + 32 * j)
    let ext := fun j => fld b (287 + 32 * j) (256 + 32 * j)
    cfillStatus r b = if fld b 511 416 ≠ 0 then 2 else if hFmt r = 9 then 4 else if ∃ j : Fin 4, ext j = 0 then 1
      else if ∃ j : Fin 4, hView r j < dst j + ext j then 3 else 0 := by
  intro dst ext
  have fits : (!boxFits r (boxDst b) (boxExt b)) = true ↔ ∃ j : Fin 4, hView r j < dst j + ext j := by
    rw [Bool.not_eq_true']
    exact boxFits_false r dst ext
  unfold cfillStatus
  simp only [boxExt_empty, fits, ext]

/-- What CFILL does with one element. -/
def fillElem (t : Team) (e r b : Nat) (s : State) (_ : Unit) (j : List Nat) : MemR Unit :=
  if 10 ≤ hFmt r ∨ hFmt r = 0 then writeCode s t e r (addIdx (boxDst b) j) (fld b 415 384)
  else writeElem s t e r (addIdx (boxDst b) j) (dec .f32 (fld b 415 384))

/-- CFILL, with its record read and its handle defined. -/
theorem runCfill_ends {h a b r : Nat} (read : readNat s t e a 64 = (x, .ok b)) (dest : t.record h = some r) :
    (cfillStatus r b ≠ 0 → runCfill s t e h a = (x, .ok (cfillStatus r b))) ∧
    ∀ y, cfillStatus r b = 0 → mfold (fillElem t e r b) (boxElems (boxExt b)) x () = (y, .ok ()) → runCfill s t e h a = (y, .ok 0) := by
  have run : runCfill s t e h a = if cfillStatus r b ≠ 0 then (x, .ok (cfillStatus r b)) else
      mbind (mfold (fillElem t e r b) (boxElems (boxExt b)) x ()) (fun s _ => mpure s 0) := by
    unfold runCfill
    rw [mbind_ok read, dest]
    have each : fillElem t e r b = fun s _ y => if hRaw (hFmt r) = true ∨ hFmt r = 0 then writeCode s t e r (addIdx (boxDst b) y) (boxFill b)
        else writeElem s t e r (addIdx (boxDst b) y) (dec .f32 (boxFill b)) := by
      funext s u y
      simp only [fillElem, hRaw, decide_eq_true_eq]
      rfl
    rw [each]
    simp only [cfillStatus, ne_eq]
    split
    · rfl
    · split
      · rfl
      · split
        · rfl
        · split <;> rfl
  refine ⟨fun some_ => run.trans (if_pos some_), fun y none_ filled => run.trans ?_⟩
  rw [if_neg (not_not.mpr none_), mbind_ok filled]
  rfl

theorem runCfill_undefined {h a b : Nat} (read : readNat s t e a 64 = (x, .ok b)) (missing : t.record h = none) :
    runCfill s t e h a = (x, .ok 2) := by
  unfold runCfill
  rw [mbind_ok read, missing]
  rfl

end Sys2Proof.Machine
end

section
/-! What a write of an engine context leaves (R189, R278): its bytes stand in the context's buffer. -/

namespace Sys2Proof.Machine

variable {s y : State} {t u : Team} {e a : Nat} {bs : List Byte}

theorem agentMem_noteHome (s : State) (w h : Nat) (ag : Agent) : agentMem (noteHome s w h) ag = agentMem s ag := by
  cases ag with
  | core n => rfl
  | ctx v e =>
    have contexts : byTeam Team.ectx (noteHome s w h) = byTeam Team.ectx s := by
      refine modTeam_byTeam _ s w _ fun x => ?_
      split <;> exact ⟨rfl, rfl⟩
    have same := map_byTeam contexts v
    rw [agentMem, agentMem]
    cases here : findTeam s v <;> cases there : findTeam (noteHome s w h) v <;> rw [here, there] at same <;> simp_all [Team.ctxOf]

theorem buffered_merge_other (m : LocalMem) {l l' : Line} (other : l' ≠ l) (new : List BufByte) (o : Nat) :
    (m.merge l new).buffered l' o = m.buffered l' o := by
  have entry : (m.merge l new).entry l' = m.entry l' := by
    rw [LocalMem.entry, LocalMem.merge, LocalMem.entry]
    dsimp only
    rw [List.find?_cons_of_neg (by simpa using other.symm), List.find?_filter]
    refine congrArg (fun p => ((m.buf.find? p).map (·.2)).getD []) (funext fun p => ?_)
    by_cases same : p.1 = l'
    · simp [same, other]
    · simp [same]
  rw [LocalMem.buffered, LocalMem.buffered, entry]

/-- A write that is accepted and stays within its line. -/
theorem writeCtx_merges (found : findTeam s t.uid = some u) (within : e < u.ectx.length) (fits : a % 128 + bs.length ≤ 128)
    (wrote : writeCtx s t e a bs = (y, .ok ())) : y.mem = s.mem ∧ ∃ lane cmd era, agentMem y (.ctx t.uid e) =
      (agentMem s (.ctx t.uid e)).merge (lineOf t.ctx a) ((List.range bs.length).map fun i =>
        { off := a % 128 + i, val := bs.getD i 0, team := t.uid, lane := lane, port := none, cmd := cmd, era := era, insn := 0 }) := by
  have noted : byTeam Team.tracked (noteHome s t.uid (homeOf a)) = byTeam Team.tracked s := noteHome_tracked ..
  obtain ⟨x, foundX, same⟩ := found_byTeam noted found
  have count := congrArg (fun r => r.1.length) same
  simp only [Team.tracked, List.length_map] at count
  have present : Present (noteHome s t.uid (homeOf a)) (.ctx t.uid e) := ⟨x, foundX, by omega⟩
  unfold writeCtx at wrote
  split at wrote
  · cases wrote
  · obtain rfl : _ = y := congrArg Prod.fst wrote
    dsimp only [mpure]
    rw [storeBytes_of_fits fits]
    refine ⟨rfl, ((headCmd t e).map (·.who)).getD 0, ((headCmd t e).map (·.no)).getD 0, (noteHome s t.uid (homeOf a)).era, ?_⟩
    rw [agentMem_modAgent _ present, agentMem_noteHome]

theorem writeCtx_buffered (found : findTeam s t.uid = some u) (within : e < u.ectx.length) (fits : a % 128 + bs.length ≤ 128)
    (wrote : writeCtx s t e a bs = (y, .ok ())) : y.mem = s.mem ∧ ∀ o,
      (agentMem y (.ctx t.uid e)).buffered (lineOf t.ctx a) o = if a % 128 ≤ o ∧ o < a % 128 + bs.length then bs[o - a % 128]?
        else (agentMem s (.ctx t.uid e)).buffered (lineOf t.ctx a) o := by
  obtain ⟨mem, lane, cmd, era, merged⟩ := writeCtx_merges found within fits wrote
  exact ⟨mem, fun o => by rw [merged]; exact buffered_merge ..⟩

theorem toBytes_byte (n v i : Nat) (inside : i < n) : (toBytes n v)[i]? = some (BitVec.ofNat 8 (v / 256 ^ i)) := by
  induction n generalizing v i with
  | zero => omega
  | succ n ih =>
    cases i with
    | zero => simp [toBytes]
    | succ i =>
      rw [toBytes, List.getElem?_cons_succ, ih _ i (by omega), Nat.div_div_eq_div_mul, Nat.pow_succ, Nat.mul_comm]

/-- The bytes of an element of whole bytes that stays within its line (R277). -/
theorem writeCode_buffered {r n : Nat} {j : List Nat} (found : findTeam s t.uid = some u) (within : e < u.ectx.length)
    (whole : hBytes (hFmt r) ≠ 0) (fits : (hAddr r j).1 % 128 + hBytes (hFmt r) ≤ 128) (wrote : writeCode s t e r j n = (y, .ok ())) :
    y.mem = s.mem ∧ ∀ o, (agentMem y (.ctx t.uid e)).buffered (lineOf t.ctx (hAddr r j).1) o =
      if (hAddr r j).1 % 128 ≤ o ∧ o < (hAddr r j).1 % 128 + hBytes (hFmt r) then
        some (BitVec.ofNat 8 (elemCode r n / 256 ^ (o - (hAddr r j).1 % 128)))
      else (agentMem s (.ctx t.uid e)).buffered (lineOf t.ctx (hAddr r j).1) o := by
  unfold writeCode at wrote
  dsimp only at wrote
  rw [if_pos whole] at wrote
  obtain ⟨mem, buffered⟩ := writeCtx_buffered found within (by rw [length_toBytes]; exact fits) wrote
  refine ⟨mem, fun o => (buffered o).trans ?_⟩
  rw [length_toBytes]
  split
  · exact toBytes_byte _ _ _ (by omega)
  · rfl

end Sys2Proof.Machine
end

section
/-! O24. The commands of copies, handles and collectives, and TLSIG: their places, and the work of each. -/

namespace Sys2Proof.Machine

variable {s : State} {c : Common} {v : View} {t : Team} {e : Nat} {k : Cmd}

-- TLSIG (R105)

/-- Commands that no flag counts, placed without an operation. -/
theorem placed_of_near {f : Front} {own : View → Option FaultInfo} (h : Passes s c f own v) (unused : c.setf = 0) {p : State} (near : Near s p v)
    {l m : List Ctx} (before : ectxs s v = some l) (after : ectxs p v = some m) (others : ∀ j, j ≠ e → m.getD j Ctx.empty = l.getD j Ctx.empty)
    {sc : Scope} {kinds : List CmdKind}
    (issued : (m.getD e Ctx.empty).issued = (l.getD e Ctx.empty).issued + BitVec.ofNat 64 kinds.length)
    (queue : ∃ cs : List Cmd, (m.getD e Ctx.empty).queue = (l.getD e Ctx.empty).queue ++ cs ∧ cs.map (·.kind) = kinds ∧
      cs.map (·.no) = (List.range kinds.length).map (fun j => (l.getD e Ctx.empty).issued.toNat + 1 + j) ∧
      ∀ x ∈ cs, x.sc = sc ∧ x.st = .queued ∧ x.gang = v.iss.gang) :
    Placed s (afterSlot p v false WinSlot.none) v c e sc kinds := by
  obtain ⟨-, -, place, bay, -⟩ := issueView_eq h.view
  obtain ⟨⟨x, found, count⟩, group, -⟩ := h.stands
  obtain ⟨y, foundY, lanes, results, cregs, flags⟩ := near.gang x found
  have ends := afterSlot_end p v false WinSlot.none foundY place
  have here := gangOf_eq found
  have there := gangOf_eq foundY
  have old (j : Nat) : ctxAt s v j = l.getD j Ctx.empty := by rw [ctxAt_eq, before]; rfl
  have new_ (j : Nat) : ctxAt (afterSlot p v false WinSlot.none) v j = m.getD j Ctx.empty := by rw [ctxAt_eq, ectxs_afterSlot, after]; rfl
  refine ⟨?_, ?_, fun j other => ?_, fun i _ => ?_, fun i _ => ?_, ?_, fun n => ?_, ?_, fun u other => ?_, ?_, ?_, ?_, ?_, ?_⟩
  · rw [new_, old, place]
    exact queue
  · rw [new_, old]
    exact issued
  · rw [new_, old]
    exact others j other
  · rw [ends.regs, laneOf, there, (results i).1, laneOf, here]
  · rw [ends.fst, laneOf, there, (results i).2, laneOf, here]
  · rw [ends.cregs, there, cregs, here]
  · rw [if_neg (by rintro ⟨rfl, some_, -⟩; exact some_ unused), Gang.flag, ends.flags, there, flags, here]
    rfl
  · exact ends.elsewhere.mem.trans near.mem
  · exact (ends.elsewhere.teams u other).trans (near.teams u other)
  · exact ends.elsewhere.launches.trans near.launches
  · exact ends.elsewhere.dies.trans near.dies
  · exact ends.elsewhere.mgmt.trans near.mgmt
  · exact afterSlot_advanced p v false WinSlot.none ((congrArg Bay.issue (near.bays _ _)).trans bay)
  · by_cases more : v.iss.slot < v.iss.ni
    · exact .inl more
    · refine .inr fun i own => ?_
      rw [ends.pc i (by rw [there, lanes, count]; exact group i own), slotPc, if_neg more, if_pos (by simpa using own)]

theorem tlsig_places (sc : Scope) (unused : c.setf = 0) :
    Places s c v (.tlsig c sc e) {} noOwn True e sc (if v.acting = [] then [] else [.tlsig]) := by
  intro h within room _
  obtain ⟨found, -, place, -⟩ := issueView_eq h.view
  have before : ectxs s v = some v.team.ectx := by rw [ectxs, found]; rfl
  have run : exec (.tlsig c sc e) s = .next (afterSlot (if v.acting.isEmpty then s else placeCmd s v.iss.team v.g e .tlsig sc 0 none
      (v.gang.lane (v.acting.headD 0)).ident [] v.active (insn := v.word)) v false WinSlot.none) := issueChecks_pass h _
  refine ⟨_, run, ?_⟩
  by_cases none_ : v.acting = []
  · rw [none_, if_pos rfl, if_pos List.isEmpty_nil]
    exact placed_of_near h unused (.refl s v) before before (fun _ _ => rfl) (by simp) ⟨[], by simp, rfl, rfl, by simp⟩
  · rw [if_neg none_, if_neg (by simpa using none_), place]
    obtain ⟨near, cmd, kind, no, scope, state, gang, after⟩ := placeCmd_placed s v e .tlsig sc 0 none (v.gang.lane (v.acting.headD 0)).ident []
      v.active none v.word before
    have modified (j : Nat) : (v.team.ectx.modify e (fun c => { c with issued := c.issued + 1, scopes := c.scopes ++ [sc], queue := c.queue ++ [cmd] })).getD
        j Ctx.empty = if j = e then { v.team.ectx.getD e Ctx.empty with
          issued := (v.team.ectx.getD e Ctx.empty).issued + 1, scopes := (v.team.ectx.getD e Ctx.empty).scopes ++ [sc],
          queue := (v.team.ectx.getD e Ctx.empty).queue ++ [cmd] } else v.team.ectx.getD j Ctx.empty := by
      by_cases same : j = e
      · subst same
        simp [within]
      · simp [same, Ne.symm same]
    refine placed_of_near h unused near before after (fun j other => (modified j).trans (if_neg other)) ?_ ⟨[cmd], ?_, ?_, ?_, ?_⟩
    · rw [modified, if_pos rfl]
      rfl
    · rw [modified, if_pos rfl]
    · rw [List.map_cons, kind]
      rfl
    · rw [List.map_cons, no]
      rfl
    · intro x held
      rw [List.mem_singleton.mp held]
      exact ⟨scope, state, gang⟩

/-- A command instruction at an address: a command for each lane that acts. -/
theorem addrCmd_places {i : Instr} {d base : Name} {a64 : Bool} {align : Nat} {sc : Scope} {kind : DWord → CmdKind}
    (run : exec i s = execCmd c (addrCmd s d base a64 align e sc kind) s) :
    let f : Front := { srcs := addrSrcs base a64, dst := d1 d, allowQ := false }
    Places s c v i f (baseOwn base a64) (Reaches s (v.actors f false) (fun i => v.addr s.fresh i base a64 0) align .all) e sc
      ((v.actors f false).map (fun i => kind (BitVec.ofNat 64 (v.addr s.fresh i base a64 0)))) := by
  intro f h within room good
  obtain ⟨r, ran, placed, -⟩ := execCmd_placed (m := addrCmd s d base a64 align e sc kind) h (fun _ _ => ⟨rfl, rfl⟩) (fun _ => rfl) within
    (v.actors f false) (by simp [View.actors, f, addrCmd]) (by rwa [List.length_map] at room) (by
      intro a own i held
      cases own
      exact good i held)
  exact ⟨r, run.trans ran, placed⟩

-- Collectives (R287)

/-- COLL, with its record read. -/
theorem collWork {a : DWord} {x : State} {r : Nat} (kind : k.kind = .coll a) (read : readNat s t e a.toNat 128 = (x, .ok r)) :
    let st := if collBadGrp x r = true then 7 else if 3 ≤ fld r 679 676 ∨ (fld r 679 676 = 2 ∧ fld r 675 672 < 2) then 4
      else if fld r 671 640 = 0 then 1 else 0
    let W := cmdWork s t e k
    (st ≠ 0 → W.s = x ∧ W.out = .done st) ∧
    (st = 0 → fld r 703 703 = 0 → W.s = x ∧ W.out = .wait ∧ (W.upd k).st = .waiting ∧ (W.upd k).rcd = r) := by
  intro st W
  have work : W = match collCheck x r with
      | some o => { s := x, out := o }
      | none => { s := collTell x t e r, out := .wait, upd := fun c => { c with rcd := r, st := .waiting } } := by
    simp only [W, cmdWork, kind, read] <;> rfl
  have here (one : fld r 703 703 = 0) : collUnreachable x r = false ∧ collTell x t e r = x := by
    have off : collNet r = false := by
      rw [collNet, one]
      rfl
    exact ⟨by rw [collUnreachable, off, Bool.false_and], by rw [collTell, off]; rfl⟩
  have check : collCheck x r = if st ≠ 0 then some (.done st) else if collUnreachable x r then some (.stop .poison (collDst r)) else none := by
    simp only [collCheck, st, collDtype, collKind, collCount]
    by_cases group : collBadGrp x r = true
    · simp only [if_pos group]
      rfl
    · by_cases format : 3 ≤ fld r 679 676 ∨ (fld r 679 676 = 2 ∧ fld r 675 672 < 2)
      · simp only [if_neg group, if_pos format]
        exact if_pos format
      · by_cases empty : fld r 671 640 = 0
        · simp only [if_neg group, if_neg format, if_pos empty]
          exact (if_neg format).trans (if_pos empty)
        · simp only [if_neg group, if_neg format, if_neg empty]
          exact (if_neg format).trans (if_neg empty)
  refine ⟨fun ends => ?_, fun goes one => ?_⟩
  · rw [work, check, if_pos ends]
    exact ⟨rfl, rfl⟩
  · obtain ⟨reached, told⟩ := here one
    rw [work, check, if_neg (not_not.mpr goes), reached, if_neg Bool.false_ne_true]
    exact ⟨told, rfl, rfl, rfl⟩

/-- What the members send, element by element, as an all-gather delivers it (R287). -/
theorem gather_eq {n : Nat} (data : List (Nat × List Word)) (full : ∀ x ∈ data, x.2.length = n) :
    data.flatMap (fun x => (List.range n).map (fun i => (x.2.getD i 0).toNat)) = (data.flatMap (·.2)).map BitVec.toNat := by
  rw [List.map_flatMap]
  refine List.flatMap_congr fun x held => ?_
  refine List.ext_getElem (by simp [full x held]) fun i h1 h2 => ?_
  have inside : i < x.2.length := by simpa using h2
  simp [inside]

/-- The exchange of members that match. -/
theorem runExchange_runs {r : Nat} {others : List Member} {mine : List Word} {x y : State} (agree : others.all (collAgrees r) = true)
    (places : collPlaces r = none) (sends : collHasSrc s r = true) (read : collRead s t e r = (x, .ok mine))
    (wrote : collWrite x t e r (collResult r (collSelf s r) ((collList r).map (fun d => (d, if d = collSelf s r then mine
      else ((others.find? (fun z => z.device == d)).map (·.elems)).getD [])))) = (y, .ok ())) : runExchange s t e r others = (y, .ok 0) := by
  unfold runExchange
  rw [if_neg (by simp [agree]), places]
  dsimp only
  rw [if_pos sends, mbind_ok read, mbind_ok wrote]
  rfl

/-- Settles O24: the places from `execCmd_placed`, the work of each command from its own lemma, the values from those on handles, codebooks
and cells. -/
theorem copyCommandsPlaced : Obligations.CopyCommandsPlaced := by
  unfold Obligations.CopyCommandsPlaced
  refine fun s c v => ⟨fun d addr h e sc a64 => addrCmd_places rfl, fun d addr hd hs e sc a64 => addrCmd_places rfl,
    fun d addr h e sc a64 => addrCmd_places rfl, fun d addr e sc a64 => addrCmd_places rfl, fun sc e unused => tlsig_places sc unused,
    fun t e k => ⟨fun kind => ?_, fun h a x r kind read => ?_, fun hd hs a x b kind read => ?_, fun h a x b kind read => ?_, fun a x r kind read => ?_⟩,
    hBad_iff, fun r j0 j1 j2 j3 => ⟨fun whole => hAddr_bytes whole j0 j1 j2 j3, fun half low high => hAddr_half half low high⟩,
    fun t e rs rd js jd x => ⟨fun n same read => ?_, fun f n g other read float => ?_, fun f n y bk other read book readBk => ?_⟩,
    fun bk neg m e st own => bookIndex_nearest bk neg m e st own,
    fun t u e r j n y found within whole fits wrote => ?_,
    fun t e r others mine x y agree places sends read wrote => runExchange_runs agree places sends read wrote,
    fun r self data => ⟨fun sum => ?_, fun part => ?_, fun gather full => ?_⟩, fun xs few finite => collSum_exact xs few finite⟩
  · simp only [beginWork_eq (congrArg readsArray kind), cmdWork, kind, and_self]
  · simp only [beginWork_eq (congrArg readsArray kind), cmdWork, kind, read, and_self]
  · simp only [beginWork_eq (congrArg readsArray kind), cmdWork, kind]
    refine ⟨fun missing => ?_, fun rs rd source dest near => ?_⟩
    · rw [runCopy_undefined read missing]
      exact ⟨rfl, rfl⟩
    · obtain ⟨ends, moves⟩ := runCopy_ends read source dest near
      rw [copyStatus_eq] at ends moves
      refine ⟨fun some_ => ?_, fun y none_ moved => ?_⟩
      · rw [ends some_]
        exact ⟨rfl, rfl⟩
      · rw [moves y none_ moved]
        exact ⟨rfl, rfl⟩
  · simp only [beginWork_eq (congrArg readsArray kind), cmdWork, kind]
    refine ⟨fun missing => ?_, fun r dest => ?_⟩
    · rw [runCfill_undefined read missing]
      exact ⟨rfl, rfl⟩
    · obtain ⟨ends, fills⟩ := runCfill_ends read dest
      rw [cfillStatus_eq] at ends fills
      refine ⟨fun some_ => ?_, fun y none_ filled => ?_⟩
      · rw [ends some_]
        exact ⟨rfl, rfl⟩
      · rw [fills y none_ filled]
        exact ⟨rfl, rfl⟩
  · rw [beginWork_eq (congrArg readsArray kind)]
    exact collWork kind read
  · rw [moveElem, if_pos same, mbind_ok read]
  · rw [moveElem, if_neg other, mbind_ok read, writeElem, float]
  · rw [moveElem, if_neg other, mbind_ok read, writeElem, book]
    exact mbind_ok readBk _
  · obtain ⟨mem, buffered⟩ := writeCode_buffered found within whole fits wrote
    refine ⟨mem, fun i inside => (buffered _).trans ?_⟩
    rw [if_pos (by omega), Nat.add_sub_cancel_left, elemCode]
  · unfold collResult
    rw [show collKind r = 0 from sum]
    rfl
  · have some_ : collOut r = fld r 671 640 / (collList r).length := by
      unfold collOut
      rw [show collKind r = 1 from part]
      rfl
    unfold collResult
    rw [show collKind r = 1 from part]
    simp only [some_]
    rfl
  · unfold collResult
    rw [show collKind r = 2 from gather]
    exact gather_eq data full

end Sys2Proof.Machine
end

section
/-! The commands of the matrix array take their places (R298, R301, R303). -/

namespace Sys2Proof.Machine

variable {s : State} {c : Common} {v : View}

theorem popLane_results (b : Port) (p : Nat) (l : Lane) : (popLane b p l).2.regs = l.regs ∧ (popLane b p l).2.fst = l.fst := by
  unfold popLane
  extract_lets pos mark eos x
  have ends (l : Lane) (e : Bool) : (eos l e).regs = l.regs ∧ (eos l e).fst = l.fst := by
    simp only [eos]
    split <;> exact ⟨rfl, rfl⟩
  split
  · split
    · exact ⟨rfl, rfl⟩
    · split <;> exact ends ..
  · split
    · exact ends ..
    · exact ends ..

theorem popMany_results (b : Port) (p n : Nat) : ∀ l : Lane, (popMany b p n l).2.regs = l.regs ∧ (popMany b p n l).2.fst = l.fst := by
  induction n with
  | zero => exact fun _ => ⟨rfl, rfl⟩
  | succ n ih =>
    intro l
    have one := popLane_results b p l
    have rest := ih (popLane b p l).2
    exact ⟨rest.1.trans one.1, rest.2.trans one.2⟩

/-- The core in issue (log entry 2). -/
theorem focusCore_eq (h : issueView s c = some v) : focusCore s = coreOf s v.core := by
  unfold issueView at h
  split at h
  · cases h
  · next core bay focus =>
    split at h
    · cases h
    · split at h
      · cases h
      · split at h
        · cases h
        · cases h
          rw [focusCore, focus]
          rfl

/-- A command of the array, one for the issue group; the bank that it names is the current one of the core in issue. -/
theorem onArray_places {i : Instr} {m : CmdShape} {kind : CmdKind} {arr : Array → Array} (run : exec i s = execCmd c m s) (group : m.group = true)
    (array : m.array = true) (lanes : ∀ v i k, (m.onLane v i k).regs = k.regs ∧ (m.onLane v i k).fst = k.fst)
    (kinds : focusCore s = coreOf s v.core → m.kind v (v.acting.headD 0) = kind)
    (core : ∀ k, (m.onArray v k).bays = k.bays ∧ (m.onArray v k).order = k.order)
    (changes : focusCore s = coreOf s v.core → ∀ k, (m.onArray v k).arr = arr k.arr)
    (good : ∀ a, m.addr = some a → ∀ i ∈ v.acting.take 1, a.1 v i % a.2 = 0 ∧ servedFault s .all (a.1 v i) = none) :
    PlacesOnArray s c v i m.front m.own m.e m.sc kind arr := by
  intro h within room
  have focus := focusCore_eq h.view
  have few : (v.acting.take 1).length ≤ 1 := by simp
  obtain ⟨r, ran, placed, changed⟩ := execCmd_placed (m := m) h (lanes v) (fun k => (core k).1) within (v.acting.take 1) (by simp [group])
    (by omega) good
  have one : (v.acting.take 1).map (m.kind v) = if v.acting = [] then [] else [kind] := by
    rw [← kinds focus]
    cases v.acting <;> simp
  rw [one] at placed
  refine ⟨r, run.trans ran, placed, fun some_ => ?_⟩
  obtain ⟨x, xs, eq⟩ := List.exists_cons_of_ne_nil some_
  obtain ⟨arr', order⟩ := changed (by simp [eq])
  refine ⟨(order array).trans ?_, arr'.trans (changes focus _)⟩
  rw [(core _).2, eq]
  rfl

end Sys2Proof.Machine
end

section
/-! What the commands of the matrix array do when they begin (R295, R306, R313 to R317), but for WLD. -/

namespace Sys2Proof.Machine

variable {s x : State} {t : Team} {e : Nat} {k : Cmd}

-- The codes of a format

theorem withSign_lt {f : Fmt} {mag : Nat} (neg : Bool) (fits : mag < 2 ^ (fmtBits f - 1)) : withSign f neg mag < 2 ^ fmtBits f := by
  have double : 2 ^ fmtBits f = 2 ^ (fmtBits f - 1) + 2 ^ (fmtBits f - 1) := by cases f <;> rfl
  unfold withSign
  split <;> omega

theorem fmtMax_lt (f : Fmt) : fmtMax f < 2 ^ (fmtBits f - 1) := by
  cases f <;> decide

theorem fmtMax_inf_lt {f : Fmt} (inf : fmtInf f = true) : fmtMax f + 1 < 2 ^ (fmtBits f - 1) := by
  cases f <;> revert inf <;> decide

theorem ite_lt_top {f : Fmt} {b : Bool} (inf : b = true → fmtInf f = true) : (if b then fmtMax f + 1 else fmtMax f) < 2 ^ (fmtBits f - 1) := by
  split
  · next yes => exact fmtMax_inf_lt (inf yes)
  · exact fmtMax_lt f

theorem fmtNan_lt (f : Fmt) : fmtNan f < 2 ^ fmtBits f := by
  cases f <;> decide

/-- A rounded value is a code of its format. -/
theorem roundTo_lt (f : Fmt) (mode : Rnd) (rb : Nat) (sat : Bool) (x : Num) : (roundTo f mode rb sat x).1 < 2 ^ fmtBits f := by
  cases x with
  | nan i => exact fmtNan_lt f
  | inf neg =>
    rw [roundTo]
    split
    · next over_ => exact withSign_lt neg (fmtMax_inf_lt (Bool.and_eq_true_iff.mp over_).1)
    · exact withSign_lt neg (fmtMax_lt f)
  | fin neg m e st =>
    rw [roundTo]
    unfold roundFin
    split
    · exact withSign_lt neg (Nat.two_pow_pos _)
    · dsimp only
      split
      · refine withSign_lt neg (ite_lt_top fun over_ => ?_)
        exact (Bool.and_eq_true_iff.mp (Bool.and_eq_true_iff.mp over_).1).1
      · next small => exact withSign_lt neg (Nat.lt_of_le_of_lt (Nat.le_of_not_lt small) (fmtMax_lt f))

theorem rne_word (x : Num) : (BitVec.ofNat 32 (rne .f32 x).1).toNat = (rne .f32 x).1 := by
  rw [BitVec.toNat_ofNat]
  exact Nat.mod_eq_of_lt (roundTo_lt .f32 .rn 0 false x)

-- The sum (R295)

/-- Steps enough give the chain of sums of R295. -/
theorem sumSteps_chain (fa fb : Fmt) {g : Nat} (some_ : 0 < g) (fuel : Nat) : ∀ (ps : List (Nat × Nat)) (acc : Word), ps.length < fuel →
    Sums fa fb g ps acc (sumSteps fa fb g fuel acc ps) := by
  induction fuel with
  | zero => intro ps acc short; omega
  | succ fuel ih =>
    intro ps acc short
    cases ps with
    | nil =>
      have none_ : (([] : List (Nat × Nat)).length + g - 1) / g = 0 := Nat.div_eq_of_lt (by simp; omega)
      exact ⟨fun _ => acc, rfl, rfl, by rw [none_]; exact fun i inside => absurd inside (Nat.not_lt_zero i)⟩
    | cons p ps =>
      have full : (p :: ps).length = ps.length + 1 := rfl
      let acc' := BitVec.ofNat 32 (rne .f32 (sumNum false (dec .f32 acc.toNat :: ((p :: ps).take g).map (fun p => mulNum (dec fa p.1) (dec fb p.2))))).1
      obtain ⟨y, first, last, steps⟩ := ih ((p :: ps).drop g) acc' (by rw [List.length_drop]; omega)
      have count : ((p :: ps).length + g - 1) / g = (((p :: ps).drop g).length + g - 1) / g + 1 := by
        rw [List.length_drop, ← Nat.add_div_right _ some_]
        rcases Nat.le_total g (p :: ps).length with more | less
        · congr 1
          omega
        · rw [Nat.sub_eq_zero_of_le less]
          rw [Nat.div_eq_of_lt_le (k := 1) (by omega) (by omega), Nat.div_eq_of_lt_le (k := 1) (by omega) (by omega)]
      refine ⟨fun i => if i = 0 then acc else y (i - 1), rfl, ?_, fun i inside => ?_⟩
      · rw [count]
        exact last
      · cases i with
        | zero =>
          dsimp only
          rw [if_neg (by omega), if_pos rfl, Nat.zero_add, Nat.sub_self, first, Nat.zero_mul, List.drop_zero]
          exact rne_word _
        | succ i =>
          dsimp only
          rw [if_neg (by omega), if_neg (by omega), Nat.add_sub_cancel, Nat.add_sub_cancel, steps i (by omega), List.drop_drop, Nat.succ_mul,
            Nat.add_comm g]

theorem aG_pos (f : Fmt) : 0 < aG f := by
  cases f <;> decide

theorem latchG_pos (n : Nat) : 0 < latchG n := by
  unfold latchG
  split <;> omega

/-- What one element of an accumulator row takes. -/
theorem sumElem_sums (f : Fmt) (b : Bank) (acc : Word) (row : List Nat) (n : Nat) :
    Sums f (latchFmt b.latched) (min (aG f) (latchG b.latched)) ((List.range b.kl).map (fun i => (row.getD i 0, tget 0 b.w (128 * i + n))))
      acc (sumElem f b acc row n) :=
  sumSteps_chain _ _ (lt_min (aG_pos f) (latchG_pos _)) _ _ _ (by simp)

section
variable {α β : Type} [DecidableEq β] (d : β) (place : α → Nat) (f : α → β → β)

/-- Places of a table written one after the other, each from what stood there: a place that is not among them. -/
theorem tget_update_ne (l : List α) (p : Nat) (other : ∀ n ∈ l, place n ≠ p) (acc : Tab β) :
    tget d (l.foldl (fun acc n => tput d acc (place n) (f n (tget d acc (place n)))) acc) p = tget d acc p := by
  induction l generalizing acc with
  | nil => rfl
  | cons a l ih =>
    rw [List.foldl_cons, ih fun n held => other n (List.mem_cons_of_mem _ held)]
    exact tget_tput_ne _ _ _ (Ne.symm (other a List.mem_cons_self))

/-- One of those places. -/
theorem tget_update (l : List α) (apart : (l.map place).Nodup) (acc : Tab β) {n : α} (held : n ∈ l) :
    tget d (l.foldl (fun acc n => tput d acc (place n) (f n (tget d acc (place n)))) acc) (place n) = f n (tget d acc (place n)) := by
  induction l generalizing acc with
  | nil => cases held
  | cons a l ih =>
    rw [List.map_cons, List.nodup_cons] at apart
    obtain ⟨fresh, apart⟩ := apart
    rw [List.foldl_cons]
    rcases List.mem_cons.mp held with rfl | held
    · rw [tget_update_ne d place f l (place n) fun m hm same => fresh (List.mem_map.mpr ⟨m, hm, same⟩), tget_tput_same]
    · have other : place n ≠ place a := fun same => fresh (List.mem_map.mpr ⟨n, held, same⟩)
      rw [ih apart _ held, tget_tput_ne _ _ _ other]

end

/-- A row passes the array (R295, R298). -/
theorem passRow_sums (a : Sys2Proof.Machine.Array) (tile bank : Nat) (f : Fmt) (row : Nat × List Nat) (inside : tile < a.tiles.length) :
    let b := a.bank bank
    let x := (passRow a tile bank f row).tile tile
    (∀ n < 128, Sums f (latchFmt b.latched) (min (aG f) (latchG b.latched))
      ((List.range b.kl).map (fun i => (row.2.getD i 0, tget 0 b.w (128 * i + n))))
      (tget 0 (a.tile tile).acc (128 * row.1 + n)) (tget 0 x.acc (128 * row.1 + n))) ∧
    (∀ m n, n < 128 → m ≠ row.1 → tget 0 x.acc (128 * m + n) = tget 0 (a.tile tile).acc (128 * m + n)) ∧
    x.rs = (a.tile tile).rs ∧ x.cs = (a.tile tile).cs ∧ x.cb = (a.tile tile).cb := by
  intro b x
  have tile_ : x = { a.tile tile with acc := (List.range 128).foldl (fun acc n =>
      tput 0 acc (128 * row.1 + n) (sumElem f b (tget 0 acc (128 * row.1 + n)) row.2 n)) (a.tile tile).acc } := by
    simp only [x, passRow, Array.modTile, Array.tile, List.getD_eq_getElem?_getD, List.getElem?_modify]
    simp [inside, b]
  have apart : (List.range 128).Nodup := List.nodup_range
  have below (i : Nat) : i ∈ List.range 128 ↔ i < 128 := List.mem_range
  rw [tile_]
  clear_value x
  generalize List.range 128 = l at apart below
  refine ⟨fun n small => ?_, fun m n small other => ?_, rfl, rfl, rfl⟩
  · have written := tget_update (0 : Word) (fun n => 128 * row.1 + n) (fun n old => sumElem f b old row.2 n) l
      (apart.map fun i j same => Nat.add_left_cancel same) (a.tile tile).acc ((below n).mpr small)
    exact written ▸ sumElem_sums ..
  · refine tget_update_ne (0 : Word) (fun n => 128 * row.1 + n) (fun n old => sumElem f b old row.2 n) l _ (fun i held => ?_) _
    have := (below i).mp held
    omega

-- The words of a result (R314)

/-- The four elements of a result, in fields of one number. -/
theorem packed_four (field : Nat) (x : Nat → Nat) :
    (List.range ((List.range 4).map x).length).foldl (fun a j => a + 2 ^ (field * j) * ((List.range 4).map x).getD j 0) 0 =
      x 0 + 2 ^ field * x 1 + 2 ^ (field * 2) * x 2 + 2 ^ (field * 3) * x 3 := by
  have four : List.range 4 = [0, 1, 2, 3] := rfl
  simp [four]

/-- The words of a result from its four elements (R314). -/
theorem packRead_eq (f : Fmt) {x : Nat → Nat} (codes : ∀ j, x j < 2 ^ fmtBits f) :
    packRead f ((List.range 4).map x) =
      if f = .f32 then [BitVec.ofNat 32 (x 0), BitVec.ofNat 32 (x 1), BitVec.ofNat 32 (x 2), BitVec.ofNat 32 (x 3)]
      else if fmtBits f = 16 then [BitVec.ofNat 32 (x 0 + 2 ^ 16 * x 1), BitVec.ofNat 32 (x 2 + 2 ^ 16 * x 3)]
      else if f = .e2m1 then [BitVec.ofNat 32 (x 0 + 2 ^ 4 * x 1 + 2 ^ 8 * x 2 + 2 ^ 12 * x 3)]
      else [BitVec.ofNat 32 (x 0 + 2 ^ 8 * x 1 + 2 ^ 16 * x 2 + 2 ^ 24 * x 3)] := by
  have four : List.range 4 = [0, 1, 2, 3] := rfl
  have two : List.range 2 = [0, 1] := rfl
  unfold packRead
  dsimp only
  rw [packed_four]
  cases f
  case f32 =>
    have word : ∀ j, x j < 2 ^ 32 := codes
    have b0 := word 0
    have b1 := word 1
    have b2 := word 2
    have b3 := word 3
    simp only [readWords, four, if_pos, List.map_cons, List.map_nil, List.cons.injEq, and_true]
    refine ⟨?_, ?_, ?_, ?_⟩ <;> exact BitVec.eq_of_toNat_eq (by rw [BitVec.toNat_ofNat, BitVec.toNat_ofNat]; omega)
  case bf16 | f16 =>
    have half : ∀ j, x j < 2 ^ 16 := codes
    have b0 := half 0
    have b1 := half 1
    have b2 := half 2
    have b3 := half 3
    simp only [readWords, two, fmtBits, if_pos, List.map_cons, List.map_nil, List.cons.injEq, and_true, reduceCtorEq, if_false]
    refine ⟨?_, ?_⟩ <;> exact BitVec.eq_of_toNat_eq (by rw [BitVec.toNat_ofNat, BitVec.toNat_ofNat]; omega)
  all_goals simp [readWords, fmtBits]

end Sys2Proof.Machine
end

section
/-! The work of MZERO, MRD, MWR, MST and TBLLD (R313 to R317). -/

namespace Sys2Proof.Machine

variable {s x : State} {t : Team} {e : Nat} {k : Cmd}

/-- What a change of a core's array leaves in it. -/
theorem arr_modArr (f : Sys2Proof.Machine.Array → Sys2Proof.Machine.Array) {core : Nat} (here : core < s.cores.length) :
    (coreOf (modArr s core f) core).arr = f (coreOf s core).arr := by
  rw [modArr, coreOf_modCore s core _ here]

theorem tile_modTile (a : Sys2Proof.Machine.Array) (f : Tile → Tile) {tile : Nat} (here : tile < a.tiles.length) :
    (a.modTile tile f).tile tile = f (a.tile tile) := by
  simp [Array.modTile, Array.tile, List.getD_eq_getElem?_getD, here]

theorem bank_modBank (a : Sys2Proof.Machine.Array) (f : Bank → Bank) {bank : Nat} (here : bank < a.banks.length) :
    (a.modBank bank f).bank bank = f (a.bank bank) := by
  simp [Array.modBank, Array.bank, List.getD_eq_getElem?_getD, here]

/-- A command meets no error of the array where its core's array has none (R385). -/
theorem beginWork_of_good (good : s.badArrays.contains t.coreN = false) : beginWork s t e k = cmdWork (workState s t e k) (t.asFound k) e k := by
  unfold beginWork
  exact if_neg (by simp only [good, Bool.false_eq_true, and_false, not_false_eq_true])

-- MZERO (R313)

theorem mzero_work {tile : Nat} (kind : k.kind = .mzero tile) (here : t.coreN < s.cores.length) :
    (beginWork s t e k).out = .done 0 ∧ (beginWork s t e k).s.mem = s.mem ∧
      (coreOf (beginWork s t e k).s t.coreN).arr = (coreOf s t.coreN).arr.modTile tile (fun x => { emptyTile with cb := x.cb }) := by
  rw [beginWork_eq (by rw [kind]; rfl), cmdWork, kind]
  exact ⟨rfl, rfl, arr_modArr (s := workState s t e k) (fun a => runMzero a tile) here⟩

-- MRD (R314)

theorem mrd_work {tile : Nat} {act : Option Nat} {f : Fmt} {sat : Bool} {rows : Tab (Nat × Nat)} (kind : k.kind = .mrd tile act f sat rows)
    (good : s.badArrays.contains t.coreN = false) :
    (beginWork s t e k).s = workState s t e k ∧ (beginWork s t e k).out = .done 0 ∧
      ((beginWork s t e k).upd k).res = runMrd (workState s t e k) t.coreN tile act f sat rows := by
  rw [beginWork_of_good good, cmdWork, kind]
  exact ⟨rfl, rfl, rfl⟩

-- MWR (R315)

section
variable {β : Type} (place : β → Nat) (val : β → Word)

theorem getD_set_word (l : List Word) (p q : Nat) (v : Word) (room : p < l.length) : (l.set p v).getD q 0 = if p = q then v else l.getD q 0 := by
  rw [List.getD_eq_getElem?_getD, List.getD_eq_getElem?_getD, List.getElem?_set, if_pos room]
  split
  · rfl
  · rfl

theorem getD_sets_other (rows : List β) (p : Nat) (other : ∀ r ∈ rows, place r ≠ p) (l : List Word) :
    (rows.foldl (fun l r => l.set (place r) (val r)) l).getD p 0 = l.getD p 0 := by
  induction rows generalizing l with
  | nil => rfl
  | cons a rows ih =>
    rw [List.foldl_cons, ih fun r held => other r (List.mem_cons_of_mem _ held), List.getD_eq_getElem?_getD, List.getD_eq_getElem?_getD,
      List.getElem?_set_ne (other a List.mem_cons_self)]

theorem getD_sets (rows : List β) (apart : (rows.map place).Nodup) (l : List Word) (room : ∀ r ∈ rows, place r < l.length) {r : β} (held : r ∈ rows) :
    (rows.foldl (fun l r => l.set (place r) (val r)) l).getD (place r) 0 = val r := by
  induction rows generalizing l with
  | nil => cases held
  | cons a rows ih =>
    rw [List.map_cons, List.nodup_cons] at apart
    obtain ⟨fresh, apart⟩ := apart
    rw [List.foldl_cons]
    rcases List.mem_cons.mp held with rfl | held
    · rw [getD_sets_other place val rows _ fun m hm same => fresh (List.mem_map.mpr ⟨m, hm, same⟩), getD_set_word _ _ _ _ (room r held), if_pos rfl]
    · exact ih apart _ (fun m hm => by rw [List.length_set]; exact room m (List.mem_cons_of_mem _ hm)) held

end

theorem mwr_scales (a : Sys2Proof.Machine.Array) {tile : Nat} (rows : List (Nat × Nat × List Word)) (here : tile < a.tiles.length) :
    (runMwr a tile true rows).tile tile =
      { a.tile tile with rs := rows.foldl (fun l r => l.set r.1 (r.2.2.headD 0)) (a.tile tile).rs } := by
  rw [runMwr, tile_modTile _ _ here]
  generalize a.tile tile = x
  induction rows generalizing x with
  | nil => rfl
  | cons r rows ih =>
    rw [List.foldl_cons, ih]
    rfl

/-- The accumulators that the rows of an MWR name, with their words. -/
def mwrCells (rows : List (Nat × Nat × List Word)) : List ((Nat × Nat × List Word) × Nat) := rows.flatMap (fun r => (List.range 4).map (fun j => (r, j)))

def mwrPlace (x : (Nat × Nat × List Word) × Nat) : Nat := 128 * x.1.1 + x.1.2.1 + x.2

theorem mem_mwrCells {rows : List (Nat × Nat × List Word)} {x : (Nat × Nat × List Word) × Nat} : x ∈ mwrCells rows ↔ x.1 ∈ rows ∧ x.2 < 4 := by
  simp only [mwrCells, List.mem_flatMap, List.mem_map, List.mem_range]
  constructor
  · rintro ⟨r, held, j, small, rfl⟩
    exact ⟨held, small⟩
  · exact fun ⟨held, small⟩ => ⟨x.1, held, x.2, small, rfl⟩

theorem mwr_accumulators (a : Sys2Proof.Machine.Array) {tile : Nat} (rows : List (Nat × Nat × List Word)) (here : tile < a.tiles.length) :
    (runMwr a tile false rows).tile tile =
      { a.tile tile with acc := (mwrCells rows).foldl (fun acc x => tput 0 acc (mwrPlace x) (x.1.2.2.getD x.2 0)) (a.tile tile).acc } := by
  rw [runMwr, tile_modTile _ _ here]
  generalize a.tile tile = x
  induction rows generalizing x with
  | nil => rfl
  | cons r rows ih =>
    rw [List.foldl_cons, ih, mwrCells, mwrCells, List.flatMap_cons, List.foldl_append, List.foldl_map]
    rfl

/-- The accumulators that an MWR names are apart where its rows are. -/
theorem mwrCells_apart {rows : List (Nat × Nat × List Word)} (apart : (rows.map (·.1)).Nodup) (inside : ∀ r ∈ rows, r.2.1 + 4 ≤ 128) :
    ((mwrCells rows).map mwrPlace).Nodup := by
  have once : (mwrCells rows).Nodup := by
    refine List.nodup_flatMap.mpr ⟨fun r _ => List.nodup_range.map fun i j same => (Prod.ext_iff.mp same).2, ?_⟩
    refine (List.Nodup.of_map _ apart).imp fun {a b} differ => ?_
    intro y one two
    obtain ⟨_, _, rfl⟩ := List.mem_map.mp one
    obtain ⟨_, _, same⟩ := List.mem_map.mp two
    exact differ (Prod.ext_iff.mp same).1.symm
  refine List.Nodup.map_on (fun x hx y hy same => ?_) once
  obtain ⟨inx, smallx⟩ := mem_mwrCells.mp hx
  obtain ⟨iny, smally⟩ := mem_mwrCells.mp hy
  have hx := inside _ inx
  have hy := inside _ iny
  simp only [mwrPlace] at same
  have row : x.1 = y.1 := List.inj_on_of_nodup_map apart inx iny (by omega)
  exact Prod.ext row (by rw [row] at same; omega)

theorem mwr_work {tile : Nat} {rs : Bool} {rows : List (Nat × Nat × List Word)} (kind : k.kind = .mwr tile rs rows) (here : t.coreN < s.cores.length)
    (inside : tile < (coreOf s t.coreN).arr.tiles.length) (apart : (rows.map (·.1)).Nodup)
    (within : ∀ r ∈ rows, r.1 < 128 ∧ r.2.1 + 4 ≤ 128 ∧ r.1 < ((coreOf s t.coreN).arr.tile tile).rs.length) :
    (beginWork s t e k).out = .done 0 ∧ (beginWork s t e k).s.mem = s.mem ∧
      let x := (coreOf (beginWork s t e k).s t.coreN).arr.tile tile
      let old := (coreOf s t.coreN).arr.tile tile
      x.cs = old.cs ∧ x.cb = old.cb ∧
      (rs = true → x.acc = old.acc ∧ (∀ r ∈ rows, x.rs.getD r.1 0 = r.2.2.headD 0) ∧
        ∀ m, (∀ r ∈ rows, r.1 ≠ m) → x.rs.getD m 0 = old.rs.getD m 0) ∧
      (rs = false → x.rs = old.rs ∧ (∀ r ∈ rows, ∀ j < 4, tget 0 x.acc (128 * r.1 + r.2.1 + j) = r.2.2.getD j 0) ∧
        ∀ m n, n < 128 → (∀ r ∈ rows, r.1 = m → n < r.2.1 ∨ r.2.1 + 4 ≤ n) → tget 0 x.acc (128 * m + n) = tget 0 old.acc (128 * m + n)) := by
  rw [beginWork_eq (by rw [kind]; rfl), cmdWork, kind]
  refine ⟨rfl, rfl, ?_⟩
  have left := arr_modArr (s := workState s t e k) (fun a => runMwr a tile rs rows) here
  have same : (coreOf (workState s t e k) t.coreN).arr = (coreOf s t.coreN).arr := rfl
  rw [same] at left
  intro x old
  have x_ : x = (runMwr (coreOf s t.coreN).arr tile rs rows).tile tile := congrArg (Array.tile · tile) left
  clear_value x
  subst x_
  cases rs with
  | true =>
    rw [mwr_scales _ _ inside]
    refine ⟨rfl, rfl, fun _ => ⟨rfl, fun r held => ?_, fun m other => ?_⟩, fun no => by cases no⟩
    · exact getD_sets (fun r : Nat × Nat × List Word => r.1) (fun r => r.2.2.headD 0) rows apart _ (fun r held => (within r held).2.2) held
    · exact getD_sets_other (fun r : Nat × Nat × List Word => r.1) (fun r => r.2.2.headD 0) rows m other _
  | false =>
    rw [mwr_accumulators _ _ inside]
    refine ⟨rfl, rfl, nofun, fun _ => ⟨rfl, fun r held j small => ?_, fun m n small other => ?_⟩⟩
    · exact tget_update (0 : Word) mwrPlace (fun x _ => x.1.2.2.getD x.2 0) (mwrCells rows)
        (mwrCells_apart apart fun r held => (within r held).2.1) old.acc (n := (r, j)) (mem_mwrCells.mpr ⟨held, small⟩)
    · refine tget_update_ne (0 : Word) mwrPlace (fun x _ => x.1.2.2.getD x.2 0) (mwrCells rows) (128 * m + n) (fun y hy same => ?_) old.acc
      obtain ⟨held, few⟩ := mem_mwrCells.mp hy
      have fit := (within _ held).2.1
      have row := other _ held
      simp only [mwrPlace] at same
      have := row (by omega)
      omega

-- MST (R316)

theorem runMst_ends {core h tile : Nat} {no mo : Word} {act : Option Nat} {sat : Bool} (T : Team) :
    (T.record h = none → runMst s T e core h tile [no, mo] act sat = (s, .ok 2)) ∧
    ∀ r, T.record h = some r → (hFloat (hFmt r) = none → runMst s T e core h tile [no, mo] act sat = (s, .ok 4)) ∧
      ∀ f, hFloat (hFmt r) = some f →
        (hView r 0 ≤ no.toNat ∨ hView r 1 ≤ mo.toNat → runMst s T e core h tile [no, mo] act sat = (s, .ok 3)) ∧
        ∀ y, no.toNat < hView r 0 → mo.toNat < hView r 1 →
          mfold (fun s' _ m => mfold (fun s' _ n => writeCode s' T e r [no.toNat + n, mo.toNat + m, 0, 0]
              (roundTo f .rn 0 sat (epilogue s core ((coreOf s core).arr.tile tile) act m n)).1)
            ((List.range 128).filter (fun n => decide (no.toNat + n < hView r 0))) s' ())
            ((List.range 128).filter (fun m => decide (mo.toNat + m < hView r 1))) s () = (y, .ok ()) →
          runMst s T e core h tile [no, mo] act sat = (y, .ok 0) := by
  unfold runMst
  generalize 128 = width
  refine ⟨fun none_ => by rw [none_]; rfl, fun r some_ => ?_⟩
  rw [some_]
  dsimp only
  refine ⟨fun raw => by rw [raw]; rfl, fun f float => ?_⟩
  rw [float]
  refine ⟨fun outside => if_pos outside, fun y inK inM stores => ?_⟩
  exact (if_neg (show ¬ (hView r 0 ≤ no.toNat ∨ hView r 1 ≤ mo.toNat) by omega)).trans (mbind_ok stores _)

-- TBLLD (R317)

/-- A table whose bytes are read. -/
theorem readTable_ok {a n : Nat} {bs : List Byte} (bytes : readCtx s t e a (4 * n) = (x, .ok bs)) :
    readTable s t e a n = (x, .ok ((List.range n).map (fun i => BitVec.ofNat 32 (ofBytes ((bs.drop (4 * i)).take 4))))) :=
  mbind_ok bytes _

/-- One of its words. -/
theorem table_word {n i : Nat} (bs : List Byte) (inside : i < n) :
    (((List.range n).map (fun i => BitVec.ofNat 32 (ofBytes ((bs.drop (4 * i)).take 4)))).getD i 0).toNat = ofBytes ((bs.drop (4 * i)).take 4) := by
  have found : (List.range n)[i]? = some i := by rw [List.getElem?_range inside]
  rw [List.getD_eq_getElem?_getD, List.getElem?_map, found]
  have few : ((bs.drop (4 * i)).take 4).length ≤ 4 := List.length_take_le 4 _
  exact Nat.mod_eq_of_lt (Nat.lt_of_lt_of_le (ofBytes_lt _) (Nat.pow_le_pow_right (by omega) few))

end Sys2Proof.Machine
end

section
/-! What reading through an engine context leaves (R191, R278, R372): no byte is stored, and no page's leaf takes more than its A bit. -/

namespace Sys2Proof.Machine

variable {s x y : State} {t : Team} {e : Nat}

/-- A change of an agent's copies leaves every buffer. -/
theorem buf_modAgent (s : State) {f : LocalMem → LocalMem} (kept : ∀ m, (f m).buf = m.buf) (u e : Nat) (b : Agent) :
    (agentMem (modAgent s (.ctx u e) f) b).buf = (agentMem s b).buf := by
  cases b with
  | core n => rfl
  | ctx v i =>
    have contexts : byTeam (fun x => x.ectx.map (·.mem.buf)) (modAgent s (.ctx u e) f) = byTeam (fun x => x.ectx.map (·.mem.buf)) s :=
      modTeam_byTeam _ s u _ fun x => ⟨rfl, map_modify_same x.ectx e (fun c => { c with mem := f c.mem }) (·.mem.buf) fun c => kept c.mem⟩
    have bufs (s : State) : (agentMem s (.ctx v i)).buf = (((findTeam s v).map (fun x => x.ectx.map (·.mem.buf))).getD []).getD i [] := by
      rw [agentMem]
      cases findTeam s v with
      | none => rfl
      | some x => simp only [Option.map_some, Option.getD_some, Team.ctxOf, List.getD_eq_getElem?_getD, List.getElem?_map]; cases x.ectx[i]? <;> rfl
    rw [bufs, bufs, map_byTeam contexts v]

/-- What a read through a context may leave. -/
structure Reads (s y : State) : Prop where
  cores : y.cores = s.cores
  teams : byTeam Team.tracked y = byTeam Team.tracked s
  settled : Settled s → Settled y
  only : Settled s → OnlyRead s y

theorem OnlyRead.refl (s : State) : OnlyRead s s := ⟨fun _ _ _ => rfl, fun _ => .inl rfl⟩

theorem OnlyRead.trans (one : OnlyRead s x) (two : OnlyRead x y) : OnlyRead s y := by
  obtain ⟨buffers, bytes⟩ := one
  obtain ⟨buffers', bytes'⟩ := two
  refine ⟨fun a l o => (buffers' a l o).trans (buffers a l o), fun k => ?_⟩
  rcases bytes' k with same' | marked'
  · rw [same']
    exact bytes k
  · rw [marked']
    rcases bytes k with same | marked
    · exact .inr (by rw [same])
    · exact .inr (by rw [marked, BitVec.or_assoc, BitVec.or_self])

theorem Reads.refl (s : State) : Reads s s := ⟨rfl, rfl, id, fun _ => .refl s⟩

theorem Reads.trans (one : Reads s x) (two : Reads x y) : Reads s y where
  cores := two.cores.trans one.cores
  teams := two.teams.trans one.teams
  settled h := two.settled (one.settled h)
  only h := (one.only h).trans (two.only (one.settled h))

theorem markLeaf_reads (s : State) (loc : Loc) : Reads s (markLeaf s loc false) := by
  have lines := markLeaf_lines s loc false
  refine ⟨lines.rest.2.1, by rw [byTeam, byTeam, lines.rest.1], lines.settled, fun _ => ⟨fun a l o => ?_, fun k => ?_⟩⟩
  · rw [markLeaf_shape]
    cases a <;> rfl
  · unfold markLeaf
    split
    · exact .inl rfl
    · next leaf _ =>
      by_cases here : k = leaf.key
      · subst here
        exact .inr (tget_tput_same _ _ _ _)
      · exact .inl (tget_tput_ne _ _ _ here)

theorem touchLine_reads (s : State) (ctx : Nat) (loc : Loc) : Reads s (touchLine s ctx loc) := by
  have lines := (touchLine_cached s ctx loc).1
  refine ⟨lines.rest.2.1, by rw [byTeam, byTeam, lines.rest.1], lines.settled, fun h => ⟨fun a l o => ?_, fun k => .inl ?_⟩⟩
  · cases a with
    | core n => rw [agentMem_core_congr lines.rest.2.1]
    | ctx u i => rw [agentMem, agentMem, findTeam, lines.rest.1, findTeam]
  · rw [rdByte, touchLine_mem s ctx loc h, rdByte]

theorem fillLine_reads (s : State) (u e : Nat) (l : Line) (loc : Loc) : Reads s (fillLine s (.ctx u e) l loc false) := by
  refine (touchLine_reads s l.ctx loc).trans ?_
  change Reads (touchLine s l.ctx loc) (modAgent (touchLine s l.ctx loc) (.ctx u e) fun m =>
    m.setCopy l (rdBytes (touchLine s l.ctx loc) (lineAddr loc.key) 128) (badPieces (touchLine s l.ctx loc) (lineAddr loc.key)))
  generalize touchLine s l.ctx loc = w
  refine ⟨rfl, modAgent_tracked .., id, fun _ => ⟨fun a l' o => ?_, fun k => .inl rfl⟩⟩
  rw [LocalMem.buffered, LocalMem.buffered, LocalMem.entry, LocalMem.entry, buf_modAgent]
  exact fun m => rfl

theorem fetchBytes_reads (s : State) (t : Team) (u e a n : Nat) : Reads s (fetchBytes s t (.ctx u e) a .read true n).1 := by
  induction n with
  | zero => exact .refl s
  | succ n ih =>
    unfold fetchBytes
    dsimp only
    split
    · exact ih
    · split
      · exact ih
      · next loc _ =>
        refine (ih.trans (markLeaf_reads _ loc)).trans ?_
        rw [if_pos rfl]
        split
        · exact .refl _
        · exact fillLine_reads ..

section
variable {α β : Type}

theorem mbind_reads {m : MemR α} {f : State → α → MemR β} (one : Reads s m.1) (two : ∀ x v, Reads x (f x v).1) : Reads s (mbind m f).1 := by
  unfold mbind
  split
  · exact one.trans (two _ _)
  · exact one

theorem mpure_reads (s : State) (v : α) : Reads s (mpure s v).1 := .refl s

theorem mfold_reads {f : State → β → α → MemR β} (one : ∀ s b a, Reads s (f s b a).1) (l : List α) (s : State) (b : β) : Reads s (mfold f l s b).1 := by
  induction l generalizing s b with
  | nil => exact .refl s
  | cons a l ih => exact mbind_reads (one s b a) fun x v => ih x v

end

theorem readCtx_reads (s : State) (t : Team) (e a n : Nat) : Reads s (readCtx s t e a n).1 := by
  refine mbind_reads (fetchBytes_reads ..) fun x bs => ?_
  split <;> exact .refl x

theorem readNat_reads (s : State) (t : Team) (e a n : Nat) : Reads s (readNat s t e a n).1 :=
  mbind_reads (readCtx_reads ..) fun x _ => mpure_reads x _

theorem readCode_reads (s : State) (t : Team) (e r : Nat) (j : List Nat) : Reads s (readCode s t e r j).1 :=
  mbind_reads (readNat_reads ..) fun x _ => mpure_reads x _

theorem readElem_reads (s : State) (t : Team) (e r : Nat) (j : List Nat) : Reads s (readElem s t e r j).1 := by
  refine mbind_reads (readCode_reads ..) fun x v => ?_
  split
  · exact .refl x
  · split
    · exact mbind_reads (mbind_reads (readCtx_reads ..) fun y _ => mpure_reads y _) fun y _ => mpure_reads y _
    · split
      · exact mbind_reads (readNat_reads ..) fun y _ => mbind_reads (readNat_reads ..) fun z _ => mpure_reads z _
      · exact .refl x

theorem readScale_reads (s : State) (t : Team) (e r i : Nat) : Reads s (readScale s t e r i).1 := by
  unfold readScale
  split
  · exact mbind_reads (readNat_reads ..) fun y _ => mpure_reads y _
  · split
    · exact mbind_reads (readNat_reads ..) fun y _ => mpure_reads y _
    · exact .refl s
  · exact .refl s

end Sys2Proof.Machine
end

section
/-! What WLD does when it begins (R297): the codes and scales that fill its bank. -/

namespace Sys2Proof.Machine

variable {s x y : State} {t : Team} {e : Nat} {k : Cmd}

section
variable {α β γ : Type}

theorem mbind_assoc (m : MemR α) (f : State → α → MemR β) (g : State → β → MemR γ) :
    mbind (mbind m f) g = mbind m fun s a => mbind (f s a) g := by
  obtain ⟨s, r⟩ := m
  cases r <;> rfl

theorem mfold_append (f : State → β → α → MemR β) (l₁ l₂ : List α) (s : State) (b : β) :
    mfold f (l₁ ++ l₂) s b = mbind (mfold f l₁ s b) fun s b => mfold f l₂ s b := by
  induction l₁ generalizing s b with
  | nil => rfl
  | cons a l ih =>
    rw [List.cons_append, mfold, mfold, mbind_assoc]
    exact congrArg (mbind (f s b a)) (funext fun s => funext fun b => ih s b)

theorem mfold_map (f : State → β → α → MemR β) (g : γ → α) (l : List γ) (s : State) (b : β) :
    mfold f (l.map g) s b = mfold (fun s b c => f s b (g c)) l s b := by
  induction l generalizing s b with
  | nil => rfl
  | cons a l ih =>
    rw [List.map_cons, mfold, mfold]
    exact congrArg (mbind (f s b (g a))) (funext fun s => funext fun b => ih s b)

/-- Work on the pairs of two lists, row by row. -/
theorem mfold_rows (f : State → β → α × γ → MemR β) (rows : List α) (cols : List γ) (s : State) (b : β) :
    mfold (fun s b a => mfold (fun s b c => f s b (a, c)) cols s b) rows s b = mfold f (rows.flatMap fun a => cols.map fun c => (a, c)) s b := by
  induction rows generalizing s b with
  | nil => rfl
  | cons a rows ih =>
    rw [List.flatMap_cons, mfold_append, mfold_map, mfold]
    exact congrArg (mbind _) (funext fun s => funext fun b => ih s b)

theorem mbind_inv {m : MemR α} {f : State → α → MemR β} {v : β} (ok : mbind m f = (y, .ok v)) :
    ∃ x a, m = (x, .ok a) ∧ f x a = (y, .ok v) := by
  obtain ⟨x, r⟩ := m
  cases r with
  | error c => cases congrArg Prod.snd ok
  | ok a => exact ⟨x, a, rfl, ok⟩

/-- Cells of a table filled one after the other with what is read. -/
theorem mfold_fills {read : State → α → MemR Nat} (reads : ∀ s a, Reads s (read s a).1) (place : α → Nat) {l : List α} (apart : (l.map place).Nodup)
    {w w' : Tab Nat} (ok : mfold (fun s w a => mbind (read s a) fun s v => mpure s (tput 0 w (place a) v)) l s w = (y, .ok w')) :
    (∀ a ∈ l, ∃ x, Reads s x ∧ (read x a).2 = .ok (tget 0 w' (place a))) ∧ ∀ p, (∀ a ∈ l, place a ≠ p) → tget 0 w' p = tget 0 w p := by
  induction l generalizing s w with
  | nil => cases ok; exact ⟨nofun, fun _ _ => rfl⟩
  | cons a l ih =>
    rw [List.map_cons, List.nodup_cons] at apart
    obtain ⟨fresh, apart⟩ := apart
    rw [mfold, mbind_assoc] at ok
    obtain ⟨x, v, one, rest⟩ := mbind_inv ok
    obtain ⟨filled, others⟩ := ih apart rest
    have first : Reads s x := by
      have := reads s a
      rwa [one] at this
    have stands : tget 0 w' (place a) = v := by
      rw [others (place a) fun m hm same => fresh (List.mem_map.mpr ⟨m, hm, same⟩), tget_tput_same]
    refine ⟨fun b held => ?_, fun p other => ?_⟩
    · rcases List.mem_cons.mp held with rfl | held
      · exact ⟨s, .refl s, by rw [one, stands]⟩
      · obtain ⟨z, after, value⟩ := filled b held
        exact ⟨z, first.trans after, value⟩
    · rw [others p fun m hm => other m (List.mem_cons_of_mem _ hm), tget_tput_ne _ _ _ (Ne.symm (other a List.mem_cons_self))]

/-- A list that takes what is read, one after the other, beside a value that stays. -/
theorem mfold_collects {read : State → α → MemR β} {l : List α} {w w' : γ} {acc got : List β}
    (ok : mfold (fun s (b : γ × List β) a => mbind (read s a) fun s v => mpure s (b.1, b.2 ++ [v])) l s (w, acc) = (y, .ok (w', got))) :
    w' = w ∧ ∃ vs : List β, got = acc ++ vs ∧ List.Forall₂ (fun a v => ∃ x, (read x a).2 = .ok v) l vs := by
  induction l generalizing s acc with
  | nil => cases ok; exact ⟨rfl, [], (List.append_nil _).symm, .nil⟩
  | cons a l ih =>
    rw [mfold, mbind_assoc] at ok
    obtain ⟨x, v, one, rest⟩ := mbind_inv ok
    obtain ⟨same, vs, got_, all⟩ := ih rest
    exact ⟨same, v :: vs, by rw [got_, List.append_assoc]; rfl, .cons ⟨s, by rw [one]⟩ all⟩

end

-- WLD (R297)

/-- The weights that lie in the view: their rows and columns in the bank. -/
def wldCells (r ko no kc : Nat) (cols : List Nat) : List (Nat × Nat) :=
  ((List.range kc).filter fun k => decide (ko + k < hView r 0)).flatMap fun k =>
    (cols.filter fun n => decide (no + n < hView r 1)).map fun n => (k, n)

/-- One weight, as a code of the format that the bank takes. -/
def wldWeight (t : Team) (e r latch ko no : Nat) (s : State) (c : Nat × Nat) : MemR Nat :=
  mbind (readElem s t e r [ko + c.1, no + c.2, 0, 0]) fun s x => mpure s (x.2 % 2 ^ fmtBits (latchFmt latch))

/-- The codes of the bank, and then its scales. -/
def wldRead (s : State) (t : Team) (e r latch ko no kc : Nat) (cols : List Nat) : MemR (Tab Nat × List Word) :=
  mbind (mfold (fun s w c => mbind (wldWeight t e r latch ko no s c) fun s v => mpure s (tput 0 w (128 * c.1 + c.2) v))
      (wldCells r ko no kc cols) s ([] : Tab Nat)) fun s w =>
    mfold (fun s (b : Tab Nat × List Word) n => mbind (readScale s t e r (no + n)) fun s v => mpure s (b.1, b.2 ++ [v])) cols s (w, [])

section
variable {h bank : Nat} {ko no kc z : Word} {asked : List Nat} {core r : Nat}

theorem runWld_undefined (none_ : t.record h = none) : runWld s t e core h bank asked [ko, no, kc, z] = (clearBank s core bank, .done 2, []) := by
  unfold runWld
  generalize 128 = width
  rw [none_]

/-- The checks of R297. -/
theorem runWld_stops (some_ : t.record h = some r) (plain : hSub r = false) :
    (latchCode (hFmt r) = 0 ∨ hScale r = 3 → runWld s t e core h bank asked [ko, no, kc, z] = (clearBank s core bank, .done 4, [])) ∧
    (latchCode (hFmt r) ≠ 0 → hScale r ≠ 3 → hView r 0 ≤ ko.toNat ∨ hView r 1 ≤ no.toNat ∨ 256 * latchG (latchCode (hFmt r)) < kc.toNat ∨ z ≠ 0 →
      runWld s t e core h bank asked [ko, no, kc, z] = (clearBank s core bank, .done 3, [])) := by
  unfold runWld
  generalize 128 = width
  rw [some_]
  dsimp only
  rw [plain, if_neg Bool.false_ne_true]
  refine ⟨fun bad => if_pos bad, fun latch whole outside => ?_⟩
  exact (if_neg (not_or.mpr ⟨latch, whole⟩)).trans (if_pos outside)

/-- A bank that fills, for a handle with SUB = 0. -/
theorem runWld_fills (some_ : t.record h = some r) (plain : hSub r = false) (latch : latchCode (hFmt r) ≠ 0) (whole : hScale r ≠ 3)
    (inK : ko.toNat < hView r 0) (inN : no.toNat < hView r 1) (fits : kc.toNat ≤ 256 * latchG (latchCode (hFmt r))) (zero : z = 0) :
    runWld s t e core h bank asked [ko, no, kc, z] =
      match (wldRead s t e r (latchCode (hFmt r)) ko.toNat no.toNat kc.toNat (List.range 128)).2 with
      | .error c => (clearBank (wldRead s t e r (latchCode (hFmt r)) ko.toNat no.toNat kc.toNat (List.range 128)).1 core bank, .stop c.1 c.2, [])
      | .ok b => (modArr (wldRead s t e r (latchCode (hFmt r)) ko.toNat no.toNat kc.toNat (List.range 128)).1 core fun a => a.modBank bank fun k =>
          { k with w := b.1, latched := latchCode (hFmt r), kl := kc.toNat, loaded := true, bsc := b.2 }, .done (if kc.toNat = 0 then 1 else 0), []) := by
  unfold runWld
  generalize List.range 128 = cols
  rw [some_]
  dsimp only
  rw [plain, if_neg Bool.false_ne_true, if_neg (not_or.mpr ⟨latch, whole⟩)]
  refine (if_neg ?_).trans ?_
  · rintro (outK | outN | long | nonzero)
    · exact absurd inK (Nat.not_lt.mpr outK)
    · exact absurd inN (Nat.not_lt.mpr outN)
    · exact absurd fits (Nat.not_le.mpr long)
    · exact nonzero zero
  · have rows := mfold_rows (fun s (w : Tab Nat) c => mbind (wldWeight t e r (latchCode (hFmt r)) ko.toNat no.toNat s c) fun s v =>
        mpure s (tput 0 w (128 * c.1 + c.2) v)) ((List.range kc.toNat).filter fun k => decide (ko.toNat + k < hView r 0))
      (cols.filter fun n => decide (no.toNat + n < hView r 1)) s []
    rw [wldRead, wldCells, ← rows]
    rfl

end

theorem mem_wldCells {r ko no kc : Nat} {cols : List Nat} {c : Nat × Nat} :
    c ∈ wldCells r ko no kc cols ↔ (c.1 < kc ∧ ko + c.1 < hView r 0) ∧ c.2 ∈ cols ∧ no + c.2 < hView r 1 := by
  simp only [wldCells, List.mem_flatMap, List.mem_map, List.mem_filter, List.mem_range, decide_eq_true_eq]
  constructor
  · rintro ⟨k, inK, n, inN, rfl⟩
    exact ⟨inK, inN⟩
  · exact fun ⟨inK, inN⟩ => ⟨c.1, inK, c.2, inN, rfl⟩

theorem wldCells_apart (r ko no kc : Nat) {cols : List Nat} (once : cols.Nodup) (narrow : ∀ n ∈ cols, n < 128) :
    ((wldCells r ko no kc cols).map fun c => 128 * c.1 + c.2).Nodup := by
  have pairs : (wldCells r ko no kc cols).Nodup := by
    refine List.nodup_flatMap.mpr ⟨fun k _ => (once.filter _).map fun a b same => (Prod.ext_iff.mp same).2, ?_⟩
    refine (List.nodup_range.filter _).imp fun {a b} differ => ?_
    intro y one two
    obtain ⟨_, _, rfl⟩ := List.mem_map.mp one
    obtain ⟨_, _, same⟩ := List.mem_map.mp two
    exact differ (Prod.ext_iff.mp same).1.symm
  refine pairs.map_on fun c hc d hd same => ?_
  have hc := narrow _ (mem_wldCells.mp hc).2.1
  have hd := narrow _ (mem_wldCells.mp hd).2.1
  exact Prod.ext (by omega) (by omega)

theorem wldWeight_reads (t : Team) (e r latch ko no : Nat) (s : State) (c : Nat × Nat) : Reads s (wldWeight t e r latch ko no s c).1 :=
  mbind_reads (readElem_reads ..) fun x _ => mpure_reads x _

theorem wldRead_reads (s : State) (t : Team) (e r latch ko no kc : Nat) (cols : List Nat) : Reads s (wldRead s t e r latch ko no kc cols).1 := by
  refine mbind_reads (mfold_reads (fun s w c => mbind_reads (wldWeight_reads ..) fun x _ => mpure_reads x _) _ _ _) fun x w => ?_
  exact mfold_reads (fun s b n => mbind_reads (readScale_reads ..) fun x _ => mpure_reads x _) _ _ _

/-- A scale that is not stored is 1.0 (R297). -/
theorem readScale_one {r i : Nat} (one : hScale r = 0 ∨ (hScale r = 2 ∧ hView r 1 ≤ i)) : readScale s t e r i = (s, .ok f32One) := by
  unfold readScale
  rcases one with none_ | ⟨two, outside⟩
  · rw [none_]
    rfl
  · rw [two]
    exact if_neg (Nat.not_lt.mpr outside)

/-- What stands in a bank that has filled. -/
theorem wldRead_ok {r latch ko no kc : Nat} {b : Tab Nat × List Word} (ok : wldRead s t e r latch ko no kc (List.range 128) = (y, .ok b)) :
    b.2.length = 128 ∧ (∀ n < 128, hScale r = 0 ∨ (hScale r = 2 ∧ hView r 1 ≤ no + n) → b.2.getD n 0 = f32One) ∧
    ∀ i n, n < 128 → (kc ≤ i ∨ hView r 0 ≤ ko + i ∨ hView r 1 ≤ no + n → tget 0 b.1 (128 * i + n) = 0) ∧
      (i < kc → ko + i < hView r 0 → no + n < hView r 1 → ∃ x f c, Reads s x ∧
        (readElem x t e r [ko + i, no + n, 0, 0]).2 = .ok (f, c) ∧ tget 0 b.1 (128 * i + n) = c % 2 ^ fmtBits (latchFmt latch)) := by
  obtain ⟨once, length⟩ : (List.range 128).Nodup ∧ (List.range 128).length = 128 := ⟨List.nodup_range, List.length_range⟩
  have below (n : Nat) : n ∈ List.range 128 ↔ n < 128 := List.mem_range
  have nth (n : Nat) : n < 128 → (List.range 128)[n]? = some n := List.getElem?_range
  generalize List.range 128 = cols at ok once length below nth
  obtain ⟨x, w, filled, collected⟩ := mbind_inv ok
  obtain ⟨codes, zeros⟩ := mfold_fills (wldWeight_reads t e r latch ko no) _ (wldCells_apart r ko no kc once fun n held => (below n).mp held) filled
  obtain ⟨same, vs, got, all⟩ := mfold_collects (read := fun s n => readScale s t e r (no + n)) (w' := b.1) (got := b.2) collected
  obtain ⟨count, each⟩ := List.forall₂_iff_get.mp all
  rw [List.nil_append] at got
  rw [got, same]
  refine ⟨count ▸ length, fun n small one => ?_, fun i n small => ⟨fun outside => ?_, fun inside inK inN => ?_⟩⟩
  · obtain ⟨z, value⟩ := each n (by omega) (by omega)
    have here : cols.get ⟨n, by omega⟩ = n := Option.some_inj.mp ((List.getElem?_eq_getElem _).symm.trans (nth n small))
    rw [here, readScale_one one] at value
    rw [List.getD_eq_getElem _ _ (by omega)]
    exact (Except.ok.inj value).symm
  · refine zeros _ fun c held same => ?_
    obtain ⟨⟨inside, inK⟩, col, inN⟩ := mem_wldCells.mp held
    have := (below _).mp col
    have row : c.1 = i := by omega
    have col : c.2 = n := by omega
    subst row col
    omega
  · obtain ⟨z, reads, value⟩ := codes (i, n) (mem_wldCells.mpr ⟨⟨inside, inK⟩, (below n).mpr small, inN⟩)
    obtain ⟨z', fc, elem, code⟩ := mbind_inv (m := readElem z t e r [ko + i, no + n, 0, 0]) (Prod.ext rfl value)
    exact ⟨z, fc.1, fc.2, reads, by rw [elem], (Except.ok.inj (congrArg Prod.snd code)).symm⟩

end Sys2Proof.Machine
end

section
/-! The commands of the matrix array: their places, and their work (R293 to R318). -/

namespace Sys2Proof.Machine

variable {s x : State} {c : Common} {v : View} {t : Team} {e : Nat} {k : Cmd}

-- Places

theorem mma_places (d a : Name) (src : MmaSrc) (tile e : Nat) (sc : Scope) :
    let bank := (coreOf s v.core).arr.cur
    PlacesOnArray s c v (.mma c d a src tile e sc) (mmaFront s d a src) (mmaOwn s a src) e sc
      (.mma src tile bank ((coreOf s v.core).arr.banks[bank]?.map (·.ki) |>.getD 0)
        (match src with
          | .hdl _ => v.src s.fresh (v.acting.headD 0) (o2 a)
          | .unf _ => v.src s.fresh (v.acting.headD 0) { name := a, words := 4 }
          | _ => [])
        (match src, a with
          | .lane f, _ => some f
          | .port, .q p => (elemFmt (v.iss.ports.getD p Port.unbound).fmt).filter aFormat
          | _, _ => none) (mmaRows s a src v)) id := by
  have run : exec (.mma c d a src tile e sc) s = execCmd c _ s := rfl
  refine onArray_places run rfl rfl (fun w i l => ?_) (fun focus => ?_) (fun _ => ⟨rfl, rfl⟩) (fun _ _ => rfl) (fun _ none_ => nomatch none_)
  · dsimp only
    split
    · exact popMany_results ..
    · exact ⟨rfl, rfl⟩
  · rw [← focus]
    rfl

/-- TBLLD of a table slot, as a command of no array. -/
def slotCmd (s : State) (d addr : Name) (n e : Nat) (sc : Scope) (a64 : Bool) : CmdShape :=
  { addrCmd s d addr a64 64 e sc (fun a => .tblld (.slot n) a) with group := true }

/-- TBLLD of a table slot stands outside the array (R317). -/
theorem tblld_slot_places (d addr : Name) (n e : Nat) (sc : Scope) (a64 : Bool) :
    Places s c v (.tblld c d addr (.slot n) e sc a64) { srcs := addrSrcs addr a64, dst := d1 d, allowQ := false } (baseOwn addr a64)
      (Reaches s (v.acting.take 1) (fun i => v.addr s.fresh i addr a64 0) 64 .all) e sc
      ((v.acting.take 1).map (fun i => .tblld (.slot n) (BitVec.ofNat 64 (v.addr s.fresh i addr a64 0)))) := by
  intro h within room good
  have own : (fun u => (baseOwn addr a64 u).orElse fun _ => if false = true then claimOwn s u else none) = baseOwn addr a64 :=
    funext fun u => by cases baseOwn addr a64 u <;> rfl
  have run : exec (.tblld c d addr (.slot n) e sc a64) s = execCmd c (slotCmd s d addr n e sc a64) s :=
    congrArg (fun own => execCmd c { slotCmd s d addr n e sc a64 with own := own } s) own
  obtain ⟨r, ran, placed, -⟩ := execCmd_placed (m := slotCmd s d addr n e sc a64) h (fun _ _ => ⟨rfl, rfl⟩) (fun _ => rfl) within
    (v.acting.take 1) (by simp [slotCmd]) (by rwa [List.length_map] at room) (by
      intro a own i held
      cases own
      exact good i held)
  exact ⟨r, run.trans ran, placed⟩

-- The work of WLD

section
variable {h bank r : Nat} {ko no kc z : Word}

theorem wld_begins (kind : k.kind = .wld h bank [ko, no, kc, z]) :
    (beginWork s t e k).s = (runWld (workState s t e k) (t.asFound k) e t.coreN h bank k.asked [ko, no, kc, z]).1 ∧
      (beginWork s t e k).out = (runWld (workState s t e k) (t.asFound k) e t.coreN h bank k.asked [ko, no, kc, z]).2.1 := by
  rw [beginWork_eq (by rw [kind]; rfl), cmdWork, kind]
  exact ⟨rfl, rfl⟩

/-- A bank that a check has stopped. -/
theorem clearBank_bank (here : t.coreN < s.cores.length) (inside : bank < (coreOf s t.coreN).arr.banks.length) :
    (((coreOf (clearBank s t.coreN bank) t.coreN).arr).bank bank).loaded = false ∧ (((coreOf (clearBank s t.coreN bank) t.coreN).arr).bank bank).kl = 0 := by
  rw [clearBank, arr_modArr _ here, bank_modBank _ _ inside]
  exact ⟨rfl, rfl⟩

theorem wld_cleared (kind : k.kind = .wld h bank [ko, no, kc, z]) (here : t.coreN < s.cores.length)
    (inside : bank < (coreOf s t.coreN).arr.banks.length) {st : Nat}
    (stops : runWld (workState s t e k) (t.asFound k) e t.coreN h bank k.asked [ko, no, kc, z] =
      (clearBank (workState s t e k) t.coreN bank, .done st, [])) :
    (beginWork s t e k).out = .done st ∧ (((coreOf (beginWork s t e k).s t.coreN).arr).bank bank).loaded = false ∧
      (((coreOf (beginWork s t e k).s t.coreN).arr).bank bank).kl = 0 := by
  obtain ⟨state, out⟩ := wld_begins (s := s) (t := t) (e := e) kind
  rw [state, out, stops]
  exact ⟨rfl, clearBank_bank (s := workState s t e k) here inside⟩

theorem wld_filled (kind : k.kind = .wld h bank [ko, no, kc, z]) (here : t.coreN < s.cores.length)
    (inside : bank < (coreOf s t.coreN).arr.banks.length) (settled : Settled s) (some_ : (t.asFound k).record h = some r) (plain : hSub r = false)
    (latch : latchCode (hFmt r) ≠ 0) (whole : hScale r ≠ 3)
    (inK : ko.toNat < hView r 0) (inN : no.toNat < hView r 1) (fits : kc.toNat ≤ 256 * latchG (latchCode (hFmt r))) (zero : z = 0) {st : Nat}
    (ends : (beginWork s t e k).out = .done st) : st = (if kc = 0 then 1 else 0) ∧
      let b := ((coreOf (beginWork s t e k).s t.coreN).arr).bank bank
      b.latched = latchCode (hFmt r) ∧ b.kl = kc.toNat ∧ b.loaded = true ∧ b.bsc.length = 128 ∧
      (∀ n < 128, hScale r = 0 ∨ (hScale r = 2 ∧ hView r 1 ≤ no.toNat + n) → b.bsc.getD n 0 = f32One) ∧
      ∀ i n, n < 128 →
        (kc.toNat ≤ i ∨ hView r 0 ≤ ko.toNat + i ∨ hView r 1 ≤ no.toNat + n → tget 0 b.w (128 * i + n) = 0) ∧
        (i < kc.toNat → ko.toNat + i < hView r 0 → no.toNat + n < hView r 1 → ∃ y f c, OnlyRead (workState s t e k) y ∧
          (readElem y (t.asFound k) e r [ko.toNat + i, no.toNat + n, 0, 0]).2 = .ok (f, c) ∧
          tget 0 b.w (128 * i + n) = c % 2 ^ fmtBits (latchFmt (latchCode (hFmt r)))) := by
  obtain ⟨state, out⟩ := wld_begins (s := s) (t := t) (e := e) kind
  rw [out, runWld_fills some_ plain latch whole inK inN fits zero] at ends
  rw [state, runWld_fills some_ plain latch whole inK inN fits zero]
  have reads := wldRead_reads (workState s t e k) (t.asFound k) e r (latchCode (hFmt r)) ko.toNat no.toNat kc.toNat (List.range 128)
  have filled (y b) := wldRead_ok (s := workState s t e k) (t := t.asFound k) (e := e) (r := r) (latch := latchCode (hFmt r)) (ko := ko.toNat)
    (no := no.toNat) (kc := kc.toNat) (y := y) (b := b)
  obtain ⟨⟨y, got⟩, eq⟩ : ∃ m, m = wldRead (workState s t e k) (t.asFound k) e r (latchCode (hFmt r)) ko.toNat no.toNat kc.toNat (List.range 128) :=
    ⟨_, rfl⟩
  rw [← eq] at ends reads ⊢
  cases got with
  | error f => cases ends
  | ok b =>
    have here' : t.coreN < y.cores.length := by rw [reads.cores]; exact here
    have same : (coreOf y t.coreN).arr = (coreOf s t.coreN).arr := by rw [coreOf, reads.cores]; rfl
    have bank_ : ((coreOf (modArr y t.coreN fun a => a.modBank bank fun k =>
        { k with w := b.1, latched := latchCode (hFmt r), kl := kc.toNat, loaded := true, bsc := b.2 }) t.coreN).arr).bank bank =
        { ((coreOf s t.coreN).arr).bank bank with w := b.1, latched := latchCode (hFmt r), kl := kc.toNat, loaded := true, bsc := b.2 } := by
      rw [arr_modArr _ here', same, bank_modBank _ _ inside]
    obtain ⟨length, ones, codes⟩ := filled y b eq.symm
    refine ⟨?_, ?_⟩
    · rw [← CmdOut.done.inj ends]
      refine if_congr ?_ rfl rfl
      exact ⟨fun none_ => BitVec.eq_of_toNat_eq none_, fun none_ => by rw [none_]; rfl⟩
    · dsimp only
      rw [bank_]
      refine ⟨rfl, rfl, rfl, length, ones, fun i n small => ⟨(codes i n small).1, fun inside inK inN => ?_⟩⟩
      obtain ⟨x, f, c, from_, elem, code⟩ := (codes i n small).2 inside inK inN
      exact ⟨x, f, c, from_.only settled, elem, code⟩

end

/-- The words of each lane of an MRD (R306, R314). -/
theorem runMrd_words (s : State) (core tile : Nat) (act : Option Nat) (f : Fmt) (sat : Bool) (rows : Tab (Nat × Nat)) :
    runMrd s core tile act f sat rows = rows.map (fun r =>
      let x := fun j => (roundTo f .rn 0 sat (epilogue s core ((coreOf s core).arr.tile tile) act r.1 (r.2.2 + j))).1
      (r.2.1, if f = .f32 then [BitVec.ofNat 32 (x 0), BitVec.ofNat 32 (x 1), BitVec.ofNat 32 (x 2), BitVec.ofNat 32 (x 3)]
        else if fmtBits f = 16 then [BitVec.ofNat 32 (x 0 + 2 ^ 16 * x 1), BitVec.ofNat 32 (x 2 + 2 ^ 16 * x 3)]
        else if f = .e2m1 then [BitVec.ofNat 32 (x 0 + 2 ^ 4 * x 1 + 2 ^ 8 * x 2 + 2 ^ 12 * x 3)]
        else [BitVec.ofNat 32 (x 0 + 2 ^ 8 * x 1 + 2 ^ 16 * x 2 + 2 ^ 24 * x 3)])) :=
  List.map_congr_left fun _ _ => Prod.ext rfl (packRead_eq f fun _ => roundTo_lt f .rn 0 sat _)

/-- The words that TBLLD reads (R317). -/
def tableWords : TblForm → Nat
  | .slot _ => 2080
  | .bias _ => 128

/-- What TBLLD makes of what it has read: its words wait in the command, or are the biases at once. -/
def tableWork (r : MemR (List Word)) (core : Nat) (form : TblForm) : Work :=
  match r.2 with
  | .error c => { s := r.1, out := .stop c.1 c.2 }
  | .ok ws => match form with
    | .slot _ => { s := r.1, out := .done 0, upd := fun c => { c with res := [(0, ws)] } }
    | .bias tile => { s := modArr r.1 core fun b => b.modTile tile fun x => { x with cb := ws }, out := .done 0 }

theorem cmdWork_tblld {form : TblForm} {a : DWord} (kind : k.kind = .tblld form a) :
    cmdWork s t e k = tableWork (readTable s t e a.toNat (tableWords form)) t.coreN form := by
  rw [cmdWork, kind]
  rfl

theorem tblld_slot_work {n : Nat} {a : DWord} {bs : List Byte} (kind : k.kind = .tblld (.slot n) a)
    (bytes : readCtx (workState s t e k) (t.asFound k) e a.toNat 8320 = (x, .ok bs)) :
    (beginWork s t e k).s = x ∧ (beginWork s t e k).out = .done 0 ∧ ∃ ws, ((beginWork s t e k).upd k).res = [(0, ws)] ∧ ws.length = 2080 ∧
      ∀ i < 2080, (ws.getD i 0).toNat = ofBytes ((bs.drop (4 * i)).take 4) := by
  obtain ⟨m, count, four⟩ : ∃ m, tableWords (.slot n) = m ∧ 8320 = 4 * m := ⟨2080, rfl, by norm_num⟩
  have table := readTable_ok (four ▸ bytes)
  rw [beginWork_eq (by rw [kind]; rfl), cmdWork_tblld kind, count, table]
  refine ⟨rfl, rfl, _, rfl, (List.length_map _).trans (List.length_range.trans count.symm), fun i inside => table_word bs (count ▸ inside)⟩

theorem tblld_bias_work {tile : Nat} {a : DWord} {bs : List Byte} (kind : k.kind = .tblld (.bias tile) a)
    (bytes : readCtx (workState s t e k) (t.asFound k) e a.toNat 512 = (x, .ok bs)) (inside : tile < (coreOf x t.coreN).arr.tiles.length)
    (there : t.coreN < x.cores.length) :
    (beginWork s t e k).out = .done 0 ∧ (beginWork s t e k).s.mem = x.mem ∧
      ∀ i < 128, (((coreOf (beginWork s t e k).s t.coreN).arr.tile tile).cb.getD i 0).toNat = ofBytes ((bs.drop (4 * i)).take 4) := by
  rw [beginWork_eq (by rw [kind]; rfl), cmdWork_tblld kind, show tableWords (.bias tile) = 128 from rfl,
    readTable_ok (n := 128) bytes]
  refine ⟨rfl, rfl, fun i small => ?_⟩
  rw [show (t.asFound k).coreN = t.coreN from rfl, tableWork]
  dsimp only
  rw [arr_modArr _ there, tile_modTile _ _ inside]
  exact table_word bs small

/-- Settles O26. The places are those of any command (`execCmd_placed`); the work is said a command at a time: WLD stops at its checks or
fills its bank cell by cell with what it reads (`wldRead_ok`), and a row of MMA takes the chain of sums (`sumSteps_chain`). -/
theorem matrixCommandsPlaced : Obligations.MatrixCommandsPlaced := by
  unfold Obligations.MatrixCommandsPlaced
  refine fun s c v => ⟨fun d box h e sc => ?_, fun d e => ?_, fun d a src tile e sc => mma_places d a src tile e sc, fun d tile e => ?_,
    fun d col tile e act f sat => ?_, fun d val col tile e rs => ?_, fun d org h tile e sc act sat => ?_, fun d addr tile e sc a64 good => ?_,
    fun d addr n e sc a64 => tblld_slot_places d addr n e sc a64, fun t e k here sound => ⟨fun h bank ko no kc z kind inside settled => ?_,
      fun tile kind => mzero_work kind here, fun tile act f sat rows kind => ?_,
      fun tile rs rows kind inside apart within => mwr_work kind here inside apart within, fun h tile no mo act sat kind => ?_,
      fun n a x bs kind bytes => ?_, fun tile a x bs kind bytes inside there => ?_,
      fun a tile bank f row inside => passRow_sums a tile bank f row inside⟩⟩
  · have run : exec (.wld c d box h e sc) s = execCmd c _ s := rfl
    refine onArray_places run rfl rfl (fun _ _ _ => ⟨rfl, rfl⟩) (fun focus => ?_) (fun _ => ⟨rfl, rfl⟩) (fun focus k => ?_) nofun
    all_goals rw [← focus]
  · have run : exec (.wswp c d e) s = execCmd c _ s := rfl
    refine onArray_places run rfl rfl (fun _ _ _ => ⟨rfl, rfl⟩) (fun focus => ?_) (fun _ => ⟨rfl, rfl⟩) (fun _ _ => rfl) nofun
    rw [← focus]
  · have run : exec (.mzero c d tile e) s = execCmd c _ s := rfl
    exact onArray_places (v := v) (arr := id) run rfl rfl (fun _ _ _ => ⟨rfl, rfl⟩) (fun _ => rfl) (fun _ => ⟨rfl, rfl⟩) (fun _ _ => rfl) nofun
  · have run : exec (.mrd c d col tile e act f sat) s = execCmd c _ s := rfl
    exact onArray_places (v := v) (arr := id) run rfl rfl (fun _ _ _ => ⟨rfl, rfl⟩) (fun _ => rfl) (fun _ => ⟨rfl, rfl⟩) (fun _ _ => rfl) nofun
  · have run : exec (.mwr c d val col tile e rs) s = execCmd c _ s := rfl
    have places := onArray_places (v := v) (arr := id) run rfl rfl (fun _ _ _ => ⟨rfl, rfl⟩) (fun _ => rfl) (fun _ => ⟨rfl, rfl⟩) (fun _ _ => rfl) nofun
    cases rs <;> exact places
  · have run : exec (.mst c d org h tile e sc act sat) s = execCmd c _ s := rfl
    exact onArray_places (v := v) (arr := id) run rfl rfl (fun _ _ _ => ⟨rfl, rfl⟩) (fun _ => rfl) (fun _ => ⟨rfl, rfl⟩) (fun _ _ => rfl) nofun
  · have run : exec (.tblld c d addr (.bias tile) e sc a64) s = execCmd c _ s := rfl
    refine onArray_places run rfl rfl (fun _ _ _ => ⟨rfl, rfl⟩) (fun _ => rfl) (fun _ => ⟨rfl, rfl⟩) (fun _ _ => rfl) fun a own i held => ?_
    cases own
    exact good i held
  · refine ⟨fun none_ => wld_cleared kind here inside (runWld_undefined none_), fun r some_ plain_ => ?_⟩
    have plain : hSub r = false := by rw [hSub, plain_]; rfl
    obtain ⟨format, outside⟩ := runWld_stops (s := workState s t e k) (e := e) (core := t.coreN) (bank := bank) (ko := ko) (no := no) (kc := kc) (z := z)
      (asked := k.asked) some_ plain
    exact ⟨fun bad => wld_cleared kind here inside (format bad), fun latch whole out => wld_cleared kind here inside (outside latch whole out),
      fun latch whole inK inN fits zero st ends => wld_filled kind here inside settled some_ plain latch whole inK inN fits zero ends⟩
  · obtain ⟨state, out, res⟩ := mrd_work (e := e) kind sound
    exact ⟨state, out, res.trans (runMrd_words ..)⟩
  · rw [beginWork_of_good sound, cmdWork, kind]
    dsimp only
    obtain ⟨none_, defined⟩ := runMst_ends (s := workState s t e k) (e := e) (core := t.coreN) (h := h) (tile := tile) (no := no) (mo := mo)
      (act := act) (sat := sat) (t.asFound k)
    refine ⟨fun missing => ?_, fun r some_ => ⟨fun raw => ?_, fun f float => ⟨fun outside => ?_, fun y inK inM stores => ?_⟩⟩⟩
    · rw [show (t.asFound k).coreN = t.coreN from rfl, none_ missing]
      exact ⟨rfl, rfl⟩
    · rw [show (t.asFound k).coreN = t.coreN from rfl, (defined r some_).1 raw]
      exact ⟨rfl, rfl⟩
    · rw [show (t.asFound k).coreN = t.coreN from rfl, ((defined r some_).2 f float).1 outside]
      exact ⟨rfl, rfl⟩
    · rw [show (t.asFound k).coreN = t.coreN from rfl, ((defined r some_).2 f float).2 y inK inM stores]
      exact ⟨rfl, rfl⟩
  · exact tblld_slot_work kind bytes
  · exact tblld_bias_work kind bytes inside there

end Sys2Proof.Machine
end

section
/-! The equation of a visit of R328, as a fold over the four children of a node. -/

namespace Sys2Proof.Machine
/-- What a visit does with one child; `deeper` is the visit of a child that is a node. -/
def visitChild (ray : Bool) (q : List Num) (node : Nat) (deeper : Nat → State × List Word × Visit → State × List Word × Visit)
    (y : State × List Word × Visit) (j : Nat) : State × List Word × Visit :=
  match y.2.2 with
  | .on =>
    if childRef node j = 0xFFFFFFFF then y
    else if !(if ray then rayTest q (childBox node j) else boxTest q (childBox node j)) then y
    else if 2 ^ 31 ≤ childRef node j then (y.1, y.2.1 ++ [BitVec.ofNat 32 (childRef node j % 2 ^ 31)], .on)
    else deeper (childRef node j) y
  | _ => y

/-- What a visit does with the node that it has read. -/
def visitRead (ray : Bool) (q : List Num) (deeper : Nat → State × List Word × Visit → State × List Word × Visit) (acc : List Word)
    (r : MemR Nat) : State × List Word × Visit :=
  match r.2 with
  | .error c => (r.1, acc, .stop c.1 c.2)
  | .ok node => if fld node 1023 936 ≠ 0 then (r.1, acc, .abort)
    else [0, 1, 2, 3].foldl (visitChild ray q node deeper) (r.1, acc, .on)

/-- The visit of a child from a node at depth 31, and from one that has `left'` levels below it. -/
def visitBelow (t : Team) (e tree : Nat) (ray : Bool) (q : List Num) : Nat → Nat → State × List Word × Visit → State × List Word × Visit
  | 0 => fun _ y => (y.1, y.2.1, .abort)
  | left' + 1 => visitNode t e tree ray q left'

-- The compiled form of the recursion is opened by hand: its equation is too deep for `unfold`
theorem visitNode_eq (t : Team) (e tree : Nat) (ray : Bool) (q : List Num) (left n : Nat) (x : State × List Word × Visit) :
    visitNode t e tree ray q left n x =
      visitRead ray q (visitBelow t e tree ray q left) x.2.1 (readNat x.1 t e ((tree + 128 * n) % 2 ^ 64) 128) := by
  delta visitNode
  rw [Nat.brecOn.eq]
  cases left with
  | zero =>
    delta visitNode._f
    dsimp only
    unfold visitRead
    generalize readNat x.1 t e ((tree + 128 * n) % 2 ^ 64) 128 = r
    obtain ⟨s, c | node⟩ := r
    · rfl
    · refine congrArg (ite _ _) (congrArg (fun f => List.foldl f _ _) (funext fun ⟨s, acc, v⟩ => funext fun j => ?_))
      cases v <;> rfl
  | succ left =>
    suffices step : ∀ b : Nat.below (motive := fun _ => Nat → State × List Word × Visit → State × List Word × Visit) (left + 1),
        b.1 = visitNode t e tree ray q left → visitNode._f t e tree ray q (left + 1) b n x =
          visitRead ray q (visitBelow t e tree ray q (left + 1)) x.2.1 (readNat x.1 t e ((tree + 128 * n) % 2 ^ 64) 128) from
      step _ (by delta visitNode; rfl)
    intro b below
    delta visitNode._f
    dsimp only
    unfold visitRead
    generalize readNat x.1 t e ((tree + 128 * n) % 2 ^ 64) 128 = r
    obtain ⟨s, c | node⟩ := r
    · rfl
    · refine congrArg (ite _ _) (congrArg (fun f => List.foldl f _ _) (funext fun ⟨s, acc, v⟩ => funext fun j => ?_))
      simp only [visitBelow, ← below]
      cases v <;> rfl
end Sys2Proof.Machine
end

section
/-! SORT and BVHQ take their places (R320, R326), and what sorting and the tests of a traversal compute (R322, R327, R328). -/

namespace Sys2Proof.Machine

variable {s x y : State} {c : Common} {v : View} {t : Team} {e : Nat} {k : Cmd}

-- Places

/-- A register that stands at the alignment of its width is one that any block of registers may begin at (R56, R326). -/
theorem srcOk_loose {allowQ : Bool} {q : Name} {n : Nat} (ok : srcOk v allowQ { name := q, words := n } = true) :
    srcOk v allowQ { name := q, words := n, loose := true } = true := by
  cases q <;> simp_all [srcOk, Opnd.align, Nat.mod_one]

/-- A source that passes every check at its alignment passes them as a block of registers too. -/
theorem passes_loose {own : View → Option FaultInfo} {d : Option Dst} {q : Name} {n : Nat} {rest : List Opnd}
    (h : Passes s c { srcs := { name := q, words := n } :: rest, dst := d, allowQ := false } own v) :
    Passes s c { srcs := { name := q, words := n, loose := true } :: rest, dst := d, allowQ := false } own v := by
  obtain ⟨view, stands, names, own_, timely, room, pops, push⟩ := h
  refine ⟨view, stands, ?_, own_, timely, room, pops, push⟩
  unfold nameFault at names ⊢
  dsimp only at names ⊢
  obtain ⟨-, no⟩ | ⟨good, fine⟩ := ite_eq_iff.mp names
  · cases no
  · refine ite_eq_iff.mpr (.inr ⟨fun bad => good ?_, fine⟩)
    rw [Bool.not_eq_true', Bool.and_eq_false_iff, List.all_cons, Bool.and_eq_false_iff] at bad ⊢
    refine bad.imp_left (Or.imp_left fun wrong => ?_)
    exact Bool.eq_false_iff.mpr fun ok => Bool.eq_false_iff.mp wrong (srcOk_loose ok)

/-- BVHQ, with its query as the operand of `loose` words that it is. -/
def bvhqCmd (s : State) (d q addr : Name) (ray : Bool) (e : Nat) (sc : Scope) (a64 : Bool) : CmdShape :=
  { front := { srcs := { name := q, words := if ray then 8 else 6, loose := true } :: addrSrcs addr a64, dst := d1 d, allowQ := false },
    own := baseOwn addr a64, addr := some (fun v i => v.addr s.fresh i addr a64 0, 32), e := e, sc := sc,
    kind := fun v i => .bvhq (BitVec.ofNat 64 (v.addr s.fresh i addr a64 0)) ray
      (v.src s.fresh i { name := q, words := if ray then 8 else 6, loose := true }) }

theorem bvhq_places (d q addr : Name) (ray : Bool) (e : Nat) (sc : Scope) (a64 : Bool) :
    let qo : Opnd := { name := q, words := if ray then 8 else 6 }
    let f : Front := { srcs := qo :: addrSrcs addr a64, dst := d1 d, allowQ := false }
    Places s c v (.bvhq c d q addr ray e sc a64) f (baseOwn addr a64)
      (Reaches s (v.actors f false) (fun i => v.addr s.fresh i addr a64 0) 32 .all) e sc
      ((v.actors f false).map (fun i => .bvhq (BitVec.ofNat 64 (v.addr s.fresh i addr a64 0)) ray (v.src s.fresh i qo))) := by
  intro qo f h within room good
  obtain ⟨r, ran, placed, -⟩ := execCmd_placed (m := bvhqCmd s d q addr ray e sc a64) (passes_loose h) (fun _ _ => ⟨rfl, rfl⟩) (fun _ => rfl) within
    (v.actors f false) (by simp [View.actors, f, bvhqCmd, Front.once, qo]) (by rwa [List.length_map] at room) (by
      intro a own i held
      cases own
      exact good i held)
  exact ⟨r, ran, placed⟩

-- The order of a sort (R322)

section
variable {d : Nat → Nat}

theorem sortInsert_perm (i : Nat) (l : List Nat) : (sortInsert d i l).Perm (i :: l) := by
  induction l with
  | nil => exact .refl _
  | cons j l ih =>
    rw [sortInsert]
    split
    · exact .refl _
    · exact (ih.cons j).trans (.swap i j l)

/-- Ascending by the digit value, and equal ones by index. -/
def Sorts (d : Nat → Nat) (i j : Nat) : Prop := d i < d j ∨ (d i = d j ∧ i < j)

theorem sortInsert_sorts {i : Nat} {l : List Nat} (ascends : l.Pairwise (Sorts d)) (first : ∀ j ∈ l, i < j) : (sortInsert d i l).Pairwise (Sorts d) := by
  induction l with
  | nil => exact List.pairwise_singleton _ _
  | cons j l ih =>
    obtain ⟨below, rest⟩ := List.pairwise_cons.mp ascends
    rw [sortInsert]
    split
    · next small =>
      refine List.pairwise_cons.mpr ⟨fun m held => ?_, ascends⟩
      have after := first m held
      rcases List.mem_cons.mp held with rfl | deeper
      · rcases Nat.lt_or_eq_of_le small with less | same
        · exact .inl less
        · exact .inr ⟨same, after⟩
      · rcases below m deeper with less | ⟨same, -⟩
        · exact .inl (by omega)
        · rcases Nat.lt_or_eq_of_le small with less | equal
          · exact .inl (by omega)
          · exact .inr ⟨by omega, after⟩
    · next large =>
      refine List.pairwise_cons.mpr ⟨fun m held => ?_, ih rest fun m held => first m (List.mem_cons_of_mem _ held)⟩
      rcases List.mem_cons.mp ((sortInsert_perm i l).mem_iff.mp held) with rfl | deeper
      · exact .inl (by omega)
      · exact below m deeper

theorem sortOrder_sorts (d : Nat → Nat) (n : Nat) :
    (sortOrder d n).Perm (List.range n) ∧ (sortOrder d n).Pairwise (fun i j => d i < d j ∨ (d i = d j ∧ i < j)) := by
  have all (l : List Nat) (ascends : l.Pairwise (· < ·)) : (l.foldr (sortInsert d) []).Perm l ∧ (l.foldr (sortInsert d) []).Pairwise (Sorts d) := by
    induction l with
    | nil => exact ⟨.refl _, .nil⟩
    | cons i l ih =>
      obtain ⟨below, rest⟩ := List.pairwise_cons.mp ascends
      obtain ⟨perm, sorts⟩ := ih rest
      exact ⟨(sortInsert_perm i _).trans (perm.cons i), sortInsert_sorts sorts fun j held => below j (perm.mem_iff.mp held)⟩
  exact all _ List.pairwise_lt_range

end

-- The digit values of whole keys (R322)

/-- What a key becomes before its digits are taken: `u` is the sign's weight. -/
def sortTurn (kt u a : Nat) : Nat :=
  match kt with
  | 0 => a
  | 1 => if u ≤ a then a - u else a + u
  | _ => if u ≤ a then 2 * u - 1 - a else a + u

theorem sortTurn_lt (kt : Nat) {u a : Nat} (key : a < 2 * u) : sortTurn kt u a < 2 * u := by
  unfold sortTurn
  split
  · exact key
  · split <;> omega
  · split <;> omega

theorem top_iff {u a : Nat} (key : a < 2 * u) : a / u % 2 = 1 ↔ u ≤ a := by
  have two : a / u < 2 := Nat.div_lt_of_lt_mul (by omega)
  rcases Nat.lt_or_ge a u with low | high
  · rw [Nat.div_eq_of_lt low]
    omega
  · have := Nat.div_pos high (by omega)
    omega

/-- The digits of a whole key are the key, turned. -/
theorem sortDigit_whole {r a u : Nat} (first : fld r 34 32 = 0) (all : fld r 39 36 = (if fld r 25 25 = 1 then 4 else 8)) (up : fld r 28 28 = 0)
    (width : 2 * u = 2 ^ (if fld r 25 25 = 1 then 32 else 64)) (key : a < 2 * u) : sortDigit r a = sortTurn (fld r 27 26) u a := by
  have up' : sortDesc r = false := by rw [sortDesc, up]; rfl
  have width' : 2 ^ sortW r = 2 * u ∧ 2 ^ (sortW r - 1) = u ∧ 8 * (sortLod r + sortNd r) = sortW r ∧ 0 < sortW r := by
    rw [sortLod, sortNd, first, all, sortW]
    split at width <;> simp_all <;> omega
  obtain ⟨whole, half, digits, some_⟩ := width'
  have turned : sortTurn (sortKt r) u a = match sortKt r with
      | 0 => a
      | 1 => if a / u % 2 = 1 then a - u else a + u
      | _ => if a / u % 2 = 1 then 2 * u - 1 - a else if a / u % 2 = 1 then a - u else a + u := by
    simp only [top_iff key]
    rcases sortKt r with _ | _ | kt
    · rfl
    · rfl
    · exact ite_congr rfl (fun _ => rfl) fun low => (if_neg low).symm
  unfold sortDigit
  dsimp only
  rw [up', whole, half, digits, show sortLod r = 0 from first, if_neg Bool.false_ne_true, fld, Nat.mul_zero, Nat.pow_zero, Nat.div_one, Nat.sub_zero,
    Nat.sub_add_cancel some_, whole]
  have fits := sortTurn_lt (sortKt r) key
  rw [turned] at fits
  exact (Nat.mod_eq_of_lt fits).trans turned.symm

theorem ite_order (x y p q : Prop) [Decidable x] [Decidable y] :
    (if x then (if y then p else True) else (if y then False else q)) ↔ (x ∧ (y → p)) ∨ (¬ x ∧ ¬ y ∧ q) := by
  by_cases hx : x <;> by_cases hy : y <;> simp [hx, hy]

/-- The digit values of whole keys stand in the order of their type (R322). -/
theorem sortDigit_orders {r a b : Nat} (first : fld r 34 32 = 0) (all : fld r 39 36 = (if fld r 25 25 = 1 then 4 else 8)) (up : fld r 28 28 = 0) :
    let w := if fld r 25 25 = 1 then 32 else 64
    a < 2 ^ w → b < 2 ^ w →
    (fld r 27 26 = 0 → (sortDigit r a < sortDigit r b ↔ a < b)) ∧ (fld r 27 26 = 1 → (sortDigit r a < sortDigit r b ↔ sext w a < sext w b)) ∧
    (fld r 27 26 = 2 → (sortDigit r a < sortDigit r b ↔
      if sext w a < 0 then (if sext w b < 0 then b < a else True) else (if sext w b < 0 then False else a < b))) := by
  intro w keyA keyB
  obtain ⟨u, double, half⟩ : ∃ u, 2 * u = 2 ^ w ∧ 2 ^ (w - 1) = u := by
    refine ⟨_, ?_, rfl⟩
    simp only [w]
    split <;> rfl
  rw [← double] at keyA keyB
  have signed (n : Nat) : sext w n = if n < u then (n : Int) else n - 2 * u := by
    rw [sext, half, ← double]
    push_cast
    rfl
  rw [sortDigit_whole first all up double keyA, sortDigit_whole first all up double keyB, signed, signed]
  clear signed double half first all up
  refine ⟨fun plain => ?_, fun int => ?_, fun float => ?_⟩
  · rw [plain]
    rfl
  · rw [int, sortTurn, sortTurn]
    split_ifs <;> omega
  · have turnA : 2 * u - 1 - a + (a + 1) = 2 * u := by omega
    have turnB : 2 * u - 1 - b + (b + 1) = 2 * u := by omega
    have turn (n : Nat) : sortTurn 2 u n = if u ≤ n then 2 * u - 1 - n else n + u := rfl
    rw [float, turn, turn]
    generalize 2 * u - 1 - a = m at turnA ⊢
    generalize 2 * u - 1 - b = n at turnB ⊢
    rw [ite_order]
    split_ifs <;> omega

-- The tests of a traversal (R327)

theorem boxTest_iff (q b : List Num) :
    boxTest q b = true ↔ ∀ i < 3, leNum (numAt q i) (numAt b (3 + i)) = true ∧ leNum (numAt b i) (numAt q (3 + i)) = true := by
  have three : [0, 1, 2] = List.range 3 := rfl
  simp only [boxTest, three, List.all_eq_true, List.mem_range, Bool.and_eq_true]

/-- One axis narrows the interval, or misses. -/
def Narrows (q b : List Num) (i : Nat) (lo hi lo' hi' : Num) : Prop :=
  let o := numAt q i
  let d := numAt q (3 + i)
  let t := fun x => dec .f32 (rne .f32 (divNum (sumNum false [x, o.neg]) d).1).1
  let t1 := t (numAt b i)
  let t2 := t (numAt b (3 + i))
  if d.isZero = true then leNum (numAt b i) o = true ∧ leNum o (numAt b (3 + i)) = true ∧ lo' = lo ∧ hi' = hi
  else t1.isNan = false ∧ t2.isNan = false ∧ lo' = maxNum lo (minNum t1 t2) ∧ hi' = minNum hi (maxNum t1 t2)

theorem rayAxis_iff (q b : List Num) (i : Nat) (lo hi lo' hi' : Num) :
    rayAxis q b (some (lo, hi)) i = some (lo', hi') ↔ Narrows q b i lo hi lo' hi' := by
  simp only [rayAxis, Narrows, rayDist]
  split
  · simp only [Option.ite_none_right_eq_some, Bool.and_eq_true, Option.some.injEq, Prod.mk.injEq, and_assoc, eq_comm (a := lo'), eq_comm (a := hi')]
  · simp only [Option.ite_none_left_eq_some, Bool.or_eq_true, not_or, Bool.not_eq_true, Option.some.injEq, Prod.mk.injEq, and_assoc, eq_comm (a := lo'), eq_comm (a := hi')]

theorem rayFold_iff (q b : List Num) (n : Nat) (l h l' h' : Num) :
    (List.range n).foldl (rayAxis q b) (some (l, h)) = some (l', h') ↔ ∃ lo hi : Nat → Num, lo 0 = l ∧ hi 0 = h ∧ lo n = l' ∧ hi n = h' ∧
      ∀ i < n, Narrows q b i (lo i) (hi i) (lo (i + 1)) (hi (i + 1)) := by
  induction n generalizing l' h' with
  | zero =>
    rw [List.range_zero, List.foldl_nil, Option.some.injEq, Prod.mk.injEq]
    constructor
    · rintro ⟨rfl, rfl⟩
      exact ⟨fun _ => l, fun _ => h, rfl, rfl, rfl, rfl, fun i below => absurd below (Nat.not_lt_zero i)⟩
    · rintro ⟨lo, hi, rfl, rfl, rfl, rfl, -⟩
      exact ⟨rfl, rfl⟩
  | succ n ih =>
    rw [List.range_succ, List.foldl_append, List.foldl_cons, List.foldl_nil]
    constructor
    · intro ends
      rcases before : (List.range n).foldl (rayAxis q b) (some (l, h)) with _ | ⟨l₁, h₁⟩
      · rw [before] at ends
        cases ends
      · obtain ⟨lo, hi, lo0, hi0, rfl, rfl, steps⟩ := (ih l₁ h₁).mp before
        rw [before, rayAxis_iff] at ends
        refine ⟨Function.update lo (n + 1) l', Function.update hi (n + 1) h', ?_, ?_, Function.update_self .., Function.update_self .., fun i below => ?_⟩
        · rw [Function.update_of_ne (Nat.succ_ne_zero n).symm, lo0]
        · rw [Function.update_of_ne (Nat.succ_ne_zero n).symm, hi0]
        · rw [Function.update_of_ne (Nat.ne_of_lt below), Function.update_of_ne (Nat.ne_of_lt below)]
          rcases Nat.lt_succ_iff_lt_or_eq.mp below with lower | rfl
          · have ne : i + 1 ≠ n + 1 := by omega
            rw [Function.update_of_ne ne, Function.update_of_ne ne]
            exact steps i lower
          · rw [Function.update_self, Function.update_self]
            exact ends
    · rintro ⟨lo, hi, lo0, hi0, rfl, rfl, steps⟩
      rw [(ih _ _).mpr ⟨lo, hi, lo0, hi0, rfl, rfl, fun i below => steps i (Nat.lt_succ_of_lt below)⟩, rayAxis_iff]
      exact steps n (Nat.lt_succ_self n)

theorem rayTest_iff (q b : List Num) : rayTest q b = true ↔ (∀ x ∈ q, x.isNan = false) ∧ (∀ x ∈ b, x.isNan = false) ∧
    ∃ lo hi : Nat → Num, lo 0 = numAt q 6 ∧ hi 0 = numAt q 7 ∧ leNum (lo 3) (hi 3) = true ∧
      ∀ i < 3, Narrows q b i (lo i) (hi i) (lo (i + 1)) (hi (i + 1)) := by
  have numbers : (q.any Num.isNan || b.any Num.isNan) = false ↔ (∀ x ∈ q, x.isNan = false) ∧ (∀ x ∈ b, x.isNan = false) := by
    simp only [Bool.or_eq_false_iff, List.any_eq_false, Bool.not_eq_true]
  have folded : rayTest q b = true ↔ (q.any Num.isNan || b.any Num.isNan) = false ∧
      ∃ l h, (List.range 3).foldl (rayAxis q b) (some (numAt q 6, numAt q 7)) = some (l, h) ∧ leNum l h = true := by
    have three : [0, 1, 2] = List.range 3 := rfl
    rw [rayTest, three]
    cases q.any Num.isNan || b.any Num.isNan
    · rcases (List.range 3).foldl (rayAxis q b) (some (numAt q 6, numAt q 7)) with _ | ⟨l, h⟩ <;> simp
    · simp
  rw [folded, numbers, and_assoc]
  refine and_congr_right fun _ => and_congr_right fun _ => ?_
  simp only [rayFold_iff]
  constructor
  · rintro ⟨l, h, ⟨lo, hi, lo0, hi0, rfl, rfl, steps⟩, meets⟩
    exact ⟨lo, hi, lo0, hi0, meets, steps⟩
  · rintro ⟨lo, hi, lo0, hi0, meets, steps⟩
    exact ⟨_, _, ⟨lo, hi, lo0, hi0, rfl, rfl, steps⟩, meets⟩

-- The visit of a node (R328)

/-- One child. -/
theorem visitChild_eq (t : Team) (e tree left node j : Nat) (ray : Bool) (q : List Num) (y : State × List Word × Visit) :
    visitChild ray q node (visitBelow t e tree ray q left) y j =
      if y.2.2 ≠ .on ∨ childRef node j = 0xFFFFFFFF ∨ (if ray then rayTest q (childBox node j) else boxTest q (childBox node j)) = false then y
      else if 2 ^ 31 ≤ childRef node j then (y.1, y.2.1 ++ [BitVec.ofNat 32 (childRef node j % 2 ^ 31)], .on)
      else if left = 0 then (y.1, y.2.1, .abort)
      else visitNode t e tree ray q (left - 1) (childRef node j) y := by
  have below (n : Nat) : visitBelow t e tree ray q left n y = if left = 0 then (y.1, y.2.1, .abort) else visitNode t e tree ray q (left - 1) n y := by
    cases left <;> rfl
  obtain ⟨w, acc, st⟩ := y
  cases st with
  | on =>
    rw [visitChild, below]
    dsimp only
    generalize (if ray then rayTest q (childBox node j) else boxTest q (childBox node j)) = hit
    by_cases empty : childRef node j = 0xFFFFFFFF
    · rw [if_pos empty, if_pos (.inr (.inl empty))]
    · cases hit with
      | false => exact ((if_neg empty).trans (if_pos rfl)).trans (if_pos (.inr (.inr rfl))).symm
      | true =>
        have goes : ¬ (Visit.on ≠ Visit.on ∨ childRef node j = 0xFFFFFFFF ∨ true = false) := by
          rintro (no | no | no)
          · exact no rfl
          · exact empty no
          · cases no
        rw [if_neg empty, if_neg goes]
        rfl
  | abort => exact (if_pos (.inl nofun)).symm
  | stop c a => exact (if_pos (.inl nofun)).symm

/-- A visit goes through the four children of its node in order. -/
theorem visit_children {t : Team} {e tree left n node : Nat} {ray : Bool} {q : List Num} {acc : List Word}
    (read : readNat s t e ((tree + 128 * n) % 2 ^ 64) 128 = (y, .ok node)) :
    (fld node 1023 936 ≠ 0 → visitNode t e tree ray q left n (s, acc, .on) = (y, acc, .abort)) ∧
    (fld node 1023 936 = 0 → ∃ z : Nat → State × List Word × Visit, z 0 = (y, acc, .on) ∧
      visitNode t e tree ray q left n (s, acc, .on) = z 4 ∧ ∀ j < 4,
        let ref := fld node (768 + 32 * j + 31) (768 + 32 * j)
        z (j + 1) =
          if (z j).2.2 ≠ .on ∨ ref = 0xFFFFFFFF ∨ (if ray then rayTest q (childBox node j) else boxTest q (childBox node j)) = false then z j
          else if 2 ^ 31 ≤ ref then ((z j).1, (z j).2.1 ++ [BitVec.ofNat 32 (ref % 2 ^ 31)], .on)
          else if left = 0 then ((z j).1, (z j).2.1, .abort)
          else visitNode t e tree ray q (left - 1) ref (z j)) := by
  rw [visitNode_eq]
  dsimp only
  rw [read, visitRead]
  dsimp only
  refine ⟨fun bad => if_pos bad, fun good => ?_⟩
  let z := fun j => (List.range j).foldl (visitChild ray q node (visitBelow t e tree ray q left)) (y, acc, .on)
  refine ⟨z, rfl, (if_neg (not_not.mpr good)).trans rfl, fun j _ => ?_⟩
  have step : z (j + 1) = visitChild ray q node (visitBelow t e tree ray q left) (z j) j := by
    simp only [z, List.range_succ, List.foldl_append, List.foldl_cons, List.foldl_nil]
  exact step.trans (visitChild_eq ..)

end Sys2Proof.Machine
end

section
/-! A command reserves the next slot of its ring (R247, R248, R329). -/

namespace Sys2Proof.Machine

variable {s r : State} {t : Team} {k : Cmd} {team e key : Nat}

theorem Lines.broken (h : Lines s r) : r.broken = s.broken := by
  obtain ⟨_, _, _, _, _, _, _, _, _, _, _, _, _, _, _, rfl, -⟩ := h
  rfl

theorem homeWrite_broken (s : State) (ctx : Nat) (l : Line) (loc : Loc) (bytes : List (Nat × Byte)) (b : Bool) (cause : Nat) :
    (homeWrite s ctx l loc bytes b cause).broken = s.broken := by
  have lines : Lines s (dirtyLine (markLeaf (noteCode s loc bytes none []) loc true) ctx loc) :=
    ((noteCode_cached s loc bytes none []).1.trans (markLeaf_lines _ loc true)).trans (dirtyLine_cached _ _ _).1
  rw [← lines.broken]
  unfold homeWrite
  dsimp only
  generalize dirtyLine (markLeaf (noteCode s loc bytes none []) loc true) ctx loc = v
  generalize hw : (if channelFailed v (lineAddr loc.key) then v
      else { v with mem := bytes.foldl (fun m b => tput memDefault m (lineAddr loc.key + b.1) b.2) v.mem } : State) = w
  have merged : w.broken = v.broken := by
    rw [← hw]
    split <;> rfl
  generalize hu : noteSlots _ _ = u
  have noted : u.broken = w.broken := by
    rw [← hu]
    unfold noteSlots noteHeld noteLanes
    rw [settlePieces_shape]
    rfl
  obtain ⟨_, _, _, told, -⟩ := notifyAll_told (entriesOf u l) (rdBytes v (lineAddr loc.key) 128) (rdBytes u (lineAddr loc.key) 128)
    (fun d i => if b = true then ((rdBytes v (lineAddr loc.key) 128).drop (i * etypeBytes d.t)).take (etypeBytes d.t) !=
        ((rdBytes u (lineAddr loc.key) 128).drop (i * etypeBytes d.t)).take (etypeBytes d.t)
      else (List.range (etypeBytes d.t)).any (fun j => bytes.any (fun b => b.1 == i * etypeBytes d.t + j)) &&
        !(List.range (etypeBytes d.t)).all (fun j => bytes.any (fun b => b.1 == i * etypeBytes d.t + j))) cause u
  exact (congrArg State.broken told).trans (noted.trans merged)

theorem ofBytes_append (a b : List Byte) : ofBytes (a ++ b) = ofBytes a + 256 ^ a.length * ofBytes b := by
  induction a with
  | nil => simp [ofBytes]
  | cons x a ih =>
    rw [List.cons_append, ofBytes, ofBytes, ih, List.length_cons, Nat.pow_succ]
    ring

/-- The tail of a ring that no plain store has gone into (R246). -/
theorem ringTail_eq (whole : s.broken = []) (key : Nat) : ringTail (ringOf s key) = rdNat s key 8 := by
  have parts : rdBytes s key 128 = rdBytes s key 8 ++ rdBytes s (key + 8) 120 := by
    simp only [rdBytes, show 128 = 8 + 120 from rfl, List.range_add, List.map_append, List.map_map, Function.comp_def, Nat.add_assoc]
  rw [ringOf, whole, if_neg (by simp), ringTail, fld, rdNat, parts, ofBytes_append, Nat.pow_zero, Nat.div_one, rdNat]
  have small := ofBytes_lt (rdBytes s key 8)
  have eight : (rdBytes s key 8).length = 8 := by simp [rdBytes]
  rw [eight] at small ⊢
  omega

/-- A slot is reserved at the tail: the count at the ring's header rises by one. -/
theorem ringAdd_tail {v : State} (whole : v.broken = []) (line : key % 128 = 0) (pewter : homeOf key = 2 ∨ homeOf key = 3)
    (room : rdNat v key 8 + 1 < 2 ^ 64) :
    (ringAdd v key 0 1).broken = [] ∧ ringTail (ringOf (ringAdd v key 0 1) key) = rdNat v key 8 + 1 ∧
      byTeam Team.tracked (ringAdd v key 0 1) = byTeam Team.tracked v := by
  have base : lineAddr key = key := by unfold lineAddr; omega
  have sound : channelFailed v (lineAddr key) = false := by
    rw [base, channelFailed, Bool.and_eq_false_iff]
    exact .inl (decide_eq_false (by omega))
  have broken : (ringAdd v key 0 1).broken = [] := (homeWrite_broken ..).trans whole
  refine ⟨broken, ?_, ?_⟩
  · rw [ringTail_eq broken]
    obtain ⟨m, mem⟩ := homeWrite_bytes v 0 (lineOf 0 key) { key := key, leaf := none }
      ((toBytes 8 (rdNat v (key + 0) 8 + 1)).mapIdx fun i b => (0 + i, b)) false v.fresh none [] sound
    have offset : 0 = key % 128 := line.symm
    rw [Nat.add_zero] at mem
    rw [rdNat_stored (n := 8) (v := rdNat v key 8 + 1) (m := m) (by rw [← offset]; exact mem)]
    exact Nat.mod_eq_of_lt room
  · obtain ⟨⟨teams, -⟩, -⟩ := homeWrite_shape v 0 (lineOf 0 key) { key := key, leaf := none }
      ((toBytes 8 (rdNat v (key + 0) 8 + 1)).mapIdx fun i b => (0 + i, b)) false v.fresh none []
    rw [byTeam, byTeam, ringAdd, teams]

theorem aged_whole (whole : s.broken = []) : aged s = s := by
  rw [aged, whole]
  rfl

section
variable (found : findTeam s team = some t) (within : e < t.ectx.length) (head : headCmd t e = some k) (waits : k.outbox ≠ [])
  (slotless : k.slot = none) (whole : s.broken = [])
include found within head waits slotless whole

/-- On a ring that is not live the reservation fails (R248; log entry 115). -/
theorem reserve_dead (lane port : Nat) (dead : ringLive (ringOf s k.ring) = false) :
    ∃ r u, exec (.reserve team (16 + e) lane port) s = .next r ∧ findTeam r team = some u ∧ r.mem = s.mem ∧
      headCmd u e = some { k with outbox := [], st := if k.st = .running 0 then .running 4 else k.st } := by
  let me : RingReq := { key := k.ring, pop := false, team := team, gang := 16 + e, lane := 0, port := 0 }
  obtain ⟨u, foundU, headU, -⟩ := modHead_head (s := leaveLine s me) found within head
    fun c => { c with outbox := [], st := if c.st = .running 0 then .running 4 else c.st }
  refine ⟨_, u, ?_, foundU, rfl, headU⟩
  have served : cmdReserve s team e = modHead (leaveLine s me) team e
      fun c => { c with outbox := [], st := if c.st = .running 0 then .running 4 else c.st } := by
    simp [cmdReserve, found, head, waits, slotless, dead, me]
  change execReserve team (16 + e) lane port s = _
  rw [execReserve, if_pos (by omega), Nat.add_sub_cancel_left, served, aged_whole]
  exact whole

/-- On a live ring with room the command takes the slot at its tail (R247). -/
theorem reserve_live (lane port : Nat) (live : ringLive (ringOf s k.ring) = true)
    (first : heldBack s { key := k.ring, pop := false, team := team, gang := 16 + e, lane := 0, port := 0 } = false)
    (grants : ringGrants s k.ring 1 false = true) (line : k.ring % 128 = 0) (pewter : homeOf k.ring = 2 ∨ homeOf k.ring = 3)
    (room : ringTail (ringOf s k.ring) + 1 < 2 ^ 64) :
    ∃ r u, exec (.reserve team (16 + e) lane port) s = .next r ∧ findTeam r team = some u ∧
      headCmd u e = some { k with slot := some (ringTail (ringOf s k.ring)) } ∧
      ringTail (ringOf r k.ring) = ringTail (ringOf s k.ring) + 1 := by
  let me : RingReq := { key := k.ring, pop := false, team := team, gang := 16 + e, lane := 0, port := 0 }
  let v : State := { leaveLine s me with slotsOut := (leaveLine s me).slotsOut ++ [(k.ring, ringTail (ringOf s k.ring))] }
  have tail : ringTail (ringOf s k.ring) = rdNat v k.ring 8 := ringTail_eq whole k.ring
  have served : cmdReserve s team e = modHead (noteHome (ringAdd v k.ring 0 1) team (homeOf k.ring)) team e
      fun c => { c with slot := some (ringTail (ringOf s k.ring)) } := by
    simp [cmdReserve, found, head, waits, slotless, live, first, grants, v, me]
  obtain ⟨broken, rises, teams⟩ := ringAdd_tail (v := v) whole line pewter (tail ▸ room)
  generalize ringAdd v k.ring 0 1 = w at served broken rises teams
  obtain ⟨x, foundX, headX, withinX⟩ := head_of_tracked ((noteHome_tracked w team (homeOf k.ring)).trans teams) found within head
  obtain ⟨u, foundU, headU, -⟩ := modHead_head foundX withinX headX fun c => { c with slot := some (ringTail (ringOf s k.ring)) }
  refine ⟨_, u, ?_, foundU, headU, ?_⟩
  · change execReserve team (16 + e) lane port s = _
    rw [execReserve, if_pos (by omega), Nat.add_sub_cancel_left, served, aged_whole]
    exact broken
  · rw [tail, ← rises, ringTail_eq broken]
    exact ringTail_eq broken k.ring

end

end Sys2Proof.Machine
end

section
/-! What SORT and BVHQ do when they begin (R321 to R323, R326 to R331). -/

namespace Sys2Proof.Machine

variable {s x y : State} {t u : Team} {e : Nat} {k : Cmd}

-- Stores into a context's buffer

/-- A word that an engine context writes stands in its buffer, and nothing else there has changed (R189, R278). -/
theorem writeCode_word {h v : Nat} {j : List Nat} (found : findTeam s t.uid = some u) (within : e < u.ectx.length) (word : hFmt h = 12)
    (aligned : (hAddr h j).1 % 4 = 0) (wrote : writeCode s t e h j v = (y, .ok ())) :
    (∃ u', findTeam y t.uid = some u' ∧ e < u'.ectx.length) ∧ ∀ l o, (agentMem y (.ctx t.uid e)).buffered l o =
      if l = lineOf t.ctx (hAddr h j).1 ∧ (hAddr h j).1 % 128 ≤ o ∧ o < (hAddr h j).1 % 128 + 4 then
        some (BitVec.ofNat 8 (v / 256 ^ (o - (hAddr h j).1 % 128)))
      else (agentMem s (.ctx t.uid e)).buffered l o := by
  have bytes : hBytes (hFmt h) = 4 := by rw [word]; rfl
  have fits : (hAddr h j).1 % 128 + hBytes (hFmt h) ≤ 128 := by rw [bytes]; omega
  have code : elemCode h v = v := by rw [elemCode, word]; rfl
  obtain ⟨-, buffered⟩ := writeCode_buffered found within (by rw [bytes]; decide) fits wrote
  rw [bytes, code] at buffered
  unfold writeCode at wrote
  dsimp only at wrote
  rw [bytes, if_pos (by decide), code] at wrote
  have tracked := writeCtx_tracked s t e (hAddr h j).1 (toBytes 4 v)
  rw [wrote] at tracked
  obtain ⟨u', found', same⟩ := found_byTeam tracked found
  have count := congrArg (fun r => r.1.length) same
  simp only [Team.tracked, List.length_map] at count
  refine ⟨⟨u', found', by omega⟩, fun l o => ?_⟩
  by_cases here : l = lineOf t.ctx (hAddr h j).1
  · subst here
    rw [buffered]
    exact if_congr (by simp) rfl rfl
  · rw [if_neg fun both => here both.1]
    obtain ⟨-, lane, cmd, era, merged⟩ := writeCtx_merges found within (by rw [length_toBytes]; omega) wrote
    rw [merged, buffered_merge_other _ here]

/-- Addresses of one line of buffered words: the same line and offset name the same word. -/
theorem same_word {ctx a b o : Nat} (alignedA : a % 4 = 0) (alignedB : b % 4 = 0) (line : lineOf ctx a = lineOf ctx b)
    (inA : a % 128 ≤ o ∧ o < a % 128 + 4) (inB : b % 128 ≤ o ∧ o < b % 128 + 4) : a = b := by
  have base : lineAddr a = lineAddr b := congrArg Line.addr line
  unfold lineAddr at base
  omega

/-- Words written one after the other, no two at one address: each stands in the buffer, and nothing else has changed. -/
theorem words_stand {h : Nat} {j : Nat → List Nat} {v : Nat → Nat} (word : hFmt h = 12) {l : List Nat} (once : l.Nodup)
    (aligned : ∀ i ∈ l, (hAddr h (j i)).1 % 4 = 0) (apart : ∀ i ∈ l, ∀ m ∈ l, (hAddr h (j i)).1 = (hAddr h (j m)).1 → i = m)
    (found : findTeam s t.uid = some u) (within : e < u.ectx.length)
    (wrote : mfold (fun s _ i => writeCode s t e h (j i) (v i)) l s () = (y, .ok ())) :
    (∀ i ∈ l, ∀ o < 4, (agentMem y (.ctx t.uid e)).buffered (lineOf t.ctx (hAddr h (j i)).1) ((hAddr h (j i)).1 % 128 + o) =
      some (BitVec.ofNat 8 (v i / 256 ^ o))) ∧
    ∀ line o, (∀ i ∈ l, ¬ (line = lineOf t.ctx (hAddr h (j i)).1 ∧ (hAddr h (j i)).1 % 128 ≤ o ∧ o < (hAddr h (j i)).1 % 128 + 4)) →
      (agentMem y (.ctx t.uid e)).buffered line o = (agentMem s (.ctx t.uid e)).buffered line o := by
  induction l generalizing s u with
  | nil => cases wrote; exact ⟨nofun, fun _ _ _ => rfl⟩
  | cons a l ih =>
    obtain ⟨fresh, once⟩ := List.nodup_cons.mp once
    rw [mfold] at wrote
    obtain ⟨x, _, first, rest⟩ := mbind_inv wrote
    obtain ⟨⟨u', found', within'⟩, one⟩ := writeCode_word found within word (aligned a List.mem_cons_self) first
    obtain ⟨stand, others⟩ := ih once (fun i held => aligned i (List.mem_cons_of_mem _ held))
      (fun i hi m hm => apart i (List.mem_cons_of_mem _ hi) m (List.mem_cons_of_mem _ hm)) found' within' rest
    refine ⟨fun i held o small => ?_, fun line o other => ?_⟩
    · rcases List.mem_cons.mp held with rfl | held
      · rw [others _ _ fun m hm inside => ?_, one, if_pos ⟨rfl, by omega, by omega⟩, Nat.add_sub_cancel_left]
        obtain ⟨line, inside⟩ := inside
        have same := same_word (aligned i List.mem_cons_self) (aligned m (List.mem_cons_of_mem _ hm)) line ⟨Nat.le_add_right _ o, by omega⟩ inside
        exact fresh (apart i List.mem_cons_self m (List.mem_cons_of_mem _ hm) same ▸ hm)
      · exact stand i held o small
    · rw [others line o fun m hm => other m (List.mem_cons_of_mem _ hm), one, if_neg (other a List.mem_cons_self)]

-- The data of a sort (R322)

section
variable {α β : Type}

/-- A list that takes what is read, one after the other. -/
theorem mfold_gathers {read : State → α → MemR β} (reads : ∀ s a, Reads s (read s a).1) {l : List α} {acc got : List β}
    (ok : mfold (fun s (b : List β) a => mbind (read s a) fun s v => mpure s (b ++ [v])) l s acc = (y, .ok got)) :
    Reads s y ∧ ∃ vs : List β, got = acc ++ vs ∧ List.Forall₂ (fun a v => ∃ x, Reads s x ∧ (read x a).2 = .ok v) l vs := by
  induction l generalizing s acc with
  | nil => cases ok; exact ⟨.refl _, [], (List.append_nil _).symm, .nil⟩
  | cons a l ih =>
    rw [mfold, mbind_assoc] at ok
    obtain ⟨x, v, one, rest⟩ := mbind_inv ok
    have first : Reads s x := by
      have := reads s a
      rwa [one] at this
    obtain ⟨last, vs, got_, all⟩ := ih rest
    refine ⟨first.trans last, v :: vs, by rw [got_, List.append_assoc]; rfl, .cons ⟨s, .refl s, by rw [one]⟩ (all.imp ?_)⟩
    exact fun b w ⟨z, after, value⟩ => ⟨z, first.trans after, value⟩

end

theorem freeBytes_tracked (s : State) (t : Team) (e a n : Nat) : byTeam Team.tracked (freeBytes s t e a n).1 = byTeam Team.tracked s := by
  unfold freeBytes
  generalize List.range n = l
  induction l generalizing s with
  | nil => rfl
  | cons i l ih =>
    rw [mfold, mbind]
    have one := writeCtx_tracked { s with fresh := s.fresh + 1 } t e (a + i) [Config.freeByte (freeIdx s.fresh 0)]
    split
    · exact (ih _).trans one
    · exact one

theorem mbind_done (m : MemR Unit) : mbind m (fun s _ => mpure s ()) = m := by
  obtain ⟨s, _ | _⟩ := m <;> rfl

/-- Of 32-bit keys without payload the destination takes each key in its place. -/
theorem sortData_stands {r : Nat} {rec_ : Nat → Nat} {st : Nat} (narrow : fld r 25 25 = 1) (bare : fld r 24 24 = 0)
    (word : hFmt (rec_ (sortKd r)) = 12) (found : findTeam x t.uid = some u) (within : e < u.ectx.length)
    (aligned : ∀ i < sortCount r, (hAddr (rec_ (sortKd r)) [i, 0, 0, 0]).1 % 4 = 0)
    (apart : ∀ i < sortCount r, ∀ j < sortCount r, (hAddr (rec_ (sortKd r)) [i, 0, 0, 0]).1 = (hAddr (rec_ (sortKd r)) [j, 0, 0, 0]).1 → i = j)
    (ok : sortData x t e r rec_ = (y, .ok st)) :
    ∃ key : Nat → Nat, (∀ i < sortCount r, ∃ z, Reads x z ∧ (readCode z t e (rec_ (sortKs r)) [i, 0, 0, 0]).2 = .ok (key i)) ∧
      ∀ j < sortCount r, ∀ o < 4, (agentMem y (.ctx t.uid e)).buffered (lineOf t.ctx (hAddr (rec_ (sortKd r)) [j, 0, 0, 0]).1)
        ((hAddr (rec_ (sortKd r)) [j, 0, 0, 0]).1 % 128 + o) =
          some (BitVec.ofNat 8 (key ((sortOrder (fun i => sortDigit r (key i)) (sortCount r)).getD j 0) / 256 ^ o)) := by
  have width : sortW r = 32 := by rw [sortW, if_pos narrow]
  have none_ : sortPay r = false := by rw [sortPay, bare]; rfl
  unfold sortData at ok
  simp only [none_, Bool.false_eq_true, if_false, readKey, writeKey, width, if_pos] at ok
  obtain ⟨x₁, keys, gathered, ok⟩ := mbind_inv ok
  obtain ⟨x₂, pays, none₂, ok⟩ := mbind_inv ok
  obtain ⟨x₃, _, freed, ok⟩ := mbind_inv ok
  obtain ⟨x₄, _, wrote, ends⟩ := mbind_inv ok
  obtain ⟨reads, vs, got, all⟩ := mfold_gathers (read := fun s i => readCode s t e (rec_ (sortKs r)) [i, 0, 0, 0]) (fun s i => readCode_reads ..) gathered
  obtain ⟨rfl, rfl⟩ : x₁ = x₂ ∧ [] = pays := by cases none₂; exact ⟨rfl, rfl⟩
  rw [List.nil_append] at got
  subst got
  obtain ⟨count, each⟩ := List.forall₂_iff_get.mp all
  rw [List.length_range] at count
  refine ⟨fun i => keys.getD i 0, fun i inside => ?_, ?_⟩
  · obtain ⟨z, from_, value⟩ := each i (by rwa [List.length_range]) (by omega)
    refine ⟨z, from_, ?_⟩
    dsimp only
    rw [List.getD_eq_getElem _ _ (by omega)]
    rwa [List.get_eq_getElem, List.getElem_range] at value
  · have tracked := freeBytes_tracked x₁ t e (sortScr r) (sortScratch r)
    rw [freed] at tracked
    obtain ⟨u', found', same⟩ := found_byTeam (tracked.trans reads.teams) found
    have lengths := congrArg (fun r => r.1.length) same
    simp only [Team.tracked, List.length_map] at lengths
    simp only [mbind_done] at wrote
    obtain rfl : x₄ = y := congrArg Prod.fst ends
    have stand := (words_stand (j := fun i => [i, 0, 0, 0]) word List.nodup_range (fun i held => aligned i (List.mem_range.mp held))
      (fun i hi m hm => apart i (List.mem_range.mp hi) m (List.mem_range.mp hm)) found' (by omega) wrote).1
    exact fun j inside => stand j (List.mem_range.mpr inside)

-- The work of SORT

/-- The handles that a record names (R320). -/
theorem sortHandles_eq (r : Nat) :
    sortHandles r = [fld r 5 0, fld r 11 6] ++ (if fld r 24 24 = 1 then [fld r 17 12, fld r 23 18] else []) := by
  rw [sortHandles, sortPay]
  exact congrArg (List.append _) (if_congr beq_iff_eq rfl rfl)

/-- Formats and fields that R321 does not allow. -/
def SortBad (r : Nat) (rec_ : Nat → Nat) : Prop :=
  (∃ h ∈ sortHandles r, hFmt (rec_ h) ≠ 12) ∨ fld r 31 29 ≠ 0 ∨ fld r 35 35 ≠ 0 ∨ fld r 63 40 ≠ 0 ∨ fld r 127 96 ≠ 0 ∨ fld r 511 192 ≠ 0 ∨
    fld r 27 26 = 3 ∨ fld r 39 36 = 0 ∨ 8 < fld r 39 36 ∨ (if fld r 25 25 = 1 then 4 else 8) < fld r 34 32 + fld r 39 36 ∨
    2 ^ 24 < fld r 95 64 ∨ fld r 191 128 % 128 ≠ 0

theorem sortCheck_status (r : Nat) (rec_ : Nat → Nat) :
    (SortBad r rec_ → sortCheck r rec_ = some 4) ∧ (¬ SortBad r rec_ → fld r 95 64 = 0 → sortCheck r rec_ = some 1) := by
  have bytes : sortW r / 8 = if fld r 25 25 = 1 then 4 else 8 := by
    rw [sortW]
    split <;> rfl
  have bad : ((sortHandles r).any (fun h => hFmt (rec_ h) != 12) || fld r 31 29 != 0 || fld r 35 35 != 0 || fld r 63 40 != 0 ||
      fld r 127 96 != 0 || fld r 511 192 != 0 || sortKt r == 3 || sortNd r == 0 || decide (8 < sortNd r) ||
      decide (sortW r / 8 < sortLod r + sortNd r) || decide (2 ^ 24 < sortCount r) || sortScr r % 128 != 0) = true ↔ SortBad r rec_ := by
    simp only [Bool.or_eq_true, List.any_eq_true, bne_iff_ne, beq_iff_eq, decide_eq_true_eq, or_assoc]
    rw [bytes]
    exact Iff.rfl
  unfold sortCheck
  exact ⟨fun h => if_pos (bad.mpr h), fun h none_ => (if_neg fun b => h (bad.mp b)).trans (if_pos none_)⟩

section
variable {a r : Nat} {st : Nat} (read : readNat s t e a 64 = (x, .ok r))
include read

theorem runSort_waits (waits : ∃ h ∈ sortHandles r, k.found h = false ∧ t.pendingFor e h = true) : runSort s t k e a = (s, .wait) := by
  unfold runSort
  rw [read]
  exact if_pos (by simpa using waits)

variable (found : ¬ ∃ h ∈ sortHandles r, k.found h = false ∧ t.pendingFor e h = true)
include found

theorem runSort_undefined (undefined : ∃ h ∈ sortHandles r, t.record h = none) : runSort s t k e a = (x, .done 2) := by
  unfold runSort
  rw [read]
  exact (if_neg (by simpa using found)).trans (if_pos (by simpa using undefined))

variable (defined : ∀ h ∈ sortHandles r, t.record h ≠ none)
include defined

theorem runSort_ends (check : sortCheck r (fun h => (t.record h).getD 0) = some st) : runSort s t k e a = (x, .done st) := by
  unfold runSort
  rw [read]
  refine (if_neg (by simpa using found)).trans ((if_neg (by simpa [← ne_eq] using defined)).trans ?_)
  dsimp only
  rw [check]

theorem runSort_sorts (check : sortCheck r (fun h => (t.record h).getD 0) = none) :
    runSort s t k e a =
      if 4 ≤ homeOf (sortScr r) ∨ 2 ^ 62 ≤ sortScr r then (sortSpoil x t e r (fun h => (t.record h).getD 0), .stop .prot (sortScr r))
      else match (sortData x t e r fun h => (t.record h).getD 0).2 with
        | .ok st => ((sortData x t e r fun h => (t.record h).getD 0).1, .done st)
        | .error c => (if c.1 = .residency then (sortData x t e r fun h => (t.record h).getD 0).1
            else sortSpoil (sortData x t e r fun h => (t.record h).getD 0).1 t e r (fun h => (t.record h).getD 0), .stop c.1 c.2) := by
  unfold runSort
  rw [read]
  refine (if_neg (by simpa using found)).trans ((if_neg (by simpa [← ne_eq] using defined)).trans ?_)
  dsimp only
  generalize sortCheck r (fun h => (t.record h).getD 0) = o at check ⊢
  subst check
  rfl

end

-- The work of BVHQ

theorem runBvhq_visits {a r key : Nat} {ray : Bool} {q : List Word} (read : readNat s t e a 32 = (x, .ok r))
    (ring : bvhRing x t e (fld r 127 64) = (y, .ok key)) (line : fld r 63 0 % 128 = 0) :
    let z := visitNode t e (fld r 63 0) ray (q.map numW) 31 (fld r 158 128) (y, [], .on)
    (runBvhq s t e a ray q).1 = z.1 ∧ (runBvhq s t e a ray q).2.2.2 = key ∧
      (z.2.2 = .on → (runBvhq s t e a ray q).2.1 = .done 0 ∧ (runBvhq s t e a ray q).2.2.1 = z.2.1 ++ [0xFFFFFFFF]) ∧
      (z.2.2 = .abort → (runBvhq s t e a ray q).2.1 = .done 4 ∧ (runBvhq s t e a ray q).2.2.1 = z.2.1 ++ [0xFFFFFFFE]) := by
  intro z
  have runs : runBvhq s t e a ray q = match z.2.2 with
      | .on => (z.1, .done 0, z.2.1 ++ [bvhEnd], key)
      | .abort => (z.1, .done 4, z.2.1 ++ [bvhAbort], key)
      | .stop c b => (z.1, .stop c b, z.2.1 ++ [bvhAbort], key) := by
    unfold runBvhq
    rw [read]
    dsimp only
    rw [ring]
    exact (if_neg (not_not.mpr line)).trans rfl
  rw [runs]
  clear_value z
  obtain ⟨w, hits, st⟩ := z
  cases st with
  | on => exact ⟨rfl, rfl, fun _ => ⟨rfl, rfl⟩, nofun⟩
  | abort => exact ⟨rfl, rfl, nofun, fun _ => ⟨rfl, rfl⟩⟩
  | stop c b => exact ⟨rfl, rfl, nofun, nofun⟩

end Sys2Proof.Machine
end

section
/-! The work of SORT and BVHQ, and the statement on both (R320 to R331). -/

namespace Sys2Proof.Machine

variable {s x : State} {t : Team} {e : Nat} {k : Cmd}

theorem sort_begins {a : DWord} (kind : k.kind = .sort a) :
    (beginWork s t e k).s = (runSort (workState s t e k) (t.asFound k) k e a.toNat).1 ∧
      (beginWork s t e k).out = (runSort (workState s t e k) (t.asFound k) k e a.toNat).2 := by
  rw [beginWork_eq (by rw [kind]; rfl), cmdWork, kind]
  exact ⟨rfl, rfl⟩

theorem bvhq_begins {a : DWord} {ray : Bool} {q : List Word} (kind : k.kind = .bvhq a ray q) :
    let z := runBvhq (workState s t e k) (t.asFound k) e a.toNat ray q
    (beginWork s t e k).s = z.1 ∧ (beginWork s t e k).out = z.2.1 ∧ ((beginWork s t e k).upd k).ring = z.2.2.2 ∧
      ((beginWork s t e k).upd k).outbox = z.2.2.1 := by
  rw [beginWork_eq (by rw [kind]; rfl), cmdWork, kind]
  exact ⟨rfl, rfl, rfl, rfl⟩

/-- Settles O27. A sort and a traversal take their places as any command does; a sort gathers its keys with reads alone, orders them by
insertion, and its words stand where nothing else is written; a traversal is the fold of `visitNode_eq`, and the ray test that of
`rayFold_iff`. -/
theorem physicsCommandsPlaced : Obligations.PhysicsCommandsPlaced := by
  unfold Obligations.PhysicsCommandsPlaced
  refine fun s c v => ⟨fun d addr e sc a64 => addrCmd_places rfl, fun d q addr ray e sc a64 => bvhq_places d q addr ray e sc a64,
    fun t e k => ⟨fun a x r kind read => ?_, fun a ray q x r y key kind read ring line => ?_⟩, fun d n => sortOrder_sorts d n,
    fun r a b first all up => sortDigit_orders first all up, fun t e tree ray q left n acc y node read => visit_children read,
    fun q b => ⟨boxTest_iff q b, rayTest_iff q b⟩, fun team e t k lane port found within head waits slotless =>
      ⟨fun dead whole => reserve_dead found within head waits slotless whole lane port dead,
        fun live first grants line pewter whole room => reserve_live found within head waits slotless whole lane port live first grants line pewter room⟩⟩
  · obtain ⟨state, out⟩ := sort_begins (s := s) (t := t) (e := e) kind
    rw [state, out]
    dsimp only
    rw [← sortHandles_eq]
    refine ⟨fun waits => ?_, fun found undefined => ?_, fun found defined => ⟨fun bad => ?_, fun good none_ => ?_, fun st check => ?_,
      fun check away => ?_, fun check low home narrow bare settled u foundU within aligned apart ends => ?_⟩⟩
    · rw [runSort_waits read waits]
      exact ⟨rfl, rfl⟩
    · rw [runSort_undefined read found undefined]
      exact ⟨rfl, rfl⟩
    · rw [runSort_ends read found defined ((sortCheck_status r _).1 bad)]
      exact ⟨rfl, rfl⟩
    · rw [runSort_ends read found defined ((sortCheck_status r _).2 good none_)]
      exact ⟨rfl, rfl⟩
    · rw [runSort_ends read found defined check]
      exact ⟨rfl, rfl⟩
    · have far : 4 ≤ homeOf (sortScr r) ∨ 2 ^ 62 ≤ sortScr r := away.symm
      exact congrArg Prod.snd ((runSort_sorts read found defined check).trans (if_pos far))
    · have near : ¬ (4 ≤ homeOf (sortScr r) ∨ 2 ^ 62 ≤ sortScr r) := by
        rintro (far | high)
        · exact absurd home (Nat.not_lt.mpr far)
        · exact absurd low (Nat.not_lt.mpr high)
      have runs := runSort_sorts read found defined check
      rw [if_neg near] at runs
      rw [runs] at ends ⊢
      have word : hFmt (((t.asFound k).record (sortKd r)).getD 0) = 12 := by
        by_contra other
        have bad := (sortCheck_status r fun h => ((t.asFound k).record h).getD 0).1 (.inl ⟨sortKd r, by simp [sortHandles], other⟩)
        rw [check] at bad
        cases bad
      have stands (y st) := sortData_stands (t := t.asFound k) (rec_ := fun h => ((t.asFound k).record h).getD 0) (y := y) (st := st) narrow bare word foundU within aligned apart
      obtain ⟨⟨y, got⟩, eq⟩ : ∃ m, m = sortData x (t.asFound k) e r fun h => ((t.asFound k).record h).getD 0 := ⟨_, rfl⟩
      rw [← eq] at ends ⊢
      cases got with
      | error f => cases ends
      | ok st =>
        obtain ⟨key, from_, stand⟩ := stands y st eq.symm
        have first := readNat_reads (workState s t e k) (t.asFound k) e a.toNat 64
        rw [read] at first
        refine ⟨key, fun i inside => ?_, stand⟩
        obtain ⟨z, reads, value⟩ := from_ i inside
        exact ⟨z, (first.trans reads).only settled, value⟩
  · obtain ⟨state, out, key_, box⟩ := bvhq_begins (s := s) (t := t) (e := e) kind
    rw [state, out, key_, box]
    exact runBvhq_visits read ring line

end Sys2Proof.Machine
end


section
/-! O60. Memory keeps its canonical form (log entry 3): every operation of the model keeps it. -/

namespace Sys2Proof.Machine

/-- An outcome whose next state has memory in its canonical form. -/
def Formed (o : Out) : Prop := ∀ t, o = .next t → Memory.wf t.mem = true

@[simp] theorem formed_next (s : State) : Formed (.next s) ↔ Memory.wf s.mem = true :=
  ⟨fun h => h s rfl, fun h t eq => by cases eq; exact h⟩

@[simp] theorem ite_mem {p : Prop} [Decidable p] (a b : State) : (if p then a else b).mem = if p then a.mem else b.mem :=
  apply_ite State.mem p a b

@[simp] theorem ite_fst_mem {α : Type} {p : Prop} [Decidable p] (a b : State × α) :
    (if p then a else b).1.mem = if p then a.1.mem else b.1.mem :=
  apply_ite (fun x : State × α => x.1.mem) p a b

@[simp] theorem wf_ite {p : Prop} [Decidable p] (a b : Tab Byte) :
    Memory.wf (if p then a else b) = true ↔ (p → Memory.wf a = true) ∧ (¬ p → Memory.wf b = true) := by
  split
  · next yes => exact ⟨fun h => ⟨fun _ => h, fun no => absurd yes no⟩, fun h => h.1 yes⟩
  · next no => exact ⟨fun h => ⟨fun yes => absurd yes no, fun _ => h⟩, fun h => h.2 no⟩

@[simp] theorem formed_ite {p : Prop} [Decidable p] (a b : Out) :
    Formed (if p then a else b) ↔ (p → Formed a) ∧ (¬ p → Formed b) := by
  split
  · next yes => exact ⟨fun h => ⟨fun _ => h, fun no => absurd yes no⟩, fun h => h.1 yes⟩
  · next no => exact ⟨fun h => ⟨fun yes => absurd yes no, fun _ => h⟩, fun h => h.2 no⟩

theorem foldl_wf {β : Type} {l : List β} {f : State → β → State} {s : State}
    (hf : ∀ s b, Memory.wf s.mem = true → Memory.wf (f s b).mem = true) (h : Memory.wf s.mem = true) :
    Memory.wf (l.foldl f s).mem = true :=
  List.foldlRecOn (motive := fun s : State => Memory.wf s.mem = true) l f h fun t ht b _ => hf t b ht

theorem foldl_fst_wf {α β : Type} {l : List β} {f : State × α → β → State × α} {s : State × α}
    (hf : ∀ s b, Memory.wf s.1.mem = true → Memory.wf (f s b).1.mem = true) (h : Memory.wf s.1.mem = true) :
    Memory.wf (l.foldl f s).1.mem = true :=
  List.foldlRecOn (motive := fun s : State × α => Memory.wf s.1.mem = true) l f h fun t ht b _ => hf t b ht

@[simp] theorem foldl_mem {β : Type} {l : List β} {f : State → β → State} {s : State} (hf : ∀ s b, (f s b).mem = s.mem) :
    (l.foldl f s).mem = s.mem :=
  List.foldlRecOn (motive := fun t : State => t.mem = s.mem) l f rfl fun t ht b _ => (hf t b).trans ht

@[simp] theorem foldl_fst_mem {α β : Type} {l : List β} {f : State × α → β → State × α} {s : State × α}
    (hf : ∀ s b, (f s b).1.mem = s.1.mem) : (l.foldl f s).1.mem = s.1.mem :=
  List.foldlRecOn (motive := fun t : State × α => t.1.mem = s.1.mem) l f rfl fun t ht b _ => (hf t b).trans ht

-- Inside a fold simp needs these as equations that it may rewrite with, not as definitional ones

@[simp high] theorem mem_modTeam (s : State) (uid : Nat) (f : Team → Team) : (modTeam s uid f).mem = s.mem := by simp only [modTeam_mem]
@[simp high] theorem mem_modGang (s : State) (uid g : Nat) (f : Gang → Gang) : (modGang s uid g f).mem = s.mem := by simp only [modGang_mem]
@[simp high] theorem mem_modLane (s : State) (uid g i : Nat) (f : Lane → Lane) : (modLane s uid g i f).mem = s.mem := by simp only [modLane_mem]
@[simp high] theorem mem_modCore (s : State) (n : Nat) (f : Core → Core) : (modCore s n f).mem = s.mem := by simp only [modCore_mem]
@[simp high] theorem mem_modBay (s : State) (core bay : Nat) (f : Bay → Bay) : (modBay s core bay f).mem = s.mem := by simp only [modBay_mem]
@[simp high] theorem mem_modDie (s : State) (d : Nat) (f : Die → Die) : (modDie s d f).mem = s.mem := by simp only [modDie_mem]
@[simp high] theorem mem_modLaunch (s : State) (id : Nat) (f : Launch → Launch) : (modLaunch s id f).mem = s.mem := by simp only [modLaunch_mem]

-- The operations of the homes, by the lemmas on them

@[simp] theorem wf_markLeaf (s : State) (loc : Loc) (w : Bool) (h : Memory.wf s.mem = true) : Memory.wf (markLeaf s loc w).mem = true :=
  markLeaf_wf s loc w h

@[simp] theorem wf_homeWrite (s : State) (ctx : Nat) (l : Line) (loc : Loc) (bytes : List (Nat × Byte)) (b : Bool) (cause : Nat)
    (core : Option Nat) (hist : List (Nat × List (Byte × Nat))) (h : Memory.wf s.mem = true) :
    Memory.wf (homeWrite s ctx l loc bytes b cause core hist).mem = true :=
  homeWrite_wf s ctx l loc bytes b cause core hist h

@[simp] theorem wf_touchLine (s : State) (c : Nat) (loc : Loc) (h : Memory.wf s.mem = true) : Memory.wf (touchLine s c loc).mem = true :=
  (touchLine_cached s c loc).1.wf h

@[simp] theorem wf_dirtyLine (s : State) (c : Nat) (loc : Loc) (h : Memory.wf s.mem = true) : Memory.wf (dirtyLine s c loc).mem = true :=
  (dirtyLine_cached s c loc).1.wf h

@[simp] theorem wf_fillSlice (s : State) (c : Nat) (loc : Loc) (h : Memory.wf s.mem = true) : Memory.wf (fillSlice s c loc).mem = true :=
  (fillSlice_cached s c loc).1.wf h

@[simp] theorem wf_mscAccess (s : State) (c k : Nat) (h : Memory.wf s.mem = true) : Memory.wf (mscAccess s c k).mem = true :=
  (mscAccess_cached s c k).1.wf h

@[simp] theorem wf_leaveSlice (s : State) (n : Nat) (h : Memory.wf s.mem = true) : Memory.wf (leaveSlice s n).mem = true :=
  (leaveSlice_cached s n).1.wf h

/-- Messages to sharers leave memory as it is. -/
theorem Told.mem {s t : State} (told : Told s t) : t.mem = s.mem := by
  obtain ⟨d, m, f, rfl, -⟩ := told
  rfl

@[simp] theorem sendMsg_mem (s : State) (d : DirEntry) (c : Nat) (k : MsgKind) (f : Sys2Proof.View) (es : List Nat) (n re : Nat) (i : Bool) :
    (sendMsg s d c k f es n re i).1.mem = s.mem :=
  (sendMsg_told s d c k f es n re i).mem

@[simp] theorem notify_mem (s : State) (d : DirEntry) (old new : List Byte) (forced : Nat → Bool) (cause : Nat) :
    (notify s d old new forced cause).mem = s.mem :=
  (notify_told s d old new forced cause).mem

@[simp] theorem putBytes_formed (m : Tab Byte) (k : Nat) (bs : List Byte) (h : Memory.wf m = true) : Memory.wf (putBytes m k bs) = true :=
  putBytes_wf m k bs h

@[simp] theorem mem_donePart (s : State) (p : Part) : (donePart s p).mem = s.mem := donePart_mem s p
@[simp] theorem mem_writeResult (s : State) (u g i op : Nat) (d : Dst) (ws : List Word) : (writeResult s u g i op d ws).mem = s.mem :=
  writeResult_mem s u g i op d ws
@[simp] theorem mem_acquireCore (s : State) (core : Nat) (sc : Scope) : (acquireCore s core sc).mem = s.mem := acquireCore_mem s core sc


-- Memory work of an engine command

@[simp] theorem mpure_wf {α : Type} (s : State) (x : α) (h : Memory.wf s.mem = true) : Memory.wf (mpure s x).1.mem = true := h

@[simp] theorem mbind_wf {α β : Type} (r : MemR α) (f : State → α → MemR β) (h : Memory.wf r.1.mem = true)
    (hf : ∀ s x, Memory.wf s.mem = true → Memory.wf (f s x).1.mem = true) : Memory.wf (mbind r f).1.mem = true := by
  unfold mbind
  split
  · exact hf _ _ h
  · exact h

@[simp] theorem mfold_wf {α β : Type} (f : State → β → α → MemR β) (l : List α) (s : State) (b : β) (h : Memory.wf s.mem = true)
    (hf : ∀ s b x, Memory.wf s.mem = true → Memory.wf (f s b x).1.mem = true) : Memory.wf (mfold f l s b).1.mem = true := by
  induction l generalizing s b with
  | nil => exact h
  | cons x l ih => exact mbind_wf _ _ (hf s b x h) fun t y ht => ih t y ht

@[simp] theorem mscSample_mem (s : State) (ctx set : Nat) : (mscSample s ctx set).mem = s.mem := by simp [mscSample]

@[simp] theorem writeBackLine_mem (s : State) (line : Nat) : (writeBackLine s line).mem = s.mem := by
  unfold writeBackLine
  split <;> simp

@[simp] theorem sendReq_mem (s : State) (k : MsgKind) (core : Nat) (l : Line) (f : Sys2Proof.View) (inv : Bool) (t : EType) :
    (sendReq s k core l f inv t).1.mem = s.mem := rfl

@[simp] theorem keepDir_mem (s : State) (d : DirEntry) : (keepDir s d).mem = s.mem := by simp [keepDir]

@[simp] theorem noteLanes_mem (s : State) (now : Nat) (p : Team → Nat → Option Nat → Bool) : (noteLanes s now p).mem = s.mem := by simp [noteLanes]

@[simp] theorem noteHeld_mem (s : State) (base : Nat) : (noteHeld s base).mem = s.mem := by simp [noteHeld]

@[simp] theorem noteSlots_mem (s : State) (base : Nat) : (noteSlots s base).mem = s.mem := by simp [noteSlots]

@[simp] theorem noteCode_mem (s : State) (loc : Loc) (bytes : List (Nat × Byte)) (core : Option Nat) (hist : List (Nat × List (Byte × Nat))) : (noteCode s loc bytes core hist).mem = s.mem := by simp [noteCode]

@[simp] theorem modAgent_mem (s : State) (a : Agent) (f : LocalMem → LocalMem) : (modAgent s a f).mem = s.mem := by
  unfold modAgent
  split <;> simp

@[simp] theorem storeBytes_mem (s : State) (ag : Agent) (ctx a : Nat) (bs : List Byte) (team lane : Nat) (port : Option Nat) (cmd : Nat) (insn : DWord) : (storeBytes s ag ctx a bs team lane port cmd insn).mem = s.mem := by simp [storeBytes]

@[simp] theorem postEvent_mem (s : State) (d : Nat) (e : Nat) : (postEvent s d e).1.mem = s.mem := by simp [postEvent]

@[simp] theorem errorEvent_mem (s : State) (d addr : Nat) : (errorEvent s d addr).mem = s.mem := by simp [errorEvent]

@[simp] theorem mem_endTeam (s : State) (uid : Nat) (i : FaultInfo) : (endTeam s uid i).mem = s.mem := by simp [endTeam]

@[simp] theorem holdFault_mem (s : State) (uid g i : Nat) (info : FaultInfo) : (holdFault s uid g i info).mem = s.mem := by
  unfold holdFault
  split <;> simp

@[simp] theorem deferFault_mem (s : State) (uid g i : Nat) (c : Cause) (addr acc : Nat) (insn : DWord) : (deferFault s uid g i c addr acc insn).mem = s.mem := by
  unfold deferFault
  split <;> simp

@[simp] theorem commandFate_mem (s : State) (t : Team) (who : Nat) (f : FaultInfo) : (commandFate s t who f).mem = s.mem := by
  unfold commandFate
  split <;> simp

@[simp] theorem postPage_mem (s : State) (t : Team) (a : Nat) : (postPage s t a).mem = s.mem := by simp [postPage]

@[simp] theorem parkGangOn_mem (s : State) (uid g : Nat) (a : Nat) : (parkGangOn s uid g a).mem = s.mem := by
  unfold parkGangOn
  split <;> simp

@[simp] theorem enterHandler_mem (s : State) (uid g : Nat) (lanes : List Nat) (tvec : DWord) (info : FaultInfo) (epc : DWord) (eslot : Nat) (shadow : Nat → List (Option DWord)) : (enterHandler s uid g lanes tvec info epc eslot shadow).mem = s.mem := by simp [enterHandler]

@[simp] theorem takeTrap_mem (s : State) (uid g : Nat) (lanes : List Nat) (info : FaultInfo) (epc : DWord) (eslot : Nat) (shadow : Nat → List (Option DWord)) : (takeTrap s uid g lanes info epc eslot shadow).mem = s.mem := by
  unfold takeTrap
  repeat' split
  all_goals simp

@[simp] theorem finishPart_mem (s : State) (uid g op ident : Nat) : (finishPart s uid g op ident).mem = s.mem := by simp [finishPart]

@[simp] theorem fillLine_wf (s : State) (a : Agent) (l : Line) (loc : Loc) (mark : Bool) (h : Memory.wf s.mem = true) : Memory.wf (fillLine s a l loc mark).mem = true := by simp +contextual [fillLine, h]

@[simp] theorem fetchBytes_wf (s : State) (t : Team) (ag : Agent) (a : Nat) (acc : Access) (mark : Bool) (n : Nat)
    (h : Memory.wf s.mem = true) : Memory.wf (fetchBytes s t ag a acc mark n).1.mem = true := by
  induction n with
  | zero => exact h
  | succ n ih =>
    unfold fetchBytes
    dsimp only
    split
    · exact ih
    · split
      · exact ih
      · simp [ih]

@[simp] theorem fetchStored_wf (s : State) (t : Team) (core : Nat) (x : Nat × Bool) (n : Nat) (h : Memory.wf s.mem = true) : Memory.wf (fetchStored s t core x n).1.mem = true := by
  unfold fetchStored
  dsimp only
  repeat' split
  all_goals simp +contextual [h]

@[simp] theorem fetchElem_wf (s : State) (t : Team) (core : Nat) (l : Lane) (b : Port) (pos : Nat) (h : Memory.wf s.mem = true) : Memory.wf (fetchElem s t core l b pos).1.mem = true := by
  unfold fetchElem
  dsimp only
  repeat' split
  all_goals simp +contextual [h]

@[simp] theorem prefetchLane_wf (s : State) (t : Team) (core g i p pos : Nat) (b : Port) (h : Memory.wf s.mem = true) : Memory.wf (prefetchLane s t core g i p pos b).mem = true := by simp +contextual [prefetchLane, h]

@[simp] theorem ensurePre_wf (s : State) (v : Machine.View) (ports : List Nat) (h : Memory.wf s.mem = true) :
    Memory.wf (ensurePre s v ports).mem = true := by
  unfold ensurePre
  refine foldl_wf (fun s p h => ?_) h
  dsimp only
  split
  · exact h
  · refine foldl_wf (fun s i h => ?_) h
    split
    · exact h
    · exact prefetchLane_wf s _ _ _ _ _ _ _ h

@[simp] theorem popAll_wf (s : State) (v : Machine.View) (ports : List Nat) (h : Memory.wf s.mem = true) :
    Memory.wf (popAll s v ports).1.mem = true := by
  have start : Memory.wf (ensurePre s v ports).mem = true := ensurePre_wf s v ports h
  unfold popAll
  refine foldl_fst_wf (s := (ensurePre s v ports, [])) (fun s p h => ?_) start
  have popped : Memory.wf (v.active.foldl (fun (a : State × List ((Nat × Nat) × Word)) i =>
      match findLane a.1 v.iss.team v.g i with
      | none => a
      | some l => (modLane a.1 v.iss.team v.g i (fun _ => (popLane (v.iss.ports.getD p Port.unbound) p l).2),
          a.2 ++ [((p, i), (popLane (v.iss.ports.getD p Port.unbound) p l).1)])) s).1.mem = true := by
    refine foldl_fst_wf (fun s i h => ?_) h
    split
    · exact h
    · exact h
  dsimp only
  split
  · exact popped
  · exact popped

@[simp] theorem endIssue_mem (s : State) (v : View) (next : Nat) : (endIssue s v next).mem = s.mem := by simp [endIssue]

@[simp] theorem afterSlot_mem (s : State) (v : View) (half : Bool) (w : WinSlot) : (afterSlot s v half w).mem = s.mem := by simp [afterSlot]

@[simp] theorem trapSlot_mem (s : State) (v : View) (info : FaultInfo) : (trapSlot s v info).mem = s.mem := by simp [trapSlot]

@[simp] theorem parkSlot_mem (s : State) (v : View) (info : FaultInfo) : (parkSlot s v info).mem = s.mem := by simp [parkSlot]

@[simp] theorem failSlot_formed (s : State) (v : View) (info : FaultInfo) (h : Memory.wf s.mem = true) : Formed (failSlot s v info) := by simp +contextual [failSlot, h]

/-- An instruction that checks first keeps the form, if its effect does. -/
theorem issueChecks_formed {s : State} (c : Common) (f : Front) (own : Machine.View → Option FaultInfo) {k : Machine.View → Out}
    (h : Memory.wf s.mem = true) (effect : ∀ v, Formed (k v)) : Formed (issueChecks s c f own k) := by
  unfold issueChecks
  split
  · simp [h]
  · next v _ =>
    split
    · simp [h]
    · split
      · simp [h]
      · simp only [formed_ite, formed_next, trapSlot_mem]
        refine ⟨fun _ => h, fun _ => ⟨fun _ => h, fun _ => ?_⟩⟩
        split
        · simp [h]
        · split
          · simp [h]
          · exact effect v

@[simp] theorem undecoded_mem (s : State) : (undecoded s).mem = s.mem := by
  unfold undecoded
  split <;> simp

@[simp] theorem aluEffect_wf (s : State) (c : Common) (a : Alu) (v : View) (h : Memory.wf s.mem = true) : Memory.wf (aluEffect s c a v).mem = true := by simp +contextual [aluEffect, h]

@[simp] theorem execAlu_formed (c : Common) (a : Alu) (s : State) (h : Memory.wf s.mem = true) : Formed (execAlu c a s) := by
  unfold execAlu
  exact issueChecks_formed c _ _ h fun v => by simp [h]

@[simp] theorem startOp_mem (s : State) (v : View) (setf : Nat) (k : OpKind) (lanes also : List Nat) (slots : List (Nat × DWord × Nat)) : (startOp s v setf k lanes also slots).mem = s.mem := by simp [startOp]

@[simp] theorem takeSlots_mem (s : State) (v : Machine.View) (lanes : List Nat) (p : Option Nat) : (takeSlots s v lanes p).mem = s.mem := by
  cases p <;> simp [takeSlots]

@[simp] theorem execValue_formed (c : Common) (f : Front) (half : Bool) (own : View → Option FaultInfo) (run : View → (Nat → LaneIn) → Nat → LaneOut) (s : State) (h : Memory.wf s.mem = true) : Formed (execValue c f half own run s) := by
  unfold execValue
  exact issueChecks_formed c _ _ h fun v => by simp [h]

@[simp] theorem dropCode_mem (s : State) : (dropCode s).mem = s.mem := by simp [dropCode]

@[simp] theorem acquireLane_mem (s : State) (core uid g i : Nat) (sc : Scope) : (acquireLane s core uid g i sc).mem = s.mem := by simp [acquireLane]

@[simp] theorem acquireGangs_mem (s : State) (core uid : Nat) (gs : List Nat) : (acquireGangs s core uid gs).mem = s.mem := by simp [acquireGangs]

@[simp] theorem acquireAt_mem (s : State) (core uid g i : Nat) (sc : Scope) : (acquireAt s core uid g i sc).mem = s.mem := by simp [acquireAt]

@[simp] theorem acquireCtx_mem (s : State) (core uid g i e : Nat) (v : DWord) : (acquireCtx s core uid g i e v).mem = s.mem := by
  unfold acquireCtx
  split <;> simp

@[simp] theorem placeCmd_mem (s : State) (uid g e : Nat) (k : CmdKind) (sc : Scope) (op : Nat) (dst : Option Dst) (who : Nat) (status rel : List Nat) (late : Option Name) (insn : DWord) : (placeCmd s uid g e k sc op dst who status rel late insn).mem = s.mem := by
  unfold placeCmd
  split <;> simp

@[simp] theorem modHead_mem (s : State) (uid e : Nat) (f : Cmd → Cmd) : (modHead s uid e f).mem = s.mem := by simp [modHead]

@[simp] theorem modActive_mem (s : State) (v : View) (f : Nat → Lane → Lane) : (modActive s v f).mem = s.mem := by simp [modActive]

@[simp] theorem endWith_mem (s : State) (v : View) (f : Nat → Lane → Lane) : (endWith s v f).mem = s.mem := by simp [endWith]

@[simp] theorem queueOp_mem (s : State) (v : View) (setf : Nat) (lanes also : List Nat) (ops : Nat → List MemKind) : (queueOp s v setf lanes also ops).mem = s.mem := by simp [queueOp]

@[simp] theorem execMem_formed (c : Common) (m : MemShape) (s : State) (h : Memory.wf s.mem = true) : Formed (execMem c m s) := by
  unfold execMem
  refine issueChecks_formed c _ _ h fun v => ?_
  dsimp only
  split <;> simp [h]

@[simp] theorem execLd_formed (c : Common) (d base : Name) (off : Int) (t : MemTy) (a64 : Bool) (s : State) (h : Memory.wf s.mem = true) : Formed (execLd c d base off t a64 s) := by
  unfold execLd
  refine issueChecks_formed c _ _ h fun v => ?_
  dsimp only
  split <;> simp [h]

@[simp] theorem execLdp_formed (c : Common) (d base : Name) (off : Int) (t : MemTy) (s : State) (h : Memory.wf s.mem = true) : Formed (execLdp c d base off t s) := by
  unfold execLdp
  refine issueChecks_formed c _ _ h fun v => ?_
  dsimp only
  split <;> simp [h]

@[simp] theorem execSt_formed (c : Common) (base val : Name) (off : Int) (t : MemTy) (a64 : Bool) (s : State) (h : Memory.wf s.mem = true) : Formed (execSt c base val off t a64 s) := by
  unfold execSt
  refine issueChecks_formed c _ _ h fun v => ?_
  dsimp only
  split <;> simp [h]

@[simp] theorem execStp_formed (c : Common) (base val : Name) (off : Int) (t : MemTy) (s : State) (h : Memory.wf s.mem = true) : Formed (execStp c base val off t s) := by
  unfold execStp
  refine issueChecks_formed c _ _ h fun v => ?_
  dsimp only
  split <;> simp [h]

@[simp] theorem execAtom_formed (c : Common) (d base val : Name) (op : AtomOp) (w64 : Bool) (o : Ord) (sc : Scope) (a64 : Bool) (s : State) (h : Memory.wf s.mem = true) : Formed (execAtom c d base val op w64 o sc a64 s) := by
  unfold execAtom
  refine issueChecks_formed c _ _ h fun v => ?_
  dsimp only
  split <;> simp [h]

@[simp] theorem execAcas_formed (c : Common) (d base val : Name) (w64 : Bool) (o : Ord) (sc : Scope) (a64 : Bool) (s : State) (h : Memory.wf s.mem = true) : Formed (execAcas c d base val w64 o sc a64 s) := by
  unfold execAcas
  refine issueChecks_formed c _ _ h fun v => ?_
  dsimp only
  split <;> simp [h]

@[simp] theorem execXsum_formed (c : Common) (base val : Name) (bf16 : Bool) (o : Ord) (sc : Scope) (a64 : Bool) (s : State) (h : Memory.wf s.mem = true) : Formed (execXsum c base val bf16 o sc a64 s) := by
  unfold execXsum
  refine issueChecks_formed c _ _ h fun v => ?_
  dsimp only
  split <;> simp [h]

@[simp] theorem execXrd_formed (c : Common) (d base : Name) (pair clr : Bool) (o : Ord) (sc : Scope) (a64 : Bool) (s : State) (h : Memory.wf s.mem = true) : Formed (execXrd c d base pair clr o sc a64 s) := by
  unfold execXrd
  refine issueChecks_formed c _ _ h fun v => ?_
  dsimp only
  split <;> simp [h]

@[simp] theorem execXclr_formed (c : Common) (base : Name) (_sc : Scope) (a64 : Bool) (s : State) (h : Memory.wf s.mem = true) : Formed (execXclr c base _sc a64 s) := by
  unfold execXclr
  refine issueChecks_formed c _ _ h fun v => ?_
  dsimp only
  split <;> simp [h]

@[simp] theorem execLdv_formed (c : Common) (d base : Name) (off : Int) (a64 : Bool) (s : State) (h : Memory.wf s.mem = true) : Formed (execLdv c d base off a64 s) := by
  unfold execLdv
  refine issueChecks_formed c _ _ h fun v => ?_
  dsimp only
  split <;> simp [h]

@[simp] theorem execCms_formed (c : Common) (d base : Name) (pd : Nat) (sc : Scope) (a64 : Bool) (s : State) (h : Memory.wf s.mem = true) : Formed (execCms c d base pd sc a64 s) := by
  unfold execCms
  refine issueChecks_formed c _ _ h fun v => ?_
  dsimp only
  split <;> simp [h]

@[simp] theorem execOrder_formed (c : Common) (ks : List MemKind) (s : State) (h : Memory.wf s.mem = true) : Formed (execOrder c ks s) := by
  unfold execOrder
  exact issueChecks_formed c _ _ h fun v => by simp [h]

@[simp] theorem execFence_formed (c : Common) (sc : Scope) (s : State) (h : Memory.wf s.mem = true) : Formed (execFence c sc s) := by
  unfold execFence
  exact issueChecks_formed c _ _ h fun v => by simp [h]

@[simp] theorem execRel_formed (c : Common) (sc : Scope) (s : State) (h : Memory.wf s.mem = true) : Formed (execRel c sc s) := by
  unfold execRel
  exact issueChecks_formed c _ _ h fun v => by simp [h]

@[simp] theorem execAcq_formed (c : Common) (sc : Scope) (s : State) (h : Memory.wf s.mem = true) : Formed (execAcq c sc s) := by
  unfold execAcq
  exact issueChecks_formed c _ _ h fun v => by simp [h]

@[simp] theorem setPart_mem (s : State) (p : Part) (f : LaneOp → LaneOp) : (setPart s p f).mem = s.mem := by simp [setPart]

@[simp] theorem dropPart_mem (s : State) (p : Part) : (dropPart s p).mem = s.mem := by simp [dropPart]

@[simp] theorem partFault_mem (s : State) (p : Part) (c : Cause) (addr acc : Nat) : (partFault s p c addr acc).mem = s.mem := by simp [partFault]

@[simp] theorem partPoison_mem (s : State) (p : Part) (addr : Nat) (kind : Nat) : (partPoison s p addr kind).mem = s.mem := by simp [partPoison]

@[simp] theorem execFill_formed (a : Agent) (line : Line) (s : State) (h : Memory.wf s.mem = true) : Formed (execFill a line s) := by
  unfold execFill
  repeat' split
  all_goals simp +contextual [h]

@[simp] theorem execEvict_formed (a : Agent) (line : Line) (s : State) (h : Memory.wf s.mem = true) : Formed (execEvict a line s) := by simp +contextual [execEvict, h]

@[simp] theorem loadPart_wf (s : State) (p : Part) (addr : Nat) (t : MemTy) (d : Dst) (h : Memory.wf s.mem = true) : Memory.wf (loadPart s p addr t d).mem = true := by
  unfold loadPart
  repeat' split
  all_goals simp +contextual [h]

@[simp] theorem markAt_wf (s : State) (t : Team) (as : List Nat) (acc : Access) (h : Memory.wf s.mem = true) :
    Memory.wf (markAt s t as acc).mem = true :=
  foldl_wf (fun s a h => by split <;> simp [h]) h

@[simp] theorem laneLoadPart_wf (s : State) (p : Part) (o : Nat) (t : MemTy) (d : Dst) (h : Memory.wf s.mem = true) :
    Memory.wf (laneLoadPart s p o t d).mem = true := by
  unfold laneLoadPart
  split <;> simp [h]

@[simp] theorem recordPart_wf (s : State) (p : Part) (addr : Nat) (h : Memory.wf s.mem = true) : Memory.wf (recordPart s p addr).mem = true := by
  unfold recordPart
  repeat' split
  all_goals simp +contextual [h]

@[simp] theorem execLoad_formed (team gang lane idx : Nat) (s : State) (h : Memory.wf s.mem = true) : Formed (execLoad team gang lane idx s) := by
  unfold execLoad
  repeat' split
  all_goals simp +contextual [h]

@[simp] theorem noteHome_mem (s : State) (uid h : Nat) : (noteHome s uid h).mem = s.mem := by simp [noteHome]

@[simp] theorem laneStorePart_wf (s : State) (p : Part) (o : Nat) (bs : List Byte) (h : Memory.wf s.mem = true) :
    Memory.wf (laneStorePart s p o bs).mem = true := by
  unfold laneStorePart
  dsimp only
  split <;> simp [h]

@[simp] theorem execStore_formed (team gang lane idx : Nat) (s : State) (h : Memory.wf s.mem = true) : Formed (execStore team gang lane idx s) := by
  unfold execStore
  repeat' split
  all_goals simp +contextual [h]

@[simp] theorem settleSlots_mem (s : State) (base : Nat) (offs : List Nat) : (settleSlots s base offs).mem = s.mem := by simp [settleSlots]

@[simp] theorem parkCtx_mem (s : State) (uid e a : Nat) : (parkCtx s uid e a).mem = s.mem := by
  unfold parkCtx
  split <;> simp

@[simp] theorem drainFault_mem (s : State) (a : Agent) (l : Line) (c : Cause) (bs : List BufByte) :
    (drainFault s a l c bs).mem = s.mem := by
  refine foldl_mem fun s x => ?_
  repeat' split
  all_goals simp

@[simp] theorem drainLine_wf (s : State) (a : Agent) (l : Line) (h : Memory.wf s.mem = true) : Memory.wf (drainLine s a l).mem = true := by
  unfold drainLine
  dsimp only
  split
  · exact h
  · repeat' split
    all_goals simp [h]

@[simp] theorem execDrain_formed (a : Agent) (line : Line) (s : State) (h : Memory.wf s.mem = true) : Formed (execDrain a line s) := by simp +contextual [execDrain, h]

@[simp] theorem execAckArrive_formed (a : Agent) (id : Nat) (s : State) (h : Memory.wf s.mem = true) : Formed (execAckArrive a id s) := by simp +contextual [execAckArrive, h]

@[simp] theorem drainAll_wf (s : State) (a : Agent) (pick : Line → List BufByte → Bool) (h : Memory.wf s.mem = true) :
    Memory.wf (drainAll s a pick).mem = true :=
  foldl_wf (fun s l h => drainLine_wf s a l h) h

@[simp] theorem relAdvance_wf (s : State) (a : Agent) (pick : Line → List BufByte → Bool) (inS : Line → Bool) (acks : List Nat)
    (h : Memory.wf s.mem = true) : Memory.wf (relAdvance s a pick inS acks).1.mem = true := by
  unfold relAdvance
  dsimp only
  repeat' split
  all_goals simp [h]

@[simp] theorem relScope_wf (s : State) (a : Agent) (sc : Scope) (acks : List Nat) (h : Memory.wf s.mem = true) :
    Memory.wf (relScope s a sc acks).1.mem = true :=
  relAdvance_wf s a _ _ acks h

@[simp] theorem closeRing_wf (s : State) (uid ctx ring : Nat) (h : Memory.wf s.mem = true) : Memory.wf (closeRing s uid ctx ring).mem = true := by simp +contextual [closeRing, h]

@[simp] theorem sdrainPart_wf (s : State) (p : Part) (port desc : Nat) (close : Bool) (h : Memory.wf s.mem = true) :
    Memory.wf (sdrainPart s p port desc close).mem = true := by
  have advanced := fun (pick : Line → List BufByte → Bool) inS => relAdvance_wf s p.agent pick inS p.op.acks h
  unfold sdrainPart
  dsimp only
  repeat' split
  all_goals simp [h, advanced]

@[simp] theorem execRelStep_formed (team gang lane idx : Nat) (s : State) (h : Memory.wf s.mem = true) : Formed (execRelStep team gang lane idx s) := by
  unfold execRelStep
  dsimp only
  repeat' split
  all_goals simp +contextual [h]

@[simp] theorem execAcqStep_formed (team gang lane idx : Nat) (s : State) (h : Memory.wf s.mem = true) : Formed (execAcqStep team gang lane idx s) := by
  unfold execAcqStep
  repeat' split
  all_goals simp +contextual [h]

@[simp] theorem orFst_mem (s : State) (uid g op i : Nat) (f : Flags) : (orFst s uid g op i f).mem = s.mem := by simp [orFst]

@[simp] theorem endAtom_mem (s : State) (p : Part) (id : Nat) : (endAtom s p id).mem = s.mem := by simp [endAtom]

@[simp] theorem clearLine_wf (s : State) (a : Agent) (l : Line) (h : Memory.wf s.mem = true) : Memory.wf (clearLine s a l).mem = true := by
  simp [clearLine, h]

@[simp] theorem atomPart_wf (s : State) (p : Part) (a n : Nat) (d : Option Dst) (acc : Access) (h : Memory.wf s.mem = true) :
    Memory.wf (atomPart s p a n d acc).mem = true := by
  unfold atomPart
  split
  · simp [h]
  · next loc _ =>
    have cleared := clearLine_wf s p.agent (lineOf p.ctx a) h
    have touched := fun w => wf_touchLine _ p.ctx loc (wf_markLeaf (clearLine s p.agent (lineOf p.ctx a)) loc w cleared)
    dsimp only
    repeat' split
    all_goals simp [cleared, touched]

@[simp] theorem opPred_mem (s : State) (uid g op i n : Nat) (b : Bool) : (opPred s uid g op i n b).mem = s.mem := by simp [opPred]

@[simp] theorem cmsEnd_wf (s : State) (p : Part) (pd : Nat) (d : Dst) (as : List Nat) (st id : Nat) (h : Memory.wf s.mem = true) :
    Memory.wf (cmsEnd s p pd d as st id).mem = true := by
  simp [cmsEnd, h]

@[simp] theorem cmsPart_wf (s : State) (p : Part) (a pd : Nat) (d : Dst) (h : Memory.wf s.mem = true) :
    Memory.wf (cmsPart s p a pd d).mem = true := by
  have cleared : ∀ (as : List Nat) (s : State), Memory.wf s.mem = true →
      Memory.wf (as.foldl (fun s x => clearLine s p.agent (lineOf p.ctx x)) s).mem = true :=
    fun as s h => foldl_wf (fun s a h => by simp [h]) h
  have touched : ∀ (keys : List (Nat × Loc)) (s : State), Memory.wf s.mem = true →
      Memory.wf (keys.foldl (fun s x => touchLine s p.ctx x.2) s).mem = true :=
    fun keys s h => foldl_wf (fun s a h => by simp [h]) h
  have marked := fun as => markAt_wf s p.team as .read h
  unfold cmsPart
  split
  · split <;> simp [h]
  · dsimp only
    split
    · simp [marked]
    · split
      · refine cmsEnd_wf _ _ _ _ _ _ _ ?_
        exact marked _
      · split
        · simp [marked]
        · split
          · exact cmsEnd_wf _ _ _ _ _ _ _ (touched _ _ (cleared _ _ (marked _)))
          · refine cmsEnd_wf _ _ _ _ _ _ _ (foldl_wf (fun s j h => ?_) (touched _ _ (cleared _ _ (marked _))))
            split
            · simp [h]
            · exact h

@[simp] theorem ringPart_wf (s : State) (p : Part) (a : Nat) (d : Dst) (new : Option (DWord × Word × Word)) (h : Memory.wf s.mem = true) :
    Memory.wf (ringPart s p a d new).mem = true := by
  have cleared : ∀ s : State, Memory.wf s.mem = true → Memory.wf (clearLine s p.agent (lineOf p.ctx a)).mem = true :=
    fun s h => clearLine_wf s _ _ h
  unfold ringPart
  dsimp only
  repeat' split
  all_goals simp [h, cleared]

@[simp] theorem execAtomic_formed (team gang lane idx : Nat) (s : State) (h : Memory.wf s.mem = true) :
    Formed (execAtomic team gang lane idx s) := by
  unfold execAtomic
  repeat' split
  all_goals simp [h]

end Sys2Proof.Machine
end

section
/-! O60. The engines, the copies, the subscriptions and the array keep memory in its canonical form. -/

namespace Sys2Proof.Machine

@[simp] theorem readCtx_wf (s : State) (t : Team) (e a n : Nat) (h : Memory.wf s.mem = true) : Memory.wf (readCtx s t e a n).1.mem = true := by
  unfold readCtx
  refine mbind_wf _ _ (by simp [h]) fun s x h => ?_
  split <;> simp +contextual [h]

@[simp] theorem readNat_wf (s : State) (t : Team) (e a n : Nat) (h : Memory.wf s.mem = true) : Memory.wf (readNat s t e a n).1.mem = true := by
  unfold readNat
  refine mbind_wf _ _ (by simp [h]) fun s x h => ?_
  simp +contextual [h]

@[simp] theorem writeCtx_wf (s : State) (t : Team) (e a : Nat) (bs : List Byte) (h : Memory.wf s.mem = true) : Memory.wf (writeCtx s t e a bs).1.mem = true := by
  unfold writeCtx
  split <;> simp +contextual [h]

@[simp] theorem readCode_wf (s : State) (t : Team) (e r : Nat) (j : List Nat) (h : Memory.wf s.mem = true) : Memory.wf (readCode s t e r j).1.mem = true := by
  unfold readCode
  refine mbind_wf _ _ (by simp [h]) fun s x h => ?_
  split <;> simp +contextual [h]

@[simp] theorem writeCode_wf (s : State) (t : Team) (e r : Nat) (j : List Nat) (v : Nat) (h : Memory.wf s.mem = true) : Memory.wf (writeCode s t e r j v).1.mem = true := by simp +contextual [writeCode, h]

@[simp] theorem readBook_wf (s : State) (t : Team) (e r : Nat) (h : Memory.wf s.mem = true) : Memory.wf (readBook s t e r).1.mem = true := by
  unfold readBook
  refine mbind_wf _ _ (by simp [h]) fun s x h => ?_
  simp +contextual [h]

@[simp] theorem readElem_wf (s : State) (t : Team) (e r : Nat) (j : List Nat) (hw : Memory.wf s.mem = true) :
    Memory.wf (readElem s t e r j).1.mem = true := by
  refine mbind_wf _ _ (readCode_wf s t e r j hw) fun s v hw => ?_
  split
  · exact hw
  · split
    · simp +contextual [hw]
    · split
      · exact mbind_wf _ _ (readNat_wf s t e _ _ hw) fun s x hw => by simp +contextual [hw]
      · exact hw

@[simp] theorem writeElem_wf (s : State) (t : Team) (e r : Nat) (j : List Nat) (v : Num) (h : Memory.wf s.mem = true) : Memory.wf (writeElem s t e r j v).1.mem = true := by
  unfold writeElem
  split <;> simp +contextual [h]

@[simp] theorem placeCmds_mem (s : State) (c : Common) (v : View) (m : CmdShape) (once : Bool) : (placeCmds s c v m once).mem = s.mem := by simp [placeCmds]

@[simp] theorem execCmd_formed (c : Common) (m : CmdShape) (s : State) (h : Memory.wf s.mem = true) : Formed (execCmd c m s) := by
  unfold execCmd
  refine issueChecks_formed c _ _ h fun v => ?_
  dsimp only
  split <;> simp [h]

@[simp] theorem cmdOut_wf (r : MemR Nat) (hw : Memory.wf r.1.mem = true) : Memory.wf (cmdOut r).1.mem = true := by
  unfold cmdOut
  split <;> exact hw

@[simp] theorem execHdef_formed (c : Common) (d addr : Name) (h e : Nat) (sc : Scope) (a64 : Bool) (s : State) (hw : Memory.wf s.mem = true) : Formed (execHdef c d addr h e sc a64 s) := by
  unfold execHdef
  refine issueChecks_formed c _ _ hw fun v => ?_
  dsimp only
  split <;> simp [hw]

@[simp] theorem execCopy_formed (c : Common) (d addr : Name) (hd hs e : Nat) (sc : Scope) (a64 : Bool) (s : State) (h : Memory.wf s.mem = true) : Formed (execCopy c d addr hd hs e sc a64 s) := by
  unfold execCopy
  refine issueChecks_formed c _ _ h fun v => ?_
  dsimp only
  split <;> simp [h]

@[simp] theorem execCfill_formed (c : Common) (d addr : Name) (h e : Nat) (sc : Scope) (a64 : Bool) (s : State) (hw : Memory.wf s.mem = true) : Formed (execCfill c d addr h e sc a64 s) := by
  unfold execCfill
  refine issueChecks_formed c _ _ hw fun v => ?_
  dsimp only
  split <;> simp [hw]

@[simp] theorem execColl_formed (c : Common) (d addr : Name) (e : Nat) (sc : Scope) (a64 : Bool) (s : State) (h : Memory.wf s.mem = true) : Formed (execColl c d addr e sc a64 s) := by
  unfold execColl
  refine issueChecks_formed c _ _ h fun v => ?_
  dsimp only
  split <;> simp [h]

@[simp] theorem execHqry_formed (c : Common) (d : Name) (h sel : Nat) (s : State) (hw : Memory.wf s.mem = true) : Formed (execHqry c d h sel s) := by
  unfold execHqry
  exact issueChecks_formed c _ _ hw fun v => by simp [hw]

@[simp] theorem execTlrd_formed (c : Common) (d : Name) (e : Nat) (iss : Bool) (s : State) (h : Memory.wf s.mem = true) : Formed (execTlrd c d e iss s) := by
  unfold execTlrd
  exact issueChecks_formed c _ _ h fun v => by simp [h]

@[simp] theorem moveElem_wf (s : State) (t : Team) (e rs rd : Nat) (js jd : List Nat) (hw : Memory.wf s.mem = true) :
    Memory.wf (moveElem s t e rs rd js jd).1.mem = true := by
  unfold moveElem
  split
  · exact mbind_wf _ _ (readCode_wf s t e rs js hw) fun s v hw => writeCode_wf s t e rd jd v hw
  · exact mbind_wf _ _ (readElem_wf s t e rs js hw) fun s x hw => writeElem_wf s t e rd jd _ hw

@[simp] theorem remoteBytes_wf (s : State) (t : Team) (e rs rd b : Nat) (hw : Memory.wf s.mem = true) :
    Memory.wf (remoteBytes s t e rs rd b).1.mem = true := by
  refine mfold_wf _ _ _ _ hw fun s acc a hw => ?_
  dsimp only
  split
  · refine mbind_wf _ _ (readCode_wf s t e rs _ hw) fun s v hw => ?_
    split <;> exact hw
  · refine mbind_wf _ _ (readElem_wf s t e rs _ hw) fun s y hw => ?_
    split
    · split <;> exact hw
    · refine mbind_wf _ _ (readBook_wf s t e rd hw) fun s bk hw => ?_
      split <;> exact hw

@[simp] theorem sendDatagram_mem (s : State) (t : Team) (e endp a : Nat) (data : List Byte) : (sendDatagram s t e endp a data).mem = s.mem := by simp [sendDatagram]

@[simp] theorem sendRemote_mem (s : State) (t : Team) (e endp : Nat) (xs : List (Nat × List Byte)) : (sendRemote s t e endp xs).mem = s.mem := by simp [sendRemote]

@[simp] theorem runCopy_wf (s : State) (t : Team) (e hd hs a : Nat) (hw : Memory.wf s.mem = true) :
    Memory.wf (runCopy s t e hd hs a).1.mem = true := by
  refine mbind_wf _ _ (readNat_wf s t e a 64 hw) fun s b hw => ?_
  have moved : ∀ (s : State) rs rd (f : List Nat → List Nat) (g : List Nat → List Nat) es, Memory.wf s.mem = true →
      Memory.wf (mfold (fun s _ y => moveElem s t e rs rd (f y) (g y)) es s ()).1.mem = true :=
    fun s rs rd f g es hw => mfold_wf _ _ _ _ hw fun s _ y hw => moveElem_wf s t e rs rd _ _ hw
  dsimp only
  repeat' split
  all_goals simp +contextual [hw, moved]

@[simp] theorem runCfill_wf (s : State) (t : Team) (e h a : Nat) (hw : Memory.wf s.mem = true) :
    Memory.wf (runCfill s t e h a).1.mem = true := by
  refine mbind_wf _ _ (readNat_wf s t e a 64 hw) fun s b hw => ?_
  dsimp only
  split
  · exact hw
  · iterate 4
      split
      · exact hw
    refine mbind_wf _ _ (mfold_wf _ _ _ _ hw fun s _ y hw => ?_) fun s _ hw => hw
    split
    · exact writeCode_wf _ _ _ _ _ _ hw
    · exact writeElem_wf _ _ _ _ _ _ hw

@[simp] theorem collTell_mem (s : State) (t : Team) (e r : Nat) : (collTell s t e r).mem = s.mem := by simp [collTell]

@[simp] theorem collRead_wf (s : State) (t : Team) (e r : Nat) (hw : Memory.wf s.mem = true) :
    Memory.wf (collRead s t e r).1.mem = true :=
  mfold_wf _ _ _ _ hw fun s _ _ hw => mbind_wf _ _ (readNat_wf s t e _ _ hw) fun _ _ hw => hw

@[simp] theorem collWrite_wf (s : State) (t : Team) (e r : Nat) (xs : List Nat) (h : Memory.wf s.mem = true) : Memory.wf (collWrite s t e r xs).1.mem = true := by simp +contextual [collWrite, h]

@[simp] theorem runExchange_wf (s : State) (t : Team) (e r : Nat) (others : List Member) (hw : Memory.wf s.mem = true) :
    Memory.wf (runExchange s t e r others).1.mem = true := by
  unfold runExchange
  dsimp only
  split
  · exact hw
  · split
    · exact hw
    · exact hw
    · refine mbind_wf _ _ ?_ fun s mine hw => mbind_wf _ _ (collWrite_wf s t e r _ hw) fun s _ hw => hw
      split
      · exact collRead_wf s t e r hw
      · exact hw

@[simp] theorem abortColl_wf (s : State) (t : Team) (e r : Nat) (hw : Memory.wf s.mem = true) :
    Memory.wf (abortColl s t e r).mem = true :=
  foldl_wf (fun s _ hw => writeCtx_wf s t e _ _ hw) hw

@[simp] theorem fltValue_formed (c : Common) (f : Fmt) (ns : List Name) (d : Name) (mode : Rnd) (g : LaneIn → Num × Flags) (s : State) (hw : Memory.wf s.mem = true) : Formed (fltValue c f ns d mode g s) := by
  unfold fltValue
  exact issueChecks_formed c _ _ hw fun v => by simp [hw]

@[simp] theorem execFadd_formed (c : Common) (d a b : Name) (r : Rnd) (s : State) (hw : Memory.wf s.mem = true) : Formed (execFadd c d a b r s) := by
  unfold execFadd
  exact issueChecks_formed c _ _ hw fun v => by simp [hw]

@[simp] theorem execFsub_formed (c : Common) (d a b : Name) (r : Rnd) (s : State) (hw : Memory.wf s.mem = true) : Formed (execFsub c d a b r s) := by
  unfold execFsub
  exact issueChecks_formed c _ _ hw fun v => by simp [hw]

@[simp] theorem execFmul_formed (c : Common) (d a b : Name) (r : Rnd) (s : State) (hw : Memory.wf s.mem = true) : Formed (execFmul c d a b r s) := by
  unfold execFmul
  exact issueChecks_formed c _ _ hw fun v => by simp [hw]

@[simp] theorem execFfma_formed (c : Common) (d a b x : Name) (r : Rnd) (s : State) (hw : Memory.wf s.mem = true) : Formed (execFfma c d a b x r s) := by
  unfold execFfma
  exact issueChecks_formed c _ _ hw fun v => by simp [hw]

@[simp] theorem execFmin_formed (c : Common) (d a b : Name) (s : State) (hw : Memory.wf s.mem = true) : Formed (execFmin c d a b s) := by
  unfold execFmin
  exact issueChecks_formed c _ _ hw fun v => by simp [hw]

@[simp] theorem execFmax_formed (c : Common) (d a b : Name) (s : State) (hw : Memory.wf s.mem = true) : Formed (execFmax c d a b s) := by
  unfold execFmax
  exact issueChecks_formed c _ _ hw fun v => by simp [hw]

@[simp] theorem execFcmp_formed (c : Common) (pd : Nat) (a b : Name) (cond : FCond) (s : State) (hw : Memory.wf s.mem = true) : Formed (execFcmp c pd a b cond s) := by
  unfold execFcmp
  exact issueChecks_formed c _ _ hw fun v => by simp [hw]

@[simp] theorem execDcmp_formed (c : Common) (pd : Nat) (a b : Name) (cond : FCond) (s : State) (hw : Memory.wf s.mem = true) : Formed (execDcmp c pd a b cond s) := by
  unfold execDcmp
  exact issueChecks_formed c _ _ hw fun v => by simp [hw]

@[simp] theorem execFdiv_formed (c : Common) (d a b : Name) (r : Rnd) (s : State) (hw : Memory.wf s.mem = true) : Formed (execFdiv c d a b r s) := by simp +contextual [execFdiv, hw]

@[simp] theorem execFsqrt_formed (c : Common) (d a : Name) (r : Rnd) (s : State) (hw : Memory.wf s.mem = true) : Formed (execFsqrt c d a r s) := by simp +contextual [execFsqrt, hw]

@[simp] theorem execFrcp_formed (c : Common) (d a : Name) (s : State) (hw : Memory.wf s.mem = true) : Formed (execFrcp c d a s) := by simp +contextual [execFrcp, hw]

@[simp] theorem execFrsq_formed (c : Common) (d a : Name) (s : State) (hw : Memory.wf s.mem = true) : Formed (execFrsq c d a s) := by simp +contextual [execFrsq, hw]

@[simp] theorem execFexp2_formed (c : Common) (d a : Name) (s : State) (hw : Memory.wf s.mem = true) : Formed (execFexp2 c d a s) := by simp +contextual [execFexp2, hw]

@[simp] theorem execFlog2_formed (c : Common) (d a : Name) (s : State) (hw : Memory.wf s.mem = true) : Formed (execFlog2 c d a s) := by simp +contextual [execFlog2, hw]

@[simp] theorem execFsin_formed (c : Common) (d a : Name) (s : State) (hw : Memory.wf s.mem = true) : Formed (execFsin c d a s) := by simp +contextual [execFsin, hw]

@[simp] theorem execFcos_formed (c : Common) (d a : Name) (s : State) (hw : Memory.wf s.mem = true) : Formed (execFcos c d a s) := by simp +contextual [execFcos, hw]

@[simp] theorem execFrnd_formed (c : Common) (d a : Name) (r : Rnd) (s : State) (hw : Memory.wf s.mem = true) : Formed (execFrnd c d a r s) := by
  unfold execFrnd
  exact issueChecks_formed c _ _ hw fun v => by simp [hw]

@[simp] theorem execFcls_formed (c : Common) (d a : Name) (form : ClsForm) (s : State) (hw : Memory.wf s.mem = true) : Formed (execFcls c d a form s) := by
  unfold execFcls
  split <;> simp +contextual [hw]

@[simp] theorem execFscl_formed (c : Common) (d a n : Name) (r : Rnd) (s : State) (hw : Memory.wf s.mem = true) : Formed (execFscl c d a n r s) := by
  unfold execFscl
  exact issueChecks_formed c _ _ hw fun v => by simp [hw]

@[simp] theorem execDadd_formed (c : Common) (d a b : Name) (r : Rnd) (sub : Bool) (s : State) (hw : Memory.wf s.mem = true) : Formed (execDadd c d a b r sub s) := by
  unfold execDadd
  exact issueChecks_formed c _ _ hw fun v => by simp [hw]

@[simp] theorem execDmul_formed (c : Common) (d a b : Name) (r : Rnd) (s : State) (hw : Memory.wf s.mem = true) : Formed (execDmul c d a b r s) := by
  unfold execDmul
  exact issueChecks_formed c _ _ hw fun v => by simp [hw]

@[simp] theorem execDfma_formed (c : Common) (d a b x : Name) (r : Rnd) (s : State) (hw : Memory.wf s.mem = true) : Formed (execDfma c d a b x r s) := by
  unfold execDfma
  exact issueChecks_formed c _ _ hw fun v => by simp [hw]

@[simp] theorem execDdiv_formed (c : Common) (d a b : Name) (r : Rnd) (s : State) (hw : Memory.wf s.mem = true) : Formed (execDdiv c d a b r s) := by simp +contextual [execDdiv, hw]

@[simp] theorem execDsqrt_formed (c : Common) (d a : Name) (r : Rnd) (s : State) (hw : Memory.wf s.mem = true) : Formed (execDsqrt c d a r s) := by simp +contextual [execDsqrt, hw]

@[simp] theorem execBadd2_formed (c : Common) (d a b : Name) (rz sat : Bool) (s : State) (hw : Memory.wf s.mem = true) : Formed (execBadd2 c d a b rz sat s) := by
  unfold execBadd2
  exact issueChecks_formed c _ _ hw fun v => by simp [hw]

@[simp] theorem execBfma2_formed (c : Common) (d a b x : Name) (rz sat : Bool) (s : State) (hw : Memory.wf s.mem = true) : Formed (execBfma2 c d a b x rz sat s) := by
  unfold execBfma2
  exact issueChecks_formed c _ _ hw fun v => by simp [hw]

@[simp] theorem execHfma2_formed (c : Common) (d a b x : Name) (rz sat : Bool) (s : State) (hw : Memory.wf s.mem = true) : Formed (execHfma2 c d a b x rz sat s) := by
  unfold execHfma2
  exact issueChecks_formed c _ _ hw fun v => by simp [hw]

@[simp] theorem execCvt_formed (c : Common) (d a rb : Name) (dt st : CvtTy) (r : Rnd) (sat : Bool) (s : State) (hw : Memory.wf s.mem = true) : Formed (execCvt c d a rb dt st r sat s) := by
  unfold execCvt
  exact issueChecks_formed c _ _ hw fun v => by simp [hw]

@[simp] theorem execPack_formed (c : Common) (d a j : Name) (f : Fmt) (s : State) (hw : Memory.wf s.mem = true) : Formed (execPack c d a j f s) := by
  unfold execPack
  exact issueChecks_formed c _ _ hw fun v => by simp [hw]

@[simp] theorem execUnpk_formed (c : Common) (d a j : Name) (f : Fmt) (s : State) (hw : Memory.wf s.mem = true) : Formed (execUnpk c d a j f s) := by
  unfold execUnpk
  exact issueChecks_formed c _ _ hw fun v => by simp [hw]

@[simp] theorem execAct_formed (c : Common) (d x : Name) (slot : Nat) (s : State) (hw : Memory.wf s.mem = true) : Formed (execAct c d x slot s) := by
  unfold execAct
  exact issueChecks_formed c _ _ hw fun v => by simp [hw]

@[simp] theorem execActd_formed (c : Common) (d x g : Name) (slot : Nat) (s : State) (hw : Memory.wf s.mem = true) : Formed (execActd c d x g slot s) := by
  unfold execActd
  exact issueChecks_formed c _ _ hw fun v => by simp [hw]

@[simp] theorem execXrng_formed (c : Common) (d ctr key : Name) (s : State) (hw : Memory.wf s.mem = true) : Formed (execXrng c d ctr key s) := by
  unfold execXrng
  exact issueChecks_formed c _ _ hw fun v => by simp [hw]

@[simp] theorem execXrngf_formed (c : Common) (d a : Name) (s : State) (hw : Memory.wf s.mem = true) : Formed (execXrngf c d a s) := by
  unfold execXrngf
  exact issueChecks_formed c _ _ hw fun v => by simp [hw]

@[simp] theorem modSub_mem (s : State) (core : Nat) (l : Line) (f : SubLine → SubLine) : (modSub s core l f).mem = s.mem := by simp [modSub]

@[simp] theorem askLine_mem (s : State) (core : Nat) (r : Region) (l : Line) : (askLine s core r l).1.mem = s.mem := by simp [askLine]

@[simp] theorem addRegion_mem (s : State) (core : Nat) (r : Region) : (addRegion s core r).mem = s.mem := by simp [addRegion]

@[simp] theorem endRegion_mem (s : State) (core : Nat) (r : Region) : (endRegion s core r).1.mem = s.mem := by
  simp only [endRegion, mem_modCore]
  exact foldl_fst_mem fun a x => by simp

@[simp] theorem sbscPart_wf (s : State) (p : Part) (ps : List Part) (r : Region) (rsv : Word) (started : Bool) (d : Dst)
    (hw : Memory.wf s.mem = true) : Memory.wf (sbscPart s p ps r rsv started d).mem = true := by
  unfold sbscPart
  dsimp only
  repeat' split
  all_goals simp [hw]

@[simp] theorem unsbPart_mem (s : State) (p : Part) (a : Nat) (d : Dst) : (unsbPart s p a d).mem = s.mem := by
  unfold unsbPart
  dsimp only
  repeat' split
  all_goals simp

@[simp] theorem sldAsks_mem (s : State) (p : Part) (n : Option Nat) : (sldAsks s p n).mem = s.mem := by simp [sldAsks]

@[simp] theorem sldMiss_mem (s : State) (p : Part) (r : Region) (x : SubLine) : (sldMiss s p r x).mem = s.mem := by
  unfold sldMiss
  split <;> simp

@[simp] theorem sldPart_wf (s : State) (p : Part) (a : Nat) (asked : Option Nat) (d : Dst) (hw : Memory.wf s.mem = true) : Memory.wf (sldPart s p a asked d).mem = true := by
  unfold sldPart
  dsimp only
  repeat' split
  all_goals simp +contextual [hw]

@[simp] theorem supgPart_mem (s : State) (p : Part) (a : Nat) (f : Sys2Proof.View) (started : Bool) (d : Dst) : (supgPart s p a f started d).mem = s.mem := by
  unfold supgPart
  split <;> simp

@[simp] theorem schgPart_mem (s : State) (p : Part) (a : Nat) (d : Dst) : (schgPart s p a d).mem = s.mem := by simp [schgPart]

@[simp] theorem execSldBind_formed (team gang lane idx : Nat) (s : State) (hw : Memory.wf s.mem = true) : Formed (execSldBind team gang lane idx s) := by
  unfold execSldBind
  repeat' split
  all_goals simp +contextual [hw]

@[simp] theorem execSbsc_formed (c : Common) (d base quad : Name) (f : Sys2Proof.View) (inv : Bool) (t : EType) (a64 : Bool) (s : State) (hw : Memory.wf s.mem = true) : Formed (execSbsc c d base quad f inv t a64 s) := by
  unfold execSbsc
  refine issueChecks_formed c _ _ hw fun v => ?_
  dsimp only
  split <;> simp [hw]

@[simp] theorem execUnsb_formed (c : Common) (d base : Name) (a64 : Bool) (s : State) (hw : Memory.wf s.mem = true) : Formed (execUnsb c d base a64 s) := by
  unfold execUnsb
  refine issueChecks_formed c _ _ hw fun v => ?_
  dsimp only
  split <;> simp [hw]

@[simp] theorem execSupg_formed (c : Common) (d base : Name) (f : Sys2Proof.View) (a64 : Bool) (s : State) (hw : Memory.wf s.mem = true) : Formed (execSupg c d base f a64 s) := by
  unfold execSupg
  refine issueChecks_formed c _ _ hw fun v => ?_
  dsimp only
  split <;> simp [hw]

@[simp] theorem execSchg_formed (c : Common) (d base : Name) (a64 : Bool) (s : State) (hw : Memory.wf s.mem = true) : Formed (execSchg c d base a64 s) := by
  unfold execSchg
  refine issueChecks_formed c _ _ hw fun v => ?_
  dsimp only
  split <;> simp [hw]

@[simp] theorem execSld_formed (c : Common) (d base : Name) (off : Int) (a64 : Bool) (s : State) (hw : Memory.wf s.mem = true) : Formed (execSld c d base off a64 s) := by
  unfold execSld
  refine issueChecks_formed c _ _ hw fun v => ?_
  dsimp only
  split <;> simp [hw]

@[simp] theorem sendAll_mem (s : State) (d : DirEntry) (cores : List Nat) (k : MsgKind) (f : Sys2Proof.View) (elems : List Nat) : (sendAll s d cores k f elems).1.mem = s.mem := by simp [sendAll]

@[simp] theorem registerAt_mem (s : State) (d : DirEntry) (m : Msg) (elems : Sys2Proof.View → List Nat) : (registerAt s d m elems).mem = s.mem := by simp [registerAt]

@[simp] theorem dropMsg_mem (s : State) (id : Nat) : (dropMsg s id).mem = s.mem := by simp [dropMsg]

@[simp] theorem execRegister_formed (msg : Nat) (s : State) (hw : Memory.wf s.mem = true) : Formed (execRegister msg s) := by
  unfold execRegister
  dsimp only
  repeat' split
  all_goals simp +contextual [hw]

@[simp] theorem bumpCounter_wf (s : State) (core : Nat) (r : Region) (hw : Memory.wf s.mem = true) : Memory.wf (bumpCounter s core r).mem = true := by
  unfold bumpCounter
  dsimp only
  repeat' split
  all_goals simp +contextual [hw]

@[simp] theorem applyMsg_wf (s : State) (m : Msg) (hw : Memory.wf s.mem = true) : Memory.wf (applyMsg s m).mem = true := by
  unfold applyMsg
  repeat' split
  all_goals simp +contextual [hw]

@[simp] theorem execApply_formed (core msg : Nat) (s : State) (hw : Memory.wf s.mem = true) : Formed (execApply core msg s) := by
  unfold execApply
  split <;> simp +contextual [hw]

@[simp] theorem execLeave_formed (msg : Nat) (s : State) (hw : Memory.wf s.mem = true) : Formed (execLeave msg s) := by
  unfold execLeave
  dsimp only
  repeat' split
  all_goals simp +contextual [hw]

@[simp] theorem execPeersld_formed (team gang lane idx peer : Nat) (s : State) (hw : Memory.wf s.mem = true) : Formed (execPeersld team gang lane idx peer s) := by
  unfold execPeersld
  dsimp only
  repeat' split
  all_goals simp +contextual [hw]

@[simp] theorem execL1EvictRegistered_formed (core : Nat) (line : Line) (s : State) (hw : Memory.wf s.mem = true) : Formed (execL1EvictRegistered core line s) := by
  unfold execL1EvictRegistered
  split <;> simp +contextual [hw]

@[simp] theorem forgetEntry_mem (s : State) (d : DirEntry) (cores : List Nat) : (forgetEntry s d cores).mem = s.mem := by simp [forgetEntry]

@[simp] theorem execSliceDropLine_formed (phys : Nat) (s : State) (hw : Memory.wf s.mem = true) : Formed (execSliceDropLine phys s) := by simp +contextual [execSliceDropLine, hw]

@[simp] theorem directoryLost_mem (s : State) (phys : Nat) (groups : Option (List Nat)) : (directoryLost s phys groups).mem = s.mem := by simp [directoryLost]

@[simp] theorem execDirectoryError_formed (phys : Nat) (groups : Option (List Nat)) (s : State) (hw : Memory.wf s.mem = true) : Formed (execDirectoryError phys groups s) := by simp +contextual [execDirectoryError, hw]

@[simp] theorem modArr_mem (s : State) (core : Nat) (f : Array → Array) : (modArr s core f).mem = s.mem := by simp [modArr]

@[simp] theorem execWld_formed (c : Common) (d box : Name) (h e : Nat) (sc : Scope) (s : State) (hw : Memory.wf s.mem = true) : Formed (execWld c d box h e sc s) := by
  unfold execWld
  exact issueChecks_formed c _ _ hw fun v => by simp [hw]

@[simp] theorem execWswp_formed (c : Common) (d : Name) (e : Nat) (s : State) (hw : Memory.wf s.mem = true) : Formed (execWswp c d e s) := by
  unfold execWswp
  exact issueChecks_formed c _ _ hw fun v => by simp [hw]

@[simp] theorem execMma_formed (c : Common) (d a : Name) (src : MmaSrc) (tile e : Nat) (sc : Scope) (s : State) (hw : Memory.wf s.mem = true) : Formed (execMma c d a src tile e sc s) := by
  unfold execMma
  exact issueChecks_formed c _ _ hw fun v => by simp [hw]

@[simp] theorem execMzero_formed (c : Common) (d : Name) (tile e : Nat) (s : State) (hw : Memory.wf s.mem = true) : Formed (execMzero c d tile e s) := by
  unfold execMzero
  exact issueChecks_formed c _ _ hw fun v => by simp [hw]

@[simp] theorem execMrd_formed (c : Common) (d col : Name) (tile e : Nat) (act : Option Nat) (f : Fmt) (sat : Bool) (s : State) (hw : Memory.wf s.mem = true) : Formed (execMrd c d col tile e act f sat s) := by
  unfold execMrd
  exact issueChecks_formed c _ _ hw fun v => by simp [hw]

@[simp] theorem execMwr_formed (c : Common) (d val col : Name) (tile e : Nat) (rs : Bool) (s : State) (hw : Memory.wf s.mem = true) : Formed (execMwr c d val col tile e rs s) := by
  unfold execMwr
  exact issueChecks_formed c _ _ hw fun v => by simp [hw]

@[simp] theorem execMst_formed (c : Common) (d org : Name) (h tile e : Nat) (sc : Scope) (act : Option Nat) (sat : Bool) (s : State) (hw : Memory.wf s.mem = true) : Formed (execMst c d org h tile e sc act sat s) := by
  unfold execMst
  exact issueChecks_formed c _ _ hw fun v => by simp [hw]

@[simp] theorem execTblld_formed (c : Common) (d addr : Name) (form : TblForm) (e : Nat) (sc : Scope) (a64 : Bool) (s : State) (hw : Memory.wf s.mem = true) : Formed (execTblld c d addr form e sc a64 s) := by
  unfold execTblld
  refine issueChecks_formed c _ _ hw fun v => ?_
  dsimp only
  split <;> simp [hw]

@[simp] theorem execMstat_formed (c : Common) (d : Name) (sel : Nat) (s : State) (hw : Memory.wf s.mem = true) : Formed (execMstat c d sel s) := by
  unfold execMstat
  exact issueChecks_formed c _ _ hw fun v => by simp [hw]

@[simp] theorem readScale_wf (s : State) (t : Team) (e r i : Nat) (hw : Memory.wf s.mem = true) : Memory.wf (readScale s t e r i).1.mem = true := by
  unfold readScale
  split <;> simp +contextual [hw]

@[simp] theorem subAsk_mem (core : Nat) (a : State × List Nat) (m : Region × SubLine) : (subAsk core a m).1.mem = a.1.mem := by
  unfold subAsk
  split <;> simp

@[simp] theorem clearBank_mem (s : State) (core bank : Nat) : (clearBank s core bank).mem = s.mem := by simp [clearBank]

/-- The work of WLD that reads its bank: the weights, then the scales. -/
theorem bank_wf (s : State) (t : Team) (e core r latch korg norg : Nat) (asked ks ns : List Nat) (hw : Memory.wf s.mem = true) :
    Memory.wf (mbind (mfold (fun s (w : Tab Nat) k =>
      mfold (fun s w n => mbind (if hSub r then (s, subWeight s t core r latch asked [korg + k, norg + n, 0, 0])
          else mbind (readElem s t e r [korg + k, norg + n, 0, 0]) (fun s x => mpure s (x.2 % 2 ^ fmtBits (latchFmt latch))))
        (fun s v => mpure s (tput 0 w (128 * k + n) v))) ns s w) ks s [])
      (fun s w => mfold (fun s (b : Tab Nat × List Word) n => mbind (readScale s t e r (norg + n)) (fun s v =>
        mpure s (b.1, b.2 ++ [v]))) (List.range 128) s (w, []))).1.mem = true := by
  refine mbind_wf _ _ (mfold_wf _ _ _ _ hw fun s _ k hw => mfold_wf _ _ _ _ hw fun s _ n hw =>
    mbind_wf _ _ ?_ fun _ _ hw => hw) fun s _ hw => mfold_wf _ _ _ _ hw fun s _ n hw =>
      mbind_wf _ _ (readScale_wf s t e r (norg + n) hw) fun _ _ hw => hw
  split
  · exact hw
  · exact mbind_wf _ _ (readElem_wf s t e r _ hw) fun _ _ hw => hw

@[simp] theorem runWld_wf (s : State) (t : Team) (e core h bank : Nat) (asked : List Nat) (box : List Word)
    (hw : Memory.wf s.mem = true) : Memory.wf (runWld s t e core h bank asked box).1.mem = true := by
  have asks : ∀ l : List (Region × SubLine), Memory.wf (l.foldl (subAsk core) (s, asked)).1.mem = true :=
    fun l => foldl_fst_wf (fun a m hw => by simp [hw]) hw
  have banked := fun r latch korg norg ks ns => bank_wf s t e core r latch korg norg asked ks ns hw
  unfold runWld
  split
  · simp [hw]
  · -- the format, opaque: its own cases do not matter here
    extract_lets korg norg kc stop latch
    have stopped : ∀ st, Memory.wf (stop st).1.mem = true := fun st => by simp [stop, hw]
    clear_value latch stop
    split
    · exact stopped 4
    · split
      · exact stopped 3
      · split
        · simp [hw]
        · split
          · exact asks _
          · split
            · exact banked _ _ _ _ _ _
            · exact banked _ _ _ _ _ _

@[simp] theorem fetchRows_wf (s : State) (t : Team) (e r ki : Nat) (unf : Bool) (arg : List Word) (rows : List Nat)
    (hw : Memory.wf s.mem = true) : Memory.wf (fetchRows s t e r ki unf arg rows).1.mem = true := by
  refine mfold_wf _ _ _ _ hw fun s _ m hw => mbind_wf _ _ (mfold_wf _ _ _ _ hw fun s _ k hw => ?_) fun s _ hw =>
    mbind_wf _ _ (readScale_wf s t e r _ hw) fun _ _ hw => hw
  split
  · exact hw
  · exact mbind_wf _ _ (readCode_wf s t e r _ hw) fun _ _ hw => hw

@[simp] theorem runMma_wf (s : State) (t : Team) (e core : Nat) (src : MmaSrc) (tile bank ki : Nat) (arg : List Word) (fmt : Option Fmt)
    (rows : List (Nat × List Nat)) (hw : Memory.wf s.mem = true) :
    Memory.wf (runMma s t e core src tile bank ki arg fmt rows).1.mem = true := by
  unfold runMma
  dsimp only
  repeat' split
  all_goals simp [hw]

@[simp] theorem runMst_wf (s : State) (t : Team) (e core h tile : Nat) (org : List Word) (act : Option Nat) (sat : Bool)
    (hw : Memory.wf s.mem = true) : Memory.wf (runMst s t e core h tile org act sat).1.mem = true := by
  unfold runMst
  dsimp only
  split
  · exact hw
  · split
    · exact hw
    · split
      · exact hw
      · exact mbind_wf _ _ (mfold_wf _ _ _ _ hw fun s _ m hw => mfold_wf _ _ _ _ hw fun s _ n hw =>
          writeCode_wf s t e _ _ _ hw) fun _ _ hw => hw

@[simp] theorem readTable_wf (s : State) (t : Team) (e a n : Nat) (hw : Memory.wf s.mem = true) : Memory.wf (readTable s t e a n).1.mem = true := by
  unfold readTable
  refine mbind_wf _ _ (by simp [hw]) fun s x hw => ?_
  simp +contextual [hw]

end Sys2Proof.Machine
end

section
/-! O60. Sorting, traversal, the issue of clauses and the streams keep memory in its canonical form. -/

namespace Sys2Proof.Machine

@[simp] theorem execSort_formed (c : Common) (d addr : Name) (e : Nat) (sc : Scope) (a64 : Bool) (s : State) (hw : Memory.wf s.mem = true) : Formed (execSort c d addr e sc a64 s) := by
  unfold execSort
  refine issueChecks_formed c _ _ hw fun v => ?_
  dsimp only
  split <;> simp [hw]

@[simp] theorem readKey_wf (s : State) (t : Team) (e r h i : Nat) (hw : Memory.wf s.mem = true) :
    Memory.wf (readKey s t e r h i).1.mem = true := by
  unfold readKey
  split
  · exact readCode_wf s t e h _ hw
  · exact mbind_wf _ _ (readCode_wf s t e h _ hw) fun s lo hw => mbind_wf _ _ (readCode_wf s t e h _ hw) fun _ _ hw => hw

@[simp] theorem writeKey_wf (s : State) (t : Team) (e r h i v : Nat) (hw : Memory.wf s.mem = true) : Memory.wf (writeKey s t e r h i v).1.mem = true := by simp +contextual [writeKey, hw]

@[simp] theorem freeBytes_wf (s : State) (t : Team) (e a n : Nat) (hw : Memory.wf s.mem = true) : Memory.wf (freeBytes s t e a n).1.mem = true := by simp +contextual [freeBytes, hw]

@[simp] theorem sortData_wf (s : State) (t : Team) (e r : Nat) (rec : Nat → Nat) (hw : Memory.wf s.mem = true) :
    Memory.wf (sortData s t e r rec).1.mem = true := by
  refine mbind_wf _ _ (mfold_wf _ _ _ _ hw fun s _ i hw => mbind_wf _ _ (readKey_wf s t e r _ i hw) fun _ _ hw => hw) fun s keys hw =>
    mbind_wf _ _ (mfold_wf _ _ _ _ hw fun s _ i hw => mbind_wf _ _ (readCode_wf s t e _ _ hw) fun _ _ hw => hw) fun s pays hw =>
      mbind_wf _ _ (freeBytes_wf s t e _ _ hw) fun s _ hw =>
        mbind_wf _ _ (mfold_wf _ _ _ _ hw fun s _ j hw => mbind_wf _ _ (writeKey_wf s t e r _ j _ hw) fun s _ hw => ?_) fun _ _ hw => hw
  split
  · exact writeCode_wf s t e _ _ _ hw
  · exact hw

@[simp] theorem sortSpoil_wf (s : State) (t : Team) (e r : Nat) (rec : Nat → Nat) (hw : Memory.wf s.mem = true) :
    Memory.wf (sortSpoil s t e r rec).mem = true := by
  have spoils : ∀ (s : State) h m, Memory.wf s.mem = true → Memory.wf ((List.range m).foldl (fun s i =>
      (freeBytes s t e (hAddr h [i, 0, 0, 0]).1 4).1) s).mem = true :=
    fun s h m hw => foldl_wf (fun s i hw => freeBytes_wf s t e _ 4 hw) hw
  refine foldl_wf (fun s i hw => freeBytes_wf s t e _ 1 hw) ?_
  split
  · exact spoils _ _ _ (spoils s _ _ hw)
  · exact spoils s _ _ hw

@[simp] theorem runSort_wf (s : State) (t : Team) (k : Cmd) (e a : Nat) (hw : Memory.wf s.mem = true) :
    Memory.wf (runSort s t k e a).1.mem = true := by
  unfold runSort
  dsimp only
  repeat' split
  all_goals simp [hw]
  exact sortSpoil_wf _ _ _ _ _ (sortData_wf _ _ _ _ _ (readNat_wf _ _ _ _ _ hw))

@[simp] theorem execBvhq_formed (c : Common) (d q addr : Name) (ray : Bool) (e : Nat) (sc : Scope) (a64 : Bool) (s : State) (hw : Memory.wf s.mem = true) : Formed (execBvhq c d q addr ray e sc a64 s) := by
  unfold execBvhq
  refine issueChecks_formed c _ _ hw fun v => ?_
  dsimp only
  split <;> simp [hw]

theorem visitRead_wf (ray : Bool) (q : List Num) (deeper : Nat → State × List Word × Visit → State × List Word × Visit) (acc : List Word)
    (r : MemR Nat) (read : Memory.wf r.1.mem = true) (hd : ∀ n y, Memory.wf y.1.mem = true → Memory.wf (deeper n y).1.mem = true) :
    Memory.wf (visitRead ray q deeper acc r).1.mem = true := by
  unfold visitRead
  split
  · exact read
  · split
    · exact read
    · refine foldl_fst_wf (fun y j hy => ?_) read
      unfold visitChild
      split
      · split
        · exact hy
        · generalize (!if ray then rayTest q (childBox _ j) else boxTest q (childBox _ j)) = missed
          split
          · exact hy
          · split
            · exact hy
            · exact hd _ _ hy
      · exact hy

@[simp] theorem visitNode_wf (t : Team) (e tree : Nat) (ray : Bool) (q : List Num) (left n : Nat) (x : State × List Word × Visit)
    (hw : Memory.wf x.1.mem = true) : Memory.wf (visitNode t e tree ray q left n x).1.mem = true := by
  induction left generalizing n x with
  | zero =>
    have read := readNat_wf x.1 t e ((tree + 128 * n) % 2 ^ 64) 128 hw
    rw [visitNode_eq]
    generalize readNat x.1 t e ((tree + 128 * n) % 2 ^ 64) 128 = r at read ⊢
    exact visitRead_wf ray q _ _ r read fun _ y hy => hy
  | succ left ih =>
    have read := readNat_wf x.1 t e ((tree + 128 * n) % 2 ^ 64) 128 hw
    rw [visitNode_eq]
    generalize readNat x.1 t e ((tree + 128 * n) % 2 ^ 64) 128 = r at read ⊢
    exact visitRead_wf ray q _ _ r read fun n y hy => ih n y hy

@[simp] theorem bvhRing_wf (s : State) (t : Team) (e a : Nat) (hw : Memory.wf s.mem = true) : Memory.wf (bvhRing s t e a).1.mem = true := by
  unfold bvhRing
  split <;> simp +contextual [hw]

@[simp] theorem runBvhq_wf (s : State) (t : Team) (e a : Nat) (ray : Bool) (q : List Word) (hw : Memory.wf s.mem = true) :
    Memory.wf (runBvhq s t e a ray q).1.mem = true := by
  have read := readNat_wf s t e a 32 hw
  have ring := fun b => bvhRing_wf (readNat s t e a 32).1 t e b read
  unfold runBvhq
  dsimp only
  repeat' split
  · exact read
  · exact ring _
  · exact ring _
  all_goals exact visitNode_wf _ _ _ _ _ _ _ _ (ring _)

@[simp] theorem execQlu_formed (c : Common) (d a : Name) (pd : Option Nat) (w64 : Bool) (s : State) (hw : Memory.wf s.mem = true) : Formed (execQlu c d a pd w64 s) := by
  unfold execQlu
  exact issueChecks_formed c _ _ hw fun v => by simp [hw]

@[simp] theorem execQlus_formed (c : Common) (d f b : Name) (w64 : Bool) (s : State) (hw : Memory.wf s.mem = true) : Formed (execQlus c d f b w64 s) := by
  unfold execQlus
  exact issueChecks_formed c _ _ hw fun v => by simp [hw]

@[simp] theorem execQlut_formed (c : Common) (d f b : Name) (w64 : Bool) (s : State) (hw : Memory.wf s.mem = true) : Formed (execQlut c d f b w64 s) := by
  unfold execQlut
  exact issueChecks_formed c _ _ hw fun v => by simp [hw]

@[simp] theorem execQpiv_formed (c : Common) (d v log : Name) (inv w64 : Bool) (s : State) (hw : Memory.wf s.mem = true) : Formed (execQpiv c d v log inv w64 s) := by
  unfold execQpiv
  exact issueChecks_formed c _ _ hw fun v => by simp [hw]

@[simp] theorem execOlu_formed (c : Common) (d a b : Name) (pd : Option Nat) (op : OluOp) (w64 : Bool) (s : State) (hw : Memory.wf s.mem = true) : Formed (execOlu c d a b pd op w64 s) := by
  unfold execOlu
  exact issueChecks_formed c _ _ hw fun v => by simp [hw]

@[simp] theorem joinLine_mem (s : State) (r : RingReq) : (joinLine s r).mem = s.mem := by simp [joinLine]

@[simp] theorem leaveLine_mem (s : State) (r : RingReq) : (leaveLine s r).mem = s.mem := by simp [leaveLine]

@[simp] theorem deferredTrap_mem (s : State) (uid g : Nat) (grp : List Nat) (x : Gang) : (deferredTrap s uid g grp x).mem = s.mem := by
  unfold deferredTrap
  repeat' split
  all_goals simp

@[simp] theorem watchdogEnd_mem (s : State) (t : Team) (g i : Nat) : (watchdogEnd s t g i).mem = s.mem := by simp [watchdogEnd]

@[simp] theorem markCode_wf (s : State) (t : Team) (pc n : Nat) (hw : Memory.wf s.mem = true) : Memory.wf (markCode s t pc n).mem = true := by
  refine foldl_wf (fun s a hw => ?_) hw
  split <;> simp [hw]

@[simp] theorem issueClause_wf (s : State) (core bay now : Nat) (c : Cand) (hw : Memory.wf s.mem = true) : Memory.wf (issueClause s core bay now c).mem = true := by
  unfold issueClause
  repeat' split
  all_goals simp +contextual [hw]

@[simp] theorem execClauseIssue_formed (core bay : Nat) (s : State) (hw : Memory.wf s.mem = true) :
    Formed (execClauseIssue core bay s) := by
  have met : ∀ cs : List Cand, (cs.foldl (fun s c => if c.ready = .full then
        c.grp.foldl (fun s i => modLane s c.team.uid c.g i (fun l => l.yldPoint c.team.stopping c.team.killPending)) s
      else s) s).mem = s.mem := by
    refine fun cs => foldl_mem fun s c => ?_
    split
    · exact foldl_mem fun s i => mem_modLane _ _ _ _ _
    · rfl
  unfold execClauseIssue
  dsimp only
  repeat' split
  all_goals simp [hw, met]

@[simp] theorem execSbind_formed (c : Common) (port addr : Name) (s : State) (hw : Memory.wf s.mem = true) : Formed (execSbind c port addr s) := by
  unfold execSbind
  refine issueChecks_formed c _ _ hw fun v => ?_
  dsimp only
  split <;> simp [hw]

@[simp] theorem execSfree_formed (c : Common) (port : Name) (s : State) (hw : Memory.wf s.mem = true) : Formed (execSfree c port s) := by
  unfold execSfree
  exact issueChecks_formed c _ _ hw fun v => by simp [hw]

@[simp] theorem execSpos_formed (c : Common) (d a : Name) (set : Bool) (s : State) (hw : Memory.wf s.mem = true) :
    Formed (execSpos c d a set s) := by
  unfold execSpos
  split
  · exact issueChecks_formed c _ _ hw fun v => by simp [hw]
  · simp [hw]

@[simp] theorem execSdrain_formed (c : Common) (port : Name) (close : Bool) (s : State) (hw : Memory.wf s.mem = true) : Formed (execSdrain c port close s) := by
  unfold execSdrain
  exact issueChecks_formed c _ _ hw fun v => by simp [hw]

@[simp] theorem execQring_formed (c : Common) (d base quad : Name) (a64 : Bool) (s : State) (hw : Memory.wf s.mem = true) : Formed (execQring c d base quad a64 s) := by
  unfold execQring
  refine issueChecks_formed c _ _ hw fun v => ?_
  dsimp only
  split <;> simp [hw]

@[simp] theorem execQrfree_formed (c : Common) (d base : Name) (a64 : Bool) (s : State) (hw : Memory.wf s.mem = true) : Formed (execQrfree c d base a64 s) := by
  unfold execQrfree
  refine issueChecks_formed c _ _ hw fun v => ?_
  dsimp only
  split <;> simp [hw]

@[simp] theorem execBind_formed (team gang port : Nat) (s : State) (hw : Memory.wf s.mem = true) : Formed (execBind team gang port s) := by
  unfold execBind
  dsimp only
  repeat' split
  all_goals simp +contextual [hw]

@[simp] theorem execPrefetch_formed (team gang lane port : Nat) (s : State) (hw : Memory.wf s.mem = true) : Formed (execPrefetch team gang lane port s) := by
  unfold execPrefetch
  dsimp only
  repeat' split
  all_goals simp +contextual [hw]

@[simp] theorem execPop_formed (team gang lane idx : Nat) (s : State) (hw : Memory.wf s.mem = true) : Formed (execPop team gang lane idx s) := by
  unfold execPop
  repeat' split
  all_goals simp +contextual [hw]

@[simp] theorem ringAdd_wf (s : State) (key o n : Nat) (hw : Memory.wf s.mem = true) : Memory.wf (ringAdd s key o n).mem = true := by simp +contextual [ringAdd, hw]

@[simp] theorem grantLanes_mem (s : State) (uid g p : Nat) (lanes : List Nat) (ok : Bool) : (grantLanes s uid g p lanes ok).mem = s.mem := by simp [grantLanes]

@[simp] theorem dealClaims_mem (s : State) (uid g p epoch : Nat) (l : List (Nat × Nat)) (es : List (Word × Option DWord)) :
    (dealClaims s uid g p epoch l es).mem = s.mem := by
  induction l generalizing s es with
  | nil => rfl
  | cons x l ih => exact (ih _ _).trans (mem_modLane _ _ _ _ _)

@[simp] theorem dealSlots_mem (s : State) (uid g p ring : Nat) (l : List (Nat × Nat)) (k : Nat) :
    (dealSlots s uid g p ring l k).mem = s.mem := by
  induction l generalizing s k with
  | nil => rfl
  | cons x l ih => exact (ih _ _).trans (mem_modLane _ _ _ _ _)

@[simp] theorem ringRequest_wf (s : State) (team gang lane port : Nat) (pop : Bool) (hw : Memory.wf s.mem = true) : Memory.wf (ringRequest s team gang lane port pop).mem = true := by
  unfold ringRequest
  dsimp only
  repeat' split
  all_goals simp +contextual [hw]

@[simp] theorem cmdReserve_wf (s : State) (team e : Nat) (hw : Memory.wf s.mem = true) : Memory.wf (cmdReserve s team e).mem = true := by
  unfold cmdReserve
  split <;> simp +contextual [hw]

@[simp] theorem cmdPush_mem (s : State) (team e : Nat) : (cmdPush s team e).mem = s.mem := by
  unfold cmdPush
  repeat' split
  all_goals simp

@[simp] theorem execClaim_formed (team gang lane port : Nat) (s : State) (hw : Memory.wf s.mem = true) : Formed (execClaim team gang lane port s) := by simp +contextual [execClaim, hw]

@[simp] theorem execReserve_formed (team gang lane port : Nat) (s : State) (hw : Memory.wf s.mem = true) : Formed (execReserve team gang lane port s) := by simp +contextual [execReserve, hw]

@[simp] theorem execRpush_formed (team gang lane idx : Nat) (s : State) (hw : Memory.wf s.mem = true) : Formed (execRpush team gang lane idx s) := by
  unfold execRpush
  repeat' split
  all_goals simp +contextual [hw]

@[simp] theorem execCommit_formed (ring : Line) (s : State) (hw : Memory.wf s.mem = true) : Formed (execCommit ring s) := by simp +contextual [execCommit, hw]

end Sys2Proof.Machine
end

section
/-! O60. The commands, the launches and the system operations keep memory in its canonical form. -/

namespace Sys2Proof.Machine

@[simp] theorem writeSave_mem (s : State) (uid : Nat) (ps : List (Nat × Nat × Nat)) : (writeSave s uid ps).mem = s.mem := by simp [writeSave]

@[simp] theorem saveAll_mem (s : State) (uid : Nat) : (saveAll s uid).mem = s.mem := by
  unfold saveAll
  split <;> simp

@[simp] theorem saveOne_mem (s : State) (uid g : Nat) : (saveOne s uid g).mem = s.mem := by
  unfold saveOne
  split <;> simp

@[simp] theorem keepSave_mem (s : State) (uid : Nat) : (keepSave s uid).mem = s.mem := by
  unfold keepSave
  split <;> simp

@[simp] theorem engineServed_wf (s : State) (t : Team) (e : Nat) (k : Cmd) (hw : Memory.wf s.mem = true) : Memory.wf (engineServed s t e k).mem = true := by
  unfold engineServed
  split <;> simp +contextual [hw]

@[simp] theorem cmdWork_wf (s : State) (t : Team) (e : Nat) (k : Cmd) (hw : Memory.wf s.mem = true) :
    Memory.wf (cmdWork s t e k).s.mem = true := by
  unfold cmdWork
  split
  case h_1 a _ =>
    have read := readNat_wf s t e a.toNat 64 hw
    dsimp only
    split <;> exact read
  case h_2 hd hs a _ => exact cmdOut_wf _ (runCopy_wf s t e hd hs a.toNat hw)
  case h_3 h a _ => exact cmdOut_wf _ (runCfill_wf s t e h a.toNat hw)
  case h_4 a _ =>
    have read := readNat_wf s t e a.toNat 128 hw
    dsimp only
    generalize readNat s t e a.toNat 128 = r at read ⊢
    split
    · exact read
    · split
      · exact read
      · simp [read]
  case h_5 => exact hw
  case h_6 h bank box _ => exact runWld_wf s t e _ h bank k.asked box hw
  case h_7 => exact hw
  case h_8 src tile bank ki arg fmt rows _ => exact runMma_wf s t e _ src tile bank ki _ fmt rows hw
  case h_9 => simp [hw]
  case h_10 => exact hw
  case h_11 => simp [hw]
  case h_12 h tile org act sat _ => exact cmdOut_wf _ (runMst_wf s t e _ h tile org act sat hw)
  case h_13 form a _ =>
    have read := fun n => readTable_wf s t e a.toNat n hw
    extract_lets core of arr n r
    replace read : Memory.wf r.1.mem = true := read n
    clear_value r
    split
    · exact read
    · split
      · exact read
      · simp [read]
  case h_14 a _ => exact runSort_wf s t k e a.toNat hw
  case h_15 a ray q _ => exact runBvhq_wf s t e a.toNat ray q hw

@[simp] theorem beginWork_wf (s : State) (t : Team) (e : Nat) (k : Cmd) (hw : Memory.wf s.mem = true) :
    Memory.wf (beginWork s t e k).s.mem = true := by
  unfold beginWork
  split
  · exact hw
  · exact cmdWork_wf _ _ _ _ (by simp [hw])

@[simp] theorem execEngineCommandBegin_formed (team e : Nat) (s : State) (hw : Memory.wf s.mem = true) :
    Formed (execEngineCommandBegin team e s) := by
  unfold execEngineCommandBegin
  dsimp only
  repeat' split
  all_goals simp [hw]

@[simp] theorem execContextPark_formed (team e : Nat) (s : State) (hw : Memory.wf s.mem = true) : Formed (execContextPark team e s) := by
  unfold execContextPark
  repeat' split
  all_goals simp +contextual [hw]

/-- The exchange of a collective keeps the form if what its members do keeps it. -/
theorem collStep_formed (s : State) (team e : Nat) (f : Team → Cmd → State × CmdOut) (hw : Memory.wf s.mem = true)
    (hf : ∀ t k, Memory.wf (f t k).1.mem = true) : Formed (collStep s team e f) := by
  unfold collStep
  dsimp only
  repeat' split
  all_goals simp [hw, hf]

@[simp] theorem execCollMatch_formed (team e : Nat) (others : List Member) (s : State) (hw : Memory.wf s.mem = true) :
    Formed (execCollMatch team e others s) := by
  refine collStep_formed s team e _ hw fun t k => ?_
  split
  · exact cmdOut_wf _ (runExchange_wf s t e _ others hw)
  · exact hw

@[simp] theorem execCollAbort_formed (team e : Nat) (s : State) (hw : Memory.wf s.mem = true) : Formed (execCollAbort team e s) :=
  collStep_formed s team e _ hw fun t k => abortColl_wf s t e k.rcd hw

@[simp] theorem execArrayRowPass_formed (core : Nat) (s : State) (hw : Memory.wf s.mem = true) : Formed (execArrayRowPass core s) := by
  unfold execArrayRowPass
  split <;> simp +contextual [hw]

theorem ctlAdd_wf {s : State} {t : Team} {e a : Nat} {x : State × Nat} (eq : ctlAdd s t e a = .ok x) (hw : Memory.wf s.mem = true) :
    Memory.wf x.1.mem = true := by
  unfold ctlAdd at eq
  split at eq
  · contradiction
  · split at eq
    · contradiction
    · split at eq
      · contradiction
      · next loc _ =>
        have touched := wf_touchLine _ t.ctx loc (wf_markLeaf _ loc true (clearLine_wf s (.ctx t.uid e) (lineOf t.ctx a) hw))
        dsimp only at eq
        split at eq
        · contradiction
        · cases eq
          simp [touched]

@[simp] theorem dropHeld_mem (s : State) (uid g i : Nat) : (dropHeld s uid g i).mem = s.mem := by simp [dropHeld]

theorem endTry_wf (s : State) (uid g i pd : Nat) (b : Bool) (acq : State → State) (hw : Memory.wf s.mem = true)
    (ha : ∀ s : State, Memory.wf s.mem = true → Memory.wf (acq s).mem = true) : Memory.wf (endTry s uid g i pd b acq).mem = true := by
  unfold endTry
  have ended : Memory.wf (dropHeld (modLane { s with fresh := s.fresh + 1 } uid g i (fun l => l.wake.setPred pd b)) uid g i).mem = true := by
    simp [hw]
  dsimp only
  split
  · exact ha _ ended
  · exact ended

@[simp] theorem wakeLane_wf (s : State) (t : Team) (core g i : Nat) (hw : Memory.wf s.mem = true) :
    Memory.wf (wakeLane s t core g i).mem = true := by
  have ends := fun uid g i pd b e v => endTry_wf s uid g i pd b (fun s => acquireCtx s core uid g i e v) hw fun s hw => by simp [hw]
  unfold wakeLane
  dsimp only
  repeat' split
  all_goals simp [hw, ends]

@[simp] theorem wakeTimeline_wf (s : State) (uid : Nat) (hw : Memory.wf s.mem = true) : Memory.wf (wakeTimeline s uid).mem = true := by
  unfold wakeTimeline
  repeat' split
  · exact hw
  · exact hw
  · exact foldl_wf (fun s g hw => foldl_wf (fun s i hw => wakeLane_wf s _ _ g i hw) hw) hw

@[simp] theorem writeStatus_mem (s : State) (t : Team) (k : Cmd) (st : Nat) : (writeStatus s t k st).mem = s.mem := by
  unfold writeStatus
  split
  · rfl
  · split
    · exact mem_writeResult ..
    · refine foldl_mem fun s id => ?_
      split
      · rfl
      · exact mem_writeResult ..

@[simp] theorem retireCmd_wf (s : State) (t : Team) (e : Nat) (k : Cmd) (st : Nat) (hw : Memory.wf s.mem = true) :
    Memory.wf (retireCmd s t e k st).mem = true := by
  unfold retireCmd
  dsimp only
  repeat' split
  all_goals simp [hw]

@[simp] theorem completeCmd_wf (s : State) (t : Team) (e : Nat) (k : Cmd) (st : Nat) (acks : List Nat) (hw : Memory.wf s.mem = true) :
    Memory.wf (completeCmd s t e k st acks).mem = true := by
  have released := relScope_wf s (.ctx t.uid e) k.sc acks hw
  unfold completeCmd
  dsimp only
  split
  · simp [released]
  · split
    · simp [released]
    · split
      · simp [released]
      · simp [released]
      · next y eq => simp [ctlAdd_wf eq released]

@[simp] theorem execEngineCommandComplete_formed (team e : Nat) (s : State) (hw : Memory.wf s.mem = true) : Formed (execEngineCommandComplete team e s) := by
  unfold execEngineCommandComplete
  repeat' split
  all_goals simp +contextual [hw]

@[simp] theorem execNop_formed (c : Common) (s : State) (hw : Memory.wf s.mem = true) : Formed (execNop c s) := by
  unfold execNop
  exact issueChecks_formed c _ _ hw fun v => by simp [hw]

@[simp] theorem transferTo_formed (s : State) (v : View) (tgt : Nat → DWord) (hw : Memory.wf s.mem = true) : Formed (transferTo s v tgt) := by
  unfold transferTo
  split <;> simp +contextual [hw]

@[simp] theorem linkTo_formed (s : State) (v : View) (d : Name) (tgt : Nat → DWord) (hw : Memory.wf s.mem = true) : Formed (linkTo s v d tgt) := by
  unfold linkTo
  repeat' split
  all_goals simp +contextual [hw]

@[simp] theorem execBra_formed (c : Common) (off : Int) (s : State) (hw : Memory.wf s.mem = true) : Formed (execBra c off s) := by
  unfold execBra
  exact issueChecks_formed c _ _ hw fun v => by simp [hw]

@[simp] theorem execBrx_formed (c : Common) (a : Name) (s : State) (hw : Memory.wf s.mem = true) : Formed (execBrx c a s) := by
  unfold execBrx
  exact issueChecks_formed c _ _ hw fun v => by simp [hw]

@[simp] theorem execCall_formed (c : Common) (d : Name) (off : Int) (s : State) (hw : Memory.wf s.mem = true) : Formed (execCall c d off s) := by
  unfold execCall
  exact issueChecks_formed c _ _ hw fun v => by simp [hw]

@[simp] theorem execCallx_formed (c : Common) (d a : Name) (s : State) (hw : Memory.wf s.mem = true) : Formed (execCallx c d a s) := by
  unfold execCallx
  exact issueChecks_formed c _ _ hw fun v => by simp [hw]

@[simp] theorem execRet_formed (c : Common) (a : Name) (s : State) (hw : Memory.wf s.mem = true) : Formed (execRet c a s) := by
  unfold execRet
  exact issueChecks_formed c _ _ hw fun v => by simp [hw]

@[simp] theorem execExit_formed (c : Common) (s : State) (hw : Memory.wf s.mem = true) : Formed (execExit c s) := by
  unfold execExit
  refine issueChecks_formed c _ _ hw fun v => ?_
  dsimp only
  split <;> simp [hw]

@[simp] theorem execYld_formed (c : Common) (d : Nat) (s : State) (hw : Memory.wf s.mem = true) : Formed (execYld c d s) := by
  unfold execYld
  exact issueChecks_formed c _ _ hw fun v => by simp [hw]

@[simp] theorem execHinty_formed (c : Common) (s : State) (hw : Memory.wf s.mem = true) : Formed (execHinty c s) := by
  unfold execHinty
  exact issueChecks_formed c _ _ hw fun v => by simp [hw]

@[simp] theorem execBarg_formed (c : Common) (sc : Scope) (s : State) (hw : Memory.wf s.mem = true) : Formed (execBarg c sc s) := by
  unfold execBarg
  exact issueChecks_formed c _ _ hw fun v => by simp [hw]

@[simp] theorem execBart_formed (c : Common) (sc : Scope) (s : State) (hw : Memory.wf s.mem = true) : Formed (execBart c sc s) := by
  unfold execBart
  exact issueChecks_formed c _ _ hw fun v => by simp [hw]

@[simp] theorem execBarb_formed (c : Common) (sc : Scope) (s : State) (hw : Memory.wf s.mem = true) : Formed (execBarb c sc s) := by
  unfold execBarb
  exact issueChecks_formed c _ _ hw fun v => by simp [hw]

@[simp] theorem execRegrp_formed (c : Common) (s : State) (hw : Memory.wf s.mem = true) : Formed (execRegrp c s) := by
  unfold execRegrp
  exact issueChecks_formed c _ _ hw fun v => by simp [hw]

@[simp] theorem execSphase_formed (c : Common) (a : Name) (s : State) (hw : Memory.wf s.mem = true) : Formed (execSphase c a s) := by
  unfold execSphase
  exact issueChecks_formed c _ _ hw fun v => by simp [hw]

@[simp] theorem execAcqx_formed (c : Common) (n : Nat) (s : State) (hw : Memory.wf s.mem = true) : Formed (execAcqx c n s) := by
  unfold execAcqx
  exact issueChecks_formed c _ _ hw fun v => by simp [hw]

@[simp] theorem execRelx_formed (c : Common) (n : Nat) (s : State) (hw : Memory.wf s.mem = true) : Formed (execRelx c n s) := by
  unfold execRelx
  exact issueChecks_formed c _ _ hw fun v => by simp [hw]

@[simp] theorem execAcqxt_formed (c : Common) (n pd : Nat) (s : State) (hw : Memory.wf s.mem = true) : Formed (execAcqxt c n pd s) := by
  unfold execAcqxt
  exact issueChecks_formed c _ _ hw fun v => by simp [hw]

@[simp] theorem execTl_formed (c : Common) (val : Name) (w : TlSel) (pd : Option Nat) (s : State) (hw : Memory.wf s.mem = true) :
    Formed (execTl c val w pd s) := by
  refine issueChecks_formed c _ _ hw fun v => ?_
  split
  · simp [hw]
  · rw [formed_next]
    split
    · exact foldl_wf (fun s i hw => by simp [hw]) (by simp [hw])
    · simp [hw]

@[simp] theorem execTlwait_formed (c : Common) (val : Name) (w : TlSel) (s : State) (hw : Memory.wf s.mem = true) : Formed (execTlwait c val w s) := by simp +contextual [execTlwait, hw]

@[simp] theorem execTltry_formed (c : Common) (val : Name) (w : TlSel) (pd : Nat) (s : State) (hw : Memory.wf s.mem = true) : Formed (execTltry c val w pd s) := by simp +contextual [execTltry, hw]

@[simp] theorem execTlsig_formed (c : Common) (sc : Scope) (e : Nat) (s : State) (hw : Memory.wf s.mem = true) : Formed (execTlsig c sc e s) := by
  unfold execTlsig
  exact issueChecks_formed c _ _ hw fun v => by simp [hw]

@[simp] theorem engineRead_wf (s : State) (ctx a n : Nat) (hw : Memory.wf s.mem = true) : Memory.wf (engineRead s ctx a n).1.mem = true := by
  unfold engineRead
  split <;> simp +contextual [hw]

theorem engineAtomic_wf {s t : State} {ctx a n : Nat} {f : Nat → List (Nat × Byte)} (eq : engineAtomic s ctx a n f = .ok t)
    (hw : Memory.wf s.mem = true) : Memory.wf t.mem = true := by
  unfold engineAtomic at eq
  split at eq
  · contradiction
  · split at eq
    · contradiction
    · split at eq
      · contradiction
      · rw [← Except.ok.inj eq]
        exact wf_homeWrite _ _ _ _ _ _ _ _ _ (wf_touchLine _ _ _ (wf_markLeaf _ _ _ hw))

@[simp] theorem crecWrite_wf (s : State) (id : Nat) (f : Nat → List (Nat × Byte)) (hw : Memory.wf s.mem = true) :
    Memory.wf (crecWrite s id f).mem = true := by
  unfold crecWrite
  dsimp only
  split
  · exact hw
  · split
    · exact hw
    · split
      · next eq => exact engineAtomic_wf eq hw
      · simp [hw]

@[simp] theorem crecRefuse_wf (s : State) (d ctx r code : Nat) (hw : Memory.wf s.mem = true) :
    Memory.wf (crecRefuse s d ctx r code).mem = true := by
  unfold crecRefuse
  dsimp only
  split
  · exact hw
  · split
    · next eq => exact engineAtomic_wf eq hw
    · simp [hw]

@[simp] theorem raiseLevel_mem (s : State) (l : Launch) (kind bit band code data cause : Nat) : (raiseLevel s l kind bit band code data cause).mem = s.mem := by simp [raiseLevel]

@[simp] theorem chainDone_wf (s : State) (k no epoch : Nat) (hw : Memory.wf s.mem = true) :
    Memory.wf (chainDone s k no epoch).mem = true := by
  unfold chainDone
  dsimp only
  split
  · exact hw
  · split
    · exact hw
    · split
      · next eq => exact engineAtomic_wf eq hw
      · simp [hw]

@[simp] theorem dropStall_mem (s : State) (c : ChainId) : (dropStall s c).mem = s.mem := by simp [dropStall]

@[simp] theorem endStall_mem (s : State) (d : Nat) (c : ChainId) : (endStall s d c).mem = s.mem := by simp [endStall]

@[simp] theorem acceptRaw_wf (s : State) (d ctx depth r no : Nat) (c : ChainId) (epoch : Nat) (hw : Memory.wf s.mem = true) : Memory.wf (acceptRaw s d ctx depth r no c epoch).mem = true := by simp +contextual [acceptRaw, hw]

@[simp] theorem execChainRecordAccept_formed (chain : Nat) (s : State) (hw : Memory.wf s.mem = true) :
    Formed (execChainRecordAccept chain s) := by
  unfold execChainRecordAccept
  split
  · exact (formed_next s).2 hw
  · next c _ =>
    have read := engineRead_wf s c.ctx (nextSlot c) 128 hw
    have read' : Memory.wf (if slotHit c then ({ (engineRead s c.ctx (nextSlot c) 128).1 with
          fresh := (engineRead s c.ctx (nextSlot c) 128).1.fresh + 1 },
        (engineRead s c.ctx (nextSlot c) 128).2.map (fun _ => freeRecord (engineRead s c.ctx (nextSlot c) 128).1.fresh))
      else engineRead s c.ctx (nextSlot c) 128).1.mem = true := by split <;> exact read
    dsimp only
    generalize (if slotHit c = true then _ else engineRead s c.ctx (nextSlot c) 128) = x at read' ⊢
    repeat' split
    all_goals simp [hw, read']

@[simp] theorem dropPool_mem (s : State) (p : Nat × Nat × Nat × Nat → Bool) : (dropPool s p).mem = s.mem := by simp [dropPool]

@[simp] theorem dropPend_mem (s : State) (t : Team) : (dropPend s t).mem = s.mem := by
  unfold dropPend
  dsimp only
  repeat' split
  all_goals simp

@[simp] theorem discardLaunches_wf (s : State) (d : Nat) (t : Team) (hw : Memory.wf s.mem = true) :
    Memory.wf (discardLaunches s d t).mem = true := by
  have refused : ∀ rs : List Nat, Memory.wf (rs.foldl (fun s r => crecRefuse s d t.ctx r 5) s).mem = true :=
    fun rs => foldl_wf (fun s r hw => crecRefuse_wf s d t.ctx r 5 hw) hw
  simp only [discardLaunches, mem_modTeam, dropPool_mem]
  exact refused _

@[simp] theorem execPendingLaunchAccept_formed (team : Nat) (s : State) (hw : Memory.wf s.mem = true) : Formed (execPendingLaunchAccept team s) := by
  unfold execPendingLaunchAccept
  repeat' split
  all_goals simp +contextual [hw]

@[simp] theorem execLaunchMakeResident_formed (launch : Nat) (refused : Bool) (s : State) (hw : Memory.wf s.mem = true) : Formed (execLaunchMakeResident launch refused s) := by
  unfold execLaunchMakeResident
  split <;> simp +contextual [hw]

@[simp] theorem countEnd_wf (s : State) (id band tid0 code : Nat) (hw : Memory.wf s.mem = true) : Memory.wf (countEnd s id band tid0 code).mem = true := by
  unfold countEnd
  split <;> simp +contextual [hw]

@[simp] theorem countTeam_wf (s : State) (t : Team) (code : Nat) (hw : Memory.wf s.mem = true) : Memory.wf (countTeam s t code).mem = true := by simp +contextual [countTeam, hw]

@[simp] theorem execBandComplete_formed (launch band : Nat) (s : State) (hw : Memory.wf s.mem = true) : Formed (execBandComplete launch band s) := by
  unfold execBandComplete
  split <;> simp +contextual [hw]

@[simp] theorem execLaunchComplete_formed (launch : Nat) (s : State) (hw : Memory.wf s.mem = true) : Formed (execLaunchComplete launch s) := by
  unfold execLaunchComplete
  repeat' split
  all_goals simp +contextual [hw]

@[simp] theorem killLaunch_wf (reg : Bool) (s : State) (id : Nat) (hw : Memory.wf s.mem = true) :
    Memory.wf (killLaunch reg s id).mem = true := by
  unfold killLaunch
  split
  · exact hw
  · split
    · exact hw
    · simp only [mem_modLaunch]
      refine foldl_wf (fun s j hw => countEnd_wf s _ _ _ _ hw) ?_
      simp [hw]

@[simp] theorem submitTimed_wf (s : State) (j : Nat) (e : Timed) (due : Nat) (hw : Memory.wf s.mem = true) : Memory.wf (submitTimed s j e due).mem = true := by
  unfold submitTimed
  dsimp only
  repeat' split
  all_goals simp +contextual [hw]

@[simp] theorem lateSlot_wf (s : State) (j : Nat) (e : Timed) (slot : Nat) (hw : Memory.wf s.mem = true) :
    Memory.wf (lateSlot s j e slot).mem = true := by
  unfold lateSlot
  dsimp only
  split
  · split
    · exact killLaunch_wf false _ _ hw
    · exact hw
  · exact hw

@[simp] theorem execTimeSlotStart_formed (entry : Nat) (s : State) (hw : Memory.wf s.mem = true) : Formed (execTimeSlotStart entry s) := by
  unfold execTimeSlotStart
  split <;> simp +contextual [hw]

@[simp] theorem execLaunchOp_formed (c : Common) (f : Front) (own : View → Option FaultInfo) (addr : Option (View → Nat → Nat)) (first : View → Nat → List MemKind) (k : View → List Nat → OpKind) (s : State) (hw : Memory.wf s.mem = true) : Formed (execLaunchOp c f own addr first k s) := by
  unfold execLaunchOp
  refine issueChecks_formed c _ _ hw fun v => ?_
  dsimp only
  split <;> simp [hw]

@[simp] theorem execLnch_formed (c : Common) (d addr : Name) (a64 : Bool) (s : State) (hw : Memory.wf s.mem = true) : Formed (execLnch c d addr a64 s) := by
  unfold execLnch
  refine issueChecks_formed c _ _ hw fun v => ?_
  dsimp only
  split <;> simp [hw]

@[simp] theorem execLrec_formed (c : Common) (d addr quad : Name) (a64 : Bool) (s : State) (hw : Memory.wf s.mem = true) : Formed (execLrec c d addr quad a64 s) := by
  unfold execLrec
  refine issueChecks_formed c _ _ hw fun v => ?_
  dsimp only
  split <;> simp [hw]

@[simp] theorem execLstat_formed (c : Common) (d : Name) (sel : Nat) (s : State) (hw : Memory.wf s.mem = true) : Formed (execLstat c d sel s) := by
  unfold execLstat
  exact issueChecks_formed c _ _ hw fun v => by simp [hw]

@[simp] theorem execLease_formed (c : Common) (d quad : Name) (s : State) (hw : Memory.wf s.mem = true) : Formed (execLease c d quad s) := by
  unfold execLease
  exact issueChecks_formed c _ _ hw fun v => by simp [hw]

@[simp] theorem endLanePart_mem (s : State) (uid g i op : Nat) (d : Dst) (ws : List Word) : (endLanePart s uid g i op d ws).mem = s.mem := by
  unfold endLanePart
  split <;> simp

@[simp] theorem failLanePart_mem (s : State) (t : Team) (g i op : Nat) (c : Cause) (a acc : Nat) : (failLanePart s t g i op c a acc).mem = s.mem := by simp [failLanePart]

@[simp] theorem lnchPart_wf (s : State) (t : Team) (g i op : Nat) (d : Dst) (r : Nat) (hw : Memory.wf s.mem = true) : Memory.wf (lnchPart s t g i op d r).mem = true := by
  unfold lnchPart
  repeat' split
  all_goals simp +contextual [hw]

@[simp] theorem lrecPart_mem (s : State) (t : Team) (g i op : Nat) (d : Dst) (r : Option Nat) : (lrecPart s t g i op d r).mem = s.mem := by simp [lrecPart]

@[simp] theorem leasePart_mem (s : State) (t : Team) (g i op : Nat) (d : Dst) (q : List Word) (refused : Bool) : (leasePart s t g i op d q refused).mem = s.mem := by simp [leasePart]

@[simp] theorem execTrap_formed (c : Common) (code : Nat) (s : State) (hw : Memory.wf s.mem = true) : Formed (execTrap c code s) := by
  unfold execTrap
  exact issueChecks_formed c _ _ hw fun v => by simp [hw]

@[simp] theorem execTret_formed (c : Common) (form : TretForm) (s : State) (hw : Memory.wf s.mem = true) : Formed (execTret c form s) := by
  unfold execTret
  refine issueChecks_formed c _ _ hw fun v => ?_
  dsimp only
  split <;> simp [hw]

@[simp] theorem storeRun_mem (s : State) (ag : Agent) (ctx a : Nat) (bs : List Byte) (team lane : Nat) : (storeRun s ag ctx a bs team lane).mem = s.mem := by simp [storeRun]

@[simp] theorem fetchRun_wf (s : State) (t : Team) (core a lines : Nat) (hw : Memory.wf s.mem = true) :
    Memory.wf (fetchRun s t core a lines).1.mem = true := by
  refine mfold_wf _ _ _ _ hw fun s bs k hw => ?_
  have fetched := fetchBytes_wf s t (.core core) (a + 128 * k) .read true 128 hw
  dsimp only
  generalize fetchBytes s t (.core core) (a + 128 * k) .read true 128 = r at fetched ⊢
  split
  · exact fetched
  · split <;> exact fetched

@[simp] theorem execOnce_formed (c : Common) (f : Front) (own : View → Option FaultInfo) (addr : Option (View → Nat → Nat)) (acc : Nat) (k : (Nat → Opnd → List Word) → Nat → OpKind) (s : State) (hw : Memory.wf s.mem = true) : Formed (execOnce c f own addr acc k s) := by
  unfold execOnce
  refine issueChecks_formed c _ _ hw fun v => ?_
  dsimp only
  split <;> simp [hw]

@[simp] theorem execCsave_formed (c : Common) (d a : Name) (s : State) (hw : Memory.wf s.mem = true) : Formed (execCsave c d a s) := by
  unfold execCsave
  refine issueChecks_formed c _ _ hw fun v => ?_
  dsimp only
  split <;> simp [hw]

@[simp] theorem execCrest_formed (c : Common) (d a : Name) (s : State) (hw : Memory.wf s.mem = true) : Formed (execCrest c d a s) := by
  unfold execCrest
  refine issueChecks_formed c _ _ hw fun v => ?_
  dsimp only
  split <;> simp [hw]

@[simp] theorem writeValue_mem (s : State) (t : Team) (g op : Nat) (d : Dst) (slots : List (Nat × DWord × Nat)) (ident : Nat) (r : List Word × Flags) (insn : DWord) : (writeValue s t g op d slots ident r insn).mem = s.mem := by
  unfold writeValue
  repeat' split
  all_goals simp

@[simp] theorem endOnce_mem (s : State) (uid h i op : Nat) (d : Dst) (x : Word) : (endOnce s uid h i op d x).mem = s.mem := by
  unfold endOnce
  dsimp only
  repeat' split
  all_goals simp

@[simp] theorem csaveStep_mem (s : State) (t : Team) (core g h i : Nat) (o : Tracked) (d : Dst) (a : DWord) (stored : Bool) : (csaveStep s t core g h i o d a stored).mem = s.mem := by simp [csaveStep]

@[simp] theorem crestStep_wf (s : State) (t : Team) (core g h i : Nat) (o : Tracked) (d : Dst) (a : DWord) (hw : Memory.wf s.mem = true) :
    Memory.wf (crestStep s t core g h i o d a).mem = true := by
  have fetched := fetchRun_wf (acquireCore s core .pkg) t core a.toNat 112 (by simp [hw])
  unfold crestStep
  dsimp only
  generalize fetchRun (acquireCore s core .pkg) t core a.toNat 112 = head at fetched ⊢
  split
  · exact hw
  · split
    · simp [fetched]
    · split
      · simp [fetched]
      · split <;> simp [fetched]

@[simp] theorem writeTable_wf (s : State) (key : Nat) (bs : List Byte) (hw : Memory.wf s.mem = true) :
    Memory.wf (writeTable s key bs).mem = true := by
  unfold writeTable
  split
  · exact List.foldlRecOn (motive := fun m => Memory.wf m = true) _ _ hw fun m hm x _ => by
      split
      · exact hm
      · exact twf_tput _ _ _ _ hm
  · exact putBytes_formed _ _ _ hw

theorem allocTable_wf {s : State} {bytes : Nat} {x : State × Nat} (eq : allocTable s bytes = some x) (hw : Memory.wf s.mem = true) :
    Memory.wf x.1.mem = true := by
  unfold allocTable at eq
  dsimp only at eq
  split at eq
  · contradiction
  · rw [← Option.some.inj eq]
    exact writeTable_wf s _ _ hw

@[simp] theorem writeEntry_wf (s : State) (key v : Nat) (hw : Memory.wf s.mem = true) : Memory.wf (writeEntry s key v).mem = true :=
  writeTable_wf s key _ hw

theorem mapAt_wf {off size leaf : Nat} {levels : List (Nat × Nat)} {table : Nat} {s t : State}
    (eq : mapAt off size leaf levels table s = .ok t) (hw : Memory.wf s.mem = true) : Memory.wf t.mem = true := by
  induction levels generalizing table s with
  | nil => contradiction
  | cons x rest ih =>
    obtain ⟨h, l⟩ := x
    unfold mapAt at eq
    extract_lets key e at eq
    split at eq
    · generalize (if fld e 1 1 = 1 then fld e 6 6 == 1 else !tableEmpty s rest (fld e 51 8 * 256)) = taken at eq
      split at eq
      · contradiction
      · rw [← Except.ok.inj eq]
        exact writeEntry_wf s _ _ hw
    · split at eq
      · split at eq
        · contradiction
        · exact ih eq hw
      · split at eq
        · contradiction
        · split at eq
          · contradiction
          · next taken => exact ih eq (writeEntry_wf _ _ _ (allocTable_wf taken hw))

@[simp] theorem drainPage_wf (s : State) (ctx va n : Nat) (hw : Memory.wf s.mem = true) : Memory.wf (drainPage s ctx va n).mem = true :=
  foldl_wf (fun s a hw => drainAll_wf s a _ hw) hw

@[simp] theorem dropPage_mem (s : State) (ctx va n : Nat) : (dropPage s ctx va n).mem = s.mem := by simp [dropPage]

@[simp] theorem flushPage_mem (s : State) (va frame n : Nat) : (flushPage s va frame n).mem = s.mem := by simp [flushPage]

@[simp] theorem dropTlb_mem (s : State) (key : Nat) : (dropTlb s key).mem = s.mem := by simp [dropTlb]

@[simp] theorem runTlb_wf (s : State) (op : TlbOp) (q : List Word) (hw : Memory.wf s.mem = true) : Memory.wf (runTlb s op q).1.mem = true := by
  have written := fun ctx va n key v => writeEntry_wf _ key v (drainPage_wf s ctx va n hw)
  have again := fun ctx va n key v => drainPage_wf _ ctx va n (written ctx va n key v)
  have forgets : ∀ (ds : List DirEntry) (s : State), Memory.wf s.mem = true →
      Memory.wf (ds.foldl (fun s d => forgetEntry s d d.cores) s).mem = true :=
    fun ds s hw => foldl_wf (fun s d hw => by simp [hw]) hw
  unfold runTlb
  dsimp only
  split
  · exact hw
  · cases op with
    | map =>
      dsimp only
      split
      · exact hw
      · split
        · exact hw
        · split
          · exact hw
          · next eq =>
            have mapped := mapAt_wf eq hw
            generalize leafOf s (tlbReq q).ctx (tlbReq q).va = leaf
            cases leaf <;> exact mapped
    | unmap =>
      dsimp only
      split
      · exact hw
      · split
        · exact hw
        · split
          · exact hw
          · simp only [dropTlb_mem, flushPage_mem]
            exact forgets _ _ (by simp only [dropPage_mem]; exact again _ _ _ _ _)
    | evict =>
      dsimp only
      split
      · exact hw
      · split
        · exact hw
        · split
          · exact hw
          · simp only [dropTlb_mem, flushPage_mem, dropPage_mem]
            exact written _ _ _ _ _
    | clrad =>
      dsimp only
      split
      · exact hw
      · split
        · exact hw
        · simp [hw]
    | query =>
      dsimp only
      split
      · exact hw
      · split <;> exact hw

@[simp] theorem execTlbinv_formed (c : Common) (d quad : Name) (op : TlbOp) (s : State) (hw : Memory.wf s.mem = true) : Formed (execTlbinv c d quad op s) := by
  unfold execTlbinv
  exact issueChecks_formed c _ _ hw fun v => by simp [hw]

@[simp] theorem execReplay_formed (c : Common) (d ctx : Name) (s : State) (hw : Memory.wf s.mem = true) : Formed (execReplay c d ctx s) := by
  unfold execReplay
  exact issueChecks_formed c _ _ hw fun v => by simp [hw]

@[simp] theorem replayGang_wf (s : State) (t : Team) (g : Nat) (hw : Memory.wf s.mem = true) :
    Memory.wf (replayGang s t g).mem = true := by
  unfold replayGang
  dsimp only
  split
  · simp [hw]
  · refine foldl_wf (fun s p hw => drainLine_wf s _ _ hw) ?_
    simp [hw]

@[simp] theorem replayPreload_wf (s : State) (t : Team) (hw : Memory.wf s.mem = true) : Memory.wf (replayPreload s t).mem = true := by
  refine foldl_wf (fun s p hw => ?_) hw
  have read := engineRead_wf s t.ctx p.2.toNat 64 hw
  dsimp only
  generalize engineRead s t.ctx p.2.toNat 64 = x at read ⊢
  split
  · exact hw
  · simp [read]
  · simp [read]

@[simp] theorem replayAll_wf (s : State) (ctx : Nat) (hw : Memory.wf s.mem = true) : Memory.wf (replayAll s ctx).1.mem = true := by
  refine foldl_wf (fun s t hw => ?_) hw
  have gangs : Memory.wf ((List.range t.gangs.length).foldl (fun s g => replayGang s t g) s).mem = true :=
    foldl_wf (fun s g hw => replayGang_wf s t g hw) hw
  simp only [mem_modTeam]
  exact replayPreload_wf _ t gangs

@[simp] theorem execRdsr_formed (c : Common) (d : Name) (sr : Nat) (s : State) (hw : Memory.wf s.mem = true) : Formed (execRdsr c d sr s) := by
  unfold execRdsr
  exact issueChecks_formed c _ _ hw fun v => by simp [hw]

@[simp] theorem execWrsr_formed (c : Common) (val : Name) (sr : Nat) (s : State) (hw : Memory.wf s.mem = true) : Formed (execWrsr c val sr s) := by
  unfold execWrsr
  exact issueChecks_formed c _ _ hw fun v => by simp [hw]

@[simp] theorem execEvnt_formed (c : Common) (code payload : Name) (int : Bool) (s : State) (hw : Memory.wf s.mem = true) : Formed (execEvnt c code payload int s) := by
  unfold execEvnt
  exact issueChecks_formed c _ _ hw fun v => by simp [hw]

@[simp] theorem execHalt_formed (c : Common) (s : State) (hw : Memory.wf s.mem = true) : Formed (execHalt c s) := by
  unfold execHalt
  exact issueChecks_formed c _ _ hw fun v => by simp [hw]

end Sys2Proof.Machine
end

section
/-! O60. Gangs, teams, what arrives from outside and errors keep memory in its canonical form. -/

namespace Sys2Proof.Machine

@[simp] theorem endOp_mem (s : State) (uid g op : Nat) : (endOp s uid g op).mem = s.mem := by simp [endOp]

@[simp] theorem placeRecords_wf (s : State) (t : Team) (o : Tracked) (d : Dst) (rs : Tab LaneRec) (hw : Memory.wf s.mem = true) :
    Memory.wf (placeRecords s t o d rs).mem = true := by
  unfold placeRecords
  split
  · refine foldl_wf (fun s id hw => ?_) hw
    split
    · split
      · exact lnchPart_wf _ _ _ _ _ _ _ hw
      · exact hw
    · exact hw
  · exact hw

@[simp] theorem lanePart_mem (s : State) (t : Team) (o : Tracked) (refused : Bool) : (lanePart s t o refused).mem = s.mem := by
  unfold lanePart
  repeat' split
  all_goals simp

@[simp] theorem completeOp_wf (s : State) (t : Team) (core g : Nat) (o : Tracked) (lane : Nat) (hw : Memory.wf s.mem = true) :
    Memory.wf (completeOp s t core g o lane).mem = true := by
  unfold completeOp
  dsimp only
  generalize o.lanes.head?.bind t.whereIs = at_
  split
  case h_3 => simp [hw]
  case h_7 => cases at_ <;> simp [hw]
  case h_8 => cases at_ <;> simp [hw]
  case h_9 => cases at_ <;> simp [hw]
  case h_10 => cases at_ <;> simp [hw]
  case h_11 =>
    cases at_ with
    | none => simp [hw]
    | some x =>
      dsimp only
      split
      · simp [hw]
      · exact hw
  all_goals split <;> simp [hw]

@[simp] theorem execOperationComplete_formed (team gang op lane : Nat) (s : State) (hw : Memory.wf s.mem = true) : Formed (execOperationComplete team gang op lane s) := by
  unfold execOperationComplete
  repeat' split
  all_goals simp +contextual [hw]

@[simp] theorem execDemotionEnd_formed (team gang lane : Nat) (s : State) (hw : Memory.wf s.mem = true) : Formed (execDemotionEnd team gang lane s) := by simp +contextual [execDemotionEnd, hw]

@[simp] theorem execBarrierComplete_formed (b : Bar) (s : State) (hw : Memory.wf s.mem = true) : Formed (execBarrierComplete b s) := by simp +contextual [execBarrierComplete, hw]

@[simp] theorem execRegroup_formed (team : Nat) (s : State) (hw : Memory.wf s.mem = true) : Formed (execRegroup team s) := by
  unfold execRegroup
  split <;> simp +contextual [hw]

@[simp] theorem execAcqxGrant_formed (core bay : Nat) (s : State) (hw : Memory.wf s.mem = true) : Formed (execAcqxGrant core bay s) := by
  unfold execAcqxGrant
  split <;> simp +contextual [hw]

@[simp] theorem readWord_wf (s : State) (t : Team) (core : Nat) (a : DWord) (hw : Memory.wf s.mem = true) : Memory.wf (readWord s t core a).1.mem = true := by
  unfold readWord
  dsimp only
  repeat' split
  all_goals simp +contextual [hw]

@[simp] theorem waitFailed_mem (s : State) (t : Team) (g i : Nat) (c : Cause) (a : Nat) : (waitFailed s t g i c a).mem = s.mem := by simp [waitFailed]

@[simp] theorem waitMet_mem (s : State) (uid core g i : Nat) (sc : Scope) (pd : Option Nat) : (waitMet s uid core g i sc pd).mem = s.mem := by simp [waitMet]

@[simp] theorem noteSeen_mem (s : State) (uid g i x : Nat) : (noteSeen s uid g i x).mem = s.mem := by simp [noteSeen]

@[simp] theorem execTlwaitReread_formed (team gang lane : Nat) (s : State) (hw : Memory.wf s.mem = true) : Formed (execTlwaitReread team gang lane s) := by
  unfold execTlwaitReread
  dsimp only
  repeat' split
  all_goals simp +contextual [hw]

@[simp] theorem execTltryIntervalEnd_formed (team gang lane : Nat) (s : State) (hw : Memory.wf s.mem = true) :
    Formed (execTltryIntervalEnd team gang lane s) := by
  have ended : ∀ (s : State) core pd b e v, Memory.wf s.mem = true →
      Memory.wf (endTry s team gang lane pd b (fun s => acquireCtx s core team gang lane e v)).mem = true :=
    fun s core pd b e v hw => endTry_wf s _ _ _ _ _ _ hw fun s hw => by simp [hw]
  have ended' : ∀ (s : State) core pd b sc, Memory.wf s.mem = true →
      Memory.wf (endTry s team gang lane pd b (fun s => acquireAt s core team gang lane sc)).mem = true :=
    fun s core pd b sc hw => endTry_wf s _ _ _ _ _ _ hw fun s hw => by simp [hw]
  unfold execTltryIntervalEnd
  dsimp only
  repeat' split
  all_goals simp [hw, ended, ended']

@[simp] theorem dueIssue_formed (team gang lane : Nat) (due : Lane → Bool) (s : State) (hw : Memory.wf s.mem = true) : Formed (dueIssue team gang lane due s) := by
  unfold dueIssue
  repeat' split
  all_goals simp +contextual [hw]

@[simp] theorem execTrapEntry_formed (team gang lane : Nat) (s : State) (hw : Memory.wf s.mem = true) : Formed (execTrapEntry team gang lane s) := by simp +contextual [execTrapEntry, hw]

@[simp] theorem execWatchdog_formed (team gang lane : Nat) (s : State) (hw : Memory.wf s.mem = true) : Formed (execWatchdog team gang lane s) := by simp +contextual [execWatchdog, hw]

@[simp] theorem execParkGang_formed (team gang : Nat) (s : State) (hw : Memory.wf s.mem = true) : Formed (execParkGang team gang s) := by
  unfold execParkGang
  repeat' split
  all_goals simp +contextual [hw]

@[simp] theorem execParkedGangResume_formed (team gang : Nat) (s : State) (hw : Memory.wf s.mem = true) : Formed (execParkedGangResume team gang s) := by
  unfold execParkedGangResume
  repeat' split
  all_goals simp +contextual [hw]

@[simp] theorem execGangRetire_formed (team gang : Nat) (s : State) (hw : Memory.wf s.mem = true) : Formed (execGangRetire team gang s) := by
  unfold execGangRetire
  split <;> simp +contextual [hw]

@[simp] theorem bornLanes_mem (s : State) (uid : Nat) : (bornLanes s uid).mem = s.mem := by simp [bornLanes]

@[simp] theorem execTeamAdmit_formed (launch : Nat) (s : State) (hw : Memory.wf s.mem = true) : Formed (execTeamAdmit launch s) := by
  unfold execTeamAdmit
  repeat' split
  all_goals simp +contextual [hw]

@[simp] theorem execPreemptDecide_formed (team : Nat) (s : State) (hw : Memory.wf s.mem = true) : Formed (execPreemptDecide team s) := by
  unfold execPreemptDecide
  split <;> simp +contextual [hw]

@[simp] theorem writeBack_wf (s : State) (t : Team) (hw : Memory.wf s.mem = true) : Memory.wf (writeBack s t).mem = true := by
  refine foldl_wf (fun s a hw => ?_) hw
  dsimp only
  split
  · simp [hw]
  · exact hw

@[simp] theorem teamRelease_wf (s : State) (core : Nat) (hw : Memory.wf s.mem = true) : Memory.wf (teamRelease s core).1.mem = true :=
  relScope_wf s _ _ _ hw

@[simp] theorem ctxRelease_wf (s : State) (t : Team) (hw : Memory.wf s.mem = true) : Memory.wf (ctxRelease s t).1.mem = true :=
  foldl_fst_wf (fun a _ hw => relScope_wf a.1 _ _ _ hw) hw

@[simp] theorem execTeamSave_formed (team : Nat) (s : State) (hw : Memory.wf s.mem = true) : Formed (execTeamSave team s) := by
  unfold execTeamSave
  dsimp only
  split
  · simp [hw]
  · next t _ =>
    have released := fun core => teamRelease_wf (writeBack s t) core (writeBack_wf s t hw)
    repeat' split
    all_goals simp [hw, released]

@[simp] theorem resumeOn_wf (s : State) (t : Team) (core : Nat) (hw : Memory.wf s.mem = true) : Memory.wf (resumeOn s t core).mem = true := by
  have asks : ∀ (r : Region) (s : State), Memory.wf s.mem = true →
      Memory.wf (r.lines.foldl (fun s l => (askLine s core r l).1) s).mem = true :=
    fun r s hw => foldl_wf (fun s l hw => by simp [hw]) hw
  unfold resumeOn
  refine wakeTimeline_wf _ _ (foldl_wf (fun s r hw => bumpCounter_wf _ core r (asks r _ (by simp [hw]))) ?_)
  simp only [noteLanes_mem]
  split <;> simp [hw]

@[simp] theorem execTeamResume_formed (team core : Nat) (s : State) (hw : Memory.wf s.mem = true) : Formed (execTeamResume team core s) := by
  unfold execTeamResume
  split <;> simp +contextual [hw]

@[simp] theorem execParentSwapOut_formed (team : Nat) (s : State) (hw : Memory.wf s.mem = true) : Formed (execParentSwapOut team s) := by
  unfold execParentSwapOut
  split <;> simp +contextual [hw]

@[simp] theorem execParentSwapIn_formed (team core : Nat) (s : State) (hw : Memory.wf s.mem = true) : Formed (execParentSwapIn team core s) := by
  unfold execParentSwapIn
  split <;> simp +contextual [hw]

@[simp] theorem freeCore_wf (s : State) (uid core : Nat) (hw : Memory.wf s.mem = true) : Memory.wf (freeCore s uid core).mem = true := by
  simp [freeCore, hw]

@[simp] theorem dropTeam_mem (s : State) (uid : Nat) : (dropTeam s uid).mem = s.mem := by simp [dropTeam]

@[simp] theorem execTeamRetire_formed (team : Nat) (s : State) (hw : Memory.wf s.mem = true) : Formed (execTeamRetire team s) := by
  unfold execTeamRetire
  split
  · simp [hw]
  · next t _ =>
    split
    · simp [hw]
    · next core _ =>
      have released := ctxRelease_wf _ t (teamRelease_wf s core hw)
      split
      · simp [hw]
      · dsimp only
        split
        · simp [released]
        · split
          · simp [released]
          · rw [formed_next, dropTeam_mem]
            exact freeCore_wf _ _ _ (countTeam_wf _ _ _ (by simp [released]))

@[simp] theorem discardBytes_mem (s : State) (uid core : Nat) : (discardBytes s uid core).mem = s.mem := by simp [discardBytes]

@[simp] theorem finishEnd_wf (s : State) (t : Team) (f : FaultInfo) (hw : Memory.wf s.mem = true) : Memory.wf (finishEnd s t f).mem = true := by
  have discarded := fun d => discardLaunches_wf s d t hw
  unfold finishEnd
  dsimp only
  simp only [dropTeam_mem]
  refine countTeam_wf _ _ _ ?_
  split <;> simp [discarded]

@[simp] theorem execTeamEnd_formed (team : Nat) (s : State) (hw : Memory.wf s.mem = true) : Formed (execTeamEnd team s) := by
  unfold execTeamEnd
  dsimp only
  repeat' split
  all_goals simp [hw]

theorem ringWrite_wf {s : State} {r r' : HostRing} {size x a : Nat} {t : State} (eq : ringWrite s r size = some (t, r', x, a))
    (hw : Memory.wf s.mem = true) : Memory.wf t.mem = true := by
  unfold ringWrite at eq
  split at eq
  · contradiction
  · split at eq
    · contradiction
    · cases eq
      exact putBytes_formed _ _ _ hw

@[simp] theorem execEventEntryWrite_formed (die : Nat) (s : State) (hw : Memory.wf s.mem = true) : Formed (execEventEntryWrite die s) := by
  unfold execEventEntryWrite
  dsimp only
  split
  · next eq => simp [ringWrite_wf eq hw]
  · simp [hw]

@[simp] theorem execFaultRecordWrite_formed (die : Nat) (s : State) (hw : Memory.wf s.mem = true) : Formed (execFaultRecordWrite die s) := by
  unfold execFaultRecordWrite
  dsimp only
  split
  · next eq => simp [ringWrite_wf eq hw]
  · simp [hw]

@[simp] theorem execMsiSend_formed (s : State) (hw : Memory.wf s.mem = true) : Formed (execMsiSend s) := by
  unfold execMsiSend
  split <;> simp +contextual [hw]

theorem outsideRead_wf {s : State} {ctx a n : Nat} {acc : Access} {r : State × List Byte} (eq : outsideRead s ctx a n acc = .ok r)
    (hw : Memory.wf s.mem = true) : Memory.wf r.1.mem = true := by
  unfold outsideRead at eq
  split at eq
  · contradiction
  · split at eq
    · contradiction
    · rw [← Except.ok.inj eq]
      exact foldl_wf (fun s l hw => by simp [hw]) hw

theorem outsideWrite_wf {s t : State} {ctx a : Nat} {bs : List Byte} (eq : outsideWrite s ctx a bs = .ok t)
    (hw : Memory.wf s.mem = true) : Memory.wf t.mem = true := by
  unfold outsideWrite at eq
  split at eq
  · contradiction
  · rw [← Except.ok.inj eq]
    refine foldl_wf (fun s k hw => ?_) hw
    dsimp only
    split
    · exact hw
    · next x _ _ =>
      have touched := wf_touchLine _ ctx x.1 (wf_markLeaf s x.1 true hw)
      split <;> simp [touched]

@[simp] theorem execHostWindowAccess_formed (hpa : Nat) (data : Option (List Byte)) (n : Nat) (s : State) (hw : Memory.wf s.mem = true) :
    Formed (execHostWindowAccess hpa data n s) := by
  unfold execHostWindowAccess
  dsimp only
  split
  · simp [hw]
  · split
    · split
      · next eq => simp [outsideRead_wf eq hw]
      · simp [hw]
    · split
      · next eq => simp [outsideWrite_wf eq hw]
      · simp [hw]

@[simp] theorem reply_mem (s : State) (code : Nat) (bs : List Byte) : (reply s code bs).mem = s.mem := by simp [reply]

@[simp] theorem peerAtomic_wf (s : State) (ctx a n : Nat) (k : MemKind) (hw : Memory.wf s.mem = true) :
    Memory.wf (peerAtomic s ctx a n k).mem = true := by
  unfold peerAtomic
  dsimp only
  split
  · simp [hw]
  · split
    · simp [hw]
    · next loc _ =>
      have touched := fun w => wf_touchLine _ ctx loc (wf_markLeaf s loc w hw)
      split
      · simp [hw]
      · split <;> simp [touched]

@[simp] theorem execPeerRequest_formed (ctx : Nat) (die off : Nat) (op : PeerOp) (s : State) (hw : Memory.wf s.mem = true) :
    Formed (execPeerRequest ctx die off op s) := by
  unfold execPeerRequest
  dsimp only
  split
  · simp [hw]
  · split
    · simp [hw]
    · split
      · simp [hw]
      · next eq => simp [outsideRead_wf eq hw]
    · split
      · simp [hw]
      · next eq => simp [outsideRead_wf eq hw]
    · split
      · simp [hw]
      · next eq => simp [outsideWrite_wf eq hw]
    · simp [hw]
    · simp [hw]

@[simp] theorem entryTimeout_wf (s : State) (p : Part) (merged : Bool) (hw : Memory.wf s.mem = true) : Memory.wf (entryTimeout s p merged).mem = true := by
  unfold entryTimeout
  repeat' split
  all_goals simp +contextual [hw]

@[simp] theorem imageTimeout_mem (s : State) (t : Team) (g i : Nat) : (imageTimeout s t g i).mem = s.mem := by
  unfold imageTimeout
  split <;> simp

@[simp] theorem recordTimeout_mem (s : State) (t : Team) (j : Nat) : (recordTimeout s t j).mem = s.mem := by
  unfold recordTimeout
  split <;> simp

@[simp] theorem laneTimeout_mem (s : State) (t : Team) (core g i idx : Nat) : (laneTimeout s t core g i idx).mem = s.mem := by
  unfold laneTimeout
  dsimp only
  repeat' split
  all_goals simp

@[simp] theorem unlinked_mem (s : State) : (unlinked s).mem = s.mem := by simp [unlinked]

@[simp] theorem cmdTimeout_wf (s : State) (t : Team) (e : Nat) (merged : Bool) (hw : Memory.wf s.mem = true) :
    Memory.wf (cmdTimeout s t e merged).mem = true := by
  unfold cmdTimeout
  split
  · exact hw
  · next k _ =>
    dsimp only
    split
    · split
      · exact hw
      · have alone := beginWork_wf (unlinked s) t e (k.begin_ t e s.fresh) hw
        have whole := beginWork_wf s t e (k.begin_ t e s.fresh) hw
        split
        · split
          · cases merged
            · simp [alone]
            · simp [whole]
          · exact hw
        · exact hw
    · split
      · split
        · split
          · split
            · next eq => simp [ctlAdd_wf eq hw]
            · simp [hw]
          · simp [hw]
        · exact hw
      · exact hw
    · exact hw

@[simp] theorem drainTimeout_wf (s : State) (a : Agent) (idx : Nat) (merged : Bool) (hw : Memory.wf s.mem = true) : Memory.wf (drainTimeout s a idx merged).mem = true := by
  unfold drainTimeout
  split <;> simp +contextual [hw]

@[simp] theorem execPeerTimeout_formed (team gang lane idx : Nat) (merged : Bool) (s : State) (hw : Memory.wf s.mem = true) : Formed (execPeerTimeout team gang lane idx merged s) := by
  unfold execPeerTimeout
  repeat' split
  all_goals simp +contextual [hw]

@[simp] theorem execFlitCrcFail_formed (port : Nat) (retrain : Bool) (s : State) (hw : Memory.wf s.mem = true) : Formed (execFlitCrcFail port retrain s) := by simp +contextual [execFlitCrcFail, hw]

@[simp] theorem execDatagramReceive_formed (mac ip udp : Nat) (addr : Nat) (data : List Byte) (good : Bool) (s : State)
    (hw : Memory.wf s.mem = true) : Formed (execDatagramReceive mac ip udp addr data good s) := by
  unfold execDatagramReceive
  split
  · simp [hw]
  · split
    · simp [hw]
    · split
      · simp [hw]
      · next eq => simp [outsideWrite_wf eq hw]

@[simp] theorem datagramFault_mem (s : State) (d : Datagram) (c : Cause) : (datagramFault s d c).mem = s.mem := by
  unfold datagramFault
  dsimp only
  repeat' split
  all_goals simp

@[simp] theorem execDatagramAck_formed (seq : Nat) (refusal : Option Nat) (s : State) (hw : Memory.wf s.mem = true) : Formed (execDatagramAck seq refusal s) := by
  unfold execDatagramAck
  repeat' split
  all_goals simp +contextual [hw]

@[simp] theorem execDatagramResend_formed (seq : Nat) (s : State) (hw : Memory.wf s.mem = true) : Formed (execDatagramResend seq s) := by
  unfold execDatagramResend
  split <;> simp +contextual [hw]

@[simp] theorem execHbmRecalBurst_formed (_die _ch : Nat) (s : State) (hw : Memory.wf s.mem = true) : Formed (execHbmRecalBurst _die _ch s) := by simp +contextual [execHbmRecalBurst, hw]

@[simp] theorem execCorrectedError_formed (die ch row : Nat) (s : State) (hw : Memory.wf s.mem = true) : Formed (execCorrectedError die ch row s) := by simp +contextual [execCorrectedError, hw]

@[simp] theorem execRowRemap_formed (die ch row : Nat) (s : State) (hw : Memory.wf s.mem = true) : Formed (execRowRemap die ch row s) := by simp +contextual [execRowRemap, hw]

@[simp] theorem execRemapTableReload_formed (die ch : Nat) (copyBad : Bool) (s : State) (hw : Memory.wf s.mem = true) : Formed (execRemapTableReload die ch copyBad s) := by simp +contextual [execRemapTableReload, hw]

@[simp] theorem teamPoison_mem (s : State) (uid : Nat) : (teamPoison s uid).mem = s.mem := by simp [teamPoison]

@[simp] theorem refetch_wf (s : State) (l : Line) (hw : Memory.wf s.mem = true) : Memory.wf (refetch s l).mem = true := by
  refine foldl_wf (fun s a hw => ?_) hw
  dsimp only
  split
  · exact hw
  · split <;> simp [hw]

@[simp] theorem execUncorrectableError_formed (x : Struct) (s : State) (hw : Memory.wf s.mem = true) : Formed (execUncorrectableError x s) := by
  unfold execUncorrectableError
  dsimp only
  rw [formed_next]
  repeat' split
  all_goals simp [hw]

@[simp] theorem execDieLoss_formed (die : Nat) (s : State) (hw : Memory.wf s.mem = true) : Formed (execDieLoss die s) := by simp +contextual [execDieLoss, hw]

@[simp] theorem execPowerCapExcess_formed (point : Nat) (s : State) (hw : Memory.wf s.mem = true) : Formed (execPowerCapExcess point s) := by simp +contextual [execPowerCapExcess, hw]

@[simp] theorem execPowerCapWithin_formed (point : Nat) (s : State) (hw : Memory.wf s.mem = true) : Formed (execPowerCapWithin point s) := by simp +contextual [execPowerCapWithin, hw]

@[simp] theorem execThermalLimit_formed (point temp : Nat) (s : State) (hw : Memory.wf s.mem = true) : Formed (execThermalLimit point temp s) := by simp +contextual [execThermalLimit, hw]

@[simp] theorem execThermalLimitEnd_formed (s : State) (hw : Memory.wf s.mem = true) : Formed (execThermalLimitEnd s) := by simp +contextual [execThermalLimitEnd, hw]

@[simp] theorem execIeee1588EventMessage_formed (port : Nat) (egress : Bool) (s : State) (hw : Memory.wf s.mem = true) : Formed (execIeee1588EventMessage port egress s) := by simp +contextual [execIeee1588EventMessage, hw]

@[simp] theorem execMov_formed (c : Common) (d a : Name) (w64 : Bool) (s : State) (hw : Memory.wf s.mem = true) : Formed (execMov c d a w64 s) := by
  unfold execMov
  exact issueChecks_formed c _ _ hw fun v => by simp [hw]

@[simp] theorem execMovImm_formed (c : Common) (d : Name) (imm : Int) (s : State) (hw : Memory.wf s.mem = true) : Formed (execMovImm c d imm s) := by
  unfold execMovImm
  exact issueChecks_formed c _ _ hw fun v => by simp [hw]

@[simp] theorem execMovk_formed (c : Common) (d : Name) (k : Nat) (hi z : Bool) (s : State) (hw : Memory.wf s.mem = true) : Formed (execMovk c d k hi z s) := by
  unfold execMovk
  exact issueChecks_formed c _ _ hw fun v => by simp [hw]

@[simp] theorem execIadd_formed (c : Common) (d a b : Name) (t : Sat) (s : State) (hw : Memory.wf s.mem = true) : Formed (execIadd c d a b t s) := by
  unfold execIadd
  exact issueChecks_formed c _ _ hw fun v => by simp [hw]

@[simp] theorem execIaddImm_formed (c : Common) (d a : Name) (imm : Int) (s : State) (hw : Memory.wf s.mem = true) : Formed (execIaddImm c d a imm s) := by
  unfold execIaddImm
  exact issueChecks_formed c _ _ hw fun v => by simp [hw]

@[simp] theorem execIsub_formed (c : Common) (d a b : Name) (t : Sat) (s : State) (hw : Memory.wf s.mem = true) : Formed (execIsub c d a b t s) := by
  unfold execIsub
  exact issueChecks_formed c _ _ hw fun v => by simp [hw]

@[simp] theorem execIsubImm_formed (c : Common) (d a : Name) (imm : Int) (s : State) (hw : Memory.wf s.mem = true) : Formed (execIsubImm c d a imm s) := by
  unfold execIsubImm
  exact issueChecks_formed c _ _ hw fun v => by simp [hw]

@[simp] theorem execImul_formed (c : Common) (d a b : Name) (t : Sat) (s : State) (hw : Memory.wf s.mem = true) : Formed (execImul c d a b t s) := by
  unfold execImul
  exact issueChecks_formed c _ _ hw fun v => by simp [hw]

@[simp] theorem execImulImm_formed (c : Common) (d a : Name) (imm : Int) (s : State) (hw : Memory.wf s.mem = true) : Formed (execImulImm c d a imm s) := by
  unfold execImulImm
  exact issueChecks_formed c _ _ hw fun v => by simp [hw]

@[simp] theorem execImulh_formed (c : Common) (d a b : Name) (t : Sgn) (s : State) (hw : Memory.wf s.mem = true) : Formed (execImulh c d a b t s) := by
  unfold execImulh
  exact issueChecks_formed c _ _ hw fun v => by simp [hw]

@[simp] theorem execImad_formed (c : Common) (d a b x : Name) (t : Sat) (s : State) (hw : Memory.wf s.mem = true) : Formed (execImad c d a b x t s) := by
  unfold execImad
  exact issueChecks_formed c _ _ hw fun v => by simp [hw]

@[simp] theorem execImadw_formed (c : Common) (d a b x : Name) (t : Sgn) (s : State) (hw : Memory.wf s.mem = true) : Formed (execImadw c d a b x t s) := by
  unfold execImadw
  exact issueChecks_formed c _ _ hw fun v => by simp [hw]

@[simp] theorem execIadd64_formed (c : Common) (d a b : Name) (t : Sat) (s : State) (hw : Memory.wf s.mem = true) : Formed (execIadd64 c d a b t s) := by
  unfold execIadd64
  exact issueChecks_formed c _ _ hw fun v => by simp [hw]

@[simp] theorem execIsub64_formed (c : Common) (d a b : Name) (t : Sat) (s : State) (hw : Memory.wf s.mem = true) : Formed (execIsub64 c d a b t s) := by
  unfold execIsub64
  exact issueChecks_formed c _ _ hw fun v => by simp [hw]

@[simp] theorem execIdiv_formed (c : Common) (d a b : Name) (t : ITy) (s : State) (hw : Memory.wf s.mem = true) : Formed (execIdiv c d a b t s) := by
  unfold execIdiv
  exact issueChecks_formed c _ _ hw fun v => by simp [hw]

@[simp] theorem execIrem_formed (c : Common) (d a b : Name) (t : ITy) (s : State) (hw : Memory.wf s.mem = true) : Formed (execIrem c d a b t s) := by
  unfold execIrem
  exact issueChecks_formed c _ _ hw fun v => by simp [hw]

@[simp] theorem execIneg_formed (c : Common) (d a : Name) (t : NegTy) (s : State) (hw : Memory.wf s.mem = true) : Formed (execIneg c d a t s) := by
  unfold execIneg
  exact issueChecks_formed c _ _ hw fun v => by simp [hw]

@[simp] theorem execIabs_formed (c : Common) (d a : Name) (t : NegTy) (s : State) (hw : Memory.wf s.mem = true) : Formed (execIabs c d a t s) := by
  unfold execIabs
  exact issueChecks_formed c _ _ hw fun v => by simp [hw]

@[simp] theorem execImin_formed (c : Common) (d a b : Name) (t : ITy) (s : State) (hw : Memory.wf s.mem = true) : Formed (execImin c d a b t s) := by
  unfold execImin
  exact issueChecks_formed c _ _ hw fun v => by simp [hw]

@[simp] theorem execIminImm_formed (c : Common) (d a : Name) (imm : Int) (s : State) (hw : Memory.wf s.mem = true) : Formed (execIminImm c d a imm s) := by
  unfold execIminImm
  exact issueChecks_formed c _ _ hw fun v => by simp [hw]

@[simp] theorem execImax_formed (c : Common) (d a b : Name) (t : ITy) (s : State) (hw : Memory.wf s.mem = true) : Formed (execImax c d a b t s) := by
  unfold execImax
  exact issueChecks_formed c _ _ hw fun v => by simp [hw]

@[simp] theorem execImaxImm_formed (c : Common) (d a : Name) (imm : Int) (s : State) (hw : Memory.wf s.mem = true) : Formed (execImaxImm c d a imm s) := by
  unfold execImaxImm
  exact issueChecks_formed c _ _ hw fun v => by simp [hw]

@[simp] theorem execLogt_formed (c : Common) (d a b : Name) (tbl : Nat) (s : State) (hw : Memory.wf s.mem = true) : Formed (execLogt c d a b tbl s) := by
  unfold execLogt
  exact issueChecks_formed c _ _ hw fun v => by simp [hw]

@[simp] theorem execShl_formed (c : Common) (d a n : Name) (w64 : Bool) (s : State) (hw : Memory.wf s.mem = true) : Formed (execShl c d a n w64 s) := by
  unfold execShl
  exact issueChecks_formed c _ _ hw fun v => by simp [hw]

@[simp] theorem execShlImm_formed (c : Common) (d a : Name) (imm : Nat) (s : State) (hw : Memory.wf s.mem = true) : Formed (execShlImm c d a imm s) := by
  unfold execShlImm
  exact issueChecks_formed c _ _ hw fun v => by simp [hw]

@[simp] theorem execShr_formed (c : Common) (d a n : Name) (w64 : Bool) (s : State) (hw : Memory.wf s.mem = true) : Formed (execShr c d a n w64 s) := by
  unfold execShr
  exact issueChecks_formed c _ _ hw fun v => by simp [hw]

@[simp] theorem execShrImm_formed (c : Common) (d a : Name) (imm : Nat) (s : State) (hw : Memory.wf s.mem = true) : Formed (execShrImm c d a imm s) := by
  unfold execShrImm
  exact issueChecks_formed c _ _ hw fun v => by simp [hw]

@[simp] theorem execSar_formed (c : Common) (d a n : Name) (w64 : Bool) (s : State) (hw : Memory.wf s.mem = true) : Formed (execSar c d a n w64 s) := by
  unfold execSar
  exact issueChecks_formed c _ _ hw fun v => by simp [hw]

@[simp] theorem execSarImm_formed (c : Common) (d a : Name) (imm : Nat) (s : State) (hw : Memory.wf s.mem = true) : Formed (execSarImm c d a imm s) := by
  unfold execSarImm
  exact issueChecks_formed c _ _ hw fun v => by simp [hw]

@[simp] theorem execRot_formed (c : Common) (d a n : Name) (w64 : Bool) (s : State) (hw : Memory.wf s.mem = true) : Formed (execRot c d a n w64 s) := by
  unfold execRot
  exact issueChecks_formed c _ _ hw fun v => by simp [hw]

@[simp] theorem execRotImm_formed (c : Common) (d a : Name) (imm : Nat) (s : State) (hw : Memory.wf s.mem = true) : Formed (execRotImm c d a imm s) := by
  unfold execRotImm
  exact issueChecks_formed c _ _ hw fun v => by simp [hw]

@[simp] theorem execFunl_formed (c : Common) (d lo hi n : Name) (left : Bool) (s : State) (hw : Memory.wf s.mem = true) : Formed (execFunl c d lo hi n left s) := by
  unfold execFunl
  exact issueChecks_formed c _ _ hw fun v => by simp [hw]

@[simp] theorem execBfx_formed (c : Common) (d a f : Name) (t : Sgn) (s : State) (hw : Memory.wf s.mem = true) : Formed (execBfx c d a f t s) := by
  unfold execBfx
  exact issueChecks_formed c _ _ hw fun v => by simp [hw]

@[simp] theorem execBfi_formed (c : Common) (d ins base f : Name) (s : State) (hw : Memory.wf s.mem = true) : Formed (execBfi c d ins base f s) := by
  unfold execBfi
  exact issueChecks_formed c _ _ hw fun v => by simp [hw]

@[simp] theorem execPopc_formed (c : Common) (d a : Name) (w64 : Bool) (s : State) (hw : Memory.wf s.mem = true) : Formed (execPopc c d a w64 s) := by
  unfold execPopc
  exact issueChecks_formed c _ _ hw fun v => by simp [hw]

@[simp] theorem execClz_formed (c : Common) (d a : Name) (w64 : Bool) (s : State) (hw : Memory.wf s.mem = true) : Formed (execClz c d a w64 s) := by
  unfold execClz
  exact issueChecks_formed c _ _ hw fun v => by simp [hw]

@[simp] theorem execCtz_formed (c : Common) (d a : Name) (w64 : Bool) (s : State) (hw : Memory.wf s.mem = true) : Formed (execCtz c d a w64 s) := by
  unfold execCtz
  exact issueChecks_formed c _ _ hw fun v => by simp [hw]

@[simp] theorem execBrev_formed (c : Common) (d a : Name) (w64 : Bool) (s : State) (hw : Memory.wf s.mem = true) : Formed (execBrev c d a w64 s) := by
  unfold execBrev
  exact issueChecks_formed c _ _ hw fun v => by simp [hw]

@[simp] theorem execLea_formed (c : Common) (d base idx off : Name) (scale : Nat) (t : Sgn) (s : State) (hw : Memory.wf s.mem = true) : Formed (execLea c d base idx off scale t s) := by
  unfold execLea
  exact issueChecks_formed c _ _ hw fun v => by simp [hw]

@[simp] theorem execIcmp_formed (c : Common) (pd : Nat) (a b : Name) (cond : ICond) (t : ITy) (s : State) (hw : Memory.wf s.mem = true) : Formed (execIcmp c pd a b cond t s) := by
  unfold execIcmp
  exact issueChecks_formed c _ _ hw fun v => by simp [hw]

@[simp] theorem execSel_formed (c : Common) (d a b : Name) (ps : Nat) (inv w64 : Bool) (s : State) (hw : Memory.wf s.mem = true) : Formed (execSel c d a b ps inv w64 s) := by
  unfold execSel
  exact issueChecks_formed c _ _ hw fun v => by simp [hw]

@[simp] theorem execPlog_formed (c : Common) (pd pa pb tbl : Nat) (s : State) (hw : Memory.wf s.mem = true) : Formed (execPlog c pd pa pb tbl s) := by
  unfold execPlog
  exact issueChecks_formed c _ _ hw fun v => by simp [hw]

@[simp] theorem execPrd_formed (c : Common) (d : Name) (bank : Nat) (s : State) (hw : Memory.wf s.mem = true) : Formed (execPrd c d bank s) := by
  unfold execPrd
  exact issueChecks_formed c _ _ hw fun v => by simp [hw]

@[simp] theorem execPwr_formed (c : Common) (a m : Name) (bank : Nat) (s : State) (hw : Memory.wf s.mem = true) : Formed (execPwr c a m bank s) := by
  unfold execPwr
  exact issueChecks_formed c _ _ hw fun v => by simp [hw]

end Sys2Proof.Machine
end

section
/-! O60. The registers and the exchange instructions keep memory in its canonical form. -/

namespace Sys2Proof.Machine

/-- A register write that is taken leaves memory in its canonical form. -/
def Stored (o : Option State) : Prop := ∀ t, o = some t → Memory.wf t.mem = true

theorem stored_some (s : State) : Stored (some s) ↔ Memory.wf s.mem = true :=
  ⟨fun h => h s rfl, fun h t eq => by cases eq; exact h⟩

theorem stored_none : Stored none := fun _ no => absurd no (Option.some_ne_none _).symm

theorem stored_ite {p : Prop} [Decidable p] {a b : Option State} (ha : Stored a) (hb : Stored b) : Stored (if p then a else b) := by
  split
  · exact ha
  · exact hb

@[simp] theorem whenRunning_formed (s : State) (f : State → State) (hw : Memory.wf s.mem = true)
    (hf : ∀ s : State, Memory.wf s.mem = true → Memory.wf (f s).mem = true) : Formed (whenRunning s f) := by
  unfold whenRunning
  rw [formed_next]
  split
  · exact hf s hw
  · exact hw

@[simp] theorem execReset_formed (s : State) (hw : Memory.wf s.mem = true) : Formed (execReset s) := by simp +contextual [execReset, hw]

@[simp] theorem execBootVerify_formed (die : Nat) (verdict : Nat) (s : State) (hw : Memory.wf s.mem = true) : Formed (execBootVerify die verdict s) := by simp +contextual [execBootVerify, hw]

@[simp] theorem writePartition_mem (v : DWord) (s : State) : (writePartition v s).mem = s.mem := by simp [writePartition]

@[simp] theorem execPartitionWrite_formed (v : DWord) (s : State) (hw : Memory.wf s.mem = true) : Formed (execPartitionWrite v s) := by simp +contextual [execPartitionWrite, hw]

@[simp] theorem execPartitionApply_formed (s : State) (hw : Memory.wf s.mem = true) : Formed (execPartitionApply s) := by
  unfold execPartitionApply
  split
  · simp [hw]
  · split
    · simp [hw]
    · have written : ∀ dirty : Tab Nat, Memory.wf (dirty.foldl (fun s e => writeBackLine s e.1) s).mem = true :=
        fun dirty => foldl_wf (fun s e hw => by simp [hw]) hw
      exact (formed_next _).2 (twf_filter _ _ _ (written _))

@[simp] theorem writeChain_mem (k : Nat) (v : DWord) (s : State) : (writeChain k v s).mem = s.mem := by simp [writeChain]

@[simp] theorem execChainEnable_formed (chain : Nat) (v : DWord) (s : State) (hw : Memory.wf s.mem = true) : Formed (execChainEnable chain v s) := by simp +contextual [execChainEnable, hw]

@[simp] theorem execChainTailWrite_formed (chain : Nat) (v : DWord) (s : State) (hw : Memory.wf s.mem = true) : Formed (execChainTailWrite chain v s) := by simp +contextual [execChainTailWrite, hw]

@[simp] theorem execChainErrClear_formed (chain : Nat) (v : DWord) (s : State) (hw : Memory.wf s.mem = true) : Formed (execChainErrClear chain v s) := by simp +contextual [execChainErrClear, hw]

@[simp] theorem writeTimed_mem (j : Nat) (v : DWord) (s : State) : (writeTimed j v s).mem = s.mem := by simp [writeTimed]

@[simp] theorem execTimedEntryEnable_formed (entry : Nat) (v : DWord) (s : State) (hw : Memory.wf s.mem = true) : Formed (execTimedEntryEnable entry v s) := by simp +contextual [execTimedEntryEnable, hw]

@[simp] theorem execOvrWrite_formed (entry : Nat) (v : DWord) (s : State) (hw : Memory.wf s.mem = true) : Formed (execOvrWrite entry v s) := by simp +contextual [execOvrWrite, hw]

@[simp] theorem writeKill_wf (v : DWord) (s : State) (hw : Memory.wf s.mem = true) : Memory.wf (writeKill v s).mem = true := by
  have killed : ∀ (ids : List Nat) (s : State), Memory.wf s.mem = true → Memory.wf (ids.foldl (killLaunch true) s).mem = true :=
    fun ids s hw => foldl_wf (fun s id hw => killLaunch_wf true s id hw) hw
  have discarded : ∀ (ts : List Team) (s : State), Memory.wf s.mem = true →
      Memory.wf (ts.foldl (fun s t => discardLaunches s t.die t) s).mem = true :=
    fun ts s hw => foldl_wf (fun s t hw => discardLaunches_wf s t.die t hw) hw
  -- the word that the register keeps, opaque: its literals are too deep for the kernel
  have kept : ∀ (p : Prop) [Decidable p] (x : List Nat × Nat) (keep : State), keep.mem = s.mem → Memory.wf (if p then keep else
      let s1 := x.1.foldl (killLaunch true) keep
      let ctx := fld v.toNat 1 0 == 2
      let s1 := if ctx then
          let mine := s1.teams.filter (fun t => t.ctx == fld v.toNat 13 6)
          let s1 := mine.foldl (fun s t => discardLaunches s t.die t) s1
          { s1 with teams := s1.teams.map (fun t => if t.ctx = fld v.toNat 13 6 then t.kill else t) }
        else s1
      let wait := (s1.teams.filter (fun t => x.1.contains t.launch || (ctx && t.ctx == fld v.toNat 13 6))).map (·.uid)
      setMgmt s1 (fun m => { m with killStatus := x.2, killWait := wait, killBusy := !wait.isEmpty })).mem = true := by
    intro p _ x keep eq
    have hw : Memory.wf keep.mem = true := by rw [eq, hw]
    split
    · exact hw
    · simp only [setMgmt_mem]
      split
      · exact discarded _ _ (killed _ _ hw)
      · exact killed _ _ hw
  exact kept _ _ _ (setMgmt_mem ..)

@[simp] theorem execKillLaunch_formed (v : DWord) (s : State) (hw : Memory.wf s.mem = true) : Formed (execKillLaunch v s) := by simp +contextual [execKillLaunch, hw]

@[simp] theorem execKillContext_formed (v : DWord) (s : State) (hw : Memory.wf s.mem = true) : Formed (execKillContext v s) := by simp +contextual [execKillContext, hw]

@[simp] theorem execKillEntry_formed (v : DWord) (s : State) (hw : Memory.wf s.mem = true) : Formed (execKillEntry v s) := by simp +contextual [execKillEntry, hw]

@[simp] theorem writeDebug_mem (v : DWord) (s : State) : (writeDebug v s).mem = s.mem := by simp [writeDebug]

@[simp] theorem execDebugResume_formed (v : DWord) (s : State) (hw : Memory.wf s.mem = true) : Formed (execDebugResume v s) := by simp +contextual [execDebugResume, hw]

@[simp] theorem writeDegrade_mem (v : DWord) (s : State) : (writeDegrade v s).mem = s.mem := by simp [writeDegrade]

@[simp] theorem execDegradeWrite_formed (v : DWord) (s : State) (hw : Memory.wf s.mem = true) : Formed (execDegradeWrite v s) := by simp +contextual [execDegradeWrite, hw]

@[simp] theorem writeDevice_mem (v : DWord) (s : State) : (writeDevice v s).mem = s.mem := by simp [writeDevice]

@[simp] theorem execDeviceNumberWrite_formed (v : DWord) (s : State) (hw : Memory.wf s.mem = true) : Formed (execDeviceNumberWrite v s) := by simp +contextual [execDeviceNumberWrite, hw]

@[simp] theorem writeKeyCtl_mem (v : DWord) (s : State) : (writeKeyCtl v s).mem = s.mem := by simp [writeKeyCtl]

@[simp] theorem execKeyInstall_formed (v : DWord) (s : State) (hw : Memory.wf s.mem = true) : Formed (execKeyInstall v s) := by simp +contextual [execKeyInstall, hw]

@[simp] theorem execKeyDestroy_formed (v : DWord) (s : State) (hw : Memory.wf s.mem = true) : Formed (execKeyDestroy v s) := by simp +contextual [execKeyDestroy, hw]

@[simp] theorem scramble_wf (s : State) (ctx : Nat) (hw : Memory.wf s.mem = true) : Memory.wf (scramble s ctx).mem = true := by
  refine foldl_wf (fun s e hw => ?_) hw
  dsimp only
  split
  · exact hw
  · exact putBytes_formed _ _ _ hw

@[simp] theorem dropMscLine_wf (s : State) (line : Nat) (hw : Memory.wf s.mem = true) : Memory.wf (dropMscLine s line).mem = true := by
  unfold dropMscLine
  repeat' split
  all_goals simp +contextual [hw]

@[simp] theorem execKeyOperationDone_formed (s : State) (hw : Memory.wf s.mem = true) : Formed (execKeyOperationDone s) := by
  have dropped : ∀ (ls : List Nat) (s : State), Memory.wf s.mem = true → Memory.wf (ls.foldl dropMscLine s).mem = true :=
    fun ls s hw => foldl_wf (fun s l hw => dropMscLine_wf s l hw) hw
  unfold execKeyOperationDone
  split
  · simp [hw]
  · dsimp only
    split
    · simp [hw]
    · rw [formed_next, setMgmt_mem]
      exact dropped _ _ hw

@[simp] theorem writeClock_mem (v : DWord) (s : State) : (writeClock v s).mem = s.mem := by simp [writeClock]

@[simp] theorem execClockStep_formed (v : DWord) (s : State) (hw : Memory.wf s.mem = true) : Formed (execClockStep v s) := by simp +contextual [execClockStep, hw]

@[simp] theorem writeRti_mem (die : Nat) (v : DWord) (s : State) : (writeRti die v s).mem = s.mem := by simp [writeRti]

@[simp] theorem execRtiWrite_formed (die : Nat) (v : DWord) (s : State) (hw : Memory.wf s.mem = true) : Formed (execRtiWrite die v s) := by simp +contextual [execRtiWrite, hw]

@[simp] theorem writePcap_mem (v : DWord) (s : State) : (writePcap v s).mem = s.mem := by simp [writePcap]

@[simp] theorem execPcapWrite_formed (v : DWord) (s : State) (hw : Memory.wf s.mem = true) : Formed (execPcapWrite v s) := by simp +contextual [execPcapWrite, hw]

@[simp] theorem writePerf_mem (v : DWord) (s : State) : (writePerf v s).mem = s.mem := by simp [writePerf]

@[simp] theorem execPerfReqWrite_formed (v : DWord) (s : State) (hw : Memory.wf s.mem = true) : Formed (execPerfReqWrite v s) := by simp +contextual [execPerfReqWrite, hw]

@[simp] theorem execEventQueueConfig_formed (die : Nat) (lcap : Bool) (v : DWord) (s : State) (hw : Memory.wf s.mem = true) : Formed (execEventQueueConfig die lcap v s) := by simp +contextual [execEventQueueConfig, hw]

@[simp] theorem execEventQueueHeadWrite_formed (die : Nat) (v : DWord) (s : State) (hw : Memory.wf s.mem = true) : Formed (execEventQueueHeadWrite die v s) := by simp +contextual [execEventQueueHeadWrite, hw]

@[simp] theorem execFaultRingConfig_formed (die : Nat) (lcap : Bool) (v : DWord) (s : State) (hw : Memory.wf s.mem = true) : Formed (execFaultRingConfig die lcap v s) := by simp +contextual [execFaultRingConfig, hw]

@[simp] theorem execFaultRingHeadWrite_formed (die : Nat) (v : DWord) (s : State) (hw : Memory.wf s.mem = true) : Formed (execFaultRingHeadWrite die v s) := by simp +contextual [execFaultRingHeadWrite, hw]

@[simp] theorem writeAttest_mem (v : DWord) (s : State) : (writeAttest v s).mem = s.mem := by simp [writeAttest]

@[simp] theorem execAttestRequest_formed (v : DWord) (s : State) (hw : Memory.wf s.mem = true) : Formed (execAttestRequest v s) := by simp +contextual [execAttestRequest, hw]

@[simp] theorem execAttestReportWrite_formed (s : State) (hw : Memory.wf s.mem = true) : Formed (execAttestReportWrite s) := by simp +contextual [execAttestReportWrite, hw]

theorem plainRegister_wf (off : Nat) (v : DWord) (s : State) (hw : Memory.wf s.mem = true) : Stored (plainRegister off v s) := by
  delta plainRegister
  extract_lets n m
  have hm : ∀ f, Stored (m f) := fun f => (stored_some _).2 hw
  clear_value n m
  have chain : ∀ k f, Stored (some (modChain s k f)) := fun k f => (stored_some _).2 (by rw [modChain_mem, hw])
  have timed : ∀ k f, Stored (some (modTimed s k f)) := fun k f => (stored_some _).2 (by rw [modTimed_mem, hw])
  have key : Stored (some (writeKeyCtl v s)) := (stored_some _).2 (by rw [writeKeyCtl_mem, hw])
  refine stored_ite stored_none (stored_ite (stored_ite key stored_none) (stored_ite (stored_ite
    ((stored_some _).2 (writeKill_wf v s hw)) stored_none) ?_))
  iterate 7 refine stored_ite (hm _) ?_
  refine stored_ite (hm _) (stored_ite (hm _) (stored_ite ?_ (stored_ite (chain _ _) (stored_ite ?_ (stored_ite (timed _ _)
    (stored_ite (hm _) (stored_ite (hm _) stored_none)))))))
  · split
    · exact chain _ _
    · exact chain _ _
    · exact stored_none
  · split
    · exact timed _ _
    · exact timed _ _
    · exact stored_none

@[simp] theorem execRegisterWrite_formed (off : Nat) (v : DWord) (s : State) (hw : Memory.wf s.mem = true) :
    Formed (execRegisterWrite off v s) := by
  refine whenRunning_formed s _ hw fun s hw => ?_
  have stored := plainRegister_wf off v s hw
  generalize plainRegister off v s = o at stored ⊢
  cases o with
  | none => exact hw
  | some t => exact stored t rfl

@[simp] theorem execQswp_formed (c : Common) (d v m f : Name) (pv : Nat) (s : State) (hw : Memory.wf s.mem = true) : Formed (execQswp c d v m f pv s) := by
  unfold execQswp
  exact issueChecks_formed c _ _ hw fun v => by simp [hw]

@[simp] theorem execQbc_formed (c : Common) (d v j f : Name) (pv : Nat) (s : State) (hw : Memory.wf s.mem = true) : Formed (execQbc c d v j f pv s) := by
  unfold execQbc
  exact issueChecks_formed c _ _ hw fun v => by simp [hw]

@[simp] theorem execQdx_formed (c : Common) (d v f : Name) (pv : Nat) (s : State) (hw : Memory.wf s.mem = true) : Formed (execQdx c d v f pv s) := by
  unfold execQdx
  exact issueChecks_formed c _ _ hw fun v => by simp [hw]

@[simp] theorem execQdy_formed (c : Common) (d v f : Name) (pv : Nat) (s : State) (hw : Memory.wf s.mem = true) : Formed (execQdy c d v f pv s) := by
  unfold execQdy
  exact issueChecks_formed c _ _ hw fun v => by simp [hw]

@[simp] theorem execPerm_formed (c : Common) (d v x f : Name) (pv : Nat) (s : State) (hw : Memory.wf s.mem = true) : Formed (execPerm c d v x f pv s) := by
  unfold execPerm
  exact issueChecks_formed c _ _ hw fun v => by simp [hw]

@[simp] theorem execShup_formed (c : Common) (d v n f : Name) (pv : Nat) (s : State) (hw : Memory.wf s.mem = true) : Formed (execShup c d v n f pv s) := by
  unfold execShup
  exact issueChecks_formed c _ _ hw fun v => by simp [hw]

@[simp] theorem execShdn_formed (c : Common) (d v n f : Name) (pv : Nat) (s : State) (hw : Memory.wf s.mem = true) : Formed (execShdn c d v n f pv s) := by
  unfold execShdn
  exact issueChecks_formed c _ _ hw fun v => by simp [hw]

@[simp] theorem execShxr_formed (c : Common) (d v n f : Name) (pv : Nat) (s : State) (hw : Memory.wf s.mem = true) : Formed (execShxr c d v n f pv s) := by
  unfold execShxr
  exact issueChecks_formed c _ _ hw fun v => by simp [hw]

@[simp] theorem execVote_formed (c : Common) (d v : Name) (m : Vote) (s : State) (hw : Memory.wf s.mem = true) : Formed (execVote c d v m s) := by
  unfold execVote
  exact issueChecks_formed c _ _ hw fun v => by simp [hw]

@[simp] theorem execMtch_formed (c : Common) (d v : Name) (w64 : Bool) (s : State) (hw : Memory.wf s.mem = true) : Formed (execMtch c d v w64 s) := by
  unfold execMtch
  exact issueChecks_formed c _ _ hw fun v => by simp [hw]

@[simp] theorem execGscan_formed (c : Common) (d v seed : Name) (op : RedOp) (s : State) (hw : Memory.wf s.mem = true) : Formed (execGscan c d v seed op s) := by
  unfold execGscan
  exact issueChecks_formed c _ _ hw fun v => by simp [hw]

@[simp] theorem execGred_formed (c : Common) (d v : Name) (op : RedOp) (s : State) (hw : Memory.wf s.mem = true) : Formed (execGred c d v op s) := by
  unfold execGred
  exact issueChecks_formed c _ _ hw fun v => by simp [hw]

@[simp] theorem execRdix_formed (c : Common) (d base idx f : Name) (pv : Nat) (s : State) (hw : Memory.wf s.mem = true) : Formed (execRdix c d base idx f pv s) := by
  unfold execRdix
  exact issueChecks_formed c _ _ hw fun v => by simp [hw]

@[simp] theorem execWrix_formed (c : Common) (base v idx : Name) (pv : Nat) (s : State) (hw : Memory.wf s.mem = true) : Formed (execWrix c base v idx pv s) := by
  unfold execWrix
  exact issueChecks_formed c _ _ hw fun v => by simp [hw]

end Sys2Proof.Machine
end

section
/-! O60. Every step keeps memory in its canonical form. -/

namespace Sys2Proof.Machine

/-- Every instruction and every step of the table keeps memory in its canonical form: the lemma of its own arm. -/
theorem exec_formed (i : Instr) (s : State) (hw : Memory.wf s.mem = true) : Formed (exec i s) := by
  cases i
  all_goals simp only [exec]
  all_goals simp [hw]

theorem doMove_formed (m : Move) (s : State) (hw : Memory.wf s.mem = true) : Formed (doMove m s) := by
  cases m with
  | tick n => simp [doMove, hw]
  | event i => exact exec_formed i _ hw
  | slot core bay =>
    unfold doMove
    dsimp only
    split
    · simp [hw]
    · split
      · simp [hw]
      · exact exec_formed _ _ hw

/-- Settles O60: a step does one move, and every move keeps the form (`doMove_formed`). -/
theorem stepKeepsMemoryForm : Obligations.StepKeepsMemoryForm := by
  intro s t inv eq
  exact doMove_formed (nextMove s).1 { s with agenda := (nextMove s).2 } inv t eq

end Sys2Proof.Machine
end
